-- ==== Sys2Proof/Word.lean ====
section
/-! DEFINITION. Word types and the small closed vocabularies that instruction fields are decoded into. -/

namespace Sys2Proof

abbrev Byte := BitVec 8
/-- A vector register in one lane (R133). -/
abbrev Word := BitVec 32
/-- A scalar register, a PC, an address register (R133, R252). -/
abbrev DWord := BitVec 64

/-- An operand byte of the instruction word (R258). `v n` and `s n` are register numbers; `imm` is the immediate. -/
inductive Opnd where
  | v (n : Nat)
  | s (n : Nat)
  | zero
  | lane
  | slot
  | imm
  deriving DecidableEq, Repr, Inhabited

/-- A Deck operand byte (R177, R344): a cell register, a cell coordinate, or a scalar operand. -/
inductive CellOp where
  | cell (n : Nat)
  | cx
  | cy
  | scalar (o : Opnd)
  deriving DecidableEq, Repr, Inhabited

/-- A predicate named by an operand field: `q = false` is p`ix`, `q = true` is q`ix` (R258, R294). -/
structure PredOp where
  q  : Bool
  ix : Nat
  deriving DecidableEq, Repr, Inhabited

/-- One guard field, G1 or G2: bit 3 negates, bits [2:0] index (R23, R255). -/
structure Guard where
  neg : Bool
  ix  : Nat
  deriving DecidableEq, Repr, Inhabited

/-- The guard 0b0111, always true. -/
def Guard.always : Guard := ⟨false, 7⟩

/-- What every instruction word carries beside its operands (R251): the guards, the hint CH, the marks W and R, and the immediate
IM of R259 (IMM32 when X = 0, SEXT(IMM24, 32) when X = 1). -/
structure Hdr where
  g1  : Guard
  g2  : Guard
  ch  : Nat
  w   : Bool
  r   : Bool
  imm : Word
  deriving DecidableEq, Repr, Inhabited

/-- The element types of R262, in code order. -/
inductive Ty where
  | u32 | s32 | u64 | s64 | f32 | f16x2 | bf16x2 | u16x2 | s16x2 | u8x4 | s8x4 | f16 | bf16
  deriving DecidableEq, Repr, Inhabited

/-- The order of a memory access, C[44:43] (R264). -/
inductive Order where
  | relaxed | acquire | release | acqRel
  deriving DecidableEq, Repr, Inhabited

/-- The scopes of R213. -/
inductive Scope where
  | slice | crew | span | tower | domain | system
  deriving DecidableEq, Repr, Inhabited

/-- The memory operand of R264: base A, index B, scale 0 to 3, order, scope, .r; the offset is the header's immediate. -/
structure MemOp where
  base  : Opnd
  index : Opnd
  scale : Nat
  order : Order
  scope : Scope
  r     : Bool
  deriving DecidableEq, Repr, Inhabited

/-- Comparison conditions of ICMP, FCMP, DKTEST and DKOP.cmp in FN order (R276, R284, R346). -/
inductive Cond where
  | eq | ne | lt | le | gt | ge | num | nan
  deriving DecidableEq, Repr, Inhabited

/-- Conditions of WAITMEM (R331) and of a chain's IF of KIND 0 (R112), in code order. -/
inductive WCond where
  | eq | ne | ltu | geu | lts | ges
  deriving DecidableEq, Repr, Inhabited

/-- FRND's direction (R283). -/
inductive RndDir where
  | rne | floor | ceil | trunc
  deriving DecidableEq, Repr, Inhabited

/-- FSGN's operation (R283). -/
inductive SgnOp where
  | copy | ncopy | xor | abs | neg
  deriving DecidableEq, Repr, Inhabited

/-- FCVT's source (R287). -/
inductive CvtSrc where
  | f32 | f16 | bf16 | f16h | bf16h
  deriving DecidableEq, Repr, Inhabited

/-- I2F's source (R288). -/
inductive IntSrc where
  | u32 | s32 | u64 | s64 | u16 | s16 | u8 | s8
  deriving DecidableEq, Repr, Inhabited

/-- F2I's source (R289). -/
inductive FltSrc where
  | f32 | f16 | bf16
  deriving DecidableEq, Repr, Inhabited

/-- LXCH's mode (R301). -/
inductive LxMode where
  | pick | rot | slide | mirror
  deriving DecidableEq, Repr, Inhabited

/-- REDUX and SCAN operations (R301); `add`, `min`, `max` also serve DKSUM (R345) and Trestle REDUCE (R113). -/
inductive RedOp where
  | add | min | max | and | or | xor
  deriving DecidableEq, Repr, Inhabited

/-- ATOM's operations (R316); RED and NMRED take the first six (R319). -/
inductive AtomOp where
  | add | min | max | and | or | xor | exch | inc | dec
  deriving DecidableEq, Repr, Inhabited

/-- VOTE's forms (R301): a predicate destination, or `mask` with a register destination. -/
inductive VoteOp where
  | any (pd : PredOp)
  | all (pd : PredOp)
  | eq (pd : PredOp)
  | mask (d : Opnd)
  deriving DecidableEq, Repr, Inhabited

/-- Size codes of LD and ST (R314). -/
inductive LdSize where
  | b8 | b16 | b32 | b64 | b128 | sb8 | sb16
  deriving DecidableEq, Repr, Inhabited

/-- Size codes of LDL and STL (R315). -/
inductive LclSize where
  | b8 | b16 | b32 | b64
  deriving DecidableEq, Repr, Inhabited

/-- Local spaces, FN[3:2] of LDL and STL (R122). -/
inductive LclSpace where
  | stash | span | remote
  deriving DecidableEq, Repr, Inhabited

/-- Tile owners (R95, R118); in span scratch code 3 is never held. -/
inductive Owner where
  | slices | trestle | girder | deck
  deriving DecidableEq, Repr, Inhabited

/-- The orders of FENCE with an order (R324). -/
inductive FenceKind where
  | acq | rel | ar
  deriving DecidableEq, Repr, Inhabited

/-- DKOP's functions (R346). -/
inductive DkFn where
  | add | sub | mul | fma | min | max | and | or | xor | shl | shr | sar | sel | cmp | mov | rcp
  deriving DecidableEq, Repr, Inhabited

/-- DKTEST's tests (R347): a comparison of `a` and `b`, or the cell's flags under a mask. -/
inductive DkTest where
  | cmp (c : Cond) (t : Ty) (a b : CellOp)
  | flag (b : CellOp)
  deriving DecidableEq, Repr, Inhabited

/-- The role of a slice (R138), in code order. -/
inductive Role where
  | vec | copy | mat | deck
  deriving DecidableEq, Repr, Inhabited

end Sys2Proof
end

