-- ==== Sys2Proof/Syntax.lean ====
section
/-! DEFINITION. The instruction type: one constructor per row of spec/opcode_table.json, in the table's order. A device instruction
carries its decoded fields; an event row carries where it happens (identities of R3's numbering, extended over the domain: tower =
package·8 + tower, cluster = tower·8 + cluster, core = cluster·16 + core; slices, crews, spans and launches by the model's identities). -/

namespace Sys2Proof

inductive Instr where
  -- Control (R304 to R311)
  | nop (h : Hdr)
  | bra (h : Hdr)
  | braUni (h : Hdr)
  | brx (h : Hdr) (a : Opnd)
  | call (h : Hdr) (d : Opnd)
  | callx (h : Hdr) (d a : Opnd)
  | ret (h : Hdr) (a : Opnd)
  | brace (h : Hdr)
  | meet (h : Hdr)
  | exit (h : Hdr)
  | regang (h : Hdr)
  | yield (h : Hdr)
  | sleep (h : Hdr) (a : Opnd)
  | trap (h : Hdr)
  | bpt (h : Hdr)
  | rteRetry (h : Hdr)
  | rteResume (h : Hdr)
  | step (h : Hdr)
  -- Integer arithmetic (R274 to R278)
  | iadd (h : Hdr) (sat : Bool) (t : Ty) (d a b : Opnd)
  | isub (h : Hdr) (sat : Bool) (t : Ty) (d a b : Opnd)
  | imul (h : Hdr) (t : Ty) (d a b : Opnd)
  | imulh (h : Hdr) (t : Ty) (d a b : Opnd)
  | imad (h : Hdr) (acc64 : Bool) (t : Ty) (d a b c : Opnd)
  | imin (h : Hdr) (t : Ty) (d a b : Opnd)
  | imax (h : Hdr) (t : Ty) (d a b : Opnd)
  | iabs (h : Hdr) (sat : Bool) (t : Ty) (d a : Opnd)
  | iadd3 (h : Hdr) (t : Ty) (d a b c : Opnd)
  | iaddc (h : Hdr) (sub : Bool) (p : Nat) (t : Ty) (d a b : Opnd)
  | icmp (h : Hdr) (cond : Cond) (t : Ty) (pd : PredOp) (a b : Opnd)
  | isel (h : Hdr) (neg : Bool) (p : Nat) (t : Ty) (d a b : Opnd)
  | lea (h : Hdr) (n : Nat) (t : Ty) (d a b : Opnd)
  | isad (h : Hdr) (t : Ty) (d a b c : Opnd)
  | idot4 (h : Hdr) (mix sat : Bool) (t : Ty) (d a b c : Opnd)
  -- Logic and bits (R279 to R282)
  | and (h : Hdr) (inv : Bool) (t : Ty) (d a b : Opnd)
  | or (h : Hdr) (inv : Bool) (t : Ty) (d a b : Opnd)
  | xor (h : Hdr) (inv : Bool) (t : Ty) (d a b : Opnd)
  | mix3 (h : Hdr) (t : Ty) (d a b c : Opnd)
  | shl (h : Hdr) (wrap : Bool) (t : Ty) (d a b : Opnd)
  | shr (h : Hdr) (wrap : Bool) (t : Ty) (d a b : Opnd)
  | sar (h : Hdr) (wrap : Bool) (t : Ty) (d a b : Opnd)
  | rot (h : Hdr) (right : Bool) (t : Ty) (d a b : Opnd)
  | fshf (h : Hdr) (left clamp : Bool) (d a b c : Opnd)
  | bfx (h : Hdr) (t : Ty) (d a b c : Opnd)
  | bfi (h : Hdr) (t : Ty) (d a b c e : Opnd)
  | popc (h : Hdr) (t : Ty) (d a : Opnd)
  | clz (h : Hdr) (t : Ty) (d a : Opnd)
  | brev (h : Hdr) (t : Ty) (d a : Opnd)
  | bsel (h : Hdr) (d a b c : Opnd)
  | ffs (h : Hdr) (hi : Bool) (t : Ty) (d a : Opnd)
  -- Floating point (R283 to R285)
  | fadd (h : Hdr) (sat : Bool) (t : Ty) (d a b : Opnd)
  | fsub (h : Hdr) (sat : Bool) (t : Ty) (d a b : Opnd)
  | fmul (h : Hdr) (sat : Bool) (t : Ty) (d a b : Opnd)
  | ffma (h : Hdr) (sat : Bool) (t : Ty) (d a b c : Opnd)
  | fmin (h : Hdr) (t : Ty) (d a b : Opnd)
  | fmax (h : Hdr) (t : Ty) (d a b : Opnd)
  | fcmp (h : Hdr) (cond : Cond) (t : Ty) (pd : PredOp) (a b : Opnd)
  | fclass (h : Hdr) (t : Ty) (d a : Opnd)
  | frnd (h : Hdr) (dir : RndDir) (t : Ty) (d a : Opnd)
  | fdp2 (h : Hdr) (t : Ty) (d a b c : Opnd)
  | fscale (h : Hdr) (t : Ty) (d a b : Opnd)
  | fsgn (h : Hdr) (op : SgnOp) (t : Ty) (d a b : Opnd)
  | rcp (h : Hdr) (d a : Opnd)
  | rsq (h : Hdr) (d a : Opnd)
  | sqrt (h : Hdr) (d a : Opnd)
  | exp2 (h : Hdr) (d a : Opnd)
  | log2 (h : Hdr) (d a : Opnd)
  | sin (h : Hdr) (d a : Opnd)
  | cos (h : Hdr) (d a : Opnd)
  | tanh (h : Hdr) (d a : Opnd)
  -- Conversion and sparse compression (R287 to R293)
  | fcvt (h : Hdr) (t : Ty) (src : CvtSrc) (d a b : Opnd)
  | i2f (h : Hdr) (t : Ty) (src : IntSrc) (d a : Opnd)
  | f2i (h : Hdr) (t : Ty) (src : FltSrc) (d a : Opnd)
  | cvtn (h : Hdr) (n : Nat) (d a b : Opnd)
  | cvtw (h : Hdr) (n : Nat) (d a b : Opnd)
  | spcomp (h : Hdr) (t : Ty) (n : Nat) (d a b : Opnd)
  | spexp (h : Hdr) (t : Ty) (d a b : Opnd)
  -- Moves, special registers, predicates (R295 to R299)
  | mov (h : Hdr) (t : Ty) (d a : Opnd)
  | movi (h : Hdr) (t : Ty) (d : Opnd)
  | movih (h : Hdr) (d : Opnd)
  | rdsr (h : Hdr) (t : Ty) (d : Opnd)
  | wrsr (h : Hdr) (t : Ty) (a : Opnd)
  | pmix (h : Hdr) (pd a b c : PredOp)
  | psave (h : Hdr) (q : Bool) (d : Opnd)
  | pload (h : Hdr) (q : Bool) (a : Opnd)
  | flgrd (h : Hdr) (d : Opnd)
  | flgclr (h : Hdr)
  | v2s (h : Hdr) (t : Ty) (d a b : Opnd)
  -- Gang operations (R300 to R303)
  | lxch (h : Hdr) (mode : LxMode) (t : Ty) (d a b : Opnd)
  | vote (h : Hdr) (op : VoteOp) (a : PredOp)
  | redux (h : Hdr) (op : RedOp) (t : Ty) (d a : Opnd)
  | scan (h : Hdr) (op : RedOp) (excl : Bool) (t : Ty) (d a : Opnd)
  | matchLanes (h : Hdr) (same : Bool) (t : Ty) (d a : Opnd)
  | lead (h : Hdr) (pd a : PredOp)
  -- Memory (R312 to R323)
  | ld (h : Hdr) (m : MemOp) (sz : LdSize) (d : Opnd)
  | st (h : Hdr) (m : MemOp) (sz : LdSize) (d : Opnd)
  | ldl (h : Hdr) (m : MemOp) (sp : LclSpace) (sz : LclSize) (sgn : Bool) (d : Opnd)
  | stl (h : Hdr) (m : MemOp) (sp : LclSpace) (sz : LclSize) (d : Opnd)
  | atom (h : Hdr) (m : MemOp) (op : AtomOp) (t : Ty) (d : Opnd)
  | red (h : Hdr) (m : MemOp) (op : AtomOp) (t : Ty) (d : Opnd)
  | cas (h : Hdr) (m : MemOp) (t : Ty) (d e : Opnd)
  | prefL2 (h : Hdr) (m : MemOp)
  | prefLlc (h : Hdr) (m : MemOp)
  | preq (h : Hdr) (m : MemOp)
  | tex (h : Hdr) (d a b c e : Opnd)
  | tld (h : Hdr) (d a b : Opnd)
  | tqry (h : Hdr) (d a : Opnd)
  | nmred (h : Hdr) (m : MemOp) (op : AtomOp) (t : Ty) (d : Opnd)
  | cctlIinv (h : Hdr)
  | cctlWb (h : Hdr) (m : MemOp)
  | cctlEvict (h : Hdr) (m : MemOp)
  -- Synchronisation (R324 to R332)
  | fenceDrain (h : Hdr)
  | fenceOrdered (h : Hdr) (k : FenceKind)
  | bar (h : Hdr)
  | arrive (h : Hdr)
  | await (h : Hdr)
  | rinit (h : Hdr) (ring : Nat) (a : Opnd)
  | rpost (h : Hdr) (ring : Nat) (a : Opnd)
  | rget (h : Hdr) (ring : Nat) (full : Bool) (a : Opnd)
  | rrel (h : Hdr) (ring : Nat) (a : Opnd)
  | town (h : Hdr) (spanSp : Bool) (own : Owner) (a b : Opnd)
  | twait (h : Hdr) (spanSp : Bool) (own : Owner) (a : Opnd)
  | cwait (h : Hdr) (k : Nat) (d a : Opnd)
  | waitmem (h : Hdr) (m : MemOp) (cond : WCond) (t : Ty) (d : Opnd)
  | stmap (h : Hdr) (a b c : Opnd)
  | stunmap (h : Hdr) (a : Opnd)
  | stwb (h : Hdr) (a : Opnd)
  | stinv (h : Hdr) (a : Opnd)
  -- Trestle, multicast, Girder (R336 to R343)
  | trst (h : Hdr) (ch : Nat) (a b : Opnd)
  | trstq (h : Hdr) (ch : Nat) (d : Opnd)
  | trstk (h : Hdr) (ch : Nat)
  | mcgrp (h : Hdr) (d a b : Opnd)
  | mloop (h : Hdr) (a b : Opnd)
  | mloopSp (h : Hdr) (a b : Opnd)
  | maclrFast (h : Hdr) (a : Opnd)
  | maclrExact (h : Hdr) (a b : Opnd)
  | mard (h : Hdr) (bf : Bool) (a b : Opnd)
  | mstat (h : Hdr) (clr : Bool) (d : Opnd)
  -- Deck (R344 to R349)
  | dkwin (h : Hdr) (a : Opnd)
  | dklin (h : Hdr) (d : Nat) (a b c : Opnd)
  | dkedge (h : Hdr) (a b c : Opnd)
  | dkquad (h : Hdr) (d : Nat) (a : Opnd)
  | dkexp (h : Hdr) (d : Nat) (a b : Opnd)
  | dkpush (h : Hdr)
  | dkpop (h : Hdr)
  | dkelse (h : Hdr)
  | dkop (h : Hdr) (fn : DkFn) (t : Ty) (d : Nat) (a b c : CellOp)
  | dkmov (h : Hdr) (d : Nat) (a : CellOp)
  | dkld (h : Hdr) (d : Nat) (a : Opnd)
  | dkst (h : Hdr) (d : CellOp) (a : Opnd)
  | dktex (h : Hdr) (d a : Nat) (b : CellOp) (c e : Opnd)
  | dkany (h : Hdr) (all : Bool) (q : Nat) (a : CellOp)
  | dksum (h : Hdr) (op : RedOp) (t : Ty) (d : Opnd) (a : CellOp)
  | dkxp (h : Hdr) (d : Opnd) (a : CellOp) (b c e : Opnd)
  | dktest (h : Hdr) (test : DkTest)
  | dkflg (h : Hdr) (d : Opnd)
  -- Keystone (R351, R352)
  | ddvar (h : Hdr) (d a : Opnd)
  | ddapp (h : Hdr) (lut : Nat) (d a b : Opnd)
  | ddite (h : Hdr) (d a b c : Opnd)
  | ddnot (h : Hdr) (d a : Opnd)
  | ddres (h : Hdr) (d a b c : Opnd)
  | ddqnt (h : Hdr) (all : Bool) (d a b : Opnd)
  | ddcnt (h : Hdr) (flt : Bool) (d a b c : Opnd)
  | ddexp (h : Hdr) (d a b c : Opnd)
  | ddref (h : Hdr) (a : Opnd)
  | ddunref (h : Hdr) (a : Opnd)
  | ddswp (h : Hdr)
  | ddord (h : Hdr) (a : Opnd)
  | ddstat (h : Hdr) (d a : Opnd)
  | ddnode (h : Hdr) (d a : Opnd)
  -- Procedural, launch, system (R353 to R363)
  | pgreg (h : Hdr) (a b : Opnd)
  | pgregRelease (h : Hdr) (a : Opnd)
  | pgdone (h : Hdr)
  | pgfail (h : Hdr) (a : Opnd)
  | pgrstBlk (h : Hdr) (a : Opnd)
  | pgrstSlot (h : Hdr) (a : Opnd)
  | launch (h : Hdr) (d a : Opnd)
  | lwait (h : Hdr) (d a : Opnd)
  | migr (h : Hdr) (d a : Opnd)
  | shootDg (h : Hdr) (a b c : Opnd)
  | shootFlush (h : Hdr) (a : Opnd)
  | halt (h : Hdr) (d : Opnd)
  | ctxstopPre (h : Hdr) (d a : Opnd)
  | ctxstopKill (h : Hdr) (d a : Opnd)
  | ctxgo (h : Hdr) (a b : Opnd)
  -- The OS core's instruction (R230)
  | fyLaunch (rd rs1 rs2 : Nat)
  -- WRSR to the registers that have rows of their own (R296); the index stands in the immediate
  | writeFlags (h : Hdr) (t : Ty) (a : Opnd)
  | writeDkflags (h : Hdr) (t : Ty) (a : Opnd)
  | writeTrapvec (h : Hdr) (t : Ty) (a : Opnd)
  | writeTrapRegister (h : Hdr) (t : Ty) (a : Opnd)
  | writeFormatRegister (h : Hdr) (t : Ty) (a : Opnd)
  | writeTensorScale (h : Hdr) (t : Ty) (a : Opnd)
  | writeL2wp (h : Hdr) (t : Ty) (a : Opnd)
  -- Events of the core
  | contextRegisterPropagated (ctx ix : Nat)
  | l2wpRaiseDone (cluster : Nat)
  | resultWriteback (sl k : Nat)
  | runArbitration (core slot : Nat)
  | unitWaitRaised (core slot sl : Nat)
  | runLengthCut (core slot : Nat)
  | sleepExpire (sl : Nat)
  | wakeWord (core : Nat) (word : DWord)
  -- Events of the memory system
  | homeReadRequest (sl acc piece : Nat)
  | homeStoreRequest (sl acc piece : Nat)
  | nearMemoryReduction (sl acc piece : Nat)
  | recall (stash : Bool) (holder ctx line : Nat)
  | writebackArrival (k : Nat)
  | bankSleep (bank : Nat)
  | migrationStart (ctx : Nat) (va : DWord)
  | migrationMarkDrained (mig : Nat)
  | migrationLineCopy (mig : Nat)
  | migrationAccess (mig line : Nat)
  | migrationPullDone (mig line : Nat)
  | clearanceRequest (k : Nat)
  | pageWalkDone (tower ctx : Nat) (va : DWord)
  | clearanceAnswer (k : Nat)
  | residencyRequest (k : Nat)
  | shootdownMessage (dg core : Nat)
  | shootdownAnswer (dg core : Nat)
  | downgradeClose (dg : Nat)
  -- Events of procedural ranges
  | procBlockRead (k : Nat)
  | procPrefEvent (k : Nat)
  | generatorLaunch (tower : Nat)
  | fillDoneAtHome (k : Nat)
  | generatorFailure (crew : Nat)
  | procRetryReissue (k : Nat)
  -- Events of Viaduct
  | routerGrant (reply : Bool) (tower stage router out : Nat)
  | ageingSaturate (pkt : Nat)
  | replyArrival (pkt : Nat)
  | windowRaise (core : Nat)
  | windowAdmit (core : Nat)
  | towerLinkForward (pkt : Nat)
  -- Events of the cluster
  | accMerge (core : Nat)
  | mcastRequest (k : Nat)
  | mcastSetLeave (k : Nat)
  | mcastGroupDrained (cluster group : Nat)
  | remoteStashAccess (sl acc piece : Nat)
  -- Events of Trestle
  | trestleEntryFetch (crew ch : Nat)
  | trestleCopy (crew ch ent piece : Nat)
  | trestleGather (crew ch ent piece : Nat)
  | trestleScatter (crew ch ent piece : Nat)
  | trestleMcast (crew ch ent piece : Nat)
  | trestleReduceMemory (crew ch ent piece : Nat)
  | trestleReduceCollective (crew ch : Nat)
  | collectiveContribution (k : Nat)
  | trestleVxfer (crew ch ent piece : Nat)
  | trestleFlip (crew ch : Nat)
  | trestlePost (crew ch : Nat)
  | trestleWaitRing (crew ch : Nat)
  | trestleWaitCounter (crew ch : Nat)
  | trestleWaitSatisfied (crew ch : Nat)
  | trestleLoop (crew ch : Nat)
  | trestleIfWord (crew ch : Nat)
  | trestleIfRing (crew ch : Nat)
  | trestleFill (crew ch ent piece : Nat)
  | trestleEnd (crew ch : Nat)
  | trestleEntryComplete (crew ch ent : Nat)
  -- Events of Girder, the Deck and Keystone
  | girderLoopStart (core : Nat)
  | mloopComplete (core : Nat)
  | deckStart (crew : Nat)
  | keystoneAnswer (sl : Nat)
  -- Events of the scheduler
  | launchReady (launch : Nat)
  | towerBlockDraw (launch tower : Nat)
  | spanStart (tower : Nat)
  | crewStart (crew : Nat)
  | stealRequest (launch cluster : Nat)
  | stepBoundary (launch : Nat)
  | crewEnd (crew : Nat)
  | launchComplete (launch : Nat)
  | stopRequest (ctx : Nat)
  | contextStopped (ctx : Nat)
  | forceReset (ctx : Nat)
  -- Events of the host, Causeway, Equinox and management
  | hostWindowAccess (pkg win off len : Nat) (write : Bool) (data : BitVec 64)
  | linkFailure (pkg link : Nat)
  | linkRetrained (pkg link : Nat)
  | ptpMessage (pkg : Nat) (time : DWord)
  | timePageUpdate (pkg : Nat)
  | equinoxCheck (queue : Nat)
  | equinoxFrameSend (queue : Nat)
  | equinoxStatusWrite (queue : Nat)
  | packageLeave (pkg : Nat)
  | packageReplace (pkg : Nat)
  | vacantIndexTimeout (k : Nat)
  | packageReset (pkg : Nat)
  | trainingComplete (pkg : Nat)
  | replanDue (tower : Nat)
  | replanStarved (tower : Nat)
  | replanStart (tower : Nat)
  | replanDone (tower : Nat)
  | powerCapStep (pkg : Nat) (up : Bool)
  | contextCreation (ctx root migPool procPool drain : Nat) (ks : Nat × List Nat) (sys : Bool) (cap : DWord)
  | osCorePteStore (pkg pa : Nat) (pte : DWord)
  | residencyQueueDrain (tower n : Nat)
  | forceUnmap (ctx : Nat) (va : DWord)
  | managementFlush (ctx line : Nat)
  | domainFormation (n : Nat)
  deriving DecidableEq, Repr, Inhabited

end Sys2Proof
end

