-- ==== Sys2Proof/Config.lean ====
section
/-! DEFINITION. What one implementation fixes and what the spec leaves open: the moves an agent may make, and the free values. No free
value has a body: nothing can be proved about which value it is. -/

namespace Sys2Proof

/-- What the OS cores and the memory devices do beside the opcode table's events: a host window is opened or closed (R365), a present queue is
placed for a context and an endpoint (R370), and a populated line is found to hold an uncorrectable error (R44, R366). -/
inductive Outside where
  | openWindow (pkg win host size ctx va : Nat) (wr : Bool)
  | closeWindow (pkg win : Nat)
  | placeQueue (pkg ctx endpoint va : Nat)
  | memoryError (line : Nat)
  deriving DecidableEq, Repr, Inhabited

/-- Who acts in a step. A device slice unit issues at a slot of a core; `fresh` says, for each of the three words of the instruction,
whether a fetch returns memory (true) or the core's cached copy (false), which R253 leaves open. An OS core issues; an event of the opcode
table happens; the OS cores or a memory device do something else; or `n` clocks pass on a package. -/
inductive Move where
  | issue (core slot : Nat) (fresh : BitVec 3)
  | os (oc : Nat)
  | event (i : Instr)
  | outside (o : Outside)
  | tick (pkg n : Nat)
  deriving DecidableEq, Repr, Inhabited

/-- Which agent acts when the schedule is empty (R14: the order of events is open). -/
opaque Config.freeMove : Nat → Move

/-- An open choice between two outcomes that the spec allows. -/
opaque Config.freeBool : Nat → Bool

/-- An open numeric choice (a pseudo-LRU victim, a covering leaf). -/
opaque Config.freeNat : Nat → Nat

/-- Whether a store of a slice is read early by its other lanes (R208), for each store (log 18). -/
opaque Config.freeEarly : Nat → Bool

/-- The set of its home slice that a line lies in (R34 gives 16 ways of 256-byte lines, and no index; log 22). -/
opaque Config.llcSet : Nat → Nat

/-- The code of an overflow, by sign, in the one format of which MAXF is no code (R159, R160; log 91). -/
opaque Config.openCode : Bool → BitVec 2

/-- STEPPING of the identity record (R380). -/
opaque Config.stepping : BitVec 8

/-- VERSION in the header of the capability record of each ID, which firmware sets (R379). -/
opaque Config.recordVersion : Nat → BitVec 8

/-- An open 64-bit value. -/
opaque Config.freeWord : Nat → DWord

end Sys2Proof
end

