-- ==== Sys2Proof/Machine/Flags.lean ====
section
/-! DEFINITION. The FLAGS word of a slice (R154): its bits and how events are collected. -/

namespace Sys2Proof.Machine

/-- FLAGS, bits [5:0]: NV, DZ, OF, UF, NX, NR (R154). -/
abbrev Flags := BitVec 6

def fNone : Flags := 0
def fNV : Flags := 0x01
def fDZ : Flags := 0x02
def fOF : Flags := 0x04
def fUF : Flags := 0x08
def fNX : Flags := 0x10
def fNR : Flags := 0x20

/-- A flag when a condition holds. -/
def flagIf (c : Bool) (f : Flags) : Flags := if c then f else fNone

/-- A value together with the flags its operation raises. -/
abbrev Fl (α : Type) := α × Flags

/-- The flags of several elements are ORed (R154, R272). -/
def orFlags (fs : List Flags) : Flags := fs.foldl (· ||| ·) fNone

/-- FLAGS as a special register reads (R154): bits [63:6] zero. -/
def flagsRead (f : Flags) : DWord := f.setWidth 64

/-- FLGCLR: the named flags become 0 (R299). -/
def flagsClear (f : Flags) (mask : Word) : Flags := f &&& ~~~ (mask.setWidth 6)

end Sys2Proof.Machine
end

