-- ==== Sys2Proof/Machine/Num.lean ====
section
/-! DEFINITION. Floating-point and narrow formats to the last bit (R150 to R163): exact values, DEC, RNEF, and the exact operations
whose results are rounded once. One decoder and one encoder serve binary32, binary16, BF16 and every format register. -/

namespace Sys2Proof.Machine

/-- An exact value: NaN, an infinity, or (-1)^neg · m · 2^e. A zero keeps its sign. -/
inductive Val where
  | nan
  | inf (neg : Bool)
  | fin (neg : Bool) (m : Nat) (e : Int)
  deriving DecidableEq, Repr

/-- A format: width, sign bit, exponent bits, mantissa bits, bias, CLASS (R155). -/
structure Fmt where
  w : Nat
  s : Nat
  e : Nat
  m : Nat
  bias : Int
  cls : Nat
  deriving DecidableEq, Repr

/-- R150. The built-in formats are IEEE-like (CLASS 1). -/
def fmtF32 : Fmt := ⟨32, 1, 8, 23, 127, 1⟩
def fmtF16 : Fmt := ⟨16, 1, 5, 10, 15, 1⟩
def fmtBF16 : Fmt := ⟨16, 1, 8, 7, 127, 1⟩

/-- p · 2^k / q as a fraction of naturals. -/
def scale2 (p q : Nat) (k : Int) : Nat × Nat :=
  if 0 ≤ k then (p * 2 ^ k.toNat, q) else (p, q * 2 ^ (-k).toNat)

/-- p / q rounded to an integer, ties to even (R153). -/
def rneDiv (p q : Nat) : Nat :=
  let d := p / q
  let r := p % q
  if 2 * r < q then d else if q < 2 * r then d + 1 else if d % 2 = 0 then d else d + 1

/-- floor(log2 (p / q)) for p, q > 0. -/
def floorLog2 (p q : Nat) : Int :=
  let k : Int := (p.log2 : Int) - q.log2
  let (x, y) := scale2 q 1 k
  if x ≤ p * y then k else k - 1

/-- n · 2^t ≤ n' · 2^t'. -/
def dyLe (n : Nat) (t : Int) (n' : Nat) (t' : Int) : Bool :=
  if t' ≤ t then n * 2 ^ (t - t').toNat ≤ n' else n ≤ n' * 2 ^ (t' - t).toNat

/-- MAXF of R159 as n · 2^t. -/
def maxFinite (f : Fmt) : Nat × Int :=
  if f.e = 0 then (if f.cls = 2 then 2 ^ f.m - 2 else 2 ^ f.m - 1, -f.bias)
  else if f.cls = 1 then (2 ^ (f.m + 1) - 1, (2 ^ f.e : Nat) - 2 - f.bias - f.m)
  else if f.cls = 2 then
    if f.m = 0 then (1, (2 ^ f.e : Nat) - 2 - f.bias) else (2 ^ (f.m + 1) - 2, (2 ^ f.e : Nat) - 1 - f.bias - f.m)
  else (2 ^ (f.m + 1) - 1, (2 ^ f.e : Nat) - 1 - f.bias - f.m)

/-- The exponent of MINZ of R159. -/
def minNonzeroExp (f : Fmt) : Int := if f.e = 0 then -f.bias else 1 - f.bias - f.m

/-- sign ++ e ++ m. -/
def packCode (f : Fmt) (neg : Bool) (e m : Nat) : Nat :=
  (if neg ∧ f.s = 1 then 2 ^ (f.w - 1) else 0) + e * 2 ^ f.m + m

/-- The code of n · 2^(t - M), n below 2^(M+1) (R160's last line). -/
def codeOf (f : Fmt) (neg : Bool) (n : Nat) (t : Int) : Nat :=
  if f.e = 0 ∨ n < 2 ^ f.m then packCode f neg 0 n else packCode f neg (t + f.bias).toNat (n - 2 ^ f.m)

/-- The NaN code of R160 and whether NV is raised: a CLASS 0 format has none. -/
def nanCode (f : Fmt) : Fl Nat :=
  if f.cls = 1 then (packCode f false (2 ^ f.e - 1) (2 ^ (f.m - 1)), fNone)
  else if f.cls = 2 then (2 ^ (f.w - f.s) - 1, fNone)
  else (0, fNV)

/-- The overflow result of R160: infinity in CLASS 1, else the code of MAXF. In the CLASS 2 format of W 2, S 1, E 1 MAXF is no code, and the result
is open (a free value; DESIGN CHOICE, log 91). -/
def overflowCode (f : Fmt) (neg : Bool) : Nat :=
  if f.cls = 2 ∧ f.w = 2 ∧ f.s = 1 ∧ f.e = 1 then (Config.openCode neg).toNat
  else if f.cls = 1 then packCode f neg (2 ^ f.e - 1) 0
  else codeOf f neg (maxFinite f).1 ((maxFinite f).2 + f.m)

/-- R160 for the finite value (-1)^neg · (p / q) · 2^e. -/
def roundRat (f : Fmt) (neg : Bool) (p q : Nat) (e : Int) : Fl Nat :=
  if f.s = 0 ∧ neg = true then (0, flagIf (p ≠ 0) fNV)
  else
    let lg := if p = 0 then 1 - f.bias else floorLog2 p q + e
    let t := if f.e = 0 then (f.m : Int) - f.bias else max lg (1 - f.bias)
    let u : Int := t - f.m
    let (x, y) := scale2 p q (e - u)
    let n := rneDiv x y
    let exact := x = n * y
    let carried := f.e ≠ 0 ∧ n = 2 ^ (f.m + 1)
    let n' := if carried then 2 ^ f.m else n
    let t' := if carried then t + 1 else t
    if ¬ dyLe n' (t' - f.m) (maxFinite f).1 (maxFinite f).2 then (overflowCode f neg, fOF ||| fNX)
    else
      let tiny := p ≠ 0 ∧ lg < (if f.e = 0 then -f.bias else 1 - f.bias)
      (codeOf f neg n' t', flagIf (tiny ∧ ¬ exact) fUF ||| flagIf (¬ exact) fNX)

/-- RNEF of R160. -/
def rnef (f : Fmt) : Val → Fl Nat
  | .nan => nanCode f
  | .inf neg =>
    if f.s = 0 ∧ neg = true then (0, fNV)
    else if f.cls = 1 then (overflowCode f neg, fNone) else (overflowCode f neg, fOF ||| fNX)
  | .fin neg m e => roundRat f neg m 1 e

/-- DEC of R158. -/
def dec (f : Fmt) (code : Nat) : Val :=
  let neg : Bool := f.s = 1 ∧ code / 2 ^ (f.w - 1) % 2 = 1
  let m := code % 2 ^ f.m
  let e := code / 2 ^ f.m % 2 ^ f.e
  if f.e = 0 then
    if f.cls = 2 ∧ m = 2 ^ f.m - 1 then .nan else .fin neg m (-f.bias)
  else if f.cls = 1 ∧ e = 2 ^ f.e - 1 then (if m = 0 then .inf neg else .nan)
  else if f.cls = 2 ∧ e = 2 ^ f.e - 1 ∧ m = 2 ^ f.m - 1 then .nan
  else if e = 0 then .fin neg m (1 - f.bias - f.m)
  else .fin neg (2 ^ f.m + m) ((e : Int) - f.bias - f.m)

/-- The format a format-register value describes; `none` when W is below 2 (R155). -/
def fmtOfReg (v : Word) : Option Fmt :=
  let n := v.toNat
  let w := n % 16
  let s := n / 16 % 2
  let e := n / 32 % 8
  let b := n / 256 % 128
  if w < 2 then none
  else some ⟨w, s, e, w - s - e, if b < 64 then b else (b : Int) - 128, n / 2 ^ 15 % 4⟩

/-- SCALEMODE (R155). -/
def scaleModeOfReg (v : Word) : Nat := v.toNat / 2 ^ 17 % 4

/-- A format of width 2 to 4 is in the nibble class, 5 to 8 in the byte class (R162, R167). -/
def nibbleClass (v : Word) : Bool := v.toNat % 16 < 5

/-- R156: the checks of a WRSR to a format register. A 64-bit value with a bit above 31 set is refused as one with a bit of [31:19] is (DESIGN CHOICE,
log 92); so it is for gN. -/
def formatRegOk (v : DWord) : Bool :=
  let n := v.toNat
  let w := n % 16
  let s := n / 16 % 2
  let e := n / 32 % 8
  let cls := n / 2 ^ 15 % 4
  let ok := 2 ≤ w && w ≤ 8 && s + e ≤ w && cls != 3 && n / 2 ^ 17 % 4 != 3 && n < 2 ^ 19 &&
    !(cls == 1 && (e < 2 || w - s - e < 1))
  match fmtOfReg (v.setWidth 32) with
  | none => false
  | some f => ok && !dyLe 1 64 (maxFinite f).1 (maxFinite f).2 && -64 ≤ minNonzeroExp f

/-- A positive, normal, finite code of an IEEE-like format: what R156 asks of gN and R163 of a block scale. -/
def positiveNormal (f : Fmt) (code : Nat) : Bool :=
  code / 2 ^ (f.w - 1) == 0 && code / 2 ^ f.m != 0 && code / 2 ^ f.m != 2 ^ f.e - 1

/-! ### Exact operations -/

def Val.isNan : Val → Bool
  | .nan => true | _ => false

def Val.neg : Val → Val
  | .nan => .nan
  | .inf s => .inf (!s)
  | .fin s m e => .fin (!s) m e

def Val.isZero : Val → Bool
  | .fin _ 0 _ => true | _ => false

def Val.isInf : Val → Bool
  | .inf _ => true | _ => false

/-- The signed integer m at exponent `lo` (lo at most e). -/
def alignTo (neg : Bool) (m : Nat) (e lo : Int) : Int :=
  let x : Int := m * 2 ^ (e - lo).toNat
  if neg then -x else x

/-- The exact sum of two finite values. A zero sum is +0 unless both terms are negative zeros (R152). -/
def addFin (n1 : Bool) (m1 : Nat) (e1 : Int) (n2 : Bool) (m2 : Nat) (e2 : Int) : Val :=
  if m1 = 0 ∧ m2 = 0 then .fin (n1 && n2) 0 0
  else if m1 = 0 then .fin n2 m2 e2
  else if m2 = 0 then .fin n1 m1 e1
  else
    let lo := min e1 e2
    let x := alignTo n1 m1 e1 lo + alignTo n2 m2 e2 lo
    if x = 0 then .fin false 0 0 else .fin (x < 0) x.natAbs lo

/-- Exact addition; NV for opposite infinities (R151). -/
def addVal : Val → Val → Fl Val
  | .nan, _ => (.nan, fNone)
  | .inf _, .nan => (.nan, fNone)
  | .inf a, .inf b => if a = b then (.inf a, fNone) else (.nan, fNV)
  | .inf a, .fin .. => (.inf a, fNone)
  | .fin .., .nan => (.nan, fNone)
  | .fin .., .inf b => (.inf b, fNone)
  | .fin n1 m1 e1, .fin n2 m2 e2 => (addFin n1 m1 e1 n2 m2 e2, fNone)

/-- Exact multiplication; NV for zero times infinity (R151). -/
def mulVal : Val → Val → Fl Val
  | .nan, _ => (.nan, fNone)
  | .inf _, .nan => (.nan, fNone)
  | .fin .., .nan => (.nan, fNone)
  | .inf a, .inf b => (.inf (a != b), fNone)
  | .inf a, .fin b m _ => if m = 0 then (.nan, fNV) else (.inf (a != b), fNone)
  | .fin a m _, .inf b => if m = 0 then (.nan, fNV) else (.inf (a != b), fNone)
  | .fin a m1 e1, .fin b m2 e2 => (.fin (a != b) (m1 * m2) (e1 + e2), fNone)

/-- The exact a · b + c; an invalid product sets NV even beside a NaN addend (R151). -/
def fmaVal (a b c : Val) : Fl Val :=
  let (p, f1) := mulVal a b
  let (r, f2) := addVal p c
  (r, f1 ||| f2)

/-- a₀·b₀ + a₁·b₁ + c, exact (R283's FDP2). Opposite infinities are invalid only when no term is NaN. -/
def dot2Val (a0 b0 a1 b1 c : Val) : Fl Val :=
  let (p0, f0) := mulVal a0 b0
  let (p1, f1) := mulVal a1 b1
  if p0.isNan || p1.isNan || c.isNan then (.nan, f0 ||| f1)
  else
    let (x, f2) := addVal p0 p1
    let (y, f3) := addVal x c
    (y, f2 ||| f3)

/-- Round an exact result to a format, with the flags of both. -/
def roundFl (f : Fmt) (v : Fl Val) : Fl Nat :=
  let (c, g) := rnef f v.1
  (c, v.2 ||| g)

/-- The order of two codes of an IEEE-like format as integers; the two zeros compare equal (R152, R284). -/
def orderKey (f : Fmt) (code : Nat) : Int :=
  let mag := code % 2 ^ (f.w - 1)
  if code / 2 ^ (f.w - 1) = 1 then -(mag : Int) else mag

/-- As `orderKey`, with -0 below +0 (FMIN and FMAX, R152). -/
def minKey (f : Fmt) (code : Nat) : Int :=
  let mag := code % 2 ^ (f.w - 1)
  if code / 2 ^ (f.w - 1) = 1 then -(mag : Int) - 1 else mag

def isNanCode (f : Fmt) (code : Nat) : Bool := (dec f code).isNan

/-- FMIN and FMAX (R152). -/
def fminCode (f : Fmt) (a b : Nat) : Nat :=
  if isNanCode f a then (if isNanCode f b then (nanCode f).1 else b)
  else if isNanCode f b then a
  else if minKey f a ≤ minKey f b then a else b

def fmaxCode (f : Fmt) (a b : Nat) : Nat :=
  if isNanCode f a then (if isNanCode f b then (nanCode f).1 else b)
  else if isNanCode f b then a
  else if minKey f a ≤ minKey f b then b else a

/-- The eight conditions of FCMP (R284). -/
def fcmpCode (f : Fmt) (c : Cond) (a b : Nat) : Bool :=
  let un := isNanCode f a || isNanCode f b
  match c with
  | .nan => un
  | .num => !un
  | .ne => un || orderKey f a != orderKey f b
  | .eq => !un && orderKey f a == orderKey f b
  | .lt => !un && orderKey f a < orderKey f b
  | .le => !un && orderKey f a ≤ orderKey f b
  | .gt => !un && orderKey f b < orderKey f a
  | .ge => !un && orderKey f b ≤ orderKey f a

/-- FCLASS's one-hot result (R284). -/
def fclassCode (f : Fmt) (code : Nat) : Nat :=
  let e := code / 2 ^ f.m % 2 ^ f.e
  match dec f code with
  | .nan => 0x100
  | .inf n => if n then 0x001 else 0x080
  | .fin n m _ =>
    if m = 0 then (if n then 0x008 else 0x010)
    else if e = 0 then (if n then 0x004 else 0x020)
    else if n then 0x002 else 0x040

/-- A finite value rounded to an integer in a direction: sign kept, magnitude returned. -/
def roundMag (dir : RndDir) (neg : Bool) (m : Nat) (e : Int) : Nat :=
  let (p, q) := scale2 m 1 e
  let up := (p + q - 1) / q
  match dir with
  | .rne => rneDiv p q
  | .trunc => p / q
  | .floor => if neg then up else p / q
  | .ceil => if neg then p / q else up

/-- FRND (R283): an integral value in the same format, sign kept, no NX. -/
def frndCode (f : Fmt) (dir : RndDir) (code : Nat) : Nat :=
  match dec f code with
  | .nan => (nanCode f).1
  | .inf _ => code
  | .fin n m e => (rnef f (.fin n (roundMag dir n m e) 0)).1

/-- FSGN (R283): only the sign bit of a non-NaN operand changes. -/
def fsgnCode (f : Fmt) (op : SgnOp) (a b : Nat) : Nat :=
  let top := 2 ^ (f.w - 1)
  let sa : Bool := a / top = 1
  let sb : Bool := b / top = 1
  let s := match op with
    | .copy => sb | .ncopy => !sb | .xor => sa != sb | .abs => false | .neg => !sa
  if isNanCode f a then (nanCode f).1 else a % top + (if s then top else 0)

/-- .sat on a rounded result (R283): the range +0 to 1.0, NaN and -0 to +0; no flag is added. -/
def satCode (f : Fmt) (code : Nat) : Nat :=
  let one := packCode f false f.bias.toNat 0
  if isNanCode f code then 0
  else if minKey f code < 0 then 0
  else if (one : Int) < minKey f code then one
  else code

/-- FSCALE (R283). Exponents beyond ±1000 give the same rounded result as ±1000. -/
def fscaleCode (f : Fmt) (code : Nat) (b : Int) : Fl Nat :=
  let k := max (-1000) (min 1000 b)
  match dec f code with
  | .fin n m e => rnef f (.fin n m (e + k))
  | v => rnef f v

/-- An integer to a float (R288). -/
def i2fCode (f : Fmt) (x : Int) : Fl Nat := rnef f (.fin (x < 0) x.natAbs 0)

/-- A float to an integer between `lo` and `hi` (R153, R289). -/
def f2iVal (lo hi : Int) : Val → Fl Int
  | .nan => (0, fNV)
  | .inf n => (if n then lo else hi, fNV)
  | .fin n m e =>
    let k := roundMag .rne n m e
    let x : Int := if n then -(k : Int) else k
    if x < lo then (lo, fNV)
    else if hi < x then (hi, fNV)
    else
      let (p, q) := scale2 m 1 e
      (x, flagIf (p ≠ k * q) fNX)

/-- RNEF(f, x / sc) of R290 for a positive finite scale sc = ms · 2^es: the quotient is exact, one rounding. -/
def rnefQuot (f : Fmt) (x sc : Val) : Fl Nat :=
  match x, sc with
  | .fin n m e, .fin _ ms es => roundRat f n m ms (e - es)
  | v, _ => rnef f v

end Sys2Proof.Machine
end

