-- ==== Sys2Proof/Machine/Alu.lean ====
section
/-! DEFINITION. The results of the integer, logic, float and conversion instructions (R274 to R293) on operand values. A value read under
a type is held zero-extended in 64 bits (R259); packed types are computed element by element (R262). -/

namespace Sys2Proof.Machine

/-- Elements per operand and their width (R262). -/
def tyElems : Ty → Nat × Nat
  | .u32 | .s32 | .f32 => (1, 32)
  | .u64 | .s64 => (1, 64)
  | .f16x2 | .bf16x2 | .u16x2 | .s16x2 => (2, 16)
  | .u8x4 | .s8x4 => (4, 8)
  | .f16 | .bf16 => (1, 16)

def tyWidth (t : Ty) : Nat := (tyElems t).2

def tySigned : Ty → Bool
  | .s32 | .s64 | .s16x2 | .s8x4 => true
  | _ => false

/-- The float format of a type's elements. -/
def tyFmt : Ty → Fmt
  | .f16 | .f16x2 => fmtF16
  | .bf16 | .bf16x2 => fmtBF16
  | _ => fmtF32

/-- `cnt` elements of `w` bits, element 0 lowest. -/
def splitEls (w : Nat) : Nat → Nat → List Nat
  | 0, _ => []
  | k + 1, x => x % 2 ^ w :: splitEls w k (x / 2 ^ w)

def joinEls (w : Nat) : List Nat → Nat
  | [] => 0
  | x :: xs => x % 2 ^ w + 2 ^ w * joinEls w xs

def elsOf (t : Ty) (x : DWord) : List Nat := splitEls (tyElems t).2 (tyElems t).1 x.toNat
def ofEls (t : Ty) (xs : List Nat) : DWord := BitVec.ofNat 64 (joinEls (tyElems t).2 xs)

def map1 (t : Ty) (f : Nat → Nat) (a : DWord) : DWord := ofEls t ((elsOf t a).map f)
def map2 (t : Ty) (f : Nat → Nat → Nat) (a b : DWord) : DWord := ofEls t (List.zipWith f (elsOf t a) (elsOf t b))

/-- The signed reading of n bits. -/
def sInt (n x : Nat) : Int := if x % 2 ^ n < 2 ^ (n - 1) then (x % 2 ^ n : Nat) else (x % 2 ^ n : Nat) - (2 : Int) ^ n

/-- An element as its type reads it. -/
def tyInt (t : Ty) (x : Nat) : Int := if tySigned t then sInt (tyWidth t) x else x

/-- The low n bits of an integer. -/
def wrapInt (n : Nat) (x : Int) : Nat := (x % (2 : Int) ^ n).toNat

/-- An exact result, wrapped, or clamped to the type's range for .sat (R272). -/
def finishInt (t : Ty) (sat : Bool) (x : Int) : Nat :=
  let n := tyWidth t
  if sat then
    let lo : Int := if tySigned t then -(2 : Int) ^ (n - 1) else 0
    let hi : Int := if tySigned t then (2 : Int) ^ (n - 1) - 1 else (2 : Int) ^ n - 1
    wrapInt n (max lo (min hi x))
  else wrapInt n x

/-! ### Integer (R274 to R278) -/

def aluAdd (t : Ty) (sat : Bool) (a b : DWord) : DWord := map2 t (fun x y => finishInt t sat (tyInt t x + tyInt t y)) a b
def aluSub (t : Ty) (sat : Bool) (a b : DWord) : DWord := map2 t (fun x y => finishInt t sat (tyInt t x - tyInt t y)) a b
def aluMul (t : Ty) (a b : DWord) : DWord := map2 t (fun x y => x * y) a b
def aluMulh (t : Ty) (a b : DWord) : DWord :=
  map2 t (fun x y => wrapInt (tyWidth t) (tyInt t x * tyInt t y / (2 : Int) ^ tyWidth t)) a b
def aluMad (t : Ty) (a b c : DWord) : DWord := aluAdd t false (aluMul t a b) c

/-- IMAD.acc64: a and b extended by the type, c and the result 64 bits. -/
def aluMadAcc (t : Ty) (a b c : DWord) : DWord :=
  BitVec.ofInt 64 (tyInt t (a.toNat % 2 ^ 32) * tyInt t (b.toNat % 2 ^ 32) + c.toNat)
def aluMin (t : Ty) (a b : DWord) : DWord := map2 t (fun x y => if tyInt t x ≤ tyInt t y then x else y) a b
def aluMax (t : Ty) (a b : DWord) : DWord := map2 t (fun x y => if tyInt t x ≤ tyInt t y then y else x) a b
def aluAbs (t : Ty) (sat : Bool) (a : DWord) : DWord := map1 t (fun x => finishInt t sat ((tyInt t x).natAbs : Int)) a
def aluAdd3 (t : Ty) (a b c : DWord) : DWord := aluAdd t false (aluAdd t false a b) c

/-- IADDC (R275): the result and the new predicate. -/
def aluAddc (t : Ty) (sub : Bool) (cin : Bool) (a b : DWord) : DWord × Bool :=
  let n := tyWidth t
  let y := if sub then 2 ^ n - 1 - b.toNat % 2 ^ n else b.toNat % 2 ^ n
  let x := a.toNat % 2 ^ n + y + (if cin then 1 else 0)
  (BitVec.ofNat 64 (x % 2 ^ n), 2 ^ n ≤ x)

/-- The six ordered conditions over integers (R276). -/
def condInt (c : Cond) (a b : Int) : Bool :=
  match c with
  | .eq => a == b | .ne => a != b | .lt => a < b | .le => a ≤ b | .gt => b < a | .ge => b ≤ a
  | .num => true | .nan => false

def aluCmp (t : Ty) (c : Cond) (a b : DWord) : Bool :=
  condInt c (tyInt t (a.toNat % 2 ^ tyWidth t)) (tyInt t (b.toNat % 2 ^ tyWidth t))

/-- LEA (R277): `signed` for TY S32. -/
def aluLea (signed : Bool) (n : Nat) (a b : DWord) : DWord :=
  let x : DWord := if signed then (b.setWidth 32).signExtend 64 else (b.setWidth 32).setWidth 64
  a + (x <<< n)

/-- ISAD (R278): 32-bit result. -/
def aluSad (t : Ty) (a b c : DWord) : DWord :=
  let s := (List.zipWith (fun x y => (tyInt t x - tyInt t y).natAbs) (elsOf t a) (elsOf t b)).foldl (· + ·) 0
  BitVec.ofNat 64 ((s + c.toNat) % 2 ^ 32)

/-- IDOT4 (R278). -/
def aluDot4 (t : Ty) (mix sat : Bool) (a b c : DWord) : DWord :=
  let sa := tySigned t
  let sb := sa != mix
  let rd := fun (s : Bool) (x : Nat) => if s then sInt 8 x else (x : Int)
  let s := (List.zipWith (fun x y => rd sa x * rd sb y) (elsOf t a) (elsOf t b)).foldl (· + ·) (0 : Int)
  let signed := sa || sb
  let r := s + (if signed then sInt 32 c.toNat else (c.toNat % 2 ^ 32 : Nat))
  BitVec.ofNat 64 (finishInt (if signed then .s32 else .u32) sat r)

/-! ### Logic and bits (R279 to R282) -/

/-- Keep the low bits of a type. -/
def fitTy (t : Ty) (x : DWord) : DWord := BitVec.ofNat 64 (x.toNat % 2 ^ tyWidth t)

def aluAnd (inv : Bool) (t : Ty) (a b : DWord) : DWord := fitTy t (a &&& (if inv then ~~~b else b))
def aluOr (inv : Bool) (t : Ty) (a b : DWord) : DWord := fitTy t (a ||| (if inv then ~~~b else b))
def aluXor (inv : Bool) (t : Ty) (a b : DWord) : DWord := fitTy t (a ^^^ (if inv then ~~~b else b))

/-- MIX3: bit i is table[4·c_i + 2·b_i + a_i], as the OR of the eight minterms. -/
def aluMix3 (t : Ty) (tbl : Nat) (a b c : DWord) : DWord :=
  let term := fun (k : Nat) =>
    if tbl / 2 ^ k % 2 = 1 then
      (if k % 2 = 1 then a else ~~~a) &&& (if k / 2 % 2 = 1 then b else ~~~b) &&& (if k / 4 % 2 = 1 then c else ~~~c)
    else 0
  fitTy t ((List.range 8).foldl (fun x k => x ||| term k) 0)

/-- The shift count: modulo the width with .wrap, else as it stands (R279). -/
def shiftCount (wrap : Bool) (n b : Nat) : Nat := if wrap then b % n else min b n

def aluShl (wrap : Bool) (t : Ty) (a b : DWord) : DWord :=
  fitTy t (a <<< shiftCount wrap (tyWidth t) (b.toNat % 2 ^ 32))
def aluShr (wrap : Bool) (t : Ty) (a b : DWord) : DWord :=
  (fitTy t a) >>> shiftCount wrap (tyWidth t) (b.toNat % 2 ^ 32)
def aluSar (wrap : Bool) (t : Ty) (a b : DWord) : DWord :=
  let n := tyWidth t
  BitVec.ofNat 64 (wrapInt n (sInt n a.toNat / (2 : Int) ^ shiftCount wrap n (b.toNat % 2 ^ 32)))

def aluRot (right : Bool) (t : Ty) (a b : DWord) : DWord :=
  let n := tyWidth t
  let k := b.toNat % 2 ^ 32 % n
  let l := if right then (n - k) % n else k
  let x := a.toNat % 2 ^ n
  BitVec.ofNat 64 ((x * 2 ^ l + x / 2 ^ (n - l)) % 2 ^ n)

/-- FSHF (R280). -/
def aluFshf (left clamp : Bool) (a b c : DWord) : DWord :=
  let x := (b.toNat % 2 ^ 32) * 2 ^ 32 + a.toNat % 2 ^ 32
  let cc := c.toNat % 2 ^ 32
  let m := if clamp then min cc 32 else cc % 32
  BitVec.ofNat 64 (if left then x * 2 ^ m / 2 ^ 32 % 2 ^ 32 else x / 2 ^ m % 2 ^ 32)

/-- BFX (R281): the value is sign-extended above its width for the signed types, then the field is cut out. -/
def aluBfx (t : Ty) (a b c : DWord) : DWord :=
  let n := tyWidth t
  let pos := b.toNat % 256
  let len := min (c.toNat % 256) n
  let field := wrapInt len (tyInt t (a.toNat % 2 ^ n) / (2 : Int) ^ pos)
  if len = 0 then 0
  else if tySigned t then BitVec.ofNat 64 (wrapInt n (sInt len field)) else BitVec.ofNat 64 field

/-- BFI (R281). -/
def aluBfi (t : Ty) (a b c e : DWord) : DWord :=
  let n := tyWidth t
  let pos := c.toNat % 256
  let len := min (e.toNat % 256) n
  let mask := BitVec.ofNat 64 ((2 ^ len - 1) * 2 ^ pos % 2 ^ n)
  fitTy t ((a &&& ~~~mask) ||| ((b <<< pos) &&& mask))

def bitAt (x i : Nat) : Nat := x / 2 ^ i % 2

def aluPopc (t : Ty) (a : DWord) : DWord :=
  BitVec.ofNat 64 (((List.range (tyWidth t)).map (bitAt a.toNat)).foldl (· + ·) 0)
def aluClz (t : Ty) (a : DWord) : DWord :=
  let x := a.toNat % 2 ^ tyWidth t
  BitVec.ofNat 64 (if x = 0 then tyWidth t else tyWidth t - 1 - x.log2)
def aluBrev (t : Ty) (a : DWord) : DWord :=
  let n := tyWidth t
  BitVec.ofNat 64 (joinEls 1 ((List.range n).map fun i => bitAt a.toNat (n - 1 - i)))

/-- FFS (R279): all ones when a is zero. -/
def aluFfs (hi : Bool) (t : Ty) (a : DWord) : DWord :=
  let x := a.toNat % 2 ^ tyWidth t
  if x = 0 then 0xFFFFFFFF
  else if hi then BitVec.ofNat 64 x.log2
  else BitVec.ofNat 64 (((List.range (tyWidth t)).find? fun i => bitAt x i == 1).getD 0)

/-- BSEL (R282). -/
def aluBsel (a b c : DWord) : DWord :=
  let ab := (b.toNat % 2 ^ 32) * 2 ^ 32 + a.toNat % 2 ^ 32
  let sel := fun (k : Nat) =>
    let s := c.toNat / 2 ^ (4 * k) % 16
    if s ≤ 7 then ab / 2 ^ (8 * s) % 256
    else if s = 8 then 0
    else if s = 9 then 0xFF
    else if s ≤ 13 then (if bitAt a.toNat (8 * (s - 10) + 7) = 1 then 0xFF else 0)
    else a.toNat / 2 ^ (8 * k) % 256
  BitVec.ofNat 64 (joinEls 8 [sel 0, sel 1, sel 2, sel 3])

/-! ### Float (R283, R284) -/

def joinFl (t : Ty) (rs : List (Fl Nat)) : Fl DWord := (ofEls t (rs.map Prod.fst), orFlags (rs.map Prod.snd))

/-- A binary float operation on each element, with .sat applied to the rounded result. -/
def flt2 (t : Ty) (sat : Bool) (f : Nat → Nat → Fl Nat) (a b : DWord) : Fl DWord :=
  joinFl t (List.zipWith (fun x y => let r := f x y; (if sat then satCode (tyFmt t) r.1 else r.1, r.2)) (elsOf t a) (elsOf t b))

def fadd2 (f : Fmt) (x y : Nat) : Fl Nat := roundFl f (addVal (dec f x) (dec f y))
def fsub2 (f : Fmt) (x y : Nat) : Fl Nat := roundFl f (addVal (dec f x) (dec f y).neg)
def fmul2 (f : Fmt) (x y : Nat) : Fl Nat := roundFl f (mulVal (dec f x) (dec f y))
def ffma3 (f : Fmt) (x y z : Nat) : Fl Nat := roundFl f (fmaVal (dec f x) (dec f y) (dec f z))

def aluFadd (t : Ty) (sat : Bool) (a b : DWord) : Fl DWord := flt2 t sat (fadd2 (tyFmt t)) a b
def aluFsub (t : Ty) (sat : Bool) (a b : DWord) : Fl DWord := flt2 t sat (fsub2 (tyFmt t)) a b
def aluFmul (t : Ty) (sat : Bool) (a b : DWord) : Fl DWord := flt2 t sat (fmul2 (tyFmt t)) a b
def aluFfma (t : Ty) (sat : Bool) (a b c : DWord) : Fl DWord :=
  let f := tyFmt t
  let one := fun (x : Nat × Nat) (z : Nat) => let r := ffma3 f x.1 x.2 z; (if sat then satCode f r.1 else r.1, r.2)
  joinFl t (List.zipWith one (List.zip (elsOf t a) (elsOf t b)) (elsOf t c))
def aluFmin (t : Ty) (a b : DWord) : DWord := map2 t (fminCode (tyFmt t)) a b
def aluFmax (t : Ty) (a b : DWord) : DWord := map2 t (fmaxCode (tyFmt t)) a b
def aluFcmp (t : Ty) (c : Cond) (a b : DWord) : Bool :=
  fcmpCode (tyFmt t) c (a.toNat % 2 ^ tyWidth t) (b.toNat % 2 ^ tyWidth t)
def aluFclass (t : Ty) (a : DWord) : DWord := BitVec.ofNat 64 (fclassCode (tyFmt t) (a.toNat % 2 ^ tyWidth t))
def aluFrnd (dir : RndDir) (t : Ty) (a : DWord) : DWord := map1 t (frndCode (tyFmt t) dir) a
def aluFsgn (op : SgnOp) (t : Ty) (a b : DWord) : DWord := map2 t (fsgnCode (tyFmt t) op) a b

/-- FDP2 (R283): packed a and b, an F32 c and result. -/
def aluFdp2 (t : Ty) (a b c : DWord) : Fl DWord :=
  let f := tyFmt t
  let d := fun (x : DWord) (k : Nat) => dec f (x.toNat / 2 ^ (16 * k) % 2 ^ 16)
  let r := roundFl fmtF32 (dot2Val (d a 0) (d b 0) (d a 1) (d b 1) (dec fmtF32 (c.toNat % 2 ^ 32)))
  (BitVec.ofNat 64 r.1, r.2)

/-- FSCALE (R283). -/
def aluFscale (t : Ty) (a b : DWord) : Fl DWord :=
  let r := fscaleCode (tyFmt t) (a.toNat % 2 ^ tyWidth t) (sInt 32 b.toNat)
  (BitVec.ofNat 64 r.1, r.2)

/-! ### Conversion (R287 to R291) -/

/-- The source value of FCVT (R287). -/
def cvtSrcVal (s : CvtSrc) (x : DWord) : Val :=
  match s with
  | .f32 => dec fmtF32 (x.toNat % 2 ^ 32)
  | .f16 => dec fmtF16 (x.toNat % 2 ^ 16)
  | .bf16 => dec fmtBF16 (x.toNat % 2 ^ 16)
  | .f16h => dec fmtF16 (x.toNat / 2 ^ 16 % 2 ^ 16)
  | .bf16h => dec fmtBF16 (x.toNat / 2 ^ 16 % 2 ^ 16)

def aluFcvt (t : Ty) (s : CvtSrc) (a b : DWord) : Fl DWord :=
  let f := tyFmt t
  if (tyElems t).1 = 2 then joinFl t [rnef f (cvtSrcVal .f32 a), rnef f (cvtSrcVal .f32 b)]
  else joinFl t [rnef f (cvtSrcVal s a)]

/-- The source integer of I2F (R288). -/
def intSrcVal (s : IntSrc) (x : Nat) : Int :=
  match s with
  | .u32 => (x % 2 ^ 32 : Nat) | .s32 => sInt 32 x | .u64 => x | .s64 => sInt 64 x
  | .u16 => (x % 2 ^ 16 : Nat) | .s16 => sInt 16 x | .u8 => (x % 2 ^ 8 : Nat) | .s8 => sInt 8 x

def aluI2f (t : Ty) (s : IntSrc) (a : DWord) : Fl DWord :=
  let r := i2fCode (tyFmt t) (intSrcVal s a.toNat)
  (BitVec.ofNat 64 r.1, r.2)

/-- F2I (R289). -/
def aluF2i (t : Ty) (s : FltSrc) (a : DWord) : Fl DWord :=
  let v := match s with
    | .f32 => dec fmtF32 (a.toNat % 2 ^ 32) | .f16 => dec fmtF16 (a.toNat % 2 ^ 16) | .bf16 => dec fmtBF16 (a.toNat % 2 ^ 16)
  let n := tyWidth t
  let lo : Int := if tySigned t then -(2 : Int) ^ (n - 1) else 0
  let hi : Int := if tySigned t then (2 : Int) ^ (n - 1) - 1 else (2 : Int) ^ n - 1
  let r := f2iVal lo hi v
  (BitVec.ofNat 64 (wrapInt n r.1), r.2)

/-- The number of elements of a container word under a format register (R162, R290). -/
def containerCount (freg : Word) : Nat := if nibbleClass freg then 8 else 4
def containerBits (freg : Word) : Nat := if nibbleClass freg then 4 else 8

/-- The scale of R290: 1.0, gN, or the BF16 entry; `none` for a block scale that is not positive, normal and finite. -/
def cvtScale (freg greg : Word) (b : Nat) : Option Val :=
  match scaleModeOfReg freg with
  | 0 => some (.fin false 1 0)
  | 1 => some (dec fmtF32 greg.toNat)
  | _ => if positiveNormal fmtBF16 (b % 2 ^ 16) then some (dec fmtBF16 (b % 2 ^ 16)) else none

/-- CVTN (R290): F32 codes into a container word. -/
def aluCvtn (f : Fmt) (freg greg : Word) (xs : List Nat) (b : Nat) : Fl DWord :=
  let one := fun (x : Nat) => match cvtScale freg greg b with
    | some sc => rnefQuot f (dec fmtF32 x) sc
    | none => let r := nanCode f; (r.1, r.2 ||| fNV)
  let rs := xs.map one
  (BitVec.ofNat 64 (joinEls (containerBits freg) (rs.map Prod.fst)), orFlags (rs.map Prod.snd))

/-- CVTW (R291): a container word into F32 codes. -/
def aluCvtw (f : Fmt) (freg greg : Word) (a : Nat) (b : Nat) : List (Fl Nat) :=
  (splitEls (containerBits freg) (containerCount freg) a).map fun c =>
    match cvtScale freg greg b with
    | some sc => roundFl fmtF32 (mulVal (dec f (c % 2 ^ f.w)) sc)
    | none => (codeNan fmtF32, fNV)
where codeNan (f : Fmt) : Nat := (nanCode f).1

/-! ### Sparse compression (R164, R165, R292, R293) -/

/-- The rank key of a magnitude: NaN above every magnitude, infinities above every finite one. -/
def magLt (a b : Val) : Bool :=
  match a, b with
  | .nan, _ => false
  | _, .nan => true
  | .inf _, _ => false
  | .fin .., .inf _ => true
  | .fin _ m e, .fin _ m' e' => !dyLe m' e' m e

/-- How many of the four rank above element i: a greater magnitude, or an equal one with a lower index. -/
def ranksAbove (vs : List Val) (i : Nat) : Nat :=
  let v := vs.getD i .nan
  ((List.range 4).filter fun j => magLt v (vs.getD j .nan) || (j < i && !magLt (vs.getD j .nan) v)).length

/-- The two kept indices, ascending. -/
def keptTwo (vs : List Val) : Nat × Nat :=
  let ks := (List.range 4).filter fun i => ranksAbove vs i < 2
  (ks.getD 0 0, ks.getD 1 1)

/-- The kept codes, NaNs canonical, and the 4-bit index field. -/
def spcompGroup (f : Fmt) (codes : List Nat) : Nat × Nat × Nat :=
  let (i, j) := keptTwo (codes.map (dec f))
  let keep := fun (k : Nat) => let c := codes.getD k 0; if isNanCode f c then (nanCode f).1 else c
  (keep i, keep j, i + 4 * j)

/-- SPEXP of one group (R165): the second value wins a shared index. -/
def spexpGroup (x y ix : Nat) : List Nat :=
  (List.range 4).map fun k => if k = ix / 4 % 4 then y else if k = ix % 4 then x else 0

def aluSpcomp8 (f : Fmt) (a : Nat) : DWord :=
  let (x, y, ix) := spcompGroup f ((splitEls 8 4 a).map (· % 2 ^ f.w))
  BitVec.ofNat 64 (x + 2 ^ 8 * y + 2 ^ 16 * ix)

/-- The 16-bit forms: the words d and d + 1. -/
def aluSpcomp16 (f : Fmt) (a b : Nat) : List Nat :=
  let (x, y, ix) := spcompGroup f (splitEls 16 2 a ++ splitEls 16 2 b)
  [x + 2 ^ 16 * y, ix]

def aluSpexp8 (a : Nat) : DWord :=
  BitVec.ofNat 64 (joinEls 8 (spexpGroup (a % 256) (a / 256 % 256) (a / 2 ^ 16 % 16)))

def aluSpexp16 (a b : Nat) : List Nat :=
  let g := spexpGroup (a % 2 ^ 16) (a / 2 ^ 16 % 2 ^ 16) (b % 16)
  [joinEls 16 (g.take 2), joinEls 16 (g.drop 2)]

/-! ### Reductions (R302) and atomics (R316) -/

/-- The identity of REDUX and SCAN as a 32-bit code (R302). -/
def redIdentity (op : RedOp) (t : Ty) : Nat :=
  match op with
  | .add => if t = .f32 then 0x80000000 else 0
  | .min => if t = .f32 then 0x7F800000 else if t = .s32 then 0x7FFFFFFF else 0xFFFFFFFF
  | .max => if t = .f32 then 0xFF800000 else if t = .s32 then 0x80000000 else 0
  | .and => 0xFFFFFFFF
  | .or | .xor => 0

/-- One combining step (R302), also of DKSUM and Trestle REDUCE. -/
def redStep (op : RedOp) (t : Ty) (a b : Fl Nat) : Fl Nat :=
  let g := a.2 ||| b.2
  match op with
  | .add =>
    if t = .f32 then let r := fadd2 fmtF32 a.1 b.1; (r.1, g ||| r.2) else ((a.1 + b.1) % 2 ^ 32, g)
  | .min => (if t = .f32 then fminCode fmtF32 a.1 b.1 else if tyInt t a.1 ≤ tyInt t b.1 then a.1 else b.1, g)
  | .max => (if t = .f32 then fmaxCode fmtF32 a.1 b.1 else if tyInt t a.1 ≤ tyInt t b.1 then b.1 else a.1, g)
  | .and => (a.1 &&& b.1, g)
  | .or => (a.1 ||| b.1, g)
  | .xor => (a.1 ^^^ b.1, g)

/-- NEW(old, v) of R316, on values of the type's full width, with the float flags. -/
def atomNew (op : AtomOp) (t : Ty) (old v : DWord) : Fl DWord :=
  let isF := t == .f32 || t == .f16x2 || t == .bf16x2
  match op with
  | .add => if isF then aluFadd t false old v else (aluAdd t false old v, fNone)
  | .min => (if isF then aluFmin t old v else aluMin t old v, fNone)
  | .max => (if isF then aluFmax t old v else aluMax t old v, fNone)
  | .and => (old &&& v, fNone)
  | .or => (old ||| v, fNone)
  | .xor => (old ^^^ v, fNone)
  | .exch => (v, fNone)
  | .inc => (if v.toNat ≤ old.toNat then 0 else old + 1, fNone)
  | .dec => (if old = 0 ∨ v.toNat < old.toNat then v else old - 1, fNone)

/-- Conditions of WAITMEM and of a chain's IF (R331, R112), on n-bit values. -/
def wcondHolds (c : WCond) (n v d : Nat) : Bool :=
  match c with
  | .eq => v % 2 ^ n == d % 2 ^ n
  | .ne => v % 2 ^ n != d % 2 ^ n
  | .ltu => v % 2 ^ n < d % 2 ^ n
  | .geu => d % 2 ^ n ≤ v % 2 ^ n
  | .lts => sInt n v < sInt n d
  | .ges => sInt n d ≤ sInt n v

end Sys2Proof.Machine
end

