-- ==== Sys2Proof/Machine/Tbl.lean ====
section
/-! DEFINITION. Finite tables by natural key, and byte memory in one canonical form: addresses strictly rising, no zero byte listed. -/

namespace Sys2Proof.Machine

/-- A table: entries in rising order of key. -/
abbrev Tbl (α : Type) := List (Nat × α)

def Tbl.find {α : Type} : Tbl α → Nat → Option α
  | [], _ => none
  | (j, v) :: t, k => if j = k then some v else Tbl.find t k

def Tbl.findD {α : Type} (t : Tbl α) (k : Nat) (d : α) : α := (Tbl.find t k).getD d

def Tbl.put {α : Type} : Tbl α → Nat → α → Tbl α
  | [], k, x => [(k, x)]
  | (j, v) :: t, k, x =>
    if k < j then (k, x) :: (j, v) :: t
    else if k = j then (k, x) :: t
    else (j, v) :: Tbl.put t k x

def Tbl.del {α : Type} (t : Tbl α) (k : Nat) : Tbl α := t.filter fun e => e.1 != k

def Tbl.keys {α : Type} (t : Tbl α) : List Nat := t.map Prod.fst

/-- Change the entry at a key where there is one. -/
def Tbl.upd {α : Type} (t : Tbl α) (k : Nat) (f : α → α) : Tbl α :=
  match Tbl.find t k with
  | none => t
  | some v => Tbl.put t k (f v)

/-- Byte memory. An unlisted address reads 0 (log 2). -/
abbrev Mem := List Host.Cell

def Mem.read (m : Mem) (a : Nat) : Byte := Tbl.findD m a 0

def Mem.write (m : Mem) (a : Nat) (b : Byte) : Mem := if b = 0 then Tbl.del m a else Tbl.put m a b

/-- The canonical form: strictly rising addresses and no listed zero. -/
def Mem.wfFrom : Nat → Mem → Bool
  | _, [] => true
  | lo, (a, b) :: t => lo ≤ a && b != 0 && Mem.wfFrom (a + 1) t

def Mem.wf (m : Mem) : Bool := Mem.wfFrom 0 m

/-- `n` bytes from an address, lowest first. -/
def Mem.readN (m : Mem) (a : Nat) : Nat → List Byte
  | 0 => []
  | n + 1 => Mem.read m a :: Mem.readN m (a + 1) n

def Mem.writeN (m : Mem) (a : Nat) : List Byte → Mem
  | [] => m
  | b :: bs => Mem.writeN (Mem.write m a b) (a + 1) bs

/-- The little-endian number in `n` bytes. -/
def bytesNat : List Byte → Nat
  | [] => 0
  | b :: bs => b.toNat + 256 * bytesNat bs

def natBytes : Nat → Nat → List Byte
  | 0, _ => []
  | n + 1, x => BitVec.ofNat 8 x :: natBytes n (x / 256)

def Mem.readLE (m : Mem) (a n : Nat) : Nat := bytesNat (Mem.readN m a n)
def Mem.writeLE (m : Mem) (a n x : Nat) : Mem := Mem.writeN m a (natBytes n x)

/-- Every listed byte in [a, a + n) dropped: the range reads zero. -/
def Mem.clear (m : Mem) (a n : Nat) : Mem := m.filter fun e => e.1 < a || a + n ≤ e.1

end Sys2Proof.Machine
end

