-- ==== Sys2Proof/Machine/State.lean ====
section
/-! DEFINITION. The state of a domain of BL-8 packages, as plain data, and the machine right after package reset. Identities: tower =
package·8 + tower, cluster = tower·8 + cluster, core = cluster·16 + core; crews, slices, spans and launches have fresh identities. -/

namespace Sys2Proof.Machine

/-- Why the machine stops. -/
inductive Fault where
  /-- `exec` was asked for a device instruction while no slice holds the issue, or for FY.LAUNCH while no OS core does. Raised by every
  such meaning. Safe: no hardware step corresponds to it, and `step` never causes it. -/
  | noIssuer
  deriving DecidableEq, Repr

/-- Why the model gives no meaning. -/
inductive Refusal where
  /-- An instruction whose arm of `exec` has no meaning yet. Raised by `exec` only. Safe. -/
  | notModelled (mnemonic : String)
  /-- RV64GC code of an OS core other than FY.LAUNCH: the manual does not describe it (R230). Raised by `step`. Safe. -/
  | osCode
  deriving DecidableEq, Repr

/-- The rights of clearance (R54). -/
inductive Right where
  | read | write | exec
  deriving DecidableEq, Repr

/-- A trap as it is recorded: code, TRAPPC, TRAPADDR, TRAPMASK, TRAPINFO (R243 to R245). For a deferred trap `info` is set at delivery. -/
structure TrapRec where
  code  : Nat
  pc    : DWord
  addr  : DWord
  mask  : Word
  info  : DWord
  defer : Bool
  ovf   : Bool
  deriving DecidableEq, Repr

/-- What a parked slice waits for. The identities are the model's. -/
inductive Wait where
  /-- every outstanding variable-latency result has landed (W, R142) -/
  | results
  /-- an acquire's own results have landed (R312) -/
  | value (id : Nat)
  /-- fewer than 32 variable-latency instructions are outstanding (R142) -/
  | room
  /-- the function unit of the slice's slot has a free place (R273) -/
  | sfuRoom
  /-- every earlier access has been performed; `wide`: the crew's dirty mapped sectors too (R312, R223) -/
  | performed (wide : Bool)
  /-- fence.drain: accesses performed and results written (R220) -/
  | drained
  /-- every clearance and fill request of the slices that issued together has been answered (R54, R69) -/
  | answers (ids : List Nat)
  /-- every earlier access of the slice, remote stores included, has been performed (R336, R350) -/
  | accesses
  /-- these of the slice's accesses have been performed (R120, R209) -/
  | sent (ids : List Nat)
  /-- the mapping that begins at a tile has no dirty sector and none on its way home (R127) -/
  | mapClean (t0 : Nat)
  /-- the slice's earlier STRONG accesses have been performed (R219) -/
  | strong
  /-- a stash tile of the slice's crew is owned by SLICES (R121) -/
  | tile (t : Nat)
  /-- a span scratch tile is owned by SLICES (R95) -/
  | spanTile (t : Nat)
  /-- TWAIT: a tile's owner equals a value (R330) -/
  | owner (span : Bool) (t : Nat) (o : Owner)
  /-- TOWN: no operation of the engine that owns the tile uses it (R119, R175) -/
  | tileFree (span : Bool) (t n : Nat)
  /-- every live slice of the gang stands at a REGANG of this PC (R146) -/
  | regang (pc : DWord)
  /-- every live slice of the gang stands at a gang operation (R148) -/
  | gangOp (pc : DWord)
  /-- the crew's BAR phase k has every live slice's arrival (R325) -/
  | bar (k : Nat)
  /-- phase k of the scope instance is complete (R326) -/
  | phase (sc : Nat) (k : Nat)
  | ring (n st : Nat) (full : Bool)
  | counter (k : Nat) (target : Word)
  /-- the package clock has reached a value, or a stop request ended the sleep (R308) -/
  | clock (at_ : Nat)
  | stepBoundary (k : Nat)
  /-- the word satisfies WAITMEM's condition (R331) -/
  | memory (va : DWord) (c : WCond) (bits : Nat) (d : DWord)
  /-- the handle word shows DONE (R358) -/
  | handle (va : DWord)
  /-- the chain is neither RUNNING nor WAITING (R336, R337) -/
  | chain (ch : Nat)
  | girderRoom
  /-- a MARD: every loop of the cluster that names the accumulator has merged; it then reads it, as BF16 or FP32, into the stash (R342) -/
  | merged (span tile : Nat) (bf : Bool) (dst : Nat)
  | deckRoom
  | deckIdle
  /-- a group's drain count is zero (R100) -/
  | group (g : Nat)
  /-- the tower's Keystone engine has answered the operation (R350) -/
  | keystone (op : Instr) (ids : List Nat)
  /-- an answer of a tower, the scheduler or a home that applies effects when it arrives (R353) -/
  | tower
  | wake
  /-- the context register write has reached every core (R157) -/
  | ctxReg
  | l2wp
  | launchRoom
  | ctxStopped (ctx : Nat)
  /-- the scheduler accepts a restore (R363) -/
  | restore
  | shootdown (dg : Nat)
  /-- a package's index is taken (R372) -/
  | index (pkg : Nat)
  /-- no downgrade of pages that meet these is in progress, and none was asked for before (R361) -/
  | pageTurn (ctx page size : Nat)
  /-- the write-backs started by CCTL, STWB or STUNMAP have been performed -/
  | writeBacks (ids : List Nat)
  /-- no MLOOP pins a named block (R77) -/
  | blockFree (ctx : Nat) (slot : Nat) (blk : Option Nat)
  deriving DecidableEq, Repr

/-- Running, or parked. `before`: the instruction has not issued and issues again; `after`: it has issued and the PC is past it, and with
`w` it carries W, so the outstanding results must have landed too. -/
inductive Park where
  | run
  | before (c : Wait)
  | after (c : Wait) (w : Bool)
  deriving DecidableEq, Repr

/-- An answer a slice holds for the instruction it is about to issue. -/
inductive Answer where
  /-- a grant for a page: base, size, right, and the generator's own write window when `window` -/
  | grant (page size : Nat) (r : Right) (window : Bool)
  | nonResident (page : Nat)
  /-- a right refused for a page, or for the 4 KiB granule where no leaf shows one -/
  | refused (page size : Nat) (code : Nat)
  /-- a procedural block was FILLED when its home met the read (R69); `pin`: for an MLOOP, which pins it from here on (R75) -/
  | filled (block size : Nat) (pin : Bool)
  /-- the same, and the block has been evicted since: its bytes as they then were (R75) -/
  | kept (block size : Nat) (bytes : Mem)
  /-- GENFAULT or GENDEPTH or GENCYCLE of a block: code and failure record -/
  | failed (block size : Nat) (code : Nat) (rec : DWord)
  deriving DecidableEq, Repr

/-- Where a variable-latency result lands. -/
inductive LandDst where
  | vreg (r lane : Nat)
  | sreg (r : Nat)
  | pbit (lane k : Nat)
  | qbit (k : Nat)
  | flags
  /-- a special function's result with the flags it raised (R286) -/
  | vregF (r lane : Nat) (f : Flags)
  | sregF (r : Nat) (f : Flags)
  deriving DecidableEq, Repr

/-- A value ready to be written for outstanding instruction `id` (R142, R143). -/
structure Land where
  id  : Nat
  dst : LandDst
  val : DWord
  deriving DecidableEq, Repr

/-- What an access does to its location. -/
inductive AccKind where
  | load
  | store
  | atom (op : AtomOp) (t : Ty)
  | cas
  | red (op : AtomOp) (t : Ty)
  | nmred (op : AtomOp) (t : Ty)
  | remLoad
  | remStore
  /-- through a mapped stash tile (R126) -/
  | mapLoad
  | mapStore
  deriving DecidableEq, Repr

/-- One single-copy-atomic part of a lane's access (R211, R212): `n` bytes at `va`, byte `off` of the lane's datum. A whole-sector piece of
a gang (`lane` = 0, 128 bytes) covers 32 lanes of 4 bytes. -/
structure Piece where
  lane : Nat
  va   : Nat
  n    : Nat
  off  : Nat
  data : Nat
  new  : Nat
  done : Bool
  ord  : Nat        -- the kind of its page: 0 RELEASE, 1 STRONG, 2 UNORDERED (R210, R211)
  deriving DecidableEq, Repr

/-- An access in flight (R208): issued, its pieces not all performed. `lands` names the register that byte offsets of a lane's datum fill. -/
structure Acc where
  kind   : AccKind
  ctx    : Nat
  ch     : Nat        -- the cache hint (R257)
  pieces : List Piece
  got    : Tbl Nat    -- lane → bytes read so far
  size   : Nat        -- bytes per lane
  sgn    : Bool       -- sign-extend the 8- or 16-bit result
  dst    : Opnd
  once   : Bool       -- once per slice: one result
  id     : Nat        -- the outstanding instruction; 0 when no result
  pc     : DWord
  mask   : Word       -- the slice's active lanes at issue
  grp    : Nat        -- shared by the accesses of the slices that issued together
  whole  : Bool       -- the gang covers one sector in lane order: one event (R212)
  deriving DecidableEq, Repr

/-- A reconvergence-stack entry (R144). -/
structure REntry where
  mask  : BitVec 4
  ppc   : DWord
  pmask : BitVec 4
  mpc   : DWord
  deriving DecidableEq, Repr

/-- A slice (R133, R144, R243). Vector register r of lane l has key 4r + l; p predicates are bit 8·lane + k. -/
structure Slice where
  crew     : Nat
  ix       : Nat
  role     : Role
  pc       : DWord
  live     : BitVec 4
  active   : BitVec 4
  v        : Tbl Word
  s        : Tbl DWord
  p        : BitVec 32
  q        : BitVec 8
  flags    : Flags
  stack    : List REntry
  hmode    : Bool
  saved    : BitVec 4
  trappc   : DWord
  trapcode : BitVec 8
  trapdef  : Bool
  trapovf  : Bool
  trapaddr : DWord
  trapmask : Word
  trapinfo : DWord
  deferred : List TrapRec
  taking   : Option TrapRec      -- an exact trap waiting for outstanding results (R241)
  exhaust  : Option (DWord × Word) -- the recorded PC and SWEEPS (R203)
  park     : Park
  answers  : List Answer
  fetch    : List Answer         -- EXEC grants the slice's fetch holds (R55)
  accs     : Tbl Acc
  ready    : List Land
  outst    : Tbl Nat             -- outstanding variable-latency instruction → results still to land
  steps    : Nat
  bars     : Nat                 -- BAR phases registered
  barIn    : Bool                -- the BAR at the PC is already registered (R325)
  arrived  : Tbl Nat             -- scope → phase of the last counted ARRIVE
  stepIn   : Bool
  since    : Option Nat          -- the clock since which the slice has been ready (R240)
  raised   : Bool
  hold     : Bool                -- a YIELD asks to be passed over once (R308)
  relIn    : Bool                -- a release has started the crew's write-backs (R223)
  lost     : List Nat            -- lines dropped from the write-backs that its release waits for (R224)
  queries  : List (Nat × Nat × Opnd) -- TRSTQs on their way: outstanding instruction, chain, destination (R337)
  begun    : Option Nat          -- the instruction that it is parked at has been under way since this moment of the model's (R358, R361, R363)
  deriving DecidableEq, Repr

/-- A stash tile's tag (R118). -/
structure Tag where
  owner  : Owner
  mapped : Bool
  sv     : BitVec 8
  sd     : BitVec 8
  deriving DecidableEq, Repr

/-- A scratch tile's tag (R95). -/
structure STag where
  owner : Owner
  kind  : Nat
  xe    : Int
  ofl   : Bool
  nx    : Bool
  nv    : Bool
  deriving DecidableEq, Repr

/-- A stash mapping (R125). -/
structure Mapping where
  t0   : Nat
  n    : Nat
  base : Nat
  deriving DecidableEq, Repr

inductive ChainSt where
  | idle | running | waiting | ended | stopped | killed
  deriving DecidableEq, Repr

/-- A loop level of a chain: first and last body entry, iterations left, the four increments (R112). -/
structure LoopLv where
  head : Nat
  last : Nat
  left : Nat
  inc  : List Word
  deriving DecidableEq, Repr

/-- A data entry in flight (R107): its 32 bytes, the bytes it reads and writes, and the pieces not yet performed or sent, with the
addresses taken at dispatch. -/
structure Flight where
  ix   : Nat
  word : Nat
  rds  : List (Nat × Nat × Nat)   -- space, first byte, byte after the last
  wrs  : List (Nat × Nat × Nat)
  todo : List (List (Nat × Nat × Nat))   -- pieces: the destination, source and bytes of each part
  left : Nat                      -- pieces not yet performed
  ca   : List DWord               -- the address registers and loop stack as the entry found them (R105)
  loops : List LoopLv
  old  : Bool                     -- an earlier run of the chain dispatched it: it counts into no DONE (R104)
  kept : List Answer              -- its reads that no place serves: of non-resident pages (R58), of blocks evicted since (R75)
  deriving DecidableEq, Repr

/-- A Trestle chain context (R102, R104). -/
structure Chain where
  st     : ChainSt
  base   : Nat
  entry  : Nat
  ca     : List DWord
  loops  : List LoopLv
  sub    : Nat
  cause  : Nat
  done   : Nat
  flight : Tbl Flight
  cur    : Option Nat            -- the control or collective entry being run: its 32 bytes
  answers : List Answer          -- clearance of the entry about to start
  slice  : Nat                   -- the slice that issued the TRST
  pc     : DWord
  mask   : Word
  coll   : Option Nat            -- the collective contribution it waits for
  killing : Bool                 -- a TRSTK waits for sectors in flight (R105)
  deriving DecidableEq, Repr

/-- A queued Deck instruction with the scalars it took at issue (R334), and the outstanding result it fills. -/
structure DkEntry where
  uid : Nat
  i  : Instr
  sc : List DWord
  sl : Nat
  id : Nat
  deriving DecidableEq, Repr

/-- The Deck as its crew sees it (R177, R185). Cell register r of cell n has key 1024·r + n, n = 32j + i. -/
structure Deck where
  regs   : Tbl Word
  stack  : List (BitVec 1024)
  flags  : Tbl Flags
  dkflags : Flags
  queue  : List DkEntry
  depth  : Nat
  deriving DecidableEq, Repr

/-- A generator crew's identity (R71, R72): the block it fills, its range slot, depth and chain of blocks. -/
structure GenInfo where
  block : Nat
  slot  : Nat
  depth : Nat
  chain : List Nat
  open_ : Bool                   -- the write window (R74)
  above : List Nat               -- the generator launches whose reads led to it (R75)
  deriving DecidableEq, Repr

/-- A ring (R327). -/
structure Ring where
  nst : Nat
  ph  : BitVec 8
  deriving DecidableEq, Repr

structure Crew where
  span    : Nat
  launch  : Nat
  ctx     : Nat
  core    : Nat
  ix      : Nat
  tiles   : Nat
  regs    : Nat
  gangw   : Nat
  nvec    : Nat
  slices  : List Nat
  hasDeck : Bool
  startAt : Nat
  started : Bool
  ended   : Bool
  tags    : Tbl Tag
  maps    : List Mapping
  rings   : List Ring
  k       : Tbl Word
  chains  : List Chain
  gfl     : Flags
  gdone   : Word
  deck    : Deck
  gen     : Option GenInfo
  deriving DecidableEq, Repr

structure Span where
  launch  : Nat
  ix      : Nat
  cluster : Nat
  base    : Nat
  count   : Nat
  tags    : Tbl STag
  crews   : List Nat
  deriving DecidableEq, Repr

/-- The fields of a launch record that a launch keeps (R227). -/
structure LRec where
  entry : DWord
  args  : DWord
  prio  : Nat
  regs  : Nat
  gang  : Nat
  nvec  : Nat
  copy  : Bool
  mat   : Bool
  decks : Bool
  dk    : Bool
  stash : Nat
  spant : Nat
  cps   : Nat
  nspans : Nat
  mint  : Nat
  maxt  : Nat
  stag  : Nat
  npkg  : Nat
  preds : List DWord
  deriving DecidableEq, Repr

/-- A launch (R227 to R238). `hw` is its handle word's address, none for a generator launch (R71). -/
structure Launch where
  ctx      : Nat
  lid      : Word
  hw       : Option DWord
  tower    : Nat                 -- the issuing tower
  lrec     : LRec
  ready    : Bool
  towers   : List Nat            -- towers drawing spans
  gone     : List Nat            -- withdrawn towers
  drawn    : Nat                 -- spans handed out so far
  back     : List Nat            -- spans returned by withdrawn towers
  waiting  : Tbl (List Nat)      -- cluster → unstarted spans
  spans    : List Nat            -- live spans
  steps    : Nat                 -- step boundaries reached
  done     : Bool
  failed   : Bool
  gen      : Option GenInfo
  deriving DecidableEq, Repr

/-- An issue slot (R239, R240): its units in order of binding (each a gang's or a singleton's slices), the unit that holds the slot, the
instructions of its run, the last winner, when the slot is next free, and the special-function instructions queued (R273). -/
structure Slot where
  units  : List (List Nat)
  holder : List Nat
  len    : Nat
  last   : Nat
  freeAt : Nat
  sfu    : List Nat
  deriving DecidableEq, Repr

structure ClrEntry where
  ctx  : Nat
  page : Nat
  size : Nat
  r    : Right
  deriving DecidableEq, Repr

/-- A queued MLOOP with what it took at issue (R157, R334, R340). -/
structure GLoop where
  id     : Nat
  crew   : Nat
  acrew  : Nat                   -- the crews whose stash holds A and B
  bcrew  : Nat
  sp     : Bool
  blk    : List DWord            -- a to a + 3, b
  fa     : Nat
  fb     : Nat
  fregs  : List Word             -- format registers fa, fb
  gregs  : List Word
  gen    : Nat                   -- the group's generation at issue
  part   : Option (List Nat)     -- the partial P, once computed
  merged : Bool
  fl     : Flags
  sent   : Bool                  -- the multicast requests have been sent
  mc     : Tbl (List Byte)       -- multicast sectors received
  deriving DecidableEq, Repr

structure Core where
  clr    : List ClrEntry         -- most recently used first
  icache : Tbl Word              -- context·2^57 + address of a 4-byte word → cached word
  wake   : Option DWord
  slots  : List Slot
  loops  : List GLoop            -- head runs
  window : Nat                   -- W of R85
  inUse  : Nat
  unmarked : Nat
  lastHalf : Option Nat
  held   : List Nat              -- packets waiting for W
  deriving DecidableEq, Repr

/-- A multicast group (R99). -/
structure Group where
  mask  : BitVec 16
  gen   : BitVec 8
  drain : Nat
  span  : Nat
  deriving DecidableEq, Repr

structure Cluster where
  ways    : Nat
  groups  : List Group
  raising : Option (Nat × Nat)   -- a WRSR to L2WP in progress: new code, slice
  lower   : Bool                 -- the scheduler lowers the ways once that is over (R92)
  held    : List Nat             -- write-backs that wait for room in Viaduct (R85)
  deriving DecidableEq, Repr

/-- Who asks for clearance or a fill. -/
inductive Asker where
  | slice (sl : Nat)
  | fetch (sl : Nat)
  | chain (crew ch : Nat)
  /-- the scheduler, for an OS core's FY.LAUNCH (R230) -/
  | os (oc : Nat)
  /-- the target of a slice's remote load from a mapped tile (R126): access and part -/
  | remote (sl acc piece : Nat)
  deriving DecidableEq, Repr

/-- A clearance request (R54): not yet presented, parked at the owner, or answered. -/
structure ClrReq where
  who   : Asker
  ctx   : Nat
  va    : Nat
  r     : Right
  ans   : Option Answer
  walk  : Bool                   -- waits for a page walk
  deriving DecidableEq, Repr

/-- A read presented to a procedural block's home (R69, R70). -/
structure FillReq where
  who    : Asker
  ctx    : Nat
  va     : Nat
  pref   : Bool
  depth  : Nat
  chain  : List Nat
  retry  : Option (Nat × Nat)    -- reissue clock, next interval
  listed : Bool                  -- in the block's waiter list
  above  : List Nat              -- the generator launches of its chain (R75)
  pin    : Bool                  -- an MLOOP's read (R167)
  deriving DecidableEq, Repr

structure TlbEntry where
  ctx  : Nat
  page : Nat
  size : Nat
  leaf : DWord
  deriving DecidableEq, Repr

structure RePlan where
  last   : Nat                   -- device time of the last re-plan, ns; of the start of one that is active
  due    : Bool
  starved : Bool
  active : Bool
  busy   : Nat                   -- device time up to which the tower last held a resident crew (R377)
  deriving DecidableEq, Repr

structure Tower where
  tlb       : List TlbEntry
  walks     : Tbl DWord          -- upper-level entries kept (R52), by physical address
  residency : List (Nat × Nat × Nat)  -- context, page base, core
  resDrops  : Nat
  lidCount  : Nat
  pending   : List Nat           -- launches, in order of acceptance
  genQueue  : List Nat
  reserved  : List (Nat × Nat × Nat) -- launch, span index, cluster (R232)
  dealt     : Nat                -- the last cluster that the tower dealt a span to (R233)
  replan    : RePlan
  deriving DecidableEq, Repr

/-- A context's time slice (R247, R363): ended by the OS cores whenever they choose, without end, or ending at a clock. -/
inductive TimeSlice where
  | open_
  | endless
  | until_ (t : Nat)
  deriving DecidableEq, Repr

inductive CtxSt where
  | running | stopping | stopped | dead
  deriving DecidableEq, Repr

/-- A registered procedural range (R64). -/
structure PRange where
  base   : Nat
  size   : Nat
  bsz    : Nat
  limit  : Nat
  budget : Nat
  genrec : DWord
  desc   : Nat
  frames : Nat
  deriving DecidableEq, Repr

inductive Fill where
  | unfilled | filling | filled | failed
  deriving DecidableEq, Repr

/-- A procedural block's entry (R67, R69, R75, R76). -/
structure PBlock where
  st      : Fill
  frame   : Nat
  crew    : Option Nat           -- generator launch
  frec    : DWord
  age     : Nat
  waiters : List Nat             -- fill requests listed
  pins    : List Nat             -- waiters still to re-issue
  deriving DecidableEq, Repr

/-- A context (R47, R155, R243, R247). -/
structure Ctx where
  root    : Nat
  sys     : Bool
  migPool : Nat
  procPool : Nat
  drain   : Nat
  ksRec   : Nat
  capbase : DWord
  f       : Tbl Word
  g       : Tbl Word
  trapvec : DWord
  pendReg : List (Nat × DWord × Nat)  -- register index, value, writer
  st      : CtxSt
  stopAt  : Option Nat           -- the clock of the stop request
  slice   : TimeSlice
  overrun : Nat
  forced  : Bool
  moved   : Bool                 -- stopped because a package leaves (R372)
  cause   : Nat                  -- why it was stopped for good (R246); 0xFF for a force-reset (R76)
  ranges  : Tbl PRange
  blocks  : Tbl PBlock           -- by block base
  deriving DecidableEq, Repr

/-- A Keystone node (R194). -/
structure KNode where
  var : Nat
  lo  : Nat
  hi  : Nat
  ref : Nat
  psn : Bool
  deriving DecidableEq, Repr

/-- What a tower's engine holds for a context beside the record and the areas in memory: the variable order, DDSTAT's counters (R195, R206). -/
structure KEngine where
  level  : Tbl Nat               -- variable → level where not the identity
  hits   : Nat
  looks  : Nat
  poison : Nat
  deriving DecidableEq, Repr

/-- A context's Keystone table in one tower, as it is read out of the record, the areas and the engine (R192 to R206). -/
structure KTable where
  nlog   : Nat
  blog   : Nat
  clog   : Nat
  sweeps : Word
  nodes  : Tbl KNode
  buckets : Tbl Nat              -- 16·bucket + slot → handle
  cache  : Tbl (List Nat)        -- index → OP, FN, f, g, h, result
  level  : Tbl Nat               -- variable → level where not the identity
  hits   : Nat
  looks  : Nat
  poison : Nat
  deriving DecidableEq, Repr

/-- An LLC line (R34, R36). -/
structure LLine where
  dirty : Bool
  deriving DecidableEq, Repr

/-- An L2 line (R89, R90): `prot` victim choices that `keep` still protects it from; `lru`: inserted by `stream` in the least-recently-used
position and not used since. -/
structure L2Line where
  valid : BitVec 2
  dirty : BitVec 2
  excl  : Bool
  prot  : Nat
  lru   : Bool
  deriving DecidableEq, Repr

/-- A write-back in flight toward the home (R35, R127): address and byte of each dirty byte. -/
structure WBack where
  ctx   : Nat
  line  : Nat
  bytes : List (Nat × Byte)
  crew  : Option Nat             -- the crew whose mapped tile sent it
  deriving DecidableEq, Repr

inductive MigPhase where
  | marked | shootdown | copying
  deriving DecidableEq, Repr

/-- A page migration (R42, R43). -/
structure Mig where
  tower : Nat
  ctx   : Nat
  va    : Nat
  size  : Nat
  old   : Nat
  new   : Nat
  valid : List Nat               -- lines copied
  pull  : List Nat               -- lines being pulled
  phase : MigPhase
  dg    : Nat
  deriving DecidableEq, Repr

/-- A two-phase downgrade, a flush or a migration's shootdown (R62, R361). -/
structure Downgrade where
  ctx    : Nat
  va     : Nat
  size   : Nat
  leaf   : Option DWord          -- the new leaf; none for a flush
  keep   : Bool                  -- the change keeps READ
  writeOnly : Bool               -- only WRITE is removed
  toEmpty : List Nat             -- cores still to empty
  toAnswer : List Nat            -- cores still to answer, with the accesses they wait for
  waitFor : Tbl (List (Nat × Nat)) -- core → (slice, access) sent before the emptying
  closed : Bool
  mig    : Option Nat
  deriving DecidableEq, Repr

/-- A multicast request (R101): destination crew, and either a Trestle piece or a Girder sector. -/
structure McReq where
  core   : Nat
  ctx    : Nat
  va     : Nat
  group  : Nat
  gen    : Nat
  crew   : Nat
  ch     : Nat
  ent    : Nat
  dst    : Nat
  girder : Bool
  hint   : Nat                   -- the cache hint of its entry (R109)
  data   : Option (List Byte)    -- the bytes of a block evicted since its read was served (R75)
  deriving DecidableEq, Repr

structure McSet where
  cluster : Nat
  ctx    : Nat
  va     : Nat
  group  : Nat
  gen    : Nat
  first  : Nat                   -- first and last arrival
  last   : Nat
  reqs   : List McReq
  deriving DecidableEq, Repr

/-- A contribution to a collective REDUCE (R113), on its way or collected at the home of the destination's first line. -/
structure Collective where
  ctx   : Nat
  coll  : Nat
  dst   : Nat
  len   : Nat
  ety   : Nat
  npart : Nat
  rank  : Nat
  bytes : List Byte
  crew  : Nat
  ch    : Nat
  arrived : Bool
  short : Nat                    -- after a mismatch: the participants still to come, which are stopped too (R113)
  deriving DecidableEq, Repr

/-- A packet in the tower network (R81, R82). `tower` is the issuing tower; the stages are those of Net. `stamp` orders the packets of one queue; `headAt` is the clock at which it reached the head. -/
structure Pkt where
  reply : Bool
  tower : Nat
  core  : Nat
  lane  : Nat
  slice : Nat
  flits : Nat
  back  : Nat                    -- flits of the reply
  cls   : Nat
  units : Nat
  stage : Nat
  stamp : Nat
  headAt : Nat
  sat   : Bool
  mark  : Bool
  link  : Option Nat             -- the owner tower, where it is another
  dest  : Nat                    -- 0 the home of its line; a unit of the bus: 1 Keystone, 2 the scheduler, 3 the OS cores (R87)
  base  : Nat                    -- the ageing counter that it brought over a link (R88)
  one   : Bool                   -- it takes no reply
  who   : Option Nat             -- the slice that waits for a unit's answer
  deriving DecidableEq, Repr

/-- The last winner of an output and the clock it is busy until (R83): of a router, a tower link or the slice-side bus, by its key. -/
structure RouterOut where
  last : Nat
  busy : Nat
  deriving DecidableEq, Repr

/-- A host window (R365). -/
structure Window where
  host : Nat
  size : Nat
  ctx  : Nat
  va   : Nat
  wr   : Bool
  deriving DecidableEq, Repr

/-- A present queue (R370, R371). -/
structure EqQueue where
  pkg   : Nat
  ctx   : Nat
  endpoint : Nat
  va    : DWord
  cur   : Nat
  chosen : Option Bool           -- the current entry has been decided: FRAME (true) or FALLBACK
  sentAt : DWord
  sent   : Bool                  -- the first beat has left
  gapFrom : DWord                -- device times between which its package's index was vacant (R373)
  gapTo  : DWord
  deriving DecidableEq, Repr

/-- Where the firmware came from (R374): not fetched yet, over the management port, as NVMe over fabric, or from nowhere, which the port reports. -/
inductive Boot where
  | waiting | port | fabric | failed
  deriving DecidableEq, Repr

/-- A request parked on a vacant index (R372, R373): clearance, a read or a prefetch of a procedural block, a residency notice, a part of a
slice's access, a host access, an OS core's FY.LAUNCH. -/
inductive VacantAsk where
  | clr (k : Nat)
  | fill (k : Nat)
  | res (k : Nat)
  | part (sl acc piece : Nat)
  | host (pkg win off len : Nat) (write : Bool) (data : Nat)
  | os (oc : Nat)
  deriving DecidableEq, Repr

/-- The package where it is parked, the index that it names, and the device time, in ns, at which it parked. -/
structure VacantReq where
  ask   : VacantAsk
  pkg   : Nat
  index : Nat
  since : Nat
  deriving DecidableEq, Repr

structure Pkg where
  clock   : Nat
  clk100  : Nat
  trained : Bool
  booted  : Bool                 -- the measurement log is sealed (R374)
  source  : Boot
  fwLog   : List Nat             -- the measurements, one for each stage
  devTime : DWord
  devFrac : Nat                  -- millionths of a nanosecond beyond devTime
  timePage : Nat
  expansion : Nat × Nat
  links   : Tbl Nat              -- link → peer package, or 64 + endpoint
  linkDown : List Nat
  turn    : Tbl Nat              -- peer → the link that the last packet to it took (R367)
  leaving : Bool
  stepped : List Nat             -- launches that have reached a step boundary since it was marked leaving (R372)
  vacant  : Bool
  windows : Tbl Window           -- at most 64
  hostRead : Option (Bool × DWord) -- the last completion of a host read: poison, or data (R365)
  deriving DecidableEq, Repr

structure OsCore where
  x  : Tbl DWord
  pc : DWord
  deriving DecidableEq, Repr

/-- A record to the OS cores: a kind and its fields. -/
structure OsLog where
  kind : String
  args : List Nat
  deriving DecidableEq, Repr

structure State where
  npkgs    : Nat
  pkgs     : Tbl Pkg
  towers   : Tbl Tower
  clusters : Tbl Cluster
  cores    : Tbl Core
  ctxs     : Tbl Ctx
  launches : Tbl Launch
  spans    : Tbl Span
  crews    : Tbl Crew
  slices   : Tbl Slice
  mem      : Mem                 -- physical bytes: package·2^43 + address
  stash    : Mem                 -- crew·2^19 + offset
  scratch  : Mem                 -- span·2^23 + offset
  llc      : Tbl LLine           -- context·2^49 + VA / 256
  llcData  : Mem                 -- context·2^57 + VA
  l2       : Tbl L2Line          -- cluster·2^57 + context·2^49 + VA / 256
  l2Data   : Mem                 -- cluster·2^65 + context·2^57 + VA, dirty sectors only
  writeBacks : Tbl WBack
  banks    : Tbl (Nat × Bool × Nat) -- bank → last access, asleep, awake until
  bankClock : Tbl Nat            -- slice → the clock of the last bank of it that fell asleep or woke (R39)
  migs     : Tbl Mig
  migCounts : Tbl (Nat × Nat)    -- context·2^57 + page → count, first clock
  poison   : List Nat            -- poisoned physical lines
  resReqs  : Tbl (Nat × Nat × Nat) -- residency requests under way: context, address, core
  clrReqs  : Tbl ClrReq
  fillReqs : Tbl FillReq
  downgrades : Tbl Downgrade
  mcReqs   : Tbl McReq
  mcSets   : Tbl McSet
  colls    : Tbl Collective
  keystone : Tbl KEngine         -- tower·256 + context
  packets  : Tbl Pkt
  routers  : Tbl RouterOut
  equinox  : Tbl EqQueue
  vacantReqs : Tbl VacantReq     -- requests parked on a vacant index
  osCores  : Tbl OsCore
  osLog    : List OsLog
  schedule : List Move
  freeIx   : Nat
  cur      : List Nat
  curOs    : Option Nat
  nextId   : Nat
  deriving DecidableEq, Repr

/-! ### Initial values -/

def Slot.init : Slot := ⟨[], [], 0, 0, 0, []⟩

def Core.init : Core where
  clr := []
  icache := []
  wake := none
  slots := [Slot.init, Slot.init, Slot.init, Slot.init]
  loops := []
  window := 256
  inUse := 0
  unmarked := 0
  lastHalf := none
  held := []

/-- R99: at package reset every group holds mask 0, generation 0, drain count 0. -/
def Group.init : Group := ⟨0, 0, 0, 0⟩

def Cluster.init : Cluster := ⟨0, List.replicate 32 Group.init, none, false, []⟩

def Tower.init : Tower where
  tlb := []
  walks := []
  residency := []
  resDrops := 0
  lidCount := 1
  pending := []
  genQueue := []
  reserved := []
  dealt := 7
  replan := ⟨0, false, false, false, 0⟩

def Pkg.init : Pkg where
  clock := 0
  clk100 := 18
  trained := false
  booted := false
  source := .waiting
  fwLog := []
  devTime := 0
  devFrac := 0
  timePage := 0
  expansion := (0, 0)
  links := []
  linkDown := []
  turn := []
  leaving := false
  stepped := []
  vacant := false
  windows := []
  hostRead := none

/-- R118: zero, owned by SLICES, unmapped. -/
def Tag.init : Tag := ⟨.slices, false, 0, 0⟩
/-- R95: plain and owned by SLICES. -/
def STag.init : STag := ⟨.slices, 0, 0, false, false, false⟩
def Ring.init : Ring := ⟨0, 0⟩
def Chain.init : Chain := ⟨.idle, 0, 0, [0, 0, 0, 0], [], 0, 0, 0, [], none, [], 0, 0, 0, none, false⟩
/-- R177: one stack entry, 1 in every cell. -/
def Deck.init : Deck := ⟨[], [BitVec.allOnes 1024], [], 0, [], 1⟩

/-- R133, R144, R154, R243: a slice at its start. -/
def Slice.init (crew ix : Nat) (role : Role) (entry : DWord) : Slice where
  crew := crew
  ix := ix
  role := role
  pc := entry
  live := 0xF
  active := 0xF
  v := []
  s := []
  p := 0
  q := 0
  flags := 0
  stack := []
  hmode := false
  saved := 0
  trappc := 0
  trapcode := 0
  trapdef := false
  trapovf := false
  trapaddr := 0
  trapmask := 0
  trapinfo := 0
  deferred := []
  taking := none
  exhaust := none
  park := .run
  answers := []
  fetch := []
  accs := []
  ready := []
  outst := []
  steps := 0
  bars := 0
  barIn := false
  arrived := []
  stepIn := false
  since := none
  raised := false
  hold := false
  relIn := false
  lost := []
  queries := []
  begun := none

/-- R155, R243: a context at its creation. -/
def Ctx.init : Ctx where
  root := 0
  sys := false
  migPool := 0
  procPool := 0
  drain := 1
  ksRec := 0
  capbase := 0
  f := []
  g := []
  trapvec := 0
  pendReg := []
  st := .running
  stopAt := none
  slice := .open_
  overrun := 0
  forced := false
  moved := false
  cause := 0
  ranges := []
  blocks := []

/-- The machine right after package reset: one package, no context, empty memory and caches. -/
def State.reset : State where
  npkgs := 1
  pkgs := [(0, Pkg.init)]
  towers := []
  clusters := []
  cores := []
  ctxs := []
  launches := []
  spans := []
  crews := []
  slices := []
  mem := []
  stash := []
  scratch := []
  llc := []
  llcData := []
  l2 := []
  l2Data := []
  writeBacks := []
  banks := []
  bankClock := []
  migs := []
  migCounts := []
  poison := []
  resReqs := []
  clrReqs := []
  fillReqs := []
  downgrades := []
  mcReqs := []
  mcSets := []
  colls := []
  keystone := []
  packets := []
  routers := []
  equinox := []
  vacantReqs := []
  osCores := []
  osLog := []
  schedule := []
  freeIx := 0
  cur := []
  curOs := none
  nextId := 1

end Sys2Proof.Machine
end

