-- ==== Sys2Proof/Machine/Parts.lean ====
section
/-! DEFINITION. Reaching the parts of the state: one accessor and one update for each table, identities (R3), gangs and lanes (R9, R137). -/

namespace Sys2Proof.Machine

def State.sl (s : State) (i : Nat) : Slice := Tbl.findD s.slices i (Slice.init 0 0 .vec 0)
def State.setSl (s : State) (i : Nat) (x : Slice) : State := { s with slices := Tbl.put s.slices i x }
def State.updSl (s : State) (i : Nat) (f : Slice → Slice) : State := s.setSl i (f (s.sl i))

def Crew.none : Crew where
  span := 0
  launch := 0
  ctx := 0
  core := 0
  ix := 0
  tiles := 0
  regs := 0
  gangw := 1
  nvec := 0
  slices := []
  hasDeck := false
  startAt := 0
  started := false
  ended := true
  tags := []
  maps := []
  rings := List.replicate 8 Ring.init
  k := []
  chains := List.replicate 4 Chain.init
  gfl := 0
  gdone := 0
  deck := Deck.init
  gen := Option.none

def State.crew (s : State) (i : Nat) : Crew := Tbl.findD s.crews i Crew.none
def State.setCrew (s : State) (i : Nat) (x : Crew) : State := { s with crews := Tbl.put s.crews i x }
def State.updCrew (s : State) (i : Nat) (f : Crew → Crew) : State := s.setCrew i (f (s.crew i))

def Span.none : Span := ⟨0, 0, 0, 0, 0, [], []⟩
def State.span (s : State) (i : Nat) : Span := Tbl.findD s.spans i Span.none
def State.setSpan (s : State) (i : Nat) (x : Span) : State := { s with spans := Tbl.put s.spans i x }
def State.updSpan (s : State) (i : Nat) (f : Span → Span) : State := s.setSpan i (f (s.span i))

def State.core (s : State) (i : Nat) : Core := Tbl.findD s.cores i Core.init
def State.setCore (s : State) (i : Nat) (x : Core) : State := { s with cores := Tbl.put s.cores i x }
def State.updCore (s : State) (i : Nat) (f : Core → Core) : State := s.setCore i (f (s.core i))

def State.cluster (s : State) (i : Nat) : Cluster := Tbl.findD s.clusters i Cluster.init
def State.setCluster (s : State) (i : Nat) (x : Cluster) : State := { s with clusters := Tbl.put s.clusters i x }
def State.updCluster (s : State) (i : Nat) (f : Cluster → Cluster) : State := s.setCluster i (f (s.cluster i))

def State.tower (s : State) (i : Nat) : Tower := Tbl.findD s.towers i Tower.init
def State.setTower (s : State) (i : Nat) (x : Tower) : State := { s with towers := Tbl.put s.towers i x }
def State.updTower (s : State) (i : Nat) (f : Tower → Tower) : State := s.setTower i (f (s.tower i))

def State.pkg (s : State) (i : Nat) : Pkg := Tbl.findD s.pkgs i Pkg.init
def State.setPkg (s : State) (i : Nat) (x : Pkg) : State := { s with pkgs := Tbl.put s.pkgs i x }
def State.updPkg (s : State) (i : Nat) (f : Pkg → Pkg) : State := s.setPkg i (f (s.pkg i))

def State.ctx (s : State) (i : Nat) : Ctx := Tbl.findD s.ctxs i Ctx.init
def State.hasCtx (s : State) (i : Nat) : Bool := (Tbl.find s.ctxs i).isSome
def State.setCtx (s : State) (i : Nat) (x : Ctx) : State := { s with ctxs := Tbl.put s.ctxs i x }
def State.updCtx (s : State) (i : Nat) (f : Ctx → Ctx) : State := if s.hasCtx i then s.setCtx i (f (s.ctx i)) else s

def State.updLaunch (s : State) (i : Nat) (f : Launch → Launch) : State := { s with launches := Tbl.upd s.launches i f }

def State.log (s : State) (kind : String) (args : List Nat) : State := { s with osLog := s.osLog ++ [⟨kind, args⟩] }

/-- A fresh identity. -/
def State.fresh (s : State) : State := { s with nextId := s.nextId + 1 }

/-- Identities of R3, extended over the domain. -/
def coreCluster (core : Nat) : Nat := core / 16
def coreTower (core : Nat) : Nat := core / 128
def corePkg (core : Nat) : Nat := core / 1024

def State.crewOf (s : State) (i : Nat) : Crew := s.crew (s.sl i).crew
def State.coreOf (s : State) (i : Nat) : Nat := (s.crewOf i).core
def State.ctxOf (s : State) (i : Nat) : Nat := (s.crewOf i).ctx
def State.clockOf (s : State) (i : Nat) : Nat := (s.pkg (corePkg (s.coreOf i))).clock

/-- A slice whose crew has started and which still has live lanes. -/
def State.alive (s : State) (i : Nat) : Bool :=
  (Tbl.find s.slices i).isSome && (s.sl i).live != 0 && (s.crewOf i).started && !(s.crewOf i).ended

/-- The slices of a slice's gang: the VEC slices of its group of GANGW, or itself (R9, R137). -/
def State.gang (s : State) (i : Nat) : List Nat :=
  let x := s.sl i
  let c := s.crew x.crew
  if x.role = .vec then c.slices.filter fun j => (s.sl j).role = .vec && (s.sl j).ix / c.gangw == x.ix / c.gangw
  else [i]

def State.liveGang (s : State) (i : Nat) : List Nat := (s.gang i).filter s.alive

/-- The operand slot (R137). -/
def slotOf (c : Crew) (x : Slice) : Nat := if x.role = .vec then x.ix % c.gangw else 0

/-- A 4-lane mask in gang lane numbering. -/
def gangMask (c : Crew) (x : Slice) (m : BitVec 4) : Word := (m.setWidth 32) <<< (4 * slotOf c x)

/-- The lanes of a mask, ascending. -/
def lanesOf (m : BitVec 4) : List Nat := [0, 1, 2, 3].filter fun l => m.getLsbD l

def laneMask (ls : List Nat) : BitVec 4 := ls.foldl (fun m l => m ||| BitVec.twoPow 4 l) 0

end Sys2Proof.Machine
end

