-- ==== Sys2Proof/Machine/Net.lean ====
section
/-! DEFINITION. Viaduct, the tower links and Causeway (R78 to R88, R367): how a core's requests enter, are granted, marked, forwarded and
answered. Programs see only the time this takes; nothing else in the model reads a packet. -/

namespace Sys2Proof.Machine

/-! ### Addresses and homes (R34, R45) -/

def vaPkg (va : Nat) : Nat := va / 2 ^ 51 % 32
/-- The owner tower (R45). -/
def vaTower (va : Nat) : Nat := va / 2 ^ 48 % 256

/-- The home slice's number: a fold of VA[47:8] by six-bit groups. -/
def homeSlice (va : Nat) : Nat :=
  [0, 1, 2, 3, 4, 5, 6].foldl (fun h k => h ^^^ (va % 2 ^ 48 / 2 ^ (8 + 6 * k) % 64)) 0

def askerCore (s : State) (w : Asker) : Nat :=
  match w with
  | .slice i => s.coreOf i
  | .fetch i => s.coreOf i
  | .chain c _ => (s.crew c).core
  | .os oc => 64 * oc
  | .remote i _ _ => s.coreOf i

/-- The class of a crew's requests (R82). -/
def crewClass (s : State) (crew : Nat) : Nat :=
  let p := ((Tbl.find s.launches (s.crew crew).launch).map fun l => l.lrec.prio).getD 0
  if 4 ≤ p then 2 else if 2 ≤ p then 1 else 0

/-- Parks that wait on an answer which applies effects: they never take a pending trap (R242). -/
def Park.answering : Park → Bool
  | .before (.keystone _ _) => true
  | .before .tower => true
  | .before (.ctxStopped _) => true
  | .before (.blockFree _ _ _) => true
  | .before (.pageTurn _ _ _) => true
  | .before .launchRoom => true
  | .before .restore => true
  | .after .tower _ => true
  | .after (.shootdown _) _ => true
  | _ => false

/-! ### Where a packet stands (R78, R79, R81, R87, R88)

Stages. A request: 0 and 1 at the routers of its issuing tower, 2 at the slice there, 4 over the link and before its owner's bus port,
5 at a unit of the bus. A reply: 4 at the owner's home, 5 before the bus port of the slice of the issuing tower, 0 and 1 at the routers,
2 at its core. Stage 3: held at the L2 slice. -/

/-- The router and input at which a packet queues. -/
def Pkt.place (p : Pkt) : Nat × Nat :=
  let cl := p.core / 16 % 8
  match p.reply, p.stage with
  | false, 0 => (p.lane, cl)
  | false, _ => (p.slice / 8, p.lane)
  | true, 0 => (p.slice / 8, p.slice % 8)
  | true, _ => (p.lane, p.slice / 8)

/-- The output it wants there. -/
def Pkt.output (p : Pkt) : Nat :=
  match p.reply, p.stage with
  | false, 0 => p.slice / 8
  | false, _ => p.slice % 8
  | true, 0 => p.lane
  | true, _ => p.core / 16 % 8

def outKey (reply : Bool) (tower stage router out : Nat) : Nat :=
  (((if reply then 256 else 0) + tower) * 2 + stage) * 64 + 8 * router + out
/-- The way from one tower to another: the tower link of a package (R88), or the links that join two packages (R367). -/
def linkKey (a b : Nat) : Nat := if a / 8 = b / 8 then 2 ^ 17 + 256 * a + b else 2 ^ 17 + 2 ^ 16 + 32 * (a / 8) + b / 8
/-- A Causeway link in the direction away from a package. -/
def causeKey (pkg link : Nat) : Nat := 2 ^ 17 + 2 ^ 16 + 2 ^ 12 + 128 * pkg + link
/-- The bus into a slice, the bus to a unit, and a slice's entry into the reply network (R87). -/
def busKey (tower slice : Nat) : Nat := 2 ^ 18 + 64 * tower + slice
def unitKey (tower dest : Nat) : Nat := 2 ^ 19 + 8 * tower + dest
def portKey (tower slice : Nat) : Nat := 2 ^ 20 + 64 * tower + slice

/-- The output that a packet wants next, by its key. -/
def Pkt.wants (p : Pkt) : Option Nat :=
  match p.reply, p.stage, p.link with
  | r, 0, _ => some (outKey r p.tower 0 p.place.1 p.output)
  | r, 1, _ => some (outKey r p.tower 1 p.place.1 p.output)
  | false, 2, some t => some (linkKey p.tower t)
  | false, 2, none => some (if p.dest = 0 then portKey p.tower p.slice else unitKey p.tower p.dest)
  | false, 4, some t => some (if p.dest = 0 then busKey t p.slice else unitKey t p.dest)
  | true, 4, some t => some (linkKey t p.tower)
  | false, 5, _ => some (portKey p.tower p.slice)
  | true, 5, _ => some (portKey p.tower p.slice)
  | _, _, _ => none

/-- The tower in which it stands. -/
def Pkt.at_ (p : Pkt) : Nat := if p.stage = 4 then p.link.getD p.tower else p.tower

/-- The number of the link by which packets of tower `a` come to tower `b`: a tower's of the package, or a package's. -/
def linkInput (a b : Nat) : Nat := if a / 8 = b / 8 then 64 + a % 8 else 72 + a / 8 % 32

/-- The input by which a packet comes to its output. Off the routers: a slice 0 to 63, a link 64 to 103, a unit of the bus from 104 on (log 51). -/
def Pkt.input (p : Pkt) : Nat :=
  if p.stage < 2 then p.place.2
  else match p.reply, p.stage, p.link with
    | false, 4, some t => linkInput p.tower t
    | true, 5, some t => linkInput t p.tower
    | false, 5, _ => 104 + p.dest
    | _, _, _ => p.slice

/-- A packet's queue number at its output: 4·input + class (R82). -/
def Pkt.qnum (p : Pkt) : Nat := 4 * p.input + p.cls

/-- Queue numbers of its output. -/
def Pkt.inputs (p : Pkt) : Nat := if p.stage < 2 then 32 else 512

def Pkt.queued (p : Pkt) : Bool := p.wants.isSome

def sameQueue (p q : Pkt) : Bool :=
  q.queued && p.reply == q.reply && p.tower == q.tower && p.stage == q.stage && p.cls == q.cls &&
    (if p.stage < 2 then p.place == q.place else p.wants == q.wants && p.qnum == q.qnum)

/-- Flits in the queue of a packet. -/
def queueFlits (s : State) (p : Pkt) : Nat := ((s.packets.filter fun e => sameQueue p e.2).map fun e => e.2.flits).foldl (· + ·) 0

/-- The packet stands at the head of its queue. -/
def atHead (s : State) (p : Pkt) : Bool := p.queued && s.packets.all fun e => !sameQueue p e.2 || p.stamp ≤ e.2.stamp

/-- The ageing counter (R83), with what it brings from the hop before (R88). -/
def Pkt.age (p : Pkt) (now : Nat) : Nat := min 255 (p.base + (now - p.headAt) / 2)

def towerClock (s : State) (tower : Nat) : Nat := (s.pkg (tower / 8)).clock

/-- A packet joins a queue, with the clock from which it may go on. -/
def enqueue (s : State) (k : Nat) (p : Pkt) (now : Nat) : State :=
  { s.fresh with packets := Tbl.put s.packets k { p with stamp := s.nextId, headAt := now, sat := false } }

/-- The next packet of a queue reaches its head; its counter starts at the grant of the packet before it (DESIGN CHOICE, log 51). -/
def advanceHead (s : State) (p : Pkt) (now : Nat) : State :=
  match (s.packets.filter fun e => sameQueue p e.2 && atHead s e.2) with
  | (k, q) :: _ => { s with packets := Tbl.put s.packets k { q with headAt := max now q.headAt } }
  | [] => s

/-! ### Entering (R79, R85, R87, R88) -/

/-- Every 64th unmarked reply since the last halving raises the window (R85). -/
def windowRaise (c : Core) : Core :=
  if 64 ≤ c.unmarked then { c with unmarked := c.unmarked - 64, window := min 256 (c.window + 1) } else c

/-- The packet fits the window, a raise that is due included, and its lane's queue. One that occupies no unit waits for its queue alone. -/
def admitOk (s : State) (p : Pkt) : Bool :=
  let c := windowRaise (s.core p.core)
  (p.units == 0 || c.inUse + p.units ≤ c.window) && queueFlits s { p with stage := 0 } + p.flits ≤ 16

def letIn (s : State) (k : Nat) (p : Pkt) : State :=
  (enqueue s k { p with stage := 0 } (towerClock s p.tower)).updCore p.core fun c => { c with inUse := c.inUse + p.units }

/-- A held packet of class 3, or of the others: nothing of class 3 waits behind the others (R82). -/
def heldOf (s : State) (ctl : Bool) (k : Nat) : Bool := ((Tbl.find s.packets k).map fun p => (p.cls == 3) == ctl).getD false

/-- A packet enters Viaduct, or the L2 slice holds it in order, over all lanes (R85; DESIGN CHOICE, log 51). -/
def send (s : State) (p : Pkt) : State :=
  let k := s.nextId
  if !((s.core p.core).held.any (heldOf s (p.cls == 3))) && admitOk s p then letIn s.fresh k p
  else ({ s.fresh with packets := Tbl.put s.packets k p }).updCore p.core fun c => { c with held := c.held ++ [k] }

/-- The packet that a cluster sends about the line of `va` (R79). -/
def linePkt (core cls va flits back units : Nat) : Pkt where
  reply := false
  tower := core / 128
  core := core
  lane := va / 256 % 8
  slice := homeSlice va
  flits := flits
  back := back
  cls := cls
  units := units
  stage := 3
  stamp := 0
  headAt := 0
  sat := false
  mark := false
  link := if vaTower va = core / 128 then none else some (vaTower va)
  dest := 0
  base := 0
  one := false
  who := none

/-- A request of a core for the line of `va`. -/
def inject (s : State) (core cls va flits back units : Nat) : State := send s (linePkt core cls va flits back units)

/-- A message of a core to a unit of the bus of a tower: 1 Keystone, 2 the scheduler, 3 the OS cores (R79, R87). `who` waits for the answer. -/
def injectUnit (s : State) (core cls dest tower : Nat) (who : Option Nat) : State :=
  send s { linePkt core cls 0 1 1 1 with
    lane := core % 8
    slice := core % 64
    link := if tower = core / 128 then none else some tower
    dest := dest
    who := who }

/-- A clearance or fill-state message: class 3, one flit each way; a message without data occupies one unit (R82, R85; DEDUCED, log 51). -/
def injectControl (s : State) (core va : Nat) : State := inject s core 3 va 1 1 1

/-- Flits of a packet with `n` data bytes: 32 fit in the header (R81). The table has no row for 33 to 127 bytes: as a sector, 3 (DESIGN CHOICE,
log 51). -/
def dataFlits (n : Nat) : Nat := if n ≤ 32 then 1 else 3

/-- The packet would stand in the same queue of its first router. -/
def sameEntry (p q : Pkt) : Bool := p.lane == q.lane && p.cls == q.cls && p.core / 16 == q.core / 16

def roomAtEntry (s : State) (p : Pkt) : Bool := queueFlits s { p with stage := 0 } + p.flits ≤ 16

/-- A packet of a cluster to the home of `va` that takes no reply: a write-back, or the answer to a recall. It is no request of a core and
occupies no window (R85); where its queue has no room its L2 slice holds it behind those of that queue alone. -/
def sendHome (s : State) (cl cls va flits : Nat) : State :=
  let k := s.nextId
  let p := { linePkt (16 * cl) cls va flits 0 0 with one := true }
  let behind := (s.cluster cl).held.any fun j => ((Tbl.find s.packets j).map (sameEntry p)).getD false
  if !behind && roomAtEntry s p then letIn s.fresh k p
  else ({ s.fresh with packets := Tbl.put s.packets k p }).updCluster cl fun c => { c with held := c.held ++ [k] }

/-- The first packet of those that a cluster holds with none of its queue before it and room there. -/
def heldFirst (s : State) (before : List Pkt) : List Nat → Option (Nat × Pkt)
  | [] => none
  | k :: ks =>
    match Tbl.find s.packets k with
    | none => heldFirst s before ks
    | some p => if !before.any (sameEntry p) && roomAtEntry s p then some (k, p) else heldFirst s (p :: before) ks

/-- A transfer between the home slice of `va` and a unit of its tower's slice-side bus: 4 the memory controllers, 5 the migration engine (R87). -/
def busUnit (s : State) (dest va flits : Nat) : State :=
  let p := { linePkt (128 * vaTower va) 0 va flits 0 0 with stage := 2, dest := dest, one := true }
  enqueue s.fresh s.nextId p (towerClock s (vaTower va))

/-- A packet of the home of `va` to a cluster: a recall or an invalidation, in class 3 (R82). -/
def sendCluster (s : State) (cl va : Nat) : State :=
  let p := linePkt (16 * cl) 3 va 1 0 0
  enqueue s.fresh s.nextId { p with reply := true, stage := if p.link.isSome then 4 else 5, one := true } (towerClock s (vaTower va))

/-- A recall and the cluster's answer to it, with the sectors it brings (R81, R82); the answer leaves in the step of the recall (DESIGN CHOICE,
log 51). -/
def recallPackets (s : State) (cl va sectors : Nat) : State := sendHome (sendCluster s cl va) cl 3 va (1 + 2 * sectors)

/-- A packet that the L2 slice holds enters Viaduct: a cluster's write-back, or the request at the head of the core's order, class 3 first. -/
def windowAdmit (s : State) (core : Nat) : State :=
  match heldFirst s [] (s.cluster (core / 16)).held with
  | some (k, p) => (letIn s k p).updCluster (core / 16) fun c => { c with held := c.held.filter (· != k) }
  | none =>
  let c := s.core core
  let go := fun (ctl : Bool) => ((c.held.filter (heldOf s ctl)).head?).bind fun k =>
    (Tbl.find s.packets k).bind fun p => if admitOk s p then some (k, p) else none
  match (go true).or (go false) with
  | some (k, p) => (letIn s k p).updCore core fun c => { c with held := c.held.filter (· != k) }
  | none => s

/-! ### Grants (R83, R84, R88) -/

/-- How far a queue number lies behind the last winner's, with wrap-around, of `m` queues. -/
def afterLast (m last q : Nat) : Nat := (q + 2 * m - 1 - last) % m

/-- The packet as it stands after the grant of its output: at the next queue, its age with it where it is forwarded. -/
def Pkt.hop (p : Pkt) (age : Nat) : Pkt :=
  match p.reply, p.stage, p.link with
  | _, 0, _ => { p with stage := 1, base := 0 }
  | _, 1, _ => { p with stage := 2, base := if p.link.isSome then age else 0 }
  | false, 2, some _ => { p with stage := 4, base := age }
  | false, 2, none => if p.dest = 0 then { p with reply := true, stage := 0, flits := p.back, base := 0 } else { p with stage := 5, base := age }
  | false, 4, _ => { p with reply := true, stage := 4, flits := p.back, base := age }
  | true, 4, _ => { p with stage := 5, base := age }
  | false, 5, _ => { p with reply := true, stage := 0, flits := p.back, base := 0 }
  | true, 5, _ => { p with stage := 0, base := 0 }
  | _, _, _ => p

/-- After its grant, a packet without reply has arrived: at its home slice, by the bus port where it came over a link, or at its cluster. -/
def Pkt.arrived (w : Pkt) : Bool :=
  w.one && (match w.reply, w.stage with
    | false, 1 => w.link.isNone
    | false, 2 => w.link.isNone
    | false, 4 => true
    | true, 1 => true
    | _, _ => false)

/-- The queue that it joins has room for the whole packet; slices, links and cores accept what comes (log 51). -/
def fitsNext (s : State) (p : Pkt) : Bool :=
  let q := p.hop 0
  2 ≤ q.stage || queueFlits s q + q.flits ≤ 16

/-- The answer that a unit gives is there: its asker waits no more (R87). -/
def answerThere (s : State) (p : Pkt) : Bool :=
  p.reply || p.stage != 5 || ((p.who.map fun i => !(s.sl i).park.answering).getD true)

/-- Whether `a` wins over `b`: the saturated first, in queue order; else class, then age, then queue order. -/
def beats (now last : Nat) (a b : Pkt) : Bool :=
  let sa := a.sat || a.age now == 255
  let sb := b.sat || b.age now == 255
  let first := afterLast a.inputs last a.qnum < afterLast b.inputs last b.qnum
  if sa || sb then (sa && !sb) || (sa && sb && first)
  else b.cls < a.cls || (a.cls == b.cls && (b.age now < a.age now || (a.age now == b.age now && first)))

/-- The last winner and the busy time of an output. Before its first grant the last winner is the last queue (DESIGN CHOICE, log 51). -/
def outAt (s : State) (key : Nat) : RouterOut := Tbl.findD s.routers key ⟨if key < 2 ^ 17 then 31 else 511, 0⟩

/-- The packets that an output may be granted to at a clock. -/
def outHeads (s : State) (key now : Nat) : List (Nat × Pkt) :=
  s.packets.filter fun e =>
    e.2.wants == some key && e.2.headAt ≤ now && atHead s e.2 && fitsNext s e.2 && answerThere s e.2

/-- The head packet that an output is granted to. -/
def winner (s : State) (key now : Nat) : Option (Nat × Pkt) :=
  match outHeads s key now with
  | [] => none
  | c :: cs => some (cs.foldl (fun b e => if beats now (outAt s key).last e.2 b.2 then e else b) c)

/-- Clocks that a packet holds its output: 2 for each flit; a tower link moves four flits in them (R81, R88). -/
def Pkt.holds (p : Pkt) (key : Nat) : Nat := if 2 ^ 17 ≤ key && key < 2 ^ 18 then 2 * ((p.flits + 3) / 4) else 2 * p.flits

/-- A free output is granted; at a router the packet is marked when the next queue holds 12 flits or more (R84). `via`: the Causeway link
that carries the packet and is busy in the output's place. -/
def grantOut (s : State) (key tower : Nat) (only via : Option Nat) : State :=
  let now := towerClock s tower
  if now < (outAt s (via.getD key)).busy then s
  else
    match winner s key now with
    | none => s
    | some (k, w) =>
      if only.isSome && only != some k then s
      else
        let marked := w.stage == 0 && 12 ≤ queueFlits s (w.hop 0)
        let p := { w.hop (w.age now) with mark := w.mark || marked }
        let held := w.holds key
        let r1 := Tbl.put s.routers key ⟨w.qnum, if via.isSome then now else now + held⟩
        let s1 : State := { s with routers := (via.map fun v => Tbl.put r1 v ⟨0, now + held⟩).getD r1 }
        advanceHead (if w.arrived then { s1 with packets := Tbl.del s1.packets k } else enqueue s1 k p (towerClock s p.at_ + held)) w now

/-- ROUTER_GRANT: stages 0 and 1 of either network; stage 2 the bus into a home slice, or a slice's entry into the reply network; stage 3
the bus to a unit (R87). -/
def routerGrant (s : State) (reply : Bool) (tower stage router out : Nat) : State :=
  if stage < 2 then grantOut s (outKey reply tower stage router out) tower none none
  else if stage = 2 then grantOut s (if reply then portKey tower (8 * router + out) else busKey tower (8 * router + out)) tower none none
  else if stage = 3 && !reply then grantOut s (unitKey tower out) tower none none
  else s

def ageingSaturate (s : State) (k : Nat) : State :=
  match Tbl.find s.packets k with
  | some p => if atHead s p && p.age (towerClock s p.at_) == 255 then { s with packets := Tbl.put s.packets k { p with sat := true } } else s
  | none => s

/-- The working links that join a package to another, in order (R367). -/
def pairLinks (p : Pkg) (peer : Nat) : List Nat := ((p.links.filter fun e => e.2 == peer && !p.linkDown.contains e.1)).map Prod.fst

/-- The link whose turn it is: the working links of a pair are used in rotation. -/
def nextLink (p : Pkg) (peer : Nat) : Option Nat :=
  let ks := pairLinks p peer
  ((Tbl.find p.turn peer).bind fun last => ks.find? fun k => last < k).or ks.head?

/-- A packet that wins the link crosses it: a request to its owner's tower, a reply back to the issuing one (R88). -/
def linkForward (s : State) (k : Nat) : State :=
  match Tbl.find s.packets k with
  | none => s
  | some p =>
    match p.link with
    | some t =>
      let a := if p.reply then t else p.tower
      let b := if p.reply then p.tower else t
      if !((p.stage == 2 && !p.reply) || (p.stage == 4 && p.reply)) then s
      else if a / 8 = b / 8 then grantOut s (linkKey a b) p.at_ (some k) none
      else
        match nextLink (s.pkg (a / 8)) (b / 8) with
        | none => s
        | some l =>
          let r := grantOut s (linkKey a b) p.at_ (some k) (some (causeKey (a / 8) l))
          if (Tbl.find r.packets k).map Pkt.stage == some p.stage then r
          else r.updPkg (a / 8) fun q => { q with turn := Tbl.put q.turn (b / 8) l }
    | none => s

/-! ### Replies and the window (R85) -/

/-- A marked reply halves the window, not twice within 128 clocks; an unmarked one is counted. A raise that is due comes before it. -/
def windowReply (now : Nat) (mark : Bool) (units : Nat) (c0 : Core) : Core :=
  let c := windowRaise c0
  let c1 := { c with inUse := c.inUse - units }
  if mark then
    if (c.lastHalf.map fun t => decide (now < t + 128)).getD false then c1
    else { c1 with window := max 8 (c.window / 2), lastHalf := some now, unmarked := 0 }
  else { c1 with unmarked := c.unmarked + 1 }

def replyArrival (s : State) (k : Nat) : State :=
  match Tbl.find s.packets k with
  | some p =>
    if p.reply && p.stage == 2 then
      ({ s with packets := Tbl.del s.packets k }).updCore p.core (windowReply (towerClock s p.tower) p.mark p.units)
    else s
  | none => s

/-! ### Causeway's links (R367) -/

/-- All links that join a package to another, in order. -/
def allPairLinks (p : Pkg) (peer : Nat) : List Nat := (p.links.filter fun e => e.2 == peer).map Prod.fst

/-- The other end of a link: the peer package and the number that the link has there, the ends of a pair's links being in the same order. -/
def linkMate (s : State) (pkg link : Nat) : Option (Nat × Nat) :=
  (Tbl.find (s.pkg pkg).links link).bind fun peer =>
    if 64 ≤ peer then none
    else ((allPairLinks (s.pkg peer) pkg)[(allPairLinks (s.pkg pkg) peer).idxOf link]?).map fun l => (peer, l)

def linkFails (p : Pkg) (link : Nat) : Pkg :=
  if (Tbl.find p.links link).isSome && !p.linkDown.contains link then { p with linkDown := p.linkDown ++ [link] } else p

def linkReturns (p : Pkg) (link : Nat) : Pkg := { p with linkDown := p.linkDown.filter (· != link) }

end Sys2Proof.Machine
end

