-- ==== Sys2Proof/WellFormed.lean ====
section
/-! DEFINITION. Which instructions are well formed: `formOk` is what check 2 of R254 asks of the fields (types, hints, guards,
immediates, memory control), `operandsOk` what check 4 asks of the operand kinds, even pairs and scalar ranges. -/

namespace Sys2Proof

/-- The kinds an operand byte may name (R258). -/
inductive Kind where
  | v | s | z | l | t | i
  deriving DecidableEq, Repr

def Opnd.kind : Opnd → Kind
  | .v _ => .v | .s _ => .s | .zero => .z | .lane => .l | .slot => .t | .imm => .i

/-- Register numbers in range, and an even vector register where a pair is named (R258, R260). -/
def Opnd.numOk (pair : Bool) : Opnd → Bool
  | .v n => n < 192 && (!pair || n % 2 == 0)
  | .s n => n < 48
  | _ => true

def Opnd.ok (o : Opnd) (ks : List Kind) (pair : Bool := false) : Bool := ks.contains o.kind && o.numOk pair

/-- Any source of R258. -/
def Opnd.src (o : Opnd) (pair : Bool := false) : Bool := o.ok [.v, .s, .z, .l, .t, .i] pair
/-- Any destination of R258. -/
def Opnd.dst (o : Opnd) (pair : Bool := false) : Bool := o.ok [.v, .s, .z] pair
/-- A scalar source of the engine and system families: an s register, zero or the immediate (R334, R353). -/
def Opnd.szi (o : Opnd) : Bool := o.ok [.s, .z, .i]
def Opnd.sz (o : Opnd) : Bool := o.ok [.s, .z]
def Opnd.si (o : Opnd) : Bool := o.ok [.s, .i]
def Opnd.vs (o : Opnd) (pair : Bool := false) : Bool := o.ok [.v, .s] pair
def Opnd.sOnly (o : Opnd) : Bool := o.ok [.s]

/-- A range of `k` s registers does not pass s47 (R260). -/
def Opnd.sRange (o : Opnd) (k : Nat) : Bool :=
  match o with
  | .s n => n + k ≤ 48
  | _ => true

/-- Vector operands of R135: v registers and lane. -/
def Opnd.isVec : Opnd → Bool
  | .v _ => true | .lane => true | _ => false

def Opnd.isS : Opnd → Bool
  | .s _ => true | _ => false

/-- R135's last row: a scalar destination takes no vector source. -/
def scalarDst (d : Opnd) (srcs : List Opnd) : Bool := !(d.isS && srcs.any Opnd.isVec)

def Ty.is64 : Ty → Bool
  | .u64 => true | .s64 => true | _ => false

def tyI4 : List Ty := [.u32, .s32, .u64, .s64]
def tyI8 : List Ty := [.u32, .s32, .u64, .s64, .u16x2, .s16x2, .u8x4, .s8x4]
def tyF : List Ty := [.f32, .f16, .bf16, .f16x2, .bf16x2]
def tyF3 : List Ty := [.f32, .f16, .bf16]
def tyU : List Ty := [.u32, .u64]

/-- The guards are three-bit indices, and no hint is carried (R257). -/
def Hdr.guards (h : Hdr) : Bool := h.g1.ix < 8 && h.g2.ix < 8
def Hdr.plain (h : Hdr) : Bool := h.guards && h.ch == 0
/-- An instruction that takes a cache hint: codes 0 to 4 (R257). -/
def Hdr.hinted (h : Hdr) : Bool := h.guards && h.ch ≤ 4
def Hdr.unguarded (h : Hdr) : Bool := h.plain && h.g1 == Guard.always && h.g2 == Guard.always
/-- The immediate is zero unless an operand names it (R258). -/
def Hdr.immIf (h : Hdr) (os : List Opnd) : Bool := h.plain && (h.imm == 0 || os.contains .imm)
def Hdr.immBelow (h : Hdr) (n : Nat) : Bool := h.plain && h.imm.toNat < n
/-- The immediate of an X form is a sign-extended IMM24 (R259). -/
def Hdr.imm24 (h : Hdr) : Bool := (h.imm.setWidth 24).signExtend 32 == h.imm

def PredOp.ok (p : PredOp) : Bool := p.ix < 8

/-- R214 and R264: order and scope. `acq` and `rel` say which orders the instruction takes, `r` whether .r is allowed. -/
def MemOp.form (m : MemOp) (acq rel r : Bool) : Bool :=
  (r || !m.r) && m.scale < 4 && (m.scale == 0 || m.index != .zero) &&
  (match m.order with
   | .relaxed => m.scope == .slice
   | .acquire => acq
   | .release => rel
   | .acqRel => acq && rel)

def MemOp.operands (m : MemOp) : Bool :=
  m.base.ok [.v, .s, .z] true && m.index.ok [.v, .s, .l, .t, .z]

def LdSize.pair : LdSize → Bool
  | .b64 => true | .b128 => true | _ => false
def LdSize.sRegs : LdSize → Nat
  | .b128 => 2 | _ => 1

def AtomOp.tys : AtomOp → List Ty
  | .add | .min | .max => [.u32, .s32, .u64, .s64, .f32, .f16x2, .bf16x2]
  | _ => tyU

def AtomOp.isRed : AtomOp → Bool
  | .exch | .inc | .dec => false
  | _ => true

/-- Cell sources: c0 to c47, cx, cy (R344). -/
def CellOp.cellSrc : CellOp → Bool
  | .cell n => n < 48 | .cx => true | .cy => true | .scalar _ => false
def CellOp.any : CellOp → Bool
  | .scalar o => o.szi
  | c => c.cellSrc
def CellOp.immIn : CellOp → Bool
  | .scalar .imm => true | _ => false
def CellOp.none : CellOp := .scalar .zero

def DkFn.tys : DkFn → List Ty
  | .add | .sub | .mul | .fma | .min | .max | .cmp => [.u32, .s32, .f32]
  | .sar => [.s32]
  | .rcp => [.f32]
  | _ => [.u32]
def DkFn.usesB : DkFn → Bool
  | .mov | .rcp => false | _ => true
def DkFn.usesC : DkFn → Bool
  | .fma | .sel => true | _ => false

/-- Special-register indices that R296 lists. -/
def srListed (n : Nat) : Bool :=
  n < 16 || n == 0x20 || n == 0x21 || (0x30 ≤ n && n ≤ 0x35) || (0x40 ≤ n && n ≤ 0x5F) ||
  n == 0x70 || n == 0x71 || n == 0x80 || n == 0xF0

/-- The listed indices whose write has no row of its own: every WRSR to them is refused with PRIV (R296). -/
def srOtherWrite (n : Nat) : Bool := n < 16 || n == 0x71 || n == 0x80 || n == 0xF0

def RedOp.tyOk (op : RedOp) (t : Ty) : Bool :=
  match t with
  | .u32 => true
  | .s32 => true
  | .f32 => op == .add || op == .min || op == .max
  | _ => false

/-- Check 2 of R254, on the decoded fields. -/
def Instr.formOk : Instr → Bool
  | .nop h => h.immIf []
  | .bra h | .braUni h | .trap h => h.plain
  | .brx h _ | .callx h _ _ | .ret h _ => h.immIf []
  | .call h _ => h.plain
  | .brace h | .meet h | .regang h | .rteRetry h | .rteResume h | .step h => h.unguarded && h.imm == 0
  | .exit h | .yield h | .bpt h => h.immIf []
  | .sleep h a => h.immIf [a]
  | .iadd h _ t _ a b | .isub h _ t _ a b | .imin h t _ a b | .imax h t _ a b => tyI8.contains t && h.immIf [a, b]
  | .imul h t _ a b => [Ty.u32, .s32, .u64, .s64, .u16x2, .s16x2].contains t && h.immIf [a, b]
  | .imulh h t _ a b => tyI4.contains t && h.immIf [a, b]
  | .imad h acc t _ a b c => (if acc then [Ty.u32, .s32] else tyI4).contains t && h.immIf [a, b, c]
  | .iabs h _ t _ a => [Ty.s32, .s64, .s16x2, .s8x4].contains t && h.immIf [a]
  | .iadd3 h t _ a b c => tyI4.contains t && h.immIf [a, b, c]
  | .iaddc h _ p t _ a b | .isel h _ p t _ a b => p < 8 && tyU.contains t && h.immIf [a, b]
  | .icmp h cond t pd a b => cond != .num && cond != .nan && tyI4.contains t && pd.ok && h.immIf [a, b]
  | .lea h n t _ a b => n < 8 && [Ty.u32, .s32].contains t && h.immIf [a, b]
  | .isad h t _ a b c => [Ty.u32, .s32, .u8x4, .s8x4].contains t && h.immIf [a, b, c]
  | .idot4 h _ _ t _ a b c => [Ty.u8x4, .s8x4].contains t && h.immIf [a, b, c]
  | .and h _ t _ a b | .or h _ t _ a b | .xor h _ t _ a b | .shl h _ t _ a b | .shr h _ t _ a b | .rot h _ t _ a b =>
    tyU.contains t && h.immIf [a, b]
  | .sar h _ t _ a b => [Ty.s32, .s64].contains t && h.immIf [a, b]
  | .mix3 h t _ _ _ _ => tyU.contains t && h.immBelow 256
  | .fshf h _ _ _ a b c => h.immIf [a, b, c]
  | .bfx h t _ a b c => tyI4.contains t && h.immIf [a, b, c]
  | .bfi h t _ a b c e => tyU.contains t && h.immIf [a, b, c, e] && h.imm24
  | .popc h t _ a | .clz h t _ a | .brev h t _ a | .ffs h _ t _ a => tyU.contains t && h.immIf [a]
  | .bsel h _ a b c => h.immIf [a, b, c]
  | .fadd h _ t _ a b | .fsub h _ t _ a b | .fmul h _ t _ a b | .fmin h t _ a b | .fmax h t _ a b =>
    tyF.contains t && h.immIf [a, b]
  | .ffma h _ t _ a b c => tyF.contains t && h.immIf [a, b, c]
  | .fcmp h _ t pd a b => tyF3.contains t && pd.ok && h.immIf [a, b]
  | .fclass h t _ a => tyF3.contains t && h.immIf [a]
  | .frnd h _ t _ a => tyF.contains t && h.immIf [a]
  | .fdp2 h t _ a b c => [Ty.f16x2, .bf16x2].contains t && h.immIf [a, b, c]
  | .fscale h t _ a b => tyF3.contains t && h.immIf [a, b]
  | .fsgn h op t _ a b =>
    tyF.contains t && h.immIf [a, b] && (match op with | .abs | .neg => b == .zero | _ => true)
  | .rcp h _ a | .rsq h _ a | .sqrt h _ a | .exp2 h _ a | .log2 h _ a | .sin h _ a | .cos h _ a | .tanh h _ a => h.immIf [a]
  | .fcvt h t src _ a b =>
    tyF.contains t && h.immIf [a, b] &&
    (if t == .f16x2 || t == .bf16x2 then src == .f32 else b == .zero)
  | .i2f h t _ _ a => tyF3.contains t && h.immIf [a]
  | .f2i h t _ _ a => tyI4.contains t && h.immIf [a]
  | .cvtn h n _ a b | .cvtw h n _ a b => n < 16 && h.immIf [a, b]
  | .spcomp h t n _ a b =>
    (match t with
     | .u8x4 => n < 16 && b == .zero
     | .f16x2 | .bf16x2 => n == 0
     | _ => false) && h.immIf [a, b]
  | .spexp h t _ a b =>
    (match t with
     | .u8x4 => b == .zero
     | .f16x2 | .bf16x2 => true
     | _ => false) && h.immIf [a, b]
  | .mov h t _ a => tyU.contains t && h.immIf [a]
  | .movi h t _ => [Ty.u32, .u64, .s64].contains t && h.plain
  | .movih h _ => h.plain
  | .rdsr h t _ | .wrsr h t _ | .writeFlags h t _ | .writeDkflags h t _ | .writeTrapvec h t _ | .writeTrapRegister h t _
  | .writeFormatRegister h t _ | .writeTensorScale h t _ | .writeL2wp h t _ => tyU.contains t && h.plain
  | .pmix h pd _ _ _ => pd.ok && h.immBelow 256
  | .psave h _ _ => h.immIf []
  | .pload h _ _ => h.immBelow 128
  | .flgrd h _ => h.immIf []
  | .flgclr h => h.immBelow 64
  | .v2s h t _ a b => tyU.contains t && h.immIf [a, b]
  | .lxch h _ t _ a b => tyU.contains t && h.immIf [a, b]
  | .vote h op _ =>
    h.immIf [] && (match op with | .any pd | .all pd | .eq pd => pd.ok | .mask _ => true)
  | .redux h op t _ a | .scan h op _ t _ a => op.tyOk t && h.immIf [a]
  | .matchLanes h _ t _ a => tyU.contains t && h.immIf [a]
  | .lead h pd _ => pd.ok && h.immIf []
  | .ld h m _ _ => h.hinted && m.form true false true
  | .st h m sz _ => h.hinted && m.form false true false && sz != .sb8 && sz != .sb16
  | .ldl h m _ _ _ _ => h.plain && m.form true false false
  | .stl h m _ _ _ => h.plain && m.form false true false
  | .atom h m op t _ => h.hinted && m.form true true false && op.tys.contains t
  | .red h m op t _ | .nmred h m op t _ => h.hinted && m.form false true false && op.isRed && op.tys.contains t
  | .cas h m t _ _ => h.hinted && m.form true true false && tyU.contains t && h.imm24
  | .prefL2 h m | .prefLlc h m => h.hinted && m.form false false false
  | .preq h m | .cctlWb h m | .cctlEvict h m => h.plain && m.form false false false
  | .tex h _ a b c e => h.hinted && (h.imm == 0 || [a, b, c, e].contains .imm) && h.imm24
  | .tld h _ a b => h.hinted && (h.imm == 0 || [a, b].contains .imm)
  | .tqry h _ a => h.immIf [a]
  | .cctlIinv h => h.immIf []
  | .fenceDrain h => h.immIf []
  | .fenceOrdered h _ => h.immBelow 6
  | .bar h => h.unguarded && h.imm == 0
  | .arrive h | .await h => h.unguarded && 1 ≤ h.imm.toNat && h.imm.toNat ≤ 4
  | .rinit h r a | .rpost h r a | .rget h r _ a | .rrel h r a => r < 8 && h.immIf [a]
  | .town h _ _ a b => h.immIf [a, b]
  | .twait h _ _ a => h.immIf [a]
  | .cwait h k _ a => k < 16 && h.immIf [a]
  | .waitmem h m _ t _ => h.plain && m.form false false false && tyU.contains t
  | .stmap h a b c => h.immIf [a, b, c]
  | .stunmap h a | .stwb h a | .stinv h a => h.immIf [a]
  | .trst h n a b => n < 4 && h.immIf [a, b]
  | .trstq h n _ | .trstk h n => n < 4 && h.immIf []
  | .mcgrp h _ a b => h.immIf [a, b]
  | .mloop h a b | .mloopSp h a b => h.immIf [a, b]
  | .maclrFast h a => h.immIf [a]
  | .maclrExact h a b | .mard h _ a b => h.immIf [a, b]
  | .mstat h _ _ => h.immIf []
  | .dkwin h a => h.immIf [a]
  | .dklin h _ a b c | .dkedge h a b c => h.immIf [a, b, c]
  | .dkquad h _ a => h.immIf [a]
  | .dkexp h _ a b => h.immIf [a, b]
  | .dkpush h | .dkpop h | .dkelse h => h.immIf []
  | .dkop h fn t _ a b c =>
    fn.tys.contains t && h.plain && (h.imm == 0 || [a, b, c].any CellOp.immIn) &&
    (fn.usesB || b == .none) && (fn.usesC || fn == .cmp || c == .none)
  | .dkmov h _ a => h.plain && (h.imm == 0 || a.immIn)
  | .dkld h _ a | .dkst h _ a => h.immIf [a]
  | .dktex h _ _ _ c e => h.immIf [c, e] && h.imm24
  | .dkany h _ _ _ => h.immIf []
  | .dksum h op t _ _ =>
    h.immIf [] && (match op with | .add => [Ty.u32, .s32, .f32].contains t | .min | .max => t == .f32 | _ => false)
  | .dkxp h _ _ b c e => h.immIf [b, c, e] && h.imm24
  | .dktest h test =>
    h.plain &&
    (match test with
     | .cmp c t a b => (if c == .num || c == .nan then t == .f32 else [Ty.u32, .s32, .f32].contains t) &&
        (h.imm == 0 || a.immIn || b.immIn)
     | .flag b => h.imm == 0 || b.immIn)
  | .dkflg h _ => h.immIf []
  | .ddvar h _ a | .ddnot h _ a | .ddref h a | .ddunref h a | .ddord h a | .ddstat h _ a | .ddnode h _ a => h.immIf [a]
  | .ddapp h lut _ a b => lut < 16 && h.immIf [a, b]
  | .ddite h _ a b c | .ddres h _ a b c | .ddexp h _ a b c => h.immIf [a, b, c]
  | .ddqnt h _ _ a b => h.immIf [a, b]
  | .ddcnt h flt _ a b c => h.immIf [a, b, c] && (flt || c == .zero)
  | .ddswp h => h.immIf []
  | .pgreg h a b => h.immIf [a, b]
  | .pgregRelease h a => h.immIf [a]
  | .pgdone h => h.immIf []
  | .pgfail h a | .pgrstBlk h a | .pgrstSlot h a | .launch h _ a | .lwait h _ a | .migr h _ a => h.immIf [a]
  | .shootDg h a b c => h.immIf [a, b, c]
  | .shootFlush h a => h.immIf [a]
  | .halt h _ => h.immIf []
  | .ctxstopPre h _ a | .ctxstopKill h _ a => h.immIf [a]
  | .ctxgo h a b => h.immIf [a, b]
  | .fyLaunch .. => true
  | .contextRegisterPropagated .. | .l2wpRaiseDone .. | .resultWriteback .. | .runArbitration .. | .unitWaitRaised ..
  | .runLengthCut .. | .sleepExpire .. | .wakeWord .. | .homeReadRequest .. | .homeStoreRequest ..
  | .nearMemoryReduction .. | .recall .. | .writebackArrival .. | .bankSleep .. | .migrationStart ..
  | .migrationMarkDrained .. | .migrationLineCopy .. | .migrationAccess .. | .migrationPullDone .. | .clearanceRequest ..
  | .pageWalkDone .. | .clearanceAnswer .. | .residencyRequest .. | .shootdownMessage .. | .shootdownAnswer ..
  | .downgradeClose .. | .procBlockRead .. | .procPrefEvent .. | .generatorLaunch .. | .fillDoneAtHome ..
  | .generatorFailure .. | .procRetryReissue .. | .routerGrant .. | .ageingSaturate .. | .replyArrival ..
  | .windowRaise .. | .windowAdmit .. | .towerLinkForward .. | .accMerge .. | .mcastRequest .. | .mcastSetLeave ..
  | .mcastGroupDrained .. | .remoteStashAccess .. | .trestleEntryFetch .. | .trestleCopy .. | .trestleGather ..
  | .trestleScatter .. | .trestleMcast .. | .trestleReduceMemory .. | .trestleReduceCollective ..
  | .collectiveContribution .. | .trestleVxfer .. | .trestleFlip .. | .trestlePost .. | .trestleWaitRing ..
  | .trestleWaitCounter .. | .trestleWaitSatisfied .. | .trestleLoop .. | .trestleIfWord .. | .trestleIfRing ..
  | .trestleFill .. | .trestleEnd .. | .trestleEntryComplete .. | .girderLoopStart .. | .mloopComplete ..
  | .deckStart .. | .keystoneAnswer .. | .launchReady .. | .towerBlockDraw .. | .spanStart .. | .crewStart ..
  | .stealRequest .. | .stepBoundary .. | .crewEnd .. | .launchComplete .. | .stopRequest .. | .contextStopped ..
  | .forceReset .. | .hostWindowAccess .. | .linkFailure .. | .linkRetrained .. | .ptpMessage .. | .timePageUpdate ..
  | .equinoxCheck .. | .equinoxFrameSend .. | .equinoxStatusWrite .. | .packageLeave .. | .packageReplace ..
  | .vacantIndexTimeout .. | .packageReset .. | .trainingComplete .. | .replanDue .. | .replanStarved ..
  | .replanStart .. | .replanDone .. | .powerCapStep .. | .contextCreation .. | .osCorePteStore ..
  | .residencyQueueDrain .. | .forceUnmap .. | .managementFlush .. | .domainFormation .. => true

/-- Check 4 of R254, on the decoded operands. -/
def Instr.operandsOk : Instr → Bool
  | .nop _ | .bra _ | .braUni _ | .brace _ | .meet _ | .exit _ | .regang _ | .yield _ | .trap _ | .bpt _ | .rteRetry _
  | .rteResume _ | .step _ => true
  | .brx _ a | .ret _ a => a.vs true
  | .call _ d => d.vs true
  | .callx _ d a => d.vs true && a.vs true && scalarDst d [a]
  | .sleep _ a => a.szi
  | .iadd _ _ t d a b | .isub _ _ t d a b | .imul _ t d a b | .imulh _ t d a b | .imin _ t d a b | .imax _ t d a b
  | .iaddc _ _ _ t d a b | .isel _ _ _ t d a b | .and _ _ t d a b | .or _ _ t d a b | .xor _ _ t d a b
  | .fadd _ _ t d a b | .fsub _ _ t d a b | .fmul _ _ t d a b | .fmin _ t d a b | .fmax _ t d a b | .fsgn _ _ t d a b =>
    d.dst t.is64 && a.src t.is64 && b.src t.is64 && scalarDst d [a, b]
  | .imad _ acc t d a b c =>
    d.dst (acc || t.is64) && a.src t.is64 && b.src t.is64 && c.src (acc || t.is64) && scalarDst d [a, b, c]
  | .iabs _ _ t d a | .brev _ t d a | .mov _ t d a => d.dst t.is64 && a.src t.is64 && scalarDst d [a]
  | .iadd3 _ t d a b c => d.dst t.is64 && a.src t.is64 && b.src t.is64 && c.src t.is64 && scalarDst d [a, b, c]
  | .icmp _ _ t pd a b => a.src t.is64 && b.src t.is64 && !(pd.q && (a.isVec || b.isVec))
  | .lea _ _ _ d a b => d.dst true && a.src true && b.src && scalarDst d [a, b]
  | .isad _ _ d a b c | .idot4 _ _ _ _ d a b c | .fshf _ _ _ d a b c | .bsel _ d a b c | .fdp2 _ _ d a b c
  | .ffma _ _ _ d a b c => d.dst && a.src && b.src && c.src && scalarDst d [a, b, c]
  | .mix3 _ t d a b c =>
    d.dst t.is64 && a.src t.is64 && b.src t.is64 && c.src t.is64 && scalarDst d [a, b, c] &&
    a != .imm && b != .imm && c != .imm
  | .shl _ _ t d a b | .shr _ _ t d a b | .sar _ _ t d a b | .rot _ _ t d a b =>
    d.dst t.is64 && a.src t.is64 && b.src && scalarDst d [a, b]
  | .bfx _ t d a b c => d.dst t.is64 && a.src t.is64 && b.src && c.src && scalarDst d [a, b, c]
  | .bfi _ t d a b c e => d.dst t.is64 && a.src t.is64 && b.src t.is64 && c.src && e.src && scalarDst d [a, b, c, e]
  | .popc _ t d a | .clz _ t d a | .ffs _ _ t d a => d.dst && a.src t.is64 && scalarDst d [a]
  | .fcmp _ _ _ pd a b => a.src && b.src && !(pd.q && (a.isVec || b.isVec))
  | .fclass _ _ d a | .frnd _ _ _ d a | .rcp _ d a | .rsq _ d a | .sqrt _ d a | .exp2 _ d a | .log2 _ d a | .sin _ d a
  | .cos _ d a | .tanh _ d a => d.dst && a.src && scalarDst d [a]
  | .fscale _ _ d a b | .fcvt _ _ _ d a b => d.dst && a.src && b.src && scalarDst d [a, b]
  | .i2f _ _ src d a => d.dst && a.src (src == .u64 || src == .s64) && scalarDst d [a]
  | .f2i _ t _ d a => d.dst t.is64 && a.src && scalarDst d [a]
  | .cvtn _ _ d a b => d.dst && a.vs && b.src && scalarDst d [a, b]
  | .cvtw _ _ d a b => d.dst && a.src && b.src && scalarDst d [a, b]
  | .spcomp _ t _ d a b | .spexp _ t d a b =>
    (if t == .u8x4 then d.dst else d.dst && d.sRange 2) && a.src && b.src && scalarDst d [a, b]
  | .movi _ t d => d.dst t.is64
  | .movih _ d => d.dst true
  | .rdsr h t d => d.dst t.is64 && srListed h.imm.toNat
  | .wrsr h _ a => a.sz && srOtherWrite h.imm.toNat
  | .writeFlags h _ a => a.sz && h.imm.toNat == 0x20
  | .writeDkflags h _ a => a.sz && h.imm.toNat == 0x21
  | .writeTrapvec h _ a => a.sz && h.imm.toNat == 0x30
  | .writeTrapRegister h _ a => a.sz && 0x31 ≤ h.imm.toNat && h.imm.toNat ≤ 0x35
  | .writeFormatRegister h _ a => a.sz && 0x40 ≤ h.imm.toNat && h.imm.toNat ≤ 0x4F
  | .writeTensorScale h _ a => a.sz && 0x50 ≤ h.imm.toNat && h.imm.toNat ≤ 0x5F
  | .writeL2wp h _ a => a.sz && h.imm.toNat == 0x70
  | .pmix _ pd a b c => a.ok && b.ok && c.ok && !(pd.q && (!a.q || !b.q || !c.q))
  | .psave _ q d => if q then d.sOnly else d.ok [.v]
  | .pload _ q a => if q then a.sOnly else a.vs
  | .flgrd _ d => d.vs
  | .flgclr _ => true
  | .v2s _ t d a b => d.sOnly && a.ok [.v] t.is64 && b.szi
  | .lxch _ _ t d a b => d.dst t.is64 && a.src t.is64 && b.src
  | .vote _ op a => a.ok && (match op with | .mask d => d.vs | .any _ | .all _ | .eq _ => true)
  | .redux _ _ _ d a | .scan _ _ _ _ d a => d.dst && a.src
  | .matchLanes _ _ t d a => d.dst && a.src t.is64
  | .lead _ pd a => a.ok && !pd.q && !a.q
  | .ld _ m sz d => m.operands && d.dst sz.pair && d.sRange sz.sRegs && scalarDst d [m.base, m.index]
  | .st _ m sz d => m.operands && d.dst sz.pair && d.sRange sz.sRegs
  | .ldl _ m _ sz _ d => m.operands && d.dst (sz == .b64) && scalarDst d [m.base, m.index]
  | .stl _ m _ sz d => m.operands && d.dst (sz == .b64)
  | .atom _ m _ t d => m.operands && d.dst t.is64 && scalarDst d [m.base, m.index]
  | .red _ m _ t d | .nmred _ m _ t d => m.operands && d.dst t.is64
  | .cas _ m t d e => m.operands && d.dst t.is64 && e.ok [.v, .s, .z] t.is64 && scalarDst d [m.base, m.index, e]
  | .prefL2 _ m | .prefLlc _ m | .preq _ m | .cctlWb _ m | .cctlEvict _ m => m.operands
  | .tex _ d a b c e =>
    d.dst && d.sRange 4 && a.vs true && b.vs && b.sRange 2 && c.ok [.v, .s, .z, .i] && e.ok [.v, .s, .z, .i] true &&
    !(c == .imm && e == .imm) && scalarDst d [a, b, c, e]
  | .tld _ d a b => d.dst && d.sRange 4 && a.vs true && b.vs && b.sRange 2 && scalarDst d [a, b]
  | .tqry _ d a => d.dst && d.sRange 2 && a.vs true && scalarDst d [a]
  | .cctlIinv _ | .fenceDrain _ | .fenceOrdered .. | .bar _ | .arrive _ | .await _ => true
  | .rinit _ _ a | .rpost _ _ a | .rget _ _ _ a | .rrel _ _ a => a.szi
  | .town _ _ _ a b => a.szi && b.si
  | .twait _ _ _ a => a.szi
  | .cwait _ _ d a => d.sz && a.szi
  | .waitmem _ m _ _ d => m.base.sz && m.index.sz && d.sOnly
  | .stmap _ a b c => a.szi && b.si && c.sOnly
  | .stunmap _ a | .stwb _ a | .stinv _ a => a.szi
  | .trst _ _ a b => a.sOnly && a.sRange 4 && b.szi
  | .trstq _ _ d => d.sz
  | .trstk .. => true
  | .mcgrp _ d a b => d.sz && a.szi && b.szi
  | .mloop _ a b | .mloopSp _ a b => a.sOnly && a.sRange 4 && b.sz
  | .maclrFast _ a => a.szi
  | .maclrExact _ a b | .mard _ _ a b => a.szi && b.szi
  | .mstat _ _ d => d.sz
  | .dkwin _ a => a.szi
  | .dklin _ d a b c => d < 48 && a.szi && b.szi && c.szi
  | .dkedge _ a b c => a.szi && b.szi && c.szi
  | .dkquad _ d a => d < 48 && a.sOnly && a.sRange 6
  | .dkexp _ d a b => d < 48 && a.sOnly && a.sRange 6 && b.szi
  | .dkpush _ | .dkpop _ | .dkelse _ => true
  | .dkop _ fn t d a b c =>
    d < 48 && a.cellSrc && b.any &&
    (if fn == .cmp then (match c with | .cell n => n < (if t == .f32 then 8 else 6) | _ => false) else c.any)
  | .dkmov _ d a => d < 48 && a.any
  | .dkld _ d a => d < 48 && a.szi
  | .dkst _ d a => d.cellSrc && a.szi
  | .dktex _ d a b c e => d ≤ 44 && a ≤ 46 && (match b with | .cell n => n < 48 | .scalar .zero => true | _ => false) &&
    c.sOnly && e.szi
  | .dkany _ _ q a => q < 8 && a.cellSrc
  | .dksum _ _ _ d a => d.sz && a.cellSrc
  | .dkxp _ d a b c e => d.sz && a.cellSrc && b.sOnly && c.si && e.sOnly
  | .dktest _ test => match test with | .cmp _ _ a b => a.cellSrc && b.any | .flag b => b.any
  | .dkflg _ d => d.sz
  | .ddvar _ d a | .ddnot _ d a | .ddstat _ d a => d.sz && a.szi
  | .ddapp _ _ d a b | .ddqnt _ _ d a b => d.sz && a.szi && b.szi
  | .ddite _ d a b c | .ddres _ d a b c | .ddcnt _ _ d a b c | .ddexp _ d a b c => d.sz && a.szi && b.szi && c.szi
  | .ddref _ a | .ddunref _ a | .ddord _ a => a.szi
  | .ddswp _ => true
  | .ddnode _ d a => d.sOnly && d.sRange 2 && a.szi
  | .pgreg _ a b => a.szi && b.si
  | .pgregRelease _ a => a.szi
  | .pgdone _ => true
  | .pgfail _ a | .pgrstBlk _ a | .pgrstSlot _ a => a.szi
  | .launch _ d a | .lwait _ d a | .migr _ d a => d.sz && a.szi
  | .shootDg _ a b c => a.szi && b.szi && c.szi
  | .shootFlush _ a => a.szi
  | .halt _ d => d.sz
  | .ctxstopPre _ d a | .ctxstopKill _ d a => d.sz && a.szi
  | .ctxgo _ a b => a.szi && b.szi
  | .fyLaunch rd rs1 rs2 => rd < 32 && rs1 < 32 && rs2 < 32
  | .contextRegisterPropagated .. | .l2wpRaiseDone .. | .resultWriteback .. | .runArbitration .. | .unitWaitRaised ..
  | .runLengthCut .. | .sleepExpire .. | .wakeWord .. | .homeReadRequest .. | .homeStoreRequest ..
  | .nearMemoryReduction .. | .recall .. | .writebackArrival .. | .bankSleep .. | .migrationStart ..
  | .migrationMarkDrained .. | .migrationLineCopy .. | .migrationAccess .. | .migrationPullDone .. | .clearanceRequest ..
  | .pageWalkDone .. | .clearanceAnswer .. | .residencyRequest .. | .shootdownMessage .. | .shootdownAnswer ..
  | .downgradeClose .. | .procBlockRead .. | .procPrefEvent .. | .generatorLaunch .. | .fillDoneAtHome ..
  | .generatorFailure .. | .procRetryReissue .. | .routerGrant .. | .ageingSaturate .. | .replyArrival ..
  | .windowRaise .. | .windowAdmit .. | .towerLinkForward .. | .accMerge .. | .mcastRequest .. | .mcastSetLeave ..
  | .mcastGroupDrained .. | .remoteStashAccess .. | .trestleEntryFetch .. | .trestleCopy .. | .trestleGather ..
  | .trestleScatter .. | .trestleMcast .. | .trestleReduceMemory .. | .trestleReduceCollective ..
  | .collectiveContribution .. | .trestleVxfer .. | .trestleFlip .. | .trestlePost .. | .trestleWaitRing ..
  | .trestleWaitCounter .. | .trestleWaitSatisfied .. | .trestleLoop .. | .trestleIfWord .. | .trestleIfRing ..
  | .trestleFill .. | .trestleEnd .. | .trestleEntryComplete .. | .girderLoopStart .. | .mloopComplete ..
  | .deckStart .. | .keystoneAnswer .. | .launchReady .. | .towerBlockDraw .. | .spanStart .. | .crewStart ..
  | .stealRequest .. | .stepBoundary .. | .crewEnd .. | .launchComplete .. | .stopRequest .. | .contextStopped ..
  | .forceReset .. | .hostWindowAccess .. | .linkFailure .. | .linkRetrained .. | .ptpMessage .. | .timePageUpdate ..
  | .equinoxCheck .. | .equinoxFrameSend .. | .equinoxStatusWrite .. | .packageLeave .. | .packageReplace ..
  | .vacantIndexTimeout .. | .packageReset .. | .trainingComplete .. | .replanDue .. | .replanStarved ..
  | .replanStart .. | .replanDone .. | .powerCapStep .. | .contextCreation .. | .osCorePteStore ..
  | .residencyQueueDrain .. | .forceUnmap .. | .managementFlush .. | .domainFormation .. => true

/-- An instruction the decoder can yield. -/
def WellFormed (i : Instr) : Bool := i.formOk && i.operandsOk

end Sys2Proof
end

