-- ==== Sys2Proof/Machine/Ops.lean ====
section
/-! DEFINITION. The named operations over the state: registers, guards, taking an exception and returning from one
(R241 to R246, R310), parking, and the one shape in which every device instruction runs (R254, R256, R139). -/

namespace Sys2Proof.Machine

/-- The answer of `exec`. -/
abbrev Out := Host.Outcome State Fault Refusal

/-! ### Registers (R133, R136) -/

def Slice.vreg (x : Slice) (r l : Nat) : Word := Tbl.findD x.v (4 * r + l) 0
def Slice.setV (x : Slice) (r l : Nat) (w : Word) : Slice := { x with v := Tbl.put x.v (4 * r + l) w }
def Slice.sreg (x : Slice) (r : Nat) : DWord := Tbl.findD x.s r 0
def Slice.setS (x : Slice) (r : Nat) (w : DWord) : Slice := { x with s := Tbl.put x.s r w }

/-- Predicates; index 7 reads true and a write to it is discarded (R133). -/
def Slice.pbit (x : Slice) (l k : Nat) : Bool := k == 7 || x.p.getLsbD (8 * l + k)
def Slice.setP (x : Slice) (l k : Nat) (b : Bool) : Slice :=
  if k < 7 then
    { x with p := (x.p &&& ~~~(BitVec.twoPow 32 (8 * l + k))) ||| (if b then BitVec.twoPow 32 (8 * l + k) else 0) }
  else x
def Slice.qbit (x : Slice) (k : Nat) : Bool := k == 7 || x.q.getLsbD k
def Slice.setQ (x : Slice) (k : Nat) (b : Bool) : Slice :=
  if k < 7 then { x with q := (x.q &&& ~~~(BitVec.twoPow 8 k)) ||| (if b then BitVec.twoPow 8 k else 0) } else x

/-! ### Guards (R255) -/

def Hdr.pGuard (h : Hdr) (x : Slice) (l : Nat) : Bool :=
  (x.pbit l h.g1.ix != h.g1.neg) && (x.pbit l h.g2.ix != h.g2.neg)

def Hdr.qGuard (h : Hdr) (x : Slice) : Bool := (x.qbit h.g1.ix != h.g1.neg) && (x.qbit h.g2.ix != h.g2.neg)

/-- The lanes in which a per-lane instruction executes (R135). -/
def perLane (h : Hdr) (x : Slice) : BitVec 4 := laneMask ((lanesOf x.active).filter (Hdr.pGuard h x))

/-- A once-per-slice instruction executes when its q-guard holds and a lane is ACTIVE; it is shown the ACTIVE lanes (R135). -/
def perSlice (h : Hdr) (x : Slice) : BitVec 4 := if Hdr.qGuard h x then x.active else 0

def unguarded (x : Slice) : BitVec 4 := x.active

/-! ### Taking an exception (R241 to R246) -/

/-- Cause codes (R245). -/
def cReservedInstr : Nat := 0x01
def cReservedOperand : Nat := 0x02
def cRole : Nat := 0x03
def cPcAlign : Nat := 0x04
def cDataAlign : Nat := 0x05
def cProtRead : Nat := 0x06
def cProtWrite : Nat := 0x07
def cProtExec : Nat := 0x08
def cUnmapped : Nat := 0x09
def cLocalRange : Nat := 0x0A
def cRegRange : Nat := 0x0B
def cOwner : Nat := 0x0C
def cGenFault : Nat := 0x0D
def cGenDepth : Nat := 0x0E
def cGenCycle : Nat := 0x0F
def cTableFull : Nat := 0x10
def cExhausted : Nat := 0x11
def cDeckStack : Nat := 0x12
def cDivergeDepth : Nat := 0x13
def cDivergentTarget : Nat := 0x14
def cChain : Nat := 0x15
def cFormat : Nat := 0x16
def cMcgrp : Nat := 0x17
def cMemError : Nat := 0x18
def cDataLost : Nat := 0x19
def cPriv : Nat := 0x1A
def cTrap : Nat := 0x1B
def cBpt : Nat := 0x1C

def protCode : Right → Nat
  | .read => cProtRead | .write => cProtWrite | .exec => cProtExec

/-- The context can no longer run (R246): every crew stops, it is never resumed, its launches are abandoned. The first cause stands. -/
def stopContext (s : State) (ctx cause : Nat) : State :=
  if (s.ctx ctx).st == .dead then s else
  let s1 := s.updCtx ctx fun c => { c with st := .dead, cause := cause, stopAt := some (s.pkg 0).clock }
  { s1 with launches := s1.launches.map fun e => (e.1, if e.2.ctx = ctx ∧ ¬ e.2.done then { e.2 with failed := true } else e.2) }

/-- Reads presented to procedural blocks are struck, from the waiter lists too (R75, R242). -/
def strikeFills (s : State) (sel : FillReq → Bool) : State :=
  let gone := (s.fillReqs.filter fun e => sel e.2).map Prod.fst
  if gone.isEmpty then s
  else
    { s with
      fillReqs := s.fillReqs.filter fun e => !sel e.2
      ctxs := s.ctxs.map fun c => (c.1, { c.2 with blocks := c.2.blocks.map fun b =>
        (b.1, { b.2 with
          waiters := b.2.waiters.filter fun k => !gone.contains k
          pins := b.2.pins.filter fun k => !gone.contains k }) }) }

/-- The requests of a slice that takes a trap, stops or exits are struck (R75, R242). -/
def dropReqs (s : State) (i : Nat) : State :=
  strikeFills { s with clrReqs := s.clrReqs.filter fun e => e.2.who != .slice i } fun q => q.who == .slice i

/-- The value of a context register that a slice uses (R157, R243). While a write to the register propagates, a slice other than the writer
uses the old or the new value, a free choice for each use. -/
def ctxRegNow (s : State) (i : Nat) (ix : Nat) (old : DWord) : DWord :=
  match (s.ctx (s.ctxOf i)).pendReg.find? fun e => e.1 == ix with
  | some (_, v, w) => if w = i then v else if Config.freeBool (s.freeIx + ix + i) then v else old
  | none => old

/-- TRAPVEC as a slice uses it. -/
def trapvecNow (s : State) (i : Nat) : DWord := ctxRegNow s i 0x30 (s.ctx (s.ctxOf i)).trapvec

/-- Trap entry (R244), and the context stop of R246. In a generator crew a trap never reaches TRAPVEC: it stays in `taking` for the
owner, which fails the generator (R76). -/
def enterTrap (s : State) (i : Nat) (t : TrapRec) : State :=
  let x := s.sl i
  let c := s.crew x.crew
  if c.gen.isSome && t.code != cPriv then s.setSl i { x with taking := some t, park := .before .tower }
  else if trapvecNow s i = 0 || x.hmode || t.code == cPriv then
    let s1 := s.setSl i { x with taking := none, park := .before .tower }
    if (s.ctx c.ctx).st == .dead then s1
    else (stopContext s1 c.ctx t.code).log "context stop" [c.ctx, c.core, x.ix, t.code, t.pc.toNat, t.addr.toNat]
  else
    (dropReqs s i).setSl i { x with
      taking := none
      park := .run
      answers := []
      fetch := []
      stepIn := false
      relIn := false
      lost := []
      begun := none
      trappc := t.pc
      trapcode := BitVec.ofNat 8 t.code
      trapdef := t.defer
      trapovf := t.ovf
      trapaddr := t.addr
      trapmask := t.mask
      trapinfo := t.info
      hmode := true
      saved := x.active
      active := x.live
      pc := trapvecNow s i &&& ~~~3 }

/-- An exact trap waits for the slice's outstanding results first (R241). -/
def takeTrap (s : State) (i : Nat) (t : TrapRec) : State :=
  if (s.sl i).outst.isEmpty then enterTrap s i t
  else s.setSl i { s.sl i with taking := some t, park := .before .results, answers := [] }

/-- A deferred-precise cause is recorded; a ninth sets OVF of the eighth (R242). -/
def deferTrap (s : State) (i : Nat) (t : TrapRec) : State :=
  s.updSl i fun x =>
    if x.deferred.length < 8 then { x with deferred := x.deferred ++ [t] }
    else match x.deferred.reverse with
      | [] => x
      | last :: front => { x with deferred := (({ last with ovf := true }) :: front).reverse }

/-- What `info` holds of a deferred cause until delivery: the access's key, and below it the failure record of a block (R76). -/
def deferInfo (key : Nat) (frec : DWord) : DWord := BitVec.ofNat 32 key ++ frec.setWidth 32

/-- A cause that several parts of one access meet is recorded once, its lanes joined. -/
def deferAccess (s : State) (i key code : Nat) (frec pc addr : DWord) (lanes : Word) : State :=
  let same := fun (t : TrapRec) => t.code == code && t.info.extractLsb' 32 32 == BitVec.ofNat 32 key
  if (s.sl i).deferred.any same then
    s.updSl i fun x => { x with deferred := x.deferred.map fun t => if same t then { t with mask := t.mask ||| lanes } else t }
  else deferTrap s i ⟨code, pc, addr, lanes, deferInfo key frec, true, false⟩

def Park.parked : Park → Bool
  | .run => false
  | _ => true

/-- The slice stands at a park point and must take its oldest pending deferred trap (R242). -/
def mustDeliver (x : Slice) : Bool :=
  x.park.parked && !x.park.answering && !x.hmode && !x.deferred.isEmpty && x.taking.isNone

/-- Delivery: TRAPINFO is the resume PC (R242), which is the slice's PC whether the park came before issue or after it. In a generator crew no
handler reads it, and the record that it passes on stays there (R72, R76). -/
def deliverDeferred (s : State) (i : Nat) : State :=
  let x := s.sl i
  match x.deferred with
  | [] => s
  | t :: rest => enterTrap (s.setSl i { x with deferred := rest }) i
    { t with info := if (s.crewOf i).gen.isSome then t.info else x.pc, defer := true }

/-- The lanes that go on when every active lane has exited (R144): the pending path of the top entry, else the lanes that wait at its
MEET, else the same of the next entry. -/
def exitResume (live : BitVec 4) : List REntry → Option (BitVec 4 × DWord × List REntry)
  | [] => none
  | e :: st =>
    if e.pmask &&& live != 0 then some (e.pmask &&& live, e.ppc, { e with pmask := 0 } :: st)
    else if e.mask &&& live != 0 then some (e.mask &&& live, e.mpc + 12, st)
    else exitResume live st

/-- Where a slice stands whose active lanes may all be gone. -/
def Slice.settle (x : Slice) : Slice :=
  if x.active = 0 then
    match exitResume x.live x.stack with
    | some (a, p, st) => { x with active := a, pc := p, stack := st }
    | none => x
  else x

/-- Returning from an exception (R310, R244): HMODE clears, the saved mask returns, the PC goes to the target. -/
def returnTrap (x : Slice) (target : DWord) : Slice :=
  Slice.settle { x with hmode := false, active := x.saved &&& x.live, pc := target }

/-! ### Running one instruction -/

/-- A trap an instruction meets in one slice: its group (R241), cause, address, information; `mask` where the cause names lanes; the
lowest faulting lane in gang numbering orders causes of one group. -/
structure TrapIn where
  grp  : Nat
  code : Nat
  addr : DWord
  info : DWord
  mask : Option Word
  lane : Nat
  deriving DecidableEq, Repr

def trapPlain (grp code : Nat) : TrapIn := ⟨grp, code, 0, 0, none, 0⟩

/-- What an instruction needs before it may issue in one slice. -/
inductive Pre where
  | go
  | trap (t : TrapIn)
  | park (c : Wait)
  /-- requests that must be answered first: clearance, and reads presented to procedural blocks -/
  | ask (cs : List ClrReq) (fs : List FillReq)
  deriving DecidableEq, Repr

/-- The meaning of a device instruction: its checks 3 and 5 to 7 of R254, the lanes where its guard holds, what it needs before issue, its
effect there (given the state in which the whole unit issued, and the state with the effects of the unit's earlier slices), whether it
sets the PC itself, and how many clocks it holds the slot (R273). -/
structure Meaning where
  chk   : State → Nat → Option Nat
  lanes : Slice → BitVec 4
  pre   : State → Nat → BitVec 4 → Pre
  act   : State → State → Nat → BitVec 4 → State
  jump  : Bool
  occ   : Nat

def noPre (_ : State) (_ : Nat) (_ : BitVec 4) : Pre := .go

/-- Put requests under fresh identities. -/
def addReqs (s : State) (cs : List ClrReq) (fs : List FillReq) : State :=
  let s1 := cs.foldl (fun s q =>
    injectControl { s.fresh with clrReqs := Tbl.put s.clrReqs s.nextId q } (askerCore s q.who) q.va) s
  fs.foldl (fun s q =>
    injectControl { s.fresh with fillReqs := Tbl.put s.fillReqs s.nextId q } (askerCore s q.who) q.va) s1

/-- The slot that a unit holds ends its run (R139, R140). -/
def endRun (s : State) (ids : List Nat) : State :=
  match ids with
  | [] => s
  | i :: _ =>
    s.updCore (s.coreOf i) fun c =>
      { c with slots := c.slots.map fun t => if t.holder = ids then { t with holder := [], len := 0 } else t }

/-- One more instruction of the unit's run: the run's length grows, the slot is busy for `occ` clocks. Says whether the run is over. -/
def countRun (s : State) (ids : List Nat) (occ : Nat) : State × Bool :=
  match ids with
  | [] => (s, true)
  | i :: _ =>
    let c := s.core (s.coreOf i)
    let full := c.slots.any fun t => t.holder = ids && 24 ≤ t.len + 1
    let now := s.clockOf i
    (s.setCore (s.coreOf i)
      { c with slots := c.slots.map fun t => if t.holder = ids then { t with len := t.len + 1, freeAt := now + occ } else t }, full)

/-- The unit's traps (R241): the lowest group decides, then the lowest lane; masks of that group are joined, or the active lanes stand. -/
def bestTrap : List TrapIn → Option TrapIn
  | [] => none
  | t :: ts =>
    match bestTrap ts with
    | none => some t
    | some u => if u.grp < t.grp ∨ (u.grp = t.grp ∧ u.lane < t.lane) then some u else some t

def orMasks (ms : List Word) : Word := ms.foldl (· ||| ·) 0

def unitActive (s : State) (ids : List Nat) : Word := orMasks (ids.map fun i => gangMask (s.crewOf i) (s.sl i) (s.sl i).active)

/-- Every slice of the unit takes the same trap (R241). -/
def takeUnit (s : State) (ids : List Nat) (ts : List TrapIn) (t : TrapIn) : State :=
  let masks := (ts.filter fun u => u.grp == t.grp).filterMap TrapIn.mask
  let mask := if t.mask.isSome then orMasks masks else unitActive s ids
  ids.foldl (fun s i => takeTrap s i ⟨t.code, (s.sl i).pc, t.addr, mask, t.info, false, false⟩) s

/-- The unit that holds the issue traps: its run ends. -/
def trapUnit (s : State) (ids : List Nat) (ts : List TrapIn) (t : TrapIn) : State := { endRun (takeUnit s ids ts t) ids with cur := [] }

/-- The instruction at which a slice parks is under way: from then on it is no first look (R358) and no stop at once (R363), and it has its turn
(R361). -/
def Slice.begin (now : Nat) (x : Slice) : Slice := { x with begun := some (x.begun.getD now) }

/-- A slice that parks at a STEP or a BAR is counted there while it stands (R237, R325). -/
def parkMark (now : Nat) (c : Wait) (x : Slice) : Slice :=
  match c with
  | .stepBoundary _ => { x with stepIn := true }
  | .bar _ => { x with barIn := true }
  | .handle _ => x.begin now
  | .ctxStopped _ => x.begin now
  | .pageTurn _ _ _ => x.begin now
  | _ => x

/-- The dirty sectors of the crew's mapped tiles are sent home, of the mappings whose first tile passes `sel` (R127, R223). -/
def flushMapped (s : State) (crew : Nat) (sel : Nat → Bool) : State :=
  let c := s.crew crew
  let tiles := (c.maps.filter fun m => sel m.t0).flatMap fun m => (List.range m.n).map fun k => (m.t0 + k, m.base + 1024 * k)
  tiles.foldl (fun s t =>
    (List.range 8).foldl (fun s sec =>
      let tag := Tbl.findD (s.crew crew).tags t.1 Tag.init
      if tag.sd.getLsbD sec then
        let bytes := (List.range 128).map fun b => (t.2 + 128 * sec + b, Mem.read s.stash (crew * 2 ^ 19 + 1024 * t.1 + 128 * sec + b))
        let s1 := { s.fresh with writeBacks := Tbl.put s.writeBacks s.nextId ⟨c.ctx, (t.2 + 128 * sec) / 256, bytes, some crew⟩ }
        (sendHome s1 (coreCluster c.core) (crewClass s crew) (t.2 + 128 * sec) 3).updCrew crew fun c => { c with tags := Tbl.put c.tags t.1 { tag with sd := tag.sd &&& ~~~(BitVec.twoPow 8 sec) } }
      else s) s) s

/-- A stop request reaches a slice (R248): it ends a sleep (R308), and a park on a tower's answer, whose instruction is sent again (R353). -/
def stopSlice (x : Slice) : Slice :=
  match x.park with
  | .before (.ctxStopped _) => { x with park := .run, begun := none }
  | .before (.pageTurn _ _ _) => { x with park := .run, begun := none }
  | .before (.blockFree _ _ _) => { x with park := .run }
  | .before .launchRoom => { x with park := .run }
  | .before .restore => { x with park := .run }
  | .after (.clock _) w => { x with park := .after (.clock 0) w }
  | .after .tower _ => { x with park := .run, pc := x.pc - 12 }
  | .after (.shootdown _) _ => { x with park := .run, pc := x.pc - 12 }
  | _ => x

/-- The stop request of R247. -/
def requestStop (s : State) (ctx : Nat) : State :=
  if (s.ctx ctx).st == .running && s.hasCtx ctx then
    let s1 := s.updCtx ctx fun c => { c with st := .stopping, stopAt := some (s.pkg 0).clock, forced := false }
    { s1 with slices := s1.slices.map fun e => (e.1, if s1.ctxOf e.1 = ctx then stopSlice e.2 else e.2) }
  else s

/-- Accesses of the slice not yet performed that a release waits for: those to UNORDERED pages never (R215), remote stash stores for a
wide one only (R223). -/
def pending (x : Slice) (wide : Bool) : Bool :=
  x.accs.any fun e => (wide || e.2.kind != .remStore) && e.2.pieces.any fun q => !q.done && q.ord != 2

/-- What parking starts: a wide release whose earlier accesses are performed sends the crew's dirty mapped sectors home, once; STUNMAP
those of its mapping; CTXSTOP the stop request. -/
def parkStart (s : State) (i : Nat) (c : Wait) : State :=
  match c with
  | .performed true =>
    if (s.sl i).relIn || pending (s.sl i) true then s
    else (flushMapped s (s.sl i).crew fun _ => true).updSl i fun x => { x with relIn := true }
  | .mapClean t0 => flushMapped s (s.sl i).crew fun t => t == t0
  | .ctxStopped ctx => requestStop (injectUnit s (s.coreOf i) (crewClass s (s.sl i).crew) 2 (coreTower (s.coreOf i)) (some i)) ctx
  | .stepBoundary _ => injectUnit s (s.coreOf i) (crewClass s (s.sl i).crew) 2 (coreTower (s.coreOf i)) none
  | .pageTurn _ _ _ => s.fresh
  | .keystone _ _ => injectUnit s (s.coreOf i) (crewClass s (s.sl i).crew) 1 (s.coreOf i / 128) (some i)
  | _ => s

/-- A park before issue (R139): the run ends in front of the instruction. -/
def parkAt (c : Wait) (s : State) (i : Nat) : State :=
  (parkStart s i c).updSl i fun x => { parkMark s.nextId c x with park := .before c, since := none, raised := false }

def Pre.isAsk : Pre → Bool
  | .ask _ _ => true | _ => false

/-- Where one slice of a unit parks. While any slice of the unit asks, those that could issue wait with it (R54). -/
def parkBefore (ids : List Nat) (asking : Bool) (s : State) (i : Nat) (p : Pre) : State :=
  match p with
  | .park c => parkAt c s i
  | .ask cs fs => parkAt (.answers ids) (addReqs s cs fs) i
  | _ => if asking then parkAt (.answers ids) s i else s

def sameAsk (a b : ClrReq) : Bool := a.ctx == b.ctx && a.va == b.va && a.r == b.r

/-- Slices that issue together ask for each page once (R54). -/
def askOnce (seen : List ClrReq) : List Pre → List Pre
  | [] => []
  | .ask cs fs :: ps =>
    let new := cs.filter fun q => !seen.any (sameAsk q)
    .ask new fs :: askOnce (seen ++ new) ps
  | p :: ps => p :: askOnce seen ps

def Pre.isGo : Pre → Bool
  | .go => true | _ => false

def Pre.trap? : Pre → Option TrapIn
  | .trap t => some t | _ => none

/-- The instruction after the one at the PC (R252). -/
def Slice.next (x : Slice) : Slice := { x with pc := x.pc + 12 }

/-- What one slice needs: the checks made whatever the guard says, then, where the guard holds, the rest (R254, R256). -/
def preOf (m : Meaning) (s : State) (i : Nat) : Pre :=
  match m.chk s i with
  | some code => .trap (trapPlain 1 code)
  | none => if m.lanes (s.sl i) = 0 then .go else m.pre s i (m.lanes (s.sl i))

/-- The effect in one slice and its PC. The instruction's answers are used up and its fetch grants stay. -/
def actOf (m : Meaning) (pre : State) (s : State) (i : Nat) : State :=
  let l := m.lanes (s.sl i)
  let s0 := s.updSl i fun x => { x with park := .run, answers := [], relIn := false, lost := [], begun := none }
  if l = 0 then s0.updSl i Slice.next
  else if m.jump then m.act pre s0 i l
  else (m.act pre s0 i l).updSl i Slice.next

/-- W parks the slice after issue until every outstanding result has landed (R142). -/
def waitW (h : Hdr) (x : Slice) : Slice :=
  if h.w && x.taking.isNone then
    match x.park with
    | .run => { x with park := .after .results true }
    | .after c _ => { x with park := .after c true }
    | .before _ => x
  else x

def markW (h : Hdr) (s : State) (i : Nat) : State := s.updSl i (waitW h)

/-- The instruction issues in every slice of the unit: its effects in slice order, W, and one more instruction of the run (R139, R142). -/
def unitGo (h : Hdr) (m : Meaning) (s : State) : State :=
  let s1 := s.cur.foldl (actOf m s) s
  let s2 := s.cur.foldl (markW h) s1
  let r := countRun s2 s.cur m.occ
  let runOver := m.jump || h.r || r.2 || s.cur.any fun i => (r.1.sl i).park.parked || (r.1.sl i).live = 0
  { (if runOver then endRun r.1 s.cur else r.1) with cur := [] }

/-- The unit does not issue: its slices park in front of the instruction (R139). -/
def unitWait (pres : List Pre) (s : State) : State :=
  { endRun ((s.cur.zip (askOnce [] pres)).foldl (fun s e => parkBefore s.cur (pres.any Pre.isAsk) s e.1 e.2) s) s.cur with cur := [] }

/-- The trap that the unit takes: a cause of clearance or fill stands back while any slice still asks (R241, R254). -/
def unitTrap (pres : List Pre) : Option TrapIn :=
  (bestTrap (pres.filterMap Pre.trap?)).filter fun t => !(pres.any Pre.isAsk && 4 ≤ t.grp)

/-- One instruction of the unit that holds the issue: it traps, issues, or parks in front of it. -/
def runUnit (h : Hdr) (m : Meaning) (s : State) : Out :=
  if s.cur.isEmpty then .fault .noIssuer
  else
    let pres := s.cur.map (preOf m s)
    match unitTrap pres with
    | some t => .next (trapUnit s s.cur (pres.filterMap Pre.trap?) t)
    | none => .next (if pres.all Pre.isGo then unitGo h m s else unitWait pres s)

/-! ### Outstanding results (R142) -/

def full32 (x : Slice) : Bool := 32 ≤ x.outst.length

/-- A variable-latency instruction whose results are all known: they land later, one by one. -/
def addLands (s : State) (i : Nat) (ls : List (LandDst × DWord)) : State :=
  if ls.isEmpty then s
  else
    let id := s.nextId
    s.fresh.updSl i fun x =>
      { x with outst := Tbl.put x.outst id ls.length, ready := x.ready ++ ls.map fun e => ⟨id, e.1, e.2⟩ }

/-- One result is written to the issuing slice's own register (R145). -/
def landIn (x : Slice) (d : LandDst) (v : DWord) : Slice :=
  match d with
  | .vreg r l => x.setV r l (v.setWidth 32)
  | .sreg r => x.setS r v
  | .pbit l k => x.setP l k (v != 0)
  | .qbit k => x.setQ k (v != 0)
  | .flags => { x with flags := x.flags ||| v.setWidth 6 }
  | .vregF r l f => let y := x.setV r l (v.setWidth 32); { y with flags := y.flags ||| f }
  | .sregF r f => let y := x.setS r v; { y with flags := y.flags ||| f }

end Sys2Proof.Machine
end

