-- ==== Sys2Proof/Machine/Operands.lean ====
section
/-! DEFINITION. Operand forms (R133 to R137, R258 to R260): the value of a source under a type, the write of a destination, the register
range check, and the shape of an instruction that only computes on registers. -/

namespace Sys2Proof.Machine

/-- The 64 bits of an even-odd pair, low register first (R136). -/
def Slice.vpair (x : Slice) (r l : Nat) : DWord := x.vreg (r + 1) l ++ x.vreg r l

/-- A source operand as its type reads it (R259), zero-extended to 64 bits. -/
def rd (c : Crew) (x : Slice) (t : Ty) (imm : Word) (l : Nat) (o : Opnd) : DWord :=
  let fit := fun (w : DWord) => if tyWidth t = 16 ∧ (tyElems t).1 = 1 then (w.setWidth 16).setWidth 64 else w
  if t.is64 then
    match o with
    | .v n => x.vpair n l
    | .s n => x.sreg n
    | .zero => 0
    | .lane => BitVec.ofNat 64 (4 * slotOf c x + l)
    | .slot => BitVec.ofNat 64 (slotOf c x)
    | .imm => if t = .s64 then imm.signExtend 64 else imm.setWidth 64
  else
    match o with
    | .v n => fit ((x.vreg n l).setWidth 64)
    | .s n => fit (((x.sreg n).setWidth 32).setWidth 64)
    | .zero => 0
    | .lane => BitVec.ofNat 64 (4 * slotOf c x + l)
    | .slot => BitVec.ofNat 64 (slotOf c x)
    | .imm => fit (imm.setWidth 64)

/-- Write a result (R136, R259): a 32-bit result clears bits [63:32] of an s register; zero discards. -/
def wr (t : Ty) (o : Opnd) (l : Nat) (v : DWord) (y : Slice) : Slice :=
  match o with
  | .v n => if t.is64 then (y.setV n l (v.setWidth 32)).setV (n + 1) l ((v >>> 32).setWidth 32) else y.setV n l (v.setWidth 32)
  | .s n => if t.is64 then y.setS n v else y.setS n ((v.setWidth 32).setWidth 64)
  | _ => y

/-- The 32-bit value of word k of a register range (v or s). -/
def rdRange (x : Slice) (l : Nat) (o : Opnd) (k : Nat) : Nat :=
  match o with
  | .v n => (x.vreg (n + k) l).toNat
  | .s n => (x.sreg (n + k)).toNat % 2 ^ 32
  | _ => 0

def wrRange (o : Opnd) (l k : Nat) (v : Nat) (y : Slice) : Slice :=
  match o with
  | .v n => y.setV (n + k) l (BitVec.ofNat 32 v)
  | .s n => y.setS (n + k) (BitVec.ofNat 64 (v % 2 ^ 32))
  | _ => y

def wrPred (p : PredOp) (l : Nat) (b : Bool) (y : Slice) : Slice := if p.q then y.setQ p.ix b else y.setP l p.ix b
def rdPred (p : PredOp) (l : Nat) (x : Slice) : Bool := if p.q then x.qbit p.ix else x.pbit l p.ix

/-- Registers a type names. -/
def tyRegs (t : Ty) : Nat := if t.is64 then 2 else 1

/-- Check 5 (R134, R260): every vector register touched lies below the allocation. -/
def regsOk (c : Crew) (rs : List (Opnd × Nat)) : Bool :=
  rs.all fun e => match e.1 with
    | .v n => n + e.2 ≤ c.regs && n + e.2 ≤ 192
    | _ => true

def chkRegs (rs : List (Opnd × Nat)) (s : State) (i : Nat) : Option Nat :=
  if regsOk (s.crewOf i) rs then none else some cRegRange

/-- R135: per lane when the destination is a v register or a source is a vector operand. -/
def vecMode (d : Opnd) (srcs : List Opnd) : Bool := (match d with | .v _ => true | _ => false) || srcs.any Opnd.isVec

def lanesFor (vec : Bool) (h : Hdr) (x : Slice) : BitVec 4 := if vec then perLane h x else perSlice h x

/-- The lanes a computation is done for: each executing lane, or once. -/
def laneList (vec : Bool) (m : BitVec 4) : List Nat := if vec then lanesOf m else [0]

/-- Apply a per-lane computation that reads the slice as it stood at issue. -/
def eachLane (vec : Bool) (m : BitVec 4) (x : Slice) (f : Nat → Slice → Slice) : Slice :=
  (laneList vec m).foldl (fun y l => f l y) x

/-- An instruction that computes on registers alone (R271): it traps on no value and waits for nothing. -/
def regMeaning (h : Hdr) (vec : Bool) (rs : List (Opnd × Nat)) (occ : Nat) (f : Crew → Slice → Nat → Slice → Slice) : Meaning where
  chk := chkRegs rs
  lanes := lanesFor vec h
  pre := noPre
  act := fun pre s i m => s.updSl i fun x => eachLane vec m x (f (pre.crewOf i) x)
  jump := false
  occ := occ

/-- A binary operation of one type. -/
def bin (h : Hdr) (t : Ty) (d a b : Opnd) (occ : Nat) (f : DWord → DWord → DWord) (s : State) : Out :=
  runUnit h (regMeaning h (vecMode d [a, b]) [(d, tyRegs t), (a, tyRegs t), (b, tyRegs t)] occ fun c x l y =>
    wr t d l (f (rd c x t h.imm l a) (rd c x t h.imm l b)) y) s

/-- A binary operation whose second source is read as 32 bits whatever the type. -/
def bin32 (h : Hdr) (t : Ty) (d a b : Opnd) (f : DWord → DWord → DWord) (s : State) : Out :=
  runUnit h (regMeaning h (vecMode d [a, b]) [(d, tyRegs t), (a, tyRegs t), (b, 1)] 1 fun c x l y =>
    wr t d l (f (rd c x t h.imm l a) (rd c x .u32 h.imm l b)) y) s

def tern (h : Hdr) (t : Ty) (d a b c : Opnd) (occ : Nat) (f : DWord → DWord → DWord → DWord) (s : State) : Out :=
  runUnit h (regMeaning h (vecMode d [a, b, c]) [(d, tyRegs t), (a, tyRegs t), (b, tyRegs t), (c, tyRegs t)] occ fun cw x l y =>
    wr t d l (f (rd cw x t h.imm l a) (rd cw x t h.imm l b) (rd cw x t h.imm l c)) y) s

def un (h : Hdr) (td t : Ty) (d a : Opnd) (f : DWord → DWord) (s : State) : Out :=
  runUnit h (regMeaning h (vecMode d [a]) [(d, tyRegs td), (a, tyRegs t)] 1 fun c x l y =>
    wr td d l (f (rd c x t h.imm l a)) y) s

/-- A float operation: the result and the flags it raises, ORed into FLAGS (R272). -/
def wrFl (t : Ty) (d : Opnd) (l : Nat) (r : Fl DWord) (y : Slice) : Slice :=
  let z := wr t d l r.1 y
  { z with flags := z.flags ||| r.2 }

def flBin (h : Hdr) (t : Ty) (d a b : Opnd) (f : DWord → DWord → Fl DWord) (s : State) : Out :=
  runUnit h (regMeaning h (vecMode d [a, b]) [(d, 1), (a, 1), (b, 1)] 1 fun c x l y =>
    wrFl t d l (f (rd c x t h.imm l a) (rd c x t h.imm l b)) y) s

def flUn (h : Hdr) (td ts : Ty) (d a : Opnd) (f : DWord → Fl DWord) (s : State) : Out :=
  runUnit h (regMeaning h (vecMode d [a]) [(d, tyRegs td), (a, tyRegs ts)] 1 fun c x l y =>
    wrFl td d l (f (rd c x ts h.imm l a)) y) s

/-- A predicate result (R276, R284): per lane when pd is a p-predicate or a source is a vector operand. -/
def cmpOp (h : Hdr) (t : Ty) (pd : PredOp) (a b : Opnd) (f : DWord → DWord → Bool) (s : State) : Out :=
  runUnit h (regMeaning h (!pd.q || a.isVec || b.isVec) [(a, tyRegs t), (b, tyRegs t)] 1 fun c x l y =>
    wrPred pd l (f (rd c x t h.imm l a) (rd c x t h.imm l b)) y) s

end Sys2Proof.Machine
end

