-- ==== Sys2Proof/Machine/Sfu.lean ====
section
/-! DEFINITION. The special functions of R285 on binary32: RNE32 of the exact value. Algebraic results are found by integer roots with a
sticky half unit; transcendental ones are enclosed between two integers of `fixBits` fraction bits and rounded from the enclosure. -/

namespace Sys2Proof.Machine

/-- The integer square root, from the top bit down: `k` bits of result. -/
def isqrtGo : Nat → Nat → Nat → Nat
  | 0, _, r => r
  | k + 1, n, r =>
    let r' := r + 2 ^ k
    isqrtGo k n (if r' * r' ≤ n then r' else r)

def isqrt (n : Nat) : Nat := isqrtGo (n.log2 / 2 + 1) n 0

/-- A positive value known as `x` units of 2^u, or strictly between x and x + 1 of them when `sticky`, rounded to binary32. The rounding
boundaries of binary32 are multiples of a unit when x has at least 26 bits. -/
def stickyRound (neg : Bool) (x : Nat) (u : Int) (sticky : Bool) : Fl Nat :=
  rnef fmtF32 (.fin neg (2 * x + (if sticky then 1 else 0)) (u - 1))

/-- √(m · 2^e) for m > 0. -/
def sqrtFin (m : Nat) (e : Int) : Fl Nat :=
  let odd := e % 2 = 1
  let x := (if odd then 2 * m else m) * 2 ^ 128
  let r := isqrt x
  stickyRound false r ((if odd then e - 1 else e) / 2 - 64) (r * r ≠ x)

/-- 1 / √(m · 2^e) for m > 0. -/
def rsqFin (m : Nat) (e : Int) : Fl Nat :=
  let odd := e % 2 = 1
  let d := if odd then 2 * m else m
  let x := 2 ^ 256 / d
  let r := isqrt x
  stickyRound false r (-((if odd then e - 1 else e) / 2) - 128) (r * r * d ≠ 2 ^ 256)

/-! Fixed-point series. Every value is an integer number of units of 2^-fixBits. -/

def fixBits : Nat := 704
def fixOne : Nat := 2 ^ fixBits

/-- 1/n - 1/(3n³) + 1/(5n⁵) - …, truncated term by term: arctan(1/n). -/
def atanInvGo (n2 : Nat) : Nat → Nat → Nat → Int
  | 0, _, _ => 0
  | k + 1, pow, j =>
    let t : Int := pow / (2 * j + 1)
    (if j % 2 = 0 then t else -t) + atanInvGo n2 k (pow / n2) (j + 1)

def atanInv (n terms : Nat) : Int := atanInvGo (n * n) terms (fixOne / n) 0

/-- π = 16 arctan(1/5) - 4 arctan(1/239). -/
def fixPi : Nat := (16 * atanInv 5 156 - 4 * atanInv 239 48).toNat

/-- z + z³/3 + z⁵/5 + …: artanh z. -/
def atanhGo (z2 : Nat) : Nat → Nat → Nat → Nat
  | 0, _, _ => 0
  | k + 1, pow, j => pow / (2 * j + 1) + atanhGo z2 k (pow * z2 / fixOne) (j + 1)

def atanhFix (z : Nat) : Nat := atanhGo (z * z / fixOne) 230 z 0

/-- ln 2 = 2 artanh(1/3). -/
def fixLn2 : Nat := 2 * atanhFix (fixOne / 3)

/-- 1 + x + x²/2! + … from the term t = x^j / j!. -/
def expGo (x : Nat) : Nat → Nat → Nat → Nat
  | 0, _, _ => 0
  | k + 1, t, j => t + expGo x k (t * x / fixOne / (j + 1)) (j + 1)

/-- e^x for x in [0, 1). -/
def expFix (x : Nat) : Nat := expGo x 150 fixOne 0

/-- The alternating series of cos (start t = 1, j = 0) and sin (start t = x, j = 1): t - t·x²/((j+1)(j+2)) + … -/
def trigGo (x2 : Nat) : Nat → Nat → Nat → Bool → Int
  | 0, _, _, _ => 0
  | k + 1, t, j, neg =>
    (if neg then -(t : Int) else t) + trigGo x2 k (t * x2 / fixOne / ((j + 1) * (j + 2))) (j + 2) (!neg)

def sinFix (x : Nat) : Int := trigGo (x * x / fixOne) 80 x 1 false
def cosFix (x : Nat) : Int := trigGo (x * x / fixOne) 80 fixOne 0 false

/-- The bound on the error of every enclosure, in units: each series adds at most a few hundred units, and the reduction of SIN and COS
multiplies the error of π by at most 2^129. -/
def fixErr : Nat := 2 ^ 150

/-- RNE32 of a value enclosed in v ± fixErr units, times 2^k. The enclosure is far narrower than the distance of any such value from a
rounding boundary, so both ends round alike; the lower end is delivered. NX is set because no such value is exact. -/
def encloseRound (v : Int) (k : Int) : Fl Nat :=
  let lo : Int := if v < 0 then v + fixErr else v - fixErr
  rnef fmtF32 (.fin (v < 0) lo.natAbs (k - fixBits))

/-- m · 2^e as units, exact for e ≥ -fixBits. -/
def toFix (m : Nat) (e : Int) : Nat := (scale2 m 1 (e + fixBits)).1 / (scale2 m 1 (e + fixBits)).2

def exp2Fin (neg : Bool) (m : Nat) (e : Int) : Fl Nat :=
  let (p, q) := scale2 m 1 e
  let whole := p / q
  let fr := p % q
  if fr = 0 then
    let k : Int := if neg then -(min whole 400 : Nat) else (min whole 400 : Nat)
    rnef fmtF32 (.fin false 1 k)
  else
    let k : Int := if neg then -(min whole 400 : Nat) - 1 else (min whole 400 : Nat)
    let f := if neg then q - fr else fr
    encloseRound (expFix (f * fixLn2 / q)) k

def log2Fin (m : Nat) (e : Int) : Fl Nat :=
  let k : Int := (m.log2 : Int) + e
  let top := 2 ^ m.log2
  if m = top then i2fCode fmtF32 k
  else
    let z := (m - top) * fixOne / (m + top)
    encloseRound (k * fixOne + (2 * atanhFix z * fixOne / fixLn2 : Nat)) 0

/-- The quadrant of m · 2^e (mod 4) and the offset from its middle, in units: |a| = quadrant · π/2 + offset, offset in [-π/4, π/4]. -/
def trigReduce (m : Nat) (e : Int) : Nat × Int :=
  let a := toFix m e
  let half := fixPi / 2
  let k := (a + half / 2) / half
  (k % 4, (a : Int) - ((k * fixPi / 2 : Nat) : Int))

/-- sin of quadrant · π/2 + offset. -/
def quadSin (q : Nat) (r : Int) : Int :=
  let s := if r < 0 then -sinFix r.natAbs else sinFix r.natAbs
  let c := cosFix r.natAbs
  match q % 4 with
  | 0 => s | 1 => c | 2 => -s | _ => -c

def sinFin (neg : Bool) (m : Nat) (e : Int) : Fl Nat :=
  let (q, r) := trigReduce m e
  let v := quadSin q r
  encloseRound (if neg then -v else v) 0

def cosFin (m : Nat) (e : Int) : Fl Nat :=
  let (q, r) := trigReduce m e
  encloseRound (quadSin (q + 1) r) 0

/-- tanh x = (1 - y) / (1 + y) with y = e^(-2x); beyond 32 the value is 1 less a tiny amount. -/
def tanhFin (neg : Bool) (m : Nat) (e : Int) : Fl Nat :=
  let (p, q) := scale2 m 1 e
  if 32 * q ≤ p then rnef fmtF32 (.fin neg (2 ^ 60 - 1) (-60))
  else
    let t := 2 * toFix m e
    let k := t / fixLn2
    let y := fixOne * fixOne / expFix (t - k * fixLn2) / 2 ^ k
    let v : Int := ((fixOne - y) * fixOne / (fixOne + y) : Nat)
    encloseRound (if neg then -v else v) 0

def codeNan32 : Nat := 0x7FC00000
def code32Inf (neg : Bool) : Nat := if neg then 0xFF800000 else 0x7F800000
def code32Zero (neg : Bool) : Nat := if neg then 0x80000000 else 0
def code32One (neg : Bool) : Nat := if neg then 0xBF800000 else 0x3F800000

/-- RCP (R285). -/
def rcp32 (a : Nat) : Fl Nat :=
  match dec fmtF32 a with
  | .nan => (codeNan32, fNone)
  | .inf n => (code32Zero n, fNone)
  | .fin n m e => if m = 0 then (code32Inf n, fDZ) else roundRat fmtF32 n 1 m (-e)

/-- RSQ (R285). -/
def rsq32 (a : Nat) : Fl Nat :=
  match dec fmtF32 a with
  | .nan => (codeNan32, fNone)
  | .inf n => if n then (codeNan32, fNV) else (code32Zero false, fNone)
  | .fin n m e => if m = 0 then (code32Inf n, fNone) else if n then (codeNan32, fNV) else rsqFin m e

/-- SQRT (R285). -/
def sqrt32 (a : Nat) : Fl Nat :=
  match dec fmtF32 a with
  | .nan => (codeNan32, fNone)
  | .inf n => if n then (codeNan32, fNV) else (code32Inf false, fNone)
  | .fin n m e => if m = 0 then (code32Zero n, fNone) else if n then (codeNan32, fNV) else sqrtFin m e

/-- EXP2 (R285). -/
def exp2_32 (a : Nat) : Fl Nat :=
  match dec fmtF32 a with
  | .nan => (codeNan32, fNone)
  | .inf n => (if n then code32Zero false else code32Inf false, fNone)
  | .fin n m e => if m = 0 then (code32One false, fNone) else exp2Fin n m e

/-- LOG2 (R285). -/
def log2_32 (a : Nat) : Fl Nat :=
  match dec fmtF32 a with
  | .nan => (codeNan32, fNone)
  | .inf n => if n then (codeNan32, fNV) else (code32Inf false, fNone)
  | .fin n m e => if m = 0 then (code32Inf true, fNone) else if n then (codeNan32, fNV) else log2Fin m e

/-- SIN (R285). -/
def sin32 (a : Nat) : Fl Nat :=
  match dec fmtF32 a with
  | .nan => (codeNan32, fNone)
  | .inf _ => (codeNan32, fNV)
  | .fin n m e => if m = 0 then (code32Zero n, fNone) else sinFin n m e

/-- COS (R285). -/
def cos32 (a : Nat) : Fl Nat :=
  match dec fmtF32 a with
  | .nan => (codeNan32, fNone)
  | .inf _ => (codeNan32, fNV)
  | .fin _ m e => if m = 0 then (code32One false, fNone) else cosFin m e

/-- TANH (R285). -/
def tanh32 (a : Nat) : Fl Nat :=
  match dec fmtF32 a with
  | .nan => (codeNan32, fNone)
  | .inf n => (code32One n, fNone)
  | .fin n m e => if m = 0 then (code32Zero n, fNone) else tanhFin n m e

end Sys2Proof.Machine
end

