-- ==== Sys2Proof/Machine/Arith.lean ====
section
/-! DEFINITION. The meanings of opcodes 0x10 to 0x4E (R271 to R293). -/

namespace Sys2Proof.Machine

/-- IMUL, IMULH and IMAD with a 64-bit type hold the slot 4 clocks (R273). -/
def mulOcc (t : Ty) : Nat := if t.is64 then 4 else 1

def execIadd (h : Hdr) (sat : Bool) (t : Ty) (d a b : Opnd) (s : State) : Out := bin h t d a b 1 (aluAdd t sat) s
def execIsub (h : Hdr) (sat : Bool) (t : Ty) (d a b : Opnd) (s : State) : Out := bin h t d a b 1 (aluSub t sat) s
def execImul (h : Hdr) (t : Ty) (d a b : Opnd) (s : State) : Out := bin h t d a b (mulOcc t) (aluMul t) s
def execImulh (h : Hdr) (t : Ty) (d a b : Opnd) (s : State) : Out := bin h t d a b (mulOcc t) (aluMulh t) s
def execImin (h : Hdr) (t : Ty) (d a b : Opnd) (s : State) : Out := bin h t d a b 1 (aluMin t) s
def execImax (h : Hdr) (t : Ty) (d a b : Opnd) (s : State) : Out := bin h t d a b 1 (aluMax t) s
def execIabs (h : Hdr) (sat : Bool) (t : Ty) (d a : Opnd) (s : State) : Out := un h t t d a (aluAbs t sat) s
def execIadd3 (h : Hdr) (t : Ty) (d a b c : Opnd) (s : State) : Out := tern h t d a b c 1 (aluAdd3 t) s

/-- IMAD (R274). In the acc64 form d and c are 64 bits, an immediate c by the type's signedness. -/
def execImad (h : Hdr) (acc : Bool) (t : Ty) (d a b c : Opnd) (s : State) : Out :=
  if acc then
    let tc : Ty := if t = .s32 then .s64 else .u64
    runUnit h (regMeaning h (vecMode d [a, b, c]) [(d, 2), (a, 1), (b, 1), (c, 2)] 4 fun cw x l y =>
      wr .u64 d l (aluMadAcc t (rd cw x t h.imm l a) (rd cw x t h.imm l b) (rd cw x tc h.imm l c)) y) s
  else tern h t d a b c (mulOcc t) (aluMad t) s

/-- IADDC (R275): P is a p-predicate per lane, a q-predicate once per slice; it is read before it is written. -/
def execIaddc (h : Hdr) (sub : Bool) (p : Nat) (t : Ty) (d a b : Opnd) (s : State) : Out :=
  let vec := vecMode d [a, b]
  let pd : PredOp := ⟨!vec, p⟩
  runUnit h (regMeaning h vec [(d, tyRegs t), (a, tyRegs t), (b, tyRegs t)] 1 fun c x l y =>
    let r := aluAddc t sub (rdPred pd l x) (rd c x t h.imm l a) (rd c x t h.imm l b)
    wrPred pd l r.2 (wr t d l r.1 y)) s

def execIcmp (h : Hdr) (cond : Cond) (t : Ty) (pd : PredOp) (a b : Opnd) (s : State) : Out := cmpOp h t pd a b (aluCmp t cond) s

/-- ISEL (R276). -/
def execIsel (h : Hdr) (neg : Bool) (p : Nat) (t : Ty) (d a b : Opnd) (s : State) : Out :=
  let vec := vecMode d [a, b]
  runUnit h (regMeaning h vec [(d, tyRegs t), (a, tyRegs t), (b, tyRegs t)] 1 fun c x l y =>
    wr t d l (if rdPred ⟨!vec, p⟩ l x != neg then rd c x t h.imm l a else rd c x t h.imm l b) y) s

/-- LEA (R277): d and a 64 bits, b 32. -/
def execLea (h : Hdr) (n : Nat) (t : Ty) (d a b : Opnd) (s : State) : Out :=
  runUnit h (regMeaning h (vecMode d [a, b]) [(d, 2), (a, 2), (b, 1)] 1 fun c x l y =>
    wr .u64 d l (aluLea (t == .s32) n (rd c x .u64 h.imm l a) (rd c x .u32 h.imm l b)) y) s

/-- ISAD and IDOT4 (R278): d and c 32 bits. -/
def execIsad (h : Hdr) (t : Ty) (d a b c : Opnd) (s : State) : Out := tern h t d a b c 1 (aluSad t) s
def execIdot4 (h : Hdr) (mix sat : Bool) (t : Ty) (d a b c : Opnd) (s : State) : Out := tern h t d a b c 1 (aluDot4 t mix sat) s

def execAnd (h : Hdr) (inv : Bool) (t : Ty) (d a b : Opnd) (s : State) : Out := bin h t d a b 1 (aluAnd inv t) s
def execOr (h : Hdr) (inv : Bool) (t : Ty) (d a b : Opnd) (s : State) : Out := bin h t d a b 1 (aluOr inv t) s
def execXor (h : Hdr) (inv : Bool) (t : Ty) (d a b : Opnd) (s : State) : Out := bin h t d a b 1 (aluXor inv t) s
def execMix3 (h : Hdr) (t : Ty) (d a b c : Opnd) (s : State) : Out := tern h t d a b c 1 (aluMix3 t (h.imm.toNat % 256)) s
def execShl (h : Hdr) (wrap : Bool) (t : Ty) (d a b : Opnd) (s : State) : Out := bin32 h t d a b (aluShl wrap t) s
def execShr (h : Hdr) (wrap : Bool) (t : Ty) (d a b : Opnd) (s : State) : Out := bin32 h t d a b (aluShr wrap t) s
def execSar (h : Hdr) (wrap : Bool) (t : Ty) (d a b : Opnd) (s : State) : Out := bin32 h t d a b (aluSar wrap t) s
def execRot (h : Hdr) (right : Bool) (t : Ty) (d a b : Opnd) (s : State) : Out := bin32 h t d a b (aluRot right t) s
def execFshf (h : Hdr) (left clamp : Bool) (d a b c : Opnd) (s : State) : Out := tern h .u32 d a b c 1 (aluFshf left clamp) s

/-- BFX (R281). -/
def execBfx (h : Hdr) (t : Ty) (d a b c : Opnd) (s : State) : Out :=
  runUnit h (regMeaning h (vecMode d [a, b, c]) [(d, tyRegs t), (a, tyRegs t), (b, 1), (c, 1)] 1 fun cw x l y =>
    wr t d l (aluBfx t (rd cw x t h.imm l a) (rd cw x .u32 h.imm l b) (rd cw x .u32 h.imm l c)) y) s

/-- BFI (R281). -/
def execBfi (h : Hdr) (t : Ty) (d a b c e : Opnd) (s : State) : Out :=
  runUnit h (regMeaning h (vecMode d [a, b, c, e]) [(d, tyRegs t), (a, tyRegs t), (b, tyRegs t), (c, 1), (e, 1)] 1 fun cw x l y =>
    wr t d l (aluBfi t (rd cw x t h.imm l a) (rd cw x t h.imm l b) (rd cw x .u32 h.imm l c) (rd cw x .u32 h.imm l e)) y) s

def execPopc (h : Hdr) (t : Ty) (d a : Opnd) (s : State) : Out := un h .u32 t d a (aluPopc t) s
def execClz (h : Hdr) (t : Ty) (d a : Opnd) (s : State) : Out := un h .u32 t d a (aluClz t) s
def execBrev (h : Hdr) (t : Ty) (d a : Opnd) (s : State) : Out := un h t t d a (aluBrev t) s
def execBsel (h : Hdr) (d a b c : Opnd) (s : State) : Out := tern h .u32 d a b c 1 aluBsel s
def execFfs (h : Hdr) (hi : Bool) (t : Ty) (d a : Opnd) (s : State) : Out := un h .u32 t d a (aluFfs hi t) s

def execFadd (h : Hdr) (sat : Bool) (t : Ty) (d a b : Opnd) (s : State) : Out := flBin h t d a b (aluFadd t sat) s
def execFsub (h : Hdr) (sat : Bool) (t : Ty) (d a b : Opnd) (s : State) : Out := flBin h t d a b (aluFsub t sat) s
def execFmul (h : Hdr) (sat : Bool) (t : Ty) (d a b : Opnd) (s : State) : Out := flBin h t d a b (aluFmul t sat) s
def execFfma (h : Hdr) (sat : Bool) (t : Ty) (d a b c : Opnd) (s : State) : Out :=
  runUnit h (regMeaning h (vecMode d [a, b, c]) [(d, 1), (a, 1), (b, 1), (c, 1)] 1 fun cw x l y =>
    wrFl t d l (aluFfma t sat (rd cw x t h.imm l a) (rd cw x t h.imm l b) (rd cw x t h.imm l c)) y) s
def execFmin (h : Hdr) (t : Ty) (d a b : Opnd) (s : State) : Out := bin h t d a b 1 (aluFmin t) s
def execFmax (h : Hdr) (t : Ty) (d a b : Opnd) (s : State) : Out := bin h t d a b 1 (aluFmax t) s
def execFcmp (h : Hdr) (cond : Cond) (t : Ty) (pd : PredOp) (a b : Opnd) (s : State) : Out := cmpOp h t pd a b (aluFcmp t cond) s
def execFclass (h : Hdr) (t : Ty) (d a : Opnd) (s : State) : Out := un h .u32 t d a (aluFclass t) s
def execFrnd (h : Hdr) (dir : RndDir) (t : Ty) (d a : Opnd) (s : State) : Out := un h t t d a (aluFrnd dir t) s

/-- FDP2 (R283): a and b packed, c and d F32. -/
def execFdp2 (h : Hdr) (t : Ty) (d a b c : Opnd) (s : State) : Out :=
  runUnit h (regMeaning h (vecMode d [a, b, c]) [(d, 1), (a, 1), (b, 1), (c, 1)] 1 fun cw x l y =>
    wrFl .f32 d l (aluFdp2 t (rd cw x t h.imm l a) (rd cw x t h.imm l b) (rd cw x .f32 h.imm l c)) y) s

/-- FSCALE (R283): b read as S32. -/
def execFscale (h : Hdr) (t : Ty) (d a b : Opnd) (s : State) : Out :=
  runUnit h (regMeaning h (vecMode d [a, b]) [(d, 1), (a, 1), (b, 1)] 1 fun c x l y =>
    wrFl t d l (aluFscale t (rd c x t h.imm l a) (rd c x .s32 h.imm l b)) y) s

def execFsgn (h : Hdr) (op : SgnOp) (t : Ty) (d a b : Opnd) (s : State) : Out := bin h t d a b 1 (aluFsgn op t) s

/-! ### Special functions (R273, R285, R286) -/

/-- The instructions queued at the function unit of a slice's slot. -/
def sfuBusy (s : State) (i : Nat) : Nat :=
  (((s.core (s.coreOf i)).slots.filter fun t => t.units.any fun u => u.contains i).map fun t => t.sfu.length).foldl (· + ·) 0

/-- One instruction of the slot enters the function unit's queue, named by its first executing slice's result. -/
def sfuEnter (s : State) (i id : Nat) : State :=
  s.updCore (s.coreOf i) fun c =>
    { c with slots := c.slots.map fun t => if t.units.any (fun u => u.contains i) then { t with sfu := t.sfu ++ [id] } else t }

/-- Flags that a variable-latency instruction raises are written with its results (R142). -/
def landFlags (f : Flags) : List (LandDst × DWord) := [(.flags, f.setWidth 64)]

/-- The land of one lane of a special function: its 32-bit register, or the s register, together with its flags (R286). -/
def landFl (d : Opnd) (l : Nat) (r : Fl Nat) : List (LandDst × DWord) :=
  match d with
  | .v n => [(.vregF n l r.2, BitVec.ofNat 64 r.1)]
  | .s n => [(.sregF n r.2, BitVec.ofNat 64 (r.1 % 2 ^ 32))]
  | _ => landFlags r.2

def sfuOp (h : Hdr) (d a : Opnd) (f : Nat → Fl Nat) (s : State) : Out :=
  let vec := vecMode d [a]
  runUnit h {
    chk := chkRegs [(d, 1), (a, 1)]
    lanes := lanesFor vec h
    pre := fun s i _ =>
      if full32 (s.sl i) then .park .room else if 8 ≤ sfuBusy s i then .park .sfuRoom else .go
    act := fun pre s i m =>
      let x := s.sl i
      let c := s.crewOf i
      let rs := (laneList vec m).map fun l => (l, f ((rd c x .f32 h.imm l a).toNat % 2 ^ 32))
      let first := (pre.cur.takeWhile (· != i)).all fun j => lanesFor vec h (pre.sl j) = 0
      let id := s.nextId
      let s1 := addLands s i (rs.flatMap fun e => landFl d e.1 e.2)
      if first then sfuEnter s1 i id else s1
    jump := false
    occ := 1 } s

def execRcp (h : Hdr) (d a : Opnd) (s : State) : Out := sfuOp h d a rcp32 s
def execRsq (h : Hdr) (d a : Opnd) (s : State) : Out := sfuOp h d a rsq32 s
def execSqrt (h : Hdr) (d a : Opnd) (s : State) : Out := sfuOp h d a sqrt32 s
def execExp2 (h : Hdr) (d a : Opnd) (s : State) : Out := sfuOp h d a exp2_32 s
def execLog2 (h : Hdr) (d a : Opnd) (s : State) : Out := sfuOp h d a log2_32 s
def execSin (h : Hdr) (d a : Opnd) (s : State) : Out := sfuOp h d a sin32 s
def execCos (h : Hdr) (d a : Opnd) (s : State) : Out := sfuOp h d a cos32 s
def execTanh (h : Hdr) (d a : Opnd) (s : State) : Out := sfuOp h d a tanh32 s

/-! ### Conversion and sparse compression -/

/-- FCVT (R287). The source words are read as 32 bits; the half forms read bits [31:16]. -/
def execFcvt (h : Hdr) (t : Ty) (src : CvtSrc) (d a b : Opnd) (s : State) : Out :=
  runUnit h (regMeaning h (vecMode d [a, b]) [(d, 1), (a, 1), (b, 1)] 1 fun c x l y =>
    wrFl t d l (aluFcvt t src (rd c x .u32 h.imm l a) (rd c x .u32 h.imm l b)) y) s

def execI2f (h : Hdr) (t : Ty) (src : IntSrc) (d a : Opnd) (s : State) : Out :=
  let ts : Ty := match src with | .u64 => .u64 | .s64 => .s64 | _ => .u32
  flUn h t ts d a (aluI2f t src) s

def execF2i (h : Hdr) (t : Ty) (src : FltSrc) (d a : Opnd) (s : State) : Out :=
  let ts : Ty := match src with | .f32 => .f32 | .f16 => .f16 | .bf16 => .bf16
  flUn h t ts d a (aluF2i t src) s

/-- Format and tensor-scale registers as an instruction of a slice uses them (R157). -/
def fRegNow (s : State) (i n : Nat) : Word :=
  (ctxRegNow s i (0x40 + n) ((Tbl.findD (s.ctx (s.ctxOf i)).f n 0).setWidth 64)).setWidth 32
def gRegNow (s : State) (i n : Nat) : Word :=
  (ctxRegNow s i (0x50 + n) ((Tbl.findD (s.ctx (s.ctxOf i)).g n 0x3F800000).setWidth 64)).setWidth 32

/-- Checks 4, 5 and 7 of CVTN and CVTW on a register range whose length the format register implies (R254, R290). -/
def chkCvt (n : Nat) (range : Opnd) (rs : List (Opnd × Nat)) (s : State) (i : Nat) : Option Nat :=
  let f := fRegNow s i n
  let len := if (fmtOfReg f).isNone then 4 else containerCount f
  if !range.sRange len then some cReservedOperand
  else if !regsOk (s.crewOf i) ((range, len) :: rs) then some cRegRange
  else if (fmtOfReg f).isNone then some cFormat
  else none

/-- CVTN (R290). -/
def execCvtn (h : Hdr) (n : Nat) (d a b : Opnd) (s : State) : Out :=
  let vec := vecMode d [a, b]
  runUnit h {
    chk := chkCvt n a [(d, 1), (b, 1)]
    lanes := lanesFor vec h
    pre := noPre
    act := fun pre s i m => s.updSl i fun x =>
      let c := pre.crewOf i
      let fr := fRegNow pre i n
      let gr := gRegNow pre i n
      let f := (fmtOfReg fr).getD fmtF32
      eachLane vec m x fun l y =>
        wrFl .u32 d l (aluCvtn f fr gr ((List.range (containerCount fr)).map (rdRange x l a)) (rd c x .f16 h.imm l b).toNat) y
    jump := false
    occ := 1 } s

/-- CVTW (R291). -/
def execCvtw (h : Hdr) (n : Nat) (d a b : Opnd) (s : State) : Out :=
  let vec := vecMode d [a, b]
  runUnit h {
    chk := chkCvt n d [(a, 1), (b, 1)]
    lanes := lanesFor vec h
    pre := noPre
    act := fun pre s i m => s.updSl i fun x =>
      let c := pre.crewOf i
      let fr := fRegNow pre i n
      let gr := gRegNow pre i n
      let f := (fmtOfReg fr).getD fmtF32
      eachLane vec m x fun l y =>
        let rs := aluCvtw f fr gr (rd c x .u32 h.imm l a).toNat (rd c x .f16 h.imm l b).toNat
        let z := (rs.zipIdx).foldl (fun y e => wrRange d l e.2 e.1.1 y) y
        { z with flags := z.flags ||| orFlags (rs.map Prod.snd) }
    jump := false
    occ := 1 } s

/-- SPCOMP (R292). The U8X4 form names a byte-class format register. -/
def execSpcomp (h : Hdr) (t : Ty) (n : Nat) (d a b : Opnd) (s : State) : Out :=
  let vec := vecMode d [a, b]
  let wide := t != .u8x4
  runUnit h {
    chk := fun s i =>
      match chkRegs [(d, if wide then 2 else 1), (a, 1), (b, 1)] s i with
      | some e => some e
      | none => if wide then none
        else if (fmtOfReg (fRegNow s i n)).isNone || nibbleClass (fRegNow s i n) then some cFormat else none
    lanes := lanesFor vec h
    pre := noPre
    act := fun pre s i m => s.updSl i fun x =>
      let c := pre.crewOf i
      eachLane vec m x fun l y =>
        let av := (rd c x .u32 h.imm l a).toNat
        let bv := (rd c x .u32 h.imm l b).toNat
        if wide then ((aluSpcomp16 (tyFmt t) av bv).zipIdx).foldl (fun y e => wrRange d l e.2 e.1 y) y
        else wr .u32 d l (aluSpcomp8 ((fmtOfReg (fRegNow pre i n)).getD fmtF32) av) y
    jump := false
    occ := 1 } s

/-- SPEXP (R293). -/
def execSpexp (h : Hdr) (t : Ty) (d a b : Opnd) (s : State) : Out :=
  let wide := t != .u8x4
  runUnit h (regMeaning h (vecMode d [a, b]) [(d, if wide then 2 else 1), (a, 1), (b, 1)] 1 fun c x l y =>
    let av := (rd c x .u32 h.imm l a).toNat
    let bv := (rd c x .u32 h.imm l b).toNat
    if wide then ((aluSpexp16 av bv).zipIdx).foldl (fun y e => wrRange d l e.2 e.1 y) y
    else wr .u32 d l (aluSpexp8 av) y) s

end Sys2Proof.Machine
end

