-- ==== Sys2Proof/Machine/Control.lean ====
section
/-! DEFINITION. The meanings of opcodes 0x00 to 0x0F: control transfers, divergence, regrouping, sleeping, traps and steps (R304 to R311). -/

namespace Sys2Proof.Machine

/-- A park of zero clocks: the slice stands at a park point and is ready at once (R142, R308). -/
def Wait.now : Wait := .clock 0

/-- A slice of a unit that has issued stands at a park point (R242). -/
def standAt (c : Wait) (x : Slice) : Slice := { x with park := .after c false, since := none, raised := false }

/-- The instruction stands before issue once more. -/
def issueAgain (c : Wait) (x : Slice) : Slice := { x with park := .before c, pc := x.pc - 12 }

/-- NOP (R304) ignores its guard and has no effect. -/
def execNop (h : Hdr) (s : State) : Out :=
  runUnit h ⟨fun _ _ => none, unguarded, noPre, fun _ s i _ => s.updSl i fun x => x, false, 1⟩ s

/-! ### Transfers (R144, R305) -/

/-- The distinct values of a list, in order of first occurrence. -/
def distinct : List DWord → List DWord
  | [] => []
  | a :: l => a :: (distinct l).filter (· != a)

/-- Where each active lane goes. -/
def laneDest (x : Slice) (m : BitVec 4) (target : Nat → DWord) (l : Nat) : DWord := if m.getLsbD l then target l else x.pc + 12

/-- The PC and the masks after a transfer, or none where it faults DIVERGENT_TARGET. -/
def transfer (x : Slice) (m : BitVec 4) (target : Nat → DWord) : Option Slice :=
  let dest := laneDest x m target
  let lanes := lanesOf x.active
  match distinct (lanes.map dest) with
  | [] => some { x with pc := x.pc + 12 }
  | [p] => some { x with pc := p }
  | [p, q] =>
    let stay := if q = x.pc + 12 then q else p
    let go := if q = x.pc + 12 then p else q
    match x.stack with
    | [] => none
    | e :: st =>
      if e.pmask != 0 then none
      else some { x with
        pc := stay
        active := laneMask (lanes.filter fun l => dest l == stay)
        stack := { e with ppc := go, pmask := laneMask (lanes.filter fun l => dest l == go) } :: st }
  | _ => none

/-- The lowest executing lane whose target is not a multiple of 4 (R252, R305). -/
def badTarget (m : BitVec 4) (target : Nat → DWord) : Option Nat := (lanesOf m).find? fun l => (target l).toNat % 4 != 0

def preTransfer (c : Crew) (x : Slice) (m : BitVec 4) (target : Nat → DWord) : Pre :=
  match badTarget m target with
  | some l => .trap ⟨2, cPcAlign, target l, 0, none, 4 * slotOf c x + l⟩
  | none => if (transfer x m target).isNone then .trap (trapPlain 3 cDivergentTarget) else .go

/-- A control transfer; `link` names the register that receives the return address (R304). -/
def transferMeaning (h : Hdr) (lanes : Slice → BitVec 4) (rs : List (Opnd × Nat)) (link : Opnd)
    (target : Crew → Slice → Nat → DWord) (s : State) : Out :=
  runUnit h {
    chk := chkRegs rs
    lanes := lanes
    pre := fun s i m => preTransfer (s.crewOf i) (s.sl i) m (target (s.crewOf i) (s.sl i))
    act := fun pre s i m => s.updSl i fun x =>
      (lanesOf m).foldl (fun y l => wr .u64 link l (x.pc + 12) y) ((transfer x m (target (pre.crewOf i) x)).getD x)
    jump := true
    occ := 1 } s

/-- PC + SEXT(IMM32, 64) (R266). -/
def relTarget (h : Hdr) (_ : Crew) (x : Slice) (_ : Nat) : DWord := x.pc + h.imm.signExtend 64
def regTarget (a : Opnd) (c : Crew) (x : Slice) (l : Nat) : DWord := rd c x .u64 0 l a

def execBra (h : Hdr) (s : State) : Out := transferMeaning h (perLane h) [] .zero (relTarget h) s
/-- BRA.uni (R305): every active lane or none. -/
def execBraUni (h : Hdr) (s : State) : Out := transferMeaning h (perSlice h) [] .zero (relTarget h) s
def execBrx (h : Hdr) (a : Opnd) (s : State) : Out := transferMeaning h (perLane h) [(a, 2)] .zero (regTarget a) s
def execCall (h : Hdr) (d : Opnd) (s : State) : Out := transferMeaning h (perLane h) [(d, 2)] d (relTarget h) s
def execCallx (h : Hdr) (d a : Opnd) (s : State) : Out := transferMeaning h (perLane h) [(d, 2), (a, 2)] d (regTarget a) s
def execRet (h : Hdr) (a : Opnd) (s : State) : Out := transferMeaning h (perLane h) [(a, 2)] .zero (regTarget a) s

/-- BRACE (R144). -/
def execBrace (h : Hdr) (s : State) : Out :=
  runUnit h {
    chk := fun _ _ => none
    lanes := unguarded
    pre := fun s i _ => if 16 ≤ (s.sl i).stack.length then .trap (trapPlain 3 cDivergeDepth) else .go
    act := fun _ s i _ => s.updSl i fun x => { x with stack := ⟨x.active, 0, 0, 0⟩ :: x.stack }
    jump := false
    occ := 1 } s

/-- MEET's effect on the slice (R144); the PC it leaves is the one the next instruction follows by 12. -/
def meet (x : Slice) : Slice :=
  match x.stack with
  | [] => x
  | e :: st =>
    if e.pmask != 0 then
      { x with active := e.pmask &&& x.live, pc := e.ppc - 12, stack := { e with pmask := 0, mpc := x.pc } :: st }
    else { x with active := e.mask &&& x.live, stack := st }

def execMeet (h : Hdr) (s : State) : Out :=
  runUnit h {
    chk := fun _ _ => none
    lanes := unguarded
    pre := fun s i _ => if (s.sl i).stack.isEmpty then .trap (trapPlain 3 cDivergeDepth) else .go
    act := fun _ s i _ => s.updSl i meet
    jump := false
    occ := 1 } s

/-- The lanes of a mask exit (R144): they leave every mask. -/
def exitLanes (x : Slice) (m : BitVec 4) : Slice :=
  let keep := fun (w : BitVec 4) => w &&& ~~~m
  Slice.settle { x with
    live := keep x.live
    active := keep x.active
    pc := x.pc + 12
    stack := x.stack.map fun e => { e with mask := keep e.mask, pmask := keep e.pmask } }

/-- EXIT (R307): the slice's last live lane waits for the outstanding results, a park point. -/
def execExit (h : Hdr) (s : State) : Out :=
  runUnit h {
    chk := fun _ _ => none
    lanes := perLane h
    pre := fun s i m =>
      let x := s.sl i
      let last := x.live &&& ~~~m == 0
      let waits := !x.outst.isEmpty || (!x.deferred.isEmpty && !x.hmode)
      if last && waits then .park .results else .go
    act := fun _ s i m => s.updSl i fun x => exitLanes x m
    jump := true
    occ := 1 } s

/-! ### Regrouping, yielding, sleeping (R308) -/

/-- Every live slice of a slice's gang issues in this unit. -/
def wholeGang (s : State) (i : Nat) : Bool := (s.liveGang i).all s.cur.contains

def execRegang (h : Hdr) (s : State) : Out :=
  runUnit h {
    chk := fun _ _ => none
    lanes := unguarded
    pre := fun s i _ => if wholeGang s i then .go else .park (.regang (s.sl i).pc)
    act := fun _ s i _ => s.updSl i (standAt Wait.now)
    jump := false
    occ := 1 } s

def execYield (h : Hdr) (s : State) : Out :=
  runUnit h {
    chk := fun _ _ => none
    lanes := perSlice h
    pre := noPre
    act := fun _ s i _ => s.updSl i fun x => { standAt Wait.now x with hold := true }
    jump := false
    occ := 1 } s

/-- A sleep's end: a stop request ends it, one that has been made already at once (R308). -/
def sleepUntil (s : State) (i n : Nat) : Nat := if (s.ctx (s.ctxOf i)).st == .stopping then 0 else s.clockOf i + n

def execSleep (h : Hdr) (a : Opnd) (s : State) : Out :=
  runUnit h {
    chk := fun _ _ => none
    lanes := perSlice h
    pre := noPre
    act := fun pre s i _ => s.updSl i (standAt (.clock (sleepUntil pre i (rd (pre.crewOf i) (pre.sl i) .u32 h.imm 0 a).toNat)))
    jump := false
    occ := 1 } s

/-! ### Traps and steps (R309 to R311) -/

/-- An instruction that traps exactly at itself where its guard holds. -/
def trapAlways (h : Hdr) (code : Nat) (info : DWord) (s : State) : Out :=
  runUnit h {
    chk := fun _ _ => none
    lanes := perSlice h
    pre := fun _ _ _ => .trap ⟨3, code, 0, info, none, 0⟩
    act := fun _ s _ _ => s
    jump := true
    occ := 1 } s

def execTrap (h : Hdr) (s : State) : Out := trapAlways h cTrap (h.imm.setWidth 64) s
def execBpt (h : Hdr) (s : State) : Out := trapAlways h cBpt 0 s

/-- RTE (R310). -/
def rte (h : Hdr) (target : Slice → DWord) (s : State) : Out :=
  runUnit h {
    chk := fun s i => if (s.sl i).hmode then none else some cPriv
    lanes := unguarded
    pre := fun s i _ =>
      let x := s.sl i
      if !x.outst.isEmpty then .park .results
      else if (target x).toNat % 4 != 0 then .trap ⟨2, cPcAlign, target x, 0, none, 0⟩
      else .go
    act := fun _ s i _ => s.updSl i fun x => returnTrap x (target x)
    jump := true
    occ := 1 } s

def retryTarget (x : Slice) : DWord := x.trappc
def resumeTarget (x : Slice) : DWord := if x.trapdef then x.trapinfo else x.trappc + 12

def execRteRetry (h : Hdr) (s : State) : Out := rte h retryTarget s
def execRteResume (h : Hdr) (s : State) : Out := rte h resumeTarget s

/-- The step boundaries a slice's launch has reached (R237). -/
def stepsOf (s : State) (i : Nat) : Nat := ((Tbl.find s.launches (s.crewOf i).launch).map Launch.steps).getD 0

/-- STEP (R311): the slice stands at its next boundary until the launch has reached it. -/
def execStep (h : Hdr) (s : State) : Out :=
  runUnit h {
    chk := fun _ _ => none
    lanes := unguarded
    pre := fun s i _ =>
      let x := s.sl i
      if x.stepIn && x.steps + 1 ≤ stepsOf s i then .go else .park (.stepBoundary (x.steps + 1))
    act := fun _ s i _ => s.updSl i fun x => { x with steps := x.steps + 1, stepIn := false }
    jump := false
    occ := 1 } s

end Sys2Proof.Machine
end

