-- ==== Sys2Proof/Machine/Translate.lean ====
section
/-! DEFINITION. Physical memory (R32, R43), the page walk (R47 to R51, R67), homes (R34), procedural frames, and clearance as the core
and the owner see it (R46, R52 to R57). -/

namespace Sys2Proof.Machine

/-! ### Frames -/

/-- A physical byte of a package. -/
def physKey (pkg pa : Nat) : Nat := pkg * 2 ^ 43 + pa

/-- R32: the stacked range and the populated part of each expansion port. -/
def populated (p : Pkg) (pa : Nat) : Bool :=
  pa < 2 ^ 40 || (2 ^ 42 ≤ pa && pa < 2 ^ 42 + min p.expansion.1 (2 ^ 41)) ||
  (2 ^ 42 + 2 ^ 41 ≤ pa && pa < 2 ^ 42 + 2 ^ 41 + min p.expansion.2 (2 ^ 41))

def framePopulated (p : Pkg) (pa n : Nat) : Bool := populated p pa && populated p (pa + n - 1)

/-- The migration whose old or new frame holds a physical byte (R42, R43), and the byte's offset. -/
def migAt (s : State) (k : Nat) : Option (Nat × Mig × Nat) :=
  match s.migs.find? fun e => (e.2.old ≤ k && k < e.2.old + e.2.size) || (e.2.new ≤ k && k < e.2.new + e.2.size) with
  | none => none
  | some (n, m) => some (n, m, if m.old ≤ k ∧ k < m.old + m.size then k - m.old else k - m.new)

/-- A frame byte's value (R43): the new frame's once its line has been copied. The engine's pull that serves a read of an uncopied line is
`framePull`. -/
def physRead (s : State) (k : Nat) : Byte :=
  match migAt s k with
  | none => Mem.read s.mem k
  | some (_, m, off) => Mem.read s.mem (if m.valid.contains (off / 256) then m.new + off else m.old + off)

/-- One line comes over to the new frame, with its poison (R43, R44). -/
def migPull (s : State) (n : Nat) (m : Mig) (line : Nat) : State :=
  if m.valid.contains line then s
  else
    let bytes := Mem.readN s.mem (m.old + 256 * line) 256
    let bad := s.poison.contains ((m.old + 256 * line) / 256)
    { s with
      mem := Mem.writeN s.mem (m.new + 256 * line) bytes
      poison := (if bad then [(m.new + 256 * line) / 256] else []) ++ s.poison.filter (· != (m.new + 256 * line) / 256)
      migs := Tbl.put s.migs n { m with valid := m.valid ++ [line], pull := m.pull.filter (· != line) } }

/-- A frame access to an uncopied line of a migrating page makes the engine pull the line first (R43). -/
def framePull (s : State) (k : Nat) : State :=
  match migAt s k with
  | none => s
  | some (n, m, off) => migPull s n m (off / 256)

def physWrite (s : State) (k : Nat) (b : Byte) : State :=
  match migAt s k with
  | none => { s with mem := Mem.write s.mem k b }
  | some (_, m, off) =>
    let s1 := framePull s k
    { s1 with mem := Mem.write s1.mem (m.new + off) b }

/-- The physical line that backs a byte. -/
def physLine (s : State) (k : Nat) : Nat :=
  match migAt s k with
  | none => k / 256
  | some (_, m, off) => (if m.valid.contains (off / 256) then m.new + off else m.old + off) / 256

def physLE (s : State) (k : Nat) (n : Nat) : Nat := bytesNat ((List.range n).map fun j => physRead s (k + j))
def physPut (s : State) (k n v : Nat) : State := ((natBytes n v).zipIdx).foldl (fun s e => physWrite s (k + e.2) e.1) s

/-! ### Page-table entries (R48) -/

def pteBit (p : DWord) (k : Nat) : Bool := p.getLsbD k
def ptePpn (p : DWord) : Nat := p.toNat / 2 ^ 10 % 2 ^ 44
def pteOrd (p : DWord) : Nat := p.toNat / 2 ^ 54 % 4
def pteProc (p : DWord) : Bool := pteBit p 56
def pteSize (p : DWord) : Nat := p.toNat / 2 ^ 57 % 8
def pteHot (p : DWord) : Bool := pteBit p 60
def ptePbmt (p : DWord) : Nat := p.toNat / 2 ^ 61 % 4
/-- R210, R51. -/
def pteStrong (p : DWord) : Bool := pteOrd p == 1 || ptePbmt p == 2
/-- Held in no L2 and no stash tile (R35, R126). -/
def pteAtHome (p : DWord) : Bool := pteStrong p || ptePbmt p == 1

/-- R49: the page size of a leaf. -/
def leafSize (level : Nat) (p : DWord) : Option Nat :=
  if pteBit p 63 then (if level = 0 ∧ pteSize p = 0 ∧ ptePpn p % 16 = 8 then some (2 ^ 16) else none)
  else
    match level, pteSize p with
    | 0, 0 => some (2 ^ 12)
    | 0, 1 => some (2 ^ 14)
    | 0, 2 => some (2 ^ 16)
    | 0, 3 => some (2 ^ 18)
    | 1, 0 => some (2 ^ 21)
    | 1, 1 => some (2 ^ 25)
    | 2, 0 => some (2 ^ 30)
    | 3, 0 => some (2 ^ 39)
    | _, _ => none

/-- R49: the frame's physical address. -/
def leafFrame (size : Nat) (p : DWord) : Nat := ptePpn p * 4096 / size * size

inductive Walk where
  | nonResident
  | bad
  /-- a leaf that R51 accepts but for a frame that touches a hole (R33) -/
  | hole
  | leaf (page size : Nat) (pte : DWord)
  deriving DecidableEq, Repr

/-- R51 and R67: a leaf the walker accepts, its frame apart. -/
def leafOk (level : Nat) (p : DWord) : Option Nat :=
  match leafSize level p with
  | none => none
  | some size =>
    let procOk := !pteProc p || (pteBit p 1 && !pteBit p 2 && !pteBit p 3 && size ≤ 2 ^ 16)
    if pteOrd p == 3 || ptePbmt p == 3 || (pteBit p 2 && !pteBit p 1) || !pteBit p 4 || !procOk then none else some size

/-- R33: the whole frame is populated; a procedural page has none (R67). -/
def leafFramed (pk : Pkg) (size : Nat) (p : DWord) : Bool := pteProc p || framePopulated pk (leafFrame size p) size

/-- R51: a pointer entry the walker follows. -/
def pointerOk (p : DWord) : Bool := !pteBit p 6 && !pteBit p 7 && !pteBit p 4 && p.toNat / 2 ^ 54 == 0

/-- The address of the entry a table at a level holds for an address (R45, R47). -/
def pteAddr (tbl level va : Nat) : Nat := tbl + 8 * (va / 2 ^ (12 + 9 * level) % 512)

/-- One entry as the walker reads it: above level 0 the walker may use a copy it has kept (R52). -/
def readPte (s : State) (pkg va level a : Nat) : DWord :=
  let now := BitVec.ofNat 64 (physLE s (physKey pkg a) 8)
  match level, Tbl.find (s.tower (vaTower va)).walks a with
  | _ + 1, some old => if Config.freeBool (s.freeIx + a) then old else now
  | _, _ => now

/-- The walk from a table: `n` levels are left. -/
def walkFrom (s : State) (pkg va : Nat) : Nat → Nat → Walk
  | 0, _ => .bad
  | n + 1, tbl =>
    if !populated (s.pkg pkg) tbl then .bad
    else
      let p := readPte s pkg va n (pteAddr tbl n va)
      if !pteBit p 0 then .nonResident
      else if pteBit p 1 || pteBit p 2 || pteBit p 3 then
        match leafOk n p with
        | some size => if leafFramed (s.pkg pkg) size p then .leaf (va / size * size) size p else .hole
        | none => .bad
      else if pointerOk p then walkFrom s pkg va n (ptePpn p * 4096) else .bad

/-- The address of the leaf entry that a walk ends at, where it ends at one. -/
def leafAddr (s : State) (pkg va : Nat) : Nat → Nat → Option (Nat × Nat)
  | 0, _ => none
  | n + 1, tbl =>
    let a := pteAddr tbl n va
    let p := readPte s pkg va n a
    if !pteBit p 0 then none
    else if pteBit p 1 || pteBit p 2 || pteBit p 3 then some (n, a)
    else leafAddr s pkg va n (ptePpn p * 4096)

/-- The pointer entries a walk passes, which the walker keeps (R52). -/
def walkPointers (s : State) (pkg va : Nat) : Nat → Nat → List (Nat × DWord)
  | 0, _ => []
  | n + 1, tbl =>
    let a := pteAddr tbl n va
    let p := readPte s pkg va n a
    if pteBit p 0 && !(pteBit p 1 || pteBit p 2 || pteBit p 3) && pointerOk p then
      (a, p) :: walkPointers s pkg va n (ptePpn p * 4096)
    else []

/-- The table's own answer for an address. -/
def walkTable (s : State) (ctx va : Nat) : Walk := walkFrom s (vaPkg va) va 5 (s.ctx ctx).root

/-- Every covering entry of the page at `va` changed by `f` (R49, R53): the entries of a contiguous page are consecutive. -/
def updLeaves (s : State) (ctx va : Nat) (f : DWord → DWord) : State :=
  let pkg := vaPkg va
  match leafAddr s pkg va 5 (s.ctx ctx).root with
  | none => s
  | some (level, a) =>
    let p := BitVec.ofNat 64 (physLE s (physKey pkg a) 8)
    let n := ((leafSize level p).getD (2 ^ (12 + 9 * level))) / 2 ^ (12 + 9 * level)
    let first := a / (8 * n) * (8 * n)
    (List.range n).foldl (fun s k =>
      let w := physKey pkg (first + 8 * k)
      physPut s w 8 (f (BitVec.ofNat 64 (physLE s w 8))).toNat) s

/-! ### The owner's TLB (R52) -/

def tlbFind (s : State) (ctx va : Nat) : Option TlbEntry :=
  (s.tower (vaTower va)).tlb.find? fun e => e.ctx == ctx && e.page ≤ va && va < e.page + e.size

/-- A held translation says what the table says, A and D apart. -/
def TlbEntry.agrees (e : TlbEntry) (w : Walk) : Bool :=
  match w with
  | .leaf page size p => e.page == page && e.size == size && (e.leaf ||| 0xC0) == (p ||| 0xC0)
  | _ => false

/-- The leaf that the owner uses for an access to a line: every field of it is the cached translation's or the table's, a free choice for
each access where they differ (R50, R52, R61). -/
def walk (s : State) (ctx va : Nat) : Walk :=
  let t := walkTable s ctx va
  match tlbFind s ctx va with
  | some e => if e.agrees t || !Config.freeBool (s.freeIx + va / 256) then t else .leaf e.page e.size e.leaf
  | none => t

def Walk.pte : Walk → Option DWord
  | .leaf _ _ p => some p | _ => none

/-- Translation `e` enters the TLB of 32768 entries; the oldest leaves (DESIGN CHOICE, log 76). -/
def tlbPut (s : State) (va : Nat) (e : TlbEntry) : State :=
  s.updTower (vaTower va) fun t =>
    { t with tlb := (e :: t.tlb.filter fun o => o.ctx != e.ctx || o.page != e.page).take 32768 }

def tlbDrop (s : State) (ctx va size : Nat) : State :=
  s.updTower (vaTower va) fun t =>
    { t with
      tlb := t.tlb.filter fun o => o.ctx != ctx || o.page + o.size ≤ va || va + size ≤ o.page
      walks := [] }

/-! ### User addresses (R46) -/

/-- The address names a home in the domain (R46). -/
def userAddr (s : State) (va : Nat) : Bool := va < 2 ^ 56 && vaPkg va < s.npkgs

/-! ### Procedural frames (R64, R67) -/

def rangeOf (c : Ctx) (va : Nat) : Option (Nat × PRange) :=
  c.ranges.find? fun e => e.2.base ≤ va && va < e.2.base + e.2.size

def blockBase (r : PRange) (va : Nat) : Nat := r.base + (va - r.base) / r.bsz * r.bsz

def blockOf (c : Ctx) (va : Nat) : Option (Nat × PRange × Nat) :=
  (rangeOf c va).map fun e => (e.1, e.2, blockBase e.2 va)

/-- R69: an unlisted block is UNFILLED. -/
def PBlock.none : PBlock := ⟨.unfilled, 0, Option.none, 0, 0, [], []⟩
def Ctx.block (c : Ctx) (b : Nat) : PBlock := Tbl.findD c.blocks b PBlock.none
def setBlock (s : State) (ctx b : Nat) (x : PBlock) : State := s.updCtx ctx fun c => { c with blocks := Tbl.put c.blocks b x }

/-- The physical byte behind an address under a leaf; none where a procedural block holds no frame. -/
def frameKey (s : State) (ctx va : Nat) : Walk → Option Nat
  | .leaf _ size p =>
    if pteProc p then
      match blockOf (s.ctx ctx) va with
      | some (_, _, b) =>
        let x := (s.ctx ctx).block b
        if x.st = .filled ∨ x.st = .filling then some (x.frame + (va - b)) else none
      | none => none
    else some (physKey (vaPkg va) (leafFrame size p + va % size))
  | _ => none

/-! ### Clearance (R54 to R57) -/

/-- R54, R48: the leaf allows the right. -/
def leafAllows (r : Right) (p : DWord) : Bool :=
  match r with
  | .read => pteBit p 1
  | .write => pteBit p 2
  | .exec => pteBit p 3

/-- The walk behind an answer to a scheduler or a host: the table is walked anew before the answer is a fault (R53). -/
def freshWalk (s : State) (ctx va : Nat) (r : Right) : Walk :=
  match walk s ctx va with
  | .leaf page size p => if leafAllows r p && !pteProc p then .leaf page size p else walkTable s ctx va
  | _ => walkTable s ctx va

/-- A grant or an entry of one right serves another (R56). -/
def rightCovers (have_ need : Right) : Bool := have_ == need || (have_ == .write && need == .read)

def clrHit (c : Core) (ctx va : Nat) (r : Right) : Bool :=
  c.clr.any fun e => e.ctx == ctx && e.page ≤ va && va < e.page + e.size && rightCovers e.r r

/-- A grant enters the core's cache of 8, most recently used first (R56). -/
def clrPut (c : Core) (e : ClrEntry) : Core :=
  { c with clr := (e :: c.clr.filter fun o => o != e).take 8 }

/-- Where a request for a 4 KiB granule stands for its asker. -/
inductive Cleared where
  | yes
  | nonResident
  | refused (code : Nat)
  | ask
  deriving DecidableEq, Repr

/-- Which answer of a list covers a granule. -/
def answerFor (as : List Answer) (va : Nat) (r : Right) : Cleared :=
  match as.find? fun a => match a with
    | .grant page size h _ => page ≤ va && va < page + size && rightCovers h r
    | .nonResident page => page / 4096 == va / 4096
    | .refused page size _ => page ≤ va && va < page + size
    | _ => false with
  | some (.grant _ _ _ _) => .yes
  | some (.nonResident _) => .nonResident
  | some (.refused _ _ code) => .refused code
  | _ => .ask

/-- A page's home is at a vacant index (R372). -/
def vacantAt (s : State) (va : Nat) : Bool := (s.pkg (vaPkg va)).vacant

/-- A granule's clearance for an access by a crew on a core holding these answers (R46, R54, R56). While an index is vacant the core asks even
where it holds a grant, so that every access parks at its clearance (R372; DESIGN CHOICE, log 90). -/
def clearedFor (s : State) (core ctx : Nat) (as : List Answer) (va : Nat) (r : Right) : Cleared :=
  if !userAddr s va then .refused (protCode r)
  else
    match answerFor as va r with
    | .ask => if clrHit (s.core core) ctx va r && !vacantAt s va then .yes else .ask
    | c => c

/-- The 4 KiB granule of an address refused: all that a walk without a leaf says. -/
def refuseGranule (va : Nat) (r : Right) : Answer := .refused (va / 4096 * 4096) 4096 (protCode r)

/-- How the owner answers a request that it has walked the table for (R53, R67, R74). `gen` is the asking crew's generator identity. -/
def ownerAnswer (s : State) (ctx va : Nat) (r : Right) (gen : Option GenInfo) : Answer :=
  match walkTable s ctx va with
  | .nonResident => .nonResident va
  | .bad => refuseGranule va r
  | .hole => refuseGranule va r
  | .leaf page size p =>
    if pteProc p then
      match blockOf (s.ctx ctx) va with
      | none => refuseGranule va r
      | some (_, rg, b) =>
        match r with
        | .read => .grant page size .read false
        | .exec => .refused page size cProtExec
        | .write =>
          match gen with
          | some g => if g.open_ ∧ g.block = b ∧ ((s.ctx ctx).block b).st = .filling then
              .grant (max page b) (min (page + size) (b + rg.bsz) - max page b) .write true
            else refuseGranule va .write
          | none => .refused page size cProtWrite
    else if leafAllows r p then .grant page size r false
    else .refused page size (protCode r)

/-- The address that a request names: the page's base, or the granule where the generator's window may cover a part of a page (R74) and where
the leaf at the base is another than the granule's own (R50). -/
def askBase (s : State) (ctx va : Nat) (r : Right) : Nat :=
  match walkTable s ctx va with
  | .leaf page size p =>
    if (pteProc p && r == .write) || walkTable s ctx page != .leaf page size p then va / 4096 * 4096 else page
  | _ => va / 4096 * 4096

/-- A request parks on the vacant index of a page. -/
def addVacant (s : State) (a : VacantAsk) (pkg va : Nat) : State :=
  { s.fresh with vacantReqs := Tbl.put s.vacantReqs s.nextId ⟨a, pkg, vaPkg va, (s.pkg pkg).devTime.toNat⟩ }

/-- The same, for one that may have parked there already. -/
def parkVacant (s : State) (a : VacantAsk) (pkg va : Nat) : State :=
  if s.vacantReqs.any fun e => e.2.ask == a then s else addVacant s a pkg va

/-- A downgrade in progress parks the request (R62): every right but a READ that the change keeps. -/
def closingFor (s : State) (ctx va : Nat) (r : Right) : Bool :=
  s.downgrades.any fun e => e.2.ctx == ctx && e.2.leaf.isSome && e.2.va ≤ va && va < e.2.va + e.2.size && !(r == .read && e.2.keep)

/-- A is set on the first grant of any right, D on the first of WRITE (R53). -/
def setAD (s : State) (ctx va : Nat) (a : Answer) : State :=
  match a with
  | .grant _ _ r _ => updLeaves s ctx va fun p => p ||| 0x40 ||| (if r == .write then 0x80 else 0)
  | _ => s

/-- What a walk that ends at a leaf leaves with the owner (R52, R53). -/
def tlbFill (s : State) (ctx va : Nat) : State :=
  match walkTable s ctx va with
  | .leaf page size p =>
    let ptrs := walkPointers s (vaPkg va) va 5 (s.ctx ctx).root
    (tlbPut s va ⟨ctx, page, size, p⟩).updTower (vaTower va) fun t =>
      { t with walks := ptrs.foldl (fun w e => Tbl.put w e.1 e.2) t.walks }
  | _ => s

end Sys2Proof.Machine
end

