-- ==== Sys2Proof/Machine/Cache.lean ====
section
/-! DEFINITION. Where the bytes of a global location are: the LLC home slice, an L2 or mapped stash copy, a write-back under way, the
frame (R35, R36, R90, R126, R208). Every read and write of global memory goes through `readLoc` and `writeLoc`. -/

namespace Sys2Proof.Machine

def lineKey (ctx line : Nat) : Nat := ctx * 2 ^ 49 + line
def l2Key (cl ctx line : Nat) : Nat := cl * 2 ^ 57 + lineKey ctx line
def llcAddr (ctx va : Nat) : Nat := ctx * 2 ^ 57 + va
def l2Addr (cl ctx va : Nat) : Nat := cl * 2 ^ 65 + llcAddr ctx va

/-- The sector of a line that a byte lies in (R89). -/
def sectorOf (va : Nat) : Nat := va / 128 % 2

/-! ### Banks (R39) and the hot-page count (R40) -/

def l2Bank (cl va : Nat) : Nat := cl * 8 + va / 256 % 8
/-- An LLC slice is taken as one bank (DESIGN CHOICE, log 74). -/
def llcBank (va : Nat) : Nat := 2 ^ 20 + vaTower va * 64 + homeSlice va

/-- The slice that a bank belongs to: eight banks of an L2 slice, or an LLC slice. -/
def bankSlice (bank : Nat) : Nat := if bank < 2 ^ 20 then bank / 8 else bank

/-- An access to a bank. A sleeping bank wakes, one of a slice in a clock, and stays awake for 4096 clocks. -/
def touchBank (s : State) (pkg bank : Nat) : State :=
  let now := (s.pkg pkg).clock
  match Tbl.find s.banks bank with
  | some (_, true, _) =>
    let at_ := match Tbl.find s.bankClock (bankSlice bank) with
      | some c => max now (c + 1)
      | none => now
    { s with
      banks := Tbl.put s.banks bank (at_, false, at_ + 4096)
      bankClock := Tbl.put s.bankClock (bankSlice bank) at_ }
  | some (_, false, u) => { s with banks := Tbl.put s.banks bank (now, false, u) }
  | none => { s with banks := Tbl.put s.banks bank (now, false, 0) }

/-- The banks of `n` bytes of a span's scratch: they lie in ways of the cluster's L2 slice, 256 bytes to a bank as its lines do (DESIGN CHOICE,
log 74). -/
def touchScratch (s : State) (sp off n : Nat) : State :=
  let cl := (s.span sp).cluster
  let lines := (List.range ((off + n + 255) / 256 - off / 256)).map fun k => (off / 256 + k) % 8
  if n = 0 then s else lines.dedup.foldl (fun s b => touchBank s (cl / 64) (cl * 8 + b)) s

/-- The page may move into the owner's stacks (R40). -/
def movable (p : Walk) : Bool :=
  match p with
  | .leaf _ size e => size ≤ 2 ^ 21 && pteHot e && !pteProc e && ptePbmt e != 2 && 2 ^ 42 ≤ leafFrame size e
  | _ => false

/-- One line access to a page of the expansion tier; the count starts again after 2^20 clocks. -/
def countHot (s : State) (ctx va : Nat) : State :=
  match walk s ctx va with
  | .leaf page size e =>
    if movable (.leaf page size e) then
      let now := (s.pkg (vaPkg va)).clock
      let k := ctx * 2 ^ 57 + page
      let c := match Tbl.find s.migCounts k with
        | some (n, t0) => if now ≤ t0 + 2 ^ 20 then (n + 1, t0) else (1, now)
        | none => (1, now)
      { s with migCounts := Tbl.put s.migCounts k c }
    else s
  | _ => s

/-! ### Copies -/

/-- The L2 slices that hold a line. -/
def l2Holders (s : State) (ctx line : Nat) : List (Nat × L2Line) :=
  (s.l2.filter fun e => e.1 % 2 ^ 57 == lineKey ctx line).map fun e => (e.1 / 2 ^ 57, e.2)

/-- The mapped tiles that stand for an address: crew, tile, byte in the tile (R125). -/
def stashAt (s : State) (ctx va : Nat) : List (Nat × Nat × Nat) :=
  (s.crews.filter fun e => e.2.ctx == ctx && !e.2.ended).flatMap fun e =>
    (e.2.maps.filter fun m => m.base ≤ va && va < m.base + 1024 * m.n).map fun m =>
      (e.1, m.t0 + (va - m.base) / 1024, (va - m.base) % 1024)

def tagOf (s : State) (crew t : Nat) : Tag := Tbl.findD (s.crew crew).tags t Tag.init
def setTag (s : State) (crew t : Nat) (x : Tag) : State := s.updCrew crew fun c => { c with tags := Tbl.put c.tags t x }
def stashKey (crew tile b : Nat) : Nat := crew * 2 ^ 19 + 1024 * tile + b

/-- A copy above the home that is newer than it. -/
def dirtyCopy (s : State) (ctx va : Nat) : Option Byte :=
  match (l2Holders s ctx (va / 256)).find? fun e => e.2.dirty.getLsbD (sectorOf va) with
  | some (cl, _) => some (Mem.read s.l2Data (l2Addr cl ctx va))
  | none =>
    match (stashAt s ctx va).find? fun e => (tagOf s e.1 e.2.1).sd.getLsbD (e.2.2 / 128) with
    | some (crew, t, b) => some (Mem.read s.stash (stashKey crew t b))
    | none =>
      match s.writeBacks.find? fun e => e.2.ctx == ctx && e.2.bytes.any fun b => b.1 == va with
      | some (_, w) => (w.bytes.find? fun b => b.1 == va).map Prod.snd
      | none => none

def llcHas (s : State) (ctx line : Nat) : Bool := (Tbl.find s.llc (lineKey ctx line)).isSome

/-- A page marked PBMT IO: cached nowhere, every access at the frame, whatever lines an earlier mapping left (R35). -/
def ioWalk (w : Walk) : Bool := (w.pte.map fun p => ptePbmt p == 2).getD false

def frameByte (s : State) (ctx va : Nat) (w : Walk) : Byte :=
  match frameKey s ctx va w with
  | some k => physRead s k
  | none => 0

/-- The home's own value: the LLC line, or the frame. -/
def homeByte (s : State) (ctx va : Nat) : Byte :=
  if llcHas s ctx (va / 256) then Mem.read s.llcData (llcAddr ctx va) else frameByte s ctx va (walk s ctx va)

/-- The value of a location (R208, R209). -/
def curByte (s : State) (ctx va : Nat) : Byte :=
  if ioWalk (walk s ctx va) then frameByte s ctx va (walk s ctx va) else (dirtyCopy s ctx va).getD (homeByte s ctx va)

def curBytes (s : State) (ctx va n : Nat) : List Byte := (List.range n).map fun k => curByte s ctx (va + k)
def curLE (s : State) (ctx va n : Nat) : Nat := bytesNat (curBytes s ctx va n)

/-- The frame of a byte is poisoned (R44, R245). -/
def poisoned (s : State) (ctx va : Nat) : Bool :=
  match frameKey s ctx va (walk s ctx va) with
  | some k => (dirtyCopy s ctx va).isNone && s.poison.contains (physLine s k)
  | none => false

/-- A line's bytes in its frame. -/
def frameLine (s : State) (ctx line : Nat) : List Byte :=
  match frameKey s ctx (256 * line) (walk s ctx (256 * line)) with
  | some k => (List.range 256).map fun j => physRead s (k + j)
  | none => List.replicate 256 0

/-- The pull that a frame read of a migrating page makes (R43). -/
def pullFor (s : State) (ctx va : Nat) : State :=
  match frameKey s ctx va (walk s ctx va) with
  | some k => framePull s k
  | none => s

/-- The home takes a line from its frame (R36, R43). -/
def fillLlc (s : State) (ctx line : Nat) : State :=
  if llcHas s ctx line then s
  else
    let s1 := busUnit (pullFor s ctx (256 * line)) 4 (256 * line) 5
    { s1 with
      llc := Tbl.put s1.llc (lineKey ctx line) ⟨false⟩
      llcData := Mem.writeN s1.llcData (llcAddr ctx (256 * line)) (frameLine s1 ctx line) }

/-- Bytes accepted at the home: the line is dirty (R35). A page with no leaf takes none: they are dropped (R224). -/
def acceptBytes (s : State) (ctx line : Nat) (bytes : List (Nat × Byte)) : State × Bool :=
  match walk s ctx (256 * line) with
  | .leaf _ _ _ =>
    let s1 := touchBank (fillLlc s ctx line) (vaPkg (256 * line)) (llcBank (256 * line))
    ({ s1 with
      llc := Tbl.put s1.llc (lineKey ctx line) ⟨true⟩
      llcData := bytes.foldl (fun m b => Mem.write m (llcAddr ctx b.1) b.2) s1.llcData }, true)
  | _ => (s, false)

/-- A dropped line of the crew counts for a slice that stands at a wide release (R224). -/
def noteLost (base : Nat) (x : Slice) : Slice :=
  if (x.relIn || x.park == .before (.performed true)) && !x.lost.contains base then { x with lost := x.lost ++ [base] } else x

/-- Bytes from a crew's mapped tile reach the home, or are dropped there and noted for its releases (R224). -/
def acceptFrom (s : State) (crew : Option Nat) (ctx line : Nat) (bytes : List (Nat × Byte)) : State :=
  let (s1, ok) := acceptBytes s ctx line bytes
  if ok then s1
  else { s1 with slices := s1.slices.map fun e => if crew == some e.2.crew then (e.1, noteLost (256 * line) e.2) else e }

/-- One write-back arrives (R35); one that finds no page is dropped (R224). -/
def arriveWriteBack (s : State) (k : Nat) : State :=
  match Tbl.find s.writeBacks k with
  | none => s
  | some w =>
    acceptFrom { s with writeBacks := Tbl.del s.writeBacks k } w.crew w.ctx w.line w.bytes

/-- The bytes of a sector as they stand at a holder. -/
def sectorBytes (f : Nat → Nat) (m : Mem) (va0 : Nat) : List (Nat × Byte) :=
  (List.range 128).map fun k => (va0 + k, Mem.read m (f (va0 + k)))

/-- An L2 copy gives up its dirty sectors and goes: recalled by its home, or as the victim of its own set. -/
def dropL2 (recalled : Bool) (s : State) (cl ctx line : Nat) : State :=
  match Tbl.find s.l2 (l2Key cl ctx line) with
  | none => s
  | some x =>
    let dirty := [0, 1].filter fun k => x.dirty.getLsbD k
    let bytes := dirty.flatMap fun k => sectorBytes (l2Addr cl ctx) s.l2Data (256 * line + 128 * k)
    let sent := if recalled then recallPackets s cl (256 * line) dirty.length
      else if dirty.isEmpty then s else sendHome s cl 0 (256 * line) (1 + 2 * dirty.length)
    let s0 := touchBank sent (cl / 64) (l2Bank cl (256 * line))
    let s1 := { s0 with
      l2 := Tbl.del s.l2 (l2Key cl ctx line)
      l2Data := Mem.clear s.l2Data (l2Addr cl ctx (256 * line)) 256 }
    if bytes.isEmpty then s1 else (acceptBytes s1 ctx line bytes).1

def recallL2 (s : State) (cl ctx line : Nat) : State := dropL2 true s cl ctx line
def evictL2 (s : State) (cl ctx line : Nat) : State := dropL2 false s cl ctx line

/-- A mapped tile gives up its dirty sectors of a line and holds the line no more (R127). -/
def recallStash (s : State) (crew ctx line : Nat) : State :=
  [0, 1].foldl (fun s k =>
    let va0 := 256 * line + 128 * k
    ((stashAt s ctx va0).filter fun e => e.1 == crew).foldl (fun s e =>
      let tag := tagOf s crew e.2.1
      let sec := e.2.2 / 128
      let mask := ~~~(BitVec.twoPow 8 sec)
      let bytes := (List.range 128).map fun b => (va0 + b, Mem.read s.stash (stashKey crew e.2.1 (e.2.2 + b)))
      let s0 := recallPackets s (coreCluster (s.crew crew).core) va0 (if tag.sd.getLsbD sec then 1 else 0)
      let s1 := setTag s0 crew e.2.1 { tag with sv := tag.sv &&& mask, sd := tag.sd &&& mask }
      if tag.sd.getLsbD sec then acceptFrom s1 (some crew) ctx line bytes else s1) s) s

/-- Every copy above the home is recalled but the ones named (R35). -/
def recallLine (s : State) (ctx line : Nat) (keepCl keepCrew : Option Nat) : State :=
  let wbs := (s.writeBacks.filter fun e => e.2.ctx == ctx && e.2.line == line).map Prod.fst
  let s1 := wbs.foldl arriveWriteBack s
  let s2 := ((l2Holders s1 ctx line).filter fun e => some e.1 != keepCl).foldl (fun s e => recallL2 s e.1 ctx line) s1
  let crews := ((stashAt s2 ctx (256 * line)).map Prod.fst).filter fun c => some c != keepCrew
  crews.foldl (fun s c => recallStash s c ctx line) s2

/-- Every copy above the home goes without write-back (R75): each cluster that holds one is told in class 3 and acknowledges (R82). -/
def discardAbove (s : State) (ctx line : Nat) : State :=
  let tiles := ([0, 1].flatMap fun k => stashAt s ctx (256 * line + 128 * k)).filter fun e =>
    ((tagOf s e.1 e.2.1).sv ||| (tagOf s e.1 e.2.1).sd).getLsbD (e.2.2 / 128)
  let cls := (((l2Holders s ctx line).map Prod.fst) ++ tiles.map fun e => coreCluster (s.crew e.1).core).dedup
  let s0 := cls.foldl (fun s cl => recallPackets s cl (256 * line) 0) s
  let s1 := { s0 with
    writeBacks := s.writeBacks.filter fun e => e.2.ctx != ctx || e.2.line != line
    l2Data := (l2Holders s ctx line).foldl (fun m e => Mem.clear m (l2Addr e.1 ctx (256 * line)) 256) s.l2Data
    l2 := s.l2.filter fun e => e.1 % 2 ^ 57 != lineKey ctx line }
  ([0, 1].flatMap fun k => stashAt s1 ctx (256 * line + 128 * k)).foldl (fun s e =>
    let tag := tagOf s e.1 e.2.1
    let mask := ~~~(BitVec.twoPow 8 (e.2.2 / 128))
    setTag s e.1 e.2.1 { tag with sv := tag.sv &&& mask, sd := tag.sd &&& mask }) s1

def dropLlc (s : State) (ctx line : Nat) : State :=
  { s with
    llc := Tbl.del s.llc (lineKey ctx line)
    llcData := Mem.clear s.llcData (llcAddr ctx (256 * line)) 256 }

def discardLine (s : State) (ctx line : Nat) : State := dropLlc (discardAbove s ctx line) ctx line

/-- A whole line reaches its frame: a migrating page takes it at the new frame without a pull (R43). -/
def physWriteLine (s : State) (k : Nat) (bytes : List Byte) : State :=
  match migAt s k with
  | none => { s with mem := Mem.writeN s.mem k bytes, poison := s.poison.filter (· != k / 256) }
  | some (n, m, off) =>
    let line := off / 256
    { s with
      mem := Mem.writeN s.mem (m.new + 256 * line) bytes
      poison := s.poison.filter (· != m.new / 256 + line)
      migs := Tbl.put s.migs n
        { m with valid := if m.valid.contains line then m.valid else m.valid ++ [line], pull := m.pull.filter (· != line) } }

/-- A dirty LLC line is written back to its frame and is clean (R36). -/
def cleanLlc (s : State) (ctx line : Nat) : State :=
  match Tbl.find s.llc (lineKey ctx line) with
  | some ⟨true⟩ =>
    let s1 := { s with llc := Tbl.put s.llc (lineKey ctx line) ⟨false⟩ }
    match frameKey s ctx (256 * line) (walk s ctx (256 * line)) with
    | some k => physWriteLine (touchBank (busUnit s1 4 (256 * line) 5) (vaPkg (256 * line)) (llcBank (256 * line))) k
      (Mem.readN s.llcData (llcAddr ctx (256 * line)) 256)
    | none => s1
  | _ => s

/-- The home evicts a line: copies first, then the frame (R35, R36). -/
def evictLlc (s : State) (ctx line : Nat) : State :=
  dropLlc (cleanLlc (recallLine s ctx line none none) ctx line) ctx line

/-- The lines that an LLC slice holds beside one that comes: those of its home slice. -/
def inHome (s : State) (line : Nat) : List Nat :=
  (s.llc.map Prod.fst).filter fun k =>
    vaTower (256 * (k % 2 ^ 49)) == vaTower (256 * line) && homeSlice (256 * (k % 2 ^ 49)) == homeSlice (256 * line)

/-- Those of its set: 16 MiB of 16 ways make 4096 sets (R34); which set a line lies in is open. -/
def inSet (s : State) (ctx line : Nat) : List Nat :=
  (inHome s line).filter fun k => Config.llcSet k % 4096 == Config.llcSet (lineKey ctx line) % 4096

/-- Room for a line at its home: a full set gives up one of its 16 lines, a free choice (R34, R35: pseudo-LRU). -/
def roomLlc (s : State) (ctx line : Nat) : State :=
  if llcHas s ctx line || (inHome s line).length < 16 then s
  else
    let set := inSet s ctx line
    if set.length < 16 then s
    else
      match set[Config.freeNat s.freeIx % set.length]? with
      | some k => evictLlc s (k / 2 ^ 49) (k % 2 ^ 49)
      | none => s

/-- An access that reaches the home slice: its bank, and the count of R40. -/
def homeAccess (s : State) (ctx line : Nat) : State :=
  countHot (touchBank s (vaPkg (256 * line)) (llcBank (256 * line))) ctx (256 * line)

/-- The line is present at its home. -/
def atHome (s : State) (ctx line : Nat) : State := homeAccess (fillLlc (roomLlc s ctx line) ctx line) ctx line

/-! ### Places of performance (R36, R90, R208, R317) -/

/-- Where an access is performed: in the cluster's L2, at the home slice, or at the frame (PBMT IO). -/
inductive Place where
  | l2
  | home
  | frame
  deriving DecidableEq, Repr

/-- Scratch ways of a WAYS code (R91). -/
def waysOf (code : Nat) : Nat := [0, 2, 4, 8].getD code 0

/-- Room in an L2 set (R89, R90): when its cache ways are full a victim goes: a line that `stream` left in the least-recently-used position,
else a free choice among the lines that `keep` does not protect (among all where it protects all: DESIGN CHOICE, log 78); each choice uses up one of the
eight that a kept line is protected from. -/
def roomL2 (s : State) (cl va : Nat) : State :=
  let set := va / 256 % 4096
  let inSet := s.l2.filter fun e => e.1 / 2 ^ 57 == cl && e.1 % 4096 == set
  if inSet.length < 16 - waysOf (s.cluster cl).ways then s
  else
    let free := inSet.filter fun e => e.2.prot == 0
    let old := free.filter fun e => e.2.lru
    let cand := if !old.isEmpty then old else if free.isEmpty then inSet else free
    let s1 := { s with l2 := inSet.foldl (fun t e => Tbl.put t e.1 { e.2 with prot := e.2.prot - 1 }) s.l2 }
    match cand[Config.freeNat s.freeIx % (cand.length + 1)]? with
    | some (k, _) => evictL2 s1 cl (k % 2 ^ 57 / 2 ^ 49) (k % 2 ^ 49)
    | none =>
      match cand with
      | (k, _) :: _ => evictL2 s1 cl (k % 2 ^ 57 / 2 ^ 49) (k % 2 ^ 49)
      | [] => s1

/-- A line enters an L2 with a cache hint: `stream` (1) in the least-recently-used position, `keep` (2) protected (R90). -/
def newL2 (ch : Nat) : L2Line := ⟨0, 0, false, if ch = 2 then 8 else 0, ch == 1⟩

/-- A mapped tile holds a sector of a line. -/
def tileHolds (s : State) (ctx line : Nat) : Bool :=
  [0, 1].any fun k => (stashAt s ctx (256 * line + 128 * k)).any fun e =>
    ((tagOf s e.1 e.2.1).sv ||| (tagOf s e.1 e.2.1).sd).getLsbD (e.2.2 / 128)

/-- A copy above the home, or a write-back on its way there, may be newer than the home: an L2 or a mapped tile has the line exclusively. -/
def lineOwned (s : State) (ctx line : Nat) : Bool :=
  (l2Holders s ctx line).any (fun e => e.2.excl || e.2.dirty != 0) ||
    s.writeBacks.any (fun e => e.2.ctx == ctx && e.2.line == line) ||
    [0, 1].any fun k => (stashAt s ctx (256 * line + 128 * k)).any fun e => (tagOf s e.1 e.2.1).sd.getLsbD (e.2.2 / 128)

/-- A read's effect on the caches under a cache hint; the value is `curByte`'s. A read in the L2 fetches the missing sector; `bypass` (3)
does not allocate. -/
def cacheRead (s : State) (pl : Place) (cl ctx va ch : Nat) : State :=
  let line := va / 256
  match pl with
  | .frame => pullFor s ctx va
  | .home => atHome (recallLine s ctx line none none) ctx line
  | .l2 =>
    let s0 := touchBank s (cl / 64) (l2Bank cl va)
    match Tbl.find s0.l2 (l2Key cl ctx line) with
    | some x =>
      let y := { x with lru := false, valid := x.valid ||| BitVec.twoPow 2 (sectorOf va) }
      let s1 := if x.valid.getLsbD (sectorOf va) then s0 else atHome s0 ctx line
      { s1 with l2 := Tbl.put s1.l2 (l2Key cl ctx line) y }
    | none =>
      let s1 := atHome (if lineOwned s0 ctx line then recallLine s0 ctx line none none else s0) ctx line
      if ch != 3 then
        let s2 := roomL2 s1 cl va
        { s2 with l2 := Tbl.put s2.l2 (l2Key cl ctx line) { newL2 ch with valid := BitVec.twoPow 2 (sectorOf va) } }
      else s1

/-- The L2 obtains a line exclusively, with the sector of a byte (R90): at the home, unless it has both and no mapped tile holds a copy that was
filled from it (R126). -/
def exclL2 (s : State) (cl ctx va ch : Nat) : State :=
  let line := va / 256
  let s0 := touchBank s (cl / 64) (l2Bank cl va)
  let have_ := ((Tbl.find s0.l2 (l2Key cl ctx line)).map fun x => x.excl && x.valid.getLsbD (sectorOf va) && !tileHolds s0 ctx line).getD false
  let s1 := if have_ then s0 else atHome (recallLine s0 ctx line (some cl) none) ctx line
  let s2 := if (Tbl.find s1.l2 (l2Key cl ctx line)).isSome then s1 else roomL2 s1 cl va
  let x := Tbl.findD s2.l2 (l2Key cl ctx line) (newL2 ch)
  { s2 with
    l2 := Tbl.put s2.l2 (l2Key cl ctx line)
      { x with valid := x.valid ||| BitVec.twoPow 2 (sectorOf va), excl := true, lru := x.lru && x.valid == 0 } }

/-- The L2 obtains a line exclusively and holds the sector of a byte dirty (R90). -/
def ownL2 (s : State) (cl ctx va ch : Nat) : State :=
  let line := va / 256
  let s1 := exclL2 s cl ctx va ch
  let x := Tbl.findD s1.l2 (l2Key cl ctx line) (newL2 ch)
  let sec := sectorOf va
  let va0 := va / 128 * 128
  let data := if x.dirty.getLsbD sec then s1.l2Data
    else Mem.writeN s1.l2Data (l2Addr cl ctx va0) ((List.range 128).map fun k => homeByte s1 ctx (va0 + k))
  { s1 with
    l2 := Tbl.put s1.l2 (l2Key cl ctx line) { x with dirty := x.dirty ||| BitVec.twoPow 2 sec }
    l2Data := data }

/-- Bytes are stored at a place under a cache hint; they lie in one sector. -/
def writeLoc (s : State) (pl : Place) (cl ctx va : Nat) (bytes : List Byte) (ch : Nat) : State :=
  let line := va / 256
  match pl with
  | .frame =>
    match frameKey s ctx va (walk s ctx va) with
    | some k => (bytes.zipIdx).foldl (fun s e => physWrite s (k + e.2) e.1) s
    | none => s
  | .home =>
    let s1 := atHome (recallLine s ctx line none none) ctx line
    (acceptBytes s1 ctx line ((bytes.zipIdx).map fun e => (va + e.2, e.1))).1
  | .l2 =>
    let s1 := ownL2 s cl ctx va ch
    { s1 with l2Data := Mem.writeN s1.l2Data (l2Addr cl ctx va) bytes }

/-- A place obtains a line for an atomic that writes nothing (R36, R90, R318). -/
def obtainLoc (s : State) (pl : Place) (cl ctx va ch : Nat) : State :=
  match pl with
  | .l2 => exclL2 s cl ctx va ch
  | _ => cacheRead s pl cl ctx va ch

/-- A value of `n` bytes written at the home, as engines and schedulers write (R208). -/
def putHome (s : State) (ctx va n v : Nat) : State :=
  match walk s ctx va with
  | .leaf _ _ p => writeLoc s (if ptePbmt p = 2 then .frame else .home) 0 ctx va (natBytes n v) 0
  | _ => s

/-- Where a page's accesses are performed: at the frame for IO, at the home for NC and STRONG pages and where `home` says so, else in the
L2 (R35, R90, R317). -/
def placeFor (p : Option DWord) (home : Bool) : Place :=
  match p with
  | none => .home
  | some e => if ptePbmt e = 2 then .frame else if pteAtHome e || home then .home else .l2

/-- What an access does to its location, as far as its place asks. -/
inductive Use where
  | read
  | write
  /-- ATOM, CAS and RED (R317) -/
  | rmw
  deriving DecidableEq, Repr

/-- The stores of the Keystone engine are performed at their homes (R202): a hint of the model's, which no instruction carries. -/
def hintEngine : Nat := 5

/-- A cache hint that keeps the access at the home: `nostash` (4) where a mapped tile stands for the bytes, which it keeps from holding the
line (R257), being ordinary elsewhere (R90; DEDUCED, log 79); `bypass` (3) for an atomic (R317), and for a store to a line that the L2 does
not hold (R90). -/
def hintHome (s : State) (cl ctx va ch : Nat) (u : Use) : Bool :=
  ch == hintEngine || (ch == 4 && !(stashAt s ctx va).isEmpty) ||
    (ch == 3 && (u == .rmw || (u == .write && (Tbl.find s.l2 (l2Key cl ctx (va / 256))).isNone)))

/-- The sector is valid in the cluster's L2. -/
def inL2 (s : State) (cl ctx va : Nat) : Bool :=
  ((Tbl.find s.l2 (l2Key cl ctx (va / 256))).map fun e => e.valid.getLsbD (sectorOf va)).getD false

/-- The place of an access of a cluster to a byte, under a cache hint. -/
def placeAt (s : State) (cl ctx va ch : Nat) (u : Use) : Place := placeFor (walk s ctx va).pte (hintHome s cl ctx va ch u)

/-- A read at a place needs a request over Viaduct (R85): an uncached one, or a sector that the L2 does not hold. -/
def readEnters (s : State) (pl : Place) (cl ctx va : Nat) : Bool := pl != .l2 || !inL2 s cl ctx va

/-- A store or atomic does: an uncached one, or a sector that the L2 does not hold exclusively. -/
def storeEnters (s : State) (pl : Place) (cl ctx va : Nat) : Bool :=
  pl != .l2 || !(((Tbl.find s.l2 (l2Key cl ctx (va / 256))).map fun e => e.excl && e.valid.getLsbD (sectorOf va)).getD false)

/-- The request of a read of one sector. -/
def injectRead (s : State) (pl : Place) (core cls ctx va : Nat) : State :=
  if readEnters s pl (coreCluster core) ctx va then inject s core cls va 1 3 1 else s

/-- The request of a store or atomic with `n` data bytes in one sector: the sector comes to the L2, or the data goes to the home. -/
def injectStore (s : State) (pl : Place) (core cls ctx va n : Nat) : State :=
  if !storeEnters s pl (coreCluster core) ctx va then s
  else if pl = .l2 then inject s core cls va 1 3 1 else inject s core cls va (dataFlits n) 1 1

/-- What a read of `n` bytes at the homes does there, as schedulers and engines read (R36). -/
def readHome (s : State) (ctx va n : Nat) : State :=
  ((List.range n).map fun k => (va + k) / 256).dedup.foldl (fun s line =>
    match walk s ctx (256 * line) with
    | .leaf _ _ p => cacheRead s (if ptePbmt p = 2 then .frame else .home) 0 ctx (256 * line) 0
    | _ => s) s

end Sys2Proof.Machine
end

