-- ==== Sys2Proof/Machine/Access.lean ====
section
/-! DEFINITION. How a slice's access to global memory is cleared, parked, cut into parts and put under way (R54, R57, R58, R69, R211,
R212, R219, R223, R312). -/

namespace Sys2Proof.Machine

/-- One lane's access: its bytes. -/
structure LaneAcc where
  lane : Nat
  va   : Nat
  n    : Nat
  deriving DecidableEq, Repr

/-- R264: the address of a lane, modulo 2^64. -/
def laneAddr (c : Crew) (x : Slice) (imm : Word) (m : MemOp) (l : Nat) : Nat :=
  let ix := ((rd c x .u32 0 l m.index).setWidth 32).signExtend 64
  (rd c x .u64 0 l m.base + (ix <<< m.scale) + imm.signExtend 64).toNat

/-- R312: per lane when D, A or B names a vector operand. -/
def memVec (d : Opnd) (m : MemOp) : Bool := vecMode d [m.base, m.index] || d.isVec

/-- The first touched byte in each 4 KiB granule. -/
def granules (va n : Nat) : List Nat :=
  if va / 4096 = (va + n - 1) / 4096 then [va] else [va, (va + n - 1) / 4096 * 4096]

inductive LaneSt where
  | wait
  | ok
  | zero
  | fault (code addr : Nat) (info : DWord)
  deriving DecidableEq, Repr

def LaneSt.isWait : LaneSt → Bool
  | .wait => true | _ => false
def LaneSt.isFault : LaneSt → Bool
  | .fault _ _ _ => true | _ => false

/-- The parts of one lane together: the lower page first (R57); one non-resident page makes the lane zero (R58). -/
def joinSt (l : List LaneSt) : LaneSt :=
  if l.any LaneSt.isWait then .wait
  else match l.find? LaneSt.isFault with
    | some f => f
    | none => if l.any (· == .zero) then .zero else .ok

/-- Clearance of one lane. `zeroOk`: a non-resident page reads as zero (R58), else UNMAPPED. -/
def clrSt (s : State) (i : Nat) (r : Right) (zeroOk : Bool) (a : LaneAcc) : LaneSt :=
  joinSt ((granules a.va a.n).map fun g =>
    match clearedFor s (s.coreOf i) (s.ctxOf i) (s.sl i).answers g r with
    | .yes => .ok
    | .ask => .wait
    | .nonResident => if zeroOk then .zero else .fault cUnmapped g 0
    | .refused code => .fault code g 0)

/-- The page at an address is procedural. -/
def isProc (s : State) (ctx va : Nat) : Bool := ((walk s ctx va).pte.map pteProc).getD false

/-- The block of an address is FILLING: a copy in an L2 holds what its generator has written so far and serves no one's read (R69, R73). -/
def isFilling (s : State) (ctx va : Nat) : Bool :=
  ((blockOf (s.ctx ctx) va).map fun e => ((s.ctx ctx).block e.2.2).st == .filling).getD false

def coversBlock (a : Answer) (va : Nat) : Bool :=
  match a with
  | .filled b n _ => b ≤ va && va < b + n
  | .kept b n _ => b ≤ va && va < b + n
  | .failed b n _ _ => b ≤ va && va < b + n
  | _ => false

/-- A read's standing with the block's home (R69). -/
def fillSt (s : State) (i : Nat) (a : LaneAcc) : LaneSt :=
  joinSt ((granules a.va a.n).map fun g =>
    if !isProc s (s.ctxOf i) g || (inL2 s (coreCluster (s.coreOf i)) (s.ctxOf i) g && !isFilling s (s.ctxOf i) g) then .ok
    else match (s.sl i).answers.find? fun e => coversBlock e g with
      | some (.failed b _ code rec) => .fault code (if code == cGenFault then b else g) rec
      | some _ => .ok
      | none => .wait)

/-- The requests of the granules that have no answer yet, each page once. -/
def clrAsks (s : State) (i : Nat) (r : Right) (as : List LaneAcc) : List ClrReq :=
  let gs := (as.flatMap fun a => granules a.va a.n).filter fun g =>
    clearedFor s (s.coreOf i) (s.ctxOf i) (s.sl i).answers g r == .ask
  (gs.map fun g => askBase s (s.ctxOf i) g r).dedup.map fun g => ⟨.slice i, s.ctxOf i, g, r, none, false⟩

/-- The depth and chain that a crew's reads carry (R72). -/
def genDepth (c : Crew) : Nat × List Nat :=
  match c.gen with
  | some g => (g.depth, g.chain)
  | none => (0, [])

/-- The generator launches in whose service a crew reads: its own last. -/
def genAbove (c : Crew) : List Nat :=
  match c.gen with
  | some g => g.above ++ [c.launch]
  | none => []

def fillReq (s : State) (who : Asker) (crew ctx va : Nat) (pref : Bool) : FillReq :=
  let g := genDepth (s.crew crew)
  ⟨who, ctx, va, pref, if pref then 0 else g.1, if pref then [] else g.2, none, false, if pref then [] else genAbove (s.crew crew), false⟩

/-- The base of the procedural block that an address lies in, or the address. -/
def blockOrSelf (s : State) (ctx va : Nat) : Nat := ((blockOf (s.ctx ctx) va).map fun e => e.2.2).getD va

/-- Addresses with one of each procedural block: the first. -/
def oncePerBlock (s : State) (ctx : Nat) (gs : List Nat) : List Nat :=
  gs.foldl (fun l g => if l.any fun o => blockOrSelf s ctx o == blockOrSelf s ctx g then l else l ++ [g]) []

/-- The reads to present to procedural blocks' homes, each block once. -/
def fillAsks (s : State) (i : Nat) (as : List LaneAcc) : List FillReq :=
  let gs := (as.flatMap fun a => granules a.va a.n).filter fun g => fillSt s i ⟨0, g, 1⟩ == .wait
  (oncePerBlock s (s.ctxOf i) gs).map fun g => fillReq s (.slice i) (s.sl i).crew (s.ctxOf i) g false

/-- The trap of the lanes that fault (R57, R76): `once` says the access is the slice's. -/
def faultTrap (s : State) (i : Nat) (once : Bool) (l : List (Nat × LaneSt)) : Option TrapIn :=
  let c := s.crewOf i
  let x := s.sl i
  let bad := l.filter fun e => e.2.isFault
  match bad with
  | (lane, .fault code addr info) :: _ =>
    let m := if once then x.active else laneMask (bad.map Prod.fst)
    some ⟨4, code, BitVec.ofNat 64 addr, info, some (gangMask c x m), 4 * slotOf c x + lane⟩
  | _ => none

/-- What global accesses of a unit need: clearance for all of it first, then the fill of procedural blocks (R54, R69). `accs` gives each
slice's accesses. -/
def memPre (s : State) (r : Right) (zeroOk once : Bool) (accs : Nat → List LaneAcc) (i : Nat) : Pre :=
  let st := fun j => (accs j).map fun a => (a.lane, clrSt s j r zeroOk a)
  let mine := st i
  if mine.any fun e => e.2.isWait then .ask (clrAsks s i r (accs i)) []
  else match faultTrap s i once mine with
    | some t => .trap t
    | none =>
      if r != .read || (s.cur.any fun j => (st j).any fun e => e.2.isWait || e.2.isFault) then .go
      else
        let ok := (accs i).filter fun a => clrSt s i r zeroOk a == .ok
        let fs := ok.map fun a => (a.lane, fillSt s i a)
        if fs.any fun e => e.2.isWait then .ask [] (fillAsks s i ok)
        else match faultTrap s i once fs with
          | some t => .trap t
          | none => .go

/-- The first of several needs. -/
def Pre.next (p : Pre) (q : Pre) : Pre :=
  match p with
  | .go => q
  | _ => p

/-! ### Waits of the memory family (R91, R142, R219, R223, R312) -/

/-- Span scope or wider (R223). -/
def wideScope : Scope → Bool
  | .slice => false | .crew => false | _ => true

def crewDirty (s : State) (crew : Nat) : Bool := (s.crew crew).tags.any fun e => e.2.mapped && e.2.sd != 0

def crewWriting (s : State) (crew : Nat) : Bool := s.writeBacks.any fun e => e.2.crew == some crew

def minOf : List Nat → Nat
  | [] => 0
  | a :: l => l.foldl min a

/-- A release before issue (R312, R223, R224). -/
def relPre (s : State) (i : Nat) (wide : Bool) : Pre :=
  let x := s.sl i
  if pending x wide || (wide && ((!x.relIn && crewDirty s x.crew) || crewWriting s x.crew)) then .park (.performed wide)
  else if wide && !x.lost.isEmpty then
    .trap ⟨5, cDataLost, BitVec.ofNat 64 (minOf x.lost), BitVec.ofNat 64 x.lost.length, none, 0⟩
  else .go

def ordPre (s : State) (i : Nat) (m : MemOp) : Pre :=
  match m.order with
  | .release => relPre s i (wideScope m.scope)
  | .acqRel => relPre s i (wideScope m.scope)
  | _ => .go

def acquires (m : MemOp) : Bool := m.order == .acquire || m.order == .acqRel

def roomPre (s : State) (i : Nat) : Pre := if full32 (s.sl i) then .park .room else .go

/-- Accesses of other slices wait while a WRSR to L2WP is in progress (R92). -/
def l2wpPre (s : State) (i : Nat) : Pre :=
  match (s.cluster (coreCluster (s.coreOf i))).raising with
  | some (_, w) => if w = i then .go else .park .l2wp
  | none => .go

/-- The kind that a leaf gives its accesses (R210): 0 RELEASE, 1 STRONG, 2 UNORDERED. -/
def ordKind (p : DWord) : Nat := if pteStrong p then 1 else if pteOrd p = 2 then 2 else 0

/-- The kind of the page of a byte. -/
def pageOrd (s : State) (ctx va : Nat) : Nat := ((walk s ctx va).pte.map ordKind).getD 0

/-- A part of the access lies in a STRONG page (R211). -/
def Acc.strong (a : Acc) : Bool := a.pieces.any fun q => q.ord == 1

/-- A lane touches a STRONG page. -/
def strongAcc (s : State) (ctx : Nat) (a : LaneAcc) : Bool := (granules a.va a.n).any fun g => pageOrd s ctx g == 1

/-- A slice's STRONG access is performed before its next one issues (R219). -/
def strongPre (s : State) (i : Nat) (as : List LaneAcc) : Pre :=
  if (s.sl i).accs.any (fun e => e.2.strong) && as.any (strongAcc s (s.ctxOf i)) then .park .strong else .go

/-! ### Cutting an access into parts (R211, R212) -/

def aligned (va n : Nat) : Bool := va % n == 0

/-- The single-copy-atomic parts of one lane's `n` bytes, with the store data and CAS's new value; `ord` gives the kind of a byte's page. -/
def lanePieces (ord : Nat → Nat) (l va n data new : Nat) : List Piece :=
  if n ≤ 8 && aligned va n then [⟨l, va, n, 0, data, new, false, ord va⟩]
  else if n = 16 && aligned va 16 then
    [⟨l, va, 8, 0, data % 2 ^ 64, 0, false, ord va⟩, ⟨l, va + 8, 8, 8, data / 2 ^ 64, 0, false, ord va⟩]
  else (List.range n).map fun k => ⟨l, va + k, 1, k, data / 256 ^ k % 256, 0, false, ord (va + k)⟩

/-- The 32 lanes of a unit cover one aligned sector in lane order (R212). -/
def coversSector (units : List (List LaneAcc)) : Bool :=
  match units with
  | [] => false
  | u :: _ =>
    let base := (u.head?.map LaneAcc.va).getD 1
    units.length == 8 && base % 128 == 0 &&
      (units.zipIdx).all fun e => e.1 == [0, 1, 2, 3].map fun l => ⟨l, base + 16 * e.2 + 4 * l, 4⟩

/-- Where one lane's result of `n` bytes lands; `once`: in an s register. A discarded result still returns. -/
def landsFor (d : Opnd) (n l : Nat) (sgn : Bool) (v : Nat) : List (LandDst × DWord) :=
  let w := fun (k : Nat) => BitVec.ofNat 64 (v / 2 ^ (32 * k) % 2 ^ 32)
  let small := if sgn then ((BitVec.ofInt 32 (sInt (8 * n) v)).setWidth 64) else BitVec.ofNat 64 (v % 2 ^ (8 * n))
  match d with
  | .v r => if n < 4 then [(.vreg r l, small)] else (List.range (n / 4)).map fun k => (.vreg (r + k) l, w k)
  | .s r =>
    if n < 4 then [(.sreg r, small)]
    else if n = 4 then [(.sreg r, w 0)]
    else (List.range (n / 8)).map fun k => (.sreg (r + k), BitVec.ofNat 64 (v / 2 ^ (64 * k)))
  | _ => [(.flags, 0)]

/-- The value a store takes from D for one lane. -/
def storeVal (x : Slice) (d : Opnd) (n l : Nat) : Nat :=
  match d with
  | .v r => ((List.range ((n + 3) / 4)).map fun k => (x.vreg (r + k) l).toNat * 2 ^ (32 * k)).foldl (· + ·) 0 % 2 ^ (8 * n)
  | .s r => ((List.range ((n + 7) / 8)).map fun k => (x.sreg (r + k)).toNat * 2 ^ (64 * k)).foldl (· + ·) 0 % 2 ^ (8 * n)
  | _ => 0

/-- Another slice of the gang has sent for this sector in the same issue: the L2 merges them (R85, R212). -/
def sentFor (s : State) (i : Nat) (a : Acc) (sector : Nat) : Bool :=
  (s.gang i).any fun j => j != i && (s.sl j).accs.any fun e => e.2.grp == a.grp && e.2.pieces.any fun q => q.va / 128 == sector

/-- What an access asks of its place. -/
def Acc.use (a : Acc) : Use :=
  match a.kind with
  | .load => .read
  | .mapLoad => .read
  | .remLoad => .read
  | .store => .write
  | .mapStore => .write
  | .remStore => .write
  | _ => .rmw

/-- The request of an access about one sector (R81, R85): a mapped store obtains the whole line, two sectors (R126). -/
def injectSector (s : State) (i : Nat) (a : Acc) (sector : Nat) : State :=
  let core := s.coreOf i
  let cls := crewClass s (s.sl i).crew
  let va := 128 * sector
  let pl := placeAt s (coreCluster core) a.ctx va a.ch a.use
  let n := ((a.pieces.filter fun p => p.va / 128 == sector).map Piece.n).foldl (· + ·) 0
  match a.kind with
  | .remLoad => s
  | .remStore => s
  | .load => if sentFor s i a sector then s else injectRead s pl core cls a.ctx va
  | .mapLoad => if sentFor s i a sector then s else injectRead s pl core cls a.ctx va
  | .mapStore => if sentFor s i a sector then s else inject s core cls va 1 5 2
  | .nmred _ _ => inject s core cls va (dataFlits n) 1 1
  | .cas => if pl = .l2 && sentFor s i a sector then s else injectStore s pl core cls a.ctx va (2 * n)
  | _ => if (pl = .l2 || a.whole) && sentFor s i a sector then s else injectStore s pl core cls a.ctx va (if a.whole then 128 else n)

/-- The requests of an access that enter Viaduct, one for each sector; for a mapped store one for each line. -/
def injectAcc (s : State) (i : Nat) (a : Acc) : State :=
  let secs := (a.pieces.map fun p => if a.kind == .mapStore then p.va / 256 * 2 else p.va / 128).dedup
  secs.foldl (fun s k => injectSector s i a k) s

/-- An access goes under way: `early` are results known at issue, `later` the count of results its parts will bring. -/
def startAcc (s : State) (i : Nat) (a : Acc) (early : List (LandDst × DWord)) (later : Nat) : State :=
  let id := s.nextId
  let total := early.length + later
  injectAcc (s.fresh.updSl i fun x =>
    { x with
      accs := if a.pieces.isEmpty then x.accs else Tbl.put x.accs id { a with id := if total = 0 then 0 else id }
      outst := if total = 0 then x.outst else Tbl.put x.outst id total
      ready := x.ready ++ early.map fun e => ⟨id, e.1, e.2⟩ }) i a

/-- The eviction kept these bytes for a reader that had not issued (R75). -/
def keptByte (as : List Answer) (va : Nat) : Option Byte :=
  match as.find? fun a => coversBlock a va with
  | some (.kept _ _ m) => some (Mem.read m va)
  | _ => none

/-- One part of an access is performed: `v` is what it read or the old value, `f` the flags. A lane whose parts are all in lands its
result; an access whose parts are all in is over (R142, R208). -/
def finishPiece (s : State) (i k p v : Nat) (f : Flags) : State :=
  s.updSl i fun x =>
    match Tbl.find x.accs k with
    | none => x
    | some a =>
      match a.pieces[p]? with
      | none => x
      | some q =>
        let ps := (a.pieces.zipIdx).map fun e => if e.2 = p then { e.1 with done := true } else e.1
        let got := Tbl.put a.got q.lane (Tbl.findD a.got q.lane 0 + v * 256 ^ q.off)
        let laneDone := ps.all fun e => e.lane != q.lane || e.done
        let withFlags := match a.kind with
          | .atom _ _ => true
          | _ => false
        let lands := if laneDone && a.id != 0 then
            landsFor a.dst a.size q.lane a.sgn (Tbl.findD got q.lane 0) ++ (if withFlags then landFlags f else [])
          else []
        { x with
          accs := if ps.all Piece.done then Tbl.del x.accs k else Tbl.put x.accs k { a with pieces := ps, got := got }
          ready := x.ready ++ lands.map fun e => ⟨a.id, e.1, e.2⟩ }

/-- The entries of a core's clearance cache that an access uses become the most recently used (R56). -/
def touchClr (s : State) (core ctx : Nat) (r : Right) (as : List LaneAcc) : State :=
  s.updCore core fun c =>
    let hit := fun (e : ClrEntry) => e.ctx == ctx && rightCovers e.r r && as.any fun a => (granules a.va a.n).any fun g =>
      e.page ≤ g && g < e.page + e.size
    { c with clr := c.clr.filter hit ++ c.clr.filter fun e => !hit e }

def useClr (s : State) (i : Nat) (r : Right) (as : List LaneAcc) : State := touchClr s (s.coreOf i) (s.ctxOf i) r as

/-- The accesses of the slices that issued together: slice, key, access, in gang order. -/
def grpAccs (s : State) (i grp : Nat) : List (Nat × Nat × Acc) :=
  (s.gang i).flatMap fun j => ((s.sl j).accs.filter fun e => e.2.grp == grp).map fun e => (j, e.1, e.2)

def overlaps (p q : Piece) : Bool := p.va < q.va + q.n && q.va < p.va + p.n

/-- The parts of the slice's own store that part `p` of a later read takes early: its own lane's always, another lane's where the store is
read early at all (R208, R209); of a gang's sector, one event, every part or none (R212). -/
def earlyParts (s : State) (i : Nat) (once : Bool) (p : Piece) (e : Nat × Acc) : List Piece :=
  let takes := fun (q : Piece) => !q.done && overlaps p q && (q.lane == p.lane || once || e.2.once || Config.freeEarly e.1)
  if !e.2.whole then e.2.pieces.filter takes
  else if e.2.pieces.any takes then (grpAccs s i e.2.grp).flatMap fun g => g.2.2.pieces.filter fun q => !q.done && overlaps p q
  else []

/-- The data of the slice's own stores, issued before access `k`, that part `p` of a read takes early for one of its bytes. -/
def ownStore (s : State) (i k : Nat) (once : Bool) (p : Piece) (va : Nat) : Option Byte :=
  let mine := (s.sl i).accs.filter fun e => e.1 < k && (e.2.kind == .store || e.2.kind == .mapStore)
  let hits := mine.flatMap fun e => ((earlyParts s i once p e).filter fun q => q.va ≤ va && va < q.va + q.n).map fun q =>
    BitVec.ofNat 8 (q.data / 256 ^ (va - q.va))
  hits.getLast?

end Sys2Proof.Machine
end

