-- ==== Sys2Proof/Machine/Memory.lean ====
section
/-! DEFINITION. The meanings of LD to CAS, PREF, PREQ, NMRED and CCTL, opcodes 0x70 to 0x78, 0x7C and 0x7D (R312 to R321, R122 to R127). -/

namespace Sys2Proof.Machine

def ldBytes : LdSize → Nat
  | .b8 => 1 | .b16 => 2 | .b32 => 4 | .b64 => 8 | .b128 => 16 | .sb8 => 1 | .sb16 => 2

def ldSigned : LdSize → Bool
  | .sb8 => true | .sb16 => true | _ => false

/-- Registers that `n` bytes take. -/
def regsFor (n : Nat) : Nat := (n + 3) / 4

/-- The accesses of one slice: each executing lane's, or one. -/
def accsFor (h : Hdr) (vec : Bool) (m : MemOp) (n : Nat) (s : State) (i : Nat) : List LaneAcc :=
  let x := s.sl i
  let mask := lanesFor vec h x
  if mask = 0 then [] else (laneList vec mask).map fun l => ⟨l, laneAddr (s.crewOf i) x h.imm m l, n⟩

/-- The lowest lane whose address is not a multiple of the access size (R313, R122). -/
def alignPre (s : State) (i : Nat) (as : List LaneAcc) : Pre :=
  match as.find? fun a => !aligned a.va a.n with
  | some a => .trap ⟨2, cDataAlign, BitVec.ofNat 64 a.va, 0, none, 4 * slotOf (s.crewOf i) (s.sl i) + a.lane⟩
  | none => .go

def memRegs (d : Opnd) (n : Nat) (m : MemOp) : List (Opnd × Nat) := [(d, regsFor n), (m.base, 2), (m.index, 1)]

/-- A blank access of this unit. -/
def accBase (pre s : State) (i : Nat) (kind : AccKind) (h : Hdr) : Acc where
  kind := kind
  ctx := s.ctxOf i
  ch := h.ch
  pieces := []
  got := []
  size := 0
  sgn := false
  dst := .zero
  once := false
  id := 0
  pc := (s.sl i).pc
  mask := gangMask (s.crewOf i) (s.sl i) (s.sl i).active
  grp := pre.nextId
  whole := false

/-- The accesses' first parts whose bytes an eviction kept for this reader are performed at once (R75). -/
def finishKept (s : State) (i : Nat) (as : List Answer) (k : Nat) : State :=
  match Tbl.find (s.sl i).accs k with
  | none => s
  | some a => (a.pieces.zipIdx).foldl (fun s e =>
      let bs := (List.range e.1.n).map fun b => keptByte as (e.1.va + b)
      if bs.all Option.isSome then finishPiece s i k e.2 (bytesNat (bs.map fun b => b.getD 0)) 0 else s) s

/-- The lanes p6 is written in and their values, or the NR flag (R58). `st` gives each access's clearance. -/
def residencyLands (x : Slice) (once r : Bool) (st : List (Nat × LaneSt)) : List (LandDst × DWord) :=
  let res := fun (z : LaneSt) => if z == .zero then (0 : DWord) else 1
  if r then
    if once then (lanesOf x.active).map fun l => (.pbit l 6, ((st.map fun e => res e.2).headD 1))
    else st.map fun e => (.pbit e.1 6, res e.2)
  else if st.any fun e => e.2 == .zero then [(.flags, fNR.setWidth 64)] else []

def execLd (h : Hdr) (m : MemOp) (sz : LdSize) (d : Opnd) (s : State) : Out :=
  let vec := memVec d m
  let n := ldBytes sz
  runUnit h {
    chk := chkRegs (memRegs d n m)
    lanes := lanesFor vec h
    pre := fun s i _ =>
      let as := accsFor h vec m n s i
      (((memPre s .read true (!vec) (accsFor h vec m n s) i).next (strongPre s i as)).next (l2wpPre s i)).next (roomPre s i)
    act := fun pre s i _ =>
      let x := s.sl i
      let as := accsFor h vec m n pre i
      let st := as.map fun a => (a, clrSt pre i .read true a)
      let ok := (st.filter fun e => e.2 == .ok).map Prod.fst
      let zero := (st.filter fun e => e.2 == .zero).map Prod.fst
      let early := zero.flatMap (fun a => landsFor d n a.lane (ldSigned sz) 0) ++
        residencyLands x (!vec) m.r (st.map fun e => (e.1.lane, e.2))
      let a := { accBase pre s i .load h with
        pieces := ok.flatMap fun a => lanePieces (pageOrd pre (s.ctxOf i)) a.lane a.va n 0 0
        size := n
        sgn := ldSigned sz
        dst := d
        once := !vec
        whole := n == 4 && coversSector (pre.cur.map fun j => accsFor h vec m n pre j) && zero.isEmpty }
      let s1 := startAcc (useClr s i .read as) i a early ((ok.map fun a => (landsFor d n a.lane false 0).length).foldl (· + ·) 0)
      let s2 := finishKept s1 i (pre.sl i).answers s.nextId
      if acquires m then s2.updSl i (standAt (.value s.nextId)) else s2
    jump := false
    occ := 1 } s

/-- A store, reduction or atomic under way in the executing lanes: the lanes' data, CAS's new value, and the result register. -/
def storeMeaning (h : Hdr) (m : MemOp) (d : Opnd) (n : Nat) (rs : List (Opnd × Nat)) (vec : Bool) (align : Bool) (kind : AccKind)
    (result : Option (Opnd × Nat)) (new : Crew → Slice → Nat → Nat) : Meaning where
  chk := chkRegs rs
  lanes := lanesFor vec h
  pre := fun s i _ =>
    let as := accsFor h vec m n s i
    (((((if align then alignPre s i as else .go).next (memPre s .write false (!vec) (accsFor h vec m n s) i)).next
      (ordPre s i m)).next (strongPre s i as)).next (l2wpPre s i)).next (if result.isSome then roomPre s i else .go)
  act := fun pre s i _ =>
    let x := pre.sl i
    let c := pre.crewOf i
    let as := accsFor h vec m n pre i
    let (dst, extra) := result.getD (.zero, 0)
    let a := { accBase pre s i kind h with
      pieces := as.flatMap fun a => lanePieces (pageOrd pre (s.ctxOf i)) a.lane a.va n (storeVal x d n a.lane) (new c x a.lane)
      size := n
      dst := dst
      once := !vec
      whole := n == 4 && coversSector (pre.cur.map fun j => accsFor h vec m n pre j) }
    let later := if result.isSome then (as.map fun a => (landsFor dst n a.lane false 0).length + extra).foldl (· + ·) 0 else 0
    let s1 := startAcc (useClr s i .write as) i a [] later
    if result.isSome && acquires m then s1.updSl i (standAt (.value s.nextId)) else s1
  jump := false
  occ := 1

def execSt (h : Hdr) (m : MemOp) (sz : LdSize) (d : Opnd) (s : State) : Out :=
  let n := ldBytes sz
  runUnit h (storeMeaning h m d n (memRegs d n m) (memVec d m) false .store none fun _ _ _ => 0) s

/-- The bytes of one element of an atomic's type. -/
def tyBytes (t : Ty) : Nat := if t.is64 then 8 else 4

def execAtom (h : Hdr) (m : MemOp) (op : AtomOp) (t : Ty) (d : Opnd) (s : State) : Out :=
  runUnit h (storeMeaning h m d (tyBytes t) (memRegs d (tyBytes t) m) (memVec d m) true (.atom op t) (some (d, 1)) fun _ _ _ => 0) s

def execRed (h : Hdr) (m : MemOp) (op : AtomOp) (t : Ty) (d : Opnd) (s : State) : Out :=
  runUnit h (storeMeaning h m d (tyBytes t) (memRegs d (tyBytes t) m) (memVec d m) true (.red op t) none fun _ _ _ => 0) s

def execNmred (h : Hdr) (m : MemOp) (op : AtomOp) (t : Ty) (d : Opnd) (s : State) : Out :=
  runUnit h (storeMeaning h m d (tyBytes t) (memRegs d (tyBytes t) m) (memVec d m) true (.nmred op t) none fun _ _ _ => 0) s

def execCas (h : Hdr) (m : MemOp) (t : Ty) (d e : Opnd) (s : State) : Out :=
  let n := tyBytes t
  runUnit h (storeMeaning h m d n ((e, regsFor n) :: memRegs d n m) (memVec d m || e.isVec) true .cas (some (d, 0))
    fun _ x l => storeVal x e n l) s

/-! ### Local spaces (R122 to R126, R315) -/

def lclBytes : LclSize → Nat
  | .b8 => 1 | .b16 => 2 | .b32 => 4 | .b64 => 8

/-- R122, R94: the checks of a local address on the issuing core. -/
def localOk (s : State) (i : Nat) (sp : LclSpace) (va : Nat) : Bool :=
  let c := s.crewOf i
  match sp with
  | .stash => va < 2 ^ 19 && va / 1024 < c.tiles
  | .span =>
    let p := s.span c.span
    va < 2 ^ 23 && va / 4096 < p.count && p.base + va / 4096 < 256 * waysOf (s.cluster p.cluster).ways
  | .remote => va < 2 ^ 23

def localPre (s : State) (i : Nat) (sp : LclSpace) (as : List LaneAcc) : Pre :=
  match as.find? fun a => !localOk s i sp a.va with
  | some a => .trap ⟨3, cLocalRange, BitVec.ofNat 64 a.va, 0, none, 4 * slotOf (s.crewOf i) (s.sl i) + a.lane⟩
  | none => .go

def stagOf (s : State) (sp t : Nat) : STag := Tbl.findD (s.span sp).tags t STag.init
def setStag (s : State) (sp t : Nat) (x : STag) : State := s.updSpan sp fun p => { p with tags := Tbl.put p.tags t x }

/-- R121: a tile that SLICES does not own parks the slice. -/
def ownerPre (s : State) (i : Nat) (sp : LclSpace) (as : List LaneAcc) : Pre :=
  match sp with
  | .stash =>
    match as.find? fun a => (tagOf s (s.sl i).crew (a.va / 1024)).owner != .slices with
    | some a => .park (.tile (a.va / 1024))
    | none => .go
  | .span =>
    match as.find? fun a => (stagOf s (s.crewOf i).span (a.va / 4096)).owner != .slices with
    | some a => .park (.spanTile (a.va / 4096))
    | none => .go
  | .remote => .go

/-- The global address that a byte of a mapped tile stands for (R125). -/
def mappedVa (s : State) (crew va : Nat) : Option Nat :=
  if (tagOf s crew (va / 1024)).mapped then
    ((s.crew crew).maps.find? fun m => m.t0 ≤ va / 1024 && va / 1024 < m.t0 + m.n).map fun m =>
      m.base + 1024 * (va / 1024 - m.t0) + va % 1024
  else none

/-- The target core of a remote stash address (R122). -/
def remTarget (va : Nat) : Nat := va / 2 ^ 19 % 16

/-- The crew of a span on a core of its cluster. -/
def crewOnCore (s : State) (span core : Nat) : Option Nat :=
  ((s.span span).crews.find? fun k => (s.crew k).core % 16 == core && !(s.crew k).ended)

/-- The crew and the global address that a remote stash address names where its tile is mapped (R126). -/
def remoteGlobal (s : State) (i va : Nat) : Option (Nat × Nat) :=
  (crewOnCore s (s.crewOf i).span (remTarget va)).bind fun t => (mappedVa s t (va % 2 ^ 19)).map fun g => (t, g)

def Acc.remote (a : Acc) : Bool := a.kind == .remLoad || a.kind == .remStore

/-- The global address of a part of an access; none for a plain remote tile. -/
def globalVa (s : State) (i : Nat) (a : Acc) (q : Piece) : Option Nat :=
  if a.remote then (remoteGlobal s i q.va).map Prod.snd else some q.va

/-- The lanes of a remote access that touch mapped bytes, with their global addresses. -/
def remoteAccs (s : State) (i : Nat) (as : List LaneAcc) : List LaneAcc :=
  as.filterMap fun a => (remoteGlobal s i a.va).map fun g => ⟨a.lane, g.2, a.n⟩

/-- The kind of the page of a remote byte, as its target tile is mapped at issue (R219; log 80). -/
def remoteOrd (s : State) (i va : Nat) : Nat := ((remoteGlobal s i va).map fun g => pageOrd s (s.ctxOf i) g.2).getD 0

/-- The slice's remote stores under way to bytes of its own core's stash that a lane's access touches, and before a store its loads too: it
comes after them (R123, R209). -/
def ownRemote (s : State) (i : Nat) (store : Bool) (as : List LaneAcc) : List Nat :=
  ((s.sl i).accs.filter fun e => (e.2.kind == .remStore || (store && e.2.kind == .remLoad)) && e.2.pieces.any fun q =>
    !q.done && remTarget q.va == s.coreOf i % 16 && as.any fun a =>
      a.va < q.va % 2 ^ 19 + q.n && q.va % 2 ^ 19 < a.va + a.n).map Prod.fst

def ownRemotePre (s : State) (i : Nat) (sp : LclSpace) (store : Bool) (as : List LaneAcc) : Pre :=
  let ids := if sp = .stash then ownRemote s i store as else []
  if ids.isEmpty then .go else .park (.sent ids)

/-- The tile holds the line exclusively: one of its sectors is dirty there. -/
def tileOwns (s : State) (crew va : Nat) : Bool :=
  let t := tagOf s crew (va / 1024)
  t.sd.getLsbD (va % 1024 / 256 * 2) || t.sd.getLsbD (va % 1024 / 256 * 2 + 1)

/-- The slice has an access to these global bytes under way: a later one of its own comes after it (R209). -/
def ownAhead (s : State) (i va n : Nat) : Bool :=
  (s.sl i).accs.any fun e => e.2.pieces.any fun q =>
    !q.done && match globalVa s i e.2 q with
      | some x => decide (x < va + n) && decide (va < x + q.n)
      | none => false

/-- Mapped bytes that the tile cannot serve by itself at once (R126): their global address. -/
def needsHome (s : State) (i : Nat) (store : Bool) (va n : Nat) : Option Nat :=
  match mappedVa s (s.sl i).crew va with
  | none => none
  | some g =>
    let held := if store then tileOwns s (s.sl i).crew va else (tagOf s (s.sl i).crew (va / 1024)).sv.getLsbD (va % 1024 / 128)
    if held && !ownAhead s i g n then none else some g

def homeAccs (s : State) (i : Nat) (store : Bool) (as : List LaneAcc) : List LaneAcc :=
  as.filterMap fun a => (needsHome s i store a.va a.n).map fun g => ⟨a.lane, g, a.n⟩

/-- The accesses of one slice of the unit that go home. Where its lanes cover one mapped sector in order they go all together (R212). -/
def unitHome (s : State) (store : Bool) (accs : State → Nat → List LaneAcc) (j : Nat) : List LaneAcc :=
  let all := fun j => (accs s j).filterMap fun a => (mappedVa s (s.sl j).crew a.va).map fun g => ⟨a.lane, g, a.n⟩
  if coversSector (s.cur.map all) && s.cur.any (fun j => !(homeAccs s j store (accs s j)).isEmpty) then all j
  else homeAccs s j store (accs s j)

/-- The bytes of a local space where a slice's own crew finds them. -/
def lclRead (s : State) (i : Nat) (sp : LclSpace) (va n : Nat) : Nat :=
  if sp = .span then Mem.readLE s.scratch ((s.crewOf i).span * 2 ^ 23 + va) n else Mem.readLE s.stash ((s.sl i).crew * 2 ^ 19 + va) n

/-- A store to own stash or span scratch; a mapped sector becomes dirty. -/
def lclWrite (s : State) (i : Nat) (sp : LclSpace) (va n v : Nat) : State :=
  if sp = .span then
    { touchScratch s (s.crewOf i).span va n with scratch := Mem.writeLE s.scratch ((s.crewOf i).span * 2 ^ 23 + va) n v }
  else
    let crew := (s.sl i).crew
    let s1 := { s with stash := Mem.writeLE s.stash (crew * 2 ^ 19 + va) n v }
    let t := tagOf s crew (va / 1024)
    if t.mapped then setTag s1 crew (va / 1024) { t with sd := t.sd ||| BitVec.twoPow 8 (va % 1024 / 128) } else s1

/-- Span scratch and the homes of mapped bytes are reached through the L2 slice, whose ways may be changing (R92). -/
def localWaits (s : State) (i : Nat) (l2 : Bool) : Pre := if l2 then l2wpPre s i else .go

def execLdl (h : Hdr) (m : MemOp) (sp : LclSpace) (sz : LclSize) (sgn : Bool) (d : Opnd) (s : State) : Out :=
  let vec := memVec d m
  let n := lclBytes sz
  let accs := accsFor h vec m n
  let home := fun s j => if sp = .stash then unitHome s false accs j else []
  let far := fun s j => if sp = .remote then remoteAccs s j (accs s j) else home s j
  runUnit h {
    chk := chkRegs (memRegs d n m)
    lanes := lanesFor vec h
    pre := fun s i _ =>
      let as := accs s i
      (((((((alignPre s i as).next (localWaits s i (sp = .span))).next (localPre s i sp as)).next (ownerPre s i sp as)).next
        (memPre s .read true (!vec) (home s) i)).next (strongPre s i (far s i))).next (localWaits s i (!(home s i).isEmpty))).next
        ((ownRemotePre s i sp false as).next (roomPre s i))
    act := fun pre s i _ =>
      let as := accs pre i
      let kind : AccKind := if sp = .remote then .remLoad else .mapLoad
      let hs := (home pre i).map fun a => (a, clrSt pre i .read true a)
      let zero := (hs.filter fun e => e.2 == .zero).map fun e => e.1.lane
      let far := (hs.filter fun e => e.2 == .ok).map Prod.fst
      let near := as.filter fun a => sp != .remote && !(hs.any fun e => e.1.lane == a.lane)
      let early := near.flatMap (fun a => landsFor d n a.lane sgn (lclRead pre i sp a.va n)) ++
        zero.flatMap (fun l => landsFor d n l sgn 0) ++ (if zero.isEmpty then [] else [(.flags, fNR.setWidth 64)])
      let outs := if sp = .remote then as else far
      let a := { accBase pre s i kind h with
        pieces := outs.flatMap fun a => lanePieces (if sp = .remote then remoteOrd pre i else pageOrd pre (s.ctxOf i)) a.lane a.va n 0 0
        size := n
        sgn := sgn
        dst := d
        once := !vec
        whole := n == 4 && coversSector (pre.cur.map (home pre)) && zero.isEmpty }
      let s0 := if sp = .span then as.foldl (fun s a => touchScratch s (s.crewOf i).span a.va n) s else s
      let s1 := startAcc (useClr s0 i .read far) i a early ((outs.map fun a => (landsFor d n a.lane false 0).length).foldl (· + ·) 0)
      let s2 := finishKept s1 i (pre.sl i).answers s.nextId
      if acquires m then s2.updSl i (standAt (.value s.nextId)) else s2
    jump := false
    occ := 1 } s

def execStl (h : Hdr) (m : MemOp) (sp : LclSpace) (sz : LclSize) (d : Opnd) (s : State) : Out :=
  let vec := memVec d m
  let n := lclBytes sz
  let accs := accsFor h vec m n
  let home := fun s j => if sp = .stash then unitHome s true accs j else []
  let far := fun s j => if sp = .remote then remoteAccs s j (accs s j) else home s j
  runUnit h {
    chk := chkRegs (memRegs d n m)
    lanes := lanesFor vec h
    pre := fun s i _ =>
      let as := accs s i
      (((((((alignPre s i as).next (localWaits s i (sp = .span))).next (localPre s i sp as)).next (ownerPre s i sp as)).next
        (memPre s .write false (!vec) (home s) i)).next (ordPre s i m)).next (strongPre s i (far s i))).next
        ((localWaits s i (!(home s i).isEmpty)).next (ownRemotePre s i sp true as))
    act := fun pre s i _ =>
      let x := pre.sl i
      let as := accs pre i
      let far := home pre i
      let kind : AccKind := if sp = .remote then .remStore else .mapStore
      let near := as.filter fun a => sp != .remote && !(far.any fun e => e.lane == a.lane)
      let s1 := near.foldl (fun s a => lclWrite s i sp a.va n (storeVal x d n a.lane)) s
      let a := { accBase pre s i kind h with
        pieces := (if sp = .remote then as else far).flatMap fun a =>
          lanePieces (if sp = .remote then remoteOrd pre i else pageOrd pre (s.ctxOf i)) a.lane a.va n (storeVal x d n a.lane) 0
        size := n
        once := !vec
        whole := n == 4 && coversSector (pre.cur.map (home pre)) }
      startAcc (useClr s1 i .write far) i a [] 0
    jump := false
    occ := 1 } s

/-! ### Hints, residency, cache control (R320, R321, R59) -/

/-- Whether the page may be brought in: resident, readable, in the domain. -/
def prefPage (s : State) (i va : Nat) : Option DWord :=
  if userAddr s va then
    match (walk s (s.ctxOf i) va).pte with
    | some p => if leafAllows .read p && (!pteProc p || (blockOf (s.ctx (s.ctxOf i)) va).isSome) then some p else none
    | none => none
  else none

/-- PREF of one address: a procedural block that is not filled gets a PREF event at its home. -/
def prefOne (l2 : Bool) (ch : Nat) (s : State) (i va : Nat) : State :=
  match prefPage s i va with
  | none => s
  | some p =>
    let ctx := s.ctxOf i
    let cl := coreCluster (s.coreOf i)
    let filled := match blockOf (s.ctx ctx) va with
      | some (_, _, b) => ((s.ctx ctx).block b).st == .filled
      | none => true
    if pteProc p && !filled then addReqs s [] [fillReq s (.slice i) (s.sl i).crew ctx va true]
    else if ptePbmt p = 2 || closingFor s ctx va .read then s
    else if l2 && ptePbmt p != 1 then
      cacheRead (injectRead s .l2 (s.coreOf i) (crewClass s (s.sl i).crew) ctx va) .l2 cl ctx va ch
    else atHome (inject s (s.coreOf i) (crewClass s (s.sl i).crew) va 1 1 1) ctx (va / 256)

/-- The lanes' addresses of an instruction whose D is unused. -/
def addrMeaning (h : Hdr) (m : MemOp) (pre : State → Nat → BitVec 4 → Pre) (f : State → Nat → List Nat → State) : Meaning where
  chk := chkRegs [(m.base, 2), (m.index, 1)]
  lanes := lanesFor (memVec .zero m) h
  pre := pre
  act := fun pre s i _ => f s i ((accsFor h (memVec .zero m) m 1 pre i).map LaneAcc.va)
  jump := false
  occ := 1

def execPrefL2 (h : Hdr) (m : MemOp) (s : State) : Out :=
  runUnit h (addrMeaning h m noPre fun s i vs => vs.foldl (fun s va => prefOne true h.ch s i va) s) s

def execPrefLlc (h : Hdr) (m : MemOp) (s : State) : Out :=
  runUnit h (addrMeaning h m noPre fun s i vs => vs.foldl (fun s va => prefOne false h.ch s i va) s) s

/-- PREQ (R59): a request for the page of each lane, posted. -/
def execPreq (h : Hdr) (m : MemOp) (s : State) : Out :=
  runUnit h (addrMeaning h m noPre fun s i vs =>
    vs.foldl (fun s va =>
      if userAddr s va then
        injectUnit { s.fresh with resReqs := Tbl.put s.resReqs s.nextId (s.ctxOf i, va, s.coreOf i) } (s.coreOf i)
          (crewClass s (s.sl i).crew) 3 (vaTower va) none
      else s) s) s

/-- Cached code of a context goes from a core's instruction cache (R253). -/
def dropCode (c : Core) (ctx : Nat) : Core := { c with icache := c.icache.filter fun e => e.1 / 2 ^ 57 != ctx }

def execCctlIinv (h : Hdr) (s : State) : Out :=
  runUnit h {
    chk := fun _ _ => none
    lanes := perSlice h
    pre := noPre
    act := fun _ s i _ => (s.updCore (s.coreOf i) fun c => dropCode c (s.ctxOf i)).updSl i (standAt Wait.now)
    jump := false
    occ := 1 } s

/-- The dirty sectors of a line in a cluster's L2 and in a crew's mapped tiles start home; the copies stay valid and clean. -/
def cleanLine (s : State) (cl crew ctx line cls : Nat) : State × List Nat :=
  let away := fun (s : State) (at_ : Nat) (bytes : List (Nat × Byte)) (from_ : Option Nat) =>
    sendHome { s.fresh with writeBacks := Tbl.put s.writeBacks s.nextId ⟨ctx, line, bytes, from_⟩ } at_ cls (256 * line)
      (1 + bytes.length / 64)
  let (s1, k1) := match Tbl.find s.l2 (l2Key cl ctx line) with
    | some x =>
      if x.dirty = 0 then (s, [])
      else
        let secs := [0, 1].filter fun k => x.dirty.getLsbD k
        let bytes := secs.flatMap fun k => sectorBytes (l2Addr cl ctx) s.l2Data (256 * line + 128 * k)
        ({ away (touchBank s (cl / 64) (l2Bank cl (256 * line))) cl bytes none with
          l2 := Tbl.put s.l2 (l2Key cl ctx line) { x with dirty := 0, excl := false }
          l2Data := Mem.clear s.l2Data (l2Addr cl ctx (256 * line)) 256 }, [s.nextId])
    | none => (s, [])
  [0, 1].foldl (fun (acc : State × List Nat) k =>
    let va0 := 256 * line + 128 * k
    ((stashAt acc.1 ctx va0).filter fun e => e.1 == crew).foldl (fun (acc : State × List Nat) e =>
      let tag := tagOf acc.1 crew e.2.1
      let sec := e.2.2 / 128
      if tag.sd.getLsbD sec then
        let bytes := (List.range 128).map fun b => (va0 + b, Mem.read acc.1.stash (stashKey crew e.2.1 (e.2.2 + b)))
        (setTag (away acc.1 (coreCluster (acc.1.crew crew).core) bytes (some crew)) crew e.2.1 { tag with sd := tag.sd &&& ~~~(BitVec.twoPow 8 sec) }, acc.2 ++ [acc.1.nextId])
      else acc) acc) (s1, k1)

/-- The copies themselves go (R321, FN 2). -/
def invalLine (s : State) (cl crew ctx line : Nat) : State :=
  let s1 := { s with l2 := Tbl.del s.l2 (l2Key cl ctx line) }
  [0, 1].foldl (fun s k =>
    ((stashAt s ctx (256 * line + 128 * k)).filter fun e => e.1 == crew).foldl (fun s e =>
      let tag := tagOf s crew e.2.1
      setTag s crew e.2.1 { tag with sv := tag.sv &&& ~~~(BitVec.twoPow 8 (e.2.2 / 128)) }) s) s1

def cctl (h : Hdr) (m : MemOp) (evict : Bool) (s : State) : Out :=
  runUnit h (addrMeaning h m (fun s i _ => l2wpPre s i) fun s i vs =>
    let cl := coreCluster (s.coreOf i)
    let ctx := s.ctxOf i
    let crew := (s.sl i).crew
    let (s1, ids) := ((vs.map fun v => v / 256).dedup).foldl (fun (acc : State × List Nat) line =>
      if userAddr acc.1 (256 * line) then
        let (s2, k) := cleanLine acc.1 cl crew ctx line (crewClass acc.1 crew)
        (if evict then invalLine s2 cl crew ctx line else s2, acc.2 ++ k)
      else acc) (s, [])
    s1.updSl i (standAt (.writeBacks ids))) s

def execCctlWb (h : Hdr) (m : MemOp) (s : State) : Out := cctl h m false s
def execCctlEvict (h : Hdr) (m : MemOp) (s : State) : Out := cctl h m true s

end Sys2Proof.Machine
end

