-- ==== Sys2Proof/Machine/HomeEvents.lean ====
section
/-! DEFINITION. Events at which an access in flight is performed: at the cluster's L2 slice, at a home, at memory, at a target crew's
stash, or a result is written (R36 to R39, R123, R124, R142, R208, R209, R212, R217 to R221, R317). An event that is not due leaves the
state as it is. -/

namespace Sys2Proof.Machine

def Acc.isLoad (a : Acc) : Bool := a.kind == .load || a.kind == .mapLoad || a.kind == .remLoad
def Acc.isStore (a : Acc) : Bool := a.kind == .store || a.kind == .mapStore || a.kind == .remStore

/-- Parts of accesses of one slice touch one global byte in one lane. -/
def meetsPart (s : State) (i : Nat) (a b : Acc) (p q : Piece) : Bool :=
  (q.lane == p.lane || a.once || b.once) &&
    match globalVa s i a p, globalVa s i b q with
    | some x, some y => decide (x < y + q.n) && decide (y < x + p.n)
    | _, _ => false

/-- The accesses that must be performed before part `p` of access `k` (R124, R209): the lane's earlier ones to these bytes, and a slice's
earlier remote ones to one core. A load reads the slice's own store early instead of waiting for it (R208), but not one by way of a remote
mapped tile. -/
def earlierDone (s : State) (i k : Nat) (a : Acc) (p : Piece) : Bool :=
  (s.sl i).accs.all fun e =>
    k ≤ e.1 || e.2.pieces.all fun q =>
      q.done ||
      (!(a.remote && e.2.remote && remTarget q.va == remTarget p.va) &&
        (!meetsPart s i a e.2 p q || (a.isLoad && e.2.isStore && !a.remote && !e.2.remote)))

/-- The lower lanes of one issue that write these bytes, or that are STRONG where this part is, have been performed (R219, R312). -/
def lowerDone (s : State) (i k : Nat) (a : Acc) (p : Piece) : Bool :=
  (grpAccs s i a.grp).all fun e => e.2.2.pieces.all fun q =>
    q.done || e.2.1 > k || (e.1 == i && e.2.1 == k && p.lane ≤ q.lane) ||
    !((!a.isLoad && overlaps p q && e.2.2.remote == a.remote) || (p.ord == 1 && q.ord == 1))

def pieceReady (s : State) (i k : Nat) (a : Acc) (p : Piece) : Bool := earlierDone s i k a p && lowerDone s i k a p

/-- The lanes that a part of an access serves, in gang numbering. -/
def pieceLanes (s : State) (i : Nat) (a : Acc) (q : Piece) : Word :=
  if a.once then a.mask else gangMask (s.crewOf i) (s.sl i) (BitVec.twoPow 4 q.lane)

/-- Data poison reaches a reader (R44, R245): one deferred trap per access, its lanes joined. -/
def recordPoison (s : State) (i k : Nat) (a : Acc) (q : Piece) : State :=
  deferAccess s i k cMemError 0 a.pc (BitVec.ofNat 64 (q.va / 256 * 256)) (pieceLanes s i a q)

/-- The bytes of a load's part: the slice's own early stores over the location's. -/
def loadVal (s : State) (i k : Nat) (a : Acc) (q : Piece) : Nat :=
  bytesNat ((List.range q.n).map fun b => (ownStore s i k a.once q (q.va + b)).getD (curByte s a.ctx (q.va + b)))

/-- A load's part read in state `s` is over in `s1`. -/
def finishLoad (s s1 : State) (i k p : Nat) (a : Acc) (q : Piece) : State :=
  if poisoned s a.ctx q.va then recordPoison (finishPiece s1 i k p (Config.freeNat s.freeIx % 256 ^ q.n) 0) i k a q
  else finishPiece s1 i k p (loadVal s i k a q) 0

/-- One part of a load. -/
def performLoad (s : State) (i k p : Nat) (a : Acc) (q : Piece) : State :=
  let cl := coreCluster (s.coreOf i)
  finishLoad s (cacheRead s (placeAt s cl a.ctx q.va a.ch .read) cl a.ctx q.va a.ch) i k p a q

/-- The mapped bytes of a page are never held in a tile (R126). -/
def atHomePage (s : State) (ctx va : Nat) : Bool := ((walk s ctx va).pte.map pteAtHome).getD true

/-- The crew's mapped tiles that stand for an address. -/
def crewTiles (s : State) (crew ctx va : Nat) : List (Nat × Nat × Nat) := (stashAt s ctx va).filter fun e => e.1 == crew

/-- A sector comes into a mapped tile (R126). -/
def fillTile (s : State) (crew ctx va : Nat) : State :=
  let va0 := va / 128 * 128
  (crewTiles s crew ctx va0).foldl (fun s e =>
    let tag := tagOf s crew e.2.1
    let sec := e.2.2 / 128
    if tag.sv.getLsbD sec then s
    else setTag { s with stash := Mem.writeN s.stash (stashKey crew e.2.1 e.2.2) (curBytes s ctx va0 128) } crew e.2.1
      { tag with sv := tag.sv ||| BitVec.twoPow 8 sec }) s

/-- What a read of mapped bytes does to the copies (R126): the stash serves a valid sector; another comes through the L2. -/
def readMapped (s : State) (crew cl ctx va ch : Nat) : State :=
  let tiles := crewTiles s crew ctx va
  if !atHomePage s ctx va && !tiles.isEmpty && tiles.all (fun e => (tagOf s crew e.2.1).sv.getLsbD (e.2.2 / 128)) then s
  else
    let s1 := cacheRead s (placeAt s cl ctx va ch .read) cl ctx va ch
    if atHomePage s ctx va then s1 else fillTile s1 crew ctx va

/-- Bytes stored into mapped bytes (R126): merged where the tile holds the line exclusively, else it obtains the whole line first. -/
def storeMapped (s : State) (crew cl ctx va : Nat) (bytes : List Byte) (ch : Nat) : State :=
  let tiles := crewTiles s crew ctx va
  if atHomePage s ctx va || tiles.isEmpty then writeLoc s (placeAt s cl ctx va ch .write) cl ctx va bytes ch
  else
    let line := va / 256
    let s1 := atHome (recallLine s ctx line none (some crew)) ctx line
    let s2 := fillTile (fillTile s1 crew ctx (256 * line)) crew ctx (256 * line + 128)
    tiles.foldl (fun s e =>
      let tag := tagOf s crew e.2.1
      setTag { s with stash := Mem.writeN s.stash (stashKey crew e.2.1 e.2.2) bytes } crew e.2.1
        { tag with sd := tag.sd ||| BitVec.twoPow 8 (e.2.2 / 128) }) s2

def performMapLoad (s : State) (i k p : Nat) (a : Acc) (q : Piece) : State :=
  finishLoad s (readMapped s (s.sl i).crew (coreCluster (s.coreOf i)) a.ctx q.va a.ch) i k p a q

def performMapStore (s : State) (i k p : Nat) (a : Acc) (q : Piece) : State :=
  finishPiece (storeMapped s (s.sl i).crew (coreCluster (s.coreOf i)) a.ctx q.va (natBytes q.n q.data) a.ch) i k p 0 0

/-- One part of a store. -/
def performStore (s : State) (i k p : Nat) (a : Acc) (q : Piece) : State :=
  let cl := coreCluster (s.coreOf i)
  finishPiece (writeLoc s (placeAt s cl a.ctx q.va a.ch .write) cl a.ctx q.va (natBytes q.n q.data) a.ch) i k p 0 0

/-- The combining types of a reduction or atomic on `n` bytes. -/
def combine (kind : AccKind) (old : Nat) (q : Piece) : Fl Nat × Bool :=
  let d := BitVec.ofNat 64 q.data
  let o := BitVec.ofNat 64 old
  match kind with
  | .atom op t => let r := atomNew op t o d; ((r.1.toNat % 256 ^ q.n, r.2), true)
  | .red op t => let r := atomNew op t o d; ((r.1.toNat % 256 ^ q.n, r.2), true)
  | .nmred op t => let r := atomNew op t o d; ((r.1.toNat % 256 ^ q.n, r.2), true)
  | .cas => ((q.new, 0), old == q.data)
  | _ => ((q.data, 0), true)

/-- The access returns the old value. -/
def Acc.returns (a : Acc) : Bool := match a.kind with | .atom _ _ => true | .cas => true | _ => false

/-- One lane's step of an atomic (R316, R318). One that writes nothing obtains the line all the same (R36, R90); the old value in a
poisoned line is open (R44). -/
def performAtom (s : State) (i k p : Nat) (a : Acc) (q : Piece) : State :=
  let cl := coreCluster (s.coreOf i)
  let pl := placeAt s cl a.ctx q.va a.ch .rmw
  let bad := poisoned s a.ctx q.va
  let old := if bad then Config.freeNat s.freeIx % 256 ^ q.n else curLE s a.ctx q.va q.n
  let (r, writes) := combine a.kind old q
  let s1 := if writes then writeLoc s pl cl a.ctx q.va (natBytes q.n r.1) a.ch else obtainLoc s pl cl a.ctx q.va a.ch
  let s2 := finishPiece s1 i k p old r.2
  if bad && a.returns then recordPoison s2 i k a q else s2

/-- A reduction at memory (R37): in the LLC slice, or at the frame of an absent line. `f` gives the new value of the `n` bytes. -/
def reduceAt (s : State) (ctx va n : Nat) (f : Nat → Nat) : State :=
  let line := va / 256
  let wk := walk s ctx va
  let far := match wk with
    | .leaf _ size e => !pteProc e && 2 ^ 42 ≤ leafFrame size e
    | _ => false
  let io := (wk.pte.map fun e => ptePbmt e == 2).getD false
  let migrating := match frameKey s ctx va wk with
    | some k => (migAt s k).isSome
    | none => false
  let s1 := if io then s
    else if llcHas s ctx line then recallLine (homeAccess s ctx line) ctx line none none
    else if far && !migrating then atHome s ctx line else homeAccess s ctx line
  let bytes := natBytes n (f (curLE s1 ctx va n))
  if !io && llcHas s1 ctx line then (acceptBytes s1 ctx line ((bytes.zipIdx).map fun e => (va + e.2, e.1))).1
  else writeLoc s1 .frame 0 ctx va bytes 0

def performNmred (s : State) (i k p : Nat) (a : Acc) (q : Piece) : State :=
  finishPiece (reduceAt s a.ctx q.va q.n fun old => (combine a.kind old q).1.1) i k p 0 0

/-- One part, by the kind of its access. -/
def performPiece (s : State) (i k p : Nat) : State :=
  match Tbl.find (s.sl i).accs k with
  | none => s
  | some a =>
    match a.pieces[p]? with
    | none => s
    | some q =>
      if q.done then s
      else match a.kind with
        | .load => performLoad s i k p a q
        | .mapLoad => performMapLoad s i k p a q
        | .store => performStore s i k p a q
        | .mapStore => performMapStore s i k p a q
        | .nmred _ _ => performNmred s i k p a q
        | .remLoad => s
        | .remStore => s
        | _ => performAtom s i k p a q

/-- The parts performed in one event: the sector of a gang, the lanes of one issue at one location (R212, R317), on STRONG pages all of an
atomic's lanes in order (R219), or one part. -/
def eventPieces (s : State) (i k p : Nat) (a : Acc) (q : Piece) : List (Nat × Nat × Nat) :=
  let all := (grpAccs s i a.grp).flatMap fun e => (e.2.2.pieces.zipIdx).map fun z => (e.1, e.2.1, z.2, z.1)
  let pick := fun (f : Piece → Bool) => (all.filter fun e => !e.2.2.2.done && f e.2.2.2).map fun e => (e.1, e.2.1, e.2.2.1)
  let same := pick fun z => (z.ord == 1 && q.ord == 1) || z.va == q.va
  if a.whole then pick fun _ => true
  else match a.kind with
    | .atom _ _ => same
    | .red _ _ => same
    | .nmred _ _ => same
    | .cas => same
    | _ => [(i, k, p)]

/-- The accesses before a part of an event have been performed. -/
def partReady (s : State) (e : Nat × Nat × Nat) : Bool :=
  match Tbl.find (s.sl e.1).accs e.2.1 with
  | none => true
  | some a => match a.pieces[e.2.2]? with
    | none => true
    | some q => earlierDone s e.1 e.2.1 a q

/-- The event for part `p` of access `k` of slice `i`, where `ok` says which kinds of access it performs. -/
def pieceEvent (ok : Acc → Bool) (s : State) (i k p : Nat) : State :=
  match Tbl.find (s.sl i).accs k with
  | none => s
  | some a =>
    match a.pieces[p]? with
    | none => s
    | some q =>
      if ok a && !q.done && vacantAt s q.va then parkVacant s (.part i k p) (corePkg (s.coreOf i)) q.va
      else if ok a && !q.done && pieceReady s i k a q && (eventPieces s i k p a q).all (partReady s) then
        (eventPieces s i k p a q).foldl (fun s e => performPiece s e.1 e.2.1 e.2.2) s
      else s

def execHomeReadRequest (sl acc piece : Nat) (s : State) : Out :=
  .next (pieceEvent (fun a => a.kind == .load || a.kind == .mapLoad) s sl acc piece)

def execHomeStoreRequest (sl acc piece : Nat) (s : State) : Out :=
  .next (pieceEvent (fun a => !a.isLoad && !a.remote && (match a.kind with | .nmred _ _ => false | _ => true)) s sl acc piece)

def execNearMemoryReduction (sl acc piece : Nat) (s : State) : Out :=
  .next (pieceEvent (fun a => match a.kind with | .nmred _ _ => true | _ => false) s sl acc piece)

/-! ### Remote stash (R123, R124) -/

/-- The trap of a remote access (R123, R124): one for the access, at its first failing part. -/
def remoteFail (s : State) (i k p : Nat) (a : Acc) (q : Piece) (code addr : Nat) (frec : DWord := 0) : State :=
  deferAccess (finishPiece s i k p (Config.freeNat s.freeIx % 256 ^ q.n) 0) i k code frec a.pc (BitVec.ofNat 64 addr) (pieceLanes s i a q)

/-- A remote load from mapped bytes reads them (R126). -/
def remoteRead (s : State) (i k p : Nat) (a : Acc) (q : Piece) (crew va : Nat) : State :=
  let cl := coreCluster (s.coreOf i)
  if poisoned s a.ctx va then
    deferAccess (finishPiece (readMapped s crew cl a.ctx va a.ch) i k p (Config.freeNat s.freeIx % 256 ^ q.n) 0) i k cMemError 0 a.pc
      (BitVec.ofNat 64 (va / 256 * 256)) (pieceLanes s i a q)
  else finishPiece (readMapped s crew cl a.ctx va a.ch) i k p (curLE s a.ctx va q.n) 0

/-- A read of a procedural block is presented to its home, once, and waits there (R69); a sector that the tile or the L2 holds is served. -/
def remoteWaits (s : State) (i k p : Nat) (a : Acc) (crew va : Nat) : Option State :=
  let held := (crewTiles s crew a.ctx va).any fun e => (tagOf s crew e.2.1).sv.getLsbD (e.2.2 / 128)
  if !isProc s a.ctx va || ((held || inL2 s (coreCluster (s.coreOf i)) a.ctx va) && !isFilling s a.ctx va) then none
  else if s.fillReqs.any fun e => e.2.who == .remote i k p then some s
  else some (addReqs s [] [fillReq s (.remote i k p) (s.sl i).crew a.ctx va false])

/-- The home's answer to a remote load's read of its block: the bytes are read there and then (R69, R75), or the failure is found. -/
def remoteAnswer (s : State) (i k p : Nat) (ans : Answer) : State :=
  match Tbl.find (s.sl i).accs k with
  | none => s
  | some a =>
    match a.pieces[p]? with
    | none => s
    | some q =>
      match remoteGlobal s i q.va, ans with
      | some (t, va), .filled _ _ _ => if q.done then s else remoteRead s i k p a q t va
      | _, .failed b _ code frec => if q.done then s else remoteFail s i k p a q code b frec
      | _, _ => s

/-- A remote access to a mapped tile is an access to the address its bytes stand for (R126), which its owner clears when it is performed (R54):
it waits for a closing page (R62), a vacant index (R372), the ways of the L2 slice (R92) and a procedural block (R69). What clearance refuses
is found at the target and taken deferred (DEDUCED, log 80). -/
def remoteMapped (s : State) (i k p : Nat) (a : Acc) (q : Piece) (crew va : Nat) : State :=
  let r : Right := if a.isLoad then .read else .write
  let cl := coreCluster (s.coreOf i)
  if vacantAt s va then parkVacant s (.part i k p) (corePkg (s.coreOf i)) va
  else if closingFor s a.ctx va r || (s.cluster cl).raising.isSome then s
  else
  let ans := ownerAnswer s a.ctx va r (s.crewOf i).gen
  let s0 := if walkTable s a.ctx va == .hole then s.log "hole" [a.ctx, va] else s
  let s1 := setAD (tlbFill s0 a.ctx va) a.ctx va ans
  match ans with
  | .grant _ _ _ _ =>
    if a.isLoad then (remoteWaits s1 i k p a crew va).getD (remoteRead s1 i k p a q crew va)
    else finishPiece (storeMapped s1 crew cl a.ctx va (natBytes q.n q.data) a.ch) i k p 0 0
  | .nonResident _ =>
    if a.isLoad then (finishPiece s1 i k p 0 0).updSl i fun x => { x with flags := x.flags ||| fNR }
    else remoteFail s1 i k p a q cUnmapped va
  | .refused _ _ code => remoteFail s1 i k p a q code va
  | _ => remoteFail s1 i k p a q (protCode r) va

def remoteAccess (s : State) (i k p : Nat) : State :=
  match Tbl.find (s.sl i).accs k with
  | none => s
  | some a =>
    match a.pieces[p]? with
    | none => s
    | some q =>
      if !a.remote || q.done || !pieceReady s i k a q then s
      else
        let off := q.va % 2 ^ 19
        match crewOnCore s (s.crewOf i).span (remTarget q.va) with
        | none => remoteFail s i k p a q cLocalRange q.va
        | some t =>
          if (s.crew t).tiles ≤ off / 1024 then remoteFail s i k p a q cLocalRange q.va
          else if (tagOf s t (off / 1024)).owner != .slices then (if a.isLoad then s else remoteFail s i k p a q cOwner q.va)
          else match mappedVa s t off with
            | some va => remoteMapped s i k p a q t va
            | none =>
              if a.isLoad then finishPiece s i k p (Mem.readLE s.stash (t * 2 ^ 19 + off) q.n) 0
              else finishPiece { s with stash := Mem.writeLE s.stash (t * 2 ^ 19 + off) q.n q.data } i k p 0 0

def execRemoteStashAccess (sl acc piece : Nat) (s : State) : Out := .next (remoteAccess s sl acc piece)

/-! ### Results, copies, banks -/

/-- A result reaches its register; the last one of its instruction frees its place, and its place at the function unit (R142, R273). -/
def resultWriteback (s : State) (i k : Nat) : State :=
  match (s.sl i).ready[k]? with
  | none => s
  | some r =>
    let left := Tbl.findD (s.sl i).outst r.id 0 - 1
    let s1 := s.updSl i fun x =>
      { landIn x r.dst r.val with
        ready := x.ready.eraseIdx k
        outst := if left = 0 then Tbl.del x.outst r.id else Tbl.put x.outst r.id left }
    if left = 0 then
      s1.updCore (s.coreOf i) fun c => { c with slots := c.slots.map fun t => { t with sfu := t.sfu.filter (· != r.id) } }
    else s1

def execResultWriteback (sl k : Nat) (s : State) : Out := .next (resultWriteback s sl k)

/-- A recall reaches a copy: it goes, and its dirty sectors start home (R35, R127). A tile's holder is its crew. -/
def recallCopy (s : State) (stash : Bool) (holder ctx line : Nat) : State :=
  let cl := if stash then coreCluster (s.crew holder).core else holder
  let s0 := sendCluster s cl (256 * line)
  let (s2, sent) := if stash then cleanLine s0 (2 ^ 20) holder ctx line 3 else cleanLine s0 holder 0 ctx line 3
  let s1 := if sent.isEmpty then sendHome s2 cl 3 (256 * line) 1 else s2
  if stash then
    [0, 1].foldl (fun s k =>
      ((stashAt s ctx (256 * line + 128 * k)).filter fun e => e.1 == holder).foldl (fun s e =>
        let tag := tagOf s holder e.2.1
        setTag s holder e.2.1 { tag with sv := tag.sv &&& ~~~(BitVec.twoPow 8 (e.2.2 / 128)) }) s) s1
  else
    let s2 := touchBank s1 (holder / 64) (l2Bank holder (256 * line))
    { s2 with l2 := Tbl.del s2.l2 (l2Key holder ctx line) }

def execRecall (stash : Bool) (holder ctx line : Nat) (s : State) : Out := .next (recallCopy s stash holder ctx line)

def execWritebackArrival (k : Nat) (s : State) : Out := .next (arriveWriteBack s k)

/-- The package of a bank. -/
def bankPkg (bank : Nat) : Nat := if bank < 2 ^ 20 then bank / 8 / 64 else (bank - 2 ^ 20) / 64 / 8

/-- R39: 2^16 clocks without an access, and awake for its 4096; one bank of a slice in a clock. -/
def bankSleeps (s : State) (bank : Nat) : Bool :=
  let now := (s.pkg (bankPkg bank)).clock
  let (last, asleep, u) := Tbl.findD s.banks bank (0, false, 0)
  !asleep && last + 2 ^ 16 ≤ now && u ≤ now && ((Tbl.find s.bankClock (bankSlice bank)).map fun c => decide (c < now)).getD true

def execBankSleep (bank : Nat) (s : State) : Out :=
  let (last, _, u) := Tbl.findD s.banks bank (0, false, 0)
  .next (if bankSleeps s bank then
      { s with
        banks := Tbl.put s.banks bank (last, true, u)
        bankClock := Tbl.put s.bankClock (bankSlice bank) (s.pkg (bankPkg bank)).clock }
    else s)

/-- A management flush writes a dirty LLC line back to its frame (R36). -/
def execManagementFlush (ctx line : Nat) (s : State) : Out := .next (cleanLlc s ctx line)

end Sys2Proof.Machine
end

