-- ==== Sys2Proof/Machine/Moves.lean ====
section
/-! DEFINITION. The meanings of opcodes 0x50 to 0x5A: moves, special registers, predicates and flags (R295 to R299). -/

namespace Sys2Proof.Machine

def execMov (h : Hdr) (t : Ty) (d a : Opnd) (s : State) : Out := un h t t d a id s

/-- The immediate of MOVI as its type extends it (R295). -/
def moviVal (t : Ty) (imm : Word) : DWord := if t = .s64 then imm.signExtend 64 else imm.setWidth 64

def execMovi (h : Hdr) (t : Ty) (d : Opnd) (s : State) : Out :=
  runUnit h (regMeaning h (vecMode d []) [(d, tyRegs t)] 1 fun _ _ l y => wr t d l (moviVal t h.imm) y) s

/-- MOVIH (R295): bits [63:32] only; a pair's odd register. -/
def execMovih (h : Hdr) (d : Opnd) (s : State) : Out :=
  runUnit h (regMeaning h (vecMode d []) [(d, 2)] 1 fun _ x l y =>
    match d with
    | .v n => y.setV (n + 1) l h.imm
    | .s n => y.setS n (h.imm ++ (x.sreg n).setWidth 32)
    | _ => y) s

/-- V2S (R295): the lane is read whether or not it is active or has exited. -/
def execV2s (h : Hdr) (t : Ty) (d a b : Opnd) (s : State) : Out :=
  runUnit h {
    chk := chkRegs [(a, tyRegs t)]
    lanes := perSlice h
    pre := noPre
    act := fun pre s i _ => s.updSl i fun x =>
      wr t d 0 (rd (pre.crewOf i) x t h.imm ((rd (pre.crewOf i) x .u32 h.imm 0 b).toNat % 4) a) x
    jump := false
    occ := 1 } s

/-! ### Special registers (R296) -/

/-- The smallest code whose tiles reach `n` (R91). -/
def coverCode (n : Nat) : Nat := if n = 0 then 0 else if n ≤ 512 then 1 else if n ≤ 1024 then 2 else 3

/-- A span holds its place on its cluster: its context is not saved away (R250). -/
def spanHere (s : State) (p : Span) : Bool :=
  ((Tbl.find s.launches p.launch).map fun l => (s.ctx l.ctx).st != .stopped).getD true

/-- The scratch tiles that the spans resident on a cluster, other than one, reach to. -/
def scratchTop (s : State) (cluster except_ : Nat) : Nat :=
  ((s.spans.filter fun e => e.2.cluster == cluster && e.1 != except_ && e.2.count != 0 && spanHere s e.2).map fun e =>
    e.2.base + e.2.count).foldl max 0

def floorCode (s : State) (cluster span : Nat) : Nat := coverCode (scratchTop s cluster span)

/-- TRAPCAUSE (R243). -/
def trapCause (x : Slice) : DWord :=
  BitVec.ofNat 64 (x.trapcode.toNat + (if x.trapdef then 2 ^ 8 else 0) + (if x.trapovf then 2 ^ 9 else 0) +
    (if x.hmode then 2 ^ 16 else 0))

/-- The towers of a package that draw spans for a launch (R236). -/
def towersHere (l : Launch) (pkg : Nat) : Nat := (l.towers.filter fun t => t / 8 == pkg).length

/-- The value RDSR reads (R138, R154, R155, R236, R243, R91, R93, R185). -/
def srRead (s : State) (i ix : Nat) : DWord :=
  let x := s.sl i
  let c := s.crewOf i
  let core := c.core
  let cx := s.ctx c.ctx
  let n := fun (k : Nat) => BitVec.ofNat 64 k
  let lr := Tbl.find s.launches c.launch
  if ix = 0 then n (s.clockOf i)
  else if ix = 1 then n c.ctx
  else if ix = 2 then (if c.gen.isSome then 0 else ((lr.map Launch.lid).getD 0).setWidth 64)
  else if ix = 3 then n x.ix
  else if ix = 4 then n c.slices.length
  else if ix = 5 then n c.gangw
  else if ix = 6 then n c.ix
  else if ix = 7 then n ((lr.map fun l => l.lrec.cps).getD 0)
  else if ix = 8 then n (s.span c.span).ix
  else if ix = 9 then n ((lr.map fun l => l.lrec.nspans).getD 0)
  else if ix = 10 then n (coreTower core % 8)
  else if ix = 11 then n ((lr.map fun l => towersHere l (corePkg core)).getD 0)
  else if ix = 12 then n (corePkg core)
  else if ix = 13 then n (core % 1024)
  else if ix = 14 then n (match x.role with | .vec => 0 | .copy => 1 | .mat => 2 | .deck => 3)
  else if ix = 15 then (lr.map fun l => l.lrec.args).getD 0
  else if ix = 0x20 then x.flags.setWidth 64
  else if ix = 0x21 then (if c.hasDeck then c.deck.dkflags.setWidth 64 else 0)
  else if ix = 0x30 then trapvecNow s i
  else if ix = 0x31 then x.trappc
  else if ix = 0x32 then trapCause x
  else if ix = 0x33 then x.trapaddr
  else if ix = 0x34 then x.trapmask.setWidth 64
  else if ix = 0x35 then x.trapinfo
  else if 0x40 ≤ ix ∧ ix < 0x50 then (fRegNow s i (ix - 0x40)).setWidth 64
  else if 0x50 ≤ ix ∧ ix < 0x60 then (gRegNow s i (ix - 0x50)).setWidth 64
  else if ix = 0x70 then n ((s.cluster (coreCluster core)).ways + 16 * floorCode s (coreCluster core) c.span)
  else if ix = 0x71 then n ((s.span c.span).base + 2 ^ 16 * (s.span c.span).count)
  else if ix = 0x80 then n ((lr.map fun l => l.lrec.stag).getD 0)
  else if ix = 0xF0 then cx.capbase
  else 0

def execRdsr (h : Hdr) (t : Ty) (d : Opnd) (s : State) : Out :=
  runUnit h {
    chk := chkRegs [(d, tyRegs t)]
    lanes := lanesFor (vecMode d []) h
    pre := noPre
    act := fun pre s i m => s.updSl i fun x => eachLane (vecMode d []) m x fun l y => wr t d l (srRead pre i h.imm.toNat) y
    jump := false
    occ := 1 } s

/-- The value WRSR writes. -/
def wrsrVal (s : State) (i : Nat) (h : Hdr) (t : Ty) (a : Opnd) : DWord := rd (s.crewOf i) (s.sl i) t h.imm 0 a

/-- WRSR: checks that do not depend on the value, the cause of a value that is refused, and the effect. -/
def wrsrMeaning (h : Hdr) (t : Ty) (a : Opnd) (chk : State → Nat → Option Nat) (bad : DWord → Option Nat)
    (eff : DWord → State → Nat → State) (s : State) : Out :=
  runUnit h {
    chk := chk
    lanes := perSlice h
    pre := fun s i _ =>
      match bad (wrsrVal s i h t a) with
      | some code => .trap (trapPlain 1 code)
      | none => .go
    act := fun pre s i _ => eff (wrsrVal pre i h t a) s i
    jump := false
    occ := 1 } s

/-- WRSR to an identity register, SPANSCR or CAPBASE (R138, R236, R93). -/
def execWrsr (h : Hdr) (t : Ty) (a : Opnd) (s : State) : Out :=
  wrsrMeaning h t a (fun _ _ => some cPriv) (fun _ => none) (fun _ s _ => s) s

def execWriteFlags (h : Hdr) (t : Ty) (a : Opnd) (s : State) : Out :=
  wrsrMeaning h t a (fun _ _ => none) (fun v => if 64 ≤ v.toNat then some cReservedOperand else none)
    (fun v s i => s.updSl i fun x => { x with flags := v.setWidth 6 }) s

/-- DKFLAGS (R185): only the DECK slice of a crew that holds the Deck. -/
def execWriteDkflags (h : Hdr) (t : Ty) (a : Opnd) (s : State) : Out :=
  wrsrMeaning h t a (fun s i => if (s.sl i).role = .deck then none else some cRole)
    (fun v => if v &&& ~~~0x3D != 0 then some cReservedOperand else none)
    (fun v s i => s.updCrew (s.sl i).crew fun c => { c with deck := { c.deck with dkflags := v.setWidth 6 } }) s

/-- A context register whose new value travels to the cores (R157, R243). -/
def ctxRegWrite (ix : Nat) (v : DWord) (s : State) (i : Nat) : State :=
  (s.updCtx (s.ctxOf i) fun c => { c with pendReg := c.pendReg ++ [(ix, v, i)] }).updSl i (standAt .ctxReg)

def execWriteTrapvec (h : Hdr) (t : Ty) (a : Opnd) (s : State) : Out :=
  wrsrMeaning h t a (fun _ _ => none) (fun v => if v.toNat % 4 != 0 then some cReservedOperand else none)
    (ctxRegWrite 0x30) s

/-- The trap registers of a slice (R243): the fields that handler mode may write. -/
def trapRegWrite (ix : Nat) (v : DWord) (x : Slice) : Slice :=
  if ix = 0x31 then { x with trappc := v }
  else if ix = 0x32 then { x with trapcode := v.setWidth 8, trapdef := v.getLsbD 8, trapovf := v.getLsbD 9 }
  else if ix = 0x33 then { x with trapaddr := v }
  else if ix = 0x34 then { x with trapmask := v.setWidth 32 }
  else if ix = 0x35 then { x with trapinfo := v }
  else x

def execWriteTrapRegister (h : Hdr) (t : Ty) (a : Opnd) (s : State) : Out :=
  wrsrMeaning h t a (fun s i => if (s.sl i).hmode then none else some cPriv) (fun _ => none)
    (fun v s i => s.updSl i (trapRegWrite h.imm.toNat v)) s

/-- A format register (R156). -/
def execWriteFormatRegister (h : Hdr) (t : Ty) (a : Opnd) (s : State) : Out :=
  wrsrMeaning h t a (fun _ _ => none) (fun v => if formatRegOk v then none else some cFormat)
    (ctxRegWrite h.imm.toNat) s

/-- A tensor scale (R156). -/
def execWriteTensorScale (h : Hdr) (t : Ty) (a : Opnd) (s : State) : Out :=
  wrsrMeaning h t a (fun _ _ => none)
    (fun v => if v.toNat < 2 ^ 32 && positiveNormal fmtF32 v.toNat then none else some cFormat)
    (ctxRegWrite h.imm.toNat) s

/-- Scratch contents of a cluster at or beyond a tile are lost (R92); the tiles keep their tags (DESIGN CHOICE, log 87). -/
def dropScratch (s : State) (cluster top : Nat) : State :=
  { s with scratch := s.scratch.filter fun e =>
      let sp := s.span (e.1 / 2 ^ 23)
      sp.cluster != cluster || !spanHere s sp || sp.base + e.1 % 2 ^ 23 / 4096 < top }

/-- A new WAYS code (R92): lowering is done at once, raising waits until the ways have been emptied. -/
def setWays (s : State) (cluster code sl : Nat) : State :=
  let cl := s.cluster cluster
  if code ≤ cl.ways then dropScratch (s.setCluster cluster { cl with ways := code }) cluster (256 * waysOf code)
  else s.setCluster cluster { cl with raising := some (code, sl) }

/-- L2WP (R91, R92). A second write waits for the first. -/
def execWriteL2wp (h : Hdr) (t : Ty) (a : Opnd) (s : State) : Out :=
  runUnit h {
    chk := fun _ _ => none
    lanes := perSlice h
    pre := fun s i _ =>
      if wrsrVal s i h t a &&& ~~~0x33 != 0 then .trap (trapPlain 1 cReservedOperand)
      else if (s.cluster (coreCluster (s.coreOf i))).raising.isSome then .park .l2wp
      else .go
    act := fun pre s i _ =>
      let cl := coreCluster (s.coreOf i)
      let code := max ((wrsrVal pre i h t a).toNat % 4) (floorCode pre cl (s.crewOf i).span)
      if (s.cluster cl).raising.isSome then s.updSl i (issueAgain .l2wp)
      else (setWays s cl code i).updSl i (standAt .l2wp)
    jump := false
    occ := 1 } s

/-! ### Predicates and flags (R297 to R299) -/

def execPmix (h : Hdr) (pd a b c : PredOp) (s : State) : Out :=
  runUnit h (regMeaning h (!pd.q || !a.q || !b.q || !c.q) [] 1 fun _ x l y =>
    let bit := fun (p : PredOp) => if rdPred p l x then 1 else 0
    wrPred pd l (h.imm.getLsbD (4 * bit c + 2 * bit b + bit a)) y) s

/-- A predicate set as a number, p7 included. -/
def predByte (x : Slice) (q : Bool) (l : Nat) : Nat :=
  (List.range 8).foldl (fun n k => n + if rdPred ⟨q, k⟩ l x then 2 ^ k else 0) 0

def execPsave (h : Hdr) (q : Bool) (d : Opnd) (s : State) : Out :=
  runUnit h (regMeaning h (!q) [(d, 1)] 1 fun _ x l y =>
    wr (if q then .u64 else .u32) d l (BitVec.ofNat 64 (predByte x q l)) y) s

def execPload (h : Hdr) (q : Bool) (a : Opnd) (s : State) : Out :=
  runUnit h (regMeaning h (!q) [(a, 1)] 1 fun c x l y =>
    (List.range 7).foldl (fun y k => if h.imm.getLsbD k then wrPred ⟨q, k⟩ l ((rd c x .u32 0 l a).getLsbD k) y else y) y) s

/-- FLGRD (R299): once per slice, into every active lane of a v destination. -/
def execFlgrd (h : Hdr) (d : Opnd) (s : State) : Out :=
  runUnit h {
    chk := chkRegs [(d, 1)]
    lanes := perSlice h
    pre := noPre
    act := fun _ s i m => s.updSl i fun x => eachLane true m x fun l y => wr .u32 d l (x.flags.setWidth 64) y
    jump := false
    occ := 1 } s

def execFlgclr (h : Hdr) (s : State) : Out :=
  runUnit h {
    chk := fun _ _ => none
    lanes := perSlice h
    pre := noPre
    act := fun _ s i _ => s.updSl i fun x => { x with flags := x.flags &&& ~~~(h.imm.setWidth 6) }
    jump := false
    occ := 1 } s

end Sys2Proof.Machine
end

