-- ==== Sys2Proof/Machine/OwnerEvents.lean ====
section
/-! DEFINITION. Events at the owner tower: clearance, page walks, residency, downgrades and shootdowns, migration (R40 to R44, R53 to R63),
and the registers that travel to the cores (R92, R157). An event that is not due leaves the state as it is. -/

namespace Sys2Proof.Machine

/-- The asker's generator identity. -/
def askerGen (s : State) (w : Asker) : Option GenInfo :=
  match w with
  | .slice i => (s.crewOf i).gen
  | .fetch i => (s.crewOf i).gen
  | .chain c _ => (s.crew c).gen
  | .os _ => none
  | .remote i _ _ => (s.crewOf i).gen

/-! ### Clearance -/

/-- The TLB answers a request whose cached leaf grants it, where the owner uses that leaf (R50, R52, R53, R61). -/
def tlbGrant (s : State) (ctx va : Nat) (r : Right) : Option Answer :=
  match tlbFind s ctx va with
  | some e => if leafAllows r e.leaf && !pteProc e.leaf && e.agrees (walk s ctx va) then some (.grant e.page e.size r false) else none
  | none => none

/-- A request reaches its owner: it parks on a vacant index (R372) or a closing page, is answered from the TLB, or starts a walk. -/
def clearanceRequest (s : State) (k : Nat) : State :=
  match Tbl.find s.clrReqs k with
  | none => s
  | some q =>
    let pk := vaPkg q.va
    if q.ans.isSome || q.walk then s
    else if (s.pkg pk).vacant then parkVacant s (.clr k) (corePkg (askerCore s q.who)) q.va
    else if closingFor s q.ctx q.va q.r then s
    else
      match tlbGrant s q.ctx q.va q.r with
      | some a => { setAD s q.ctx q.va a with clrReqs := Tbl.put s.clrReqs k { q with ans := some a } }
      | none => { s with clrReqs := Tbl.put s.clrReqs k { q with walk := true } }

def execClearanceRequest (k : Nat) (s : State) : Out := .next (clearanceRequest s k)

/-- A walk ends: it answers the requests that wait for it (R51, R53); a leaf that touches a hole is logged to the OS cores (R33). -/
def pageWalkDone (s : State) (tower ctx va : Nat) : State :=
  let hit := fun (q : ClrReq) => q.walk && q.ans.isNone && q.ctx == ctx && vaTower q.va == tower && q.va / 4096 == va / 4096 &&
    !closingFor s ctx q.va q.r
  let qs := s.clrReqs.filter fun e => hit e.2
  if qs.isEmpty then s
  else
    let s0 := if walkTable s ctx va == .hole then s.log "hole" [ctx, va] else s
    let s1 := qs.foldl (fun s e =>
      let a := ownerAnswer s ctx e.2.va e.2.r (askerGen s e.2.who)
      { setAD s ctx e.2.va a with clrReqs := Tbl.put s.clrReqs e.1 { e.2 with ans := some a, walk := false } }) s0
    tlbFill s1 ctx va

def execPageWalkDone (tower ctx : Nat) (va : DWord) (s : State) : Out := .next (pageWalkDone s tower ctx va.toNat)

/-- The slices that wait with a slice for one set of answers: those that issued together (R54). -/
def sameAskers (s : State) (i : Nat) : List Nat :=
  match (s.sl i).park with
  | .before (.answers ids) => if ids.contains i then ids.filter fun j => j == i || (s.sl j).park == .before (.answers ids) else [i]
  | _ => [i]

/-- An answer reaches its asker; a grant for a resident page enters the core's cache, the generator's window does not (R56, R74). -/
def clearanceAnswer (s : State) (k : Nat) : State :=
  match Tbl.find s.clrReqs k with
  | none => s
  | some q =>
    match q.ans with
    | none => s
    | some a =>
      let s1 := { s with clrReqs := Tbl.del s.clrReqs k }
      let s2 := match a with
        | .grant page size r false => s1.updCore (askerCore s q.who) fun c => clrPut c ⟨q.ctx, page, size, r⟩
        | _ => s1
      match q.who with
      | .slice i => (sameAskers s i).foldl (fun s j => s.updSl j fun x => { x with answers := x.answers ++ [a] }) s2
      | .fetch i => (sameAskers s i).foldl (fun s j => s.updSl j fun x => { x with fetch := x.fetch ++ [a] }) s2
      | .os _ => s2
      | .remote _ _ _ => s2
      | .chain c ch => s2.updCrew c fun w =>
          { w with chains := (w.chains.zipIdx).map fun e => if e.2 = ch then { e.1 with answers := e.1.answers ++ [a] } else e.1 }

def execClearanceAnswer (k : Nat) (s : State) : Out := .next (clearanceAnswer s k)

/-! ### Residency (R59) -/

/-- A residency notice reaches the owner: one record a page, whose base is the 4 KiB base of the address (DESIGN CHOICE, log 77); dropped and
counted where the queue is full. -/
def residencyRequest (s : State) (k : Nat) : State :=
  match Tbl.find s.resReqs k with
  | none => s
  | some (ctx, va, core) =>
    if vacantAt s va then parkVacant s (.res k) (corePkg core) va
    else
    let s1 := { s with resReqs := Tbl.del s.resReqs k }
    let page := va / 4096 * 4096
    if walk s ctx va = .nonResident then
      s1.updTower (vaTower va) fun t =>
        if t.residency.any fun e => e.1 == ctx && e.2.1 == page then t
        else if t.residency.length < 1024 then { t with residency := t.residency ++ [(ctx, page, core % 1024)] }
        else { t with resDrops := t.resDrops + 1 }
    else s1

def execResidencyRequest (k : Nat) (s : State) : Out := .next (residencyRequest s k)

def execResidencyQueueDrain (tower n : Nat) (s : State) : Out :=
  .next (s.updTower tower fun t => { t with residency := t.residency.drop n })

/-- An OS core's store to an entry through the uncached window (R47, R60). -/
def execOsCorePteStore (pkg pa : Nat) (pte : DWord) (s : State) : Out :=
  .next (if pa % 8 = 0 && populated (s.pkg pkg) pa then physPut s (physKey pkg pa) 8 pte.toNat else s)

/-- A force-unmap makes a page non-resident without a recall (R224). -/
def execForceUnmap (ctx : Nat) (va : DWord) (s : State) : Out :=
  .next (tlbDrop (updLeaves s ctx va.toNat fun p => p &&& ~~~1) ctx (va.toNat / 4096 * 4096) 4096)

/-! ### Downgrades (R61 to R63, R361) -/

/-- A MARD has issued and has still to store its result (R342). -/
def Park.isMard : Park → Bool
  | .after (.merged _ _ _ _) _ => true
  | _ => false

/-- The accesses of a core that a shootdown waits for: slices' accesses and MARDs, chains' entries, queued loops, Deck instructions, and
collective contributions on their way, the last of which writes the result (R113). -/
def sentFrom (s : State) (core : Nat) : List (Nat × Nat) :=
  let sl := (s.slices.filter fun e => (s.crew e.2.crew).core == core).flatMap fun e => e.2.accs.map fun a => (e.1, a.1)
  let md := (s.slices.filter fun e => (s.crew e.2.crew).core == core && e.2.park.isMard).map fun e => (e.1, 0)
  let ch := (s.crews.filter fun e => e.2.core == core).flatMap fun e =>
    (e.2.chains.zipIdx).flatMap fun c => c.1.flight.map fun f => (2 ^ 60 + 4 * e.1 + c.2, f.1)
  let lp := (s.core core).loops.map fun l => (2 ^ 61 + core, l.id)
  let dk := (s.crews.filter fun e => e.2.core == core).flatMap fun e => e.2.deck.queue.map fun d => (2 ^ 62 + e.1, d.uid)
  let co := (s.colls.filter fun e => (s.crew e.2.crew).core == core && !e.2.arrived).map fun e => (2 ^ 63, e.1)
  sl ++ md ++ ch ++ lp ++ dk ++ co

/-- The downgrade, or flush, names the address. -/
def Downgrade.covers (d : Downgrade) (ctx va : Nat) : Bool := d.ctx == ctx && (d.leaf.isNone || (d.va ≤ va && va < d.va + d.size))

/-- A grant on its way to the core for a named page is not delivered: its request is met again (R63). -/
def recallGrants (s : State) (d : Downgrade) (core : Nat) : State :=
  { s with clrReqs := s.clrReqs.map fun e =>
      match e.2.ans with
      | some (.grant _ _ _ _) =>
        if askerCore s e.2.who == core && d.covers e.2.ctx e.2.va then (e.1, { e.2 with ans := none, walk := false }) else e
      | _ => e }

/-- A core empties its clearance cache, with the grants that its slices and chains hold or that are on their way, and its cached code (R62,
R63, R253). -/
def shootdownMessage (s : State) (dg core : Nat) : State :=
  match Tbl.find s.downgrades dg with
  | none => s
  | some d =>
    if !d.toEmpty.contains core then s
    else
      let sent := sentFrom s core
      let s1 := s.updCore core fun c => { c with clr := [], icache := [] }
      let noGrant := fun (l : List Answer) => l.filter fun a => match a with | .grant _ _ _ _ => false | _ => true
      let emptied := fun (c : Chain) => { c with answers := noGrant c.answers }
      let slices := s1.slices.map fun (e : Nat × Slice) =>
        if (s1.crew e.2.crew).core = core then (e.1, { e.2 with answers := noGrant e.2.answers, fetch := [] }) else e
      let crews := s1.crews.map fun (e : Nat × Crew) =>
        if e.2.core = core then (e.1, { e.2 with chains := e.2.chains.map emptied }) else e
      let s2 := recallGrants { s1 with slices := slices, crews := crews } d core
      let d1 := { d with toEmpty := d.toEmpty.filter (· != core), toAnswer := d.toAnswer ++ [core], waitFor := Tbl.put d.waitFor core sent }
      recallPackets { s2 with downgrades := Tbl.put s2.downgrades dg d1 } (coreCluster core) d.va 0

def execShootdownMessage (dg core : Nat) (s : State) : Out := .next (shootdownMessage s dg core)

def stillSent (s : State) (e : Nat × Nat) : Bool :=
  if e.1 < 2 ^ 60 then (if e.2 = 0 then (s.sl e.1).park.isMard else (Tbl.find (s.sl e.1).accs e.2).isSome)
  else if e.1 < 2 ^ 61 then
    let c := (e.1 - 2 ^ 60) / 4
    ((((s.crew c).chains)[(e.1 - 2 ^ 60) % 4]?).map fun ch => (Tbl.find ch.flight e.2).isSome).getD false
  else if e.1 < 2 ^ 62 then (s.core (e.1 - 2 ^ 61)).loops.any fun l => l.id == e.2
  else if e.1 < 2 ^ 63 then (s.crew (e.1 - 2 ^ 62)).deck.queue.any fun d => d.uid == e.2
  else ((Tbl.find s.colls e.2).map fun c => !c.arrived).getD false

/-- The lines of a range that some cache holds. -/
def heldLines (s : State) (ctx va size : Nat) : List Nat :=
  let inRange := fun (line : Nat) => va ≤ 256 * line && 256 * line < va + size
  let a := (s.llc.filter fun e => e.1 / 2 ^ 49 == ctx && inRange (e.1 % 2 ^ 49)).map fun e => e.1 % 2 ^ 49
  let b := (s.l2.filter fun e => e.1 % 2 ^ 57 / 2 ^ 49 == ctx && inRange (e.1 % 2 ^ 49)).map fun e => e.1 % 2 ^ 49
  let c := (s.writeBacks.filter fun e => e.2.ctx == ctx && inRange e.2.line).map fun e => e.2.line
  (a ++ b ++ c).dedup

/-- Dirty copies of a line are written back and stay clean (R62, phase 3 where only WRITE goes). -/
def cleanCopies (s : State) (ctx line : Nat) : State :=
  let cls := (l2Holders s ctx line).map Prod.fst
  let crews := (stashAt s ctx (256 * line) ++ stashAt s ctx (256 * line + 128)).map Prod.fst
  let (s1, k1) := cls.foldl (fun (a : State × List Nat) cl => let r := cleanLine (sendCluster a.1 cl (256 * line)) cl 0 ctx line 3; (r.1, a.2 ++ r.2)) (s, [])
  let (s2, k2) := crews.dedup.foldl (fun (a : State × List Nat) c => 
    let r := cleanLine (sendCluster a.1 (coreCluster (a.1.crew c).core) (256 * line)) (2 ^ 20) c ctx line 3; (r.1, a.2 ++ r.2)) (s1, k1)
  let old := (s2.writeBacks.filter fun e => e.2.ctx == ctx && e.2.line == line).map Prod.fst
  (k2 ++ old).dedup.foldl arriveWriteBack s2

/-- Phase 3 (R62). A migration keeps every copy (R43). -/
def recallPhase (s : State) (d : Downgrade) : State :=
  if d.leaf.isNone || d.mig.isSome then s
  else
    (heldLines s d.ctx d.va d.size).foldl (fun s line =>
      if d.writeOnly then cleanCopies s d.ctx line else evictLlc s d.ctx line) s

/-- A core answers once what it sent has been performed; the last answer starts the recall (R62). -/
def shootdownAnswer (s : State) (dg core : Nat) : State :=
  match Tbl.find s.downgrades dg with
  | none => s
  | some d =>
    if !d.toAnswer.contains core || (Tbl.findD d.waitFor core []).any (stillSent s) then s
    else
      let d1 := { d with toAnswer := d.toAnswer.filter (· != core) }
      if d1.toAnswer.isEmpty && d1.toEmpty.isEmpty then
        let s1 := recallPhase s d1
        { s1 with downgrades := Tbl.put s1.downgrades dg { d1 with closed := true } }
      else { s with downgrades := Tbl.put s.downgrades dg d1 }

def execShootdownAnswer (dg core : Nat) (s : State) : Out := .next (shootdownAnswer s dg core)

/-- Phase 4: the new leaf, in every covering entry; the parked requests are met again under it (R62). A migration's copy begins (R42). -/
def downgradeClose (s : State) (dg : Nat) : State :=
  match Tbl.find s.downgrades dg with
  | none => s
  | some d =>
    let none_ := d.toEmpty.isEmpty && d.toAnswer.isEmpty
    if !(d.closed && none_) then s
    else
      let s1 := match d.leaf, d.mig with
        | some l, none => tlbDrop (updLeaves s d.ctx d.va fun _ => l) d.ctx d.va d.size
        | _, some m => { s with migs := Tbl.upd s.migs m fun g => { g with phase := .copying } }
        | none, none => s
      let done := fun (x : Slice) => match x.park with
        | .after (.shootdown k) w => if k = dg then { x with park := .after (.clock 0) w } else x
        | _ => x
      { s1 with downgrades := Tbl.del s1.downgrades dg, slices := s1.slices.map fun e => (e.1, done e.2) }

def execDowngradeClose (dg : Nat) (s : State) : Out := .next (downgradeClose s dg)

/-- A downgrade or flush starts: closing mark, TLB entry dropped, shootdown to every core of the domain (R62). -/
def startDowngrade (s : State) (d : Downgrade) : State :=
  let s1 := if d.leaf.isSome then tlbDrop s d.ctx d.va d.size
    else { s with towers := s.towers.map fun t => (t.1, { t.2 with tlb := t.2.tlb.filter fun e => e.ctx != d.ctx, walks := [] }) }
  let cores := Tbl.keys s.cores
  let s2 := if cores.isEmpty then recallPhase s1 d else s1
  { s2.fresh with downgrades := Tbl.put s2.downgrades s2.nextId { d with toEmpty := cores, closed := cores.isEmpty } }

/-! ### Pools (R41, R68) -/

/-- The frame lies aligned in tower t's stacks. -/
def frameUsable (p : Pkg) (t frame size : Nat) : Bool :=
  frame % size == 0 && t * 2 ^ 37 ≤ frame && frame + size ≤ (t + 1) * 2 ^ 37 && framePopulated p frame size

/-- Eight bytes of a pool, a physical address, can be read and written: no hole and no uncorrectable error (R41). -/
def poolWord (s : State) (pkg pa : Nat) : Bool :=
  (List.range 8).all fun k => populated (s.pkg pkg) (pa + k) && !s.poison.contains (physLine s (physKey pkg (pa + k)))

/-- Pop a frame of a size from a pool of tower `tw` (domain number); a table at 0 has none. Unusable frames leave the list and are logged. The
record of a head that cannot be read carries the code of an uncorrectable error (log 75). -/
def popPool (s : State) (ctx tw table off size : Nat) : Option Nat × State :=
  let pkg := tw / 8
  let pk := s.pkg pkg
  let head := table + off
  if table = 0 then (none, s)
  else if !poolWord s pkg head then (none, s.log "pool" [ctx, tw, off / 8, cMemError])
  else
    let frame := physLE s (physKey pkg head) 8
    if frame = 0 then (none, s)
    else
      let next := if poolWord s pkg frame then physLE s (physKey pkg frame) 8 else 0
      let s1 := physPut s (physKey pkg head) 8 next
      if frameUsable pk (tw % 8) frame size then (some (physKey pkg frame), s1)
      else (none, s1.log "frame" [ctx, tw, off / 8, frame])

/-- Push a frame; one that cannot be pushed stays out, and its address follows the logged record (R41, R68). -/
def pushPool (s : State) (ctx tw table off frame : Nat) : State :=
  let pkg := tw / 8
  let head := table + off
  if table = 0 then s.log "pool" [ctx, tw, off / 8, 0, frame]
  else if !poolWord s pkg head then s.log "pool" [ctx, tw, off / 8, cMemError, frame]
  else
    let next := physLE s (physKey pkg head) 8
    physPut (physPut s frame 8 next) (physKey pkg head) 8 (frame % 2 ^ 43)

/-! ### Migration (R40 to R44) -/

def sizeIx (size : Nat) : Nat :=
  if size ≤ 2 ^ 12 then 0 else if size ≤ 2 ^ 14 then 1 else if size ≤ 2 ^ 16 then 2 else if size ≤ 2 ^ 18 then 3 else 4

/-- Migrations of one page. -/
def migOf (s : State) (ctx page : Nat) : Bool := s.migs.any fun e => e.2.ctx == ctx && e.2.va == page

def slotsUsed (s : State) (tw : Nat) : Nat := (s.migs.filter fun e => e.2.tower == tw).length

/-- Steps 1 and 2 of R42: a frame is popped, the bitmap is clear, the old frame is marked. -/
def startMigration (s : State) (ctx page size : Nat) (pte : DWord) : Option Nat × State :=
  let tw := vaTower page
  let (f, s1) := popPool s ctx tw (s.ctx ctx).migPool (80 * (tw % 8) + 8 * sizeIx size) size
  match f with
  | none => (none, s1)
  | some new =>
    let old := physKey (vaPkg page) (leafFrame size pte)
    (some s1.nextId, { s1.fresh with migs := Tbl.put s1.migs s1.nextId ⟨tw, ctx, page, size, old, new, [], [], .marked, 0⟩ })

/-- The count of 512 line accesses within 2^20 clocks; with no free slot the count starts again (R40). It starts again too where the target pool has
no frame to give (DESIGN CHOICE, log 69). -/
def migrationStart (s : State) (ctx va : Nat) : State :=
  match walk s ctx va with
  | .leaf page size p =>
    let k := ctx * 2 ^ 57 + page
    let now := (s.pkg (vaPkg va)).clock
    let (n, t0) := Tbl.findD s.migCounts k (0, 0)
    if 512 ≤ n && now ≤ t0 + 2 ^ 20 && movable (.leaf page size p) && !migOf s ctx page then
      let s1 := { s with migCounts := Tbl.del s.migCounts k }
      if 16 ≤ slotsUsed s (vaTower va) then s1 else (startMigration s1 ctx page size p).2
    else s
  | _ => s

def execMigrationStart (ctx : Nat) (va : DWord) (s : State) : Out := .next (migrationStart s ctx va.toNat)

/-- The PPN of a leaf replaced. -/
def withPpn (p : DWord) (pa : Nat) : DWord :=
  BitVec.ofNat 64 (p.toNat - 2 ^ 10 * ptePpn p + 2 ^ 10 * (pa / 4096 % 2 ^ 44))

/-- The accesses from before the mark have completed: every covering leaf names the new frame, and the shootdown starts (R42, step 3).
The Svnapot form keeps PPN[3:0] = 8 (R49). -/
def migrationMarkDrained (s : State) (n : Nat) : State :=
  match Tbl.find s.migs n with
  | none => s
  | some m =>
    if m.phase != .marked then s
    else
      let s1 := updLeaves s m.ctx m.va fun p => withPpn p (m.new % 2 ^ 43 + (if pteBit p 63 then 8 * 4096 else 0))
      let s2 := { s1 with migs := Tbl.put s1.migs n { m with phase := .shootdown, dg := s1.nextId } }
      startDowngrade s2 ⟨m.ctx, m.va, m.size, some 0, true, false, [], [], [], false, some n⟩

def execMigrationMarkDrained (mig : Nat) (s : State) : Out := .next (migrationMarkDrained s mig)

/-- The lowest line whose valid bit is clear. -/
def nextLine (m : Mig) : Option Nat := (List.range (m.size / 256)).find? fun l => !m.valid.contains l

/-- When every bit is set the old frame returns to its pool (R42, step 5). -/
def migrationEnd (s : State) (n : Nat) : State :=
  match Tbl.find s.migs n with
  | none => s
  | some m =>
    if m.phase == .copying && (nextLine m).isNone then
      pushPool { s with migs := Tbl.del s.migs n } m.ctx m.tower (s.ctx m.ctx).migPool (80 * (m.tower % 8) + 40 + 8 * sizeIx m.size) m.old
    else s

/-- Step 4: one line, in ascending order. -/
def migrationLineCopy (s : State) (n : Nat) : State :=
  match Tbl.find s.migs n with
  | none => s
  | some m =>
    if m.phase != .copying then s
    else match nextLine m with
      | some l => migrationEnd (migPull s n m l) n
      | none => migrationEnd s n

def execMigrationLineCopy (mig : Nat) (s : State) : Out := .next (migrationLineCopy s mig)

/-- An access reaches a line whose bit is clear: the engine starts to pull it (R43). -/
def execMigrationAccess (mig line : Nat) (s : State) : Out :=
  .next { s with migs := Tbl.upd s.migs mig fun m =>
    if m.valid.contains line || m.pull.contains line || m.size ≤ 256 * line then m else { m with pull := m.pull ++ [line] } }

/-- A pulled line lands in the new frame (R43). -/
def migrationPullDone (s : State) (n line : Nat) : State :=
  match Tbl.find s.migs n with
  | some m => if m.pull.contains line then migrationEnd (migPull s n m line) n else s
  | none => s

def execMigrationPullDone (mig line : Nat) (s : State) : Out := .next (migrationPullDone s mig line)

/-! ### Registers that travel -/

/-- Every core holds the new f, g or TRAPVEC value; the writer resumes (R157). -/
def ctxRegDone (s : State) (ctx ix : Nat) : State :=
  s.updCtx ctx fun c =>
    match c.pendReg.find? fun e => e.1 == ix with
    | none => c
    | some (_, v, _) =>
      let c1 := { c with pendReg := c.pendReg.eraseIdx (c.pendReg.findIdx fun (e : Nat × DWord × Nat) => e.1 == ix) }
      if ix = 0x30 then { c1 with trapvec := v }
      else if ix < 0x50 then { c1 with f := Tbl.put c1.f (ix - 0x40) (v.setWidth 32) }
      else { c1 with g := Tbl.put c1.g (ix - 0x50) (v.setWidth 32) }

def execContextRegisterPropagated (ctx ix : Nat) (s : State) : Out := .next (ctxRegDone s ctx ix)

/-- The lines leave the ways taken for scratch: a free choice of those that lie there, and what no longer fits a set; the tiles gained read
as zero; a lowering that came meanwhile follows (R92). -/
def raiseWays (s : State) (cl code : Nat) : State :=
  let mine := s.l2.filter fun e => e.1 / 2 ^ 57 == cl
  let full := fun (k : Nat) => 16 - waysOf code < (mine.filter fun e => e.1 % 4096 == k % 4096).length
  let out := mine.filter fun e => full e.1 || Config.freeBool (s.freeIx + e.1)
  let s1 := out.foldl (fun s e => evictL2 s cl (e.1 % 2 ^ 57 / 2 ^ 49) (e.1 % 2 ^ 49)) s
  let s2 := dropScratch s1 cl (256 * waysOf (s.cluster cl).ways)
  let s3 := s2.updCluster cl fun c => { c with ways := code, raising := none, lower := false }
  if (s.cluster cl).lower then setWays s3 cl (min code (floorCode s3 cl 0)) 0 else s3

def l2wpRaiseDone (s : State) (cl : Nat) : State :=
  match (s.cluster cl).raising with
  | some (code, _) => raiseWays s cl code
  | none => s

def execL2wpRaiseDone (cluster : Nat) (s : State) : Out := .next (l2wpRaiseDone s cluster)

end Sys2Proof.Machine
end

