-- ==== Sys2Proof/Machine/Engine.lean ====
section
/-! DEFINITION. What the engines and towers share: how their global accesses are cleared (R54, R57, R69), their reads and writes, local
tiles and owners (R94, R95, R118), rings and counters (R327, R328). -/

namespace Sys2Proof.Machine

/-! ### Global accesses -/

/-- Where a set of accesses stands before it may be made. -/
inductive Stand where
  | ok
  | ask (cs : List ClrReq) (fs : List FillReq)
  | fault (code addr : Nat) (info : DWord)
  deriving DecidableEq, Repr

/-- The first byte that a range touches in each of its 4 KiB pages. -/
def pagesOf (e : Nat × Nat) : List Nat :=
  if e.2 = 0 then []
  else (List.range ((e.1 + e.2 - 1) / 4096 - e.1 / 4096 + 1)).map fun k => if k = 0 then e.1 else (e.1 / 4096 + k) * 4096

/-- Who makes the accesses: the asker, its crew, and the answers it holds. -/
structure Party where
  who  : Asker
  crew : Nat
  as   : List Answer
  deriving DecidableEq, Repr

def sliceParty (s : State) (i : Nat) : Party := ⟨.slice i, (s.sl i).crew, (s.sl i).answers⟩

/-- The entries of the core's clearance cache that such accesses use (R56). -/
def partyUse (s : State) (p : Party) (r : Right) (rs : List (Nat × Nat)) : State :=
  let c := s.crew p.crew
  touchClr s c.core c.ctx r ((rs.flatMap pagesOf).map fun g => ⟨0, g, 1⟩)

/-- Clearance of ranges of bytes, in order; `zeroOk`: a non-resident page reads as zero (R58), else UNMAPPED. -/
def standClr (s : State) (p : Party) (r : Right) (zeroOk : Bool) (rs : List (Nat × Nat)) : Stand :=
  let c := s.crew p.crew
  let st := (rs.flatMap pagesOf).map fun g => (g, clearedFor s c.core c.ctx p.as g r)
  let asks := st.filter fun e => e.2 == .ask
  if asks.isEmpty then
    match st.find? fun e => match e.2 with | .refused _ => true | .nonResident => !zeroOk | _ => false with
    | some (g, .refused code) => .fault code g 0
    | some (g, _) => .fault cUnmapped g 0
    | none => .ok
  else .ask ((asks.map fun e => askBase s c.ctx e.1 r).dedup.map fun g => ⟨p.who, c.ctx, g, r, none, false⟩) []

/-- The bytes of a range in each of its 4 KiB pages. -/
def pageParts (e : Nat × Nat) : List (Nat × Nat) := (pagesOf e).map fun g => (g, min (e.1 + e.2) ((g / 4096 + 1) * 4096) - g)

/-- The cluster's L2 holds every sector of a range, and no generator is filling it: the read does not reach the block's home (R69, R75). -/
def l2Serves (s : State) (cl ctx : Nat) (e : Nat × Nat) : Bool :=
  !isFilling s ctx e.1 && (List.range ((e.1 + e.2 - 1) / 128 - e.1 / 128 + 1)).all fun k => inL2 s cl ctx (128 * (e.1 / 128 + k))

/-- The reads of procedural blocks in ranges that are cleared (R69), those for which `reach` says that they reach the block's home. -/
def standFillAt (reach : Nat × Nat → Bool) (s : State) (p : Party) (rs : List (Nat × Nat)) : Stand :=
  let ctx := (s.crew p.crew).ctx
  let gs := ((rs.flatMap pageParts).filter fun e => isProc s ctx e.1 && reach e).map Prod.fst
  let waits := gs.filter fun g => !p.as.any fun a => coversBlock a g
  if waits.isEmpty then
    let bad := gs.filterMap fun g => match p.as.find? fun a => coversBlock a g with
      | some (.failed _ _ code rec_) => some (code, g, rec_)
      | _ => none
    match bad with
    | (code, addr, info) :: _ => .fault code addr info
    | [] => .ok
  else
    .ask [] ((oncePerBlock s ctx waits).map fun g => fillReq s p.who p.crew ctx g false)

/-- A sector that the cluster's L2 holds is read there. -/
def standFill (s : State) (p : Party) (rs : List (Nat × Nat)) : Stand :=
  standFillAt (fun e => !l2Serves s (coreCluster (s.crew p.crew).core) (s.crew p.crew).ctx e) s p rs

def Stand.next (a b : Stand) : Stand := match a with | .ok => b | _ => a

/-- Reads, with the fills they need. -/
def standRead (s : State) (p : Party) (zeroOk : Bool) (rs : List (Nat × Nat)) : Stand :=
  (standClr s p .read zeroOk rs).next (standFill s p rs)

/-- Where TRAPADDR points for a slice: the block of a GENFAULT, else the byte (R76). -/
def failBase (as : List Answer) (code addr : Nat) : Nat :=
  if code = cGenFault then
    ((as.filterMap fun a => match a with
      | .failed b _ _ _ => if coversBlock a addr then some b else none
      | _ => none).head?).getD addr
  else addr

/-- A slice's instruction that makes such accesses. -/
def Stand.pre (s : State) (i : Nat) (a : Stand) : Pre :=
  match a with
  | .ok => .go
  | .ask cs fs => .ask cs fs
  | .fault code addr info =>
    let x := s.sl i
    .trap ⟨4, code, BitVec.ofNat 64 (failBase x.answers code addr), info, some (gangMask (s.crewOf i) x x.active), 4 * slotOf (s.crewOf i) x⟩

/-- The reader was answered that the page is non-resident. -/
def absentFor (as : List Answer) (va : Nat) : Bool := answerFor as va .read == .nonResident

/-- Bytes kept by an eviction for a reader stand before the present ones (R75); those of a page that was answered non-resident are zero (R58). -/
def readAs (s : State) (ctx : Nat) (as : List Answer) (va n : Nat) : List Byte :=
  (List.range n).map fun k => (keptByte as (va + k)).getD (if absentFor as (va + k) then 0 else curByte s ctx (va + k))

/-- The byte is read at its place. -/
def fromPlace (as : List Answer) (va : Nat) : Bool := (keptByte as va).isNone && !absentFor as va

def anyPoison (s : State) (ctx va n : Nat) : Option Nat := ((List.range n).find? fun k => poisoned s ctx (va + k)).map fun k => va + k

/-- The first poisoned byte of a range that such a reader reads at its place. -/
def poisonFor (s : State) (ctx : Nat) (as : List Answer) (va n : Nat) : Option Nat :=
  ((List.range n).find? fun k => fromPlace as (va + k) && poisoned s ctx (va + k)).map fun k => va + k

/-- The parts of a byte range in separate sectors. -/
def sectorParts (va n : Nat) : List (Nat × Nat) :=
  if n = 0 then []
  else (List.range ((va + n - 1) / 128 - va / 128 + 1)).map fun k =>
    let lo := max va ((va / 128 + k) * 128)
    (lo, min (va + n) ((va / 128 + k + 1) * 128) - lo)

/-- The slice's own earlier accesses under way to global bytes that it is about to touch for one of its engines: stores, and before a store loads
too (R208, R209). -/
def ownUnder (s : State) (i : Nat) (store : Bool) (as : List LaneAcc) : List Nat :=
  ((s.sl i).accs.filter fun e => (store || !e.2.isLoad) && e.2.pieces.any fun q =>
    !q.done && match globalVa s i e.2 q with
      | some g => as.any fun a => a.va < g + q.n && g < a.va + a.n
      | none => false).map Prod.fst

/-- An engine's reads for a slice come after the slice's own earlier stores to these bytes. -/
def ownPre (s : State) (i : Nat) (as : List LaneAcc) : Pre :=
  let ids := ownUnder s i false as
  if ids.isEmpty then .go else .park (.sent ids)

/-- What an engine's read does to the caches, with its requests under its core's window (R85, R115); a non-resident page reads as zero and its home is not accessed (R58). -/
def engRead (s : State) (core cls ctx ch va n : Nat) : State :=
  let cl := coreCluster core
  (sectorParts va n).foldl (fun s e =>
    if (walk s ctx e.1).pte.isSome then
      let pl := placeAt s cl ctx e.1 ch .read
      cacheRead (injectRead s pl core cls ctx e.1) pl cl ctx e.1 ch
    else s) s

/-- The same for a reader with its answers: bytes that it does not read at their place touch nothing. -/
def engReadAs (s : State) (core cls ctx ch : Nat) (as : List Answer) (va n : Nat) : State :=
  (sectorParts va n).foldl (fun s e => if fromPlace as e.1 then engRead s core cls ctx ch e.1 e.2 else s) s

/-- The requests of an engine's stores, one for each sector. -/
def engAsk (s : State) (core cls ctx ch va n : Nat) : State :=
  let cl := coreCluster core
  (sectorParts va n).foldl (fun s e => injectStore s (placeAt s cl ctx e.1 ch .write) core cls ctx e.1 e.2) s

/-- Bytes stored whose requests have been sent. -/
def engWrite (s : State) (core ctx ch va : Nat) (bytes : List Byte) : State :=
  let cl := coreCluster core
  (sectorParts va bytes.length).foldl (fun s e =>
    writeLoc s (placeAt s cl ctx e.1 ch .write) cl ctx e.1 ((bytes.drop (e.1 - va)).take e.2) ch) s

def engPut (s : State) (core cls ctx ch va : Nat) (bytes : List Byte) : State :=
  let cl := coreCluster core
  (sectorParts va bytes.length).foldl (fun s e =>
    let pl := placeAt s cl ctx e.1 ch .write
    writeLoc (injectStore s pl core cls ctx e.1 e.2) pl cl ctx e.1 ((bytes.drop (e.1 - va)).take e.2) ch) s

/-- Bytes stored at their homes. -/
def homePut (s : State) (ctx va : Nat) (bytes : List Byte) : State :=
  (sectorParts va bytes.length).foldl (fun s e =>
    writeLoc s (placeFor (walk s ctx e.1).pte true) 0 ctx e.1 ((bytes.drop (e.1 - va)).take e.2) 0) s

/-! ### Local tiles: space 1 is the crew's stash, 2 its span's scratch -/

/-- The numbers of a run of tiles. -/
def tileRun (t n : Nat) : List Nat := (List.range n).map (t + ·)

def tileSize (sp : Nat) : Nat := if sp = 1 then 1024 else 4096

def lclKey (s : State) (crew sp off : Nat) : Nat :=
  if sp = 1 then crew * 2 ^ 19 + off else (s.crew crew).span * 2 ^ 23 + off

def lclGet (s : State) (crew sp off n : Nat) : List Byte :=
  Mem.readN (if sp = 1 then s.stash else s.scratch) (lclKey s crew sp off) n

def lclPut (s : State) (crew sp off : Nat) (bytes : List Byte) : State :=
  if sp = 1 then { s with stash := Mem.writeN s.stash (lclKey s crew 1 off) bytes }
  else
    let s1 := touchScratch s (s.crew crew).span off bytes.length
    { s1 with scratch := Mem.writeN s.scratch (lclKey s crew 2 off) bytes }

/-- What an engine's read of local bytes does to the banks (R39). -/
def lclTouch (s : State) (crew sp off n : Nat) : State := if sp = 2 then touchScratch s (s.crew crew).span off n else s

/-- R94, R118: a run of tiles lies within what the crew or its span holds. -/
def tilesOk (s : State) (crew sp t n : Nat) : Bool :=
  let c := s.crew crew
  if sp = 1 then t + n ≤ c.tiles
  else
    let p := s.span c.span
    t + n ≤ p.count && p.base + t + n ≤ 256 * waysOf (s.cluster p.cluster).ways

def tilesIn (sp off n : Nat) : List Nat :=
  if n = 0 then []
  else (List.range ((off + n - 1) / tileSize sp - off / tileSize sp + 1)).map fun k => off / tileSize sp + k

/-- R109: a local range lies in its space and in tiles that exist. -/
def lclRangeOk (s : State) (crew sp off n : Nat) : Bool :=
  off + n ≤ (if sp = 1 then 2 ^ 19 else 2 ^ 23) &&
    (n == 0 || tilesOk s crew sp (off / tileSize sp) ((off + n - 1) / tileSize sp - off / tileSize sp + 1))

def ownerOfTile (s : State) (crew sp t : Nat) : Owner :=
  if sp = 1 then (tagOf s crew t).owner else (stagOf s (s.crew crew).span t).owner

def setOwner (s : State) (crew sp t : Nat) (o : Owner) : State :=
  if sp = 1 then setTag s crew t { tagOf s crew t with owner := o }
  else setStag s (s.crew crew).span t { stagOf s (s.crew crew).span t with owner := o }

def ownedBy (s : State) (crew sp off n : Nat) (o : Owner) : Bool := (tilesIn sp off n).all fun t => ownerOfTile s crew sp t == o

/-! ### Rings and counters -/

def ringOf (c : Crew) (n : Nat) : Ring := c.rings.getD n Ring.init

def updRing (s : State) (crew n : Nat) (f : Ring → Ring) : State :=
  s.updCrew crew fun c => { c with rings := (c.rings.zipIdx).map fun e => if e.2 = n then f e.1 else e.1 }

/-- PH[st] of a ring. -/
def ringFull (c : Crew) (n st : Nat) : Bool := (ringOf c n).ph.getLsbD st

def setPhase (full : Bool) (st : Nat) (r : Ring) : Ring :=
  { r with ph := if full then r.ph ||| BitVec.twoPow 8 st else r.ph &&& ~~~(BitVec.twoPow 8 st) }

def kOf (c : Crew) (n : Nat) : Word := Tbl.findD c.k n 0

/-- The counter has reached a target (R111, R328). -/
def kReached (c : Crew) (n : Nat) (target : Word) : Bool := !(kOf c n - target).msb

def kInc (s : State) (crew n : Nat) : State := s.updCrew crew fun c => { c with k := Tbl.put c.k n (kOf c n + 1) }

/-- Agents of a context act: it is running and not being stopped. -/
def ctxRuns (s : State) (ctx : Nat) : Bool := s.hasCtx ctx && (s.ctx ctx).st == .running

/-- Check 6 of R254: the slice has the role. -/
def chkRole (r : Role) (s : State) (i : Nat) : Option Nat := if (s.sl i).role = r then none else some cRole

end Sys2Proof.Machine
end

