-- ==== Sys2Proof/Machine/Gang.lean ====
section
/-! DEFINITION. The meanings of the gang operations and LEAD, opcodes 0x60 to 0x65 (R148, R300 to R303). -/

namespace Sys2Proof.Machine

/-- A slice parked at a gang operation: its PC. -/
def atGangOp (x : Slice) : Option DWord :=
  match x.park with
  | .before (.gangOp pc) => some pc
  | _ => none

/-- Every live slice of the gang stands at a gang operation, and not all at the same PC (R148). `i` has reached its own. -/
def gangDisagrees (s : State) (i : Nat) : Bool :=
  let others := (s.liveGang i).filter fun j => !s.cur.contains j
  others.all (fun j => (atGangOp (s.sl j)).isSome) && others.any fun j => atGangOp (s.sl j) != some (s.sl i).pc

/-- Each slice of the gang faults DIVERGENT_TARGET at its own gang operation. -/
def trapGang (s : State) (i : Nat) : State :=
  let gang := s.liveGang i
  let s1 := gang.foldl (fun s j =>
    takeTrap s j ⟨cDivergentTarget, (s.sl j).pc, 0, gangMask (s.crewOf j) (s.sl j) (s.sl j).active, 0, false, false⟩) s
  { endRun s1 s.cur with cur := [] }

/-- One position of the gang: slice, lane in slice, whether it contributes. -/
structure GLane where
  sl   : Nat
  lane : Nat
  on   : Bool
  deriving DecidableEq, Repr

/-- The 4w positions in gang lane order (R148, R300). -/
def gangLanes (h : Hdr) (s : State) (i : Nat) : List GLane :=
  (s.gang i).flatMap fun j =>
    let m := if s.alive j then perLane h (s.sl j) else 0
    [0, 1, 2, 3].map fun l => ⟨j, l, m.getLsbD l⟩

/-- Lanes of an exited slice read as zero. -/
def gangVal (t : Ty) (imm : Word) (a : Opnd) (s : State) (g : GLane) : DWord :=
  if s.alive g.sl then rd (s.crewOf g.sl) (s.sl g.sl) t imm g.lane a else 0

/-- The shape of a gang operation: the lanes' values and the flags from the whole gang. `vals k` is position k's result. -/
def gangOp (h : Hdr) (rs : List (Opnd × Nat)) (f : State → Nat → List GLane → (Nat → DWord) × Flags)
    (dst : Nat → DWord → List (LandDst × DWord)) (whole : Bool) (s : State) : Out :=
  let m : Meaning := {
    chk := chkRegs rs
    lanes := unguarded
    pre := fun s i _ =>
      if full32 (s.sl i) then .park .room else if wholeGang s i then .go else .park (.gangOp (s.sl i).pc)
    act := fun pre s i _ =>
      let gl := gangLanes h pre i
      let r := f pre i gl
      let mine := (gl.zipIdx).filter fun e => e.1.sl == i && e.1.on
      let s1 := s.updSl i (standAt Wait.now)
      match mine with
      | [] => s1
      | e :: _ =>
        let outs := if whole then dst e.1.lane (r.1 e.2) else mine.flatMap fun e => dst e.1.lane (r.1 e.2)
        addLands s1 i (outs ++ landFlags r.2)
    jump := false
    occ := 1 }
  match s.cur with
  | [] => runUnit h m s
  | i :: _ =>
    if (s.cur.all fun j => (chkRegs rs s j).isNone) && !wholeGang s i && gangDisagrees s i then .next (trapGang s i)
    else runUnit h m s

/-- Where a register result of one lane lands; an s register once (R300). -/
def landReg (t : Ty) (d : Opnd) (l : Nat) (v : DWord) : List (LandDst × DWord) :=
  match d with
  | .v n =>
    if t.is64 then [(.vreg n l, v &&& 0xFFFFFFFF), (.vreg (n + 1) l, v >>> 32)] else [(.vreg n l, v &&& 0xFFFFFFFF)]
  | .s n => [(.sreg n, if t.is64 then v else v &&& 0xFFFFFFFF)]
  | _ => []

def landPred (pd : PredOp) (l : Nat) (v : DWord) : List (LandDst × DWord) := if pd.q then [(.qbit pd.ix, v)] else [(.pbit l pd.ix, v)]

/-- LXCH's source position (R301), none where it is out of range. -/
def lxchSrc (mode : LxMode) (n l : Nat) (b : DWord) : Option Nat :=
  let u := b.toNat % 2 ^ 32
  match mode with
  | .pick => some (u % n)
  | .rot => some ((l + u) % n)
  | .slide => let j := (l : Int) + sInt 32 u; if 0 ≤ j ∧ j < n then some j.toNat else none
  | .mirror => let j := l ^^^ u; if j < n then some j else none

def execLxch (h : Hdr) (mode : LxMode) (t : Ty) (d a b : Opnd) (s : State) : Out :=
  gangOp h [(d, tyRegs t), (a, tyRegs t), (b, 1)]
    (fun s _ gl => (fun k =>
      let g := gl.getD k ⟨0, 0, false⟩
      let src := (lxchSrc mode gl.length k (gangVal .u32 h.imm b s g)).getD k
      gangVal t h.imm a s (gl.getD src g), 0))
    (landReg t d) d.isS s

/-- VOTE (R301). -/
def voteVal (op : VoteOp) (gl : List GLane) (bit : GLane → Bool) : DWord :=
  let on := gl.filter GLane.on
  let b := fun (x : Bool) => if x then (1 : DWord) else 0
  match op with
  | .any _ => b (on.any bit)
  | .all _ => b (on.all bit)
  | .eq _ => b (on.all bit || on.all fun g => !bit g)
  | .mask _ => BitVec.ofNat 64 (((gl.zipIdx).map fun e => if e.1.on && bit e.1 then 2 ^ e.2 else 0).foldl (· + ·) 0)

def execVote (h : Hdr) (op : VoteOp) (a : PredOp) (s : State) : Out :=
  let dst := match op with
    | .any pd => landPred pd
    | .all pd => landPred pd
    | .eq pd => landPred pd
    | .mask d => landReg .u32 d
  let once := match op with
    | .any pd => pd.q
    | .all pd => pd.q
    | .eq pd => pd.q
    | .mask d => d.isS
  let rs := match op with | .mask d => [(d, 1)] | _ => []
  gangOp h rs (fun s _ gl => (fun _ => voteVal op gl fun g => rdPred a g.lane (s.sl g.sl), 0)) dst once s

/-- The pairwise tree over a list whose length is a power of two (R184, R302), on `n` levels. -/
def pairTree (f : Fl Nat → Fl Nat → Fl Nat) : Nat → List (Fl Nat) → Fl Nat
  | 0, l => l.headD (0, 0)
  | n + 1, l => f (pairTree f n (l.take (2 ^ n))) (pairTree f n (l.drop (2 ^ n)))

/-- A contributing lane's value, or the identity (R302); a NaN is canonical (R151). -/
def redVal (op : RedOp) (t : Ty) (v : Nat) (on : Bool) : Fl Nat :=
  if on then (if t = .f32 && decide (v % 2 ^ 31 > 0x7F800000) then 0x7FC00000 else v % 2 ^ 32, 0) else (redIdentity op t, 0)

def gangRedVals (h : Hdr) (op : RedOp) (t : Ty) (a : Opnd) (s : State) (gl : List GLane) : List (Fl Nat) :=
  gl.map fun g => redVal op t (gangVal t h.imm a s g).toNat g.on

def execRedux (h : Hdr) (op : RedOp) (t : Ty) (d a : Opnd) (s : State) : Out :=
  gangOp h [(d, 1), (a, 1)]
    (fun s _ gl =>
      let xs := gangRedVals h op t a s gl
      let r := pairTree (redStep op t) 5 (xs ++ List.replicate (32 - xs.length) (redIdentity op t, 0))
      (fun _ => BitVec.ofNat 64 r.1, r.2))
    (landReg .u32 d) d.isS s

/-- The inclusive prefixes, one rounding per step (R302). -/
def prefixes (f : Fl Nat → Fl Nat → Fl Nat) : Fl Nat → List (Fl Nat) → List (Fl Nat)
  | _, [] => []
  | acc, x :: xs => let r := f acc x; r :: prefixes f r xs

def scanVals (op : RedOp) (t : Ty) : List (Fl Nat) → List (Fl Nat)
  | [] => []
  | x :: xs => x :: prefixes (redStep op t) x xs

/-- The highest contributing lane of a gang. -/
def lastOn (gl : List GLane) : Nat := ((gl.zipIdx).filter fun e => e.1.on).foldl (fun n e => max n e.2) 0

/-- SCAN (R302): its flags are those of the steps in some contributing lane's result (R154). -/
def execScan (h : Hdr) (op : RedOp) (excl : Bool) (t : Ty) (d a : Opnd) (s : State) : Out :=
  gangOp h [(d, 1), (a, 1)]
    (fun s _ gl =>
      let ps := scanVals op t (gangRedVals h op t a s gl)
      let val := fun k => if excl then (if k = 0 then redIdentity op t else (ps.getD (k - 1) (0, 0)).1) else (ps.getD k (0, 0)).1
      (fun k => BitVec.ofNat 64 (val k), (ps.getD (if excl then lastOn gl - 1 else lastOn gl) (0, 0)).2))
    (landReg .u32 d) d.isS s

/-- MATCH (R301). -/
def matchVal (same : Bool) (gl : List (GLane × DWord)) (k : Nat) : DWord :=
  let v := (gl.map Prod.snd).getD k 0
  let on := (gl.zipIdx).filter fun e => e.1.1.on
  let mask := fun (l : List ((GLane × DWord) × Nat)) => BitVec.ofNat 64 ((l.map fun e => 2 ^ e.2).foldl (· + ·) 0)
  if same then (if on.all (fun e => e.1.2 == v) then mask on else 0) else mask (on.filter fun e => e.1.2 == v)

def execMatch (h : Hdr) (same : Bool) (t : Ty) (d a : Opnd) (s : State) : Out :=
  gangOp h [(d, 1), (a, tyRegs t)]
    (fun s _ gl => (matchVal same (gl.map fun g => (g, gangVal t h.imm a s g)), 0))
    (landReg .u32 d) d.isS s

/-- LEAD (R303): the lanes of one issue. -/
def execLead (h : Hdr) (pd a : PredOp) (s : State) : Out :=
  runUnit h {
    chk := fun _ _ => none
    lanes := perLane h
    pre := noPre
    act := fun pre s i m =>
      let holds := pre.cur.flatMap fun j => ((lanesOf (perLane h (pre.sl j))).filter fun l => rdPred a l (pre.sl j)).map fun l => (j, l)
      s.updSl i fun x => eachLane true m x fun l y => wrPred pd l (holds.head? == some (i, l)) y
    jump := false
    occ := 1 } s

end Sys2Proof.Machine
end

