-- ==== Sys2Proof/Machine/Sampler.lean ====
section
/-! DEFINITION. The sampler (R128 to R132) and the meanings of TEX, TLD and TQRY, opcodes 0x79 to 0x7B (R322, R323). -/

namespace Sys2Proof.Machine

/-! ### Descriptors (R128) -/

structure Tex where
  base  : Nat
  w     : Nat
  h     : Nat
  pitch : Nat
  fmt   : Nat
  amu   : Nat
  amv   : Nat
  deriving DecidableEq, Repr

/-- Bytes of a texel. -/
def texelSize (fmt : Nat) : Nat := [1, 2, 4, 2, 4, 8, 4, 4].getD fmt 1

/-- The descriptor in 32 bytes, none where a field is invalid. -/
def parseDesc (b : List Byte) : Option Tex :=
  let v := bytesNat b
  let f := fun (lo n : Nat) => v / 2 ^ lo % 2 ^ n
  let t : Tex := ⟨f 0 64, f 64 16 + 1, f 80 16 + 1, f 96 32, f 128 4, f 132 2, f 134 2⟩
  let z := texelSize t.fmt
  if t.fmt < 8 && t.amu < 3 && t.amv < 3 && v / 2 ^ 136 == 0 && t.base % z == 0 && t.pitch % z == 0 && t.w * z ≤ t.pitch
  then some t else none

/-- MODE (R131). -/
def texMode (c : Int) (n am : Nat) : Nat :=
  if am = 0 then (min (max c 0) ((n : Int) - 1)).toNat
  else if am = 1 then (c % (n : Int)).toNat
  else
    let m := (c % (2 * n : Int)).toNat
    if n ≤ m then 2 * n - 1 - m else m

def texelAddr (t : Tex) (x y : Int) : Nat :=
  (t.base + texMode y t.h t.amv * t.pitch + texMode x t.w t.amu * texelSize t.fmt) % 2 ^ 64

/-! ### Texels (R129) -/

/-- A channel as an FP32 code. Conversion raises no flag. -/
def chanCode (fmt : Nat) (v : Nat) : Nat :=
  if fmt < 3 then (roundRat fmtF32 false v 255 0).1
  else if fmt = 6 then (if isNanCode fmtF32 v then 0x7FC00000 else v)
  else (rnef fmtF32 (dec (if fmt = 7 then fmtBF16 else fmtF16) v)).1

/-- R, G, B, A of a texel's bytes. -/
def texelChans (fmt : Nat) (b : List Byte) : List Nat :=
  let bits := if fmt < 3 then 8 else if fmt = 6 then 32 else 16
  let n := if fmt = 0 ∨ fmt = 3 ∨ fmt = 6 then 1 else if fmt = 2 ∨ fmt = 5 then 4 else 2
  let v := bytesNat b
  (List.range 4).map fun k => if k < n then chanCode fmt (v / 2 ^ (bits * k) % 2 ^ bits) else if k = 3 then 0x3F800000 else 0

/-! ### Filter programs (R130) -/

structure Tap where
  dx : Int
  dy : Int
  kx : Nat
  ky : Nat
  wt : Nat
  deriving DecidableEq, Repr

structure Prog where
  cmp  : Nat
  taps : List Tap
  deriving DecidableEq, Repr

/-- Header: taps and CMP. -/
def parseHead (b : List Byte) : Option (Nat × Nat) :=
  let v := bytesNat b
  let n := v % 128
  let c := v / 2 ^ 8 % 8
  if 1 ≤ n ∧ n ≤ 64 ∧ c ≠ 7 ∧ v = n + 2 ^ 8 * c then some (n, c) else none

def parseTap (b : List Byte) : Option Tap :=
  let v := bytesNat b
  if v / 2 ^ 14 % 4 = 0 then some ⟨sInt 4 v, sInt 4 (v / 16), v / 2 ^ 8 % 8, v / 2 ^ 11 % 8, v / 2 ^ 16⟩ else none

/-- Taps of 4 bytes each, none when one is invalid. -/
def parseTaps : Nat → List Byte → Option (List Tap)
  | 0, _ => some []
  | n + 1, b =>
    match parseTap (b.take 4), parseTaps n (b.drop 4) with
    | some t, some ts => some (t :: ts)
    | _, _ => none

def tapsBilinear : List Tap := [⟨0, 0, 1, 1, 0x3C00⟩, ⟨1, 0, 2, 1, 0x3C00⟩, ⟨0, 1, 1, 2, 0x3C00⟩, ⟨1, 1, 2, 2, 0x3C00⟩]

/-- dy from −1 to 2, within it dx from −1 to 2. -/
def tapsGrid (k : Int → Nat) (wt : Nat) : List Tap :=
  ([-1, 0, 1, 2] : List Int).flatMap fun dy => ([-1, 0, 1, 2] : List Int).map fun dx => ⟨dx, dy, k dx, k dy, wt⟩

def builtinProg (n : Nat) : Prog :=
  if n = 0 then ⟨0, [⟨0, 0, 7, 7, 0x3C00⟩]⟩
  else if n = 1 then ⟨0, tapsBilinear⟩
  else if n = 2 then ⟨0, tapsGrid (fun d => (d + 4).toNat) 0x3C00⟩
  else if n = 3 then ⟨2, tapsBilinear⟩
  else ⟨2, tapsGrid (fun _ => 0) 0x2C00⟩

/-! ### The filter (R131) -/

/-- x0 and k. Of an infinite x the manual states x0 and no k: `inf` then numbers the free values that stand for k and for what is computed
from it (R131, log 32). -/
structure Coord where
  x0  : Int
  k   : Int
  inf : Option Nat
  fl  : Flags
  deriving DecidableEq, Repr

/-- ±m·2^e as numerator over a power of two. -/
def valFrac (neg : Bool) (m : Nat) (e : Int) : Int × Nat :=
  let n : Int := if neg then -(m : Int) else m
  if 0 ≤ e then (n * 2 ^ e.toNat, 1) else (n, 2 ^ (-e).toNat)

/-- Round a quotient to an integer, ties to even. -/
def rneInt (n : Int) (d : Nat) : Int := if n < 0 then -(rneDiv n.natAbs d : Int) else (rneDiv n.natAbs d : Int)

def texCoord (u w free : Nat) : Coord :=
  let nan := isNanCode fmtF32 u
  let uv := if nan then Val.fin false 0 0 else dec fmtF32 u
  let x := roundFl fmtF32 (fmaVal uv (.fin false w 0) (.fin true 1 (-1)))
  let fl := x.2 ||| flagIf nan fNV
  match dec fmtF32 x.1 with
  | .fin neg m e =>
    let (n, d) := valFrac neg m e
    let x0 := max (-(2 ^ 24)) (min (2 ^ 24) (n / (d : Int)))
    let k := rneInt (256 * (n - x0 * d)) d
    if k = 256 then ⟨x0 + 1, 0, none, fl⟩ else ⟨x0, k, none, fl⟩
  | v => ⟨if v = .inf true then -(2 ^ 24) else 2 ^ 24, (Config.freeWord free).toInt, some free, fl⟩

/-- An exact fraction of 256 as a value. -/
def frac256 (k : Int) : Val := .fin (decide (k < 0)) k.natAbs (-8)

/-- The cubic factors: numerators over 6·2^24. -/
def cubic (j : Nat) (k : Int) : Fl Nat :=
  let n := if j = 0 then (256 - k) ^ 3 else if j = 1 then 3 * k ^ 3 - 6 * 256 * k ^ 2 + 4 * 256 ^ 3
    else if j = 2 then -3 * k ^ 3 + 3 * 256 * k ^ 2 + 3 * 256 ^ 2 * k + 256 ^ 3 else k ^ 3
  if n = 0 then (0, 0) else roundRat fmtF32 (decide (n < 0)) n.natAbs 6 (-24)

/-- FX of a coordinate. -/
def texFactor (code : Nat) (c : Coord) : Fl Val :=
  let k := c.k
  if 1 ≤ code ∧ code < 7 ∧ c.inf.isSome then
    let n := c.inf.getD 0
    (dec fmtF32 (Config.freeNat (n + code) % 2 ^ 32), BitVec.ofNat 6 (Config.freeNat (n + 8 + code)) &&& 0x1D)
  else if code = 1 then (frac256 (256 - k), 0)
  else if code = 2 then (frac256 k, 0)
  else if 3 ≤ code ∧ code < 7 then let r := cubic (code - 3) k; (dec fmtF32 r.1, r.2)
  else (.fin false 1 0, 0)

/-- Where a tap reads. -/
def tapXY (cx cy : Coord) (t : Tap) : Int × Int :=
  (cx.x0 + t.dx + (if t.kx = 7 ∧ 128 ≤ cx.k then 1 else 0), cy.x0 + t.dy + (if t.ky = 7 ∧ 128 ≤ cy.k then 1 else 0))

def texCond (cmp : Nat) : Cond :=
  if cmp = 1 then .lt else if cmp = 2 then .le else if cmp = 3 then .gt else if cmp = 4 then .ge else if cmp = 5 then .eq else .ne

/-- One tap added to the four channels. -/
def tapStep (cx cy : Coord) (cmp dref : Nat) (t : Tap) (texel : List Nat) (acc : List Nat × Flags) : List Nat × Flags :=
  let fx := texFactor t.kx cx
  let fy := texFactor t.ky cy
  let c1 := roundFl fmtF32 (mulVal (dec fmtF16 t.wt) fx.1)
  let c := roundFl fmtF32 (mulVal (dec fmtF32 c1.1) fy.1)
  let tx := if cmp = 0 then texel
    else List.replicate 4 (if fcmpCode fmtF32 (texCond cmp) dref (texel.headD 0) then 0x3F800000 else 0)
  let rs := (acc.1.zip tx).map fun e =>
    let p := fmul2 fmtF32 c.1 e.2
    let q := fadd2 fmtF32 e.1 p.1
    (q.1, p.2 ||| q.2)
  (rs.map Prod.fst, acc.2 ||| fx.2 ||| fy.2 ||| c1.2 ||| c.2 ||| orFlags (rs.map Prod.snd))

/-- The result of one lane or cell. -/
def texFilter (p : Prog) (cx cy : Coord) (dref : Nat) (texel : Tap → List Nat) : List Nat × Flags :=
  p.taps.foldl (fun acc t => tapStep cx cy p.cmp dref t (texel t) acc) ([0, 0, 0, 0], cx.fl ||| cy.fl)

/-! ### Reads -/

/-- A byte read for the sampler: zero in a non-resident page (R58), free where poisoned. -/
def smpByte (s : State) (p : Party) (va : Nat) : Byte :=
  let c := s.crew p.crew
  if clearedFor s c.core c.ctx p.as va .read == .nonResident then 0
  else if poisoned s c.ctx va then BitVec.ofNat 8 (Config.freeNat (s.freeIx + va))
  else (keptByte p.as va).getD (curByte s c.ctx va)

def smpBytes (s : State) (p : Party) (va n : Nat) : List Byte := (List.range n).map fun k => smpByte s p (va + k)

/-- The page of an address reads as non-resident. -/
def smpAbsent (s : State) (p : Party) (va : Nat) : Bool :=
  let c := s.crew p.crew
  clearedFor s c.core c.ctx p.as va .read == .nonResident

def descOf (s : State) (p : Party) (va : Nat) : Option Tex := parseDesc (smpBytes s p va 32)

/-- The header of a program that lies in memory. -/
def headOf (s : State) (p : Party) (v : Nat) : Option (Nat × Nat) := parseHead (smpBytes s p v 8)

/-- The program a value names. -/
def progOf (s : State) (p : Party) (v : Nat) : Option Prog :=
  if v < 5 then some (builtinProg v)
  else if v < 8 then none
  else match headOf s p v with
    | none => none
    | some (n, c) => (parseTaps n (smpBytes s p (v + 8) (4 * n))).map fun ts => ⟨c, ts⟩

/-- The taps of a program in memory lie in a non-resident page: they read as zero, and NR is set (R58). -/
def progAbsent (s : State) (p : Party) (v : Nat) (g : Prog) : Bool :=
  8 ≤ v && (pagesOf (v, 8 + 4 * g.taps.length)).any (smpAbsent s p)

/-- The texel's channels as read, zero in a non-resident page. -/
def texelAt (s : State) (p : Party) (t : Tex) (x y : Int) : List Nat :=
  let a := texelAddr t x y
  if smpAbsent s p a then [0, 0, 0, 0] else texelChans t.fmt (smpBytes s p a (texelSize t.fmt))

/-- The free values of coordinate `n`, if it is infinite. -/
def freeK (s : State) (n : Nat) : Nat := s.freeIx + 2 ^ 16 + 16 * n

/-- One sample: the channels, the flags, and the addresses its taps read. -/
structure Sample where
  chans : List Nat
  fl    : Flags
  reads : List Nat
  deriving DecidableEq, Repr

def sampleAddrs (s : State) (t : Tex) (g : Prog) (u v n : Nat) : List Nat :=
  let cx := texCoord u t.w (freeK s (2 * n))
  let cy := texCoord v t.h (freeK s (2 * n + 1))
  g.taps.map fun tp => let xy := tapXY cx cy tp; texelAddr t xy.1 xy.2

/-- The sample at (u, v); `n` numbers the lane or cell for its free values. -/
def sampleAt (s : State) (p : Party) (t : Tex) (g : Prog) (u v dref n : Nat) : Sample :=
  let cx := texCoord u t.w (freeK s (2 * n))
  let cy := texCoord v t.h (freeK s (2 * n + 1))
  let at_ := fun tp => let xy := tapXY cx cy tp; texelAt s p t xy.1 xy.2
  let r := texFilter g cx cy dref at_
  let as := sampleAddrs s t g u v n
  ⟨r.1, r.2 ||| flagIf (as.any (smpAbsent s p)) fNR, as⟩

/-! ### TEX, TLD, TQRY -/

/-- What one lane gives the sampler. -/
structure TexIn where
  lane : Nat
  desc : Nat
  x    : Nat
  y    : Nat
  dref : Nat
  prog : Nat
  deriving DecidableEq, Repr

def Opnd.plus (o : Opnd) (k : Nat) : Opnd :=
  match o with
  | .v n => .v (n + k)
  | .s n => .s (n + k)
  | o => o

def texIns (vec : Bool) (h : Hdr) (a b c e : Opnd) (s : State) (i : Nat) : List TexIn :=
  let x := s.sl i
  let w := s.crewOf i
  let m := lanesFor vec h x
  if m = 0 then []
  else (laneList vec m).map fun l =>
    ⟨l, (rd w x .u64 h.imm l a).toNat, (rd w x .u32 0 l b).toNat, (rd w x .u32 0 l (Opnd.plus b 1)).toNat,
      (rd w x .u32 h.imm l c).toNat, (rd w x .s64 h.imm l e).toNat⟩

/-- The first misaligned address: a descriptor of 32 bytes, a program of 8 (R128, R130). -/
def texAlign (s : State) (i : Nat) (ins : List TexIn) : Pre :=
  let bad := ins.findSome? fun q =>
    if q.desc % 32 != 0 then some (q.lane, q.desc) else if 8 ≤ q.prog && q.prog % 8 != 0 then some (q.lane, q.prog) else none
  match bad with
  | some (l, a) => .trap ⟨2, cDataAlign, BitVec.ofNat 64 a, 0, none, 4 * slotOf (s.crewOf i) (s.sl i) + l⟩
  | none => .go

def texBad (b : Bool) : Pre := if b then operandTrapOf else .go
where
  /-- RESERVED_OPERAND of an invalid descriptor or program. -/
  operandTrapOf : Pre := .trap (trapPlain 1 cReservedOperand)

def descAccs (ins : List TexIn) : List LaneAcc := ins.map fun q => ⟨q.lane, q.desc, 32⟩
def headAccs (ins : List TexIn) : List LaneAcc := (ins.filter fun q => 8 ≤ q.prog).map fun q => ⟨q.lane, q.prog, 8⟩
def tapAccs (s : State) (i : Nat) (ins : List TexIn) : List LaneAcc :=
  (ins.filter fun q => 8 ≤ q.prog).filterMap fun q => (headOf s (sliceParty s i) q.prog).map fun e => ⟨q.lane, q.prog + 8, 4 * e.1⟩

/-- The texels that `addrs` of a lane's texture names. -/
def texelAccs (s : State) (i : Nat) (ins : List TexIn) (addrs : Tex → TexIn → List Nat) : List LaneAcc :=
  ins.flatMap fun q =>
    match descOf s (sliceParty s i) q.desc with
    | none => []
    | some t => (addrs t q).map fun a => ⟨q.lane, a, texelSize t.fmt⟩

/-- Program ids first, then stage by stage: descriptors, program headers, taps, texels; each is read after the slice's own stores to it. -/
def texPre (s : State) (i : Nat) (once : Bool) (ins : Nat → List TexIn) (addrs : Nat → Tex → TexIn → List Nat) : Pre :=
  let me := sliceParty s i
  let stage := fun (f : Nat → List LaneAcc) => (memPre s .read true once f i).next (ownPre s i (f i))
  ((((((((texBad ((ins i).any fun q => 5 ≤ q.prog && q.prog < 8)).next (texAlign s i (ins i))).next
    (stage fun j => descAccs (ins j))).next
    (texBad ((ins i).any fun q => (descOf s me q.desc).isNone))).next
    (stage fun j => headAccs (ins j))).next
    (texBad ((ins i).any fun q => 8 ≤ q.prog && (headOf s me q.prog).isNone))).next
    (stage fun j => tapAccs s j (ins j))).next
    (texBad ((ins i).any fun q => (progOf s me q.prog).isNone))).next
    (((stage fun j => texelAccs s j (ins j) (addrs j)).next (l2wpPre s i)).next (roomPre s i))

/-- Poisoned lines that were read (R245): the lanes that read them, one deferred trap. -/
def texPoison (s : State) (i : Nat) (once : Bool) (reads : List LaneAcc) : State :=
  let ctx := s.ctxOf i
  let bad := reads.filter fun a => !smpAbsent s (sliceParty s i) a.va && (anyPoison s ctx a.va a.n).isSome
  match bad with
  | [] => s
  | a :: _ =>
    let c := s.crewOf i
    let x := s.sl i
    let lanes := if once then gangMask c x x.active else orMasks (bad.map fun b => gangMask c x (BitVec.twoPow 4 b.lane))
    deferTrap s i ⟨cMemError, x.pc, BitVec.ofNat 64 (((anyPoison s ctx a.va a.n).getD a.va) / 256 * 256), lanes, 0, true, false⟩

/-- The caches see the reads of resident pages, and the clearance cache the use of its entries (R56). -/
def texTouch (pre s : State) (i ch : Nat) (reads : List LaneAcc) : State :=
  touchClr (reads.foldl (fun s a => if smpAbsent pre (sliceParty pre i) a.va then s
    else engRead s (pre.coreOf i) (crewClass pre (pre.sl i).crew) (pre.ctxOf i) ch a.va a.n) s) (pre.coreOf i) (pre.ctxOf i) .read reads

/-- Results in consecutive registers of one lane. -/
def landChans (d : Opnd) (l : Nat) (cs : List Nat) : List (LandDst × DWord) :=
  (cs.zipIdx).flatMap fun e => landReg .u32 (Opnd.plus d e.2) l (BitVec.ofNat 64 e.1)

/-- The effect of a sampler instruction: each lane's results and flags, and what it read. -/
def texAct (pre s : State) (i : Nat) (once : Bool) (ch : Nat) (d : Opnd) (fixed texels : List LaneAcc)
    (outs : List (Nat × List Nat × Flags)) : State :=
  let s1 := texTouch pre (texTouch pre s i 0 fixed) i ch texels
  let s2 := texPoison s1 i once (fixed ++ texels)
  addLands s2 i (outs.flatMap (fun o => landChans d o.1 o.2.1) ++ landFlags (orFlags (outs.map fun o => o.2.2)))

def execTex (h : Hdr) (d a b c e : Opnd) (s : State) : Out :=
  let vec := vecMode d [a, b, c, e]
  let ins := texIns vec h a b c e
  let addrs := fun (s : State) (j : Nat) (t : Tex) (q : TexIn) =>
    match progOf s (sliceParty s j) q.prog with
    | none => []
    | some g => sampleAddrs s t g q.x q.y (4 * j + q.lane)
  runUnit h {
    chk := chkRegs [(d, 4), (a, 2), (b, 2), (c, 1), (e, 2)]
    lanes := lanesFor vec h
    pre := fun s i _ => texPre s i (!vec) (fun j => ins s j) (addrs s)
    act := fun pre s i _ =>
      let me := sliceParty pre i
      let qs := ins pre i
      let outs := qs.filterMap fun q =>
        match descOf pre me q.desc, progOf pre me q.prog with
        | some t, some g => some (q.lane, (fun (r : Sample) => (r.chans, r.fl ||| flagIf (progAbsent pre me q.prog g) fNR)) (sampleAt pre me t g q.x q.y q.dref (4 * i + q.lane)))
        | _, _ => none
      texAct pre s i (!vec) h.ch d (descAccs qs ++ headAccs qs ++ tapAccs pre i qs) (texelAccs pre i qs (addrs pre i)) outs
    jump := false
    occ := 1 } s

def execTld (h : Hdr) (d a b : Opnd) (s : State) : Out :=
  let vec := vecMode d [a, b]
  let ins := texIns vec h a b .zero .zero
  let addrs := fun (t : Tex) (q : TexIn) => [texelAddr t (sInt 32 q.x) (sInt 32 q.y)]
  runUnit h {
    chk := chkRegs [(d, 4), (a, 2), (b, 2)]
    lanes := lanesFor vec h
    pre := fun s i _ => texPre s i (!vec) (fun j => ins s j) fun _ => addrs
    act := fun pre s i _ =>
      let me := sliceParty pre i
      let qs := ins pre i
      let outs := qs.filterMap fun q =>
        (descOf pre me q.desc).map fun t =>
          (q.lane, texelAt pre me t (sInt 32 q.x) (sInt 32 q.y), flagIf ((addrs t q).any (smpAbsent pre me)) fNR)
      texAct pre s i (!vec) h.ch d (descAccs qs) (texelAccs pre i qs addrs) outs
    jump := false
    occ := 1 } s

def execTqry (h : Hdr) (d a : Opnd) (s : State) : Out :=
  let vec := vecMode d [a]
  let ins := texIns vec h a .zero .zero .zero
  runUnit h {
    chk := chkRegs [(d, 2), (a, 2)]
    lanes := lanesFor vec h
    pre := fun s i _ => texPre s i (!vec) (fun j => ins s j) fun _ _ _ => []
    act := fun pre s i _ =>
      let me := sliceParty pre i
      let qs := ins pre i
      let outs := qs.filterMap fun q => (descOf pre me q.desc).map fun t => (q.lane, [t.w, t.h], (0 : Flags))
      texAct pre s i (!vec) h.ch d (descAccs qs) [] outs
    jump := false
    occ := 1 } s

end Sys2Proof.Machine
end

