-- ==== Sys2Proof/Machine/Trestle.lean ====
section
/-! DEFINITION. Trestle: TRST, TRSTQ, TRSTK and the events of a chain (R102 to R117, R336, R337, R382), and the multicast groups of the
cluster's slice (R99 to R101, R338). An event that is not due leaves the state as it is.

Where several causes of R116 apply to one entry, the checks stand in one order: form (1, 2), then the code's own fields (3), then range (5),
owner (4) and global faults (7); a broken skip or loop (6) stands before 3 (DESIGN CHOICE, log 82: R116 gives no order). -/

namespace Sys2Proof.Machine

/-! ### The command entry (R109, R110) -/

def entBits (w hi lo : Nat) : Nat := w / 2 ^ lo % 2 ^ (hi - lo + 1)
def entCode (w : Nat) : Nat := w % 256

/-- Bits hi to lo set. -/
def bitsMask (e : Nat × Nat) : Nat := (2 ^ (e.1 - e.2 + 1) - 1) * 2 ^ e.2

/-- The fields that a code uses, as bit ranges; none for an unassigned code. -/
def entFields (code : Nat) : Option (List (Nat × Nat)) :=
  let data := [(23, 0), (127, 32)]
  if code = 1 then some (data ++ [(143, 128), (223, 160)])
  else if code = 2 ∨ code = 3 then some (data ++ [(27, 24), (146, 128)])
  else if code = 4 then some (data ++ [(132, 128)])
  else if code = 5 then some (data ++ [(131, 128), (139, 136), (223, 160)])
  else if code = 6 then some [(20, 0), (127, 32)]
  else if code = 7 then some [(9, 0), (13, 12), (95, 32), (129, 128)]
  else if code = 8 then some [(7, 0), (133, 128)]
  else if code = 9 then some [(7, 0), (139, 128), (191, 160)]
  else if code = 10 then some [(7, 0), (183, 32)]
  else if code = 11 then some [(7, 0), (13, 12), (23, 21), (95, 64), (137, 128), (151, 144), (191, 160)]
  else if code = 12 then some [(9, 0), (13, 12), (23, 16), (95, 32), (159, 128)]
  else if code = 13 then some [(7, 0), (20, 16)]
  else none

/-- The subcode of an entry whose form is wrong (R116, 0x01 and 0x02). -/
def entForm (w : Nat) : Option Nat :=
  match entFields (entCode w) with
  | none => some 1
  | some fs =>
    let used := (fs.map bitsMask).foldl (· ||| ·) 0
    if w &&& used != w || 4 < entBits w 23 21 || 6 < entBits w 27 24 then some 2 else none

/-- ca[r] plus a signed 32-bit offset, modulo 2^64. -/
def caAdd (c : Chain) (r ofs : Nat) : Nat := (c.ca.getD r 0 + (BitVec.ofNat 32 ofs).signExtend 64).toNat
def entDst (c : Chain) (w : Nat) : Nat := caAdd c (entBits w 13 12) (entBits w 95 64)
def entSrc (c : Chain) (w : Nat) : Nat := caAdd c (entBits w 15 14) (entBits w 127 96)
def entLen (w : Nat) : Nat := entBits w 63 32

/-- Row k of a COPY: base plus k strides. -/
def rowAddr (base stride k : Nat) : Nat := (((base : Int) + (k : Int) * sInt 32 stride) % (2 : Int) ^ 64).toNat

def etyOf (n : Nat) : Ty :=
  if n = 0 then .u32 else if n = 1 then .s32 else if n = 2 then .u64 else if n = 3 then .s64 else if n = 4 then .f32
  else if n = 5 then .f16x2 else .bf16x2

def redAtom (n : Nat) : AtomOp :=
  if n = 0 then .add else if n = 1 then .min else if n = 2 then .max else if n = 3 then .and else if n = 4 then .or else .xor

def etyBytes (n : Nat) : Nat := if n = 2 ∨ n = 3 then 8 else 4

/-- Space, length, alignment and the code's own fields of a data entry (R110, R113, R114; subcode 0x03 where they fail). A collective REDUCE
with OP other than 0 is a wrong OP, 0x03 (DESIGN CHOICE, log 83: R113 names OP for MODE 1 only). -/
def dataOk (c : Chain) (w : Nat) : Bool :=
  let code := entCode w
  let dsp := entBits w 9 8
  let ssp := entBits w 11 10
  let n := entLen w
  let d := entDst c w
  let s := entSrc c w
  let esz := etyBytes (entBits w 139 136)
  dsp != 3 && ssp != 3 &&
  (if code = 1 then (dsp == 0) != (ssp == 0) && n != 0 && n % 4 == 0 && entBits w 143 128 != 0
   else if code = 2 then ssp == 0 && dsp != 0 && entBits w 146 128 % 4 == 0
   else if code = 3 then dsp == 0 && ssp != 0 && entBits w 146 128 % 4 == 0
   else if code = 4 then ssp == 0 && dsp == 1 && n != 0 && n % 128 == 0 && s % 128 == 0
   else if code = 5 then
     dsp == 0 && ssp != 0 && 4 ≤ n && n ≤ 65536 && n % esz == 0 && entBits w 139 136 ≤ 6 && entBits w 131 129 ≤ 5 &&
       !(3 ≤ entBits w 131 129 && 4 ≤ entBits w 139 136) && d % esz == 0 && s % esz == 0 &&
       (entBits w 128 128 == 1 || (entBits w 131 129 == 0 && entBits w 175 160 != 0 && entBits w 191 176 < entBits w 175 160))
   else if code = 6 then ((dsp == 1 && ssp == 2) || (dsp == 2 && ssp == 1)) && n != 0 && n % 128 == 0 && entBits w 20 20 == 1
   else n != 0 && n % 4 == 0)

/-- The parts of n bytes that lie in separate aligned 8-byte units of the destination. -/
def unitParts (d s n : Nat) : List (Nat × Nat × Nat) :=
  if n = 0 then []
  else (List.range ((d + n - 1) / 8 - d / 8 + 1)).map fun k =>
    let lo := max d ((d / 8 + k) * 8)
    (lo, s + (lo - d), min (d + n) ((d / 8 + k + 1) * 8) - lo)

/-- The transfers of a data entry: destination, source, bytes. `idx` is the index list of a GATHER or SCATTER. -/
def entMoves (c : Chain) (w : Nat) (idx : List Nat) : List (Nat × Nat × Nat) :=
  let code := entCode w
  let n := entLen w
  let d := entDst c w
  let s := entSrc c w
  let sz := 2 ^ entBits w 27 24
  if code = 1 then
    (List.range (entBits w 143 128)).map fun k => (rowAddr d (entBits w 191 160) k, rowAddr s (entBits w 223 192) k, n)
  else if code = 2 then (idx.zipIdx).map fun e => ((d + e.2 * sz) % 2 ^ 64, (s + e.1 * sz) % 2 ^ 64, sz)
  else if code = 3 then (idx.zipIdx).map fun e => ((d + e.1 * sz) % 2 ^ 64, (s + e.2 * sz) % 2 ^ 64, sz)
  else [(d, if code = 12 then 0 else s, n)]

/-- A part of an 8-byte unit joins the piece of its unit; `meet`: it may cover bytes that the piece writes already. -/
def joinUnit (meet : Bool) (q : Nat × Nat × Nat) : List (List (Nat × Nat × Nat)) → List (List (Nat × Nat × Nat))
  | [] => [[q]]
  | p :: l =>
    if p.any (fun e => e.1 / 8 == q.1 / 8) && (meet || p.all fun e => e.1 + e.2.2 ≤ q.1 || q.1 + q.2.2 ≤ e.1) then (p ++ [q]) :: l
    else p :: joinUnit meet q l

/-- The pieces in which those are performed: a sector of an MCAST, an element of a REDUCE, all that the entry writes into one 8-byte unit
(R107). Of SCATTER elements that meet in a unit, the highest-numbered comes last in the unit's piece (R110). -/
def entPieces (w : Nat) (moves : List (Nat × Nat × Nat)) : List (List (Nat × Nat × Nat)) :=
  let every := fun (z : Nat) => moves.flatMap fun m => (List.range (m.2.2 / z)).map fun k => [(m.1 + z * k, m.2.1 + z * k, z)]
  if entCode w = 4 then every 128
  else if entCode w = 5 then every (etyBytes (entBits w 139 136))
  else
    let ps := moves.flatMap fun m => unitParts m.1 m.2.1 m.2.2
    if entCode w = 3 then ps.foldl (fun l q => joinUnit true q l) []
    else (ps.filter fun q => q.2.2 == 8).map (fun q => [q]) ++
      (ps.filter fun q => q.2.2 != 8).foldl (fun l q => joinUnit false q l) []

/-! ### Chain state -/

def chainOf (s : State) (crew ch : Nat) : Chain := (s.crew crew).chains.getD ch Chain.init

def updChain (s : State) (crew ch : Nat) (f : Chain → Chain) : State :=
  s.updCrew crew fun c => { c with chains := (c.chains.zipIdx).map fun e => if e.2 = ch then f e.1 else e.1 }

def Chain.busy (c : Chain) : Bool := c.st == .running || c.st == .waiting

/-- The requests of a chain are struck (R75). -/
def dropChainReqs (s : State) (crew ch : Nat) : State :=
  strikeFills { s with clrReqs := s.clrReqs.filter fun e => e.2.who != .chain crew ch } fun q => q.who == .chain crew ch

def chainAsking (s : State) (crew ch : Nat) : Bool :=
  s.clrReqs.any (fun e => e.2.who == .chain crew ch) || s.fillReqs.any fun e => e.2.who == .chain crew ch

/-- A chain stops (R116), and the CHAIN trap is recorded for its slice, or for the lowest live slice of the crew, or is logged (R117); `frec` is
the record of the block that failed it (R76). -/
def chainStop (s : State) (crew ch ix sub cause addr : Nat) (frec : DWord := 0) : State :=
  let c := chainOf s crew ch
  if !c.busy then s
  else
    let s1 := updChain (dropChainReqs s crew ch) crew ch fun c =>
      { c with st := .stopped, entry := ix, sub := sub, cause := cause, cur := none, answers := [], coll := none, killing := false }
    let at_ := BitVec.ofNat 64 (if sub = 7 then addr else c.base + 32 * ix)
    let live := ((s.crew crew).slices.filter fun j => (s.sl j).live != 0)
    if live.contains c.slice then deferTrap s1 c.slice ⟨cChain, c.pc, at_, c.mask, deferInfo 0 frec, true, false⟩
    else match live with
      | j :: _ => deferTrap s1 j ⟨cChain, c.pc, at_, gangMask (s.crew crew) (s.sl j) (s.sl j).active, deferInfo 0 frec, true, false⟩
      | [] => s1.log "chain stop" [(s.crew crew).ctx, (s.crew crew).core, ch, sub]

/-- Loop ends that a next entry reaches (R112): the increments are applied and the body repeats while COUNT allows. -/
def stepLoops : List LoopLv → List DWord → Nat → List DWord × List LoopLv × Nat
  | [], ca, nxt => (ca, [], nxt)
  | l :: ls, ca, nxt =>
    if nxt = l.last + 1 then
      let ca1 := List.zipWith (fun a b => a + b.signExtend 64) ca l.inc
      if 1 < l.left then (ca1, { l with left := l.left - 1 } :: ls, l.head + 1) else stepLoops ls ca1 nxt
    else (ca, l :: ls, nxt)

def chainGoto (nxt : Nat) (c : Chain) : Chain :=
  let r := stepLoops c.loops c.ca nxt
  { c with ca := r.1, loops := r.2.1, entry := r.2.2 }

def countDone (c : Chain) : Chain := { c with done := min (c.done + 1) 0xFFFFFFFF }

/-- A control entry has run; the chain goes on at an entry. -/
def chainNext (s : State) (crew ch nxt : Nat) : State :=
  updChain s crew ch fun c => chainGoto nxt (countDone { c with st := .running, cur := none, answers := [], coll := none })

def rangesMeet (a b : Nat × Nat × Nat) : Bool := a.1 == b.1 && a.2.1 < b.2.2 && b.2.1 < a.2.2

/-- The bytes meet those of an earlier entry in flight (R107). -/
def overlapsFlight (c : Chain) (rs : List (Nat × Nat × Nat)) : Bool :=
  c.flight.any fun f => (f.2.rds ++ f.2.wrs).any fun a => rs.any (rangesMeet a)

def rangesOf (sp : Nat) (l : List (Nat × Nat)) : List (Nat × Nat × Nat) := l.map fun e => (sp, e.1, e.1 + e.2)

/-- An entry that fails at its start. -/
def chainFault (s : State) (crew ch sub cause addr : Nat) (frec : DWord := 0) : State :=
  chainStop s crew ch (min (chainOf s crew ch).entry 255) sub cause addr frec

/-- Local ranges of an entry: subcode 0x05 before 0x04 (R108, R116). -/
def localSub (s : State) (crew : Nat) (rs : List (Nat × Nat × Nat)) : Option Nat :=
  let loc := rs.filter fun e => e.1 != 0
  if !(loc.all fun e => lclRangeOk s crew e.1 e.2.1 (e.2.2 - e.2.1)) then some 5
  else if !(loc.all fun e => ownedBy s crew e.1 e.2.1 (e.2.2 - e.2.1) .trestle) then some 4 else none

def idxRange (w : Nat) : List (Nat × Nat × Nat) :=
  if entCode w = 2 ∨ entCode w = 3 then rangesOf 1 [(entBits w 146 128, 4 * entLen w)] else []

def globalOf (rs : List (Nat × Nat × Nat)) : List (Nat × Nat) := (rs.filter fun e => e.1 == 0).map fun e => (e.2.1, e.2.2 - e.2.1)

/-- What a data entry or a collective needs of its ranges: the local checks, then clearance and fills. -/
def rangesStand (s : State) (crew ch : Nat) (rds wrs : List (Nat × Nat × Nat)) : Stand :=
  let p : Party := ⟨.chain crew ch, crew, (chainOf s crew ch).answers⟩
  (standClr s p .write false (globalOf wrs)).next (standRead s p true (globalOf rds))

/-- The clearances that those accesses use (R56). -/
def rangesUse (s : State) (crew ch : Nat) (rds wrs : List (Nat × Nat × Nat)) : State :=
  let p : Party := ⟨.chain crew ch, crew, (chainOf s crew ch).answers⟩
  partyUse (partyUse s p .write (globalOf wrs)) p .read (globalOf rds)

/-- The answers whose bytes no place serves: an entry in flight reads by them (R58, R75). -/
def placeless (as : List Answer) : List Answer :=
  as.filter fun a => match a with
    | .nonResident _ => true
    | .kept _ _ _ => true
    | _ => false

/-- A data entry is dispatched, or waits (R107), asks (R108) or stops the chain. -/
def fetchData (s : State) (crew ch w : Nat) : State :=
  let c := chainOf s crew ch
  if !dataOk c w then chainFault s crew ch 3 0 0
  else if 8 ≤ c.flight.length || overlapsFlight c (idxRange w) then s
  else match localSub s crew (idxRange w) with
    | some sub => chainFault s crew ch sub 0 0
    | none =>
      let idx := if (idxRange w).isEmpty then []
        else (List.range (entLen w)).map fun e => bytesNat (lclGet s crew 1 (entBits w 146 128 + 4 * e) 4)
      let moves := entMoves c w idx
      let rds := idxRange w ++ (if entCode w = 12 then [] else rangesOf (entBits w 11 10) (moves.map fun m => (m.2.1, m.2.2)))
      let wrs := rangesOf (entBits w 9 8) (moves.map fun m => (m.1, m.2.2))
      if overlapsFlight c (rds ++ wrs) then s
      else match localSub s crew (wrs ++ rds) with
        | some sub => chainFault s crew ch sub 0 0
        | none =>
          match rangesStand s crew ch rds wrs with
          | .ask cs fs => addReqs s cs fs
          | .fault code addr frec => chainFault s crew ch 7 code addr frec
          | .ok =>
            let ps := entPieces w moves
            let f : Flight := ⟨c.entry, w, rds, wrs, ps, ps.length, c.ca, c.loops, false, placeless c.answers⟩
            let id := s.nextId
            updChain (rangesUse s.fresh crew ch rds wrs) crew ch fun c => chainGoto (c.entry + 1) { c with flight := Tbl.put c.flight id f, answers := [] }

/-- The next entry (R106). Control entries and collective REDUCE wait until every earlier entry is complete, and then run by their own
event (R107). -/
def entryFetch (s : State) (crew ch : Nat) : State :=
  let k := s.crew crew
  let c := chainOf s crew ch
  if c.st != .running || c.killing || c.cur.isSome || !ctxRuns s k.ctx || k.ended || chainAsking s crew ch then s
  else if 255 < c.entry then (if c.flight.isEmpty then chainFault s crew ch 6 0 0 else s)
  else
    let off := c.base + 32 * c.entry
    if 2 ^ 19 ≤ off || k.tiles ≤ off / 1024 then chainFault s crew ch 5 0 0
    else if (tagOf s crew (off / 1024)).owner != .trestle then chainFault s crew ch 4 0 0
    else if c.flight.any fun f => f.2.wrs.any (rangesMeet (1, off, off + 32)) then s
    else
      let w := bytesNat (lclGet s crew 1 off 32)
      match entForm w with
      | some sub => chainFault s crew ch sub 0 0
      | none =>
        let code := entCode w
        let control := (7 ≤ code && code ≤ 11) || code == 13 || (code == 5 && entBits w 128 128 == 0)
        if control then (if c.flight.isEmpty then updChain s crew ch fun c => { c with cur := some w } else s)
        else fetchData s crew ch w

def execTrestleEntryFetch (crew ch : Nat) (s : State) : Out := .next (entryFetch s crew ch)

/-! ### Data entries -/

/-- A stop in the middle of an entry in flight: the rest of it is not performed, nor a loop increment that followed it (R105, R116). -/
def flightStop (s : State) (crew ch ent ix sub cause addr : Nat) : State :=
  chainStop (updChain s crew ch fun c =>
    match Tbl.find c.flight ent with
    | some f => { c with flight := Tbl.del c.flight ent, ca := if f.old then c.ca else f.ca, loops := if f.old then c.loops else f.loops }
    | none => c) crew ch ix sub cause addr

/-- A piece of an entry is done with: it leaves the list, `less` of them are performed. -/
def flightTook (s : State) (crew ch ent k less : Nat) : State :=
  updChain s crew ch fun c =>
    { c with flight := Tbl.upd c.flight ent fun f => { f with todo := f.todo.eraseIdx k, left := f.left - less } }

/-- One part of a piece: its bytes are read and written. -/
def partRun (s : State) (crew w : Nat) (as : List Answer) (q : Nat × Nat × Nat) : State :=
  let c := s.crew crew
  let cls := crewClass s crew
  let dsp := entBits w 9 8
  let ssp := entBits w 11 10
  let hint := entBits w 23 21
  let bytes :=
    if entCode w = 12 then (List.range q.2.2).map fun b => BitVec.ofNat 8 (entBits w 159 128 / 256 ^ ((q.2.1 + b) % 4))
    else if ssp = 0 then readAs s c.ctx as q.2.1 q.2.2 else lclGet s crew ssp q.2.1 q.2.2
  let s1 := if entCode w = 12 then s
    else if ssp = 0 then engReadAs s c.core cls c.ctx hint as q.2.1 q.2.2 else lclTouch s crew ssp q.2.1 q.2.2
  if entCode w = 5 then
    let t := etyOf (entBits w 139 136)
    let v := BitVec.ofNat 64 (bytesNat bytes)
    reduceAt (inject s1 c.core cls q.1 1 1 1) c.ctx q.1 q.2.2 fun old => (atomNew (redAtom (entBits w 131 129)) t (BitVec.ofNat 64 old) v).1.toNat % 256 ^ q.2.2
  else if dsp = 0 then engPut s1 c.core cls c.ctx hint q.1 bytes else lclPut s1 crew dsp q.1 bytes

/-- One piece of COPY, GATHER, SCATTER, VXFER, FILL or a REDUCE to memory. -/
def pieceRun (s : State) (crew ch ent k : Nat) (f : Flight) (ps : List (Nat × Nat × Nat)) : State :=
  let w := f.word
  let global := entBits w 11 10 = 0 ∧ entCode w ≠ 12
  match if global then (ps.filterMap fun q => poisonFor s (s.crew crew).ctx f.kept q.2.1 q.2.2).head? else none with
  | some a => flightStop s crew ch ent f.ix 7 cMemError a
  | none => flightTook (ps.foldl (fun s q => partRun s crew w f.kept q) s) crew ch ent k 1

def pieceOf (codes : List Nat) (s : State) (crew ch ent k : Nat) : State :=
  match Tbl.find (chainOf s crew ch).flight ent with
  | none => s
  | some f =>
    match f.todo[k]? with
    | none => s
    | some q => if codes.contains (entCode f.word) then pieceRun s crew ch ent k f q else s

def execTrestleCopy (crew ch ent piece : Nat) (s : State) : Out := .next (pieceOf [1] s crew ch ent piece)
def execTrestleGather (crew ch ent piece : Nat) (s : State) : Out := .next (pieceOf [2] s crew ch ent piece)
def execTrestleScatter (crew ch ent piece : Nat) (s : State) : Out := .next (pieceOf [3] s crew ch ent piece)
def execTrestleReduceMemory (crew ch ent piece : Nat) (s : State) : Out := .next (pieceOf [5] s crew ch ent piece)
def execTrestleVxfer (crew ch ent piece : Nat) (s : State) : Out := .next (pieceOf [6] s crew ch ent piece)
def execTrestleFill (crew ch ent piece : Nat) (s : State) : Out := .next (pieceOf [12] s crew ch ent piece)

def groupOf (s : State) (cl g : Nat) : Group := (s.cluster cl).groups.getD g Group.init
def updGroup (s : State) (cl g : Nat) (f : Group → Group) : State :=
  s.updCluster cl fun c => { c with groups := (c.groups.zipIdx).map fun e => if e.2 = g then f e.1 else e.1 }

/-- An MCAST sends its requests in ascending order, each with the group's present generation (R382, R100). -/
def mcastSend (s : State) (crew ch ent : Nat) : State :=
  match Tbl.find (chainOf s crew ch).flight ent with
  | none => s
  | some f =>
    match f.todo with
    | [] => s
    | p :: _ =>
      if entCode f.word != 4 then s
      else
        let q := p.headD (0, 0, 0)
        let c := s.crew crew
        let g := entBits f.word 132 128
        let r : McReq := ⟨c.core, c.ctx, q.2.1, g, (groupOf s (coreCluster c.core) g).gen.toNat, crew, ch, ent, q.1, false,
          entBits f.word 23 21, if fromPlace f.kept q.2.1 then none else some (readAs s c.ctx f.kept q.2.1 128)⟩
        flightTook { s.fresh with mcReqs := Tbl.put s.mcReqs s.nextId r } crew ch ent 0 0

def execTrestleMcast (crew ch ent piece : Nat) (s : State) : Out := .next (if piece = 0 then mcastSend s crew ch ent else s)

/-- A data entry is complete when every byte it writes has been performed (R107, R109). -/
def entryComplete (s : State) (crew ch ent : Nat) : State :=
  match Tbl.find (chainOf s crew ch).flight ent with
  | none => s
  | some f =>
    if f.todo.isEmpty && f.left = 0 then
      let s1 := updChain s crew ch fun c =>
        let d := { c with flight := Tbl.del c.flight ent }
        if f.old then d else countDone d
      if entBits f.word 20 20 = 1 then kInc s1 crew (entBits f.word 19 16) else s1
    else s

def execTrestleEntryComplete (crew ch ent : Nat) (s : State) : Out := .next (entryComplete s crew ch ent)

/-! ### Control entries (R111, R112) -/

/-- The control entry that a chain is at, where its code is one of these and the chain may run. -/
def control (s : State) (crew ch code : Nat) (f : Chain → Nat → State) : State :=
  let c := chainOf s crew ch
  match c.cur with
  | some w => if c.st == .running && entCode w = code && ctxRuns s (s.crew crew).ctx && !chainAsking s crew ch then f c w else s
  | none => s

def ownerCode (n : Nat) : Owner := if n = 0 then .slices else if n = 1 then .trestle else if n = 2 then .girder else .deck

def trestleFlip (s : State) (crew ch : Nat) : State :=
  control s crew ch 7 fun c w =>
    let dsp := entBits w 9 8
    let n := entLen w
    let new := ownerCode (entBits w 129 128)
    let d := entDst c w
    if !((dsp == 1 || dsp == 2) && n != 0 && d % tileSize dsp == 0 && new != .trestle && !(dsp == 2 && new == .deck)) then
      chainFault s crew ch 3 0 0
    else match localSub s crew [(dsp, d, d + n * tileSize dsp)] with
      | some sub => chainFault s crew ch sub 0 0
      | none =>
        let s1 := (tilesIn dsp d (n * tileSize dsp)).foldl (fun s t => setOwner s crew dsp t new) s
        chainNext s1 crew ch (c.entry + 1)

def execTrestleFlip (crew ch : Nat) (s : State) : Out := .next (trestleFlip s crew ch)

def trestlePost (s : State) (crew ch : Nat) : State :=
  control s crew ch 8 fun c w =>
    let n := entBits w 130 128
    let st := entBits w 133 131
    if (ringOf (s.crew crew) n).nst ≤ st then chainFault s crew ch 3 0 0
    else chainNext (updRing s crew n (setPhase true st)) crew ch (c.entry + 1)

def execTrestlePost (crew ch : Nat) (s : State) : Out := .next (trestlePost s crew ch)

/-- A WAIT's condition. -/
def waitHolds (s : State) (crew w : Nat) : Bool :=
  let k := s.crew crew
  if entBits w 128 128 = 1 then kReached k (entBits w 139 136) (BitVec.ofNat 32 (entBits w 191 160))
  else ringFull k (entBits w 131 129) (entBits w 134 132) == (entBits w 135 135 == 1)

/-- A WAIT goes on at once, or the chain is WAITING. -/
def trestleWait (kind : Nat) (s : State) (crew ch : Nat) : State :=
  control s crew ch 9 fun c w =>
    if entBits w 128 128 != kind then s
    else if kind = 0 && (ringOf (s.crew crew) (entBits w 131 129)).nst ≤ entBits w 134 132 then chainFault s crew ch 3 0 0
    else if waitHolds s crew w then chainNext s crew ch (c.entry + 1)
    else updChain s crew ch fun c => { c with st := .waiting }

def execTrestleWaitRing (crew ch : Nat) (s : State) : Out := .next (trestleWait 0 s crew ch)
def execTrestleWaitCounter (crew ch : Nat) (s : State) : Out := .next (trestleWait 1 s crew ch)

def waitSatisfied (s : State) (crew ch : Nat) : State :=
  let c := chainOf s crew ch
  match c.cur with
  | some w =>
    if c.st == .waiting && entCode w = 9 && ctxRuns s (s.crew crew).ctx && waitHolds s crew w then chainNext s crew ch (c.entry + 1)
    else s
  | none => s

def execTrestleWaitSatisfied (crew ch : Nat) (s : State) : Out := .next (waitSatisfied s crew ch)

/-- R112. -/
def trestleLoop (s : State) (crew ch : Nat) : State :=
  control s crew ch 10 fun c w =>
    let i := c.entry
    let body := entBits w 183 176
    let count := entBits w 175 160
    let outside := match c.loops with | l :: _ => l.last < i + body | [] => false
    if body = 0 || 255 < i + body || outside || (count != 0 && 4 ≤ c.loops.length) then chainFault s crew ch 6 0 0
    else if count = 0 then chainNext s crew ch (i + body + 1)
    else
      let inc := [0, 1, 2, 3].map fun k => BitVec.ofNat 32 (entBits w (63 + 32 * k) (32 + 32 * k))
      chainNext (updChain s crew ch fun c => { c with loops := ⟨i, i + body, count, inc⟩ :: c.loops }) crew ch (i + 1)

def execTrestleLoop (crew ch : Nat) (s : State) : Out := .next (trestleLoop s crew ch)

def skipOk (c : Chain) (skip : Nat) : Bool :=
  skip != 0 && match c.loops with | l :: _ => c.entry + skip ≤ l.last | [] => true

def ifCond (n : Nat) : WCond :=
  if n = 0 then .eq else if n = 1 then .ne else if n = 2 then .ltu else if n = 3 then .geu else if n = 4 then .lts else .ges

def trestleIfWord (s : State) (crew ch : Nat) : State :=
  control s crew ch 11 fun c w =>
    let skip := entBits w 151 144
    let va := entDst c w
    let ctx := (s.crew crew).ctx
    if entBits w 128 128 != 0 then s
    else if !skipOk c skip then chainFault s crew ch 6 0 0
    else if 5 < entBits w 131 129 || va % 4 != 0 then chainFault s crew ch 3 0 0
    else match rangesStand s crew ch [(0, va, va + 4)] [] with
      | .ask cs fs => addReqs s cs fs
      | .fault code addr frec => chainFault s crew ch 7 code addr frec
      | .ok =>
        match poisonFor s ctx c.answers va 4 with
        | some a => chainFault s crew ch 7 cMemError a
        | none =>
          let v := bytesNat (readAs s ctx c.answers va 4)
          let s1 := engReadAs (rangesUse s crew ch [(0, va, va + 4)] []) (s.crew crew).core (crewClass s crew) ctx (entBits w 23 21) c.answers va 4
          let taken := wcondHolds (ifCond (entBits w 131 129)) 32 v (entBits w 191 160)
          chainNext s1 crew ch (if taken then c.entry + 1 else c.entry + skip + 1)

def execTrestleIfWord (crew ch : Nat) (s : State) : Out := .next (trestleIfWord s crew ch)

def trestleIfRing (s : State) (crew ch : Nat) : State :=
  control s crew ch 11 fun c w =>
    let skip := entBits w 151 144
    let n := entBits w 134 132
    let st := entBits w 137 135
    if entBits w 128 128 != 1 then s
    else if !skipOk c skip then chainFault s crew ch 6 0 0
    else if (ringOf (s.crew crew) n).nst ≤ st then chainFault s crew ch 3 0 0
    else
      let holds := ringFull (s.crew crew) n st == (entBits w 160 160 == 1)
      chainNext s crew ch (if holds then c.entry + 1 else c.entry + skip + 1)

def execTrestleIfRing (crew ch : Nat) (s : State) : Out := .next (trestleIfRing s crew ch)

def trestleEnd (s : State) (crew ch : Nat) : State :=
  control s crew ch 13 fun _ w =>
    let s1 := if entBits w 20 20 = 1 then kInc s crew (entBits w 19 16) else s
    updChain s1 crew ch fun c => countDone { c with st := .ended, cur := none, answers := [] }

def execTrestleEnd (crew ch : Nat) (s : State) : Out := .next (trestleEnd s crew ch)

/-! ### Collective REDUCE (R113) -/

/-- The chain sends its contribution and waits for the collective. -/
def collectiveSend (s : State) (crew ch : Nat) : State :=
  control s crew ch 5 fun c w =>
    let n := entLen w
    let d := entDst c w
    let ssp := entBits w 11 10
    if !dataOk c w then chainFault s crew ch 3 0 0
    else
      let rds := [(ssp, entSrc c w, entSrc c w + n)]
      match localSub s crew rds with
      | some sub => chainFault s crew ch sub 0 0
      | none =>
        match rangesStand s crew ch rds [(0, d, d + n)] with
        | .ask cs fs => addReqs s cs fs
        | .fault code addr frec => chainFault s crew ch 7 code addr frec
        | .ok =>
          let m : Collective := ⟨(s.crew crew).ctx, entBits w 223 192, d, n, entBits w 139 136, entBits w 175 160, entBits w 191 176,
            lclGet s crew ssp (entSrc c w) n, crew, ch, false, 0⟩
          let s0 := lclTouch (rangesUse s crew ch rds [(0, d, d + n)]) crew ssp (entSrc c w) n
          let s1 := (sectorParts d n).foldl (fun s e => inject s (s.crew crew).core (crewClass s crew) e.1 (dataFlits e.2) 1 1)
            { s0.fresh with colls := Tbl.put s.colls s.nextId m }
          updChain s1 crew ch fun c => { c with st := .waiting, answers := [], coll := some s.nextId }

def execTrestleReduceCollective (crew ch : Nat) (s : State) : Out := .next (collectiveSend s crew ch)

/-- The fixed tree over rank, one level per unit of fuel. -/
def collTree (f : Nat → Nat → Nat) : Nat → List Nat → Nat
  | 0, l => l.headD 0
  | fuel + 1, l => if l.length ≤ 1 then l.headD 0 else collTree f fuel (pairUp f l)
where
  pairUp (f : Nat → Nat → Nat) : List Nat → List Nat
    | a :: b :: l => f a b :: pairUp f l
    | l => l

/-- The collected sum, element by element. -/
def collSum (ety len : Nat) (parts : List (List Byte)) : List Byte :=
  let z := etyBytes ety
  let f := fun a b => (atomNew .add (etyOf ety) (BitVec.ofNat 64 a) (BitVec.ofNat 64 b)).1.toNat % 256 ^ z
  (List.range (len / z)).flatMap fun e => natBytes z (collTree f 17 (parts.map fun p => bytesNat ((p.drop (z * e)).take z)))

/-- The chain that made a contribution, if it still waits for it. -/
def collWaits (s : State) (k : Nat) (m : Collective) : Bool := (chainOf s m.crew m.ch).coll == some k

/-- A chain that still waits for a contribution of a collective that failed is stopped (R113). -/
def collStop (s : State) (k : Nat) (m : Collective) : State :=
  if collWaits s k m then chainFault s m.crew m.ch 9 0 0 else s

/-- A contribution reaches the collecting home; the last one reduces, writes, and completes every participant. After a mismatch the rest of
the first arrival's NPART participants are stopped as they arrive (R113; that count DESIGN CHOICE, log 84). KE = 1 on a collective REDUCE, which
R109 lets data entries alone carry and R107 does not list among them, is accepted and counts when the collective completes (DESIGN CHOICE,
log 84). -/
def collArrive (s : State) (k : Nat) : State :=
  match Tbl.find s.colls k with
  | none => s
  | some m =>
    if m.arrived then s
    else
      let home := fun (d : Nat) => (vaTower d, homeSlice d)
      let group := s.colls.filter fun e => e.2.arrived && e.2.ctx == m.ctx && e.2.coll == m.coll && home e.2.dst == home m.dst
      let mates := group.filter fun e => e.2.short == 0
      let fits := mates.all fun e =>
        e.2.dst == m.dst && e.2.len == m.len && e.2.ety == m.ety && e.2.npart == m.npart && e.2.rank != m.rank
      let all := mates ++ [(k, m)]
      let clear := { s with colls := s.colls.filter fun e => !(all.any fun a => a.1 == e.1) }
      match group.find? fun e => e.2.short != 0 with
      | some (kf, f) =>
        let rest := Tbl.del s.colls k
        collStop { s with colls := if f.short ≤ 1 then Tbl.del rest kf else Tbl.put rest kf { f with short := f.short - 1 } } k m
      | none =>
      if !fits then
        let first := (mates.head?.map Prod.snd).getD m
        let short := first.npart - all.length
        let s1 := if short = 0 then clear else { clear with colls := Tbl.put clear.colls k { first with arrived := true, short := short } }
        all.foldl (fun s e => collStop s e.1 e.2) s1
      else if all.length < m.npart then { s with colls := Tbl.put s.colls k { m with arrived := true } }
      else
        let parts := (List.range m.npart).map fun r => ((all.find? fun e => e.2.rank == r).map fun e => e.2.bytes).getD []
        let s1 := homePut clear m.ctx m.dst ((collSum m.ety m.len parts).take m.len)
        all.foldl (fun s e =>
          if collWaits s e.1 e.2 then
            let c := chainOf s e.2.crew e.2.ch
            let w := c.cur.getD 0
            let s2 := if entBits w 20 20 = 1 then kInc s e.2.crew (entBits w 19 16) else s
            chainNext s2 e.2.crew e.2.ch (c.entry + 1)
          else s) s1

def execCollectiveContribution (k : Nat) (s : State) : Out := .next (collArrive s k)

/-! ### TRST, TRSTQ, TRSTK (R336, R337) -/

/-- Every earlier access of the slice is performed first. -/
def accessPre (s : State) (i : Nat) : Pre := if (s.sl i).accs.isEmpty then .go else .park .accesses

/-- A scalar operand, 32 and 64 bits. -/
def rs32 (s : State) (i : Nat) (h : Hdr) (o : Opnd) : Nat := (rd (s.crewOf i) (s.sl i) .u32 h.imm 0 o).toNat
def rs64 (s : State) (i : Nat) (h : Hdr) (o : Opnd) : Nat := (rd (s.crewOf i) (s.sl i) .u64 h.imm 0 o).toNat

/-- Register k of an s range. -/
def sRange (x : Slice) (o : Opnd) (k : Nat) : DWord :=
  match o with
  | .s n => x.sreg (n + k)
  | _ => 0

def localTrap (code addr : Nat) : Pre := .trap ⟨3, code, BitVec.ofNat 64 addr, 0, none, 0⟩
def alignTrap (addr : Nat) : Pre := .trap ⟨2, cDataAlign, BitVec.ofNat 64 addr, 0, none, 0⟩
def operandTrap : Pre := .trap (trapPlain 1 cReservedOperand)

/-- A once-per-slice instruction of one role, or of any. -/
def onceMeaning (h : Hdr) (chk : State → Nat → Option Nat) (pre : State → Nat → Pre) (act : State → State → Nat → State) : Meaning where
  chk := chk
  lanes := perSlice h
  pre := fun s i _ => pre s i
  act := fun p s i _ => act p s i
  jump := false
  occ := 1

/-- A unit whose instruction reads memory and then traps or parks on what it read has made the read (R36, R43): `before` is what it needs for
it, `after` what the bytes decide. -/
def unitLooks (h : Hdr) (before after : State → Nat → Pre) (look : State → Nat → State) (s : State) : State :=
  let on := s.cur.filter fun i => perSlice h (s.sl i) != 0
  if on.all (fun i => (before s i).isGo) && !on.all (fun i => (after s i).isGo) then on.foldl look s else s

def anyRole (_ : State) (_ : Nat) : Option Nat := none

/-- R103: the chain is RUNNING at entry 0. -/
def trstStart (pre s : State) (i ch : Nat) (a : Opnd) (base : Nat) : State :=
  let x := pre.sl i
  updChain s x.crew ch fun c =>
    { c with
      st := .running
      base := base
      entry := 0
      ca := [0, 1, 2, 3].map (sRange x a)
      loops := []
      sub := 0
      cause := 0
      done := 0
      cur := none
      answers := []
      slice := i
      pc := x.pc
      mask := gangMask (pre.crewOf i) x x.active
      coll := none
      flight := c.flight.map fun f => (f.1, { f.2 with old := true }) }

def execTrst (h : Hdr) (ch : Nat) (a b : Opnd) (s : State) : Out :=
  runUnit h (onceMeaning h (chkRole .copy)
    (fun s i =>
      let off := rs32 s i h b
      if off % 32 != 0 then alignTrap off
      else if 2 ^ 19 ≤ off || (s.crewOf i).tiles ≤ off / 1024 then localTrap cLocalRange off
      else if (chainOf s (s.sl i).crew ch).busy then .park (.chain ch)
      else accessPre s i)
    (fun pre s i => trstStart pre s i ch a (rs32 pre i h b))) s

/-- The status word (R104). -/
def chainStatus (c : Chain) : DWord :=
  let st := match c.st with
    | .idle => 0 | .running => 1 | .waiting => 2 | .ended => 3 | .stopped => 4 | .killed => 5
  BitVec.ofNat 64 (min c.entry 255 + 2 ^ 8 * st + 2 ^ 12 * c.loops.length + 2 ^ 16 * c.sub + 2 ^ 24 * c.cause + 2 ^ 32 * c.done)

/-- A query of a chain's status goes to the core's Trestle (R337); the result lands in `d`, or is discarded. -/
def sendQuery (s : State) (i ch : Nat) (d : Opnd) : State :=
  let n := (landReg .u64 d 0 0).length
  if n = 0 then s
  else s.fresh.updSl i fun x => { x with outst := Tbl.put x.outst s.nextId n, queries := x.queries ++ [(s.nextId, ch, d)] }

/-- The queries of a slice reach the Trestle, which answers with the status as it then stands. -/
def answerQueries (s : State) (x : Slice) : Slice :=
  { x with
    ready := x.ready ++ x.queries.flatMap fun q =>
      (landReg .u64 q.2.2 0 (chainStatus (chainOf s x.crew q.2.1))).map fun e => ⟨q.1, e.1, e.2⟩
    queries := [] }

def execTrstq (h : Hdr) (ch : Nat) (d : Opnd) (s : State) : Out :=
  runUnit h (onceMeaning h anyRole (fun s i => roomPre s i) (fun _ s i => sendQuery s i ch d)) s

/-- A kill takes hold once no sector is in flight (R105). -/
def killSettle (s : State) (crew ch : Nat) : State :=
  updChain s crew ch fun c =>
    let fl := c.flight.filter fun f => f.2.old || !(f.2.todo.isEmpty && f.2.left = 0)
    if !c.killing then c
    else if fl.all fun f => f.2.old then { c with st := .killed, killing := false, flight := fl }
    else { c with flight := fl }

/-- R105: entries that are complete stay so; the oldest in flight is abandoned, or else the current one, and what is not yet in flight of the
rest is not performed. -/
def chainKill (s : State) (crew ch : Nat) : State :=
  if !(chainOf s crew ch).busy || (chainOf s crew ch).killing then s
  else
    let s1 := (chainOf s crew ch).flight.foldl (fun s f => entryComplete s crew ch f.1) s
    killSettle (updChain (dropChainReqs s1 crew ch) crew ch fun c =>
      let oldest := (c.flight.find? fun f => !f.2.old).map Prod.snd
      { c with
        killing := true
        entry := (oldest.map Flight.ix).getD (min c.entry 255)
        ca := (oldest.map Flight.ca).getD c.ca
        loops := (oldest.map Flight.loops).getD c.loops
        flight := c.flight.map fun f =>
          (f.1, if f.2.old then f.2 else { f.2 with todo := [], left := f.2.left - f.2.todo.length })
        cur := none
        answers := []
        coll := none }) crew ch

def execTrstk (h : Hdr) (ch : Nat) (s : State) : Out :=
  runUnit h (onceMeaning h anyRole (fun _ _ => .go)
    (fun _ s i => (chainKill s (s.sl i).crew ch).updSl i (standAt (Wait.chain ch)))) s

/-! ### Multicast (R99 to R101, R338) -/

/-- The cores of a cluster that hold a crew of a span. -/
def maskOk (s : State) (span m : Nat) : Bool :=
  (List.range 16).all fun c => m / 2 ^ c % 2 == 0 || (s.span span).crews.any fun k => (s.crew k).core % 16 == c && !(s.crew k).ended

def execMcgrp (h : Hdr) (d a b : Opnd) (s : State) : Out :=
  runUnit h (onceMeaning h anyRole
    (fun s i =>
      let g := rs32 s i h a
      let m := rs64 s i h b
      let sp := (s.crewOf i).span
      let gr := groupOf s (coreCluster (s.coreOf i)) g
      if 32 ≤ g || 2 ^ 16 ≤ m then operandTrap
      else if (gr.mask != 0 && gr.span != sp && (Tbl.find s.spans gr.span).isSome) || !maskOk s sp m then localTrap cMcgrp 0
      else if gr.drain != 0 then .park (.group g) else .go)
    (fun pre s i =>
      let g := rs32 pre i h a
      let cl := coreCluster (s.coreOf i)
      let gen := (groupOf s cl g).gen + 1
      let s1 := updGroup s cl g fun r => { r with mask := BitVec.ofNat 16 (rs64 pre i h b), gen := gen, span := (s.crewOf i).span }
      s1.updSl i fun x => standAt Wait.now (wr .u64 d 0 (gen.setWidth 64) x))) s

/-- The request's entry is still in flight, or its loop queued: a request of an entry that has been stopped reads and delivers nothing. -/
def mcLive (s : State) (r : McReq) : Bool :=
  if r.girder then (s.core r.core).loops.any fun l => l.id == r.ent
  else !(s.crew r.crew).ended && (Tbl.find (chainOf s r.crew r.ch).flight r.ent).isSome

/-- Requests whose bytes come from the sector's place. -/
def mcReads (s : State) (rs : List McReq) : Bool := rs.any fun r => mcLive s r && r.data.isNone

/-- A request's bytes reach its own destination (R101): the requesting entry's tile, or Girder. The manual gives a poisoned sector of a loop's B
no cause: its bytes are delivered as they stand (DESIGN CHOICE, log 31). -/
def mcDeliver (s : State) (r : McReq) : State :=
  let bytes := r.data.getD (curBytes s r.ctx r.va 128)
  if !mcLive s r then s
  else if r.girder then
    s.updCore r.core fun c => { c with loops := c.loops.map fun l =>
      if l.id = r.ent then { l with mc := Tbl.put l.mc r.va bytes } else l }
  else
    match Tbl.find (chainOf s r.crew r.ch).flight r.ent, (if r.data.isSome then none else anyPoison s r.ctx r.va 128) with
    | some f, some a => flightStop s r.crew r.ch r.ent f.ix 7 cMemError a
    | _, _ =>
      let s1 := lclPut s r.crew 1 r.dst bytes
      killSettle (updChain s1 r.crew r.ch fun c =>
        { c with flight := Tbl.upd c.flight r.ent fun f => { f with left := f.left - 1 } }) r.crew r.ch

/-- A multicast request reaches the slice: it joins the open set of its sector, group and generation, opens one, or is not merged. The
clock at which a set's data is ready is open, so a set may take a request at or after first arrival + 64; it then leaves later (R101). -/
def mcArrive (s : State) (k : Nat) : State :=
  match Tbl.find s.mcReqs k with
  | none => s
  | some r =>
    let cl := coreCluster r.core
    let g := groupOf s cl r.group
    let s1 := { s with mcReqs := Tbl.del s.mcReqs k }
    if !g.mask.getLsbD (r.core % 16) || g.gen.toNat != r.gen then
      if r.girder then
        mcDeliver (if mcReads s [r] then engRead s1 r.core (crewClass s r.crew) r.ctx r.hint r.va 128 else s1) r
      else match Tbl.find (chainOf s r.crew r.ch).flight r.ent with
        | some f => flightStop s1 r.crew r.ch r.ent f.ix 8 0 0
        | none => s1
    else
      let now := (s.pkg (corePkg r.core)).clock
      let s2 := updGroup s1 cl r.group fun g => { g with drain := g.drain + 1 }
      let same := fun (e : Nat × McSet) =>
        e.2.cluster == cl && e.2.ctx == r.ctx && e.2.va == r.va && e.2.group == r.group && e.2.gen == r.gen
      match s.mcSets.find? same with
      | some (n, m) => { s2 with mcSets := Tbl.put s2.mcSets n { m with last := now, reqs := m.reqs ++ [r] } }
      | none => { s2.fresh with mcSets := Tbl.put s2.mcSets s2.nextId ⟨cl, r.ctx, r.va, r.group, r.gen, now, now, [r]⟩ }

def execMcastRequest (k : Nat) (s : State) : Out := .next (mcArrive s k)

/-- A set's reply leaves at 64 clocks after its first arrival, or when its data is ready (R101). Its line is read under the cache hint of the
request that opened it. -/
def mcLeave (s : State) (k : Nat) : State :=
  match Tbl.find s.mcSets k with
  | none => s
  | some m =>
    if (s.pkg (m.cluster / 64)).clock < m.first + 64 || (s.pkg (m.cluster / 64)).clock ≤ m.last then s
    else
      let hint := (m.reqs.head?.map McReq.hint).getD 0
      let core := (m.reqs.head?.map McReq.core).getD (16 * m.cluster)
      let cls := crewClass s ((m.reqs.head?.map McReq.crew).getD 0)
      let s0 := { s with mcSets := Tbl.del s.mcSets k }
      let s1 := if mcReads s m.reqs then engRead s0 core cls m.ctx hint m.va 128 else s0
      let s2 := m.reqs.foldl mcDeliver s1
      updGroup s2 m.cluster m.group fun g => { g with drain := g.drain - m.reqs.length }

def execMcastSetLeave (k : Nat) (s : State) : Out := .next (mcLeave s k)

/-- A drained group of a span that has exited is released; its generation stays (R99). -/
def groupDrained (s : State) (cl g : Nat) : State :=
  let r := groupOf s cl g
  if r.drain = 0 && r.mask != 0 && (Tbl.find s.spans r.span).isNone then updGroup s cl g fun r => { r with mask := 0 } else s

def execMcastGroupDrained (cluster group : Nat) (s : State) : Out := .next (groupDrained s cluster group)

end Sys2Proof.Machine
end

