-- ==== Sys2Proof/Machine/Deck.lean ====
section
/-! DEFINITION. The Deck (R176 to R191, R344 to R349, R381): its instructions check at issue and enter a queue; DECK_START runs the head.
Cell n = 32j + i. -/

namespace Sys2Proof.Machine

/-! ### Cells -/

def Deck.top (d : Deck) : BitVec 1024 := d.stack.headD 0
def Deck.on (d : Deck) (n : Nat) : Bool := d.top.getLsbD n
def Deck.cells (d : Deck) : List Nat := (List.range 1024).filter d.on
def Deck.reg (d : Deck) (r n : Nat) : Word := Tbl.findD d.regs (1024 * r + n) 0
def Deck.flagsOf (d : Deck) (n : Nat) : Flags := Tbl.findD d.flags n 0

/-- A source as a cell reads it: a register, a coordinate, or the scalar taken at issue. -/
def cellVal (d : Deck) (sc : DWord) (n : Nat) : CellOp → Word
  | .cell r => d.reg r n
  | .cx => BitVec.ofNat 32 (n % 32)
  | .cy => BitVec.ofNat 32 (n / 32)
  | .scalar _ => sc.setWidth 32

/-- Flags of enabled cells: sticky in the cell and in DKFLAGS; cells have no DZ (R185). -/
def Deck.raise (d : Deck) (n : Nat) (f : Flags) : Deck :=
  let g := f &&& 0x3D
  if g = 0 then d else { d with flags := Tbl.put d.flags n (d.flagsOf n ||| g), dkflags := d.dkflags ||| g }

def Deck.put (d : Deck) (r n : Nat) (v : Word) : Deck := { d with regs := Tbl.put d.regs (1024 * r + n) v }

/-- Every enabled cell writes register `r` (R180); the values are those before the instruction. -/
def Deck.each (d : Deck) (r : Nat) (f : Nat → Fl Nat) : Deck :=
  d.cells.foldl (fun y n => (y.put r n (BitVec.ofNat 32 (f n).1)).raise n (f n).2) d

/-- The top of every stack narrowed by a test (R179). -/
def Deck.narrow (d : Deck) (f : Nat → Bool) : Deck :=
  match d.stack with
  | [] => d
  | t :: st =>
    { d with stack := (BitVec.ofNat 1024 (((List.range 1024).map fun n => if t.getLsbD n && f n then 2 ^ n else 0).foldl (· + ·) 0)) :: st }

def windowMask (x0 y0 w h : Nat) : BitVec 1024 :=
  BitVec.ofNat 1024 (((List.range 1024).map fun n =>
    if x0 ≤ n % 32 && n % 32 < x0 + w && y0 ≤ n / 32 && n / 32 < y0 + h then 2 ^ n else 0).foldl (· + ·) 0)

/-! ### Arithmetic of cells -/

/-- A pixel centre k + 0.5, and the product of two. -/
def centre (k : Nat) : Val := .fin false (2 * k + 1) (-1)
def centre2 (k l : Nat) : Val := .fin false ((2 * k + 1) * (2 * l + 1)) (-2)

/-- fma with one rounding, the flags of the addend joined. -/
def fmaStep (a : Nat) (x : Val) (c : Fl Nat) : Fl Nat :=
  let r := roundFl fmtF32 (fmaVal (dec fmtF32 a) x (dec fmtF32 c.1))
  (r.1, r.2 ||| c.2)

def f32Of (w : DWord) : Nat := w.toNat % 2 ^ 32

/-- DKLIN in one cell (R182). -/
def dkLin (a b c : DWord) (n : Nat) : Fl Nat :=
  fmaStep (f32Of a) (centre (n % 32)) (fmaStep (f32Of b) (centre (n / 32)) (f32Of c, 0))

/-- DKQUAD in one cell. -/
def dkQuad (k : List DWord) (n : Nat) : Fl Nat :=
  let g := fun (j : Nat) => f32Of (k.getD j 0)
  let i := n % 32
  let j := n / 32
  fmaStep (g 0) (centre2 i i) (fmaStep (g 1) (centre2 i j) (fmaStep (g 2) (centre2 j j)
    (fmaStep (g 3) (centre i) (fmaStep (g 4) (centre j) (g 5, 0)))))

/-- DKEXP in one cell. -/
def dkExp (k : List DWord) (amp : DWord) (n : Nat) : Fl Nat :=
  let q := dkQuad k n
  let e := exp2_32 q.1
  let r := fmul2 fmtF32 (f32Of amp) e.1
  (r.1, r.2 ||| e.2 ||| q.2)

/-- DKEDGE (R181). -/
def dkEdge (a b c : DWord) (n : Nat) : Bool :=
  let x := sInt 32 a.toNat
  let y := sInt 32 b.toNat
  let e := x * (2 * (n % 32) + 1 : Nat) + y * (2 * (n / 32) + 1 : Nat) + c.toInt
  decide (0 < e) || (e == 0 && (decide (0 < x) || (x == 0 && decide (0 < y))))

/-- Condition codes of DKOP.cmp (R346). -/
def dkCond (k : Nat) : Cond := [Cond.eq, .ne, .lt, .le, .gt, .ge, .num, .nan].getD k .eq

def dkCompare (t : Ty) (c : Cond) (a b : Word) : Bool :=
  if t = .f32 then aluFcmp t c (a.setWidth 64) (b.setWidth 64) else aluCmp t c (a.setWidth 64) (b.setWidth 64)

/-- DKOP in one cell (R346). -/
def dkFn (fn : DkFn) (t : Ty) (cond : Cond) (a b c : Word) : Fl Nat :=
  let f := decide (t = .f32)
  let x := a.setWidth 64
  let y := b.setWidth 64
  let z := c.setWidth 64
  let i := fun (v : DWord) => ((v.toNat % 2 ^ 32, 0) : Fl Nat)
  let g := fun (v : Fl DWord) => ((v.1.toNat % 2 ^ 32, v.2) : Fl Nat)
  match fn with
  | .add => if f then g (aluFadd t false x y) else i (aluAdd t false x y)
  | .sub => if f then g (aluFsub t false x y) else i (aluSub t false x y)
  | .mul => if f then g (aluFmul t false x y) else i (aluMul t x y)
  | .fma => if f then g (aluFfma t false x y z) else i (aluMad t x y z)
  | .min => i (if f then aluFmin t x y else aluMin t x y)
  | .max => i (if f then aluFmax t x y else aluMax t x y)
  | .and => i (x &&& y)
  | .or => i (x ||| y)
  | .xor => i (x ^^^ y)
  | .shl => i (aluShl false .u32 x y)
  | .shr => i (aluShr false .u32 x y)
  | .sar => i (aluSar false .s32 x y)
  | .sel => (if c = 0 then b.toNat else a.toNat, 0)
  | .cmp => (if dkCompare t cond a b then 1 else 0, 0)
  | .mov => (a.toNat, 0)
  | .rcp =>
    let r := rcp32 a.toNat
    (r.1, if r.2 &&& fDZ != 0 then (r.2 &&& ~~~fDZ) ||| fOF else r.2)

/-- DKSUM's tree: each row, then the rows (R184). -/
def dkSum (d : Deck) (op : RedOp) (t : Ty) (a : CellOp) : Fl Nat :=
  let cell := fun (n : Nat) => ((if d.on n then (cellVal d 0 n a).toNat else redIdentity op t, 0) : Fl Nat)
  let row := fun (j : Nat) => pairTree (redStep op t) 5 ((List.range 32).map fun i => cell (32 * j + i))
  pairTree (redStep op t) 5 ((List.range 32).map row)

/-- One byte into the CRC of R189, most significant bit first. -/
def crcByte (c : BitVec 64) (b : Byte) : BitVec 64 :=
  (List.range 8).foldl (fun c k =>
    let top := c.msb != b.getLsbD (7 - k)
    let sh := c <<< 1
    if top then sh ^^^ 0x42F0E1EBA9EA3693 else sh) c

def crc64 (bytes : List Byte) : BitVec 64 := bytes.foldl crcByte 0

/-! ### Running the head of the queue (R190) -/

/-- A queued instruction's result reaches its slice (R142). -/
def dkLand (s : State) (e : DkEntry) (ls : List (LandDst × DWord)) : State :=
  if e.id = 0 then s else s.updSl e.sl fun x => { x with ready := x.ready ++ ls.map fun l => ⟨e.id, l.1, l.2⟩ }

/-- Cell word 4·(32j + i)'s byte offset in the tile, as an exported address. -/
def dkxpAddr (base stride : Int) (k : Nat) : Nat := ((base + (k / 128 : Nat) * stride + (k % 128 : Nat)) % (2 : Int) ^ 64).toNat

/-- The parts in which the 32 rows are stored: what lies in one aligned 8-byte unit (R211), by the first byte's offset in the tile and the
bytes. -/
def dkxpParts (base stride : Int) : List (Nat × Nat) :=
  (List.range 32).flatMap fun j =>
    (unitParts (dkxpAddr base stride (128 * j)) (128 * j) 128).map fun q => (q.2.1, q.2.2)

/-- One step of DKXP (R189): it reads the old signature and compares; then its rows' requests go out and it writes the rows, part by part and in
any order, and last the signature, each by an event of its own. The second part of the answer is what stays at the head of the queue: the
parts still to write follow its six scalars. -/
def dkExport (s : State) (crew : Nat) (e : DkEntry) (d : Opnd) (a : CellOp) : State × Option DkEntry :=
  let c := s.crew crew
  let cls := crewClass s crew
  let base : Int := (e.sc.getD 1 0).toNat
  let stride := (e.sc.getD 2 0).toInt
  let sigAt := (e.sc.getD 3 0).toNat
  let word := fun (n : Nat) => natBytes 4 (cellVal c.deck (e.sc.getD 0 0) n a).toNat
  let sig := crc64 ((List.range 1024).flatMap word)
  match e.sc.drop 6 with
  | [] =>
  let bad := (anyPoison s c.ctx sigAt 8).isSome
  let old := if bad then (Config.freeWord s.freeIx).toNat else curLE s c.ctx sigAt 8
  let s0 := engRead s c.core cls c.ctx 0 sigAt 8
  let s1 := if bad then deferTrap s0 e.sl
      ⟨cMemError, e.sc.getD 4 0, BitVec.ofNat 64 (sigAt / 256 * 256), (e.sc.getD 5 0).setWidth 32, 0, true, false⟩ else s0
  if sig.toNat = old then (dkLand s1 e (landReg .u32 d 0 1), none)
  else
    let s2 := (List.range 32).foldl (fun s j => engAsk s c.core cls c.ctx 0 (dkxpAddr base stride (128 * j)) 128) s1
    (s2, some { e with sc := e.sc.take 6 ++ ((dkxpParts base stride).map fun q => BitVec.ofNat 64 q.1) ++ [4096] })
  | [_] => (dkLand (engPut s c.core cls c.ctx 0 sigAt (natBytes 8 sig.toNat)) e (landReg .u32 d 0 0), none)
  | todo =>
    let parts := todo.filter fun j => j != 4096
    let k := (parts.getD (Config.freeNat s.freeIx % parts.length) 0).toNat
    let n := (((dkxpParts base stride).find? fun q => q.1 == k).map Prod.snd).getD 0
    (engWrite s c.core c.ctx 0 (dkxpAddr base stride k) ((((List.range 1024).flatMap word).drop k).take n),
      some { e with sc := e.sc.take 6 ++ todo.filter fun j => j != BitVec.ofNat 64 k })

def setDeck (s : State) (crew : Nat) (d : Deck) : State := s.updCrew crew fun c => { c with deck := d }

/-- Cell n's word of the four tiles at a stash offset (R186). -/
def deckWord (crew off n : Nat) : Nat := crew * 2 ^ 19 + off + 4 * n

/-- The effect of one queued instruction. -/
def dkRun (s : State) (crew : Nat) (e : DkEntry) : State :=
  let d := (s.crew crew).deck
  let k := fun (j : Nat) => e.sc.getD j 0
  let set := setDeck s crew
  match e.i with
  | .dkwin _ _ =>
    let v := (k 0).toNat
    set { d with stack := [windowMask (v % 32) (v / 2 ^ 8 % 32) (v / 2 ^ 16 % 64) (v / 2 ^ 24 % 64)] }
  | .dklin _ r _ _ _ => set (d.each r (dkLin (k 0) (k 1) (k 2)))
  | .dkedge _ _ _ _ => set (d.narrow (dkEdge (k 0) (k 1) (k 2)))
  | .dkquad _ r _ => set (d.each r (dkQuad e.sc))
  | .dkexp _ r _ _ => set (d.each r (dkExp e.sc (k 6)))
  | .dkpush _ => set { d with stack := d.top :: d.stack }
  | .dkpop _ => set { d with stack := d.stack.tail }
  | .dkelse _ => set { d with stack := ((d.stack.tail.headD 0) &&& ~~~d.top) :: d.stack.tail }
  | .dkop _ fn t r a b c =>
    let cond := match c with | .cell n => dkCond n | _ => .eq
    set (d.each r fun n => dkFn fn t cond (cellVal d (k 0) n a) (cellVal d (k 1) n b) (cellVal d (k 2) n c))
  | .dkmov _ r a => set (d.each r fun n => ((cellVal d (k 0) n a).toNat, 0))
  | .dkld _ r _ =>
    let off := (k 0).toNat % 2 ^ 32
    set (d.each r fun n => (Mem.readLE s.stash (deckWord crew off n) 4, 0))
  | .dkst _ a _ =>
    let off := (k 0).toNat % 2 ^ 32
    { s with stash := d.cells.foldl (fun m n => Mem.writeLE m (deckWord crew off n) 4 (cellVal d 0 n a).toNat) s.stash }
  | .dkany _ all q a =>
    let nz := fun (n : Nat) => cellVal d 0 n a != 0
    let r := if all then d.cells.all nz else d.cells.any nz
    dkLand s e [(.qbit q, if r then 1 else 0)]
  | .dksum _ op t dst a =>
    let r := dkSum d op t a
    dkLand (set { d with dkflags := d.dkflags ||| (r.2 &&& 0x3D) }) e (landReg .u32 dst 0 (BitVec.ofNat 64 r.1))
  | .dktest _ (.cmp c t a b) => set (d.narrow fun n => dkCompare t c (cellVal d (k 0) n a) (cellVal d (k 1) n b))
  | .dktest _ (.flag b) => set (d.narrow fun n => (d.flagsOf n &&& ((cellVal d (k 0) n b).setWidth 6 &&& 0x3D)) != 0)
  | .dkflg _ dst => dkLand (set { d with dkflags := 0, flags := [] }) e (landReg .u64 dst 0 (d.dkflags.setWidth 64))
  | _ => s

/-- A Deck runs while its context is not stopped: a stop, of whatever cause, waits for the queue to drain (R191, R246). -/
def deckRuns (s : State) (ctx : Nat) : Bool :=
  s.hasCtx ctx && ((s.ctx ctx).st == .running || (s.ctx ctx).st == .stopping || (s.ctx ctx).st == .dead)

def deckStart (s : State) (crew : Nat) : State :=
  let c := s.crew crew
  match c.deck.queue with
  | [] => s
  | e :: _ =>
    if c.ended || !deckRuns s c.ctx then s
    else
      let r := match e.i with
        | .dkxp _ dst a _ _ _ => dkExport s crew e dst a
        | _ => (dkRun s crew e, none)
      r.1.updCrew crew fun c => { c with deck := { c.deck with queue := r.2.toList ++ c.deck.queue.tail } }

/-- The whole queue is run: what an export takes is one check, 544 parts at most, and the signature. -/
def drainDeck (s : State) (crew : Nat) : State :=
  (List.range (546 * (s.crew crew).deck.queue.length)).foldl (fun s _ => deckStart s crew) s

def execDeckStart (crew : Nat) (s : State) : Out := .next (deckStart s crew)

/-! ### Issue (R344) -/

/-- A scalar of the queue entry; an F32, S32 or U32 operand is taken from bits [31:0]. -/
def dkScalar (s : State) (i : Nat) (h : Hdr) (o : Opnd) : DWord := rd (s.crewOf i) (s.sl i) .u64 h.imm 0 o

def cellScalar (s : State) (i : Nat) (h : Hdr) (o : CellOp) : DWord :=
  match o with
  | .scalar o => dkScalar s i h o
  | _ => 0

/-- The instruction enters the queue with its scalars; `result` says whether a result will land. -/
def dkQueue (pre s : State) (i : Nat) (ins : Instr) (sc : List DWord) (result : Bool) (depth : Nat → Nat) : State :=
  let id := s.nextId
  let crew := (pre.sl i).crew
  let s1 := s.fresh.updCrew crew fun c =>
    { c with deck := { c.deck with queue := c.deck.queue ++ [⟨id, ins, sc, i, if result then id else 0⟩], depth := depth c.deck.depth } }
  if result then s1.updSl i fun x => { x with outst := Tbl.put x.outst id 1 } else s1

def dkRoom (s : State) (i : Nat) (result : Bool) : Pre :=
  if 16 ≤ (s.crewOf i).deck.queue.length then .park .deckRoom else if result then roomPre s i else .go

/-- A queued Deck instruction: its checks of operand values and depth, its scalars, its result, its effect on the depth. -/
def dkIssue (h : Hdr) (ins : Instr) (val : State → Nat → Pre) (sc : State → Nat → List DWord) (result : Bool) (depth : Nat → Nat)
    (s : State) : Out :=
  runUnit h (onceMeaning h (chkRole .deck) (fun s i => (val s i).next (dkRoom s i result))
    fun pre s i => dkQueue pre s i ins (sc pre i) result depth) s

def goPre (_ : State) (_ : Nat) : Pre := .go

/-- R178, R345: DKWIN's packed window. -/
def windowOk (v : Nat) : Bool :=
  let x := v % 32
  let y := v / 2 ^ 8 % 32
  let w := v / 2 ^ 16 % 64
  let hh := v / 2 ^ 24 % 64
  v == x + 2 ^ 8 * y + 2 ^ 16 * w + 2 ^ 24 * hh && 1 ≤ w && 1 ≤ hh && x + w ≤ 32 && y + hh ≤ 32

def execDkwin (h : Hdr) (a : Opnd) (s : State) : Out :=
  dkIssue h (.dkwin h a) (fun s i => if windowOk (rs32 s i h a) then .go else operandTrap)
    (fun s i => [dkScalar s i h a]) false (fun _ => 1) s

def execDklin (h : Hdr) (d : Nat) (a b c : Opnd) (s : State) : Out :=
  dkIssue h (.dklin h d a b c) goPre (fun s i => [dkScalar s i h a, dkScalar s i h b, dkScalar s i h c]) false id s

/-- C is read as S64: the immediate is sign-extended (R345). -/
def execDkedge (h : Hdr) (a b c : Opnd) (s : State) : Out :=
  dkIssue h (.dkedge h a b c) goPre
    (fun s i => [dkScalar s i h a, dkScalar s i h b, rd (s.crewOf i) (s.sl i) .s64 h.imm 0 c]) false id s

def execDkquad (h : Hdr) (d : Nat) (a : Opnd) (s : State) : Out :=
  dkIssue h (.dkquad h d a) goPre (fun s i => (List.range 6).map (sRange (s.sl i) a)) false id s

/-- DKEXP is not available before margin training has completed (R182, R270). -/
def execDkexp (h : Hdr) (d : Nat) (a b : Opnd) (s : State) : Out :=
  runUnit h (onceMeaning h
    (fun s i => if (s.pkg (corePkg (s.coreOf i))).trained then chkRole .deck s i else some cReservedInstr)
    (fun s i => dkRoom s i false)
    fun pre s i => dkQueue pre s i (.dkexp h d a b) ((List.range 6).map (sRange (pre.sl i) a) ++ [dkScalar pre i h b]) false id) s

def depthOf (s : State) (i : Nat) : Nat := (s.crewOf i).deck.depth
def stackTrap : Pre := .trap (trapPlain 3 cDeckStack)

def execDkpush (h : Hdr) (s : State) : Out :=
  dkIssue h (.dkpush h) (fun s i => if 8 ≤ depthOf s i then stackTrap else .go) (fun _ _ => []) false (· + 1) s
def execDkpop (h : Hdr) (s : State) : Out :=
  dkIssue h (.dkpop h) (fun s i => if depthOf s i ≤ 1 then stackTrap else .go) (fun _ _ => []) false (· - 1) s
def execDkelse (h : Hdr) (s : State) : Out :=
  dkIssue h (.dkelse h) (fun s i => if depthOf s i ≤ 1 then stackTrap else .go) (fun _ _ => []) false id s

def execDkop (h : Hdr) (fn : DkFn) (t : Ty) (d : Nat) (a b c : CellOp) (s : State) : Out :=
  dkIssue h (.dkop h fn t d a b c) goPre (fun s i => [cellScalar s i h a, cellScalar s i h b, cellScalar s i h c]) false id s

def execDkmov (h : Hdr) (d : Nat) (a : CellOp) (s : State) : Out :=
  dkIssue h (.dkmov h d a) goPre (fun s i => [cellScalar s i h a]) false id s

/-- R186: the four tiles of DKLD and DKST. -/
def dkTiles (h : Hdr) (a : Opnd) (s : State) (i : Nat) : Pre :=
  let off := rs32 s i h a
  let me := (s.sl i).crew
  let t := off / 1024
  if off % 1024 != 0 then alignTrap off
  else if !(tileRun t 4).all fun k => 1024 * k < 2 ^ 19 && tilesOk s me 1 k 1 then localTrap cLocalRange off
  else if !(tileRun t 4).all fun k => ownerOfTile s me 1 k == .deck then localTrap cOwner off
  else .go

def execDkld (h : Hdr) (d : Nat) (a : Opnd) (s : State) : Out :=
  dkIssue h (.dkld h d a) (dkTiles h a) (fun s i => [dkScalar s i h a]) false id s
def execDkst (h : Hdr) (d : CellOp) (a : Opnd) (s : State) : Out :=
  dkIssue h (.dkst h d a) (dkTiles h a) (fun s i => [dkScalar s i h a]) false id s

def execDkany (h : Hdr) (all : Bool) (q : Nat) (a : CellOp) (s : State) : Out :=
  dkIssue h (.dkany h all q a) goPre (fun _ _ => []) true id s
def execDksum (h : Hdr) (op : RedOp) (t : Ty) (d : Opnd) (a : CellOp) (s : State) : Out :=
  dkIssue h (.dksum h op t d a) goPre (fun _ _ => []) (d != .zero) id s

/-- R347: a scalar mask of DKTEST.flag is checked. -/
def dkMask (h : Hdr) (test : DkTest) (s : State) (i : Nat) : Pre :=
  match test with
  | .flag (.scalar o) => if BitVec.ofNat 32 (rs32 s i h o) &&& ~~~0x3D != 0 then operandTrap else .go
  | _ => .go

def execDktest (h : Hdr) (test : DkTest) (s : State) : Out :=
  dkIssue h (.dktest h test) (dkMask h test)
    (fun s i => match test with
      | .cmp _ _ a b => [cellScalar s i h a, cellScalar s i h b]
      | .flag b => [cellScalar s i h b]) false id s

def execDkflg (h : Hdr) (d : Opnd) (s : State) : Out :=
  dkIssue h (.dkflg h d) goPre (fun _ _ => []) (d != .zero) id s

/-! ### DKXP's issue (R189, R349) -/

/-- Base, stride and signature address. -/
def dkxpIn (h : Hdr) (b c e : Opnd) (s : State) (i : Nat) : Nat × Int × Nat :=
  (rs64 s i h b, (sInt 32 (rs32 s i h c)), rs64 s i h e)

/-- The bytes written: the rows, then S. -/
def dkxpRanges (q : Nat × Int × Nat) : List (Nat × Nat) :=
  ((List.range 32).map fun j => ((((q.1 : Int) + j * q.2.1) % (2 : Int) ^ 64).toNat, 128)) ++ [(q.2.2, 8)]

def dkxpVal (h : Hdr) (b c e : Opnd) (s : State) (i : Nat) : Pre :=
  let q := dkxpIn h b c e s i
  if q.2.1.natAbs < 128 then operandTrap
  else if q.1 % 4 != 0 then alignTrap q.1
  else if q.2.1 % 4 != 0 then alignTrap (q.2.1 % (2 : Int) ^ 64).toNat
  else if q.2.2 % 8 != 0 then alignTrap q.2.2
  else Stand.pre s i (standClr s (sliceParty s i) .write false (dkxpRanges q))

/-- Its six scalars: the exported value's, base, stride, S, and the PC and mask of a deferred trap. -/
def dkxpScalars (h : Hdr) (a : CellOp) (q : Nat × Int × Nat) (s : State) (i : Nat) : List DWord :=
  [cellScalar s i h a, BitVec.ofNat 64 q.1, BitVec.ofInt 64 q.2.1, BitVec.ofNat 64 q.2.2, (s.sl i).pc,
    (gangMask (s.crewOf i) (s.sl i) (s.sl i).active).setWidth 64]

def execDkxp (h : Hdr) (d : Opnd) (a : CellOp) (b c e : Opnd) (s : State) : Out :=
  runUnit h (onceMeaning h (chkRole .deck) (fun s i => ((dkxpVal h b c e s i).next (l2wpPre s i)).next (dkRoom s i (d != .zero)))
    fun pre s i =>
      let q := dkxpIn h b c e pre i
      dkQueue pre (partyUse s (sliceParty pre i) .write (dkxpRanges q)) i (.dkxp h d a b c e) (dkxpScalars h a q pre i) (d != .zero) id) s

/-! ### DKTEX (R188, R348) -/

/-- One enabled cell's coordinates and reference. -/
def dktexCell (d : Deck) (a : Nat) (b : CellOp) (n : Nat) : Nat × Nat × Nat :=
  ((d.reg a n).toNat, (d.reg (a + 1) n).toNat, (cellVal d 0 n b).toNat)

/-- A fault of DKTEX: the cell's index goes to TRAPINFO. -/
def cellTrap (grp code addr cell : Nat) : Pre := .trap ⟨grp, code, BitVec.ofNat 64 addr, BitVec.ofNat 64 cell, none, 0⟩

/-- Where the reads of the cells stand: the lowest-indexed faulting cell decides. A generator crew's GENFAULT keeps the block's record in the
place of the cell's index, for no handler reads it (R72, R76). -/
def cellStand (s : State) (i : Nat) (f : Party → List (Nat × Nat) → Stand) (cs : List (Nat × List (Nat × Nat))) : Pre :=
  let me := sliceParty s i
  match f me (cs.flatMap Prod.snd) with
  | .ok => .go
  | .ask c r => .ask c r
  | .fault code addr _ =>
    let own := (s.crewOf i).gen.isSome
    match cs.findSome? fun c => (match f me c.2 with | .fault k a r => some (k, failBase me.as k a, c.1, r) | _ => none) with
    | some (k, a, n, r) => if own && k == cGenFault then .trap ⟨4, k, BitVec.ofNat 64 a, r, none, 0⟩ else cellTrap 4 k a n
    | none => cellTrap 4 code addr 0

def cellReads (s : State) (i : Nat) (cs : List (Nat × List (Nat × Nat))) : Pre :=
  (cellStand s i (fun p rs => standClr s p .read true rs) cs).next (cellStand s i (fun p rs => standFill s p rs) cs)

/-- The texel bytes of each enabled cell. -/
def dktexReads (s : State) (i : Nat) (t : Tex) (g : Prog) (a : Nat) (b : CellOp) : List (Nat × List (Nat × Nat)) :=
  let d := (s.crewOf i).deck
  d.cells.map fun n =>
    let q := dktexCell d a b n
    (n, (sampleAddrs s t g q.1 q.2.1 n).map fun va => (va, texelSize t.fmt))

/-- What DKTEX needs. A reserved filter program is refused whatever the cells (R130, R344); where none is enabled TRAPINFO is 0 (DESIGN CHOICE,
log 33). -/
def dktexPre (h : Hdr) (a : Nat) (b : CellOp) (c e : Opnd) (s : State) (i : Nat) : Pre :=
  let me := sliceParty s i
  let d := (s.crewOf i).deck
  let desc := rs64 s i h c
  let pv := (rd (s.crewOf i) (s.sl i) .s64 h.imm 0 e).toNat
  if 5 ≤ pv && pv < 8 && !d.queue.isEmpty then .park .deckIdle
  else if 5 ≤ pv && pv < 8 then cellTrap 1 cReservedOperand pv (d.cells.headD 0)
  else if desc % 32 != 0 then alignTrap desc
  else if 8 ≤ pv && pv % 8 != 0 then alignTrap pv
  else if !d.queue.isEmpty then .park .deckIdle
  else
    match d.cells with
    | [] => .go
    | n :: _ =>
      let fixed := fun (va k : Nat) => cellReads s i [(n, [(va, k)])]
      match fixed desc 32 with
      | .go =>
        match descOf s me desc with
        | none => cellTrap 1 cReservedOperand desc n
        | some t =>
          match if pv < 8 then .go else fixed pv 8 with
          | .go =>
            match if pv < 8 then some (0, 0) else headOf s me pv with
            | none => cellTrap 1 cReservedOperand pv n
            | some (k, _) =>
              match if pv < 8 then .go else fixed (pv + 8) (4 * k) with
              | .go =>
                match progOf s me pv with
                | none => cellTrap 1 cReservedOperand pv n
                | some g => (cellReads s i (dktexReads s i t g a b)).next (l2wpPre s i)
              | p => p
          | p => p
      | p => p

/-- R, G, B, A into four registers of each enabled cell. A cell with a tap in a non-resident page gets zero in all four channels and the flag
NR alone (R188; that no flag of the filter joins it, DEDUCED, log 85). -/
def dktexRun (pre s : State) (i : Nat) (d a : Nat) (b : CellOp) (desc pv : Nat) : State :=
  let me := sliceParty pre i
  let crew := (pre.sl i).crew
  let dk := (pre.crew crew).deck
  match dk.cells, descOf pre me desc, progOf pre me pv with
  | _ :: _, some t, some g =>
    let out := dk.cells.map fun n =>
      let q := dktexCell dk a b n
      let r := sampleAt pre me t g q.1 q.2.1 q.2.2 n
      (n, if progAbsent pre me pv g || r.reads.any (smpAbsent pre me) then { r with chans := [0, 0, 0, 0], fl := fNR } else r)
    let dk1 := out.foldl (fun y o =>
      ((o.2.chans.zipIdx).foldl (fun (y : Deck) e => y.put (d + e.2) o.1 (BitVec.ofNat 32 e.1)) y).raise o.1 o.2.fl) dk
    let reads := out.flatMap fun o => o.2.reads.map fun va => (⟨0, va, texelSize t.fmt⟩ : LaneAcc)
    let fixed := [(⟨0, desc, 32⟩ : LaneAcc)] ++ if pv < 8 then [] else [⟨0, pv, 8⟩, ⟨0, pv + 8, 4 * g.taps.length⟩]
    texPoison (setDeck (texTouch pre s i 0 (fixed ++ reads)) crew dk1) i true (fixed ++ reads)
  | _, _, _ => s

def execDktex (h : Hdr) (d a : Nat) (b : CellOp) (c e : Opnd) (s : State) : Out :=
  runUnit h (onceMeaning h (chkRole .deck) (dktexPre h a b c e)
    fun pre s i => (dktexRun pre s i d a b (rs64 pre i h c) (rd (pre.crewOf i) (pre.sl i) .s64 h.imm 0 e).toNat).updSl i
      (standAt Wait.now)) s

end Sys2Proof.Machine
end

