-- ==== Sys2Proof/Decode.lean ====
section
/-! DEFINITION. The decoder of the 96-bit instruction word (R251 to R267) and of FY.LAUNCH, and the encoder, written from the same
tables. `parse` reads the fields, `decodeWord` makes checks 1, 2 and 4 of R254; the checks that need the slice stand in Machine. -/

namespace Sys2Proof

/-- The fields of R251, in the order of their bits. `w2` is the third word. -/
structure Fields where
  op : Nat
  fn : Nat
  ty : Nat
  d  : Nat
  a  : Nat
  b  : Nat
  c  : Nat
  g1 : Nat
  g2 : Nat
  ch : Nat
  w  : Nat
  r  : Nat
  x  : Nat
  z  : Nat
  w2 : Nat
  deriving DecidableEq, Repr

/-- Bit n of the instruction is bit n mod 32 of word n div 32 (R251). -/
def Fields.ofNat (n : Nat) : Fields where
  op := n % 256
  fn := n / 2 ^ 8 % 16
  ty := n / 2 ^ 12 % 16
  d  := n / 2 ^ 16 % 256
  a  := n / 2 ^ 24 % 256
  b  := n / 2 ^ 32 % 256
  c  := n / 2 ^ 40 % 256
  g1 := n / 2 ^ 48 % 16
  g2 := n / 2 ^ 52 % 16
  ch := n / 2 ^ 56 % 8
  w  := n / 2 ^ 59 % 2
  r  := n / 2 ^ 60 % 2
  x  := n / 2 ^ 61 % 2
  z  := n / 2 ^ 62 % 4
  w2 := n / 2 ^ 64 % 2 ^ 32

def Fields.toNat (f : Fields) : Nat :=
  f.op + 2 ^ 8 * f.fn + 2 ^ 12 * f.ty + 2 ^ 16 * f.d + 2 ^ 24 * f.a + 2 ^ 32 * f.b + 2 ^ 40 * f.c + 2 ^ 48 * f.g1 +
  2 ^ 52 * f.g2 + 2 ^ 56 * f.ch + 2 ^ 59 * f.w + 2 ^ 60 * f.r + 2 ^ 61 * f.x + 2 ^ 62 * f.z + 2 ^ 64 * f.w2

/-- An operand byte (R258). A byte of 0xF4 or more becomes a vector register that no check accepts. -/
def opnd (n : Nat) : Opnd :=
  if n < 0xC0 then .v n
  else if n < 0xF0 then .s (n - 0xC0)
  else if n = 0xF0 then .zero
  else if n = 0xF1 then .lane
  else if n = 0xF2 then .slot
  else if n = 0xF3 then .imm
  else .v n

def Opnd.byte : Opnd → Nat
  | .v n => n | .s n => 0xC0 + n | .zero => 0xF0 | .lane => 0xF1 | .slot => 0xF2 | .imm => 0xF3

/-- A cell or scalar operand byte (R344): 0x00 to 0x2F cells, 0x30 cx, 0x31 cy, 0xC0 on as R258; the rest no check accepts. -/
def cellOp (n : Nat) : CellOp :=
  if n = 0x30 then .cx else if n = 0x31 then .cy else if n < 0xC0 then .cell n else .scalar (opnd n)

def CellOp.byte : CellOp → Nat
  | .cell n => n | .cx => 0x30 | .cy => 0x31 | .scalar o => o.byte

/-- A predicate byte: bits [2:0] index, bit 3 the kind (R258, R294); a byte of 16 or more becomes an index that no check accepts. -/
def predOp (n : Nat) : PredOp := if n < 16 then ⟨8 ≤ n, n % 8⟩ else ⟨false, n⟩

def PredOp.byte (p : PredOp) : Nat := (if p.q then 8 else 0) + p.ix

def guardOf (n : Nat) : Guard := ⟨8 ≤ n, n % 8⟩
def Guard.code (g : Guard) : Nat := (if g.neg then 8 else 0) + g.ix

/-- R262. -/
def tyOf : Nat → Option Ty
  | 0 => some .u32 | 1 => some .s32 | 2 => some .u64 | 3 => some .s64 | 4 => some .f32 | 5 => some .f16x2
  | 6 => some .bf16x2 | 7 => some .u16x2 | 8 => some .s16x2 | 9 => some .u8x4 | 10 => some .s8x4 | 11 => some .f16
  | 12 => some .bf16 | _ => none

def Ty.code : Ty → Nat
  | .u32 => 0 | .s32 => 1 | .u64 => 2 | .s64 => 3 | .f32 => 4 | .f16x2 => 5 | .bf16x2 => 6 | .u16x2 => 7 | .s16x2 => 8
  | .u8x4 => 9 | .s8x4 => 10 | .f16 => 11 | .bf16 => 12

def condOf : Nat → Option Cond
  | 0 => some .eq | 1 => some .ne | 2 => some .lt | 3 => some .le | 4 => some .gt | 5 => some .ge | 6 => some .num
  | 7 => some .nan | _ => none

def Cond.code : Cond → Nat
  | .eq => 0 | .ne => 1 | .lt => 2 | .le => 3 | .gt => 4 | .ge => 5 | .num => 6 | .nan => 7

def wcondOf : Nat → Option WCond
  | 0 => some .eq | 1 => some .ne | 2 => some .ltu | 3 => some .geu | 4 => some .lts | 5 => some .ges | _ => none

def WCond.code : WCond → Nat
  | .eq => 0 | .ne => 1 | .ltu => 2 | .geu => 3 | .lts => 4 | .ges => 5

def rndDirOf : Nat → Option RndDir
  | 0 => some .rne | 1 => some .floor | 2 => some .ceil | 3 => some .trunc | _ => none

def RndDir.code : RndDir → Nat
  | .rne => 0 | .floor => 1 | .ceil => 2 | .trunc => 3

def sgnOpOf : Nat → Option SgnOp
  | 0 => some .copy | 1 => some .ncopy | 2 => some .xor | 3 => some .abs | 4 => some .neg | _ => none

def SgnOp.code : SgnOp → Nat
  | .copy => 0 | .ncopy => 1 | .xor => 2 | .abs => 3 | .neg => 4

def cvtSrcOf : Nat → Option CvtSrc
  | 0 => some .f32 | 1 => some .f16 | 2 => some .bf16 | 3 => some .f16h | 4 => some .bf16h | _ => none

def CvtSrc.code : CvtSrc → Nat
  | .f32 => 0 | .f16 => 1 | .bf16 => 2 | .f16h => 3 | .bf16h => 4

def intSrcOf : Nat → Option IntSrc
  | 0 => some .u32 | 1 => some .s32 | 2 => some .u64 | 3 => some .s64 | 4 => some .u16 | 5 => some .s16 | 6 => some .u8
  | 7 => some .s8 | _ => none

def IntSrc.code : IntSrc → Nat
  | .u32 => 0 | .s32 => 1 | .u64 => 2 | .s64 => 3 | .u16 => 4 | .s16 => 5 | .u8 => 6 | .s8 => 7

def fltSrcOf : Nat → Option FltSrc
  | 0 => some .f32 | 1 => some .f16 | 2 => some .bf16 | _ => none

def FltSrc.code : FltSrc → Nat
  | .f32 => 0 | .f16 => 1 | .bf16 => 2

def lxModeOf : Nat → Option LxMode
  | 0 => some .pick | 1 => some .rot | 2 => some .slide | 3 => some .mirror | _ => none

def LxMode.code : LxMode → Nat
  | .pick => 0 | .rot => 1 | .slide => 2 | .mirror => 3

def redOpOf : Nat → Option RedOp
  | 0 => some .add | 1 => some .min | 2 => some .max | 3 => some .and | 4 => some .or | 5 => some .xor | _ => none

def RedOp.code : RedOp → Nat
  | .add => 0 | .min => 1 | .max => 2 | .and => 3 | .or => 4 | .xor => 5

def atomOpOf : Nat → Option AtomOp
  | 0 => some .add | 1 => some .min | 2 => some .max | 3 => some .and | 4 => some .or | 5 => some .xor | 6 => some .exch
  | 7 => some .inc | 8 => some .dec | _ => none

def AtomOp.code : AtomOp → Nat
  | .add => 0 | .min => 1 | .max => 2 | .and => 3 | .or => 4 | .xor => 5 | .exch => 6 | .inc => 7 | .dec => 8

def ldSizeOf : Nat → Option LdSize
  | 0 => some .b8 | 1 => some .b16 | 2 => some .b32 | 3 => some .b64 | 4 => some .b128 | 5 => some .sb8 | 6 => some .sb16
  | _ => none

def LdSize.code : LdSize → Nat
  | .b8 => 0 | .b16 => 1 | .b32 => 2 | .b64 => 3 | .b128 => 4 | .sb8 => 5 | .sb16 => 6

def lclSizeOf : Nat → LclSize
  | 0 => .b8 | 1 => .b16 | 2 => .b32 | _ => .b64

def LclSize.code : LclSize → Nat
  | .b8 => 0 | .b16 => 1 | .b32 => 2 | .b64 => 3

def lclSpaceOf : Nat → Option LclSpace
  | 0 => some .stash | 1 => some .span | 2 => some .remote | _ => none

def LclSpace.code : LclSpace → Nat
  | .stash => 0 | .span => 1 | .remote => 2

def ownerOf : Nat → Owner
  | 0 => .slices | 1 => .trestle | 2 => .girder | _ => .deck

def Owner.code : Owner → Nat
  | .slices => 0 | .trestle => 1 | .girder => 2 | .deck => 3

def fenceKindOf : Nat → Option FenceKind
  | 1 => some .acq | 2 => some .rel | 3 => some .ar | _ => none

def FenceKind.code : FenceKind → Nat
  | .acq => 1 | .rel => 2 | .ar => 3

def dkFnOf : Nat → Option DkFn
  | 0 => some .add | 1 => some .sub | 2 => some .mul | 3 => some .fma | 4 => some .min | 5 => some .max | 6 => some .and
  | 7 => some .or | 8 => some .xor | 9 => some .shl | 10 => some .shr | 11 => some .sar | 12 => some .sel | 13 => some .cmp
  | 14 => some .mov | 15 => some .rcp | _ => none

def DkFn.code : DkFn → Nat
  | .add => 0 | .sub => 1 | .mul => 2 | .fma => 3 | .min => 4 | .max => 5 | .and => 6 | .or => 7 | .xor => 8 | .shl => 9
  | .shr => 10 | .sar => 11 | .sel => 12 | .cmp => 13 | .mov => 14 | .rcp => 15

def orderOf : Nat → Order
  | 0 => .relaxed | 1 => .acquire | 2 => .release | _ => .acqRel

def Order.code : Order → Nat
  | .relaxed => 0 | .acquire => 1 | .release => 2 | .acqRel => 3

def scopeOf : Nat → Option Scope
  | 0 => some .slice | 1 => some .crew | 2 => some .span | 3 => some .tower | 4 => some .domain | 5 => some .system
  | _ => none

def Scope.code : Scope → Nat
  | .slice => 0 | .crew => 1 | .span => 2 | .tower => 3 | .domain => 4 | .system => 5

/-- IM of R259. -/
def Fields.imm (f : Fields) : Word :=
  if f.x = 0 then BitVec.ofNat 32 f.w2 else (BitVec.ofNat 24 (f.w2 / 256)).signExtend 32

def Fields.hdr (f : Fields) : Hdr :=
  ⟨guardOf f.g1, guardOf f.g2, f.ch, f.w == 1, f.r == 1, f.imm⟩

/-- E, the fourth operand byte of an X form (R261). -/
def Fields.e (f : Fields) : Nat := f.w2 % 256

/-- The memory operand of R264 in A, B and C. -/
def Fields.mem (f : Fields) : Option MemOp :=
  (scopeOf (f.c % 8)).map fun sc => ⟨opnd f.a, opnd f.b, f.c / 32 % 4, orderOf (f.c / 8 % 4), sc, f.c / 128 == 1⟩

def MemOp.ctl (m : MemOp) : Nat :=
  m.scope.code + 8 * m.order.code + 32 * m.scale + (if m.r then 128 else 0)

/-- The unused fields A, B, C hold 0xF0, D holds 0x00 (R258). -/
def Fields.noD (f : Fields) : Bool := f.d == 0
def Fields.noA (f : Fields) : Bool := f.a == 0xF0
def Fields.noB (f : Fields) : Bool := f.b == 0xF0
def Fields.noC (f : Fields) : Bool := f.c == 0xF0

def need (c : Bool) (i : Instr) : Option Instr := if c then some i else none

/-- Opcodes 0x00 to 0x0F (R304 to R311). -/
def parse0 (f : Fields) (lo : Nat) : Option Instr :=
  let bare := f.ty == 0 && f.noD && f.noA && f.noB && f.noC
  let ad := f.ty == 0 && f.noB && f.noC
  match lo with
  | 0 => need (bare && f.fn == 0) (.nop f.hdr)
  | 1 => if f.fn = 0 then need bare (.bra f.hdr) else need (bare && f.fn == 1) (.braUni f.hdr)
  | 2 => need (ad && f.noD && f.fn == 0) (.brx f.hdr (opnd f.a))
  | 3 => need (ad && f.noA && f.fn == 0) (.call f.hdr (opnd f.d))
  | 4 => need (ad && f.fn == 0) (.callx f.hdr (opnd f.d) (opnd f.a))
  | 5 => need (ad && f.noD && f.fn == 0) (.ret f.hdr (opnd f.a))
  | 6 => need (bare && f.fn == 0) (.brace f.hdr)
  | 7 => need (bare && f.fn == 0) (.meet f.hdr)
  | 8 => need (bare && f.fn == 0) (.exit f.hdr)
  | 9 => need (bare && f.fn == 0) (.regang f.hdr)
  | 10 => need (bare && f.fn == 0) (.yield f.hdr)
  | 11 => need (ad && f.noD && f.fn == 0) (.sleep f.hdr (opnd f.a))
  | 12 => need (bare && f.fn == 0) (.trap f.hdr)
  | 13 => need (bare && f.fn == 0) (.bpt f.hdr)
  | 14 => if f.fn = 0 then need bare (.rteRetry f.hdr) else need (bare && f.fn == 1) (.rteResume f.hdr)
  | 15 => need (bare && f.fn == 0) (.step f.hdr)
  | _ => none

/-- Opcodes 0x10 to 0x1E (R274 to R278). -/
def parse1 (f : Fields) (lo : Nat) : Option Instr :=
  let D := opnd f.d
  let A := opnd f.a
  let B := opnd f.b
  let C := opnd f.c
  (tyOf f.ty).bind fun t =>
  match lo with
  | 0 => need (f.noC && f.fn < 2) (.iadd f.hdr (f.fn == 1) t D A B)
  | 1 => need (f.noC && f.fn < 2) (.isub f.hdr (f.fn == 1) t D A B)
  | 2 => need (f.noC && f.fn == 0) (.imul f.hdr t D A B)
  | 3 => need (f.noC && f.fn == 0) (.imulh f.hdr t D A B)
  | 4 => need (f.fn < 2) (.imad f.hdr (f.fn == 1) t D A B C)
  | 5 => need (f.noC && f.fn == 0) (.imin f.hdr t D A B)
  | 6 => need (f.noC && f.fn == 0) (.imax f.hdr t D A B)
  | 7 => need (f.noB && f.noC && f.fn < 2) (.iabs f.hdr (f.fn == 1) t D A)
  | 8 => need (f.fn == 0) (.iadd3 f.hdr t D A B C)
  | 9 => need f.noC (.iaddc f.hdr (8 ≤ f.fn) (f.fn % 8) t D A B)
  | 10 => (condOf f.fn).bind fun c => need f.noC (.icmp f.hdr c t (predOp f.d) A B)
  | 11 => need f.noC (.isel f.hdr (8 ≤ f.fn) (f.fn % 8) t D A B)
  | 12 => need f.noC (.lea f.hdr f.fn t D A B)
  | 13 => need (f.fn == 0) (.isad f.hdr t D A B C)
  | 14 => need (f.fn < 4) (.idot4 f.hdr (f.fn % 2 == 1) (f.fn / 2 == 1) t D A B C)
  | _ => none

/-- Opcodes 0x20 to 0x2F (R279 to R282). -/
def parse2 (f : Fields) (lo : Nat) : Option Instr :=
  let D := opnd f.d
  let A := opnd f.a
  let B := opnd f.b
  let C := opnd f.c
  (tyOf f.ty).bind fun t =>
  match lo with
  | 0 => need (f.noC && f.fn < 2) (.and f.hdr (f.fn == 1) t D A B)
  | 1 => need (f.noC && f.fn < 2) (.or f.hdr (f.fn == 1) t D A B)
  | 2 => need (f.noC && f.fn < 2) (.xor f.hdr (f.fn == 1) t D A B)
  | 3 => need (f.fn == 0) (.mix3 f.hdr t D A B C)
  | 4 => need (f.noC && f.fn < 2) (.shl f.hdr (f.fn == 1) t D A B)
  | 5 => need (f.noC && f.fn < 2) (.shr f.hdr (f.fn == 1) t D A B)
  | 6 => need (f.noC && f.fn < 2) (.sar f.hdr (f.fn == 1) t D A B)
  | 7 => need (f.noC && f.fn < 2) (.rot f.hdr (f.fn == 1) t D A B)
  | 8 => need (f.ty == 0 && f.fn < 4) (.fshf f.hdr (f.fn % 2 == 1) (f.fn / 2 == 1) D A B C)
  | 9 => need (f.fn == 0) (.bfx f.hdr t D A B C)
  | 10 => need (f.fn == 0) (.bfi f.hdr t D A B C (opnd f.e))
  | 11 => need (f.noB && f.noC && f.fn == 0) (.popc f.hdr t D A)
  | 12 => need (f.noB && f.noC && f.fn == 0) (.clz f.hdr t D A)
  | 13 => need (f.noB && f.noC && f.fn == 0) (.brev f.hdr t D A)
  | 14 => need (f.ty == 0 && f.fn == 0) (.bsel f.hdr D A B C)
  | 15 => need (f.noB && f.noC && f.fn < 2) (.ffs f.hdr (f.fn == 1) t D A)
  | _ => none

/-- Opcodes 0x30 to 0x3B (R283, R284). -/
def parse3 (f : Fields) (lo : Nat) : Option Instr :=
  let D := opnd f.d
  let A := opnd f.a
  let B := opnd f.b
  let C := opnd f.c
  (tyOf f.ty).bind fun t =>
  match lo with
  | 0 => need (f.noC && f.fn < 2) (.fadd f.hdr (f.fn == 1) t D A B)
  | 1 => need (f.noC && f.fn < 2) (.fsub f.hdr (f.fn == 1) t D A B)
  | 2 => need (f.noC && f.fn < 2) (.fmul f.hdr (f.fn == 1) t D A B)
  | 3 => need (f.fn < 2) (.ffma f.hdr (f.fn == 1) t D A B C)
  | 4 => need (f.noC && f.fn == 0) (.fmin f.hdr t D A B)
  | 5 => need (f.noC && f.fn == 0) (.fmax f.hdr t D A B)
  | 6 => (condOf f.fn).bind fun c => need f.noC (.fcmp f.hdr c t (predOp f.d) A B)
  | 7 => need (f.noB && f.noC && f.fn == 0) (.fclass f.hdr t D A)
  | 8 => (rndDirOf f.fn).bind fun r => need (f.noB && f.noC) (.frnd f.hdr r t D A)
  | 9 => need (f.fn == 0) (.fdp2 f.hdr t D A B C)
  | 10 => need (f.noC && f.fn == 0) (.fscale f.hdr t D A B)
  | 11 => (sgnOpOf f.fn).bind fun o => need f.noC (.fsgn f.hdr o t D A B)
  | _ => none

/-- Opcodes 0x40 to 0x4E (R285 to R293). -/
def parse4 (f : Fields) (lo : Nat) : Option Instr :=
  let D := opnd f.d
  let A := opnd f.a
  let B := opnd f.b
  let sfu := f.ty == 4 && f.fn == 0 && f.noB && f.noC
  (tyOf f.ty).bind fun t =>
  match lo with
  | 0 => need sfu (.rcp f.hdr D A)
  | 1 => need sfu (.rsq f.hdr D A)
  | 2 => need sfu (.sqrt f.hdr D A)
  | 3 => need sfu (.exp2 f.hdr D A)
  | 4 => need sfu (.log2 f.hdr D A)
  | 5 => need sfu (.sin f.hdr D A)
  | 6 => need sfu (.cos f.hdr D A)
  | 7 => need sfu (.tanh f.hdr D A)
  | 8 => (cvtSrcOf f.fn).bind fun s => need f.noC (.fcvt f.hdr t s D A B)
  | 9 => (intSrcOf f.fn).bind fun s => need (f.noB && f.noC) (.i2f f.hdr t s D A)
  | 10 => (fltSrcOf f.fn).bind fun s => need (f.noB && f.noC) (.f2i f.hdr t s D A)
  | 11 => need (f.noC && f.ty == 4) (.cvtn f.hdr f.fn D A B)
  | 12 => need (f.noC && f.ty == 4) (.cvtw f.hdr f.fn D A B)
  | 13 => need f.noC (.spcomp f.hdr t f.fn D A B)
  | 14 => need (f.noC && f.fn == 0) (.spexp f.hdr t D A B)
  | _ => none

/-- WRSR by its index (R296). -/
def parseWrsr (h : Hdr) (t : Ty) (a : Opnd) : Instr :=
  let n := h.imm.toNat
  if n = 0x20 then .writeFlags h t a
  else if n = 0x21 then .writeDkflags h t a
  else if n = 0x30 then .writeTrapvec h t a
  else if 0x31 ≤ n ∧ n ≤ 0x35 then .writeTrapRegister h t a
  else if 0x40 ≤ n ∧ n ≤ 0x4F then .writeFormatRegister h t a
  else if 0x50 ≤ n ∧ n ≤ 0x5F then .writeTensorScale h t a
  else if n = 0x70 then .writeL2wp h t a
  else .wrsr h t a

/-- Opcodes 0x50 to 0x5A (R295 to R299). -/
def parse5 (f : Fields) (lo : Nat) : Option Instr :=
  let D := opnd f.d
  let A := opnd f.a
  let B := opnd f.b
  let ty0 := f.ty == 0
  (tyOf f.ty).bind fun t =>
  match lo with
  | 0 => need (f.noB && f.noC && f.fn == 0) (.mov f.hdr t D A)
  | 1 => need (f.noA && f.noB && f.noC && f.fn == 0) (.movi f.hdr t D)
  | 2 => need (f.ty == 2 && f.noA && f.noB && f.noC && f.fn == 0) (.movih f.hdr D)
  | 3 => need (f.noA && f.noB && f.noC && f.fn == 0) (.rdsr f.hdr t D)
  | 4 => need (f.noD && f.noB && f.noC && f.fn == 0) (parseWrsr f.hdr t A)
  | 5 => need (ty0 && f.fn == 0) (.pmix f.hdr (predOp f.d) (predOp f.a) (predOp f.b) (predOp f.c))
  | 6 => need (ty0 && f.noA && f.noB && f.noC && f.fn < 2) (.psave f.hdr (f.fn == 1) D)
  | 7 => need (ty0 && f.noD && f.noB && f.noC && f.fn < 2) (.pload f.hdr (f.fn == 1) A)
  | 8 => need (ty0 && f.noA && f.noB && f.noC && f.fn == 0) (.flgrd f.hdr D)
  | 9 => need (ty0 && f.noD && f.noA && f.noB && f.noC && f.fn == 0) (.flgclr f.hdr)
  | 10 => need (f.noC && f.fn == 0) (.v2s f.hdr t D A B)
  | _ => none

/-- Opcodes 0x60 to 0x65 (R300 to R303). -/
def parse6 (f : Fields) (lo : Nat) : Option Instr :=
  let D := opnd f.d
  let A := opnd f.a
  let ty0 := f.ty == 0
  (tyOf f.ty).bind fun t =>
  match lo with
  | 0 => (lxModeOf f.fn).bind fun m => need f.noC (.lxch f.hdr m t D A (opnd f.b))
  | 1 =>
    let pa := predOp f.a
    let ok := ty0 && f.noB && f.noC
    match f.fn with
    | 0 => need ok (.vote f.hdr (.any (predOp f.d)) pa)
    | 1 => need ok (.vote f.hdr (.all (predOp f.d)) pa)
    | 2 => need ok (.vote f.hdr (.eq (predOp f.d)) pa)
    | 3 => need ok (.vote f.hdr (.mask D) pa)
    | _ => none
  | 2 => (redOpOf f.fn).bind fun o => need (f.noB && f.noC) (.redux f.hdr o t D A)
  | 3 => (redOpOf (f.fn % 8)).bind fun o => need (f.noB && f.noC) (.scan f.hdr o (8 ≤ f.fn) t D A)
  | 4 => need (f.noB && f.noC && f.fn < 2) (.matchLanes f.hdr (f.fn == 1) t D A)
  | 5 => need (ty0 && f.noB && f.noC && f.fn == 0) (.lead f.hdr (predOp f.d) (predOp f.a))
  | _ => none

/-- Opcodes 0x70 to 0x7D (R312 to R323). -/
def parse7 (f : Fields) (lo : Nat) : Option Instr :=
  let D := opnd f.d
  let A := opnd f.a
  let B := opnd f.b
  let C := opnd f.c
  let E := opnd f.e
  let ty0 := f.ty == 0
  (tyOf f.ty).bind fun t =>
  match lo with
  | 0 => f.mem.bind fun m => (ldSizeOf f.fn).bind fun z => need ty0 (.ld f.hdr m z D)
  | 1 => f.mem.bind fun m => (ldSizeOf f.fn).bind fun z => need ty0 (.st f.hdr m z D)
  | 2 => f.mem.bind fun m => (lclSpaceOf (f.fn / 4)).bind fun sp =>
    need (f.ty < 2) (.ldl f.hdr m sp (lclSizeOf (f.fn % 4)) (f.ty == 1) D)
  | 3 => f.mem.bind fun m => (lclSpaceOf (f.fn / 4)).bind fun sp =>
    need ty0 (.stl f.hdr m sp (lclSizeOf (f.fn % 4)) D)
  | 4 => f.mem.bind fun m => (atomOpOf f.fn).bind fun o => need true (.atom f.hdr m o t D)
  | 5 => f.mem.bind fun m => (atomOpOf f.fn).bind fun o => need true (.red f.hdr m o t D)
  | 6 => f.mem.bind fun m => need (f.fn == 0) (.cas f.hdr m t D E)
  | 7 => f.mem.bind fun m =>
    if f.fn = 0 then need (ty0 && f.noD) (.prefL2 f.hdr m) else need (ty0 && f.noD && f.fn == 1) (.prefLlc f.hdr m)
  | 8 => f.mem.bind fun m => need (ty0 && f.noD && f.fn == 0) (.preq f.hdr m)
  | 9 => need (ty0 && f.fn == 0) (.tex f.hdr D A B C E)
  | 10 => need (ty0 && f.noC && f.fn == 0) (.tld f.hdr D A B)
  | 11 => need (ty0 && f.noB && f.noC && f.fn == 0) (.tqry f.hdr D A)
  | 12 => f.mem.bind fun m => (atomOpOf f.fn).bind fun o => need true (.nmred f.hdr m o t D)
  | 13 =>
    if f.fn = 0 then need (ty0 && f.noD && f.noA && f.noB && f.noC) (.cctlIinv f.hdr)
    else f.mem.bind fun m =>
      if f.fn = 1 then need (ty0 && f.noD) (.cctlWb f.hdr m) else need (ty0 && f.noD && f.fn == 2) (.cctlEvict f.hdr m)
  | _ => none

/-- Opcodes 0x80 to 0x8F (R324 to R332). -/
def parse8 (f : Fields) (lo : Nat) : Option Instr :=
  let D := opnd f.d
  let A := opnd f.a
  let B := opnd f.b
  let ty0 := f.ty == 0
  let bare := ty0 && f.noD && f.noA && f.noB && f.noC
  let aOnly := ty0 && f.noD && f.noB && f.noC
  match lo with
  | 0 =>
    if f.fn = 0 then need bare (.fenceDrain f.hdr)
    else (fenceKindOf f.fn).bind fun k => need bare (.fenceOrdered f.hdr k)
  | 1 => need (bare && f.fn == 0) (.bar f.hdr)
  | 2 => need (bare && f.fn == 0) (.arrive f.hdr)
  | 3 => need (bare && f.fn == 0) (.await f.hdr)
  | 4 => need (aOnly && f.fn < 8) (.rinit f.hdr f.fn A)
  | 5 => need (aOnly && f.fn < 8) (.rpost f.hdr f.fn A)
  | 6 => need aOnly (.rget f.hdr (f.fn % 8) (8 ≤ f.fn) A)
  | 7 => need (aOnly && f.fn < 8) (.rrel f.hdr f.fn A)
  | 8 => need (ty0 && f.noD && f.noC && f.fn < 8) (.town f.hdr (f.fn / 4 == 1) (ownerOf (f.fn % 4)) A B)
  | 9 => need (aOnly && f.fn < 8) (.twait f.hdr (f.fn / 4 == 1) (ownerOf (f.fn % 4)) A)
  | 10 => need (ty0 && f.noB && f.noC) (.cwait f.hdr f.fn D A)
  | 11 => (tyOf f.ty).bind fun t => f.mem.bind fun m => (wcondOf f.fn).bind fun c => need true (.waitmem f.hdr m c t D)
  | 12 => need (ty0 && f.noD && f.fn == 0) (.stmap f.hdr A B (opnd f.c))
  | 13 => need (aOnly && f.fn == 0) (.stunmap f.hdr A)
  | 14 => need (aOnly && f.fn == 0) (.stwb f.hdr A)
  | 15 => need (aOnly && f.fn == 0) (.stinv f.hdr A)
  | _ => none

/-- Opcodes 0x90 to 0x9B (R336 to R343). -/
def parse9 (f : Fields) (lo : Nat) : Option Instr :=
  let D := opnd f.d
  let A := opnd f.a
  let B := opnd f.b
  let ok := f.ty == 0 && f.noC
  match lo with
  | 0 => need (ok && f.noD) (.trst f.hdr f.fn A B)
  | 1 => need (ok && f.noA && f.noB) (.trstq f.hdr f.fn D)
  | 2 => need (ok && f.noD && f.noA && f.noB) (.trstk f.hdr f.fn)
  | 3 => need (ok && f.fn == 0) (.mcgrp f.hdr D A B)
  | 8 => if f.fn = 0 then need (ok && f.noD) (.mloop f.hdr A B) else need (ok && f.noD && f.fn == 1) (.mloopSp f.hdr A B)
  | 9 =>
    if f.fn = 0 then need (ok && f.noD && f.noB) (.maclrFast f.hdr A)
    else need (ok && f.noD && f.fn == 1) (.maclrExact f.hdr A B)
  | 10 => need (ok && f.noD && f.fn < 2) (.mard f.hdr (f.fn == 1) A B)
  | 11 => need (ok && f.noA && f.noB && f.fn < 2) (.mstat f.hdr (f.fn == 1) D)
  | _ => none

/-- DKANY's destination byte: bit 3 selects a q-predicate; a p-predicate becomes an index that no check accepts (R345). -/
def dkanyQ (n : Nat) : Nat := if 8 ≤ n then n - 8 else n + 8

/-- Opcodes 0xA0 to 0xAF (R344 to R349). -/
def parseA (f : Fields) (lo : Nat) : Option Instr :=
  let A := opnd f.a
  let B := opnd f.b
  let C := opnd f.c
  let ca := cellOp f.a
  let ok := f.ty == 0 && f.fn == 0
  match lo with
  | 0 => need (ok && f.noD && f.noB && f.noC) (.dkwin f.hdr A)
  | 1 => need ok (.dklin f.hdr f.d A B C)
  | 2 => need (ok && f.noD) (.dkedge f.hdr A B C)
  | 3 => need (ok && f.noB && f.noC) (.dkquad f.hdr f.d A)
  | 4 => need (ok && f.noC) (.dkexp f.hdr f.d A B)
  | 5 => need (ok && f.noD && f.noA && f.noB && f.noC) (.dkpush f.hdr)
  | 6 => need (ok && f.noD && f.noA && f.noB && f.noC) (.dkpop f.hdr)
  | 7 => need (ok && f.noD && f.noA && f.noB && f.noC) (.dkelse f.hdr)
  | 8 => (tyOf f.ty).bind fun t => (dkFnOf f.fn).bind fun o =>
    need true (.dkop f.hdr o t f.d ca (cellOp f.b) (cellOp f.c))
  | 9 => need (ok && f.noB && f.noC) (.dkmov f.hdr f.d ca)
  | 10 => need (ok && f.noB && f.noC) (.dkld f.hdr f.d A)
  | 11 => need (ok && f.noB && f.noC) (.dkst f.hdr (cellOp f.d) A)
  | 12 => need ok (.dktex f.hdr f.d f.a (cellOp f.b) C (opnd f.e))
  | 13 => need (f.ty == 0 && f.fn < 2 && f.noB && f.noC && f.d < 16) (.dkany f.hdr (f.fn == 1) (dkanyQ f.d) ca)
  | 14 => (tyOf f.ty).bind fun t => (redOpOf f.fn).bind fun o =>
    need (f.noB && f.noC) (.dksum f.hdr o t (opnd f.d) ca)
  | 15 => need ok (.dkxp f.hdr (opnd f.d) ca B C (opnd f.e))
  | _ => none

/-- Opcodes 0xB0 and 0xB1 (R345, R347). -/
def parseB (f : Fields) (lo : Nat) : Option Instr :=
  match lo with
  | 0 =>
    if f.fn = 8 then need (f.ty == 0 && f.noD && f.noA && f.noC) (.dktest f.hdr (.flag (cellOp f.b)))
    else (tyOf f.ty).bind fun t => (condOf f.fn).bind fun c =>
      need (f.noD && f.noC) (.dktest f.hdr (.cmp c t (cellOp f.a) (cellOp f.b)))
  | 1 => need (f.ty == 0 && f.fn == 0 && f.noA && f.noB && f.noC) (.dkflg f.hdr (opnd f.d))
  | _ => none

/-- Opcodes 0xC0 to 0xCD (R351). -/
def parseC (f : Fields) (lo : Nat) : Option Instr :=
  let D := opnd f.d
  let A := opnd f.a
  let B := opnd f.b
  let C := opnd f.c
  let ok := f.ty == 0 && f.fn == 0
  match lo with
  | 0 => need (ok && f.noB && f.noC) (.ddvar f.hdr D A)
  | 1 => need (f.ty == 0 && f.noC) (.ddapp f.hdr f.fn D A B)
  | 2 => need ok (.ddite f.hdr D A B C)
  | 3 => need (ok && f.noB && f.noC) (.ddnot f.hdr D A)
  | 4 => need ok (.ddres f.hdr D A B C)
  | 5 => need (f.ty == 0 && f.fn < 2 && f.noC) (.ddqnt f.hdr (f.fn == 1) D A B)
  | 6 => need (f.ty == 0 && f.fn < 2) (.ddcnt f.hdr (f.fn == 1) D A B C)
  | 7 => need ok (.ddexp f.hdr D A B C)
  | 8 => need (ok && f.noD && f.noB && f.noC) (.ddref f.hdr A)
  | 9 => need (ok && f.noD && f.noB && f.noC) (.ddunref f.hdr A)
  | 10 => need (ok && f.noD && f.noA && f.noB && f.noC) (.ddswp f.hdr)
  | 11 => need (ok && f.noD && f.noB && f.noC) (.ddord f.hdr A)
  | 12 => need (ok && f.noB && f.noC) (.ddstat f.hdr D A)
  | 13 => need (ok && f.noB && f.noC) (.ddnode f.hdr D A)
  | _ => none

/-- Opcodes 0xD0 to 0xD6 (R353 to R359). -/
def parseD (f : Fields) (lo : Nat) : Option Instr :=
  let D := opnd f.d
  let A := opnd f.a
  let ok := f.ty == 0 && f.noC
  match lo with
  | 0 => need (ok && f.fn == 0 && f.noD) (if f.b = 0xF0 then .pgregRelease f.hdr A else .pgreg f.hdr A (opnd f.b))
  | 1 => need (ok && f.fn == 0 && f.noD && f.noA && f.noB) (.pgdone f.hdr)
  | 2 => need (ok && f.fn == 0 && f.noD && f.noB) (.pgfail f.hdr A)
  | 3 =>
    if f.fn = 0 then need (ok && f.noD && f.noB) (.pgrstBlk f.hdr A)
    else need (ok && f.noD && f.noB && f.fn == 1) (.pgrstSlot f.hdr A)
  | 4 => need (ok && f.fn == 0 && f.noB) (.launch f.hdr D A)
  | 5 => need (ok && f.fn == 0 && f.noB) (.lwait f.hdr D A)
  | 6 => need (ok && f.fn == 0 && f.noB) (.migr f.hdr D A)
  | _ => none

/-- Opcodes 0xE0 to 0xE3 (R360 to R363). -/
def parseE (f : Fields) (lo : Nat) : Option Instr :=
  let D := opnd f.d
  let A := opnd f.a
  let B := opnd f.b
  let ty0 := f.ty == 0
  match lo with
  | 0 =>
    if f.fn = 0 then need (ty0 && f.noD) (.shootDg f.hdr A B (opnd f.c))
    else need (ty0 && f.noD && f.noB && f.noC && f.fn == 1) (.shootFlush f.hdr A)
  | 1 => need (ty0 && f.fn == 0 && f.noA && f.noB && f.noC) (.halt f.hdr D)
  | 2 =>
    if f.fn = 0 then need (ty0 && f.noB && f.noC) (.ctxstopPre f.hdr D A)
    else need (ty0 && f.noB && f.noC && f.fn == 1) (.ctxstopKill f.hdr D A)
  | 3 => need (ty0 && f.fn == 0 && f.noD && f.noC) (.ctxgo f.hdr A B)
  | _ => none

/-- Opcodes that exist only as X forms (R261): BFI, CAS, TEX, DKTEX, DKXP. Every other opcode has none. -/
def xOnly (op : Nat) : Bool := op == 0x2A || op == 0x76 || op == 0x79 || op == 0xAC || op == 0xAF

/-- The opcode map (R267). -/
def parse (f : Fields) : Option Instr :=
  match f.op / 16 with
  | 0 => parse0 f (f.op % 16)
  | 1 => parse1 f (f.op % 16)
  | 2 => parse2 f (f.op % 16)
  | 3 => parse3 f (f.op % 16)
  | 4 => parse4 f (f.op % 16)
  | 5 => parse5 f (f.op % 16)
  | 6 => parse6 f (f.op % 16)
  | 7 => parse7 f (f.op % 16)
  | 8 => parse8 f (f.op % 16)
  | 9 => parse9 f (f.op % 16)
  | 10 => parseA f (f.op % 16)
  | 11 => parseB f (f.op % 16)
  | 12 => parseC f (f.op % 16)
  | 13 => parseD f (f.op % 16)
  | 14 => parseE f (f.op % 16)
  | _ => none

/-- What the static checks make of a word: an instruction, or the first of checks 1, 2 and 4 of R254 that fails. The opcode stands
beside a failed check 4 because check 3 (PRIV) and R270 come before it. -/
inductive Decoded where
  | ok (i : Instr)
  | reservedInstr
  | reservedOperand (op : Nat)
  deriving DecidableEq, Repr

def decodeFields (f : Fields) : Decoded :=
  match parse f with
  | none => .reservedInstr
  | some i =>
    if f.z ≠ 0 ∨ (f.x == 1) ≠ xOnly f.op ∨ i.formOk = false then .reservedInstr
    else if i.operandsOk then .ok i
    else .reservedOperand f.op

/-- The decoder of a 96-bit instruction, as the number whose bit n is bit n of the instruction (R251). -/
def decodeWord (n : Nat) : Decoded := decodeFields (Fields.ofNat n)

/-- Little-endian bytes as a number. -/
def leNat : List Byte → Nat
  | [] => 0
  | b :: bs => b.toNat + 256 * leNat bs

/-- The `k` little-endian bytes of a number. -/
def leBytes : Nat → Nat → List Byte
  | 0, _ => []
  | k + 1, n => BitVec.ofNat 8 n :: leBytes k (n / 256)

/-- Decoding from memory bytes: 12 bytes, lowest address first; a shorter list reads as if zeros followed. -/
def decodeBytes (bs : List Byte) : Decoded := decodeWord (leNat (bs.take 12))

/-- FY.LAUNCH, the OS core's instruction: RV64 custom-0, funct3 0, funct7 0 (R230). -/
def decodeOs (w : Nat) : Option Instr :=
  if w % 2 ^ 7 = 0x0B ∧ w / 2 ^ 12 % 8 = 0 ∧ w / 2 ^ 25 % 128 = 0 then
    some (.fyLaunch (w / 2 ^ 7 % 32) (w / 2 ^ 15 % 32) (w / 2 ^ 20 % 32))
  else none

def encodeOs (rd rs1 rs2 : Nat) : Nat := 0x0B + 2 ^ 7 * rd + 2 ^ 15 * rs1 + 2 ^ 20 * rs2

/-- What the host asks of a word numbered as the opcode table numbers it. A 32-bit row is the OS core's. -/
def decodeTableWord (nbits w : Nat) : Option Instr :=
  if nbits = 32 ∧ (decodeOs w).isSome then decodeOs w
  else match decodeBytes (leBytes 12 w) with
    | .ok i => some i
    | .reservedInstr => none
    | .reservedOperand _ => none

/-! ### The encoder -/

def b2n (b : Bool) : Nat := if b then 1 else 0

/-- A word with nothing but its opcode, function and type: every operand field at its reserved value (R258). -/
def Hdr.fields (h : Hdr) (op fn ty : Nat) : Fields where
  op := op
  fn := fn
  ty := ty
  d := 0
  a := 0xF0
  b := 0xF0
  c := 0xF0
  g1 := h.g1.code
  g2 := h.g2.code
  ch := h.ch
  w := b2n h.w
  r := b2n h.r
  x := 0
  z := 0
  w2 := h.imm.toNat

/-- The third word of an X form: E in [7:0], IMM24 above (R251). -/
def Fields.withE (f : Fields) (h : Hdr) (e : Opnd) : Fields :=
  { f with x := 1, w2 := e.byte + 256 * (h.imm.toNat % 2 ^ 24) }

def Fields.dab (f : Fields) (d a b : Opnd) : Fields := { f with d := d.byte, a := a.byte, b := b.byte }
def Fields.dabc (f : Fields) (d a b c : Opnd) : Fields := { f with d := d.byte, a := a.byte, b := b.byte, c := c.byte }
def Fields.da (f : Fields) (d a : Opnd) : Fields := { f with d := d.byte, a := a.byte }
def Fields.ab (f : Fields) (a b : Opnd) : Fields := { f with a := a.byte, b := b.byte }
def Fields.abc (f : Fields) (a b c : Opnd) : Fields := { f with a := a.byte, b := b.byte, c := c.byte }
def Fields.inA (f : Fields) (a : Opnd) : Fields := { f with a := a.byte }
def Fields.inD (f : Fields) (d : Opnd) : Fields := { f with d := d.byte }
def Fields.withMem (f : Fields) (m : MemOp) : Fields := { f with a := m.base.byte, b := m.index.byte, c := m.ctl }
def Fields.withMemD (f : Fields) (m : MemOp) (d : Opnd) : Fields :=
  { f with d := d.byte, a := m.base.byte, b := m.index.byte, c := m.ctl }

/-- The fields of a device instruction; `none` for FY.LAUNCH and for the events, which have no word of this form. -/
def encodeFields : Instr → Option Fields
  | .nop h => some (h.fields 0x00 0 0)
  | .bra h => some (h.fields 0x01 0 0)
  | .braUni h => some (h.fields 0x01 1 0)
  | .brx h a => some ((h.fields 0x02 0 0).inA a)
  | .call h d => some ((h.fields 0x03 0 0).inD d)
  | .callx h d a => some ((h.fields 0x04 0 0).da d a)
  | .ret h a => some ((h.fields 0x05 0 0).inA a)
  | .brace h => some (h.fields 0x06 0 0)
  | .meet h => some (h.fields 0x07 0 0)
  | .exit h => some (h.fields 0x08 0 0)
  | .regang h => some (h.fields 0x09 0 0)
  | .yield h => some (h.fields 0x0A 0 0)
  | .sleep h a => some ((h.fields 0x0B 0 0).inA a)
  | .trap h => some (h.fields 0x0C 0 0)
  | .bpt h => some (h.fields 0x0D 0 0)
  | .rteRetry h => some (h.fields 0x0E 0 0)
  | .rteResume h => some (h.fields 0x0E 1 0)
  | .step h => some (h.fields 0x0F 0 0)
  | .iadd h sat t d a b => some ((h.fields 0x10 (b2n sat) t.code).dab d a b)
  | .isub h sat t d a b => some ((h.fields 0x11 (b2n sat) t.code).dab d a b)
  | .imul h t d a b => some ((h.fields 0x12 0 t.code).dab d a b)
  | .imulh h t d a b => some ((h.fields 0x13 0 t.code).dab d a b)
  | .imad h acc t d a b c => some ((h.fields 0x14 (b2n acc) t.code).dabc d a b c)
  | .imin h t d a b => some ((h.fields 0x15 0 t.code).dab d a b)
  | .imax h t d a b => some ((h.fields 0x16 0 t.code).dab d a b)
  | .iabs h sat t d a => some ((h.fields 0x17 (b2n sat) t.code).da d a)
  | .iadd3 h t d a b c => some ((h.fields 0x18 0 t.code).dabc d a b c)
  | .iaddc h sub p t d a b => some ((h.fields 0x19 (8 * b2n sub + p) t.code).dab d a b)
  | .icmp h cond t pd a b => some { (h.fields 0x1A cond.code t.code).ab a b with d := pd.byte }
  | .isel h neg p t d a b => some ((h.fields 0x1B (8 * b2n neg + p) t.code).dab d a b)
  | .lea h n t d a b => some ((h.fields 0x1C n t.code).dab d a b)
  | .isad h t d a b c => some ((h.fields 0x1D 0 t.code).dabc d a b c)
  | .idot4 h mix sat t d a b c => some ((h.fields 0x1E (b2n mix + 2 * b2n sat) t.code).dabc d a b c)
  | .and h inv t d a b => some ((h.fields 0x20 (b2n inv) t.code).dab d a b)
  | .or h inv t d a b => some ((h.fields 0x21 (b2n inv) t.code).dab d a b)
  | .xor h inv t d a b => some ((h.fields 0x22 (b2n inv) t.code).dab d a b)
  | .mix3 h t d a b c => some ((h.fields 0x23 0 t.code).dabc d a b c)
  | .shl h wrap t d a b => some ((h.fields 0x24 (b2n wrap) t.code).dab d a b)
  | .shr h wrap t d a b => some ((h.fields 0x25 (b2n wrap) t.code).dab d a b)
  | .sar h wrap t d a b => some ((h.fields 0x26 (b2n wrap) t.code).dab d a b)
  | .rot h right t d a b => some ((h.fields 0x27 (b2n right) t.code).dab d a b)
  | .fshf h left clamp d a b c => some ((h.fields 0x28 (b2n left + 2 * b2n clamp) 0).dabc d a b c)
  | .bfx h t d a b c => some ((h.fields 0x29 0 t.code).dabc d a b c)
  | .bfi h t d a b c e => some (((h.fields 0x2A 0 t.code).dabc d a b c).withE h e)
  | .popc h t d a => some ((h.fields 0x2B 0 t.code).da d a)
  | .clz h t d a => some ((h.fields 0x2C 0 t.code).da d a)
  | .brev h t d a => some ((h.fields 0x2D 0 t.code).da d a)
  | .bsel h d a b c => some ((h.fields 0x2E 0 0).dabc d a b c)
  | .ffs h hi t d a => some ((h.fields 0x2F (b2n hi) t.code).da d a)
  | .fadd h sat t d a b => some ((h.fields 0x30 (b2n sat) t.code).dab d a b)
  | .fsub h sat t d a b => some ((h.fields 0x31 (b2n sat) t.code).dab d a b)
  | .fmul h sat t d a b => some ((h.fields 0x32 (b2n sat) t.code).dab d a b)
  | .ffma h sat t d a b c => some ((h.fields 0x33 (b2n sat) t.code).dabc d a b c)
  | .fmin h t d a b => some ((h.fields 0x34 0 t.code).dab d a b)
  | .fmax h t d a b => some ((h.fields 0x35 0 t.code).dab d a b)
  | .fcmp h cond t pd a b => some { (h.fields 0x36 cond.code t.code).ab a b with d := pd.byte }
  | .fclass h t d a => some ((h.fields 0x37 0 t.code).da d a)
  | .frnd h dir t d a => some ((h.fields 0x38 dir.code t.code).da d a)
  | .fdp2 h t d a b c => some ((h.fields 0x39 0 t.code).dabc d a b c)
  | .fscale h t d a b => some ((h.fields 0x3A 0 t.code).dab d a b)
  | .fsgn h op t d a b => some ((h.fields 0x3B op.code t.code).dab d a b)
  | .rcp h d a => some ((h.fields 0x40 0 4).da d a)
  | .rsq h d a => some ((h.fields 0x41 0 4).da d a)
  | .sqrt h d a => some ((h.fields 0x42 0 4).da d a)
  | .exp2 h d a => some ((h.fields 0x43 0 4).da d a)
  | .log2 h d a => some ((h.fields 0x44 0 4).da d a)
  | .sin h d a => some ((h.fields 0x45 0 4).da d a)
  | .cos h d a => some ((h.fields 0x46 0 4).da d a)
  | .tanh h d a => some ((h.fields 0x47 0 4).da d a)
  | .fcvt h t src d a b => some ((h.fields 0x48 src.code t.code).dab d a b)
  | .i2f h t src d a => some ((h.fields 0x49 src.code t.code).da d a)
  | .f2i h t src d a => some ((h.fields 0x4A src.code t.code).da d a)
  | .cvtn h n d a b => some ((h.fields 0x4B n 4).dab d a b)
  | .cvtw h n d a b => some ((h.fields 0x4C n 4).dab d a b)
  | .spcomp h t n d a b => some ((h.fields 0x4D n t.code).dab d a b)
  | .spexp h t d a b => some ((h.fields 0x4E 0 t.code).dab d a b)
  | .mov h t d a => some ((h.fields 0x50 0 t.code).da d a)
  | .movi h t d => some ((h.fields 0x51 0 t.code).inD d)
  | .movih h d => some ((h.fields 0x52 0 2).inD d)
  | .rdsr h t d => some ((h.fields 0x53 0 t.code).inD d)
  | .wrsr h t a => some ((h.fields 0x54 0 t.code).inA a)
  | .pmix h pd a b c => some { h.fields 0x55 0 0 with d := pd.byte, a := a.byte, b := b.byte, c := c.byte }
  | .psave h q d => some ((h.fields 0x56 (b2n q) 0).inD d)
  | .pload h q a => some ((h.fields 0x57 (b2n q) 0).inA a)
  | .flgrd h d => some ((h.fields 0x58 0 0).inD d)
  | .flgclr h => some (h.fields 0x59 0 0)
  | .v2s h t d a b => some ((h.fields 0x5A 0 t.code).dab d a b)
  | .lxch h mode t d a b => some ((h.fields 0x60 mode.code t.code).dab d a b)
  | .vote h op a =>
    some (match op with
    | .any pd => { h.fields 0x61 0 0 with d := pd.byte, a := a.byte }
    | .all pd => { h.fields 0x61 1 0 with d := pd.byte, a := a.byte }
    | .eq pd => { h.fields 0x61 2 0 with d := pd.byte, a := a.byte }
    | .mask d => { h.fields 0x61 3 0 with d := d.byte, a := a.byte })
  | .redux h op t d a => some ((h.fields 0x62 op.code t.code).da d a)
  | .scan h op excl t d a => some ((h.fields 0x63 (op.code + 8 * b2n excl) t.code).da d a)
  | .matchLanes h same t d a => some ((h.fields 0x64 (b2n same) t.code).da d a)
  | .lead h pd a => some { h.fields 0x65 0 0 with d := pd.byte, a := a.byte }
  | .ld h m sz d => some ((h.fields 0x70 sz.code 0).withMemD m d)
  | .st h m sz d => some ((h.fields 0x71 sz.code 0).withMemD m d)
  | .ldl h m sp sz sgn d => some ((h.fields 0x72 (4 * sp.code + sz.code) (b2n sgn)).withMemD m d)
  | .stl h m sp sz d => some ((h.fields 0x73 (4 * sp.code + sz.code) 0).withMemD m d)
  | .atom h m op t d => some ((h.fields 0x74 op.code t.code).withMemD m d)
  | .red h m op t d => some ((h.fields 0x75 op.code t.code).withMemD m d)
  | .cas h m t d e => some (((h.fields 0x76 0 t.code).withMemD m d).withE h e)
  | .prefL2 h m => some ((h.fields 0x77 0 0).withMem m)
  | .prefLlc h m => some ((h.fields 0x77 1 0).withMem m)
  | .preq h m => some ((h.fields 0x78 0 0).withMem m)
  | .tex h d a b c e => some (((h.fields 0x79 0 0).dabc d a b c).withE h e)
  | .tld h d a b => some ((h.fields 0x7A 0 0).dab d a b)
  | .tqry h d a => some ((h.fields 0x7B 0 0).da d a)
  | .nmred h m op t d => some ((h.fields 0x7C op.code t.code).withMemD m d)
  | .cctlIinv h => some (h.fields 0x7D 0 0)
  | .cctlWb h m => some ((h.fields 0x7D 1 0).withMem m)
  | .cctlEvict h m => some ((h.fields 0x7D 2 0).withMem m)
  | .fenceDrain h => some (h.fields 0x80 0 0)
  | .fenceOrdered h k => some (h.fields 0x80 k.code 0)
  | .bar h => some (h.fields 0x81 0 0)
  | .arrive h => some (h.fields 0x82 0 0)
  | .await h => some (h.fields 0x83 0 0)
  | .rinit h ring a => some ((h.fields 0x84 ring 0).inA a)
  | .rpost h ring a => some ((h.fields 0x85 ring 0).inA a)
  | .rget h ring full a => some ((h.fields 0x86 (ring + 8 * b2n full) 0).inA a)
  | .rrel h ring a => some ((h.fields 0x87 ring 0).inA a)
  | .town h sp own a b => some ((h.fields 0x88 (own.code + 4 * b2n sp) 0).ab a b)
  | .twait h sp own a => some ((h.fields 0x89 (own.code + 4 * b2n sp) 0).inA a)
  | .cwait h k d a => some ((h.fields 0x8A k 0).da d a)
  | .waitmem h m cond t d => some ((h.fields 0x8B cond.code t.code).withMemD m d)
  | .stmap h a b c => some ((h.fields 0x8C 0 0).abc a b c)
  | .stunmap h a => some ((h.fields 0x8D 0 0).inA a)
  | .stwb h a => some ((h.fields 0x8E 0 0).inA a)
  | .stinv h a => some ((h.fields 0x8F 0 0).inA a)
  | .trst h ch a b => some ((h.fields 0x90 ch 0).ab a b)
  | .trstq h ch d => some ((h.fields 0x91 ch 0).inD d)
  | .trstk h ch => some (h.fields 0x92 ch 0)
  | .mcgrp h d a b => some ((h.fields 0x93 0 0).dab d a b)
  | .mloop h a b => some ((h.fields 0x98 0 0).ab a b)
  | .mloopSp h a b => some ((h.fields 0x98 1 0).ab a b)
  | .maclrFast h a => some ((h.fields 0x99 0 0).inA a)
  | .maclrExact h a b => some ((h.fields 0x99 1 0).ab a b)
  | .mard h bf a b => some ((h.fields 0x9A (b2n bf) 0).ab a b)
  | .mstat h clr d => some ((h.fields 0x9B (b2n clr) 0).inD d)
  | .dkwin h a => some ((h.fields 0xA0 0 0).inA a)
  | .dklin h d a b c => some { (h.fields 0xA1 0 0).abc a b c with d := d }
  | .dkedge h a b c => some ((h.fields 0xA2 0 0).abc a b c)
  | .dkquad h d a => some { (h.fields 0xA3 0 0).inA a with d := d }
  | .dkexp h d a b => some { (h.fields 0xA4 0 0).ab a b with d := d }
  | .dkpush h => some (h.fields 0xA5 0 0)
  | .dkpop h => some (h.fields 0xA6 0 0)
  | .dkelse h => some (h.fields 0xA7 0 0)
  | .dkop h fn t d a b c => some { h.fields 0xA8 fn.code t.code with d := d, a := a.byte, b := b.byte, c := c.byte }
  | .dkmov h d a => some { h.fields 0xA9 0 0 with d := d, a := a.byte }
  | .dkld h d a => some { (h.fields 0xAA 0 0).inA a with d := d }
  | .dkst h d a => some { (h.fields 0xAB 0 0).inA a with d := d.byte }
  | .dktex h d a b c e => some (({ h.fields 0xAC 0 0 with d := d, a := a, b := b.byte, c := c.byte } : Fields).withE h e)
  | .dkany h all q a => some { h.fields 0xAD (b2n all) 0 with d := q + 8, a := a.byte }
  | .dksum h op t d a => some { h.fields 0xAE op.code t.code with d := d.byte, a := a.byte }
  | .dkxp h d a b c e =>
    some (({ h.fields 0xAF 0 0 with d := d.byte, a := a.byte, b := b.byte, c := c.byte } : Fields).withE h e)
  | .dktest h test =>
    some (match test with
    | .cmp c t a b => { h.fields 0xB0 c.code t.code with a := a.byte, b := b.byte }
    | .flag b => { h.fields 0xB0 8 0 with b := b.byte })
  | .dkflg h d => some ((h.fields 0xB1 0 0).inD d)
  | .ddvar h d a => some ((h.fields 0xC0 0 0).da d a)
  | .ddapp h lut d a b => some ((h.fields 0xC1 lut 0).dab d a b)
  | .ddite h d a b c => some ((h.fields 0xC2 0 0).dabc d a b c)
  | .ddnot h d a => some ((h.fields 0xC3 0 0).da d a)
  | .ddres h d a b c => some ((h.fields 0xC4 0 0).dabc d a b c)
  | .ddqnt h all d a b => some ((h.fields 0xC5 (b2n all) 0).dab d a b)
  | .ddcnt h flt d a b c => some ((h.fields 0xC6 (b2n flt) 0).dabc d a b c)
  | .ddexp h d a b c => some ((h.fields 0xC7 0 0).dabc d a b c)
  | .ddref h a => some ((h.fields 0xC8 0 0).inA a)
  | .ddunref h a => some ((h.fields 0xC9 0 0).inA a)
  | .ddswp h => some (h.fields 0xCA 0 0)
  | .ddord h a => some ((h.fields 0xCB 0 0).inA a)
  | .ddstat h d a => some ((h.fields 0xCC 0 0).da d a)
  | .ddnode h d a => some ((h.fields 0xCD 0 0).da d a)
  | .pgreg h a b => some ((h.fields 0xD0 0 0).ab a b)
  | .pgregRelease h a => some ((h.fields 0xD0 0 0).inA a)
  | .pgdone h => some (h.fields 0xD1 0 0)
  | .pgfail h a => some ((h.fields 0xD2 0 0).inA a)
  | .pgrstBlk h a => some ((h.fields 0xD3 0 0).inA a)
  | .pgrstSlot h a => some ((h.fields 0xD3 1 0).inA a)
  | .launch h d a => some ((h.fields 0xD4 0 0).da d a)
  | .lwait h d a => some ((h.fields 0xD5 0 0).da d a)
  | .migr h d a => some ((h.fields 0xD6 0 0).da d a)
  | .shootDg h a b c => some ((h.fields 0xE0 0 0).abc a b c)
  | .shootFlush h a => some ((h.fields 0xE0 1 0).inA a)
  | .halt h d => some ((h.fields 0xE1 0 0).inD d)
  | .ctxstopPre h d a => some ((h.fields 0xE2 0 0).da d a)
  | .ctxstopKill h d a => some ((h.fields 0xE2 1 0).da d a)
  | .ctxgo h a b => some ((h.fields 0xE3 0 0).ab a b)
  | .writeFlags h t a | .writeDkflags h t a | .writeTrapvec h t a | .writeTrapRegister h t a | .writeFormatRegister h t a
  | .writeTensorScale h t a | .writeL2wp h t a => some ((h.fields 0x54 0 t.code).inA a)
  | .fyLaunch .. => none
  | .contextRegisterPropagated .. | .l2wpRaiseDone .. | .resultWriteback .. | .runArbitration .. | .unitWaitRaised ..
  | .runLengthCut .. | .sleepExpire .. | .wakeWord .. | .homeReadRequest .. | .homeStoreRequest ..
  | .nearMemoryReduction .. | .recall .. | .writebackArrival .. | .bankSleep .. | .migrationStart ..
  | .migrationMarkDrained .. | .migrationLineCopy .. | .migrationAccess .. | .migrationPullDone .. | .clearanceRequest ..
  | .pageWalkDone .. | .clearanceAnswer .. | .residencyRequest .. | .shootdownMessage .. | .shootdownAnswer ..
  | .downgradeClose .. | .procBlockRead .. | .procPrefEvent .. | .generatorLaunch .. | .fillDoneAtHome ..
  | .generatorFailure .. | .procRetryReissue .. | .routerGrant .. | .ageingSaturate .. | .replyArrival ..
  | .windowRaise .. | .windowAdmit .. | .towerLinkForward .. | .accMerge .. | .mcastRequest .. | .mcastSetLeave ..
  | .mcastGroupDrained .. | .remoteStashAccess .. | .trestleEntryFetch .. | .trestleCopy .. | .trestleGather ..
  | .trestleScatter .. | .trestleMcast .. | .trestleReduceMemory .. | .trestleReduceCollective ..
  | .collectiveContribution .. | .trestleVxfer .. | .trestleFlip .. | .trestlePost .. | .trestleWaitRing ..
  | .trestleWaitCounter .. | .trestleWaitSatisfied .. | .trestleLoop .. | .trestleIfWord .. | .trestleIfRing ..
  | .trestleFill .. | .trestleEnd .. | .trestleEntryComplete .. | .girderLoopStart .. | .mloopComplete ..
  | .deckStart .. | .keystoneAnswer .. | .launchReady .. | .towerBlockDraw .. | .spanStart .. | .crewStart ..
  | .stealRequest .. | .stepBoundary .. | .crewEnd .. | .launchComplete .. | .stopRequest .. | .contextStopped ..
  | .forceReset .. | .hostWindowAccess .. | .linkFailure .. | .linkRetrained .. | .ptpMessage .. | .timePageUpdate ..
  | .equinoxCheck .. | .equinoxFrameSend .. | .equinoxStatusWrite .. | .packageLeave .. | .packageReplace ..
  | .vacantIndexTimeout .. | .packageReset .. | .trainingComplete .. | .replanDue .. | .replanStarved ..
  | .replanStart .. | .replanDone .. | .powerCapStep .. | .contextCreation .. | .osCorePteStore ..
  | .residencyQueueDrain .. | .forceUnmap .. | .managementFlush .. | .domainFormation .. => none

/-- The 96-bit word of a device instruction. -/
def encodeWord (i : Instr) : Option Nat := (encodeFields i).map Fields.toNat

/-- The bytes of a device instruction, lowest address first, or of FY.LAUNCH. -/
def encode (i : Instr) : Option (List Byte) :=
  match i with
  | .fyLaunch rd rs1 rs2 => some (leBytes 4 (encodeOs rd rs1 rs2))
  | j => (encodeWord j).map (leBytes 12)

end Sys2Proof
end

