-- ==== Sys2Proof/Machine/Girder.lean ====
section
/-! DEFINITION. Girder: MLOOP, MACLR, MARD, MSTAT and the events of a loop (R96 to R98, R166 to R175, R339 to R343). An event that is not
due leaves the state as it is. -/

namespace Sys2Proof.Machine

/-! ### The loop block (R339) -/

def dwBits (w : DWord) (hi lo : Nat) : Nat := w.toNat / 2 ^ lo % 2 ^ (hi - lo + 1)

/-- A loop's parameters: the block's four registers and the scale register. -/
structure LoopPar where
  a : DWord
  b : DWord
  c : DWord
  d : DWord
  e : DWord
  deriving DecidableEq, Repr

def LoopPar.aofs (p : LoopPar) : Nat := dwBits p.a 18 0
def LoopPar.acore (p : LoopPar) : Nat := dwBits p.a 22 19
def LoopPar.arm (p : LoopPar) : Bool := dwBits p.a 23 23 == 1
def LoopPar.ainc (p : LoopPar) : Int := sInt 24 (dwBits p.a 55 32)
def LoopPar.fa (p : LoopPar) : Nat := dwBits p.a 60 56
def LoopPar.bmode (p : LoopPar) : Nat := dwBits p.c 25 24
def LoopPar.bofs (p : LoopPar) : Nat := if p.bmode = 2 then p.b.toNat else dwBits p.b 18 0
def LoopPar.bcore (p : LoopPar) : Nat := dwBits p.b 22 19
def LoopPar.binc (p : LoopPar) : Int := sInt 24 (dwBits p.c 23 0)
def LoopPar.group (p : LoopPar) : Nat := dwBits p.c 30 26
def LoopPar.steps (p : LoopPar) : Nat := dwBits p.c 44 32
def LoopPar.fb (p : LoopPar) : Nat := dwBits p.c 49 45
def LoopPar.ring (p : LoopPar) : Nat := dwBits p.c 52 50
def LoopPar.stage (p : LoopPar) : Nat := dwBits p.c 55 53
def LoopPar.acc (p : LoopPar) : Nat := dwBits p.d 22 0
def LoopPar.ascl (p : LoopPar) : Nat := dwBits p.e 18 0
def LoopPar.bscl (p : LoopPar) : Nat := dwBits p.e 50 32

def GLoop.par (l : GLoop) : LoopPar := ⟨l.blk.getD 0 0, l.blk.getD 1 0, l.blk.getD 2 0, l.blk.getD 3 0, l.blk.getD 4 0⟩

/-- Container classes (R167). -/
inductive GClass where
  | byte | nibble | half
  deriving DecidableEq, Repr

/-- The class of a format code, given the format register it names; none for an invalid code or register. -/
def gClass (code : Nat) (fr : Word) : Option GClass :=
  if code < 16 then (fmtOfReg fr).map fun _ => if nibbleClass fr then .nibble else .byte
  else if code ≤ 17 then some .half
  else if code ≤ 19 then some .byte
  else none

/-- An element's exact value. -/
def gVal (code : Nat) (fr : Word) (x : Nat) : Val :=
  if code < 16 then dec ((fmtOfReg fr).getD fmtF32) x
  else if code = 16 then dec fmtBF16 x
  else if code = 17 then dec fmtF16 x
  else if code = 18 then .fin (sInt 8 x < 0) (sInt 8 x).natAbs 0
  else .fin false (x % 256) 0

def gScale (code : Nat) (fr : Word) : Nat := if code < 16 then scaleModeOfReg fr else 0

/-- Bytes of an A and a B step (R169, R170). -/
def stepBytes (sp : Bool) (c : GClass) : Nat × Nat :=
  match c, sp with
  | .byte, false => (512, 512)
  | .nibble, _ => (256, 256)
  | .half, false => (1024, 1024)
  | .byte, true => (640, 1024)
  | .half, true => (1152, 2048)

/-- Step s of an operand. -/
def stepAt (base : Nat) (inc : Int) (s : Nat) : Int := (base : Int) + inc * s

/-- Every step's bytes lie in a crew's tiles (R166). -/
def stepsFit (s : State) (crew base size : Nat) (inc : Int) (n : Nat) : Option Nat :=
  ((List.range n).map (stepAt base inc)).findSome? fun o =>
    if 0 ≤ o && lclRangeOk s crew 1 o.toNat size then none else some ((o % (2 : Int) ^ 64).toNat)

/-- The tiles that an operand's steps name. -/
def stepTiles (base size : Nat) (inc : Int) (n : Nat) : List Nat :=
  ((List.range n).flatMap fun k => tilesIn 1 (stepAt base inc k).toNat size).dedup

/-- The length of a scale array of 32 rows (R171). -/
def scaleRow (sp : Bool) (n : Nat) : Nat := (n * (if sp then 32 else 16) + 63) / 64

/-! ### MLOOP (R166, R167, R339, R340) -/

/-- What MLOOP finds: its parameters, the format registers and scales at issue, the crews that hold A and B. -/
structure LoopIn where
  par   : LoopPar
  sp    : Bool
  fra   : Word
  frb   : Word
  acrew : Option Nat
  bcrew : Option Nat
  cls   : GClass
  deriving DecidableEq, Repr

def loopPar (s : State) (i : Nat) (h : Hdr) (a b : Opnd) : LoopPar :=
  let x := s.sl i
  ⟨sRange x a 0, sRange x a 1, sRange x a 2, sRange x a 3, BitVec.ofNat 64 (rs64 s i h b)⟩

def loopIn (s : State) (i : Nat) (h : Hdr) (sp : Bool) (a b : Opnd) : LoopIn :=
  let p := loopPar s i h a b
  let fra := fRegNow s i p.fa
  let frb := fRegNow s i p.fb
  let me := (s.sl i).crew
  let on := fun (core : Nat) => crewOnCore s (s.crewOf i).span core
  ⟨p, sp, fra, frb, if p.arm then on p.acore else some me, if p.bmode = 0 then some me else if p.bmode = 1 then on p.bcore else none,
    (gClass p.fa fra).getD .byte⟩

/-- The reserved bits and ranges of the block (R339, R340). -/
def loopBits (s : State) (i : Nat) (p : LoopPar) : Bool :=
  dwBits p.a 31 24 == 0 && dwBits p.a 63 61 == 0 && (p.arm || p.acore == 0) && dwBits p.c 31 31 == 0 && dwBits p.c 63 56 == 0 &&
    dwBits p.d 63 23 == 0 && dwBits p.e 31 19 == 0 && dwBits p.e 63 51 == 0 && p.bmode != 3 && 1 ≤ p.steps && p.steps ≤ 4096 &&
    p.stage < (ringOf (s.crewOf i) p.ring).nst && (p.bmode == 2 || (dwBits p.b 63 23 == 0 && (p.bmode == 1 || p.bcore == 0)))

/-- A MARD of an accumulator has issued and has still to read it. -/
def mardAt (sp t : Nat) (x : Slice) : Bool :=
  match x.park with
  | .after (.merged a b _ _) _ => a == sp && b == t
  | _ => false

/-- A MARD that has been issued takes the accumulator from GIRDER for this check (R342). -/
def mardWaits (s : State) (sp t : Nat) : Bool := s.slices.any fun e => mardAt sp t e.2

def accOwned (s : State) (sp t : Nat) : Bool := (stagOf s sp t).owner == .girder && !mardWaits s sp t

/-- The parts of the crew's stash that the loop reads: crew, base, bytes a step, increment, steps. -/
def loopParts (me : Nat) (q : LoopIn) : List (Option Nat × Nat × Nat × Int × Nat) :=
  let p := q.par
  let z := stepBytes q.sp q.cls
  let scl : Nat → Nat → List (Option Nat × Nat × Nat × Int × Nat) := fun m base => if m = 2 then [(some me, base, 64 * scaleRow q.sp p.steps, (0 : Int), 1)] else []
  [(q.acrew, p.aofs, z.1, p.ainc, p.steps)] ++
    (if p.bmode = 2 then [] else [(q.bcrew, p.bofs, z.2, p.binc, p.steps)]) ++
    scl (gScale p.fa q.fra) p.ascl ++ scl (gScale p.fb q.frb) p.bscl

/-- The first misaligned value of a loop: A base, B base, the increments themselves, accumulator, scale bases (DESIGN CHOICE, log 12: R166
names no order, and no address for an increment). -/
def loopAlign (q : LoopIn) : Option Nat :=
  let p := q.par
  let two : Nat → Nat → List (Nat × Nat) := fun m v => if m = 2 then [(v, 2)] else []
  let vs : List (Nat × Nat) := [(p.aofs, 128), (p.bofs, 128), ((p.ainc % (2 : Int) ^ 64).toNat, 128), ((p.binc % (2 : Int) ^ 64).toNat, 128), (p.acc, 4096)] ++
    two (gScale p.fa q.fra) p.ascl ++ two (gScale p.fb q.frb) p.bscl
  (vs.find? fun e => e.1 % e.2 != 0).map Prod.fst

/-- LOCAL_RANGE of a loop's parts, then of its accumulator. -/
def loopRange (s : State) (me : Nat) (q : LoopIn) : Option Nat :=
  let part := (loopParts me q).findSome? fun e =>
    match e.1 with
    | none => some e.2.1
    | some k => stepsFit s k e.2.1 e.2.2.1 e.2.2.2.1 e.2.2.2.2
  let t := q.par.acc / 4096
  let n := if (stagOf s (s.crew me).span t).kind = 2 then 3 else 1
  part.or (if tilesOk s me 2 t 1 && tilesOk s me 2 t n then none else some q.par.acc)

/-- OWNER of a loop's parts, then of its accumulator. -/
def loopOwner (s : State) (me : Nat) (q : LoopIn) : Option Nat :=
  let part := (loopParts me q).findSome? fun e =>
    match e.1 with
    | none => none
    | some k => ((stepTiles e.2.1 e.2.2.1 e.2.2.2.1 e.2.2.2.2).find? fun t => (tagOf s k t).owner != .girder).map fun t => 1024 * t
  part.or (if accOwned s (s.crew me).span (q.par.acc / 4096) then none else some q.par.acc)

/-- The global bytes of B (R167). -/
def loopGlobal (q : LoopIn) : List (Nat × Nat) :=
  if q.par.bmode = 2 then
    (List.range q.par.steps).map fun k => ((stepAt q.par.bofs q.par.binc k % (2 : Int) ^ 64).toNat, (stepBytes q.sp q.cls).2)
  else []

/-- MLOOP's fill requests pin their blocks (R75). -/
def pinAsks (a : Stand) : Stand :=
  match a with
  | .ask cs fs => .ask cs (fs.map fun f => { f with pin := true })
  | _ => a

/-- Check 7 of R254 for a loop (R155, R167, R170): it stands before the entry's own checks, whatever the guard. -/
def loopFormat (q : LoopIn) : Option Nat :=
  let ca := gClass q.par.fa q.fra
  if ca.isNone || ca != gClass q.par.fb q.frb || (q.sp && ca == some .nibble) then some cFormat else none

/-- The slice's own stores under way to stash tiles: a loop that names them comes after them, as TOWN does (R120, R335). -/
def storesInto (s : State) (i : Nat) (tiles : List (Nat × Nat)) : List Nat :=
  ((s.sl i).accs.filter fun e => e.2.kind == .remStore && e.2.pieces.any fun q =>
    !q.done && tiles.contains ((crewOnCore s (s.crewOf i).span (remTarget q.va)).getD 0, q.va % 2 ^ 19 / 1024)).map Prod.fst

/-- The stash tiles of a loop's parts, with the crew that holds them. -/
def partTiles (me : Nat) (q : LoopIn) : List (Nat × Nat) :=
  (loopParts me q).flatMap fun e => (stepTiles e.2.1 e.2.2.1 e.2.2.2.1 e.2.2.2.2).map fun t => (e.1.getD 0, t)

def mloopPre (h : Hdr) (sp : Bool) (a b : Opnd) (s : State) (i : Nat) : Pre :=
  let q := loopIn s i h sp a b
  let p := q.par
  let me := (s.sl i).crew
  let c := s.crewOf i
  let t := p.acc / 4096
  let kind := (stagOf s c.span t).kind
  let gr := groupOf s (coreCluster c.core) p.group
  (l2wpPre s i).next <| if !loopBits s i p || (b == .zero && (gScale p.fa q.fra == 2 || gScale p.fb q.frb == 2)) ||
     (p.acc % 4096 == 0 && tilesOk s me 2 t 1 && accOwned s c.span t && (kind == 0 || kind == 3)) then operandTrap
  else match loopAlign q with
    | some v => alignTrap v
    | none =>
      match loopRange s me q with
      | some v => localTrap cLocalRange v
      | none =>
        match loopOwner s me q with
        | some v => localTrap cOwner v
        | none =>
          if p.bmode == 2 && (gr.span != c.span || !gr.mask.getLsbD (c.core % 16)) then localTrap cMcgrp 0
          else
            let party := sliceParty s i
            let st := (standClr s party .read false (loopGlobal q)).next (pinAsks (standFillAt (fun _ => true) s party (loopGlobal q)))
            let own := storesInto s i (partTiles me q)
            ((st.pre s i).next (if own.isEmpty then .go else .park (.sent own))).next (if 4 ≤ (s.core c.core).loops.length then .park .girderRoom else .go)

def mloopQueue (pre s : State) (i : Nat) (q : LoopIn) : State :=
  let c := pre.crewOf i
  let l : GLoop := {
    id := s.nextId
    crew := (pre.sl i).crew
    acrew := q.acrew.getD 0
    bcrew := q.bcrew.getD 0
    sp := q.sp
    blk := [q.par.a, q.par.b, q.par.c, q.par.d, q.par.e]
    fa := q.par.fa
    fb := q.par.fb
    fregs := [q.fra, q.frb]
    gregs := [gRegNow pre i q.par.fa, gRegNow pre i q.par.fb]
    gen := (groupOf pre (coreCluster c.core) q.par.group).gen.toNat
    part := none
    merged := false
    fl := 0
    sent := false
    mc := [] }
  (partyUse s.fresh (sliceParty pre i) .read (loopGlobal q)).updCore c.core fun k => { k with loops := k.loops ++ [l] }

def mloop (h : Hdr) (sp : Bool) (a b : Opnd) (s : State) : Out :=
  runUnit h (onceMeaning h (fun s i => (chkRole .mat s i).or (loopFormat (loopIn s i h sp a b))) (mloopPre h sp a b) (fun pre s i => mloopQueue pre s i (loopIn pre i h sp a b))) s

def execMloop (h : Hdr) (a b : Opnd) (s : State) : Out := mloop h false a b s
def execMloopSp (h : Hdr) (a b : Opnd) (s : State) : Out := mloop h true a b s

/-! ### The sum order (R169 to R173) -/

/-- Container n of a step's bytes (R162, R169). -/
def container (c : GClass) (bytes : List Byte) (n : Nat) : Nat :=
  match c with
  | .byte => (bytes.getD n 0).toNat
  | .nibble => (bytes.getD (n / 2) 0).toNat / 16 ^ (n % 2) % 16
  | .half => (bytes.getD (2 * n) 0).toNat + 256 * (bytes.getD (2 * n + 1) 0).toNat

/-- The B row that compressed position t of row `row` pairs with (R170). -/
def pairedRow (sp : Bool) (abytes : List Byte) (size row t : Nat) : Nat :=
  if sp then
    let w := bytesNat ((abytes.drop (size - 128 + 4 * row)).take 4)
    4 * (t / 2) + w / 16 ^ (t / 2) / 4 ^ (t % 2) % 4
  else t

/-- One step's q: sixteen products in a balanced tree, every sum rounded. -/
def stepSum (va vb : Nat → Val) : Fl Nat :=
  pairTree (fun x y => let r := fadd2 fmtF32 x.1 y.1; (r.1, x.2 ||| y.2 ||| r.2)) 4
    ((List.range 16).map fun t => roundFl fmtF32 (mulVal (va t) (vb t)))

/-- The scale of an operand's row or column in a step: none where the block's entry is invalid (R163). -/
def scaleAt (s : State) (crew mode : Nat) (g : Word) (base nb blk row : Nat) : Option Val :=
  if mode = 1 then some (dec fmtF32 g.toNat)
  else if mode = 2 then
    let v := bytesNat (lclGet s crew 1 (base + 2 * (row * nb + blk)) 2)
    if positiveNormal fmtBF16 v then some (dec fmtBF16 v) else none
  else some (.fin false 1 0)

def scaled (q : Fl Nat) (sa sb : Option Val) : Fl Nat :=
  match sa, sb with
  | some x, some y =>
    let z := roundFl fmtF32 (mulVal x y)
    let r := roundFl fmtF32 (mulVal (dec fmtF32 q.1) (dec fmtF32 z.1))
    (r.1, q.2 ||| z.2 ||| r.2)
  | _, _ => (codeNan32, fNV)

/-- The bytes of step k of A and of B; a multicast B was delivered sector by sector. -/
def stepA (s : State) (l : GLoop) (size k : Nat) : List Byte := lclGet s l.acrew 1 (stepAt l.par.aofs l.par.ainc k).toNat size

def stepBVa (l : GLoop) (k : Nat) : Nat := (stepAt l.par.bofs l.par.binc k % (2 : Int) ^ 64).toNat

def stepB (s : State) (l : GLoop) (size k : Nat) : List Byte :=
  if l.par.bmode = 2 then (List.range (size / 128)).flatMap fun j => Tbl.findD l.mc (stepBVa l k + 128 * j) []
  else lclGet s l.bcrew 1 (stepAt l.par.bofs l.par.binc k).toNat size

def GLoop.cls (l : GLoop) : GClass := (gClass l.fa (l.fregs.getD 0 0)).getD .byte

/-- One element's partial after step k. -/
def stepElem (s : State) (l : GLoop) (k : Nat) (ab bb : List Byte) (row col : Nat) (p : Fl Nat) : Fl Nat :=
  let fra := l.fregs.getD 0 0
  let frb := l.fregs.getD 1 0
  let kb := if l.sp then 32 else 16
  let va := fun t => gVal l.fa fra (container l.cls ab (16 * row + t))
  let vb := fun t => gVal l.fb frb (container l.cls bb (kb * col + pairedRow l.sp ab ab.length row t))
  let q := stepSum va vb
  let ma := gScale l.fa fra
  let mb := gScale l.fb frb
  let nb := scaleRow l.sp l.par.steps
  let blk := k * kb / 64
  let q1 := if ma = 0 ∧ mb = 0 then q
    else scaled q (scaleAt s l.crew ma (l.gregs.getD 0 0) l.par.ascl nb blk row) (scaleAt s l.crew mb (l.gregs.getD 1 0) l.par.bscl nb blk col)
  let r := fadd2 fmtF32 p.1 q1.1
  (r.1, p.2 ||| q1.2 ||| r.2)

/-- The partial P of a loop, element by element, and its flags. -/
def loopPartial (s : State) (l : GLoop) : List Nat × Flags :=
  let z := stepBytes l.sp l.cls
  let steps := (List.range l.par.steps).map fun k => (k, stepA s l z.1 k, stepB s l z.2 k)
  let els := (List.range 1024).map fun e =>
    steps.foldl (fun p st => stepElem s l st.1 st.2.1 st.2.2 (e / 32) (e % 32) p) ((0, 0) : Fl Nat)
  (els.map Prod.fst, orFlags (els.map Prod.snd))

/-! ### Events -/

/-- The multicast requests of a loop: one for each sector of B (R169), also where several steps read it, and all of them before its first step
(DESIGN CHOICE, log 31). -/
def loopRequests (s : State) (core : Nat) (l : GLoop) : State :=
  let ctx := (s.crew l.crew).ctx
  let vas := ((List.range l.par.steps).flatMap fun k => (List.range ((stepBytes l.sp l.cls).2 / 128)).map fun j => stepBVa l k + 128 * j).dedup
  vas.foldl (fun s va =>
    { s.fresh with mcReqs := Tbl.put s.mcReqs s.nextId ⟨core, ctx, va, l.par.group, l.gen, l.crew, 0, l.id, 0, true, 0, none⟩ }) s

def updLoop (s : State) (core id : Nat) (f : GLoop → GLoop) : State :=
  s.updCore core fun k => { k with loops := k.loops.map fun l => if l.id = id then f l else l }

/-- The next queued loop starts: it sends its multicast requests, and once its operands are there it runs its steps (R168, R172). -/
def girderStart (s : State) (core : Nat) : State :=
  match (s.core core).loops.find? fun l => l.part.isNone with
  | none => s
  | some l =>
    if l.par.bmode = 2 ∧ l.sent = false then updLoop (loopRequests s core l) core l.id fun l => { l with sent := true }
    else if l.par.bmode == 2 && s.mcReqs.any (fun e => e.2.girder && e.2.ent == l.id) ||
        s.mcSets.any (fun e => e.2.reqs.any fun r => r.girder && r.ent == l.id) then s
    else
      let r := loopPartial s l
      updLoop s core l.id fun l => { l with part := some r.1, fl := l.fl ||| r.2 }

def execGirderLoopStart (core : Nat) (s : State) : Out := .next (girderStart s core)

/-- One element into a FAST accumulator. -/
def mergeFast (old p : Nat) : Fl Nat := fadd2 fmtF32 old p

/-- An element at exponent xe, rounded to an integer, ties to even; and whether it was exact (R97). -/
def toXe (xe : Int) (neg : Bool) (m : Nat) (e : Int) : Int × Bool :=
  let (p, q) := scale2 m 1 (e - xe)
  let r := rneDiv p q
  (if neg then -(r : Int) else r, r * q == p)

/-- One element into an EXACT accumulator: the new integer, and OF, NX, NV. -/
def mergeExact (xe : Int) (n : Int) (p : Val) : Int × Bool × Bool × Bool :=
  let clamp := fun (x : Int) (nx : Bool) =>
    if 2 ^ 95 - 1 < x then ((2 : Int) ^ 95 - 1, true, nx, false)
    else if x < -(2 : Int) ^ 95 then (-(2 : Int) ^ 95, true, nx, false) else (x, false, nx, false)
  match p with
  | .nan => (n, false, false, true)
  | .inf neg => if neg then (-(2 : Int) ^ 95, true, false, false) else ((2 : Int) ^ 95 - 1, true, false, false)
  | .fin neg m e => let r := toXe xe neg m e; clamp (n + r.1) (!r.2)

/-- The whole partial of a loop into its accumulator (R97). -/
def mergeLoop (s : State) (l : GLoop) (p : List Nat) : State × Flags :=
  let sp := (s.crew l.crew).span
  let t := l.par.acc / 4096
  let tag := stagOf s sp t
  let at_ := fun (k : Nat) => sp * 2 ^ 23 + l.par.acc + k
  if tag.kind = 2 then
    let rs := (p.zipIdx).map fun e => mergeExact tag.xe (sInt 96 (Mem.readLE s.scratch (at_ (12 * e.2)) 12)) (dec fmtF32 e.1)
    let m := (rs.zipIdx).foldl (fun m e => Mem.writeLE m (at_ (12 * e.2)) 12 (wrapInt 96 e.1.1)) s.scratch
    let any := fun (f : Int × Bool × Bool × Bool → Bool) => rs.any f
    (setStag { lclTouch s l.crew 2 l.par.acc 12288 with scratch := m } sp t
      { tag with ofl := tag.ofl || any (fun r => r.2.1), nx := tag.nx || any (fun r => r.2.2.1), nv := tag.nv || any fun r => r.2.2.2 }, 0)
  else
    let rs := (p.zipIdx).map fun e => mergeFast (Mem.readLE s.scratch (at_ (4 * e.2)) 4) e.1
    let m := (rs.zipIdx).foldl (fun m e => Mem.writeLE m (at_ (4 * e.2)) 4 e.1.1) s.scratch
    ({ lclTouch s l.crew 2 l.par.acc 4096 with scratch := m }, orFlags (rs.map Prod.snd))

/-- Element k of an accumulator as MARD converts it. -/
def mardVal (s : State) (sp off : Nat) (tag : STag) (k : Nat) : Val :=
  if tag.kind = 2 then
    if tag.nv then .nan
    else
      let n := sInt 96 (Mem.readLE s.scratch (sp * 2 ^ 23 + off + 12 * k) 12)
      .fin (n < 0) n.natAbs tag.xe
  else dec fmtF32 (Mem.readLE s.scratch (sp * 2 ^ 23 + off + 4 * k) 4)

def plainTag (t : STag) : STag := { t with owner := .slices, kind := 0, xe := 0, ofl := false, nx := false, nv := false }

/-- The global bytes that the destination's mapped tiles stand for: the words stored there are global stores (R126, R342). -/
def mardGlobal (s : State) (me b n : Nat) : List LaneAcc :=
  (List.range n).filterMap fun k => (mappedVa s me (b + 1024 * k)).map fun g => ⟨0, g, 1024⟩

/-- MARD's words are stored, sector by sector. -/
def mardStore (s : State) (i b : Nat) (bytes : List Byte) : State :=
  let me := (s.sl i).crew
  (List.range (bytes.length / 128)).foldl (fun s k =>
    let part := (bytes.drop (128 * k)).take 128
    match mappedVa s me (b + 128 * k) with
    | some g => storeMapped s me (coreCluster (s.coreOf i)) (s.ctxOf i) g part 0
    | none => lclPut s me 1 (b + 128 * k) part) s

/-- MARD's conversion and stores, and the accumulator's return (R342). Of two MARDs that wait for one accumulator the later reads the tile as the
earlier left it (DESIGN CHOICE, log 31). -/
def mardRun (bf : Bool) (a b : Nat) (s : State) (i : Nat) : State :=
  let me := (s.sl i).crew
  let sp := (s.crewOf i).span
  let tag := stagOf s sp (a / 4096)
  let rs := (List.range 1024).map fun k => rnef (if bf then fmtBF16 else fmtF32) (mardVal s sp a tag k)
  let bytes := rs.flatMap fun r => natBytes (if bf then 2 else 4) r.1
  let extra := if tag.kind = 2 then flagIf tag.ofl fOF ||| flagIf tag.nx fNX ||| flagIf tag.nv fNV else fNone
  let s1 := mardStore (lclTouch s me 2 a (if tag.kind = 2 then 12288 else 4096)) i b bytes
  let s2 := (List.range (if tag.kind = 2 then 3 else 1)).foldl (fun s k => setStag s sp (a / 4096 + k) (plainTag (stagOf s sp (a / 4096 + k)))) s1
  s2.updSl i fun x => { x with flags := x.flags ||| orFlags (rs.map Prod.snd) ||| extra }

/-- Loops of the cluster that name an accumulator and have not merged. -/
def unmerged (s : State) (sp t : Nat) : Bool :=
  s.cores.any fun e => e.2.loops.any fun l => !l.merged && (s.crew l.crew).span == sp && l.par.acc / 4096 == t

/-- A MARD whose loops have all merged reads the accumulator and is done. -/
def settleMard (s : State) (i : Nat) : State :=
  match (s.sl i).park with
  | .after (.merged sp t bf b) w =>
    if unmerged s sp t then s else (mardRun bf (4096 * t) b s i).updSl i fun x => { x with park := .after Wait.now w }
  | _ => s

def settleMards (s : State) : State := (s.slices.map Prod.fst).foldl settleMard s

/-- The oldest unmerged loop of a core merges, and the MARDs that waited for it alone run. -/
def accMerge (s : State) (core : Nat) : State :=
  match (s.core core).loops.find? fun l => !l.merged with
  | none => s
  | some l =>
    match l.part with
    | none => s
    | some p =>
      let r := mergeLoop s l p
      settleMards (updLoop r.1 core l.id fun l => { l with merged := true, fl := l.fl ||| r.2 })

def execAccMerge (core : Nat) (s : State) : Out := .next (accMerge s core)

/-- All stash tiles that a loop reads, with the crew that holds them. -/
def loopTiles (l : GLoop) : List (Nat × Nat) :=
  partTiles l.crew ⟨l.par, l.sp, l.fregs.getD 0 0, l.fregs.getD 1 0, some l.acrew, some l.bcrew, l.cls⟩

/-- The own-stash tiles that a loop reads (R174): those of its crew, also where the loop names them as remote stash of its own core (DESIGN
CHOICE, log 31). -/
def ownTiles (l : GLoop) : List Nat := ((loopTiles l).filter fun e => e.1 == l.crew).map Prod.snd

/-- After its merge the loop flips its operand tiles, but those that a later loop of the core names, and posts its stage (R174). -/
def mloopComplete (s : State) (core : Nat) : State :=
  match (s.core core).loops with
  | [] => s
  | l :: rest =>
    if !l.merged then s
    else
      let later := (rest.filter fun m => m.crew == l.crew).flatMap ownTiles
      let flips := (ownTiles l).filter fun t => !later.contains t && (tagOf s l.crew t).owner == .girder
      let s1 := flips.foldl (fun s t => setOwner s l.crew 1 t .slices) (s.updCore core fun k => { k with loops := rest })
      let s2 := updRing s1 l.crew l.par.ring (setPhase true l.par.stage)
      s2.updCrew l.crew fun c => { c with gfl := c.gfl ||| (l.fl &&& 0x1D), gdone := c.gdone + 1 }

def execMloopComplete (core : Nat) (s : State) : Out := .next (mloopComplete s core)

/-! ### MACLR, MARD, MSTAT (R341 to R343) -/

/-- MACLR waits for the slice's earlier stores to its tiles: a store to span scratch is performed at issue (log 19), so none is left. -/
def maclr (h : Hdr) (a : Opnd) (n : Nat) (xe : State → Nat → Int) (s : State) : Out :=
  runUnit h (onceMeaning h (chkRole .mat)
    (fun s i =>
      let off := rs32 s i h a
      let me := (s.sl i).crew
      let t := off / 4096
      if xe s i < -256 || 255 < xe s i then operandTrap
      else if off % 4096 != 0 then alignTrap off
      else (l2wpPre s i).next <| if !(tileRun t n).all fun k => tilesOk s me 2 k 1 then localTrap cLocalRange off
      else if !(tileRun t n).all fun k => ownerOfTile s me 2 k == .slices then localTrap cOwner off
      else .go)
    (fun pre s i =>
      let off := rs32 pre i h a
      let sp := (s.crewOf i).span
      let s1 := { touchScratch s sp off (4096 * n) with scratch := Mem.clear s.scratch (sp * 2 ^ 23 + off) (4096 * n) }
      let s2 := (List.range n).foldl (fun s k =>
        setStag s sp (off / 4096 + k)
          ⟨.girder, if n = 1 then 1 else if k = 0 then 2 else 3, if n = 3 ∧ k = 0 then xe pre i else 0, false, false, false⟩) s1
      s2.updSl i (standAt Wait.now))) s

def execMaclrFast (h : Hdr) (a : Opnd) (s : State) : Out := maclr h a 1 (fun _ _ => 0) s
def execMaclrExact (h : Hdr) (a b : Opnd) (s : State) : Out := maclr h a 3 (fun s i => sInt 32 (rs32 s i h b)) s

def execMard (h : Hdr) (bf : Bool) (a b : Opnd) (s : State) : Out :=
  runUnit h (onceMeaning h (chkRole .mat)
    (fun s i =>
      let x := rs64 s i h a
      let y := rs64 s i h b
      let me := (s.sl i).crew
      let sp := (s.crewOf i).span
      let t := x / 4096
      let n := if bf then 2 else 4
      let tag := stagOf s sp t
      (l2wpPre s i).next <| if x % 4096 == 0 && tilesOk s me 2 t 1 && tag.owner == .girder && (tag.kind == 0 || tag.kind == 3) then operandTrap
      else if x % 4096 != 0 then alignTrap x
      else if y % 1024 != 0 then alignTrap y
      else if !(tileRun t (if tag.kind = 2 then 3 else 1)).all fun k => tilesOk s me 2 k 1 then localTrap cLocalRange x
      else if !(tileRun (y / 1024) n).all fun k => tilesOk s me 1 k 1 then localTrap cLocalRange y
      else if tag.owner != .girder then localTrap cOwner x
      else if !(tileRun (y / 1024) n).all fun k => ownerOfTile s me 1 k == .slices then localTrap cOwner y
      else
        let gs := mardGlobal s me y n
        let own := ownUnder s i true gs
        (((Stand.pre s i (standClr s (sliceParty s i) .write false (gs.map fun a => (a.va, a.n)))).next (strongPre s i gs)).next
          (if own.isEmpty then .go else .park (.sent own))).next (ownRemotePre s i .stash true [⟨0, y, 1024 * n⟩]))
    (fun pre s i =>
      let x := rs64 pre i h a
      let y := rs64 pre i h b
      let t := x / 4096
      let s1 := partyUse s (sliceParty pre i) .write ((mardGlobal pre (pre.sl i).crew y (if bf then 2 else 4)).map fun a => (a.va, a.n))
      if unmerged s (s.crewOf i).span t then s1.updSl i (standAt (.merged (s.crewOf i).span t bf y))
      else (mardRun bf x y s1 i).updSl i (standAt Wait.now))) s

/-- MSTAT (R343). -/
def execMstat (h : Hdr) (clr : Bool) (d : Opnd) (s : State) : Out :=
  runUnit h (onceMeaning h anyRole (fun s i => roomPre s i)
    (fun pre s i =>
      let c := pre.crewOf i
      let v := (pre.core c.core).loops.length + 2 ^ 8 * (c.gfl.toNat % 32) + 2 ^ 32 * c.gdone.toNat
      let s1 := addLands s i (landReg .u64 d 0 (BitVec.ofNat 64 v))
      if clr then s1.updCrew (s.sl i).crew fun c => { c with gfl := 0 } else s1)) s

end Sys2Proof.Machine
end

