-- ==== Sys2Proof/Machine/Sync.lean ====
section
/-! DEFINITION. The meanings of FENCE to STINV, opcodes 0x80 to 0x8F (R324 to R332, R119, R120, R125 to R127). -/

namespace Sys2Proof.Machine

/-! ### Fences (R220, R223, R324) -/

def execFenceDrain (h : Hdr) (s : State) : Out :=
  runUnit h (onceMeaning h anyRole
    (fun s i => if (s.sl i).accs.isEmpty && (s.sl i).outst.isEmpty then .go else .park .drained)
    fun _ s i => s.updSl i (standAt Wait.now)) s

/-- The scope of a fence stands in IMM32[2:0]; span scope or wider is wide. -/
def wideImm (h : Hdr) : Bool := 2 ≤ h.imm.toNat

def execFenceOrdered (h : Hdr) (k : FenceKind) (s : State) : Out :=
  runUnit h (onceMeaning h anyRole
    (fun s i => if k == .acq then .go else relPre s i (wideImm h))
    fun _ s i => s.updSl i (standAt (if k == .rel then Wait.now else .results))) s

/-! ### Barriers and phases (R325, R326) -/

/-- An unguarded instruction. -/
def bareMeaning (pre : State → Nat → Pre) (act : State → State → Nat → State) : Meaning where
  chk := anyRole
  lanes := unguarded
  pre := fun s i _ => pre s i
  act := fun p s i _ => act p s i
  jump := false
  occ := 1

/-- BAR phases that a slice has registered. -/
def barsOf (x : Slice) : Nat := if x.barIn then x.bars + 1 else x.bars

/-- Every live slice of the crew has registered phase k. -/
def barDone (s : State) (crew k : Nat) : Bool :=
  (s.crew crew).slices.all fun j => (s.sl j).live == 0 || k ≤ barsOf (s.sl j)

def execBar (h : Hdr) (s : State) : Out :=
  runUnit h (bareMeaning
    (fun s i =>
      let x := s.sl i
      if x.barIn then (if barDone s x.crew (x.bars + 1) then .go else .park (.bar (x.bars + 1)))
      else (relPre s i false).next (.park (.bar (x.bars + 1))))
    fun _ s i => s.updSl i fun x => standAt Wait.now { x with bars := x.bars + 1, barIn := false }) s

/-- The launch's live slices in a slice's instance of a scope, by place (R213, R326): 1 on its core, 2 on its cluster, 3 in its tower, 4 in
the domain. -/
def participants (s : State) (i sc : Nat) : List Nat :=
  let me := s.crewOf i
  (s.slices.filter fun e =>
    let c := s.crew e.2.crew
    e.2.live != 0 && !c.ended && c.launch == me.launch &&
    (if sc = 1 then c.core == me.core
     else if sc = 2 then coreCluster c.core == coreCluster me.core
     else if sc = 3 then coreTower c.core == coreTower me.core
     else true)).map Prod.fst

def arrivals (x : Slice) (sc : Nat) : Nat := Tbl.findD x.arrived sc 0

/-- Phase k of a slice's instance is complete. -/
def phaseDone (s : State) (i sc k : Nat) : Bool := (participants s i sc).all fun j => k ≤ arrivals (s.sl j) sc

def execArrive (h : Hdr) (s : State) : Out :=
  let sc := h.imm.toNat
  runUnit h (bareMeaning (fun s i => relPre s i (wideImm h))
    fun _ s i => s.updSl i fun x => standAt Wait.now { x with arrived := Tbl.put x.arrived sc (arrivals x sc + 1) }) s

def execAwait (h : Hdr) (s : State) : Out :=
  let sc := h.imm.toNat
  runUnit h (bareMeaning
    (fun s i =>
      let k := arrivals (s.sl i) sc
      if phaseDone s i sc k then .go else .park (.phase sc k))
    fun _ s i => s.updSl i (standAt Wait.now)) s

/-! ### Rings and counters (R327, R328) -/

def execRinit (h : Hdr) (ring : Nat) (a : Opnd) (s : State) : Out :=
  runUnit h (onceMeaning h anyRole
    (fun s i => let n := rs32 s i h a; if n = 0 || 8 < n then operandTrap else .go)
    fun pre s i => updRing s (pre.sl i).crew ring fun _ => ⟨rs32 pre i h a, 0⟩) s

def stageOk (s : State) (i ring st : Nat) : Bool := st < (ringOf (s.crewOf i) ring).nst

/-- RPOST and RREL. -/
def ringSet (h : Hdr) (ring : Nat) (full : Bool) (a : Opnd) (s : State) : Out :=
  runUnit h (onceMeaning h anyRole
    (fun s i => if stageOk s i ring (rs32 s i h a) then relPre s i false else operandTrap)
    fun pre s i => (updRing s (pre.sl i).crew ring (setPhase full (rs32 pre i h a))).updSl i (standAt Wait.now)) s

def execRpost (h : Hdr) (ring : Nat) (a : Opnd) (s : State) : Out := ringSet h ring true a s
def execRrel (h : Hdr) (ring : Nat) (a : Opnd) (s : State) : Out := ringSet h ring false a s

def execRget (h : Hdr) (ring : Nat) (full : Bool) (a : Opnd) (s : State) : Out :=
  runUnit h (onceMeaning h anyRole
    (fun s i =>
      let st := rs32 s i h a
      if !stageOk s i ring st then operandTrap
      else if ringFull (s.crewOf i) ring st == full then .go else .park (.ring ring st full))
    fun _ s i => s.updSl i (standAt Wait.now)) s

def execCwait (h : Hdr) (k : Nat) (d a : Opnd) (s : State) : Out :=
  runUnit h (onceMeaning h anyRole
    (fun s i =>
      let t := BitVec.ofNat 32 (rs32 s i h a)
      if kReached (s.crewOf i) k t then .go else .park (.counter k t))
    fun pre s i => s.updSl i fun x => standAt Wait.now (wr .u64 d 0 ((kOf (pre.crewOf i) k).setWidth 64) x)) s

/-! ### Tile owners (R119, R120, R329, R330) -/

def spaceOf (span : Bool) : Nat := if span then 2 else 1

def engineOf : Role → Owner
  | .vec => .slices | .copy => .trestle | .mat => .girder | .deck => .deck

/-- The slice owns the tile, R119 allows it the change, and the tile is not mapped. -/
def townOk (s : State) (i : Nat) (span : Bool) (own : Owner) (t : Nat) : Bool :=
  let crew := (s.sl i).crew
  let now := ownerOfTile s crew (spaceOf span) t
  let mine := engineOf (s.sl i).role
  let holds := now == .slices || now == mine
  let mapped := !span && (tagOf s crew t).mapped
  holds && !mapped && (now == own || now == .slices || own == .slices)

/-- Crews whose operations may name a tile that a crew sees: its own in the stash, the span's in scratch. -/
def tileCrews (s : State) (crew : Nat) (span : Bool) : List Nat := if span then (s.span (s.crew crew).span).crews else [crew]

/-- The source of a collective REDUCE whose chain waits for the result (R113, R119). -/
def collSource (c : Chain) : List (Nat × Nat × Nat) :=
  match c.coll, c.cur with
  | some _, some w => [(entBits w 11 10, entSrc c w, entSrc c w + entLen w)]
  | _, _ => []

/-- A Trestle entry in flight, a collective that waits, or a multicast piece on its way names the tile. -/
def trestleUses (s : State) (crew : Nat) (span : Bool) (t : Nat) : Bool :=
  let sp := spaceOf span
  let z := tileSize sp
  let meets := fun (r : Nat × Nat × Nat) => r.1 == sp && r.2.1 < (t + 1) * z && t * z < r.2.2
  let flights := (tileCrews s crew span).any fun k => (s.crew k).chains.any fun c =>
    (c.flight.any fun f => (f.2.rds ++ f.2.wrs).any meets) || (collSource c).any meets
  let into := fun (r : McReq) => !span && r.crew == crew && !r.girder && r.dst / 1024 ≤ t && t ≤ (r.dst + 127) / 1024
  flights || s.mcReqs.any (fun e => into e.2) || s.mcSets.any fun e => e.2.reqs.any into

/-- A loop names the tile as an operand or an accumulator. -/
def girderUses (s : State) (crew : Nat) (span : Bool) (t : Nat) : Bool :=
  let loops := s.cores.flatMap fun e => e.2.loops
  if span then
    loops.any fun l => (s.crew l.crew).span == (s.crew crew).span && !l.merged &&
      (let a := l.par.acc / 4096
       a ≤ t && t < a + (if (stagOf s (s.crew crew).span a).kind = 2 then 3 else 1))
  else loops.any fun l => (loopTiles l).contains (crew, t)

/-- A queued DKLD or DKST names the tile (R187). -/
def deckUses (s : State) (crew t : Nat) : Bool :=
  (s.crew crew).deck.queue.any fun e =>
    let first := (e.sc.getD 0 0).toNat % 2 ^ 32 / 1024
    match e.i with
    | .dkld _ _ _ => first ≤ t && t < first + 4
    | .dkst _ _ _ => first ≤ t && t < first + 4
    | _ => false

/-- A slice of the crew has a remote store to a tile of its own core under way (R120). -/
def storesTo (s : State) (crew t : Nat) : Bool :=
  (s.crew crew).slices.any fun j => (s.sl j).accs.any fun e => e.2.kind == .remStore &&
    e.2.pieces.any fun q => !q.done && remTarget q.va == (s.crew crew).core % 16 && q.va % 2 ^ 19 / 1024 == t

/-- An operation of the tile's owner reads or writes it; of SLICES, a store of the crew that has still to reach it. -/
def tileBusy (s : State) (crew : Nat) (span : Bool) (t : Nat) : Bool :=
  match ownerOfTile s crew (spaceOf span) t with
  | .slices => !span && storesTo s crew t
  | .trestle => trestleUses s crew span t
  | .girder => girderUses s crew span t
  | .deck => !span && deckUses s crew t

def tilesBusy (s : State) (crew : Nat) (span : Bool) (t n : Nat) : Bool := (tileRun t n).any (tileBusy s crew span)

/-- The first of a run of tiles that fails a test, as a byte offset. -/
def badTile (sp t n : Nat) (f : Nat → Bool) : Option Nat := ((tileRun t n).find? fun k => !f k).map fun k => k * tileSize sp

/-- Checks 2 and 3 of R329 for a run of tiles. -/
def tilePre (s : State) (i : Nat) (span : Bool) (off n : Nat) : Pre :=
  let sp := spaceOf span
  let t := off / tileSize sp
  if off % tileSize sp != 0 then alignTrap off
  else if !(tileRun t n).all fun k => tilesOk s (s.sl i).crew sp k 1 then localTrap cLocalRange off
  else .go

def townPre (h : Hdr) (span : Bool) (own : Owner) (a b : Opnd) (s : State) (i : Nat) : Pre :=
  let off := rs32 s i h a
  let n := rs32 s i h b
  let sp := spaceOf span
  let t := off / tileSize sp
  let crew := (s.sl i).crew
  if n = 0 || (if span then 2048 else 512) < n || (span && own == .deck) then operandTrap
  else ((localWaits s i span).next (tilePre s i span off n)).next <|
    match badTile sp t n (townOk s i span own) with
    | some v => localTrap cOwner v
    | none =>
      let moves := (tileRun t n).filter fun k => ownerOfTile s crew sp k != own
      if moves.any (tileBusy s crew span) then .park (.tileFree span t n) else .go

/-- One tile changes owner; an accumulator returned to SLICES becomes plain. -/
def townTile (s : State) (crew : Nat) (span : Bool) (own : Owner) (t : Nat) : State :=
  if ownerOfTile s crew (spaceOf span) t == own then s
  else if span && own == .slices then
    let sc := (s.crew crew).span
    setStag s sc t (plainTag (stagOf s sc t))
  else setOwner s crew (spaceOf span) t own

/-- TOWN. Where two slices of one unit name one tile, each is checked against the owners before the issue (DESIGN CHOICE, log 89). -/
def execTown (h : Hdr) (span : Bool) (own : Owner) (a b : Opnd) (s : State) : Out :=
  runUnit h (onceMeaning h anyRole (townPre h span own a b)
    fun pre s i =>
      let t := rs32 pre i h a / tileSize (spaceOf span)
      let crew := (pre.sl i).crew
      (((List.range (rs32 pre i h b)).map (t + ·)).foldl (fun s k => townTile s crew span own k) s).updSl i (standAt Wait.now)) s

def execTwait (h : Hdr) (span : Bool) (own : Owner) (a : Opnd) (s : State) : Out :=
  runUnit h (onceMeaning h anyRole
    (fun s i =>
      let off := rs32 s i h a
      let t := off / tileSize (spaceOf span)
      ((localWaits s i span).next (tilePre s i span off 1)).next
        (if ownerOfTile s (s.sl i).crew (spaceOf span) t == own then .go else .park (.owner span t own)))
    fun _ s i => s.updSl i (standAt Wait.now)) s

/-! ### WAITMEM (R331) -/

/-- The value at the location; a poisoned one is open (R245). -/
def waitVal (s : State) (i va n : Nat) : DWord :=
  let ctx := s.ctxOf i
  if (anyPoison s ctx va n).isSome then BitVec.ofNat 64 ((Config.freeWord s.freeIx).toNat % 256 ^ n)
  else BitVec.ofNat 64 (bytesNat (readAs s ctx (s.sl i).answers va n))

def comparand (x : Slice) (d : Opnd) : DWord := match d with | .s n => x.sreg n | _ => 0

/-- What WAITMEM needs before it reads. -/
def waitmemPre (h : Hdr) (m : MemOp) (n : Nat) (s : State) (i : Nat) : Pre :=
  let as := accsFor h false m n
  ((((alignPre s i (as s i)).next (memPre s .read false true (as s) i)).next (ownPre s i (as s i))).next
    (strongPre s i (as s i))).next (l2wpPre s i)

/-- The condition at each read: one that fails parks, and the next read follows a write (R331), or the loss of the line that it looked at. -/
def waitmemLook (h : Hdr) (m : MemOp) (cond : WCond) (n : Nat) (d : Opnd) (s : State) (i : Nat) : Pre :=
  let va := ((accsFor h false m n s i).head?.map LaneAcc.va).getD 0
  if wcondHolds cond (8 * n) (waitVal s i va n).toNat (comparand (s.sl i) d).toNat then .go
  else .park (.memory (BitVec.ofNat 64 va) cond (8 * n) (comparand (s.sl i) d))

/-- The reads that WAITMEM of the unit makes where the condition then fails (R36). -/
def waitmemReads (h : Hdr) (m : MemOp) (cond : WCond) (n : Nat) (d : Opnd) (s : State) : State :=
  unitLooks h (waitmemPre h m n) (waitmemLook h m cond n d)
    (fun s i => (accsFor h false m n s i).foldl (fun s a =>
      let cl := coreCluster (s.coreOf i)
      let pl := placeAt s cl (s.ctxOf i) a.va h.ch .read
      cacheRead (injectRead s pl (s.coreOf i) (crewClass s (s.sl i).crew) (s.ctxOf i) a.va) pl cl (s.ctxOf i) a.va h.ch) s) s

def execWaitmem (h : Hdr) (m : MemOp) (cond : WCond) (t : Ty) (d : Opnd) (s : State) : Out :=
  let n := tyBytes t
  let accs := fun (s : State) (i : Nat) => accsFor h false m n s i
  let addr := fun (s : State) (i : Nat) => ((accs s i).head?.map LaneAcc.va).getD 0
  runUnit h (onceMeaning h anyRole
    (fun s i => (waitmemPre h m n s i).next (waitmemLook h m cond n d s i))
    fun pre s i =>
      let va := addr pre i
      let ctx := pre.ctxOf i
      let x := pre.sl i
      let cl := coreCluster (pre.coreOf i)
      let pl := placeAt s cl ctx va h.ch .read
      let s1 := cacheRead (injectRead (useClr s i .read (accs pre i)) pl (s.coreOf i) (crewClass s (s.sl i).crew) ctx va) pl cl ctx va h.ch
      let s2 := s1.updSl i fun y => standAt Wait.now (wr .u64 d 0 (waitVal pre i va n) y)
      if (anyPoison pre ctx va n).isSome then
        deferTrap s2 i ⟨cMemError, x.pc, BitVec.ofNat 64 (va / 256 * 256), gangMask (pre.crewOf i) x x.active, 0, true, false⟩
      else s2) (waitmemReads h m cond n d s)

/-! ### Stash mapping (R125 to R127, R332) -/

/-- A mapping that begins at a tile. -/
def mapAt (c : Crew) (t0 : Nat) : Option Mapping := c.maps.find? fun m => m.t0 == t0

def stmapPre (h : Hdr) (a b c : Opnd) (s : State) (i : Nat) : Pre :=
  let off := rs32 s i h a
  let n := rs32 s i h b
  let g := rs64 s i h c
  let t := off / 1024
  let me := s.crewOf i
  let crew := (s.sl i).crew
  let tiles := tileRun t n
  if n = 0 || 512 < n || g % 1024 != 0 || g / 2 ^ 48 % 512 != (g + 1024 * n - 1) / 2 ^ 48 % 512 ||
     8 ≤ me.maps.length || me.tiles < t + n || tiles.any (fun k => (tagOf s crew k).mapped) then operandTrap
  else if off % 1024 != 0 then alignTrap off
  else match tiles.find? fun k => (tagOf s crew k).owner != .slices with
    | some k => .park (.tile k)
    | none => .go

/-- The state in which slice `i` of a unit checks an instruction whose earlier slices change what it checks: those that may issue have had
their effect. One that then faults makes the whole unit trap, without any effect (R147, R241). -/
def unitBefore (h : Hdr) (pre : State → Nat → Pre) (act : State → Nat → State) (s : State) (i : Nat) : State :=
  (s.cur.takeWhile (· != i)).foldl (fun u j => if perSlice h (u.sl j) ≠ 0 ∧ pre u j = .go then act u j else u) s

/-- STMAP's effect (R125). -/
def stmapDo (h : Hdr) (a b c : Opnd) (pre s : State) (i : Nat) : State :=
  let t := rs32 pre i h a / 1024
  let n := rs32 pre i h b
  let crew := (pre.sl i).crew
  let s1 := (tileRun t n).foldl (fun s k => setTag s crew k ⟨.slices, true, 0, 0⟩) s
  let s2 := { s1 with stash := Mem.clear s1.stash (crew * 2 ^ 19 + 1024 * t) (1024 * n) }
  s2.updCrew crew fun c' => { c' with maps := c'.maps ++ [⟨t, n, rs64 pre i h c⟩] }

def execStmap (h : Hdr) (a b c : Opnd) (s : State) : Out :=
  let chk := stmapPre h a b c
  runUnit h (onceMeaning h anyRole (fun s i => chk (unitBefore h chk (fun u j => stmapDo h a b c u u j) s i) i)
    fun pre s i => (stmapDo h a b c pre s i).updSl i (standAt Wait.now)) s

/-- STUNMAP, STWB and STINV name the first tile of a mapping. -/
def mapPre (h : Hdr) (a : Opnd) (s : State) (i : Nat) (q : Mapping → Pre) : Pre :=
  let off := rs32 s i h a
  match mapAt (s.crewOf i) (off / 1024) with
  | none => operandTrap
  | some m => if off % 1024 != 0 then alignTrap off else q m

/-- The mapping has a dirty sector, or write-backs of its lines on their way. -/
def mapDirty (s : State) (crew : Nat) (m : Mapping) : Bool := (List.range m.n).any fun k => (tagOf s crew (m.t0 + k)).sd != 0
def mapSends (s : State) (crew : Nat) (m : Mapping) : List Nat :=
  (s.writeBacks.filter fun e => e.2.crew == some crew && m.base ≤ 256 * e.2.line + 255 && 256 * e.2.line < m.base + 1024 * m.n).map Prod.fst

/-- Stores of the crew's slices to the mapping that have not been performed: slice and access. -/
def mapStores (s : State) (crew : Nat) (m : Mapping) : List (Nat × Nat) :=
  (s.crew crew).slices.flatMap fun j => ((s.sl j).accs.filter fun e => e.2.kind == .mapStore && e.2.pieces.any fun q =>
    !q.done && m.base < q.va + q.n && q.va < m.base + 1024 * m.n).map fun e => (j, e.1)

/-- Nothing of the mapping that begins at a tile is on its way. -/
def mapsQuiet (s : State) (crew t0 : Nat) : Bool :=
  match mapAt (s.crew crew) t0 with
  | some m => (mapStores s crew m).isEmpty && (mapSends s crew m).isEmpty
  | none => true

/-- Nor is a sector dirty. -/
def mapsClean (s : State) (crew t0 : Nat) : Bool :=
  mapsQuiet s crew t0 && match mapAt (s.crew crew) t0 with
    | some m => !mapDirty s crew m
    | none => true

/-- Valid sectors keep their bytes, the others read as zero, and the tiles are plain. -/
def unmap (s : State) (crew : Nat) (m : Mapping) : State :=
  let s1 := ((List.range m.n).map (m.t0 + ·)).foldl (fun s t =>
    let tag := tagOf s crew t
    let gone := (List.range 8).filter fun k => !tag.sv.getLsbD k
    setTag { s with stash := gone.foldl (fun mm k => Mem.clear mm (crew * 2 ^ 19 + 1024 * t + 128 * k) 128) s.stash } crew t
      { tag with mapped := false, sv := 0, sd := 0 }) s
  s1.updCrew crew fun c => { c with maps := c.maps.filter (· != m) }

/-- STUNMAP's check and its effect (R127): it parks again as long as a store has made a sector dirty. -/
def stunmapPre (h : Hdr) (a : Opnd) (s : State) (i : Nat) : Pre :=
  mapPre h a s i fun m => if mapsClean s (s.sl i).crew m.t0 then .go else .park (.mapClean m.t0)

def stunmapDo (h : Hdr) (a : Opnd) (pre s : State) (i : Nat) : State :=
  let crew := (pre.sl i).crew
  match mapAt (s.crew crew) (rs32 pre i h a / 1024) with
  | some m => unmap s crew m
  | none => s

def execStunmap (h : Hdr) (a : Opnd) (s : State) : Out :=
  runUnit h (onceMeaning h anyRole
    (fun s i => stunmapPre h a (unitBefore h (stunmapPre h a) (fun u j => stunmapDo h a u u j) s i) i)
    fun pre s i => (stunmapDo h a pre s i).updSl i (standAt Wait.now)) s

/-- STWB comes after the slice's own stores to the mapping (R209). -/
def execStwb (h : Hdr) (a : Opnd) (s : State) : Out :=
  runUnit h (onceMeaning h anyRole
    (fun s i => mapPre h a s i fun m =>
      let ids := ((mapStores s (s.sl i).crew m).filter fun e => e.1 == i).map Prod.snd
      if ids.isEmpty then .go else .park (.sent ids))
    fun pre s i =>
      let crew := (pre.sl i).crew
      match mapAt (pre.crew crew) (rs32 pre i h a / 1024) with
      | some m =>
        let s1 := flushMapped s crew fun t => t == m.t0
        s1.updSl i (standAt (.writeBacks (mapSends s1 crew m)))
      | none => s) s

def execStinv (h : Hdr) (a : Opnd) (s : State) : Out :=
  runUnit h (onceMeaning h anyRole (fun s i => mapPre h a s i fun _ => .go)
    fun pre s i =>
      let crew := (pre.sl i).crew
      match mapAt (pre.crew crew) (rs32 pre i h a / 1024) with
      | some m => ((List.range m.n).map (m.t0 + ·)).foldl (fun s t => setTag s crew t { tagOf s crew t with sv := 0, sd := 0 }) s
      | none => s) s

end Sys2Proof.Machine
end

