-- ==== Sys2Proof/Machine/Keystone.lean ====
section
/-! DEFINITION. Keystone (R192 to R207, R350 to R352, R383): the tables, the engine's operations, the instructions and the event in which
an engine runs one operation whole and answers. -/

namespace Sys2Proof.Machine

/-! ### Tables (R192 to R199) -/

def kPoison : Nat := 0xFFFFFFFF
def kSat : Nat := 0xFFFFFF
/-- The level of the terminals, below every variable. -/
def kTerm : Nat := 4096

/-- The 32-byte context record of a tower: the package's eight records stand one after the other. -/
def ksRecAt (s : State) (tower ctx : Nat) : Nat := physKey (tower / 8) ((s.ctx ctx).ksRec + 32 * (tower % 8))
def ksRecord (s : State) (tower ctx : Nat) : Nat := Mem.readLE s.mem (ksRecAt s tower ctx) 32

def recNlog (r : Nat) : Nat := r / 2 ^ 64 % 32
def recBlog (r : Nat) : Nat := r / 2 ^ 72 % 32
def recClog (r : Nat) : Nat := r / 2 ^ 80 % 32

/-- Where the node, bucket and cache areas of a record begin, and how long they are. -/
def ksAreas (tower r : Nat) : List (Nat × Nat) :=
  let at_ := fun (a : Nat) => physKey (tower / 8) (a % 2 ^ 64)
  [(at_ r, 16 * 2 ^ recNlog r), (at_ (r / 2 ^ 128), 64 * 2 ^ recBlog r), (at_ (r / 2 ^ 192), 32 * 2 ^ recClog r)]

def ksArea (tower r k : Nat) : Nat × Nat := (ksAreas tower r).getD k (0, 0)

/-- A record that the OS cores may write (R192): its ranges, alignments and zero fields, the areas in the tower's own HBM. -/
def ksRecOk (tower r : Nat) : Bool :=
  16 ≤ recNlog r && recNlog r ≤ 28 && 12 ≤ recBlog r && recBlog r ≤ 26 && 10 ≤ recClog r && recClog r ≤ 24 &&
    r / 2 ^ 69 % 8 == 0 && r / 2 ^ 77 % 8 == 0 && r / 2 ^ 85 % 2 ^ 43 == 0 &&
    r % 4096 == 0 && r / 2 ^ 128 % 64 == 0 && r / 2 ^ 192 % 32 == 0 &&
    (ksAreas tower r).all fun e =>
      physKey (tower / 8) (tower % 8 * 2 ^ 37) ≤ e.1 && e.1 + e.2 ≤ physKey (tower / 8) ((tower % 8 + 1) * 2 ^ 37)

/-- The numbers of the `z`-byte units of an area that list a byte, in rising order. -/
def ksUnits (s : State) (area : Nat × Nat) (z : Nat) : List Nat :=
  ((s.mem.filter fun e => area.1 ≤ e.1 && e.1 < area.1 + area.2).map fun e => (e.1 - area.1) / z).dedup

/-- A node record (R194): its node if it is LIVE. -/
def nodeOf (w : Nat) : Option KNode :=
  if w / 2 ^ 104 % 2 = 1 then some ⟨w % 2 ^ 16, w / 2 ^ 16 % 2 ^ 32, w / 2 ^ 48 % 2 ^ 32, w / 2 ^ 80 % 2 ^ 24, w / 2 ^ 105 % 2 == 1⟩ else none

def KNode.record (n : KNode) : Nat :=
  n.var + 2 ^ 16 * n.lo + 2 ^ 48 * n.hi + 2 ^ 80 * n.ref + 2 ^ 104 + (if n.psn then 2 ^ 105 else 0)

/-- OP, FN, f, g, h and result of a cache entry, each in four bytes in that order, eight bytes of zero after them (R199 names the six and 32
bytes; their places are DESIGN CHOICE, log 28). -/
def entryWords (w : Nat) : List Nat := (List.range 6).map fun k => w / 2 ^ (32 * k) % 2 ^ 32
def wordsEntry (l : List Nat) : Nat := ((l.zipIdx).map fun e => e.1 % 2 ^ 32 * 2 ^ (32 * e.2)).foldl (· + ·) 0

def kKey (tower ctx : Nat) : Nat := tower * 256 + ctx
def ksEngine (s : State) (tower ctx : Nat) : KEngine := Tbl.findD s.keystone (kKey tower ctx) ⟨[], 0, 0, 0⟩

/-- The table as its record, its areas in memory and the engine hold it (R192, R194, R196, R199). -/
def tableOf (s : State) (tower ctx : Nat) : KTable :=
  let r := ksRecord s tower ctx
  let e := ksEngine s tower ctx
  let at_ := fun (k z x : Nat) => Mem.readLE s.mem ((ksArea tower r k).1 + z * x) z
  { nlog := recNlog r
    blog := recBlog r
    clog := recClog r
    sweeps := BitVec.ofNat 32 (r / 2 ^ 96)
    nodes := (ksUnits s (ksArea tower r 0) 16).filterMap fun x => if x < 2 then none else (nodeOf (at_ 0 16 x)).map fun n => (x, n)
    buckets := (ksUnits s (ksArea tower r 1) 4).filterMap fun p => if at_ 1 4 p = 0 then none else some (p, at_ 1 4 p)
    cache := (ksUnits s (ksArea tower r 2) 32).map fun x => (x, entryWords (at_ 2 32 x))
    level := e.level
    hits := e.hits
    looks := e.looks
    poison := e.poison }

/-- A table is put back where it is held. -/
def setTable (s : State) (tower ctx : Nat) (t : KTable) : State :=
  let r := ksRecord s tower ctx
  let at_ := fun (k : Nat) => (ksArea tower r k).1
  let m0 := (ksAreas tower r).foldl (fun m e => Mem.clear m e.1 e.2) s.mem
  let m1 := t.nodes.foldl (fun m e => Mem.writeLE m (at_ 0 + 16 * e.1) 16 e.2.record) m0
  let m2 := t.buckets.foldl (fun m e => Mem.writeLE m (at_ 1 + 4 * e.1) 4 e.2) m1
  let m3 := t.cache.foldl (fun m e => Mem.writeLE m (at_ 2 + 32 * e.1) 32 (wordsEntry e.2)) m2
  { s with
    mem := Mem.writeLE m3 (ksRecAt s tower ctx + 12) 4 t.sweeps.toNat
    keystone := Tbl.put s.keystone (kKey tower ctx) ⟨t.level, t.hits, t.looks, t.poison⟩ }

/-- R193: a terminal, a node index or POISON. -/
def kHandle (t : KTable) (x : Nat) : Bool := x == kPoison || x < 2 ^ t.nlog

/-- A free record: an index that holds no node. -/
def kFreeRec (t : KTable) (x : Nat) : Bool := 2 ≤ x && x != kPoison && (Tbl.find t.nodes x).isNone

/-- POISON or a free record as an operand. -/
def kBad (t : KTable) (x : Nat) : Bool := x == kPoison || kFreeRec t x

def kLevel (t : KTable) (v : Nat) : Nat := Tbl.findD t.level v v
def kVarAt (t : KTable) (l : Nat) : Nat := ((t.level.find? fun e => e.2 == l).map Prod.fst).getD l

/-- The hash of R196. -/
def kHash (a b c : Nat) : Nat :=
  let h := (BitVec.ofNat 32 (a * 0x9E3779B1)) ^^^ (BitVec.ofNat 32 (b * 0x85EBCA77)) ^^^ (BitVec.ofNat 32 (c * 0xC2B2AE3D))
  (h ^^^ (h >>> 15)).toNat

/-- The eight buckets searched for (VAR, LO, HI). -/
def kBuckets (t : KTable) (v lo hi : Nat) : List Nat := (List.range 8).map fun k => (kHash v lo hi + k) % 2 ^ t.blog

/-- Add to or take from a node's REF; a saturated count never changes (R197). -/
def kRef (t : KTable) (h : Nat) (up : Bool) : KTable :=
  { t with nodes := Tbl.upd t.nodes h fun n =>
      if n.ref = kSat then n else { n with ref := if up then n.ref + 1 else n.ref - 1 } }

/-- What one operation answers. -/
inductive KOut where
  | ok (h : Nat)
  | poison
  | full
  | refused
  deriving DecidableEq, Repr

def kBind (r : KTable × KOut) (f : KTable → Nat → KTable × KOut) : KTable × KOut :=
  match r with
  | (t, .ok h) => f t h
  | _ => r

/-- Reading a node's record: its node, or none where it is quarantined, free, or now found in error (R205). `bad` names the records with an
uncorrectable error. -/
def kRead (bad : Nat → Bool) (t : KTable) (x : Nat) : KTable × Option KNode :=
  match Tbl.find t.nodes x with
  | none => (t, none)
  | some n =>
    if n.psn then (t, none)
    else if bad x then ({ t with nodes := Tbl.put t.nodes x { n with psn := true } }, none)
    else (t, some n)

/-- A handle as an operand, a child or a result: its record is read (R193, R205). -/
def kGive (bad : Nat → Bool) (t : KTable) (h : Nat) : KTable × KOut :=
  if h < 2 then (t, .ok h)
  else match kRead bad t h with
    | (t1, some _) => (t1, .ok h)
    | (t1, none) => (t1, .poison)

/-- Level, variable and cofactors of a handle. -/
structure KView where
  lev : Nat
  var : Nat
  lo  : Nat
  hi  : Nat
  deriving DecidableEq, Repr

def kView (bad : Nat → Bool) (t : KTable) (h : Nat) : KTable × Option KView :=
  if h < 2 then (t, some ⟨kTerm, 0, h, h⟩)
  else match kRead bad t h with
    | (t1, some n) => (t1, some ⟨kLevel t1 n.var, n.var, n.lo, n.hi⟩)
    | (t1, none) => (t1, none)

/-- The cofactors of a handle at a level. -/
def kCof (w : KView) (h l : Nat) : Nat × Nat := if w.lev = l then (w.lo, w.hi) else (h, h)

/-- The lowest-indexed free record. -/
def kLowest : Tbl KNode → Nat → Nat
  | [], k => k
  | (j, _) :: l, k => if j = k then kLowest l (k + 1) else k

/-- The search of the unique table: the match, or the quarantining of a record found in error. -/
def kSearch (bad : Nat → Bool) (v lo hi : Nat) : KTable → List Nat → KTable × Option KOut
  | t, [] => (t, none)
  | t, x :: xs =>
    match Tbl.find t.nodes x with
    | none => kSearch bad v lo hi t xs
    | some n =>
      if n.psn then kSearch bad v lo hi t xs
      else if bad x then ({ t with nodes := Tbl.put t.nodes x { n with psn := true } }, some .poison)
      else if n.var = v ∧ n.lo = lo ∧ n.hi = hi then (t, some (.ok x))
      else kSearch bad v lo hi t xs

/-- Find or make (VAR, LO, HI), one indivisible step (R196). The records of both children are read before one is made over them. -/
def kMake (bad : Nat → Bool) (t : KTable) (v lo hi : Nat) : KTable × KOut :=
  let places := (kBuckets t v lo hi).flatMap fun b => (List.range 16).map fun k => 16 * b + k
  match kSearch bad v lo hi t ((places.map fun p => Tbl.findD t.buckets p 0).filter (· != 0)) with
  | (t1, some r) => (t1, r)
  | (t1, none) =>
    if lo = hi then (t1, .ok lo)
    else kBind (kGive bad t1 lo) fun ta _ => kBind (kGive bad ta hi) fun t1 _ =>
      let x := kLowest t1.nodes 2
      match places.find? fun p => Tbl.findD t1.buckets p 0 == 0 with
      | none => (t1, .full)
      | some p =>
        if 2 ^ t1.nlog ≤ x then (t1, .full)
        else
          let t2 := { t1 with nodes := Tbl.put t1.nodes x ⟨v, lo, hi, 0, false⟩, buckets := Tbl.put t1.buckets p x }
          (kRef (kRef t2 lo true) hi true, .ok x)

/-- One recursive step under the operation cache (R199). -/
def kStep (bad : Nat → Bool) (t : KTable) (key : List Nat) (run : KTable → KTable × KOut) : KTable × KOut :=
  let g := fun (k : Nat) => key.getD k 0
  let ix := kHash (g 0 * 16 + g 1) (g 2) (g 3 ^^^ g 4) % 2 ^ t.clog
  let t0 := { t with looks := t.looks + 1 }
  match Tbl.find t0.cache ix with
  | some e =>
    if e.take 5 = key then
      let r := e.getD 5 0
      let t1 := { t0 with hits := t0.hits + 1 }
      if r < 2 then (t1, .ok r)
      else match kRead bad t1 r with
        | (t2, some _) => (t2, .ok r)
        | (t2, none) => (t2, .poison)
    else put ix key (run t0)
  | none => put ix key (run t0)
where
  put (ix : Nat) (key : List Nat) (r : KTable × KOut) : KTable × KOut :=
    match r with
    | (t1, .ok h) => ({ t1 with cache := Tbl.put t1.cache ix (key ++ [h]) }, .ok h)
    | _ => r

/-! ### Diagram operations (R200). The first argument bounds the depth: levels only rise. -/

def kApp (bad : Nat → Bool) (fn : Nat) : Nat → KTable → Nat → Nat → KTable × KOut
  | 0, t, _, _ => (t, .poison)
  | n + 1, t, f, g =>
    if f < 2 ∧ g < 2 then (t, .ok (fn / 2 ^ (2 * f + g) % 2))
    else kStep bad t [0xC1, fn, f, g, 0] fun t =>
      match kView bad t f with
      | (t1, none) => (t1, .poison)
      | (t1, some a) =>
        match kView bad t1 g with
        | (t2, none) => (t2, .poison)
        | (t2, some b) =>
          let l := min a.lev b.lev
          let x := kCof a f l
          let y := kCof b g l
          kBind (kApp bad fn n t2 x.1 y.1) fun t3 lo =>
            kBind (kApp bad fn n t3 x.2 y.2) fun t4 hi => kMake bad t4 (kVarAt t4 l) lo hi

def kIte (bad : Nat → Bool) : Nat → KTable → Nat → Nat → Nat → KTable × KOut
  | 0, t, _, _, _ => (t, .poison)
  | n + 1, t, f, g, h =>
    if f = 1 ∨ g = h then kGive bad t g
    else if f = 0 then kGive bad t h
    else kStep bad t [0xC2, 0, f, g, h] fun t =>
      match kView bad t f with
      | (t1, none) => (t1, .poison)
      | (t1, some a) =>
        match kView bad t1 g with
        | (t2, none) => (t2, .poison)
        | (t2, some b) =>
          match kView bad t2 h with
          | (t3, none) => (t3, .poison)
          | (t3, some c) =>
            let l := min a.lev (min b.lev c.lev)
            let x := kCof a f l
            let y := kCof b g l
            let z := kCof c h l
            kBind (kIte bad n t3 x.1 y.1 z.1) fun t4 lo =>
              kBind (kIte bad n t4 x.2 y.2 z.2) fun t5 hi => kMake bad t5 (kVarAt t5 l) lo hi

def kNot (bad : Nat → Bool) : Nat → KTable → Nat → KTable × KOut
  | 0, t, _ => (t, .poison)
  | n + 1, t, f =>
    if f < 2 then (t, .ok (1 - f))
    else kStep bad t [0xC3, 0, f, 0, 0] fun t =>
      match kView bad t f with
      | (t1, none) => (t1, .poison)
      | (t1, some a) =>
        kBind (kNot bad n t1 a.lo) fun t2 lo => kBind (kNot bad n t2 a.hi) fun t3 hi => kMake bad t3 a.var lo hi

def kRes (bad : Nat → Bool) (v b : Nat) : Nat → KTable → Nat → KTable × KOut
  | 0, t, _ => (t, .poison)
  | n + 1, t, f =>
    if f < 2 then (t, .ok f)
    else kStep bad t [0xC4, 0, f, v, b] fun t =>
      match kView bad t f with
      | (t1, none) => (t1, .poison)
      | (t1, some a) =>
        if kLevel t1 v < a.lev then (t1, .ok f)
        else if a.var = v then kGive bad t1 (if b = 0 then a.lo else a.hi)
        else kBind (kRes bad v b n t1 a.lo) fun t2 lo => kBind (kRes bad v b n t2 a.hi) fun t3 hi => kMake bad t3 a.var lo hi

/-- The rest of a cube from a level on. -/
def cubeFrom (bad : Nat → Bool) (l : Nat) : Nat → KTable → Nat → KTable × Option (Nat × KView)
  | 0, t, _ => (t, none)
  | n + 1, t, c =>
    match kView bad t c with
    | (t1, none) => (t1, none)
    | (t1, some w) => if w.lev < l then cubeFrom bad l n t1 w.hi else (t1, some (c, w))

def kQnt (bad : Nat → Bool) (all : Bool) : Nat → KTable → Nat → Nat → KTable × KOut
  | 0, t, _, _ => (t, .poison)
  | n + 1, t, f, cube =>
    if f < 2 ∨ cube = 1 then kGive bad t f
    else kStep bad t [0xC5, if all then 1 else 0, f, cube, 0] fun t =>
      match kView bad t f with
      | (t1, none) => (t1, .poison)
      | (t1, some a) =>
        match cubeFrom bad a.lev 4100 t1 cube with
        | (t2, none) => (t2, .poison)
        | (t2, some (c, w)) =>
          if w.lev = a.lev then
            kBind (kQnt bad all n t2 a.lo w.hi) fun t3 lo =>
              kBind (kQnt bad all n t3 a.hi w.hi) fun t4 hi => kApp bad (if all then 8 else 14) 4100 t4 lo hi
          else if c = 1 then (t2, .ok f)
          else kBind (kQnt bad all n t2 a.lo c) fun t3 lo => kBind (kQnt bad all n t3 a.hi c) fun t4 hi => kMake bad t4 a.var lo hi

/-- R200: TRUE or a conjunction of positive literals; none where a quarantined node is met. -/
def kCube (bad : Nat → Bool) : Nat → KTable → Nat → KTable × Option Bool
  | 0, t, _ => (t, some false)
  | n + 1, t, c =>
    if c < 2 then (t, some (c = 1))
    else match kView bad t c with
      | (t1, none) => (t1, none)
      | (t1, some w) => if w.lo = 0 then kCube bad n t1 w.hi else (t1, some false)

/-! ### Sweeps (R198) -/

/-- A count goes down at a node that is freed above; a record found in error is quarantined (R205). -/
def kDown (bad : Nat → Bool) (t : KTable) (h : Nat) : KTable :=
  match kRead bad t h with
  | (_, some _) => kRef t h false
  | (t1, none) => if ((Tbl.find t.nodes h).map KNode.psn).getD false then kRef t h false else t1

def kFree (bad : Nat → Bool) (t : KTable) (x : Nat) (n : KNode) : KTable :=
  let t1 := { t with nodes := Tbl.del t.nodes x, buckets := t.buckets.filter fun e => e.2 != x }
  kDown bad (kDown bad t1 n.lo) n.hi

/-- Free dead nodes until none are left; one whose record is found in error is quarantined. -/
def kSweepGo (bad : Nat → Bool) : Nat → KTable → KTable
  | 0, t => t
  | n + 1, t =>
    match t.nodes.find? fun e => e.2.ref == 0 && !e.2.psn with
    | some (x, nd) => kSweepGo bad n (if bad x then (kRead bad t x).1 else kFree bad t x nd)
    | none => t

def kSweep (bad : Nat → Bool) (t : KTable) : KTable :=
  let t1 := kSweepGo bad t.nodes.length t
  { t1 with cache := [], sweeps := t1.sweeps + 1 }

/-! ### Counting and expansion (R201, R202) -/

/-- The nodes reachable from a list of handles, and whether a quarantined or free record is among them. -/
def kReach (bad : Nat → Bool) : Nat → KTable → List Nat → List (Nat × KView) → Bool → KTable × List (Nat × KView) × Bool
  | 0, t, _, seen, b => (t, seen, b)
  | _, t, [], seen, b => (t, seen, b)
  | n + 1, t, h :: hs, seen, b =>
    if h < 2 || seen.any fun e => e.1 == h then kReach bad n t hs seen b
    else match kView bad t h with
      | (t1, none) => kReach bad n t1 hs seen true
      | (t1, some w) => kReach bad n t1 (w.lo :: w.hi :: hs) (seen ++ [(h, w)]) b

def kAll (bad : Nat → Bool) (t : KTable) (f : Nat) : KTable × List (Nat × KView) × Bool :=
  kReach bad (3 * t.nodes.length + 3) t [f] [] false

/-- The arithmetic of DDCNT: ONE, a variable's weights, MUL, ADD, and SUMW of a variable. -/
structure CntOps where
  one  : Nat
  w    : Nat → Nat × Nat
  mul  : Nat → Nat → Fl Nat
  add  : Nat → Nat → Fl Nat
  sumw : Nat → Fl Nat

/-- A count that saturates at 2^64 - 1; it then differs from the exact one, NX (R154, R201; that OF stays clear, DEDUCED, log 86). -/
def cntSat (x : Nat) : Fl Nat := if x < 2 ^ 64 then (x, 0) else (2 ^ 64 - 1, fNX)

def cntInt : CntOps where
  one := 1
  w := fun _ => (1, 1)
  mul := fun x y => cntSat (x * y)
  add := fun x y => cntSat (x + y)
  sumw := fun _ => (2, 0)

def cntFloat (w : Nat → Nat × Nat) : CntOps where
  one := 0x3F800000
  w := w
  mul := fmul2 fmtF32
  add := fadd2 fmtF32
  sumw := fun v => fadd2 fmtF32 (w v).1 (w v).2

/-- A count under way: values known, flags, variables whose weights were read. -/
structure Cnt where
  memo  : Tbl Nat
  fl    : Flags
  reads : List Nat
  deriving DecidableEq, Repr

/-- SKIP over `n` levels that end at `lo`, highest level first. -/
def cntSkip (o : CntOps) (t : KTable) (lo : Nat) : Nat → Nat → Cnt → Nat × Cnt
  | 0, x, k => (x, k)
  | n + 1, x, k =>
    let v := kVarAt t (lo + n)
    let w := o.sumw v
    let r := o.mul x w.1
    cntSkip o t lo n r.1 { k with fl := k.fl ||| w.2 ||| r.2, reads := if k.reads.contains v then k.reads else k.reads ++ [v] }

/-- c(n, ℓ) over the nodes `ns`. -/
def cntGo (o : CntOps) (t : KTable) (ns : List (Nat × KView)) (top : Nat) : Nat → Nat → Nat → Cnt → Nat × Cnt
  | 0, _, _, k => (0, k)
  | n + 1, h, l, k =>
    if h = 0 then (0, k)
    else if h = 1 then cntSkip o t l (top - l) o.one k
    else match ns.find? fun e => e.1 == h with
      | none => (0, k)
      | some (_, w) =>
        let (x, k1) := match Tbl.find k.memo h with
          | some x => (x, k)
          | none =>
            let (a, k1) := cntGo o t ns top n w.lo (w.lev + 1) k
            let (b, k2) := cntGo o t ns top n w.hi (w.lev + 1) k1
            let ws := o.w w.var
            let p := o.mul a ws.1
            let q := o.mul b ws.2
            let r := o.add p.1 q.1
            (r.1, { k2 with
              memo := Tbl.put k2.memo h r.1
              fl := k2.fl ||| p.2 ||| q.2 ||| r.2
              reads := if k2.reads.contains w.var then k2.reads else k2.reads ++ [w.var] })
        cntSkip o t l (w.lev - l) x k1

def cntRun (o : CntOps) (t : KTable) (ns : List (Nat × KView)) (f top : Nat) : Nat × Cnt := cntGo o t ns top 4100 f 0 ⟨[], 0, []⟩

/-- f at the assignment whose variable k is bit k of `a`. -/
def kEval (ns : List (Nat × KView)) (a : Nat) : Nat → Nat → Bool
  | 0, _ => false
  | n + 1, h =>
    if h < 2 then h == 1
    else match ns.find? fun e => e.1 == h with
      | none => false
      | some (_, w) => kEval ns a n (if a / 2 ^ w.var % 2 = 1 then w.hi else w.lo)

/-- The mask of DDEXP as bytes. -/
def kMask (ns : List (Nat × KView)) (f n : Nat) : List Byte :=
  let bit := fun (a : Nat) => a < 2 ^ n && kEval ns a 4100 f
  (List.range (max 1 (2 ^ n / 8))).map fun j =>
    BitVec.ofNat 8 (((List.range 8).map fun k => if bit (8 * j + k) then 2 ^ k else 0).foldl (· + ·) 0)

def maskOnes (bs : List Byte) : Nat := (bs.map fun b => ((List.range 8).filter fun k => b.getLsbD k).length).foldl (· + ·) 0

/-! ### The engine answers (R203 to R207, R350) -/

/-- What an operation gives: a value with flags, nothing, DDNODE's pair, or a fault. -/
inductive KAns where
  | val (v : Nat) (wide : Bool) (f : Flags)
  | unit
  | pair (a b : Nat)
  | trap (code addr info : Nat)
  deriving DecidableEq, Repr

/-- A record with an uncorrectable error (R205). -/
def ksBadRec (s : State) (tower ctx x : Nat) : Bool :=
  s.poison.contains (physLine s (physKey (tower / 8) ((ksRecord s tower ctx) % 2 ^ 64 + 16 * x)))

/-- A handle result takes the caller's reference (R197); POISON is counted; a full table faults with the count of LIVE records. -/
def kFinish (bad : Nat → Bool) (r : KTable × KOut) : KTable × KAns :=
  let lost := fun (t : KTable) => (({ t with poison := t.poison + 1 } : KTable), KAns.val kPoison false 0)
  match r with
  | (t, .ok h) =>
    match kGive bad t h with
    | (t1, .ok _) => (kRef t1 h true, .val h false 0)
    | (t1, _) => lost t1
  | (t, .poison) => lost t
  | (t, .full) => (t, .trap cTableFull 0 t.nodes.length)
  | (t, .refused) => (t, .trap cReservedOperand 0 0)

/-- Handles as operands: bad values fault, POISON and free records give POISON (R193), and so does a quarantined node: its record is read
(R200, R205). -/
def kOperands (bad : Nat → Bool) (t : KTable) (hs : List Nat) : KTable × KOut :=
  if hs.any fun h => !kHandle t h then (t, .refused)
  else if hs.any (kBad t) then (t, .poison)
  else hs.foldl (fun r h => kBind r fun t _ => kGive bad t h) (t, .ok 0)

/-- An operation on handles. -/
def kOp (bad : Nat → Bool) (t : KTable) (hs : List Nat) (run : KTable → KTable × KOut) : KTable × KOut :=
  kBind (kOperands bad t hs) fun t _ => run t

/-- DDREF and DDUNREF (R197). -/
def kCount (bad : Nat → Bool) (t : KTable) (h : Nat) (up : Bool) : KTable × KAns :=
  if !kHandle t h then (t, .trap cReservedOperand 0 0)
  else if h < 2 || h = kPoison then (t, .unit)
  else match Tbl.find t.nodes h with
    | none => ({ t with poison := t.poison + 1 }, .unit)
    | some n =>
      if !n.psn && bad h then ({ (kRead bad t h).1 with poison := t.poison + 1 }, .unit)
      else if !up && n.ref = 0 then (t, .trap cReservedOperand 0 0)
      else (kRef t h up, .unit)

/-- DDSTAT (R206). -/
def kStat (t : KTable) (sel : Nat) : Nat :=
  if sel = 0 then t.nodes.length
  else if sel = 1 then (t.nodes.filter fun e => e.2.ref == 0).length
  else if sel = 2 then 2 ^ t.nlog
  else if sel = 3 then t.sweeps.toNat
  else if sel = 4 then t.hits
  else if sel = 5 then t.looks
  else if sel = 6 then (t.nodes.filter fun e => e.2.psn).length
  else t.poison

/-- DDNODE (R352). -/
def kNodePair (bad : Nat → Bool) (t : KTable) (h : Nat) : KTable × KAns :=
  if !kHandle t h then (t, .trap cReservedOperand 0 0)
  else
    let t1 := (kRead bad t h).1
    match (if h < 2 then none else Tbl.find t1.nodes h) with
    | none => (t1, .pair 0 0)
    | some n =>
      let c := if n.psn then kPoison + 2 ^ 32 * kPoison else n.lo + 2 ^ 32 * n.hi
      (t1, .pair c (n.var + 2 ^ 16 * n.ref + (if n.psn then 2 ^ 40 else 0) + 2 ^ 63))

/-- DDCNT before its weights are read: the nodes, or the answer. -/
def kCntNodes (bad : Nat → Bool) (t : KTable) (flt : Bool) (f top : Nat) : KTable × (List (Nat × KView) ⊕ KAns) :=
  let lost := KAns.val (if flt then 0x7FC00000 else 2 ^ 64 - 1) true fNV
  if !kHandle t f || top = 0 || 4096 < top then (t, .inr (.trap cReservedOperand 0 0))
  else if kBad t f then (t, .inr lost)
  else
    let (t1, ns, b) := kAll bad t f
    if ns.any fun e => top ≤ e.2.lev then (t1, .inr (.trap cReservedOperand 0 0))
    else if b then (t1, .inr lost) else (t1, .inl ns)

/-- A variable's weights in the table at an address (R201). -/
def ksWeights (s : State) (i base v : Nat) : Nat × Nat :=
  let b := readAs s (s.ctxOf i) (s.sl i).answers ((base + 8 * v) % 2 ^ 64) 8
  let n := if (anyPoison s (s.ctxOf i) ((base + 8 * v) % 2 ^ 64) 8).isSome then (Config.freeWord (s.freeIx + v)).toNat else bytesNat b
  (n % 2 ^ 32, n / 2 ^ 32)

/-- The bytes of the weight table that a count reads, in order. -/
def ksCntReads (t : KTable) (ns : List (Nat × KView)) (f top base : Nat) : List (Nat × Nat) :=
  (cntRun (cntFloat fun _ => (0x3F800000, 0x3F800000)) t ns f top).2.reads.map fun v => ((base + 8 * v) % 2 ^ 64, 8)

/-- R195: the map's 4096 entries. -/
def ksMap (s : State) (i base : Nat) : List Nat :=
  (List.range 4096).map fun v =>
    if (anyPoison s (s.ctxOf i) (base + 2 * v) 2).isSome then Config.freeNat (s.freeIx + v) % 2 ^ 16
    else bytesNat (readAs s (s.ctxOf i) (s.sl i).answers (base + 2 * v) 2)

def isPerm (l : List Nat) : Bool := (List.range 4096).all l.contains

/-- DDEXP before its mask is written: the mask, or the answer. -/
def kExpMask (bad : Nat → Bool) (t : KTable) (f n : Nat) : KTable × (List Byte ⊕ KAns) :=
  if !kHandle t f || n = 0 || 24 < n then (t, .inr (.trap cReservedOperand 0 0))
  else if kBad t f then (t, .inr (.val kPoison false fNV))
  else
    let (t1, ns, b) := kAll bad t f
    if ns.any fun e => n ≤ e.2.var then (t1, .inr (.trap cReservedOperand 0 0))
    else if b then (t1, .inr (.val kPoison false fNV)) else (t1, .inl (kMask ns f n))

/-- An operand that makes the engine refuse an operation that touches memory, whatever that memory holds (R195, R201, R202). -/
def ksBarred (s : State) (i : Nat) (t : KTable) (bad : Nat → Bool) (op : Instr) : Bool :=
  let h32 := fun (h : Hdr) (o : Opnd) => rs32 s i h o
  match op with
  | .ddcnt h true _ a b _ => match kCntNodes bad t true (h32 h a) (h32 h b) with | (_, .inr (.trap _ _ _)) => true | _ => false
  | .ddexp h _ a b _ => match kExpMask bad t (h32 h a) (h32 h b) with | (_, .inr (.trap _ _ _)) => true | _ => false
  | .ddord _ _ => !t.nodes.isEmpty
  | _ => false

/-- The alignment of the address that an operation takes (R202, R351). -/
def ksAlign (s : State) (i : Nat) (op : Instr) : Pre :=
  let at_ := fun (n va : Nat) => if va % n != 0 then alignTrap va else .go
  match op with
  | .ddcnt h true _ _ _ c => at_ 8 (rs64 s i h c)
  | .ddexp h _ _ _ c => at_ 8 (rs64 s i h c)
  | .ddord h a => at_ 2 (rs64 s i h a)
  | _ => .go

/-- Where the memory that an operation touches stands: it is asked for under the slice's clearance (R201, R202, R351). -/
def ksStand (s : State) (i : Nat) (t : KTable) (bad : Nat → Bool) (op : Instr) : Stand :=
  let h32 := fun (h : Hdr) (o : Opnd) => rs32 s i h o
  let me := sliceParty s i
  match op with
  | .ddcnt h true _ a b c =>
    match kCntNodes bad t true (h32 h a) (h32 h b) with
    | (t1, .inl ns) => standRead s me false (ksCntReads t1 ns (h32 h a) (h32 h b) (rs64 s i h c))
    | _ => .ok
  | .ddexp h _ a b c =>
    match kExpMask bad t (h32 h a) (h32 h b) with
    | (_, .inl m) => standClr s me .write false [(rs64 s i h c, m.length)]
    | _ => .ok
  | .ddord h a => standRead s me false [(rs64 s i h a, 8192)]
  | _ => .ok

/-- What the memory of a unit's operations asks of one slice: nothing where the engine will refuse an operation of the unit (R241). -/
def ksMemory (s : State) (ids : List Nat) (t : KTable) (bad : Nat → Bool) (op : Instr) (i : Nat) : Pre :=
  if ids.any fun j => ksBarred s j t bad op then .go else (ksAlign s i op).next ((ksStand s i t bad op).pre s i)

/-- The operations that make diagrams (R200): what the table becomes, and what they find. DDQNT of a POISON or free handle, or one whose cube meets
a node in error, answers POISON before the cube's form is looked at, for which R200 gives RESERVED_OPERAND too (DESIGN CHOICE, log 29). -/
def ksDiagram (s : State) (i : Nat) (t : KTable) (bad : Nat → Bool) (op : Instr) : Option (KTable × KOut) :=
  let h32 := fun (h : Hdr) (o : Opnd) => rs32 s i h o
  match op with
  | .ddvar h _ a => some (kMake bad t (h32 h a) 0 1)
  | .ddapp h fn _ a b => some (kOp bad t [h32 h a, h32 h b] fun t => kApp bad fn 4100 t (h32 h a) (h32 h b))
  | .ddite h _ a b c => some (kOp bad t [h32 h a, h32 h b, h32 h c] fun t => kIte bad 4100 t (h32 h a) (h32 h b) (h32 h c))
  | .ddnot h _ a => some (kOp bad t [h32 h a] fun t => kNot bad 4100 t (h32 h a))
  | .ddres h _ a b c => some (kOp bad t [h32 h a] fun t => kRes bad (h32 h b) (h32 h c) 4100 t (h32 h a))
  | .ddqnt h all _ a b => some (kOp bad t [h32 h a, h32 h b] fun t =>
      match kCube bad 4100 t (h32 h b) with
      | (t1, some true) => kQnt bad all 4100 t1 (h32 h a) (h32 h b)
      | (t1, some false) => (t1, .refused)
      | (t1, none) => (t1, .poison))
  | _ => none

/-- An answer of POISON to DDCNT or DDEXP is counted (R206). -/
def kLost (t : KTable) (a : KAns) : KTable × KAns :=
  match a with
  | .trap _ _ _ => (t, a)
  | _ => ({ t with poison := t.poison + 1 }, a)

/-- One operation, whole (R207). -/
def ksRun (s : State) (i : Nat) (t : KTable) (bad : Nat → Bool) (op : Instr) : KTable × KAns :=
  let h32 := fun (h : Hdr) (o : Opnd) => rs32 s i h o
  match ksDiagram s i t bad op with
  | some r => kFinish bad r
  | none =>
    match op with
    | .ddcnt h flt _ a b c =>
      match kCntNodes bad t flt (h32 h a) (h32 h b) with
      | (t1, .inl ns) =>
        let r := cntRun (if flt then cntFloat (ksWeights s i (rs64 s i h c)) else cntInt) t1 ns (h32 h a) (h32 h b)
        (t1, .val r.1 true r.2.fl)
      | (t1, .inr x) => kLost t1 x
    | .ddexp h _ a b _ =>
      match kExpMask bad t (h32 h a) (h32 h b) with
      | (t1, .inl m) => (t1, .val (maskOnes m) false 0)
      | (t1, .inr x) => kLost t1 x
    | .ddref h a => kCount bad t (h32 h a) true
    | .ddunref h a => kCount bad t (h32 h a) false
    | .ddswp _ => (kSweep bad t, .unit)
    | .ddord h a =>
      let m := ksMap s i (rs64 s i h a)
      if !t.nodes.isEmpty || !isPerm m then (t, .trap cReservedOperand 0 0)
      else ({ t with level := ((m.zipIdx).filter fun e => e.1 != e.2).map fun e => (e.2, e.1) }, .unit)
    | .ddstat h _ a => (t, .val (kStat t (rs64 s i h a)) true 0)
    | .ddnode h _ a => kNodePair bad t (h32 h a)
    | _ => (t, .unit)

/-- What an operation that is not answered leaves behind: dead nodes, cache entries, quarantine (R204). -/
def ksLeft (s : State) (i : Nat) (t : KTable) (bad : Nat → Bool) (op : Instr) : KTable :=
  match ksDiagram s i t bad op with
  | some r => r.1
  | none =>
    match op with
    | .ddcnt h flt _ a b _ => (kCntNodes bad t flt (rs32 s i h a) (rs32 s i h b)).1
    | .ddexp h _ a b _ => (kExpMask bad t (rs32 s i h a) (rs32 s i h b)).1
    | _ => t

/-- Header and destination of a Keystone instruction. -/
def ksForm : Instr → Option (Hdr × Opnd)
  | .ddvar h d _ => some (h, d)
  | .ddapp h _ d _ _ => some (h, d)
  | .ddite h d _ _ _ => some (h, d)
  | .ddnot h d _ => some (h, d)
  | .ddres h d _ _ _ => some (h, d)
  | .ddqnt h _ d _ _ => some (h, d)
  | .ddcnt h _ d _ _ _ => some (h, d)
  | .ddexp h d _ _ _ => some (h, d)
  | .ddref h _ => some (h, .zero)
  | .ddunref h _ => some (h, .zero)
  | .ddswp h => some (h, .zero)
  | .ddord h _ => some (h, .zero)
  | .ddstat h d _ => some (h, d)
  | .ddnode h d _ => some (h, d)
  | _ => none

/-- The result is written and the slice resumes after the instruction, at a park point (R350). -/
def ksResult (h : Hdr) (d : Opnd) (a : KAns) (x : Slice) : Slice :=
  let y := match a with
    | .val v wide f => let z := wr (if wide then .u64 else .u32) d 0 (BitVec.ofNat 64 v) x; { z with flags := z.flags ||| f }
    | .pair u v => wr .u64 (Opnd.plus d 1) 0 (BitVec.ofNat 64 v) (wr .u64 d 0 (BitVec.ofNat 64 u) x)
    | _ => x
  { y with
    pc := y.pc + 12
    park := .after Wait.now h.w
    answers := []
    since := none
    raised := false
    exhaust := match y.exhaust with
      | some (pc, n) => if pc = x.pc then none else some (pc, n)
      | none => none }

/-- A fault found at the engine for slice `i` is exact in every slice of its unit (R241, R350); a full table is recorded with SWEEPS (R203). -/
def ksTrap (s : State) (ids : List Nat) (i : Nat) (sweeps : Word) (code addr info : Nat) : State :=
  let x := s.sl i
  let full := code == cTableFull
  let again := full && (match x.exhaust with | some (pc, n) => pc == x.pc && n != sweeps | none => false)
  let s1 := if full then s.setSl i { x with exhaust := some (x.pc, sweeps) } else s
  let t : TrapIn := ⟨if full then 5 else 1, if again then cExhausted else code, BitVec.ofNat 64 addr, BitVec.ofNat 64 info, none, 0⟩
  takeUnit s1 ids [t] t

/-- DDEXP's mask and its address. -/
def ksMask (s : State) (i : Nat) (t : KTable) (bad : Nat → Bool) (op : Instr) : Option (Nat × List Byte) :=
  match op with
  | .ddexp h _ a b c =>
    match kExpMask bad t (rs32 s i h a) (rs32 s i h b) with
    | (_, .inl m) => some (rs64 s i h c, m)
    | _ => none
  | _ => none

/-- The mask as stores of its 8-byte units (R383). -/
def maskPieces (ord : Nat → Nat) (va : Nat) (m : List Byte) : List Piece :=
  if m.length < 8 then [⟨0, va, m.length, 0, bytesNat m, 0, false, ord va⟩]
  else (List.range (m.length / 8)).map fun k =>
    ⟨0, va + 8 * k, 8, 0, bytesNat ((m.drop (8 * k)).take 8), 0, false, ord (va + 8 * k)⟩

/-- The engine's stores of a mask: relaxed, at their homes; the number of set bits lands when all of them are performed (R202, R383). -/
def maskAcc (s : State) (i : Nat) (d : Opnd) (va : Nat) (m : List Byte) : Acc where
  kind := .store
  ctx := s.ctxOf i
  ch := hintEngine
  pieces := maskPieces (pageOrd s (s.ctxOf i)) va m
  got := [(0, maskOnes m)]
  size := 4
  sgn := false
  dst := d
  once := true
  id := s.nextId
  pc := (s.sl i).pc
  mask := gangMask (s.crewOf i) (s.sl i) (s.sl i).active
  grp := s.nextId
  whole := false

/-- DDEXP has been answered: its stores are under way, and the slice waits for their result. -/
def ksExpand (h : Hdr) (d : Opnd) (s : State) (i va : Nat) (m : List Byte) : State :=
  let a := maskAcc s i d va m
  (partyUse s.fresh (sliceParty s i) .write [(va, m.length)]).updSl i fun x =>
    let y := ksResult h d .unit x
    { y with accs := Tbl.put y.accs s.nextId a, outst := Tbl.put y.outst s.nextId 1, park := .after (.value s.nextId) h.w }

def ksReads (s : State) (i : Nat) (t : KTable) (bad : Nat → Bool) (op : Instr) : List (Nat × Nat) :=
  match op with
  | .ddcnt h true _ a b c =>
    match kCntNodes bad t true (rs32 s i h a) (rs32 s i h b) with
    | (t1, .inl ns) => ksCntReads t1 ns (rs32 s i h a) (rs32 s i h b) (rs64 s i h c)
    | _ => []
  | .ddord h a => if t.nodes.isEmpty then [(rs64 s i h a, 8192)] else []
  | _ => []

/-- What the engine's reads do at the homes (R36); a poisoned weight or map entry is reported (R245). -/
def ksTouch (s : State) (i : Nat) (rs : List (Nat × Nat)) : State :=
  if rs.isEmpty then s else
  let x := s.sl i
  let s1 := rs.foldl (fun s e => readHome s (s.ctxOf i) e.1 e.2) (partyUse s (sliceParty s i) .read rs)
  match rs.findSome? fun e => anyPoison s (s.ctxOf i) e.1 e.2 with
  | some va => deferTrap s1 i ⟨cMemError, x.pc, BitVec.ofNat 64 (va / 256 * 256), gangMask (s.crewOf i) x x.active, 0, true, false⟩
  | none => s1

/-- Nodes newly quarantined are logged (R205). -/
def ksLog (s : State) (tower ctx : Nat) (old new : KTable) : State :=
  (new.nodes.filter fun e => e.2.psn && !((Tbl.find old.nodes e.1).map KNode.psn).getD false).foldl
    (fun s e => s.log "machine check" [tower, ctx, e.1]) s

/-- The operations of a unit, one after another, up to the first that faults. -/
def ksAll (s : State) (bad : Nat → Bool) (op : Instr) : List Nat → KTable → KTable × List (Nat × KAns)
  | [], t => (t, [])
  | j :: js, t =>
    match ksRun s j t bad op with
    | (t1, .trap code addr info) => (t1, [(j, .trap code addr info)])
    | (t1, a) => let q := ksAll s bad op js t1; (q.1, (j, a) :: q.2)

/-- One slice of a unit has its answer. -/
def ksDeliver (t : KTable) (bad : Nat → Bool) (op : Instr) (h : Hdr) (d : Opnd) (s : State) (j : Nat) (a : KAns) : State :=
  match ksMask s j t bad op with
  | some (va, m) => ksExpand h d s j va m
  | none => (ksTouch s j (ksReads s j t bad op)).updSl j (ksResult h d a)

/-- The engine refuses a slice's operation: RESERVED_OPERAND (R195, R197, R200 to R202). -/
def ksRefusal (s : State) (t : KTable) (bad : Nat → Bool) (op : Instr) (j : Nat) : Option (Nat × Nat × Nat × Nat) :=
  match (ksRun s j t bad op).2 with
  | .trap code addr info => if code = cTableFull then none else some (j, code, addr, info)
  | _ => none

/-- The trap of one operation stops the unit: the operations that have run leave nodes and cache entries (R204). -/
def ksStop (s : State) (tower ctx : Nat) (t : KTable) (bad : Nat → Bool) (op : Instr) (ids ran : List Nat) (f : Nat × Nat × Nat × Nat) : State :=
  let t1 := ran.foldl (fun t j => ksLeft s j t bad op) t
  ksTrap (ksLog (setTable s tower ctx t1) tower ctx t t1) ids f.1 t1.sweeps f.2.1 f.2.2.1 f.2.2.2

/-- The engine runs the operations of the unit's slices and answers them together: where one of them faults, no operation of the unit has an
effect but the nodes and cache entries it made, and every slice traps (R204, R241, R350). Memory whose clearance has gone since is asked for
again. -/
def keystoneAnswer (s : State) (i : Nat) : State :=
  match (s.sl i).park with
  | .before (.keystone op unit) =>
    let tower := coreTower (s.coreOf i)
    let ctx := s.ctxOf i
    let t := tableOf s tower ctx
    let bad := ksBadRec s tower ctx
    let ids := unit.filter fun j => (s.sl j).park == .before (.keystone op unit)
    match ksForm op with
    | none => s
    | some (h, d) =>
      if !ctxRuns s ctx then s
      else
        let pres := ids.map (ksMemory s ids t bad op)
        match (ids.filter fun j => (ksMemory s ids t bad op j).isGo).findSome? (ksRefusal s t bad op) with
        | some f => ksStop s tower ctx t bad op ids [f.1] f
        | none =>
          match unitTrap pres with
          | some u => takeUnit s ids (pres.filterMap Pre.trap?) u
          | none =>
            if pres.any Pre.isAsk then ids.foldl (fun s j => s.updSl j fun x => { x with park := .run }) s
            else
              let r := ksAll s bad op ids t
              match r.2.findSome? fun e => (match e.2 with | .trap c a n => some (e.1, c, a, n) | _ => none) with
              | some f => ksStop s tower ctx t bad op ids (r.2.map Prod.fst) f
              | none => r.2.foldl (fun s e => ksDeliver t bad op h d s e.1 e.2) (ksLog (setTable s tower ctx r.1) tower ctx t r.1)
  | _ => s

def execKeystoneAnswer (sl : Nat) (s : State) : Out := .next (keystoneAnswer s sl)

/-! ### The instructions (R350, R351) -/

/-- DDEXP's result lands with its last store (R142, R383). -/
def ksRoom (s : State) (op : Instr) (i : Nat) : Pre :=
  match op with
  | .ddexp _ _ _ _ _ => roomPre s i
  | _ => .go

/-- Checks, then the memory the operation touches, the slice's own earlier accesses, and the park for the engine's answer. -/
def ksSend (h : Hdr) (op : Instr) (val : State → Nat → Pre) (s : State) : Out :=
  runUnit h (onceMeaning h anyRole
    (fun s i =>
      let tower := coreTower (s.coreOf i)
      let ctx := s.ctxOf i
      ((((val s i).next (ksMemory s s.cur (tableOf s tower ctx) (ksBadRec s tower ctx) op i)).next (accessPre s i)).next (ksRoom s op i)).next
        (.park (.keystone op s.cur)))
    fun _ s _ => s) s

def operandIf (b : Bool) : Pre := if b then operandTrap else .go

def execDdvar (h : Hdr) (d a : Opnd) (s : State) : Out :=
  ksSend h (.ddvar h d a) (fun s i => operandIf (4096 ≤ rs32 s i h a)) s
def execDdapp (h : Hdr) (lut : Nat) (d a b : Opnd) (s : State) : Out := ksSend h (.ddapp h lut d a b) goPre s
def execDdite (h : Hdr) (d a b c : Opnd) (s : State) : Out := ksSend h (.ddite h d a b c) goPre s
def execDdnot (h : Hdr) (d a : Opnd) (s : State) : Out := ksSend h (.ddnot h d a) goPre s
def execDdres (h : Hdr) (d a b c : Opnd) (s : State) : Out :=
  ksSend h (.ddres h d a b c) (fun s i => operandIf (4096 ≤ rs32 s i h b || 2 ≤ rs32 s i h c)) s
def execDdqnt (h : Hdr) (all : Bool) (d a b : Opnd) (s : State) : Out := ksSend h (.ddqnt h all d a b) goPre s
def execDdcnt (h : Hdr) (flt : Bool) (d a b c : Opnd) (s : State) : Out :=
  ksSend h (.ddcnt h flt d a b c)
    (fun s i => operandIf (rs32 s i h b == 0 || 4096 < rs32 s i h b)) s
def execDdexp (h : Hdr) (d a b c : Opnd) (s : State) : Out :=
  ksSend h (.ddexp h d a b c)
    (fun s i => operandIf (rs32 s i h b == 0 || 24 < rs32 s i h b)) s
def execDdref (h : Hdr) (a : Opnd) (s : State) : Out := ksSend h (.ddref h a) goPre s
def execDdunref (h : Hdr) (a : Opnd) (s : State) : Out := ksSend h (.ddunref h a) goPre s
def execDdswp (h : Hdr) (s : State) : Out := ksSend h (.ddswp h) goPre s
def execDdord (h : Hdr) (a : Opnd) (s : State) : Out := ksSend h (.ddord h a) goPre s
def execDdstat (h : Hdr) (d a : Opnd) (s : State) : Out := ksSend h (.ddstat h d a) (fun s i => operandIf (8 ≤ rs64 s i h a)) s
def execDdnode (h : Hdr) (d a : Opnd) (s : State) : Out := ksSend h (.ddnode h d a) goPre s

end Sys2Proof.Machine
end

