-- ==== Sys2Proof/Machine/Launch.lean ====
section
/-! DEFINITION. Launch records, acceptance, LAUNCH, LWAIT and FY.LAUNCH (R227 to R233, R357, R358). -/

namespace Sys2Proof.Machine

/-! ### The record (R227) -/

/-- Field [hi:lo] of a record read as one number. -/
def recBits (v hi lo : Nat) : Nat := v / 2 ^ lo % 2 ^ (hi - lo + 1)

def LRec.slices (r : LRec) : Nat :=
  r.nvec + (if r.copy then 1 else 0) + (if r.mat then 1 else 0) + (if r.decks then 1 else 0)

def parseRec (v : Nat) : LRec where
  entry := BitVec.ofNat 64 v
  args := BitVec.ofNat 64 (recBits v 127 64)
  prio := recBits v 130 128
  regs := 8 * recBits v 135 131
  gang := 2 ^ recBits v 137 136
  nvec := recBits v 144 138
  copy := recBits v 145 145 == 1
  mat := recBits v 146 146 == 1
  decks := recBits v 147 147 == 1
  dk := recBits v 148 148 == 1
  stash := recBits v 169 160
  spant := recBits v 187 176
  cps := recBits v 196 192
  nspans := recBits v 223 200
  mint := recBits v 226 224 + 1
  maxt := recBits v 230 228 + 1
  stag := recBits v 241 232
  npkg := recBits v 246 242 + 1
  preds := [0, 1, 2, 3].map fun k => BitVec.ofNat 64 (recBits v (319 + 64 * k) (256 + 64 * k))

/-- The fields that a generator launch uses too: ranges and zero fields of R227, the gang and Deck rules of R228 (R71). -/
def recOkGen (v : Nat) : Bool :=
  let r := parseRec v
  r.entry.toNat % 4 == 0 && 8 ≤ r.regs && r.regs ≤ 192 && 1 ≤ r.nvec && r.nvec ≤ 64 && r.nvec % r.gang == 0 && r.slices ≤ 64 &&
    !(r.decks && !r.dk) && r.stash ≤ 512 && r.spant ≤ 2048 && 1 ≤ r.cps && r.cps ≤ 16 && 1 ≤ r.nspans &&
    [recBits v 159 149, recBits v 175 170, recBits v 191 188, recBits v 199 197, recBits v 227 227, recBits v 231 231,
      recBits v 255 247, recBits v 959 512].all (· == 0)

/-- The handle word's bits (R229). -/
def hwAcc (w : Nat) : Bool := w / 2 ^ 32 % 2 == 1
def hwDone (w : Nat) : Bool := w / 2 ^ 33 % 2 == 1
def hwFail (w : Nat) : Bool := w / 2 ^ 34 % 2 == 1

/-- The checks of R228; `word` reads a predecessor's handle word. -/
def recOk (s : State) (v : Nat) (word : Nat → Nat) : Bool :=
  let r := parseRec v
  let own := recBits v 1023 960
  recOkGen v && r.mint ≤ r.maxt && r.npkg ≤ s.npkgs && !(hwAcc own && !hwDone own) &&
    (r.preds.filter (· != 0)).all fun p => p.toNat % 8 == 0 && hwAcc (word p.toNat)

/-! ### Acceptance (R229, R231, R233) -/

/-- A cluster holds no resident crew. -/
def clusterFree (s : State) (cl : Nat) : Bool :=
  !s.crews.any fun e => !e.2.ended && coreCluster e.2.core == cl && (s.ctx e.2.ctx).st != .stopped

def towerFree (s : State) (tw : Nat) : Bool := (List.range 8).any fun k => clusterFree s (8 * tw + k)

/-- The towers a launch receives in one package (R233). -/
def towersIn (s : State) (r : LRec) (pkg tower : Nat) : List Nat :=
  let all := (List.range 8).map (8 * pkg + ·)
  let first := if tower / 8 = pkg then [tower] else []
  let free := all.filter fun t => !first.contains t && towerFree s t
  let some_ := (first ++ free).take r.maxt
  let rest := (all.filter fun t => !some_.contains t).take (r.mint - some_.length)
  some_ ++ rest

def launchTowers (s : State) (r : LRec) (tower : Nat) : List Nat :=
  (List.range r.npkg).flatMap fun k => towersIn s r ((tower / 8 + k) % s.npkgs) tower

/-- The next LID of a tower. -/
def lidOf (s : State) (tower : Nat) : Word := BitVec.ofNat 32 (tower % 8 * 2 ^ 28 + (s.tower tower).lidCount)

/-- A launch is accepted: its LID, its handle word at its home, its towers, its pending place. One of a context that has been stopped for good
is abandoned at once (R229, R246). -/
def acceptLaunch (s : State) (ctx tower va v : Nat) : State × DWord :=
  let r := parseRec v
  let lid := lidOf s tower
  let word := BitVec.ofNat 64 (lid.toNat + 2 ^ 32)
  let l : Launch := {
    ctx := ctx
    lid := lid
    hw := some (BitVec.ofNat 64 (va + 120))
    tower := tower
    lrec := r
    ready := false
    towers := launchTowers s r tower
    gone := []
    drawn := 0
    back := []
    waiting := []
    spans := []
    steps := 0
    done := false
    failed := (s.ctx ctx).st == .dead
    gen := none }
  let s1 := { s.fresh with launches := Tbl.put s.launches s.nextId l }
  let s2 := s1.updTower tower fun t =>
    { t with lidCount := if t.lidCount = 2 ^ 28 - 1 then 1 else t.lidCount + 1, pending := t.pending ++ [s.nextId] }
  (putHome s2 ctx (va + 120) 8 word.toNat, word)

def pendingFull (s : State) (tower : Nat) : Bool := 64 ≤ (s.tower tower).pending.length

/-! ### LAUNCH and LWAIT (R357, R358) -/

/-- Bytes as a slice reads them with one relaxed load: zero in a non-resident page (R58), open in a poisoned line (R245). -/
def sliceLoad (s : State) (i va n : Nat) : Nat :=
  if clearedFor s (s.coreOf i) (s.ctxOf i) (s.sl i).answers va .read == .nonResident then 0
  else if (anyPoison s (s.ctxOf i) va n).isSome then Config.freeNat s.freeIx % 256 ^ n
  else bytesNat (readAs s (s.ctxOf i) (s.sl i).answers va n)

/-- The record at an address. -/
def recAt (s : State) (i va : Nat) : Nat := sliceLoad s i va 128

/-- A poisoned line that a slice's load met is reported deferred-precise (R245). -/
def poisonMet (pre s : State) (i va n : Nat) : State :=
  let x := pre.sl i
  if clearedFor pre (pre.coreOf i) (pre.ctxOf i) x.answers va .read != .nonResident && (anyPoison pre (pre.ctxOf i) va n).isSome then
    deferTrap s i ⟨cMemError, x.pc, BitVec.ofNat 64 (va / 256 * 256), gangMask (pre.crewOf i) x x.active, 0, true, false⟩
  else s

def predRanges (v : Nat) : List (Nat × Nat) :=
  (((parseRec v).preds.filter fun p => p != 0 && p.toNat % 8 == 0).map fun p => (p.toNat, 8))

def sliceWord (s : State) (i va : Nat) : Nat := sliceLoad s i va 8

/-- The checks of R228 that read no predecessor: a handle word that shows ACC stands for each. -/
def recFieldsOk (s : State) (v : Nat) : Bool := recOk s v fun _ => 2 ^ 32

/-- Before the record is read: every earlier access of the slice has been performed, and its crew's mapped sectors (R223, R357). -/
def recordPre (h : Hdr) (a : Opnd) (s : State) (i : Nat) : Pre :=
  let va := rs64 s i h a
  if va % 128 != 0 then alignTrap va
  else (((accessPre s i).next (relPre s i true)).next ((standRead s (sliceParty s i) true [(va, 128)]).pre s i)).next (l2wpPre s i)

/-- Before the predecessors' words are read. -/
def predsPre (h : Hdr) (a : Opnd) (s : State) (i : Nat) : Pre :=
  let v := recAt s i (rs64 s i h a)
  if !recFieldsOk s v then operandTrap else (standRead s (sliceParty s i) true (predRanges v)).pre s i

/-- What the words decide, and the room that is left (R231). -/
def acceptPre (h : Hdr) (a : Opnd) (s : State) (i : Nat) : Pre :=
  if !recOk s (recAt s i (rs64 s i h a)) (sliceWord s i) then operandTrap
  else if pendingFull s (coreTower (s.coreOf i)) then .park .launchRoom else .go

/-- The record first, then its fields, then the predecessors' words (R228, R241). -/
def launchPre (h : Hdr) (a : Opnd) (s : State) (i : Nat) : Pre :=
  ((recordPre h a s i).next (predsPre h a s i)).next (acceptPre h a s i)

/-- What a slice's reads of ranges do to the caches (R36, R56). -/
def sliceReads (s : State) (i : Nat) (rs : List (Nat × Nat)) : State :=
  rs.foldl (fun s e => engRead s (s.coreOf i) (crewClass s (s.sl i).crew) (s.ctxOf i) 0 e.1 e.2) (partyUse s (sliceParty s i) .read rs)

/-- The reads of LAUNCH's record, and of its predecessors' words, where the instruction then traps or parks (R36, R245). -/
def launchReads (h : Hdr) (a : Opnd) (s : State) : State :=
  let look := fun (rs : State → Nat → List (Nat × Nat)) (after : State → Nat → Pre) (pre : State) (s : State) (i : Nat) =>
    (rs pre i).foldl (fun t e => if ((pre.cur.any fun j => (after pre j).trap?.isSome) : Bool) then poisonMet pre t i e.1 e.2 else t)
      (sliceReads s i (rs pre i))
  let after := fun s i => (predsPre h a s i).next (acceptPre h a s i)
  let s1 := unitLooks h (recordPre h a) after (look (fun s i => [(rs64 s i h a, 128)]) after s) s
  unitLooks h (fun s i => (recordPre h a s i).next (predsPre h a s i)) (acceptPre h a)
    (look (fun s i => predRanges (recAt s i (rs64 s i h a))) (acceptPre h a) s1) s1

def execLaunch (h : Hdr) (d a : Opnd) (s : State) : Out :=
  runUnit h (onceMeaning h anyRole (launchPre h a)
    fun pre s i =>
      let va := rs64 pre i h a
      let v := recAt pre i va
      let tower := coreTower (s.coreOf i)
      if recOk s v (sliceWord pre i) && !((s.cur.takeWhile (· != i)).any fun j => rs64 pre j h a == va) && !pendingFull s tower then
        let rs := (va, 128) :: predRanges v
        let s1 := rs.foldl (fun s e => poisonMet pre s i e.1 e.2) (sliceReads s i rs)
        let r := acceptLaunch (injectUnit s1 (s.coreOf i) (crewClass s (s.sl i).crew) 2 tower none) (s.ctxOf i) tower va v
        r.1.updSl i fun x => standAt Wait.now (wr .u64 d 0 r.2 x)
      else s.updSl i (issueAgain .launchRoom)) (launchReads h a s)

/-- What LWAIT needs before it reads the word: clearance and the fill, its own earlier stores to it (R209), its STRONG accesses (R219). -/
def handlePre (h : Hdr) (a : Opnd) (s : State) (i : Nat) : Pre :=
  let va := rs64 s i h a
  let as : List LaneAcc := [⟨0, va, 8⟩]
  if va % 8 != 0 then alignTrap va
  else ((((standRead s (sliceParty s i) false [(va, 8)]).pre s i).next (ownPre s i as)).next (strongPre s i as)).next (l2wpPre s i)

/-- What the word decides: ACC is checked at the first read only (R358). -/
def handleLook (h : Hdr) (a : Opnd) (s : State) (i : Nat) : Pre :=
  let va := rs64 s i h a
  let w := sliceWord s i va
  if (s.sl i).begun.isNone && !hwAcc w then operandTrap
  else if hwDone w then .go else .park (.handle (BitVec.ofNat 64 va))

def lwaitPre (h : Hdr) (a : Opnd) (s : State) (i : Nat) : Pre := (handlePre h a s i).next (handleLook h a s i)

/-- The reads that LWAIT of the unit makes where it then parks or traps (R36, R245). -/
def lwaitReads (h : Hdr) (a : Opnd) (s : State) : State :=
  unitLooks h (handlePre h a) (handleLook h a)
    (fun t i =>
      let t1 := sliceReads t i [(rs64 t i h a, 8)]
      if s.cur.any fun j => (handleLook h a s j).trap?.isSome then poisonMet s t1 i (rs64 s i h a) 8 else t1) s

def execLwait (h : Hdr) (d a : Opnd) (s : State) : Out :=
  runUnit h (onceMeaning h anyRole (lwaitPre h a)
    fun pre s i =>
      let va := rs64 pre i h a
      let s1 := (sliceReads s i [(va, 8)]).updSl i fun x => standAt Wait.now (wr .u64 d 0 (BitVec.ofNat 64 (sliceWord pre i va)) x)
      poisonMet pre s1 i va 8) (lwaitReads h a s)

/-! ### FY.LAUNCH (R230) -/

def osTower (oc : Nat) : Nat := oc / 2
def OsCore.init : OsCore := ⟨[], 0⟩
def osOf (s : State) (oc : Nat) : OsCore := Tbl.findD s.osCores oc OsCore.init
def OsCore.reg (c : OsCore) (n : Nat) : DWord := if n = 0 then 0 else Tbl.findD c.x n 0
def OsCore.setReg (c : OsCore) (n : Nat) (v : DWord) : OsCore := if n = 0 then c else { c with x := Tbl.put c.x n v }

/-- How a page stands for a read under a context's translation, with no slice to ask for it (R54, R71). -/
inductive OsRead where
  | ok
  | nonResident
  | cause (code : Nat)
  /-- a procedural block that is not filled: the read is presented to its home, and the OS core waits (R69) -/
  | fill
  deriving DecidableEq, Repr

def osPage (s : State) (ctx g : Nat) : OsRead :=
  if !userAddr s g then .cause cProtRead
  else match freshWalk s ctx g .read with
    | .nonResident => .nonResident
    | .bad => .cause cProtRead
    | .hole => .cause cProtRead
    | .leaf _ _ p =>
      if pteProc p then
        match blockOf (s.ctx ctx) g with
        | none => .cause cProtRead
        | some (_, _, b) =>
          let x := (s.ctx ctx).block b
          if x.st == .filled then .ok else if x.st == .failed then .cause cGenFault else .fill
      else if leafAllows .read p then .ok else .cause cProtRead

/-- A leaf that touches a hole is logged (R33). -/
def logHoles (s : State) (ctx : Nat) (gs : List Nat) : State :=
  gs.foldl (fun s g => if userAddr s g && walkTable s ctx g == .hole then s.log "hole" [ctx, g] else s) s

/-- The cause that keeps ranges from being read. -/
def osCause (s : State) (ctx : Nat) (rs : List (Nat × Nat)) : Option Nat :=
  (rs.flatMap pagesOf).findSome? fun g => match osPage s ctx g with | .cause c => some c | _ => none

/-- The pages of ranges whose blocks are still to be filled. -/
def osFills (s : State) (ctx : Nat) (rs : List (Nat × Nat)) : List Nat :=
  oncePerBlock s ctx ((rs.flatMap pagesOf).filter fun g => osPage s ctx g == .fill)

/-- The OS core's reads of procedural blocks go to their homes, each once. -/
def osPresent (s : State) (oc ctx : Nat) (gs : List Nat) : State :=
  gs.foldl (fun s g =>
    if s.fillReqs.any fun e => e.2.who == .os oc && e.2.ctx == ctx && blockOrSelf s ctx e.2.va == blockOrSelf s ctx g then s
    else { s.fresh with fillReqs := Tbl.put s.fillReqs s.nextId (fillReq s (.os oc) 0 ctx g false) }) s

/-- A read of pages that the owner has cleared: A is set, the home holds the lines (R36, R53). -/
def osReads (s : State) (ctx : Nat) (rs : List (Nat × Nat)) : State :=
  rs.foldl (fun s e => readHome ((pagesOf e).foldl (fun s g =>
    if osPage s ctx g == .ok then setAD (tlbFill s ctx g) ctx g (.grant 0 0 .read false) else s) s) ctx e.1 e.2) s

/-- A predecessor's handle word; that of a non-resident page reads as zero (R58). -/
def osWordAt (s : State) (ctx p : Nat) : Nat := if osPage s ctx p == .nonResident then 0 else curLE s ctx p 8

/-- A page of ranges lies at a vacant index. -/
def osVacant (s : State) (rs : List (Nat × Nat)) : Option Nat := (rs.flatMap pagesOf).find? fun g => userAddr s g && vacantAt s g

/-- What rd receives and the state after: acceptance or a trap code; none while the 64 places are taken, a block is being filled or an index is
vacant, when the OS core stalls (R69, R231, R372). -/
def osLaunch (s : State) (oc : Nat) (va : Nat) (cid : DWord) : Option DWord × State :=
  let bad := fun (s : State) (code : Nat) => (some (BitVec.ofNat 64 (2 ^ 63 + code)), s)
  let ctx := cid.toNat
  if 256 ≤ ctx || !s.hasCtx ctx then bad s cReservedOperand
  else if va % 128 != 0 then bad s cDataAlign
  else if let some g := osVacant s [(va, 128)] then (none, parkVacant s (.os oc) (osTower oc / 8) g)
  else if (pagesOf (va, 128)).any fun g => osPage s ctx g == .nonResident then bad s cUnmapped
  else match osCause s ctx [(va, 128)] with
    | some code => bad (logHoles s ctx (pagesOf (va, 128))) code
    | none =>
      if !(osFills s ctx [(va, 128)]).isEmpty then (none, osPresent s oc ctx (osFills s ctx [(va, 128)]))
      else
        let v := bytesNat (curBytes s ctx va 128)
        let s1 := osReads s ctx [(va, 128)]
        if !recFieldsOk s v then bad s1 cReservedOperand
        else if let some g := osVacant s (predRanges v) then (none, parkVacant s1 (.os oc) (osTower oc / 8) g)
        else match osCause s ctx (predRanges v) with
          | some code => bad (logHoles s1 ctx ((predRanges v).flatMap pagesOf)) code
          | none =>
            if !(osFills s ctx (predRanges v)).isEmpty then (none, osPresent s1 oc ctx (osFills s ctx (predRanges v)))
            else
              let s2 := osReads s1 ctx (predRanges v)
              if !recOk s v (osWordAt s ctx) then bad s2 cReservedOperand
              else if pendingFull s (osTower oc) then (none, s2)
              else
                let r := acceptLaunch s2 ctx (osTower oc) va v
                (some r.2, r.1)

def execFyLaunch (rd rs1 rs2 : Nat) (s : State) : Out :=
  match s.curOs with
  | none => .fault .noIssuer
  | some oc =>
    let c := osOf s oc
    match osLaunch s oc (c.reg rs1).toNat (c.reg rs2) with
    | (none, s1) => .next { s1 with curOs := none }
    | (some v, s1) => .next { s1 with curOs := none, osCores := Tbl.put s1.osCores oc { c.setReg rd v with pc := c.pc + 4 } }

end Sys2Proof.Machine
end

