-- ==== Sys2Proof/Machine/Place.lean ====
section
/-! DEFINITION. Placing a span on a cluster, starting its crews, and ending a crew (R92, R93, R118, R133, R138, R154, R234, R239, R307). -/

namespace Sys2Proof.Machine

/-! ### Room (R234) -/

/-- The crews that hold resources of a core: those of a saved context do not (R250). -/
def crewsOn (s : State) (core : Nat) : List Crew :=
  (s.crews.filter fun e => !e.2.ended && e.2.core == core && (s.ctx e.2.ctx).st != .stopped).map Prod.snd

def LRec.free (r : LRec) (s : State) (core : Nat) : Bool :=
  let cs := crewsOn s core
  ((cs.map fun c => c.slices.length).foldl (· + ·) r.slices) ≤ 64 && ((cs.map Crew.tiles).foldl (· + ·) r.stash) ≤ 512 &&
    !(r.dk && cs.any Crew.hasDeck)

/-- The cores of a cluster with room for a crew, ascending. -/
def coresFor (s : State) (r : LRec) (cl : Nat) : List Nat := ((List.range 16).map (16 * cl + ·)).filter (r.free s)

/-- Scratch held on a cluster: first tile and tiles. -/
def scratchHeld (s : State) (cl : Nat) : List (Nat × Nat) :=
  (s.spans.filter fun e => e.2.cluster == cl && e.2.count != 0 && spanHere s e.2).map fun e => (e.2.base, e.2.count)

/-- The free scratch tiles from a base: up to the next span held or the end of the 2048. -/
def scratchGap (held : List (Nat × Nat)) (b : Nat) : Nat :=
  if held.any fun e => e.1 ≤ b && b < e.1 + e.2 then 0
  else ((held.filter fun e => b ≤ e.1).map Prod.fst).foldl min 2048 - b

/-- The lowest base with `n` contiguous free tiles. -/
def scratchBase (s : State) (cl n : Nat) : Option Nat :=
  let held := scratchHeld s cl
  let fits := (0 :: held.map fun e => e.1 + e.2).filter fun b => n ≤ scratchGap held b
  match fits with
  | [] => none
  | b :: bs => some (bs.foldl min b)

/-- The largest run of free scratch tiles. -/
def scratchRoom (s : State) (cl : Nat) : Nat :=
  let held := scratchHeld s cl
  ((0 :: held.map fun e => e.1 + e.2).map (scratchGap held)).foldl max 0

/-- Spans may be placed on a tower: its package stays in the domain (R372), and no re-plan is overdue or running (R377). -/
def towerOpen (s : State) (tw : Nat) : Bool :=
  let p := s.pkg (tw / 8)
  let r := (s.tower tw).replan
  !p.leaving && !p.vacant && !r.starved && !r.active

/-- A span fits a cluster: its cores and its scratch base. -/
def fitSpan (s : State) (r : LRec) (cl : Nat) : Option (List Nat × Nat) :=
  let cs := coresFor s r cl
  if cs.length < r.cps || !towerOpen s (cl / 8) then none else (scratchBase s cl r.spant).map fun b => (cs.take r.cps, b)

/-- How far a cluster is from fitting: cores short, then scratch tiles short (R232). -/
def shortOf (s : State) (r : LRec) (cl : Nat) : Nat × Nat := (r.cps - (coresFor s r cl).length, r.spant - scratchRoom s cl)

/-- The cluster of a tower nearest to fitting; ties go to the lowest. -/
def nearest (s : State) (r : LRec) (tw : Nat) : Nat :=
  let key := fun (cl : Nat) => let k := shortOf s r cl; 4096 * k.1 + k.2
  ([1, 2, 3, 4, 5, 6, 7].map (8 * tw + ·)).foldl (fun b c => if key c < key b then c else b) (8 * tw)

/-! ### Starting -/

/-- The roles of a crew's slices in order of index (R138). -/
def LRec.roles (r : LRec) : List Role :=
  List.replicate r.nvec .vec ++ (if r.copy then [Role.copy] else []) ++ (if r.mat then [Role.mat] else []) ++
    (if r.decks then [Role.deck] else [])

/-- The phases already completed where a slice starts (R326): each of its peers has counted toward them. -/
def phasesDone (s : State) (i sc : Nat) : Nat := minOf (((participants s i sc).filter (· != i)).map fun j => arrivals (s.sl j) sc)

/-- One slice of a new crew. A generator's slices hold the block and the slot (R71). -/
def addSlice (s : State) (crew ix : Nat) (role : Role) (l : Launch) : State :=
  let i := s.nextId
  let x := Slice.init crew ix role l.lrec.entry
  let y := match l.gen with
    | some g => (x.setS 0 (BitVec.ofNat 64 g.block)).setS 1 (BitVec.ofNat 64 g.slot)
    | none => x
  let s1 := (s.fresh.setSl i { y with steps := l.steps }).updCrew crew fun c => { c with slices := c.slices ++ [i] }
  s1.updSl i fun z => { z with arrived := [1, 2, 3, 4].foldl (fun t sc => Tbl.put t sc (phasesDone s1 i sc)) [] }

/-- One crew of a new span, its resources held and cleared. -/
def addCrew (s : State) (span lid : Nat) (l : Launch) (ix core : Nat) : State :=
  let k := s.nextId
  let r := l.lrec
  let c : Crew := { Crew.none with
    span := span
    launch := lid
    ctx := l.ctx
    core := core
    ix := ix
    tiles := r.stash
    regs := r.regs
    gangw := r.gang
    nvec := r.nvec
    hasDeck := r.dk
    startAt := (s.pkg (corePkg core)).clock
    ended := false
    gen := l.gen }
  let s1 := (s.fresh.setCrew k c).updSpan span fun p => { p with crews := p.crews ++ [k] }
  (r.roles.zipIdx).foldl (fun s e => addSlice s k e.2 e.1 l) s1

/-- The span starts on a cluster that it fits (R234). -/
def placeSpan (s : State) (lid : Nat) (l : Launch) (ix cl : Nat) (fit : List Nat × Nat) : State :=
  let k := s.nextId
  let s1 := s.fresh.setSpan k ⟨lid, ix, cl, fit.2, l.lrec.spant, [], []⟩
  let s2 := (fit.1.zipIdx).foldl (fun s e => addCrew s k lid l e.2 e.1) s1
  s2.updLaunch lid fun l => { l with spans := l.spans ++ [k] }

/-- The ways that the span's scratch needs are not all scratch yet. -/
def waysShort (s : State) (cl : Nat) (top : Nat) : Option Nat :=
  if (s.cluster cl).ways < coverCode top then some (coverCode top) else none

/-- A span that fits: placed, or its cluster's ways are raised first by the scheduler (R92, R234). -/
def tryPlace (s : State) (lid : Nat) (l : Launch) (ix cl : Nat) (fit : List Nat × Nat) : State × Bool :=
  if (s.cluster cl).raising.isSome then (s, false)
  else
    match (if l.lrec.spant = 0 then none else waysShort s cl (fit.2 + l.lrec.spant)) with
    | some code => (setWays s cl code 0, false)
    | none => (placeSpan s lid l ix cl fit, true)

/-! ### Crew start (R239) -/

/-- The issue units of a crew: each gang of VEC slices, each singleton. -/
def unitsOf (s : State) (crew : Nat) : List (List Nat) :=
  let c := s.crew crew
  let vec := (List.range (c.nvec / c.gangw)).map fun g => (c.slices.drop (g * c.gangw)).take c.gangw
  vec ++ (c.slices.drop c.nvec).map fun i => [i]

/-- A unit is bound to the slot with the fewest units, ties to the lowest. -/
def bindUnit (c : Core) (u : List Nat) : Core :=
  let n := fun (k : Nat) => (c.slots.getD k Slot.init).units.length
  let best := [1, 2, 3].foldl (fun b k => if n k < n b then k else b) 0
  { c with slots := (c.slots.zipIdx).map fun e => if e.2 = best then { e.1 with units := e.1.units ++ [u] } else e.1 }

/-- Crew 0 of a crew's span, or the crew itself, has started. -/
def crewDue (s : State) (k : Nat) : Bool :=
  let c := s.crew k
  ctxRuns s c.ctx && c.ix != 0 && (s.span c.span).crews.any fun j => (s.crew j).ix == 0 && (s.crew j).started

/-- The other crews of the span start c·STAG clocks after crew 0 (R234). -/
def setStarts (s : State) (k now : Nat) : State :=
  let c := s.crew k
  let stag := ((Tbl.find s.launches c.launch).map fun l => l.lrec.stag).getD 0
  if c.ix = 0 then
    (s.span c.span).crews.foldl (fun s j => if j = k then s else s.updCrew j fun o => { o with startAt := now + o.ix * stag }) s
  else s

/-- The clock of a crew's start has come, crew 0 being the first, and its context runs. The core's cached code of the context goes (R253). -/
def crewStart (s : State) (k : Nat) : State :=
  let c := s.crew k
  let now := (s.pkg (corePkg c.core)).clock
  if c.started || c.ended || now < c.startAt || !ctxRuns s c.ctx || !(c.ix = 0 || crewDue s k) then s
  else
    let s1 := (setStarts s k now).updCrew k fun c => { c with started := true }
    let s2 := { s1 with slices := s1.slices.map fun e => (e.1, if e.2.crew = k then { e.2 with since := some now } else e.2) }
    (unitsOf s2 k).foldl (fun s u => s.updCore c.core fun q => bindUnit q u) (s2.updCore c.core fun q => dropCode q c.ctx)

def execCrewStart (crew : Nat) (s : State) : Out := .next (crewStart s crew)

/-! ### Crew end (R127, R307) -/

/-- What a slice has issued is performed: its stores reach their homes and targets (R226). -/
def drainAccs (s : State) (i : Nat) : State :=
  (s.sl i).accs.foldl (fun s e =>
    (List.range e.2.pieces.length).foldl (fun s p => if e.2.remote then remoteAccess s i e.1 p else performPiece s i e.1 p) s) s

/-- The last winner of a slot whose slice leaves is the slice before it in the slot's order. -/
def lastLeft (t : Slot) (gone : List Nat) : Nat :=
  if gone.contains t.last then
    (((t.units.flatMap id).takeWhile (· != t.last)).filter fun i => !gone.contains i).getLast?.getD 0
  else t.last

/-- The units of a crew leave the slots of its core. -/
def unbind (s : State) (crew : Nat) : State :=
  let c := s.crew crew
  let mine := fun (u : List Nat) => u.any c.slices.contains
  let ids := c.slices.flatMap fun i => (s.sl i).outst.map Prod.fst
  s.updCore c.core fun q => { q with
    slots := q.slots.map fun t => { t with
      units := t.units.filter fun u => !mine u
      last := lastLeft t c.slices
      holder := if mine t.holder then [] else t.holder
      len := if mine t.holder then 0 else t.len
      sfu := t.sfu.filter fun k => !ids.contains k }
    loops := q.loops.filter fun g => g.crew != crew }

/-- The span's scratch, groups and ways are given back (R92, R99). -/
def endSpan (s : State) (k : Nat) : State :=
  let p := s.span k
  let s1 : State := { s with spans := Tbl.del s.spans k, scratch := Mem.clear s.scratch (k * 2 ^ 23) (2 ^ 23) }
  let free := fun (g : Group) => if g.span = k ∧ g.drain = 0 then { g with mask := 0 } else g
  let s2 := s1.updCluster p.cluster fun c => { c with groups := c.groups.map free }
  let code := floorCode s2 p.cluster k
  let s3 := if p.count = 0 then s2
    else if (s2.cluster p.cluster).raising.isSome then s2.updCluster p.cluster fun c => { c with lower := true }
    else if (s2.cluster p.cluster).ways ≤ code then s2 else setWays s2 p.cluster code 0
  s3.updLaunch p.launch fun l => { l with spans := l.spans.filter (· != k), done := l.done || l.gen.isSome }

/-- A crew ends: its accesses are performed, its mapped tiles go home, its chains are killed, its resources are released. -/
def endCrew (s : State) (k : Nat) : State :=
  let c := s.crew k
  if c.ended then s
  else
    let s1 := c.slices.foldl drainAccs s
    let s2 := flushMapped s1 k fun _ => true
    let s3 := [0, 1, 2, 3].foldl (fun s ch => chainKill s k ch) s2
    let s4 := unbind (c.slices.foldl dropReqs s3) k
    let gone := fun (x : Slice) => { x with
      live := 0, active := 0, accs := [], ready := [], outst := [], queries := [], deferred := [], taking := none, answers := [], fetch := [],
      park := .run }
    let slices := s4.slices.map fun (e : Nat × Slice) => (e.1, if e.2.crew = k then gone e.2 else e.2)
    let s5 : State := { s4 with
      slices := slices
      mcReqs := s4.mcReqs.filter fun e => e.2.crew != k
      stash := Mem.clear s4.stash (k * 2 ^ 19) (2 ^ 19) }
    let s6 := s5.updCrew k fun c => { c with ended := true, tags := [], maps := [], deck := { c.deck with queue := [] } }
    if (s6.span c.span).crews.all fun j => (s6.crew j).ended then endSpan s6 c.span else s6

/-- Every slice has exited and the crew's Girder and Deck queues have drained (R307). -/
def crewOver (s : State) (k : Nat) : Bool :=
  let c := s.crew k
  c.started && !c.ended && c.slices.all (fun i => (s.sl i).live == 0 && (s.sl i).accs.isEmpty && (s.sl i).taking.isNone) &&
    !((s.core c.core).loops.any fun g => g.crew == k) && c.deck.queue.isEmpty

end Sys2Proof.Machine
end

