-- ==== Sys2Proof/Machine/Procedural.lean ====
section
/-! DEFINITION. Procedural ranges: fills, generators, eviction, failure and reset (R64 to R77, R354 to R356). -/

namespace Sys2Proof.Machine

/-! ### Counters (R64, R65, R384) -/

def statLaunches : Nat := 32
def statMerges : Nat := 36
def statRetries : Nat := 40
def statEvictions : Nat := 44
def statFails : Nat := 48
def statResets : Nat := 52

/-- A PGSTAT counter's new value at its home; an update that meets a fault is dropped and logged. -/
def statPut (s : State) (ctx desc off : Nat) (f : Nat → Nat) : State :=
  let va := desc + off
  match walk s ctx va with
  | .leaf _ _ p =>
    if leafAllows .write p && !pteProc p then putHome s ctx va 4 (min (f (curLE s ctx va 4)) (2 ^ 32 - 1))
    else s.log "pgstat" [ctx, va, cProtWrite]
  | _ => s.log "pgstat" [ctx, va, cUnmapped]

def statAdd (s : State) (ctx desc off n : Nat) : State := statPut s ctx desc off (· + n)

/-! ### Frames (R68) -/

def updRange (s : State) (ctx slot : Nat) (f : PRange → PRange) : State :=
  s.updCtx ctx fun c => { c with ranges := Tbl.upd c.ranges slot f }

def poolOff (tw bsz : Nat) : Nat := 16 * (tw % 8) + if bsz = 2 ^ 16 then 8 else 0

/-- A block's frame returns to its pool. -/
def freeFrame (s : State) (ctx slot : Nat) (r : PRange) (b frame : Nat) : State :=
  let tw := vaTower b
  updRange (pushPool s ctx tw (s.ctx ctx).procPool (poolOff tw r.bsz) frame) ctx slot fun r => { r with frames := r.frames - 1 }

/-- A page of its own that lies in a block's span: an ordinary leaf, whose data is none of the block's (R67). -/
def foreign (s : State) (ctx va : Nat) : Bool := match walkTable s ctx va with | .leaf _ _ p => !pteProc p | _ => false

/-- Every cached line of a block goes, without write-back (R75). -/
def discardBlock (s : State) (ctx b bsz : Nat) : State :=
  (List.range (bsz / 256)).foldl (fun s k => if foreign s ctx (b + 256 * k) then s else discardLine s ctx (b / 256 + k)) s

/-! ### Answers to requesters -/

def giveAnswer (s : State) (w : Asker) (a : Answer) : State :=
  match w with
  | .slice i => s.updSl i fun x => { x with answers := x.answers ++ [a] }
  | .fetch i => s.updSl i fun x => { x with fetch := x.fetch ++ [a] }
  | .chain c ch => updChain s c ch fun e => { e with answers := e.answers ++ [a] }
  | .os _ => s
  | .remote i k p => remoteAnswer s i k p a

/-- A parked request is over. -/
def answerFill (s : State) (k : Nat) (a : Answer) : State :=
  match Tbl.find s.fillReqs k with
  | some q => giveAnswer { s with fillReqs := Tbl.del s.fillReqs k } q.who a
  | none => s

/-- The failure record of R76. -/
def failRecord (root depth slot code : Nat) : DWord := BitVec.ofNat 64 (root % 256 + 2 ^ 8 * (depth % 16) + 2 ^ 12 * (slot % 16) + 2 ^ 16 * (code % 2 ^ 16))

/-- Every waiter of a block takes GENFAULT. -/
def failWaiters (s : State) (b bsz : Nat) (ws : List Nat) (frec : DWord) : State :=
  ws.foldl (fun s k => answerFill s k (.failed b bsz cGenFault frec)) s

/-! ### Pins and eviction (R75) -/

/-- A byte range meets a block. -/
def meets (b bsz : Nat) (e : Nat × Nat) : Bool := e.1 < b + bsz && b < e.1 + e.2

/-- An MLOOP pins the block: its read has been answered, or it is queued. -/
def loopPins (s : State) (ctx b bsz : Nat) : Bool :=
  s.slices.any (fun e => s.ctxOf e.1 == ctx && e.2.answers.any fun a => match a with | .filled c _ true => c == b | _ => false) ||
  s.cores.any fun e => e.2.loops.any fun l => (s.crew l.crew).ctx == ctx && l.par.bmode == 2 &&
    (List.range l.par.steps).any fun k => meets b bsz (stepBVa l k, (stepBytes l.sp l.cls).2)

/-- The generator's identity that a block's fill had. -/
def fillerOf (s : State) (x : PBlock) : Option GenInfo := (x.crew.bind (Tbl.find s.launches)).bind Launch.gen

/-- A generator launch runs: its crew has not ended, or has still to start. -/
def genRuns (s : State) (lid : Nat) : Bool :=
  s.towers.any (fun e => e.2.genQueue.contains lid) || s.crews.any fun e => e.2.launch == lid && !e.2.ended

/-- A generator for whose reads the block was filled still runs. -/
def fillerRuns (s : State) (x : PBlock) : Bool :=
  match fillerOf s x with
  | some g => g.above.any (genRuns s)
  | none => false

def pinned (s : State) (ctx b bsz : Nat) (x : PBlock) : Bool :=
  x.pins.any (fun k => (Tbl.find s.fillReqs k).isSome) || loopPins s ctx b bsz || fillerRuns s x

/-- The reads of a block that its home has answered are performed from its bytes. -/
def serveLoads (s : State) (ctx b bsz : Nat) : State :=
  let ids := (s.slices.filter fun e => s.ctxOf e.1 == ctx).map Prod.fst
  ids.foldl (fun s i =>
    (s.sl i).accs.foldl (fun s e =>
      if e.2.isLoad && !e.2.remote then
        (e.2.pieces.zipIdx).foldl (fun s z => if !z.1.done && meets b bsz (z.1.va, z.1.n) && !foreign s ctx z.1.va then performPiece s i e.1 z.2 else s) s
      else s) s) s

/-- One chain's entries in flight that read the block. -/
def serveChain (s : State) (crew ch b bsz : Nat) : State :=
  (chainOf s crew ch).flight.foldl (fun s f =>
    if f.2.rds.any fun r => r.1 == 0 && meets b bsz (r.2.1, r.2.2 - r.2.1) then
      (List.range f.2.todo.length).foldl (fun s _ =>
        match Tbl.find (chainOf s crew ch).flight f.1 with
        | some g =>
          match g.todo with
          | q :: _ => if entCode g.word = 4 then mcastSend s crew ch f.1 else pieceRun s crew ch f.1 0 g q
          | [] => s
        | none => s) s
    else s) s

def serveChains (s : State) (ctx b bsz : Nat) : State :=
  let crews := (s.crews.filter fun e => e.2.ctx == ctx && !e.2.ended).map Prod.fst
  crews.foldl (fun s k => [0, 1, 2, 3].foldl (fun s ch => serveChain s k ch b bsz) s) s

/-- Multicast reads under way take the block's bytes along. -/
def serveMcast (s : State) (ctx b bsz : Nat) : State :=
  let take := fun (r : McReq) =>
    if r.ctx = ctx ∧ b ≤ r.va ∧ r.va < b + bsz ∧ r.data.isNone then { r with data := some (curBytes s ctx r.va 128) } else r
  { s with
    mcReqs := s.mcReqs.map fun e => (e.1, take e.2)
    mcSets := s.mcSets.map fun e => (e.1, { e.2 with reqs := e.2.reqs.map take }) }

/-- A slice's answered read that has not issued yet is ordered before the eviction or the reset: it keeps the block's bytes (R75, R77). -/
def keepAnswers (b bsz : Nat) (kept : List Answer) (as : List Answer) : List Answer :=
  as.flatMap fun a =>
    match a with
    | .filled c n pin => if c = b ∧ n = bsz then kept else [.filled c n pin]
    | _ => [a]

/-- The bytes of a range that are not zero. -/
def bytesOf (s : State) (ctx b n : Nat) : Mem :=
  (List.range n).foldl (fun m k => m ++ (let v := curByte s ctx (b + k); if v = 0 then [] else [(b + k, v)])) []

/-- The block's own 4 KiB pages with their bytes. -/
def keptPages (s : State) (ctx b bsz : Nat) : List Answer :=
  (List.range (bsz / 4096)).filterMap fun k =>
    let g := b + 4096 * k
    if foreign s ctx g then none else some (.kept g 4096 (bytesOf s ctx g 4096))

/-- A FILLED block becomes UNFILLED and every copy goes without write-back; its frame is left to the caller (R75, R77). -/
def emptyBlock (s : State) (ctx b bsz : Nat) : State :=
  let s1 := serveMcast (serveChains (serveLoads s ctx b bsz) ctx b bsz) ctx b bsz
  let kept := keptPages s1 ctx b bsz
  let answers := fun (e : Nat × Slice) =>
    if s1.ctxOf e.1 = ctx then (e.1, { e.2 with answers := keepAnswers b bsz kept e.2.answers }) else e
  let emptied := fun (c : Chain) => { c with answers := keepAnswers b bsz kept c.answers }
  let chains := fun (e : Nat × Crew) => if e.2.ctx = ctx then (e.1, { e.2 with chains := e.2.chains.map emptied }) else e
  let s2 : State := { s1 with slices := s1.slices.map answers, crews := s1.crews.map chains }
  discardBlock (s2.updCtx ctx fun c => { c with blocks := Tbl.del c.blocks b }) ctx b bsz

/-- The victim: the evictable block whose last read is oldest, then of the lowest base. -/
def victim (s : State) (ctx : Nat) (r : PRange) : Option (Nat × PBlock) :=
  let cand := (s.ctx ctx).blocks.filter fun e =>
    r.base ≤ e.1 && e.1 < r.base + r.size && e.2.st == .filled && !pinned s ctx e.1 r.bsz e.2
  cand.foldl (fun best e =>
    match best with
    | none => some e
    | some o => if e.2.age < o.2.age then some e else some o) none

/-- A frame for a block that starts to fill (R68). -/
def takeFrame (s : State) (ctx slot tw : Nat) (r : PRange) : Option Nat × State :=
  let popped := if r.frames < r.budget then popPool s ctx tw (s.ctx ctx).procPool (poolOff tw r.bsz) r.bsz else (none, s)
  match popped.1 with
  | some f => (some f, updRange popped.2 ctx slot fun r => { r with frames := r.frames + 1 })
  | none =>
    match victim popped.2 ctx r with
    | some (b, x) => (some x.frame, statAdd (emptyBlock popped.2 ctx b r.bsz) ctx r.desc statEvictions 1)
    | none => (none, popped.2)

/-! ### Starting a fill (R69, R71, R72) -/

/-- Why the record at GENREC starts no generator: the code that LAUNCH would have taken. -/
def genrecCause (s : State) (ctx va : Nat) : Option Nat :=
  if va % 128 != 0 then some cDataAlign
  else if !userAddr s va then some cProtRead
  else match freshWalk s ctx va .read with
    | .nonResident => some cUnmapped
    | .bad => some cProtRead
    | .hole => some cProtRead
    | .leaf _ _ p =>
      if pteProc p || !leafAllows .read p then some cProtRead
      else if recOkGen (bytesNat (curBytes s ctx va 128)) then none else some cReservedOperand

/-- A generator's launch: one span of one crew in the owner tower at priority 7. -/
def genLaunch (ctx tw : Nat) (r : LRec) (g : GenInfo) : Launch where
  ctx := ctx
  lid := 0
  hw := none
  tower := tw
  lrec := { r with prio := 7, cps := 1, nspans := 1, stag := 0, preds := [], mint := 1, maxt := 1, npkg := 1 }
  ready := true
  towers := [tw]
  gone := []
  drawn := 1
  back := []
  waiting := []
  spans := []
  steps := 0
  done := false
  failed := false
  gen := some g

/-- How a read or PREF of an UNFILLED block ends. -/
inductive FillOut where
  | started
  | retry
  | failed (frec : DWord)
  deriving DecidableEq, Repr

def fillStart (s : State) (ctx slot b depth : Nat) (chain above : List Nat) (r : PRange) (waiters : List Nat) : FillOut × State :=
  let tw := vaTower b
  if 64 ≤ (s.tower tw).genQueue.length then (.retry, s)
  else
    match takeFrame s ctx slot tw r with
    | (none, s1) => (.retry, s1)
    | (some f, s1) =>
      match genrecCause s1 ctx r.genrec.toNat with
      | some root =>
        let frec := failRecord root (depth + 1) slot 0
        let s2 := freeFrame (logHoles s1 ctx [r.genrec.toNat]) ctx slot r b f
        (.failed frec, statAdd (setBlock s2 ctx b ⟨.failed, 0, none, frec, 0, [], []⟩) ctx r.desc statFails 1)
      | none =>
        let lid := s1.nextId
        let rec_ := parseRec (bytesNat (curBytes s1 ctx r.genrec.toNat 128))
        let l := genLaunch ctx tw rec_ ⟨b, slot, depth + 1, chain ++ [b], true, above⟩
        let s2 : State := { (readHome s1 ctx r.genrec.toNat 128).fresh with launches := Tbl.put s1.launches lid l }
        let s3 := s2.updTower tw fun t => { t with genQueue := t.genQueue ++ [lid] }
        (.started, statAdd (setBlock s3 ctx b ⟨.filling, f, some lid, 0, 0, waiters, []⟩) ctx r.desc statLaunches 1)

/-- A requester told to retry waits 64 clocks, then twice as long each time up to 4096 (R70). -/
def fillRetry (s : State) (k : Nat) (q : FillReq) (ctx desc : Nat) : State :=
  let d := match q.retry with | some (_, n) => n | none => 64
  let now := (s.pkg (corePkg (askerCore s q.who))).clock
  let s1 := statAdd s ctx desc statRetries 1
  { s1 with fillReqs := Tbl.put s1.fillReqs k { q with retry := some (now + d, min (2 * d) 4096) } }

def listWaiter (s : State) (k : Nat) : State :=
  { s with fillReqs := Tbl.upd s.fillReqs k fun q => { q with listed := true, retry := none } }

/-- The asker's launch. -/
def askerLaunch (s : State) (w : Asker) : Nat :=
  match w with
  | .slice i => (s.crewOf i).launch
  | .fetch i => (s.crewOf i).launch
  | .chain c _ => (s.crew c).launch
  | .os _ => 0
  | .remote i _ _ => (s.crewOf i).launch

/-- A request is on its way: neither in a waiter list nor waiting to be sent again. -/
def FillReq.sent (q : FillReq) : Bool := !q.listed && match q.retry with | some (t, _) => t == 0 | none => true

/-- The read meets the block in its present state (R69). -/
def blockRead (s : State) (k : Nat) (q : FillReq) (slot : Nat) (r : PRange) (b : Nat) : State :=
  let ctx := q.ctx
  let x := (s.ctx ctx).block b
  match x.st with
  | .filled =>
    let now := (s.pkg (vaPkg b)).clock
    answerFill (setBlock s ctx b { x with age := now, pins := x.pins.filter (· != k) }) k (.filled b r.bsz q.pin)
  | .failed => answerFill s k (.failed b r.bsz cGenFault x.frec)
  | .filling =>
    if x.crew == some (askerLaunch s q.who) then answerFill s k (.filled b r.bsz false)
    else if q.chain.contains b then answerFill s k (.failed b r.bsz cGenCycle 0)
    else if x.waiters.length < 64 then
      statAdd (listWaiter (setBlock s ctx b { x with waiters := x.waiters ++ [k] }) k) ctx r.desc statMerges 1
    else fillRetry s k q ctx r.desc
  | .unfilled =>
    if r.limit < q.depth + 1 then answerFill s k (.failed b r.bsz cGenDepth 0)
    else
      match fillStart s ctx slot b q.depth q.chain q.above r [k] with
      | (.started, s1) => listWaiter s1 k
      | (.retry, s1) => fillRetry s1 k q ctx r.desc
      | (.failed frec, s1) => answerFill s1 k (.failed b r.bsz cGenFault frec)

def procBlockRead (s : State) (k : Nat) : State :=
  match Tbl.find s.fillReqs k with
  | none => s
  | some q =>
    if q.pref || !q.sent then s
    else if vacantAt s q.va then parkVacant s (.fill k) (corePkg (askerCore s q.who)) q.va
    else
      match (if isProc s q.ctx q.va then blockOf (s.ctx q.ctx) q.va else none) with
      | none => answerFill s k (.failed (q.va / 4096 * 4096) 4096 cProtRead 0)
      | some (slot, r, b) => blockRead s k q slot r b

def execProcBlockRead (k : Nat) (s : State) : Out := .next (procBlockRead s k)

/-- PREF at an UNFILLED block starts a fill with no waiter; anywhere else it has no effect (R69, R320). -/
def procPref (s : State) (k : Nat) : State :=
  match Tbl.find s.fillReqs k with
  | none => s
  | some q =>
    if !q.pref then s
    else if vacantAt s q.va then parkVacant s (.fill k) (corePkg (askerCore s q.who)) q.va
    else
      let s1 := { s with fillReqs := Tbl.del s.fillReqs k }
      match (if isProc s q.ctx q.va then blockOf (s.ctx q.ctx) q.va else none) with
      | none => s1
      | some (slot, r, b) => if ((s.ctx q.ctx).block b).st == .unfilled then (fillStart s1 q.ctx slot b 0 [] [] r []).2 else s1

def execProcPrefEvent (k : Nat) (s : State) : Out := .next (procPref s k)

/-- A retry's interval is over: the request is sent again (R70). -/
def procRetry (s : State) (k : Nat) : State :=
  match Tbl.find s.fillReqs k with
  | none => s
  | some q =>
    match q.retry with
    | some (t, n) =>
      if t != 0 && t ≤ (s.pkg (corePkg (askerCore s q.who))).clock then
        injectControl { s with fillReqs := Tbl.put s.fillReqs k { q with retry := some (0, n) } } (askerCore s q.who) q.va
      else s
    | none => s

def execProcRetryReissue (k : Nat) (s : State) : Out := .next (procRetry s k)

/-! ### Generators (R71) -/

/-- The oldest queued generator of a running context starts on the lowest cluster that it fits, or has the nearest one kept for it. -/
def generatorLaunch (s : State) (tw : Nat) : State :=
  let t := s.tower tw
  match t.genQueue.find? fun k => ((Tbl.find s.launches k).map fun l => ctxRuns s l.ctx).getD false with
  | none => s
  | some lid =>
    match Tbl.find s.launches lid with
    | none => s
    | some l =>
      let fits := (List.range 8).filterMap fun k => (fitSpan s l.lrec (8 * tw + k)).map fun f => (8 * tw + k, f)
      match fits with
      | [] => s.updTower tw fun t =>
        if t.reserved.any fun e => e.1 == lid then t else { t with reserved := t.reserved ++ [(lid, 0, nearest s l.lrec tw)] }
      | (cl, f) :: _ =>
        let r := tryPlace s lid l 0 cl f
        if r.2 then
          r.1.updTower tw fun t => { t with
            genQueue := t.genQueue.filter (· != lid)
            reserved := t.reserved.filter fun e => e.1 != lid }
        else r.1

def execGeneratorLaunch (tower : Nat) (s : State) : Out := .next (generatorLaunch s tower)

/-- The block that a crew's generator fills, while it is still FILLING by it. -/
def ownFilling (s : State) (k : Nat) : Option (GenInfo × PBlock) :=
  let c := s.crew k
  match c.gen with
  | none => none
  | some g =>
    let x := (s.ctx c.ctx).block g.block
    if x.st == .filling && x.crew == some c.launch then some (g, x) else none

/-- The write window closes (R74): an answer on its way is met again. -/
def closeWindow (s : State) (k : Nat) : State :=
  let shut := fun (as : List Answer) => as.filter fun a => match a with | .grant _ _ _ true => false | _ => true
  let emptied := fun (c : Chain) => { c with answers := shut c.answers }
  let s1 := s.updCrew k fun c => { c with gen := c.gen.map fun g => { g with open_ := false }, chains := c.chains.map emptied }
  let mine := fun (w : Asker) => match w with
    | .slice i => (s.sl i).crew == k
    | .chain c _ => c == k
    | _ => false
  let again := fun (q : ClrReq) => match q.ans with
    | some (.grant _ _ _ true) => if mine q.who then { q with ans := none, walk := false } else q
    | _ => q
  { s1 with
    clrReqs := s1.clrReqs.map fun e => (e.1, again e.2)
    slices := s1.slices.map fun (e : Nat × Slice) => if e.2.crew = k then (e.1, { e.2 with answers := shut e.2.answers }) else e }

def unlistWaiter (s : State) (k : Nat) : State :=
  { s with fillReqs := Tbl.upd s.fillReqs k fun q => { q with listed := false, retry := none } }

/-- PGDONE reaches the home, while its context runs (R248): FILLED, the waiters are sent again and pin the block until each has been (R69, R75). -/
def fillDone (s : State) (i : Nat) : State :=
  let k := (s.sl i).crew
  if !ctxRuns s (s.crew k).ctx then s
  else match (s.sl i).park, (s.crew k).gen with
  | .after .tower w, some _ =>
    let s1 := match ownFilling s k with
      | some (g, x) =>
        let ctx := (s.crew k).ctx
        let now := (s.pkg (vaPkg g.block)).clock
        let s2 := closeWindow (setBlock s ctx g.block { x with st := .filled, age := now, pins := x.waiters, waiters := [] }) k
        x.waiters.foldl unlistWaiter s2
      | none => s
    s1.updSl i fun y => { y with park := .after Wait.now w }
  | _, _ => s

def execFillDoneAtHome (k : Nat) (s : State) : Out := .next (fillDone s k)

/-! ### Failure (R76) -/

/-- The FAILED row of R69. -/
def failBlock (s : State) (ctx : Nat) (g : GenInfo) (x : PBlock) (frec : DWord) : State :=
  match Tbl.find (s.ctx ctx).ranges g.slot with
  | none => s
  | some r =>
    let s1 := discardBlock (setBlock s ctx g.block ⟨.failed, 0, none, frec, 0, [], []⟩) ctx g.block r.bsz
    let s2 := statAdd (freeFrame s1 ctx g.slot r g.block x.frame) ctx r.desc statFails 1
    failWaiters s2 g.block r.bsz x.waiters frec

/-- A generator's crew ends. What its Deck has queued completes first: Deck instructions always do (R191). -/
def endGenerator (s : State) (k : Nat) : State := endCrew (closeWindow (drainDeck s k) k) k

/-- A generator fails: its crew ends, and its block enters FAILED if it is still FILLING (R355). -/
def failGenerator (s : State) (k : Nat) (frec : DWord) : State :=
  let own := ownFilling s k
  let s1 := endGenerator s k
  match own with
  | some (g, x) => failBlock s1 (s.crew k).ctx g x frec
  | none => s1

/-- The record that a generator passes on: that of the failed block which its slice, or a chain of its crew, met (R76). No record is 0. -/
def passedRecord (t : TrapRec) : Option DWord :=
  let frec := (t.info.setWidth 32).setWidth 64
  if (t.code = cGenFault ∨ t.code = cChain ∧ t.defer = true) ∧ frec ≠ 0 then some frec else none

/-- The trap that a generator's slice has taken. -/
def genTrap (s : State) (k : Nat) : Option TrapRec :=
  (s.crew k).slices.findSome? fun i => if (s.sl i).outst.isEmpty then (s.sl i).taking else none

/-- A trap, or an end without PGDONE (R76); the end of its context fails a generator when that has stopped. -/
def generatorFailure (s : State) (k : Nat) : State :=
  let c := s.crew k
  match c.gen with
  | none => s
  | some g =>
    if c.ended || !ctxRuns s c.ctx then s
    else
      match genTrap s k with
      | some t => failGenerator s k ((passedRecord t).getD (failRecord t.code g.depth g.slot 0))
      | none => if crewOver s k && (ownFilling s k).isSome then failGenerator s k (failRecord 0xFE g.depth g.slot 0) else s

def execGeneratorFailure (crew : Nat) (s : State) : Out := .next (generatorFailure s crew)

/-! ### PGREG, PGDONE, PGFAIL, PGRST (R354 to R356) -/

/-- A generator whose block is reset ends, or leaves its queue. -/
def dropGenerator (s : State) (lid : Nat) : State :=
  let crews := (s.crews.filter fun e => e.2.launch == lid && !e.2.ended).map Prod.fst
  let s1 := crews.foldl endGenerator s
  let out := fun (t : Tower) =>
    { t with genQueue := t.genQueue.filter (· != lid), reserved := t.reserved.filter fun e => e.1 != lid }
  { s1 with towers := s1.towers.map fun t => (t.1, out t.2), launches := Tbl.upd s1.launches lid fun l => { l with done := true } }

/-- One block is reset (R77). -/
def resetBlock (s : State) (ctx slot : Nat) (r : PRange) (b : Nat) : State :=
  let x := (s.ctx ctx).block b
  match x.st with
  | .unfilled => s
  | .failed => s.updCtx ctx fun c => { c with blocks := Tbl.del c.blocks b }
  | .filled => freeFrame (emptyBlock s ctx b r.bsz) ctx slot r b x.frame
  | .filling =>
    let depth := ((fillerOf s x).map GenInfo.depth).getD 0
    let s1 := match x.crew with | some lid => dropGenerator s lid | none => s
    let s2 := discardBlock (s1.updCtx ctx fun c => { c with blocks := Tbl.del c.blocks b }) ctx b r.bsz
    failWaiters (freeFrame s2 ctx slot r b x.frame) b r.bsz x.waiters (failRecord 0xFF depth slot 0)

/-- The blocks of a range that are not UNFILLED. -/
def rangeBlocks (s : State) (ctx : Nat) (r : PRange) : List Nat :=
  ((s.ctx ctx).blocks.filter fun e => r.base ≤ e.1 && e.1 < r.base + r.size).map Prod.fst

/-- The named blocks are reset, and RESETS counts every one of them (R356). -/
def resetBlocks (s : State) (ctx slot : Nat) (r : PRange) (blk : Option Nat) : State :=
  match blk with
  | some b => statAdd (resetBlock s ctx slot r b) ctx r.desc statResets 1
  | none => statAdd ((rangeBlocks s ctx r).foldl (fun s b => resetBlock s ctx slot r b) s) ctx r.desc statResets (r.size / r.bsz)

/-- An MLOOP pins the block: it is FILLED, and stays so until the loop is over (R77). -/
def blockHeld (s : State) (ctx : Nat) (r : PRange) (b : Nat) : Bool := ((s.ctx ctx).block b).st == .filled && loopPins s ctx b r.bsz

/-- The blocks of a slot, or the one named. -/
def namedBlocks (s : State) (ctx slot : Nat) (blk : Option Nat) : List (PRange × Nat) :=
  match Tbl.find (s.ctx ctx).ranges slot with
  | none => []
  | some r => ((rangeBlocks s ctx r).filter fun b => blk.isNone || blk == some b).map fun b => (r, b)

/-- An MLOOP pins one of the named blocks. -/
def blocksHeld (s : State) (ctx slot : Nat) (blk : Option Nat) : Bool :=
  (namedBlocks s ctx slot blk).any fun e => blockHeld s ctx e.1 e.2

/-- While a pinned block keeps a reset waiting, the others are reset: the pin delays that block alone (R66, R77). -/
def resetFree (s : State) (ctx slot : Nat) (blk : Option Nat) : State :=
  if blocksHeld s ctx slot blk then
    (namedBlocks s ctx slot blk).foldl (fun s e => if blockHeld s ctx e.1 e.2 then s else resetBlock s ctx slot e.1 e.2) s
  else s

/-- The resets that a unit's instruction makes before it parks for a pinned block: `named` gives the slot and the block. -/
def unitResets (h : Hdr) (pre : State → Nat → Pre) (named : State → Nat → Option (Nat × Option Nat)) (s : State) : State :=
  let on := s.cur.filter fun i => perSlice h (s.sl i) != 0
  if on.any fun i => (pre s i).trap?.isSome then s
  else on.foldl (fun t i => match named s i with
    | some (slot, blk) => resetFree t (t.ctxOf i) slot blk
    | none => t) s

/-- The descriptor of R64. -/
def parseRange (v desc : Nat) : PRange where
  base := recBits v 63 0
  size := recBits v 127 64
  bsz := if recBits v 128 128 = 1 then 2 ^ 16 else 2 ^ 14
  limit := if recBits v 131 129 = 0 then 2 else recBits v 131 129
  budget := recBits v 191 160
  genrec := BitVec.ofNat 64 (recBits v 255 192)
  desc := desc
  frames := 0

/-- R65; a BASE in a package that the domain does not have is no user address (DEDUCED, log 81). -/
def rangeOk (s : State) (ctx slot v desc : Nat) : Bool :=
  let r := parseRange v desc
  (Tbl.find (s.ctx ctx).ranges slot).isNone && recBits v 159 132 == 0 && recBits v 511 448 == 0 && recBits v 131 129 ≤ 4 &&
    r.base % r.bsz == 0 && userAddr s r.base && r.size != 0 && r.size % r.bsz == 0 && r.size / r.bsz ≤ 2 ^ 20 &&
    r.base / 2 ^ 48 == (r.base + r.size - 1) / 2 ^ 48 && 1 ≤ r.budget && r.budget ≤ r.size / r.bsz &&
    !((s.ctx ctx).ranges.any fun e => e.2.base < r.base + r.size && r.base < e.2.base + e.2.size)

def descAt (s : State) (i va : Nat) : Nat := bytesNat (readAs s (s.ctxOf i) (s.sl i).answers va 64)

def pgregPre (h : Hdr) (a b : Opnd) (s : State) (i : Nat) : Pre :=
  let slot := rs32 s i h a
  let va := rs64 s i h b
  if 15 < slot then operandTrap
  else if va % 64 != 0 then alignTrap va
  else
    (((accessPre s i).next ((standRead s (sliceParty s i) false [(va, 64)]).pre s i)).next (l2wpPre s i)).next
      (if rangeOk s (s.ctxOf i) slot (descAt s i va) va then .go else operandTrap)

/-- The slice stands past a reset unless it ended with its crew. -/
def afterReset (s : State) (i : Nat) : State := if (s.crewOf i).ended then s else s.updSl i (standAt Wait.now)

/-- Release of a slot (R66): an MLOOP's pin delays it. -/
def releasePre (s : State) (i slot : Nat) : Pre :=
  if 15 < slot then operandTrap
  else if blocksHeld s (s.ctxOf i) slot none then .park (.blockFree (s.ctxOf i) slot none) else .go

def releaseRange (s : State) (i slot : Nat) : State :=
  let ctx := s.ctxOf i
  match Tbl.find (s.ctx ctx).ranges slot with
  | none => s
  | some r => (resetBlocks s ctx slot r none).updCtx ctx fun c => { c with ranges := Tbl.del c.ranges slot }

def registerRange (s : State) (ctx slot v desc : Nat) : State :=
  let s1 := s.updCtx ctx fun c => { c with ranges := Tbl.put c.ranges slot (parseRange v desc) }
  [statLaunches, statMerges, statRetries, statEvictions, statFails, statResets].foldl
    (fun s off => statPut s ctx desc off fun _ => 0) s1

/-- Registration, or release where B holds 0; of two slices that name one slot the later one issues again and finds it in use. -/
def execPgreg (h : Hdr) (a b : Opnd) (s : State) : Out :=
  let pre := fun s i => if rs64 s i h b = 0 then releasePre s i (rs32 s i h a) else pgregPre h a b s i
  runUnit h (onceMeaning h anyRole pre
    fun pre s i =>
      let slot := rs32 pre i h a
      let va := rs64 pre i h b
      if va = 0 then afterReset (releaseRange s i slot) i
      else if rangeOk s (s.ctxOf i) slot (descAt pre i va) va then
        (registerRange (sliceReads s i [(va, 64)]) (s.ctxOf i) slot (descAt pre i va) va).updSl i (standAt Wait.now)
      else s.updSl i (issueAgain Wait.now)) (unitResets h pre (fun s i => if rs64 s i h b = 0 then some (rs32 s i h a, none) else none) s)

/-- PGREG with descriptor 0 (R66). -/
def execPgregRelease (h : Hdr) (a : Opnd) (s : State) : Out :=
  let pre := fun s i => releasePre s i (rs32 s i h a)
  runUnit h (onceMeaning h anyRole pre fun pre s i => afterReset (releaseRange s i (rs32 pre i h a)) i)
    (unitResets h pre (fun s i => some (rs32 s i h a, none)) s)

/-- PGDONE and PGFAIL belong to generator crews (R355). -/
def chkGen (s : State) (i : Nat) : Option Nat := if (s.crewOf i).gen.isSome then none else some cReservedInstr

/-- PGDONE: every earlier access of the slice is performed, then a fill-state message goes to the block's home (R82, R355). -/
def execPgdone (h : Hdr) (s : State) : Out :=
  runUnit h (onceMeaning h chkGen (fun s i => (accessPre s i).next (relPre s i true)) fun _ s i =>
    let va := ((s.crewOf i).gen.map GenInfo.block).getD 0
    (injectControl s (s.coreOf i) va).updSl i (standAt .tower)) s

def execPgfail (h : Hdr) (a : Opnd) (s : State) : Out :=
  runUnit h (onceMeaning h chkGen
    (fun s i => operandIf (2 ^ 16 ≤ rs64 s i h a))
    fun pre s i =>
      match (pre.crewOf i).gen with
      | some g => failGenerator s (pre.sl i).crew (failRecord 0 g.depth g.slot (rs64 pre i h a))
      | none => s) s

def execPgrstBlk (h : Hdr) (a : Opnd) (s : State) : Out :=
  runUnit h (onceMeaning h anyRole
    (fun s i =>
      match blockOf (s.ctx (s.ctxOf i)) (rs64 s i h a) with
      | none => operandTrap
      | some (slot, _, b) =>
        if blocksHeld s (s.ctxOf i) slot (some b) then .park (.blockFree (s.ctxOf i) slot (some b)) else .go)
    fun pre s i =>
      match blockOf (s.ctx (s.ctxOf i)) (rs64 pre i h a) with
      | none => s.updSl i (issueAgain Wait.now)
      | some (slot, r, b) => afterReset (resetBlocks s (s.ctxOf i) slot r (some b)) i) s

def pgrstSlotPre (h : Hdr) (a : Opnd) (s : State) (i : Nat) : Pre :=
  let slot := rs64 s i h a
  if 15 < slot || (Tbl.find (s.ctx (s.ctxOf i)).ranges slot).isNone then operandTrap
  else if blocksHeld s (s.ctxOf i) slot none then .park (.blockFree (s.ctxOf i) slot none) else .go

def execPgrstSlot (h : Hdr) (a : Opnd) (s : State) : Out :=
  runUnit h (onceMeaning h anyRole (pgrstSlotPre h a)
    fun pre s i =>
      let slot := rs64 pre i h a
      match Tbl.find (s.ctx (s.ctxOf i)).ranges slot with
      | none => s.updSl i (issueAgain Wait.now)
      | some r => afterReset (resetBlocks s (s.ctxOf i) slot r none) i)
    (unitResets h (pgrstSlotPre h a) (fun s i => some (rs64 s i h a, none)) s)

end Sys2Proof.Machine
end

