-- ==== Sys2Proof/Machine/Sched.lean ====
section
/-! DEFINITION. The scheduler's events (R231 to R238), pre-emption (R246 to R250), and the instructions of the system page (R359 to
R363). -/

namespace Sys2Proof.Machine

/-! ### Launches (R231, R232, R233, R235) -/

def Launch.allStarted (l : Launch) : Bool := l.lrec.nspans ≤ l.drawn && l.back.isEmpty && l.waiting.all fun e => e.2.isEmpty

def predWords (s : State) (l : Launch) : List Nat := (l.lrec.preds.filter (· != 0)).map fun p => curLE s l.ctx p.toNat 8

/-- The scheduler reads the predecessors' words at their homes (R36). -/
def readPreds (s : State) (l : Launch) : State :=
  (l.lrec.preds.filter (· != 0)).foldl (fun s p => readHome s l.ctx p.toNat 8) s

/-- Every predecessor's handle word shows DONE, and none shows FAIL (R231). -/
def launchReady (s : State) (k : Nat) : State :=
  match Tbl.find s.launches k with
  | none => s
  | some l =>
    if l.ready || l.failed || l.gen.isSome then s
    else if (predWords s l).all fun w => hwDone w && !hwFail w then
      (readPreds s l).updLaunch k fun l => { l with ready := true }
    else readPreds s l

def execLaunchReady (launch : Nat) (s : State) : Out := .next (launchReady s launch)

/-- The launch may start spans. -/
def launchRuns (s : State) (l : Launch) : Bool := l.ready && !l.failed && !l.done && l.gen.isNone && ctxRuns s l.ctx

def waitingIn (l : Launch) (cl : Nat) : List Nat := Tbl.findD l.waiting cl []

def towerWaiting (l : Launch) (tw : Nat) : List Nat := (List.range 8).flatMap fun k => waitingIn l (8 * tw + k)

/-- The next block: up to 8 consecutive spans from the lowest not yet drawn (R233). -/
def nextBlock (l : Launch) : List Nat :=
  let undrawn := fun (k : Nat) => k < l.lrec.nspans && (l.drawn ≤ k || l.back.contains k)
  let lo := l.back.foldl min l.drawn
  (List.range 8).map (lo + ·) |>.filter undrawn

/-- One span is dealt to the cluster after the last one that the tower dealt to, of whichever launch. -/
def dealSpan (k tw : Nat) (s : State) (ix : Nat) : State :=
  let c := ((s.tower tw).dealt + 1) % 8
  (s.updTower tw fun t => { t with dealt := c }).updLaunch k fun l =>
    { l with waiting := Tbl.put l.waiting (8 * tw + c) (waitingIn l (8 * tw + c) ++ [ix]) }

def towerBlockDraw (s : State) (k tw : Nat) : State :=
  match Tbl.find s.launches k with
  | none => s
  | some l =>
    let blk := nextBlock l
    if launchRuns s l && l.towers.contains tw && (towerWaiting l tw).isEmpty && !blk.isEmpty then
      let l1 := { l with back := l.back.filter fun x => !blk.contains x, drawn := (blk.map (· + 1)).foldl max l.drawn }
      blk.foldl (dealSpan k tw) { s with launches := Tbl.put s.launches k l1 }
    else s

def execTowerBlockDraw (launch tower : Nat) (s : State) : Out := .next (towerBlockDraw s launch tower)

/-- An unstarted span on a cluster. -/
structure Cand where
  lid  : Nat
  l    : Launch
  ix   : Nat
  cl   : Nat
  deriving DecidableEq, Repr

/-- The order of R232: PRIO, highest first, then acceptance, then SPANIX. -/
def Cand.before (a b : Cand) : Bool :=
  b.l.lrec.prio < a.l.lrec.prio || (a.l.lrec.prio == b.l.lrec.prio && (a.lid < b.lid || (a.lid == b.lid && a.ix < b.ix)))

def insertCand (a : Cand) : List Cand → List Cand
  | [] => [a]
  | b :: t => if a.before b then a :: b :: t else b :: insertCand a t

/-- A slice of the launch stands at a STEP whose boundary is not reached (R237). -/
def stepping (s : State) (k : Nat) (l : Launch) : Bool :=
  s.slices.any fun e => (s.crew e.2.crew).launch == k && !(s.crew e.2.crew).ended && e.2.live != 0 && e.2.stepIn && e.2.steps == l.steps

/-- The unstarted spans of a tower in order. -/
def candidates (s : State) (tw : Nat) : List Cand :=
  let all := s.launches.flatMap fun e =>
    if launchRuns s e.2 && !stepping s e.1 e.2 then
      (List.range 8).flatMap fun k => (waitingIn e.2 (8 * tw + k)).map fun ix => (⟨e.1, e.2, ix, 8 * tw + k⟩ : Cand)
    else []
  all.foldl (fun l a => insertCand a l) []

/-- An unstarted span moves to another cluster. -/
def moveSpan (s : State) (k ix src dst : Nat) : State :=
  s.updLaunch k fun l =>
    let w := Tbl.put l.waiting src ((waitingIn l src).filter (· != ix))
    { l with waiting := Tbl.put w dst (Tbl.findD w dst [] ++ [ix]) }

/-- A reserved cluster is closed to launches that come later in the order (R232). -/
def openTo (s : State) (r : List (Nat × Nat × Nat)) (c : Cand) : Bool :=
  r.all fun e =>
    c.cl != e.2.2 || c.lid == e.1 ||
      match Tbl.find s.launches e.1 with
      | some l => l.gen.isNone && c.before ⟨e.1, l, e.2.1, e.2.2⟩
      | none => true

/-- The first span in order gets the nearest cluster of the tower kept for it while it fits none. -/
def reserveHead (s : State) (tw : Nat) (cs : List Cand) : State :=
  match cs with
  | [] => s
  | h :: _ =>
    let fits := (List.range 8).any fun k => (fitSpan s h.l.lrec (8 * tw + k)).isSome
    let held := (s.tower tw).reserved.any fun e =>
      (e.1 == h.lid && e.2.1 == h.ix) || ((Tbl.find s.launches e.1).map fun l => l.gen.isSome).getD false
    if fits || held then s
    else
      let cl := nearest s h.l.lrec tw
      (moveSpan s h.lid h.ix h.cl cl).updTower tw fun t => { t with reserved := t.reserved ++ [(h.lid, h.ix, cl)] }

/-- The span has started: it waits no more, and its launch's pending place frees with its last span (R231). -/
def spanStarted (s : State) (tw : Nat) (c : Cand) : State :=
  let s1 := s.updLaunch c.lid fun l => { l with waiting := Tbl.put l.waiting c.cl ((waitingIn l c.cl).filter (· != c.ix)) }
  let s2 := s1.updTower tw fun t => { t with reserved := t.reserved.filter fun e => !(e.1 == c.lid && e.2.1 == c.ix) }
  match Tbl.find s2.launches c.lid with
  | some l => if l.allStarted then s2.updTower l.tower fun t => { t with pending := t.pending.filter (· != c.lid) } else s2
  | none => s2

/-- A later launch's span would take a cluster that an earlier one without a reservation fits (R232). -/
def Cand.passedBy (s : State) (r : List (Nat × Nat × Nat)) (h c : Cand) : Bool :=
  h.lid != c.lid && !(r.any fun e => e.1 == h.lid && e.2.1 == h.ix) && (fitSpan s h.l.lrec c.cl).isSome

def spanStart (s : State) (tw : Nat) : State :=
  let gens := (s.tower tw).genQueue.any fun k => ((Tbl.find s.launches k).map fun l => ctxRuns s l.ctx).getD false
  let genKept := (s.tower tw).reserved.any fun e => ((Tbl.find s.launches e.1).map fun l => l.gen.isSome).getD false
  if gens && !genKept then s
  else
    let s1 := reserveHead s tw (candidates s tw)
    let cs := candidates s1 tw
    let r := (s1.tower tw).reserved
    let fit := cs.findSome? fun c =>
      if openTo s1 r c && !cs.any (fun h => h.before c && h.passedBy s1 r c) then (fitSpan s1 c.l.lrec c.cl).map fun f => (c, f) else none
    match fit with
    | none => s1
    | some (c, f) =>
      let r := tryPlace s1 c.lid c.l c.ix c.cl f
      if r.2 then spanStarted r.1 tw c else r.1

def execSpanStart (tower : Nat) (s : State) : Out := .next (spanStart s tower)

/-- The `n` highest of a list. -/
def highest (n : Nat) (l : List Nat) : List Nat := l.filter fun x => (l.filter fun y => x < y).length < n

/-- A cluster with room asks the cluster of its tower that holds the most unstarted spans of the launch (R235). A span that is to start on the
cluster reserved for it is not shipped (R232). -/
def stealRequest (s : State) (k cl : Nat) : State :=
  match Tbl.find s.launches k with
  | none => s
  | some l =>
    let tw := cl / 8
    if launchRuns s l && l.towers.contains tw && (waitingIn l cl).isEmpty && (fitSpan s l.lrec cl).isSome then
      let v := ([1, 2, 3, 4, 5, 6, 7].map (8 * tw + ·)).foldl (fun b c => if (waitingIn l b).length < (waitingIn l c).length then c else b) (8 * tw)
      let free := (waitingIn l v).filter fun ix => !((s.tower tw).reserved.any fun e => e.1 == k && e.2.1 == ix)
      (highest (((waitingIn l v).length + 1) / 2) free).foldl (fun s ix => moveSpan s k ix v cl) s
    else s

def execStealRequest (launch cluster : Nat) (s : State) : Out := .next (stealRequest s launch cluster)

/-! ### Steps and elastic towers (R237, R238) -/

/-- The live slices of a launch. -/
def launchSlices (s : State) (k : Nat) : List Nat :=
  (s.slices.filter fun e => (s.crew e.2.crew).launch == k && !(s.crew e.2.crew).ended && e.2.live != 0).map Prod.fst

/-- A launch of higher PRIO waits for a tower. -/
def wanted (s : State) (l : Launch) (tw : Nat) : Bool :=
  s.launches.any fun e => l.lrec.prio < e.2.lrec.prio && e.2.gen.isNone && !e.2.failed && !e.2.done && e.2.towers.contains tw && !e.2.allStarted

/-- A tower leaves: its unstarted spans go back to the issuing tower's count. -/
def withdraw (l : Launch) (tw : Nat) : Launch :=
  { l with
    towers := l.towers.filter (· != tw)
    gone := l.gone ++ [tw]
    back := l.back ++ towerWaiting l tw
    waiting := l.waiting.filter fun e => e.1 / 8 != tw }

/-- One package's scheduler withdraws and adds towers, or leaves them: how many is its own choice within MINT + 1 to MAXT + 1. -/
def adjustTowers (s : State) (k pkg : Nat) : State :=
  match Tbl.find s.launches k with
  | none => s
  | some l =>
    let mine := l.towers.filter fun t => t / 8 == pkg
    let out := ((mine.reverse.filter fun t => t != l.tower && wanted s l t).take (Config.freeNat (s.freeIx + pkg) % 9)).take
      (mine.length - l.lrec.mint)
    let free := ((List.range 8).map (8 * pkg + ·)).filter fun t => !l.towers.contains t && towerFree s t
    let add := (free.take (Config.freeNat (s.freeIx + pkg + 32) % 9)).take (l.lrec.maxt - (mine.length - out.length))
    let s1 := s.updLaunch k fun l =>
      let m := out.foldl withdraw l
      { m with towers := m.towers ++ add, gone := m.gone.filter fun t => !add.contains t }
    out.foldl (fun s t => s.updTower t fun w => { w with reserved := w.reserved.filter fun e => e.1 != k }) s1

/-- Sorted ascending. -/
def sortTowers (l : List Nat) : List Nat := (List.range 256).filter l.contains

/-- Every launch of a context with crews on a package that leaves has reached a step boundary since (R372). -/
def leaveReady (s : State) (pkg ctx : Nat) : Bool :=
  s.crews.all fun e => e.2.ended || e.2.ctx != ctx || corePkg e.2.core != pkg || (s.pkg pkg).stepped.contains e.2.launch

/-- A context stops because a package leaves. -/
def leaveStop (s : State) (ctx : Nat) : State := (requestStop s ctx).updCtx ctx fun c => { c with moved := true }

/-- A launch reaches a boundary with crews on packages that leave: its context stops once all its launches there have reached theirs. -/
def leaveBoundary (s : State) (k ctx : Nat) (pkgs : List Nat) : State :=
  pkgs.foldl (fun s p =>
    let s1 := s.updPkg p fun q => { q with stepped := k :: q.stepped }
    if leaveReady s1 p ctx then leaveStop s1 ctx else s1) s

def stepBoundary (s : State) (k : Nat) : State :=
  match Tbl.find s.launches k with
  | none => s
  | some l =>
    let ids := launchSlices s k
    if !ids.isEmpty && ids.all fun i => (s.sl i).stepIn && (s.sl i).steps == l.steps then
      let s0 := s.updLaunch k fun l => { l with steps := l.steps + 1, towers := sortTowers l.towers }
      let s1 := leaveBoundary s0 k l.ctx ((ids.map fun i => corePkg (s.coreOf i)).dedup.filter fun p => (s.pkg p).leaving)
      if l.gen.isSome then s1
      else ((List.range l.lrec.npkg).map fun p => (l.tower / 8 + p) % s.npkgs).foldl (fun s p => adjustTowers s k p) s1
    else s

def execStepBoundary (launch : Nat) (s : State) : Out := .next (stepBoundary s launch)

/-! ### Ends -/

def crewEnd (s : State) (k : Nat) : State := if crewOver s k && (ownFilling s k).isNone then endCrew s k else s

def execCrewEnd (crew : Nat) (s : State) : Out := .next (crewEnd s crew)

/-- A launch's crews have no write-back under way. -/
def launchQuiet (s : State) (k : Nat) : Bool := !s.writeBacks.any fun e => (e.2.crew.map fun c => (s.crew c).launch == k).getD false

/-- The final handle word (R229). -/
def finishLaunch (s : State) (k : Nat) (l : Launch) (fail : Bool) : State :=
  let w := l.lid.toNat + 2 ^ 32 + 2 ^ 33 + if fail then 2 ^ 34 else 0
  let s1 := s.updLaunch k fun l =>
    { l with done := true, failed := l.failed || fail, waiting := [], back := [], drawn := l.lrec.nspans }
  let s2 := s1.updTower l.tower fun t => { t with pending := t.pending.filter (· != k) }
  let s3 : State := { s2 with towers := s2.towers.map fun e =>
    (e.1, { e.2 with reserved := e.2.reserved.filter fun r => r.1 != k }) }
  match l.hw with
  | some va => putHome s3 l.ctx va.toNat 8 w
  | none => s3

/-- Every crew has ended and its stores are performed, or the launch was abandoned, or a predecessor failed (R229, R231). -/
def launchComplete (s : State) (k : Nat) : State :=
  match Tbl.find s.launches k with
  | none => s
  | some l =>
    if l.done || l.gen.isSome then s
    else if !(l.spans.isEmpty && launchQuiet s k) then s
    else if l.failed then finishLaunch s k l true
    else if !l.ready && (predWords s l).any hwFail then finishLaunch (readPreds s l) k l true
    else if l.allStarted then finishLaunch s k l false
    else s

def execLaunchComplete (launch : Nat) (s : State) : Out := .next (launchComplete s launch)

/-! ### Pre-emption (R247 to R250) -/

def now0 (s : State) : Nat := (s.pkg 0).clock

/-- Microseconds in clocks. -/
def usClocks (s : State) (us : Nat) : Nat := us * (100 * (s.pkg 0).clk100)

def drainOf (s : State) (ctx : Nat) : Nat := usClocks s (s.ctx ctx).drain

/-- The scheduler's stop request, D before the end of the time slice (R247). -/
def stopRequest (s : State) (ctx : Nat) : State :=
  let due := match (s.ctx ctx).slice with
    | .open_ => true
    | .endless => false
    | .until_ t => t ≤ now0 s + drainOf s ctx
  if due then requestStop s ctx else s

def execStopRequest (ctx : Nat) (s : State) : Out := .next (stopRequest s ctx)

/-- The crews of a context. -/
def ctxCrews (s : State) (ctx : Nat) : List Nat := (s.crews.filter fun e => e.2.ctx == ctx && !e.2.ended).map Prod.fst

/-- Every agent of the context stands where R248 lets it stop. -/
def ctxQuiet (s : State) (ctx : Nat) : Bool :=
  let crews := ctxCrews s ctx
  let ids := crews.flatMap fun k => (s.crew k).slices
  let holds := fun (c : Core) => c.slots.any fun t => t.holder.any ids.contains
  let mine := fun (r : McReq) => r.ctx == ctx
  ids.all (fun i => (s.sl i).outst.isEmpty && (s.sl i).accs.isEmpty) &&
    crews.all (fun k =>
      let c := s.crew k
      c.chains.all (fun h => h.flight.isEmpty) && c.deck.queue.isEmpty && !holds (s.core c.core) &&
        !((s.core c.core).loops.any fun l => l.crew == k)) &&
    !s.mcReqs.any (fun e => mine e.2) && !s.mcSets.any (fun e => e.2.reqs.any mine) && (s.ctx ctx).pendReg.isEmpty &&
    !s.clusters.any fun e => match e.2.raising with | some (_, w) => ids.contains w | none => false

/-- What saving a context does to the caches and the requests under way (R127, R250). -/
def saveCtx (s : State) (ctx : Nat) : State :=
  let crews := ctxCrews s ctx
  let s0 : State := { s with slices := s.slices.map fun e => (e.1, if s.ctxOf e.1 = ctx then stopSlice e.2 else e.2) }
  let s1 := crews.foldl (fun s k => flushMapped s k fun _ => true) s0
  let wbs := (s1.writeBacks.filter fun e => e.2.ctx == ctx && (e.2.crew.map crews.contains).getD false).map Prod.fst
  let s2 := wbs.foldl arriveWriteBack s1
  let clean := fun (t : Tag) => if t.mapped then { t with sv := 0, sd := 0 } else t
  let tags := fun (c : Crew) => { c with
    tags := c.tags.map fun t => (t.1, clean t.2), chains := c.chains.map fun h => { h with answers := [] } }
  let fresh := fun (x : Slice) => { x with answers := [], fetch := [], since := none, raised := false }
  let s3 := strikeFills s2 fun q => q.ctx == ctx && !q.pref
  { s3 with
    crews := s3.crews.map fun e => (e.1, if crews.contains e.1 then tags e.2 else e.2)
    slices := s3.slices.map fun e => (e.1, if crews.contains e.2.crew then fresh e.2 else e.2)
    clrReqs := s3.clrReqs.filter fun e => e.2.ctx != ctx
    cores := s3.cores.map fun e => (e.1, { e.2 with clr := e.2.clr.filter fun c => c.ctx != ctx }) }

/-- The overrun of R249. -/
def overrunOf (s : State) (ctx : Nat) : Nat :=
  let c := s.ctx ctx
  match c.slice with
  | .until_ t => now0 s - t
  | _ => now0 s - (c.stopAt.getD 0 + drainOf s ctx)

/-- A generator of a context that can no longer run, queued or placed: its block fails (R76, R246). -/
def failQueued (root : Nat) (s : State) (ctx b : Nat) : State :=
  let x := (s.ctx ctx).block b
  match x.st, fillerOf s x with
  | .filling, some g =>
    let s1 := match x.crew with | some lid => dropGenerator s lid | none => s
    failBlock s1 ctx g x (failRecord root g.depth g.slot 0)
  | _, _ => s

/-- The deadline of R249 has passed: the context is force-reset, and saved no more. -/
def forceResetDue (s : State) (ctx : Nat) : Bool :=
  (s.ctx ctx).st == .stopping && match (s.ctx ctx).stopAt with | some t => t + 2 * drainOf s ctx ≤ now0 s | none => false

/-- The context has stopped: it is saved, or, where it can never run again, its generators fail and its crews go (R246). -/
def contextStopped (s : State) (ctx : Nat) : State :=
  let c := s.ctx ctx
  if !ctxQuiet s ctx || forceResetDue s ctx then s
  else
    match c.st with
    | .stopping =>
      let s1 := saveCtx s ctx
      s1.updCtx ctx fun c => { c with st := .stopped, overrun := overrunOf s ctx, stopAt := none }
    | .dead =>
      let s1 := (c.blocks.map Prod.fst).foldl (fun s b => failQueued c.cause s ctx b) s
      (ctxCrews s1 ctx).foldl endCrew (saveCtx s1 ctx)
    | _ => s

def execContextStopped (ctx : Nat) (s : State) : Out := .next (contextStopped s ctx)

/-- A crew's state is discarded: its dirty mapped sectors go nowhere (R249). -/
def discardMapped (s : State) (k : Nat) : State :=
  s.updCrew k fun c => { c with tags := c.tags.map fun t => (t.1, { t.2 with sv := 0, sd := 0 }) }

/-- A force-reset (R249): the state goes, the launches are abandoned, the generators' blocks fail, the log has an entry. -/
def forceReset (s : State) (ctx : Nat) : State :=
  let s1 := (stopContext s ctx 0xFF).updCtx ctx fun c => { c with forced := true }
  let s2 := (ctxCrews s1 ctx).foldl discardMapped s1
  let s3 := ((s2.ctx ctx).blocks.map Prod.fst).foldl (fun s b => failQueued 0xFF s ctx b) s2
  let s4 := (ctxCrews s3 ctx).foldl endCrew s3
  s4.log "force reset" [ctx, now0 s]

def execForceReset (ctx : Nat) (s : State) : Out := .next (if forceResetDue s ctx then forceReset s ctx else s)

/-! ### MIGR (R359) -/

def migStatus (s : State) (ctx va : Nat) : Nat × State :=
  match walk s ctx va with
  | .leaf page size p =>
    if pteProc p then (3, s)
    else if migOf s ctx page then (2, s)
    else if leafFrame size p < 2 ^ 40 then (1, s)
    else if !movable (.leaf page size p) then (3, s)
    else if 16 ≤ slotsUsed s (vaTower page) then (4, s)
    else match startMigration s ctx page size p with
      | (none, s1) => (5, s1)
      | (some _, s1) => (0, s1)
  | _ => (3, s)

/-- A request that names a vacant index waits for it to be taken (R372). -/
def indexPre (s : State) (va : Nat) : Pre := if vacantAt s va then .park (.index (vaPkg va)) else .go

def execMigr (h : Hdr) (d a : Opnd) (s : State) : Out :=
  runUnit h (onceMeaning h anyRole
    (fun s i => if !userAddr s (rs64 s i h a) then operandTrap else indexPre s (rs64 s i h a))
    fun pre s i =>
      let r := migStatus s (s.ctxOf i) (rs64 pre i h a)
      r.2.updSl i fun x => standAt Wait.now (wr .u64 d 0 (BitVec.ofNat 64 r.1) x)) s

/-! ### System instructions (R360 to R363) -/

def chkSys (s : State) (i : Nat) : Option Nat := if (s.ctx (s.ctxOf i)).sys then none else some cPriv

/-- The context operand names a context, and not the issuing one where `other` says so. -/
def ctxOperandOk (s : State) (i ctx : Nat) (other : Bool) : Bool := ctx < 256 && s.hasCtx ctx && !(other && ctx == s.ctxOf i)

/-- A downgrade of pages that meet a page is in progress. -/
def downgradeMeets (s : State) (ctx page size : Nat) : Option Nat :=
  (s.downgrades.find? fun e => e.2.ctx == ctx && e.2.leaf.isSome && e.2.va < page + size && page < e.2.va + e.2.size).map Prod.fst

/-- C of shoot.dg: of the old SIZE, and invalid or a leaf of the old level that the walker accepts (R361). -/
def newLeafOk (s : State) (ctx va size : Nat) (old p : DWord) : Bool :=
  pteSize p == pteSize old && (!pteBit p 0 ||
    ((pteBit p 1 || pteBit p 2 || pteBit p 3) &&
      match leafAddr s (vaPkg va) va 5 (s.ctx ctx).root with
      | some (level, _) => leafOk level p == some size && leafFramed (s.pkg (vaPkg va)) size p
      | none => false))

/-- Two ranges of pages of a context meet. -/
def pagesMeet (c1 p1 n1 c2 p2 n2 : Nat) : Bool := c1 == c2 && p1 < p2 + n2 && p2 < p1 + n1

/-- Slice `j` waits for its downgrade of these pages and came before slice `i` (R361). -/
def waitsBefore (s : State) (i ctx page size : Nat) (j : Nat) (x : Slice) : Bool :=
  j != i && s.alive j && match x.park with
    | .before (.pageTurn c p n) =>
      pagesMeet c p n ctx page size && ((x.begun.bind fun t => (s.sl i).begun.map fun u => decide (t < u)).getD true)
    | _ => false

/-- It is a slice's turn to downgrade pages: no downgrade of them is in progress, and none was asked for before. -/
def pageTurn (s : State) (i ctx page size : Nat) : Bool :=
  (downgradeMeets s ctx page size).isNone && !s.slices.any fun e => waitsBefore s i ctx page size e.1 e.2

/-- Bits W, A and D of a leaf. -/
def wadMask : DWord := 0xC4

def shootDgPre (h : Hdr) (a b c : Opnd) (s : State) (i : Nat) : Pre :=
  let ctx := rs64 s i h a
  let va := rs64 s i h b
  if !ctxOperandOk s i ctx false || !userAddr s va then operandTrap
  else if vacantAt s va then .park (.index (vaPkg va))
  else match walkTable s ctx va with
    | .leaf page size old =>
      if !newLeafOk s ctx va size old (BitVec.ofNat 64 (rs64 s i h c)) then operandTrap
      else if pageTurn s i ctx page size then .go else .park (.pageTurn ctx page size)
    | _ => operandTrap

/-- The downgrade that replaces a leaf. -/
def leafDowngrade (ctx page size : Nat) (old new : DWord) : Downgrade where
  ctx := ctx
  va := page
  size := size
  leaf := some new
  keep := pteBit old 1 && pteBit new 0 && pteBit new 1
  writeOnly := pteBit old 2 && !pteBit new 2 && (old ||| wadMask) == (new ||| wadMask)
  toEmpty := []
  toAnswer := []
  waitFor := []
  closed := false
  mig := none

def execShootDg (h : Hdr) (a b c : Opnd) (s : State) : Out :=
  runUnit h (onceMeaning h chkSys (shootDgPre h a b c)
    fun pre s i =>
      let ctx := rs64 pre i h a
      match walkTable s ctx (rs64 pre i h b) with
      | .leaf page size p =>
        match downgradeMeets s ctx page size with
        | some _ => s.fresh.updSl i fun x => (issueAgain (.pageTurn ctx page size) x).begin s.nextId
        | none =>
          (startDowngrade s (leafDowngrade ctx page size p (BitVec.ofNat 64 (rs64 pre i h c)))).updSl i (standAt (.shootdown s.nextId))
      | _ => s.updSl i (issueAgain Wait.now)) s

/-- shoot.flush: no leaf changes (R361). -/
def flushDowngrade (ctx : Nat) : Downgrade := ⟨ctx, 0, 0, none, true, false, [], [], [], false, none⟩

def execShootFlush (h : Hdr) (a : Opnd) (s : State) : Out :=
  runUnit h (onceMeaning h chkSys (fun s i => operandIf (!ctxOperandOk s i (rs64 s i h a) false))
    fun pre s i => (startDowngrade s (flushDowngrade (rs64 pre i h a))).updSl i (standAt (.shootdown s.nextId))) s

/-- HALT (R362): parked before issue until a wake word is pending. -/
def execHalt (h : Hdr) (d : Opnd) (s : State) : Out :=
  runUnit h (onceMeaning h chkSys
    (fun s i => if (s.core (s.coreOf i)).wake.isSome then .go else .park .wake)
    fun _ s i =>
      match (s.core (s.coreOf i)).wake with
      | some w => (s.updCore (s.coreOf i) fun c => { c with wake := none }).updSl i fun x => wr .u64 d 0 w x
      | none => s.updSl i (issueAgain .wake)) s

def execWakeWord (core : Nat) (word : DWord) (s : State) : Out := .next (s.updCore core fun c => { c with wake := some word })

/-- The context has stopped: saved, or, where it can never run again, with no crew left (R246, R247). -/
def ctxSettled (s : State) (ctx : Nat) : Bool :=
  (s.ctx ctx).st == .stopped || ((s.ctx ctx).st == .dead && (ctxCrews s ctx).isEmpty)

/-- Context operand and, for .pre, the wait for the stop (R363). -/
def ctxstopPrePre (h : Hdr) (a : Opnd) (s : State) (i : Nat) : Pre :=
  let ctx := rs64 s i h a
  if !ctxOperandOk s i ctx true then operandTrap else if ctxSettled s ctx then .go else .park (.ctxStopped ctx)

/-- A message of a slice to the scheduler of its tower (R87). -/
def tellScheduler (s : State) (i : Nat) : State :=
  injectUnit s (s.coreOf i) (crewClass s (s.sl i).crew) 2 (coreTower (s.coreOf i)) none

def execCtxstopPre (h : Hdr) (d a : Opnd) (s : State) : Out :=
  runUnit h (onceMeaning h chkSys (ctxstopPrePre h a)
    fun pre s i =>
      let ctx := rs64 pre i h a
      let over_ := (pre.sl i).begun.isSome && (s.ctx ctx).forced
      s.updSl i fun x => standAt Wait.now (wr .u64 d 0 (if over_ then 1 else 0) x)) s

def execCtxstopKill (h : Hdr) (d a : Opnd) (s : State) : Out :=
  runUnit h (onceMeaning h chkSys (fun s i => operandIf (!ctxOperandOk s i (rs64 s i h a) true))
    fun pre s i =>
      let ctx := rs64 pre i h a
      let live := !ctxSettled s ctx
      (tellScheduler (if live then forceReset s ctx else s) i).updSl i fun x => standAt Wait.now (wr .u64 d 0 (if live then 1 else 0) x)) s

/-- Each crew of a saved context fits its core again, in a tower that takes spans (R372, R377). -/
def crewsFit (s : State) (ctx : Nat) : Bool :=
  (ctxCrews s ctx).all fun k =>
    let core := (s.crew k).core
    towerOpen s (coreTower core) &&
    let cs := crewsOn s core ++ ((ctxCrews s ctx).map s.crew).filter fun c => c.core == core
    (cs.map fun c => c.slices.length).foldl (· + ·) 0 ≤ 64 && (cs.map Crew.tiles).foldl (· + ·) 0 ≤ 512 &&
      (cs.filter Crew.hasDeck).length ≤ 1

/-- The spans of a saved context that hold scratch. -/
def ctxSpans (s : State) (ctx : Nat) : List Nat :=
  (s.spans.filter fun e => e.2.count != 0 && ((Tbl.find s.launches e.2.launch).map fun l => l.ctx == ctx).getD false).map Prod.fst

/-- A span's scratch is given tiles again, its ways raised first; none where there are none or the ways are not free yet (R250). -/
def placeScratch (s : State) (held : List Nat) (k : Nat) : Option State × State :=
  let p := s.span k
  let taken := (s.spans.filter fun e => e.2.cluster == p.cluster && e.2.count != 0 && (spanHere s e.2 || held.contains e.1)).map fun e =>
    (e.2.base, e.2.count)
  let fits := (0 :: taken.map fun e => e.1 + e.2).filter fun b => p.count ≤ scratchGap taken b
  match fits with
  | [] => (none, s)
  | b :: bs =>
    let base := bs.foldl min b
    if (s.cluster p.cluster).raising.isSome then (none, s)
    else match waysShort s p.cluster (base + p.count) with
      | some code => (none, setWays s p.cluster code 0)
      | none => (some (s.updSpan k fun p => { p with base := base }), s)

def placeAll (s : State) : List Nat → List Nat → Option State × State
  | _, [] => (some s, s)
  | held, k :: ks =>
    match placeScratch s held k with
    | (none, s1) => (none, s1)
    | (some s1, _) =>
      match placeAll s1 (k :: held) ks with
      | (some s2, _) => (some s2, s2)
      | (none, s2) => (none, s2)

/-- CTXGO (R363): restored where its crews have room; the time slice is shortened by the last overrun (R249). -/
def ctxGo (s : State) (ctx us : Nat) : Option State × State :=
  if !crewsFit s ctx then (none, s)
  else
    match placeAll s [] (ctxSpans s ctx) with
    | (none, s1) => (none, s1)
    | (some s1, _) =>
      let now := now0 s
      let t := if us = 0 then TimeSlice.endless else .until_ (now + usClocks s us - (s.ctx ctx).overrun)
      (some (s1.updCtx ctx fun c => { c with st := .running, slice := t, overrun := 0, forced := false, stopAt := none }), s1)

def ctxgoPre (h : Hdr) (a : Opnd) (s : State) (i : Nat) : Pre :=
  let ctx := rs64 s i h a
  operandIf (!ctxOperandOk s i ctx true || (s.ctx ctx).st == .dead)

def execCtxgo (h : Hdr) (a b : Opnd) (s : State) : Out :=
  runUnit h (onceMeaning h chkSys (ctxgoPre h a)
    fun pre s i =>
      let ctx := rs64 pre i h a
      if (s.ctx ctx).st == .stopped then
        match ctxGo s ctx (rs32 pre i h b) with
        | (some s1, _) => (tellScheduler s1 i).updSl i (standAt Wait.now)
        | (none, s1) => s1.updSl i (issueAgain .restore)
      else (tellScheduler s i).updSl i (standAt Wait.now)) s

end Sys2Proof.Machine
end

