-- ==== Sys2Proof/Machine/Issue.lean ====
section
/-! DEFINITION. When a parked slice may go on, how an issue slot chooses its next run, and how an instruction's bytes are fetched (R55,
R139, R140, R142, R146 to R149, R239, R240, R242, R253, R308). -/

namespace Sys2Proof.Machine

/-! ### Parks -/

/-- Every live slice of the gang has parked at a gang operation (R148). -/
def gangMet (s : State) (i : Nat) : Bool := (s.liveGang i).all fun j => (atGangOp (s.sl j)).isSome

def atRegang (x : Slice) (pc : DWord) : Bool := x.park == .before (.regang pc)

def slotOfSlice (s : State) (i : Nat) : Option Slot := (s.core (s.coreOf i)).slots.find? fun t => t.units.any fun u => u.contains i

/-- A WRSR to a context register by the slice has not reached every core yet (R157). -/
def ctxRegPending (s : State) (i : Nat) : Bool := (s.ctx (s.ctxOf i)).pendReg.any fun e => e.2.2 == i

def asking (s : State) (i : Nat) : Bool :=
  s.clrReqs.any (fun e => e.2.who == .slice i || e.2.who == .fetch i) || s.fillReqs.any fun e => e.2.who == .slice i && !e.2.pref

/-- A word that a slice looked at has to be read again: its line has left the home, or is poisoned. A page marked IO is read at the frame
each time. -/
def lookAgain (s : State) (ctx va : Nat) : Bool := (!ioWalk (walk s ctx va) && !llcHas s ctx (va / 256)) || poisoned s ctx va

/-- What a park waits for has come about. -/
def waitReady (s : State) (i : Nat) (c : Wait) : Bool :=
  let x := s.sl i
  let k := s.crew x.crew
  match c with
  | .results => x.outst.isEmpty
  | .value id => (Tbl.find x.outst id).isNone
  | .index p => !(s.pkg p).vacant
  | .room => !full32 x
  | .sfuRoom => sfuBusy s i < 8
  | .performed wide =>
    if pending x wide then false
    else !wide || !x.relIn || !crewWriting s x.crew
  | .drained => x.accs.isEmpty && x.outst.isEmpty
  | .answers ids => ids.all fun j => !asking s j
  | .accesses => x.accs.isEmpty
  | .sent ids => ids.all fun n => (Tbl.find x.accs n).isNone
  | .mapClean t0 => mapsQuiet s x.crew t0
  | .strong => !x.accs.any fun e => e.2.strong
  | .tile t => ownerOfTile s x.crew 1 t == .slices
  | .spanTile t => ownerOfTile s x.crew 2 t == .slices
  | .owner span t o => ownerOfTile s x.crew (spaceOf span) t == o
  | .tileFree span t n => !tilesBusy s x.crew span t n
  | .regang pc => (s.liveGang i).all fun j => atRegang (s.sl j) pc
  | .gangOp _ => gangMet s i
  | .bar n => barDone s x.crew n
  | .phase sc n => phaseDone s i sc n
  | .ring n st full => (ringOf k n).nst ≤ st || ringFull k n st == full
  | .counter n target => kReached k n target
  | .clock at_ => at_ ≤ s.clockOf i
  | .stepBoundary n => n ≤ stepsOf s i
  | .memory va cond bits d => lookAgain s k.ctx va.toNat || wcondHolds cond bits (curLE s k.ctx va.toNat (bits / 8)) d.toNat
  | .handle va => lookAgain s k.ctx va.toNat || hwDone (curLE s k.ctx va.toNat 8)
  | .chain ch => !(chainOf s x.crew ch).busy
  | .girderRoom => (s.core k.core).loops.length < 4
  | .merged _ _ _ _ => false
  | .deckRoom => k.deck.queue.length < 16
  | .deckIdle => k.deck.queue.isEmpty
  | .group g => (groupOf s (coreCluster k.core) g).drain == 0
  | .keystone _ _ => false
  | .tower => false
  | .wake => (s.core k.core).wake.isSome
  | .ctxReg => !ctxRegPending s i
  | .l2wp => (s.cluster (coreCluster k.core)).raising.isNone
  | .launchRoom => !pendingFull s (coreTower k.core)
  | .ctxStopped ctx => ctxSettled s ctx
  | .restore => true
  | .shootdown dg => (Tbl.find s.downgrades dg).isNone
  | .pageTurn ctx page size => pageTurn s i ctx page size
  | .writeBacks ids => ids.all fun n => (Tbl.find s.writeBacks n).isNone
  | .blockFree ctx slot blk => !blocksHeld s ctx slot blk

/-- The slice may issue, resume, or enter its handler (R149, R242). A trap waits for outstanding results first (R241). A deferred trap is
taken in front of an instruction that waits before it issues, and at the end of a park after issue (log 41). -/
def sliceReady (s : State) (i : Nat) : Bool :=
  let x := s.sl i
  if x.taking.isSome then x.outst.isEmpty && (s.crewOf i).gen.isNone
  else match x.park with
    | .run => true
    | .before c => if mustDeliver x then x.outst.isEmpty else waitReady s i c
    | .after c w => waitReady s i c && (!(w || mustDeliver x) || x.outst.isEmpty)

/-- The slice takes part in arbitration. -/
def canIssue (s : State) (i : Nat) : Bool := s.alive i && ctxRuns s (s.ctxOf i) && sliceReady s i

/-! ### Units and arbitration (R147, R240) -/

/-- A slice that goes on in its own instruction stream, not into a handler. -/
def plain (x : Slice) : Bool := x.taking.isNone && !mustDeliver x

/-- The slice waits at a REGANG or at a gang operation, which the whole gang leaves together, in handlers too (R146, R148). -/
def meetsGang (x : Slice) : Bool := atRegang x x.pc || (atGangOp x).isSome

/-- The units that a bound gang or singleton gives: the gang where all of it is ready at one PC, else each ready slice. In handler mode a
slice issues alone (R244), but for what the gang does together. -/
def readyUnits (s : State) (u : List Nat) : List (List Nat) :=
  match u.filter s.alive with
  | [] => []
  | i :: rest =>
    let live := i :: rest
    if (live.all fun j => canIssue s j && plain (s.sl j) && (s.sl j).pc == (s.sl i).pc) &&
        (live.all (fun j => !(s.sl j).hmode) || live.all fun j => meetsGang (s.sl j)) then [live]
    else (live.filter (canIssue s)).map fun j => [j]

/-- A unit that may win: its slices, its wait, whether a YIELD passes it over. -/
structure Contender where
  ids    : List Nat
  raised : Bool
  prio   : Nat
  held   : Bool
  deriving DecidableEq, Repr

def contender (s : State) (now : Nat) (ids : List Nat) : Contender where
  ids := ids
  raised := ids.all fun i => (s.sl i).raised || ((s.sl i).since.map fun t => decide (t + 256 < now)).getD false
  prio := ((ids.head?.bind fun i => Tbl.find s.launches (s.crewOf i).launch).map fun l => l.lrec.prio).getD 0
  held := ids.any fun i => (s.sl i).hold

def slotAt (c : Core) (k : Nat) : Slot := c.slots.getD k Slot.init

def setSlot (c : Core) (k : Nat) (f : Slot → Slot) : Core :=
  { c with slots := (c.slots.zipIdx).map fun e => if e.2 = k then f e.1 else e.1 }

/-- The contenders from the one after the last winner on, with wrap-around. -/
def inTurn (order : List Nat) (last : Nat) (cs : List Contender) : List Contender :=
  let pos := fun (c : Contender) => order.idxOf (c.ids.headD 0)
  let at_ := order.idxOf last
  if order.contains last then (cs.filter fun c => at_ < pos c) ++ cs.filter fun c => pos c ≤ at_ else cs

/-- The raised come first, then the highest PRIO present; each time the first in turn. -/
def pickRun (cs : List Contender) : Option Contender :=
  let free := if cs.any fun c => !c.held then cs.filter fun c => !c.held else cs
  match free.find? Contender.raised with
  | some c => some c
  | none => let top := (free.map Contender.prio).foldl max 0; free.find? fun c => c.prio == top

/-- The slot chooses its next run; a YIELD counts for this choice alone (R308). -/
def runArbitration (s : State) (core slot : Nat) : State :=
  let c := s.core core
  let t := slotAt c slot
  if !t.holder.isEmpty || c.slots.length ≤ slot then s
  else
    let now := (s.pkg (corePkg core)).clock
    let cs := (t.units.flatMap (readyUnits s)).map (contender s now)
    match pickRun (inTurn (t.units.flatMap id) t.last cs) with
    | none => s
    | some w =>
      let s1 := (t.units.flatMap id).foldl (fun s i => s.updSl i fun x => { x with hold := false }) s
      let s2 := w.ids.foldl (fun s i => s.updSl i fun x => { x with since := none, raised := false }) s1
      s2.updCore core fun c => setSlot c slot fun t => { t with holder := w.ids, len := 0, last := w.ids.headD 0 }

def execRunArbitration (core slot : Nat) (s : State) : Out := .next (runArbitration s core slot)

/-- A unit that has waited more than 256 clocks since it became ready is raised. -/
def execUnitWaitRaised (core _slot sl : Nat) (s : State) : Out :=
  let now := (s.pkg (corePkg core)).clock
  .next (if s.coreOf sl = core ∧ canIssue s sl ∧ (((s.sl sl).since.map fun t => decide (t + 256 < now)).getD false) = true then
      s.updSl sl fun x => { x with raised := true }
    else s)

/-- A run ends after its 24th instruction (R139). -/
def execRunLengthCut (core slot : Nat) (s : State) : Out :=
  .next (if 24 ≤ (slotAt (s.core core) slot).len then
      s.updCore core fun c => setSlot c slot fun t => { t with holder := [], len := 0 }
    else s)

/-- A sleep is over: the slice runs on, or stands at its W. One that has a deferred trap to take stays at its park point (R242). -/
def execSleepExpire (sl : Nat) (s : State) : Out :=
  .next (match (s.sl sl).park with
    | .after (.clock t) w =>
      if t ≤ s.clockOf sl && !mustDeliver (s.sl sl) then s.updSl sl fun x => { x with park := if w then .after .results true else .run } else s
    | _ => s)

/-- The slice's unit holds its slot: it is in its run. -/
def inRun (s : State) (i : Nat) : Bool := (s.core (s.coreOf i)).slots.any fun t => t.holder.contains i

/-- Slices that are ready and not in a run wait for their run; the wait counts from when they became so (R240). -/
def markWaits (s : State) (pkg : Nat) : State :=
  let now := (s.pkg pkg).clock
  { s with slices := s.slices.map fun e =>
      if corePkg (s.coreOf e.1) != pkg then e
      else if canIssue s e.1 && !inRun s e.1 then (if e.2.since.isNone then (e.1, { e.2 with since := some now }) else e)
      else (e.1, { e.2 with since := none, raised := false }) }

/-! ### Fetch (R55, R252, R253) -/

/-- The 4 KiB pages that an instruction's 12 bytes touch: the first byte in each. -/
def fetchPages (pc : Nat) : List Nat := granules pc 12

/-- Where a slice's fetch stands: requests to make, a fault, or ready. -/
def fetchStand (s : State) (i : Nat) : Pre :=
  let x := s.sl i
  let st := (fetchPages x.pc.toNat).map fun g => (g, clearedFor s (s.coreOf i) (s.ctxOf i) x.fetch g .exec)
  let waits := st.filter fun e => e.2 == .ask
  if !waits.isEmpty then
    .ask ((waits.map fun e => askBase s (s.ctxOf i) e.1 .exec).dedup.map fun g => ⟨.fetch i, s.ctxOf i, g, .exec, none, false⟩) []
  else match st.find? fun e => e.2 != .yes with
    | some (g, .refused code) => .trap ⟨4, code, BitVec.ofNat 64 g, 0, none, 4 * slotOf (s.crewOf i) x⟩
    | some (g, _) => .trap ⟨4, cUnmapped, BitVec.ofNat 64 g, 0, none, 4 * slotOf (s.crewOf i) x⟩
    | none => .go

def execGrant (a : Answer) : Bool := match a with | .grant _ _ .exec _ => true | _ => false

/-- A fetch that has entered its pages holds their grants until it leaves them; an answer that refused is used up. -/
def holdGrants (s : State) (i : Nat) : State :=
  let pages := fetchPages (s.sl i).pc.toNat
  let here := fun (a : Answer) => match a with
    | .grant b n _ _ => pages.any fun g => b ≤ g && g < b + n
    | _ => false
  let hits := (s.core (s.coreOf i)).clr.filter fun e => e.ctx == s.ctxOf i && e.r == .exec
  (touchClr s (s.coreOf i) (s.ctxOf i) .exec (pages.map fun g => ⟨0, g, 1⟩)).updSl i fun x =>
    let held := x.fetch.filter fun a => execGrant a && here a
    let more := hits.map fun e => Answer.grant e.page e.size .exec false
    { x with fetch := held ++ more.filter fun a => here a && !held.contains a }

/-- One word of code: memory's, or the core's cached copy (R253); a page marked IO is cached nowhere (R35). -/
def codeWord (s : State) (core ctx va : Nat) (fresh : Bool) : Word :=
  let now := BitVec.ofNat 32 (curLE s ctx va 4)
  if fresh || ioWalk (walk s ctx va) then now else Tbl.findD (s.core core).icache (ctx * 2 ^ 57 + va) now

/-- The three words of an instruction, and the core's cache that then holds them. -/
def fetchWords (s : State) (core ctx pc : Nat) (fresh : BitVec 3) : Nat × State :=
  let ws := [0, 1, 2].map fun k => (pc + 4 * k, codeWord s core ctx (pc + 4 * k) (fresh.getLsbD k))
  let n := (ws.map fun e => e.2.toNat * 2 ^ (8 * (e.1 - pc))).foldl (· + ·) 0
  let kept := ws.filter fun e => !ioWalk (walk s ctx e.1)
  (n, s.updCore core fun c => { c with icache := kept.foldl (fun t e => Tbl.put t (ctx * 2 ^ 57 + e.1) e.2) c.icache })

/-- The sectors of code that a fetch reads. -/
def fetchTouch (s : State) (core cls ctx pc : Nat) : State := engRead s core cls ctx 0 pc 12

/-- Poison in the code stops the context (R245, R246). -/
def codePoison (s : State) (i : Nat) : State :=
  let x := s.sl i
  let ctx := s.ctxOf i
  let s1 := s.updSl i fun x => { x with park := .before .tower }
  if (s.ctx ctx).st == .dead then s1
  else (stopContext s1 ctx cMemError).log "context stop" [ctx, s.coreOf i, x.ix, cMemError, x.pc.toNat,
      (anyPoison s ctx x.pc.toNat 12).getD 0 / 256 * 256]

/-! ### Before an instruction issues -/

/-- A trap that is due is taken instead of issuing: an exact one whose results are in, else the oldest deferred one at a park. -/
def trapsDue (s : State) (ids : List Nat) : List Nat :=
  ids.filter fun i => ((s.sl i).taking.isSome || mustDeliver (s.sl i)) && (s.sl i).outst.isEmpty

def takeDue (s : State) (i : Nat) : State :=
  match (s.sl i).taking with
  | some t => enterTrap (s.updSl i fun x => { x with taking := none }) i t
  | none => deliverDeferred s i

/-- A park after issue is over; one before issue stands until the instruction issues or parks again. -/
def resume (x : Slice) : Slice := match x.park with | .after _ _ => { x with park := .run } | _ => x

/-- What becomes of a word that fails check 1, 2, 3 or 4 of R254. -/
def decodeTrap (s : State) (i : Nat) (d : Decoded) : Option Nat :=
  match d with
  | .ok _ => none
  | .reservedInstr => some cReservedInstr
  | .reservedOperand op =>
    if op = 0xA4 ∧ (s.pkg (corePkg (s.coreOf i))).trained = false then some cReservedInstr
    else if 0xE0 ≤ op ∧ op ≤ 0xE3 ∧ (s.ctx (s.ctxOf i)).sys = false then some cPriv
    else some cReservedOperand

/-- The slot's unit is made ready to issue: a park that is over ends. -/
def wakeUnit (s : State) (ids : List Nat) : State := ids.foldl (fun s i => s.updSl i resume) s

/-- What stands at the slot. -/
inductive Issue where
  /-- no run holds the slot, or its unit cannot go on: the state after -/
  | idle (s : State)
  /-- the state after a trap or a fetch request instead of an instruction -/
  | done (s : State)
  /-- the instruction that the unit issues, and the state it issues in -/
  | run (i : Instr) (s : State)

/-- The unit that holds a slot of a core fetches and decodes its next instruction, once the slot is free of the one before (R273). -/
def issueAt (s : State) (core slot : Nat) (fresh : BitVec 3) : Issue :=
  let ids := (slotAt (s.core core) slot).holder
  match ids with
  | [] => .idle s
  | i :: _ =>
    let ctx := s.ctxOf i
    let st := (s.ctx ctx).st
    if !ids.all (fun j => s.alive j && sliceReady s j && (s.sl j).pc == (s.sl i).pc) || !s.hasCtx ctx || st == .stopped then
      .idle (endRun s ids)
    else if s.clockOf i < (slotAt (s.core core) slot).freeAt then .idle s
    else
      let s1 := wakeUnit s ids
      match trapsDue s ids with
      | d :: ds => .done (endRun ((d :: ds).foldl takeDue s1) ids)
      | [] =>
        let pres := ids.map (fetchStand s1)
        match bestTrap (pres.filterMap Pre.trap?) with
        | some t => .done (trapUnit (s1.updSl i fun x => { x with fetch := [] }) ids [t] t)
        | none =>
          if !pres.all Pre.isGo then
            .done (endRun ((ids.zip (askOnce [] pres)).foldl (fun s e => parkBefore ids true s e.1 e.2) s1) ids)
          else
            let s2 := ids.foldl holdGrants s1
            let pc := (s2.sl i).pc.toNat
            if (anyPoison s2 ctx pc 12).isSome then .done (endRun (codePoison s2 i) ids)
            else
              let (w, s3) := fetchWords (fetchTouch s2 core (crewClass s2 (s2.sl i).crew) ctx pc) core ctx pc fresh
              let d := decodeWord w
              match d with
              | .ok ins => .run ins { s3 with cur := ids }
              | _ => .done (trapUnit s3 ids [] (trapPlain 1 ((decodeTrap s3 i d).getD cReservedInstr)))

/-! ### Events -/

/-- The rows of the opcode table that are events of the hardware or its firmware, not instruction words. -/
def isEvent : Instr → Bool
  | .contextRegisterPropagated _ _ => true
  | .l2wpRaiseDone _ => true
  | .resultWriteback _ _ => true
  | .runArbitration _ _ => true
  | .unitWaitRaised _ _ _ => true
  | .runLengthCut _ _ => true
  | .sleepExpire _ => true
  | .wakeWord _ _ => true
  | .homeReadRequest _ _ _ => true
  | .homeStoreRequest _ _ _ => true
  | .nearMemoryReduction _ _ _ => true
  | .recall _ _ _ _ => true
  | .writebackArrival _ => true
  | .bankSleep _ => true
  | .migrationStart _ _ => true
  | .migrationMarkDrained _ => true
  | .migrationLineCopy _ => true
  | .migrationAccess _ _ => true
  | .migrationPullDone _ _ => true
  | .clearanceRequest _ => true
  | .pageWalkDone _ _ _ => true
  | .clearanceAnswer _ => true
  | .residencyRequest _ => true
  | .shootdownMessage _ _ => true
  | .shootdownAnswer _ _ => true
  | .downgradeClose _ => true
  | .procBlockRead _ => true
  | .procPrefEvent _ => true
  | .generatorLaunch _ => true
  | .fillDoneAtHome _ => true
  | .generatorFailure _ => true
  | .procRetryReissue _ => true
  | .routerGrant _ _ _ _ _ => true
  | .ageingSaturate _ => true
  | .replyArrival _ => true
  | .windowRaise _ => true
  | .windowAdmit _ => true
  | .towerLinkForward _ => true
  | .accMerge _ => true
  | .mcastRequest _ => true
  | .mcastSetLeave _ => true
  | .mcastGroupDrained _ _ => true
  | .remoteStashAccess _ _ _ => true
  | .trestleEntryFetch _ _ => true
  | .trestleCopy _ _ _ _ => true
  | .trestleGather _ _ _ _ => true
  | .trestleScatter _ _ _ _ => true
  | .trestleMcast _ _ _ _ => true
  | .trestleReduceMemory _ _ _ _ => true
  | .trestleReduceCollective _ _ => true
  | .collectiveContribution _ => true
  | .trestleVxfer _ _ _ _ => true
  | .trestleFlip _ _ => true
  | .trestlePost _ _ => true
  | .trestleWaitRing _ _ => true
  | .trestleWaitCounter _ _ => true
  | .trestleWaitSatisfied _ _ => true
  | .trestleLoop _ _ => true
  | .trestleIfWord _ _ => true
  | .trestleIfRing _ _ => true
  | .trestleFill _ _ _ _ => true
  | .trestleEnd _ _ => true
  | .trestleEntryComplete _ _ _ => true
  | .girderLoopStart _ => true
  | .mloopComplete _ => true
  | .deckStart _ => true
  | .keystoneAnswer _ => true
  | .launchReady _ => true
  | .towerBlockDraw _ _ => true
  | .spanStart _ => true
  | .crewStart _ => true
  | .stealRequest _ _ => true
  | .stepBoundary _ => true
  | .crewEnd _ => true
  | .launchComplete _ => true
  | .stopRequest _ => true
  | .contextStopped _ => true
  | .forceReset _ => true
  | .hostWindowAccess _ _ _ _ _ _ => true
  | .linkFailure _ _ => true
  | .linkRetrained _ _ => true
  | .ptpMessage _ _ => true
  | .timePageUpdate _ => true
  | .equinoxCheck _ => true
  | .equinoxFrameSend _ => true
  | .equinoxStatusWrite _ => true
  | .packageLeave _ => true
  | .packageReplace _ => true
  | .vacantIndexTimeout _ => true
  | .packageReset _ => true
  | .trainingComplete _ => true
  | .replanDue _ => true
  | .replanStarved _ => true
  | .replanStart _ => true
  | .replanDone _ => true
  | .powerCapStep _ _ => true
  | .contextCreation _ _ _ _ _ _ _ _ => true
  | .osCorePteStore _ _ _ => true
  | .residencyQueueDrain _ _ => true
  | .forceUnmap _ _ => true
  | .managementFlush _ _ => true
  | .domainFormation _ => true
  | _ => false

/-! ### An OS core (R230, R374) -/

/-- The word at an OS core's PC, a physical address of its package. -/
def osWord (s : State) (oc : Nat) : Nat := physLE s (physKey (osTower oc / 8) (osOf s oc).pc.toNat) 4

/-! ### Viaduct's events (R83 to R88) -/

def execRouterGrant (reply : Bool) (tower stage router out : Nat) (s : State) : Out := .next (routerGrant s reply tower stage router out)
def execAgeingSaturate (pkt : Nat) (s : State) : Out := .next (ageingSaturate s pkt)
def execReplyArrival (pkt : Nat) (s : State) : Out := .next (replyArrival s pkt)
def execWindowRaise (core : Nat) (s : State) : Out := .next (s.updCore core windowRaise)
def execWindowAdmit (core : Nat) (s : State) : Out := .next (windowAdmit s core)
def execTowerLinkForward (pkt : Nat) (s : State) : Out := .next (linkForward s pkt)

end Sys2Proof.Machine
end

