-- ==== Sys2Proof/Machine/Fabric.lean ====
section
/-! DEFINITION. The outside world: host windows, Causeway links, device time, Equinox, leaving and joining, reset, training, re-plans, the
power cap, context creation and domain formation (R364 to R380). -/

namespace Sys2Proof.Machine

/-! ### Host windows (R365) -/

/-- The OS cores open a window: one of 64, over a multiple of 2 MiB, on user addresses of a context. -/
def openWindow (s : State) (pkg win : Nat) (w : Window) : State :=
  if (Tbl.find s.pkgs pkg).isSome && win < 64 && w.size != 0 && w.size % 2 ^ 21 == 0 && s.hasCtx w.ctx && w.va + w.size ≤ 2 ^ 56 then
    s.updPkg pkg fun p => { p with windows := Tbl.put p.windows win w }
  else s

def closeWindow_ (s : State) (pkg win : Nat) : State := s.updPkg pkg fun p => { p with windows := Tbl.del p.windows win }

/-- Why a host access of `n` bytes fails: a refused right, a non-resident or procedural page, no such address. -/
def hostRefused (s : State) (ctx va n : Nat) (r : Right) : Bool :=
  !s.hasCtx ctx || (pagesOf (va, n)).any fun g =>
    !userAddr s g || match freshWalk s ctx g r with
      | .leaf _ _ p => pteProc p || !leafAllows r p
      | _ => true

/-- The completion that a host read receives: poison, or data. -/
def hostDone (s : State) (pkg : Nat) (write poison : Bool) (v : Nat) : State :=
  if write then s else s.updPkg pkg fun p => { p with hostRead := some (poison, if poison then 0 else BitVec.ofNat 64 v) }

/-- A refused host access: a poison completion or a dropped write, and a log record. -/
def hostFails (s : State) (pkg ctx va : Nat) (write : Bool) : State :=
  hostDone (s.log "host" [ctx, va, if write then 1 else 0]) pkg write true 0

/-- A host access that is cleared, at the home or the IO page's frame, under its page's kind. -/
def hostPerform (s : State) (ctx va n : Nat) (write : Bool) (data : Nat) : State :=
  let r := if write then Right.write else .read
  let s1 := (pagesOf (va, n)).foldl (fun s g => setAD s ctx g (ownerAnswer s ctx g r none)) s
  (sectorParts va n).foldl (fun s e =>
    let pl : Place := if ioWalk (walk s ctx e.1) then .frame else .home
    if write then writeLoc s pl 0 ctx e.1 (((natBytes n data).drop (e.1 - va)).take e.2) 0 else cacheRead s pl 0 ctx e.1 0) s1

/-- A host access: it parks on a vacant index (R372), waits while a page closes (R62), is refused, or is performed. -/
def hostAccess (s : State) (pkg win off n : Nat) (write : Bool) (data : Nat) : State :=
  match Tbl.find (s.pkg pkg).windows win with
  | none => s
  | some w =>
    let va := w.va + off
    let r := if write then Right.write else .read
    if n = 0 || 8 < n || w.size < off + n then s
    else if (pagesOf (va, n)).any (vacantAt s) then addVacant s (.host pkg win off n write data) pkg va
    else if (pagesOf (va, n)).any fun g => closingFor s w.ctx g r then s
    else if (write && !w.wr) || hostRefused s w.ctx va n r then hostFails s pkg w.ctx va write
    else hostDone (hostPerform s w.ctx va n write data) pkg write (anyPoison s w.ctx va n).isSome (curLE s w.ctx va n)

def execHostWindowAccess (pkg win off len : Nat) (write : Bool) (data : BitVec 64) (s : State) : Out :=
  .next (hostAccess s pkg win off len write data.toNat)

/-! ### Causeway (R367) -/

/-- A link changes at both its ends. -/
def bothEnds (s : State) (pkg link : Nat) (f : Pkg → Nat → Pkg) : State :=
  let s1 := s.updPkg pkg fun p => f p link
  match linkMate s pkg link with
  | some (q, l) => s1.updPkg q fun p => f p l
  | none => s1

def execLinkFailure (pkg link : Nat) (s : State) : Out := .next (bothEnds s pkg link linkFails)
def execLinkRetrained (pkg link : Nat) (s : State) : Out := .next (bothEnds s pkg link linkReturns)

/-! ### Memory errors (R44, R366) -/

/-- A populated line of memory, or of an expansion device, is found to hold an uncorrectable error. -/
def memoryError (s : State) (line : Nat) : State :=
  if populated (s.pkg (256 * line / 2 ^ 43)) (256 * line % 2 ^ 43) && (Tbl.find s.pkgs (256 * line / 2 ^ 43)).isSome && !s.poison.contains line then
    { s with poison := line :: s.poison }
  else s

/-! ### Device time (R369) -/

/-- A time within 25 ns of every other package's. -/
def timeOk (s : State) (pkg t : Nat) : Bool :=
  s.pkgs.all fun e => e.1 == pkg || (t ≤ e.2.devTime.toNat + 25 && e.2.devTime.toNat ≤ t + 25)

def execPtpMessage (pkg : Nat) (time : DWord) (s : State) : Out :=
  .next (if (Tbl.find s.pkgs pkg).isSome ∧ timeOk s pkg time.toNat = true then
      s.updPkg pkg fun p => { p with devTime := time, devFrac := 0 }
    else s)

/-- Cached copies of a frame's line under whatever address they are held. -/
def dropAliases (s : State) (line : Nat) : State :=
  let keys := ((s.llc.map Prod.fst) ++ (s.l2.map fun (e : Nat × L2Line) => e.1 % 2 ^ 57)).dedup
  keys.foldl (fun s k =>
    let ctx := k / 2 ^ 49
    let va := 256 * (k % 2 ^ 49)
    match frameKey s ctx va (walk s ctx va) with
    | some f => if f / 256 = line then discardLine s ctx (k % 2 ^ 49) else s
    | none => s) s

/-- Firmware's or hardware's store of 8 bytes to a frame that programs only read. -/
def framePut (s : State) (k v : Nat) : State := dropAliases (physPut s k 8 v) (k / 256)

/-- Each microsecond the package stores the device time into word 0 of its time page. -/
def timePageUpdate (s : State) (pkg : Nat) : State :=
  let p := s.pkg pkg
  let k := physKey pkg p.timePage
  if p.timePage = 0 || !populated p p.timePage || physLE s k 8 / 1000 == p.devTime.toNat / 1000 then s
  else framePut s k p.devTime.toNat

def execTimePageUpdate (pkg : Nat) (s : State) : Out := .next (timePageUpdate s pkg)

/-! ### Equinox (R370, R371) -/

/-- The entry at the queue's index. -/
def eqEntry (q : EqQueue) : Nat := q.va.toNat + 64 + 64 * q.cur

/-- The bytes of a present queue lie in ordinary pages that can be written. -/
def queueMapped (s : State) (ctx va : Nat) : Bool := !hostRefused s ctx va (64 + 64 * 64) .write

/-- The OS cores place a present queue for a context and an endpoint: the header is zero, SUBSTS with it, and every STATUS 0 (R370). -/
def placeQueue (s : State) (pkg ctx endpoint va : Nat) : State :=
  if (Tbl.find s.pkgs pkg).isSome && va % 64 == 0 && queueMapped s ctx va && !s.equinox.any fun e => e.2.ctx == ctx && e.2.endpoint == endpoint then
    let s1 := (List.range 8).foldl (fun s k => putHome s ctx (va + 8 * k) 8 0) s
    let s2 := (List.range 64).foldl (fun s k => let a := va + 64 + 64 * k + 36; putHome s ctx a 1 (curLE s ctx a 1 / 4 * 4)) s1
    { s2.fresh with equinox := Tbl.put s2.equinox s2.nextId ⟨pkg, ctx, endpoint, BitVec.ofNat 64 va, 0, none, 0, false, 0, 0⟩ }
  else s

/-- An entry of a present queue. -/
def eqRead (s : State) (q : EqQueue) : Nat := curLE s q.ctx (eqEntry q) 64

/-- What the engine's read of its entry does at the home (R36). -/
def eqTouch (s : State) (q : EqQueue) : State := readHome s q.ctx (eqEntry q) 64

def eqDeadline (v : Nat) : Nat := recBits v 63 0
def eqStatus (v : Nat) : Nat := recBits v 289 288
/-- The time of the check: GUARD microseconds before DEADLINE. -/
def eqCheckAt (v : Nat) : Nat := eqDeadline v - 1000 * recBits v 281 272

def eqValid (v : Nat) : Bool :=
  recBits v 127 64 % 256 == 0 && recBits v 191 128 % 256 == 0 && recBits v 255 224 % 256 == 0 && recBits v 259 256 ≤ 2 &&
    recBits v 271 260 == 0 && recBits v 281 272 != 0 && recBits v 287 282 == 0 && recBits v 319 290 == 0 && recBits v 511 384 == 0

/-- The rows of a frame at a base address. -/
def eqRows (v base : Nat) : List (Nat × Nat) :=
  let bpp := if recBits v 259 256 = 2 then 8 else 4
  (List.range (recBits v 223 208 + 1)).map fun r => (base + r * recBits v 255 224, (recBits v 207 192 + 1) * bpp)

/-- A row whose read meets a fault or a non-resident page: data poison is a fault (R245), and so is a vacant index. -/
def rowFaults (s : State) (ctx : Nat) (r : Nat × Nat) : Bool :=
  hostRefused s ctx r.1 r.2 .read || (anyPoison s ctx r.1 r.2).isSome || (pagesOf r).any (vacantAt s)

def eqFaults (s : State) (ctx v base : Nat) : Bool := (eqRows v base).any (rowFaults s ctx)

/-- The pages of a frame. -/
def eqPages (v base : Nat) : List Nat := ((eqRows v base).flatMap pagesOf).dedup

def eqNow (s : State) (q : EqQueue) : Nat := (s.pkg q.pkg).devTime.toNat

def setEq (s : State) (k : Nat) (q : EqQueue) : State := { s with equinox := Tbl.put s.equinox k q }

/-- The check time of the entry passed while the package's index was vacant (R373). -/
def eqMissed (q : EqQueue) (v : Nat) : Bool := q.gapFrom.toNat ≤ eqCheckAt v && eqCheckAt v < q.gapTo.toNat

/-- The queue has come to an entry that is checked after the vacancy: none before it is missed any more. -/
def eqResume (q : EqQueue) (v : Nat) : EqQueue := if q.gapTo.toNat ≤ eqCheckAt v then { q with gapFrom := 0, gapTo := 0 } else q

/-- At DEADLINE − GUARD the entry is decided, or skipped. -/
def equinoxCheck (s : State) (k : Nat) : State :=
  match Tbl.find s.equinox k with
  | none => s
  | some q =>
    let v := eqRead s q
    if (s.pkg q.pkg).vacant || q.chosen.isSome || eqNow s q < eqCheckAt v then s
    else
    let s := eqTouch s q
    let q1 := eqResume q v
    if !eqValid v then (setEq s k { q1 with chosen := some false, sent := false }).log "present" [q.ctx, eqEntry q, 0]
    else if 2 ≤ eqStatus v then setEq s k { q1 with cur := (q.cur + 1) % 64 }
    else setEq s k { q1 with chosen := some (eqStatus v == 1 && !eqMissed q v), sent := false }

def execEquinoxCheck (queue : Nat) (s : State) : Out := .next (equinoxCheck s queue)

/-- At DEADLINE the first beat leaves. A frame that cannot be read gives way to the fallback; rows of a fallback that cannot be read are
zero, logged. -/
def equinoxFrameSend (s : State) (k : Nat) : State :=
  match Tbl.find s.equinox k with
  | none => s
  | some q =>
    let v := eqRead s q
    match q.chosen with
    | none => s
    | some frame =>
      if (s.pkg q.pkg).vacant || q.sent || (eqNow s q < eqDeadline v && !eqMissed q v) then s
      else
        let shown := frame && !eqFaults s q.ctx v (recBits v 127 64)
        let s0 := (eqRows v (recBits v 127 64)).foldl (fun s r => if shown then readHome s q.ctx r.1 r.2 else s) (eqTouch s q)
        let s1 := setEq s0 k { q with chosen := some shown, sent := true, sentAt := (s.pkg q.pkg).devTime }
        let s2 := if frame then logHoles s1 q.ctx (eqPages v (recBits v 127 64)) else s1
        if !shown && eqFaults s q.ctx v (recBits v 191 128) then
          (logHoles s2 q.ctx (eqPages v (recBits v 191 128))).log "present" [q.ctx, eqEntry q, 1]
        else s2

def execEquinoxFrameSend (queue : Nat) (s : State) : Out := .next (equinoxFrameSend s queue)

/-- After the last beat: SHOWN_AT, SUBSTS and then STATUS are written, and the next entry comes up. -/
def equinoxStatusWrite (s : State) (k : Nat) : State :=
  match Tbl.find s.equinox k with
  | none => s
  | some q =>
    match q.chosen with
    | none => s
    | some shown =>
      if !q.sent || (s.pkg q.pkg).vacant then s
      else
        let e := eqEntry q
        let s1 := putHome s q.ctx (e + 40) 8 q.sentAt.toNat
        let s2 := if shown then s1 else putHome s1 q.ctx q.va.toNat 8 (min (curLE s1 q.ctx q.va.toNat 8 + 1) (2 ^ 64 - 1))
        let rest := curLE s2 q.ctx (e + 36) 4 / 4 * 4
        let s3 := putHome s2 q.ctx (e + 36) 4 (rest + if shown then 2 else 3)
        setEq s3 k { q with cur := (q.cur + 1) % 64, chosen := none, sent := false }

def execEquinoxStatusWrite (queue : Nat) (s : State) : Out := .next (equinoxStatusWrite s queue)

/-! ### Leaving and joining (R372, R373) -/

/-- The contexts that have crews on a package and are not saved. -/
def ctxsOn (s : State) (pkg : Nat) : List Nat :=
  ((s.crews.filter fun e => !e.2.ended && corePkg e.2.core == pkg && (s.ctx e.2.ctx).st != .stopped).map fun e => e.2.ctx).dedup

/-- An access to a package's memory has been sent and is not performed: a slice's, or a chain's. -/
def sentTo (s : State) (pkg : Nat) : Bool :=
  s.slices.any (fun e => e.2.accs.any fun a => !a.2.remote && a.2.pieces.any fun q => !q.done && vaPkg q.va == pkg) ||
    s.crews.any (fun e => e.2.chains.any fun c => c.flight.any fun f => (f.2.rds ++ f.2.wrs).any fun r => r.1 == 0 && vaPkg r.2.1 == pkg) ||
    s.mcReqs.any fun e => vaPkg e.2.va == pkg

/-- The package is marked leaving; a context whose launches have stepped stops; once nothing runs there and what was cleared before has been
performed, its index is vacant. -/
def packageLeave (s : State) (pkg : Nat) : State :=
  let p := s.pkg pkg
  if (Tbl.find s.pkgs pkg).isNone || p.vacant then s
  else if !p.leaving then s.updPkg pkg fun p => { p with leaving := true, stepped := [] }
  else if !(ctxsOn s pkg).isEmpty then (ctxsOn s pkg).foldl (fun s c => if leaveReady s pkg c then leaveStop s c else s) s
  else if !sentTo s pkg then
    let gap := fun (q : EqQueue) => if q.pkg = pkg then { q with gapFrom := p.devTime, gapTo := BitVec.allOnes 64 } else q
    { s.updPkg pkg fun p => { p with vacant := true } with equinox := s.equinox.map fun e => (e.1, gap e.2) }
  else s

def execPackageLeave (pkg : Nat) (s : State) : Out := .next (packageLeave s pkg)

/-- The contexts that stopped because the package leaves. -/
def movedCtxs (s : State) (pkg : Nat) : List Nat :=
  (s.ctxs.filter fun e => e.2.moved && e.2.st == .stopped &&
    s.crews.any fun c => c.2.ctx == e.1 && !c.2.ended && corePkg c.2.core == pkg).map Prod.fst

/-- The host accesses among parked requests are delivered. -/
def hostDeliver (s : State) (rs : Tbl VacantReq) : State :=
  rs.foldl (fun s e => match e.2.ask with
    | .host p win off n write data => hostAccess s p win off n write data
    | _ => s) s

/-- The replacement takes the index: parked requests go on and the stopped contexts are resumed. -/
def packageReplace (s : State) (pkg : Nat) : State :=
  let p := s.pkg pkg
  if !p.vacant then s
  else
    let gap := fun (q : EqQueue) => if q.pkg = pkg then { q with gapTo := p.devTime } else q
    let s1 := s.updPkg pkg fun p => { p with vacant := false, leaving := false, stepped := [] }
    let s2 := hostDeliver { s1 with
      vacantReqs := s1.vacantReqs.filter fun e => e.2.index != pkg
      equinox := s1.equinox.map fun e => (e.1, gap e.2) } (s1.vacantReqs.filter fun e => e.2.index == pkg)
    (movedCtxs s2 pkg).foldl (fun s c =>
      match ctxGo s c 0 with
      | (some s3, _) => s3.updCtx c fun x => { x with slice := .open_, moved := false }
      | (none, s3) => s3) s2

def execPackageReplace (pkg : Nat) (s : State) : Out := .next (packageReplace s pkg)

/-- A second in nanoseconds. -/
def secondNs : Nat := 1000000000

/-- A part of an access that its clearance let through, and whose home cannot be reached: the trap of its right is taken deferred, and a load's
value is open (R373 names clearance and chains only: DESIGN CHOICE, log 90). -/
def failPart (s : State) (i k p : Nat) : State :=
  match Tbl.find (s.sl i).accs k with
  | none => s
  | some a =>
    match a.pieces[p]? with
    | none => s
    | some q => if q.done then s else remoteFail s i k p a q (protCode (if a.isLoad then .read else .write)) q.va

/-- FY.LAUNCH takes the trap code of a refused READ. -/
def failOs (s : State) (oc : Nat) : State :=
  match decodeOs (osWord s oc) with
  | some (.fyLaunch rd _ _) =>
    let c := osOf s oc
    { s with osCores := Tbl.put s.osCores oc { c.setReg rd (BitVec.ofNat 64 (2 ^ 63 + cProtRead)) with pc := c.pc + 4 } }
  | _ => s

/-- A parked request fails: clearance with the cause of its right, a read of a block with PROT_READ, a host access as a refused one (R57, R365,
R373); a prefetch and a residency notice go. -/
def failVacant (s : State) (a : VacantAsk) : State :=
  match a with
  | .clr k =>
    match Tbl.find s.clrReqs k with
    | some q => { s with clrReqs := Tbl.put s.clrReqs k { q with ans := some (refuseGranule q.va q.r) } }
    | none => s
  | .fill k =>
    match Tbl.find s.fillReqs k with
    | some q => if q.pref then { s with fillReqs := Tbl.del s.fillReqs k }
      else answerFill s k (.failed (q.va / 4096 * 4096) 4096 cProtRead 0)
    | none => s
  | .res k => { s with resReqs := Tbl.del s.resReqs k }
  | .part i k p => failPart s i k p
  | .host pkg win off _ write _ =>
    match Tbl.find (s.pkg pkg).windows win with
    | some w => hostFails s pkg w.ctx (w.va + off) write
    | none => s
  | .os oc => failOs s oc

/-- A request parked on a vacant index for 1 s, on the device time of the package where it is parked, fails. -/
def vacantTimeout (s : State) (k : Nat) : State :=
  match Tbl.find s.vacantReqs k with
  | some e =>
    if e.since + secondNs ≤ (s.pkg e.pkg).devTime.toNat then failVacant { s with vacantReqs := Tbl.del s.vacantReqs k } e.ask else s
  | none => s

def execVacantIndexTimeout (k : Nat) (s : State) : Out := .next (vacantTimeout s k)

/-! ### Reset, training, margins, power (R374 to R380) -/

/-- The source that yields a verified image (R374): the management port is tried first, then NVMe over fabric. -/
def bootSource (ix : Nat) : Boot := if Config.freeBool ix then .port else if Config.freeBool (ix + 1) then .fabric else .failed

/-- The measurement of each stage: how many stages there are is open, and at least one. -/
def stageLog (ix : Nat) : List Nat := (List.range (1 + Config.freeNat ix % 4)).map fun k => Config.freeNat (ix + 1 + k)

/-- A package after its boot. The frame of the time page and the populated part of the expansion ranges (R366) are open; where no source yields a
verified image, no device core starts and the management port reports it. -/
def bootedPkg (ix : Nat) : Pkg :=
  let src := bootSource ix
  if src = .failed then { Pkg.init with source := src }
  else { Pkg.init with
    booted := true
    source := src
    fwLog := stageLog (ix + 2)
    timePage := 4096 * (Config.freeNat (ix + 7) % 2 ^ 28)
    expansion := (Config.freeNat (ix + 8), Config.freeNat (ix + 9)) }

/-- Reset of a package: everything of it but memory's bytes is as State.reset has it, and it boots. In a domain of several packages it is reset
only while no context exists (DESIGN CHOICE, log 56). -/
def packageReset (s : State) (pkg : Nat) : State :=
  if s.npkgs = 1 ∧ pkg = 0 then
    { State.reset with
      pkgs := [(0, bootedPkg s.freeIx)], mem := s.mem, poison := s.poison, schedule := s.schedule, freeIx := s.freeIx, nextId := s.nextId }
  else if (Tbl.find s.pkgs pkg).isSome && s.ctxs.isEmpty then
    let old := s.pkg pkg
    { s with
      pkgs := Tbl.put s.pkgs pkg { bootedPkg s.freeIx with clock := old.clock, devTime := old.devTime, devFrac := old.devFrac, links := old.links }
      towers := s.towers.filter fun e => e.1 / 8 != pkg
      clusters := s.clusters.filter fun e => e.1 / 64 != pkg
      cores := s.cores.filter fun e => corePkg e.1 != pkg
      osCores := s.osCores.filter fun e => osTower e.1 / 8 != pkg }
  else s

def execPackageReset (pkg : Nat) (s : State) : Out := .next (packageReset s pkg)

/-- The frame of a context's capability page (R379): a plain read-only page at a 4 KiB-aligned user address. -/
def capFrame (s : State) (ctx va : Nat) : Option Nat :=
  if va % 4096 != 0 || !userAddr s va then none
  else match walkTable s ctx va with
    | .leaf page size p => if pteProc p || !leafAllows .read p || leafAllows .write p then none else frameKey s ctx va (.leaf page size p)
    | _ => none

/-- The header word of a capability record of 8 data bytes (R379). -/
def capHeader (id next : Nat) : Nat := (BitVec.ofNat 32 next ++ 8#8 ++ Config.recordVersion id ++ BitVec.ofNat 16 id).toNat

/-- Data of the service-state record (R380). A context may run on every package of its domain, so TRAINED says that all of them have ended their
training, and CLK100 gives the slowest clock (DESIGN CHOICE, log 57). -/
def serviceData (s : State) : Nat :=
  (if s.pkgs.all fun e => e.2.trained then 1 else 0) + 2 ^ 8 * minOf (s.pkgs.map fun e => e.2.clk100)

/-- Data of the identity record (R380). -/
def identityData : Nat := (0#40 ++ Config.stepping ++ 0xB108#16).toNat

/-- The OS cores write the capability list into the page's frame: identity, then service state (R379, R380). -/
def capWrite (s : State) (k : Nat) : State :=
  let s1 := physPut (physPut s k 8 (capHeader 1 16)) (k + 8) 8 identityData
  physPut (physPut s1 (k + 16) 8 (capHeader 2 0)) (k + 24) 8 (serviceData s)

/-- Firmware's store of the service-state record, in every context's page (R376). -/
def capUpdate (s : State) : State :=
  let frames := (s.ctxs.filterMap fun e => capFrame s e.1 e.2.capbase.toNat).dedup
  frames.foldl (fun s k => framePut s (k + 24) (serviceData s)) s

/-- Margin training ends: full service (R375). -/
def execTrainingComplete (pkg : Nat) (s : State) : Out :=
  .next (if (Tbl.find s.pkgs pkg).isSome ∧ (s.pkg pkg).trained = false then
      capUpdate (s.updPkg pkg fun p => { p with trained := true, clk100 := 36 })
    else s)

/-- The power cap's step of 100 MHz, from 1.8 GHz to 3.6 GHz; before training the clock stays at 1.8 GHz. -/
def execPowerCapStep (pkg : Nat) (up : Bool) (s : State) : Out :=
  let p := s.pkg pkg
  let c := if up then (if p.trained then min 36 (p.clk100 + 1) else p.clk100) else max 18 (p.clk100 - 1)
  .next (if (Tbl.find s.pkgs pkg).isSome ∧ c ≠ p.clk100 then capUpdate (s.updPkg pkg fun p => { p with clk100 := c }) else s)

def hoursNs (n : Nat) : Nat := n * 3600 * 10 ^ 9

def towerNow (s : State) (tw : Nat) : Nat := (s.pkg (tw / 8)).devTime.toNat

def updReplan (s : State) (tw : Nat) (f : RePlan → RePlan) : State := s.updTower tw fun t => { t with replan := f t.replan }

/-- 250 hours since the last re-plan. -/
def execReplanDue (tower : Nat) (s : State) : Out :=
  .next (if (s.tower tower).replan.last + hoursNs 250 ≤ towerNow s tower then updReplan s tower fun r => { r with due := true } else s)

/-- 24 hours more without an idle window. -/
def execReplanStarved (tower : Nat) (s : State) : Out :=
  let r := (s.tower tower).replan
  .next (if r.due ∧ ¬ r.active ∧ r.last + hoursNs 274 ≤ towerNow s tower then updReplan s tower fun r => { r with starved := true } else s)

/-- The tower holds no resident crew. -/
def towerIdle (s : State) (tw : Nat) : Bool := (List.range 8).all fun k => clusterFree s (8 * tw + k)

/-- An idle window: no resident crew for 100 ms, or, where the tower was starved and takes no span, from the last exit on. -/
def windowOpen (s : State) (tw : Nat) : Bool :=
  let r := (s.tower tw).replan
  towerIdle s tw && (r.starved || r.busy + 100000000 ≤ towerNow s tw)

def execReplanStart (tower : Nat) (s : State) : Out :=
  let r := (s.tower tower).replan
  .next (if r.due ∧ ¬ r.active ∧ windowOpen s tower = true then updReplan s tower fun r => { r with active := true, last := towerNow s tower } else s)

def execReplanDone (tower : Nat) (s : State) : Out :=
  .next (if (s.tower tower).replan.active then updReplan s tower fun r => ⟨towerNow s tower, false, false, false, r.busy⟩ else s)

/-! ### Contexts and domains -/

/-- The OS cores write the Keystone record of each tower, and the areas hold no node, slot or cache entry (R192, R194, R196). -/
def ksSetup (s : State) (ksRec : Nat) (recs : List Nat) : State :=
  (recs.zipIdx).foldl (fun s e =>
    let m := (ksAreas e.2 e.1).foldl (fun m a => Mem.clear m a.1 a.2) s.mem
    { s with mem := Mem.writeLE m (physKey (e.2 / 8) (ksRec + 32 * (e.2 % 8))) 32 e.1 }) s

/-- The OS cores create a context once firmware is up and its log sealed (R192, R247, R374, R379): its tables map a read-only page at CAPBASE, into
which they write the capability list. `recs`: the Keystone record of each tower of the domain, written from `ksRec` on in each package. -/
def contextCreation (s : State) (ctx root migPool procPool drain ksRec : Nat) (recs : List Nat) (sys : Bool) (cap : DWord) : State :=
  let ok := ctx < 256 && !s.hasCtx ctx && (s.pkg 0).booted && root % 4096 == 0 && migPool % 8 == 0 && 1 ≤ drain && drain ≤ 1000 &&
    recs.length == 8 * s.npkgs && (recs.zipIdx).all fun e => ksRecOk e.2 e.1
  let s1 := (ksSetup s ksRec recs).setCtx ctx { Ctx.init with
    root := root, sys := sys, migPool := migPool, procPool := procPool, drain := drain, ksRec := ksRec, capbase := cap }
  match if ok then capFrame s1 ctx cap.toNat else none with
  | some k => capWrite s1 k
  | none => s

/-- `ks`: where the Keystone records start, and the record of each tower. -/
def execContextCreation (ctx root migPool procPool drain : Nat) (ks : Nat × List Nat) (sys : Bool) (cap : DWord) (s : State) : Out :=
  .next (contextCreation s ctx root migPool procPool drain ks.1 ks.2 sys cap)

/-- Firmware's assignment of the 72 links of a package: two for each peer, the rest to endpoints (R367). -/
def formLinks (n pkg : Nat) : Tbl Nat :=
  let peers := (List.range n).filter (· != pkg)
  (List.range 72).map fun k => (k, match peers[k / 2]? with | some q => q | none => 64 + k)

/-- Packages are joined into a domain, before any context exists; the frame of the other packages' time pages and the populated part of their
expansion ranges are open. -/
def domainFormation (s : State) (n : Nat) : State :=
  if 1 ≤ n && n ≤ 32 && s.ctxs.isEmpty && (s.pkg 0).booted then
    let p := s.pkg 0
    let one := fun (k : Nat) =>
      let q := if k = 0 then p else { Pkg.init with
        booted := true, source := .port, devTime := p.devTime, devFrac := p.devFrac, fwLog := p.fwLog
        timePage := 4096 * (Config.freeNat (s.freeIx + 3 * k + 2) % 2 ^ 28)
        expansion := (Config.freeNat (s.freeIx + 3 * k), Config.freeNat (s.freeIx + 3 * k + 1)) }
      (k, { q with links := formLinks n k, linkDown := [], turn := [] })
    { s with npkgs := n, pkgs := (List.range n).map one }
  else s

def execDomainFormation (n : Nat) (s : State) : Out := .next (domainFormation s n)

/-! ### What the opcode table does not list -/

def outsideAct (s : State) (o : Outside) : State :=
  match o with
  | .openWindow pkg win host size ctx va wr => openWindow s pkg win ⟨host, size, ctx, va, wr⟩
  | .closeWindow pkg win => closeWindow_ s pkg win
  | .placeQueue pkg ctx endpoint va => placeQueue s pkg ctx endpoint va
  | .memoryError line => memoryError s line

end Sys2Proof.Machine
end

