-- ==== Sys2Proof/Machine/Dispatch.lean ====
section
/-! DEFINITION. Which meaning each instruction has: one arm per constructor of Instr. -/

namespace Sys2Proof.Machine

def exec (i : Instr) (s : State) : Host.Outcome State Fault Refusal :=
  match i with
  | .nop h => Sys2Proof.Machine.execNop h s
  | .bra h => Sys2Proof.Machine.execBra h s
  | .braUni h => Sys2Proof.Machine.execBraUni h s
  | .brx h a => Sys2Proof.Machine.execBrx h a s
  | .call h d => Sys2Proof.Machine.execCall h d s
  | .callx h d a => Sys2Proof.Machine.execCallx h d a s
  | .ret h a => Sys2Proof.Machine.execRet h a s
  | .brace h => Sys2Proof.Machine.execBrace h s
  | .meet h => Sys2Proof.Machine.execMeet h s
  | .exit h => Sys2Proof.Machine.execExit h s
  | .regang h => Sys2Proof.Machine.execRegang h s
  | .yield h => Sys2Proof.Machine.execYield h s
  | .sleep h a => Sys2Proof.Machine.execSleep h a s
  | .trap h => Sys2Proof.Machine.execTrap h s
  | .bpt h => Sys2Proof.Machine.execBpt h s
  | .rteRetry h => Sys2Proof.Machine.execRteRetry h s
  | .rteResume h => Sys2Proof.Machine.execRteResume h s
  | .step h => Sys2Proof.Machine.execStep h s
  | .iadd h sat t d a b => Sys2Proof.Machine.execIadd h sat t d a b s
  | .isub h sat t d a b => Sys2Proof.Machine.execIsub h sat t d a b s
  | .imul h t d a b => Sys2Proof.Machine.execImul h t d a b s
  | .imulh h t d a b => Sys2Proof.Machine.execImulh h t d a b s
  | .imad h acc64 t d a b c => Sys2Proof.Machine.execImad h acc64 t d a b c s
  | .imin h t d a b => Sys2Proof.Machine.execImin h t d a b s
  | .imax h t d a b => Sys2Proof.Machine.execImax h t d a b s
  | .iabs h sat t d a => Sys2Proof.Machine.execIabs h sat t d a s
  | .iadd3 h t d a b c => Sys2Proof.Machine.execIadd3 h t d a b c s
  | .iaddc h sub p t d a b => Sys2Proof.Machine.execIaddc h sub p t d a b s
  | .icmp h cond t pd a b => Sys2Proof.Machine.execIcmp h cond t pd a b s
  | .isel h neg p t d a b => Sys2Proof.Machine.execIsel h neg p t d a b s
  | .lea h n t d a b => Sys2Proof.Machine.execLea h n t d a b s
  | .isad h t d a b c => Sys2Proof.Machine.execIsad h t d a b c s
  | .idot4 h mix sat t d a b c => Sys2Proof.Machine.execIdot4 h mix sat t d a b c s
  | .and h inv t d a b => Sys2Proof.Machine.execAnd h inv t d a b s
  | .or h inv t d a b => Sys2Proof.Machine.execOr h inv t d a b s
  | .xor h inv t d a b => Sys2Proof.Machine.execXor h inv t d a b s
  | .mix3 h t d a b c => Sys2Proof.Machine.execMix3 h t d a b c s
  | .shl h wrap t d a b => Sys2Proof.Machine.execShl h wrap t d a b s
  | .shr h wrap t d a b => Sys2Proof.Machine.execShr h wrap t d a b s
  | .sar h wrap t d a b => Sys2Proof.Machine.execSar h wrap t d a b s
  | .rot h right t d a b => Sys2Proof.Machine.execRot h right t d a b s
  | .fshf h left clamp d a b c => Sys2Proof.Machine.execFshf h left clamp d a b c s
  | .bfx h t d a b c => Sys2Proof.Machine.execBfx h t d a b c s
  | .bfi h t d a b c e => Sys2Proof.Machine.execBfi h t d a b c e s
  | .popc h t d a => Sys2Proof.Machine.execPopc h t d a s
  | .clz h t d a => Sys2Proof.Machine.execClz h t d a s
  | .brev h t d a => Sys2Proof.Machine.execBrev h t d a s
  | .bsel h d a b c => Sys2Proof.Machine.execBsel h d a b c s
  | .ffs h hi t d a => Sys2Proof.Machine.execFfs h hi t d a s
  | .fadd h sat t d a b => Sys2Proof.Machine.execFadd h sat t d a b s
  | .fsub h sat t d a b => Sys2Proof.Machine.execFsub h sat t d a b s
  | .fmul h sat t d a b => Sys2Proof.Machine.execFmul h sat t d a b s
  | .ffma h sat t d a b c => Sys2Proof.Machine.execFfma h sat t d a b c s
  | .fmin h t d a b => Sys2Proof.Machine.execFmin h t d a b s
  | .fmax h t d a b => Sys2Proof.Machine.execFmax h t d a b s
  | .fcmp h cond t pd a b => Sys2Proof.Machine.execFcmp h cond t pd a b s
  | .fclass h t d a => Sys2Proof.Machine.execFclass h t d a s
  | .frnd h dir t d a => Sys2Proof.Machine.execFrnd h dir t d a s
  | .fdp2 h t d a b c => Sys2Proof.Machine.execFdp2 h t d a b c s
  | .fscale h t d a b => Sys2Proof.Machine.execFscale h t d a b s
  | .fsgn h op t d a b => Sys2Proof.Machine.execFsgn h op t d a b s
  | .rcp h d a => Sys2Proof.Machine.execRcp h d a s
  | .rsq h d a => Sys2Proof.Machine.execRsq h d a s
  | .sqrt h d a => Sys2Proof.Machine.execSqrt h d a s
  | .exp2 h d a => Sys2Proof.Machine.execExp2 h d a s
  | .log2 h d a => Sys2Proof.Machine.execLog2 h d a s
  | .sin h d a => Sys2Proof.Machine.execSin h d a s
  | .cos h d a => Sys2Proof.Machine.execCos h d a s
  | .tanh h d a => Sys2Proof.Machine.execTanh h d a s
  | .fcvt h t src d a b => Sys2Proof.Machine.execFcvt h t src d a b s
  | .i2f h t src d a => Sys2Proof.Machine.execI2f h t src d a s
  | .f2i h t src d a => Sys2Proof.Machine.execF2i h t src d a s
  | .cvtn h n d a b => Sys2Proof.Machine.execCvtn h n d a b s
  | .cvtw h n d a b => Sys2Proof.Machine.execCvtw h n d a b s
  | .spcomp h t n d a b => Sys2Proof.Machine.execSpcomp h t n d a b s
  | .spexp h t d a b => Sys2Proof.Machine.execSpexp h t d a b s
  | .mov h t d a => Sys2Proof.Machine.execMov h t d a s
  | .movi h t d => Sys2Proof.Machine.execMovi h t d s
  | .movih h d => Sys2Proof.Machine.execMovih h d s
  | .rdsr h t d => Sys2Proof.Machine.execRdsr h t d s
  | .wrsr h t a => Sys2Proof.Machine.execWrsr h t a s
  | .pmix h pd a b c => Sys2Proof.Machine.execPmix h pd a b c s
  | .psave h q d => Sys2Proof.Machine.execPsave h q d s
  | .pload h q a => Sys2Proof.Machine.execPload h q a s
  | .flgrd h d => Sys2Proof.Machine.execFlgrd h d s
  | .flgclr h => Sys2Proof.Machine.execFlgclr h s
  | .v2s h t d a b => Sys2Proof.Machine.execV2s h t d a b s
  | .lxch h mode t d a b => Sys2Proof.Machine.execLxch h mode t d a b s
  | .vote h op a => Sys2Proof.Machine.execVote h op a s
  | .redux h op t d a => Sys2Proof.Machine.execRedux h op t d a s
  | .scan h op excl t d a => Sys2Proof.Machine.execScan h op excl t d a s
  | .matchLanes h same t d a => Sys2Proof.Machine.execMatch h same t d a s
  | .lead h pd a => Sys2Proof.Machine.execLead h pd a s
  | .ld h m sz d => Sys2Proof.Machine.execLd h m sz d s
  | .st h m sz d => Sys2Proof.Machine.execSt h m sz d s
  | .ldl h m sp sz sgn d => Sys2Proof.Machine.execLdl h m sp sz sgn d s
  | .stl h m sp sz d => Sys2Proof.Machine.execStl h m sp sz d s
  | .atom h m op t d => Sys2Proof.Machine.execAtom h m op t d s
  | .red h m op t d => Sys2Proof.Machine.execRed h m op t d s
  | .cas h m t d e => Sys2Proof.Machine.execCas h m t d e s
  | .prefL2 h m => Sys2Proof.Machine.execPrefL2 h m s
  | .prefLlc h m => Sys2Proof.Machine.execPrefLlc h m s
  | .preq h m => Sys2Proof.Machine.execPreq h m s
  | .tex h d a b c e => Sys2Proof.Machine.execTex h d a b c e s
  | .tld h d a b => Sys2Proof.Machine.execTld h d a b s
  | .tqry h d a => Sys2Proof.Machine.execTqry h d a s
  | .nmred h m op t d => Sys2Proof.Machine.execNmred h m op t d s
  | .cctlIinv h => Sys2Proof.Machine.execCctlIinv h s
  | .cctlWb h m => Sys2Proof.Machine.execCctlWb h m s
  | .cctlEvict h m => Sys2Proof.Machine.execCctlEvict h m s
  | .fenceDrain h => Sys2Proof.Machine.execFenceDrain h s
  | .fenceOrdered h k => Sys2Proof.Machine.execFenceOrdered h k s
  | .bar h => Sys2Proof.Machine.execBar h s
  | .arrive h => Sys2Proof.Machine.execArrive h s
  | .await h => Sys2Proof.Machine.execAwait h s
  | .rinit h ring a => Sys2Proof.Machine.execRinit h ring a s
  | .rpost h ring a => Sys2Proof.Machine.execRpost h ring a s
  | .rget h ring full a => Sys2Proof.Machine.execRget h ring full a s
  | .rrel h ring a => Sys2Proof.Machine.execRrel h ring a s
  | .town h spanSp own a b => Sys2Proof.Machine.execTown h spanSp own a b s
  | .twait h spanSp own a => Sys2Proof.Machine.execTwait h spanSp own a s
  | .cwait h k d a => Sys2Proof.Machine.execCwait h k d a s
  | .waitmem h m cond t d => Sys2Proof.Machine.execWaitmem h m cond t d s
  | .stmap h a b c => Sys2Proof.Machine.execStmap h a b c s
  | .stunmap h a => Sys2Proof.Machine.execStunmap h a s
  | .stwb h a => Sys2Proof.Machine.execStwb h a s
  | .stinv h a => Sys2Proof.Machine.execStinv h a s
  | .trst h ch a b => Sys2Proof.Machine.execTrst h ch a b s
  | .trstq h ch d => Sys2Proof.Machine.execTrstq h ch d s
  | .trstk h ch => Sys2Proof.Machine.execTrstk h ch s
  | .mcgrp h d a b => Sys2Proof.Machine.execMcgrp h d a b s
  | .mloop h a b => Sys2Proof.Machine.execMloop h a b s
  | .mloopSp h a b => Sys2Proof.Machine.execMloopSp h a b s
  | .maclrFast h a => Sys2Proof.Machine.execMaclrFast h a s
  | .maclrExact h a b => Sys2Proof.Machine.execMaclrExact h a b s
  | .mard h bf a b => Sys2Proof.Machine.execMard h bf a b s
  | .mstat h clr d => Sys2Proof.Machine.execMstat h clr d s
  | .dkwin h a => Sys2Proof.Machine.execDkwin h a s
  | .dklin h d a b c => Sys2Proof.Machine.execDklin h d a b c s
  | .dkedge h a b c => Sys2Proof.Machine.execDkedge h a b c s
  | .dkquad h d a => Sys2Proof.Machine.execDkquad h d a s
  | .dkexp h d a b => Sys2Proof.Machine.execDkexp h d a b s
  | .dkpush h => Sys2Proof.Machine.execDkpush h s
  | .dkpop h => Sys2Proof.Machine.execDkpop h s
  | .dkelse h => Sys2Proof.Machine.execDkelse h s
  | .dkop h fn t d a b c => Sys2Proof.Machine.execDkop h fn t d a b c s
  | .dkmov h d a => Sys2Proof.Machine.execDkmov h d a s
  | .dkld h d a => Sys2Proof.Machine.execDkld h d a s
  | .dkst h d a => Sys2Proof.Machine.execDkst h d a s
  | .dktex h d a b c e => Sys2Proof.Machine.execDktex h d a b c e s
  | .dkany h all q a => Sys2Proof.Machine.execDkany h all q a s
  | .dksum h op t d a => Sys2Proof.Machine.execDksum h op t d a s
  | .dkxp h d a b c e => Sys2Proof.Machine.execDkxp h d a b c e s
  | .dktest h test => Sys2Proof.Machine.execDktest h test s
  | .dkflg h d => Sys2Proof.Machine.execDkflg h d s
  | .ddvar h d a => Sys2Proof.Machine.execDdvar h d a s
  | .ddapp h lut d a b => Sys2Proof.Machine.execDdapp h lut d a b s
  | .ddite h d a b c => Sys2Proof.Machine.execDdite h d a b c s
  | .ddnot h d a => Sys2Proof.Machine.execDdnot h d a s
  | .ddres h d a b c => Sys2Proof.Machine.execDdres h d a b c s
  | .ddqnt h all d a b => Sys2Proof.Machine.execDdqnt h all d a b s
  | .ddcnt h flt d a b c => Sys2Proof.Machine.execDdcnt h flt d a b c s
  | .ddexp h d a b c => Sys2Proof.Machine.execDdexp h d a b c s
  | .ddref h a => Sys2Proof.Machine.execDdref h a s
  | .ddunref h a => Sys2Proof.Machine.execDdunref h a s
  | .ddswp h => Sys2Proof.Machine.execDdswp h s
  | .ddord h a => Sys2Proof.Machine.execDdord h a s
  | .ddstat h d a => Sys2Proof.Machine.execDdstat h d a s
  | .ddnode h d a => Sys2Proof.Machine.execDdnode h d a s
  | .pgreg h a b => Sys2Proof.Machine.execPgreg h a b s
  | .pgregRelease h a => Sys2Proof.Machine.execPgregRelease h a s
  | .pgdone h => Sys2Proof.Machine.execPgdone h s
  | .pgfail h a => Sys2Proof.Machine.execPgfail h a s
  | .pgrstBlk h a => Sys2Proof.Machine.execPgrstBlk h a s
  | .pgrstSlot h a => Sys2Proof.Machine.execPgrstSlot h a s
  | .launch h d a => Sys2Proof.Machine.execLaunch h d a s
  | .lwait h d a => Sys2Proof.Machine.execLwait h d a s
  | .migr h d a => Sys2Proof.Machine.execMigr h d a s
  | .shootDg h a b c => Sys2Proof.Machine.execShootDg h a b c s
  | .shootFlush h a => Sys2Proof.Machine.execShootFlush h a s
  | .halt h d => Sys2Proof.Machine.execHalt h d s
  | .ctxstopPre h d a => Sys2Proof.Machine.execCtxstopPre h d a s
  | .ctxstopKill h d a => Sys2Proof.Machine.execCtxstopKill h d a s
  | .ctxgo h a b => Sys2Proof.Machine.execCtxgo h a b s
  | .fyLaunch rd rs1 rs2 => Sys2Proof.Machine.execFyLaunch rd rs1 rs2 s
  | .writeFlags h t a => Sys2Proof.Machine.execWriteFlags h t a s
  | .writeDkflags h t a => Sys2Proof.Machine.execWriteDkflags h t a s
  | .writeTrapvec h t a => Sys2Proof.Machine.execWriteTrapvec h t a s
  | .writeTrapRegister h t a => Sys2Proof.Machine.execWriteTrapRegister h t a s
  | .writeFormatRegister h t a => Sys2Proof.Machine.execWriteFormatRegister h t a s
  | .writeTensorScale h t a => Sys2Proof.Machine.execWriteTensorScale h t a s
  | .writeL2wp h t a => Sys2Proof.Machine.execWriteL2wp h t a s
  | .contextRegisterPropagated ctx ix => Sys2Proof.Machine.execContextRegisterPropagated ctx ix s
  | .l2wpRaiseDone cluster => Sys2Proof.Machine.execL2wpRaiseDone cluster s
  | .resultWriteback sl k => Sys2Proof.Machine.execResultWriteback sl k s
  | .runArbitration core slot => Sys2Proof.Machine.execRunArbitration core slot s
  | .unitWaitRaised core slot sl => Sys2Proof.Machine.execUnitWaitRaised core slot sl s
  | .runLengthCut core slot => Sys2Proof.Machine.execRunLengthCut core slot s
  | .sleepExpire sl => Sys2Proof.Machine.execSleepExpire sl s
  | .wakeWord core word => Sys2Proof.Machine.execWakeWord core word s
  | .homeReadRequest sl acc piece => Sys2Proof.Machine.execHomeReadRequest sl acc piece s
  | .homeStoreRequest sl acc piece => Sys2Proof.Machine.execHomeStoreRequest sl acc piece s
  | .nearMemoryReduction sl acc piece => Sys2Proof.Machine.execNearMemoryReduction sl acc piece s
  | .recall stash holder ctx line => Sys2Proof.Machine.execRecall stash holder ctx line s
  | .writebackArrival k => Sys2Proof.Machine.execWritebackArrival k s
  | .bankSleep bank => Sys2Proof.Machine.execBankSleep bank s
  | .migrationStart ctx va => Sys2Proof.Machine.execMigrationStart ctx va s
  | .migrationMarkDrained mig => Sys2Proof.Machine.execMigrationMarkDrained mig s
  | .migrationLineCopy mig => Sys2Proof.Machine.execMigrationLineCopy mig s
  | .migrationAccess mig line => Sys2Proof.Machine.execMigrationAccess mig line s
  | .migrationPullDone mig line => Sys2Proof.Machine.execMigrationPullDone mig line s
  | .clearanceRequest k => Sys2Proof.Machine.execClearanceRequest k s
  | .pageWalkDone tower ctx va => Sys2Proof.Machine.execPageWalkDone tower ctx va s
  | .clearanceAnswer k => Sys2Proof.Machine.execClearanceAnswer k s
  | .residencyRequest k => Sys2Proof.Machine.execResidencyRequest k s
  | .shootdownMessage dg core => Sys2Proof.Machine.execShootdownMessage dg core s
  | .shootdownAnswer dg core => Sys2Proof.Machine.execShootdownAnswer dg core s
  | .downgradeClose dg => Sys2Proof.Machine.execDowngradeClose dg s
  | .procBlockRead k => Sys2Proof.Machine.execProcBlockRead k s
  | .procPrefEvent k => Sys2Proof.Machine.execProcPrefEvent k s
  | .generatorLaunch tower => Sys2Proof.Machine.execGeneratorLaunch tower s
  | .fillDoneAtHome k => Sys2Proof.Machine.execFillDoneAtHome k s
  | .generatorFailure crew => Sys2Proof.Machine.execGeneratorFailure crew s
  | .procRetryReissue k => Sys2Proof.Machine.execProcRetryReissue k s
  | .routerGrant reply tower stage router out => Sys2Proof.Machine.execRouterGrant reply tower stage router out s
  | .ageingSaturate pkt => Sys2Proof.Machine.execAgeingSaturate pkt s
  | .replyArrival pkt => Sys2Proof.Machine.execReplyArrival pkt s
  | .windowRaise core => Sys2Proof.Machine.execWindowRaise core s
  | .windowAdmit core => Sys2Proof.Machine.execWindowAdmit core s
  | .towerLinkForward pkt => Sys2Proof.Machine.execTowerLinkForward pkt s
  | .accMerge core => Sys2Proof.Machine.execAccMerge core s
  | .mcastRequest k => Sys2Proof.Machine.execMcastRequest k s
  | .mcastSetLeave k => Sys2Proof.Machine.execMcastSetLeave k s
  | .mcastGroupDrained cluster group => Sys2Proof.Machine.execMcastGroupDrained cluster group s
  | .remoteStashAccess sl acc piece => Sys2Proof.Machine.execRemoteStashAccess sl acc piece s
  | .trestleEntryFetch crew ch => Sys2Proof.Machine.execTrestleEntryFetch crew ch s
  | .trestleCopy crew ch ent piece => Sys2Proof.Machine.execTrestleCopy crew ch ent piece s
  | .trestleGather crew ch ent piece => Sys2Proof.Machine.execTrestleGather crew ch ent piece s
  | .trestleScatter crew ch ent piece => Sys2Proof.Machine.execTrestleScatter crew ch ent piece s
  | .trestleMcast crew ch ent piece => Sys2Proof.Machine.execTrestleMcast crew ch ent piece s
  | .trestleReduceMemory crew ch ent piece => Sys2Proof.Machine.execTrestleReduceMemory crew ch ent piece s
  | .trestleReduceCollective crew ch => Sys2Proof.Machine.execTrestleReduceCollective crew ch s
  | .collectiveContribution k => Sys2Proof.Machine.execCollectiveContribution k s
  | .trestleVxfer crew ch ent piece => Sys2Proof.Machine.execTrestleVxfer crew ch ent piece s
  | .trestleFlip crew ch => Sys2Proof.Machine.execTrestleFlip crew ch s
  | .trestlePost crew ch => Sys2Proof.Machine.execTrestlePost crew ch s
  | .trestleWaitRing crew ch => Sys2Proof.Machine.execTrestleWaitRing crew ch s
  | .trestleWaitCounter crew ch => Sys2Proof.Machine.execTrestleWaitCounter crew ch s
  | .trestleWaitSatisfied crew ch => Sys2Proof.Machine.execTrestleWaitSatisfied crew ch s
  | .trestleLoop crew ch => Sys2Proof.Machine.execTrestleLoop crew ch s
  | .trestleIfWord crew ch => Sys2Proof.Machine.execTrestleIfWord crew ch s
  | .trestleIfRing crew ch => Sys2Proof.Machine.execTrestleIfRing crew ch s
  | .trestleFill crew ch ent piece => Sys2Proof.Machine.execTrestleFill crew ch ent piece s
  | .trestleEnd crew ch => Sys2Proof.Machine.execTrestleEnd crew ch s
  | .trestleEntryComplete crew ch ent => Sys2Proof.Machine.execTrestleEntryComplete crew ch ent s
  | .girderLoopStart core => Sys2Proof.Machine.execGirderLoopStart core s
  | .mloopComplete core => Sys2Proof.Machine.execMloopComplete core s
  | .deckStart crew => Sys2Proof.Machine.execDeckStart crew s
  | .keystoneAnswer sl => Sys2Proof.Machine.execKeystoneAnswer sl s
  | .launchReady launch => Sys2Proof.Machine.execLaunchReady launch s
  | .towerBlockDraw launch tower => Sys2Proof.Machine.execTowerBlockDraw launch tower s
  | .spanStart tower => Sys2Proof.Machine.execSpanStart tower s
  | .crewStart crew => Sys2Proof.Machine.execCrewStart crew s
  | .stealRequest launch cluster => Sys2Proof.Machine.execStealRequest launch cluster s
  | .stepBoundary launch => Sys2Proof.Machine.execStepBoundary launch s
  | .crewEnd crew => Sys2Proof.Machine.execCrewEnd crew s
  | .launchComplete launch => Sys2Proof.Machine.execLaunchComplete launch s
  | .stopRequest ctx => Sys2Proof.Machine.execStopRequest ctx s
  | .contextStopped ctx => Sys2Proof.Machine.execContextStopped ctx s
  | .forceReset ctx => Sys2Proof.Machine.execForceReset ctx s
  | .hostWindowAccess pkg win off len write data => Sys2Proof.Machine.execHostWindowAccess pkg win off len write data s
  | .linkFailure pkg link => Sys2Proof.Machine.execLinkFailure pkg link s
  | .linkRetrained pkg link => Sys2Proof.Machine.execLinkRetrained pkg link s
  | .ptpMessage pkg time => Sys2Proof.Machine.execPtpMessage pkg time s
  | .timePageUpdate pkg => Sys2Proof.Machine.execTimePageUpdate pkg s
  | .equinoxCheck queue => Sys2Proof.Machine.execEquinoxCheck queue s
  | .equinoxFrameSend queue => Sys2Proof.Machine.execEquinoxFrameSend queue s
  | .equinoxStatusWrite queue => Sys2Proof.Machine.execEquinoxStatusWrite queue s
  | .packageLeave pkg => Sys2Proof.Machine.execPackageLeave pkg s
  | .packageReplace pkg => Sys2Proof.Machine.execPackageReplace pkg s
  | .vacantIndexTimeout k => Sys2Proof.Machine.execVacantIndexTimeout k s
  | .packageReset pkg => Sys2Proof.Machine.execPackageReset pkg s
  | .trainingComplete pkg => Sys2Proof.Machine.execTrainingComplete pkg s
  | .replanDue tower => Sys2Proof.Machine.execReplanDue tower s
  | .replanStarved tower => Sys2Proof.Machine.execReplanStarved tower s
  | .replanStart tower => Sys2Proof.Machine.execReplanStart tower s
  | .replanDone tower => Sys2Proof.Machine.execReplanDone tower s
  | .powerCapStep pkg up => Sys2Proof.Machine.execPowerCapStep pkg up s
  | .contextCreation ctx root migPool procPool drain ks sys cap => Sys2Proof.Machine.execContextCreation ctx root migPool procPool drain ks sys cap s
  | .osCorePteStore pkg pa pte => Sys2Proof.Machine.execOsCorePteStore pkg pa pte s
  | .residencyQueueDrain tower n => Sys2Proof.Machine.execResidencyQueueDrain tower n s
  | .forceUnmap ctx va => Sys2Proof.Machine.execForceUnmap ctx va s
  | .managementFlush ctx line => Sys2Proof.Machine.execManagementFlush ctx line s
  | .domainFormation n => Sys2Proof.Machine.execDomainFormation n s

end Sys2Proof.Machine
end

