-- ==== Sys2Proof/Machine/Load.lean ====
section
/-! DEFINITION. Placing one instruction where the machine fetches next: a minimal context, launch, crew and slice that run code at 0x3000,
or the word at OS core 0's PC. It stands for the load of a program from outside (log 40). -/

namespace Sys2Proof.Machine

def loadPc : Nat := 0x3000

/-- Two table words: a pointer at 0x1000 to the table at 0x2000, whose first entry is an identity leaf of 512 GiB with every right. -/
def loadTables (m : Mem) : Mem := Mem.writeLE (Mem.writeLE m 0x1000 8 0x801) 0x2000 8 0xDF

/-- The role that the instruction's role rule asks for. -/
def loadRole (w : Nat) : Role :=
  let op := w % 256
  if 0xA0 ≤ op ∧ op ≤ 0xAF then .deck else if 0x98 ≤ op ∧ op ≤ 0x9A then .mat else if op = 0x90 then .copy else .vec

def loadCtx : Ctx := { Ctx.init with root := 0x1000, sys := true }

def loadRec : LRec where
  entry := BitVec.ofNat 64 loadPc
  args := 0
  prio := 0
  regs := 192
  gang := 1
  nvec := 1
  copy := false
  mat := false
  decks := false
  dk := true
  stash := 16
  spant := 0
  cps := 1
  nspans := 1
  mint := 1
  maxt := 1
  stag := 0
  npkg := 1
  preds := []

def loadLaunch : Launch where
  ctx := 0
  lid := 1
  hw := none
  tower := 0
  lrec := loadRec
  ready := true
  towers := [0]
  gone := []
  drawn := 1
  back := []
  waiting := []
  spans := [1]
  steps := 0
  done := false
  failed := false
  gen := none

def loadCrew : Crew := { Crew.none with
  span := 1, launch := 1, tiles := 16, regs := 192, nvec := 1, slices := [1], hasDeck := true, started := true, ended := false }

def loadSlice (role : Role) : Slice :=
  { Slice.init 1 0 role (BitVec.ofNat 64 loadPc) with fetch := [.grant 0 (2 ^ 39) .exec false] }

def loadCore : Core := { Core.init with slots := ⟨[[1]], [1], 0, 1, 0, []⟩ :: [Slot.init, Slot.init, Slot.init] }

/-- A device instruction at 0x3000. -/
def loadDevice (s : State) (w : Nat) : State :=
  { s with
    mem := Mem.writeLE (loadTables s.mem) loadPc 12 w
    ctxs := Tbl.put s.ctxs 0 loadCtx
    launches := Tbl.put s.launches 1 loadLaunch
    spans := Tbl.put s.spans 1 ⟨1, 0, 0, 0, 0, [], [1]⟩
    crews := Tbl.put s.crews 1 loadCrew
    slices := Tbl.put s.slices 1 (loadSlice (loadRole w))
    cores := Tbl.put s.cores 0 loadCore
    nextId := max s.nextId 2
    schedule := .issue 0 0 7 :: s.schedule }

/-- An OS core's instruction at its PC, firmware being up. -/
def loadOs (s : State) (w : Nat) : State :=
  { s.updPkg 0 fun p => { p with booted := true } with mem := Mem.writeLE s.mem (physKey 0 (osOf s 0).pc.toNat) 4 w, schedule := .os 0 :: s.schedule }

end Sys2Proof.Machine
end

