-- ==== Sys2Proof/Machine/Time.lean ====
section
/-! DEFINITION. The passage of time: a package's clock and device time go on together, and stand where a rule names the moment at which
something happens (R149, R234, R240, R247, R249, R308, R369, R371, R373, R377). -/

namespace Sys2Proof.Machine

/-- `n` clocks of a package: its device time goes on at the clock's rate (R138, R369). -/
def advanceTime (s : State) (pkg n : Nat) : State :=
  s.updPkg pkg fun p =>
    let f := p.devFrac + n * 10000000 / p.clk100
    { p with clock := p.clock + n, devTime := p.devTime + BitVec.ofNat 64 (f / 1000000), devFrac := f % 1000000 }

/-- The most clocks of a package that do not take its device time beyond `t` ns. -/
def clocksTo (p : Pkg) (t : Nat) : Nat :=
  (((t + 1) * 1000000 - (p.devTime.toNat * 1000000 + p.devFrac)) * p.clk100 - 1) / 10000000

/-! ### Clocks at which something is due -/

/-- What a slice of a running context waits for: a ready one is raised after 256 clocks (R240); a sleeping one wakes (R308). -/
def sliceDue (s : State) (i : Nat) (x : Slice) : List Nat :=
  let ready := (x.since.bind fun t => if x.raised then none else some (t + 257)).toList
  match x.park with
  | .after (.clock t) _ => if mustDeliver x || !ctxRuns s (s.ctxOf i) then ready else t :: ready
  | _ => ready

/-- A slot at which a raised slice waits works in every clock until the run of that slice begins (R240): no clock passes but those that its
last instruction takes (R273). So the slice's run begins within R149's bound. -/
def slotDue (s : State) (t : Slot) : List Nat :=
  if (t.units.flatMap id).any fun i => (s.sl i).raised && canIssue s i && !t.holder.contains i then [t.freeAt] else []

def slotsDue (s : State) (pkg : Nat) : List Nat :=
  (s.cores.filter fun e => corePkg e.1 == pkg).flatMap fun e => e.2.slots.flatMap (slotDue s)

/-- Crew c of a span starts c·STAG clocks after its crew 0 (R234). -/
def crewsDue (s : State) (pkg : Nat) : List Nat :=
  (s.crews.filter fun e => corePkg e.2.core == pkg && !e.2.started && !e.2.ended && crewDue s e.1).map fun e => e.2.startAt

/-- A context's stop request and its force-reset, on the clock of package 0 (R247, R249). -/
def ctxDue (s : State) (ctx : Nat) (c : Ctx) : List Nat :=
  match c.st, c.slice, c.stopAt with
  | .running, .until_ t, _ => [t - drainOf s ctx]
  | .stopping, _, some t => [t + 2 * drainOf s ctx]
  | _, _, _ => []

/-- Retries of fill requests (R70). -/
def asksDue (s : State) (pkg : Nat) : List Nat :=
  s.fillReqs.filterMap fun e =>
    if corePkg (askerCore s e.2.who) == pkg then e.2.retry.bind fun r => if r.1 = 0 then none else some r.1 else none

/-- Requests on a vacant index fail after a second (R373). -/
def vacantDue (s : State) (pkg : Nat) : List Nat :=
  s.vacantReqs.filterMap fun e => if e.2.pkg == pkg then some (e.2.since + secondNs) else none

def dueClocks (s : State) (pkg : Nat) : List Nat :=
  ((s.slices.filter fun e => corePkg (s.coreOf e.1) == pkg).flatMap fun e => sliceDue s e.1 e.2) ++ slotsDue s pkg ++ crewsDue s pkg ++ asksDue s pkg ++
    if pkg = 0 then s.ctxs.flatMap fun e => ctxDue s e.1 e.2 else []

/-! ### Device times at which something is due -/

/-- The time page is written each microsecond (R369). -/
def pageDue (s : State) (pkg : Nat) : List Nat :=
  let p := s.pkg pkg
  let d := p.devTime.toNat / 1000
  if p.timePage = 0 || !populated p p.timePage then []
  else if physLE s (physKey pkg p.timePage) 8 / 1000 == d then [1000 * (d + 1)] else [1000 * d + 999]

/-- A present queue's check and its first beat (R371): an entry that is shown or skipped waits for no moment. -/
def queueDue (s : State) (q : EqQueue) : List Nat :=
  let v := eqRead s q
  if (s.pkg q.pkg).vacant || q.sent then []
  else if q.chosen.isSome then [eqDeadline v]
  else if eqCheckAt v < eqNow s q || (eqValid v && 2 ≤ eqStatus v) then [] else [eqCheckAt v]

/-- A re-plan falls due after 250 hours, is starved after 24 more, and lasts at most 50 ms (R377). -/
def replanDue (r : RePlan) : List Nat :=
  if r.active then [r.last + 50000000]
  else if !r.due then [r.last + hoursNs 250]
  else if !r.starved then [r.last + hoursNs 274] else []

/-- Every other package's device time is within 25 ns (R369). -/
def othersDue (s : State) (pkg : Nat) : List Nat := (s.pkgs.filter fun e => e.1 != pkg).map fun e => e.2.devTime.toNat + 25

def dueTimes (s : State) (pkg : Nat) : List Nat :=
  pageDue s pkg ++ ((s.equinox.filter fun e => e.2.pkg == pkg).flatMap fun e => queueDue s e.2) ++
    ((List.range 8).flatMap fun k => replanDue (s.tower (8 * pkg + k)).replan) ++ vacantDue s pkg ++ othersDue s pkg

/-- The queries sent before this clock reach their Trestles at the next (R337). -/
def queriesArrive (s : State) (pkg : Nat) : State :=
  { s with slices := s.slices.map fun (e : Nat × Slice) =>
      if corePkg (s.coreOf e.1) = pkg ∧ e.2.queries ≠ [] then (e.1, answerQueries s e.2) else e }

/-- The towers that held a resident crew while time passed (R377). -/
def markBusy (s : State) (pkg : Nat) : State :=
  (((s.crews.filter fun e => !e.2.ended && corePkg e.2.core == pkg && (s.ctx e.2.ctx).st != .stopped).map fun e => coreTower e.2.core).dedup).foldl
    (fun s tw => updReplan s tw fun r => { r with busy := towerNow s tw }) s

/-- `n` clocks pass, or fewer: time stands where something is due until it has happened. -/
def tick (s : State) (pkg n : Nat) : State :=
  if (Tbl.find s.pkgs pkg).isSome then
    let s1 := markWaits s pkg
    let p := s.pkg pkg
    let m := (((dueClocks s1 pkg).map fun t => t - p.clock) ++ (dueTimes s1 pkg).map (clocksTo p)).foldl min n
    if m = 0 then s1 else markBusy (advanceTime (queriesArrive s1 pkg) pkg m) pkg
  else s

end Sys2Proof.Machine
end

