-- ==== Sys2Proof/Machine/Step.lean ====
section
/-! DEFINITION. One step of the machine: the next agent of the schedule acts. -/

namespace Sys2Proof.Machine

/-- The schedule's next move, or an open one, and the state without it. -/
def nextMove (s : State) : Move × State :=
  match s.schedule with
  | m :: rest => (m, { s with schedule := rest, freeIx := s.freeIx + 1 })
  | [] => (Config.freeMove s.freeIx, { s with freeIx := s.freeIx + 1 })

/-- An OS core runs one instruction, once the boot core has let it (R374): only FY.LAUNCH is the manual's. -/
def osStep (s : State) (oc : Nat) : Host.Outcome State Fault Refusal :=
  if (s.pkg (osTower oc / 8)).booted then
    match decodeOs (osWord s oc) with
    | some i => exec i { s with curOs := some oc }
    | none => .refused .osCode
  else .next s

/-- One move. -/
def stepMove (s : State) (m : Move) : Host.Outcome State Fault Refusal :=
  match m with
  | .issue core slot fresh =>
    match issueAt s core slot fresh with
    | .idle t => .next t
    | .done t => .next t
    | .run i t => exec i t
  | .os oc => osStep s oc
  | .event i => if isEvent i then exec i s else .next s
  | .outside o => .next (outsideAct s o)
  | .tick pkg n => .next (tick s pkg n)

def step (s : State) : Host.Outcome State Fault Refusal := stepMove (nextMove s).2 (nextMove s).1

/-- The instruction whose bits are `w` stands where the next step fetches: a 32-bit one for OS core 0, any other for a slice. -/
def State.withFetchWord (s : State) (nbits w : Nat) : State :=
  if nbits = 32 ∧ (decodeOs w).isSome then loadOs s w else loadDevice s w

end Sys2Proof.Machine
end

