-- ==== Sys2Proof/Safety.lean ====
section
/-! DEFINITION. The terms in which claims are stated: a well-kept state, what an issued instruction leaves unchanged, and what a result
written to a register is. -/

namespace Sys2Proof.Machine

/-- The canonical form of the five byte memories: frames, stash, span scratch, LLC lines, dirty L2 sectors. -/
def State.memWf (s : State) : Bool :=
  Mem.wf s.mem && Mem.wf s.stash && Mem.wf s.scratch && Mem.wf s.llcData && Mem.wf s.l2Data

/-- A unit of distinct slices holds the issue. -/
def State.unitIn (s : State) : Prop := s.cur ≠ [] ∧ s.cur.Nodup

/-- Only slices of the unit and the issue slots of cores differ, and the unit no longer holds the issue. -/
structure UnitFrame (s t : State) : Prop where
  others : ∀ j, j ∉ s.cur → t.sl j = s.sl j
  cores : ∀ k, { t.core k with slots := (s.core k).slots } = s.core k
  rest : { t with slices := s.slices, cores := s.cores, cur := s.cur } = s
  cur : t.cur = []

/-- `t` is `u` but for the issue slots of cores, and no unit holds the issue. -/
structure SlotsOnly (u t : State) : Prop where
  cores : ∀ k, { t.core k with slots := (u.core k).slots } = u.core k
  rest : { t with cores := u.cores, cur := u.cur } = u
  cur : t.cur = []

/-- A slice as its instruction's effect finds it: running, its answers used up (R54, R139). -/
def atIssue (x : Slice) : Slice := { x with park := .run, answers := [], relIn := false, lost := [], begun := none }

/-- Instruction i completes in the unit that holds the issue: slice j becomes `f j x`, parked after it by W (R142), and nothing else
changes but the unit's issue slot. -/
def Completes (i : Instr) (h : Hdr) (f : Nat → Slice → Slice) (s : State) : Prop :=
  ∃ t, exec i s = .next t ∧ UnitFrame s t ∧ ∀ j ∈ s.cur, t.sl j = waitW h (f j (s.sl j))

/-- The state in which slice j, alone in its unit, has begun its instruction. -/
def State.begun (s : State) (j : Nat) : State := s.updSl j atIssue

/-- Instruction i completes in a unit of the one slice j: `u` is the state with its effect, the PC goes past it, W parks the slice. -/
def CompletesOne (i : Instr) (h : Hdr) (j : Nat) (u s : State) : Prop :=
  ∃ t, exec i s = .next t ∧ SlotsOnly (u.updSl j fun x => waitW h x.next) t

/-! ### Results in registers -/

/-- An instruction that computes on registers: its destination and type, its sources, the registers it names, and for a lane the value
and the flags. -/
structure Result where
  hdr  : Hdr
  ty   : Ty
  dst  : Opnd
  srcs : List Opnd
  regs : List (Opnd × Nat)
  val  : Crew → Slice → Nat → DWord × Flags

/-- Where it executes (R135). -/
def Result.lanes (r : Result) (x : Slice) : BitVec 4 := lanesFor (vecMode r.dst r.srcs) r.hdr x

/-- The lanes that it computes for: the executing ones, or once (lane 0 stands for the slice). -/
def Result.runs (r : Result) (x : Slice) (l : Nat) : Bool :=
  if vecMode r.dst r.srcs then (r.lanes x).getLsbD l else r.lanes x != 0 && l == 0

/-- Slice x has become y: each executing lane's destination register holds the value of the operands as they stood before, a 32-bit
result in an s register clears bits [63:32], zero discards (R136, R259); the flags raised are ORed into FLAGS (R154); every other register,
every other field is unchanged but for the PC, which is 12 further, and the park of W. -/
structure Result.Wrote (r : Result) (c : Crew) (x y : Slice) : Prop where
  vregs : ∀ n l, l < 4 → y.vreg n l =
    match r.dst with
    | .v d =>
      if r.runs x l && n == d then (r.val c x l).1.setWidth 32
      else if r.runs x l && r.ty.is64 && n == d + 1 then ((r.val c x l).1 >>> 32).setWidth 32
      else x.vreg n l
    | _ => x.vreg n l
  sregs : ∀ n, y.sreg n =
    match r.dst with
    | .s d =>
      if r.runs x 0 && n == d then (if r.ty.is64 then (r.val c x 0).1 else ((r.val c x 0).1.setWidth 32).setWidth 64)
      else x.sreg n
    | _ => x.sreg n
  flags : ∀ k, y.flags.getLsbD k = (x.flags.getLsbD k || [0, 1, 2, 3].any fun l => r.runs x l && (r.val c x l).2.getLsbD k)
  rest : { y with v := x.v, s := x.s, flags := x.flags } = waitW r.hdr (atIssue x).next

/-- The instruction completes with that result in every slice of the unit. -/
def Result.Holds (r : Result) (i : Instr) (s : State) : Prop :=
  ∃ t, exec i s = .next t ∧ UnitFrame s t ∧ ∀ j ∈ s.cur, r.Wrote (s.crewOf j) (s.sl j) (t.sl j)

/-- Every vector register that it names lies below the crew's allocation (R134). -/
def Result.fits (r : Result) (s : State) : Prop := ∀ j ∈ s.cur, regsOk (s.crewOf j) r.regs = true

/-- Two sources and a result of one type. -/
def res2 (h : Hdr) (t : Ty) (d a b : Opnd) (f : DWord → DWord → DWord × Flags) : Result :=
  ⟨h, t, d, [a, b], [(d, tyRegs t), (a, tyRegs t), (b, tyRegs t)], fun c x l => f (rd c x t h.imm l a) (rd c x t h.imm l b)⟩

/-- The second source is 32 bits (R279). -/
def resShift (h : Hdr) (t : Ty) (d a b : Opnd) (f : DWord → DWord → DWord) : Result :=
  ⟨h, t, d, [a, b], [(d, tyRegs t), (a, tyRegs t), (b, 1)], fun c x l => (f (rd c x t h.imm l a) (rd c x .u32 h.imm l b), 0)⟩

def res3 (h : Hdr) (t : Ty) (d a b c : Opnd) (f : DWord → DWord → DWord → DWord × Flags) : Result :=
  ⟨h, t, d, [a, b, c], [(d, tyRegs t), (a, tyRegs t), (b, tyRegs t), (c, tyRegs t)], fun cw x l =>
    f (rd cw x t h.imm l a) (rd cw x t h.imm l b) (rd cw x t h.imm l c)⟩

/-- One source of a type, a result of another. -/
def res1 (h : Hdr) (td t : Ty) (d a : Opnd) (f : DWord → DWord × Flags) : Result :=
  ⟨h, td, d, [a], [(d, tyRegs td), (a, tyRegs t)], fun c x l => f (rd c x t h.imm l a)⟩

/-- The integer instructions of R274 to R278 that write one register. -/
inductive IntResult : Instr → Result → Prop where
  | iadd (h : Hdr) (sat : Bool) (t : Ty) (d : Opnd) (a : Opnd) (b : Opnd) : IntResult (.iadd h sat t d a b)
      (res2 h t d a b fun x y => (aluAdd t sat x y, 0))
  | isub (h : Hdr) (sat : Bool) (t : Ty) (d : Opnd) (a : Opnd) (b : Opnd) : IntResult (.isub h sat t d a b)
      (res2 h t d a b fun x y => (aluSub t sat x y, 0))
  | imul (h : Hdr) (t : Ty) (d : Opnd) (a : Opnd) (b : Opnd) : IntResult (.imul h t d a b)
      (res2 h t d a b fun x y => (aluMul t x y, 0))
  | imulh (h : Hdr) (t : Ty) (d : Opnd) (a : Opnd) (b : Opnd) : IntResult (.imulh h t d a b)
      (res2 h t d a b fun x y => (aluMulh t x y, 0))
  | imad (h : Hdr) (t : Ty) (d : Opnd) (a : Opnd) (b : Opnd) (c : Opnd) : IntResult (.imad h false t d a b c)
      (res3 h t d a b c fun x y z => (aluMad t x y z, 0))
  | imad64 (h : Hdr) (t : Ty) (d : Opnd) (a : Opnd) (b : Opnd) (c : Opnd) : IntResult (.imad h true t d a b c)
      ⟨h, .u64, d, [a, b, c], [(d, 2), (a, 1), (b, 1), (c, 2)], fun cw x l => (aluMadAcc t (rd cw x t h.imm l a) (rd cw x t h.imm l b) (rd cw x (if t = .s32 then .s64 else .u64) h.imm l c), 0)⟩
  | imin (h : Hdr) (t : Ty) (d : Opnd) (a : Opnd) (b : Opnd) : IntResult (.imin h t d a b)
      (res2 h t d a b fun x y => (aluMin t x y, 0))
  | imax (h : Hdr) (t : Ty) (d : Opnd) (a : Opnd) (b : Opnd) : IntResult (.imax h t d a b)
      (res2 h t d a b fun x y => (aluMax t x y, 0))
  | iabs (h : Hdr) (sat : Bool) (t : Ty) (d : Opnd) (a : Opnd) : IntResult (.iabs h sat t d a)
      (res1 h t t d a fun x => (aluAbs t sat x, 0))
  | iadd3 (h : Hdr) (t : Ty) (d : Opnd) (a : Opnd) (b : Opnd) (c : Opnd) : IntResult (.iadd3 h t d a b c)
      (res3 h t d a b c fun x y z => (aluAdd3 t x y z, 0))
  | isel (h : Hdr) (neg : Bool) (p : Nat) (t : Ty) (d : Opnd) (a : Opnd) (b : Opnd) : IntResult (.isel h neg p t d a b)
      ⟨h, t, d, [a, b], [(d, tyRegs t), (a, tyRegs t), (b, tyRegs t)], fun c x l => (if rdPred ⟨!vecMode d [a, b], p⟩ l x != neg then rd c x t h.imm l a else rd c x t h.imm l b, 0)⟩
  | lea (h : Hdr) (n : Nat) (t : Ty) (d : Opnd) (a : Opnd) (b : Opnd) : IntResult (.lea h n t d a b)
      ⟨h, .u64, d, [a, b], [(d, 2), (a, 2), (b, 1)], fun c x l => (aluLea (t == .s32) n (rd c x .u64 h.imm l a) (rd c x .u32 h.imm l b), 0)⟩
  | isad (h : Hdr) (t : Ty) (d : Opnd) (a : Opnd) (b : Opnd) (c : Opnd) : IntResult (.isad h t d a b c)
      (res3 h t d a b c fun x y z => (aluSad t x y z, 0))
  | idot4 (h : Hdr) (mix : Bool) (sat : Bool) (t : Ty) (d : Opnd) (a : Opnd) (b : Opnd) (c : Opnd) : IntResult (.idot4 h mix sat t d a b c)
      (res3 h t d a b c fun x y z => (aluDot4 t mix sat x y z, 0))

/-- The logic and bit instructions of R279 to R282. -/
inductive BitResult : Instr → Result → Prop where
  | and (h : Hdr) (inv : Bool) (t : Ty) (d : Opnd) (a : Opnd) (b : Opnd) : BitResult (.and h inv t d a b)
      (res2 h t d a b fun x y => (aluAnd inv t x y, 0))
  | or (h : Hdr) (inv : Bool) (t : Ty) (d : Opnd) (a : Opnd) (b : Opnd) : BitResult (.or h inv t d a b)
      (res2 h t d a b fun x y => (aluOr inv t x y, 0))
  | xor (h : Hdr) (inv : Bool) (t : Ty) (d : Opnd) (a : Opnd) (b : Opnd) : BitResult (.xor h inv t d a b)
      (res2 h t d a b fun x y => (aluXor inv t x y, 0))
  | mix3 (h : Hdr) (t : Ty) (d : Opnd) (a : Opnd) (b : Opnd) (c : Opnd) : BitResult (.mix3 h t d a b c)
      (res3 h t d a b c fun x y z => (aluMix3 t (h.imm.toNat % 256) x y z, 0))
  | shl (h : Hdr) (wrap : Bool) (t : Ty) (d : Opnd) (a : Opnd) (b : Opnd) : BitResult (.shl h wrap t d a b)
      (resShift h t d a b (aluShl wrap t))
  | shr (h : Hdr) (wrap : Bool) (t : Ty) (d : Opnd) (a : Opnd) (b : Opnd) : BitResult (.shr h wrap t d a b)
      (resShift h t d a b (aluShr wrap t))
  | sar (h : Hdr) (wrap : Bool) (t : Ty) (d : Opnd) (a : Opnd) (b : Opnd) : BitResult (.sar h wrap t d a b)
      (resShift h t d a b (aluSar wrap t))
  | rot (h : Hdr) (right : Bool) (t : Ty) (d : Opnd) (a : Opnd) (b : Opnd) : BitResult (.rot h right t d a b)
      (resShift h t d a b (aluRot right t))
  | fshf (h : Hdr) (left : Bool) (clamp : Bool) (d : Opnd) (a : Opnd) (b : Opnd) (c : Opnd) : BitResult (.fshf h left clamp d a b c)
      (res3 h .u32 d a b c fun x y z => (aluFshf left clamp x y z, 0))
  | bfx (h : Hdr) (t : Ty) (d : Opnd) (a : Opnd) (b : Opnd) (c : Opnd) : BitResult (.bfx h t d a b c)
      ⟨h, t, d, [a, b, c], [(d, tyRegs t), (a, tyRegs t), (b, 1), (c, 1)], fun cw x l => (aluBfx t (rd cw x t h.imm l a) (rd cw x .u32 h.imm l b) (rd cw x .u32 h.imm l c), 0)⟩
  | bfi (h : Hdr) (t : Ty) (d : Opnd) (a : Opnd) (b : Opnd) (c : Opnd) (e : Opnd) : BitResult (.bfi h t d a b c e)
      ⟨h, t, d, [a, b, c, e], [(d, tyRegs t), (a, tyRegs t), (b, tyRegs t), (c, 1), (e, 1)], fun cw x l => (aluBfi t (rd cw x t h.imm l a) (rd cw x t h.imm l b) (rd cw x .u32 h.imm l c) (rd cw x .u32 h.imm l e), 0)⟩
  | popc (h : Hdr) (t : Ty) (d : Opnd) (a : Opnd) : BitResult (.popc h t d a)
      (res1 h .u32 t d a fun x => (aluPopc t x, 0))
  | clz (h : Hdr) (t : Ty) (d : Opnd) (a : Opnd) : BitResult (.clz h t d a)
      (res1 h .u32 t d a fun x => (aluClz t x, 0))
  | brev (h : Hdr) (t : Ty) (d : Opnd) (a : Opnd) : BitResult (.brev h t d a)
      (res1 h t t d a fun x => (aluBrev t x, 0))
  | bsel (h : Hdr) (d : Opnd) (a : Opnd) (b : Opnd) (c : Opnd) : BitResult (.bsel h d a b c)
      (res3 h .u32 d a b c fun x y z => (aluBsel x y z, 0))
  | ffs (h : Hdr) (hi : Bool) (t : Ty) (d : Opnd) (a : Opnd) : BitResult (.ffs h hi t d a)
      (res1 h .u32 t d a fun x => (aluFfs hi t x, 0))

/-- The float instructions of R283 and R284 that write a register. -/
inductive FloatResult : Instr → Result → Prop where
  | fadd (h : Hdr) (sat : Bool) (t : Ty) (d : Opnd) (a : Opnd) (b : Opnd) : FloatResult (.fadd h sat t d a b)
      ⟨h, t, d, [a, b], [(d, 1), (a, 1), (b, 1)], fun c x l => aluFadd t sat (rd c x t h.imm l a) (rd c x t h.imm l b)⟩
  | fsub (h : Hdr) (sat : Bool) (t : Ty) (d : Opnd) (a : Opnd) (b : Opnd) : FloatResult (.fsub h sat t d a b)
      ⟨h, t, d, [a, b], [(d, 1), (a, 1), (b, 1)], fun c x l => aluFsub t sat (rd c x t h.imm l a) (rd c x t h.imm l b)⟩
  | fmul (h : Hdr) (sat : Bool) (t : Ty) (d : Opnd) (a : Opnd) (b : Opnd) : FloatResult (.fmul h sat t d a b)
      ⟨h, t, d, [a, b], [(d, 1), (a, 1), (b, 1)], fun c x l => aluFmul t sat (rd c x t h.imm l a) (rd c x t h.imm l b)⟩
  | ffma (h : Hdr) (sat : Bool) (t : Ty) (d : Opnd) (a : Opnd) (b : Opnd) (c : Opnd) : FloatResult (.ffma h sat t d a b c)
      ⟨h, t, d, [a, b, c], [(d, 1), (a, 1), (b, 1), (c, 1)], fun cw x l => aluFfma t sat (rd cw x t h.imm l a) (rd cw x t h.imm l b) (rd cw x t h.imm l c)⟩
  | fmin (h : Hdr) (t : Ty) (d : Opnd) (a : Opnd) (b : Opnd) : FloatResult (.fmin h t d a b)
      (res2 h t d a b fun x y => (aluFmin t x y, 0))
  | fmax (h : Hdr) (t : Ty) (d : Opnd) (a : Opnd) (b : Opnd) : FloatResult (.fmax h t d a b)
      (res2 h t d a b fun x y => (aluFmax t x y, 0))
  | fclass (h : Hdr) (t : Ty) (d : Opnd) (a : Opnd) : FloatResult (.fclass h t d a)
      (res1 h .u32 t d a fun x => (aluFclass t x, 0))
  | frnd (h : Hdr) (dir : RndDir) (t : Ty) (d : Opnd) (a : Opnd) : FloatResult (.frnd h dir t d a)
      (res1 h t t d a fun x => (aluFrnd dir t x, 0))
  | fdp2 (h : Hdr) (t : Ty) (d : Opnd) (a : Opnd) (b : Opnd) (c : Opnd) : FloatResult (.fdp2 h t d a b c)
      ⟨h, .f32, d, [a, b, c], [(d, 1), (a, 1), (b, 1), (c, 1)], fun cw x l => aluFdp2 t (rd cw x t h.imm l a) (rd cw x t h.imm l b) (rd cw x .f32 h.imm l c)⟩
  | fscale (h : Hdr) (t : Ty) (d : Opnd) (a : Opnd) (b : Opnd) : FloatResult (.fscale h t d a b)
      ⟨h, t, d, [a, b], [(d, 1), (a, 1), (b, 1)], fun c x l => aluFscale t (rd c x t h.imm l a) (rd c x .s32 h.imm l b)⟩
  | fsgn (h : Hdr) (op : SgnOp) (t : Ty) (d : Opnd) (a : Opnd) (b : Opnd) : FloatResult (.fsgn h op t d a b)
      (res2 h t d a b fun x y => (aluFsgn op t x y, 0))

/-- The type of an integer that I2F reads and of a float that F2I reads (R288, R289). -/
def intTy : IntSrc → Ty
  | .u64 => .u64 | .s64 => .s64 | _ => .u32
def fltTy : FltSrc → Ty
  | .f32 => .f32 | .f16 => .f16 | .bf16 => .bf16

/-- The conversions of R287 to R289, MOV and MOVI (R295), PSAVE (R298). -/
inductive MoveResult : Instr → Result → Prop where
  | fcvt (h : Hdr) (t : Ty) (src : CvtSrc) (d : Opnd) (a : Opnd) (b : Opnd) : MoveResult (.fcvt h t src d a b)
      ⟨h, t, d, [a, b], [(d, 1), (a, 1), (b, 1)], fun c x l => aluFcvt t src (rd c x .u32 h.imm l a) (rd c x .u32 h.imm l b)⟩
  | i2f (h : Hdr) (t : Ty) (src : IntSrc) (d : Opnd) (a : Opnd) : MoveResult (.i2f h t src d a)
      (res1 h t (intTy src) d a (aluI2f t src))
  | f2i (h : Hdr) (t : Ty) (src : FltSrc) (d : Opnd) (a : Opnd) : MoveResult (.f2i h t src d a)
      (res1 h t (fltTy src) d a (aluF2i t src))
  | mov (h : Hdr) (t : Ty) (d : Opnd) (a : Opnd) : MoveResult (.mov h t d a)
      (res1 h t t d a fun x => (x, 0))
  | movi (h : Hdr) (t : Ty) (d : Opnd) : MoveResult (.movi h t d)
      ⟨h, t, d, [], [(d, tyRegs t)], fun _ _ _ => (moviVal t h.imm, 0)⟩

/-! ### Predicates and other effects of a slice on itself -/

/-- An instruction that writes one predicate: p in each executing lane, or q once. -/
structure PredResult where
  hdr  : Hdr
  pd   : PredOp
  vec  : Bool
  regs : List (Opnd × Nat)
  val  : Crew → Slice → Nat → Bool

def PredResult.lanes (r : PredResult) (x : Slice) : BitVec 4 := lanesFor r.vec r.hdr x

/-- Slice x has become y: the executing lanes' predicate holds the value, a write to index 7 is discarded, nothing else changes (R133, R135). -/
structure PredResult.Wrote (r : PredResult) (c : Crew) (x y : Slice) : Prop where
  preds : ∀ l k, l < 4 → k < 7 → y.pbit l k =
    if !r.pd.q && k == r.pd.ix && (r.lanes x).getLsbD l then r.val c x l else x.pbit l k
  qpreds : ∀ k, k < 7 → y.qbit k = if r.pd.q && k == r.pd.ix && r.lanes x != 0 then r.val c x 0 else x.qbit k
  rest : { y with p := x.p, q := x.q } = waitW r.hdr (atIssue x).next

def PredResult.Holds (r : PredResult) (i : Instr) (s : State) : Prop :=
  ∃ t, exec i s = .next t ∧ UnitFrame s t ∧ ∀ j ∈ s.cur, r.Wrote (s.crewOf j) (s.sl j) (t.sl j)

/-- ICMP, FCMP (R276, R284) and PMIX (R297). -/
inductive PredForm : Instr → PredResult → Prop where
  | icmp (h : Hdr) (cond : Cond) (t : Ty) (pd : PredOp) (a b : Opnd) : PredForm (.icmp h cond t pd a b)
      ⟨h, pd, !pd.q || a.isVec || b.isVec, [(a, tyRegs t), (b, tyRegs t)], fun c x l =>
        aluCmp t cond (rd c x t h.imm l a) (rd c x t h.imm l b)⟩
  | fcmp (h : Hdr) (cond : Cond) (t : Ty) (pd : PredOp) (a b : Opnd) : PredForm (.fcmp h cond t pd a b)
      ⟨h, pd, !pd.q || a.isVec || b.isVec, [(a, tyRegs t), (b, tyRegs t)], fun c x l =>
        aluFcmp t cond (rd c x t h.imm l a) (rd c x t h.imm l b)⟩
  | pmix (h : Hdr) (pd a b c : PredOp) : PredForm (.pmix h pd a b c)
      ⟨h, pd, !pd.q || !a.q || !b.q || !c.q, [], fun _ x l =>
        h.imm.getLsbD (4 * (if rdPred c l x then 1 else 0) + 2 * (if rdPred b l x then 1 else 0) + (if rdPred a l x then 1 else 0))⟩

/-- The effect `e` where the mask is not empty, and the next PC (R252). -/
def ran (m : BitVec 4) (e : Slice → Slice) (x : Slice) : Slice := if m = 0 then (atIssue x).next else (e (atIssue x)).next

/-! ### Transfers (R304, R305) -/

/-- A transfer's guard, the registers it names, its link register and where an executing lane goes. -/
structure TransferForm where
  hdr    : Hdr
  lanes  : Slice → BitVec 4
  regs   : List (Opnd × Nat)
  link   : Opnd
  target : Crew → Slice → Nat → DWord

/-- The table of R304. -/
inductive Transfers : Instr → TransferForm → Prop where
  | bra (h : Hdr) : Transfers (.bra h) ⟨h, perLane h, [], .zero, fun _ x _ => x.pc + h.imm.signExtend 64⟩
  | braUni (h : Hdr) : Transfers (.braUni h) ⟨h, perSlice h, [], .zero, fun _ x _ => x.pc + h.imm.signExtend 64⟩
  | brx (h : Hdr) (a : Opnd) : Transfers (.brx h a) ⟨h, perLane h, [(a, 2)], .zero, fun c x l => rd c x .u64 0 l a⟩
  | call (h : Hdr) (d : Opnd) : Transfers (.call h d) ⟨h, perLane h, [(d, 2)], d, fun _ x _ => x.pc + h.imm.signExtend 64⟩
  | callx (h : Hdr) (d a : Opnd) : Transfers (.callx h d a) ⟨h, perLane h, [(d, 2), (a, 2)], d, fun c x l => rd c x .u64 0 l a⟩
  | ret (h : Hdr) (a : Opnd) : Transfers (.ret h a) ⟨h, perLane h, [(a, 2)], .zero, fun c x l => rd c x .u64 0 l a⟩

/-- Where active lane l goes: its target where the transfer executes, else PC + 12. -/
def TransferForm.dest (f : TransferForm) (c : Crew) (x : Slice) (l : Nat) : DWord :=
  if (f.lanes x).getLsbD l then f.target c x l else x.pc + 12

/-- Every executing lane's target is a multiple of 4 (R252). -/
def TransferForm.alignedIn (f : TransferForm) (c : Crew) (x : Slice) : Prop :=
  ∀ l, l < 4 → (f.lanes x).getLsbD l = true → (f.target c x l).toNat % 4 = 0

/-- The return address in the lanes that transfer. -/
def TransferForm.linked (f : TransferForm) (x y : Slice) : Slice :=
  (lanesOf (f.lanes x)).foldl (fun y l => wr .u64 f.link l (x.pc + 12) y) y

/-! ### Variable-latency results (R142, R300) -/

/-- As `UnitFrame`, and fresh identities have been taken. -/
structure LandFrame (s t : State) : Prop where
  others : ∀ j, j ∉ s.cur → t.sl j = s.sl j
  cores : ∀ k, { t.core k with slots := (s.core k).slots } = s.core k
  rest : { t with slices := s.slices, cores := s.cores, nextId := s.nextId, cur := s.cur } = s
  cur : t.cur = []

/-- Slice x, its instruction begun, has become y: the results `ls` of one more outstanding instruction are ready to land. -/
def Landing (h : Hdr) (ls : List (LandDst × DWord)) (x y : Slice) : Prop :=
  ∃ id, y = waitW h { x.next with outst := Tbl.put x.outst id ls.length, ready := x.ready ++ ls.map fun e => ⟨id, e.1, e.2⟩ }

/-- A special function: destination, source, and its value on a 32-bit code (R285). -/
inductive SfuForm : Instr → Hdr → Opnd → Opnd → (Nat → Fl Nat) → Prop where
  | rcp (h : Hdr) (d a : Opnd) : SfuForm (.rcp h d a) h d a rcp32
  | rsq (h : Hdr) (d a : Opnd) : SfuForm (.rsq h d a) h d a rsq32
  | sqrt (h : Hdr) (d a : Opnd) : SfuForm (.sqrt h d a) h d a sqrt32
  | exp2 (h : Hdr) (d a : Opnd) : SfuForm (.exp2 h d a) h d a exp2_32
  | log2 (h : Hdr) (d a : Opnd) : SfuForm (.log2 h d a) h d a log2_32
  | sin (h : Hdr) (d a : Opnd) : SfuForm (.sin h d a) h d a sin32
  | cos (h : Hdr) (d a : Opnd) : SfuForm (.cos h d a) h d a cos32
  | tanh (h : Hdr) (d a : Opnd) : SfuForm (.tanh h d a) h d a tanh32

/-- The results a special function lands in a slice: each executing lane's register, or the s register, and its flags (R286). -/
def sfuLands (c : Crew) (x : Slice) (h : Hdr) (d a : Opnd) (f : Nat → Fl Nat) : List (LandDst × DWord) :=
  let rs := (laneList (vecMode d [a]) (lanesFor (vecMode d [a]) h x)).map fun l => (l, f ((rd c x .f32 h.imm l a).toNat % 2 ^ 32))
  rs.flatMap fun e => landFl d e.1 e.2

/-- A gang operation: the registers it names, the value of gang position k and the flags from the positions of the gang, where a value
lands, and whether once per slice. -/
structure GangForm where
  hdr  : Hdr
  regs : List (Opnd × Nat)
  vals : State → List GLane → (Nat → DWord) × Flags
  dst  : Nat → DWord → List (LandDst × DWord)
  once : Bool

/-- LXCH, VOTE, REDUX, SCAN and MATCH (R301, R302). -/
inductive Gangs : Instr → GangForm → Prop where
  | lxch (h : Hdr) (mode : LxMode) (t : Ty) (d a b : Opnd) : Gangs (.lxch h mode t d a b)
      ⟨h, [(d, tyRegs t), (a, tyRegs t), (b, 1)], fun s gl => (fun k =>
        gangVal t h.imm a s (gl.getD ((lxchSrc mode gl.length k (gangVal .u32 h.imm b s (gl.getD k ⟨0, 0, false⟩))).getD k)
          (gl.getD k ⟨0, 0, false⟩)), 0), landReg t d, d.isS⟩
  | any (h : Hdr) (pd a : PredOp) : Gangs (.vote h (.any pd) a)
      ⟨h, [], fun s gl => (fun _ => voteVal (.any pd) gl fun g => rdPred a g.lane (s.sl g.sl), 0), landPred pd, pd.q⟩
  | all (h : Hdr) (pd a : PredOp) : Gangs (.vote h (.all pd) a)
      ⟨h, [], fun s gl => (fun _ => voteVal (.all pd) gl fun g => rdPred a g.lane (s.sl g.sl), 0), landPred pd, pd.q⟩
  | eq (h : Hdr) (pd a : PredOp) : Gangs (.vote h (.eq pd) a)
      ⟨h, [], fun s gl => (fun _ => voteVal (.eq pd) gl fun g => rdPred a g.lane (s.sl g.sl), 0), landPred pd, pd.q⟩
  | mask (h : Hdr) (d : Opnd) (a : PredOp) : Gangs (.vote h (.mask d) a)
      ⟨h, [(d, 1)], fun s gl => (fun _ => voteVal (.mask d) gl fun g => rdPred a g.lane (s.sl g.sl), 0), landReg .u32 d, d.isS⟩
  | redux (h : Hdr) (op : RedOp) (t : Ty) (d a : Opnd) : Gangs (.redux h op t d a)
      ⟨h, [(d, 1), (a, 1)], fun s gl =>
        let xs := gangRedVals h op t a s gl
        let r := pairTree (redStep op t) 5 (xs ++ List.replicate (32 - xs.length) (redIdentity op t, 0))
        (fun _ => BitVec.ofNat 64 r.1, r.2), landReg .u32 d, d.isS⟩
  | scan (h : Hdr) (op : RedOp) (excl : Bool) (t : Ty) (d a : Opnd) : Gangs (.scan h op excl t d a)
      ⟨h, [(d, 1), (a, 1)], fun s gl =>
        let ps := scanVals op t (gangRedVals h op t a s gl)
        (fun k => BitVec.ofNat 64 (if excl then (if k = 0 then redIdentity op t else (ps.getD (k - 1) (0, 0)).1) else (ps.getD k (0, 0)).1),
          (ps.getD (if excl then lastOn gl - 1 else lastOn gl) (0, 0)).2), landReg .u32 d, d.isS⟩
  | matchLanes (h : Hdr) (same : Bool) (t : Ty) (d a : Opnd) : Gangs (.matchLanes h same t d a)
      ⟨h, [(d, 1), (a, tyRegs t)], fun s gl => (matchVal same (gl.map fun g => (g, gangVal t h.imm a s g)), 0), landReg .u32 d, d.isS⟩

/-- The contributing positions of slice j: position in the gang and lane. -/
def GangForm.mine (f : GangForm) (s : State) (j : Nat) : List (GLane × Nat) :=
  ((gangLanes f.hdr s j).zipIdx).filter fun e => e.1.sl == j && e.1.on

/-- What lands in slice j, which has a contributing lane: its lanes' values, or its lowest contributing lane's once, and the flags. -/
def GangForm.lands (f : GangForm) (s : State) (j : Nat) : List (LandDst × DWord) :=
  let r := f.vals s (gangLanes f.hdr s j)
  let mine := f.mine s j
  (if f.once then (mine.take 1).flatMap fun e => f.dst e.1.lane (r.1 e.2) else mine.flatMap fun e => f.dst e.1.lane (r.1 e.2)) ++
    landFlags r.2

/-! ### Units at large -/

/-- The state after a unit's instruction: slice by slice it begins, where the guard holds it has the effect `e`, the PC goes past it; then W
parks each slice (R139, R142, R252). -/
def State.unitAfter (s : State) (h : Hdr) (lanes : Slice → BitVec 4) (e : State → Nat → State) : State :=
  s.cur.foldl (fun u j => u.updSl j (waitW h)) <|
    s.cur.foldl (fun u j => (if lanes (u.sl j) = 0 then u.begun j else e (u.begun j) j).updSl j Slice.next) s

/-- Instruction i issues in every slice of the unit, with effect `e` in each slice where the guard holds; issue slots aside, nothing else
changes. -/
def Runs (i : Instr) (h : Hdr) (lanes : Slice → BitVec 4) (e : State → Nat → State) (s : State) : Prop :=
  ∃ t, exec i s = .next t ∧ SlotsOnly (s.unitAfter h lanes e) t

/-- As `UnitFrame`, and what an access leaves: its requests in Viaduct, the order of the clearance cache, fresh identities. -/
structure AccFrame (s t : State) : Prop where
  others : ∀ j, j ∉ s.cur → t.sl j = s.sl j
  cores : ∀ k, (t.core k).icache = (s.core k).icache ∧ (t.core k).wake = (s.core k).wake ∧ (t.core k).loops = (s.core k).loops ∧
    ∀ e, e ∈ (t.core k).clr ↔ e ∈ (s.core k).clr
  rest : { t with slices := s.slices, cores := s.cores, packets := s.packets, nextId := s.nextId, cur := s.cur } = s
  cur : t.cur = []

/-- A slice, its instruction begun, has become y: under a fresh identity, where `parts`, access `a` is under way; the results `early` are
ready, and with them `n` are to land. -/
def Under (h : Hdr) (a : Nat → Acc) (parts : Bool) (early : List (LandDst × DWord)) (n : Nat) (x : Nat → Slice) (y : Slice) : Prop :=
  ∃ id, y = waitW h { (x id).next with
    accs := if parts then Tbl.put (x id).accs id (a id) else (x id).accs
    outst := if n = 0 then (x id).outst else Tbl.put (x id).outst id n
    ready := (x id).ready ++ early.map fun e => ⟨id, e.1, e.2⟩ }

/-- A slice whose instruction acquires waits after it until the instruction's own results have landed (R312). -/
def acquiring (m : MemOp) (id : Nat) (x : Slice) : Slice :=
  if acquires m then { x with park := .after (.value id) false, since := none, raised := false } else x

/-- The reads are cleared and, in procedural blocks, filled; or in a non-resident page (R54, R58, R69). -/
def State.served (s : State) (j : Nat) (as : List LaneAcc) : Prop :=
  ∀ a ∈ as, (clrSt s j .read true a = .ok ∧ fillSt s j a = .ok) ∨ clrSt s j .read true a = .zero

/-- The stores are cleared. -/
def State.writable (s : State) (j : Nat) (as : List LaneAcc) : Prop := ∀ a ∈ as, clrSt s j .write false a = .ok

/-- No earlier STRONG access holds these back, no WRSR to L2WP is in progress, and no eviction has kept bytes for the slice (R219, R92, R75). -/
def State.calm (s : State) (j : Nat) (as : List LaneAcc) : Prop :=
  ((∃ a ∈ as, strongAcc s (s.ctxOf j) a = true) → ∀ e ∈ (s.sl j).accs, e.2.strong = false) ∧
  (s.cluster (coreCluster (s.coreOf j))).raising = none ∧ ∀ va, keptByte (s.sl j).answers va = none

/-- Local addresses that LDL and STL may use at once: aligned, in range, in tiles that SLICES owns, after the slice's own remote accesses to them
(R121, R122, R123, R209). -/
def State.localOpen (s : State) (j : Nat) (sp : LclSpace) (n : Nat) (store : Bool) (as : List LaneAcc) : Prop :=
  (∀ a ∈ as, a.va % n = 0 ∧ localOk s j sp a.va = true ∧
    (sp = .stash → (tagOf s (s.sl j).crew (a.va / 1024)).owner = .slices) ∧
    (sp = .span → (stagOf s (s.crewOf j).span (a.va / 4096)).owner = .slices)) ∧
  (sp = .stash → ownRemote s j store as = [])

/-- What a release waits for has come about: the slice's accesses but those to UNORDERED pages are performed, and for a wide one the crew's dirty mapped sectors are home
and none of them was dropped (R223, R224, R312). -/
def State.released (s : State) (j : Nat) (wide : Bool) : Prop :=
  (∀ e ∈ (s.sl j).accs, wide = true ∨ e.2.kind ≠ .remStore → ∀ q ∈ e.2.pieces, q.done = true ∨ q.ord = 2) ∧
  (wide = true → ((s.sl j).relIn = true ∨ crewDirty s (s.sl j).crew = false) ∧ crewWriting s (s.sl j).crew = false ∧ (s.sl j).lost = [])

/-- The order an access carries, where it is a release. -/
def State.orderMet (s : State) (j : Nat) (m : MemOp) : Prop :=
  m.order = .release ∨ m.order = .acqRel → s.released j (wideScope m.scope)

/-- An instruction that stores to global memory or combines with it: what it accesses, the registers it names, whether it needs alignment,
the kind of its access, the register its result lands in with the results more per lane, and a second datum. -/
structure StoreForm where
  hdr   : Hdr
  m     : MemOp
  d     : Opnd
  n     : Nat
  regs  : List (Opnd × Nat)
  vec   : Bool
  align : Bool
  kind  : AccKind
  res   : Option (Opnd × Nat)
  new   : Slice → Nat → Nat

/-- ST, RED, NMRED, ATOM and CAS (R314, R316 to R319). -/
inductive Stores : Instr → StoreForm → Prop where
  | st (h : Hdr) (m : MemOp) (sz : LdSize) (d : Opnd) : Stores (.st h m sz d)
      ⟨h, m, d, ldBytes sz, memRegs d (ldBytes sz) m, memVec d m, false, .store, none, fun _ _ => 0⟩
  | red (h : Hdr) (m : MemOp) (op : AtomOp) (t : Ty) (d : Opnd) : Stores (.red h m op t d)
      ⟨h, m, d, tyBytes t, memRegs d (tyBytes t) m, memVec d m, true, .red op t, none, fun _ _ => 0⟩
  | nmred (h : Hdr) (m : MemOp) (op : AtomOp) (t : Ty) (d : Opnd) : Stores (.nmred h m op t d)
      ⟨h, m, d, tyBytes t, memRegs d (tyBytes t) m, memVec d m, true, .nmred op t, none, fun _ _ => 0⟩
  | atom (h : Hdr) (m : MemOp) (op : AtomOp) (t : Ty) (d : Opnd) : Stores (.atom h m op t d)
      ⟨h, m, d, tyBytes t, memRegs d (tyBytes t) m, memVec d m, true, .atom op t, some (d, 1), fun _ _ => 0⟩
  | cas (h : Hdr) (m : MemOp) (t : Ty) (d e : Opnd) : Stores (.cas h m t d e)
      ⟨h, m, d, tyBytes t, (e, regsFor (tyBytes t)) :: memRegs d (tyBytes t) m, memVec d m || e.isVec, true, .cas, some (d, 0),
        fun x l => storeVal x e (tyBytes t) l⟩

/-- The lanes' accesses. -/
def StoreForm.accs (f : StoreForm) (s : State) (j : Nat) : List LaneAcc := accsFor f.hdr f.vec f.m f.n s j

/-- Every byte of memory, of the local spaces and of the caches is the same. -/
structure BytesKept (s t : State) : Prop where
  mem : t.mem = s.mem
  stash : t.stash = s.stash
  scratch : t.scratch = s.scratch
  llc : t.llc = s.llc ∧ t.llcData = s.llcData
  l2 : t.l2 = s.l2 ∧ t.l2Data = s.l2Data

/-- A sampler instruction's slice is ready: descriptors and programs aligned and valid, all that it reads served, none of it under one of the
slice's own stores, and room for a result (R128 to R131, R208, R142). -/
structure State.samples (s : State) (j : Nat) (ins : List TexIn) (addrs : Tex → TexIn → List Nat) : Prop where
  form : ∀ q ∈ ins, q.desc % 32 = 0 ∧ (q.prog < 5 ∨ 8 ≤ q.prog ∧ q.prog % 8 = 0) ∧
    (descOf s (sliceParty s j) q.desc).isSome = true ∧ (progOf s (sliceParty s j) q.prog).isSome = true
  served : s.served j (descAccs ins) ∧ s.served j (headAccs ins) ∧ s.served j (tapAccs s j ins) ∧ s.served j (texelAccs s j ins addrs)
  own : ownPre s j (descAccs ins ++ headAccs ins ++ tapAccs s j ins ++ texelAccs s j ins addrs) = .go
  ways : (s.cluster (coreCluster (s.coreOf j))).raising = none
  room : (s.sl j).outst.length < 32

/-- P holds of every slice of the unit in which a once-per-slice instruction executes (R135). -/
def State.each (s : State) (h : Hdr) (P : Nat → Prop) : Prop := ∀ j ∈ s.cur, perSlice h (s.sl j) ≠ 0 → P j

/-- A run of tiles of a space (1 the crew's stash, 2 its span's scratch) that begins at byte offset `off`: aligned, inside what the crew or its
span holds (R94, R118). -/
def State.tileRange (s : State) (j sp off n : Nat) : Prop :=
  off % tileSize sp = 0 ∧ ∀ k, k < n → tilesOk s (s.sl j).crew sp (off / tileSize sp + k) 1 = true

/-! ### The Deck -/

/-- A queued Deck instruction: what must hold whatever the guard, what its operands must meet, its scalars, whether a result will land,
its effect on the stack's depth (R177, R190, R344), and the clearances that it uses (R56). -/
structure DeckForm where
  hdr    : Hdr
  always : State → Nat → Prop
  ok     : State → Nat → Prop
  sc     : State → Nat → List DWord
  result : Bool
  depth  : Nat → Nat
  clears : State → State → Nat → State

/-- Four stash tiles from an aligned offset, of the DECK (R186). -/
def deckTiles (h : Hdr) (a : Opnd) (s : State) (j : Nat) : Prop :=
  rs32 s j h a % 1024 = 0 ∧ ∀ k, k < 4 → 1024 * (rs32 s j h a / 1024 + k) < 2 ^ 19 ∧
    tilesOk s (s.sl j).crew 1 (rs32 s j h a / 1024 + k) 1 = true ∧ ownerOfTile s (s.sl j).crew 1 (rs32 s j h a / 1024 + k) = .deck

/-- The Deck instructions that are queued (R345 to R349): all but DKTEX. -/
inductive Queues : Instr → DeckForm → Prop where
  | dkwin (h : Hdr) (a : Opnd) : Queues (.dkwin h a)
      ⟨h, fun _ _ => True, fun s j => windowOk (rs32 s j h a) = true, fun s j => [dkScalar s j h a], false, fun _ => 1, fun _ u _ => u⟩
  | dklin (h : Hdr) (d : Nat) (a b c : Opnd) : Queues (.dklin h d a b c)
      ⟨h, fun _ _ => True, fun _ _ => True, fun s j => [dkScalar s j h a, dkScalar s j h b, dkScalar s j h c], false, id, fun _ u _ => u⟩
  | dkedge (h : Hdr) (a b c : Opnd) : Queues (.dkedge h a b c)
      ⟨h, fun _ _ => True, fun _ _ => True, fun s j => [dkScalar s j h a, dkScalar s j h b, rd (s.crewOf j) (s.sl j) .s64 h.imm 0 c], false, id, fun _ u _ => u⟩
  | dkquad (h : Hdr) (d : Nat) (a : Opnd) : Queues (.dkquad h d a)
      ⟨h, fun _ _ => True, fun _ _ => True, fun s j => (List.range 6).map (sRange (s.sl j) a), false, id, fun _ u _ => u⟩
  | dkexp (h : Hdr) (d : Nat) (a b : Opnd) : Queues (.dkexp h d a b)
      ⟨h, fun s j => (s.pkg (corePkg (s.coreOf j))).trained = true, fun _ _ => True,
        fun s j => (List.range 6).map (sRange (s.sl j) a) ++ [dkScalar s j h b], false, id, fun _ u _ => u⟩
  | dkpush (h : Hdr) : Queues (.dkpush h) ⟨h, fun _ _ => True, fun s j => (s.crewOf j).deck.depth < 8, fun _ _ => [], false, (· + 1), fun _ u _ => u⟩
  | dkpop (h : Hdr) : Queues (.dkpop h) ⟨h, fun _ _ => True, fun s j => 1 < (s.crewOf j).deck.depth, fun _ _ => [], false, (· - 1), fun _ u _ => u⟩
  | dkelse (h : Hdr) : Queues (.dkelse h) ⟨h, fun _ _ => True, fun s j => 1 < (s.crewOf j).deck.depth, fun _ _ => [], false, id, fun _ u _ => u⟩
  | dkop (h : Hdr) (fn : DkFn) (t : Ty) (d : Nat) (a b c : CellOp) : Queues (.dkop h fn t d a b c)
      ⟨h, fun _ _ => True, fun _ _ => True, fun s j => [cellScalar s j h a, cellScalar s j h b, cellScalar s j h c], false, id, fun _ u _ => u⟩
  | dkmov (h : Hdr) (d : Nat) (a : CellOp) : Queues (.dkmov h d a)
      ⟨h, fun _ _ => True, fun _ _ => True, fun s j => [cellScalar s j h a], false, id, fun _ u _ => u⟩
  | dkld (h : Hdr) (d : Nat) (a : Opnd) : Queues (.dkld h d a)
      ⟨h, fun _ _ => True, deckTiles h a, fun s j => [dkScalar s j h a], false, id, fun _ u _ => u⟩
  | dkst (h : Hdr) (d : CellOp) (a : Opnd) : Queues (.dkst h d a)
      ⟨h, fun _ _ => True, deckTiles h a, fun s j => [dkScalar s j h a], false, id, fun _ u _ => u⟩
  | dkany (h : Hdr) (all : Bool) (q : Nat) (a : CellOp) : Queues (.dkany h all q a)
      ⟨h, fun _ _ => True, fun _ _ => True, fun _ _ => [], true, id, fun _ u _ => u⟩
  | dksum (h : Hdr) (op : RedOp) (t : Ty) (d : Opnd) (a : CellOp) : Queues (.dksum h op t d a)
      ⟨h, fun _ _ => True, fun _ _ => True, fun _ _ => [], d != .zero, id, fun _ u _ => u⟩
  | cmp (h : Hdr) (c : Cond) (t : Ty) (a b : CellOp) : Queues (.dktest h (.cmp c t a b))
      ⟨h, fun _ _ => True, fun _ _ => True, fun s j => [cellScalar s j h a, cellScalar s j h b], false, id, fun _ u _ => u⟩
  | flag (h : Hdr) (b : CellOp) : Queues (.dktest h (.flag b))
      ⟨h, fun _ _ => True, fun s j => ∀ o, b = .scalar o → BitVec.ofNat 32 (rs32 s j h o) &&& ~~~0x3D = 0, fun s j => [cellScalar s j h b], false, id, fun _ u _ => u⟩
  | dkflg (h : Hdr) (d : Opnd) : Queues (.dkflg h d) ⟨h, fun _ _ => True, fun _ _ => True, fun _ _ => [], d != .zero, id, fun _ u _ => u⟩
  | dkxp (h : Hdr) (d : Opnd) (a : CellOp) (b c e : Opnd) : Queues (.dkxp h d a b c e)
      ⟨h, fun _ _ => True,
        fun s j =>
          let q := dkxpIn h b c e s j
          128 ≤ q.2.1.natAbs ∧ q.1 % 4 = 0 ∧ q.2.1 % 4 = 0 ∧ q.2.2 % 8 = 0 ∧ standClr s (sliceParty s j) .write false (dkxpRanges q) = .ok ∧
          (s.cluster (coreCluster (s.coreOf j))).raising = none,
        fun s j =>
          let q := dkxpIn h b c e s j
          [cellScalar s j h a, BitVec.ofNat 64 q.1, BitVec.ofInt 64 q.2.1, BitVec.ofNat 64 q.2.2, (s.sl j).pc,
            (gangMask (s.crewOf j) (s.sl j) (s.sl j).active).setWidth 64],
        d != .zero, id, fun s u j => partyUse u (sliceParty s j) .write (dkxpRanges (dkxpIn h b c e s j))⟩

/-! ### Traps -/

/-- The state after trap entry in slice j (R244): the trap registers hold the cause, the status is saved, HMODE is set, the live lanes are
active at the handler. Its requests for clearance and fill are struck. -/
def State.trapped (s : State) (j : Nat) (code : Nat) (addr info : DWord) (mask : Word) : State :=
  (strikeFills { s with clrReqs := s.clrReqs.filter fun e => e.2.who != .slice j } fun q => q.who == .slice j).setSl j
    { s.sl j with
      taking := none
      park := .run
      answers := []
      fetch := []
      stepIn := false
      relIn := false
      lost := []
      begun := none
      trappc := (s.sl j).pc
      trapcode := BitVec.ofNat 8 code
      trapdef := false
      trapovf := false
      trapaddr := addr
      trapmask := mask
      trapinfo := info
      hmode := true
      saved := (s.sl j).active
      active := (s.sl j).live
      pc := trapvecNow s j &&& ~~~3 }

/-- A slice that can take an exact trap at once: nothing outstanding, no generator crew, a handler, not in handler mode (R241, R244, R246). -/
def State.canTrap (s : State) (j : Nat) : Prop :=
  (s.sl j).outst = [] ∧ (s.crewOf j).gen = none ∧ trapvecNow s j ≠ 0 ∧ (s.sl j).hmode = false

/-- The context of slice j stops with a cause (R246): the slice waits for ever; the context is dead with its first cause, its launches that are not
done have failed, and the OS cores receive a record. -/
def State.stopped (s : State) (j code : Nat) : State :=
  let v := s.setSl j { s.sl j with taking := none, park := .before .tower }
  if (s.ctx (s.ctxOf j)).st = .dead then v
  else { v with
    ctxs := Tbl.put s.ctxs (s.ctxOf j) { s.ctx (s.ctxOf j) with st := .dead, cause := code, stopAt := some (s.pkg 0).clock }
    launches := s.launches.map fun e => (e.1, if e.2.ctx = s.ctxOf j ∧ ¬ e.2.done then { e.2 with failed := true } else e.2)
    osLog := s.osLog ++ [⟨"context stop", [s.ctxOf j, s.coreOf j, (s.sl j).ix, code, (s.sl j).pc.toNat, 0]⟩] }

/-- Slice j takes its unit's exact trap, whose TRAPADDR is 0: it waits for its outstanding results first (R241); a generator's is passed to its owner
(R76); PRIV, a trap without a handler and one in handler mode stop the context (R246); else it enters the handler (R244). -/
def State.takes (s : State) (j code : Nat) (info : DWord) (mask : Word) : State :=
  let t : TrapRec := ⟨code, (s.sl j).pc, 0, mask, info, false, false⟩
  if (s.sl j).outst ≠ [] then s.setSl j { s.sl j with taking := some t, park := .before .results, answers := [] }
  else if (s.crewOf j).gen.isSome ∧ code ≠ 0x1A then s.setSl j { s.sl j with taking := some t, park := .before .tower }
  else if trapvecNow s j = 0 ∨ (s.sl j).hmode = true ∨ code = 0x1A then s.stopped j code
  else s.trapped j code 0 info mask

/-- The active lanes of a unit (R241). -/
def State.unitMask (s : State) : Word := (s.cur.map fun j => gangMask (s.crewOf j) (s.sl j) (s.sl j).active).foldl (· ||| ·) 0

/-! ### Keystone -/

/-- The slice's tower's table of its context, and which of its records have an uncorrectable error. -/
def State.ksTable (s : State) (j : Nat) : KTable := tableOf s (coreTower (s.coreOf j)) (s.ctxOf j)
def State.ksBad (s : State) (j : Nat) : Nat → Bool := ksBadRec s (coreTower (s.coreOf j)) (s.ctxOf j)

/-- A Keystone instruction of a unit has been sent for slice j: a request enters Viaduct, the slice waits in front of the instruction (R350). -/
def State.sentTo (s : State) (j : Nat) (op : Instr) (ids : List Nat) : State :=
  (injectUnit s (s.coreOf j) (crewClass s (s.sl j).crew) 1 (s.coreOf j / 128) (some j)).updSl j fun x =>
    { x with park := .before (.keystone op ids), since := none, raised := false }

/-- The table has become k; nodes newly in quarantine are logged (R205). -/
def State.ksSet (s : State) (j : Nat) (k : KTable) : State :=
  ksLog (setTable s (coreTower (s.coreOf j)) (s.ctxOf j) k) (coreTower (s.coreOf j)) (s.ctxOf j) (s.ksTable j) k

/-- A Keystone instruction that has been answered is over in slice x, whose registers `f` has written: the PC is past it. -/
def ksOver (h : Hdr) (f : Slice → Slice) (x : Slice) : Slice :=
  { f x with
    pc := x.pc + 12
    park := .after (.clock 0) h.w
    answers := []
    since := none
    raised := false
    exhaust := match x.exhaust with
      | some (pc, n) => if pc = x.pc then none else some (pc, n)
      | none => none }

/-- The engine's answer to slice j's unit, whose slices all wait for it and whose operands and memory it accepts: the operations run one after
another, and each slice gets its own answer; where one of them meets a full table, every slice traps, and the operations up to it leave their nodes
and cache entries (R204, R207, R241, R350). -/
def State.ksAnswers (s : State) (j : Nat) (i : Instr) (ids : List Nat) : Prop :=
  ∀ h d, ksForm i = some (h, d) → ids.Nodup → j ∈ ids → (∀ k ∈ ids, (s.sl k).park = .before (.keystone i ids)) → ctxRuns s (s.ctxOf j) = true →
    let t := s.ksTable j
    let bad := s.ksBad j
    let r := ksAll s bad i ids t
    (∀ k ∈ ids, ksMemory s ids t bad i k = .go ∧ ksRefusal s t bad i k = none) →
    ((∀ e ∈ r.2, ∀ c a n, e.2 ≠ .trap c a n) →
      exec (.keystoneAnswer j) s = .next (r.2.foldl (fun u e => ksDeliver t bad i h d u e.1 e.2) (s.ksSet j r.1))) ∧
    (∀ es k c a n, r.2 = es ++ [(k, .trap c a n)] →
      let left := (r.2.map Prod.fst).foldl (fun t k => ksLeft s k t bad i) t
      exec (.keystoneAnswer j) s = .next (ksTrap (s.ksSet j left) ids k left.sweeps c a n))

/-- An operation on diagrams: its destination, its handles, and what it makes of them. -/
structure DiagramForm where
  hdr : Hdr
  dst : Opnd
  hs  : State → Nat → List Nat
  run : State → Nat → (Nat → Bool) → KTable → KTable × KOut

/-- DDAPP, DDITE, DDNOT and DDRES (R200). -/
inductive Diagrams : Instr → DiagramForm → Prop where
  | ddapp (h : Hdr) (fn : Nat) (d a b : Opnd) : Diagrams (.ddapp h fn d a b)
      ⟨h, d, fun s j => [rs32 s j h a, rs32 s j h b], fun s j bad t => kApp bad fn 4100 t (rs32 s j h a) (rs32 s j h b)⟩
  | ddite (h : Hdr) (d a b c : Opnd) : Diagrams (.ddite h d a b c)
      ⟨h, d, fun s j => [rs32 s j h a, rs32 s j h b, rs32 s j h c],
        fun s j bad t => kIte bad 4100 t (rs32 s j h a) (rs32 s j h b) (rs32 s j h c)⟩
  | ddnot (h : Hdr) (d a : Opnd) : Diagrams (.ddnot h d a)
      ⟨h, d, fun s j => [rs32 s j h a], fun s j bad t => kNot bad 4100 t (rs32 s j h a)⟩
  | ddres (h : Hdr) (d a b c : Opnd) : Diagrams (.ddres h d a b c)
      ⟨h, d, fun s j => [rs32 s j h a], fun s j bad t => kRes bad (rs32 s j h b) (rs32 s j h c) 4100 t (rs32 s j h a)⟩

/-! ### Trestle -/

/-- The chain stands at control entry w of a code and may run it. -/
def State.atControl (s : State) (crew ch code w : Nat) : Prop :=
  (chainOf s crew ch).cur = some w ∧ (chainOf s crew ch).st = .running ∧ entCode w = code ∧ ctxRuns s (s.crew crew).ctx = true ∧
  chainAsking s crew ch = false

end Sys2Proof.Machine
end

