-- ==== Sys2Proof/Certificates/Slice0/Obligations.lean ====
section
/-! DEFINITION. The statements for the provers. -/

section

open Sys2Proof Sys2Proof.Machine

/-! ### Decoding, the step, reset, memory -/

/-- R251 to R269, R230: the words of a well-formed device instruction decode to it, with every operand at every value its encoding admits; every
device instruction has words; so has FY.LAUNCH. -/
def Obligations.DecodeEncode : Prop :=
  (∀ (i : Instr) (n : Nat), WellFormed i = true → encodeWord i = some n →
    n < 2 ^ 96 ∧ decodeWord n = .ok i ∧ decodeTableWord 96 n = some i ∧ decodeBytes (leBytes 12 n) = .ok i) ∧
  (∀ i : Instr, isEvent i = false → (∀ rd rs1 rs2, i ≠ .fyLaunch rd rs1 rs2) → (encodeWord i).isSome = true) ∧
  ∀ rd rs1 rs2 : Nat, WellFormed (.fyLaunch rd rs1 rs2) = true →
    encodeOs rd rs1 rs2 < 2 ^ 32 ∧ decodeOs (encodeOs rd rs1 rs2) = some (.fyLaunch rd rs1 rs2) ∧
    decodeTableWord 32 (encodeOs rd rs1 rs2) = some (.fyLaunch rd rs1 rs2)

/-- R230, R254, R281, R357: words that the manual writes out, and what they are. -/
def Obligations.DecodeWords : Prop :=
  let h : Hdr := ⟨⟨false, 7⟩, ⟨false, 7⟩, 0, false, false, 0⟩
  let word := fun (a b c : Nat) => a + 2 ^ 32 * b + 2 ^ 64 * c
  decodeWord (word 0xF0000000 0x0077F0F0 0) = .ok (.nop h) ∧
  decodeWord (word 0xC4C900D4 0x0077F0F0 0) = .ok (.launch h (.s 9) (.s 4)) ∧
  decodeWord (word 0xC20000E0 0x0077C4C3 0) = .ok (.shootDg h (.s 2) (.s 3) (.s 4)) ∧
  decodeWord (word 0x0104002A 0x2077C302 0x5F3) = .ok (.bfi { h with imm := 5 } .u32 (.v 4) (.v 1) (.v 2) (.s 3) .imm) ∧
  decodeWord (word 0xF0F000E1 0x0077F0F0 0) = .ok (.halt h .zero) ∧
  decodeWord (word 0x0000001F 0x0077F0F0 0) = .reservedInstr ∧
  decodeWord (word 0x0103D010 0x0077F0F3 0) = .reservedInstr ∧
  decodeWord (word 0x000000E1 0x0077F0F0 0) = .reservedInstr ∧
  decodeWord 0 = .reservedInstr ∧
  decodeWord (word 0x01401010 0x0077F0F7 0) = .reservedOperand 0x10 ∧
  decodeWord (word 0x01401010 0x0077F002 0) = .ok (.iadd h false .s32 (.v 64) (.v 1) (.v 2)) ∧
  decodeOs 0x00C5850B = some (.fyLaunch 10 11 12)

/-- R139 to R142, R239, R254: a step is the execution of the instruction that decodes. For an issue slot whose unit may go on, with no trap due and
its code cleared, it is exec of the instruction that the 12 bytes at the first slice's PC decode to, in the state in which that unit holds the issue:
a park that is over ended, grants of the page held, code cached; the slices' registers are as they were. An event of the schedule, a booted OS core's
instruction (R374) and a tick of a package's clock are steps of their own. Which of them is next is the schedule's, the model's own (log 1); that a
slot takes its next instruction once the one before has left it is R273's, in the model's form (log 49). -/
def Obligations.StepRuns : Prop :=
  ∀ (s : State) (rest : List Move),
    let u : State := { s with schedule := rest, freeIx := s.freeIx + 1 }
    (∀ (core slot : Nat) (fresh : BitVec 3) (j : Nat) (js : List Nat) (ins : Instr), s.schedule = .issue core slot fresh :: rest →
      (slotAt (s.core core) slot).holder = j :: js →
      (∀ k ∈ j :: js, s.alive k = true ∧ sliceReady u k = true ∧ (s.sl k).pc = (s.sl j).pc ∧ (s.sl k).taking = none ∧
        mustDeliver (s.sl k) = false) →
      s.hasCtx (s.ctxOf j) = true → (s.ctx (s.ctxOf j)).st ≠ .stopped → (slotAt (s.core core) slot).freeAt ≤ s.clockOf j →
      let w := wakeUnit u (j :: js)
      (∀ k ∈ j :: js, fetchStand w k = .go) →
      let g := (j :: js).foldl holdGrants w
      let pc := (s.sl j).pc.toNat
      anyPoison g (s.ctxOf j) pc 12 = none →
      let f := fetchWords (fetchTouch g core (crewClass g (g.sl j).crew) (s.ctxOf j) pc) core (s.ctxOf j) pc fresh
      decodeWord f.1 = .ok ins →
      step s = exec ins { f.2 with cur := j :: js } ∧
      f.2.ctxs = s.ctxs ∧ f.2.launches = s.launches ∧ f.2.stash = s.stash ∧ f.2.scratch = s.scratch ∧
      ∀ k, { f.2.sl k with park := (s.sl k).park, fetch := (s.sl k).fetch, lost := (s.sl k).lost } = s.sl k) ∧
    (∀ ev, s.schedule = .event ev :: rest → step s = if isEvent ev = true then exec ev u else .next u) ∧
    (∀ oc, s.schedule = .os oc :: rest →
      ((s.pkg (osTower oc / 8)).booted = true → ∀ ins, decodeOs (osWord s oc) = some ins → step s = exec ins { u with curOs := some oc }) ∧
      ((s.pkg (osTower oc / 8)).booted = true → decodeOs (osWord s oc) = none → step s = .refused .osCode) ∧
      ((s.pkg (osTower oc / 8)).booted = false → step s = .next u)) ∧
    (∀ pkg n, s.schedule = .tick pkg n :: rest → step s = .next (tick u pkg n))

/-- R85, R99, R133, R154, R243, R375: reset leaves every multicast group with mask 0, generation 0 and nothing to drain, every request window at 256,
no wake word, no context, no launch, empty caches, a package untrained at 1.8 GHz. A slice starts with its registers and predicates zero, p7 and q7
true, FLAGS, handler mode and trap registers clear, an empty reconvergence stack and four live, active lanes at its entry. That memory reads zero is
the model's choice (log 2). -/
def Obligations.ResetState : Prop :=
  State.reset.memWf = true ∧ (∀ a, Mem.read State.reset.mem a = 0) ∧
  (∀ cl g, groupOf State.reset cl g = ⟨0, 0, 0, 0⟩) ∧
  (∀ k, (State.reset.core k).window = 256 ∧ (State.reset.core k).wake = none ∧ (State.reset.core k).loops = []) ∧
  State.reset.ctxs = [] ∧ State.reset.launches = [] ∧ State.reset.crews = [] ∧ State.reset.l2 = [] ∧ State.reset.llc = [] ∧
  (State.reset.pkg 0).trained = false ∧ (State.reset.pkg 0).clk100 = 18 ∧
  ∀ (crew ix : Nat) (role : Role) (entry : DWord),
    let x := Slice.init crew ix role entry
    (∀ n l, x.vreg n l = 0) ∧ (∀ n, x.sreg n = 0) ∧ (∀ l n, n < 7 → x.pbit l n = false) ∧ (∀ n, n < 7 → x.qbit n = false) ∧
    (∀ l, x.pbit l 7 = true) ∧ x.qbit 7 = true ∧ x.flags = 0 ∧ x.hmode = false ∧ x.trappc = 0 ∧ x.trapcode = 0 ∧ x.trapdef = false ∧
    x.trapovf = false ∧ x.trapaddr = 0 ∧ x.trapmask = 0 ∧ x.trapinfo = 0 ∧ x.stack = [] ∧ x.live = 0xF ∧ x.active = 0xF ∧ x.pc = entry

/-- Every step keeps the five byte memories (frames, stash, span scratch, cached lines, dirty sectors) in their canonical form, so that equal contents
are equal data. The memories are the spec's; no rule of it gives their form, which is the model's own (log 2). -/
def Obligations.StepKeepsMemWf : Prop :=
  ∀ s t : State, s.memWf = true → step s = .next t → t.memWf = true

/-- R271, R304, R309: an instruction that computes, moves, compares, converts, transfers control, meets its gang or traps stores nothing: whatever
becomes of it (its result, a park, a trap, a stop of its context), every byte of memory, of the local spaces and of the caches is as before. -/
def Obligations.BytesFrame : Prop :=
  ∀ (i : Instr) (s t : State),
    ((∃ r, IntResult i r) ∨ (∃ r, BitResult i r) ∨ (∃ r, FloatResult i r) ∨ (∃ r, MoveResult i r) ∨ (∃ r, PredForm i r) ∨
      (∃ f, Transfers i f) ∨ (∃ f, Gangs i f) ∨ (∃ h d a f, SfuForm i h d a f) ∨
      (∃ h sub p ty d a b, i = .iaddc h sub p ty d a b) ∨ (∃ h n d a b, i = .cvtn h n d a b ∨ i = .cvtw h n d a b) ∨
      (∃ h ty n d a b, i = .spcomp h ty n d a b) ∨ (∃ h ty d a b, i = .spexp h ty d a b ∨ i = .v2s h ty d a b) ∨
      (∃ h q d, i = .psave h q d ∨ i = .pload h q d) ∨ (∃ h ty d, i = .rdsr h ty d) ∨ (∃ h d, i = .movih h d ∨ i = .flgrd h d ∨ i = .sleep h d) ∨
      (∃ h pd a, i = .lead h pd a) ∨
      (∃ h, i = .nop h ∨ i = .brace h ∨ i = .meet h ∨ i = .exit h ∨ i = .regang h ∨ i = .yield h ∨ i = .step h ∨ i = .flgclr h ∨ i = .trap h ∨
        i = .bpt h ∨ i = .rteRetry h ∨ i = .rteResume h)) →
    exec i s = .next t → BytesKept s t

/-! ### Values of the manual's own formulas -/

/-- R136: a scalar register read under a 32-bit or packed type gives its bits [31:0] and, written, has bits [63:32] cleared; a 64-bit type uses all of
it, or the even-odd vector pair whose even register holds bits [31:0]. -/
def Obligations.RegisterWidths : Prop :=
  ∀ (c : Crew) (x : Slice) (t : Ty) (imm : Word) (l n : Nat) (v : DWord),
    ((tyElems t).1 * tyWidth t = 32 →
      rd c x t imm l (.s n) = ((x.sreg n).setWidth 32).setWidth 64 ∧ (wr t (.s n) l v x).sreg n = (v.setWidth 32).setWidth 64) ∧
    (t.is64 = true →
      rd c x t imm l (.s n) = x.sreg n ∧ (wr t (.s n) l v x).sreg n = v ∧
      rd c x t imm l (.v n) = x.vreg (n + 1) l ++ x.vreg n l ∧
      (l < 4 → (wr t (.v n) l v x).vreg n l = v.extractLsb' 0 32 ∧ (wr t (.v n) l v x).vreg (n + 1) l = v.extractLsb' 32 32))

/-- R275: IADDC gives the low n bits of a + b + cin, or of a + NOT b + cin, and in P its bit n; P is read before it is written, index 7 reads true and
discards the write. -/
def Obligations.CarryAdd : Prop :=
  (∀ (s : State) (h : Hdr) (sub : Bool) (p : Nat) (t : Ty) (d a b : Opnd), t = .u32 ∨ t = .u64 → s.unitIn →
    (∀ j ∈ s.cur, regsOk (s.crewOf j) [(d, tyRegs t), (a, tyRegs t), (b, tyRegs t)] = true) →
    let n := if t = .u64 then 64 else 32
    let vec := vecMode d [a, b]
    Completes (.iaddc h sub p t d a b) h (fun j x => ran (lanesFor vec h x) (fun y =>
      eachLane vec (lanesFor vec h x) y fun l z =>
        let u := (rd (s.crewOf j) y t h.imm l a).toNat % 2 ^ n
        let v := (rd (s.crewOf j) y t h.imm l b).toNat % 2 ^ n
        let cin := if vec then (if p = 7 then true else y.pbit l p) else (if p = 7 then true else y.qbit p)
        let r := u + (if sub then 2 ^ n - 1 - v else v) + (if cin then 1 else 0)
        let w := wr t d l (BitVec.ofNat 64 (r % 2 ^ n)) z
        if p = 7 then w else if vec then w.setP l p (r / 2 ^ n % 2 == 1) else w.setQ p (r / 2 ^ n % 2 == 1)) x) s) ∧
  aluAddc .u64 false false 0xFFFFFFFFFFFFFFFF 1 = (0, true) ∧ aluAddc .u64 false true 1 2 = (4, false) ∧
  ∀ (h : Hdr) (sub : Bool) (p : Nat) (t : Ty) (d a b : Opnd),
    encodeFields (.iaddc h sub p t d a b) =
      some { h.fields 0x19 ((if sub then 8 else 0) + p) t.code with d := d.byte, a := a.byte, b := b.byte }

/-- R280: FSHF shifts the 64 bits b ++ a by m, the count modulo 32 or, with .clamp, clamped to 32, and gives the low word of a right shift, the high
word of a left one; with .clamp a count of 32 or more gives b for .r and a for .l. -/
def Obligations.FunnelShift : Prop :=
  (∀ (s : State) (h : Hdr) (left clamp : Bool) (d a b c : Opnd), s.unitIn →
    (∀ j ∈ s.cur, regsOk (s.crewOf j) [(d, 1), (a, 1), (b, 1), (c, 1)] = true) →
    let val := fun (cw : Crew) (y : Slice) (l : Nat) =>
      let w := fun (o : Opnd) => (rd cw y .u32 h.imm l o).setWidth 32
      let x : DWord := w b ++ w a
      let m := if clamp then min (w c).toNat 32 else (w c).toNat % 32
      (((if left then (x <<< m) >>> 32 else x >>> m).setWidth 32 : Word).setWidth 64, (0 : Flags))
    Result.Holds ⟨h, .u32, d, [a, b, c], [(d, 1), (a, 1), (b, 1), (c, 1)], val⟩ (.fshf h left clamp d a b c) s) ∧
  (∀ a b c : DWord, 32 ≤ c.toNat % 2 ^ 32 →
    aluFshf false true a b c = (b.setWidth 32).setWidth 64 ∧ aluFshf true true a b c = (a.setWidth 32).setWidth 64) ∧
  ∀ (h : Hdr) (left clamp : Bool) (d a b c : Opnd), encodeFields (.fshf h left clamp d a b c) =
    some { h.fields 0x28 ((if left then 1 else 0) + if clamp then 2 else 0) 0 with d := d.byte, a := a.byte, b := b.byte, c := c.byte }

/-- R281: BFX gives the field of len bits from pos on, zero- or sign-extended, where a bit of a past its width reads 0, or a's sign; BFI puts the low
len bits of b into a at pos, len clamped to the width; with X = 0 BFI's opcode is RESERVED_INSTR. -/
def Obligations.FieldBits : Prop :=
  (∀ (s : State) (h : Hdr) (t : Ty) (d a b c e : Opnd), t = .u32 ∨ t = .s32 ∨ t = .u64 ∨ t = .s64 → s.unitIn →
    let n := if t = .u64 ∨ t = .s64 then 64 else 32
    let bit := fun (x : DWord) (k : Nat) => if k < n then x.getLsbD k else if t = .s32 ∨ t = .s64 then x.getLsbD (n - 1) else false
    ((∀ j ∈ s.cur, regsOk (s.crewOf j) [(d, tyRegs t), (a, tyRegs t), (b, 1), (c, 1)] = true) →
      ∃ val : Crew → Slice → Nat → DWord,
        Result.Holds ⟨h, t, d, [a, b, c], [(d, tyRegs t), (a, tyRegs t), (b, 1), (c, 1)], fun w x l => (val w x l, 0)⟩ (.bfx h t d a b c) s ∧
        ∀ w x l k, k < n →
          let v := rd w x t h.imm l a
          let pos := (rd w x .u32 h.imm l b).toNat % 256
          let len := min ((rd w x .u32 h.imm l c).toNat % 256) n
          (val w x l).getLsbD k =
            if k < len then bit v (pos + k) else if len ≠ 0 ∧ (t = .s32 ∨ t = .s64) then bit v (pos + len - 1) else false) ∧
    (t = .u32 ∨ t = .u64 → (∀ j ∈ s.cur, regsOk (s.crewOf j) [(d, tyRegs t), (a, tyRegs t), (b, tyRegs t), (c, 1), (e, 1)] = true) →
      ∃ val : Crew → Slice → Nat → DWord,
        Result.Holds ⟨h, t, d, [a, b, c, e], [(d, tyRegs t), (a, tyRegs t), (b, tyRegs t), (c, 1), (e, 1)], fun w x l => (val w x l, 0)⟩
          (.bfi h t d a b c e) s ∧
        ∀ w x l k, k < n →
          let pos := (rd w x .u32 h.imm l c).toNat % 256
          let len := min ((rd w x .u32 h.imm l e).toNat % 256) n
          (val w x l).getLsbD k =
            if pos ≤ k ∧ k < pos + len then (rd w x t h.imm l b).getLsbD (k - pos) else (rd w x t h.imm l a).getLsbD k)) ∧
  aluBfi .u32 0xFFFFFFFF 0x12 8 5 = 0xFFFFF2FF ∧
  (∀ f : Fields, f.op = 0x2A → f.x = 0 → decodeFields f = .reservedInstr) ∧
  decodeWord (0x0104002A + 2 ^ 32 * 0x2077C302 + 2 ^ 64 * 0x000005F3) =
    .ok (.bfi ⟨⟨false, 7⟩, ⟨false, 7⟩, 0, false, false, 5⟩ .u32 (.v 4) (.v 1) (.v 2) (.s 3) .imm) ∧
  ∀ (h : Hdr) (t : Ty) (d a b c e : Opnd),
    encodeFields (.bfx h t d a b c) = some { h.fields 0x29 0 t.code with d := d.byte, a := a.byte, b := b.byte, c := c.byte } ∧
    encodeFields (.bfi h t d a b c e) = some { h.fields 0x2A 0 t.code with
      d := d.byte, a := a.byte, b := b.byte, c := c.byte, x := 1, w2 := e.byte + 256 * (h.imm.toNat % 2 ^ 24) }

/-- R279: the logic and bit instructions' results, bit by bit; a shift count is taken modulo the width with .wrap, and without it a count of the width
or more gives 0, or copies of the sign. -/
def Obligations.BitValues : Prop :=
  ∀ (t : Ty) (a b c : DWord), t = .u32 ∨ t = .s32 ∨ t = .u64 ∨ t = .s64 →
    let n := if t = .u64 ∨ t = .s64 then 64 else 32
    let cnt := b.toNat % 2 ^ 32
    let sh := fun (wrap : Bool) => if wrap then cnt % n else cnt
    (∀ (inv : Bool) (k : Nat), k < n →
      (aluAnd inv t a b).getLsbD k = (a.getLsbD k && (b.getLsbD k != inv)) ∧
      (aluOr inv t a b).getLsbD k = (a.getLsbD k || (b.getLsbD k != inv)) ∧
      (aluXor inv t a b).getLsbD k = (a.getLsbD k ^^ (b.getLsbD k != inv))) ∧
    (∀ tbl k, tbl < 256 → k < n →
      (aluMix3 t tbl a b c).getLsbD k = tbl.testBit (4 * (c.getLsbD k).toNat + 2 * (b.getLsbD k).toNat + (a.getLsbD k).toNat)) ∧
    (∀ (wrap : Bool) (k : Nat), k < n →
      (aluShl wrap t a b).getLsbD k = (decide (sh wrap ≤ k) && a.getLsbD (k - sh wrap)) ∧
      (aluShr wrap t a b).getLsbD k = (decide (k + sh wrap < n) && a.getLsbD (k + sh wrap)) ∧
      (aluSar wrap t a b).getLsbD k = a.getLsbD (if k + sh wrap < n then k + sh wrap else n - 1)) ∧
    (∀ k, k < n →
      (aluRot true t a b).getLsbD k = a.getLsbD ((k + cnt) % n) ∧ (aluRot false t a b).getLsbD k = a.getLsbD ((k + n - cnt % n) % n) ∧
      (aluBrev t a).getLsbD k = a.getLsbD (n - 1 - k)) ∧
    aluPopc t a = BitVec.ofNat 64 ((List.range n).filter fun k => a.getLsbD k).length ∧
    ((∀ k, k < n → a.getLsbD k = false) →
      aluClz t a = BitVec.ofNat 64 n ∧ aluFfs false t a = 0xFFFFFFFF ∧ aluFfs true t a = 0xFFFFFFFF) ∧
    (∀ k, k < n → a.getLsbD k = true →
      ((∀ m, k < m → m < n → a.getLsbD m = false) → aluClz t a = BitVec.ofNat 64 (n - 1 - k) ∧ aluFfs true t a = BitVec.ofNat 64 k) ∧
      ((∀ m, m < k → a.getLsbD m = false) → aluFfs false t a = BitVec.ofNat 64 k))

/-! ### Instructions on registers, control, traps -/

/-- R274 to R278: an integer instruction writes its result to its destination in every executing lane of every slice of the unit, and nothing else. -/
def Obligations.IntegerResults : Prop :=
  ∀ (i : Instr) (r : Result) (s : State), IntResult i r → WellFormed i = true → s.unitIn → r.fits s → r.Holds i s

/-- R279 to R282: a logic or bit instruction writes its result to its destination in every executing lane of every slice of the unit, and nothing
else. -/
def Obligations.BitResults : Prop :=
  ∀ (i : Instr) (r : Result) (s : State), BitResult i r → WellFormed i = true → s.unitIn → r.fits s → r.Holds i s

/-- R283, R284, R154: a float instruction writes its result and ORs the flags it raises into FLAGS, and changes nothing else. -/
def Obligations.FloatResults : Prop :=
  ∀ (i : Instr) (r : Result) (s : State), FloatResult i r → WellFormed i = true → s.unitIn → r.fits s → r.Holds i s

/-- R287 to R289, R295: a conversion, MOV or MOVI writes its result to its destination, with the flags it raises, and nothing else. -/
def Obligations.MoveResults : Prop :=
  ∀ (i : Instr) (r : Result) (s : State), MoveResult i r → WellFormed i = true → s.unitIn → r.fits s → r.Holds i s

/-- R276, R284, R297, R133: a comparison or PMIX writes its value to its predicate in every executing lane, index 7 discarding it, and nothing
else. -/
def Obligations.PredicateResults : Prop :=
  ∀ (i : Instr) (r : PredResult) (s : State), PredForm i r → WellFormed i = true → s.unitIn →
    (∀ j ∈ s.cur, regsOk (s.crewOf j) r.regs = true) → r.Holds i s

/-- IADDC, PSAVE, PLOAD, MOVIH, V2S, FLGRD, FLGCLR, SPEXP and RDSR (R275, R293, R295, R296, R298, R299) complete with these effects on each slice of
the unit. CVTN, CVTW and SPCOMP (R290 to R292) complete where the format register holds a format that they take. -/
def Obligations.SliceEffects : Prop :=
  (∀ s : State, s.unitIn →
     (∀ (h : Hdr) (sub : Bool) (p : Nat) (t : Ty) (d a b : Opnd),
       (∀ j ∈ s.cur, regsOk (s.crewOf j) [(d, tyRegs t), (a, tyRegs t), (b, tyRegs t)] = true) →
       Completes (.iaddc h sub p t d a b) h (fun j x => ran (lanesFor (vecMode d [a, b]) h x) (fun y =>
         eachLane (vecMode d [a, b]) (lanesFor (vecMode d [a, b]) h x) y fun l z =>
           let r := aluAddc t sub (rdPred ⟨!vecMode d [a, b], p⟩ l y) (rd (s.crewOf j) y t h.imm l a) (rd (s.crewOf j) y t h.imm l b)
           wrPred ⟨!vecMode d [a, b], p⟩ l r.2 (wr t d l r.1 z)) x) s) ∧
     (∀ (h : Hdr) (q : Bool) (d : Opnd), (∀ j ∈ s.cur, regsOk (s.crewOf j) [(d, 1)] = true) →
       Completes (.psave h q d) h (fun _ x => ran (lanesFor (!q) h x) (fun y => eachLane (!q) (lanesFor (!q) h x) y fun l z =>
         wr (if q then .u64 else .u32) d l (BitVec.ofNat 64 (predByte y q l)) z) x) s) ∧
     (∀ (h : Hdr) (q : Bool) (a : Opnd), (∀ j ∈ s.cur, regsOk (s.crewOf j) [(a, 1)] = true) →
       Completes (.pload h q a) h (fun j x => ran (lanesFor (!q) h x) (fun y => eachLane (!q) (lanesFor (!q) h x) y fun l z =>
         (List.range 7).foldl (fun z k =>
           if h.imm.getLsbD k then wrPred ⟨q, k⟩ l ((rd (s.crewOf j) y .u32 0 l a).getLsbD k) z else z) z) x) s) ∧
     (∀ (h : Hdr) (n : Nat), (∀ j ∈ s.cur, regsOk (s.crewOf j) [(.v n, 2)] = true) →
       Completes (.movih h (.v n)) h (fun _ x => ran (perLane h x) (fun y =>
         (lanesOf (perLane h x)).foldl (fun z l => z.setV (n + 1) l h.imm) y) x) s) ∧
     (∀ (h : Hdr) (n : Nat), Completes (.movih h (.s n)) h (fun _ x => ran (perSlice h x) (fun y =>
         y.setS n (h.imm ++ (y.sreg n).setWidth 32)) x) s) ∧
     (∀ (h : Hdr), Completes (.movih h .zero) h (fun _ x => (atIssue x).next) s) ∧
     (∀ (h : Hdr) (t : Ty) (d a b : Opnd), (∀ j ∈ s.cur, regsOk (s.crewOf j) [(a, tyRegs t)] = true) →
       Completes (.v2s h t d a b) h (fun j x => ran (perSlice h x) (fun y =>
         wr t d 0 (rd (s.crewOf j) y t h.imm ((rd (s.crewOf j) y .u32 h.imm 0 b).toNat % 4) a) y) x) s) ∧
     (∀ (h : Hdr) (d : Opnd), (∀ j ∈ s.cur, regsOk (s.crewOf j) [(d, 1)] = true) →
       Completes (.flgrd h d) h (fun _ x => ran (perSlice h x) (fun y =>
         (lanesOf y.active).foldl (fun z l => wr .u32 d l (y.flags.setWidth 64) z) y) x) s) ∧
     (∀ (h : Hdr), Completes (.flgclr h) h (fun _ x => ran (perSlice h x) (fun y =>
         { y with flags := y.flags &&& ~~~(h.imm.setWidth 6) }) x) s) ∧
     (∀ (h : Hdr) (t : Ty) (d a b : Opnd),
       (∀ j ∈ s.cur, regsOk (s.crewOf j) [(d, if t != .u8x4 then 2 else 1), (a, 1), (b, 1)] = true) →
       Completes (.spexp h t d a b) h (fun j x => ran (lanesFor (vecMode d [a, b]) h x) (fun y =>
         eachLane (vecMode d [a, b]) (lanesFor (vecMode d [a, b]) h x) y fun l z =>
           if t != .u8x4 then
             ((aluSpexp16 (rd (s.crewOf j) y .u32 h.imm l a).toNat (rd (s.crewOf j) y .u32 h.imm l b).toNat).zipIdx).foldl
               (fun z e => wrRange d l e.2 e.1 z) z
           else wr .u32 d l (aluSpexp8 (rd (s.crewOf j) y .u32 h.imm l a).toNat) z) x) s) ∧
     (∀ (h : Hdr) (t : Ty) (d : Opnd), (∀ j ∈ s.cur, regsOk (s.crewOf j) [(d, tyRegs t)] = true) →
       Completes (.rdsr h t d) h (fun j x => ran (lanesFor (vecMode d []) h x) (fun y =>
         eachLane (vecMode d []) (lanesFor (vecMode d []) h x) y fun l z => wr t d l (srRead s j h.imm.toNat) z) x) s)) ∧
  (∀ s : State, s.unitIn →
     (∀ (h : Hdr) (n : Nat) (d a b : Opnd),
       (∀ j ∈ s.cur, ∃ f, fmtOfReg (fRegNow s j n) = some f ∧ a.sRange (containerCount (fRegNow s j n)) = true ∧
         regsOk (s.crewOf j) [(a, containerCount (fRegNow s j n)), (d, 1), (b, 1)] = true) →
       Completes (.cvtn h n d a b) h (fun j x => ran (lanesFor (vecMode d [a, b]) h x) (fun y =>
         eachLane (vecMode d [a, b]) (lanesFor (vecMode d [a, b]) h x) y fun l z =>
           wrFl .u32 d l (aluCvtn ((fmtOfReg (fRegNow s j n)).getD fmtF32) (fRegNow s j n) (gRegNow s j n)
             ((List.range (containerCount (fRegNow s j n))).map (rdRange y l a)) (rd (s.crewOf j) y .f16 h.imm l b).toNat) z) x) s) ∧
     (∀ (h : Hdr) (n : Nat) (d a b : Opnd),
       (∀ j ∈ s.cur, ∃ f, fmtOfReg (fRegNow s j n) = some f ∧ d.sRange (containerCount (fRegNow s j n)) = true ∧
         regsOk (s.crewOf j) [(d, containerCount (fRegNow s j n)), (a, 1), (b, 1)] = true) →
       Completes (.cvtw h n d a b) h (fun j x => ran (lanesFor (vecMode d [a, b]) h x) (fun y =>
         eachLane (vecMode d [a, b]) (lanesFor (vecMode d [a, b]) h x) y fun l z =>
           let rs := aluCvtw ((fmtOfReg (fRegNow s j n)).getD fmtF32) (fRegNow s j n) (gRegNow s j n)
             (rd (s.crewOf j) y .u32 h.imm l a).toNat (rd (s.crewOf j) y .f16 h.imm l b).toNat
           let w := (rs.zipIdx).foldl (fun z e => wrRange d l e.2 e.1.1 z) z
           { w with flags := w.flags ||| orFlags (rs.map Prod.snd) }) x) s) ∧
     (∀ (h : Hdr) (t : Ty) (n : Nat) (d a b : Opnd),
       (∀ j ∈ s.cur, regsOk (s.crewOf j) [(d, if t != .u8x4 then 2 else 1), (a, 1), (b, 1)] = true ∧
         (t = .u8x4 → (∃ f, fmtOfReg (fRegNow s j n) = some f) ∧ nibbleClass (fRegNow s j n) = false)) →
       Completes (.spcomp h t n d a b) h (fun j x => ran (lanesFor (vecMode d [a, b]) h x) (fun y =>
         eachLane (vecMode d [a, b]) (lanesFor (vecMode d [a, b]) h x) y fun l z =>
           if t != .u8x4 then
             ((aluSpcomp16 (tyFmt t) (rd (s.crewOf j) y .u32 h.imm l a).toNat (rd (s.crewOf j) y .u32 h.imm l b).toNat).zipIdx).foldl
               (fun z e => wrRange d l e.2 e.1 z) z
           else wr .u32 d l (aluSpcomp8 ((fmtOfReg (fRegNow s j n)).getD fmtF32) (rd (s.crewOf j) y .u32 h.imm l a).toNat) z) x) s))

/-- R304, R305: a transfer whose active lanes all go to one PC continues there, with the return address in the lanes that transfer. R144, R305: a
transfer whose active lanes go to two PCs, the top entry holding no pending path. The lanes bound for p j continue: they fall through, or, where
neither PC is PC + 12, p j is the lowest active lane's. The others become the pending path. -/
def Obligations.TransferEffects : Prop :=
  (∀ (i : Instr) (f : TransferForm) (s : State) (p : Nat → DWord), Transfers i f → s.unitIn →
     (∀ j ∈ s.cur, regsOk (s.crewOf j) f.regs = true ∧ f.alignedIn (s.crewOf j) (s.sl j) ∧ (s.sl j).active ≠ 0 ∧
       ∀ l, l < 4 → (s.sl j).active.getLsbD l = true → f.dest (s.crewOf j) (s.sl j) l = p j) →
     Completes i f.hdr (fun j x => f.linked x { atIssue x with pc := p j }) s) ∧
  (∀ (i : Instr) (f : TransferForm) (s : State) (p q : Nat → DWord) (e : Nat → REntry) (st : Nat → List REntry) (a b : Nat → BitVec 4),
     Transfers i f → s.unitIn →
     (∀ j ∈ s.cur,
       let x := s.sl j
       let d := f.dest (s.crewOf j) x
       regsOk (s.crewOf j) f.regs = true ∧ f.alignedIn (s.crewOf j) x ∧ x.stack = e j :: st j ∧ (e j).pmask = 0 ∧
       p j ≠ q j ∧ q j ≠ x.pc + 12 ∧ a j ≠ 0 ∧ b j ≠ 0 ∧
       (∀ l, l < 4 → (a j).getLsbD l = (x.active.getLsbD l && d l == p j)) ∧
       (∀ l, l < 4 → (b j).getLsbD l = (x.active.getLsbD l && d l == q j)) ∧
       x.active = a j ||| b j ∧
       (p j = x.pc + 12 ∨ ∃ l, l < 4 ∧ (a j).getLsbD l = true ∧ ∀ k, k < l → (b j).getLsbD k = false)) →
     Completes i f.hdr (fun j x => f.linked x
       { atIssue x with pc := p j, active := a j, stack := { e j with ppc := q j, pmask := b j } :: st j }) s)

/-- R144, R304, R307, R308, R310, R311: NOP, BRACE, MEET, EXIT, REGANG, YIELD, SLEEP, STEP and both RTE complete: the lanes, the reconvergence stack,
the PC and the park become what the rules say, and nothing else changes. -/
def Obligations.ControlEffects : Prop :=
  ∀ (s : State) (h : Hdr), s.unitIn →
    -- NOP has no effect, whatever its guard
    Completes (.nop h) h (fun _ x => (atIssue x).next) s ∧
    -- BRACE pushes the active lanes
    ((∀ j ∈ s.cur, (s.sl j).stack.length < 16) →
      Completes (.brace h) h (fun _ x => ran x.active (fun y => { y with stack := ⟨x.active, 0, 0, 0⟩ :: x.stack }) x) s) ∧
    -- MEET goes to the pending path, or closes the region
    (∀ (e : Nat → REntry) (st : Nat → List REntry), (∀ j ∈ s.cur, (s.sl j).stack = e j :: st j ∧ (s.sl j).active ≠ 0) →
      Completes (.meet h) h (fun j x =>
        if (e j).pmask ≠ 0 then
          { atIssue x with active := (e j).pmask &&& x.live, pc := (e j).ppc, stack := { e j with pmask := 0, mpc := x.pc } :: st j }
        else { (atIssue x).next with active := (e j).mask &&& x.live, stack := st j }) s) ∧
    -- EXIT removes its lanes; here other active lanes stay
    ((∀ j ∈ s.cur, (s.sl j).active &&& ~~~(perLane h (s.sl j)) ≠ 0 ∧ (s.sl j).live &&& ~~~(perLane h (s.sl j)) ≠ 0) →
      Completes (.exit h) h (fun _ x =>
        { (atIssue x).next with
          live := x.live &&& ~~~(perLane h x)
          active := x.active &&& ~~~(perLane h x)
          stack := if perLane h x = 0 then x.stack
            else x.stack.map fun e => { e with mask := e.mask &&& ~~~(perLane h x), pmask := e.pmask &&& ~~~(perLane h x) } }) s) ∧
    -- EXIT of the slice's last live lanes, nothing being outstanding
    ((∀ j ∈ s.cur, perLane h (s.sl j) ≠ 0 ∧ (s.sl j).live &&& ~~~(perLane h (s.sl j)) = 0 ∧
        (s.sl j).active &&& ~~~(perLane h (s.sl j)) = 0 ∧ (s.sl j).outst = [] ∧ (s.sl j).deferred = []) →
      Completes (.exit h) h (fun _ x =>
        { (atIssue x).next with
          live := 0
          active := 0
          stack := x.stack.map fun e => { e with mask := e.mask &&& ~~~(perLane h x), pmask := e.pmask &&& ~~~(perLane h x) } }) s) ∧
    -- EXIT of every active lane, while lanes of the top entry's pending path, or of an outer entry, stay live
    (∀ (e : Nat → REntry) (out st : Nat → List REntry),
      (∀ j ∈ s.cur,
        let left := (s.sl j).live &&& ~~~(perLane h (s.sl j))
        perLane h (s.sl j) ≠ 0 ∧ (s.sl j).active &&& ~~~(perLane h (s.sl j)) = 0 ∧ left ≠ 0 ∧ (s.sl j).stack = out j ++ e j :: st j ∧
        (∀ o ∈ out j, o.pmask &&& left = 0 ∧ o.mask &&& left = 0) ∧ ((e j).pmask &&& left ≠ 0 ∨ (e j).mask &&& left ≠ 0)) →
      Completes (.exit h) h (fun j x =>
        let keep := fun (m : BitVec 4) => m &&& ~~~(perLane h x)
        let y := { (atIssue x).next with live := keep x.live }
        let rest := (st j).map fun o => { o with mask := keep o.mask, pmask := keep o.pmask }
        if (e j).pmask &&& keep x.live ≠ 0 then
          { y with active := (e j).pmask &&& keep x.live, pc := (e j).ppc, stack := { e j with mask := keep (e j).mask, pmask := 0 } :: rest }
        else { y with active := (e j).mask &&& keep x.live, pc := (e j).mpc + 12, stack := rest }) s) ∧
    -- REGANG where every live slice of the gang stands at it
    ((∀ j ∈ s.cur, ∀ k ∈ s.liveGang j, k ∈ s.cur) →
      Completes (.regang h) h (fun _ x => ran x.active (fun y => { y with park := .after (.clock 0) false, since := none, raised := false }) x) s) ∧
    -- YIELD ends the run and asks to be passed over once
    Completes (.yield h) h (fun _ x => ran (perSlice h x) (fun y =>
      { y with park := .after (.clock 0) false, since := none, raised := false, hold := true }) x) s ∧
    -- SLEEP parks until the clock it names, or stands at a park point where its context is to stop
    (∀ a : Opnd, Completes (.sleep h a) h (fun j x => ran (perSlice h x) (fun y =>
      { y with
        park := .after (.clock (if (s.ctx (s.ctxOf j)).st = .stopping then 0 else s.clockOf j + (rd (s.crewOf j) x .u32 h.imm 0 a).toNat)) false
        since := none
        raised := false }) x) s) ∧
    -- STEP goes on when its launch has reached the slice's next step boundary
    ((∀ j ∈ s.cur, (s.sl j).stepIn = true ∧ ∃ l, Tbl.find s.launches (s.crewOf j).launch = some l ∧ (s.sl j).steps + 1 ≤ l.steps) →
      Completes (.step h) h (fun _ x => ran x.active (fun y => { y with steps := x.steps + 1, stepIn := false }) x) s) ∧
    -- RTE leaves handler mode: the saved lanes that live are active again, at TRAPPC, TRAPINFO or TRAPPC + 12
    ((∀ j ∈ s.cur, (s.sl j).hmode = true ∧ (s.sl j).outst = [] ∧ (s.sl j).active ≠ 0 ∧ (s.sl j).saved &&& (s.sl j).live ≠ 0 ∧
        (s.sl j).trappc.toNat % 4 = 0) →
      Completes (.rteRetry h) h (fun _ x => { atIssue x with hmode := false, active := x.saved &&& x.live, pc := x.trappc }) s) ∧
    ((∀ j ∈ s.cur, (s.sl j).hmode = true ∧ (s.sl j).outst = [] ∧ (s.sl j).active ≠ 0 ∧ (s.sl j).saved &&& (s.sl j).live ≠ 0 ∧
        (if (s.sl j).trapdef then (s.sl j).trapinfo else (s.sl j).trappc + 12).toNat % 4 = 0) →
      Completes (.rteResume h) h (fun _ x =>
        { atIssue x with hmode := false, active := x.saved &&& x.live, pc := if x.trapdef then x.trapinfo else x.trappc + 12 }) s)

/-- R273, R285, R286: a special function issues in every slice of the unit; its results and flags land later. -/
def Obligations.SpecialFunctions : Prop :=
  ∀ (i : Instr) (h : Hdr) (d a : Opnd) (f : Nat → Fl Nat) (s : State), SfuForm i h d a f → s.unitIn →
    (∀ j ∈ s.cur, regsOk (s.crewOf j) [(d, 1), (a, 1)] = true ∧ (s.sl j).outst.length < 32 ∧ sfuBusy s j < 8) →
    ∃ t, exec i s = .next t ∧ LandFrame s t ∧ ∀ j ∈ s.cur,
      if lanesFor (vecMode d [a]) h (s.sl j) = 0 then t.sl j = waitW h (atIssue (s.sl j)).next
      else Landing h (sfuLands (s.crewOf j) (s.sl j) h d a f) (atIssue (s.sl j)) (t.sl j)

/-- R148, R300 to R302: a gang operation runs when the whole live gang issues; the gang's lanes give each contributing slice its result. R303: LEAD
gives the predicate to the lowest executing lane of the issue whose source holds, and clears it in the others. -/
def Obligations.GangOperations : Prop :=
  (∀ (i : Instr) (f : GangForm) (s : State), Gangs i f → s.unitIn →
     (∀ j ∈ s.cur, regsOk (s.crewOf j) f.regs = true ∧ (s.sl j).outst.length < 32 ∧ (s.sl j).active ≠ 0 ∧ ∀ k ∈ s.liveGang j, k ∈ s.cur) →
     ∃ t, exec i s = .next t ∧ LandFrame s t ∧ ∀ j ∈ s.cur,
       let x := { atIssue (s.sl j) with park := .after (.clock 0) false, since := none, raised := false }
       if f.mine s j = [] then t.sl j = waitW f.hdr x.next else Landing f.hdr (f.lands s j) x (t.sl j)) ∧
  (∀ (h : Hdr) (pd a : PredOp) (s : State), s.unitIn →
     let holds := s.cur.flatMap fun j => ((lanesOf (perLane h (s.sl j))).filter fun l => rdPred a l (s.sl j)).map fun l => (j, l)
     Completes (.lead h pd a) h (fun j x => ran (perLane h x) (fun y =>
       (lanesOf (perLane h x)).foldl (fun z l => wrPred pd l (holds.head? == some (j, l)) z) y) x) s)

/-- R154, R185, R157, R243, R91, R92, R296: the writes of special registers, each once in every slice of the unit where the guard holds. A context
register's new value propagates while the writer waits (a format register's bits above [31:0] are checked with the others: log 92); a lower WAYS code
takes effect at once, the lost tiles' owners and kinds as they are (the model's choice, log 87), a higher one is raised while the writer waits, and a
later slice of the unit then waits in front of its own write. -/
def Obligations.SpecialWrites : Prop :=
  ∀ (s : State) (h : Hdr) (t : Ty) (a : Opnd), s.unitIn →
    let v := fun j => rd (s.crewOf j) (s.sl j) t h.imm 0 a
    let parked := fun (w : Wait) (x : Slice) => { x with park := .after w false, since := none, raised := false }
    let pend := fun (u : State) (j : Nat) =>
      (u.updCtx (u.ctxOf j) fun c => { c with pendReg := c.pendReg ++ [(h.imm.toNat, v j, j)] }).updSl j (parked .ctxReg)
    (s.each h (fun j => (v j).toNat < 64) →
      Runs (.writeFlags h t a) h (perSlice h) (fun u j => u.updSl j fun x => { x with flags := (v j).setWidth 6 }) s) ∧
    ((∀ j ∈ s.cur, (s.sl j).role = .deck) → s.each h (fun j => v j &&& ~~~0x3D = 0) →
      Runs (.writeDkflags h t a) h (perSlice h)
        (fun u j => u.updCrew (u.sl j).crew fun c => { c with deck := { c.deck with dkflags := (v j).setWidth 6 } }) s) ∧
    ((∀ j ∈ s.cur, (s.sl j).hmode = true) → Runs (.writeTrapRegister h t a) h (perSlice h) (fun u j => u.updSl j fun x =>
      if h.imm = 0x31 then { x with trappc := v j }
      else if h.imm = 0x32 then { x with trapcode := (v j).setWidth 8, trapdef := (v j).getLsbD 8, trapovf := (v j).getLsbD 9 }
      else if h.imm = 0x33 then { x with trapaddr := v j }
      else if h.imm = 0x34 then { x with trapmask := (v j).setWidth 32 }
      else if h.imm = 0x35 then { x with trapinfo := v j } else x) s) ∧
    (h.imm = 0x30 → s.each h (fun j => (v j).toNat % 4 = 0) → Runs (.writeTrapvec h t a) h (perSlice h) pend s) ∧
    (s.each h (fun j => formatRegOk (v j) = true) → Runs (.writeFormatRegister h t a) h (perSlice h) pend s) ∧
    (s.each h (fun j => (v j).toNat < 2 ^ 32 ∧ positiveNormal fmtF32 (v j).toNat = true) →
      Runs (.writeTensorScale h t a) h (perSlice h) pend s) ∧
    (s.each h (fun j => v j &&& ~~~0x33 = 0 ∧ (s.cluster (coreCluster (s.coreOf j))).raising = none) →
      Runs (.writeL2wp h t a) h (perSlice h) (fun u j =>
        let cl := coreCluster (u.coreOf j)
        let code := max ((v j).toNat % 4) (floorCode s cl (u.crewOf j).span)
        if (u.cluster cl).raising ≠ none then u.updSl j fun x => { x with park := .before .l2wp, pc := x.pc - 12 }
        else (if code ≤ (u.cluster cl).ways then dropScratch (u.setCluster cl { u.cluster cl with ways := code }) cl (256 * waysOf code)
          else u.setCluster cl { u.cluster cl with raising := some (code, j) }).updSl j (parked .l2wp)) s)

/-- R241, R242, R244, R246, R309: TRAP and BPT, where the guard holds in some slice of the unit, are the trap of every slice of it, at themselves,
TRAP's immediate its information, TRAPMASK the unit's active lanes; a slice with results outstanding waits for them first; without a handler, or in
handler mode, the context stops with the cause. A trap that waited is taken when the results are in, and the oldest deferred trap at the end of a
park, its resume PC the slice's. -/
def Obligations.TrapEntry : Prop :=
  (∀ (s : State) (h : Hdr), s.unitIn → (∀ j ∈ s.cur, s.hasCtx (s.ctxOf j) = true) → (∃ j ∈ s.cur, perSlice h (s.sl j) ≠ 0) →
    (∃ t, exec (.trap h) s = .next t ∧ SlotsOnly (s.cur.foldl (fun u j => u.takes j 0x1B (h.imm.setWidth 64) s.unitMask) s) t) ∧
    (∃ t, exec (.bpt h) s = .next t ∧ SlotsOnly (s.cur.foldl (fun u j => u.takes j 0x1C 0 s.unitMask) s) t)) ∧
  ∀ (s : State) (j : Nat),
    (∀ (core slot : Nat) (fresh : BitVec 3) (rest : List Move), s.schedule = .issue core slot fresh :: rest →
      (slotAt (s.core core) slot).holder = [j] → (slotAt (s.core core) slot).freeAt ≤ s.clockOf j →
      s.alive j = true → s.hasCtx (s.ctxOf j) = true → (s.ctx (s.ctxOf j)).st = .running →
      ({ s with freeIx := s.freeIx + 1 } : State).canTrap j →
      let entered := fun (e : TrapRec) (left : List TrapRec) => { s.sl j with
        deferred := left, taking := none, park := .run, answers := [], fetch := [], stepIn := false, relIn := false, lost := [], begun := none
        trappc := e.pc, trapcode := BitVec.ofNat 8 e.code, trapdef := e.defer, trapovf := e.ovf, trapaddr := e.addr, trapmask := e.mask
        trapinfo := e.info, hmode := true, saved := (s.sl j).active, active := (s.sl j).live
        pc := trapvecNow { s with freeIx := s.freeIx + 1 } j &&& ~~~3 }
      (∀ e, (s.sl j).taking = some e → e.code ≠ 0x1A → ∃ t, step s = .next t ∧ t.sl j = entered e (s.sl j).deferred ∧ t.mem = s.mem) ∧
      (∀ e es t0 w, (s.sl j).taking = none → (s.sl j).deferred = e :: es → e.code ≠ 0x1A → (s.sl j).park = .after (.clock t0) w → t0 ≤ s.clockOf j →
        ∃ t, step s = .next t ∧ t.sl j = entered { e with info := (s.sl j).pc, defer := true } es ∧ t.mem = s.mem))

/-! ### Memory -/

/-- R312, R313, R58, R142: LD puts one access of its lanes' bytes under way, at the addresses of R264, and its results land later. A lane in a
non-resident page reads zero at once, with NR or p6. -/
def Obligations.Loads : Prop :=
  ∀ (s : State) (h : Hdr) (m : MemOp) (sz : LdSize) (d : Opnd), s.unitIn →
    let vec := memVec d m
    let as := accsFor h vec m (ldBytes sz) s
    (∀ j ∈ s.cur, regsOk (s.crewOf j) (memRegs d (ldBytes sz) m) = true ∧
      (lanesFor vec h (s.sl j) ≠ 0 → s.served j (as j) ∧ s.calm j (as j) ∧ (s.sl j).outst.length < 32)) →
    ∃ t, exec (.ld h m sz d) s = .next t ∧ AccFrame s t ∧ ∀ j ∈ s.cur,
      let ok := (as j).filter fun a => clrSt s j .read true a == .ok
      let zero := (as j).filter fun a => clrSt s j .read true a == .zero
      let early := zero.flatMap (fun a => landsFor d (ldBytes sz) a.lane (ldSigned sz) 0) ++
        residencyLands (s.sl j) (!vec) m.r ((as j).map fun a => (a.lane, clrSt s j .read true a))
      if lanesFor vec h (s.sl j) = 0 then t.sl j = waitW h (atIssue (s.sl j)).next
      else Under h (fun id =>
        { accBase s s j .load h with
          pieces := ok.flatMap fun a => lanePieces (pageOrd s (s.ctxOf j)) a.lane a.va (ldBytes sz) 0 0
          size := ldBytes sz
          sgn := ldSigned sz
          dst := d
          once := !vec
          id := id
          whole := ldBytes sz == 4 && coversSector (s.cur.map as) && zero.isEmpty }) (!ok.isEmpty) early
        (early.length + (ok.map fun a => (landsFor d (ldBytes sz) a.lane false 0).length).foldl (· + ·) 0)
        (fun id => acquiring m id (atIssue (s.sl j))) (t.sl j)

/-- R312, R314, R316 to R319: ST, RED, NMRED, ATOM and CAS put one access under way, with the lanes' data, at the addresses of R264; ATOM and CAS have
a result to land. No byte is stored yet. -/
def Obligations.StoresIssue : Prop :=
  ∀ (i : Instr) (f : StoreForm) (s : State), Stores i f → s.unitIn →
    (∀ j ∈ s.cur, regsOk (s.crewOf j) f.regs = true ∧
      (lanesFor f.vec f.hdr (s.sl j) ≠ 0 →
        (f.align = true → ∀ a ∈ f.accs s j, a.va % f.n = 0) ∧ s.writable j (f.accs s j) ∧ s.orderMet j f.m ∧ s.calm j (f.accs s j) ∧
        (f.res ≠ none → (s.sl j).outst.length < 32))) →
    ∃ t, exec i s = .next t ∧ AccFrame s t ∧ ∀ j ∈ s.cur,
      let as := f.accs s j
      let dst := (f.res.getD (.zero, 0)).1
      let n := if f.res.isSome then
        (as.map fun a => (landsFor dst f.n a.lane false 0).length + (f.res.getD (.zero, 0)).2).foldl (· + ·) 0 else 0
      if lanesFor f.vec f.hdr (s.sl j) = 0 then t.sl j = waitW f.hdr (atIssue (s.sl j)).next
      else Under f.hdr (fun id =>
        { accBase s s j f.kind f.hdr with
          pieces := as.flatMap fun a => lanePieces (pageOrd s (s.ctxOf j)) a.lane a.va f.n (storeVal (s.sl j) f.d f.n a.lane) (f.new (s.sl j) a.lane)
          size := f.n
          dst := dst
          once := !f.vec
          id := if f.res = none then 0 else id
          whole := f.n == 4 && coversSector (s.cur.map fun k => f.accs s k) }) true [] n
        (fun id => if f.res.isSome then acquiring f.m id (atIssue (s.sl j)) else atIssue (s.sl j)) (t.sl j)

/-- R315, R122, R123, R126: LDL of its own stash or of span scratch lands the bytes that the tiles hold; one of mapped bytes that the crew's tile does
not hold, cleared and filled, or of a remote stash puts an access under way, and a non-resident page of a mapping reads as zero. That local bytes are
taken as they stand at issue, and not later, is the model's choice (log 19); so is the kind of page of a remote byte (log 80). -/
def Obligations.LocalLoads : Prop :=
  ∀ (s : State) (h : Hdr) (m : MemOp) (sp : LclSpace) (sz : LclSize) (sgn : Bool) (d : Opnd), s.unitIn →
    let vec := memVec d m
    let n := lclBytes sz
    let as := accsFor h vec m n s
    let home := fun (j : Nat) => if sp = .stash then unitHome s false (accsFor h vec m n) j else []
    (∀ j ∈ s.cur, regsOk (s.crewOf j) (memRegs d n m) = true ∧
      (lanesFor vec h (s.sl j) ≠ 0 → s.localOpen j sp n false (as j) ∧ s.served j (home j) ∧
        s.calm j (if sp = .remote then remoteAccs s j (as j) else home j) ∧ (s.sl j).outst.length < 32)) →
    ∃ t, exec (.ldl h m sp sz sgn d) s = .next t ∧ AccFrame s { t with banks := s.banks, bankClock := s.bankClock } ∧
      (sp ≠ .span → t.banks = s.banks ∧ t.bankClock = s.bankClock) ∧ ∀ j ∈ s.cur,
      let zero := (home j).filter fun a => clrSt s j .read true a == .zero
      let outs := if sp = .remote then as j else (home j).filter fun a => clrSt s j .read true a == .ok
      let near := (as j).filter fun a => sp != .remote && !(home j).any fun e => e.lane == a.lane
      let early := near.flatMap (fun a => landsFor d n a.lane sgn (lclRead s j sp a.va n)) ++
        zero.flatMap (fun a => landsFor d n a.lane sgn 0) ++ (if zero.isEmpty then [] else [(.flags, fNR.setWidth 64)])
      if lanesFor vec h (s.sl j) = 0 then t.sl j = waitW h (atIssue (s.sl j)).next
      else Under h (fun id =>
        { accBase s s j (if sp = .remote then .remLoad else .mapLoad) h with
          pieces := outs.flatMap fun a => lanePieces (if sp = .remote then remoteOrd s j else pageOrd s (s.ctxOf j)) a.lane a.va n 0 0
          size := n
          sgn := sgn
          dst := d
          once := !vec
          id := id
          whole := n == 4 && coversSector (s.cur.map home) && zero.isEmpty }) (!outs.isEmpty) early
        (early.length + (outs.map fun a => (landsFor d n a.lane false 0).length).foldl (· + ·) 0)
        (fun id => acquiring m id (atIssue (s.sl j))) (t.sl j)

/-- R315, R122 to R124, R126: STL in its own stash or in span scratch stores the lanes' data at once, in slice and lane order, where the tile holds no
mapping or holds the line dirty; every byte outside those lanes' addresses reads as before, and a mapped sector becomes dirty. A store to other mapped
bytes, cleared, and a remote STL put an access under way and store no byte yet. That a local store is made at issue is the model's choice (log 19),
and so is the kind of page of a remote byte (log 80). -/
def Obligations.LocalStores : Prop :=
  ∀ (s : State) (h : Hdr) (m : MemOp) (sp : LclSpace) (sz : LclSize) (d : Opnd), s.unitIn →
    let vec := memVec d m
    let n := lclBytes sz
    let as := accsFor h vec m n s
    let key := fun (j va : Nat) => if sp = .span then (s.crewOf j).span * 2 ^ 23 + va else (s.sl j).crew * 2 ^ 19 + va
    let home := fun (j : Nat) => if sp = .stash then unitHome s true (accsFor h vec m n) j else []
    let near := fun (j : Nat) => (as j).filter fun a => sp != .remote && !(home j).any fun e => e.lane == a.lane
    (∀ j ∈ s.cur, regsOk (s.crewOf j) (memRegs d n m) = true ∧
      (lanesFor vec h (s.sl j) ≠ 0 → s.localOpen j sp n true (as j) ∧ s.writable j (home j) ∧
        s.calm j (if sp = .remote then remoteAccs s j (as j) else home j) ∧ s.orderMet j m)) →
    ∃ t, exec (.stl h m sp sz d) s = .next t ∧
      AccFrame s { t with stash := s.stash, scratch := s.scratch, crews := s.crews, banks := s.banks, bankClock := s.bankClock } ∧
      (sp ≠ .span → t.banks = s.banks ∧ t.bankClock = s.bankClock) ∧
      (let put := s.cur.foldl (fun (b : Mem) j => (near j).foldl (fun b a => Mem.writeLE b (key j a.va) n (storeVal (s.sl j) d n a.lane)) b)
       t.stash = (if sp = .stash then put s.stash else s.stash) ∧ t.scratch = (if sp = .span then put s.scratch else s.scratch)) ∧
      (∀ k, (∀ j ∈ s.cur, ∀ a ∈ near j, k < key j a.va ∨ key j a.va + n ≤ k) →
        (sp = .stash → Mem.read t.stash k = Mem.read s.stash k) ∧ (sp = .span → Mem.read t.scratch k = Mem.read s.scratch k)) ∧
      (∀ c, { t.crew c with tags := (s.crew c).tags } = s.crew c) ∧
      (∀ c k, { tagOf t c k with sd := (tagOf s c k).sd } = tagOf s c k ∧ ∀ b, (tagOf t c k).sd.getLsbD b = ((tagOf s c k).sd.getLsbD b ||
        (sp == .stash && (tagOf s c k).mapped && decide (b < 8) &&
          s.cur.any fun j => (s.sl j).crew == c && (near j).any fun a => a.va / 1024 == k && a.va % 1024 / 128 == b))) ∧
      ∀ j ∈ s.cur,
        let outs := if sp = .remote then as j else home j
        if lanesFor vec h (s.sl j) = 0 then t.sl j = waitW h (atIssue (s.sl j)).next
        else Under h (fun _ =>
          { accBase s s j (if sp = .remote then .remStore else .mapStore) h with
            pieces := outs.flatMap fun a =>
              lanePieces (if sp = .remote then remoteOrd s j else pageOrd s (s.ctxOf j)) a.lane a.va n (storeVal (s.sl j) d n a.lane) 0
            size := n
            once := !vec
            whole := n == 4 && coversSector (s.cur.map home) }) (!outs.isEmpty) [] 0 (fun _ => atIssue (s.sl j)) (t.sl j)

/-- R59, R320, R321, R253: PREF brings lines in where the page may be read, and a page that may not leaves nothing behind; PREQ posts a request for
each lane's page, with a message to the OS cores of its owner tower; CCTL drops the context's cached code from the core, or sends dirty sectors of the
lanes' lines home, drops their copies (evict), and waits until they have arrived: a park point each. -/
def Obligations.HintsAndCacheControl : Prop :=
  ∀ (s : State) (h : Hdr) (m : MemOp), s.unitIn →
    let lanes := lanesFor (memVec .zero m) h
    let as := accsFor h (memVec .zero m) m 1 s
    (∀ j ∈ s.cur, regsOk (s.crewOf j) [(m.base, 2), (m.index, 1)] = true) →
    Runs (.prefL2 h m) h lanes (fun u j => (as j).foldl (fun u a => prefOne true h.ch u j a.va) u) s ∧
    Runs (.prefLlc h m) h lanes (fun u j => (as j).foldl (fun u a => prefOne false h.ch u j a.va) u) s ∧
    ((∀ j ∈ s.cur, ∀ a ∈ as j, prefPage s j a.va = none) → Runs (.prefL2 h m) h lanes (fun u _ => u) s ∧ Runs (.prefLlc h m) h lanes (fun u _ => u) s) ∧
    Runs (.preq h m) h lanes (fun u j => (as j).foldl (fun u a =>
      if a.va < 2 ^ 56 ∧ vaPkg a.va < u.npkgs then
        injectUnit { u with nextId := u.nextId + 1, resReqs := Tbl.put u.resReqs u.nextId (u.ctxOf j, a.va, u.coreOf j) } (u.coreOf j)
          (crewClass u (u.sl j).crew) 3 (vaTower a.va) none
      else u) u) s ∧
    Runs (.cctlIinv h) h (perSlice h) (fun u j => (u.updCore (u.coreOf j) fun c =>
      { c with icache := c.icache.filter fun e => e.1 / 2 ^ 57 != u.ctxOf j }).updSl j (standAt (.clock 0))) s ∧
    ((∀ j ∈ s.cur, (s.cluster (coreCluster (s.coreOf j))).raising = none) →
      let sent := fun (evict : Bool) (u : State) (j : Nat) =>
        (((as j).map fun a => a.va / 256).dedup).foldl (fun (r : State × List Nat) line =>
          if userAddr r.1 (256 * line) then
            let c := cleanLine r.1 (coreCluster (u.coreOf j)) (u.sl j).crew (u.ctxOf j) line (crewClass r.1 (u.sl j).crew)
            (if evict then invalLine c.1 (coreCluster (u.coreOf j)) (u.sl j).crew (u.ctxOf j) line else c.1, r.2 ++ c.2)
          else r) (u, [])
      let wait := fun (r : State × List Nat) (j : Nat) =>
        r.1.updSl j fun x => { x with park := .after (.writeBacks r.2) false, since := none, raised := false }
      Runs (.cctlWb h m) h lanes (fun u j => wait (sent false u j) j) s ∧ Runs (.cctlEvict h m) h lanes (fun u j => wait (sent true u j) j) s)

/-- R128 to R132, R322: TEX lands the channels its program gives each lane at its coordinates, TLD those of the texel the lane names, TQRY the
texture's width and height; with their flags, later. That descriptors, programs and texels are read in the issuing state is the model's choice (log
19), and so is k of an infinite coordinate (log 32). -/
def Obligations.TextureReads : Prop :=
  ∀ (s : State) (h : Hdr) (d a b c e : Opnd), s.unitIn →
    (let vec := vecMode d [a, b, c, e]
     let ins := texIns vec h a b c e s
     let addrs := fun (j : Nat) (t : Tex) (q : TexIn) => match progOf s (sliceParty s j) q.prog with
       | none => []
       | some g => sampleAddrs s t g q.x q.y (4 * j + q.lane)
     (∀ j ∈ s.cur, regsOk (s.crewOf j) [(d, 4), (a, 2), (b, 2), (c, 1), (e, 2)] = true ∧
       (lanesFor vec h (s.sl j) ≠ 0 → s.samples j (ins j) (addrs j))) →
     Runs (.tex h d a b c e) h (lanesFor vec h) (fun u j =>
       texAct s u j (!vec) h.ch d (descAccs (ins j) ++ headAccs (ins j) ++ tapAccs s j (ins j)) (texelAccs s j (ins j) (addrs j))
         ((ins j).filterMap fun q => match descOf s (sliceParty s j) q.desc, progOf s (sliceParty s j) q.prog with
           | some t, some g =>
             let r := sampleAt s (sliceParty s j) t g q.x q.y q.dref (4 * j + q.lane)
             some (q.lane, r.chans, r.fl ||| flagIf (progAbsent s (sliceParty s j) q.prog g) fNR)
           | _, _ => none)) s) ∧
    (let vec := vecMode d [a, b]
     let ins := texIns vec h a b .zero .zero s
     let addrs := fun (t : Tex) (q : TexIn) => [texelAddr t (sInt 32 q.x) (sInt 32 q.y)]
     (∀ j ∈ s.cur, regsOk (s.crewOf j) [(d, 4), (a, 2), (b, 2)] = true ∧ (lanesFor vec h (s.sl j) ≠ 0 → s.samples j (ins j) addrs)) →
     Runs (.tld h d a b) h (lanesFor vec h) (fun u j =>
       texAct s u j (!vec) h.ch d (descAccs (ins j)) (texelAccs s j (ins j) addrs)
         ((ins j).filterMap fun q => (descOf s (sliceParty s j) q.desc).map fun t =>
           (q.lane, texelAt s (sliceParty s j) t (sInt 32 q.x) (sInt 32 q.y), flagIf ((addrs t q).any (smpAbsent s (sliceParty s j))) fNR))) s) ∧
    (let vec := vecMode d [a]
     let ins := texIns vec h a .zero .zero .zero s
     (∀ j ∈ s.cur, regsOk (s.crewOf j) [(d, 2), (a, 2)] = true ∧ (lanesFor vec h (s.sl j) ≠ 0 → s.samples j (ins j) fun _ _ => [])) →
     Runs (.tqry h d a) h (lanesFor vec h) (fun u j =>
       texAct s u j (!vec) h.ch d (descAccs (ins j)) []
         ((ins j).filterMap fun q => (descOf s (sliceParty s j) q.desc).map fun t => (q.lane, [t.w, t.h], (0 : Flags)))) s)

/-! ### Synchronisation -/

/-- R220, R223, R312, R324 to R326: fences, BAR, ARRIVE and AWAIT issue when what they wait for has come about. FENCE.acq and the acquire part wait
for the outstanding results after issue; ARRIVE counts one phase of its scope; BAR ends its phase and AWAIT its wait. That a release lets accesses of
UNORDERED pages stand is R215's; that FENCE.acq waits for every outstanding result, where R324 lists loads, atomics and texture reads, is the model's
choice, and what a fence waits for is read by it (log 20). -/
def Obligations.FencesAndBarriers : Prop :=
  ∀ (s : State) (h : Hdr), s.unitIn →
    (s.each h (fun j => (s.sl j).accs = [] ∧ (s.sl j).outst = []) →
      Runs (.fenceDrain h) h (perSlice h) (fun u j => u.updSl j (standAt (.clock 0))) s) ∧
    (s.each h (fun j => s.released j (2 ≤ h.imm.toNat)) →
      Runs (.fenceOrdered h .rel) h (perSlice h) (fun u j => u.updSl j (standAt (.clock 0))) s ∧
      Runs (.fenceOrdered h .ar) h (perSlice h) (fun u j => u.updSl j (standAt .results)) s) ∧
    Runs (.fenceOrdered h .acq) h (perSlice h) (fun u j => u.updSl j (standAt .results)) s ∧
    ((∀ j ∈ s.cur, (s.sl j).active ≠ 0 → (s.sl j).barIn = true ∧
        ∀ k ∈ (s.crewOf j).slices, (s.sl k).live = 0 ∨ (s.sl j).bars + 1 ≤ barsOf (s.sl k)) →
      Runs (.bar h) h Slice.active (fun u j => u.updSl j fun x => standAt (.clock 0) { x with bars := x.bars + 1, barIn := false }) s) ∧
    ((∀ j ∈ s.cur, (s.sl j).active ≠ 0 → s.released j (2 ≤ h.imm.toNat)) →
      Runs (.arrive h) h Slice.active (fun u j => u.updSl j fun x =>
        standAt (.clock 0) { x with arrived := Tbl.put x.arrived h.imm.toNat (Tbl.findD x.arrived h.imm.toNat 0 + 1) }) s) ∧
    ((∀ j ∈ s.cur, (s.sl j).active ≠ 0 → ∀ k ∈ participants s j h.imm.toNat,
        arrivals (s.sl j) h.imm.toNat ≤ arrivals (s.sl k) h.imm.toNat) →
      Runs (.await h) h Slice.active (fun u j => u.updSl j (standAt (.clock 0))) s)

/-- R327, R328: RINIT gives a ring its stages, all EMPTY; RPOST and RREL set a stage FULL and EMPTY after a release; RGET goes on when its stage is as
it asks; CWAIT when its counter has reached the target, and lands the count. R331: WAITMEM goes on when the word at its address, in a resident page
that it may read, satisfies its condition, and lands the word. -/
def Obligations.RingsAndCounters : Prop :=
  (∀ (s : State) (h : Hdr) (ring : Nat) (a : Opnd), s.unitIn →
     let n := fun j => rs32 s j h a
     let upd := fun (u : State) (j : Nat) (f : Ring → Ring) => u.updCrew (s.sl j).crew fun c =>
       { c with rings := (c.rings.zipIdx).map fun e => if e.2 = ring then f e.1 else e.1 }
     (s.each h (fun j => 1 ≤ n j ∧ n j ≤ 8) →
       Runs (.rinit h ring a) h (perSlice h) (fun u j => upd u j fun _ => ⟨n j, 0⟩) s) ∧
     (s.each h (fun j => n j < (ringOf (s.crewOf j) ring).nst ∧ s.released j false) →
       Runs (.rpost h ring a) h (perSlice h) (fun u j =>
         (upd u j fun r => { r with ph := r.ph ||| BitVec.twoPow 8 (n j) }).updSl j (standAt (.clock 0))) s ∧
       Runs (.rrel h ring a) h (perSlice h) (fun u j =>
         (upd u j fun r => { r with ph := r.ph &&& ~~~(BitVec.twoPow 8 (n j)) }).updSl j (standAt (.clock 0))) s) ∧
     (∀ full : Bool, s.each h (fun j => n j < (ringOf (s.crewOf j) ring).nst ∧ (ringOf (s.crewOf j) ring).ph.getLsbD (n j) = full) →
       Runs (.rget h ring full a) h (perSlice h) (fun u j => u.updSl j (standAt (.clock 0))) s) ∧
     (∀ (k : Nat) (d : Opnd), s.each h (fun j => (kOf (s.crewOf j) k - BitVec.ofNat 32 (n j)).msb = false) →
       Runs (.cwait h k d a) h (perSlice h) (fun u j => u.updSl j fun x =>
         standAt (.clock 0) (wr .u64 d 0 ((kOf (s.crewOf j) k).setWidth 64) x)) s)) ∧
  (∀ (s : State) (h : Hdr) (m : MemOp) (cond : WCond) (t : Ty) (d : Opnd), s.unitIn →
     let n := tyBytes t
     let as := accsFor h false m n s
     let va := fun j => ((as j).head?.map LaneAcc.va).getD 0
     let val := fun j => curLE s (s.ctxOf j) (va j) n
     (∀ j ∈ s.cur, s.calm j (as j) ∧ anyPoison s (s.ctxOf j) (va j) n = none) →
     s.each h (fun j => va j % n = 0 ∧ (∀ a ∈ as j, clrSt s j .read false a = .ok ∧ fillSt s j a = .ok) ∧
       (∀ k, k < n → absentFor (s.sl j).answers (va j + k) = false) ∧ ownPre s j (as j) = .go ∧
       wcondHolds cond (8 * n) (val j) (comparand (s.sl j) d).toNat = true) →
     Runs (.waitmem h m cond t d) h (perSlice h) (fun u j =>
       let cl := coreCluster (s.coreOf j)
       let pl := placeAt u cl (s.ctxOf j) (va j) h.ch .read
       (cacheRead (injectRead (useClr u j .read (as j)) pl (u.coreOf j) (crewClass u (u.sl j).crew) (s.ctxOf j) (va j)) pl cl (s.ctxOf j) (va j)
         h.ch).updSl j fun x => standAt (.clock 0) (wr .u64 d 0 (BitVec.ofNat 64 (val j)) x)) s)

/-- R119, R120, R329, R330: TOWN gives a run of tiles its new owner, each tile that already has it staying as it is; TWAIT goes on when the tile has
the owner it names. R125 to R127, R332: STMAP maps tiles, owned by SLICES, empty, to global memory; STWB starts the mapping's dirty sectors home and
waits for them, after the slice's own stores to it; STINV drops its valid and dirty marks; STUNMAP, with no sector dirty and neither a store nor a
write-back of the mapping on its way, ends it: valid sectors keep their bytes, others read zero. What the unit's earlier slices map or unmap counts
(R147); TOWN checks each slice against the owners before the issue (the model's choice, log 89). -/
def Obligations.TileOwners : Prop :=
  (∀ (s : State) (h : Hdr) (span : Bool) (own : Owner) (a b : Opnd), s.unitIn →
     let sp := spaceOf span
     let off := fun j => rs32 s j h a
     let n := fun j => rs32 s j h b
     let still := fun j => span = true → (s.cluster (coreCluster (s.coreOf j))).raising = none
     (s.each h (fun j => still j ∧ 1 ≤ n j ∧ n j ≤ (if span then 2048 else 512) ∧ (span = true → own ≠ .deck) ∧ s.tileRange j sp (off j) (n j) ∧
         ∀ k, k < n j → townOk s j span own (off j / tileSize sp + k) = true ∧
           (ownerOfTile s (s.sl j).crew sp (off j / tileSize sp + k) ≠ own → tileBusy s (s.sl j).crew span (off j / tileSize sp + k) = false)) →
       Runs (.town h span own a b) h (perSlice h) (fun u j =>
         (((List.range (n j)).map (off j / tileSize sp + ·)).foldl (fun u k =>
           if ownerOfTile u (s.sl j).crew sp k = own then u
           else if span ∧ own = .slices then setStag u (u.crew (s.sl j).crew).span k (plainTag (stagOf u (u.crew (s.sl j).crew).span k))
           else setOwner u (s.sl j).crew sp k own) u).updSl j (standAt (.clock 0))) s) ∧
     (s.each h (fun j => still j ∧ s.tileRange j sp (off j) 1 ∧ ownerOfTile s (s.sl j).crew sp (off j / tileSize sp) = own) →
       Runs (.twait h span own a) h (perSlice h) (fun u j => u.updSl j (standAt (.clock 0))) s)) ∧
  (∀ (s : State) (h : Hdr) (a b c : Opnd), s.unitIn →
     let t := fun j => rs32 s j h a / 1024
     let n := fun j => rs32 s j h b
     let g := fun j => rs64 s j h c
     let crew := fun j => (s.sl j).crew
     let mapped := fun j => unitBefore h (stmapPre h a b c) (fun u k => stmapDo h a b c u u k) s j
     let freed := fun j => unitBefore h (stunmapPre h a) (fun u k => stunmapDo h a u u k) s j
     (s.each h (fun j => 1 ≤ n j ∧ n j ≤ 512 ∧ g j % 1024 = 0 ∧ g j / 2 ^ 48 % 512 = (g j + 1024 * n j - 1) / 2 ^ 48 % 512 ∧
         ((mapped j).crew (crew j)).maps.length < 8 ∧ t j + n j ≤ (s.crewOf j).tiles ∧ rs32 s j h a % 1024 = 0 ∧
         ∀ k, k < n j → (tagOf (mapped j) (crew j) (t j + k)).mapped = false ∧ (tagOf (mapped j) (crew j) (t j + k)).owner = .slices) →
       Runs (.stmap h a b c) h (perSlice h) (fun u j =>
         let u1 := (tileRun (t j) (n j)).foldl (fun u k => setTag u (crew j) k ⟨.slices, true, 0, 0⟩) u
         let u2 := { u1 with stash := Mem.clear u1.stash (crew j * 2 ^ 19 + 1024 * t j) (1024 * n j) }
         (u2.updCrew (crew j) fun w => { w with maps := w.maps ++ [⟨t j, n j, g j⟩] }).updSl j (standAt (.clock 0))) s) ∧
     (∀ m : Nat → Mapping, (∀ j ∈ s.cur, rs32 s j h a % 1024 = 0 ∧ mapAt (s.crewOf j) (t j) = some (m j)) →
       (s.each h (fun j => mapAt ((freed j).crew (crew j)) (t j) = some (m j) ∧ mapDirty (freed j) (crew j) (m j) = false ∧
           mapSends (freed j) (crew j) (m j) = [] ∧ mapStores (freed j) (crew j) (m j) = []) →
         Runs (.stunmap h a) h (perSlice h) (fun u j => (unmap u (crew j) (m j)).updSl j (standAt (.clock 0))) s) ∧
       (s.each h (fun j => ∀ e ∈ mapStores s (crew j) (m j), e.1 ≠ j) →
         Runs (.stwb h a) h (perSlice h) (fun u j =>
           let u1 := flushMapped u (crew j) fun k => k == (m j).t0
           u1.updSl j (standAt (.writeBacks (mapSends u1 (crew j) (m j))))) s) ∧
       Runs (.stinv h a) h (perSlice h) (fun u j => ((List.range (m j).n).map ((m j).t0 + ·)).foldl (fun u k =>
         setTag u (crew j) k { tagOf u (crew j) k with sv := 0, sd := 0 }) u) s))

/-! ### Trestle and multicast -/

/-- R102 to R105, R336 to R338, R99, R100: TRST starts its chain at entry 0 with the four context addresses of its s range; TRSTQ's query reaches the
core's Trestle at the next clock, and the status as it then stands lands; TRSTK abandons a busy chain's entries in flight and parks its slice until
those bytes that are on their way have landed; MCGRP gives a drained group of its span, or of a span that has exited, a new mask and generation. What
a restarted or killed chain's old entries and loop counters are is the model's choice (log 30). -/
def Obligations.TrestleInstructions : Prop :=
  ∀ (s : State) (h : Hdr) (ch : Nat) (d a b : Opnd), s.unitIn →
    let crew := fun j => (s.sl j).crew
    let off := fun j => rs32 s j h b
    ((∀ j ∈ s.cur, (s.sl j).role = .copy) →
      s.each h (fun j => off j % 32 = 0 ∧ off j < 2 ^ 19 ∧ off j / 1024 < (s.crewOf j).tiles ∧ (chainOf s (crew j) ch).busy = false ∧
        (s.sl j).accs = []) →
      Runs (.trst h ch a b) h (perSlice h) (fun u j => updChain u (crew j) ch fun c =>
        { st := .running, base := off j, entry := 0, ca := [sRange (s.sl j) a 0, sRange (s.sl j) a 1, sRange (s.sl j) a 2, sRange (s.sl j) a 3],
          loops := [], sub := 0, cause := 0, done := 0, flight := c.flight.map fun f => (f.1, { f.2 with old := true }), cur := none,
          answers := [], slice := j, pc := (s.sl j).pc, mask := gangMask (s.crewOf j) (s.sl j) (s.sl j).active, coll := none,
          killing := c.killing }) s) ∧
    (s.each h (fun j => (s.sl j).outst.length < 32) →
      Runs (.trstq h ch d) h (perSlice h) (fun u j =>
        let n := (landReg .u64 d 0 0).length
        if n = 0 then u
        else ({ u with nextId := u.nextId + 1 } : State).updSl j fun x =>
          { x with outst := Tbl.put x.outst u.nextId n, queries := x.queries ++ [(u.nextId, ch, d)] }) s) ∧
    (∀ pkg n j, (((tick s pkg n).pkg pkg).clock ≠ (s.pkg pkg).clock) → corePkg (s.coreOf j) = pkg →
      ((tick s pkg n).sl j).queries = [] ∧ ((tick s pkg n).sl j).ready = (s.sl j).ready ++ (s.sl j).queries.flatMap fun q =>
        (landReg .u64 q.2.2 0 (chainStatus (chainOf s (crew j) q.2.1))).map fun e => ⟨q.1, e.1, e.2⟩) ∧
    Runs (.trstk h ch) h (perSlice h) (fun u j =>
      let k := (u.sl j).crew
      let c := chainOf u k ch
      (if (c.st = .running ∨ c.st = .waiting) ∧ c.killing = false then
          let s1 := dropChainReqs (c.flight.foldl (fun s f => entryComplete s k ch f.1) u) k ch
          killSettle (updChain s1 k ch fun c =>
            let first := (c.flight.find? fun f => !f.2.old).map Prod.snd
            { c with killing := true, entry := (first.map Flight.ix).getD (min c.entry 255), ca := (first.map Flight.ca).getD c.ca,
                     loops := (first.map Flight.loops).getD c.loops,
                     flight := c.flight.map fun f =>
                       (f.1, if f.2.old then f.2 else { f.2 with todo := [], left := f.2.left - f.2.todo.length }),
                     cur := none, answers := [], coll := none }) k ch
        else u).updSl j (standAt (.chain ch))) s ∧
    -- a kill takes hold when nothing of the run is in flight any more
    (∀ crew, killSettle s crew ch = updChain s crew ch fun c =>
      let fl := c.flight.filter fun f => f.2.old || !(f.2.todo.isEmpty && f.2.left = 0)
      if c.killing = false then c
      else if fl.all fun f => f.2.old then { c with st := .killed, killing := false, flight := fl } else { c with flight := fl }) ∧
    (s.each h (fun j =>
        let gr := groupOf s (coreCluster (s.coreOf j)) (rs32 s j h a)
        rs32 s j h a < 32 ∧ rs64 s j h b < 2 ^ 16 ∧ (gr.mask ≠ 0 → gr.span = (s.crewOf j).span ∨ Tbl.find s.spans gr.span = none) ∧
        maskOk s (s.crewOf j).span (rs64 s j h b) = true ∧ gr.drain = 0) →
      Runs (.mcgrp h d a b) h (perSlice h) (fun u j =>
        let cl := coreCluster (u.coreOf j)
        let gen := (groupOf u cl (rs32 s j h a)).gen + 1
        (updGroup u cl (rs32 s j h a) fun r =>
          { mask := BitVec.ofNat 16 (rs64 s j h b), gen := gen, drain := r.drain, span := (u.crewOf j).span }).updSl j fun x =>
            standAt (.clock 0) (wr .u64 d 0 (gen.setWidth 64) x)) s)

/-- R106, R107, R109: a running chain with nothing asked fetches the entry at its place in the crew's stash, in a tile that Trestle owns. A control
entry waits for the entries in flight and becomes the current one. R382, R100, R107, R109: MCAST sends the lowest request of its entry, with the
group's present generation; an entry all of whose bytes have been performed completes, and bumps the counter it names. -/
def Obligations.TrestleEntries : Prop :=
  (∀ (s : State) (crew ch : Nat),
     let k := s.crew crew
     let c := chainOf s crew ch
     let off := c.base + 32 * c.entry
     let w := bytesNat (lclGet s crew 1 off 32)
     c.st = .running → c.killing = false → c.cur = none → ctxRuns s k.ctx = true → k.ended = false → chainAsking s crew ch = false → c.entry ≤ 255 →
     off < 2 ^ 19 → off / 1024 < k.tiles → (tagOf s crew (off / 1024)).owner = .trestle → entForm w = none →
     (∀ f ∈ c.flight, ∀ r ∈ f.2.wrs, rangesMeet (1, off, off + 32) r = false) →
     let control := (7 ≤ entCode w ∧ entCode w ≤ 11) ∨ entCode w = 13 ∨ (entCode w = 5 ∧ entBits w 128 128 = 0)
     (control → c.flight = [] →
       exec (.trestleEntryFetch crew ch) s = .next (updChain s crew ch fun c => { c with cur := some w })) ∧
     (control → c.flight ≠ [] → exec (.trestleEntryFetch crew ch) s = .next s) ∧
     -- a data entry whose ranges are cleared and meet no entry in flight is dispatched; GATHER and SCATTER read their index list first
     (¬ control → dataOk c w = true → c.flight.length < 8 →
       let ixs := idxRange w
       let idx := if ixs = [] then [] else (List.range (entLen w)).map fun e => bytesNat (lclGet s crew 1 (entBits w 146 128 + 4 * e) 4)
       let moves := entMoves c w idx
       let rds := ixs ++ (if entCode w = 12 then [] else rangesOf (entBits w 11 10) (moves.map fun m => (m.2.1, m.2.2)))
       let wrs := rangesOf (entBits w 9 8) (moves.map fun m => (m.1, m.2.2))
       overlapsFlight c ixs = false → localSub s crew ixs = none →
       overlapsFlight c (rds ++ wrs) = false → localSub s crew (wrs ++ rds) = none → rangesStand s crew ch rds wrs = .ok →
       exec (.trestleEntryFetch crew ch) s = .next (updChain (rangesUse s.fresh crew ch rds wrs) crew ch fun d =>
         chainGoto (d.entry + 1) { d with
           flight := Tbl.put d.flight s.nextId ⟨c.entry, w, rds, wrs, entPieces w moves, (entPieces w moves).length, c.ca, c.loops, false, placeless c.answers⟩
           answers := [] }))) ∧
  (∀ (s : State) (crew ch ent : Nat) (f : Flight), Tbl.find (chainOf s crew ch).flight ent = some f →
     (∀ (p : List (Nat × Nat × Nat)) (rest : List (List (Nat × Nat × Nat))), f.todo = p :: rest → entCode f.word = 4 →
       let q := p.headD (0, 0, 0)
       let c := s.crew crew
       let g := entBits f.word 132 128
       exec (.trestleMcast crew ch ent 0) s = .next (updChain
         { s with
           nextId := s.nextId + 1
           mcReqs := Tbl.put s.mcReqs s.nextId
             { core := c.core, ctx := c.ctx, va := q.2.1, group := g, gen := (groupOf s (coreCluster c.core) g).gen.toNat, crew := crew, ch := ch,
               ent := ent, dst := q.1, girder := false, hint := entBits f.word 23 21,
               data := if fromPlace f.kept q.2.1 then none else some (readAs s c.ctx f.kept q.2.1 128) } } crew ch fun c =>
         { c with flight := Tbl.upd c.flight ent fun f => { f with todo := f.todo.eraseIdx 0, left := f.left - 0 } })) ∧
     (f.todo = [] → f.left = 0 →
       let s1 := updChain s crew ch fun c => { c with flight := Tbl.del c.flight ent, done := if f.old then c.done else min (c.done + 1) 0xFFFFFFFF }
       exec (.trestleEntryComplete crew ch ent) s = .next (if entBits f.word 20 20 = 1 then kInc s1 crew (entBits f.word 19 16) else s1)))

/-- R107 to R114, R58, R75: one piece of an entry in flight moves the bytes of its parts from source to destination, or combines them at memory
(REDUCE), and leaves the entry's list; of local bytes only the destinations' change. Bytes of a non-resident page read zero, those of a block evicted
since read as they were. -/
def Obligations.TrestlePieces : Prop :=
  ∀ (s : State) (crew ch ent k : Nat) (f : Flight) (ps : List (Nat × Nat × Nat)) (code : Nat) (ev : Instr),
    (code, ev) ∈ [(1, Instr.trestleCopy crew ch ent k), (2, .trestleGather crew ch ent k), (3, .trestleScatter crew ch ent k),
      (5, .trestleReduceMemory crew ch ent k), (6, .trestleVxfer crew ch ent k), (12, .trestleFill crew ch ent k)] →
    Tbl.find (chainOf s crew ch).flight ent = some f → f.todo[k]? = some ps → entCode f.word = code →
    let w := f.word
    let ctx := (s.crew crew).ctx
    let far := entBits w 11 10 = 0 ∧ code ≠ 12
    (far → ∀ q ∈ ps, poisonFor s ctx f.kept q.2.1 q.2.2 = none) →
    let part := fun (u : State) (q : Nat × Nat × Nat) =>
      let core := (u.crew crew).core
      let cls := crewClass u crew
      let ctx := (u.crew crew).ctx
      let bytes := if code = 12 then (List.range q.2.2).map fun b => BitVec.ofNat 8 (entBits w 159 128 / 256 ^ ((q.2.1 + b) % 4))
        else if entBits w 11 10 = 0 then readAs u ctx f.kept q.2.1 q.2.2 else lclGet u crew (entBits w 11 10) q.2.1 q.2.2
      let u1 := if code = 12 then u
        else if entBits w 11 10 = 0 then engReadAs u core cls ctx (entBits w 23 21) f.kept q.2.1 q.2.2 else lclTouch u crew (entBits w 11 10) q.2.1 q.2.2
      if code = 5 then
        reduceAt (inject u1 core cls q.1 1 1 1) ctx q.1 q.2.2 fun old =>
          (atomNew (redAtom (entBits w 131 129)) (etyOf (entBits w 139 136)) (BitVec.ofNat 64 old) (BitVec.ofNat 64 (bytesNat bytes))).1.toNat %
            256 ^ q.2.2
      else if entBits w 9 8 = 0 then engPut u1 core cls ctx (entBits w 23 21) q.1 bytes
      else lclPut u1 crew (entBits w 9 8) q.1 bytes
    ∃ t, exec ev s = .next t ∧
      t = updChain (ps.foldl part s) crew ch (fun c =>
        { c with flight := Tbl.upd c.flight ent fun f => { f with todo := f.todo.eraseIdx k, left := f.left - 1 } }) ∧
      (¬ far → code ≠ 5 → entBits w 9 8 = 1 → t.mem = s.mem ∧ t.scratch = s.scratch ∧ t.llcData = s.llcData ∧ t.l2Data = s.l2Data ∧
        ∀ a, (∀ q ∈ ps, a < crew * 2 ^ 19 + q.1 ∨ crew * 2 ^ 19 + q.1 + q.2.2 ≤ a) → Mem.read t.stash a = Mem.read s.stash a) ∧
      (¬ far → code ≠ 5 → 2 ≤ entBits w 9 8 → t.mem = s.mem ∧ t.stash = s.stash ∧ t.llcData = s.llcData ∧ t.l2Data = s.l2Data ∧
        ∀ a, (∀ q ∈ ps, a < (s.crew crew).span * 2 ^ 23 + q.1 ∨ (s.crew crew).span * 2 ^ 23 + q.1 + q.2.2 ≤ a) →
          Mem.read t.scratch a = Mem.read s.scratch a)

/-- R111, R112: the control entries of a chain. Each takes effect and the chain goes on at the entry it names, or waits. -/
def Obligations.TrestleControl : Prop :=
  ∀ (s : State) (crew ch w : Nat),
    let c := chainOf s crew ch
    let k := s.crew crew
    let goes := fun (u : State) (nxt : Nat) => chainNext u crew ch nxt
    let nxt := c.entry + 1
    (s.atControl crew ch 7 w →
      let sp := entBits w 9 8
      let d := entDst c w
      let new := ownerCode (entBits w 129 128)
      (sp = 1 ∨ sp = 2) → entLen w ≠ 0 → d % tileSize sp = 0 → new ≠ .trestle → ¬(sp = 2 ∧ new = .deck) →
      localSub s crew [(sp, d, d + entLen w * tileSize sp)] = none →
      exec (.trestleFlip crew ch) s =
        .next (goes ((tilesIn sp d (entLen w * tileSize sp)).foldl (fun u t => setOwner u crew sp t new) s) nxt)) ∧
    (s.atControl crew ch 8 w → entBits w 133 131 < (ringOf k (entBits w 130 128)).nst →
      exec (.trestlePost crew ch) s = .next (goes (updRing s crew (entBits w 130 128) (setPhase true (entBits w 133 131))) nxt)) ∧
    (s.atControl crew ch 9 w →
      let ringIs := ringFull k (entBits w 131 129) (entBits w 134 132) = (entBits w 135 135 == 1)
      let reached := kReached k (entBits w 139 136) (BitVec.ofNat 32 (entBits w 191 160)) = true
      (entBits w 128 128 = 0 → entBits w 134 132 < (ringOf k (entBits w 131 129)).nst →
        (ringIs → exec (.trestleWaitRing crew ch) s = .next (goes s nxt)) ∧
        (¬ ringIs → exec (.trestleWaitRing crew ch) s = .next (updChain s crew ch fun c => { c with st := .waiting }))) ∧
      (entBits w 128 128 = 1 →
        (reached → exec (.trestleWaitCounter crew ch) s = .next (goes s nxt)) ∧
        (¬ reached → exec (.trestleWaitCounter crew ch) s = .next (updChain s crew ch fun c => { c with st := .waiting })))) ∧
    (c.cur = some w → c.st = .waiting → entCode w = 9 → ctxRuns s k.ctx = true → waitHolds s crew w = true →
      exec (.trestleWaitSatisfied crew ch) s = .next (goes s nxt)) ∧
    (s.atControl crew ch 10 w →
      let body := entBits w 183 176
      let count := entBits w 175 160
      body ≠ 0 → c.entry + body ≤ 255 → (∀ l ls, c.loops = l :: ls → c.entry + body ≤ l.last) →
      (count = 0 → exec (.trestleLoop crew ch) s = .next (goes s (c.entry + body + 1))) ∧
      (count ≠ 0 → c.loops.length < 4 →
        exec (.trestleLoop crew ch) s = .next (goes (updChain s crew ch fun d =>
          { d with loops := ⟨c.entry, c.entry + body, count, [0, 1, 2, 3].map fun k => BitVec.ofNat 32 (entBits w (63 + 32 * k) (32 + 32 * k))⟩ :: d.loops })
          nxt))) ∧
    (s.atControl crew ch 11 w → skipOk c (entBits w 151 144) = true →
      let past := fun (holds : Bool) => if holds then nxt else c.entry + entBits w 151 144 + 1
      (entBits w 128 128 = 0 → entBits w 131 129 ≤ 5 → entDst c w % 4 = 0 → rangesStand s crew ch [(0, entDst c w, entDst c w + 4)] [] = .ok →
        poisonFor s k.ctx c.answers (entDst c w) 4 = none →
        exec (.trestleIfWord crew ch) s = .next (goes
          (engReadAs (rangesUse s crew ch [(0, entDst c w, entDst c w + 4)] []) k.core (crewClass s crew) k.ctx (entBits w 23 21) c.answers (entDst c w) 4)
          (past (wcondHolds (ifCond (entBits w 131 129)) 32 (bytesNat (readAs s k.ctx c.answers (entDst c w) 4)) (entBits w 191 160))))) ∧
      (entBits w 128 128 = 1 → entBits w 137 135 < (ringOf k (entBits w 134 132)).nst →
        exec (.trestleIfRing crew ch) s = .next (goes s (past (ringFull k (entBits w 134 132) (entBits w 137 135) == (entBits w 160 160 == 1)))))) ∧
    (s.atControl crew ch 13 w →
      exec (.trestleEnd crew ch) s = .next (updChain (if entBits w 20 20 = 1 then kInc s crew (entBits w 19 16) else s) crew ch fun c =>
        { c with st := .ended, cur := none, answers := [], done := min (c.done + 1) 0xFFFFFFFF }))

/-- R113: a collective REDUCE sends its contribution home and its chain waits; a contribution that is not the last is kept there; the last one writes
the sum over the ranks at its home, clears the collective, and each waiting chain goes on; one that does not fit the others stops every participant
that waits (0x09). That the failed collective stays until the first arrival's NPART contributions have come, and KE = 1 of a collective, are the
model's choices (log 84); so is a contribution's way to its home (log 68). -/
def Obligations.Collectives : Prop :=
  ∀ (s : State),
    (∀ crew ch w : Nat, s.atControl crew ch 5 w → dataOk (chainOf s crew ch) w = true →
      let c := chainOf s crew ch
      let src := entSrc c w
      let sp := entBits w 11 10
      localSub s crew [(sp, src, src + entLen w)] = none →
      rangesStand s crew ch [(sp, src, src + entLen w)] [(0, entDst c w, entDst c w + entLen w)] = .ok →
      exec (.trestleReduceCollective crew ch) s = .next (updChain
        ((sectorParts (entDst c w) (entLen w)).foldl (fun s e => inject s (s.crew crew).core (crewClass s crew) e.1 (dataFlits e.2) 1 1)
        { (lclTouch (rangesUse s crew ch [(sp, src, src + entLen w)] [(0, entDst c w, entDst c w + entLen w)]) crew sp src (entLen w)).fresh with
          colls := Tbl.put s.colls s.nextId
            { ctx := (s.crew crew).ctx, coll := entBits w 223 192, dst := entDst c w, len := entLen w, ety := entBits w 139 136,
              npart := entBits w 175 160, rank := entBits w 191 176, bytes := lclGet s crew sp src (entLen w), crew := crew, ch := ch,
              arrived := false, short := 0 } }) crew ch fun c => { c with st := .waiting, answers := [], coll := some s.nextId })) ∧
    (∀ (k : Nat) (m : Collective), Tbl.find s.colls k = some m → m.arrived = false →
      let group := s.colls.filter fun e => e.2.arrived && e.2.ctx == m.ctx && e.2.coll == m.coll &&
        (vaTower e.2.dst, homeSlice e.2.dst) == (vaTower m.dst, homeSlice m.dst)
      let parts := group ++ [(k, m)]
      -- a contribution that does not fit the others stops all of them; the rest of the first arrival's NPART are awaited for a stop too
      ((∀ e ∈ group, e.2.short = 0) →
        (∃ e ∈ group, e.2.dst ≠ m.dst ∨ e.2.len ≠ m.len ∨ e.2.ety ≠ m.ety ∨ e.2.npart ≠ m.npart ∨ e.2.rank = m.rank) →
        let first := (group.head?.map Prod.snd).getD m
        let s1 := { s with colls := s.colls.filter fun e => !(parts.any fun a => a.1 == e.1) }
        let s2 := if first.npart - parts.length = 0 then s1
          else { s1 with colls := Tbl.put s1.colls k { first with arrived := true, short := first.npart - parts.length } }
        exec (.collectiveContribution k) s = .next (parts.foldl (fun u e =>
          if (chainOf u e.2.crew e.2.ch).coll = some e.1 then chainFault u e.2.crew e.2.ch 9 0 0 else u) s2)) ∧
      ((∀ e ∈ group, e.2.short = 0 ∧ e.2.dst = m.dst ∧ e.2.len = m.len ∧ e.2.ety = m.ety ∧ e.2.npart = m.npart ∧ e.2.rank ≠ m.rank) →
      (parts.length < m.npart →
        exec (.collectiveContribution k) s = .next { s with colls := Tbl.put s.colls k { m with arrived := true } }) ∧
      (m.npart ≤ parts.length →
        let sum := collSum m.ety m.len ((List.range m.npart).map fun r => ((parts.find? fun e => e.2.rank == r).map fun e => e.2.bytes).getD [])
        let s1 := { s with colls := s.colls.filter fun e => !(parts.any fun a => a.1 == e.1) }
        let s2 := homePut s1 m.ctx m.dst (sum.take m.len)
        exec (.collectiveContribution k) s = .next (parts.foldl (fun u e =>
          if (chainOf u e.2.crew e.2.ch).coll = some e.1 then
            let c := chainOf u e.2.crew e.2.ch
            let w := c.cur.getD 0
            chainNext (if entBits w 20 20 = 1 then kInc u e.2.crew (entBits w 19 16) else u) e.2.crew e.2.ch (c.entry + 1)
          else u) s2))))

/-- R101, R99: a multicast request of the group's generation joins the open set of its sector, or opens one; the set's reply leaves 64 clocks after
its first arrival and brings every request its bytes; a request that is not merged is read by itself for a loop, and stops an MCAST (0x08); a drained
group of a span that has exited is released. -/
def Obligations.MulticastEvents : Prop :=
  ∀ (s : State),
    (∀ (k : Nat) (r : McReq), Tbl.find s.mcReqs k = some r →
      let cl := coreCluster r.core
      let g := groupOf s cl r.group
      let now := (s.pkg (corePkg r.core)).clock
      g.mask.getLsbD (r.core % 16) = true → g.gen.toNat = r.gen →
      let s1 := updGroup { s with mcReqs := Tbl.del s.mcReqs k } cl r.group fun g => { g with drain := g.drain + 1 }
      let same := fun (m : McSet) => m.cluster = cl ∧ m.ctx = r.ctx ∧ m.va = r.va ∧ m.group = r.group ∧ m.gen = r.gen
      ((∀ e ∈ s.mcSets, ¬ same e.2) →
        exec (.mcastRequest k) s = .next { s1 with
          nextId := s.nextId + 1, mcSets := Tbl.put s.mcSets s.nextId ⟨cl, r.ctx, r.va, r.group, r.gen, now, now, [r]⟩ }) ∧
      (∀ (n : Nat) (m : McSet), s.mcSets = [(n, m)] → same m →
        exec (.mcastRequest k) s = .next { s1 with mcSets := [(n, { m with last := now, reqs := m.reqs ++ [r] })] })) ∧
    (∀ (k : Nat) (r : McReq), Tbl.find s.mcReqs k = some r →
      let g := groupOf s (coreCluster r.core) r.group
      let s1 := { s with mcReqs := Tbl.del s.mcReqs k }
      (g.mask.getLsbD (r.core % 16) = false ∨ g.gen.toNat ≠ r.gen) →
      (r.girder = true → exec (.mcastRequest k) s =
        .next (mcDeliver (if mcReads s [r] then engRead s1 r.core (crewClass s r.crew) r.ctx r.hint r.va 128 else s1) r)) ∧
      (r.girder = false → ∀ f, Tbl.find (chainOf s r.crew r.ch).flight r.ent = some f →
        exec (.mcastRequest k) s = .next (flightStop s1 r.crew r.ch r.ent f.ix 8 0 0))) ∧
    (∀ (k : Nat) (m : McSet), Tbl.find s.mcSets k = some m → m.first + 64 ≤ (s.pkg (m.cluster / 64)).clock →
      m.last < (s.pkg (m.cluster / 64)).clock →
      ∀ (r : McReq) (rs : List McReq), m.reqs = r :: rs →
      exec (.mcastSetLeave k) s = .next (updGroup
        (m.reqs.foldl mcDeliver (if mcReads s m.reqs then engRead { s with mcSets := Tbl.del s.mcSets k } r.core (crewClass s r.crew) m.ctx r.hint m.va 128
          else { s with mcSets := Tbl.del s.mcSets k })) m.cluster m.group
        fun g => { g with drain := g.drain - m.reqs.length })) ∧
    (∀ cl g : Nat, (groupOf s cl g).drain = 0 → (groupOf s cl g).mask ≠ 0 → Tbl.find s.spans (groupOf s cl g).span = none →
      exec (.mcastGroupDrained cl g) s = .next (updGroup s cl g fun r => { r with mask := 0 }))

/-! ### Girder -/

/-- R157, R334, R340: in whatever guard its formats are right, MLOOP queues a loop on its core with the operands, format and scale registers and group
generation of its issue, once no raise of WAYS runs, its fields, alignments, ranges and owners are as they must be, B's bytes are cleared and filled,
the slice's earlier stores to its tiles are performed and the queue has room. R97, R341 to R343: MACLR clears the tiles of a FAST or an EXACT
accumulator and gives them to Girder; MARD issues, waits for the loops of its accumulator, and stores its 1024 elements, converted, in stash tiles, as
global stores where they are mapped, and returns its tiles to SLICES; MSTAT lands the loops queued, the crew's flags and the count. That MSTAT's
values are those at issue is the model's choice (log 30); so is what two MARDs of one accumulator read (log 31). -/
def Obligations.GirderInstructions : Prop :=
  (∀ (s : State) (h : Hdr) (sp : Bool) (a b : Opnd), s.unitIn →
     let q := fun j => loopIn s j h sp a b
     let ca := fun j => gClass (q j).par.fa (q j).fra
     (∀ j ∈ s.cur, (s.sl j).role = .mat ∧ ca j ≠ none ∧ ca j = gClass (q j).par.fb (q j).frb ∧ (sp = true → ca j ≠ some .nibble)) →
     s.each h (fun j =>
       let p := (q j).par
       let c := s.crewOf j
       let acc := stagOf s c.span (p.acc / 4096)
       (s.cluster (coreCluster c.core)).raising = none ∧ loopBits s j p = true ∧ (b = .zero → gScale p.fa (q j).fra ≠ 2 ∧ gScale p.fb (q j).frb ≠ 2) ∧
       (p.acc % 4096 = 0 → acc.kind = 1 ∨ acc.kind = 2) ∧
       loopAlign (q j) = none ∧ loopRange s (s.sl j).crew (q j) = none ∧ loopOwner s (s.sl j).crew (q j) = none ∧
       (p.bmode = 2 → (groupOf s (coreCluster c.core) p.group).span = c.span ∧
         (groupOf s (coreCluster c.core) p.group).mask.getLsbD (c.core % 16) = true) ∧
       standClr s (sliceParty s j) .read false (loopGlobal (q j)) = .ok ∧
       standFillAt (fun _ => true) s (sliceParty s j) (loopGlobal (q j)) = .ok ∧
       storesInto s j (partTiles (s.sl j).crew (q j)) = [] ∧ (s.core c.core).loops.length < 4) →
     Runs (if sp then .mloopSp h a b else .mloop h a b) h (perSlice h) (fun u j =>
       (partyUse { u with nextId := u.nextId + 1 } (sliceParty s j) .read (loopGlobal (q j))).updCore (s.crewOf j).core fun k => { k with loops := k.loops ++
         [{ id := u.nextId, crew := (s.sl j).crew, acrew := (q j).acrew.getD 0, bcrew := (q j).bcrew.getD 0, sp := sp,
            blk := [(q j).par.a, (q j).par.b, (q j).par.c, (q j).par.d, (q j).par.e], fa := (q j).par.fa, fb := (q j).par.fb,
            fregs := [(q j).fra, (q j).frb], gregs := [gRegNow s j (q j).par.fa, gRegNow s j (q j).par.fb],
            gen := (groupOf s (coreCluster (s.crewOf j).core) (q j).par.group).gen.toNat, part := none, merged := false, fl := 0, sent := false,
            mc := [] }] }) s) ∧
  (∀ (s : State) (h : Hdr) (a b : Opnd), s.unitIn →
     let crew := fun j => (s.sl j).crew
     let off := fun j => rs32 s j h a
     let quiet := fun j => (s.cluster (coreCluster (s.coreOf j))).raising = none
     let free := fun (j n : Nat) => quiet j ∧ off j % 4096 = 0 ∧ ∀ k, k < n →
       tilesOk s (crew j) 2 (off j / 4096 + k) 1 = true ∧ ownerOfTile s (crew j) 2 (off j / 4096 + k) = .slices
     let clear := fun (u : State) (j n : Nat) => { touchScratch u (u.crewOf j).span (off j) (4096 * n) with scratch := Mem.clear u.scratch ((u.crewOf j).span * 2 ^ 23 + off j) (4096 * n) }
     ((∀ j ∈ s.cur, (s.sl j).role = .mat) →
       (s.each h (fun j => free j 1) →
         Runs (.maclrFast h a) h (perSlice h) (fun u j =>
           (setStag (clear u j 1) (u.crewOf j).span (off j / 4096) ⟨.girder, 1, 0, false, false, false⟩).updSl j (standAt (.clock 0))) s) ∧
       (s.each h (fun j => free j 3 ∧ -256 ≤ sInt 32 (rs32 s j h b) ∧ sInt 32 (rs32 s j h b) ≤ 255) →
         Runs (.maclrExact h a b) h (perSlice h) (fun u j =>
           (setStag (setStag (setStag (clear u j 3) (u.crewOf j).span (off j / 4096) ⟨.girder, 2, sInt 32 (rs32 s j h b), false, false, false⟩)
             (u.crewOf j).span (off j / 4096 + 1) ⟨.girder, 3, 0, false, false, false⟩)
             (u.crewOf j).span (off j / 4096 + 2) ⟨.girder, 3, 0, false, false, false⟩).updSl j (standAt (.clock 0))) s) ∧
       (∀ bf : Bool, s.each h (fun j =>
           let x := rs64 s j h a
           let y := rs64 s j h b
           let tag := stagOf s (s.crewOf j).span (x / 4096)
           quiet j ∧ x % 4096 = 0 ∧ y % 1024 = 0 ∧ tag.owner = .girder ∧ (tag.kind = 1 ∨ tag.kind = 2) ∧
           (∀ k, k < (if tag.kind = 2 then 3 else 1) → tilesOk s (crew j) 2 (x / 4096 + k) 1 = true) ∧
           (∀ k, k < (if bf then 2 else 4) → tilesOk s (crew j) 1 (y / 1024 + k) 1 = true ∧ ownerOfTile s (crew j) 1 (y / 1024 + k) = .slices) ∧
           let gs := mardGlobal s (crew j) y (if bf then 2 else 4)
           standClr s (sliceParty s j) .write false (gs.map fun a => (a.va, a.n)) = .ok ∧
           ((∃ a ∈ gs, strongAcc s (s.ctxOf j) a = true) → ∀ e ∈ (s.sl j).accs, e.2.strong = false) ∧
           ownUnder s j true gs = [] ∧ ownRemote s j true [⟨0, y, 1024 * (if bf then 2 else 4)⟩] = []) →
         Runs (.mard h bf a b) h (perSlice h) (fun u j =>
           let x := rs64 s j h a
           let y := rs64 s j h b
           let sp := (u.crewOf j).span
           let u0 := partyUse u (sliceParty s j) .write ((mardGlobal s (crew j) y (if bf then 2 else 4)).map fun a => (a.va, a.n))
           if unmerged u sp (x / 4096) then u0.updSl j (standAt (.merged sp (x / 4096) bf y))
           else
             let tag := stagOf u0 sp (x / 4096)
             let rs := (List.range 1024).map fun k => rnef (if bf then fmtBF16 else fmtF32) (mardVal u0 sp x tag k)
             let u1 := mardStore (lclTouch u0 (u.sl j).crew 2 x (if tag.kind = 2 then 12288 else 4096)) j y
               (rs.flatMap fun r => natBytes (if bf then 2 else 4) r.1)
             let u2 := (List.range (if tag.kind = 2 then 3 else 1)).foldl (fun u k =>
               setStag u sp (x / 4096 + k) (plainTag (stagOf u sp (x / 4096 + k)))) u1
             u2.updSl j fun z => standAt (.clock 0) { z with flags := z.flags ||| orFlags (rs.map Prod.snd) |||
               (if tag.kind = 2 then flagIf tag.ofl fOF ||| flagIf tag.nx fNX ||| flagIf tag.nv fNV else fNone) }) s)) ∧
     (∀ (clr : Bool) (d : Opnd), s.each h (fun j => (s.sl j).outst.length < 32) →
       Runs (.mstat h clr d) h (perSlice h) (fun u j =>
         let c := s.crewOf j
         let u1 := addLands u j (landReg .u64 d 0 (BitVec.ofNat 64
           ((s.core c.core).loops.length + 2 ^ 8 * (c.gfl.toNat % 32) + 2 ^ 32 * c.gdone.toNat)))
         if clr then u1.updCrew (u.sl j).crew fun c => { c with gfl := 0 } else u1) s))

/-- R168 to R174, R97, R342: a core's next loop sends its multicast requests, then, its operands there, computes its partial; the first loop not
merged adds its partial to its accumulator, and a MARD whose loops have then all merged runs; a merged head loop leaves, flips its own operand tiles
that no later loop of the crew names, posts its stage and counts. R174's later loops of the same core are those of the crew: the tiles are the crew's
own stash, which a loop of another crew of the core cannot name. That the partial is computed whole from the operands of one moment, that a sector of
B is requested once for the loop, and what counts as own stash, are the model's choices (log 31). -/
def Obligations.LoopEvents : Prop :=
  ∀ (s : State) (core : Nat) (l : GLoop),
    ((s.core core).loops.find? (fun l => l.part.isNone) = some l →
      (l.par.bmode = 2 → l.sent = false →
        exec (.girderLoopStart core) s = .next (updLoop (loopRequests s core l) core l.id fun l => { l with sent := true })) ∧
      ((l.par.bmode = 2 → l.sent = true ∧ ∀ e ∈ s.mcReqs, ¬(e.2.girder = true ∧ e.2.ent = l.id)) →
        (∀ e ∈ s.mcSets, ∀ r ∈ e.2.reqs, ¬(r.girder = true ∧ r.ent = l.id)) →
        exec (.girderLoopStart core) s =
          .next (updLoop s core l.id fun k => { k with part := some (loopPartial s l).1, fl := k.fl ||| (loopPartial s l).2 }))) ∧
    (∀ p, (s.core core).loops.find? (fun l => !l.merged) = some l → l.part = some p →
      exec (.accMerge core) s = .next (settleMards
        (updLoop (mergeLoop s l p).1 core l.id fun k => { k with merged := true, fl := k.fl ||| (mergeLoop s l p).2 }))) ∧
    (∀ (j sp t b : Nat) (bf w : Bool), (s.sl j).park = .after (.merged sp t bf b) w → unmerged s sp t = false →
      settleMard s j = (mardRun bf (4096 * t) b s j).updSl j fun x => { x with park := .after (.clock 0) w }) ∧
    (∀ j : Nat, (∀ (sp t b : Nat) (bf w : Bool), (s.sl j).park = .after (.merged sp t bf b) w → unmerged s sp t = true) → settleMard s j = s) ∧
    (∀ rest, (s.core core).loops = l :: rest → l.merged = true →
      let later := (rest.filter fun m => m.crew == l.crew).flatMap ownTiles
      let flips := (ownTiles l).filter fun t => !later.contains t && (tagOf s l.crew t).owner == .girder
      exec (.mloopComplete core) s = .next
        ((updRing (flips.foldl (fun u t => setOwner u l.crew 1 t .slices) (s.updCore core fun k => { k with loops := rest })) l.crew l.par.ring
          (setPhase true l.par.stage)).updCrew l.crew fun c => { c with gfl := c.gfl ||| (l.fl &&& 0x1D), gdone := c.gdone + 1 }))

/-! ### The Deck -/

/-- R190, R334, R344 to R349: a Deck instruction enters its crew's queue with the scalars of its issue, and its result, where it has one, is
outstanding. R188, R348: DKTEX waits until the queue is empty and samples in every enabled cell; its channels go to four registers of the cell. That
DKTEX acts whole at issue and reads its texels there is the model's choice (log 19, log 33). -/
def Obligations.DeckIssue : Prop :=
  (∀ (i : Instr) (f : DeckForm) (s : State), Queues i f → s.unitIn → (∀ j ∈ s.cur, (s.sl j).role = .deck ∧ f.always s j) →
     s.each f.hdr (fun j => f.ok s j ∧ (s.crewOf j).deck.queue.length < 16 ∧ (f.result = true → (s.sl j).outst.length < 32)) →
     Runs i f.hdr (perSlice f.hdr) (fun u j =>
       let u0 := f.clears s u j
       let id := u0.nextId
       let u1 := ({ u0 with nextId := id + 1 } : State).updCrew (s.sl j).crew fun c =>
         { c with deck := { c.deck with
           queue := c.deck.queue ++ [{ uid := id, i := i, sc := f.sc s j, sl := j, id := if f.result then id else 0 }]
           depth := f.depth c.deck.depth } }
       if f.result then u1.updSl j fun x => { x with outst := Tbl.put x.outst id 1 } else u1) s) ∧
  (∀ (s : State) (h : Hdr) (d a : Nat) (b : CellOp) (c e : Opnd), s.unitIn → (∀ j ∈ s.cur, (s.sl j).role = .deck) →
     let desc := fun j => rs64 s j h c
     let pv := fun j => (rd (s.crewOf j) (s.sl j) .s64 h.imm 0 e).toNat
     s.each h (fun j =>
       let dk := (s.crewOf j).deck
       let me := sliceParty s j
       (pv j < 5 ∨ 8 ≤ pv j ∧ pv j % 8 = 0) ∧ desc j % 32 = 0 ∧ dk.queue = [] ∧
       (dk.cells = [] ∨ ∃ n ns t g k m, dk.cells = n :: ns ∧ descOf s me (desc j) = some t ∧ progOf s me (pv j) = some g ∧
         cellReads s j [(n, [(desc j, 32)])] = .go ∧
         (8 ≤ pv j → cellReads s j [(n, [(pv j, 8)])] = .go ∧ headOf s me (pv j) = some (k, m) ∧
           cellReads s j [(n, [(pv j + 8, 4 * k)])] = .go) ∧
         cellReads s j (dktexReads s j t g a b) = .go ∧ (s.cluster (coreCluster (s.coreOf j))).raising = none)) →
     Runs (.dktex h d a b c e) h (perSlice h) (fun u j => (dktexRun s u j d a b (desc j) (pv j)).updSl j (standAt (.clock 0))) s)

/-- R178 to R187, R189, R190, R346, R347: the head of a Deck's queue runs: what each queued instruction does to the Deck, or to the stash tiles of
DKST. DKXP compares its signature, then its rows' requests go out and it writes them part by part, one 8-byte unit at a time in any order (R211), and
last the signature. That the old signature is read and compared in one event is the model's choice (log 33). -/
def Obligations.DeckEffects : Prop :=
  ∀ (s : State) (crew : Nat) (e : DkEntry) (rest : List DkEntry),
    let c := s.crew crew
    let d := c.deck
    let k := fun (j : Nat) => e.sc.getD j 0
    d.queue = e :: rest → c.ended = false → s.hasCtx c.ctx = true → ((s.ctx c.ctx).st = .running ∨ (s.ctx c.ctx).st = .stopping ∨ (s.ctx c.ctx).st = .dead) →
    let leaves := fun (d' : Deck) => exec (.deckStart crew) s = .next (s.setCrew crew { c with deck := { d' with queue := rest } })
    (∀ h a, e.i = .dkwin h a → leaves { d with stack := [windowMask ((k 0).toNat % 32) ((k 0).toNat / 2 ^ 8 % 32) ((k 0).toNat / 2 ^ 16 % 64)
      ((k 0).toNat / 2 ^ 24 % 64)] }) ∧
    (∀ h r a b z, e.i = .dklin h r a b z → leaves (d.each r (dkLin (k 0) (k 1) (k 2)))) ∧
    (∀ h a b z, e.i = .dkedge h a b z → leaves (d.narrow (dkEdge (k 0) (k 1) (k 2)))) ∧
    (∀ h r a, e.i = .dkquad h r a → leaves (d.each r (dkQuad e.sc))) ∧
    (∀ h r a b, e.i = .dkexp h r a b → leaves (d.each r (dkExp e.sc (k 6)))) ∧
    (∀ h, e.i = .dkpush h → leaves { d with stack := d.top :: d.stack }) ∧
    (∀ h, e.i = .dkpop h → leaves { d with stack := d.stack.tail }) ∧
    (∀ h t u st, e.i = .dkelse h → d.stack = t :: u :: st → leaves { d with stack := (u &&& ~~~t) :: u :: st }) ∧
    (∀ h fn t r a b x, e.i = .dkop h fn t r a b x → leaves (d.each r fun n =>
      dkFn fn t (match x with | .cell m => dkCond m | _ => .eq) (cellVal d (k 0) n a) (cellVal d (k 1) n b) (cellVal d (k 2) n x))) ∧
    (∀ h r a, e.i = .dkmov h r a → leaves (d.each r fun n => ((cellVal d (k 0) n a).toNat, 0))) ∧
    (∀ h r a, e.i = .dkld h r a → leaves (d.each r fun n =>
      (Mem.readLE s.stash (crew * 2 ^ 19 + (k 0).toNat % 2 ^ 32 + 4 * n) 4, 0))) ∧
    (∀ h a b, e.i = .dkst h a b → exec (.deckStart crew) s = .next ({ s with
        stash := d.cells.foldl (fun m n => Mem.writeLE m (crew * 2 ^ 19 + (k 0).toNat % 2 ^ 32 + 4 * n) 4 (cellVal d 0 n a).toNat) s.stash }.setCrew
          crew { c with deck := { d with queue := rest } })) ∧
    (∀ h cc t a b, e.i = .dktest h (.cmp cc t a b) → leaves (d.narrow fun n =>
      dkCompare t cc (cellVal d (k 0) n a) (cellVal d (k 1) n b))) ∧
    (∀ h all q a, e.i = .dkany h all q a → e.id ≠ 0 →
      let r := if all then d.cells.all fun n => cellVal d 0 n a != 0 else d.cells.any fun n => cellVal d 0 n a != 0
      exec (.deckStart crew) s = .next ((s.updSl e.sl fun x => { x with ready := x.ready ++ [⟨e.id, .qbit q, if r then 1 else 0⟩] }).setCrew crew
        { c with deck := { d with queue := rest } })) ∧
    (∀ h op t x a, e.i = .dksum h op t x a → e.id ≠ 0 →
      let r := dkSum d op t a
      exec (.deckStart crew) s = .next ((s.updSl e.sl fun y =>
        { y with ready := y.ready ++ (landReg .u32 x 0 (BitVec.ofNat 64 r.1)).map fun l => ⟨e.id, l.1, l.2⟩ }).setCrew crew
          { c with deck := { d with dkflags := d.dkflags ||| (r.2 &&& 0x3D), queue := rest } })) ∧
    (∀ h x, e.i = .dkflg h x → e.id ≠ 0 →
      exec (.deckStart crew) s = .next ((s.updSl e.sl fun y =>
        { y with ready := y.ready ++ (landReg .u64 x 0 (d.dkflags.setWidth 64)).map fun l => ⟨e.id, l.1, l.2⟩ }).setCrew crew
          { c with deck := { d with dkflags := 0, flags := [], queue := rest } })) ∧
    (∀ h x a b z y, e.i = .dkxp h x a b z y →
      let cls := crewClass s crew
      let sigAt := (k 3).toNat
      let word := fun (n : Nat) => natBytes 4 (cellVal d (k 0) n a).toNat
      let sig := crc64 ((List.range 1024).flatMap word)
      let goes := fun (u : State) (stay : List DkEntry) => exec (.deckStart crew) s =
        .next (u.updCrew crew fun c => { c with deck := { c.deck with queue := stay ++ c.deck.queue.tail } })
      (e.sc.length = 6 → anyPoison s c.ctx sigAt 8 = none →
        let u := engRead s c.core cls c.ctx 0 sigAt 8
        (sig.toNat = curLE s c.ctx sigAt 8 → goes (dkLand u e (landReg .u32 x 0 1)) []) ∧
        (sig.toNat ≠ curLE s c.ctx sigAt 8 →
          goes ((List.range 32).foldl (fun u j => engAsk u c.core cls c.ctx 0 (dkxpAddr (k 1).toNat (k 2).toInt (128 * j)) 128) u)
            [{ e with sc := e.sc ++ ((dkxpParts (k 1).toNat (k 2).toInt).map fun q => BitVec.ofNat 64 q.1) ++ [4096] }])) ∧
      (∀ j, e.sc.drop 6 = [j] →
        goes (dkLand (engPut s c.core cls c.ctx 0 sigAt (natBytes 8 sig.toNat)) e (landReg .u32 x 0 0)) []) ∧
      (∀ todo, e.sc.drop 6 = todo → 2 ≤ todo.length → (∃ j ∈ todo, j ≠ 4096) → ∃ j ∈ todo, j ≠ 4096 ∧
        let n := (((dkxpParts (k 1).toNat (k 2).toInt).find? fun q => q.1 == j.toNat).map Prod.snd).getD 0
        goes (engWrite s c.core c.ctx 0 (dkxpAddr (k 1).toNat (k 2).toInt j.toNat) ((((List.range 1024).flatMap word).drop j.toNat).take n))
          [{ e with sc := e.sc.take 6 ++ todo.filter fun n => n != j }])) ∧
    (∀ h b, e.i = .dktest h (.flag b) → leaves (d.narrow fun n => (d.flagsOf n &&& ((cellVal d (k 0) n b).setWidth 6 &&& 0x3D)) != 0))

/-! ### Keystone -/

/-- R350, R351: a Keystone instruction whose operands are in their ranges, with the accesses of the slices performed and the memory it touches aligned
and cleared, is sent to the tower's engine for each slice of the unit where its guard holds; the slice waits in front of it. -/
def Obligations.KeystoneIssue : Prop :=
  ∀ (i : Instr) (h : Hdr) (d : Opnd) (s : State), ksForm i = some (h, d) → s.unitIn → (∃ j ∈ s.cur, perSlice h (s.sl j) ≠ 0) →
    s.each h (fun j =>
      (∀ d a, i = .ddvar h d a → rs32 s j h a < 4096) ∧
      (∀ d a b c, i = .ddres h d a b c → rs32 s j h b < 4096 ∧ rs32 s j h c < 2) ∧
      (∀ flt d a b c, i = .ddcnt h flt d a b c → 1 ≤ rs32 s j h b ∧ rs32 s j h b ≤ 4096) ∧
      (∀ d a b c, i = .ddexp h d a b c → 1 ≤ rs32 s j h b ∧ rs32 s j h b ≤ 24 ∧ (s.sl j).outst.length < 32) ∧
      (∀ d a, i = .ddstat h d a → rs64 s j h a < 8) ∧
      ksMemory s s.cur (s.ksTable j) (s.ksBad j) i j = .go ∧ (s.sl j).accs = []) →
    ∃ t, exec i s = .next t ∧ SlotsOnly (s.cur.foldl (fun u j => if perSlice h (s.sl j) = 0 then u else u.sentTo j i s.cur) s) t

/-- R193, R196, R197, R200, R203, R205, R350: the engine's answer to an operation that makes a diagram, for a unit of one slice, and, by the same
steps, for a unit of several (R204, R207, R241). The records of its operands and of its result are read. A handle comes back with a reference more;
POISON, a free record or a record in error gives POISON, counted; a full table faults with the number of LIVE records, and EXHAUSTED where the same
instruction found it full before and a sweep came between. The order in which DDQNT's causes count is the model's choice (log 29). -/
def Obligations.KeystoneDiagrams : Prop :=
  (∀ (s : State) (j : Nat) (i : Instr) (ids : List Nat), (ksDiagram s j (s.ksTable j) (s.ksBad j) i).isSome = true → s.ksAnswers j i ids) ∧
  ∀ (s : State) (j : Nat) (i : Instr), (s.sl j).park = .before (.keystone i [j]) → ctxRuns s (s.ctxOf j) = true →
    let t := s.ksTable j
    let bad := s.ksBad j
    let poison := fun (h : Hdr) (d : Opnd) (k : KTable) => exec (.keystoneAnswer j) s =
      .next ((s.ksSet j { k with poison := k.poison + 1 }).updSl j (ksOver h (wr .u32 d 0 0xFFFFFFFF)))
    let answers := fun (h : Hdr) (d : Opnd) (r : KTable × KOut) =>
      (∀ n k, r.2 = .ok n → kGive bad r.1 n = (k, .ok n) → exec (.keystoneAnswer j) s = .next ((s.ksSet j (kRef k n true)).updSl j
        (ksOver h (wr .u32 d 0 (BitVec.ofNat 64 n))))) ∧
      (∀ n k, r.2 = .ok n → kGive bad r.1 n = (k, .poison) → poison h d k) ∧
      (r.2 = .poison → poison h d r.1) ∧
      (r.2 = .full → s.canTrap j → exec (.keystoneAnswer j) s = .next
        (((s.ksSet j r.1).updSl j fun x => { x with exhaust := some (x.pc, r.1.sweeps) }).trapped j
          (if ∃ n, (s.sl j).exhaust = some ((s.sl j).pc, n) ∧ n ≠ r.1.sweeps then 0x11 else 0x10) 0 (BitVec.ofNat 64 r.1.nodes.length)
          (gangMask (s.crewOf j) (s.sl j) (s.sl j).active)))
    (∀ h d a, i = .ddvar h d a → answers h d (kMake bad t (rs32 s j h a) 0 1)) ∧
    (∀ f, Diagrams i f → (∀ x ∈ f.hs s j, kHandle t x = true) →
      ((∃ x ∈ f.hs s j, kBad t x = true) → answers f.hdr f.dst (t, .poison)) ∧
      ((∀ x ∈ f.hs s j, kBad t x = false) →
        let r := (f.hs s j).foldl (fun r x => kBind r fun k _ => kGive bad k x) (t, .ok 0)
        (∀ k, r = (k, .poison) → answers f.hdr f.dst (k, .poison)) ∧ (∀ k n, r = (k, .ok n) → answers f.hdr f.dst (f.run s j bad k)))) ∧
    (∀ h all d a b k n k2, i = .ddqnt h all d a b → kHandle t (rs32 s j h a) = true → kHandle t (rs32 s j h b) = true →
      kBad t (rs32 s j h a) = false → kBad t (rs32 s j h b) = false →
      kBind (kGive bad t (rs32 s j h a)) (fun k _ => kGive bad k (rs32 s j h b)) = (k, .ok n) → kCube bad 4100 k (rs32 s j h b) = (k2, some true) →
      answers h d (kQnt bad all 4100 k2 (rs32 s j h a) (rs32 s j h b)))

/-- R195, R197, R198, R201, R202, R206, R352, R383: the engine's answers that count, expand, keep references, sweep, order, or look at a table, for a
unit of one slice, and, by the same steps, for a unit of several. DDEXP's mask is put under way as stores of 8-byte units, and its slice waits for the
result, which lands when they are performed. -/
def Obligations.KeystoneQueries : Prop :=
  (∀ (s : State) (j : Nat) (i : Instr) (ids : List Nat), ksDiagram s j (s.ksTable j) (s.ksBad j) i = none → s.ksAnswers j i ids) ∧
  ∀ (s : State) (j : Nat) (i : Instr), (s.sl j).park = .before (.keystone i [j]) → ctxRuns s (s.ctxOf j) = true →
    let t := s.ksTable j
    let bad := s.ksBad j
    let leaves := fun (h : Hdr) (k : KTable) (f : Slice → Slice) => exec (.keystoneAnswer j) s = .next ((s.ksSet j k).updSl j (ksOver h f))
    (∀ h d a b c k ns, i = .ddcnt h false d a b c → kCntNodes bad t false (rs32 s j h a) (rs32 s j h b) = (k, .inl ns) →
      let r := cntRun cntInt k ns (rs32 s j h a) (rs32 s j h b)
      leaves h k fun x => let y := wr .u64 d 0 (BitVec.ofNat 64 r.1) x; { y with flags := y.flags ||| r.2.fl }) ∧
    (∀ h d a b c k ns, i = .ddcnt h true d a b c → kCntNodes bad t true (rs32 s j h a) (rs32 s j h b) = (k, .inl ns) →
      ksAlign s j i = .go → ksStand s j t bad i = .ok →
      let r := cntRun (cntFloat (ksWeights s j (rs64 s j h c))) k ns (rs32 s j h a) (rs32 s j h b)
      exec (.keystoneAnswer j) s = .next
        ((ksTouch (s.ksSet j k) j (ksCntReads k ns (rs32 s j h a) (rs32 s j h b) (rs64 s j h c))).updSl j (ksOver h fun x =>
          let y := wr .u64 d 0 (BitVec.ofNat 64 r.1) x; { y with flags := y.flags ||| r.2.fl }))) ∧
    (∀ h d a b c k m, i = .ddexp h d a b c → kExpMask bad t (rs32 s j h a) (rs32 s j h b) = (k, .inl m) → ksAlign s j i = .go → ksStand s j t bad i = .ok →
      let u := s.ksSet j k
      let va := rs64 s j h c
      exec (.keystoneAnswer j) s = .next ((partyUse { u with nextId := u.nextId + 1 } (sliceParty u j) .write [(va, m.length)]).updSl j fun x =>
        let y := ksOver h id x
        { y with
          accs := Tbl.put y.accs u.nextId
            { kind := .store, ctx := s.ctxOf j, ch := hintEngine, pieces := maskPieces (pageOrd u (s.ctxOf j)) va m, got := [(0, maskOnes m)], size := 4
              sgn := false, dst := d, once := true, id := u.nextId, pc := (s.sl j).pc
              mask := gangMask (s.crewOf j) (s.sl j) (s.sl j).active, grp := u.nextId, whole := false }
          outst := Tbl.put y.outst u.nextId 1
          park := .after (.value u.nextId) h.w })) ∧
    (∀ h a n, i = .ddref h a → Tbl.find t.nodes (rs32 s j h a) = some n → rs32 s j h a < 2 ^ t.nlog → 2 ≤ rs32 s j h a →
      rs32 s j h a ≠ 0xFFFFFFFF → (n.psn = true ∨ bad (rs32 s j h a) = false) → leaves h (kRef t (rs32 s j h a) true) id) ∧
    (∀ h a n, i = .ddunref h a → Tbl.find t.nodes (rs32 s j h a) = some n → rs32 s j h a < 2 ^ t.nlog → 2 ≤ rs32 s j h a →
      rs32 s j h a ≠ 0xFFFFFFFF → (n.psn = true ∨ bad (rs32 s j h a) = false) → n.ref ≠ 0 → leaves h (kRef t (rs32 s j h a) false) id) ∧
    (∀ h, i = .ddswp h → leaves h (kSweep bad t) id) ∧
    (∀ h a, i = .ddord h a → t.nodes = [] → isPerm (ksMap s j (rs64 s j h a)) = true → ksAlign s j i = .go →
      ksStand s j t bad i = .ok →
      let k := { t with level := (((ksMap s j (rs64 s j h a)).zipIdx).filter fun e => e.1 != e.2).map fun e => (e.2, e.1) }
      exec (.keystoneAnswer j) s = .next ((ksTouch (s.ksSet j k) j [(rs64 s j h a, 8192)]).updSl j (ksOver h id))) ∧
    (∀ h d a, i = .ddstat h d a → leaves h t (wr .u64 d 0 (BitVec.ofNat 64 (kStat t (rs64 s j h a))))) ∧
    (∀ h d a n, i = .ddnode h d a → Tbl.find t.nodes (rs32 s j h a) = some n → 2 ≤ rs32 s j h a → rs32 s j h a < 2 ^ t.nlog →
      n.psn = false → bad (rs32 s j h a) = false →
      leaves h t fun x => wr .u64 (Opnd.plus d 1) 0 (BitVec.ofNat 64 (n.var + 2 ^ 16 * n.ref + 2 ^ 63))
        (wr .u64 d 0 (BitVec.ofNat 64 (n.lo + 2 ^ 32 * n.hi)) x))

/-! ### Procedural ranges, launches, system crews: units of one slice -/

/-- R64 to R66, R73, R76, R77, R354 to R356: PGREG puts a range in its slot with the counters at 0, or resets and releases the slot; PGDONE, its
accesses performed and its release done, tells the block's home and waits; PGFAIL fails the generator with its code; PGRST resets a block, or the
blocks of a slot. -/
def Obligations.ProceduralInstructions : Prop :=
  ∀ (s : State) (j : Nat) (h : Hdr) (a b : Opnd), s.cur = [j] → perSlice h (s.sl j) ≠ 0 →
    let u := s.begun j
    let ctx := s.ctxOf j
    let slot := rs32 s j h a
    let va := rs64 s j h b
    let past := fun (u : State) => if (u.crewOf j).ended then u else u.updSl j (standAt (.clock 0))
    (slot < 16 → va ≠ 0 → va % 64 = 0 → (s.sl j).accs = [] → (s.cluster (coreCluster (s.coreOf j))).raising = none → standRead s (sliceParty s j) false [(va, 64)] = .ok →
      rangeOk s ctx slot (descAt s j va) va = true →
      CompletesOne (.pgreg h a b) h j (([32, 36, 40, 44, 48, 52].foldl (fun u off => statPut u ctx va off fun _ => 0)
        ((sliceReads u j [(va, 64)]).updCtx ctx fun c => { c with ranges := Tbl.put c.ranges slot (parseRange (descAt s j va) va) })).updSl j
        (standAt (.clock 0))) s) ∧
    (∀ r, slot < 16 → Tbl.find (s.ctx ctx).ranges slot = some r → blocksHeld s ctx slot none = false →
      let v := (statAdd ((rangeBlocks u ctx r).foldl (fun u b => resetBlock u ctx slot r b) u) ctx r.desc 52 (r.size / r.bsz)).updCtx ctx
        fun c => { c with ranges := Tbl.del c.ranges slot }
      (va = 0 → CompletesOne (.pgreg h a b) h j (past v) s) ∧ CompletesOne (.pgregRelease h a) h j (past v) s) ∧
    (slot < 16 → Tbl.find (s.ctx ctx).ranges slot = none →
      (va = 0 → CompletesOne (.pgreg h a b) h j (past u) s) ∧ CompletesOne (.pgregRelease h a) h j (past u) s) ∧
    (∀ g, (s.crewOf j).gen = some g → (s.sl j).accs = [] → s.released j true →
      CompletesOne (.pgdone h) h j ((injectControl u (s.coreOf j) g.block).updSl j (standAt .tower)) s) ∧
    (∀ g, (s.crewOf j).gen = some g → rs64 s j h a < 2 ^ 16 →
      CompletesOne (.pgfail h a) h j (failGenerator u (s.sl j).crew (failRecord 0 g.depth g.slot (rs64 s j h a))) s) ∧
    (∀ k r b, blockOf (s.ctx ctx) (rs64 s j h a) = some (k, r, b) → blocksHeld s ctx k (some b) = false →
      CompletesOne (.pgrstBlk h a) h j (past (statAdd (resetBlock u ctx k r b) ctx r.desc 52 1)) s) ∧
    (∀ r, rs64 s j h a < 16 → Tbl.find (s.ctx ctx).ranges (rs64 s j h a) = some r → blocksHeld s ctx (rs64 s j h a) none = false →
      CompletesOne (.pgrstSlot h a) h j (past (statAdd ((rangeBlocks u ctx r).foldl (fun u b => resetBlock u ctx (rs64 s j h a) r b) u)
        ctx r.desc 52 (r.size / r.bsz))) s)

/-- R227 to R231, R233, R357 to R359: LAUNCH, every earlier access of the slice performed, and FY.LAUNCH on an OS core, accept a record: a launch is
pending at the tower, its handle word holds the LID and ACC, and D or rd receives the word; the OS core gets a trap's code instead, or tries again
while the tower is full, a block that it reads is being filled or an index that it names is vacant. LWAIT returns the handle word once it shows DONE.
MIGR starts a migration, or answers why not. An OS core's tower and the form of the LID (log 8), what FY.LAUNCH does at a block that is not filled and
with a record it cannot read (log 34), and the order of MIGR's reasons (log 38) are the model's reading. -/
def Obligations.LaunchInstructions : Prop :=
  (∀ (s : State) (j : Nat) (h : Hdr) (d a : Opnd), s.cur = [j] → perSlice h (s.sl j) ≠ 0 →
    let u := s.begun j
    let va := rs64 s j h a
    let v := recAt s j va
    let lands := fun (u : State) (w : DWord) => u.updSl j fun x => standAt (.clock 0) (wr .u64 d 0 w x)
    let still := (s.cluster (coreCluster (s.coreOf j))).raising = none
    (va % 128 = 0 → (s.sl j).accs = [] → s.released j true → still →
      standRead s (sliceParty s j) true [(va, 128)] = .ok → recFieldsOk s v = true →
      standRead s (sliceParty s j) true (predRanges v) = .ok → recOk s v (sliceWord s j) = true →
      (s.tower (coreTower (s.coreOf j))).pending.length < 64 →
      let rs := (va, 128) :: predRanges v
      let u1 := rs.foldl (fun t e => poisonMet s t j e.1 e.2) (sliceReads u j rs)
      let u2 := injectUnit u1 (s.coreOf j) (crewClass s (s.sl j).crew) 2 (coreTower (s.coreOf j)) none
      let r := acceptLaunch u2 (s.ctxOf j) (coreTower (s.coreOf j)) va v
      r.2 = BitVec.ofNat 64 ((lidOf u2 (coreTower (s.coreOf j))).toNat + 2 ^ 32) ∧
      CompletesOne (.launch h d a) h j (lands r.1 r.2) s) ∧
    (va % 8 = 0 → standRead s (sliceParty s j) false [(va, 8)] = .ok → ownPre s j [⟨0, va, 8⟩] = .go → strongPre s j [⟨0, va, 8⟩] = .go → still →
      hwDone (sliceWord s j va) = true → (hwAcc (sliceWord s j va) = true ∨ (s.sl j).begun ≠ none) →
      CompletesOne (.lwait h d a) h j
        (poisonMet s (lands (sliceReads u j [(va, 8)]) (BitVec.ofNat 64 (sliceWord s j va))) j va 8) s) ∧
    (userAddr s va = true → vacantAt s va = false →
      CompletesOne (.migr h d a) h j (lands (migStatus u (s.ctxOf j) va).2 (BitVec.ofNat 64 (migStatus u (s.ctxOf j) va).1)) s)) ∧
  (∀ (s : State) (oc rd rs1 rs2 : Nat), s.curOs = some oc →
    let c := osOf s oc
    let va := (c.reg rs1).toNat
    let ctx := (c.reg rs2).toNat
    let ret := fun (u : State) (v : DWord) => exec (.fyLaunch rd rs1 rs2) s = .next
      { u with curOs := none, osCores := Tbl.put u.osCores oc { c.setReg rd v with pc := c.pc + 4 } }
    (256 ≤ ctx ∨ s.hasCtx ctx = false → ret s 0x8000000000000002) ∧
    (ctx < 256 → s.hasCtx ctx = true → va % 128 ≠ 0 → ret s 0x8000000000000005) ∧
    (ctx < 256 → s.hasCtx ctx = true → va % 128 = 0 → ∀ g, osVacant s [(va, 128)] = some g →
      exec (.fyLaunch rd rs1 rs2) s = .next { parkVacant s (.os oc) (oc / 2 / 8) g with curOs := none }) ∧
    (ctx < 256 → s.hasCtx ctx = true → va % 128 = 0 → osVacant s [(va, 128)] = none →
      (∃ g ∈ pagesOf (va, 128), osPage s ctx g = .nonResident) → ret s 0x8000000000000009) ∧
    (ctx < 256 → s.hasCtx ctx = true → va % 128 = 0 → osVacant s [(va, 128)] = none →
      (∀ g ∈ pagesOf (va, 128), osPage s ctx g ≠ .nonResident) →
      let v := bytesNat (curBytes s ctx va 128)
      let s1 := osReads s ctx [(va, 128)]
      (∀ c, osCause s ctx [(va, 128)] = some c → ret (logHoles s ctx (pagesOf (va, 128))) (BitVec.ofNat 64 (2 ^ 63 + c))) ∧
      (osCause s ctx [(va, 128)] = none →
        (∀ g gs, osFills s ctx [(va, 128)] = g :: gs →
          exec (.fyLaunch rd rs1 rs2) s = .next { osPresent s oc ctx (g :: gs) with curOs := none }) ∧
        (osFills s ctx [(va, 128)] = [] →
          (recFieldsOk s v = false → ret s1 0x8000000000000002) ∧
          (recFieldsOk s v = true → ∀ g, osVacant s (predRanges v) = some g →
            exec (.fyLaunch rd rs1 rs2) s = .next { parkVacant s1 (.os oc) (oc / 2 / 8) g with curOs := none }) ∧
          (recFieldsOk s v = true → osVacant s (predRanges v) = none →
            (∀ c, osCause s ctx (predRanges v) = some c →
              ret (logHoles s1 ctx ((predRanges v).flatMap pagesOf)) (BitVec.ofNat 64 (2 ^ 63 + c))) ∧
            (osCause s ctx (predRanges v) = none →
              (∀ g gs, osFills s ctx (predRanges v) = g :: gs →
                exec (.fyLaunch rd rs1 rs2) s = .next { osPresent s1 oc ctx (g :: gs) with curOs := none }) ∧
              (osFills s ctx (predRanges v) = [] →
                let s2 := osReads s1 ctx (predRanges v)
                (recOk s v (osWordAt s ctx) = false → ret s2 0x8000000000000002) ∧
                (recOk s v (osWordAt s ctx) = true →
                  ((s.tower (oc / 2)).pending.length < 64 →
                    ret (acceptLaunch s2 ctx (oc / 2) va v).1 (BitVec.ofNat 64 ((lidOf s2 (oc / 2)).toNat + 2 ^ 32))) ∧
                  (64 ≤ (s.tower (oc / 2)).pending.length → exec (.fyLaunch rd rs1 rs2) s = .next { s2 with curOs := none })))))))))

/-- R62, R247, R249, R250, R360 to R363: the instructions of a system crew, slice by slice of the unit. SHOOT starts a downgrade, or a flush, and
waits for it; of slices that name one page the later issues again (its turn and the check of the new leaf: log 36). HALT takes the core's wake word,
which one slice receives. CTXSTOP, the context stopped, or dead with no crew left, ends with 0, or with 1 where it waited for one that was then reset
by force (log 39); CTXSTOP.kill resets a context by force. CTXGO restores a stopped context where it fits, and waits where it does not. -/
def Obligations.SystemInstructions : Prop :=
  ∀ (s : State) (h : Hdr) (d a b c : Opnd), s.unitIn → (∀ j ∈ s.cur, (s.ctx (s.ctxOf j)).sys = true) →
    let ctx := fun j => rs64 s j h a
    let va := fun j => rs64 s j h b
    let new := fun j => BitVec.ofNat 64 (rs64 s j h c)
    let named := fun j => ctx j < 256 ∧ s.hasCtx (ctx j) = true
    let other := fun j => named j ∧ ctx j ≠ s.ctxOf j
    let settled := fun (u : State) (k : Nat) => (u.ctx k).st = .stopped ∨ (u.ctx k).st = .dead ∧ ctxCrews u k = []
    let lands := fun (u : State) (j : Nat) (w : DWord) => u.updSl j fun x => standAt (.clock 0) (wr .u64 d 0 w x)
    let told := fun (u : State) (j : Nat) => injectUnit u (u.coreOf j) (crewClass u (u.sl j).crew) 2 (coreTower (u.coreOf j)) none
    let again := fun (w : Wait) (x : Slice) => { x with park := .before w, pc := x.pc - 12 }
    (s.each h (fun j => named j ∧ userAddr s (va j) = true ∧ vacantAt s (va j) = false ∧ ∃ page size p, walkTable s (ctx j) (va j) = .leaf page size p ∧
        newLeafOk s (ctx j) (va j) size p (new j) = true ∧ pageTurn s j (ctx j) page size = true) →
      Runs (.shootDg h a b c) h (perSlice h) (fun u j =>
        match walkTable u (ctx j) (va j) with
        | .leaf page size p =>
          if downgradeMeets u (ctx j) page size = none then
            (startDowngrade u (leafDowngrade (ctx j) page size p (new j))).updSl j (standAt (.shootdown u.nextId))
          else u.fresh.updSl j fun x => (again (.pageTurn (ctx j) page size) x).begin u.nextId
        | _ => u.updSl j (again (.clock 0))) s) ∧
    (s.each h named →
      Runs (.shootFlush h a) h (perSlice h) (fun u j =>
        (startDowngrade u (flushDowngrade (ctx j))).updSl j (standAt (.shootdown u.nextId))) s) ∧
    (s.each h (fun j => (s.core (s.coreOf j)).wake ≠ none) →
      Runs (.halt h d) h (perSlice h) (fun u j =>
        match (u.core (u.coreOf j)).wake with
        | some w => (u.updCore (u.coreOf j) fun k => { k with wake := none }).updSl j (wr .u64 d 0 w)
        | none => u.updSl j (again .wake)) s) ∧
    (s.each h (fun j => other j ∧ settled s (ctx j)) →
      Runs (.ctxstopPre h d a) h (perSlice h) (fun u j =>
        lands u j (if (s.sl j).begun ≠ none ∧ (u.ctx (ctx j)).forced = true then 1 else 0)) s) ∧
    (s.each h other →
      Runs (.ctxstopKill h d a) h (perSlice h) (fun u j =>
        if settled u (ctx j) then lands (told u j) j 0 else lands (told (forceReset u (ctx j)) j) j 1) s) ∧
    (s.each h (fun j => other j ∧ (s.ctx (ctx j)).st ≠ .dead) →
      Runs (.ctxgo h a b) h (perSlice h) (fun u j =>
        if (u.ctx (ctx j)).st = .stopped then
          match ctxGo u (ctx j) (rs32 s j h b) with
          | (some v, _) => (told v j).updSl j (standAt (.clock 0))
          | (none, v) => v.updSl j (again .restore)
        else (told u j).updSl j (standAt (.clock 0))) s)

/-- R254 check 3, R246, R360: outside a system context each of them is PRIV, whatever its guard, in every slice of the unit: the context stops. R246,
R296: WRSR to an identity register, STAGGER, SPANSCR or CAPBASE is PRIV, which stops the context; that its guard does not matter is the model's
reading (log 9). -/
def Obligations.Privilege : Prop :=
  (∀ (s : State) (h : Hdr) (d a b c : Opnd), s.unitIn → (∀ j ∈ s.cur, s.hasCtx (s.ctxOf j) = true ∧ (s.ctx (s.ctxOf j)).sys = false) →
     ∀ i ∈ [Instr.shootDg h a b c, .shootFlush h a, .halt h d, .ctxstopPre h d a, .ctxstopKill h d a, .ctxgo h a b],
       ∃ t, exec i s = .next t ∧ SlotsOnly (s.cur.foldl (fun u j => u.takes j 0x1A 0 s.unitMask) s) t) ∧
  (∀ (s : State) (h : Hdr) (t : Ty) (a : Opnd), s.unitIn → (∀ j ∈ s.cur, s.hasCtx (s.ctxOf j) = true) →
     h.imm.toNat < 16 ∨ h.imm = 0x71 ∨ h.imm = 0x80 ∨ h.imm = 0xF0 →
     ∃ u, exec (.wrsr h t a) s = .next u ∧ SlotsOnly (s.cur.foldl (fun u j => u.takes j 0x1A 0 s.unitMask) s) u)

/-! ### Events -/

/-- R36, R37, R44, R90, R123, R124, R126, R142, R208, R212, R217, R219, R257, R316 to R318, R372: the parts of accesses under way are performed. A
part waits until what must come before it is performed, and while its address lies at a vacant index. A load's part reads the location, or the slice's
own earlier store; a store's part writes its bytes; an atomic's lanes at one location, and a gang's whole sector, go in one event, each lane as its
own part goes; a CAS that does not match obtains its line all the same. Data of a poisoned line is open and is reported once for the access. A remote
part reads or writes the target crew's stash and no other byte, or fails; in a mapped tile it is an access to the address the bytes stand for, cleared
there and then (log 80). A result that has come in is written to its register. -/
def Obligations.AccessEvents : Prop :=
  ∀ (s : State) (i k p : Nat) (a : Acc) (q : Piece), Tbl.find (s.sl i).accs k = some a → a.pieces[p]? = some q →
    let ev := fun (e : Instr) (t : State) => exec e s = .next t
    let cl := coreCluster (s.coreOf i)
    let at_ := fun (u : Use) => placeAt s cl a.ctx q.va a.ch u
    let old := curLE s a.ctx q.va q.n
    let comb := fun (op : AtomOp) (t : Ty) (x : Nat) => (atomNew op t (BitVec.ofNat 64 x) (BitVec.ofNat 64 q.data)).1.toNat % 256 ^ q.n
    let raised := fun (op : AtomOp) (t : Ty) => (atomNew op t (BitVec.ofNat 64 old) (BitVec.ofNat 64 q.data)).2
    let put := fun (u : Use) (v : Nat) => writeLoc s (at_ u) cl a.ctx q.va (natBytes q.n v) a.ch
    let due := pieceReady s i k a q && (eventPieces s i k p a q).all (partReady s)
    (q.done = true ∨ due = false ∧ vacantAt s q.va = false → ev (.homeReadRequest i k p) s ∧ ev (.homeStoreRequest i k p) s ∧ ev (.nearMemoryReduction i k p) s) ∧
    (q.done = true ∨ pieceReady s i k a q = false → ev (.remoteStashAccess i k p) s) ∧
    (q.done = false → vacantAt s q.va = true →
      let waits := parkVacant s (.part i k p) (corePkg (s.coreOf i)) q.va
      (a.kind = .load ∨ a.kind = .mapLoad → ev (.homeReadRequest i k p) waits) ∧
      (a.kind = .store ∨ a.kind = .mapStore ∨ a.kind = .cas ∨ (∃ op t, a.kind = .atom op t ∨ a.kind = .red op t) →
        ev (.homeStoreRequest i k p) waits) ∧
      (∀ op t, a.kind = .nmred op t → ev (.nearMemoryReduction i k p) waits)) ∧
    (q.done = false → due = true → vacantAt s q.va = false →
      let all := (eventPieces s i k p a q).foldl (fun u e => performPiece u e.1 e.2.1 e.2.2) s
      (a.kind = .load ∨ a.kind = .mapLoad → ev (.homeReadRequest i k p) all) ∧
      (a.kind = .store ∨ a.kind = .mapStore ∨ a.kind = .cas ∨ (∃ op t, a.kind = .atom op t ∨ a.kind = .red op t) →
        ev (.homeStoreRequest i k p) all) ∧
      (∀ op t, a.kind = .nmred op t → ev (.nearMemoryReduction i k p) all) ∧
      (eventPieces s i k p a q = [(i, k, p)] →
        (a.kind = .load → poisoned s a.ctx q.va = false → ev (.homeReadRequest i k p)
          (finishPiece (cacheRead s (at_ .read) cl a.ctx q.va a.ch) i k p
            (bytesNat ((List.range q.n).map fun b => (ownStore s i k a.once q (q.va + b)).getD (curByte s a.ctx (q.va + b)))) 0)) ∧
        (a.kind = .load → poisoned s a.ctx q.va = true → ∃ v, ev (.homeReadRequest i k p)
          (deferAccess (finishPiece (cacheRead s (at_ .read) cl a.ctx q.va a.ch) i k p v 0) i k 0x18 0 a.pc
            (BitVec.ofNat 64 (q.va / 256 * 256)) (pieceLanes (finishPiece (cacheRead s (at_ .read) cl a.ctx q.va a.ch) i k p v 0) i a q))) ∧
        (a.kind = .store → ev (.homeStoreRequest i k p) (finishPiece (put .write q.data) i k p 0 0)) ∧
        (poisoned s a.ctx q.va = false →
          (∀ op t, a.kind = .atom op t ∨ a.kind = .red op t →
            ev (.homeStoreRequest i k p) (finishPiece (put .rmw (comb op t old)) i k p old (raised op t))) ∧
          (a.kind = .cas → ev (.homeStoreRequest i k p)
            (finishPiece (if old = q.data then put .rmw q.new else obtainLoc s (at_ .rmw) cl a.ctx q.va a.ch) i k p old 0))) ∧
        (∀ op t, a.kind = .nmred op t → ev (.nearMemoryReduction i k p) (finishPiece (reduceAt s a.ctx q.va q.n (comb op t)) i k p 0 0)))) ∧
    (q.done = false → pieceReady s i k a q = true → a.kind = .remLoad ∨ a.kind = .remStore →
      crewOnCore s (s.crewOf i).span (q.va / 2 ^ 19 % 16) = none →
      ev (.remoteStashAccess i k p) (remoteFail s i k p a q 0x0A q.va)) ∧
    (∀ c, q.done = false → pieceReady s i k a q = true → crewOnCore s (s.crewOf i).span (q.va / 2 ^ 19 % 16) = some c →
      let off := q.va % 2 ^ 19
      ((s.crew c).tiles ≤ off / 1024 → a.kind = .remLoad ∨ a.kind = .remStore →
        ev (.remoteStashAccess i k p) (remoteFail s i k p a q 0x0A q.va)) ∧
      (off / 1024 < (s.crew c).tiles → (tagOf s c (off / 1024)).owner ≠ .slices →
        (a.kind = .remLoad → ev (.remoteStashAccess i k p) s) ∧
        (a.kind = .remStore → ev (.remoteStashAccess i k p) (remoteFail s i k p a q 0x0C q.va))) ∧
      (off / 1024 < (s.crew c).tiles → (tagOf s c (off / 1024)).owner = .slices → mappedVa s c off = none →
        (a.kind = .remLoad → ev (.remoteStashAccess i k p) (finishPiece s i k p (Mem.readLE s.stash (c * 2 ^ 19 + off) q.n) 0)) ∧
        (a.kind = .remStore → ∃ t, ev (.remoteStashAccess i k p) t ∧ t.mem = s.mem ∧ t.scratch = s.scratch ∧ ∀ x, Mem.read t.stash x =
          if c * 2 ^ 19 + off ≤ x ∧ x < c * 2 ^ 19 + off + q.n then BitVec.ofNat 8 (q.data / 256 ^ (x - (c * 2 ^ 19 + off)))
          else Mem.read s.stash x)) ∧
      (∀ va, off / 1024 < (s.crew c).tiles → (tagOf s c (off / 1024)).owner = .slices → mappedVa s c off = some va →
        a.kind = .remLoad ∨ a.kind = .remStore →
        let r : Right := if a.kind = .remLoad then .read else .write
        (vacantAt s va = true → ev (.remoteStashAccess i k p) (parkVacant s (.part i k p) (corePkg (s.coreOf i)) va)) ∧
        (vacantAt s va = false → closingFor s a.ctx va r = true ∨ (s.cluster cl).raising ≠ none → ev (.remoteStashAccess i k p) s) ∧
        (vacantAt s va = false → closingFor s a.ctx va r = false → (s.cluster cl).raising = none → walkTable s a.ctx va ≠ .hole →
          ∀ b n r' g, ownerAnswer s a.ctx va r (s.crewOf i).gen = .grant b n r' g →
          let u := setAD (tlbFill s a.ctx va) a.ctx va (.grant b n r' g)
          (a.kind = .remLoad → isProc u a.ctx va = false → poisoned u a.ctx va = false →
            ev (.remoteStashAccess i k p) (finishPiece (readMapped u c cl a.ctx va a.ch) i k p (curLE u a.ctx va q.n) 0)) ∧
          (a.kind = .remStore →
            ev (.remoteStashAccess i k p) (finishPiece (storeMapped u c cl a.ctx va (natBytes q.n q.data) a.ch) i k p 0 0))))) ∧
    (∀ n r, (s.sl i).ready[n]? = some r →
      let left := Tbl.findD (s.sl i).outst r.id 0 - 1
      ∃ t, ev (.resultWriteback i n) t ∧ SlotsOnly { s.setSl i { landIn (s.sl i) r.dst r.val with
          ready := (s.sl i).ready.eraseIdx n
          outst := if left = 0 then Tbl.del (s.sl i).outst r.id else Tbl.put (s.sl i).outst r.id left } with cur := t.cur } { t with cur := [] } ∧
        t.cur = s.cur)

/-- R35, R36, R39 to R43, R127, R224: what happens to cached copies, banks and migrating pages. A recalled copy sends its dirty bytes home and goes; a
write-back makes the home's line dirty, or is dropped where the page has no leaf, which the release that waits for it sees; a bank sleeps after 2^16
idle clocks, one of a slice in a clock; a flush writes a dirty line to its frame; a migration starts, redirects the page's leaves, copies and pulls
its lines, and gives the old frame back. Which lines share a bank is the model's choice (log 74), and so are when a migration's count starts again,
how the mark drains and the Svnapot form that its new leaf keeps (log 69). -/
def Obligations.CacheEvents : Prop :=
  ∀ s : State,
    (∀ cl ctx line x, Tbl.find s.l2 (l2Key cl ctx line) = some x →
      (∀ k, k < 2 → ∀ e ∈ stashAt s ctx (256 * line + 128 * k), e.1 ≠ 0) →
      let bytes := ([0, 1].filter fun k => x.dirty.getLsbD k).flatMap fun k => (List.range 128).map fun b =>
        (256 * line + 128 * k + b, Mem.read s.l2Data (l2Addr cl ctx (256 * line + 128 * k + b)))
      ∃ t n, exec (.recall false cl ctx line) s = .next t ∧ Tbl.find t.l2 (l2Key cl ctx line) = none ∧
        (∀ j, j ≠ l2Key cl ctx line → Tbl.find t.l2 j = Tbl.find s.l2 j) ∧
        t.mem = s.mem ∧ t.stash = s.stash ∧ t.llcData = s.llcData ∧
        if x.dirty = 0 then t.writeBacks = s.writeBacks ∧ t.l2Data = s.l2Data
        else t.writeBacks = Tbl.put s.writeBacks n ⟨ctx, line, bytes, none⟩ ∧
          t.l2Data = Mem.clear s.l2Data (l2Addr cl ctx (256 * line)) 256) ∧
    (∀ crew ctx line, ∃ t, exec (.recall true crew ctx line) s = .next t ∧ t.mem = s.mem ∧ t.stash = s.stash ∧ t.llcData = s.llcData ∧
      ∀ k, k < 2 → ∀ e ∈ stashAt s ctx (256 * line + 128 * k), e.1 = crew →
        (tagOf t crew e.2.1).sv.getLsbD (e.2.2 / 128) = false ∧ (tagOf t crew e.2.1).sd.getLsbD (e.2.2 / 128) = false) ∧
    (∀ k w page size p, Tbl.find s.writeBacks k = some w → walk s w.ctx (256 * w.line) = .leaf page size p →
      exec (.writebackArrival k) s = .next (
        let u := touchBank (fillLlc { s with writeBacks := Tbl.del s.writeBacks k } w.ctx w.line) (vaPkg (256 * w.line)) (llcBank (256 * w.line))
        { u with
          llc := Tbl.put u.llc (lineKey w.ctx w.line) ⟨true⟩
          llcData := w.bytes.foldl (fun m b => Mem.write m (llcAddr w.ctx b.1) b.2) u.llcData })) ∧
    (∀ k w i, Tbl.find s.writeBacks k = some w → (∀ page size p, walk s w.ctx (256 * w.line) ≠ .leaf page size p) →
      Tbl.find s.slices i = some (s.sl i) →
      ∃ t, exec (.writebackArrival k) s = .next t ∧ t.writeBacks = Tbl.del s.writeBacks k ∧ t.llc = s.llc ∧ t.mem = s.mem ∧
        t.sl i = if w.crew = some (s.sl i).crew ∧ ((s.sl i).relIn = true ∨ (s.sl i).park = .before (.performed true)) ∧
            256 * w.line ∉ (s.sl i).lost then { s.sl i with lost := (s.sl i).lost ++ [256 * w.line] } else s.sl i) ∧
    (∀ bank last asleep u, Tbl.findD s.banks bank (0, false, 0) = (last, asleep, u) →
      let now := (s.pkg (bankPkg bank)).clock
      exec (.bankSleep bank) s = .next (if asleep = false ∧ last + 65536 ≤ now ∧ u ≤ now ∧
          (∀ c, Tbl.find s.bankClock (bankSlice bank) = some c → c < now) then
        { s with banks := Tbl.put s.banks bank (last, true, u), bankClock := Tbl.put s.bankClock (bankSlice bank) now } else s)) ∧
    (∀ ctx line k, Tbl.find s.llc (lineKey ctx line) = some ⟨true⟩ → frameKey s ctx (256 * line) (walk s ctx (256 * line)) = some k →
      migAt s k = none → exec (.managementFlush ctx line) s = .next { touchBank (busUnit { s with llc := Tbl.put s.llc (lineKey ctx line) ⟨false⟩ } 4
          (256 * line) 5) (vaPkg (256 * line)) (llcBank (256 * line)) with
        mem := Mem.writeN s.mem k (Mem.readN s.llcData (llcAddr ctx (256 * line)) 256)
        poison := s.poison.filter (· != k / 256) }) ∧
    (∀ ctx (va : DWord) page size p new u n t0, walk s ctx va.toNat = .leaf page size p → movable (.leaf page size p) = true →
      Tbl.findD s.migCounts (ctx * 2 ^ 57 + page) (0, 0) = (n, t0) → 512 ≤ n → (s.pkg (vaPkg va.toNat)).clock ≤ t0 + 2 ^ 20 →
      migOf s ctx page = false → slotsUsed s (vaTower va.toNat) < 16 →
      popPool { s with migCounts := Tbl.del s.migCounts (ctx * 2 ^ 57 + page) } ctx (vaTower page) (s.ctx ctx).migPool
        (80 * (vaTower page % 8) + 8 * sizeIx size) size = (some new, u) →
      exec (.migrationStart ctx va) s = .next { u with
        nextId := u.nextId + 1
        migs := Tbl.put u.migs u.nextId
          ⟨vaTower page, ctx, page, size, physKey (vaPkg page) (leafFrame size p), new, [], [], .marked, 0⟩ }) ∧
    (∀ n m, Tbl.find s.migs n = some m →
      let pulled := fun (line : Nat) => { s with
        mem := Mem.writeN s.mem (m.new + 256 * line) (Mem.readN s.mem (m.old + 256 * line) 256)
        poison := (if s.poison.contains ((m.old + 256 * line) / 256) then [(m.new + 256 * line) / 256] else []) ++
          s.poison.filter (· != (m.new + 256 * line) / 256)
        migs := Tbl.put s.migs n { m with valid := m.valid ++ [line], pull := m.pull.filter (· != line) } }
      (m.phase = .marked → exec (.migrationMarkDrained n) s = .next (
        let u := updLeaves s m.ctx m.va fun p => withPpn p (m.new % 2 ^ 43 + (if pteBit p 63 then 8 * 4096 else 0))
        startDowngrade { u with migs := Tbl.put u.migs n { m with phase := .shootdown, dg := u.nextId } }
          ⟨m.ctx, m.va, m.size, some 0, true, false, [], [], [], false, some n⟩)) ∧
      (∀ line, line ∉ m.valid → line ∉ m.pull → 256 * line < m.size →
        exec (.migrationAccess n line) s = .next { s with migs := Tbl.put s.migs n { m with pull := m.pull ++ [line] } }) ∧
      (∀ line, m.phase = .copying → nextLine m = some line → (∃ k, k < m.size / 256 ∧ k ≠ line ∧ k ∉ m.valid) →
        exec (.migrationLineCopy n) s = .next (pulled line)) ∧
      (m.phase = .copying → nextLine m = none → exec (.migrationLineCopy n) s = .next
        (pushPool { s with migs := Tbl.del s.migs n } m.ctx m.tower (s.ctx m.ctx).migPool (80 * (m.tower % 8) + 40 + 8 * sizeIx m.size) m.old)) ∧
      (∀ line, line ∈ m.pull → line ∉ m.valid → (∃ k, k < m.size / 256 ∧ k ≠ line ∧ k ∉ m.valid) →
        exec (.migrationPullDone n line) s = .next (pulled line)))

/-- R33, R47, R52 to R54, R56, R59, R60, R224, R372: clearance. A request parks on a vacant index or behind a downgrade, is granted from the TLB, or
walks; the walk ends with the grant, the refusal of the page with its right's cause, logged where the frame touches a hole, or non-residency; the
answer reaches the slices that asked together, and a grant their core. Residency requests queue once each, 1024 at a tower; that a record's base, and
what joins two of them, is the 4 KiB base of the address is the model's choice (log 77). The OS cores store entries and unmap pages. -/
def Obligations.ClearanceEvents : Prop :=
  ∀ s : State,
    (∀ k q, Tbl.find s.clrReqs k = some q → q.ans = none → q.walk = false →
      let vac := (s.pkg (vaPkg q.va)).vacant
      let home := corePkg (askerCore s q.who)
      (vac = true → (∀ e ∈ s.vacantReqs, e.2.ask ≠ .clr k) → exec (.clearanceRequest k) s = .next { s with
        nextId := s.nextId + 1
        vacantReqs := Tbl.put s.vacantReqs s.nextId ⟨.clr k, home, vaPkg q.va, (s.pkg home).devTime.toNat⟩ }) ∧
      (vac = true → (∃ e ∈ s.vacantReqs, e.2.ask = .clr k) → exec (.clearanceRequest k) s = .next s) ∧
      (vac = false → closingFor s q.ctx q.va q.r = true → exec (.clearanceRequest k) s = .next s) ∧
      (vac = false → closingFor s q.ctx q.va q.r = false →
        (∀ e, tlbFind s q.ctx q.va = some e → leafAllows q.r e.leaf = true → pteProc e.leaf = false →
          e.agrees (walk s q.ctx q.va) = true →
          let a := Answer.grant e.page e.size q.r false
          exec (.clearanceRequest k) s = .next
            { setAD s q.ctx q.va a with clrReqs := Tbl.put s.clrReqs k { q with ans := some a } }) ∧
        ((∀ e, tlbFind s q.ctx q.va = some e → leafAllows q.r e.leaf = false ∨ pteProc e.leaf = true ∨
            e.agrees (walk s q.ctx q.va) = false) →
          exec (.clearanceRequest k) s = .next { s with clrReqs := Tbl.put s.clrReqs k { q with walk := true } }))) ∧
    (∀ k q (va : DWord), Tbl.find s.clrReqs k = some q → q.va = va.toNat → q.walk = true → q.ans = none → closingFor s q.ctx q.va q.r = false →
      s.clrReqs.filter (fun e => e.2.walk && e.2.ans.isNone && e.2.ctx == q.ctx && vaTower e.2.va == vaTower q.va &&
        e.2.va / 4096 == q.va / 4096 && !closingFor s q.ctx e.2.va e.2.r) = [(k, q)] →
      let ends := fun (a : Answer) => exec (.pageWalkDone (vaTower q.va) q.ctx va) s = .next
        (tlbFill { setAD s q.ctx q.va a with clrReqs := Tbl.put s.clrReqs k { q with ans := some a, walk := false } } q.ctx q.va)
      (walkTable s q.ctx q.va = .nonResident → ends (.nonResident q.va)) ∧
      (walkTable s q.ctx q.va = .bad → ends (.refused (q.va / 4096 * 4096) 4096 (protCode q.r))) ∧
      (walkTable s q.ctx q.va = .hole → exec (.pageWalkDone (vaTower q.va) q.ctx va) s = .next
        { s.log "hole" [q.ctx, va.toNat] with
          clrReqs := Tbl.put s.clrReqs k { q with ans := some (.refused (q.va / 4096 * 4096) 4096 (protCode q.r)), walk := false } }) ∧
      (∀ page size p, walkTable s q.ctx q.va = .leaf page size p → pteProc p = false →
        ends (if leafAllows q.r p = true then .grant page size q.r false else .refused page size (protCode q.r)))) ∧
    (∀ k q i page size r, Tbl.find s.clrReqs k = some q → q.who = .slice i → q.ans = some (.grant page size r false) →
      exec (.clearanceAnswer k) s = .next ((sameAskers s i).foldl
        (fun u j => u.updSl j fun x => { x with answers := x.answers ++ [.grant page size r false] })
        (({ s with clrReqs := Tbl.del s.clrReqs k } : State).updCore (s.coreOf i) fun c =>
          { c with clr := (⟨q.ctx, page, size, r⟩ :: c.clr.filter fun o => o != ⟨q.ctx, page, size, r⟩).take 8 }))) ∧
    (∀ k q i page size code, Tbl.find s.clrReqs k = some q → q.ans = some (.refused page size code) →
      (q.who = .slice i → exec (.clearanceAnswer k) s = .next ((sameAskers s i).foldl
        (fun u j => u.updSl j fun x => { x with answers := x.answers ++ [.refused page size code] }) { s with clrReqs := Tbl.del s.clrReqs k })) ∧
      (q.who = .fetch i → exec (.clearanceAnswer k) s = .next ((sameAskers s i).foldl
        (fun u j => u.updSl j fun x => { x with fetch := x.fetch ++ [.refused page size code] }) { s with clrReqs := Tbl.del s.clrReqs k }))) ∧
    (∀ k ctx va core, Tbl.find s.resReqs k = some (ctx, va, core) → vacantAt s va = true →
      exec (.residencyRequest k) s = .next (parkVacant s (.res k) (corePkg core) va)) ∧
    (∀ k ctx va core, Tbl.find s.resReqs k = some (ctx, va, core) → vacantAt s va = false → walk s ctx va = .nonResident →
      let t := s.tower (vaTower va)
      let page := va / 4096 * 4096
      let u : State := { s with resReqs := Tbl.del s.resReqs k }
      ((∃ e ∈ t.residency, e.1 = ctx ∧ e.2.1 = page) → exec (.residencyRequest k) s = .next (u.setTower (vaTower va) t)) ∧
      ((∀ e ∈ t.residency, e.1 = ctx → e.2.1 ≠ page) → exec (.residencyRequest k) s = .next (u.setTower (vaTower va)
        (if t.residency.length < 1024 then { t with residency := t.residency ++ [(ctx, page, core % 1024)] }
          else { t with resDrops := t.resDrops + 1 })))) ∧
    (∀ tower n, exec (.residencyQueueDrain tower n) s = .next
      (s.setTower tower { s.tower tower with residency := (s.tower tower).residency.drop n })) ∧
    (∀ pkg pa (pte : DWord), pa % 8 = 0 → populated (s.pkg pkg) pa = true → (∀ n, n < 8 → migAt s (physKey pkg pa + n) = none) →
      ∃ t, exec (.osCorePteStore pkg pa pte) s = .next t ∧ { t with mem := s.mem } = s ∧ ∀ x, Mem.read t.mem x =
        if pkg * 2 ^ 43 + pa ≤ x ∧ x < pkg * 2 ^ 43 + pa + 8 then BitVec.ofNat 8 (pte.toNat / 256 ^ (x - (pkg * 2 ^ 43 + pa))) else Mem.read s.mem x) ∧
    (∀ ctx (va : DWord), leafAddr s (vaPkg va.toNat) va.toNat 5 (s.ctx ctx).root = none →
      exec (.forceUnmap ctx va) s = .next (tlbDrop s ctx (va.toNat / 4096 * 4096) 4096)) ∧
    (∀ ctx (va : DWord) a, leafAddr s (vaPkg va.toNat) va.toNat 5 (s.ctx ctx).root = some (0, a) →
      let w := physKey (vaPkg va.toNat) a
      let p := BitVec.ofNat 64 (Mem.readLE s.mem w 8)
      a % 8 = 0 → leafSize 0 p = some 4096 → (∀ n, n < 8 → migAt s (w + n) = none) → exec (.forceUnmap ctx va) s = .next (tlbDrop { s with
        mem := Mem.writeLE s.mem w 8 (p &&& ~~~1).toNat } ctx (va.toNat / 4096 * 4096) 4096))

/-- R61 to R63, R253, R361: a downgrade or flush. Each core in turn drops its clearance cache and cached code, its slices and chains their grants,
also those on the way; it answers once what it had sent is performed, the last answer recalls what the caches hold of the page, and then the new leaf
stands in every covering entry and the slice that asked goes on. -/
def Obligations.ShootdownEvents : Prop :=
  ∀ (s : State) (dg : Nat) (d : Downgrade), Tbl.find s.downgrades dg = some d →
    (∀ core, core ∈ d.toEmpty →
      ∃ t, exec (.shootdownMessage dg core) s = .next t ∧ (t.core core).clr = [] ∧ (t.core core).icache = [] ∧
        (∀ c, c ≠ core → { t.core c with held := (s.core c).held } = s.core c) ∧ t.mem = s.mem ∧
        (∀ e ∈ t.slices, (t.crew e.2.crew).core = core → e.2.fetch = [] ∧ ∀ p n r w, Answer.grant p n r w ∉ e.2.answers) ∧
        (∀ e ∈ t.clrReqs, askerCore s e.2.who = core → d.covers e.2.ctx e.2.va = true → ∀ p n r w, e.2.ans ≠ some (.grant p n r w)) ∧
        Tbl.find t.downgrades dg = some { d with
          toEmpty := d.toEmpty.filter (· != core)
          toAnswer := d.toAnswer ++ [core]
          waitFor := Tbl.put d.waitFor core (sentFrom s core) }) ∧
    (∀ core, core ∈ d.toAnswer →
      ((∃ e ∈ Tbl.findD d.waitFor core [], stillSent s e = true) → exec (.shootdownAnswer dg core) s = .next s) ∧
      ((∀ e ∈ Tbl.findD d.waitFor core [], stillSent s e = false) →
        let d1 := { d with toAnswer := d.toAnswer.filter (· != core) }
        (d1.toAnswer ≠ [] ∨ d.toEmpty ≠ [] → exec (.shootdownAnswer dg core) s = .next { s with downgrades := Tbl.put s.downgrades dg d1 }) ∧
        (d1.toAnswer = [] → d.toEmpty = [] → exec (.shootdownAnswer dg core) s = .next
          (let u := recallPhase s d1
           { u with downgrades := Tbl.put u.downgrades dg { d1 with closed := true } })))) ∧
    (d.toEmpty = [] → d.toAnswer = [] → d.closed = true →
      let goes := fun (x : Slice) => match x.park with
        | .after (.shootdown k) w => if k = dg then { x with park := .after (.clock 0) w } else x
        | _ => x
      let ends := fun (u : State) => exec (.downgradeClose dg) s = .next
        { u with downgrades := Tbl.del u.downgrades dg, slices := u.slices.map fun e => (e.1, goes e.2) }
      (∀ l, d.leaf = some l → d.mig = none → ends (tlbDrop (updLeaves s d.ctx d.va fun _ => l) d.ctx d.va d.size)) ∧
      (∀ m, d.mig = some m → ends { s with migs := Tbl.upd s.migs m fun g => { g with phase := .copying } }) ∧
      (d.leaf = none → d.mig = none → ends s))

/-- R69 to R77: the events of procedural blocks. A read finds the block FILLED and is served, FAILED and takes GENFAULT, FILLING and joins its waiters
or meets a cycle, UNFILLED and starts a fill or is too deep; a full waiter list or no frame makes it try again later; a read or a prefetch of a block
at a vacant index waits. PGDONE at the home, while the context runs, fills the block and sends the waiters again; a generator that fails leaves the
block FAILED with a record, that of the failed block which it read where that is why. -/
def Obligations.ProceduralEvents : Prop :=
  ∀ s : State,
    (∀ k q, Tbl.find s.fillReqs k = some q → vacantAt s q.va = true →
      let waits := parkVacant s (.fill k) (corePkg (askerCore s q.who)) q.va
      (q.pref = false → q.sent = true → exec (.procBlockRead k) s = .next waits) ∧ (q.pref = true → exec (.procPrefEvent k) s = .next waits)) ∧
    (∀ k q slot r b, Tbl.find s.fillReqs k = some q → vacantAt s q.va = false → q.pref = false → q.sent = true → isProc s q.ctx q.va = true →
      blockOf (s.ctx q.ctx) q.va = some (slot, r, b) →
      let x := (s.ctx q.ctx).block b
      let u : State := { s with fillReqs := Tbl.del s.fillReqs k }
      let goes := fun (t : State) => exec (.procBlockRead k) s = .next t
      (x.st = .filled → ∀ i, q.who = .slice i → goes (({ (setBlock s q.ctx b { x with
          age := (s.pkg (vaPkg b)).clock, pins := x.pins.filter (· != k) }) with fillReqs := Tbl.del s.fillReqs k } : State).updSl i
        fun y => { y with answers := y.answers ++ [.filled b r.bsz q.pin] })) ∧
      (x.st = .failed → ∀ i, q.who = .slice i → goes (u.updSl i fun y => { y with answers := y.answers ++ [.failed b r.bsz 0x0D x.frec] })) ∧
      (x.st = .filling → x.crew ≠ some (askerLaunch s q.who) →
        (b ∈ q.chain → ∀ i, q.who = .slice i → goes (u.updSl i fun y => { y with answers := y.answers ++ [.failed b r.bsz 0x0F 0] })) ∧
        (b ∉ q.chain → x.waiters.length < 64 →
          goes (statAdd (listWaiter (setBlock s q.ctx b { x with waiters := x.waiters ++ [k] }) k) q.ctx r.desc 36 1)) ∧
        (b ∉ q.chain → 64 ≤ x.waiters.length → goes (fillRetry s k q q.ctx r.desc))) ∧
      (x.st = .unfilled →
        (r.limit < q.depth + 1 → ∀ i, q.who = .slice i → goes (u.updSl i fun y => { y with answers := y.answers ++ [.failed b r.bsz 0x0E 0] })) ∧
        (∀ v, q.depth + 1 ≤ r.limit → fillStart s q.ctx slot b q.depth q.chain q.above r [k] = (.started, v) → goes (listWaiter v k)) ∧
        (∀ v f, q.depth + 1 ≤ r.limit → fillStart s q.ctx slot b q.depth q.chain q.above r [k] = (.failed f, v) →
          goes (answerFill v k (.failed b r.bsz 0x0D f))) ∧
        (∀ v, q.depth + 1 ≤ r.limit → fillStart s q.ctx slot b q.depth q.chain q.above r [k] = (.retry, v) → goes (fillRetry v k q q.ctx r.desc)))) ∧
    (∀ k q slot r b, Tbl.find s.fillReqs k = some q → vacantAt s q.va = false → q.pref = true → isProc s q.ctx q.va = true →
      blockOf (s.ctx q.ctx) q.va = some (slot, r, b) →
      let u : State := { s with fillReqs := Tbl.del s.fillReqs k }
      exec (.procPrefEvent k) s = .next (if ((s.ctx q.ctx).block b).st = .unfilled then (fillStart u q.ctx slot b 0 [] [] r []).2 else u)) ∧
    (∀ k q t n, Tbl.find s.fillReqs k = some q → q.retry = some (t, n) → t ≠ 0 →
      exec (.procRetryReissue k) s = .next (if t ≤ (s.pkg (corePkg (askerCore s q.who))).clock then
        injectControl { s with fillReqs := Tbl.put s.fillReqs k { q with retry := some (0, n) } } (askerCore s q.who) q.va else s)) ∧
    (∀ tw lid l cl f fs v, (s.tower tw).genQueue.find? (fun k => ((Tbl.find s.launches k).map fun l => ctxRuns s l.ctx).getD false) = some lid →
      Tbl.find s.launches lid = some l →
      (List.range 8).filterMap (fun k => (fitSpan s l.lrec (8 * tw + k)).map fun f => (8 * tw + k, f)) = (cl, f) :: fs →
      tryPlace s lid l 0 cl f = (v, true) →
      exec (.generatorLaunch tw) s = .next (v.updTower tw fun t => { t with
        genQueue := t.genQueue.filter (· != lid), reserved := t.reserved.filter fun e => e.1 != lid })) ∧
    (∀ i w g x, ctxRuns s (s.ctxOf i) = true → (s.sl i).park = .after .tower w → ownFilling s (s.sl i).crew = some (g, x) →
      exec (.fillDoneAtHome i) s = .next ((x.waiters.foldl unlistWaiter (closeWindow (setBlock s (s.ctxOf i) g.block { x with
          st := .filled, age := (s.pkg (vaPkg g.block)).clock, pins := x.waiters, waiters := [] }) (s.sl i).crew)).updSl i
        fun y => { y with park := .after (.clock 0) w })) ∧
    (∀ i w g, ctxRuns s (s.ctxOf i) = true → (s.sl i).park = .after .tower w → (s.crewOf i).gen = some g → ownFilling s (s.sl i).crew = none →
      exec (.fillDoneAtHome i) s = .next (s.updSl i fun y => { y with park := .after (.clock 0) w })) ∧
    (∀ i, ctxRuns s (s.ctxOf i) = false → exec (.fillDoneAtHome i) s = .next s) ∧
    (∀ k, ctxRuns s (s.crew k).ctx = false → exec (.generatorFailure k) s = .next s) ∧
    (∀ k g, (s.crew k).gen = some g → (s.crew k).ended = false → ctxRuns s (s.crew k).ctx = true →
      (∀ t, genTrap s k = some t →
        let met := (t.info.setWidth 32).setWidth 64
        exec (.generatorFailure k) s = .next (failGenerator s k
          (if (t.code = 0x0D ∨ t.code = 0x15 ∧ t.defer = true) ∧ met ≠ 0 then met else failRecord t.code g.depth g.slot 0))) ∧
      (genTrap s k = none → crewOver s k = true → (ownFilling s k).isSome = true →
        exec (.generatorFailure k) s = .next (failGenerator s k (failRecord 0xFE g.depth g.slot 0))))

/-- R78 to R88, R367: the networks' events. A free output is granted to a head packet, the saturated first, then the higher class, then the longer
wait, then in turn after the last winner; the packet moves on and keeps the output busy for two clocks a flit, and is marked where the next queue
holds 12 flits or more; a packet that has waited long enough is saturated; a reply gives its window units back, a marked one halves the window, not
below 8 and not twice within 128 clocks; every 64th unmarked one raises it, not above 256; a cluster's write-back that waits enters when its queue has
room, a core's request when it has room too, one of class 3 past the others; a packet crosses the link of its towers, or in rotation one of the links
of its packages, as a request and again as a reply; a link fails and returns at both ends. The model's choices are in log 51: one order over a core's
lanes with class 3 past the others, the last winner before a first grant, the input numbers of links and buses, and when a waiting counter starts. -/
def Obligations.NetworkEvents : Prop :=
  ∀ s : State,
    (∀ (reply : Bool) tower stage router out k p,
      let now := (s.pkg (tower / 8)).clock
      let key := if stage < 2 then outKey reply tower stage router out
        else if stage = 2 then (if reply then portKey tower (8 * router + out) else busKey tower (8 * router + out))
        else unitKey tower out
      stage < 3 ∨ (stage = 3 ∧ reply = false) → (outAt s key).busy ≤ now → s.packets.Pairwise (fun a b => a.1 < b.1) →
      winner s key now = some (k, p) →
      ∃ t, exec (.routerGrant reply tower stage router out) s = .next t ∧ t.slices = s.slices ∧ t.mem = s.mem ∧
        Tbl.find t.routers key = some ⟨p.qnum, now + p.holds key⟩ ∧
        (p.arrived = true → Tbl.find t.packets k = none) ∧
        (p.arrived = false → ∃ q, Tbl.find t.packets k = some q ∧
          q.mark = (p.mark || (p.stage == 0 && decide (12 ≤ queueFlits s (p.hop 0)))) ∧
          (s.pkg (q.at_ / 8)).clock + p.holds key ≤ q.headAt ∧
          (p.stage = 0 → q.stage = 1 ∧ q.reply = p.reply ∧ q.flits = p.flits) ∧
          (p.stage = 1 → q.stage = 2 ∧ q.reply = p.reply ∧ q.flits = p.flits) ∧
          (p.stage = 2 → p.reply = false → p.link = none → p.dest = 0 → q.stage = 0 ∧ q.reply = true ∧ q.flits = p.back) ∧
          (p.stage = 2 → p.reply = false → p.link = none → p.dest ≠ 0 → q.stage = 5 ∧ q.reply = false ∧ q.flits = p.flits) ∧
          (p.stage = 4 → p.reply = false → q.stage = 4 ∧ q.reply = true ∧ q.flits = p.back ∧ q.base = p.age now) ∧
          (p.stage = 5 → p.reply = false → q.stage = 0 ∧ q.reply = true ∧ q.flits = p.back) ∧
          (p.stage = 5 → p.reply = true → q.stage = 0 ∧ q.reply = true ∧ q.flits = p.flits))) ∧
    (∀ key now a b, outHeads s key now = [a, b] →
      let age := fun (e : Nat × Pkt) => min 255 (e.2.base + (now - e.2.headAt) / 2)
      let turn := fun (e : Nat × Pkt) => (e.2.qnum + 2 * e.2.inputs - 1 - (outAt s key).last) % e.2.inputs
      let old := fun (e : Nat × Pkt) => e.2.sat = true ∨ age e = 255
      let wins := fun (e : Nat × Pkt) => winner s key now = some e
      (old a → ¬ old b → wins a) ∧ (old b → ¬ old a → wins b) ∧ (old a → old b → wins (if turn b < turn a then b else a)) ∧
      (¬ old a → ¬ old b →
        (a.2.cls < b.2.cls → wins b) ∧ (b.2.cls < a.2.cls → wins a) ∧
        (a.2.cls = b.2.cls → wins (if age a < age b ∨ (age a = age b ∧ turn b < turn a) then b else a)))) ∧
    (∀ k p, Tbl.find s.packets k = some p → exec (.ageingSaturate k) s = .next
      (if atHead s p = true ∧ 255 ≤ p.base + ((s.pkg (p.at_ / 8)).clock - p.headAt) / 2 then { s with packets := Tbl.put s.packets k { p with sat := true } }
        else s)) ∧
    (∀ k p, Tbl.find s.packets k = some p → p.reply = true → p.stage = 2 →
      let c0 := s.core p.core
      let c := if 64 ≤ c0.unmarked then { c0 with unmarked := c0.unmarked - 64, window := min 256 (c0.window + 1) } else c0
      let now := (s.pkg (p.tower / 8)).clock
      let u : State := { s with packets := Tbl.del s.packets k }
      exec (.replyArrival k) s = .next (u.setCore p.core (
        if p.mark then
          if ∃ t, c.lastHalf = some t ∧ now < t + 128 then { c with inUse := c.inUse - p.units }
          else { c with inUse := c.inUse - p.units, window := max 8 (c.window / 2), lastHalf := some now, unmarked := 0 }
        else { c with inUse := c.inUse - p.units, unmarked := c.unmarked + 1 }))) ∧
    (∀ core, exec (.windowRaise core) s = .next (s.setCore core (if 64 ≤ (s.core core).unmarked then
      { s.core core with unmarked := (s.core core).unmarked - 64, window := min 256 ((s.core core).window + 1) } else s.core core))) ∧
    (∀ core k p, heldFirst s [] (s.cluster (core / 16)).held = some (k, p) → exec (.windowAdmit core) s = .next (
      (({ s with
          nextId := s.nextId + 1
          packets := Tbl.put s.packets k { p with stage := 0, stamp := s.nextId, headAt := (s.pkg (p.tower / 8)).clock, sat := false } } : State).updCore
        p.core fun c => { c with inUse := c.inUse + p.units }).updCluster (core / 16) fun c => { c with held := c.held.filter (· != k) })) ∧
    (∀ core, heldFirst s [] (s.cluster (core / 16)).held = none →
      let width := fun (c : Core) => if 64 ≤ c.unmarked then min 256 (c.window + 1) else c.window
      let first := fun (ctl : Bool) (k : Nat) (p : Pkt) =>
        ((s.core core).held.filter fun j => ((Tbl.find s.packets j).map fun q => (q.cls == 3) == ctl).getD false).head? = some k ∧
        Tbl.find s.packets k = some p ∧ (p.units = 0 ∨ (s.core p.core).inUse + p.units ≤ width (s.core p.core)) ∧
        queueFlits s { p with stage := 0 } + p.flits ≤ 16
      ((∀ ctl k p, ¬ first ctl k p) → exec (.windowAdmit core) s = .next s) ∧
      (∀ ctl k p, first ctl k p → (ctl = false → ∀ j q, ¬ first true j q) →
        exec (.windowAdmit core) s = .next (
          (({ s with
              nextId := s.nextId + 1
              packets := Tbl.put s.packets k { p with stage := 0, stamp := s.nextId, headAt := (s.pkg (p.tower / 8)).clock, sat := false } } : State).updCore
            p.core fun c => { c with inUse := c.inUse + p.units }).updCore core fun c => { c with held := c.held.filter (· != k) }))) ∧
    (∀ k p t, Tbl.find s.packets k = some p → p.link = some t → (p.stage = 2 ∧ p.reply = false) ∨ (p.stage = 4 ∧ p.reply = true) →
      let now := (s.pkg (p.at_ / 8)).clock
      let a := if p.reply then t else p.tower
      let b := if p.reply then p.tower else t
      let key := linkKey a b
      let gone := fun (u : State) => ∃ q, exec (.towerLinkForward k) s = .next u ∧ u.slices = s.slices ∧ u.mem = s.mem ∧
          Tbl.find u.packets k = some q ∧ q.reply = p.reply ∧ q.flits = p.flits ∧ q.cls = p.cls ∧ q.mark = p.mark ∧
          q.base = p.age now ∧ q.stage = (if p.reply then 5 else 4)
      (winner s key now = some (k, p) → s.packets.Pairwise (fun a b => a.1 < b.1) →
        (a / 8 = b / 8 → (outAt s key).busy ≤ now → ∃ u, gone u ∧ Tbl.find u.routers key = some ⟨p.qnum, now + p.holds key⟩) ∧
        (∀ l, a / 8 ≠ b / 8 → nextLink (s.pkg (a / 8)) (b / 8) = some l → (outAt s (causeKey (a / 8) l)).busy ≤ now →
          ∃ u, gone u ∧ Tbl.find u.routers (causeKey (a / 8) l) = some ⟨0, now + p.holds key⟩ ∧
            Tbl.find (u.pkg (a / 8)).turn (b / 8) = some l)) ∧
      (a / 8 ≠ b / 8 → nextLink (s.pkg (a / 8)) (b / 8) = none → exec (.towerLinkForward k) s = .next s)) ∧
    (∀ (p : Pkg) peer l, nextLink p peer = some l → (l, peer) ∈ p.links ∧ l ∉ p.linkDown ∧
      ∀ last, Tbl.find p.turn peer = some last → ∀ m ∈ pairLinks p peer, last < m → last < l) ∧
    (∀ pkg link,
      let down := fun (l : Nat) (p : Pkg) =>
        if (Tbl.find p.links l).isSome = true ∧ l ∉ p.linkDown then { p with linkDown := p.linkDown ++ [l] } else p
      let up := fun (l : Nat) (p : Pkg) => { p with linkDown := p.linkDown.filter (· != l) }
      (linkMate s pkg link = none → exec (.linkFailure pkg link) s = .next (s.updPkg pkg (down link)) ∧
        exec (.linkRetrained pkg link) s = .next (s.updPkg pkg (up link))) ∧
      (∀ peer l, linkMate s pkg link = some (peer, l) →
        exec (.linkFailure pkg link) s = .next ((s.updPkg pkg (down link)).updPkg peer (down l)) ∧
        exec (.linkRetrained pkg link) s = .next ((s.updPkg pkg (up link)).updPkg peer (up l))))

/-- R92, R139, R140, R142, R157, R239, R240, R308, R362: the events of issue. A free slot goes to the unit that arbitration picks, and the choice ends
every YIELD at the slot; a unit that has waited more than 256 clocks is raised; a run ends at its 24th instruction; a sleep ends, but for a slice that
has a deferred trap to take; a wake word replaces the pending one; a context register holds its new value at every core; ways taken for scratch are
free of lines, and what the tiles gained held is lost, their owners and kinds as they are (the model's choice, log 87). A package's clock never goes
back. How the model keeps R149's bound is its own (logs 49, 52): time stands at the clock at which a ready slice is due to be raised, and while a
raised one waits, no clock passes but those of the instruction in its slot. -/
def Obligations.IssueEvents : Prop :=
  ∀ s : State,
    (∀ core slot,
      let t := slotAt (s.core core) slot
      let cs := (t.units.flatMap (readyUnits s)).map (contender s (s.pkg (corePkg core)).clock)
      t.holder = [] → slot < (s.core core).slots.length →
      (pickRun (inTurn (t.units.flatMap id) t.last cs) = none → exec (.runArbitration core slot) s = .next s) ∧
      (∀ w, pickRun (inTurn (t.units.flatMap id) t.last cs) = some w →
        ∃ u, exec (.runArbitration core slot) s = .next u ∧
          slotAt (u.core core) slot = { t with holder := w.ids, len := 0, last := w.ids.headD 0 } ∧
          (∀ k, k ≠ slot → slotAt (u.core core) k = slotAt (s.core core) k) ∧ (∀ k, k ≠ core → u.core k = s.core k) ∧
          (∀ j ∈ w.ids, u.sl j = { s.sl j with hold := false, since := none, raised := false }) ∧
          (∀ j ∈ t.units.flatMap id, j ∉ w.ids → u.sl j = { s.sl j with hold := false }) ∧
          { u with slices := s.slices, cores := s.cores } = s)) ∧
    (∀ core slot j t0, s.coreOf j = core → canIssue s j = true → (s.sl j).since = some t0 → t0 + 256 < (s.pkg (corePkg core)).clock →
      exec (.unitWaitRaised core slot j) s = .next (s.setSl j { s.sl j with raised := true })) ∧
    (∀ core slot, 24 ≤ (slotAt (s.core core) slot).len →
      exec (.runLengthCut core slot) s = .next (s.setCore core { s.core core with
        slots := ((s.core core).slots.zipIdx).map fun e => if e.2 = slot then { e.1 with holder := [], len := 0 } else e.1 })) ∧
    (∀ j t0 w, (s.sl j).park = .after (.clock t0) w →
      exec (.sleepExpire j) s = .next (if t0 ≤ s.clockOf j ∧ mustDeliver (s.sl j) = false then
        s.setSl j { s.sl j with park := if w then .after .results true else .run } else s)) ∧
    (∀ core word, exec (.wakeWord core word) s = .next (s.setCore core { s.core core with wake := some word })) ∧
    (∀ ctx ix v w, s.hasCtx ctx = true → (s.ctx ctx).pendReg = [(ix, v, w)] →
      let c := { s.ctx ctx with pendReg := [] }
      exec (.contextRegisterPropagated ctx ix) s = .next (s.setCtx ctx (
        if ix = 0x30 then { c with trapvec := v }
        else if ix < 0x50 then { c with f := Tbl.put c.f (ix - 0x40) (v.setWidth 32) }
        else { c with g := Tbl.put c.g (ix - 0x50) (v.setWidth 32) }))) ∧
    (∀ cl code w, (s.cluster cl).raising = some (code, w) →
      ∃ t, exec (.l2wpRaiseDone cl) s = .next t ∧ (t.cluster cl).raising = none ∧
        (t.cluster cl).ways = (if (s.cluster cl).lower then min code (floorCode s cl 0) else code) ∧
        ((∀ e ∈ s.l2, e.1 / 2 ^ 57 ≠ cl) → (s.cluster cl).lower = false →
          t = (dropScratch s cl (256 * waysOf (s.cluster cl).ways)).setCluster cl { s.cluster cl with ways := code, raising := none, lower := false })) ∧
    (∀ cl, (s.cluster cl).raising = none → exec (.l2wpRaiseDone cl) s = .next s) ∧
    (∀ pkg n i x t0, (i, x) ∈ (markWaits s pkg).slices → corePkg ((markWaits s pkg).coreOf i) = pkg → x.since = some t0 → x.raised = false →
      ((tick s pkg n).pkg pkg).clock ≤ max (s.pkg pkg).clock (t0 + 257)) ∧
    (∀ pkg n core c t i, (core, c) ∈ s.cores → corePkg core = pkg → t ∈ c.slots → i ∈ t.units.flatMap id → i ∉ t.holder →
      ((markWaits s pkg).sl i).raised = true → canIssue (markWaits s pkg) i = true →
      ((tick s pkg n).pkg pkg).clock ≤ max (s.pkg pkg).clock t.freeAt) ∧
    (∀ pkg n, (s.pkg pkg).clock ≤ ((tick s pkg n).pkg pkg).clock ∧ ((tick s pkg n).pkg pkg).clock ≤ (s.pkg pkg).clock + n ∧
      (tick s pkg n).mem = s.mem)

/-- R231 to R235, R237 to R239, R307, R229: the scheduler. A launch is ready once its predecessors are done and none failed; a tower draws up to 8
consecutive spans and deals them to its clusters; the first span in order that fits starts; a crew's units are bound to its core's slots; the nearest
cluster is kept for the first that fits none; crew 0 of a span starts, and crew c follows c times STAG clocks later; a cluster with room takes half of
another's unstarted spans; a step boundary comes when every live slice stands at its STEP; a crew whose slices have exited and whose queues are empty
ends; a launch with nothing left is done, its handle word says so, and failed with a predecessor or its context. What the rules leave open is the
model's choice: where the scratch of a span stands (log 37), the tower's next cluster to deal to, what a reservation keeps and which spans a steal
takes (log 48), the towers that a boundary adds and gives up (log 47), and when a handle word is written, a dead context's among them (log 35). -/
def Obligations.SchedulerEvents : Prop :=
  ∀ s : State,
    (∀ k l, Tbl.find s.launches k = some l →
      (l.ready = true ∨ l.failed = true ∨ l.gen ≠ none → exec (.launchReady k) s = .next s) ∧
      (l.ready = false → l.failed = false → l.gen = none →
        ((∀ w ∈ predWords s l, hwDone w = true ∧ hwFail w = false) →
          exec (.launchReady k) s = .next ((readPreds s l).updLaunch k fun l => { l with ready := true })) ∧
        ((∃ w ∈ predWords s l, hwDone w = false ∨ hwFail w = true) → exec (.launchReady k) s = .next (readPreds s l)))) ∧
    (∀ k tw l, Tbl.find s.launches k = some l → launchRuns s l = true → tw ∈ l.towers → towerWaiting l tw = [] → l.back = [] →
      l.drawn < l.lrec.nspans →
      ∃ t m, exec (.towerBlockDraw k tw) s = .next t ∧ { t with launches := s.launches, towers := s.towers } = s ∧
        Tbl.find t.launches k = some m ∧ m.drawn = min (l.drawn + 8) l.lrec.nspans ∧
        (t.tower tw).dealt = ((s.tower tw).dealt + min 8 (l.lrec.nspans - l.drawn)) % 8 ∧
        ∀ n, n < min 8 (l.lrec.nspans - l.drawn) →
          (l.drawn + n) ∈ waitingIn m (8 * tw + ((s.tower tw).dealt + 1 + n) % 8)) ∧
    (∀ tw c f v, (s.tower tw).genQueue = [] → (s.tower tw).reserved = [] → candidates s tw = [c] → fitSpan s c.l.lrec c.cl = some f →
      c.cl / 8 = tw → tryPlace s c.lid c.l c.ix c.cl f = (v, true) → exec (.spanStart tw) s = .next (spanStarted v tw c)) ∧
    (∀ tw c v f, (s.tower tw).genQueue = [] → (s.tower tw).reserved = [] → candidates s tw = [c] → fitSpan s c.l.lrec c.cl = some f →
      c.cl / 8 = tw → tryPlace s c.lid c.l c.ix c.cl f = (v, false) → exec (.spanStart tw) s = .next v) ∧
    (∀ tw c, (s.tower tw).genQueue = [] → (s.tower tw).reserved = [] → candidates s tw = [c] →
      (∀ k, k < 8 → fitSpan s c.l.lrec (8 * tw + k) = none) →
      exec (.spanStart tw) s = .next ((moveSpan s c.lid c.ix c.cl (nearest s c.l.lrec tw)).updTower tw fun t =>
        { t with reserved := [(c.lid, c.ix, nearest s c.l.lrec tw)] })) ∧
    (∀ k, (s.crew k).started = false → (s.crew k).ended = false → ctxRuns s (s.crew k).ctx = true →
      (s.crew k).startAt ≤ (s.pkg (corePkg (s.crew k).core)).clock →
      ((s.crew k).ix ≠ 0 → crewDue s k = false → exec (.crewStart k) s = .next s) ∧
      ((s.crew k).ix = 0 ∨ crewDue s k = true →
      ∃ t, exec (.crewStart k) s = .next t ∧ t.crew k = { s.crew k with started := true } ∧ t.mem = s.mem ∧
        ((s.crew k).ix = 0 → ∀ j ∈ (s.span (s.crew k).span).crews, j ≠ k → (t.crew j).startAt =
          (s.pkg (corePkg (s.crew k).core)).clock + (s.crew j).ix * ((Tbl.find s.launches (s.crew k).launch).map fun l => l.lrec.stag).getD 0) ∧
        (∀ i, (∃ x, Tbl.find s.slices i = some x ∧ x.crew = k) →
          t.sl i = { s.sl i with since := some (s.pkg (corePkg (s.crew k).core)).clock }) ∧
        (∀ i, (s.sl i).crew ≠ k → t.sl i = s.sl i))) ∧
    (∀ k cl l, Tbl.find s.launches k = some l → launchRuns s l = true → cl / 8 ∈ l.towers → waitingIn l cl = [] →
      (fitSpan s l.lrec cl).isSome = true →
      let v := ([1, 2, 3, 4, 5, 6, 7].map (8 * (cl / 8) + ·)).foldl
        (fun b c => if (waitingIn l b).length < (waitingIn l c).length then c else b) (8 * (cl / 8))
      let free := (waitingIn l v).filter fun ix => !((s.tower (cl / 8)).reserved.any fun e => e.1 == k && e.2.1 == ix)
      exec (.stealRequest k cl) s = .next ((highest (((waitingIn l v).length + 1) / 2) free).foldl (fun u ix => moveSpan u k ix v cl) s)) ∧
    (∀ k l, Tbl.find s.launches k = some l →
      ((∃ i ∈ launchSlices s k, (s.sl i).stepIn = false ∨ (s.sl i).steps ≠ l.steps) → exec (.stepBoundary k) s = .next s) ∧
      (∀ g, l.gen = some g → launchSlices s k ≠ [] → (∀ i ∈ launchSlices s k, (s.sl i).stepIn = true ∧ (s.sl i).steps = l.steps) →
        (∀ i ∈ launchSlices s k, (s.pkg (corePkg (s.coreOf i))).leaving = false) →
        exec (.stepBoundary k) s = .next { s with launches := Tbl.put s.launches k { l with steps := l.steps + 1, towers := sortTowers l.towers } }) ∧
      (l.gen = none → launchSlices s k ≠ [] → (∀ i ∈ launchSlices s k, (s.sl i).stepIn = true ∧ (s.sl i).steps = l.steps) →
        (∀ i ∈ launchSlices s k, (s.pkg (corePkg (s.coreOf i))).leaving = false) →
        ∃ t m, exec (.stepBoundary k) s = .next t ∧ Tbl.find t.launches k = some m ∧ m.steps = l.steps + 1)) ∧
    (∀ k, crewOver s k = true → ownFilling s k = none → exec (.crewEnd k) s = .next (endCrew s k)) ∧
    (∀ k, crewOver s k = false → exec (.crewEnd k) s = .next s) ∧
    (∀ k l, Tbl.find s.launches k = some l → l.done = false → l.gen = none →
      let ends := fun (u : State) (fail : Bool) =>
        let u1 := u.updLaunch k fun l => { l with done := true, failed := l.failed || fail, waiting := [], back := [], drawn := l.lrec.nspans }
        let u2 := u1.updTower l.tower fun t => { t with pending := t.pending.filter (· != k) }
        let u3 : State := { u2 with towers := u2.towers.map fun e => (e.1, { e.2 with reserved := e.2.reserved.filter fun r => r.1 != k }) }
        match l.hw with
        | some va => putHome u3 l.ctx va.toNat 8 (l.lid.toNat + 2 ^ 32 + 2 ^ 33 + if fail then 2 ^ 34 else 0)
        | none => u3
      (l.spans ≠ [] ∨ launchQuiet s k = false → exec (.launchComplete k) s = .next s) ∧
      (l.spans = [] → launchQuiet s k = true →
        (l.failed = true → exec (.launchComplete k) s = .next (ends s true)) ∧
        (l.failed = false → l.ready = false → (∃ w ∈ predWords s l, hwFail w = true) →
          exec (.launchComplete k) s = .next (ends (readPreds s l) true)) ∧
        (l.failed = false → l.ready = true → l.allStarted = true → exec (.launchComplete k) s = .next (ends s false))))

/-- R246 to R250: stopping. The stop request comes D before the time slice's end; the context is saved when its agents have stopped, with its overrun;
one that can never run again loses its generators and crews instead; at 2D past the request it is reset by force, never saved: dead, what its mapped
tiles held discarded, its launches failed, its generators' blocks FAILED with ROOT 0xFF, its crews ended, an entry in the log. Whose clock a context
of several packages is measured on (log 13), the overrun of an open time slice, when a dead context's crews end and the fields of the record (log 46),
and that a forced reset answers the CTXSTOP that waits (log 39) are the model's choices. -/
def Obligations.StopEvents : Prop :=
  ∀ (s : State) (ctx : Nat), s.hasCtx ctx = true →
    let c := s.ctx ctx
    let now := (s.pkg 0).clock
    let D := c.drain * (100 * (s.pkg 0).clk100)
    (c.st = .running → (c.slice = .open_ ∨ ∃ t, c.slice = .until_ t ∧ t ≤ now + D) →
      ∃ t, exec (.stopRequest ctx) s = .next t ∧ t.ctx ctx = { c with st := .stopping, stopAt := some now, forced := false } ∧
        (∀ i t0 w, (Tbl.find s.slices i).isSome = true → s.ctxOf i = ctx → (s.sl i).park = .after (.clock t0) w →
          (t.sl i).park = .after (.clock 0) w) ∧
        (∀ i, s.ctxOf i ≠ ctx → t.sl i = s.sl i)) ∧
    ((c.slice = .endless ∨ c.st ≠ .running ∨ ∃ t, c.slice = .until_ t ∧ now + D < t) → exec (.stopRequest ctx) s = .next s) ∧
    (ctxQuiet s ctx = false ∨ (c.st = .stopping ∧ ∃ t0, c.stopAt = some t0 ∧ t0 + 2 * D ≤ now) →
      exec (.contextStopped ctx) s = .next s) ∧
    (ctxQuiet s ctx = true → c.st = .stopping → (∀ t0, c.stopAt = some t0 → now < t0 + 2 * D) → exec (.contextStopped ctx) s = .next ((saveCtx s ctx).updCtx ctx fun d =>
      { d with
        st := .stopped
        overrun := match c.slice with | .until_ t => now - t | _ => now - (c.stopAt.getD 0 + D)
        stopAt := none })) ∧
    (ctxQuiet s ctx = true → c.st = .dead →
      let u := (c.blocks.map Prod.fst).foldl (fun u b => failQueued c.cause u ctx b) s
      exec (.contextStopped ctx) s = .next ((ctxCrews u ctx).foldl endCrew (saveCtx u ctx))) ∧
    (∀ t0, c.st = .stopping → c.stopAt = some t0 → now < t0 + 2 * D → exec (.forceReset ctx) s = .next s) ∧
    (∀ t0, c.st = .stopping → c.stopAt = some t0 → t0 + 2 * D ≤ now →
      let u1 := (stopContext s ctx 0xFF).updCtx ctx fun d => { d with forced := true }
      let u2 := (ctxCrews u1 ctx).foldl (fun u k => u.updCrew k fun w =>
        { w with tags := w.tags.map fun t => (t.1, { t.2 with sv := 0, sd := 0 }) }) u1
      let u3 := ((u2.ctx ctx).blocks.map Prod.fst).foldl (fun u b => failQueued 0xFF u ctx b) u2
      exec (.forceReset ctx) s = .next (((ctxCrews u3 ctx).foldl endCrew u3).log "force reset" [ctx, now])) ∧
    (∀ t0, c.st = .stopping → c.stopAt = some t0 → t0 + 2 * D ≤ now → c.blocks = [] → ctxCrews s ctx = [] →
      exec (.forceReset ctx) s = .next { s.setCtx ctx { c with st := .dead, cause := 0xFF, stopAt := some now, forced := true } with
        launches := s.launches.map fun e => (e.1, if e.2.ctx = ctx ∧ ¬ e.2.done then { e.2 with failed := true } else e.2)
        osLog := s.osLog ++ [⟨"force reset", [ctx, now]⟩] })

/-- R365, R369 to R373: the outside world. A host access within its window parks where an index is vacant and waits while a page of it closes; else it
is performed, or it is logged, a read answered with poison, and has no other effect. Device time is set within 25 ns of every other package, and
stored into the time page. A present queue's entry is decided at its check time or skipped, sent at its deadline, and written back with when it was
shown; an entry missed in a vacancy sends its fallback at once. A package leaves: its contexts stop when their launches have stepped, its index is
vacant once nothing runs there and nothing is on its way there; a replacement takes it; a request that has waited a second of device time at a vacant
index fails with its right's cause. The model's own: an access of at most 8 bytes in one event (log 59), the kinds and fields of log records and the
order of an entry's checks (log 54), what happens at once when a package leaves or is replaced (log 55), and that requests other than clearance fail
as these do (log 90). -/
def Obligations.OutsideEvents : Prop :=
  ∀ s : State,
    (∀ pkg win off n write (data : DWord) w, Tbl.find (s.pkg pkg).windows win = some w → 1 ≤ n → n ≤ 8 → off + n ≤ w.size →
      let va := w.va + off
      let gs := pagesOf (va, n)
      let r := if write then Right.write else .read
      let refused := (write = true ∧ w.wr = false) ∨ hostRefused s w.ctx va n r = true
      let done := fun (u : State) (poison : Bool) (v : DWord) => if write then u else u.setPkg pkg { u.pkg pkg with hostRead := some (poison, v) }
      ((∃ g ∈ gs, (s.pkg (vaPkg g)).vacant = true) → exec (.hostWindowAccess pkg win off n write data) s = .next { s with
        nextId := s.nextId + 1
        vacantReqs := Tbl.put s.vacantReqs s.nextId ⟨.host pkg win off n write data.toNat, pkg, vaPkg va, (s.pkg pkg).devTime.toNat⟩ }) ∧
      ((∀ g ∈ gs, (s.pkg (vaPkg g)).vacant = false) →
        ((∃ g ∈ gs, closingFor s w.ctx g r = true) → exec (.hostWindowAccess pkg win off n write data) s = .next s) ∧
        ((∀ g ∈ gs, closingFor s w.ctx g r = false) →
          (refused → exec (.hostWindowAccess pkg win off n write data) s = .next (done { s with
            osLog := s.osLog ++ [⟨"host", [w.ctx, va, if write then 1 else 0]⟩] } true 0)) ∧
          (¬ refused → exec (.hostWindowAccess pkg win off n write data) s = .next (
            let u := gs.foldl (fun u g => setAD u w.ctx g (ownerAnswer u w.ctx g r none)) s
            let poison := (anyPoison s w.ctx va n).isSome
            done ((sectorParts va n).foldl (fun u e =>
                let place : Place := if ioWalk (walk u w.ctx e.1) then .frame else .home
                if write then writeLoc u place 0 w.ctx e.1 (((natBytes n data.toNat).drop (e.1 - va)).take e.2) 0
                else cacheRead u place 0 w.ctx e.1 0) u)
              poison (if poison then 0 else BitVec.ofNat 64 (curLE s w.ctx va n))))))) ∧
    (∀ pkg (time : DWord), (Tbl.find s.pkgs pkg).isSome = true →
      ((∀ e ∈ s.pkgs, e.1 = pkg ∨ (time.toNat ≤ e.2.devTime.toNat + 25 ∧ e.2.devTime.toNat ≤ time.toNat + 25)) →
        exec (.ptpMessage pkg time) s = .next (s.setPkg pkg { s.pkg pkg with devTime := time, devFrac := 0 })) ∧
      ((∃ e ∈ s.pkgs, e.1 ≠ pkg ∧ (e.2.devTime.toNat + 25 < time.toNat ∨ time.toNat + 25 < e.2.devTime.toNat)) →
        exec (.ptpMessage pkg time) s = .next s)) ∧
    (∀ pkg, let p := s.pkg pkg
      let k := physKey pkg p.timePage
      (p.timePage ≠ 0 → populated p p.timePage = true →
        exec (.timePageUpdate pkg) s = .next (if physLE s k 8 / 1000 = p.devTime.toNat / 1000 then s else framePut s k p.devTime.toNat)) ∧
      ((p.timePage = 0 ∨ populated p p.timePage = false) → exec (.timePageUpdate pkg) s = .next s)) ∧
    (∀ k q, Tbl.find s.equinox k = some q →
      let v := eqRead s q
      let now := (s.pkg q.pkg).devTime
      let entry := q.va.toNat + 64 + 64 * q.cur
      let set := fun (u : State) (q : EqQueue) => { u with equinox := Tbl.put u.equinox k q }
      let read := readHome s q.ctx entry 64
      let due := eqDeadline v - 1000 * recBits v 281 272
      let missed := q.gapFrom.toNat ≤ due ∧ due < q.gapTo.toNat
      let q1 := eqResume q v
      (q1 = if q.gapTo.toNat ≤ due then { q with gapFrom := 0, gapTo := 0 } else q) ∧
      ((s.pkg q.pkg).vacant = true →
        exec (.equinoxCheck k) s = .next s ∧ exec (.equinoxFrameSend k) s = .next s ∧ exec (.equinoxStatusWrite k) s = .next s) ∧
      ((s.pkg q.pkg).vacant = false →
        (q.chosen = none → now.toNat < due → exec (.equinoxCheck k) s = .next s) ∧
        (q.chosen = none → due ≤ now.toNat →
          (eqValid v = false → exec (.equinoxCheck k) s = .next (
            let u := set read { q1 with chosen := some false, sent := false }
            { u with osLog := u.osLog ++ [⟨"present", [q.ctx, entry, 0]⟩] })) ∧
          (eqValid v = true → 2 ≤ eqStatus v → exec (.equinoxCheck k) s = .next (set read { q1 with cur := (q1.cur + 1) % 64 })) ∧
          (eqValid v = true → eqStatus v = 1 → ¬ missed →
            exec (.equinoxCheck k) s = .next (set read { q1 with chosen := some true, sent := false })) ∧
          (eqValid v = true → (eqStatus v = 0 ∨ (eqStatus v = 1 ∧ missed)) →
            exec (.equinoxCheck k) s = .next (set read { q1 with chosen := some false, sent := false }))) ∧
        (∀ frame, q.chosen = some frame → q.sent = false →
          let fb := recBits v 191 128
          let fr := recBits v 127 64
          (¬ missed → now.toNat < eqDeadline v → exec (.equinoxFrameSend k) s = .next s) ∧
          ((missed ∨ eqDeadline v ≤ now.toNat) →
            (frame = true → eqFaults s q.ctx v fr = false → exec (.equinoxFrameSend k) s = .next (logHoles
              (set ((eqRows v fr).foldl (fun u r => readHome u q.ctx r.1 r.2) read) { q with chosen := some true, sent := true, sentAt := now })
              q.ctx (eqPages v fr))) ∧
            ((frame = false ∨ eqFaults s q.ctx v fr = true) → exec (.equinoxFrameSend k) s = .next (
              let u1 := set read { q with chosen := some false, sent := true, sentAt := now }
              let u2 := if frame then logHoles u1 q.ctx (eqPages v fr) else u1
              let u3 := logHoles u2 q.ctx (eqPages v fb)
              if eqFaults s q.ctx v fb then { u3 with osLog := u3.osLog ++ [⟨"present", [q.ctx, entry, 1]⟩] } else u2)))) ∧
        (∀ shown, q.chosen = some shown → q.sent = true →
          exec (.equinoxStatusWrite k) s = .next (
            let u1 := putHome s q.ctx (entry + 40) 8 q.sentAt.toNat
            let u2 := if shown then u1 else putHome u1 q.ctx q.va.toNat 8 (min (curLE u1 q.ctx q.va.toNat 8 + 1) (2 ^ 64 - 1))
            let u3 := putHome u2 q.ctx (entry + 36) 4 (curLE u2 q.ctx (entry + 36) 4 / 4 * 4 + if shown then 2 else 3)
            { u3 with equinox := Tbl.put u3.equinox k { q with cur := (q.cur + 1) % 64, chosen := none, sent := false } })))) ∧
    (∀ pkg, (Tbl.find s.pkgs pkg).isSome = true → (s.pkg pkg).vacant = false →
      let p := s.pkg pkg
      (p.leaving = false → exec (.packageLeave pkg) s = .next (s.setPkg pkg { p with leaving := true, stepped := [] })) ∧
      (p.leaving = true → ctxsOn s pkg ≠ [] → exec (.packageLeave pkg) s = .next
        ((ctxsOn s pkg).foldl (fun u c => if leaveReady u pkg c then leaveStop u c else u) s)) ∧
      (p.leaving = true → ctxsOn s pkg = [] → sentTo s pkg = true → exec (.packageLeave pkg) s = .next s) ∧
      (p.leaving = true → ctxsOn s pkg = [] → sentTo s pkg = false → exec (.packageLeave pkg) s = .next
        { s.setPkg pkg { p with vacant := true } with
          equinox := s.equinox.map fun e =>
            (e.1, if e.2.pkg = pkg then { e.2 with gapFrom := p.devTime, gapTo := BitVec.allOnes 64 } else e.2) })) ∧
    (∀ pkg, (s.pkg pkg).vacant = true →
      let p := s.pkg pkg
      let u := { s.setPkg pkg { p with vacant := false, leaving := false, stepped := [] } with
        vacantReqs := s.vacantReqs.filter fun e => e.2.index != pkg
        equinox := s.equinox.map fun e => (e.1, if e.2.pkg = pkg then { e.2 with gapTo := p.devTime } else e.2) }
      let u1 := hostDeliver u (s.vacantReqs.filter fun e => e.2.index == pkg)
      exec (.packageReplace pkg) s = .next ((movedCtxs u1 pkg).foldl (fun u c =>
        match ctxGo u c 0 with
        | (some t, _) => t.updCtx c fun x => { x with slice := .open_, moved := false }
        | (none, t) => t) u1) ∧
      ((∀ e ∈ s.vacantReqs, e.2.index = pkg → ∀ p win off n w d, e.2.ask ≠ .host p win off n w d) → movedCtxs u pkg = [] →
        exec (.packageReplace pkg) s = .next u)) ∧
    (∀ k e, Tbl.find s.vacantReqs k = some e →
      let now := (s.pkg e.pkg).devTime.toNat
      let u := { s with vacantReqs := Tbl.del s.vacantReqs k }
      (now < e.since + 1000000000 → exec (.vacantIndexTimeout k) s = .next s) ∧
      (e.since + 1000000000 ≤ now →
        (∀ c q, e.ask = .clr c → Tbl.find s.clrReqs c = some q → exec (.vacantIndexTimeout k) s = .next
          { u with clrReqs := Tbl.put s.clrReqs c { q with ans := some (.refused (q.va / 4096 * 4096) 4096 (protCode q.r)) } }) ∧
        (∀ c q, e.ask = .fill c → Tbl.find s.fillReqs c = some q → exec (.vacantIndexTimeout k) s = .next (
          let t := { u with fillReqs := Tbl.del s.fillReqs c }
          if q.pref then t else giveAnswer t q.who (.failed (q.va / 4096 * 4096) 4096 0x06 0))) ∧
        (∀ c, e.ask = .res c → exec (.vacantIndexTimeout k) s = .next { u with resReqs := Tbl.del s.resReqs c }) ∧
        (∀ i a n acc q, e.ask = .part i a n → Tbl.find (s.sl i).accs a = some acc → acc.pieces[n]? = some q → q.done = false →
          exec (.vacantIndexTimeout k) s = .next (remoteFail u i a n acc q (protCode (if acc.isLoad then .read else .write)) q.va)) ∧
        (∀ p win off n w d wd, e.ask = .host p win off n w d → Tbl.find (s.pkg p).windows win = some wd →
          exec (.vacantIndexTimeout k) s = .next (
            let t := { u with osLog := u.osLog ++ [⟨"host", [wd.ctx, wd.va + off, if w then 1 else 0]⟩] }
            if w then t else t.setPkg p { t.pkg p with hostRead := some (true, 0) })) ∧
        (∀ oc rd rs1 rs2, e.ask = .os oc → decodeOs (osWord s oc) = some (.fyLaunch rd rs1 rs2) → exec (.vacantIndexTimeout k) s = .next (
          let c := osOf s oc
          { u with osCores := Tbl.put s.osCores oc { c.setReg rd (BitVec.ofNat 64 (2 ^ 63 + 0x06)) with pc := c.pc + 4 } })))) ∧
    (∀ pkg win host size ctx va wr, (Tbl.find s.pkgs pkg).isSome = true → s.hasCtx ctx = true → va + size ≤ 2 ^ 56 →
      (win < 64 → size ≠ 0 → size % 2097152 = 0 → outsideAct s (.openWindow pkg win host size ctx va wr) =
        s.setPkg pkg { s.pkg pkg with windows := Tbl.put (s.pkg pkg).windows win ⟨host, size, ctx, va, wr⟩ }) ∧
      ((64 ≤ win ∨ size % 2097152 ≠ 0) → outsideAct s (.openWindow pkg win host size ctx va wr) = s))

/-- R47, R192, R247, R367, R374 to R380: reset, training, power and re-plans. Package reset leaves everything but memory and the model's own fields as
State.reset has it, and boots: from the management port, from the fabric, or not at all, which the port reports; training ends at full service and 3.6
GHz; the power cap steps the clock by 100 MHz; a tower re-plans in an idle window of 100 ms 250 hours after the last, is starved 24 hours later, when
the window opens with its last crew's exit, and its timer starts again; a context is created once firmware has booted, on a page that it may only
read, which takes the capability list; a domain is formed before any context. The model's own: that memory keeps its bytes over a reset, that a
package of a larger domain is reset only while no context exists, and which links a domain gives (log 56); the record's TRAINED of all packages and
least clock, its VERSION, and the store in the event itself (log 57); idle time measured from the last crew seen (log 58); a Keystone record for each
tower, and the areas cleared (logs 53, 63, 42). -/
def Obligations.PackageEvents : Prop :=
  ∀ s : State,
    (∃ p : Pkg, (p.booted = true ↔ p.source ≠ .failed) ∧ p.source ≠ .waiting ∧ p.trained = false ∧ p.clk100 = 18 ∧
      (p.booted = true → p.fwLog ≠ []) ∧ (p.booted = false → p.timePage = 0 ∧ p.fwLog = [] ∧ p.expansion = (0, 0)) ∧
      (s.npkgs = 1 → p.clock = 0 ∧ p.devTime = 0 ∧ exec (.packageReset 0) s = .next { State.reset with
        pkgs := [(0, p)], mem := s.mem, poison := s.poison, schedule := s.schedule, freeIx := s.freeIx, nextId := s.nextId }) ∧
      (∀ pkg, s.npkgs ≠ 1 → (Tbl.find s.pkgs pkg).isSome = true → s.ctxs = [] → exec (.packageReset pkg) s = .next { s with
        pkgs := Tbl.put s.pkgs pkg { p with
          clock := (s.pkg pkg).clock, devTime := (s.pkg pkg).devTime, devFrac := (s.pkg pkg).devFrac, links := (s.pkg pkg).links }
        towers := s.towers.filter fun e => e.1 / 8 != pkg
        clusters := s.clusters.filter fun e => e.1 / 64 != pkg
        cores := s.cores.filter fun e => e.1 / 1024 != pkg
        osCores := s.osCores.filter fun e => osTower e.1 / 8 != pkg })) ∧
    (∀ pkg, s.npkgs ≠ 1 → (s.ctxs ≠ [] ∨ Tbl.find s.pkgs pkg = none) → exec (.packageReset pkg) s = .next s) ∧
    (∀ pkg, (Tbl.find s.pkgs pkg).isSome = true →
      let p := s.pkg pkg
      (p.trained = false → exec (.trainingComplete pkg) s = .next (capUpdate (s.setPkg pkg { p with trained := true, clk100 := 36 }))) ∧
      (p.trained = true → exec (.trainingComplete pkg) s = .next s) ∧
      (p.trained = true → p.clk100 < 36 → exec (.powerCapStep pkg true) s = .next (capUpdate (s.setPkg pkg { p with clk100 := p.clk100 + 1 }))) ∧
      (18 < p.clk100 → exec (.powerCapStep pkg false) s = .next (capUpdate (s.setPkg pkg { p with clk100 := p.clk100 - 1 }))) ∧
      ((p.trained = false ∨ p.clk100 = 36) → exec (.powerCapStep pkg true) s = .next s) ∧
      (p.clk100 = 18 → exec (.powerCapStep pkg false) s = .next s)) ∧
    (serviceData s = (if s.pkgs.all fun e => e.2.trained then 1 else 0) + 2 ^ 8 * minOf (s.pkgs.map fun e => e.2.clk100)) ∧
    (∀ ctx k, s.ctxs.map Prod.fst = [ctx] → capFrame s ctx (s.ctx ctx).capbase.toNat = some k →
      capUpdate s = framePut s (k + 24) (serviceData s)) ∧
    (∀ k, capWrite s k =
      let u1 := physPut s k 8 (16#32 ++ 8#8 ++ Config.recordVersion 1 ++ 1#16).toNat
      let u2 := physPut u1 (k + 8) 8 (0#40 ++ Config.stepping ++ 0xB108#16).toNat
      let u3 := physPut u2 (k + 16) 8 (0#32 ++ 8#8 ++ Config.recordVersion 2 ++ 2#16).toNat
      physPut u3 (k + 24) 8 (serviceData s)) ∧
    (∀ tw,
      let r := (s.tower tw).replan
      let now := (s.pkg (tw / 8)).devTime.toNat
      let set := fun (r : RePlan) => s.setTower tw { s.tower tw with replan := r }
      let idle := ∀ k < 8, clusterFree s (8 * tw + k) = true
      exec (.replanDue tw) s = .next (if r.last + 250 * 3600 * 10 ^ 9 ≤ now then set { r with due := true } else s) ∧
      exec (.replanStarved tw) s = .next
        (if r.due = true ∧ r.active = false ∧ r.last + 274 * 3600 * 10 ^ 9 ≤ now then set { r with starved := true } else s) ∧
      (r.due = true → r.active = false → idle → (r.starved = true ∨ r.busy + 100000000 ≤ now) →
        exec (.replanStart tw) s = .next (set { r with active := true, last := now })) ∧
      ((r.due = false ∨ r.active = true ∨ ¬ idle ∨ (r.starved = false ∧ now < r.busy + 100000000)) → exec (.replanStart tw) s = .next s) ∧
      exec (.replanDone tw) s = .next (if r.active = true then set ⟨now, false, false, false, r.busy⟩ else s)) ∧
    (∀ ctx root mig proc drain ks recs sys (cap : DWord), ctx < 256 → s.hasCtx ctx = false → (s.pkg 0).booted = true → root % 4096 = 0 →
      mig % 8 = 0 → 1 ≤ drain → drain ≤ 1000 →
      let u := (ksSetup s ks recs).setCtx ctx { Ctx.init with
        root := root, sys := sys, migPool := mig, procPool := proc, drain := drain, ksRec := ks, capbase := cap }
      (recs.length = 8 * s.npkgs → (∀ e ∈ recs.zipIdx, ksRecOk e.2 e.1 = true) →
        (∀ k, capFrame u ctx cap.toNat = some k → exec (.contextCreation ctx root mig proc drain (ks, recs) sys cap) s = .next (capWrite u k)) ∧
        (capFrame u ctx cap.toNat = none → exec (.contextCreation ctx root mig proc drain (ks, recs) sys cap) s = .next s)) ∧
      ((∃ e ∈ recs.zipIdx, ksRecOk e.2 e.1 = false) → exec (.contextCreation ctx root mig proc drain (ks, recs) sys cap) s = .next s)) ∧
    (∀ n, 1 ≤ n → n ≤ 32 → s.ctxs = [] → (s.pkg 0).booted = true →
      ∃ t, exec (.domainFormation n) s = .next t ∧ t.npkgs = n ∧ (∀ k, k < n → (Tbl.find t.pkgs k).isSome = true ∧ (t.pkg k).booted = true ∧
        (t.pkg k).devTime = (s.pkg 0).devTime ∧ (t.pkg k).linkDown = [] ∧ (t.pkg k).timePage % 4096 = (if k = 0 then (s.pkg 0).timePage % 4096 else 0)) ∧
        (∀ k, n ≤ k → Tbl.find t.pkgs k = none)) ∧
    (∀ n, (n = 0 ∨ 32 < n ∨ s.ctxs ≠ [] ∨ (s.pkg 0).booted = false) → exec (.domainFormation n) s = .next s)

end
end

