-- ==== Sys2Proof/Laws/Tbl.lean ====
section
/-! SUPPORT. Laws of tables and of byte memory: reading after writing, and the canonical form, which every memory operation keeps. -/

namespace Sys2Proof.Machine

/-! ### Tables -/

@[simp] theorem Tbl.find_nil {α : Type} (k : Nat) : Tbl.find ([] : Tbl α) k = none := rfl
@[simp] theorem Tbl.findD_nil {α : Type} (k : Nat) (d : α) : Tbl.findD ([] : Tbl α) k d = d := rfl

theorem Tbl.find_cons {α : Type} (j k : Nat) (v : α) (t : Tbl α) :
    Tbl.find ((j, v) :: t) k = if j = k then some v else Tbl.find t k := rfl

theorem Tbl.find_put {α : Type} (t : Tbl α) (k j : Nat) (x : α) :
    Tbl.find (Tbl.put t k x) j = if k = j then some x else Tbl.find t j := by
  induction t with
  | nil => simp [Tbl.put, Tbl.find_cons]
  | cons e t ih =>
    obtain ⟨i, v⟩ := e
    simp only [Tbl.put]
    split
    · simp only [Tbl.find_cons]
    · split
      · rename_i h; subst h; simp only [Tbl.find_cons]; split <;> rfl
      · simp only [Tbl.find_cons, ih]; split <;> split <;> first | rfl | omega

@[simp] theorem Tbl.find_put_self {α : Type} (t : Tbl α) (k : Nat) (x : α) : Tbl.find (Tbl.put t k x) k = some x := by
  simp [Tbl.find_put]

theorem Tbl.find_put_ne {α : Type} (t : Tbl α) {k j : Nat} (x : α) (h : k ≠ j) :
    Tbl.find (Tbl.put t k x) j = Tbl.find t j := by simp [Tbl.find_put, h]

theorem Tbl.findD_put {α : Type} (t : Tbl α) (k j : Nat) (x d : α) :
    Tbl.findD (Tbl.put t k x) j d = if k = j then x else Tbl.findD t j d := by
  simp only [Tbl.findD, Tbl.find_put]; split <;> rfl

@[simp] theorem Tbl.findD_put_self {α : Type} (t : Tbl α) (k : Nat) (x d : α) : Tbl.findD (Tbl.put t k x) k d = x := by
  simp [Tbl.findD_put]

theorem Tbl.findD_put_ne {α : Type} (t : Tbl α) {k j : Nat} (x d : α) (h : k ≠ j) :
    Tbl.findD (Tbl.put t k x) j d = Tbl.findD t j d := by simp [Tbl.findD_put, h]

theorem Tbl.find_del {α : Type} (t : Tbl α) (k j : Nat) : Tbl.find (Tbl.del t k) j = if k = j then none else Tbl.find t j := by
  induction t with
  | nil => simp [Tbl.del]
  | cons e t ih =>
    obtain ⟨i, v⟩ := e
    simp only [Tbl.del, List.filter_cons] at ih ⊢
    by_cases h : i = k
    · subst h
      simp only [bne_self_eq_false, Bool.false_eq_true, if_false, ih, Tbl.find_cons]
      split <;> simp_all
    · have : (i != k) = true := by simp [h]
      simp only [this, if_true, Tbl.find_cons, ih]
      split <;> split <;> first | rfl | (exfalso; omega)

@[simp] theorem Tbl.find_del_self {α : Type} (t : Tbl α) (k : Nat) : Tbl.find (Tbl.del t k) k = none := by simp [Tbl.find_del]

theorem Tbl.find_upd {α : Type} (t : Tbl α) (k j : Nat) (f : α → α) :
    Tbl.find (Tbl.upd t k f) j = if k = j then (Tbl.find t j).map f else Tbl.find t j := by
  unfold Tbl.upd
  cases h : Tbl.find t k with
  | none => simp only; split <;> simp_all
  | some v => simp only [Tbl.find_put]; split <;> simp_all

/-! ### Byte memory: reading after writing -/

theorem Mem.read_write (m : Mem) (a c : Nat) (b : Byte) : Mem.read (Mem.write m a b) c = if a = c then b else Mem.read m c := by
  unfold Mem.write Mem.read Tbl.findD
  split
  · rw [Tbl.find_del]; split <;> simp_all
  · rw [Tbl.find_put]; split <;> simp_all

@[simp] theorem Mem.read_write_self (m : Mem) (a : Nat) (b : Byte) : Mem.read (Mem.write m a b) a = b := by simp [Mem.read_write]

theorem Mem.read_write_ne (m : Mem) {a c : Nat} (b : Byte) (h : a ≠ c) : Mem.read (Mem.write m a b) c = Mem.read m c := by
  simp [Mem.read_write, h]

theorem Mem.read_writeN (m : Mem) (a c : Nat) (bs : List Byte) :
    Mem.read (Mem.writeN m a bs) c = if a ≤ c ∧ c < a + bs.length then bs.getD (c - a) 0 else Mem.read m c := by
  induction bs generalizing m a with
  | nil => simp only [Mem.writeN, List.length_nil]; split <;> first | rfl | omega
  | cons b bs ih =>
    simp only [Mem.writeN, ih, List.length_cons, Mem.read_write]
    by_cases h0 : c = a
    · subst h0; simp
    · have e : ¬ a = c := fun h => h0 h.symm
      simp only [e, if_false]
      by_cases h1 : a + 1 ≤ c ∧ c < a + 1 + bs.length
      · have h2 : a ≤ c ∧ c < a + (bs.length + 1) := by omega
        have h3 : c - a = (c - (a + 1)) + 1 := by omega
        rw [if_pos h1, if_pos h2, h3]; rfl
      · have h2 : ¬ (a ≤ c ∧ c < a + (bs.length + 1)) := by omega
        rw [if_neg h1, if_neg h2]

theorem Mem.read_filter (m : Mem) (p : Nat → Bool) (c : Nat) :
    Mem.read (m.filter fun e => p e.1) c = if p c then Mem.read m c else 0 := by
  unfold Mem.read Tbl.findD
  induction m with
  | nil => simp
  | cons e t ih =>
    obtain ⟨j, v⟩ := e
    rw [List.filter_cons]
    by_cases hj : j = c
    · subst hj
      cases hp : p j
      · rw [hp] at ih; simpa using ih
      · simp [Tbl.find_cons]
    · cases hp : p j
      · rw [if_neg (by simp), ih, Tbl.find_cons, if_neg hj]
      · rw [if_pos (by simp), Tbl.find_cons, Tbl.find_cons, if_neg hj, if_neg hj, ih]

theorem Mem.read_clear (m : Mem) (a n c : Nat) : Mem.read (Mem.clear m a n) c = if a ≤ c ∧ c < a + n then 0 else Mem.read m c := by
  have h := Mem.read_filter m (fun x => decide (x < a) || decide (a + n ≤ x)) c
  have h' : Mem.clear m a n = m.filter (fun e => decide (e.1 < a) || decide (a + n ≤ e.1)) := rfl
  rw [h', h]
  by_cases hc : a ≤ c ∧ c < a + n
  · rw [if_pos hc, if_neg]; simp; omega
  · rw [if_neg hc, if_pos]; simp; omega

@[simp] theorem Mem.length_readN (m : Mem) (a n : Nat) : (Mem.readN m a n).length = n := by
  induction n generalizing a with
  | zero => rfl
  | succ n ih => simp [Mem.readN, ih]

@[simp] theorem length_natBytes (n x : Nat) : (natBytes n x).length = n := by
  induction n generalizing x with
  | zero => rfl
  | succ n ih => simp [natBytes, ih]

theorem bytesNat_natBytes (n x : Nat) : bytesNat (natBytes n x) = x % 256 ^ n := by
  induction n generalizing x with
  | zero => simp [natBytes, bytesNat, Nat.mod_one]
  | succ n ih =>
    have h : (BitVec.ofNat 8 x).toNat = x % 256 := BitVec.toNat_ofNat x 8
    rw [natBytes, bytesNat, ih, h, Nat.pow_succ, Nat.mul_comm (256 ^ n) 256, Nat.mod_mul]

theorem Mem.readN_writeN (m : Mem) (a : Nat) (bs : List Byte) : Mem.readN (Mem.writeN m a bs) a bs.length = bs := by
  have key : ∀ (bs : List Byte) (m' : Mem) (a : Nat), (∀ k, k < bs.length → Mem.read m' (a + k) = bs.getD k 0) →
      Mem.readN m' a bs.length = bs := by
    intro bs
    induction bs with
    | nil => intro _ _ _; rfl
    | cons b bs ih =>
      intro m' a h
      simp only [List.length_cons, Mem.readN]
      have h0 := h 0 (by simp)
      rw [Nat.add_zero] at h0
      rw [h0, ih m' (a + 1)]
      · rfl
      · intro k hk
        have h1 := h (k + 1) (by simp; omega)
        rw [show a + 1 + k = a + (k + 1) by omega, h1]; rfl
  apply key
  intro k hk
  rw [Mem.read_writeN, if_pos (by omega), Nat.add_sub_cancel_left]

/-- What a little-endian store puts in memory, a load of the same size returns. -/
theorem Mem.readLE_writeLE (m : Mem) (a n x : Nat) : Mem.readLE (Mem.writeLE m a n x) a n = x % 256 ^ n := by
  unfold Mem.readLE Mem.writeLE
  have h := Mem.readN_writeN m a (natBytes n x)
  rw [length_natBytes] at h
  rw [h, bytesNat_natBytes]

/-! ### Byte memory: the canonical form -/

theorem Mem.wfFrom_mono {m : Mem} {a b : Nat} (hab : b ≤ a) (h : Mem.wfFrom a m = true) : Mem.wfFrom b m = true := by
  cases m with
  | nil => rfl
  | cons e t =>
    obtain ⟨j, v⟩ := e
    simp only [Mem.wfFrom, Bool.and_eq_true, decide_eq_true_eq] at h ⊢
    exact ⟨⟨by omega, h.1.2⟩, h.2⟩

theorem Mem.wfFrom_put {m : Mem} {lo a : Nat} {b : Byte} (hb : b ≠ 0) (ha : lo ≤ a) (h : Mem.wfFrom lo m = true) :
    Mem.wfFrom lo (Tbl.put m a b) = true := by
  induction m generalizing lo with
  | nil => simp only [Tbl.put, Mem.wfFrom, Bool.and_true, Bool.and_eq_true, decide_eq_true_eq, bne_iff_ne, ne_eq]; exact ⟨ha, hb⟩
  | cons e t ih =>
    obtain ⟨j, v⟩ := e
    simp only [Mem.wfFrom, Bool.and_eq_true, decide_eq_true_eq] at h
    simp only [Tbl.put]
    split
    · simp only [Mem.wfFrom, Bool.and_eq_true, decide_eq_true_eq]
      refine ⟨⟨ha, by simpa using hb⟩, ⟨by omega, h.1.2⟩, h.2⟩
    · split
      · rename_i h1 h2
        subst h2
        simp only [Mem.wfFrom, Bool.and_eq_true, decide_eq_true_eq]
        exact ⟨⟨ha, by simpa using hb⟩, h.2⟩
      · simp only [Mem.wfFrom, Bool.and_eq_true, decide_eq_true_eq]
        exact ⟨h.1, ih (by omega) h.2⟩

theorem Mem.wfFrom_filter {m : Mem} {lo : Nat} (p : Host.Cell → Bool) (h : Mem.wfFrom lo m = true) :
    Mem.wfFrom lo (m.filter p) = true := by
  induction m generalizing lo with
  | nil => rfl
  | cons e t ih =>
    obtain ⟨j, v⟩ := e
    simp only [Mem.wfFrom, Bool.and_eq_true, decide_eq_true_eq] at h
    rw [List.filter_cons]
    split
    · simp only [Mem.wfFrom, Bool.and_eq_true, decide_eq_true_eq]
      exact ⟨h.1, ih h.2⟩
    · exact Mem.wfFrom_mono (by omega) (ih h.2)

theorem Mem.wf_filter {m : Mem} (p : Host.Cell → Bool) (h : Mem.wf m = true) : Mem.wf (m.filter p) = true := Mem.wfFrom_filter p h

theorem Mem.wf_write {m : Mem} (a : Nat) (b : Byte) (h : Mem.wf m = true) : Mem.wf (Mem.write m a b) = true := by
  unfold Mem.write
  split
  · exact Mem.wf_filter _ h
  · rename_i hb; exact Mem.wfFrom_put hb (Nat.zero_le _) h

theorem Mem.wf_writeN {m : Mem} (a : Nat) (bs : List Byte) (h : Mem.wf m = true) : Mem.wf (Mem.writeN m a bs) = true := by
  induction bs generalizing m a with
  | nil => exact h
  | cons b bs ih => exact ih (a + 1) (Mem.wf_write a b h)

theorem Mem.wf_writeLE {m : Mem} (a n x : Nat) (h : Mem.wf m = true) : Mem.wf (Mem.writeLE m a n x) = true := Mem.wf_writeN a _ h

theorem Mem.wf_clear {m : Mem} (a n : Nat) (h : Mem.wf m = true) : Mem.wf (Mem.clear m a n) = true := Mem.wf_filter _ h

@[simp] theorem Mem.wf_nil : Mem.wf [] = true := rfl

/-- In canonical form two memories that read alike are equal. -/
theorem Mem.ext_wfFrom {m n : Mem} {lo : Nat} (hm : Mem.wfFrom lo m = true) (hn : Mem.wfFrom lo n = true)
    (h : ∀ a, Mem.read m a = Mem.read n a) : m = n := by
  have low : ∀ (m : Mem) (lo a : Nat), Mem.wfFrom lo m = true → a < lo → Mem.read m a = 0 := by
    intro m
    induction m with
    | nil => intros; rfl
    | cons e t ih =>
      obtain ⟨j, v⟩ := e
      intro lo a hw ha
      simp only [Mem.wfFrom, Bool.and_eq_true, decide_eq_true_eq] at hw
      have : ¬ j = a := by omega
      have h2 := ih (j + 1) a hw.2 (by omega)
      simpa [Mem.read, Tbl.findD, Tbl.find_cons, this] using h2
  induction m generalizing n lo with
  | nil =>
    cases n with
    | nil => rfl
    | cons e t =>
      obtain ⟨j, v⟩ := e
      simp only [Mem.wfFrom, Bool.and_eq_true, decide_eq_true_eq] at hn
      have := h j
      simp [Mem.read, Tbl.findD, Tbl.find_cons] at this
      simp_all
  | cons e t ih =>
    obtain ⟨j, v⟩ := e
    have hm' := hm
    simp only [Mem.wfFrom, Bool.and_eq_true, decide_eq_true_eq] at hm'
    have hv : v ≠ 0 := by simpa using hm'.1.2
    cases n with
    | nil =>
      have := h j
      simp [Mem.read, Tbl.findD, Tbl.find_cons] at this
      exact absurd this hv
    | cons e' t' =>
      obtain ⟨j', v'⟩ := e'
      have hn' := hn
      simp only [Mem.wfFrom, Bool.and_eq_true, decide_eq_true_eq] at hn'
      have hv' : v' ≠ 0 := by simpa using hn'.1.2
      have hj : j = j' := by
        rcases Nat.lt_trichotomy j j' with hlt | heq | hgt
        · have h1 := h j
          have h2 := low t' (j' + 1) j hn'.2 (by omega)
          have : ¬ j' = j := by omega
          simp only [Mem.read, Tbl.findD, Tbl.find_cons, if_true, this, if_false, Option.getD_some] at h1 h2
          exact absurd (h1.trans h2) hv
        · exact heq
        · have h1 := h j'
          have h2 := low t (j + 1) j' hm'.2 (by omega)
          have : ¬ j = j' := by omega
          simp only [Mem.read, Tbl.findD, Tbl.find_cons, if_true, this, if_false, Option.getD_some] at h1 h2
          exact absurd (h1.symm.trans h2) hv'
      subst hj
      have hvv : v = v' := by simpa [Mem.read, Tbl.findD, Tbl.find_cons] using h j
      subst hvv
      congr 1
      refine ih hm'.2 hn'.2 fun a => ?_
      by_cases ha : j = a
      · subst ha
        rw [low t _ _ hm'.2 (by omega), low t' _ _ hn'.2 (by omega)]
      · simpa [Mem.read, Tbl.findD, Tbl.find_cons, ha] using h a

theorem Mem.ext_wf {m n : Mem} (hm : Mem.wf m = true) (hn : Mem.wf n = true) (h : ∀ a, Mem.read m a = Mem.read n a) : m = n :=
  Mem.ext_wfFrom hm hn h

end Sys2Proof.Machine
end

