-- ==== Sys2Proof/Laws/State.lean ====
section
/-! SUPPORT. Laws of the state's updates: one lemma per field per update, and each accessor after each update. -/

namespace Sys2Proof.Machine

/-! ### setSl -/

@[simp] theorem State.updSl_eq (s : State) (i : Nat) (f : Slice → Slice) : s.updSl i f = s.setSl i (f (s.sl i)) := rfl
@[simp] theorem State.setSl_slices (s : State) (i : Nat) (x : Slice) : (s.setSl i x).slices = Tbl.put s.slices i x := rfl
@[simp] theorem State.setSl_npkgs (s : State) (i : Nat) (x : Slice) : (s.setSl i x).npkgs = s.npkgs := rfl
@[simp] theorem State.setSl_pkgs (s : State) (i : Nat) (x : Slice) : (s.setSl i x).pkgs = s.pkgs := rfl
@[simp] theorem State.setSl_towers (s : State) (i : Nat) (x : Slice) : (s.setSl i x).towers = s.towers := rfl
@[simp] theorem State.setSl_clusters (s : State) (i : Nat) (x : Slice) : (s.setSl i x).clusters = s.clusters := rfl
@[simp] theorem State.setSl_cores (s : State) (i : Nat) (x : Slice) : (s.setSl i x).cores = s.cores := rfl
@[simp] theorem State.setSl_ctxs (s : State) (i : Nat) (x : Slice) : (s.setSl i x).ctxs = s.ctxs := rfl
@[simp] theorem State.setSl_launches (s : State) (i : Nat) (x : Slice) : (s.setSl i x).launches = s.launches := rfl
@[simp] theorem State.setSl_spans (s : State) (i : Nat) (x : Slice) : (s.setSl i x).spans = s.spans := rfl
@[simp] theorem State.setSl_crews (s : State) (i : Nat) (x : Slice) : (s.setSl i x).crews = s.crews := rfl
@[simp] theorem State.setSl_mem (s : State) (i : Nat) (x : Slice) : (s.setSl i x).mem = s.mem := rfl
@[simp] theorem State.setSl_stash (s : State) (i : Nat) (x : Slice) : (s.setSl i x).stash = s.stash := rfl
@[simp] theorem State.setSl_scratch (s : State) (i : Nat) (x : Slice) : (s.setSl i x).scratch = s.scratch := rfl
@[simp] theorem State.setSl_llc (s : State) (i : Nat) (x : Slice) : (s.setSl i x).llc = s.llc := rfl
@[simp] theorem State.setSl_llcData (s : State) (i : Nat) (x : Slice) : (s.setSl i x).llcData = s.llcData := rfl
@[simp] theorem State.setSl_l2 (s : State) (i : Nat) (x : Slice) : (s.setSl i x).l2 = s.l2 := rfl
@[simp] theorem State.setSl_l2Data (s : State) (i : Nat) (x : Slice) : (s.setSl i x).l2Data = s.l2Data := rfl
@[simp] theorem State.setSl_writeBacks (s : State) (i : Nat) (x : Slice) : (s.setSl i x).writeBacks = s.writeBacks := rfl
@[simp] theorem State.setSl_banks (s : State) (i : Nat) (x : Slice) : (s.setSl i x).banks = s.banks := rfl
@[simp] theorem State.setSl_bankClock (s : State) (i : Nat) (x : Slice) : (s.setSl i x).bankClock = s.bankClock := rfl
@[simp] theorem State.setSl_migs (s : State) (i : Nat) (x : Slice) : (s.setSl i x).migs = s.migs := rfl
@[simp] theorem State.setSl_migCounts (s : State) (i : Nat) (x : Slice) : (s.setSl i x).migCounts = s.migCounts := rfl
@[simp] theorem State.setSl_poison (s : State) (i : Nat) (x : Slice) : (s.setSl i x).poison = s.poison := rfl
@[simp] theorem State.setSl_resReqs (s : State) (i : Nat) (x : Slice) : (s.setSl i x).resReqs = s.resReqs := rfl
@[simp] theorem State.setSl_clrReqs (s : State) (i : Nat) (x : Slice) : (s.setSl i x).clrReqs = s.clrReqs := rfl
@[simp] theorem State.setSl_fillReqs (s : State) (i : Nat) (x : Slice) : (s.setSl i x).fillReqs = s.fillReqs := rfl
@[simp] theorem State.setSl_downgrades (s : State) (i : Nat) (x : Slice) : (s.setSl i x).downgrades = s.downgrades := rfl
@[simp] theorem State.setSl_mcReqs (s : State) (i : Nat) (x : Slice) : (s.setSl i x).mcReqs = s.mcReqs := rfl
@[simp] theorem State.setSl_mcSets (s : State) (i : Nat) (x : Slice) : (s.setSl i x).mcSets = s.mcSets := rfl
@[simp] theorem State.setSl_colls (s : State) (i : Nat) (x : Slice) : (s.setSl i x).colls = s.colls := rfl
@[simp] theorem State.setSl_keystone (s : State) (i : Nat) (x : Slice) : (s.setSl i x).keystone = s.keystone := rfl
@[simp] theorem State.setSl_packets (s : State) (i : Nat) (x : Slice) : (s.setSl i x).packets = s.packets := rfl
@[simp] theorem State.setSl_routers (s : State) (i : Nat) (x : Slice) : (s.setSl i x).routers = s.routers := rfl
@[simp] theorem State.setSl_equinox (s : State) (i : Nat) (x : Slice) : (s.setSl i x).equinox = s.equinox := rfl
@[simp] theorem State.setSl_vacantReqs (s : State) (i : Nat) (x : Slice) : (s.setSl i x).vacantReqs = s.vacantReqs := rfl
@[simp] theorem State.setSl_osCores (s : State) (i : Nat) (x : Slice) : (s.setSl i x).osCores = s.osCores := rfl
@[simp] theorem State.setSl_osLog (s : State) (i : Nat) (x : Slice) : (s.setSl i x).osLog = s.osLog := rfl
@[simp] theorem State.setSl_schedule (s : State) (i : Nat) (x : Slice) : (s.setSl i x).schedule = s.schedule := rfl
@[simp] theorem State.setSl_freeIx (s : State) (i : Nat) (x : Slice) : (s.setSl i x).freeIx = s.freeIx := rfl
@[simp] theorem State.setSl_cur (s : State) (i : Nat) (x : Slice) : (s.setSl i x).cur = s.cur := rfl
@[simp] theorem State.setSl_curOs (s : State) (i : Nat) (x : Slice) : (s.setSl i x).curOs = s.curOs := rfl
@[simp] theorem State.setSl_nextId (s : State) (i : Nat) (x : Slice) : (s.setSl i x).nextId = s.nextId := rfl
theorem State.sl_setSl (s : State) (i j : Nat) (x : Slice) : (s.setSl i x).sl j = if i = j then x else s.sl j := by
  simp [State.sl, Tbl.findD_put]
@[simp] theorem State.sl_setSl_self (s : State) (i : Nat) (x : Slice) : (s.setSl i x).sl i = x := by simp [State.sl_setSl]
theorem State.sl_setSl_ne (s : State) {i j : Nat} (x : Slice) (h : i ≠ j) : (s.setSl i x).sl j = s.sl j := by
  simp [State.sl_setSl, h]
@[simp] theorem State.crew_setSl (s : State) (i : Nat) (x : Slice) (k : Nat) : (s.setSl i x).crew k = s.crew k := rfl
@[simp] theorem State.span_setSl (s : State) (i : Nat) (x : Slice) (k : Nat) : (s.setSl i x).span k = s.span k := rfl
@[simp] theorem State.core_setSl (s : State) (i : Nat) (x : Slice) (k : Nat) : (s.setSl i x).core k = s.core k := rfl
@[simp] theorem State.cluster_setSl (s : State) (i : Nat) (x : Slice) (k : Nat) : (s.setSl i x).cluster k = s.cluster k := rfl
@[simp] theorem State.tower_setSl (s : State) (i : Nat) (x : Slice) (k : Nat) : (s.setSl i x).tower k = s.tower k := rfl
@[simp] theorem State.pkg_setSl (s : State) (i : Nat) (x : Slice) (k : Nat) : (s.setSl i x).pkg k = s.pkg k := rfl
@[simp] theorem State.ctx_setSl (s : State) (i : Nat) (x : Slice) (k : Nat) : (s.setSl i x).ctx k = s.ctx k := rfl

/-! ### setCrew -/

@[simp] theorem State.updCrew_eq (s : State) (i : Nat) (f : Crew → Crew) : s.updCrew i f = s.setCrew i (f (s.crew i)) := rfl
@[simp] theorem State.setCrew_crews (s : State) (i : Nat) (x : Crew) : (s.setCrew i x).crews = Tbl.put s.crews i x := rfl
@[simp] theorem State.setCrew_npkgs (s : State) (i : Nat) (x : Crew) : (s.setCrew i x).npkgs = s.npkgs := rfl
@[simp] theorem State.setCrew_pkgs (s : State) (i : Nat) (x : Crew) : (s.setCrew i x).pkgs = s.pkgs := rfl
@[simp] theorem State.setCrew_towers (s : State) (i : Nat) (x : Crew) : (s.setCrew i x).towers = s.towers := rfl
@[simp] theorem State.setCrew_clusters (s : State) (i : Nat) (x : Crew) : (s.setCrew i x).clusters = s.clusters := rfl
@[simp] theorem State.setCrew_cores (s : State) (i : Nat) (x : Crew) : (s.setCrew i x).cores = s.cores := rfl
@[simp] theorem State.setCrew_ctxs (s : State) (i : Nat) (x : Crew) : (s.setCrew i x).ctxs = s.ctxs := rfl
@[simp] theorem State.setCrew_launches (s : State) (i : Nat) (x : Crew) : (s.setCrew i x).launches = s.launches := rfl
@[simp] theorem State.setCrew_spans (s : State) (i : Nat) (x : Crew) : (s.setCrew i x).spans = s.spans := rfl
@[simp] theorem State.setCrew_slices (s : State) (i : Nat) (x : Crew) : (s.setCrew i x).slices = s.slices := rfl
@[simp] theorem State.setCrew_mem (s : State) (i : Nat) (x : Crew) : (s.setCrew i x).mem = s.mem := rfl
@[simp] theorem State.setCrew_stash (s : State) (i : Nat) (x : Crew) : (s.setCrew i x).stash = s.stash := rfl
@[simp] theorem State.setCrew_scratch (s : State) (i : Nat) (x : Crew) : (s.setCrew i x).scratch = s.scratch := rfl
@[simp] theorem State.setCrew_llc (s : State) (i : Nat) (x : Crew) : (s.setCrew i x).llc = s.llc := rfl
@[simp] theorem State.setCrew_llcData (s : State) (i : Nat) (x : Crew) : (s.setCrew i x).llcData = s.llcData := rfl
@[simp] theorem State.setCrew_l2 (s : State) (i : Nat) (x : Crew) : (s.setCrew i x).l2 = s.l2 := rfl
@[simp] theorem State.setCrew_l2Data (s : State) (i : Nat) (x : Crew) : (s.setCrew i x).l2Data = s.l2Data := rfl
@[simp] theorem State.setCrew_writeBacks (s : State) (i : Nat) (x : Crew) : (s.setCrew i x).writeBacks = s.writeBacks := rfl
@[simp] theorem State.setCrew_banks (s : State) (i : Nat) (x : Crew) : (s.setCrew i x).banks = s.banks := rfl
@[simp] theorem State.setCrew_bankClock (s : State) (i : Nat) (x : Crew) : (s.setCrew i x).bankClock = s.bankClock := rfl
@[simp] theorem State.setCrew_migs (s : State) (i : Nat) (x : Crew) : (s.setCrew i x).migs = s.migs := rfl
@[simp] theorem State.setCrew_migCounts (s : State) (i : Nat) (x : Crew) : (s.setCrew i x).migCounts = s.migCounts := rfl
@[simp] theorem State.setCrew_poison (s : State) (i : Nat) (x : Crew) : (s.setCrew i x).poison = s.poison := rfl
@[simp] theorem State.setCrew_resReqs (s : State) (i : Nat) (x : Crew) : (s.setCrew i x).resReqs = s.resReqs := rfl
@[simp] theorem State.setCrew_clrReqs (s : State) (i : Nat) (x : Crew) : (s.setCrew i x).clrReqs = s.clrReqs := rfl
@[simp] theorem State.setCrew_fillReqs (s : State) (i : Nat) (x : Crew) : (s.setCrew i x).fillReqs = s.fillReqs := rfl
@[simp] theorem State.setCrew_downgrades (s : State) (i : Nat) (x : Crew) : (s.setCrew i x).downgrades = s.downgrades := rfl
@[simp] theorem State.setCrew_mcReqs (s : State) (i : Nat) (x : Crew) : (s.setCrew i x).mcReqs = s.mcReqs := rfl
@[simp] theorem State.setCrew_mcSets (s : State) (i : Nat) (x : Crew) : (s.setCrew i x).mcSets = s.mcSets := rfl
@[simp] theorem State.setCrew_colls (s : State) (i : Nat) (x : Crew) : (s.setCrew i x).colls = s.colls := rfl
@[simp] theorem State.setCrew_keystone (s : State) (i : Nat) (x : Crew) : (s.setCrew i x).keystone = s.keystone := rfl
@[simp] theorem State.setCrew_packets (s : State) (i : Nat) (x : Crew) : (s.setCrew i x).packets = s.packets := rfl
@[simp] theorem State.setCrew_routers (s : State) (i : Nat) (x : Crew) : (s.setCrew i x).routers = s.routers := rfl
@[simp] theorem State.setCrew_equinox (s : State) (i : Nat) (x : Crew) : (s.setCrew i x).equinox = s.equinox := rfl
@[simp] theorem State.setCrew_vacantReqs (s : State) (i : Nat) (x : Crew) : (s.setCrew i x).vacantReqs = s.vacantReqs := rfl
@[simp] theorem State.setCrew_osCores (s : State) (i : Nat) (x : Crew) : (s.setCrew i x).osCores = s.osCores := rfl
@[simp] theorem State.setCrew_osLog (s : State) (i : Nat) (x : Crew) : (s.setCrew i x).osLog = s.osLog := rfl
@[simp] theorem State.setCrew_schedule (s : State) (i : Nat) (x : Crew) : (s.setCrew i x).schedule = s.schedule := rfl
@[simp] theorem State.setCrew_freeIx (s : State) (i : Nat) (x : Crew) : (s.setCrew i x).freeIx = s.freeIx := rfl
@[simp] theorem State.setCrew_cur (s : State) (i : Nat) (x : Crew) : (s.setCrew i x).cur = s.cur := rfl
@[simp] theorem State.setCrew_curOs (s : State) (i : Nat) (x : Crew) : (s.setCrew i x).curOs = s.curOs := rfl
@[simp] theorem State.setCrew_nextId (s : State) (i : Nat) (x : Crew) : (s.setCrew i x).nextId = s.nextId := rfl
theorem State.crew_setCrew (s : State) (i j : Nat) (x : Crew) : (s.setCrew i x).crew j = if i = j then x else s.crew j := by
  simp [State.crew, Tbl.findD_put]
@[simp] theorem State.crew_setCrew_self (s : State) (i : Nat) (x : Crew) : (s.setCrew i x).crew i = x := by simp [State.crew_setCrew]
theorem State.crew_setCrew_ne (s : State) {i j : Nat} (x : Crew) (h : i ≠ j) : (s.setCrew i x).crew j = s.crew j := by
  simp [State.crew_setCrew, h]
@[simp] theorem State.sl_setCrew (s : State) (i : Nat) (x : Crew) (k : Nat) : (s.setCrew i x).sl k = s.sl k := rfl
@[simp] theorem State.span_setCrew (s : State) (i : Nat) (x : Crew) (k : Nat) : (s.setCrew i x).span k = s.span k := rfl
@[simp] theorem State.core_setCrew (s : State) (i : Nat) (x : Crew) (k : Nat) : (s.setCrew i x).core k = s.core k := rfl
@[simp] theorem State.cluster_setCrew (s : State) (i : Nat) (x : Crew) (k : Nat) : (s.setCrew i x).cluster k = s.cluster k := rfl
@[simp] theorem State.tower_setCrew (s : State) (i : Nat) (x : Crew) (k : Nat) : (s.setCrew i x).tower k = s.tower k := rfl
@[simp] theorem State.pkg_setCrew (s : State) (i : Nat) (x : Crew) (k : Nat) : (s.setCrew i x).pkg k = s.pkg k := rfl
@[simp] theorem State.ctx_setCrew (s : State) (i : Nat) (x : Crew) (k : Nat) : (s.setCrew i x).ctx k = s.ctx k := rfl

/-! ### setSpan -/

@[simp] theorem State.updSpan_eq (s : State) (i : Nat) (f : Span → Span) : s.updSpan i f = s.setSpan i (f (s.span i)) := rfl
@[simp] theorem State.setSpan_spans (s : State) (i : Nat) (x : Span) : (s.setSpan i x).spans = Tbl.put s.spans i x := rfl
@[simp] theorem State.setSpan_npkgs (s : State) (i : Nat) (x : Span) : (s.setSpan i x).npkgs = s.npkgs := rfl
@[simp] theorem State.setSpan_pkgs (s : State) (i : Nat) (x : Span) : (s.setSpan i x).pkgs = s.pkgs := rfl
@[simp] theorem State.setSpan_towers (s : State) (i : Nat) (x : Span) : (s.setSpan i x).towers = s.towers := rfl
@[simp] theorem State.setSpan_clusters (s : State) (i : Nat) (x : Span) : (s.setSpan i x).clusters = s.clusters := rfl
@[simp] theorem State.setSpan_cores (s : State) (i : Nat) (x : Span) : (s.setSpan i x).cores = s.cores := rfl
@[simp] theorem State.setSpan_ctxs (s : State) (i : Nat) (x : Span) : (s.setSpan i x).ctxs = s.ctxs := rfl
@[simp] theorem State.setSpan_launches (s : State) (i : Nat) (x : Span) : (s.setSpan i x).launches = s.launches := rfl
@[simp] theorem State.setSpan_crews (s : State) (i : Nat) (x : Span) : (s.setSpan i x).crews = s.crews := rfl
@[simp] theorem State.setSpan_slices (s : State) (i : Nat) (x : Span) : (s.setSpan i x).slices = s.slices := rfl
@[simp] theorem State.setSpan_mem (s : State) (i : Nat) (x : Span) : (s.setSpan i x).mem = s.mem := rfl
@[simp] theorem State.setSpan_stash (s : State) (i : Nat) (x : Span) : (s.setSpan i x).stash = s.stash := rfl
@[simp] theorem State.setSpan_scratch (s : State) (i : Nat) (x : Span) : (s.setSpan i x).scratch = s.scratch := rfl
@[simp] theorem State.setSpan_llc (s : State) (i : Nat) (x : Span) : (s.setSpan i x).llc = s.llc := rfl
@[simp] theorem State.setSpan_llcData (s : State) (i : Nat) (x : Span) : (s.setSpan i x).llcData = s.llcData := rfl
@[simp] theorem State.setSpan_l2 (s : State) (i : Nat) (x : Span) : (s.setSpan i x).l2 = s.l2 := rfl
@[simp] theorem State.setSpan_l2Data (s : State) (i : Nat) (x : Span) : (s.setSpan i x).l2Data = s.l2Data := rfl
@[simp] theorem State.setSpan_writeBacks (s : State) (i : Nat) (x : Span) : (s.setSpan i x).writeBacks = s.writeBacks := rfl
@[simp] theorem State.setSpan_banks (s : State) (i : Nat) (x : Span) : (s.setSpan i x).banks = s.banks := rfl
@[simp] theorem State.setSpan_bankClock (s : State) (i : Nat) (x : Span) : (s.setSpan i x).bankClock = s.bankClock := rfl
@[simp] theorem State.setSpan_migs (s : State) (i : Nat) (x : Span) : (s.setSpan i x).migs = s.migs := rfl
@[simp] theorem State.setSpan_migCounts (s : State) (i : Nat) (x : Span) : (s.setSpan i x).migCounts = s.migCounts := rfl
@[simp] theorem State.setSpan_poison (s : State) (i : Nat) (x : Span) : (s.setSpan i x).poison = s.poison := rfl
@[simp] theorem State.setSpan_resReqs (s : State) (i : Nat) (x : Span) : (s.setSpan i x).resReqs = s.resReqs := rfl
@[simp] theorem State.setSpan_clrReqs (s : State) (i : Nat) (x : Span) : (s.setSpan i x).clrReqs = s.clrReqs := rfl
@[simp] theorem State.setSpan_fillReqs (s : State) (i : Nat) (x : Span) : (s.setSpan i x).fillReqs = s.fillReqs := rfl
@[simp] theorem State.setSpan_downgrades (s : State) (i : Nat) (x : Span) : (s.setSpan i x).downgrades = s.downgrades := rfl
@[simp] theorem State.setSpan_mcReqs (s : State) (i : Nat) (x : Span) : (s.setSpan i x).mcReqs = s.mcReqs := rfl
@[simp] theorem State.setSpan_mcSets (s : State) (i : Nat) (x : Span) : (s.setSpan i x).mcSets = s.mcSets := rfl
@[simp] theorem State.setSpan_colls (s : State) (i : Nat) (x : Span) : (s.setSpan i x).colls = s.colls := rfl
@[simp] theorem State.setSpan_keystone (s : State) (i : Nat) (x : Span) : (s.setSpan i x).keystone = s.keystone := rfl
@[simp] theorem State.setSpan_packets (s : State) (i : Nat) (x : Span) : (s.setSpan i x).packets = s.packets := rfl
@[simp] theorem State.setSpan_routers (s : State) (i : Nat) (x : Span) : (s.setSpan i x).routers = s.routers := rfl
@[simp] theorem State.setSpan_equinox (s : State) (i : Nat) (x : Span) : (s.setSpan i x).equinox = s.equinox := rfl
@[simp] theorem State.setSpan_vacantReqs (s : State) (i : Nat) (x : Span) : (s.setSpan i x).vacantReqs = s.vacantReqs := rfl
@[simp] theorem State.setSpan_osCores (s : State) (i : Nat) (x : Span) : (s.setSpan i x).osCores = s.osCores := rfl
@[simp] theorem State.setSpan_osLog (s : State) (i : Nat) (x : Span) : (s.setSpan i x).osLog = s.osLog := rfl
@[simp] theorem State.setSpan_schedule (s : State) (i : Nat) (x : Span) : (s.setSpan i x).schedule = s.schedule := rfl
@[simp] theorem State.setSpan_freeIx (s : State) (i : Nat) (x : Span) : (s.setSpan i x).freeIx = s.freeIx := rfl
@[simp] theorem State.setSpan_cur (s : State) (i : Nat) (x : Span) : (s.setSpan i x).cur = s.cur := rfl
@[simp] theorem State.setSpan_curOs (s : State) (i : Nat) (x : Span) : (s.setSpan i x).curOs = s.curOs := rfl
@[simp] theorem State.setSpan_nextId (s : State) (i : Nat) (x : Span) : (s.setSpan i x).nextId = s.nextId := rfl
theorem State.span_setSpan (s : State) (i j : Nat) (x : Span) : (s.setSpan i x).span j = if i = j then x else s.span j := by
  simp [State.span, Tbl.findD_put]
@[simp] theorem State.span_setSpan_self (s : State) (i : Nat) (x : Span) : (s.setSpan i x).span i = x := by simp [State.span_setSpan]
theorem State.span_setSpan_ne (s : State) {i j : Nat} (x : Span) (h : i ≠ j) : (s.setSpan i x).span j = s.span j := by
  simp [State.span_setSpan, h]
@[simp] theorem State.sl_setSpan (s : State) (i : Nat) (x : Span) (k : Nat) : (s.setSpan i x).sl k = s.sl k := rfl
@[simp] theorem State.crew_setSpan (s : State) (i : Nat) (x : Span) (k : Nat) : (s.setSpan i x).crew k = s.crew k := rfl
@[simp] theorem State.core_setSpan (s : State) (i : Nat) (x : Span) (k : Nat) : (s.setSpan i x).core k = s.core k := rfl
@[simp] theorem State.cluster_setSpan (s : State) (i : Nat) (x : Span) (k : Nat) : (s.setSpan i x).cluster k = s.cluster k := rfl
@[simp] theorem State.tower_setSpan (s : State) (i : Nat) (x : Span) (k : Nat) : (s.setSpan i x).tower k = s.tower k := rfl
@[simp] theorem State.pkg_setSpan (s : State) (i : Nat) (x : Span) (k : Nat) : (s.setSpan i x).pkg k = s.pkg k := rfl
@[simp] theorem State.ctx_setSpan (s : State) (i : Nat) (x : Span) (k : Nat) : (s.setSpan i x).ctx k = s.ctx k := rfl

/-! ### setCore -/

@[simp] theorem State.updCore_eq (s : State) (i : Nat) (f : Core → Core) : s.updCore i f = s.setCore i (f (s.core i)) := rfl
@[simp] theorem State.setCore_cores (s : State) (i : Nat) (x : Core) : (s.setCore i x).cores = Tbl.put s.cores i x := rfl
@[simp] theorem State.setCore_npkgs (s : State) (i : Nat) (x : Core) : (s.setCore i x).npkgs = s.npkgs := rfl
@[simp] theorem State.setCore_pkgs (s : State) (i : Nat) (x : Core) : (s.setCore i x).pkgs = s.pkgs := rfl
@[simp] theorem State.setCore_towers (s : State) (i : Nat) (x : Core) : (s.setCore i x).towers = s.towers := rfl
@[simp] theorem State.setCore_clusters (s : State) (i : Nat) (x : Core) : (s.setCore i x).clusters = s.clusters := rfl
@[simp] theorem State.setCore_ctxs (s : State) (i : Nat) (x : Core) : (s.setCore i x).ctxs = s.ctxs := rfl
@[simp] theorem State.setCore_launches (s : State) (i : Nat) (x : Core) : (s.setCore i x).launches = s.launches := rfl
@[simp] theorem State.setCore_spans (s : State) (i : Nat) (x : Core) : (s.setCore i x).spans = s.spans := rfl
@[simp] theorem State.setCore_crews (s : State) (i : Nat) (x : Core) : (s.setCore i x).crews = s.crews := rfl
@[simp] theorem State.setCore_slices (s : State) (i : Nat) (x : Core) : (s.setCore i x).slices = s.slices := rfl
@[simp] theorem State.setCore_mem (s : State) (i : Nat) (x : Core) : (s.setCore i x).mem = s.mem := rfl
@[simp] theorem State.setCore_stash (s : State) (i : Nat) (x : Core) : (s.setCore i x).stash = s.stash := rfl
@[simp] theorem State.setCore_scratch (s : State) (i : Nat) (x : Core) : (s.setCore i x).scratch = s.scratch := rfl
@[simp] theorem State.setCore_llc (s : State) (i : Nat) (x : Core) : (s.setCore i x).llc = s.llc := rfl
@[simp] theorem State.setCore_llcData (s : State) (i : Nat) (x : Core) : (s.setCore i x).llcData = s.llcData := rfl
@[simp] theorem State.setCore_l2 (s : State) (i : Nat) (x : Core) : (s.setCore i x).l2 = s.l2 := rfl
@[simp] theorem State.setCore_l2Data (s : State) (i : Nat) (x : Core) : (s.setCore i x).l2Data = s.l2Data := rfl
@[simp] theorem State.setCore_writeBacks (s : State) (i : Nat) (x : Core) : (s.setCore i x).writeBacks = s.writeBacks := rfl
@[simp] theorem State.setCore_banks (s : State) (i : Nat) (x : Core) : (s.setCore i x).banks = s.banks := rfl
@[simp] theorem State.setCore_bankClock (s : State) (i : Nat) (x : Core) : (s.setCore i x).bankClock = s.bankClock := rfl
@[simp] theorem State.setCore_migs (s : State) (i : Nat) (x : Core) : (s.setCore i x).migs = s.migs := rfl
@[simp] theorem State.setCore_migCounts (s : State) (i : Nat) (x : Core) : (s.setCore i x).migCounts = s.migCounts := rfl
@[simp] theorem State.setCore_poison (s : State) (i : Nat) (x : Core) : (s.setCore i x).poison = s.poison := rfl
@[simp] theorem State.setCore_resReqs (s : State) (i : Nat) (x : Core) : (s.setCore i x).resReqs = s.resReqs := rfl
@[simp] theorem State.setCore_clrReqs (s : State) (i : Nat) (x : Core) : (s.setCore i x).clrReqs = s.clrReqs := rfl
@[simp] theorem State.setCore_fillReqs (s : State) (i : Nat) (x : Core) : (s.setCore i x).fillReqs = s.fillReqs := rfl
@[simp] theorem State.setCore_downgrades (s : State) (i : Nat) (x : Core) : (s.setCore i x).downgrades = s.downgrades := rfl
@[simp] theorem State.setCore_mcReqs (s : State) (i : Nat) (x : Core) : (s.setCore i x).mcReqs = s.mcReqs := rfl
@[simp] theorem State.setCore_mcSets (s : State) (i : Nat) (x : Core) : (s.setCore i x).mcSets = s.mcSets := rfl
@[simp] theorem State.setCore_colls (s : State) (i : Nat) (x : Core) : (s.setCore i x).colls = s.colls := rfl
@[simp] theorem State.setCore_keystone (s : State) (i : Nat) (x : Core) : (s.setCore i x).keystone = s.keystone := rfl
@[simp] theorem State.setCore_packets (s : State) (i : Nat) (x : Core) : (s.setCore i x).packets = s.packets := rfl
@[simp] theorem State.setCore_routers (s : State) (i : Nat) (x : Core) : (s.setCore i x).routers = s.routers := rfl
@[simp] theorem State.setCore_equinox (s : State) (i : Nat) (x : Core) : (s.setCore i x).equinox = s.equinox := rfl
@[simp] theorem State.setCore_vacantReqs (s : State) (i : Nat) (x : Core) : (s.setCore i x).vacantReqs = s.vacantReqs := rfl
@[simp] theorem State.setCore_osCores (s : State) (i : Nat) (x : Core) : (s.setCore i x).osCores = s.osCores := rfl
@[simp] theorem State.setCore_osLog (s : State) (i : Nat) (x : Core) : (s.setCore i x).osLog = s.osLog := rfl
@[simp] theorem State.setCore_schedule (s : State) (i : Nat) (x : Core) : (s.setCore i x).schedule = s.schedule := rfl
@[simp] theorem State.setCore_freeIx (s : State) (i : Nat) (x : Core) : (s.setCore i x).freeIx = s.freeIx := rfl
@[simp] theorem State.setCore_cur (s : State) (i : Nat) (x : Core) : (s.setCore i x).cur = s.cur := rfl
@[simp] theorem State.setCore_curOs (s : State) (i : Nat) (x : Core) : (s.setCore i x).curOs = s.curOs := rfl
@[simp] theorem State.setCore_nextId (s : State) (i : Nat) (x : Core) : (s.setCore i x).nextId = s.nextId := rfl
theorem State.core_setCore (s : State) (i j : Nat) (x : Core) : (s.setCore i x).core j = if i = j then x else s.core j := by
  simp [State.core, Tbl.findD_put]
@[simp] theorem State.core_setCore_self (s : State) (i : Nat) (x : Core) : (s.setCore i x).core i = x := by simp [State.core_setCore]
theorem State.core_setCore_ne (s : State) {i j : Nat} (x : Core) (h : i ≠ j) : (s.setCore i x).core j = s.core j := by
  simp [State.core_setCore, h]
@[simp] theorem State.sl_setCore (s : State) (i : Nat) (x : Core) (k : Nat) : (s.setCore i x).sl k = s.sl k := rfl
@[simp] theorem State.crew_setCore (s : State) (i : Nat) (x : Core) (k : Nat) : (s.setCore i x).crew k = s.crew k := rfl
@[simp] theorem State.span_setCore (s : State) (i : Nat) (x : Core) (k : Nat) : (s.setCore i x).span k = s.span k := rfl
@[simp] theorem State.cluster_setCore (s : State) (i : Nat) (x : Core) (k : Nat) : (s.setCore i x).cluster k = s.cluster k := rfl
@[simp] theorem State.tower_setCore (s : State) (i : Nat) (x : Core) (k : Nat) : (s.setCore i x).tower k = s.tower k := rfl
@[simp] theorem State.pkg_setCore (s : State) (i : Nat) (x : Core) (k : Nat) : (s.setCore i x).pkg k = s.pkg k := rfl
@[simp] theorem State.ctx_setCore (s : State) (i : Nat) (x : Core) (k : Nat) : (s.setCore i x).ctx k = s.ctx k := rfl

/-! ### setCluster -/

@[simp] theorem State.updCluster_eq (s : State) (i : Nat) (f : Cluster → Cluster) : s.updCluster i f = s.setCluster i (f (s.cluster i)) := rfl
@[simp] theorem State.setCluster_clusters (s : State) (i : Nat) (x : Cluster) : (s.setCluster i x).clusters = Tbl.put s.clusters i x := rfl
@[simp] theorem State.setCluster_npkgs (s : State) (i : Nat) (x : Cluster) : (s.setCluster i x).npkgs = s.npkgs := rfl
@[simp] theorem State.setCluster_pkgs (s : State) (i : Nat) (x : Cluster) : (s.setCluster i x).pkgs = s.pkgs := rfl
@[simp] theorem State.setCluster_towers (s : State) (i : Nat) (x : Cluster) : (s.setCluster i x).towers = s.towers := rfl
@[simp] theorem State.setCluster_cores (s : State) (i : Nat) (x : Cluster) : (s.setCluster i x).cores = s.cores := rfl
@[simp] theorem State.setCluster_ctxs (s : State) (i : Nat) (x : Cluster) : (s.setCluster i x).ctxs = s.ctxs := rfl
@[simp] theorem State.setCluster_launches (s : State) (i : Nat) (x : Cluster) : (s.setCluster i x).launches = s.launches := rfl
@[simp] theorem State.setCluster_spans (s : State) (i : Nat) (x : Cluster) : (s.setCluster i x).spans = s.spans := rfl
@[simp] theorem State.setCluster_crews (s : State) (i : Nat) (x : Cluster) : (s.setCluster i x).crews = s.crews := rfl
@[simp] theorem State.setCluster_slices (s : State) (i : Nat) (x : Cluster) : (s.setCluster i x).slices = s.slices := rfl
@[simp] theorem State.setCluster_mem (s : State) (i : Nat) (x : Cluster) : (s.setCluster i x).mem = s.mem := rfl
@[simp] theorem State.setCluster_stash (s : State) (i : Nat) (x : Cluster) : (s.setCluster i x).stash = s.stash := rfl
@[simp] theorem State.setCluster_scratch (s : State) (i : Nat) (x : Cluster) : (s.setCluster i x).scratch = s.scratch := rfl
@[simp] theorem State.setCluster_llc (s : State) (i : Nat) (x : Cluster) : (s.setCluster i x).llc = s.llc := rfl
@[simp] theorem State.setCluster_llcData (s : State) (i : Nat) (x : Cluster) : (s.setCluster i x).llcData = s.llcData := rfl
@[simp] theorem State.setCluster_l2 (s : State) (i : Nat) (x : Cluster) : (s.setCluster i x).l2 = s.l2 := rfl
@[simp] theorem State.setCluster_l2Data (s : State) (i : Nat) (x : Cluster) : (s.setCluster i x).l2Data = s.l2Data := rfl
@[simp] theorem State.setCluster_writeBacks (s : State) (i : Nat) (x : Cluster) : (s.setCluster i x).writeBacks = s.writeBacks := rfl
@[simp] theorem State.setCluster_banks (s : State) (i : Nat) (x : Cluster) : (s.setCluster i x).banks = s.banks := rfl
@[simp] theorem State.setCluster_bankClock (s : State) (i : Nat) (x : Cluster) : (s.setCluster i x).bankClock = s.bankClock := rfl
@[simp] theorem State.setCluster_migs (s : State) (i : Nat) (x : Cluster) : (s.setCluster i x).migs = s.migs := rfl
@[simp] theorem State.setCluster_migCounts (s : State) (i : Nat) (x : Cluster) : (s.setCluster i x).migCounts = s.migCounts := rfl
@[simp] theorem State.setCluster_poison (s : State) (i : Nat) (x : Cluster) : (s.setCluster i x).poison = s.poison := rfl
@[simp] theorem State.setCluster_resReqs (s : State) (i : Nat) (x : Cluster) : (s.setCluster i x).resReqs = s.resReqs := rfl
@[simp] theorem State.setCluster_clrReqs (s : State) (i : Nat) (x : Cluster) : (s.setCluster i x).clrReqs = s.clrReqs := rfl
@[simp] theorem State.setCluster_fillReqs (s : State) (i : Nat) (x : Cluster) : (s.setCluster i x).fillReqs = s.fillReqs := rfl
@[simp] theorem State.setCluster_downgrades (s : State) (i : Nat) (x : Cluster) : (s.setCluster i x).downgrades = s.downgrades := rfl
@[simp] theorem State.setCluster_mcReqs (s : State) (i : Nat) (x : Cluster) : (s.setCluster i x).mcReqs = s.mcReqs := rfl
@[simp] theorem State.setCluster_mcSets (s : State) (i : Nat) (x : Cluster) : (s.setCluster i x).mcSets = s.mcSets := rfl
@[simp] theorem State.setCluster_colls (s : State) (i : Nat) (x : Cluster) : (s.setCluster i x).colls = s.colls := rfl
@[simp] theorem State.setCluster_keystone (s : State) (i : Nat) (x : Cluster) : (s.setCluster i x).keystone = s.keystone := rfl
@[simp] theorem State.setCluster_packets (s : State) (i : Nat) (x : Cluster) : (s.setCluster i x).packets = s.packets := rfl
@[simp] theorem State.setCluster_routers (s : State) (i : Nat) (x : Cluster) : (s.setCluster i x).routers = s.routers := rfl
@[simp] theorem State.setCluster_equinox (s : State) (i : Nat) (x : Cluster) : (s.setCluster i x).equinox = s.equinox := rfl
@[simp] theorem State.setCluster_vacantReqs (s : State) (i : Nat) (x : Cluster) : (s.setCluster i x).vacantReqs = s.vacantReqs := rfl
@[simp] theorem State.setCluster_osCores (s : State) (i : Nat) (x : Cluster) : (s.setCluster i x).osCores = s.osCores := rfl
@[simp] theorem State.setCluster_osLog (s : State) (i : Nat) (x : Cluster) : (s.setCluster i x).osLog = s.osLog := rfl
@[simp] theorem State.setCluster_schedule (s : State) (i : Nat) (x : Cluster) : (s.setCluster i x).schedule = s.schedule := rfl
@[simp] theorem State.setCluster_freeIx (s : State) (i : Nat) (x : Cluster) : (s.setCluster i x).freeIx = s.freeIx := rfl
@[simp] theorem State.setCluster_cur (s : State) (i : Nat) (x : Cluster) : (s.setCluster i x).cur = s.cur := rfl
@[simp] theorem State.setCluster_curOs (s : State) (i : Nat) (x : Cluster) : (s.setCluster i x).curOs = s.curOs := rfl
@[simp] theorem State.setCluster_nextId (s : State) (i : Nat) (x : Cluster) : (s.setCluster i x).nextId = s.nextId := rfl
theorem State.cluster_setCluster (s : State) (i j : Nat) (x : Cluster) : (s.setCluster i x).cluster j = if i = j then x else s.cluster j := by
  simp [State.cluster, Tbl.findD_put]
@[simp] theorem State.cluster_setCluster_self (s : State) (i : Nat) (x : Cluster) : (s.setCluster i x).cluster i = x := by simp [State.cluster_setCluster]
theorem State.cluster_setCluster_ne (s : State) {i j : Nat} (x : Cluster) (h : i ≠ j) : (s.setCluster i x).cluster j = s.cluster j := by
  simp [State.cluster_setCluster, h]
@[simp] theorem State.sl_setCluster (s : State) (i : Nat) (x : Cluster) (k : Nat) : (s.setCluster i x).sl k = s.sl k := rfl
@[simp] theorem State.crew_setCluster (s : State) (i : Nat) (x : Cluster) (k : Nat) : (s.setCluster i x).crew k = s.crew k := rfl
@[simp] theorem State.span_setCluster (s : State) (i : Nat) (x : Cluster) (k : Nat) : (s.setCluster i x).span k = s.span k := rfl
@[simp] theorem State.core_setCluster (s : State) (i : Nat) (x : Cluster) (k : Nat) : (s.setCluster i x).core k = s.core k := rfl
@[simp] theorem State.tower_setCluster (s : State) (i : Nat) (x : Cluster) (k : Nat) : (s.setCluster i x).tower k = s.tower k := rfl
@[simp] theorem State.pkg_setCluster (s : State) (i : Nat) (x : Cluster) (k : Nat) : (s.setCluster i x).pkg k = s.pkg k := rfl
@[simp] theorem State.ctx_setCluster (s : State) (i : Nat) (x : Cluster) (k : Nat) : (s.setCluster i x).ctx k = s.ctx k := rfl

/-! ### setTower -/

@[simp] theorem State.updTower_eq (s : State) (i : Nat) (f : Tower → Tower) : s.updTower i f = s.setTower i (f (s.tower i)) := rfl
@[simp] theorem State.setTower_towers (s : State) (i : Nat) (x : Tower) : (s.setTower i x).towers = Tbl.put s.towers i x := rfl
@[simp] theorem State.setTower_npkgs (s : State) (i : Nat) (x : Tower) : (s.setTower i x).npkgs = s.npkgs := rfl
@[simp] theorem State.setTower_pkgs (s : State) (i : Nat) (x : Tower) : (s.setTower i x).pkgs = s.pkgs := rfl
@[simp] theorem State.setTower_clusters (s : State) (i : Nat) (x : Tower) : (s.setTower i x).clusters = s.clusters := rfl
@[simp] theorem State.setTower_cores (s : State) (i : Nat) (x : Tower) : (s.setTower i x).cores = s.cores := rfl
@[simp] theorem State.setTower_ctxs (s : State) (i : Nat) (x : Tower) : (s.setTower i x).ctxs = s.ctxs := rfl
@[simp] theorem State.setTower_launches (s : State) (i : Nat) (x : Tower) : (s.setTower i x).launches = s.launches := rfl
@[simp] theorem State.setTower_spans (s : State) (i : Nat) (x : Tower) : (s.setTower i x).spans = s.spans := rfl
@[simp] theorem State.setTower_crews (s : State) (i : Nat) (x : Tower) : (s.setTower i x).crews = s.crews := rfl
@[simp] theorem State.setTower_slices (s : State) (i : Nat) (x : Tower) : (s.setTower i x).slices = s.slices := rfl
@[simp] theorem State.setTower_mem (s : State) (i : Nat) (x : Tower) : (s.setTower i x).mem = s.mem := rfl
@[simp] theorem State.setTower_stash (s : State) (i : Nat) (x : Tower) : (s.setTower i x).stash = s.stash := rfl
@[simp] theorem State.setTower_scratch (s : State) (i : Nat) (x : Tower) : (s.setTower i x).scratch = s.scratch := rfl
@[simp] theorem State.setTower_llc (s : State) (i : Nat) (x : Tower) : (s.setTower i x).llc = s.llc := rfl
@[simp] theorem State.setTower_llcData (s : State) (i : Nat) (x : Tower) : (s.setTower i x).llcData = s.llcData := rfl
@[simp] theorem State.setTower_l2 (s : State) (i : Nat) (x : Tower) : (s.setTower i x).l2 = s.l2 := rfl
@[simp] theorem State.setTower_l2Data (s : State) (i : Nat) (x : Tower) : (s.setTower i x).l2Data = s.l2Data := rfl
@[simp] theorem State.setTower_writeBacks (s : State) (i : Nat) (x : Tower) : (s.setTower i x).writeBacks = s.writeBacks := rfl
@[simp] theorem State.setTower_banks (s : State) (i : Nat) (x : Tower) : (s.setTower i x).banks = s.banks := rfl
@[simp] theorem State.setTower_bankClock (s : State) (i : Nat) (x : Tower) : (s.setTower i x).bankClock = s.bankClock := rfl
@[simp] theorem State.setTower_migs (s : State) (i : Nat) (x : Tower) : (s.setTower i x).migs = s.migs := rfl
@[simp] theorem State.setTower_migCounts (s : State) (i : Nat) (x : Tower) : (s.setTower i x).migCounts = s.migCounts := rfl
@[simp] theorem State.setTower_poison (s : State) (i : Nat) (x : Tower) : (s.setTower i x).poison = s.poison := rfl
@[simp] theorem State.setTower_resReqs (s : State) (i : Nat) (x : Tower) : (s.setTower i x).resReqs = s.resReqs := rfl
@[simp] theorem State.setTower_clrReqs (s : State) (i : Nat) (x : Tower) : (s.setTower i x).clrReqs = s.clrReqs := rfl
@[simp] theorem State.setTower_fillReqs (s : State) (i : Nat) (x : Tower) : (s.setTower i x).fillReqs = s.fillReqs := rfl
@[simp] theorem State.setTower_downgrades (s : State) (i : Nat) (x : Tower) : (s.setTower i x).downgrades = s.downgrades := rfl
@[simp] theorem State.setTower_mcReqs (s : State) (i : Nat) (x : Tower) : (s.setTower i x).mcReqs = s.mcReqs := rfl
@[simp] theorem State.setTower_mcSets (s : State) (i : Nat) (x : Tower) : (s.setTower i x).mcSets = s.mcSets := rfl
@[simp] theorem State.setTower_colls (s : State) (i : Nat) (x : Tower) : (s.setTower i x).colls = s.colls := rfl
@[simp] theorem State.setTower_keystone (s : State) (i : Nat) (x : Tower) : (s.setTower i x).keystone = s.keystone := rfl
@[simp] theorem State.setTower_packets (s : State) (i : Nat) (x : Tower) : (s.setTower i x).packets = s.packets := rfl
@[simp] theorem State.setTower_routers (s : State) (i : Nat) (x : Tower) : (s.setTower i x).routers = s.routers := rfl
@[simp] theorem State.setTower_equinox (s : State) (i : Nat) (x : Tower) : (s.setTower i x).equinox = s.equinox := rfl
@[simp] theorem State.setTower_vacantReqs (s : State) (i : Nat) (x : Tower) : (s.setTower i x).vacantReqs = s.vacantReqs := rfl
@[simp] theorem State.setTower_osCores (s : State) (i : Nat) (x : Tower) : (s.setTower i x).osCores = s.osCores := rfl
@[simp] theorem State.setTower_osLog (s : State) (i : Nat) (x : Tower) : (s.setTower i x).osLog = s.osLog := rfl
@[simp] theorem State.setTower_schedule (s : State) (i : Nat) (x : Tower) : (s.setTower i x).schedule = s.schedule := rfl
@[simp] theorem State.setTower_freeIx (s : State) (i : Nat) (x : Tower) : (s.setTower i x).freeIx = s.freeIx := rfl
@[simp] theorem State.setTower_cur (s : State) (i : Nat) (x : Tower) : (s.setTower i x).cur = s.cur := rfl
@[simp] theorem State.setTower_curOs (s : State) (i : Nat) (x : Tower) : (s.setTower i x).curOs = s.curOs := rfl
@[simp] theorem State.setTower_nextId (s : State) (i : Nat) (x : Tower) : (s.setTower i x).nextId = s.nextId := rfl
theorem State.tower_setTower (s : State) (i j : Nat) (x : Tower) : (s.setTower i x).tower j = if i = j then x else s.tower j := by
  simp [State.tower, Tbl.findD_put]
@[simp] theorem State.tower_setTower_self (s : State) (i : Nat) (x : Tower) : (s.setTower i x).tower i = x := by simp [State.tower_setTower]
theorem State.tower_setTower_ne (s : State) {i j : Nat} (x : Tower) (h : i ≠ j) : (s.setTower i x).tower j = s.tower j := by
  simp [State.tower_setTower, h]
@[simp] theorem State.sl_setTower (s : State) (i : Nat) (x : Tower) (k : Nat) : (s.setTower i x).sl k = s.sl k := rfl
@[simp] theorem State.crew_setTower (s : State) (i : Nat) (x : Tower) (k : Nat) : (s.setTower i x).crew k = s.crew k := rfl
@[simp] theorem State.span_setTower (s : State) (i : Nat) (x : Tower) (k : Nat) : (s.setTower i x).span k = s.span k := rfl
@[simp] theorem State.core_setTower (s : State) (i : Nat) (x : Tower) (k : Nat) : (s.setTower i x).core k = s.core k := rfl
@[simp] theorem State.cluster_setTower (s : State) (i : Nat) (x : Tower) (k : Nat) : (s.setTower i x).cluster k = s.cluster k := rfl
@[simp] theorem State.pkg_setTower (s : State) (i : Nat) (x : Tower) (k : Nat) : (s.setTower i x).pkg k = s.pkg k := rfl
@[simp] theorem State.ctx_setTower (s : State) (i : Nat) (x : Tower) (k : Nat) : (s.setTower i x).ctx k = s.ctx k := rfl

/-! ### setPkg -/

@[simp] theorem State.updPkg_eq (s : State) (i : Nat) (f : Pkg → Pkg) : s.updPkg i f = s.setPkg i (f (s.pkg i)) := rfl
@[simp] theorem State.setPkg_pkgs (s : State) (i : Nat) (x : Pkg) : (s.setPkg i x).pkgs = Tbl.put s.pkgs i x := rfl
@[simp] theorem State.setPkg_npkgs (s : State) (i : Nat) (x : Pkg) : (s.setPkg i x).npkgs = s.npkgs := rfl
@[simp] theorem State.setPkg_towers (s : State) (i : Nat) (x : Pkg) : (s.setPkg i x).towers = s.towers := rfl
@[simp] theorem State.setPkg_clusters (s : State) (i : Nat) (x : Pkg) : (s.setPkg i x).clusters = s.clusters := rfl
@[simp] theorem State.setPkg_cores (s : State) (i : Nat) (x : Pkg) : (s.setPkg i x).cores = s.cores := rfl
@[simp] theorem State.setPkg_ctxs (s : State) (i : Nat) (x : Pkg) : (s.setPkg i x).ctxs = s.ctxs := rfl
@[simp] theorem State.setPkg_launches (s : State) (i : Nat) (x : Pkg) : (s.setPkg i x).launches = s.launches := rfl
@[simp] theorem State.setPkg_spans (s : State) (i : Nat) (x : Pkg) : (s.setPkg i x).spans = s.spans := rfl
@[simp] theorem State.setPkg_crews (s : State) (i : Nat) (x : Pkg) : (s.setPkg i x).crews = s.crews := rfl
@[simp] theorem State.setPkg_slices (s : State) (i : Nat) (x : Pkg) : (s.setPkg i x).slices = s.slices := rfl
@[simp] theorem State.setPkg_mem (s : State) (i : Nat) (x : Pkg) : (s.setPkg i x).mem = s.mem := rfl
@[simp] theorem State.setPkg_stash (s : State) (i : Nat) (x : Pkg) : (s.setPkg i x).stash = s.stash := rfl
@[simp] theorem State.setPkg_scratch (s : State) (i : Nat) (x : Pkg) : (s.setPkg i x).scratch = s.scratch := rfl
@[simp] theorem State.setPkg_llc (s : State) (i : Nat) (x : Pkg) : (s.setPkg i x).llc = s.llc := rfl
@[simp] theorem State.setPkg_llcData (s : State) (i : Nat) (x : Pkg) : (s.setPkg i x).llcData = s.llcData := rfl
@[simp] theorem State.setPkg_l2 (s : State) (i : Nat) (x : Pkg) : (s.setPkg i x).l2 = s.l2 := rfl
@[simp] theorem State.setPkg_l2Data (s : State) (i : Nat) (x : Pkg) : (s.setPkg i x).l2Data = s.l2Data := rfl
@[simp] theorem State.setPkg_writeBacks (s : State) (i : Nat) (x : Pkg) : (s.setPkg i x).writeBacks = s.writeBacks := rfl
@[simp] theorem State.setPkg_banks (s : State) (i : Nat) (x : Pkg) : (s.setPkg i x).banks = s.banks := rfl
@[simp] theorem State.setPkg_bankClock (s : State) (i : Nat) (x : Pkg) : (s.setPkg i x).bankClock = s.bankClock := rfl
@[simp] theorem State.setPkg_migs (s : State) (i : Nat) (x : Pkg) : (s.setPkg i x).migs = s.migs := rfl
@[simp] theorem State.setPkg_migCounts (s : State) (i : Nat) (x : Pkg) : (s.setPkg i x).migCounts = s.migCounts := rfl
@[simp] theorem State.setPkg_poison (s : State) (i : Nat) (x : Pkg) : (s.setPkg i x).poison = s.poison := rfl
@[simp] theorem State.setPkg_resReqs (s : State) (i : Nat) (x : Pkg) : (s.setPkg i x).resReqs = s.resReqs := rfl
@[simp] theorem State.setPkg_clrReqs (s : State) (i : Nat) (x : Pkg) : (s.setPkg i x).clrReqs = s.clrReqs := rfl
@[simp] theorem State.setPkg_fillReqs (s : State) (i : Nat) (x : Pkg) : (s.setPkg i x).fillReqs = s.fillReqs := rfl
@[simp] theorem State.setPkg_downgrades (s : State) (i : Nat) (x : Pkg) : (s.setPkg i x).downgrades = s.downgrades := rfl
@[simp] theorem State.setPkg_mcReqs (s : State) (i : Nat) (x : Pkg) : (s.setPkg i x).mcReqs = s.mcReqs := rfl
@[simp] theorem State.setPkg_mcSets (s : State) (i : Nat) (x : Pkg) : (s.setPkg i x).mcSets = s.mcSets := rfl
@[simp] theorem State.setPkg_colls (s : State) (i : Nat) (x : Pkg) : (s.setPkg i x).colls = s.colls := rfl
@[simp] theorem State.setPkg_keystone (s : State) (i : Nat) (x : Pkg) : (s.setPkg i x).keystone = s.keystone := rfl
@[simp] theorem State.setPkg_packets (s : State) (i : Nat) (x : Pkg) : (s.setPkg i x).packets = s.packets := rfl
@[simp] theorem State.setPkg_routers (s : State) (i : Nat) (x : Pkg) : (s.setPkg i x).routers = s.routers := rfl
@[simp] theorem State.setPkg_equinox (s : State) (i : Nat) (x : Pkg) : (s.setPkg i x).equinox = s.equinox := rfl
@[simp] theorem State.setPkg_vacantReqs (s : State) (i : Nat) (x : Pkg) : (s.setPkg i x).vacantReqs = s.vacantReqs := rfl
@[simp] theorem State.setPkg_osCores (s : State) (i : Nat) (x : Pkg) : (s.setPkg i x).osCores = s.osCores := rfl
@[simp] theorem State.setPkg_osLog (s : State) (i : Nat) (x : Pkg) : (s.setPkg i x).osLog = s.osLog := rfl
@[simp] theorem State.setPkg_schedule (s : State) (i : Nat) (x : Pkg) : (s.setPkg i x).schedule = s.schedule := rfl
@[simp] theorem State.setPkg_freeIx (s : State) (i : Nat) (x : Pkg) : (s.setPkg i x).freeIx = s.freeIx := rfl
@[simp] theorem State.setPkg_cur (s : State) (i : Nat) (x : Pkg) : (s.setPkg i x).cur = s.cur := rfl
@[simp] theorem State.setPkg_curOs (s : State) (i : Nat) (x : Pkg) : (s.setPkg i x).curOs = s.curOs := rfl
@[simp] theorem State.setPkg_nextId (s : State) (i : Nat) (x : Pkg) : (s.setPkg i x).nextId = s.nextId := rfl
theorem State.pkg_setPkg (s : State) (i j : Nat) (x : Pkg) : (s.setPkg i x).pkg j = if i = j then x else s.pkg j := by
  simp [State.pkg, Tbl.findD_put]
@[simp] theorem State.pkg_setPkg_self (s : State) (i : Nat) (x : Pkg) : (s.setPkg i x).pkg i = x := by simp [State.pkg_setPkg]
theorem State.pkg_setPkg_ne (s : State) {i j : Nat} (x : Pkg) (h : i ≠ j) : (s.setPkg i x).pkg j = s.pkg j := by
  simp [State.pkg_setPkg, h]
@[simp] theorem State.sl_setPkg (s : State) (i : Nat) (x : Pkg) (k : Nat) : (s.setPkg i x).sl k = s.sl k := rfl
@[simp] theorem State.crew_setPkg (s : State) (i : Nat) (x : Pkg) (k : Nat) : (s.setPkg i x).crew k = s.crew k := rfl
@[simp] theorem State.span_setPkg (s : State) (i : Nat) (x : Pkg) (k : Nat) : (s.setPkg i x).span k = s.span k := rfl
@[simp] theorem State.core_setPkg (s : State) (i : Nat) (x : Pkg) (k : Nat) : (s.setPkg i x).core k = s.core k := rfl
@[simp] theorem State.cluster_setPkg (s : State) (i : Nat) (x : Pkg) (k : Nat) : (s.setPkg i x).cluster k = s.cluster k := rfl
@[simp] theorem State.tower_setPkg (s : State) (i : Nat) (x : Pkg) (k : Nat) : (s.setPkg i x).tower k = s.tower k := rfl
@[simp] theorem State.ctx_setPkg (s : State) (i : Nat) (x : Pkg) (k : Nat) : (s.setPkg i x).ctx k = s.ctx k := rfl

/-! ### setCtx -/

@[simp] theorem State.setCtx_ctxs (s : State) (i : Nat) (x : Ctx) : (s.setCtx i x).ctxs = Tbl.put s.ctxs i x := rfl
@[simp] theorem State.setCtx_npkgs (s : State) (i : Nat) (x : Ctx) : (s.setCtx i x).npkgs = s.npkgs := rfl
@[simp] theorem State.setCtx_pkgs (s : State) (i : Nat) (x : Ctx) : (s.setCtx i x).pkgs = s.pkgs := rfl
@[simp] theorem State.setCtx_towers (s : State) (i : Nat) (x : Ctx) : (s.setCtx i x).towers = s.towers := rfl
@[simp] theorem State.setCtx_clusters (s : State) (i : Nat) (x : Ctx) : (s.setCtx i x).clusters = s.clusters := rfl
@[simp] theorem State.setCtx_cores (s : State) (i : Nat) (x : Ctx) : (s.setCtx i x).cores = s.cores := rfl
@[simp] theorem State.setCtx_launches (s : State) (i : Nat) (x : Ctx) : (s.setCtx i x).launches = s.launches := rfl
@[simp] theorem State.setCtx_spans (s : State) (i : Nat) (x : Ctx) : (s.setCtx i x).spans = s.spans := rfl
@[simp] theorem State.setCtx_crews (s : State) (i : Nat) (x : Ctx) : (s.setCtx i x).crews = s.crews := rfl
@[simp] theorem State.setCtx_slices (s : State) (i : Nat) (x : Ctx) : (s.setCtx i x).slices = s.slices := rfl
@[simp] theorem State.setCtx_mem (s : State) (i : Nat) (x : Ctx) : (s.setCtx i x).mem = s.mem := rfl
@[simp] theorem State.setCtx_stash (s : State) (i : Nat) (x : Ctx) : (s.setCtx i x).stash = s.stash := rfl
@[simp] theorem State.setCtx_scratch (s : State) (i : Nat) (x : Ctx) : (s.setCtx i x).scratch = s.scratch := rfl
@[simp] theorem State.setCtx_llc (s : State) (i : Nat) (x : Ctx) : (s.setCtx i x).llc = s.llc := rfl
@[simp] theorem State.setCtx_llcData (s : State) (i : Nat) (x : Ctx) : (s.setCtx i x).llcData = s.llcData := rfl
@[simp] theorem State.setCtx_l2 (s : State) (i : Nat) (x : Ctx) : (s.setCtx i x).l2 = s.l2 := rfl
@[simp] theorem State.setCtx_l2Data (s : State) (i : Nat) (x : Ctx) : (s.setCtx i x).l2Data = s.l2Data := rfl
@[simp] theorem State.setCtx_writeBacks (s : State) (i : Nat) (x : Ctx) : (s.setCtx i x).writeBacks = s.writeBacks := rfl
@[simp] theorem State.setCtx_banks (s : State) (i : Nat) (x : Ctx) : (s.setCtx i x).banks = s.banks := rfl
@[simp] theorem State.setCtx_bankClock (s : State) (i : Nat) (x : Ctx) : (s.setCtx i x).bankClock = s.bankClock := rfl
@[simp] theorem State.setCtx_migs (s : State) (i : Nat) (x : Ctx) : (s.setCtx i x).migs = s.migs := rfl
@[simp] theorem State.setCtx_migCounts (s : State) (i : Nat) (x : Ctx) : (s.setCtx i x).migCounts = s.migCounts := rfl
@[simp] theorem State.setCtx_poison (s : State) (i : Nat) (x : Ctx) : (s.setCtx i x).poison = s.poison := rfl
@[simp] theorem State.setCtx_resReqs (s : State) (i : Nat) (x : Ctx) : (s.setCtx i x).resReqs = s.resReqs := rfl
@[simp] theorem State.setCtx_clrReqs (s : State) (i : Nat) (x : Ctx) : (s.setCtx i x).clrReqs = s.clrReqs := rfl
@[simp] theorem State.setCtx_fillReqs (s : State) (i : Nat) (x : Ctx) : (s.setCtx i x).fillReqs = s.fillReqs := rfl
@[simp] theorem State.setCtx_downgrades (s : State) (i : Nat) (x : Ctx) : (s.setCtx i x).downgrades = s.downgrades := rfl
@[simp] theorem State.setCtx_mcReqs (s : State) (i : Nat) (x : Ctx) : (s.setCtx i x).mcReqs = s.mcReqs := rfl
@[simp] theorem State.setCtx_mcSets (s : State) (i : Nat) (x : Ctx) : (s.setCtx i x).mcSets = s.mcSets := rfl
@[simp] theorem State.setCtx_colls (s : State) (i : Nat) (x : Ctx) : (s.setCtx i x).colls = s.colls := rfl
@[simp] theorem State.setCtx_keystone (s : State) (i : Nat) (x : Ctx) : (s.setCtx i x).keystone = s.keystone := rfl
@[simp] theorem State.setCtx_packets (s : State) (i : Nat) (x : Ctx) : (s.setCtx i x).packets = s.packets := rfl
@[simp] theorem State.setCtx_routers (s : State) (i : Nat) (x : Ctx) : (s.setCtx i x).routers = s.routers := rfl
@[simp] theorem State.setCtx_equinox (s : State) (i : Nat) (x : Ctx) : (s.setCtx i x).equinox = s.equinox := rfl
@[simp] theorem State.setCtx_vacantReqs (s : State) (i : Nat) (x : Ctx) : (s.setCtx i x).vacantReqs = s.vacantReqs := rfl
@[simp] theorem State.setCtx_osCores (s : State) (i : Nat) (x : Ctx) : (s.setCtx i x).osCores = s.osCores := rfl
@[simp] theorem State.setCtx_osLog (s : State) (i : Nat) (x : Ctx) : (s.setCtx i x).osLog = s.osLog := rfl
@[simp] theorem State.setCtx_schedule (s : State) (i : Nat) (x : Ctx) : (s.setCtx i x).schedule = s.schedule := rfl
@[simp] theorem State.setCtx_freeIx (s : State) (i : Nat) (x : Ctx) : (s.setCtx i x).freeIx = s.freeIx := rfl
@[simp] theorem State.setCtx_cur (s : State) (i : Nat) (x : Ctx) : (s.setCtx i x).cur = s.cur := rfl
@[simp] theorem State.setCtx_curOs (s : State) (i : Nat) (x : Ctx) : (s.setCtx i x).curOs = s.curOs := rfl
@[simp] theorem State.setCtx_nextId (s : State) (i : Nat) (x : Ctx) : (s.setCtx i x).nextId = s.nextId := rfl
theorem State.ctx_setCtx (s : State) (i j : Nat) (x : Ctx) : (s.setCtx i x).ctx j = if i = j then x else s.ctx j := by
  simp [State.ctx, Tbl.findD_put]
@[simp] theorem State.ctx_setCtx_self (s : State) (i : Nat) (x : Ctx) : (s.setCtx i x).ctx i = x := by simp [State.ctx_setCtx]
theorem State.ctx_setCtx_ne (s : State) {i j : Nat} (x : Ctx) (h : i ≠ j) : (s.setCtx i x).ctx j = s.ctx j := by
  simp [State.ctx_setCtx, h]
@[simp] theorem State.sl_setCtx (s : State) (i : Nat) (x : Ctx) (k : Nat) : (s.setCtx i x).sl k = s.sl k := rfl
@[simp] theorem State.crew_setCtx (s : State) (i : Nat) (x : Ctx) (k : Nat) : (s.setCtx i x).crew k = s.crew k := rfl
@[simp] theorem State.span_setCtx (s : State) (i : Nat) (x : Ctx) (k : Nat) : (s.setCtx i x).span k = s.span k := rfl
@[simp] theorem State.core_setCtx (s : State) (i : Nat) (x : Ctx) (k : Nat) : (s.setCtx i x).core k = s.core k := rfl
@[simp] theorem State.cluster_setCtx (s : State) (i : Nat) (x : Ctx) (k : Nat) : (s.setCtx i x).cluster k = s.cluster k := rfl
@[simp] theorem State.tower_setCtx (s : State) (i : Nat) (x : Ctx) (k : Nat) : (s.setCtx i x).tower k = s.tower k := rfl
@[simp] theorem State.pkg_setCtx (s : State) (i : Nat) (x : Ctx) (k : Nat) : (s.setCtx i x).pkg k = s.pkg k := rfl

theorem State.updCtx_eq (s : State) (i : Nat) (f : Ctx → Ctx) :
    s.updCtx i f = if s.hasCtx i then s.setCtx i (f (s.ctx i)) else s := rfl
@[simp] theorem State.updCtx_npkgs (s : State) (i : Nat) (f : Ctx → Ctx) : (s.updCtx i f).npkgs = s.npkgs := by
  rw [State.updCtx_eq]; split <;> rfl
@[simp] theorem State.updCtx_pkgs (s : State) (i : Nat) (f : Ctx → Ctx) : (s.updCtx i f).pkgs = s.pkgs := by
  rw [State.updCtx_eq]; split <;> rfl
@[simp] theorem State.updCtx_towers (s : State) (i : Nat) (f : Ctx → Ctx) : (s.updCtx i f).towers = s.towers := by
  rw [State.updCtx_eq]; split <;> rfl
@[simp] theorem State.updCtx_clusters (s : State) (i : Nat) (f : Ctx → Ctx) : (s.updCtx i f).clusters = s.clusters := by
  rw [State.updCtx_eq]; split <;> rfl
@[simp] theorem State.updCtx_cores (s : State) (i : Nat) (f : Ctx → Ctx) : (s.updCtx i f).cores = s.cores := by
  rw [State.updCtx_eq]; split <;> rfl
@[simp] theorem State.updCtx_launches (s : State) (i : Nat) (f : Ctx → Ctx) : (s.updCtx i f).launches = s.launches := by
  rw [State.updCtx_eq]; split <;> rfl
@[simp] theorem State.updCtx_spans (s : State) (i : Nat) (f : Ctx → Ctx) : (s.updCtx i f).spans = s.spans := by
  rw [State.updCtx_eq]; split <;> rfl
@[simp] theorem State.updCtx_crews (s : State) (i : Nat) (f : Ctx → Ctx) : (s.updCtx i f).crews = s.crews := by
  rw [State.updCtx_eq]; split <;> rfl
@[simp] theorem State.updCtx_slices (s : State) (i : Nat) (f : Ctx → Ctx) : (s.updCtx i f).slices = s.slices := by
  rw [State.updCtx_eq]; split <;> rfl
@[simp] theorem State.updCtx_mem (s : State) (i : Nat) (f : Ctx → Ctx) : (s.updCtx i f).mem = s.mem := by
  rw [State.updCtx_eq]; split <;> rfl
@[simp] theorem State.updCtx_stash (s : State) (i : Nat) (f : Ctx → Ctx) : (s.updCtx i f).stash = s.stash := by
  rw [State.updCtx_eq]; split <;> rfl
@[simp] theorem State.updCtx_scratch (s : State) (i : Nat) (f : Ctx → Ctx) : (s.updCtx i f).scratch = s.scratch := by
  rw [State.updCtx_eq]; split <;> rfl
@[simp] theorem State.updCtx_llc (s : State) (i : Nat) (f : Ctx → Ctx) : (s.updCtx i f).llc = s.llc := by
  rw [State.updCtx_eq]; split <;> rfl
@[simp] theorem State.updCtx_llcData (s : State) (i : Nat) (f : Ctx → Ctx) : (s.updCtx i f).llcData = s.llcData := by
  rw [State.updCtx_eq]; split <;> rfl
@[simp] theorem State.updCtx_l2 (s : State) (i : Nat) (f : Ctx → Ctx) : (s.updCtx i f).l2 = s.l2 := by
  rw [State.updCtx_eq]; split <;> rfl
@[simp] theorem State.updCtx_l2Data (s : State) (i : Nat) (f : Ctx → Ctx) : (s.updCtx i f).l2Data = s.l2Data := by
  rw [State.updCtx_eq]; split <;> rfl
@[simp] theorem State.updCtx_writeBacks (s : State) (i : Nat) (f : Ctx → Ctx) : (s.updCtx i f).writeBacks = s.writeBacks := by
  rw [State.updCtx_eq]; split <;> rfl
@[simp] theorem State.updCtx_banks (s : State) (i : Nat) (f : Ctx → Ctx) : (s.updCtx i f).banks = s.banks := by
  rw [State.updCtx_eq]; split <;> rfl
@[simp] theorem State.updCtx_bankClock (s : State) (i : Nat) (f : Ctx → Ctx) : (s.updCtx i f).bankClock = s.bankClock := by
  rw [State.updCtx_eq]; split <;> rfl
@[simp] theorem State.updCtx_migs (s : State) (i : Nat) (f : Ctx → Ctx) : (s.updCtx i f).migs = s.migs := by
  rw [State.updCtx_eq]; split <;> rfl
@[simp] theorem State.updCtx_migCounts (s : State) (i : Nat) (f : Ctx → Ctx) : (s.updCtx i f).migCounts = s.migCounts := by
  rw [State.updCtx_eq]; split <;> rfl
@[simp] theorem State.updCtx_poison (s : State) (i : Nat) (f : Ctx → Ctx) : (s.updCtx i f).poison = s.poison := by
  rw [State.updCtx_eq]; split <;> rfl
@[simp] theorem State.updCtx_resReqs (s : State) (i : Nat) (f : Ctx → Ctx) : (s.updCtx i f).resReqs = s.resReqs := by
  rw [State.updCtx_eq]; split <;> rfl
@[simp] theorem State.updCtx_clrReqs (s : State) (i : Nat) (f : Ctx → Ctx) : (s.updCtx i f).clrReqs = s.clrReqs := by
  rw [State.updCtx_eq]; split <;> rfl
@[simp] theorem State.updCtx_fillReqs (s : State) (i : Nat) (f : Ctx → Ctx) : (s.updCtx i f).fillReqs = s.fillReqs := by
  rw [State.updCtx_eq]; split <;> rfl
@[simp] theorem State.updCtx_downgrades (s : State) (i : Nat) (f : Ctx → Ctx) : (s.updCtx i f).downgrades = s.downgrades := by
  rw [State.updCtx_eq]; split <;> rfl
@[simp] theorem State.updCtx_mcReqs (s : State) (i : Nat) (f : Ctx → Ctx) : (s.updCtx i f).mcReqs = s.mcReqs := by
  rw [State.updCtx_eq]; split <;> rfl
@[simp] theorem State.updCtx_mcSets (s : State) (i : Nat) (f : Ctx → Ctx) : (s.updCtx i f).mcSets = s.mcSets := by
  rw [State.updCtx_eq]; split <;> rfl
@[simp] theorem State.updCtx_colls (s : State) (i : Nat) (f : Ctx → Ctx) : (s.updCtx i f).colls = s.colls := by
  rw [State.updCtx_eq]; split <;> rfl
@[simp] theorem State.updCtx_keystone (s : State) (i : Nat) (f : Ctx → Ctx) : (s.updCtx i f).keystone = s.keystone := by
  rw [State.updCtx_eq]; split <;> rfl
@[simp] theorem State.updCtx_packets (s : State) (i : Nat) (f : Ctx → Ctx) : (s.updCtx i f).packets = s.packets := by
  rw [State.updCtx_eq]; split <;> rfl
@[simp] theorem State.updCtx_routers (s : State) (i : Nat) (f : Ctx → Ctx) : (s.updCtx i f).routers = s.routers := by
  rw [State.updCtx_eq]; split <;> rfl
@[simp] theorem State.updCtx_equinox (s : State) (i : Nat) (f : Ctx → Ctx) : (s.updCtx i f).equinox = s.equinox := by
  rw [State.updCtx_eq]; split <;> rfl
@[simp] theorem State.updCtx_vacantReqs (s : State) (i : Nat) (f : Ctx → Ctx) : (s.updCtx i f).vacantReqs = s.vacantReqs := by
  rw [State.updCtx_eq]; split <;> rfl
@[simp] theorem State.updCtx_osCores (s : State) (i : Nat) (f : Ctx → Ctx) : (s.updCtx i f).osCores = s.osCores := by
  rw [State.updCtx_eq]; split <;> rfl
@[simp] theorem State.updCtx_osLog (s : State) (i : Nat) (f : Ctx → Ctx) : (s.updCtx i f).osLog = s.osLog := by
  rw [State.updCtx_eq]; split <;> rfl
@[simp] theorem State.updCtx_schedule (s : State) (i : Nat) (f : Ctx → Ctx) : (s.updCtx i f).schedule = s.schedule := by
  rw [State.updCtx_eq]; split <;> rfl
@[simp] theorem State.updCtx_freeIx (s : State) (i : Nat) (f : Ctx → Ctx) : (s.updCtx i f).freeIx = s.freeIx := by
  rw [State.updCtx_eq]; split <;> rfl
@[simp] theorem State.updCtx_cur (s : State) (i : Nat) (f : Ctx → Ctx) : (s.updCtx i f).cur = s.cur := by
  rw [State.updCtx_eq]; split <;> rfl
@[simp] theorem State.updCtx_curOs (s : State) (i : Nat) (f : Ctx → Ctx) : (s.updCtx i f).curOs = s.curOs := by
  rw [State.updCtx_eq]; split <;> rfl
@[simp] theorem State.updCtx_nextId (s : State) (i : Nat) (f : Ctx → Ctx) : (s.updCtx i f).nextId = s.nextId := by
  rw [State.updCtx_eq]; split <;> rfl

/-! ### updLaunch -/

@[simp] theorem State.updLaunch_launches (s : State) (i : Nat) (f : Launch → Launch): (s.updLaunch i f).launches = Tbl.upd s.launches i f := rfl
@[simp] theorem State.updLaunch_npkgs (s : State) (i : Nat) (f : Launch → Launch): (s.updLaunch i f).npkgs = s.npkgs := rfl
@[simp] theorem State.updLaunch_pkgs (s : State) (i : Nat) (f : Launch → Launch): (s.updLaunch i f).pkgs = s.pkgs := rfl
@[simp] theorem State.updLaunch_towers (s : State) (i : Nat) (f : Launch → Launch): (s.updLaunch i f).towers = s.towers := rfl
@[simp] theorem State.updLaunch_clusters (s : State) (i : Nat) (f : Launch → Launch): (s.updLaunch i f).clusters = s.clusters := rfl
@[simp] theorem State.updLaunch_cores (s : State) (i : Nat) (f : Launch → Launch): (s.updLaunch i f).cores = s.cores := rfl
@[simp] theorem State.updLaunch_ctxs (s : State) (i : Nat) (f : Launch → Launch): (s.updLaunch i f).ctxs = s.ctxs := rfl
@[simp] theorem State.updLaunch_spans (s : State) (i : Nat) (f : Launch → Launch): (s.updLaunch i f).spans = s.spans := rfl
@[simp] theorem State.updLaunch_crews (s : State) (i : Nat) (f : Launch → Launch): (s.updLaunch i f).crews = s.crews := rfl
@[simp] theorem State.updLaunch_slices (s : State) (i : Nat) (f : Launch → Launch): (s.updLaunch i f).slices = s.slices := rfl
@[simp] theorem State.updLaunch_mem (s : State) (i : Nat) (f : Launch → Launch): (s.updLaunch i f).mem = s.mem := rfl
@[simp] theorem State.updLaunch_stash (s : State) (i : Nat) (f : Launch → Launch): (s.updLaunch i f).stash = s.stash := rfl
@[simp] theorem State.updLaunch_scratch (s : State) (i : Nat) (f : Launch → Launch): (s.updLaunch i f).scratch = s.scratch := rfl
@[simp] theorem State.updLaunch_llc (s : State) (i : Nat) (f : Launch → Launch): (s.updLaunch i f).llc = s.llc := rfl
@[simp] theorem State.updLaunch_llcData (s : State) (i : Nat) (f : Launch → Launch): (s.updLaunch i f).llcData = s.llcData := rfl
@[simp] theorem State.updLaunch_l2 (s : State) (i : Nat) (f : Launch → Launch): (s.updLaunch i f).l2 = s.l2 := rfl
@[simp] theorem State.updLaunch_l2Data (s : State) (i : Nat) (f : Launch → Launch): (s.updLaunch i f).l2Data = s.l2Data := rfl
@[simp] theorem State.updLaunch_writeBacks (s : State) (i : Nat) (f : Launch → Launch): (s.updLaunch i f).writeBacks = s.writeBacks := rfl
@[simp] theorem State.updLaunch_banks (s : State) (i : Nat) (f : Launch → Launch): (s.updLaunch i f).banks = s.banks := rfl
@[simp] theorem State.updLaunch_bankClock (s : State) (i : Nat) (f : Launch → Launch): (s.updLaunch i f).bankClock = s.bankClock := rfl
@[simp] theorem State.updLaunch_migs (s : State) (i : Nat) (f : Launch → Launch): (s.updLaunch i f).migs = s.migs := rfl
@[simp] theorem State.updLaunch_migCounts (s : State) (i : Nat) (f : Launch → Launch): (s.updLaunch i f).migCounts = s.migCounts := rfl
@[simp] theorem State.updLaunch_poison (s : State) (i : Nat) (f : Launch → Launch): (s.updLaunch i f).poison = s.poison := rfl
@[simp] theorem State.updLaunch_resReqs (s : State) (i : Nat) (f : Launch → Launch): (s.updLaunch i f).resReqs = s.resReqs := rfl
@[simp] theorem State.updLaunch_clrReqs (s : State) (i : Nat) (f : Launch → Launch): (s.updLaunch i f).clrReqs = s.clrReqs := rfl
@[simp] theorem State.updLaunch_fillReqs (s : State) (i : Nat) (f : Launch → Launch): (s.updLaunch i f).fillReqs = s.fillReqs := rfl
@[simp] theorem State.updLaunch_downgrades (s : State) (i : Nat) (f : Launch → Launch): (s.updLaunch i f).downgrades = s.downgrades := rfl
@[simp] theorem State.updLaunch_mcReqs (s : State) (i : Nat) (f : Launch → Launch): (s.updLaunch i f).mcReqs = s.mcReqs := rfl
@[simp] theorem State.updLaunch_mcSets (s : State) (i : Nat) (f : Launch → Launch): (s.updLaunch i f).mcSets = s.mcSets := rfl
@[simp] theorem State.updLaunch_colls (s : State) (i : Nat) (f : Launch → Launch): (s.updLaunch i f).colls = s.colls := rfl
@[simp] theorem State.updLaunch_keystone (s : State) (i : Nat) (f : Launch → Launch): (s.updLaunch i f).keystone = s.keystone := rfl
@[simp] theorem State.updLaunch_packets (s : State) (i : Nat) (f : Launch → Launch): (s.updLaunch i f).packets = s.packets := rfl
@[simp] theorem State.updLaunch_routers (s : State) (i : Nat) (f : Launch → Launch): (s.updLaunch i f).routers = s.routers := rfl
@[simp] theorem State.updLaunch_equinox (s : State) (i : Nat) (f : Launch → Launch): (s.updLaunch i f).equinox = s.equinox := rfl
@[simp] theorem State.updLaunch_vacantReqs (s : State) (i : Nat) (f : Launch → Launch): (s.updLaunch i f).vacantReqs = s.vacantReqs := rfl
@[simp] theorem State.updLaunch_osCores (s : State) (i : Nat) (f : Launch → Launch): (s.updLaunch i f).osCores = s.osCores := rfl
@[simp] theorem State.updLaunch_osLog (s : State) (i : Nat) (f : Launch → Launch): (s.updLaunch i f).osLog = s.osLog := rfl
@[simp] theorem State.updLaunch_schedule (s : State) (i : Nat) (f : Launch → Launch): (s.updLaunch i f).schedule = s.schedule := rfl
@[simp] theorem State.updLaunch_freeIx (s : State) (i : Nat) (f : Launch → Launch): (s.updLaunch i f).freeIx = s.freeIx := rfl
@[simp] theorem State.updLaunch_cur (s : State) (i : Nat) (f : Launch → Launch): (s.updLaunch i f).cur = s.cur := rfl
@[simp] theorem State.updLaunch_curOs (s : State) (i : Nat) (f : Launch → Launch): (s.updLaunch i f).curOs = s.curOs := rfl
@[simp] theorem State.updLaunch_nextId (s : State) (i : Nat) (f : Launch → Launch): (s.updLaunch i f).nextId = s.nextId := rfl
@[simp] theorem State.updLaunch_sl (s : State) (i : Nat) (f : Launch → Launch) (k : Nat) : (s.updLaunch i f).sl k = s.sl k := rfl
@[simp] theorem State.updLaunch_crew (s : State) (i : Nat) (f : Launch → Launch) (k : Nat) : (s.updLaunch i f).crew k = s.crew k := rfl
@[simp] theorem State.updLaunch_span (s : State) (i : Nat) (f : Launch → Launch) (k : Nat) : (s.updLaunch i f).span k = s.span k := rfl
@[simp] theorem State.updLaunch_core (s : State) (i : Nat) (f : Launch → Launch) (k : Nat) : (s.updLaunch i f).core k = s.core k := rfl
@[simp] theorem State.updLaunch_cluster (s : State) (i : Nat) (f : Launch → Launch) (k : Nat) : (s.updLaunch i f).cluster k = s.cluster k := rfl
@[simp] theorem State.updLaunch_tower (s : State) (i : Nat) (f : Launch → Launch) (k : Nat) : (s.updLaunch i f).tower k = s.tower k := rfl
@[simp] theorem State.updLaunch_pkg (s : State) (i : Nat) (f : Launch → Launch) (k : Nat) : (s.updLaunch i f).pkg k = s.pkg k := rfl
@[simp] theorem State.updLaunch_ctx (s : State) (i : Nat) (f : Launch → Launch) (k : Nat) : (s.updLaunch i f).ctx k = s.ctx k := rfl

/-! ### log -/

@[simp] theorem State.log_osLog (s : State) (n : String) (l : List Nat): (s.log n l).osLog = s.osLog ++ [⟨n, l⟩] := rfl
@[simp] theorem State.log_npkgs (s : State) (n : String) (l : List Nat): (s.log n l).npkgs = s.npkgs := rfl
@[simp] theorem State.log_pkgs (s : State) (n : String) (l : List Nat): (s.log n l).pkgs = s.pkgs := rfl
@[simp] theorem State.log_towers (s : State) (n : String) (l : List Nat): (s.log n l).towers = s.towers := rfl
@[simp] theorem State.log_clusters (s : State) (n : String) (l : List Nat): (s.log n l).clusters = s.clusters := rfl
@[simp] theorem State.log_cores (s : State) (n : String) (l : List Nat): (s.log n l).cores = s.cores := rfl
@[simp] theorem State.log_ctxs (s : State) (n : String) (l : List Nat): (s.log n l).ctxs = s.ctxs := rfl
@[simp] theorem State.log_launches (s : State) (n : String) (l : List Nat): (s.log n l).launches = s.launches := rfl
@[simp] theorem State.log_spans (s : State) (n : String) (l : List Nat): (s.log n l).spans = s.spans := rfl
@[simp] theorem State.log_crews (s : State) (n : String) (l : List Nat): (s.log n l).crews = s.crews := rfl
@[simp] theorem State.log_slices (s : State) (n : String) (l : List Nat): (s.log n l).slices = s.slices := rfl
@[simp] theorem State.log_mem (s : State) (n : String) (l : List Nat): (s.log n l).mem = s.mem := rfl
@[simp] theorem State.log_stash (s : State) (n : String) (l : List Nat): (s.log n l).stash = s.stash := rfl
@[simp] theorem State.log_scratch (s : State) (n : String) (l : List Nat): (s.log n l).scratch = s.scratch := rfl
@[simp] theorem State.log_llc (s : State) (n : String) (l : List Nat): (s.log n l).llc = s.llc := rfl
@[simp] theorem State.log_llcData (s : State) (n : String) (l : List Nat): (s.log n l).llcData = s.llcData := rfl
@[simp] theorem State.log_l2 (s : State) (n : String) (l : List Nat): (s.log n l).l2 = s.l2 := rfl
@[simp] theorem State.log_l2Data (s : State) (n : String) (l : List Nat): (s.log n l).l2Data = s.l2Data := rfl
@[simp] theorem State.log_writeBacks (s : State) (n : String) (l : List Nat): (s.log n l).writeBacks = s.writeBacks := rfl
@[simp] theorem State.log_banks (s : State) (n : String) (l : List Nat): (s.log n l).banks = s.banks := rfl
@[simp] theorem State.log_bankClock (s : State) (n : String) (l : List Nat): (s.log n l).bankClock = s.bankClock := rfl
@[simp] theorem State.log_migs (s : State) (n : String) (l : List Nat): (s.log n l).migs = s.migs := rfl
@[simp] theorem State.log_migCounts (s : State) (n : String) (l : List Nat): (s.log n l).migCounts = s.migCounts := rfl
@[simp] theorem State.log_poison (s : State) (n : String) (l : List Nat): (s.log n l).poison = s.poison := rfl
@[simp] theorem State.log_resReqs (s : State) (n : String) (l : List Nat): (s.log n l).resReqs = s.resReqs := rfl
@[simp] theorem State.log_clrReqs (s : State) (n : String) (l : List Nat): (s.log n l).clrReqs = s.clrReqs := rfl
@[simp] theorem State.log_fillReqs (s : State) (n : String) (l : List Nat): (s.log n l).fillReqs = s.fillReqs := rfl
@[simp] theorem State.log_downgrades (s : State) (n : String) (l : List Nat): (s.log n l).downgrades = s.downgrades := rfl
@[simp] theorem State.log_mcReqs (s : State) (n : String) (l : List Nat): (s.log n l).mcReqs = s.mcReqs := rfl
@[simp] theorem State.log_mcSets (s : State) (n : String) (l : List Nat): (s.log n l).mcSets = s.mcSets := rfl
@[simp] theorem State.log_colls (s : State) (n : String) (l : List Nat): (s.log n l).colls = s.colls := rfl
@[simp] theorem State.log_keystone (s : State) (n : String) (l : List Nat): (s.log n l).keystone = s.keystone := rfl
@[simp] theorem State.log_packets (s : State) (n : String) (l : List Nat): (s.log n l).packets = s.packets := rfl
@[simp] theorem State.log_routers (s : State) (n : String) (l : List Nat): (s.log n l).routers = s.routers := rfl
@[simp] theorem State.log_equinox (s : State) (n : String) (l : List Nat): (s.log n l).equinox = s.equinox := rfl
@[simp] theorem State.log_vacantReqs (s : State) (n : String) (l : List Nat): (s.log n l).vacantReqs = s.vacantReqs := rfl
@[simp] theorem State.log_osCores (s : State) (n : String) (l : List Nat): (s.log n l).osCores = s.osCores := rfl
@[simp] theorem State.log_schedule (s : State) (n : String) (l : List Nat): (s.log n l).schedule = s.schedule := rfl
@[simp] theorem State.log_freeIx (s : State) (n : String) (l : List Nat): (s.log n l).freeIx = s.freeIx := rfl
@[simp] theorem State.log_cur (s : State) (n : String) (l : List Nat): (s.log n l).cur = s.cur := rfl
@[simp] theorem State.log_curOs (s : State) (n : String) (l : List Nat): (s.log n l).curOs = s.curOs := rfl
@[simp] theorem State.log_nextId (s : State) (n : String) (l : List Nat): (s.log n l).nextId = s.nextId := rfl
@[simp] theorem State.log_sl (s : State) (n : String) (l : List Nat) (k : Nat) : (s.log n l).sl k = s.sl k := rfl
@[simp] theorem State.log_crew (s : State) (n : String) (l : List Nat) (k : Nat) : (s.log n l).crew k = s.crew k := rfl
@[simp] theorem State.log_span (s : State) (n : String) (l : List Nat) (k : Nat) : (s.log n l).span k = s.span k := rfl
@[simp] theorem State.log_core (s : State) (n : String) (l : List Nat) (k : Nat) : (s.log n l).core k = s.core k := rfl
@[simp] theorem State.log_cluster (s : State) (n : String) (l : List Nat) (k : Nat) : (s.log n l).cluster k = s.cluster k := rfl
@[simp] theorem State.log_tower (s : State) (n : String) (l : List Nat) (k : Nat) : (s.log n l).tower k = s.tower k := rfl
@[simp] theorem State.log_pkg (s : State) (n : String) (l : List Nat) (k : Nat) : (s.log n l).pkg k = s.pkg k := rfl
@[simp] theorem State.log_ctx (s : State) (n : String) (l : List Nat) (k : Nat) : (s.log n l).ctx k = s.ctx k := rfl

/-! ### fresh -/

@[simp] theorem State.fresh_nextId (s : State) : s.fresh.nextId = s.nextId + 1 := rfl
@[simp] theorem State.fresh_npkgs (s : State) : s.fresh.npkgs = s.npkgs := rfl
@[simp] theorem State.fresh_pkgs (s : State) : s.fresh.pkgs = s.pkgs := rfl
@[simp] theorem State.fresh_towers (s : State) : s.fresh.towers = s.towers := rfl
@[simp] theorem State.fresh_clusters (s : State) : s.fresh.clusters = s.clusters := rfl
@[simp] theorem State.fresh_cores (s : State) : s.fresh.cores = s.cores := rfl
@[simp] theorem State.fresh_ctxs (s : State) : s.fresh.ctxs = s.ctxs := rfl
@[simp] theorem State.fresh_launches (s : State) : s.fresh.launches = s.launches := rfl
@[simp] theorem State.fresh_spans (s : State) : s.fresh.spans = s.spans := rfl
@[simp] theorem State.fresh_crews (s : State) : s.fresh.crews = s.crews := rfl
@[simp] theorem State.fresh_slices (s : State) : s.fresh.slices = s.slices := rfl
@[simp] theorem State.fresh_mem (s : State) : s.fresh.mem = s.mem := rfl
@[simp] theorem State.fresh_stash (s : State) : s.fresh.stash = s.stash := rfl
@[simp] theorem State.fresh_scratch (s : State) : s.fresh.scratch = s.scratch := rfl
@[simp] theorem State.fresh_llc (s : State) : s.fresh.llc = s.llc := rfl
@[simp] theorem State.fresh_llcData (s : State) : s.fresh.llcData = s.llcData := rfl
@[simp] theorem State.fresh_l2 (s : State) : s.fresh.l2 = s.l2 := rfl
@[simp] theorem State.fresh_l2Data (s : State) : s.fresh.l2Data = s.l2Data := rfl
@[simp] theorem State.fresh_writeBacks (s : State) : s.fresh.writeBacks = s.writeBacks := rfl
@[simp] theorem State.fresh_banks (s : State) : s.fresh.banks = s.banks := rfl
@[simp] theorem State.fresh_bankClock (s : State) : s.fresh.bankClock = s.bankClock := rfl
@[simp] theorem State.fresh_migs (s : State) : s.fresh.migs = s.migs := rfl
@[simp] theorem State.fresh_migCounts (s : State) : s.fresh.migCounts = s.migCounts := rfl
@[simp] theorem State.fresh_poison (s : State) : s.fresh.poison = s.poison := rfl
@[simp] theorem State.fresh_resReqs (s : State) : s.fresh.resReqs = s.resReqs := rfl
@[simp] theorem State.fresh_clrReqs (s : State) : s.fresh.clrReqs = s.clrReqs := rfl
@[simp] theorem State.fresh_fillReqs (s : State) : s.fresh.fillReqs = s.fillReqs := rfl
@[simp] theorem State.fresh_downgrades (s : State) : s.fresh.downgrades = s.downgrades := rfl
@[simp] theorem State.fresh_mcReqs (s : State) : s.fresh.mcReqs = s.mcReqs := rfl
@[simp] theorem State.fresh_mcSets (s : State) : s.fresh.mcSets = s.mcSets := rfl
@[simp] theorem State.fresh_colls (s : State) : s.fresh.colls = s.colls := rfl
@[simp] theorem State.fresh_keystone (s : State) : s.fresh.keystone = s.keystone := rfl
@[simp] theorem State.fresh_packets (s : State) : s.fresh.packets = s.packets := rfl
@[simp] theorem State.fresh_routers (s : State) : s.fresh.routers = s.routers := rfl
@[simp] theorem State.fresh_equinox (s : State) : s.fresh.equinox = s.equinox := rfl
@[simp] theorem State.fresh_vacantReqs (s : State) : s.fresh.vacantReqs = s.vacantReqs := rfl
@[simp] theorem State.fresh_osCores (s : State) : s.fresh.osCores = s.osCores := rfl
@[simp] theorem State.fresh_osLog (s : State) : s.fresh.osLog = s.osLog := rfl
@[simp] theorem State.fresh_schedule (s : State) : s.fresh.schedule = s.schedule := rfl
@[simp] theorem State.fresh_freeIx (s : State) : s.fresh.freeIx = s.freeIx := rfl
@[simp] theorem State.fresh_cur (s : State) : s.fresh.cur = s.cur := rfl
@[simp] theorem State.fresh_curOs (s : State) : s.fresh.curOs = s.curOs := rfl
@[simp] theorem State.fresh_sl (s : State) (k : Nat) : s.fresh.sl k = s.sl k := rfl
@[simp] theorem State.fresh_crew (s : State) (k : Nat) : s.fresh.crew k = s.crew k := rfl
@[simp] theorem State.fresh_span (s : State) (k : Nat) : s.fresh.span k = s.span k := rfl
@[simp] theorem State.fresh_core (s : State) (k : Nat) : s.fresh.core k = s.core k := rfl
@[simp] theorem State.fresh_cluster (s : State) (k : Nat) : s.fresh.cluster k = s.cluster k := rfl
@[simp] theorem State.fresh_tower (s : State) (k : Nat) : s.fresh.tower k = s.tower k := rfl
@[simp] theorem State.fresh_pkg (s : State) (k : Nat) : s.fresh.pkg k = s.pkg k := rfl
@[simp] theorem State.fresh_ctx (s : State) (k : Nat) : s.fresh.ctx k = s.ctx k := rfl

end Sys2Proof.Machine
end

