-- ==== Sys2Proof/Laws/Unit.lean ====
section
/-! SUPPORT. What `runUnit` can do: the three ways in which a unit's instruction ends, and, for an instruction whose effect in a slice is
a function of that slice and of the state in which the unit issued, the whole of the next state. -/

namespace Sys2Proof.Machine

theorem runUnit_noIssuer (h : Hdr) (m : Meaning) (s : State) (hc : s.cur = []) : runUnit h m s = .fault .noIssuer := by
  simp [runUnit, hc]

/-- Every device instruction of a unit answers a next state. -/
theorem runUnit_next (h : Hdr) (m : Meaning) (s : State) (hc : s.cur ≠ []) : ∃ t, runUnit h m s = .next t := by
  unfold runUnit
  rw [if_neg (by simpa using hc)]
  dsimp only
  split <;> exact ⟨_, rfl⟩

theorem bestTrap_nil : bestTrap [] = none := rfl

theorem filterMap_trap_go (l : List Pre) (hg : ∀ p ∈ l, p = .go) : l.filterMap Pre.trap? = [] := by
  induction l with
  | nil => rfl
  | cons p l ih =>
    rw [List.filterMap_cons, hg p (List.mem_cons_self), ih fun q hq => hg q (List.mem_cons_of_mem _ hq)]
    rfl

/-- The unit issues when no slice's checks stop it. -/
theorem runUnit_go (h : Hdr) (m : Meaning) (s : State) (hc : s.cur ≠ []) (hp : ∀ i ∈ s.cur, preOf m s i = .go) :
    runUnit h m s = .next (unitGo h m s) := by
  have hm : ∀ p ∈ s.cur.map (preOf m s), p = Pre.go := by
    intro p hp'
    obtain ⟨i, hi, rfl⟩ := List.mem_map.mp hp'
    exact hp i hi
  have ht : unitTrap (s.cur.map (preOf m s)) = none := by
    unfold unitTrap
    rw [filterMap_trap_go _ hm]
    rfl
  have hall : (s.cur.map (preOf m s)).all Pre.isGo = true := by
    rw [List.all_eq_true]
    intro p hp'
    rw [hm p hp']
    rfl
  unfold runUnit
  rw [if_neg (by simpa using hc)]
  dsimp only
  rw [ht]
  simp only [hall, if_true]

theorem preOf_go (m : Meaning) (s : State) (i : Nat) (hc : m.chk s i = none)
    (hp : m.lanes (s.sl i) ≠ 0 → m.pre s i (m.lanes (s.sl i)) = .go) : preOf m s i = .go := by
  unfold preOf
  rw [hc]
  dsimp only
  split
  · rfl
  · rename_i hl; exact hp hl

/-! ### Slots -/

@[simp] theorem endRun_slices (s : State) (ids : List Nat) : (endRun s ids).slices = s.slices := by
  cases ids <;> rfl
@[simp] theorem endRun_sl (s : State) (ids : List Nat) (j : Nat) : (endRun s ids).sl j = s.sl j := by
  cases ids <;> rfl
@[simp] theorem countRun_slices (s : State) (ids : List Nat) (occ : Nat) : (countRun s ids occ).1.slices = s.slices := by
  cases ids <;> rfl
@[simp] theorem countRun_sl (s : State) (ids : List Nat) (occ j : Nat) : (countRun s ids occ).1.sl j = s.sl j := by
  cases ids <;> rfl

/-- Only slices, and the issue slots of cores, differ. -/
structure SlotFrame (s t : State) : Prop where
  rest : { t with cores := s.cores } = s
  cores : ∀ k, { t.core k with slots := (s.core k).slots } = s.core k

theorem SlotFrame.refl (s : State) : SlotFrame s s := ⟨rfl, fun _ => rfl⟩

theorem SlotFrame.setCore (s : State) (k : Nat) (l : List Slot) : SlotFrame s (s.setCore k { s.core k with slots := l }) := by
  refine ⟨rfl, fun j => ?_⟩
  rw [State.core_setCore]
  split
  · rename_i h; subst h; rfl
  · rfl

theorem endRun_frame (s : State) (ids : List Nat) : SlotFrame s (endRun s ids) := by
  cases ids with
  | nil => exact SlotFrame.refl s
  | cons i l => exact SlotFrame.setCore s _ _

theorem countRun_frame (s : State) (ids : List Nat) (occ : Nat) : SlotFrame s (countRun s ids occ).1 := by
  cases ids with
  | nil => exact SlotFrame.refl s
  | cons i l => exact SlotFrame.setCore s _ _

theorem SlotFrame.trans {s t u : State} (h1 : SlotFrame s t) (h2 : SlotFrame t u) : SlotFrame s u := by
  refine ⟨?_, fun k => ?_⟩
  · have := h2.rest
    rw [← h1.rest, ← this]
  · have a := h1.cores k
    have b := h2.cores k
    rw [← a, ← b]

/-! ### Instructions that act on their own slice -/

/-- The effect in a slice is a function of that slice and of the state in which the unit issued. -/
def Meaning.own (m : Meaning) (g : State → Nat → BitVec 4 → Slice → Slice) : Prop :=
  ∀ p s i l, m.act p s i l = s.setSl i (g p i l (s.sl i))

/-- A slice after the instruction, before W. -/
def ownSlice (m : Meaning) (g : State → Nat → BitVec 4 → Slice → Slice) (p : State) (i : Nat) (x : Slice) : Slice :=
  if m.lanes x = 0 then (atIssue x).next
  else if m.jump then g p i (m.lanes x) (atIssue x)
  else (g p i (m.lanes x) (atIssue x)).next

theorem Tbl.put_put {α : Type} (t : Tbl α) (k : Nat) (x y : α) : Tbl.put (Tbl.put t k x) k y = Tbl.put t k y := by
  induction t with
  | nil => simp [Tbl.put]
  | cons e t ih =>
    obtain ⟨j, v⟩ := e
    simp only [Tbl.put]
    split
    · simp [Tbl.put]
    · split
      · simp [Tbl.put]
      · rename_i h1 h2
        simp only [Tbl.put, h1, h2, if_false, ih]

@[simp] theorem State.setSl_setSl (s : State) (i : Nat) (x y : Slice) : (s.setSl i x).setSl i y = s.setSl i y := by
  simp [State.setSl, Tbl.put_put]

theorem actOf_own {m : Meaning} {g : State → Nat → BitVec 4 → Slice → Slice} (ho : m.own g) (p s : State) (i : Nat) :
    actOf m p s i = s.setSl i (ownSlice m g p i (s.sl i)) := by
  unfold actOf ownSlice atIssue
  dsimp only
  split
  · simp
  · split
    · rw [ho]; simp
    · rw [ho]; simp

/-- Updating distinct slices one after another, each by a function of itself. -/
theorem fold_own (f : State → Nat → State) (g : Nat → Slice → Slice)
    (hf : ∀ s i, f s i = s.setSl i (g i (s.sl i))) (ids : List Nat) (hn : ids.Nodup) (s : State) :
    (∀ j ∈ ids, (ids.foldl f s).sl j = g j (s.sl j)) ∧ (∀ j, j ∉ ids → (ids.foldl f s).sl j = s.sl j) ∧
    { ids.foldl f s with slices := s.slices } = s := by
  induction ids generalizing s with
  | nil => exact ⟨by simp, by simp, rfl⟩
  | cons i l ih =>
    obtain ⟨hi, hl⟩ := List.nodup_cons.mp hn
    obtain ⟨h1, h2, h3⟩ := ih hl (f s i)
    have hself : (f s i).sl i = g i (s.sl i) := by rw [hf]; simp
    have hne : ∀ j, j ≠ i → (f s i).sl j = s.sl j := by
      intro j hj
      rw [hf, State.sl_setSl, if_neg fun e => hj e.symm]
    have hfr : { f s i with slices := s.slices } = s := by rw [hf]; rfl
    refine ⟨fun j hj => ?_, fun j hj => ?_, ?_⟩
    · rcases List.mem_cons.mp hj with rfl | hj
      · rw [List.foldl_cons, h2 _ hi, hself]
      · have : j ≠ i := fun e => hi (e ▸ hj)
        rw [List.foldl_cons, h1 j hj, hne j this]
    · have hj' := not_or.mp fun e => hj (List.mem_cons.mpr e)
      rw [List.foldl_cons, h2 j hj'.2, hne j hj'.1]
    · rw [List.foldl_cons]
      calc { l.foldl f (f s i) with slices := s.slices }
          = { ({ l.foldl f (f s i) with slices := (f s i).slices } : State) with slices := s.slices } := rfl
        _ = { f s i with slices := s.slices } := by rw [h3]
        _ = s := hfr

/-- The next state of an instruction that acts on its own slice. -/
theorem unitGo_own {h : Hdr} {m : Meaning} {g : State → Nat → BitVec 4 → Slice → Slice} {s : State} (ho : m.own g) (hn : s.cur.Nodup) :
    (∀ j ∈ s.cur, (unitGo h m s).sl j = waitW h (ownSlice m g s j (s.sl j))) ∧ UnitFrame s (unitGo h m s) := by
  have a := fold_own (actOf m s) (fun i x => ownSlice m g s i x) (fun t i => actOf_own ho s t i) s.cur hn s
  obtain ⟨a1, a2, a3⟩ := a
  have b := fold_own (markW h) (fun _ x => waitW h x) (fun _ _ => rfl) s.cur hn (s.cur.foldl (actOf m s) s)
  obtain ⟨b1, b2, b3⟩ := b
  have key : ∀ (ov : Bool) (r : State), SlotFrame (s.cur.foldl (markW h) (s.cur.foldl (actOf m s) s)) r →
      (∀ j, r.sl j = (s.cur.foldl (markW h) (s.cur.foldl (actOf m s) s)).sl j) →
      (∀ j ∈ s.cur, ({ (if ov then endRun r s.cur else r) with cur := [] } : State).sl j = waitW h (ownSlice m g s j (s.sl j))) ∧
      UnitFrame s { (if ov then endRun r s.cur else r) with cur := [] } := by
    intro ov r hr hs
    have hr' : SlotFrame (s.cur.foldl (markW h) (s.cur.foldl (actOf m s) s)) (if ov then endRun r s.cur else r) := by
      split
      · exact hr.trans (endRun_frame r s.cur)
      · exact hr
    have hs' : ∀ j, (if ov then endRun r s.cur else r).sl j = (s.cur.foldl (markW h) (s.cur.foldl (actOf m s) s)).sl j := by
      intro j
      split
      · rw [endRun_sl]; exact hs j
      · exact hs j
    generalize (if ov then endRun r s.cur else r) = u at hr' hs'
    have hu : ∀ j, ({ u with cur := [] } : State).sl j = u.sl j := fun _ => rfl
    refine ⟨fun j hj => ?_, ⟨fun j hj => ?_, fun k => ?_, ?_, rfl⟩⟩
    · rw [hu, hs', b1 j hj, a1 j hj]
    · rw [hu, hs', b2 j hj, a2 j hj]
    · have c := hr'.cores k
      have e : (s.cur.foldl (markW h) (s.cur.foldl (actOf m s) s)).core k = s.core k := by
        have e1 : (s.cur.foldl (markW h) (s.cur.foldl (actOf m s) s)).core k = (s.cur.foldl (actOf m s) s).core k := by
          conv_rhs => rw [← b3]
          rfl
        have e2 : (s.cur.foldl (actOf m s) s).core k = s.core k := by
          conv_rhs => rw [← a3]
          rfl
        rw [e1, e2]
      rw [e] at c
      exact c
    · have r1 := hr'.rest
      calc ({ u with slices := s.slices, cores := s.cores, cur := s.cur } : State)
          = { ({ u with cores := (s.cur.foldl (markW h) (s.cur.foldl (actOf m s) s)).cores } : State) with
              slices := s.slices, cores := s.cores, cur := s.cur } := rfl
        _ = { (s.cur.foldl (markW h) (s.cur.foldl (actOf m s) s)) with slices := s.slices, cores := s.cores, cur := s.cur } := by rw [r1]
        _ = { ({ (s.cur.foldl (markW h) (s.cur.foldl (actOf m s) s)) with slices := (s.cur.foldl (actOf m s) s).slices } : State) with
              slices := s.slices, cores := s.cores, cur := s.cur } := rfl
        _ = { (s.cur.foldl (actOf m s) s) with slices := s.slices, cores := s.cores, cur := s.cur } := by rw [b3]
        _ = { ({ (s.cur.foldl (actOf m s) s) with slices := s.slices } : State) with cores := s.cores, cur := s.cur } := rfl
        _ = s := by rw [a3]
  unfold unitGo
  dsimp only
  exact key _ _ (countRun_frame _ _ _) (fun j => countRun_sl _ _ _ j)

/-- A unit of one slice. -/
theorem unitGo_one {h : Hdr} {m : Meaning} {s : State} {j : Nat} (hc : s.cur = [j]) :
    SlotsOnly (markW h (actOf m s s j) j) (unitGo h m s) := by
  have key : ∀ (ov : Bool) (r : State), SlotFrame (markW h (actOf m s s j) j) r →
      SlotsOnly (markW h (actOf m s s j) j) { (if ov then endRun r [j] else r) with cur := [] } := by
    intro ov r hr
    have hr' : SlotFrame (markW h (actOf m s s j) j) (if ov then endRun r [j] else r) := by
      split
      · exact hr.trans (endRun_frame r [j])
      · exact hr
    refine ⟨hr'.cores, ?_, rfl⟩
    have r1 := hr'.rest
    calc ({ ({ (if ov then endRun r [j] else r) with cur := [] } : State) with
            cores := (markW h (actOf m s s j) j).cores, cur := (markW h (actOf m s s j) j).cur } : State)
        = { ({ (if ov then endRun r [j] else r) with cores := (markW h (actOf m s s j) j).cores } : State) with
            cur := (markW h (actOf m s s j) j).cur } := rfl
      _ = _ := by rw [r1]
  unfold unitGo
  rw [hc]
  simp only [List.foldl_cons, List.foldl_nil]
  exact key _ _ (countRun_frame _ _ _)

/-- An instruction of one slice, its guard holding there, that goes on at the next PC. -/
theorem runUnit_one {h : Hdr} {m : Meaning} {s : State} {j : Nat} (hc : s.cur = [j]) (hk : m.chk s j = none)
    (hl : m.lanes (s.sl j) ≠ 0) (hp : m.pre s j (m.lanes (s.sl j)) = .go) (hj : m.jump = false) :
    ∃ t, runUnit h m s = .next t ∧
      SlotsOnly ((m.act s (s.begun j) j (m.lanes (s.sl j))).updSl j fun x => waitW h x.next) t := by
  refine ⟨_, runUnit_go h m s (by simp [hc]) ?_, ?_⟩
  · intro i hi
    rw [hc, List.mem_singleton] at hi
    subst hi
    exact preOf_go m s i hk fun _ => hp
  · have a := unitGo_one (h := h) (m := m) (s := s) hc
    have e : markW h (actOf m s s j) j = (m.act s (s.begun j) j (m.lanes (s.sl j))).updSl j fun x => waitW h x.next := by
      simp only [markW, actOf, hl, hj, if_false, State.begun, State.updSl_eq]
      simp
      rfl
    rw [e] at a
    exact a

end Sys2Proof.Machine
end

