-- ==== Sys2Proof/Laws/Result.lean ====
section
/-! SUPPORT. What an instruction that computes on registers does: reading registers after `wr`, folding it over the executing lanes, and
the whole next state of `regMeaning`. -/

namespace Sys2Proof.Machine

/-! ### Reading after writing -/

theorem Slice.vreg_setV (x : Slice) (r l n k : Nat) (w : Word) (hl : l < 4) (hk : k < 4) :
    (x.setV r l w).vreg n k = if n = r ∧ k = l then w else x.vreg n k := by
  simp only [Slice.vreg, Slice.setV, Tbl.findD_put]
  have : 4 * r + l = 4 * n + k ↔ n = r ∧ k = l := by omega
  simp only [this]

@[simp] theorem Slice.sreg_setV (x : Slice) (r l n : Nat) (w : Word) : (x.setV r l w).sreg n = x.sreg n := rfl
@[simp] theorem Slice.flags_setV (x : Slice) (r l : Nat) (w : Word) : (x.setV r l w).flags = x.flags := rfl
@[simp] theorem Slice.vreg_setS (x : Slice) (r n l : Nat) (w : DWord) : (x.setS r w).vreg n l = x.vreg n l := rfl
@[simp] theorem Slice.flags_setS (x : Slice) (r : Nat) (w : DWord) : (x.setS r w).flags = x.flags := rfl
theorem Slice.sreg_setS (x : Slice) (r n : Nat) (w : DWord) : (x.setS r w).sreg n = if n = r then w else x.sreg n := by
  simp only [Slice.sreg, Slice.setS, Tbl.findD_put, eq_comm]

/-- What `wr` leaves in the vector registers (R136, R259). -/
theorem wr_vreg (t : Ty) (d : Opnd) (l : Nat) (v : DWord) (x : Slice) (n k : Nat) (hl : l < 4) (hk : k < 4) :
    (wr t d l v x).vreg n k =
    match d with
    | .v r =>
      if k = l ∧ n = r then v.setWidth 32
      else if k = l ∧ t.is64 = true ∧ n = r + 1 then (v >>> 32).setWidth 32
      else x.vreg n k
    | _ => x.vreg n k := by
  cases d <;> simp only [wr]
  · split
    · rename_i r h64
      rw [Slice.vreg_setV _ _ _ _ _ _ hl hk, Slice.vreg_setV _ _ _ _ _ _ hl hk]
      by_cases hkl : k = l
      · by_cases hn : n = r
        · simp [hkl, hn]
        · simp [hkl, hn, h64]
      · simp [hkl]
    · rename_i r h64
      rw [Slice.vreg_setV _ _ _ _ _ _ hl hk]
      simp [h64, and_comm]
  · split <;> simp

/-- What `wr` leaves in the scalar registers: a 32-bit result clears bits [63:32] (R136). -/
theorem wr_sreg (t : Ty) (d : Opnd) (l : Nat) (v : DWord) (x : Slice) (n : Nat) :
    (wr t d l v x).sreg n =
    match d with
    | .s r => if n = r then (if t.is64 then v else (v.setWidth 32).setWidth 64) else x.sreg n
    | _ => x.sreg n := by
  cases d <;> simp only [wr]
  · split <;> simp
  · split <;> simp [Slice.sreg_setS]

@[simp] theorem wr_flags (t : Ty) (d : Opnd) (l : Nat) (v : DWord) (x : Slice) : (wr t d l v x).flags = x.flags := by
  cases d <;> simp only [wr] <;> split <;> rfl

/-- `wr` changes registers alone. -/
theorem wr_rest (t : Ty) (d : Opnd) (l : Nat) (v : DWord) (x : Slice) (a : Tbl Word) (b : Tbl DWord) (f : Flags) :
    { wr t d l v x with v := a, s := b, flags := f } = { x with v := a, s := b, flags := f } := by
  cases d <;> simp only [wr] <;> split <;> rfl

/-! ### A result in the executing lanes -/

theorem lanesOf_lt {m : BitVec 4} {l : Nat} (h : l ∈ lanesOf m) : l < 4 := by
  simp only [lanesOf, List.mem_filter] at h
  have := h.1
  simp at this
  omega

theorem mem_lanesOf {m : BitVec 4} {l : Nat} (hl : l < 4) : l ∈ lanesOf m ↔ m.getLsbD l = true := by
  simp only [lanesOf, List.mem_filter]
  constructor
  · exact fun h => h.2
  · intro h
    refine ⟨?_, h⟩
    have : l = 0 ∨ l = 1 ∨ l = 2 ∨ l = 3 := by omega
    rcases this with rfl | rfl | rfl | rfl <;> simp

/-- Writing a result lane by lane in a v register or nowhere: each lane's own, the flags together. -/
theorem fold_wrFl (t : Ty) (d : Opnd) (val : Nat → DWord × Flags) (ls : List Nat) (hl : ∀ l ∈ ls, l < 4) (x : Slice) :
    (∀ n k, k < 4 → (ls.foldl (fun y l => wrFl t d l (val l) y) x).vreg n k =
      match d with
      | .v r =>
        if k ∈ ls ∧ n = r then (val k).1.setWidth 32
        else if k ∈ ls ∧ t.is64 = true ∧ n = r + 1 then ((val k).1 >>> 32).setWidth 32
        else x.vreg n k
      | _ => x.vreg n k) ∧
    (∀ b, (ls.foldl (fun y l => wrFl t d l (val l) y) x).flags.getLsbD b = (x.flags.getLsbD b || ls.any fun l => (val l).2.getLsbD b)) ∧
    (∀ a b f, { ls.foldl (fun y l => wrFl t d l (val l) y) x with v := a, s := b, flags := f } = { x with v := a, s := b, flags := f }) ∧
    (d.isS = false → ∀ n, (ls.foldl (fun y l => wrFl t d l (val l) y) x).sreg n = x.sreg n) := by
  induction ls generalizing x with
  | nil =>
    refine ⟨fun n k _ => ?_, fun b => by simp, fun _ _ _ => rfl, fun _ _ => rfl⟩
    cases d <;> simp
  | cons l ls ih =>
    have hl0 : l < 4 := hl l List.mem_cons_self
    obtain ⟨h1, h2, h3, h4⟩ := ih (fun k hk => hl k (List.mem_cons_of_mem _ hk)) (wrFl t d l (val l) x)
    have hv : ∀ n k, (wrFl t d l (val l) x).vreg n k = (wr t d l (val l).1 x).vreg n k := fun _ _ => rfl
    have hs : ∀ n, (wrFl t d l (val l) x).sreg n = (wr t d l (val l).1 x).sreg n := fun _ => rfl
    refine ⟨fun n k hk => ?_, fun b => ?_, fun a b f => ?_, fun hd n => ?_⟩
    · rw [List.foldl_cons, h1 n k hk, hv, wr_vreg t d l _ x n k hl0 hk]
      cases d <;> simp only [List.mem_cons]
      rename_i r
      by_cases hkl : k = l
      · subst hkl
        by_cases hm : k ∈ ls <;> by_cases hn : n = r <;> by_cases h6 : t.is64 = true ∧ n = r + 1 <;> simp [hm, hn, h6]
      · simp [hkl]
    · rw [List.foldl_cons, h2 b]
      simp only [wrFl, BitVec.getLsbD_or, wr_flags, List.any_cons, Bool.or_assoc]
    · rw [List.foldl_cons, h3 a b f]
      exact wr_rest t d l (val l).1 x a b f
    · rw [List.foldl_cons, h4 hd n, hs, wr_sreg]
      cases d <;> simp_all [Opnd.isS]

/-! ### The whole instruction -/

theorem waitW_frame (h : Hdr) (x y : Slice) (hr : ∀ a b f, { y with v := a, s := b, flags := f } = { x with v := a, s := b, flags := f }) :
    ∀ a b f, { waitW h y with v := a, s := b, flags := f } = { waitW h x with v := a, s := b, flags := f } := by
  have hy : y = { x with v := y.v, s := y.s, flags := y.flags } := by
    have := hr y.v y.s y.flags
    exact this
  intro a b f
  rw [hy]
  unfold waitW
  dsimp only
  split
  · split <;> rfl
  · rfl

theorem waitW_regs (h : Hdr) (y : Slice) : (waitW h y).v = y.v ∧ (waitW h y).s = y.s ∧ (waitW h y).flags = y.flags := by
  unfold waitW
  split
  · split <;> exact ⟨rfl, rfl, rfl⟩
  · exact ⟨rfl, rfl, rfl⟩

/-- An instruction whose destination is an s register executes once (R135). -/
theorem scalar_once {d : Opnd} {srcs : List Opnd} (h : scalarDst d srcs = true) (hs : d.isS = true) : vecMode d srcs = false := by
  cases d <;> simp_all [Opnd.isS]
  simpa [vecMode, scalarDst, Opnd.isS] using h

/-- An instruction that computes one result on registers and does nothing else. -/
theorem reg_result (r : Result) (occ : Nat) (f : Crew → Slice → Nat → Slice → Slice) (s : State)
    (hf : ∀ c x l y, f c x l y = wrFl r.ty r.dst l (r.val c x l) y) (hv : ∀ c x l, r.val c (atIssue x) l = r.val c x l)
    (hd : scalarDst r.dst r.srcs = true) (hu : s.unitIn) (hr : r.fits s) :
    ∃ t, runUnit r.hdr (regMeaning r.hdr (vecMode r.dst r.srcs) r.regs occ f) s = .next t ∧ UnitFrame s t ∧
      ∀ j ∈ s.cur, r.Wrote (s.crewOf j) (s.sl j) (t.sl j) := by
  set m := regMeaning r.hdr (vecMode r.dst r.srcs) r.regs occ f with hm
  have ho : m.own fun p i l x => eachLane (vecMode r.dst r.srcs) l x (f (p.crewOf i) x) := fun p s i l => rfl
  have hg := runUnit_go r.hdr m s hu.1 fun i hi => preOf_go m s i (by
    show chkRegs r.regs s i = none
    unfold chkRegs
    rw [if_pos (hr i hi)]) fun _ => rfl
  obtain ⟨a, b⟩ := unitGo_own (h := r.hdr) ho hu.2
  refine ⟨_, hg, b, fun j hj => ?_⟩
  rw [a j hj]
  set x := s.sl j with hx
  set c := s.crewOf j with hc
  have hl : m.lanes x = r.lanes x := rfl
  have hal : r.lanes (atIssue x) = r.lanes x := rfl
  have hjmp : m.jump = false := rfl
  -- the slice before W
  have key : ∃ ls : List Nat, (∀ l ∈ ls, l < 4) ∧ (∀ l, l < 4 → (l ∈ ls ↔ r.runs x l = true)) ∧
      (r.dst.isS = true → ls = [0] ∨ ls = []) ∧
      ownSlice m (fun p i l x => eachLane (vecMode r.dst r.srcs) l x (f (p.crewOf i) x)) s j x =
        (ls.foldl (fun y l => wrFl r.ty r.dst l (r.val c x l) y) (atIssue x)).next := by
    by_cases h0 : r.lanes x = 0
    · refine ⟨[], by simp, fun l _ => ?_, fun _ => .inr rfl, ?_⟩
      · simp [Result.runs, h0]
      · simp [ownSlice, hl, h0]
    · refine ⟨laneList (vecMode r.dst r.srcs) (r.lanes x), ?_, fun l hl4 => ?_, fun hs => ?_, ?_⟩
      · intro l hlm
        unfold laneList at hlm
        split at hlm
        · exact lanesOf_lt hlm
        · simp at hlm; omega
      · unfold laneList Result.runs
        split
        · exact mem_lanesOf hl4
        · simp
          exact fun _ => h0
      · left
        unfold laneList
        rw [if_neg]
        simp [scalar_once hd hs]
      · simp only [ownSlice, hl, h0, hjmp, if_false, eachLane]
        simp only [hf, hv]
        rfl
  obtain ⟨ls, h4, hmem, hone, hown⟩ := key
  rw [hown]
  obtain ⟨f1, f2, f3, f4⟩ := fold_wrFl r.ty r.dst (r.val c x) ls h4 (atIssue x)
  set y := ls.foldl (fun y l => wrFl r.ty r.dst l (r.val c x l) y) (atIssue x) with hy
  obtain ⟨w1, w2, w3⟩ := waitW_regs r.hdr y.next
  have e1 : ∀ n l, (waitW r.hdr y.next).vreg n l = y.vreg n l := fun n l => by unfold Slice.vreg; rw [w1]; rfl
  have e2 : ∀ n, (waitW r.hdr y.next).sreg n = y.sreg n := fun n => by unfold Slice.sreg; rw [w2]; rfl
  refine ⟨fun n l hl4 => ?_, fun n => ?_, fun k => ?_, ?_⟩
  · rw [e1, f1 n l hl4]
    cases r.dst <;> simp only [hmem l hl4, Bool.and_eq_true, beq_iff_eq, and_assoc] <;> rfl
  · rw [e2]
    cases hdd : r.dst with
    | s d =>
      have hdS : r.dst.isS = true := by rw [hdd]; rfl
      have h00 := hmem 0 (by omega)
      rcases hone hdS with h | h
      · have : y.sreg n = (wr r.ty (.s d) 0 (r.val c x 0).1 (atIssue x)).sreg n := by rw [hy, h, hdd]; rfl
        rw [this, wr_sreg]
        rw [h] at h00
        have hr0 : r.runs x 0 = true := h00.mp (by simp)
        simp [hr0]
        rfl
      · rw [h] at h00
        have hr0 : ¬ r.runs x 0 = true := fun e => by simpa using h00.mpr e
        rw [hy, h]
        simp [hr0]
        rfl
    | _ => exact f4 (by rw [hdd]; rfl) n
  · rw [w3]
    show y.flags.getLsbD k = _
    rw [f2 k]
    have : (ls.any fun l => (r.val c x l).2.getLsbD k) = [0, 1, 2, 3].any fun l => r.runs x l && (r.val c x l).2.getLsbD k := by
      rw [Bool.eq_iff_iff]
      simp only [List.any_eq_true, Bool.and_eq_true]
      constructor
      · rintro ⟨l, hlm, hb⟩
        have := h4 l hlm
        refine ⟨l, ?_, (hmem l this).mp hlm, hb⟩
        have : l = 0 ∨ l = 1 ∨ l = 2 ∨ l = 3 := by omega
        rcases this with rfl | rfl | rfl | rfl <;> simp
      · rintro ⟨l, hlm, hrn, hb⟩
        have : l < 4 := by simp at hlm; omega
        exact ⟨l, (hmem l this).mpr hrn, hb⟩
    rw [this]
    rfl
  · have hnx : ∀ a b f, { y.next with v := a, s := b, flags := f } = { (atIssue x).next with v := a, s := b, flags := f } := by
      intro a b f
      have e := f3 a b f
      have hp := congrArg Slice.pc e
      have hp' : y.pc = (atIssue x).pc := hp
      show { ({ y with v := a, s := b, flags := f } : Slice) with pc := y.pc + 12 } = _
      rw [hp']
      exact congrArg (fun z : Slice => { z with pc := (atIssue x).pc + 12 }) e
    have q := waitW_frame r.hdr _ _ hnx x.v x.s x.flags
    rw [q]
    obtain ⟨u1, u2, u3⟩ := waitW_regs r.hdr (atIssue x).next
    have : ∀ z : Slice, z.v = x.v → z.s = x.s → z.flags = x.flags → { z with v := x.v, s := x.s, flags := x.flags } = z := by
      intro z h1 h2 h3
      rw [← h1, ← h2, ← h3]
    exact this _ u1 u2 u3

theorem wr_eq_wrFl (t : Ty) (d : Opnd) (l : Nat) (v : DWord) (y : Slice) : wr t d l v y = wrFl t d l (v, 0) y := by
  have e : (wr t d l v y).flags ||| (0 : Flags) = (wr t d l v y).flags := BitVec.or_zero
  unfold wrFl
  dsimp only
  rw [e]

/-- The same of an instruction. -/
theorem Result.holds {r : Result} {i : Instr} {s : State} {occ : Nat} {f : Crew → Slice → Nat → Slice → Slice}
    (hx : exec i s = runUnit r.hdr (regMeaning r.hdr (vecMode r.dst r.srcs) r.regs occ f) s)
    (hf : ∀ c x l y, f c x l y = wrFl r.ty r.dst l (r.val c x l) y) (hv : ∀ c x l, r.val c (atIssue x) l = r.val c x l)
    (hd : scalarDst r.dst r.srcs = true) (hu : s.unitIn) (hr : r.fits s) : r.Holds i s := by
  unfold Result.Holds
  rw [hx]
  exact reg_result r occ f s hf hv hd hu hr

/-- An instruction whose effect in a slice is its own: it completes where its checks pass. -/
theorem completes_own {i : Instr} {h : Hdr} {m : Meaning} {g : State → Nat → BitVec 4 → Slice → Slice} {s : State}
    {f : Nat → Slice → Slice} (hx : exec i s = runUnit h m s) (ho : m.own g) (hu : s.unitIn)
    (hc : ∀ j ∈ s.cur, m.chk s j = none)
    (hp : ∀ j ∈ s.cur, m.lanes (s.sl j) ≠ 0 → m.pre s j (m.lanes (s.sl j)) = .go)
    (hf : ∀ j ∈ s.cur, f j (s.sl j) = ownSlice m g s j (s.sl j)) : Completes i h f s := by
  obtain ⟨a, b⟩ := unitGo_own (h := h) ho hu.2
  refine ⟨_, hx.trans (runUnit_go h m s hu.1 fun j hj => preOf_go m s j (hc j hj) (hp j hj)), b, fun j hj => ?_⟩
  rw [a j hj, hf j hj]

theorem chkRegs_none {rs : List (Opnd × Nat)} {s : State} {i : Nat} (h : regsOk (s.crewOf i) rs = true) : chkRegs rs s i = none := by
  unfold chkRegs
  rw [if_pos h]

/-- An instruction that computes on registers, by its own effect. -/
theorem completes_reg {i : Instr} {h : Hdr} {vec : Bool} {rs : List (Opnd × Nat)} {occ : Nat} {e : Crew → Slice → Nat → Slice → Slice}
    {s : State} {f : Nat → Slice → Slice} (hx : exec i s = runUnit h (regMeaning h vec rs occ e) s) (hu : s.unitIn)
    (hc : ∀ j ∈ s.cur, regsOk (s.crewOf j) rs = true)
    (hf : ∀ j ∈ s.cur, f j (s.sl j) = ran (lanesFor vec h (s.sl j))
      (fun y => eachLane vec (lanesFor vec h (s.sl j)) y (e (s.crewOf j) y)) (s.sl j)) : Completes i h f s :=
  completes_own (g := fun p i l x => eachLane vec l x (e (p.crewOf i) x)) hx (fun _ _ _ _ => rfl) hu
    (fun j hj => chkRegs_none (hc j hj)) (fun _ _ _ => rfl) fun j hj => hf j hj

/-! ### Predicates -/

theorem Slice.pbit_setP (x : Slice) (l k : Nat) (b : Bool) (l' k' : Nat) (hl' : l' < 4) (hk' : k' < 7) :
    (x.setP l k b).pbit l' k' = if l' = l ∧ k' = k then b else x.pbit l' k' := by
  unfold Slice.setP Slice.pbit
  have h7 : (k' == 7) = false := by simp; omega
  by_cases hk : k < 7
  · rw [if_pos hk]
    simp only [h7, Bool.false_or]
    have hlt : 8 * l' + k' < 32 := by omega
    have hiff : (8 * l + k = 8 * l' + k') ↔ (l' = l ∧ k' = k) := by omega
    by_cases he : l' = l ∧ k' = k
    · have he' := hiff.mpr he
      rw [if_pos he, he']
      cases b <;> simp [hlt]
    · have he' : ¬ (8 * l + k = 8 * l' + k') := fun e => he (hiff.mp e)
      rw [if_neg he]
      have he2 : ¬ (8 * l' + k' = 8 * l + k) := fun e => he' e.symm
      cases b <;> simp [hlt, he2]
  · rw [if_neg hk, if_neg (by omega)]

@[simp] theorem Slice.qbit_setP (x : Slice) (l k : Nat) (b : Bool) (n : Nat) : (x.setP l k b).qbit n = x.qbit n := by
  unfold Slice.setP
  split <;> rfl

theorem Slice.qbit_setQ (x : Slice) (k : Nat) (b : Bool) (n : Nat) (hn : n < 7) :
    (x.setQ k b).qbit n = if n = k then b else x.qbit n := by
  unfold Slice.setQ Slice.qbit
  have h7 : (n == 7) = false := by simp; omega
  by_cases hk : k < 7
  · rw [if_pos hk]
    simp only [h7, Bool.false_or]
    have hlt : n < 8 := by omega
    by_cases he : n = k
    · rw [if_pos he, ← he]
      cases b <;> simp [hlt]
    · have he' : ¬ k = n := fun e => he e.symm
      rw [if_neg he]
      cases b <;> simp [hlt, he]
  · rw [if_neg hk, if_neg (by omega)]

@[simp] theorem Slice.pbit_setQ (x : Slice) (k : Nat) (b : Bool) (l n : Nat) : (x.setQ k b).pbit l n = x.pbit l n := by
  unfold Slice.setQ
  split <;> rfl

theorem wrPred_rest (pd : PredOp) (l : Nat) (b : Bool) (x : Slice) (a : BitVec 32) (c : BitVec 8) :
    { wrPred pd l b x with p := a, q := c } = { x with p := a, q := c } := by
  unfold wrPred Slice.setP Slice.setQ
  split <;> split <;> rfl

/-- Writing a predicate lane by lane. -/
theorem fold_wrPred (pd : PredOp) (val : Nat → Bool) (ls : List Nat) (hl : ∀ l ∈ ls, l < 4) (x : Slice) :
    (∀ l k, l < 4 → k < 7 → (ls.foldl (fun y l => wrPred pd l (val l) y) x).pbit l k =
      if pd.q = false ∧ k = pd.ix ∧ l ∈ ls then val l else x.pbit l k) ∧
    (ls = [] ∨ pd.q = false → ∀ k, (ls.foldl (fun y l => wrPred pd l (val l) y) x).qbit k = x.qbit k) ∧
    (∀ a c, { ls.foldl (fun y l => wrPred pd l (val l) y) x with p := a, q := c } = { x with p := a, q := c }) := by
  induction ls generalizing x with
  | nil => exact ⟨fun l k _ _ => by simp, fun _ _ => rfl, fun _ _ => rfl⟩
  | cons l0 ls ih =>
    have hl0 : l0 < 4 := hl l0 List.mem_cons_self
    obtain ⟨h1, h2, h3⟩ := ih (fun k hk => hl k (List.mem_cons_of_mem _ hk)) (wrPred pd l0 (val l0) x)
    refine ⟨fun l k hl4 hk => ?_, fun hq k => ?_, fun a c => ?_⟩
    · rw [List.foldl_cons, h1 l k hl4 hk]
      unfold wrPred
      by_cases hq : pd.q = true
      · simp [hq]
      · have hq' : pd.q = false := by simpa using hq
        simp only [hq', Bool.false_eq_true, if_false, true_and, List.mem_cons]
        rw [Slice.pbit_setP x l0 pd.ix (val l0) l k hl4 hk]
        by_cases hll : l = l0
        · subst hll
          by_cases hkk : k = pd.ix <;> by_cases hm : l ∈ ls <;> simp [hkk, hm]
        · simp [hll]
    · rcases hq with hq | hq
      · simp at hq
      · rw [List.foldl_cons, h2 (.inr hq) k]
        simp [wrPred, hq]
    · rw [List.foldl_cons, h3 a c]
      exact wrPred_rest pd l0 (val l0) x a c

theorem waitW_preds (h : Hdr) (y : Slice) : (waitW h y).p = y.p ∧ (waitW h y).q = y.q := by
  unfold waitW
  split
  · split <;> exact ⟨rfl, rfl⟩
  · exact ⟨rfl, rfl⟩

/-- The slice in which a predicate result has been written. -/
theorem PredResult.wrote {r : PredResult} {c : Crew} {x : Slice} (hv : r.vec = !r.pd.q) :
    r.Wrote c x (waitW r.hdr (ran (r.lanes x) (fun y => eachLane r.vec (r.lanes x) y fun l z => wrPred r.pd l (r.val c x l) z) x)) := by
  have key : ∃ ls : List Nat, (∀ l ∈ ls, l < 4) ∧ (r.pd.q = false → ∀ l, l < 4 → (l ∈ ls ↔ (r.lanes x).getLsbD l = true)) ∧
      (r.pd.q = true → ls = if r.lanes x = 0 then [] else [0]) ∧
      ran (r.lanes x) (fun y => eachLane r.vec (r.lanes x) y fun l z => wrPred r.pd l (r.val c x l) z) x =
      (ls.foldl (fun z l => wrPred r.pd l (r.val c x l) z) (atIssue x)).next := by
    by_cases h0 : r.lanes x = 0
    · refine ⟨[], by simp, fun _ l _ => ?_, fun _ => by simp [h0], ?_⟩
      · simp [h0]
      · simp [ran, h0]
    · refine ⟨laneList r.vec (r.lanes x), ?_, fun hq l hl => ?_, fun hq => ?_, ?_⟩
      · intro l hlm
        unfold laneList at hlm
        split at hlm
        · exact lanesOf_lt hlm
        · simp at hlm; omega
      · simp only [laneList, hv, hq, Bool.not_false, if_true, mem_lanesOf hl]
      · simp only [laneList, hv, hq, h0, if_false, Bool.not_true, Bool.false_eq_true]
      · simp only [ran, h0, if_false, eachLane]
  obtain ⟨ls, h4, hm, hone, he⟩ := key
  rw [he]
  obtain ⟨f1, f2, f3⟩ := fold_wrPred r.pd (r.val c x) ls h4 (atIssue x)
  set y := ls.foldl (fun z l => wrPred r.pd l (r.val c x l) z) (atIssue x) with hy
  obtain ⟨w1, w2⟩ := waitW_preds r.hdr y.next
  have e1 : ∀ l k, (waitW r.hdr y.next).pbit l k = y.pbit l k := fun l k => by unfold Slice.pbit; rw [w1]; rfl
  have e2 : ∀ k, (waitW r.hdr y.next).qbit k = y.qbit k := fun k => by unfold Slice.qbit; rw [w2]; rfl
  refine ⟨fun l k hl hk => ?_, fun k hk => ?_, ?_⟩
  · rw [e1, f1 l k hl hk]
    cases hq : r.pd.q
    · simp only [hm hq l hl, true_and, Bool.not_false, Bool.true_and, Bool.and_eq_true, beq_iff_eq]
      rfl
    · simp
      rfl
  · rw [e2]
    cases hq : r.pd.q
    · rw [f2 (.inr hq) k]
      simp
      rfl
    · have hls := hone hq
      by_cases h0 : r.lanes x = 0
      · rw [if_pos h0] at hls
        rw [hy, hls]
        simp [h0]
        rfl
      · rw [if_neg h0] at hls
        rw [hy, hls]
        simp only [List.foldl_cons, List.foldl_nil, wrPred, hq, if_true]
        rw [Slice.qbit_setQ _ _ _ _ hk]
        have hb : (r.lanes x != 0) = true := by simpa using h0
        simp only [hb, Bool.and_true, Bool.true_and, beq_iff_eq]
        rfl
  · have hn : ∀ a c, { y.next with p := a, q := c } = { (atIssue x).next with p := a, q := c } := by
      intro a c
      have e := f3 a c
      have hp0 := congrArg Slice.pc e
      have hp : y.pc = (atIssue x).pc := hp0
      show { ({ y with p := a, q := c } : Slice) with pc := y.pc + 12 } = _
      rw [hp]
      exact congrArg (fun z : Slice => { z with pc := (atIssue x).pc + 12 }) e
    have hyn : y.next = { (atIssue x).next with p := y.p, q := y.q } := hn y.p y.q
    rw [hyn]
    unfold waitW
    dsimp only
    split
    · split <;> rfl
    · rfl

/-- An instruction that writes one predicate. -/
theorem PredResult.holds {r : PredResult} {i : Instr} {s : State} {occ : Nat} {f : Crew → Slice → Nat → Slice → Slice}
    (hx : exec i s = runUnit r.hdr (regMeaning r.hdr r.vec r.regs occ f) s)
    (hf : ∀ c x l y, f c x l y = wrPred r.pd l (r.val c x l) y) (hva : ∀ c x l, r.val c (atIssue x) l = r.val c x l)
    (hv : r.vec = !r.pd.q) (hu : s.unitIn) (hr : ∀ j ∈ s.cur, regsOk (s.crewOf j) r.regs = true) : r.Holds i s := by
  obtain ⟨t, h1, h2, h3⟩ := completes_reg (h := r.hdr)
    (f := fun j x => ran (r.lanes x) (fun y => eachLane r.vec (r.lanes x) y fun l z => wrPred r.pd l (r.val (s.crewOf j) x l) z) x) hx hu hr (by
      intro j _
      have e : f (s.crewOf j) (atIssue (s.sl j)) = fun l z => wrPred r.pd l (r.val (s.crewOf j) (s.sl j) l) z := by
        funext l z
        rw [hf, hva]
      show ran (r.lanes (s.sl j)) _ _ = ran (r.lanes (s.sl j)) _ _
      unfold ran
      dsimp only
      rw [e]
      rfl)
  refine ⟨t, h1, h2, fun j hj => ?_⟩
  rw [h3 j hj]
  exact PredResult.wrote hv

end Sys2Proof.Machine
end

