-- ==== Sys2Proof/Laws/Runs.lean ====
section
/-! SUPPORT. A unit's instruction that goes on at the next PC, whatever its effect: the next state is `unitAfter`. -/

namespace Sys2Proof.Machine

theorem foldl_congr_mem {α β : Type} (l : List β) (f g : α → β → α) (h : ∀ a, ∀ b ∈ l, f a b = g a b) (a : α) :
    l.foldl f a = l.foldl g a := by
  induction l generalizing a with
  | nil => rfl
  | cons b l ih =>
    rw [List.foldl_cons, List.foldl_cons, h a b List.mem_cons_self]
    exact ih (fun a b hb => h a b (List.mem_cons_of_mem _ hb)) _

theorem unitGo_slots (h : Hdr) (m : Meaning) (s : State) :
    SlotsOnly (s.cur.foldl (markW h) (s.cur.foldl (actOf m s) s)) (unitGo h m s) := by
  have key : ∀ (ov : Bool) (u r : State), SlotFrame u r → SlotsOnly u { (if ov then endRun r s.cur else r) with cur := [] } := by
    intro ov u r hr
    have hr' : SlotFrame u (if ov then endRun r s.cur else r) := by
      split
      · exact hr.trans (endRun_frame r s.cur)
      · exact hr
    refine ⟨hr'.cores, ?_, rfl⟩
    have r1 := hr'.rest
    calc ({ ({ (if ov then endRun r s.cur else r) with cur := [] } : State) with cores := u.cores, cur := u.cur } : State)
        = { ({ (if ov then endRun r s.cur else r) with cores := u.cores } : State) with cur := u.cur } := rfl
      _ = _ := by rw [r1]
  unfold unitGo
  dsimp only
  exact key _ _ _ (countRun_frame _ _ _)

/-- An instruction issues in every slice of its unit when no slice's checks stop it. -/
theorem runs_of {i : Instr} {h : Hdr} {m : Meaning} {s : State} {lanes : Slice → BitVec 4} {e : State → Nat → State}
    (hx : exec i s = runUnit h m s) (hc : s.cur ≠ []) (hj : m.jump = false) (hl : m.lanes = lanes) (hb : ∀ x, lanes (atIssue x) = lanes x)
    (hk : ∀ j ∈ s.cur, m.chk s j = none) (hp : ∀ j ∈ s.cur, lanes (s.sl j) ≠ 0 → m.pre s j (lanes (s.sl j)) = .go)
    (he : ∀ u, ∀ j ∈ s.cur, m.act s u j (lanes (u.sl j)) = e u j) : Runs i h lanes e s := by
  subst hl
  refine ⟨_, hx.trans (runUnit_go h m s hc fun j hj' => preOf_go m s j (hk j hj') (hp j hj')), ?_⟩
  have a := unitGo_slots h m s
  have e1 : s.cur.foldl (actOf m s) s =
      s.cur.foldl (fun u j => (if m.lanes (u.sl j) = 0 then u.begun j else e (u.begun j) j).updSl j Slice.next) s := by
    apply foldl_congr_mem
    intro u j hj'
    have hb' : m.lanes ((u.begun j).sl j) = m.lanes (u.sl j) := by
      unfold State.begun
      rw [State.updSl_eq, State.sl_setSl_self]
      exact hb _
    have := he (u.begun j) j hj'
    rw [hb'] at this
    unfold actOf
    rw [hj]
    dsimp only
    show (if m.lanes (u.sl j) = 0 then (u.begun j).updSl j Slice.next else _) = _
    split
    · rfl
    · simp only [Bool.false_eq_true, if_false]
      exact congrArg (fun z : State => z.updSl j Slice.next) this
  rw [e1] at a
  exact a

theorem regsOk_chk {s : State} {rs : List (Opnd × Nat)} (hr : ∀ j ∈ s.cur, regsOk (s.crewOf j) rs = true) :
    ∀ j ∈ s.cur, chkRegs rs s j = none := by
  intro j hj
  unfold chkRegs
  rw [hr j hj]
  rfl

end Sys2Proof.Machine
end

