-- ==== Sys2Proof/Laws/Acc.lean ====
section
/-! SUPPORT. What an instruction leaves that puts accesses under way: requests in Viaduct, the order of the clearance cache, one access and
one outstanding instruction in each slice of the unit. -/

namespace Sys2Proof.Machine

/-- What of a core an access leaves alone. -/
def Core.keeps (a b : Core) : Prop := b.icache = a.icache ∧ b.wake = a.wake ∧ b.loops = a.loops ∧ ∀ e, e ∈ b.clr ↔ e ∈ a.clr

theorem Core.keeps_refl (a : Core) : a.keeps a := ⟨rfl, rfl, rfl, fun _ => Iff.rfl⟩

theorem Core.keeps_trans {a b c : Core} (h1 : a.keeps b) (h2 : b.keeps c) : a.keeps c :=
  ⟨h2.1.trans h1.1, h2.2.1.trans h1.2.1, h2.2.2.1.trans h1.2.2.1, fun e => (h2.2.2.2 e).trans (h1.2.2.2 e)⟩

/-- Slices, cores, packets and the next identity may differ. -/
structure AccRest (s t : State) : Prop where
  cores : ∀ k, (s.core k).keeps (t.core k)
  rest : { t with slices := s.slices, cores := s.cores, packets := s.packets, nextId := s.nextId } = s

theorem AccRest.refl (s : State) : AccRest s s := ⟨fun _ => Core.keeps_refl _, rfl⟩

theorem AccRest.trans {s t u : State} (h1 : AccRest s t) (h2 : AccRest t u) : AccRest s u := by
  refine ⟨fun k => Core.keeps_trans (h1.cores k) (h2.cores k), ?_⟩
  have a := h1.rest
  have b := h2.rest
  rw [← a, ← b]

theorem AccRest.crews {s t : State} (h : AccRest s t) : t.crews = s.crews := by
  have := h.rest
  rw [← this]

theorem AccRest.crew {s t : State} (h : AccRest s t) (i : Nat) : t.crew i = s.crew i := by
  unfold State.crew
  rw [h.crews]

theorem AccRest.launches {s t : State} (h : AccRest s t) : t.launches = s.launches := by
  have := h.rest
  rw [← this]

theorem AccRest.setSl (s : State) (i : Nat) (x : Slice) : AccRest s (s.setSl i x) := ⟨fun _ => Core.keeps_refl _, rfl⟩

theorem AccRest.fresh (s : State) : AccRest s s.fresh := ⟨fun _ => Core.keeps_refl _, rfl⟩

theorem AccRest.packets (s : State) (x : Tbl Pkt) : AccRest s { s with packets := x } := ⟨fun _ => Core.keeps_refl _, rfl⟩

theorem AccRest.setCore {s : State} {k : Nat} {c : Core} (h : (s.core k).keeps c) : AccRest s (s.setCore k c) := by
  refine ⟨fun j => ?_, rfl⟩
  rw [State.core_setCore]
  split
  · rename_i e; subst e; exact h
  · exact Core.keeps_refl _

theorem AccRest.updCore {s : State} {k : Nat} {f : Core → Core} (h : ∀ c : Core, c.keeps (f c)) : AccRest s (s.updCore k f) :=
  AccRest.setCore (h _)

theorem AccRest.ofSlots {s t : State} (h : SlotFrame s t) : AccRest s t := by
  refine ⟨fun k => ?_, ?_⟩
  · have := h.cores k
    rw [← this]
    exact ⟨rfl, rfl, rfl, fun _ => Iff.rfl⟩
  · have := h.rest
    calc ({ t with slices := s.slices, cores := s.cores, packets := s.packets, nextId := s.nextId } : State)
        = { ({ t with cores := s.cores } : State) with slices := s.slices, packets := s.packets, nextId := s.nextId } := rfl
      _ = s := by rw [this]

/-- A frame of slices alone: no slice differs. -/
theorem send_rest (s : State) (p : Pkt) : AccRest s (send s p) ∧ (send s p).slices = s.slices := by
  unfold send
  dsimp only
  split
  · unfold letIn enqueue
    refine ⟨?_, rfl⟩
    refine AccRest.trans ?_ (AccRest.updCore fun c => ⟨rfl, rfl, rfl, fun _ => Iff.rfl⟩)
    exact ⟨fun _ => Core.keeps_refl _, rfl⟩
  · refine ⟨?_, rfl⟩
    refine AccRest.trans ?_ (AccRest.updCore fun c => ⟨rfl, rfl, rfl, fun _ => Iff.rfl⟩)
    exact ⟨fun _ => Core.keeps_refl _, rfl⟩

theorem foldl_rest {α : Type} (l : List α) (f : State → α → State)
    (hf : ∀ t a, AccRest t (f t a) ∧ (f t a).slices = t.slices) (s : State) :
    AccRest s (l.foldl f s) ∧ (l.foldl f s).slices = s.slices := by
  induction l generalizing s with
  | nil => exact ⟨AccRest.refl s, rfl⟩
  | cons a l ih =>
    obtain ⟨h1, h2⟩ := hf s a
    obtain ⟨h3, h4⟩ := ih (f s a)
    exact ⟨h1.trans h3, h4.trans h2⟩

theorem injectAcc_rest (s : State) (i : Nat) (a : Acc) : AccRest s (injectAcc s i a) ∧ (injectAcc s i a).slices = s.slices := by
  have keep : ∀ t : State, AccRest t t ∧ t.slices = t.slices := fun t => ⟨AccRest.refl t, rfl⟩
  have hr : ∀ (t : State) pl core cls ctx va, AccRest t (injectRead t pl core cls ctx va) ∧
      (injectRead t pl core cls ctx va).slices = t.slices := by
    intro t pl core cls ctx va
    unfold injectRead
    split
    · exact send_rest _ _
    · exact keep t
  have hs : ∀ (t : State) pl core cls ctx va n, AccRest t (injectStore t pl core cls ctx va n) ∧
      (injectStore t pl core cls ctx va n).slices = t.slices := by
    intro t pl core cls ctx va n
    unfold injectStore
    split
    · exact keep t
    · split <;> exact send_rest _ _
  refine foldl_rest _ _ (fun t k => ?_) s
  unfold injectSector
  cases a.kind <;> dsimp only <;> (try split) <;> first | exact keep t | exact send_rest _ _ | exact hr _ _ _ _ _ _ | exact hs _ _ _ _ _ _ _

theorem useClr_rest (s : State) (i : Nat) (r : Right) (as : List LaneAcc) : AccRest s (useClr s i r as) ∧ (useClr s i r as).slices = s.slices := by
  refine ⟨?_, rfl⟩
  unfold useClr touchClr
  refine AccRest.updCore fun c => ⟨rfl, rfl, rfl, fun e => ?_⟩
  simp only [List.mem_append, List.mem_filter]
  constructor
  · rintro (h | h) <;> exact h.1
  · intro h
    cases hp : (e.ctx == s.ctxOf i && rightCovers e.r r && as.any fun a => (granules a.va a.n).any fun g =>
      e.page ≤ g && g < e.page + e.size)
    · exact Or.inr ⟨h, by simp⟩
    · exact Or.inl ⟨h, rfl⟩

/-- What `startAcc` does to its slice: one access, if it has parts, and one outstanding instruction, if it brings results. -/
theorem startAcc_acc (s : State) (i : Nat) (a : Acc) (early : List (LandDst × DWord)) (later : Nat) :
    AccRest s (startAcc s i a early later) ∧ (∀ j, j ≠ i → (startAcc s i a early later).sl j = s.sl j) ∧
    (startAcc s i a early later).sl i = { s.sl i with
      accs := if a.pieces.isEmpty then (s.sl i).accs
        else Tbl.put (s.sl i).accs s.nextId { a with id := if early.length + later = 0 then 0 else s.nextId }
      outst := if early.length + later = 0 then (s.sl i).outst else Tbl.put (s.sl i).outst s.nextId (early.length + later)
      ready := (s.sl i).ready ++ early.map fun e => ⟨s.nextId, e.1, e.2⟩ } := by
  unfold startAcc
  dsimp only
  set u := s.fresh.updSl i fun x =>
    { x with
      accs := if a.pieces.isEmpty then x.accs else Tbl.put x.accs s.nextId { a with id := if early.length + later = 0 then 0 else s.nextId }
      outst := if early.length + later = 0 then x.outst else Tbl.put x.outst s.nextId (early.length + later)
      ready := x.ready ++ early.map fun e => ⟨s.nextId, e.1, e.2⟩ } with hu
  obtain ⟨h1, h2⟩ := injectAcc_rest u i a
  have hs : ∀ j, (injectAcc u i a).sl j = u.sl j := by
    intro j
    unfold State.sl
    rw [h2]
  refine ⟨?_, fun j hj => ?_, ?_⟩
  · refine AccRest.trans ?_ h1
    exact ⟨fun _ => Core.keeps_refl _, rfl⟩
  · rw [hs, hu, State.updSl_eq, State.sl_setSl, if_neg fun e => hj e.symm]
    rfl
  · rw [hs, hu, State.updSl_eq, State.sl_setSl_self]
    rfl

/-- Nothing kept: the new access's parts all wait. -/
theorem finishKept_none (s : State) (i : Nat) (as : List Answer) (k : Nat) (hk : ∀ va, keptByte as va = none)
    (hn : ∀ a, Tbl.find (s.sl i).accs k = some a → ∀ p ∈ a.pieces, 0 < p.n) : finishKept s i as k = s := by
  unfold finishKept
  split
  · rfl
  · rename_i a ha
    have hq : ∀ (l : List (Piece × Nat)), (∀ e ∈ l, 0 < e.1.n) → ∀ u : State, l.foldl (fun s e =>
        let bs := (List.range e.1.n).map fun b => keptByte as (e.1.va + b)
        if bs.all Option.isSome then finishPiece s i k e.2 (bytesNat (bs.map fun b => b.getD 0)) 0 else s) u = u := by
      intro l
      induction l with
      | nil => intro _ u; rfl
      | cons e l ih =>
        intro hl u
        rw [List.foldl_cons]
        have h0 := hl e List.mem_cons_self
        have hf : ((List.range e.1.n).map fun b => keptByte as (e.1.va + b)).all Option.isSome = false := by
          rw [List.all_eq_false]
          refine ⟨none, ?_, by simp⟩
          exact List.mem_map.mpr ⟨0, List.mem_range.mpr h0, hk _⟩
        dsimp only
        rw [hf]
        exact ih (fun e he => hl e (List.mem_cons_of_mem _ he)) u
    apply hq
    intro e he
    have := List.mem_zipIdx he
    exact hn a ha e.1 (by rw [this.2.2]; exact List.getElem_mem _)

theorem lanePieces_pos {ord : Nat → Nat} {l va n data new : Nat} (hn : 0 < n) : ∀ p ∈ lanePieces ord l va n data new, 0 < p.n := by
  intro p hp
  unfold lanePieces at hp
  split at hp
  · simp only [List.mem_singleton] at hp; subst hp; exact hn
  · split at hp
    · simp only [List.mem_cons, List.not_mem_nil, or_false] at hp
      rcases hp with rfl | rfl <;> simp
    · obtain ⟨k, _, rfl⟩ := List.mem_map.mp hp
      simp

theorem lanePieces_ne {ord : Nat → Nat} {l va n data new : Nat} (hn : 0 < n) : lanePieces ord l va n data new ≠ [] := by
  unfold lanePieces
  split
  · simp
  · split
    · simp
    · simp; omega

theorem landsFor_pos (d : Opnd) {n : Nat} (l : Nat) (sgn : Bool) (v : Nat) (h : n = 1 ∨ n = 2 ∨ n = 4 ∨ n = 8 ∨ n = 16) :
    0 < (landsFor d n l sgn v).length := by
  unfold landsFor
  rcases h with rfl | rfl | rfl | rfl | rfl <;> cases d <;> simp

/-! ### What stands before issue -/

theorem begun_self {s : State} {j : Nat} : (s.begun j).sl j = atIssue (s.sl j) := by
  unfold State.begun; rw [State.updSl_eq, State.sl_setSl_self]
theorem begun_ne {s : State} {j k : Nat} (h : k ≠ j) : (s.begun j).sl k = s.sl k := by
  unfold State.begun; rw [State.updSl_eq, State.sl_setSl, if_neg fun e => h e.symm]
theorem foldl_add_ge (l : List Nat) (n : Nat) : n ≤ l.foldl (· + ·) n := by
  induction l generalizing n with
  | nil => exact Nat.le_refl _
  | cons a l ih => exact Nat.le_trans (Nat.le_add_right n a) (ih _)
theorem actOf_split (m : Meaning) (p s : State) (i : Nat) : actOf m p s i =
    if m.lanes (s.sl i) = 0 then (s.begun i).updSl i Slice.next
    else if m.jump = true then m.act p (s.begun i) i (m.lanes (s.sl i))
    else (m.act p (s.begun i) i (m.lanes (s.sl i))).updSl i Slice.next := rfl
theorem memPre_write {s : State} {j : Nat} {once : Bool} {accs : Nat → List LaneAcc} (hw : s.writable j (accs j)) :
    memPre s .write false once accs j = .go := by
  unfold memPre
  have h1 : ((accs j).map fun a => (a.lane, clrSt s j .write false a)).any (fun e => e.2.isWait) = false := by
    rw [List.any_eq_false]
    intro e he
    obtain ⟨a, ha, rfl⟩ := List.mem_map.mp he
    rw [hw a ha]
    simp [LaneSt.isWait]
  have h2 : faultTrap s j once ((accs j).map fun a => (a.lane, clrSt s j .write false a)) = none := by
    unfold faultTrap
    have : ((accs j).map fun a => (a.lane, clrSt s j .write false a)).filter (fun e => e.2.isFault) = [] := by
      rw [List.filter_eq_nil_iff]
      intro e he
      obtain ⟨a, ha, rfl⟩ := List.mem_map.mp he
      rw [hw a ha]
      simp [LaneSt.isFault]
    rw [this]
  dsimp only
  rw [h1, h2]
  simp

theorem relPre_go {s : State} {j : Nat} {wide : Bool} (h : s.released j wide) : relPre s j wide = .go := by
  unfold relPre
  obtain ⟨h1, h2⟩ := h
  have hp : pending (s.sl j) wide = false := by
    unfold pending
    rw [List.any_eq_false]
    intro e he
    rw [Bool.and_eq_true, List.any_eq_true]
    rintro ⟨hk, q, hq, hq2⟩
    rcases h1 e he (by simpa using hk) q hq with h | h <;> simp [h] at hq2
  dsimp only
  rw [hp]
  cases wide with
  | false => simp
  | true =>
    obtain ⟨a, b, c⟩ := h2 rfl
    rw [b, c]
    rcases a with a | a <;> simp [a]

theorem ordPre_go {s : State} {j : Nat} {m : MemOp} (h : s.orderMet j m) : ordPre s j m = .go := by
  unfold ordPre
  unfold State.orderMet at h
  split
  · exact relPre_go (h (Or.inl ‹_›))
  · exact relPre_go (h (Or.inr ‹_›))
  · rfl

theorem strongPre_go {s : State} {j : Nat} {as : List LaneAcc} (h : s.calm j as) : strongPre s j as = .go := by
  unfold strongPre
  rw [if_neg]
  intro hc
  rw [Bool.and_eq_true, List.any_eq_true, List.any_eq_true] at hc
  obtain ⟨⟨e, he, h1⟩, ⟨a, ha, h2⟩⟩ := hc
  have := h.1 ⟨a, ha, h2⟩ e he
  rw [this] at h1
  cases h1

theorem l2wpPre_go {s : State} {j : Nat} {as : List LaneAcc} (h : s.calm j as) : l2wpPre s j = .go := by
  unfold l2wpPre
  rw [h.2.1]

theorem roomPre_go {s : State} {j : Nat} (h : (s.sl j).outst.length < 32) : roomPre s j = .go := by
  unfold roomPre full32
  simp [Nat.not_le.mpr h]

theorem alignPre_go {s : State} {j : Nat} {as : List LaneAcc} {n : Nat} (hn : ∀ a ∈ as, a.n = n) (h : ∀ a ∈ as, a.va % n = 0) :
    alignPre s j as = .go := by
  unfold alignPre
  have : as.find? (fun a => !aligned a.va a.n) = none := by
    rw [List.find?_eq_none]
    intro a ha
    simp [aligned, hn a ha, h a ha]
  rw [this]

theorem accsFor_n {h : Hdr} {vec : Bool} {m : MemOp} {n : Nat} {s : State} {j : Nat} : ∀ a ∈ accsFor h vec m n s j, a.n = n := by
  intro a ha
  unfold accsFor at ha
  dsimp only at ha
  split at ha
  · cases ha
  · obtain ⟨l, _, rfl⟩ := List.mem_map.mp ha
    rfl

theorem lanesOf_ne {m : BitVec 4} (h : m ≠ 0) : lanesOf m ≠ [] := by
  revert h
  revert m
  decide

theorem accsFor_ne {h : Hdr} {vec : Bool} {m : MemOp} {n : Nat} {s : State} {j : Nat} (hl : lanesFor vec h (s.sl j) ≠ 0) :
    accsFor h vec m n s j ≠ [] := by
  unfold accsFor
  dsimp only
  rw [if_neg hl]
  cases vec with
  | false => simp [laneList]
  | true => simpa [laneList] using lanesOf_ne hl

theorem ldBytes_form (sz : LdSize) : ldBytes sz = 1 ∨ ldBytes sz = 2 ∨ ldBytes sz = 4 ∨ ldBytes sz = 8 ∨ ldBytes sz = 16 := by
  cases sz <;> simp [ldBytes]

theorem tyBytes_form (t : Ty) : tyBytes t = 1 ∨ tyBytes t = 2 ∨ tyBytes t = 4 ∨ tyBytes t = 8 ∨ tyBytes t = 16 := by
  unfold tyBytes; split <;> simp

theorem served_st {s : State} {j : Nat} {as : List LaneAcc} (h : s.served j as) :
    ∀ e ∈ as.map fun a => (a.lane, clrSt s j .read true a), e.2.isWait = false ∧ e.2.isFault = false := by
  intro e he
  obtain ⟨a, ha, rfl⟩ := List.mem_map.mp he
  rcases h a ha with ⟨h1, _⟩ | h1 <;> simp [h1, LaneSt.isWait, LaneSt.isFault]

theorem faultTrap_none {s : State} {j : Nat} {once : Bool} {l : List (Nat × LaneSt)} (h : ∀ e ∈ l, e.2.isFault = false) :
    faultTrap s j once l = none := by
  unfold faultTrap
  have : l.filter (fun e => e.2.isFault) = [] := by
    rw [List.filter_eq_nil_iff]
    intro e he
    simp [h e he]
  rw [this]

/-- Reads that are served in every slice of the unit need nothing more. -/
theorem memPre_read {s : State} {j : Nat} {once : Bool} {accs : Nat → List LaneAcc} (hs : s.served j (accs j)) :
    memPre s .read true once accs j = .go := by
  unfold memPre
  have h1 : ((accs j).map fun a => (a.lane, clrSt s j .read true a)).any (fun e => e.2.isWait) = false := by
    rw [List.any_eq_false]
    intro e he
    simp [(served_st hs e he).1]
  have h2 : faultTrap s j once ((accs j).map fun a => (a.lane, clrSt s j .read true a)) = none :=
    faultTrap_none fun e he => (served_st hs e he).2
  have h3 : ∀ e ∈ ((accs j).filter fun a => clrSt s j .read true a == .ok).map fun a => (a.lane, fillSt s j a), e.2 = .ok := by
    intro e he
    obtain ⟨a, ha, rfl⟩ := List.mem_map.mp he
    obtain ⟨ha1, ha2⟩ := List.mem_filter.mp ha
    rcases hs a ha1 with ⟨_, h⟩ | h
    · exact h
    · rw [h] at ha2; cases ha2
  have h4 : (((accs j).filter fun a => clrSt s j .read true a == .ok).map fun a => (a.lane, fillSt s j a)).any (fun e => e.2.isWait) = false := by
    rw [List.any_eq_false]
    intro e he
    simp [h3 e he, LaneSt.isWait]
  have h5 : faultTrap s j once (((accs j).filter fun a => clrSt s j .read true a == .ok).map fun a => (a.lane, fillSt s j a)) = none :=
    faultTrap_none fun e he => by simp [h3 e he, LaneSt.isFault]
  dsimp only
  rw [h1, h2]
  simp only [Bool.false_eq_true, if_false]
  split
  · rfl
  · rw [h4, h5]
    rfl

/-- A unit issues an instruction that puts accesses under way. -/
theorem unitGo_acc {h : Hdr} {m : Meaning} {s : State} (R : Nat → Slice → Slice → Prop) (hn : s.cur.Nodup)
    (hf : ∀ t i, i ∈ s.cur → AccRest s t → t.sl i = s.sl i →
      (∀ j, j ≠ i → (actOf m s t i).sl j = t.sl j) ∧ R i (t.sl i) ((actOf m s t i).sl i) ∧ AccRest t (actOf m s t i)) :
    AccFrame s (unitGo h m s) ∧ ∀ j ∈ s.cur, ∃ y, R j (s.sl j) y ∧ (unitGo h m s).sl j = waitW h y := by
  have hfold : ∀ (ids : List Nat), ids.Nodup → (∀ i ∈ ids, i ∈ s.cur) → ∀ u, AccRest s u → (∀ i ∈ ids, u.sl i = s.sl i) →
      (∀ j ∈ ids, R j (s.sl j) ((ids.foldl (actOf m s) u).sl j)) ∧ (∀ j, j ∉ ids → (ids.foldl (actOf m s) u).sl j = u.sl j) ∧
      AccRest u (ids.foldl (actOf m s) u) := by
    intro ids
    induction ids with
    | nil => intro _ _ u _ _; exact ⟨by simp, by simp, AccRest.refl u⟩
    | cons i l ih =>
      intro hnd hm u hu hp
      obtain ⟨hi, hl⟩ := List.nodup_cons.mp hnd
      have hpi := hp i List.mem_cons_self
      obtain ⟨e1, e2, e3⟩ := hf u i (hm i List.mem_cons_self) hu hpi
      obtain ⟨h1, h2, h3⟩ := ih hl (fun k hk => hm k (List.mem_cons_of_mem _ hk)) (actOf m s u i) (hu.trans e3)
        (fun k hk => by rw [e1 k fun e => hi (e ▸ hk)]; exact hp k (List.mem_cons_of_mem _ hk))
      refine ⟨fun j hj => ?_, fun j hj => ?_, e3.trans h3⟩
      · rcases List.mem_cons.mp hj with rfl | hj
        · rw [List.foldl_cons, h2 _ hi]
          rw [hpi] at e2
          exact e2
        · rw [List.foldl_cons]
          exact h1 j hj
      · have hj' := not_or.mp fun e => hj (List.mem_cons.mpr e)
        rw [List.foldl_cons, h2 j hj'.2, e1 j hj'.1]
  obtain ⟨a1, a2, a3⟩ := hfold s.cur hn (fun _ h => h) s (AccRest.refl s) fun _ _ => rfl
  obtain ⟨b1, b2, b3⟩ := fold_own (markW h) (fun _ x => waitW h x) (fun _ _ => rfl) s.cur hn (s.cur.foldl (actOf m s) s)
  have hb : AccRest (s.cur.foldl (actOf m s) s) (s.cur.foldl (markW h) (s.cur.foldl (actOf m s) s)) := by
    refine ⟨fun k => ?_, ?_⟩
    · have e : (s.cur.foldl (markW h) (s.cur.foldl (actOf m s) s)).core k = (s.cur.foldl (actOf m s) s).core k := by
        conv_rhs => rw [← b3]
        rfl
      rw [e]
      exact Core.keeps_refl _
    · calc ({ s.cur.foldl (markW h) (s.cur.foldl (actOf m s) s) with
              slices := (s.cur.foldl (actOf m s) s).slices, cores := (s.cur.foldl (actOf m s) s).cores,
              packets := (s.cur.foldl (actOf m s) s).packets, nextId := (s.cur.foldl (actOf m s) s).nextId } : State)
          = { ({ s.cur.foldl (markW h) (s.cur.foldl (actOf m s) s) with slices := (s.cur.foldl (actOf m s) s).slices } : State) with
              cores := (s.cur.foldl (actOf m s) s).cores, packets := (s.cur.foldl (actOf m s) s).packets,
              nextId := (s.cur.foldl (actOf m s) s).nextId } := rfl
        _ = { s.cur.foldl (actOf m s) s with
              cores := (s.cur.foldl (actOf m s) s).cores, packets := (s.cur.foldl (actOf m s) s).packets,
              nextId := (s.cur.foldl (actOf m s) s).nextId } := by rw [b3]
        _ = s.cur.foldl (actOf m s) s := rfl
  have hab := a3.trans hb
  have key : ∀ (ov : Bool) (r : State), AccRest s r →
      (∀ j, r.sl j = (s.cur.foldl (markW h) (s.cur.foldl (actOf m s) s)).sl j) →
      AccFrame s { (if ov then endRun r s.cur else r) with cur := [] } ∧
      ∀ j ∈ s.cur, ∃ y, R j (s.sl j) y ∧ ({ (if ov then endRun r s.cur else r) with cur := [] } : State).sl j = waitW h y := by
    intro ov r hr hs
    have hr' : AccRest s (if ov then endRun r s.cur else r) := by
      split
      · exact hr.trans (AccRest.ofSlots (endRun_frame r s.cur))
      · exact hr
    have hs' : ∀ j, (if ov then endRun r s.cur else r).sl j = (s.cur.foldl (markW h) (s.cur.foldl (actOf m s) s)).sl j := by
      intro j
      split
      · rw [endRun_sl]; exact hs j
      · exact hs j
    generalize (if ov then endRun r s.cur else r) = u at hr' hs'
    have hu : ∀ j, ({ u with cur := [] } : State).sl j = u.sl j := fun _ => rfl
    refine ⟨⟨fun j hj => ?_, hr'.cores, ?_, rfl⟩, fun j hj => ⟨_, a1 j hj, ?_⟩⟩
    · rw [hu, hs', b2 j hj, a2 j hj]
    · have := hr'.rest
      calc ({ ({ u with cur := [] } : State) with
              slices := s.slices, cores := s.cores, packets := s.packets, nextId := s.nextId, cur := s.cur } : State)
          = { ({ u with slices := s.slices, cores := s.cores, packets := s.packets, nextId := s.nextId } : State) with cur := s.cur } := rfl
        _ = s := by rw [this]
    · rw [hu, hs', b1 j hj]
  unfold unitGo
  dsimp only
  exact key _ _ (hab.trans (AccRest.ofSlots (countRun_frame _ _ _))) (fun j => countRun_sl _ _ _ j)

end Sys2Proof.Machine
end

