-- ==== Sys2Proof/Laws/Encoding.lean ====
section
/-! SUPPORT. The encoder's fields fit their bits and are read back: one lemma for each kind of field. -/

set_option Elab.async false
set_option linter.unusedSimpArgs false
set_option linter.unusedVariables false

namespace Sys2Proof

@[simp] theorem b2n_true : b2n true = 1 := rfl
@[simp] theorem b2n_false : b2n false = 0 := rfl
@[simp] theorem b2n_eq_one (b : Bool) : (b2n b == 1) = b := by cases b <;> rfl
@[simp] theorem b2n_le (b : Bool) : b2n b ≤ 1 := by cases b <;> decide
@[simp] theorem b2n_lt16 (b : Bool) : b2n b < 16 := by cases b <;> decide
theorem b2n_lt (b : Bool) : b2n b < 2 := by cases b <;> decide

/-- Every field fits its bits. -/
def Fields.fits (f : Fields) : Prop :=
  f.op < 256 ∧ f.fn < 16 ∧ f.ty < 16 ∧ f.d < 256 ∧ f.a < 256 ∧ f.b < 256 ∧ f.c < 256 ∧ f.g1 < 16 ∧ f.g2 < 16 ∧ f.ch < 8 ∧ f.w < 2 ∧
  f.r < 2 ∧ f.x < 2 ∧ f.z < 4 ∧ f.w2 < 2 ^ 32

theorem Fields.ofNat_toNat (f : Fields) (h : f.fits) : Fields.ofNat f.toNat = f := by
  obtain ⟨op, fn, ty, d, a, b, c, g1, g2, ch, w, r, x, z, w2⟩ := f
  simp only [Fields.fits] at h
  obtain ⟨h1, h2, h3, h4, h5, h6, h7, h8, h9, h10, h11, h12, h13, h14, h15⟩ := h
  simp only [Fields.ofNat, Fields.toNat, Fields.mk.injEq]
  refine ⟨?_, ?_, ?_, ?_, ?_, ?_, ?_, ?_, ?_, ?_, ?_, ?_, ?_, ?_, ?_⟩ <;> omega

/-- A register number in range. -/
def Opnd.inRange (o : Opnd) : Bool := o.numOk false

def Opnd.evenIf (o : Opnd) : Bool := match o with | .v n => n % 2 == 0 | _ => true

theorem numOk_split (o : Opnd) (p : Bool) : o.numOk p = (o.inRange && (!p || o.evenIf)) := by
  cases o <;> cases p <;> simp only [Opnd.numOk, Opnd.inRange, Opnd.evenIf, Bool.not_true, Bool.not_false, Bool.true_or, Bool.false_or, Bool.and_true]

@[simp] theorem opnd_byte {o : Opnd} (h : o.inRange = true) : opnd o.byte = o := by
  cases o with
  | v n =>
    have hn : n < 192 := by simpa [Opnd.inRange, Opnd.numOk] using h
    show opnd n = _
    unfold opnd; rw [if_pos hn]
  | s n =>
    have hn : n < 48 := by simpa [Opnd.inRange, Opnd.numOk] using h
    have e : opnd (0xC0 + n) = Opnd.s (0xC0 + n - 0xC0) := by
      unfold opnd
      rw [if_neg (by omega), if_pos (by omega)]
    rw [Nat.add_sub_cancel_left] at e
    exact e
  | zero => rfl
  | lane => rfl
  | slot => rfl
  | imm => rfl

@[simp] theorem byte_lt {o : Opnd} (h : o.inRange = true) : o.byte < 256 := by
  cases o with
  | v n => have hn : n < 192 := by simpa [Opnd.inRange, Opnd.numOk] using h
           show n < 256; omega
  | s n => have hn : n < 48 := by simpa [Opnd.inRange, Opnd.numOk] using h
           show 192 + n < 256; omega
  | zero => decide
  | lane => decide
  | slot => decide
  | imm => decide

@[simp] theorem tyOf_code (t : Ty) : tyOf t.code = some t := by cases t <;> rfl
@[simp] theorem code_lt (t : Ty) : t.code < 16 := by cases t <;> decide
@[simp] theorem guardOf_code {g : Guard} (h : g.ix < 8) : guardOf g.code = g := by
  obtain ⟨n, x⟩ := g
  have hx : x < 8 := h
  cases n <;> simp only [guardOf, Guard.code, Guard.mk.injEq] <;> constructor <;> simp <;> omega
@[simp] theorem gcode_lt {g : Guard} (h : g.ix < 8) : g.code < 16 := by
  obtain ⟨n, x⟩ := g
  have hx : x < 8 := h
  cases n <;> simp [Guard.code] <;> omega

theorem roundtrip_of {i : Instr} {f : Fields} (hw : WellFormed i = true) (he : encodeFields i = some f) (hf : f.fits) (hp : parse f = some i)
    (hz : f.z = 0) (hx : (f.x == 1) = xOnly f.op) : ∀ n, encodeWord i = some n → decodeWord n = .ok i := by
  intro n hn
  simp only [encodeWord, he, Option.map_some, Option.some.injEq] at hn
  subst hn
  simp only [WellFormed, Bool.and_eq_true] at hw
  rw [decodeWord, Fields.ofNat_toNat f hf]
  unfold decodeFields
  rw [hp]
  dsimp only
  rw [if_neg (by simp [hz, hx, hw.1]), if_pos hw.2]

theorem imm_ofNat (x : Word) : BitVec.ofNat 32 x.toNat = x := by simp


@[simp] theorem imm_lt (x : Word) : x.toNat < 4294967296 := x.isLt
@[simp] theorem condOf_code (x : Cond) : condOf x.code = some x := by cases x <;> rfl
@[simp] theorem Cond.code_lt (x : Cond) : x.code < 16 := by cases x <;> decide
@[simp] theorem wcondOf_code (x : WCond) : wcondOf x.code = some x := by cases x <;> rfl
@[simp] theorem WCond.code_lt (x : WCond) : x.code < 16 := by cases x <;> decide
@[simp] theorem rndDirOf_code (x : RndDir) : rndDirOf x.code = some x := by cases x <;> rfl
@[simp] theorem RndDir.code_lt (x : RndDir) : x.code < 16 := by cases x <;> decide
@[simp] theorem sgnOpOf_code (x : SgnOp) : sgnOpOf x.code = some x := by cases x <;> rfl
@[simp] theorem SgnOp.code_lt (x : SgnOp) : x.code < 16 := by cases x <;> decide
@[simp] theorem cvtSrcOf_code (x : CvtSrc) : cvtSrcOf x.code = some x := by cases x <;> rfl
@[simp] theorem CvtSrc.code_lt (x : CvtSrc) : x.code < 16 := by cases x <;> decide
@[simp] theorem intSrcOf_code (x : IntSrc) : intSrcOf x.code = some x := by cases x <;> rfl
@[simp] theorem IntSrc.code_lt (x : IntSrc) : x.code < 16 := by cases x <;> decide
@[simp] theorem fltSrcOf_code (x : FltSrc) : fltSrcOf x.code = some x := by cases x <;> rfl
@[simp] theorem FltSrc.code_lt (x : FltSrc) : x.code < 16 := by cases x <;> decide
@[simp] theorem lxModeOf_code (x : LxMode) : lxModeOf x.code = some x := by cases x <;> rfl
@[simp] theorem LxMode.code_lt (x : LxMode) : x.code < 16 := by cases x <;> decide
@[simp] theorem redOpOf_code (x : RedOp) : redOpOf x.code = some x := by cases x <;> rfl
@[simp] theorem RedOp.code_lt (x : RedOp) : x.code < 16 := by cases x <;> decide
@[simp] theorem atomOpOf_code (x : AtomOp) : atomOpOf x.code = some x := by cases x <;> rfl
@[simp] theorem AtomOp.code_lt (x : AtomOp) : x.code < 16 := by cases x <;> decide
@[simp] theorem ldSizeOf_code (x : LdSize) : ldSizeOf x.code = some x := by cases x <;> rfl
@[simp] theorem LdSize.code_lt (x : LdSize) : x.code < 16 := by cases x <;> decide
@[simp] theorem lclSpaceOf_code (x : LclSpace) : lclSpaceOf x.code = some x := by cases x <;> rfl
@[simp] theorem LclSpace.code_lt (x : LclSpace) : x.code < 16 := by cases x <;> decide
@[simp] theorem fenceKindOf_code (x : FenceKind) : fenceKindOf x.code = some x := by cases x <;> rfl
@[simp] theorem FenceKind.code_lt (x : FenceKind) : x.code < 16 := by cases x <;> decide
@[simp] theorem dkFnOf_code (x : DkFn) : dkFnOf x.code = some x := by cases x <;> rfl
@[simp] theorem DkFn.code_lt (x : DkFn) : x.code < 16 := by cases x <;> decide
@[simp] theorem scopeOf_code (x : Scope) : scopeOf x.code = some x := by cases x <;> rfl
@[simp] theorem Scope.code_lt (x : Scope) : x.code < 16 := by cases x <;> decide
@[simp] theorem PredOp.byte_lt {p : PredOp} (h : p.ix < 8) : p.byte < 256 := by
  obtain ⟨q, x⟩ := p
  have hx : x < 8 := h
  cases q <;> simp [PredOp.byte] <;> omega
@[simp] theorem predOp_byte {p : PredOp} (h : p.ix < 8) : predOp p.byte = p := by
  obtain ⟨q, x⟩ := p
  have hx : x < 8 := h
  have e : x % 8 = x := Nat.mod_eq_of_lt hx
  cases q
  · show predOp (0 + x) = _
    rw [Nat.zero_add]
    unfold predOp
    rw [if_pos (by omega), e, decide_eq_false (by omega)]
  · show predOp (8 + x) = _
    unfold predOp
    rw [if_pos (by omega), Nat.add_mod_left, e, decide_eq_true (by omega)]

@[simp] theorem tyOf_zero : tyOf 0 = some .u32 := rfl
@[simp] theorem tyOf_two : tyOf 2 = some .u64 := rfl
@[simp] theorem tyOf_four : tyOf 4 = some .f32 := rfl

theorem MemOp.ctl_form (m : MemOp) (h : m.scale < 4) :
    ∃ r : Nat, r < 2 ∧ (r = 1 ↔ m.r = true) ∧ m.ctl = m.scope.code + 8 * m.order.code + 32 * m.scale + 128 * r ∧ m.scope.code < 6 ∧ m.order.code < 4 := by
  have h1 : m.scope.code < 6 := by cases m.scope <;> decide
  have h2 : m.order.code < 4 := by cases m.order <;> decide
  cases hr : m.r
  · exact ⟨0, by omega, by simp, by simp [MemOp.ctl, hr], h1, h2⟩
  · exact ⟨1, by omega, by simp, by simp [MemOp.ctl, hr], h1, h2⟩

@[simp] theorem MemOp.ctl_lt {m : MemOp} (h : m.scale < 4) : m.ctl < 256 := by
  obtain ⟨r, h1, _, h2, h3, h4⟩ := m.ctl_form h
  omega

theorem orderOf_code (o : Order) : orderOf o.code = o := by cases o <;> rfl

/-- The memory operand is read back from its three bytes. -/
@[simp] theorem fields_mem {m : MemOp} (hb : m.base.inRange = true) (hi : m.index.inRange = true) (hs : m.scale < 4)
    (op fn ty d g1 g2 ch w r x z w2 : Nat) :
    Fields.mem ⟨op, fn, ty, d, m.base.byte, m.index.byte, m.ctl, g1, g2, ch, w, r, x, z, w2⟩ = some m := by
  obtain ⟨q, h1, hq, h2, h3, h4⟩ := m.ctl_form hs
  have e1 : m.ctl % 8 = m.scope.code := by omega
  have e2 : m.ctl / 8 % 4 = m.order.code := by omega
  have e3 : m.ctl / 32 % 4 = m.scale := by omega
  have e4 : (m.ctl / 128 == 1) = m.r := by
    have : m.ctl / 128 = q := by omega
    rw [this]
    cases hr : m.r
    · have : q ≠ 1 := fun h => by rw [hq.mp h] at hr; cases hr
      simpa using this
    · simpa using hq.mpr hr
  simp only [Fields.mem, e1, e2, e3, e4, scopeOf_code, Option.map_some, opnd_byte hb, opnd_byte hi, orderOf_code]

theorem parseWrsr_wrsr (h : Hdr) (t : Ty) (a : Opnd) (hs : srOtherWrite h.imm.toNat = true) : parseWrsr h t a = .wrsr h t a := by
  simp only [srOtherWrite, Bool.or_eq_true, decide_eq_true_eq, beq_iff_eq] at hs
  unfold parseWrsr
  dsimp only
  rw [if_neg (by omega), if_neg (by omega), if_neg (by omega), if_neg (by omega), if_neg (by omega), if_neg (by omega), if_neg (by omega)]

theorem parseWrsr_trap (h : Hdr) (t : Ty) (a : Opnd) (h1 : 0x31 ≤ h.imm.toNat) (h2 : h.imm.toNat ≤ 0x35) :
    parseWrsr h t a = .writeTrapRegister h t a := by
  unfold parseWrsr
  dsimp only
  rw [if_neg (by omega), if_neg (by omega), if_neg (by omega), if_pos (by omega)]

theorem parseWrsr_format (h : Hdr) (t : Ty) (a : Opnd) (h1 : 0x40 ≤ h.imm.toNat) (h2 : h.imm.toNat ≤ 0x4F) :
    parseWrsr h t a = .writeFormatRegister h t a := by
  unfold parseWrsr
  dsimp only
  rw [if_neg (by omega), if_neg (by omega), if_neg (by omega), if_neg (by omega), if_pos (by omega)]

theorem parseWrsr_scale (h : Hdr) (t : Ty) (a : Opnd) (h1 : 0x50 ≤ h.imm.toNat) (h2 : h.imm.toNat ≤ 0x5F) :
    parseWrsr h t a = .writeTensorScale h t a := by
  unfold parseWrsr
  dsimp only
  rw [if_neg (by omega), if_neg (by omega), if_neg (by omega), if_neg (by omega), if_neg (by omega), if_pos (by omega)]

/-- The third word of an X form. -/
@[simp] theorem xword_e {e x : Nat} (he : e < 256) : (e + 256 * x) % 256 = e := by omega
@[simp] theorem xword_imm {e x : Nat} (he : e < 256) : (e + 256 * x) / 256 = x := by omega
@[simp] theorem xword_lt {e : Nat} (he : e < 256) (x : Nat) : e + 256 * (x % 16777216) < 4294967296 := by omega

theorem imm24_back {x : Word} (h : ((x.setWidth 24).signExtend 32 == x) = true) :
    (BitVec.ofNat 24 (x.toNat % 16777216)).signExtend 32 = x := by
  have e : BitVec.ofNat 24 (x.toNat % 16777216) = x.setWidth 24 := by
    apply BitVec.eq_of_toNat_eq
    simp
  rw [e]
  simpa using h

@[simp] theorem cellOp_byte {c : CellOp} (h : c.cellSrc = true) : cellOp c.byte = c := by
  cases c with
  | cell n =>
    have hn : n < 48 := by simpa [CellOp.cellSrc] using h
    show cellOp n = _
    unfold cellOp
    rw [if_neg (by omega), if_neg (by omega), if_pos (by omega)]
  | cx => rfl
  | cy => rfl
  | scalar o => simp [CellOp.cellSrc] at h

theorem cellOp_scalar {o : Opnd} (h : o.szi = true) : cellOp o.byte = .scalar o := by
  cases o with
  | v n => simp [Opnd.szi, Opnd.ok, Opnd.kind] at h
  | s n =>
    have hn : n < 48 := by simpa [Opnd.szi, Opnd.ok, Opnd.kind, Opnd.numOk] using h
    have e : opnd (0xC0 + n) = .s n := opnd_byte (o := .s n) (by simpa [Opnd.inRange, Opnd.numOk] using hn)
    show cellOp (0xC0 + n) = _
    unfold cellOp
    rw [if_neg (by omega), if_neg (by omega), if_neg (by omega), e]
  | zero => rfl
  | lane => rfl
  | slot => rfl
  | imm => rfl

@[simp] theorem cellOp_byte_any {c : CellOp} (h : c.any = true) : cellOp c.byte = c := by
  cases c with
  | scalar o => exact cellOp_scalar h
  | cell n => exact cellOp_byte h
  | cx => rfl
  | cy => rfl

@[simp] theorem cell_byte_lt {c : CellOp} (h : c.cellSrc = true) : c.byte < 256 := by
  cases c with
  | cell n =>
    have hn : n < 48 := by simpa [CellOp.cellSrc] using h
    show n < 256; omega
  | cx => decide
  | cy => decide
  | scalar o => simp [CellOp.cellSrc] at h

@[simp] theorem cell_byte_lt_any {c : CellOp} (h : c.any = true) : c.byte < 256 := by
  cases c with
  | scalar o => exact byte_lt (o := o) (by
      have h' : o.szi = true := h
      simp only [Opnd.szi, Opnd.ok, numOk_split, Bool.and_eq_true] at h'
      exact h'.2.1)
  | cell n => exact cell_byte_lt h
  | cx => decide
  | cy => decide


theorem MemOp.form_scale {m : MemOp} {a r x : Bool} (h : m.form a r x = true) : m.scale < 4 := by
  simp only [MemOp.form, Bool.and_eq_true, decide_eq_true_eq] at h
  exact h.1.1.2

theorem MemOp.operands_range {m : MemOp} (h : m.operands = true) : m.base.inRange = true ∧ m.index.inRange = true := by
  simp only [MemOp.operands, Opnd.ok, numOk_split, Bool.and_eq_true] at h
  exact ⟨h.1.2.1, h.2.2.1⟩

@[simp] theorem RedOp.code_mod (x : RedOp) : x.code % 8 = x.code := by cases x <;> rfl
@[simp] theorem RedOp.code_le (x : RedOp) : x.code < 8 := by cases x <;> decide
@[simp] theorem RedOp.code_ge (x : RedOp) : ¬ 8 ≤ x.code := by cases x <;> decide


theorem sz_range {o : Opnd} (h : o.sz = true) : o.inRange = true := by
  simp only [Opnd.sz, Opnd.ok, numOk_split, Bool.and_eq_true] at h
  exact h.2.1


@[simp] theorem tyOf_one : tyOf 1 = some .s32 := rfl
@[simp] theorem RedOp.code_add (x : RedOp) : x.code + 8 < 16 := by cases x <;> decide
@[simp] theorem Cond.code_ne_eight (x : Cond) : ¬ x.code = 8 := by cases x <;> decide
@[simp] theorem dkanyQ_add (q : Nat) : dkanyQ (q + 8) = q := by simp [dkanyQ]
@[simp] theorem add_eight_lt {q : Nat} (h : q < 8) : q + 8 < 16 := by omega

theorem dkop_c_any {fn : DkFn} {t : Ty} {c : CellOp}
    (h : (if fn == .cmp then (match c with | .cell n => decide (n < (if t == .f32 then 8 else 6)) | _ => false) else c.any) = true) :
    c.any = true := by
  split at h
  · split at h
    · rename_i n
      have : n < 48 := by
        have h' : n < (if t == .f32 then 8 else 6) := by simpa using h
        split at h' <;> omega
      simpa [CellOp.any, CellOp.cellSrc] using this
    · cases h
  · exact h


@[simp] theorem guardOf_always : guardOf Guard.always.code = Guard.always := rfl
@[simp] theorem always_code_lt : Guard.always.code < 16 := by decide
@[simp] theorem opnd_byte_mod {o : Opnd} (h : o.inRange = true) : opnd (o.byte % 256) = o := by
  rw [Nat.mod_eq_of_lt (byte_lt h), opnd_byte h]
@[simp] theorem FenceKind.code_ne_zero (k : FenceKind) : ¬ k.code = 0 := by cases k <;> decide

theorem parseWrsr_flags (h : Hdr) (t : Ty) (a : Opnd) (hi : h.imm.toNat = 0x20) : parseWrsr h t a = .writeFlags h t a := by
  unfold parseWrsr; dsimp only; rw [if_pos hi]
theorem parseWrsr_dkflags (h : Hdr) (t : Ty) (a : Opnd) (hi : h.imm.toNat = 0x21) : parseWrsr h t a = .writeDkflags h t a := by
  unfold parseWrsr; dsimp only; rw [if_neg (by omega), if_pos hi]
theorem parseWrsr_vec (h : Hdr) (t : Ty) (a : Opnd) (hi : h.imm.toNat = 0x30) : parseWrsr h t a = .writeTrapvec h t a := by
  unfold parseWrsr; dsimp only; rw [if_neg (by omega), if_neg (by omega), if_pos hi]
theorem parseWrsr_l2wp (h : Hdr) (t : Ty) (a : Opnd) (hi : h.imm.toNat = 0x70) : parseWrsr h t a = .writeL2wp h t a := by
  unfold parseWrsr
  dsimp only
  rw [if_neg (by omega), if_neg (by omega), if_neg (by omega), if_neg (by omega), if_neg (by omega), if_neg (by omega), if_pos hi]

theorem dktex_b_any {b : CellOp} (h : (match b with | .cell n => decide (n < 48) | .scalar .zero => true | _ => false) = true) :
    b.any = true := by
  split at h
  · simpa [CellOp.any, CellOp.cellSrc] using h
  · rfl
  · cases h

theorem si_byte {b : Opnd} (h : b.si = true) : ¬ b.byte = 0xF0 := by
  cases b with
  | s n =>
    have hn : n < 48 := by simpa [Opnd.si, Opnd.ok, Opnd.kind, Opnd.numOk] using h
    show ¬ 0xC0 + n = 0xF0
    omega
  | imm => decide
  | v n => simp [Opnd.si, Opnd.ok, Opnd.kind] at h
  | zero => simp [Opnd.si, Opnd.ok, Opnd.kind] at h
  | lane => simp [Opnd.si, Opnd.ok, Opnd.kind] at h
  | slot => simp [Opnd.si, Opnd.ok, Opnd.kind] at h


theorem sp_range {t : Ty} {d : Opnd} (h : (if t == .u8x4 then d.dst else d.dst && d.sRange 2) = true) : d.inRange = true := by
  split at h
  · simp only [Opnd.dst, Opnd.ok, numOk_split, Bool.and_eq_true] at h
    exact h.2.1
  · simp only [Opnd.dst, Opnd.ok, numOk_split, Bool.and_eq_true] at h
    exact h.1.2.1

theorem spcomp_n {t : Ty} {n : Nat} {b : Opnd}
    (h : (match t with | .u8x4 => decide (n < 16) && b == .zero | .f16x2 => n == 0 | .bf16x2 => n == 0 | _ => false) = true) : n < 16 := by
  split at h
  · simp only [Bool.and_eq_true, decide_eq_true_eq] at h; exact h.1
  · have h' : n = 0 := by simpa using h
    omega
  · have h' : n = 0 := by simpa using h
    omega
  · cases h


theorem psave_range {q : Bool} {d : Opnd} (h : (if q then d.sOnly else d.ok [.v]) = true) : d.inRange = true := by
  split at h <;> simp only [Opnd.sOnly, Opnd.ok, numOk_split, Bool.and_eq_true] at h <;> exact h.2.1
theorem pload_range {q : Bool} {d : Opnd} (h : (if q then d.sOnly else d.vs) = true) : d.inRange = true := by
  split at h <;> simp only [Opnd.sOnly, Opnd.vs, Opnd.ok, numOk_split, Bool.and_eq_true] at h <;> exact h.2.1

end Sys2Proof
end

