-- ==== Sys2Proof/Laws/Land.lean ====
section
/-! SUPPORT. What an instruction leaves whose results land later: one more outstanding instruction in each slice of the unit, issue slots and
fresh identities aside nothing else. -/

namespace Sys2Proof.Machine

/-- Slices, issue slots of cores and the next identity may differ. -/
structure LandRest (s t : State) : Prop where
  cores : ∀ k, { t.core k with slots := (s.core k).slots } = s.core k
  rest : { t with slices := s.slices, cores := s.cores, nextId := s.nextId } = s

theorem LandRest.refl (s : State) : LandRest s s := ⟨fun _ => rfl, rfl⟩

theorem LandRest.trans {s t u : State} (h1 : LandRest s t) (h2 : LandRest t u) : LandRest s u := by
  refine ⟨fun k => ?_, ?_⟩
  · have a := h1.cores k
    have b := h2.cores k
    rw [← a, ← b]
  · have a := h1.rest
    have b := h2.rest
    rw [← a, ← b]

theorem LandRest.crews {s t : State} (h : LandRest s t) : t.crews = s.crews := by
  have := h.rest
  rw [← this]

theorem LandRest.crew {s t : State} (h : LandRest s t) (i : Nat) : t.crew i = s.crew i := by
  unfold State.crew
  rw [h.crews]

theorem LandRest.cur {s t : State} (h : LandRest s t) : t.cur = s.cur := by
  have := h.rest
  rw [← this]

theorem LandRest.ofSlices {s : State} {x : Tbl Slice} : LandRest s { s with slices := x } := ⟨fun _ => rfl, rfl⟩

theorem LandRest.setSl (s : State) (i : Nat) (x : Slice) : LandRest s (s.setSl i x) := ⟨fun _ => rfl, rfl⟩

theorem LandRest.ofSlots {s t : State} (h : SlotFrame s t) : LandRest s t := by
  refine ⟨h.cores, ?_⟩
  have := h.rest
  calc ({ t with slices := s.slices, cores := s.cores, nextId := s.nextId } : State)
      = { ({ t with cores := s.cores } : State) with slices := s.slices, nextId := s.nextId } := rfl
    _ = s := by rw [this]

/-- Updating distinct slices one after another, each as a relation on it says. -/
theorem fold_land (p : State) (f : State → Nat → State) (R : Nat → Slice → Slice → Prop) (ids : List Nat) (hn : ids.Nodup)
    (hf : ∀ t i, i ∈ ids → LandRest p t → t.sl i = p.sl i →
      (∀ j, j ≠ i → (f t i).sl j = t.sl j) ∧ R i (t.sl i) ((f t i).sl i) ∧ LandRest t (f t i)) (s : State) (hs : LandRest p s)
    (hp : ∀ i ∈ ids, s.sl i = p.sl i) :
    (∀ j ∈ ids, R j (p.sl j) ((ids.foldl f s).sl j)) ∧ (∀ j, j ∉ ids → (ids.foldl f s).sl j = s.sl j) ∧ LandRest s (ids.foldl f s) := by
  induction ids generalizing s with
  | nil => exact ⟨by simp, by simp, LandRest.refl s⟩
  | cons i l ih =>
    obtain ⟨hi, hl⟩ := List.nodup_cons.mp hn
    have hpi := hp i List.mem_cons_self
    obtain ⟨e1, e2, e3⟩ := hf s i List.mem_cons_self hs hpi
    have hk : ∀ k ∈ l, (f s i).sl k = p.sl k := by
      intro k hk
      rw [e1 k fun e => hi (e ▸ hk)]
      exact hp k (List.mem_cons_of_mem _ hk)
    obtain ⟨h1, h2, h3⟩ := ih hl (fun t k hk => hf t k (List.mem_cons_of_mem _ hk)) (f s i) (hs.trans e3) hk
    refine ⟨fun j hj => ?_, fun j hj => ?_, e3.trans h3⟩
    · rcases List.mem_cons.mp hj with rfl | hj
      · rw [List.foldl_cons, h2 _ hi]
        rw [hpi] at e2
        exact e2
      · rw [List.foldl_cons]
        exact h1 j hj
    · have hj' := not_or.mp fun e => hj (List.mem_cons.mpr e)
      rw [List.foldl_cons, h2 j hj'.2, e1 j hj'.1]

/-- A unit issues an instruction that changes slices, issue slots and identities alone. -/
theorem unitGo_land {h : Hdr} {m : Meaning} {s : State} (R : Nat → Slice → Slice → Prop) (hn : s.cur.Nodup)
    (hf : ∀ t i, i ∈ s.cur → LandRest s t → t.sl i = s.sl i →
      (∀ j, j ≠ i → (actOf m s t i).sl j = t.sl j) ∧ R i (t.sl i) ((actOf m s t i).sl i) ∧ LandRest t (actOf m s t i)) :
    LandFrame s (unitGo h m s) ∧ ∀ j ∈ s.cur, ∃ y, R j (s.sl j) y ∧ (unitGo h m s).sl j = waitW h y := by
  obtain ⟨a1, a2, a3⟩ := fold_land s (actOf m s) R s.cur hn hf s (LandRest.refl s) fun _ _ => rfl
  obtain ⟨b1, b2, b3⟩ := fold_own (markW h) (fun _ x => waitW h x) (fun _ _ => rfl) s.cur hn (s.cur.foldl (actOf m s) s)
  have hb : LandRest (s.cur.foldl (actOf m s) s) (s.cur.foldl (markW h) (s.cur.foldl (actOf m s) s)) := by
    refine ⟨fun k => ?_, ?_⟩
    · have e : (s.cur.foldl (markW h) (s.cur.foldl (actOf m s) s)).core k = (s.cur.foldl (actOf m s) s).core k := by
        conv_rhs => rw [← b3]
        rfl
      rw [e]
    · calc ({ s.cur.foldl (markW h) (s.cur.foldl (actOf m s) s) with
              slices := (s.cur.foldl (actOf m s) s).slices, cores := (s.cur.foldl (actOf m s) s).cores,
              nextId := (s.cur.foldl (actOf m s) s).nextId } : State)
          = { ({ s.cur.foldl (markW h) (s.cur.foldl (actOf m s) s) with slices := (s.cur.foldl (actOf m s) s).slices } : State) with
              cores := (s.cur.foldl (actOf m s) s).cores, nextId := (s.cur.foldl (actOf m s) s).nextId } := rfl
        _ = s.cur.foldl (actOf m s) s := by rw [b3]
  have hab := a3.trans hb
  have key : ∀ (ov : Bool) (r : State), LandRest s r →
      (∀ j, r.sl j = (s.cur.foldl (markW h) (s.cur.foldl (actOf m s) s)).sl j) →
      LandFrame s { (if ov then endRun r s.cur else r) with cur := [] } ∧
      ∀ j ∈ s.cur, ∃ y, R j (s.sl j) y ∧ ({ (if ov then endRun r s.cur else r) with cur := [] } : State).sl j = waitW h y := by
    intro ov r hr hs
    have hr' : LandRest s (if ov then endRun r s.cur else r) := by
      split
      · exact hr.trans (LandRest.ofSlots (endRun_frame r s.cur))
      · exact hr
    have hs' : ∀ j, (if ov then endRun r s.cur else r).sl j = (s.cur.foldl (markW h) (s.cur.foldl (actOf m s) s)).sl j := by
      intro j
      split
      · rw [endRun_sl]; exact hs j
      · exact hs j
    generalize (if ov then endRun r s.cur else r) = u at hr' hs'
    have hu : ∀ j, ({ u with cur := [] } : State).sl j = u.sl j := fun _ => rfl
    refine ⟨⟨fun j hj => ?_, hr'.cores, ?_, rfl⟩, fun j hj => ⟨_, a1 j hj, ?_⟩⟩
    · rw [hu, hs', b2 j hj, a2 j hj]
    · have := hr'.rest
      calc ({ ({ u with cur := [] } : State) with slices := s.slices, cores := s.cores, nextId := s.nextId, cur := s.cur } : State)
          = { ({ u with slices := s.slices, cores := s.cores, nextId := s.nextId } : State) with cur := s.cur } := rfl
        _ = s := by rw [this]
    · rw [hu, hs', b1 j hj]
  unfold unitGo
  dsimp only
  exact key _ _ (hab.trans (LandRest.ofSlots (countRun_frame _ _ _))) (fun j => countRun_sl _ _ _ j)

/-- What `addLands` does: one more outstanding instruction, its results ready. -/
theorem addLands_land (s : State) (i : Nat) (ls : List (LandDst × DWord)) (hl : ls ≠ []) :
    (∀ j, j ≠ i → (addLands s i ls).sl j = s.sl j) ∧ LandRest s (addLands s i ls) ∧
    (addLands s i ls).sl i = { s.sl i with
      outst := Tbl.put (s.sl i).outst s.nextId ls.length
      ready := (s.sl i).ready ++ ls.map fun e => ⟨s.nextId, e.1, e.2⟩ } := by
  have hE : ls.isEmpty = false := by cases ls <;> simp_all
  unfold addLands
  rw [hE]
  simp only [Bool.false_eq_true, if_false]
  refine ⟨fun j hj => ?_, ⟨fun _ => rfl, rfl⟩, ?_⟩
  · rw [State.updSl_eq, State.sl_setSl, if_neg fun e => hj e.symm]
    rfl
  · rw [State.updSl_eq, State.sl_setSl_self]
    rfl

end Sys2Proof.Machine
end

