-- ==== Sys2Proof/Laws/PerInstr.lean ====
section
/-! SUPPORT. What is said of every instruction as syntax, one lemma per constructor: decoding the word that encodes it gives it back.
FY.LAUNCH has its own 32-bit word and the events have none. -/

set_option Elab.async false
set_option linter.unusedSimpArgs false
set_option linter.unusedVariables false
set_option linter.unusedTactic false
set_option linter.unreachableTactic false
set_option linter.unnecessarySeqFocus false

namespace Sys2Proof

/-- Decode after encode (R251 to R267). -/
def Laws.RoundTrip.Statement (i : Instr) : Prop := WellFormed i = true → ∀ n, encodeWord i = some n → decodeWord n = .ok i

theorem Laws.RoundTrip.nop (h : Hdr) : Laws.RoundTrip.Statement (.nop h) := by
  intro hw0
  have hw := hw0
  obtain ⟨g1, g2, ch, w, r, imm⟩ := h
  (simp only [WellFormed, Instr.formOk, Instr.operandsOk, Opnd.dst, Opnd.src, Opnd.szi, Opnd.sz, Opnd.si, Opnd.vs, Opnd.sOnly, Opnd.ok, numOk_split, Hdr.immIf, Hdr.immBelow, Hdr.hinted, Hdr.unguarded, Hdr.plain, Hdr.guards, PredOp.ok, Hdr.imm24, Bool.and_eq_true, decide_eq_true_eq, beq_iff_eq] at hw
   refine roundtrip_of hw0 rfl ?_ ?_ rfl rfl
   · simp [Fields.fits, Hdr.fields, Fields.dab, Fields.dabc, Fields.da, Fields.ab, Fields.abc, Fields.inA, Fields.inD, Fields.withMem, Fields.withMemD, Fields.withE, hw] <;> omega
   · simp [parse, parse0, Hdr.fields, Fields.hdr, Fields.imm, need, Fields.noA, Fields.noB, Fields.noC, Fields.noD, Fields.dab, Fields.dabc, Fields.da, Fields.ab, Fields.abc, Fields.inA, Fields.inD, Fields.withMem, Fields.withMemD, Fields.withE, hw])

theorem Laws.RoundTrip.bra (h : Hdr) : Laws.RoundTrip.Statement (.bra h) := by
  intro hw0
  have hw := hw0
  obtain ⟨g1, g2, ch, w, r, imm⟩ := h
  (simp only [WellFormed, Instr.formOk, Instr.operandsOk, Opnd.dst, Opnd.src, Opnd.szi, Opnd.sz, Opnd.si, Opnd.vs, Opnd.sOnly, Opnd.ok, numOk_split, Hdr.immIf, Hdr.immBelow, Hdr.hinted, Hdr.unguarded, Hdr.plain, Hdr.guards, PredOp.ok, Hdr.imm24, Bool.and_eq_true, decide_eq_true_eq, beq_iff_eq] at hw
   refine roundtrip_of hw0 rfl ?_ ?_ rfl rfl
   · simp [Fields.fits, Hdr.fields, Fields.dab, Fields.dabc, Fields.da, Fields.ab, Fields.abc, Fields.inA, Fields.inD, Fields.withMem, Fields.withMemD, Fields.withE, hw] <;> omega
   · simp [parse, parse0, Hdr.fields, Fields.hdr, Fields.imm, need, Fields.noA, Fields.noB, Fields.noC, Fields.noD, Fields.dab, Fields.dabc, Fields.da, Fields.ab, Fields.abc, Fields.inA, Fields.inD, Fields.withMem, Fields.withMemD, Fields.withE, hw])

theorem Laws.RoundTrip.braUni (h : Hdr) : Laws.RoundTrip.Statement (.braUni h) := by
  intro hw0
  have hw := hw0
  obtain ⟨g1, g2, ch, w, r, imm⟩ := h
  (simp only [WellFormed, Instr.formOk, Instr.operandsOk, Opnd.dst, Opnd.src, Opnd.szi, Opnd.sz, Opnd.si, Opnd.vs, Opnd.sOnly, Opnd.ok, numOk_split, Hdr.immIf, Hdr.immBelow, Hdr.hinted, Hdr.unguarded, Hdr.plain, Hdr.guards, PredOp.ok, Hdr.imm24, Bool.and_eq_true, decide_eq_true_eq, beq_iff_eq] at hw
   refine roundtrip_of hw0 rfl ?_ ?_ rfl rfl
   · simp [Fields.fits, Hdr.fields, Fields.dab, Fields.dabc, Fields.da, Fields.ab, Fields.abc, Fields.inA, Fields.inD, Fields.withMem, Fields.withMemD, Fields.withE, hw] <;> omega
   · simp [parse, parse0, Hdr.fields, Fields.hdr, Fields.imm, need, Fields.noA, Fields.noB, Fields.noC, Fields.noD, Fields.dab, Fields.dabc, Fields.da, Fields.ab, Fields.abc, Fields.inA, Fields.inD, Fields.withMem, Fields.withMemD, Fields.withE, hw])

theorem Laws.RoundTrip.brx (h : Hdr) (a : Opnd) : Laws.RoundTrip.Statement (.brx h a) := by
  intro hw0
  have hw := hw0
  obtain ⟨g1, g2, ch, w, r, imm⟩ := h
  (simp only [WellFormed, Instr.formOk, Instr.operandsOk, Opnd.dst, Opnd.src, Opnd.szi, Opnd.sz, Opnd.si, Opnd.vs, Opnd.sOnly, Opnd.ok, numOk_split, Hdr.immIf, Hdr.immBelow, Hdr.hinted, Hdr.unguarded, Hdr.plain, Hdr.guards, PredOp.ok, Hdr.imm24, Bool.and_eq_true, decide_eq_true_eq, beq_iff_eq] at hw
   refine roundtrip_of hw0 rfl ?_ ?_ rfl rfl
   · simp [Fields.fits, Hdr.fields, Fields.dab, Fields.dabc, Fields.da, Fields.ab, Fields.abc, Fields.inA, Fields.inD, Fields.withMem, Fields.withMemD, Fields.withE, hw] <;> omega
   · simp [parse, parse0, Hdr.fields, Fields.hdr, Fields.imm, need, Fields.noA, Fields.noB, Fields.noC, Fields.noD, Fields.dab, Fields.dabc, Fields.da, Fields.ab, Fields.abc, Fields.inA, Fields.inD, Fields.withMem, Fields.withMemD, Fields.withE, hw])

theorem Laws.RoundTrip.call (h : Hdr) (d : Opnd) : Laws.RoundTrip.Statement (.call h d) := by
  intro hw0
  have hw := hw0
  obtain ⟨g1, g2, ch, w, r, imm⟩ := h
  (simp only [WellFormed, Instr.formOk, Instr.operandsOk, Opnd.dst, Opnd.src, Opnd.szi, Opnd.sz, Opnd.si, Opnd.vs, Opnd.sOnly, Opnd.ok, numOk_split, Hdr.immIf, Hdr.immBelow, Hdr.hinted, Hdr.unguarded, Hdr.plain, Hdr.guards, PredOp.ok, Hdr.imm24, Bool.and_eq_true, decide_eq_true_eq, beq_iff_eq] at hw
   refine roundtrip_of hw0 rfl ?_ ?_ rfl rfl
   · simp [Fields.fits, Hdr.fields, Fields.dab, Fields.dabc, Fields.da, Fields.ab, Fields.abc, Fields.inA, Fields.inD, Fields.withMem, Fields.withMemD, Fields.withE, hw] <;> omega
   · simp [parse, parse0, Hdr.fields, Fields.hdr, Fields.imm, need, Fields.noA, Fields.noB, Fields.noC, Fields.noD, Fields.dab, Fields.dabc, Fields.da, Fields.ab, Fields.abc, Fields.inA, Fields.inD, Fields.withMem, Fields.withMemD, Fields.withE, hw])

theorem Laws.RoundTrip.callx (h : Hdr) (d : Opnd) (a : Opnd) : Laws.RoundTrip.Statement (.callx h d a) := by
  intro hw0
  have hw := hw0
  obtain ⟨g1, g2, ch, w, r, imm⟩ := h
  (simp only [WellFormed, Instr.formOk, Instr.operandsOk, Opnd.dst, Opnd.src, Opnd.szi, Opnd.sz, Opnd.si, Opnd.vs, Opnd.sOnly, Opnd.ok, numOk_split, Hdr.immIf, Hdr.immBelow, Hdr.hinted, Hdr.unguarded, Hdr.plain, Hdr.guards, PredOp.ok, Hdr.imm24, Bool.and_eq_true, decide_eq_true_eq, beq_iff_eq] at hw
   refine roundtrip_of hw0 rfl ?_ ?_ rfl rfl
   · simp [Fields.fits, Hdr.fields, Fields.dab, Fields.dabc, Fields.da, Fields.ab, Fields.abc, Fields.inA, Fields.inD, Fields.withMem, Fields.withMemD, Fields.withE, hw] <;> omega
   · simp [parse, parse0, Hdr.fields, Fields.hdr, Fields.imm, need, Fields.noA, Fields.noB, Fields.noC, Fields.noD, Fields.dab, Fields.dabc, Fields.da, Fields.ab, Fields.abc, Fields.inA, Fields.inD, Fields.withMem, Fields.withMemD, Fields.withE, hw])

theorem Laws.RoundTrip.ret (h : Hdr) (a : Opnd) : Laws.RoundTrip.Statement (.ret h a) := by
  intro hw0
  have hw := hw0
  obtain ⟨g1, g2, ch, w, r, imm⟩ := h
  (simp only [WellFormed, Instr.formOk, Instr.operandsOk, Opnd.dst, Opnd.src, Opnd.szi, Opnd.sz, Opnd.si, Opnd.vs, Opnd.sOnly, Opnd.ok, numOk_split, Hdr.immIf, Hdr.immBelow, Hdr.hinted, Hdr.unguarded, Hdr.plain, Hdr.guards, PredOp.ok, Hdr.imm24, Bool.and_eq_true, decide_eq_true_eq, beq_iff_eq] at hw
   refine roundtrip_of hw0 rfl ?_ ?_ rfl rfl
   · simp [Fields.fits, Hdr.fields, Fields.dab, Fields.dabc, Fields.da, Fields.ab, Fields.abc, Fields.inA, Fields.inD, Fields.withMem, Fields.withMemD, Fields.withE, hw] <;> omega
   · simp [parse, parse0, Hdr.fields, Fields.hdr, Fields.imm, need, Fields.noA, Fields.noB, Fields.noC, Fields.noD, Fields.dab, Fields.dabc, Fields.da, Fields.ab, Fields.abc, Fields.inA, Fields.inD, Fields.withMem, Fields.withMemD, Fields.withE, hw])

theorem Laws.RoundTrip.brace (h : Hdr) : Laws.RoundTrip.Statement (.brace h) := by
  intro hw0
  have hw := hw0
  obtain ⟨g1, g2, ch, w, r, imm⟩ := h
  (simp only [WellFormed, Instr.formOk, Instr.operandsOk, Opnd.dst, Opnd.src, Opnd.szi, Opnd.sz, Opnd.si, Opnd.vs, Opnd.sOnly, Opnd.ok, numOk_split, Hdr.immIf, Hdr.immBelow, Hdr.hinted, Hdr.unguarded, Hdr.plain, Hdr.guards, PredOp.ok, Hdr.imm24, Bool.and_eq_true, decide_eq_true_eq, beq_iff_eq] at hw
   refine roundtrip_of hw0 rfl ?_ ?_ rfl rfl
   · simp [Fields.fits, Hdr.fields, Fields.dab, Fields.dabc, Fields.da, Fields.ab, Fields.abc, Fields.inA, Fields.inD, Fields.withMem, Fields.withMemD, Fields.withE, hw] <;> omega
   · simp [parse, parse0, Hdr.fields, Fields.hdr, Fields.imm, need, Fields.noA, Fields.noB, Fields.noC, Fields.noD, Fields.dab, Fields.dabc, Fields.da, Fields.ab, Fields.abc, Fields.inA, Fields.inD, Fields.withMem, Fields.withMemD, Fields.withE, hw])

theorem Laws.RoundTrip.meet (h : Hdr) : Laws.RoundTrip.Statement (.meet h) := by
  intro hw0
  have hw := hw0
  obtain ⟨g1, g2, ch, w, r, imm⟩ := h
  (simp only [WellFormed, Instr.formOk, Instr.operandsOk, Opnd.dst, Opnd.src, Opnd.szi, Opnd.sz, Opnd.si, Opnd.vs, Opnd.sOnly, Opnd.ok, numOk_split, Hdr.immIf, Hdr.immBelow, Hdr.hinted, Hdr.unguarded, Hdr.plain, Hdr.guards, PredOp.ok, Hdr.imm24, Bool.and_eq_true, decide_eq_true_eq, beq_iff_eq] at hw
   refine roundtrip_of hw0 rfl ?_ ?_ rfl rfl
   · simp [Fields.fits, Hdr.fields, Fields.dab, Fields.dabc, Fields.da, Fields.ab, Fields.abc, Fields.inA, Fields.inD, Fields.withMem, Fields.withMemD, Fields.withE, hw] <;> omega
   · simp [parse, parse0, Hdr.fields, Fields.hdr, Fields.imm, need, Fields.noA, Fields.noB, Fields.noC, Fields.noD, Fields.dab, Fields.dabc, Fields.da, Fields.ab, Fields.abc, Fields.inA, Fields.inD, Fields.withMem, Fields.withMemD, Fields.withE, hw])

theorem Laws.RoundTrip.exit (h : Hdr) : Laws.RoundTrip.Statement (.exit h) := by
  intro hw0
  have hw := hw0
  obtain ⟨g1, g2, ch, w, r, imm⟩ := h
  (simp only [WellFormed, Instr.formOk, Instr.operandsOk, Opnd.dst, Opnd.src, Opnd.szi, Opnd.sz, Opnd.si, Opnd.vs, Opnd.sOnly, Opnd.ok, numOk_split, Hdr.immIf, Hdr.immBelow, Hdr.hinted, Hdr.unguarded, Hdr.plain, Hdr.guards, PredOp.ok, Hdr.imm24, Bool.and_eq_true, decide_eq_true_eq, beq_iff_eq] at hw
   refine roundtrip_of hw0 rfl ?_ ?_ rfl rfl
   · simp [Fields.fits, Hdr.fields, Fields.dab, Fields.dabc, Fields.da, Fields.ab, Fields.abc, Fields.inA, Fields.inD, Fields.withMem, Fields.withMemD, Fields.withE, hw] <;> omega
   · simp [parse, parse0, Hdr.fields, Fields.hdr, Fields.imm, need, Fields.noA, Fields.noB, Fields.noC, Fields.noD, Fields.dab, Fields.dabc, Fields.da, Fields.ab, Fields.abc, Fields.inA, Fields.inD, Fields.withMem, Fields.withMemD, Fields.withE, hw])

theorem Laws.RoundTrip.regang (h : Hdr) : Laws.RoundTrip.Statement (.regang h) := by
  intro hw0
  have hw := hw0
  obtain ⟨g1, g2, ch, w, r, imm⟩ := h
  (simp only [WellFormed, Instr.formOk, Instr.operandsOk, Opnd.dst, Opnd.src, Opnd.szi, Opnd.sz, Opnd.si, Opnd.vs, Opnd.sOnly, Opnd.ok, numOk_split, Hdr.immIf, Hdr.immBelow, Hdr.hinted, Hdr.unguarded, Hdr.plain, Hdr.guards, PredOp.ok, Hdr.imm24, Bool.and_eq_true, decide_eq_true_eq, beq_iff_eq] at hw
   refine roundtrip_of hw0 rfl ?_ ?_ rfl rfl
   · simp [Fields.fits, Hdr.fields, Fields.dab, Fields.dabc, Fields.da, Fields.ab, Fields.abc, Fields.inA, Fields.inD, Fields.withMem, Fields.withMemD, Fields.withE, hw] <;> omega
   · simp [parse, parse0, Hdr.fields, Fields.hdr, Fields.imm, need, Fields.noA, Fields.noB, Fields.noC, Fields.noD, Fields.dab, Fields.dabc, Fields.da, Fields.ab, Fields.abc, Fields.inA, Fields.inD, Fields.withMem, Fields.withMemD, Fields.withE, hw])

theorem Laws.RoundTrip.yield (h : Hdr) : Laws.RoundTrip.Statement (.yield h) := by
  intro hw0
  have hw := hw0
  obtain ⟨g1, g2, ch, w, r, imm⟩ := h
  (simp only [WellFormed, Instr.formOk, Instr.operandsOk, Opnd.dst, Opnd.src, Opnd.szi, Opnd.sz, Opnd.si, Opnd.vs, Opnd.sOnly, Opnd.ok, numOk_split, Hdr.immIf, Hdr.immBelow, Hdr.hinted, Hdr.unguarded, Hdr.plain, Hdr.guards, PredOp.ok, Hdr.imm24, Bool.and_eq_true, decide_eq_true_eq, beq_iff_eq] at hw
   refine roundtrip_of hw0 rfl ?_ ?_ rfl rfl
   · simp [Fields.fits, Hdr.fields, Fields.dab, Fields.dabc, Fields.da, Fields.ab, Fields.abc, Fields.inA, Fields.inD, Fields.withMem, Fields.withMemD, Fields.withE, hw] <;> omega
   · simp [parse, parse0, Hdr.fields, Fields.hdr, Fields.imm, need, Fields.noA, Fields.noB, Fields.noC, Fields.noD, Fields.dab, Fields.dabc, Fields.da, Fields.ab, Fields.abc, Fields.inA, Fields.inD, Fields.withMem, Fields.withMemD, Fields.withE, hw])

theorem Laws.RoundTrip.sleep (h : Hdr) (a : Opnd) : Laws.RoundTrip.Statement (.sleep h a) := by
  intro hw0
  have hw := hw0
  obtain ⟨g1, g2, ch, w, r, imm⟩ := h
  (simp only [WellFormed, Instr.formOk, Instr.operandsOk, Opnd.dst, Opnd.src, Opnd.szi, Opnd.sz, Opnd.si, Opnd.vs, Opnd.sOnly, Opnd.ok, numOk_split, Hdr.immIf, Hdr.immBelow, Hdr.hinted, Hdr.unguarded, Hdr.plain, Hdr.guards, PredOp.ok, Hdr.imm24, Bool.and_eq_true, decide_eq_true_eq, beq_iff_eq] at hw
   refine roundtrip_of hw0 rfl ?_ ?_ rfl rfl
   · simp [Fields.fits, Hdr.fields, Fields.dab, Fields.dabc, Fields.da, Fields.ab, Fields.abc, Fields.inA, Fields.inD, Fields.withMem, Fields.withMemD, Fields.withE, hw] <;> omega
   · simp [parse, parse0, Hdr.fields, Fields.hdr, Fields.imm, need, Fields.noA, Fields.noB, Fields.noC, Fields.noD, Fields.dab, Fields.dabc, Fields.da, Fields.ab, Fields.abc, Fields.inA, Fields.inD, Fields.withMem, Fields.withMemD, Fields.withE, hw])

theorem Laws.RoundTrip.trap (h : Hdr) : Laws.RoundTrip.Statement (.trap h) := by
  intro hw0
  have hw := hw0
  obtain ⟨g1, g2, ch, w, r, imm⟩ := h
  (simp only [WellFormed, Instr.formOk, Instr.operandsOk, Opnd.dst, Opnd.src, Opnd.szi, Opnd.sz, Opnd.si, Opnd.vs, Opnd.sOnly, Opnd.ok, numOk_split, Hdr.immIf, Hdr.immBelow, Hdr.hinted, Hdr.unguarded, Hdr.plain, Hdr.guards, PredOp.ok, Hdr.imm24, Bool.and_eq_true, decide_eq_true_eq, beq_iff_eq] at hw
   refine roundtrip_of hw0 rfl ?_ ?_ rfl rfl
   · simp [Fields.fits, Hdr.fields, Fields.dab, Fields.dabc, Fields.da, Fields.ab, Fields.abc, Fields.inA, Fields.inD, Fields.withMem, Fields.withMemD, Fields.withE, hw] <;> omega
   · simp [parse, parse0, Hdr.fields, Fields.hdr, Fields.imm, need, Fields.noA, Fields.noB, Fields.noC, Fields.noD, Fields.dab, Fields.dabc, Fields.da, Fields.ab, Fields.abc, Fields.inA, Fields.inD, Fields.withMem, Fields.withMemD, Fields.withE, hw])

theorem Laws.RoundTrip.bpt (h : Hdr) : Laws.RoundTrip.Statement (.bpt h) := by
  intro hw0
  have hw := hw0
  obtain ⟨g1, g2, ch, w, r, imm⟩ := h
  (simp only [WellFormed, Instr.formOk, Instr.operandsOk, Opnd.dst, Opnd.src, Opnd.szi, Opnd.sz, Opnd.si, Opnd.vs, Opnd.sOnly, Opnd.ok, numOk_split, Hdr.immIf, Hdr.immBelow, Hdr.hinted, Hdr.unguarded, Hdr.plain, Hdr.guards, PredOp.ok, Hdr.imm24, Bool.and_eq_true, decide_eq_true_eq, beq_iff_eq] at hw
   refine roundtrip_of hw0 rfl ?_ ?_ rfl rfl
   · simp [Fields.fits, Hdr.fields, Fields.dab, Fields.dabc, Fields.da, Fields.ab, Fields.abc, Fields.inA, Fields.inD, Fields.withMem, Fields.withMemD, Fields.withE, hw] <;> omega
   · simp [parse, parse0, Hdr.fields, Fields.hdr, Fields.imm, need, Fields.noA, Fields.noB, Fields.noC, Fields.noD, Fields.dab, Fields.dabc, Fields.da, Fields.ab, Fields.abc, Fields.inA, Fields.inD, Fields.withMem, Fields.withMemD, Fields.withE, hw])

theorem Laws.RoundTrip.rteRetry (h : Hdr) : Laws.RoundTrip.Statement (.rteRetry h) := by
  intro hw0
  have hw := hw0
  obtain ⟨g1, g2, ch, w, r, imm⟩ := h
  (simp only [WellFormed, Instr.formOk, Instr.operandsOk, Opnd.dst, Opnd.src, Opnd.szi, Opnd.sz, Opnd.si, Opnd.vs, Opnd.sOnly, Opnd.ok, numOk_split, Hdr.immIf, Hdr.immBelow, Hdr.hinted, Hdr.unguarded, Hdr.plain, Hdr.guards, PredOp.ok, Hdr.imm24, Bool.and_eq_true, decide_eq_true_eq, beq_iff_eq] at hw
   refine roundtrip_of hw0 rfl ?_ ?_ rfl rfl
   · simp [Fields.fits, Hdr.fields, Fields.dab, Fields.dabc, Fields.da, Fields.ab, Fields.abc, Fields.inA, Fields.inD, Fields.withMem, Fields.withMemD, Fields.withE, hw] <;> omega
   · simp [parse, parse0, Hdr.fields, Fields.hdr, Fields.imm, need, Fields.noA, Fields.noB, Fields.noC, Fields.noD, Fields.dab, Fields.dabc, Fields.da, Fields.ab, Fields.abc, Fields.inA, Fields.inD, Fields.withMem, Fields.withMemD, Fields.withE, hw])

theorem Laws.RoundTrip.rteResume (h : Hdr) : Laws.RoundTrip.Statement (.rteResume h) := by
  intro hw0
  have hw := hw0
  obtain ⟨g1, g2, ch, w, r, imm⟩ := h
  (simp only [WellFormed, Instr.formOk, Instr.operandsOk, Opnd.dst, Opnd.src, Opnd.szi, Opnd.sz, Opnd.si, Opnd.vs, Opnd.sOnly, Opnd.ok, numOk_split, Hdr.immIf, Hdr.immBelow, Hdr.hinted, Hdr.unguarded, Hdr.plain, Hdr.guards, PredOp.ok, Hdr.imm24, Bool.and_eq_true, decide_eq_true_eq, beq_iff_eq] at hw
   refine roundtrip_of hw0 rfl ?_ ?_ rfl rfl
   · simp [Fields.fits, Hdr.fields, Fields.dab, Fields.dabc, Fields.da, Fields.ab, Fields.abc, Fields.inA, Fields.inD, Fields.withMem, Fields.withMemD, Fields.withE, hw] <;> omega
   · simp [parse, parse0, Hdr.fields, Fields.hdr, Fields.imm, need, Fields.noA, Fields.noB, Fields.noC, Fields.noD, Fields.dab, Fields.dabc, Fields.da, Fields.ab, Fields.abc, Fields.inA, Fields.inD, Fields.withMem, Fields.withMemD, Fields.withE, hw])

theorem Laws.RoundTrip.step (h : Hdr) : Laws.RoundTrip.Statement (.step h) := by
  intro hw0
  have hw := hw0
  obtain ⟨g1, g2, ch, w, r, imm⟩ := h
  (simp only [WellFormed, Instr.formOk, Instr.operandsOk, Opnd.dst, Opnd.src, Opnd.szi, Opnd.sz, Opnd.si, Opnd.vs, Opnd.sOnly, Opnd.ok, numOk_split, Hdr.immIf, Hdr.immBelow, Hdr.hinted, Hdr.unguarded, Hdr.plain, Hdr.guards, PredOp.ok, Hdr.imm24, Bool.and_eq_true, decide_eq_true_eq, beq_iff_eq] at hw
   refine roundtrip_of hw0 rfl ?_ ?_ rfl rfl
   · simp [Fields.fits, Hdr.fields, Fields.dab, Fields.dabc, Fields.da, Fields.ab, Fields.abc, Fields.inA, Fields.inD, Fields.withMem, Fields.withMemD, Fields.withE, hw] <;> omega
   · simp [parse, parse0, Hdr.fields, Fields.hdr, Fields.imm, need, Fields.noA, Fields.noB, Fields.noC, Fields.noD, Fields.dab, Fields.dabc, Fields.da, Fields.ab, Fields.abc, Fields.inA, Fields.inD, Fields.withMem, Fields.withMemD, Fields.withE, hw])

theorem Laws.RoundTrip.iadd (h : Hdr) (sat : Bool) (t : Ty) (d : Opnd) (a : Opnd) (b : Opnd) : Laws.RoundTrip.Statement (.iadd h sat t d a b) := by
  intro hw0
  have hw := hw0
  obtain ⟨g1, g2, ch, w, r, imm⟩ := h
  (simp only [WellFormed, Instr.formOk, Instr.operandsOk, Opnd.dst, Opnd.src, Opnd.szi, Opnd.sz, Opnd.si, Opnd.vs, Opnd.sOnly, Opnd.ok, numOk_split, Hdr.immIf, Hdr.immBelow, Hdr.hinted, Hdr.unguarded, Hdr.plain, Hdr.guards, PredOp.ok, Hdr.imm24, Bool.and_eq_true, decide_eq_true_eq, beq_iff_eq] at hw
   refine roundtrip_of hw0 rfl ?_ ?_ rfl rfl
   · simp [Fields.fits, Hdr.fields, Fields.dab, Fields.dabc, Fields.da, Fields.ab, Fields.abc, Fields.inA, Fields.inD, Fields.withMem, Fields.withMemD, Fields.withE, hw] <;> omega
   · simp [parse, parse1, Hdr.fields, Fields.hdr, Fields.imm, need, Fields.noA, Fields.noB, Fields.noC, Fields.noD, Fields.dab, Fields.dabc, Fields.da, Fields.ab, Fields.abc, Fields.inA, Fields.inD, Fields.withMem, Fields.withMemD, Fields.withE, hw])

theorem Laws.RoundTrip.isub (h : Hdr) (sat : Bool) (t : Ty) (d : Opnd) (a : Opnd) (b : Opnd) : Laws.RoundTrip.Statement (.isub h sat t d a b) := by
  intro hw0
  have hw := hw0
  obtain ⟨g1, g2, ch, w, r, imm⟩ := h
  (simp only [WellFormed, Instr.formOk, Instr.operandsOk, Opnd.dst, Opnd.src, Opnd.szi, Opnd.sz, Opnd.si, Opnd.vs, Opnd.sOnly, Opnd.ok, numOk_split, Hdr.immIf, Hdr.immBelow, Hdr.hinted, Hdr.unguarded, Hdr.plain, Hdr.guards, PredOp.ok, Hdr.imm24, Bool.and_eq_true, decide_eq_true_eq, beq_iff_eq] at hw
   refine roundtrip_of hw0 rfl ?_ ?_ rfl rfl
   · simp [Fields.fits, Hdr.fields, Fields.dab, Fields.dabc, Fields.da, Fields.ab, Fields.abc, Fields.inA, Fields.inD, Fields.withMem, Fields.withMemD, Fields.withE, hw] <;> omega
   · simp [parse, parse1, Hdr.fields, Fields.hdr, Fields.imm, need, Fields.noA, Fields.noB, Fields.noC, Fields.noD, Fields.dab, Fields.dabc, Fields.da, Fields.ab, Fields.abc, Fields.inA, Fields.inD, Fields.withMem, Fields.withMemD, Fields.withE, hw])

theorem Laws.RoundTrip.imul (h : Hdr) (t : Ty) (d : Opnd) (a : Opnd) (b : Opnd) : Laws.RoundTrip.Statement (.imul h t d a b) := by
  intro hw0
  have hw := hw0
  obtain ⟨g1, g2, ch, w, r, imm⟩ := h
  (simp only [WellFormed, Instr.formOk, Instr.operandsOk, Opnd.dst, Opnd.src, Opnd.szi, Opnd.sz, Opnd.si, Opnd.vs, Opnd.sOnly, Opnd.ok, numOk_split, Hdr.immIf, Hdr.immBelow, Hdr.hinted, Hdr.unguarded, Hdr.plain, Hdr.guards, PredOp.ok, Hdr.imm24, Bool.and_eq_true, decide_eq_true_eq, beq_iff_eq] at hw
   refine roundtrip_of hw0 rfl ?_ ?_ rfl rfl
   · simp [Fields.fits, Hdr.fields, Fields.dab, Fields.dabc, Fields.da, Fields.ab, Fields.abc, Fields.inA, Fields.inD, Fields.withMem, Fields.withMemD, Fields.withE, hw] <;> omega
   · simp [parse, parse1, Hdr.fields, Fields.hdr, Fields.imm, need, Fields.noA, Fields.noB, Fields.noC, Fields.noD, Fields.dab, Fields.dabc, Fields.da, Fields.ab, Fields.abc, Fields.inA, Fields.inD, Fields.withMem, Fields.withMemD, Fields.withE, hw])

theorem Laws.RoundTrip.imulh (h : Hdr) (t : Ty) (d : Opnd) (a : Opnd) (b : Opnd) : Laws.RoundTrip.Statement (.imulh h t d a b) := by
  intro hw0
  have hw := hw0
  obtain ⟨g1, g2, ch, w, r, imm⟩ := h
  (simp only [WellFormed, Instr.formOk, Instr.operandsOk, Opnd.dst, Opnd.src, Opnd.szi, Opnd.sz, Opnd.si, Opnd.vs, Opnd.sOnly, Opnd.ok, numOk_split, Hdr.immIf, Hdr.immBelow, Hdr.hinted, Hdr.unguarded, Hdr.plain, Hdr.guards, PredOp.ok, Hdr.imm24, Bool.and_eq_true, decide_eq_true_eq, beq_iff_eq] at hw
   refine roundtrip_of hw0 rfl ?_ ?_ rfl rfl
   · simp [Fields.fits, Hdr.fields, Fields.dab, Fields.dabc, Fields.da, Fields.ab, Fields.abc, Fields.inA, Fields.inD, Fields.withMem, Fields.withMemD, Fields.withE, hw] <;> omega
   · simp [parse, parse1, Hdr.fields, Fields.hdr, Fields.imm, need, Fields.noA, Fields.noB, Fields.noC, Fields.noD, Fields.dab, Fields.dabc, Fields.da, Fields.ab, Fields.abc, Fields.inA, Fields.inD, Fields.withMem, Fields.withMemD, Fields.withE, hw])

theorem Laws.RoundTrip.imad (h : Hdr) (acc64 : Bool) (t : Ty) (d : Opnd) (a : Opnd) (b : Opnd) (c : Opnd) : Laws.RoundTrip.Statement (.imad h acc64 t d a b c) := by
  intro hw0
  have hw := hw0
  obtain ⟨g1, g2, ch, w, r, imm⟩ := h
  cases acc64 <;>
  (simp only [WellFormed, Instr.formOk, Instr.operandsOk, Opnd.dst, Opnd.src, Opnd.szi, Opnd.sz, Opnd.si, Opnd.vs, Opnd.sOnly, Opnd.ok, numOk_split, Hdr.immIf, Hdr.immBelow, Hdr.hinted, Hdr.unguarded, Hdr.plain, Hdr.guards, PredOp.ok, Hdr.imm24, Bool.and_eq_true, decide_eq_true_eq, beq_iff_eq] at hw
   refine roundtrip_of hw0 rfl ?_ ?_ rfl rfl
   · simp [Fields.fits, Hdr.fields, Fields.dab, Fields.dabc, Fields.da, Fields.ab, Fields.abc, Fields.inA, Fields.inD, Fields.withMem, Fields.withMemD, Fields.withE, hw] <;> omega
   · simp [parse, parse1, Hdr.fields, Fields.hdr, Fields.imm, need, Fields.noA, Fields.noB, Fields.noC, Fields.noD, Fields.dab, Fields.dabc, Fields.da, Fields.ab, Fields.abc, Fields.inA, Fields.inD, Fields.withMem, Fields.withMemD, Fields.withE, hw])

theorem Laws.RoundTrip.imin (h : Hdr) (t : Ty) (d : Opnd) (a : Opnd) (b : Opnd) : Laws.RoundTrip.Statement (.imin h t d a b) := by
  intro hw0
  have hw := hw0
  obtain ⟨g1, g2, ch, w, r, imm⟩ := h
  (simp only [WellFormed, Instr.formOk, Instr.operandsOk, Opnd.dst, Opnd.src, Opnd.szi, Opnd.sz, Opnd.si, Opnd.vs, Opnd.sOnly, Opnd.ok, numOk_split, Hdr.immIf, Hdr.immBelow, Hdr.hinted, Hdr.unguarded, Hdr.plain, Hdr.guards, PredOp.ok, Hdr.imm24, Bool.and_eq_true, decide_eq_true_eq, beq_iff_eq] at hw
   refine roundtrip_of hw0 rfl ?_ ?_ rfl rfl
   · simp [Fields.fits, Hdr.fields, Fields.dab, Fields.dabc, Fields.da, Fields.ab, Fields.abc, Fields.inA, Fields.inD, Fields.withMem, Fields.withMemD, Fields.withE, hw] <;> omega
   · simp [parse, parse1, Hdr.fields, Fields.hdr, Fields.imm, need, Fields.noA, Fields.noB, Fields.noC, Fields.noD, Fields.dab, Fields.dabc, Fields.da, Fields.ab, Fields.abc, Fields.inA, Fields.inD, Fields.withMem, Fields.withMemD, Fields.withE, hw])

theorem Laws.RoundTrip.imax (h : Hdr) (t : Ty) (d : Opnd) (a : Opnd) (b : Opnd) : Laws.RoundTrip.Statement (.imax h t d a b) := by
  intro hw0
  have hw := hw0
  obtain ⟨g1, g2, ch, w, r, imm⟩ := h
  (simp only [WellFormed, Instr.formOk, Instr.operandsOk, Opnd.dst, Opnd.src, Opnd.szi, Opnd.sz, Opnd.si, Opnd.vs, Opnd.sOnly, Opnd.ok, numOk_split, Hdr.immIf, Hdr.immBelow, Hdr.hinted, Hdr.unguarded, Hdr.plain, Hdr.guards, PredOp.ok, Hdr.imm24, Bool.and_eq_true, decide_eq_true_eq, beq_iff_eq] at hw
   refine roundtrip_of hw0 rfl ?_ ?_ rfl rfl
   · simp [Fields.fits, Hdr.fields, Fields.dab, Fields.dabc, Fields.da, Fields.ab, Fields.abc, Fields.inA, Fields.inD, Fields.withMem, Fields.withMemD, Fields.withE, hw] <;> omega
   · simp [parse, parse1, Hdr.fields, Fields.hdr, Fields.imm, need, Fields.noA, Fields.noB, Fields.noC, Fields.noD, Fields.dab, Fields.dabc, Fields.da, Fields.ab, Fields.abc, Fields.inA, Fields.inD, Fields.withMem, Fields.withMemD, Fields.withE, hw])

theorem Laws.RoundTrip.iabs (h : Hdr) (sat : Bool) (t : Ty) (d : Opnd) (a : Opnd) : Laws.RoundTrip.Statement (.iabs h sat t d a) := by
  intro hw0
  have hw := hw0
  obtain ⟨g1, g2, ch, w, r, imm⟩ := h
  (simp only [WellFormed, Instr.formOk, Instr.operandsOk, Opnd.dst, Opnd.src, Opnd.szi, Opnd.sz, Opnd.si, Opnd.vs, Opnd.sOnly, Opnd.ok, numOk_split, Hdr.immIf, Hdr.immBelow, Hdr.hinted, Hdr.unguarded, Hdr.plain, Hdr.guards, PredOp.ok, Hdr.imm24, Bool.and_eq_true, decide_eq_true_eq, beq_iff_eq] at hw
   refine roundtrip_of hw0 rfl ?_ ?_ rfl rfl
   · simp [Fields.fits, Hdr.fields, Fields.dab, Fields.dabc, Fields.da, Fields.ab, Fields.abc, Fields.inA, Fields.inD, Fields.withMem, Fields.withMemD, Fields.withE, hw] <;> omega
   · simp [parse, parse1, Hdr.fields, Fields.hdr, Fields.imm, need, Fields.noA, Fields.noB, Fields.noC, Fields.noD, Fields.dab, Fields.dabc, Fields.da, Fields.ab, Fields.abc, Fields.inA, Fields.inD, Fields.withMem, Fields.withMemD, Fields.withE, hw])

theorem Laws.RoundTrip.iadd3 (h : Hdr) (t : Ty) (d : Opnd) (a : Opnd) (b : Opnd) (c : Opnd) : Laws.RoundTrip.Statement (.iadd3 h t d a b c) := by
  intro hw0
  have hw := hw0
  obtain ⟨g1, g2, ch, w, r, imm⟩ := h
  (simp only [WellFormed, Instr.formOk, Instr.operandsOk, Opnd.dst, Opnd.src, Opnd.szi, Opnd.sz, Opnd.si, Opnd.vs, Opnd.sOnly, Opnd.ok, numOk_split, Hdr.immIf, Hdr.immBelow, Hdr.hinted, Hdr.unguarded, Hdr.plain, Hdr.guards, PredOp.ok, Hdr.imm24, Bool.and_eq_true, decide_eq_true_eq, beq_iff_eq] at hw
   refine roundtrip_of hw0 rfl ?_ ?_ rfl rfl
   · simp [Fields.fits, Hdr.fields, Fields.dab, Fields.dabc, Fields.da, Fields.ab, Fields.abc, Fields.inA, Fields.inD, Fields.withMem, Fields.withMemD, Fields.withE, hw] <;> omega
   · simp [parse, parse1, Hdr.fields, Fields.hdr, Fields.imm, need, Fields.noA, Fields.noB, Fields.noC, Fields.noD, Fields.dab, Fields.dabc, Fields.da, Fields.ab, Fields.abc, Fields.inA, Fields.inD, Fields.withMem, Fields.withMemD, Fields.withE, hw])

theorem Laws.RoundTrip.iaddc (h : Hdr) (sub : Bool) (p : Nat) (t : Ty) (d : Opnd) (a : Opnd) (b : Opnd) : Laws.RoundTrip.Statement (.iaddc h sub p t d a b) := by
  intro hw0
  have hw := hw0
  obtain ⟨g1, g2, ch, w, r, imm⟩ := h
  cases sub <;>
  (simp only [WellFormed, Instr.formOk, Instr.operandsOk, Opnd.dst, Opnd.src, Opnd.szi, Opnd.sz, Opnd.si, Opnd.vs, Opnd.sOnly, Opnd.ok, numOk_split, Hdr.immIf, Hdr.immBelow, Hdr.hinted, Hdr.unguarded, Hdr.plain, Hdr.guards, PredOp.ok, Hdr.imm24, Bool.and_eq_true, decide_eq_true_eq, beq_iff_eq] at hw
   refine roundtrip_of hw0 rfl ?_ ?_ rfl rfl
   · simp [Fields.fits, Hdr.fields, Fields.dab, Fields.dabc, Fields.da, Fields.ab, Fields.abc, Fields.inA, Fields.inD, Fields.withMem, Fields.withMemD, Fields.withE, hw] <;> omega
   · simp [parse, parse1, Hdr.fields, Fields.hdr, Fields.imm, need, Fields.noA, Fields.noB, Fields.noC, Fields.noD, Fields.dab, Fields.dabc, Fields.da, Fields.ab, Fields.abc, Fields.inA, Fields.inD, Fields.withMem, Fields.withMemD, Fields.withE, hw])

theorem Laws.RoundTrip.icmp (h : Hdr) (cond : Cond) (t : Ty) (pd : PredOp) (a : Opnd) (b : Opnd) : Laws.RoundTrip.Statement (.icmp h cond t pd a b) := by
  intro hw0
  have hw := hw0
  obtain ⟨g1, g2, ch, w, r, imm⟩ := h
  (simp only [WellFormed, Instr.formOk, Instr.operandsOk, Opnd.dst, Opnd.src, Opnd.szi, Opnd.sz, Opnd.si, Opnd.vs, Opnd.sOnly, Opnd.ok, numOk_split, Hdr.immIf, Hdr.immBelow, Hdr.hinted, Hdr.unguarded, Hdr.plain, Hdr.guards, PredOp.ok, Hdr.imm24, Bool.and_eq_true, decide_eq_true_eq, beq_iff_eq] at hw
   refine roundtrip_of hw0 rfl ?_ ?_ rfl rfl
   · simp [Fields.fits, Hdr.fields, Fields.dab, Fields.dabc, Fields.da, Fields.ab, Fields.abc, Fields.inA, Fields.inD, Fields.withMem, Fields.withMemD, Fields.withE, hw] <;> omega
   · simp [parse, parse1, Hdr.fields, Fields.hdr, Fields.imm, need, Fields.noA, Fields.noB, Fields.noC, Fields.noD, Fields.dab, Fields.dabc, Fields.da, Fields.ab, Fields.abc, Fields.inA, Fields.inD, Fields.withMem, Fields.withMemD, Fields.withE, hw])

theorem Laws.RoundTrip.isel (h : Hdr) (neg : Bool) (p : Nat) (t : Ty) (d : Opnd) (a : Opnd) (b : Opnd) : Laws.RoundTrip.Statement (.isel h neg p t d a b) := by
  intro hw0
  have hw := hw0
  obtain ⟨g1, g2, ch, w, r, imm⟩ := h
  cases neg <;>
  (simp only [WellFormed, Instr.formOk, Instr.operandsOk, Opnd.dst, Opnd.src, Opnd.szi, Opnd.sz, Opnd.si, Opnd.vs, Opnd.sOnly, Opnd.ok, numOk_split, Hdr.immIf, Hdr.immBelow, Hdr.hinted, Hdr.unguarded, Hdr.plain, Hdr.guards, PredOp.ok, Hdr.imm24, Bool.and_eq_true, decide_eq_true_eq, beq_iff_eq] at hw
   refine roundtrip_of hw0 rfl ?_ ?_ rfl rfl
   · simp [Fields.fits, Hdr.fields, Fields.dab, Fields.dabc, Fields.da, Fields.ab, Fields.abc, Fields.inA, Fields.inD, Fields.withMem, Fields.withMemD, Fields.withE, hw] <;> omega
   · simp [parse, parse1, Hdr.fields, Fields.hdr, Fields.imm, need, Fields.noA, Fields.noB, Fields.noC, Fields.noD, Fields.dab, Fields.dabc, Fields.da, Fields.ab, Fields.abc, Fields.inA, Fields.inD, Fields.withMem, Fields.withMemD, Fields.withE, hw])

theorem Laws.RoundTrip.lea (h : Hdr) (n : Nat) (t : Ty) (d : Opnd) (a : Opnd) (b : Opnd) : Laws.RoundTrip.Statement (.lea h n t d a b) := by
  intro hw0
  have hw := hw0
  obtain ⟨g1, g2, ch, w, r, imm⟩ := h
  (simp only [WellFormed, Instr.formOk, Instr.operandsOk, Opnd.dst, Opnd.src, Opnd.szi, Opnd.sz, Opnd.si, Opnd.vs, Opnd.sOnly, Opnd.ok, numOk_split, Hdr.immIf, Hdr.immBelow, Hdr.hinted, Hdr.unguarded, Hdr.plain, Hdr.guards, PredOp.ok, Hdr.imm24, Bool.and_eq_true, decide_eq_true_eq, beq_iff_eq] at hw
   refine roundtrip_of hw0 rfl ?_ ?_ rfl rfl
   · simp [Fields.fits, Hdr.fields, Fields.dab, Fields.dabc, Fields.da, Fields.ab, Fields.abc, Fields.inA, Fields.inD, Fields.withMem, Fields.withMemD, Fields.withE, hw] <;> omega
   · simp [parse, parse1, Hdr.fields, Fields.hdr, Fields.imm, need, Fields.noA, Fields.noB, Fields.noC, Fields.noD, Fields.dab, Fields.dabc, Fields.da, Fields.ab, Fields.abc, Fields.inA, Fields.inD, Fields.withMem, Fields.withMemD, Fields.withE, hw])

theorem Laws.RoundTrip.isad (h : Hdr) (t : Ty) (d : Opnd) (a : Opnd) (b : Opnd) (c : Opnd) : Laws.RoundTrip.Statement (.isad h t d a b c) := by
  intro hw0
  have hw := hw0
  obtain ⟨g1, g2, ch, w, r, imm⟩ := h
  (simp only [WellFormed, Instr.formOk, Instr.operandsOk, Opnd.dst, Opnd.src, Opnd.szi, Opnd.sz, Opnd.si, Opnd.vs, Opnd.sOnly, Opnd.ok, numOk_split, Hdr.immIf, Hdr.immBelow, Hdr.hinted, Hdr.unguarded, Hdr.plain, Hdr.guards, PredOp.ok, Hdr.imm24, Bool.and_eq_true, decide_eq_true_eq, beq_iff_eq] at hw
   refine roundtrip_of hw0 rfl ?_ ?_ rfl rfl
   · simp [Fields.fits, Hdr.fields, Fields.dab, Fields.dabc, Fields.da, Fields.ab, Fields.abc, Fields.inA, Fields.inD, Fields.withMem, Fields.withMemD, Fields.withE, hw] <;> omega
   · simp [parse, parse1, Hdr.fields, Fields.hdr, Fields.imm, need, Fields.noA, Fields.noB, Fields.noC, Fields.noD, Fields.dab, Fields.dabc, Fields.da, Fields.ab, Fields.abc, Fields.inA, Fields.inD, Fields.withMem, Fields.withMemD, Fields.withE, hw])

theorem Laws.RoundTrip.idot4 (h : Hdr) (mix : Bool) (sat : Bool) (t : Ty) (d : Opnd) (a : Opnd) (b : Opnd) (c : Opnd) : Laws.RoundTrip.Statement (.idot4 h mix sat t d a b c) := by
  intro hw0
  have hw := hw0
  obtain ⟨g1, g2, ch, w, r, imm⟩ := h
  cases mix <;>
  cases sat <;>
  (simp only [WellFormed, Instr.formOk, Instr.operandsOk, Opnd.dst, Opnd.src, Opnd.szi, Opnd.sz, Opnd.si, Opnd.vs, Opnd.sOnly, Opnd.ok, numOk_split, Hdr.immIf, Hdr.immBelow, Hdr.hinted, Hdr.unguarded, Hdr.plain, Hdr.guards, PredOp.ok, Hdr.imm24, Bool.and_eq_true, decide_eq_true_eq, beq_iff_eq] at hw
   refine roundtrip_of hw0 rfl ?_ ?_ rfl rfl
   · simp [Fields.fits, Hdr.fields, Fields.dab, Fields.dabc, Fields.da, Fields.ab, Fields.abc, Fields.inA, Fields.inD, Fields.withMem, Fields.withMemD, Fields.withE, hw] <;> omega
   · simp [parse, parse1, Hdr.fields, Fields.hdr, Fields.imm, need, Fields.noA, Fields.noB, Fields.noC, Fields.noD, Fields.dab, Fields.dabc, Fields.da, Fields.ab, Fields.abc, Fields.inA, Fields.inD, Fields.withMem, Fields.withMemD, Fields.withE, hw])

theorem Laws.RoundTrip.and (h : Hdr) (inv : Bool) (t : Ty) (d : Opnd) (a : Opnd) (b : Opnd) : Laws.RoundTrip.Statement (.and h inv t d a b) := by
  intro hw0
  have hw := hw0
  obtain ⟨g1, g2, ch, w, r, imm⟩ := h
  (simp only [WellFormed, Instr.formOk, Instr.operandsOk, Opnd.dst, Opnd.src, Opnd.szi, Opnd.sz, Opnd.si, Opnd.vs, Opnd.sOnly, Opnd.ok, numOk_split, Hdr.immIf, Hdr.immBelow, Hdr.hinted, Hdr.unguarded, Hdr.plain, Hdr.guards, PredOp.ok, Hdr.imm24, Bool.and_eq_true, decide_eq_true_eq, beq_iff_eq] at hw
   refine roundtrip_of hw0 rfl ?_ ?_ rfl rfl
   · simp [Fields.fits, Hdr.fields, Fields.dab, Fields.dabc, Fields.da, Fields.ab, Fields.abc, Fields.inA, Fields.inD, Fields.withMem, Fields.withMemD, Fields.withE, hw] <;> omega
   · simp [parse, parse2, Hdr.fields, Fields.hdr, Fields.imm, need, Fields.noA, Fields.noB, Fields.noC, Fields.noD, Fields.dab, Fields.dabc, Fields.da, Fields.ab, Fields.abc, Fields.inA, Fields.inD, Fields.withMem, Fields.withMemD, Fields.withE, hw])

theorem Laws.RoundTrip.or (h : Hdr) (inv : Bool) (t : Ty) (d : Opnd) (a : Opnd) (b : Opnd) : Laws.RoundTrip.Statement (.or h inv t d a b) := by
  intro hw0
  have hw := hw0
  obtain ⟨g1, g2, ch, w, r, imm⟩ := h
  (simp only [WellFormed, Instr.formOk, Instr.operandsOk, Opnd.dst, Opnd.src, Opnd.szi, Opnd.sz, Opnd.si, Opnd.vs, Opnd.sOnly, Opnd.ok, numOk_split, Hdr.immIf, Hdr.immBelow, Hdr.hinted, Hdr.unguarded, Hdr.plain, Hdr.guards, PredOp.ok, Hdr.imm24, Bool.and_eq_true, decide_eq_true_eq, beq_iff_eq] at hw
   refine roundtrip_of hw0 rfl ?_ ?_ rfl rfl
   · simp [Fields.fits, Hdr.fields, Fields.dab, Fields.dabc, Fields.da, Fields.ab, Fields.abc, Fields.inA, Fields.inD, Fields.withMem, Fields.withMemD, Fields.withE, hw] <;> omega
   · simp [parse, parse2, Hdr.fields, Fields.hdr, Fields.imm, need, Fields.noA, Fields.noB, Fields.noC, Fields.noD, Fields.dab, Fields.dabc, Fields.da, Fields.ab, Fields.abc, Fields.inA, Fields.inD, Fields.withMem, Fields.withMemD, Fields.withE, hw])

theorem Laws.RoundTrip.xor (h : Hdr) (inv : Bool) (t : Ty) (d : Opnd) (a : Opnd) (b : Opnd) : Laws.RoundTrip.Statement (.xor h inv t d a b) := by
  intro hw0
  have hw := hw0
  obtain ⟨g1, g2, ch, w, r, imm⟩ := h
  (simp only [WellFormed, Instr.formOk, Instr.operandsOk, Opnd.dst, Opnd.src, Opnd.szi, Opnd.sz, Opnd.si, Opnd.vs, Opnd.sOnly, Opnd.ok, numOk_split, Hdr.immIf, Hdr.immBelow, Hdr.hinted, Hdr.unguarded, Hdr.plain, Hdr.guards, PredOp.ok, Hdr.imm24, Bool.and_eq_true, decide_eq_true_eq, beq_iff_eq] at hw
   refine roundtrip_of hw0 rfl ?_ ?_ rfl rfl
   · simp [Fields.fits, Hdr.fields, Fields.dab, Fields.dabc, Fields.da, Fields.ab, Fields.abc, Fields.inA, Fields.inD, Fields.withMem, Fields.withMemD, Fields.withE, hw] <;> omega
   · simp [parse, parse2, Hdr.fields, Fields.hdr, Fields.imm, need, Fields.noA, Fields.noB, Fields.noC, Fields.noD, Fields.dab, Fields.dabc, Fields.da, Fields.ab, Fields.abc, Fields.inA, Fields.inD, Fields.withMem, Fields.withMemD, Fields.withE, hw])

theorem Laws.RoundTrip.mix3 (h : Hdr) (t : Ty) (d : Opnd) (a : Opnd) (b : Opnd) (c : Opnd) : Laws.RoundTrip.Statement (.mix3 h t d a b c) := by
  intro hw0
  have hw := hw0
  obtain ⟨g1, g2, ch, w, r, imm⟩ := h
  (simp only [WellFormed, Instr.formOk, Instr.operandsOk, Opnd.dst, Opnd.src, Opnd.szi, Opnd.sz, Opnd.si, Opnd.vs, Opnd.sOnly, Opnd.ok, numOk_split, Hdr.immIf, Hdr.immBelow, Hdr.hinted, Hdr.unguarded, Hdr.plain, Hdr.guards, PredOp.ok, Hdr.imm24, Bool.and_eq_true, decide_eq_true_eq, beq_iff_eq] at hw
   refine roundtrip_of hw0 rfl ?_ ?_ rfl rfl
   · simp [Fields.fits, Hdr.fields, Fields.dab, Fields.dabc, Fields.da, Fields.ab, Fields.abc, Fields.inA, Fields.inD, Fields.withMem, Fields.withMemD, Fields.withE, hw] <;> omega
   · simp [parse, parse2, Hdr.fields, Fields.hdr, Fields.imm, need, Fields.noA, Fields.noB, Fields.noC, Fields.noD, Fields.dab, Fields.dabc, Fields.da, Fields.ab, Fields.abc, Fields.inA, Fields.inD, Fields.withMem, Fields.withMemD, Fields.withE, hw])

theorem Laws.RoundTrip.shl (h : Hdr) (wrap : Bool) (t : Ty) (d : Opnd) (a : Opnd) (b : Opnd) : Laws.RoundTrip.Statement (.shl h wrap t d a b) := by
  intro hw0
  have hw := hw0
  obtain ⟨g1, g2, ch, w, r, imm⟩ := h
  (simp only [WellFormed, Instr.formOk, Instr.operandsOk, Opnd.dst, Opnd.src, Opnd.szi, Opnd.sz, Opnd.si, Opnd.vs, Opnd.sOnly, Opnd.ok, numOk_split, Hdr.immIf, Hdr.immBelow, Hdr.hinted, Hdr.unguarded, Hdr.plain, Hdr.guards, PredOp.ok, Hdr.imm24, Bool.and_eq_true, decide_eq_true_eq, beq_iff_eq] at hw
   refine roundtrip_of hw0 rfl ?_ ?_ rfl rfl
   · simp [Fields.fits, Hdr.fields, Fields.dab, Fields.dabc, Fields.da, Fields.ab, Fields.abc, Fields.inA, Fields.inD, Fields.withMem, Fields.withMemD, Fields.withE, hw] <;> omega
   · simp [parse, parse2, Hdr.fields, Fields.hdr, Fields.imm, need, Fields.noA, Fields.noB, Fields.noC, Fields.noD, Fields.dab, Fields.dabc, Fields.da, Fields.ab, Fields.abc, Fields.inA, Fields.inD, Fields.withMem, Fields.withMemD, Fields.withE, hw])

theorem Laws.RoundTrip.shr (h : Hdr) (wrap : Bool) (t : Ty) (d : Opnd) (a : Opnd) (b : Opnd) : Laws.RoundTrip.Statement (.shr h wrap t d a b) := by
  intro hw0
  have hw := hw0
  obtain ⟨g1, g2, ch, w, r, imm⟩ := h
  (simp only [WellFormed, Instr.formOk, Instr.operandsOk, Opnd.dst, Opnd.src, Opnd.szi, Opnd.sz, Opnd.si, Opnd.vs, Opnd.sOnly, Opnd.ok, numOk_split, Hdr.immIf, Hdr.immBelow, Hdr.hinted, Hdr.unguarded, Hdr.plain, Hdr.guards, PredOp.ok, Hdr.imm24, Bool.and_eq_true, decide_eq_true_eq, beq_iff_eq] at hw
   refine roundtrip_of hw0 rfl ?_ ?_ rfl rfl
   · simp [Fields.fits, Hdr.fields, Fields.dab, Fields.dabc, Fields.da, Fields.ab, Fields.abc, Fields.inA, Fields.inD, Fields.withMem, Fields.withMemD, Fields.withE, hw] <;> omega
   · simp [parse, parse2, Hdr.fields, Fields.hdr, Fields.imm, need, Fields.noA, Fields.noB, Fields.noC, Fields.noD, Fields.dab, Fields.dabc, Fields.da, Fields.ab, Fields.abc, Fields.inA, Fields.inD, Fields.withMem, Fields.withMemD, Fields.withE, hw])

theorem Laws.RoundTrip.sar (h : Hdr) (wrap : Bool) (t : Ty) (d : Opnd) (a : Opnd) (b : Opnd) : Laws.RoundTrip.Statement (.sar h wrap t d a b) := by
  intro hw0
  have hw := hw0
  obtain ⟨g1, g2, ch, w, r, imm⟩ := h
  (simp only [WellFormed, Instr.formOk, Instr.operandsOk, Opnd.dst, Opnd.src, Opnd.szi, Opnd.sz, Opnd.si, Opnd.vs, Opnd.sOnly, Opnd.ok, numOk_split, Hdr.immIf, Hdr.immBelow, Hdr.hinted, Hdr.unguarded, Hdr.plain, Hdr.guards, PredOp.ok, Hdr.imm24, Bool.and_eq_true, decide_eq_true_eq, beq_iff_eq] at hw
   refine roundtrip_of hw0 rfl ?_ ?_ rfl rfl
   · simp [Fields.fits, Hdr.fields, Fields.dab, Fields.dabc, Fields.da, Fields.ab, Fields.abc, Fields.inA, Fields.inD, Fields.withMem, Fields.withMemD, Fields.withE, hw] <;> omega
   · simp [parse, parse2, Hdr.fields, Fields.hdr, Fields.imm, need, Fields.noA, Fields.noB, Fields.noC, Fields.noD, Fields.dab, Fields.dabc, Fields.da, Fields.ab, Fields.abc, Fields.inA, Fields.inD, Fields.withMem, Fields.withMemD, Fields.withE, hw])

theorem Laws.RoundTrip.rot (h : Hdr) (right : Bool) (t : Ty) (d : Opnd) (a : Opnd) (b : Opnd) : Laws.RoundTrip.Statement (.rot h right t d a b) := by
  intro hw0
  have hw := hw0
  obtain ⟨g1, g2, ch, w, r, imm⟩ := h
  (simp only [WellFormed, Instr.formOk, Instr.operandsOk, Opnd.dst, Opnd.src, Opnd.szi, Opnd.sz, Opnd.si, Opnd.vs, Opnd.sOnly, Opnd.ok, numOk_split, Hdr.immIf, Hdr.immBelow, Hdr.hinted, Hdr.unguarded, Hdr.plain, Hdr.guards, PredOp.ok, Hdr.imm24, Bool.and_eq_true, decide_eq_true_eq, beq_iff_eq] at hw
   refine roundtrip_of hw0 rfl ?_ ?_ rfl rfl
   · simp [Fields.fits, Hdr.fields, Fields.dab, Fields.dabc, Fields.da, Fields.ab, Fields.abc, Fields.inA, Fields.inD, Fields.withMem, Fields.withMemD, Fields.withE, hw] <;> omega
   · simp [parse, parse2, Hdr.fields, Fields.hdr, Fields.imm, need, Fields.noA, Fields.noB, Fields.noC, Fields.noD, Fields.dab, Fields.dabc, Fields.da, Fields.ab, Fields.abc, Fields.inA, Fields.inD, Fields.withMem, Fields.withMemD, Fields.withE, hw])

theorem Laws.RoundTrip.fshf (h : Hdr) (left : Bool) (clamp : Bool) (d : Opnd) (a : Opnd) (b : Opnd) (c : Opnd) : Laws.RoundTrip.Statement (.fshf h left clamp d a b c) := by
  intro hw0
  have hw := hw0
  obtain ⟨g1, g2, ch, w, r, imm⟩ := h
  cases left <;>
  cases clamp <;>
  (simp only [WellFormed, Instr.formOk, Instr.operandsOk, Opnd.dst, Opnd.src, Opnd.szi, Opnd.sz, Opnd.si, Opnd.vs, Opnd.sOnly, Opnd.ok, numOk_split, Hdr.immIf, Hdr.immBelow, Hdr.hinted, Hdr.unguarded, Hdr.plain, Hdr.guards, PredOp.ok, Hdr.imm24, Bool.and_eq_true, decide_eq_true_eq, beq_iff_eq] at hw
   refine roundtrip_of hw0 rfl ?_ ?_ rfl rfl
   · simp [Fields.fits, Hdr.fields, Fields.dab, Fields.dabc, Fields.da, Fields.ab, Fields.abc, Fields.inA, Fields.inD, Fields.withMem, Fields.withMemD, Fields.withE, hw] <;> omega
   · simp [parse, parse2, Hdr.fields, Fields.hdr, Fields.imm, need, Fields.noA, Fields.noB, Fields.noC, Fields.noD, Fields.dab, Fields.dabc, Fields.da, Fields.ab, Fields.abc, Fields.inA, Fields.inD, Fields.withMem, Fields.withMemD, Fields.withE, hw])

theorem Laws.RoundTrip.bfx (h : Hdr) (t : Ty) (d : Opnd) (a : Opnd) (b : Opnd) (c : Opnd) : Laws.RoundTrip.Statement (.bfx h t d a b c) := by
  intro hw0
  have hw := hw0
  obtain ⟨g1, g2, ch, w, r, imm⟩ := h
  (simp only [WellFormed, Instr.formOk, Instr.operandsOk, Opnd.dst, Opnd.src, Opnd.szi, Opnd.sz, Opnd.si, Opnd.vs, Opnd.sOnly, Opnd.ok, numOk_split, Hdr.immIf, Hdr.immBelow, Hdr.hinted, Hdr.unguarded, Hdr.plain, Hdr.guards, PredOp.ok, Hdr.imm24, Bool.and_eq_true, decide_eq_true_eq, beq_iff_eq] at hw
   refine roundtrip_of hw0 rfl ?_ ?_ rfl rfl
   · simp [Fields.fits, Hdr.fields, Fields.dab, Fields.dabc, Fields.da, Fields.ab, Fields.abc, Fields.inA, Fields.inD, Fields.withMem, Fields.withMemD, Fields.withE, hw] <;> omega
   · simp [parse, parse2, Hdr.fields, Fields.hdr, Fields.imm, need, Fields.noA, Fields.noB, Fields.noC, Fields.noD, Fields.dab, Fields.dabc, Fields.da, Fields.ab, Fields.abc, Fields.inA, Fields.inD, Fields.withMem, Fields.withMemD, Fields.withE, hw])

theorem Laws.RoundTrip.bfi (h : Hdr) (t : Ty) (d : Opnd) (a : Opnd) (b : Opnd) (c : Opnd) (e : Opnd) : Laws.RoundTrip.Statement (.bfi h t d a b c e) := by
  intro hw0
  have hw := hw0
  obtain ⟨g1, g2, ch, w, r, imm⟩ := h
  (simp only [WellFormed, Instr.formOk, Instr.operandsOk, Opnd.dst, Opnd.src, Opnd.szi, Opnd.sz, Opnd.si, Opnd.vs, Opnd.sOnly, Opnd.ok, numOk_split, Hdr.immIf, Hdr.immBelow, Hdr.hinted, Hdr.unguarded, Hdr.plain, Hdr.guards, PredOp.ok, Hdr.imm24, Bool.and_eq_true, decide_eq_true_eq, beq_iff_eq] at hw
   refine roundtrip_of hw0 rfl ?_ ?_ rfl rfl
   · simp [Fields.fits, Hdr.fields, Fields.dab, Fields.dabc, Fields.da, Fields.ab, Fields.abc, Fields.inA, Fields.inD, Fields.withMem, Fields.withMemD, Fields.withE, hw] <;> omega
   · simp [parse, parse2, Hdr.fields, Fields.hdr, Fields.imm, need, Fields.noA, Fields.noB, Fields.noC, Fields.noD, Fields.dab, Fields.dabc, Fields.da, Fields.ab, Fields.abc, Fields.inA, Fields.inD, Fields.withMem, Fields.withMemD, Fields.withE, hw, imm24_back, Fields.e])

theorem Laws.RoundTrip.popc (h : Hdr) (t : Ty) (d : Opnd) (a : Opnd) : Laws.RoundTrip.Statement (.popc h t d a) := by
  intro hw0
  have hw := hw0
  obtain ⟨g1, g2, ch, w, r, imm⟩ := h
  (simp only [WellFormed, Instr.formOk, Instr.operandsOk, Opnd.dst, Opnd.src, Opnd.szi, Opnd.sz, Opnd.si, Opnd.vs, Opnd.sOnly, Opnd.ok, numOk_split, Hdr.immIf, Hdr.immBelow, Hdr.hinted, Hdr.unguarded, Hdr.plain, Hdr.guards, PredOp.ok, Hdr.imm24, Bool.and_eq_true, decide_eq_true_eq, beq_iff_eq] at hw
   refine roundtrip_of hw0 rfl ?_ ?_ rfl rfl
   · simp [Fields.fits, Hdr.fields, Fields.dab, Fields.dabc, Fields.da, Fields.ab, Fields.abc, Fields.inA, Fields.inD, Fields.withMem, Fields.withMemD, Fields.withE, hw] <;> omega
   · simp [parse, parse2, Hdr.fields, Fields.hdr, Fields.imm, need, Fields.noA, Fields.noB, Fields.noC, Fields.noD, Fields.dab, Fields.dabc, Fields.da, Fields.ab, Fields.abc, Fields.inA, Fields.inD, Fields.withMem, Fields.withMemD, Fields.withE, hw])

theorem Laws.RoundTrip.clz (h : Hdr) (t : Ty) (d : Opnd) (a : Opnd) : Laws.RoundTrip.Statement (.clz h t d a) := by
  intro hw0
  have hw := hw0
  obtain ⟨g1, g2, ch, w, r, imm⟩ := h
  (simp only [WellFormed, Instr.formOk, Instr.operandsOk, Opnd.dst, Opnd.src, Opnd.szi, Opnd.sz, Opnd.si, Opnd.vs, Opnd.sOnly, Opnd.ok, numOk_split, Hdr.immIf, Hdr.immBelow, Hdr.hinted, Hdr.unguarded, Hdr.plain, Hdr.guards, PredOp.ok, Hdr.imm24, Bool.and_eq_true, decide_eq_true_eq, beq_iff_eq] at hw
   refine roundtrip_of hw0 rfl ?_ ?_ rfl rfl
   · simp [Fields.fits, Hdr.fields, Fields.dab, Fields.dabc, Fields.da, Fields.ab, Fields.abc, Fields.inA, Fields.inD, Fields.withMem, Fields.withMemD, Fields.withE, hw] <;> omega
   · simp [parse, parse2, Hdr.fields, Fields.hdr, Fields.imm, need, Fields.noA, Fields.noB, Fields.noC, Fields.noD, Fields.dab, Fields.dabc, Fields.da, Fields.ab, Fields.abc, Fields.inA, Fields.inD, Fields.withMem, Fields.withMemD, Fields.withE, hw])

theorem Laws.RoundTrip.brev (h : Hdr) (t : Ty) (d : Opnd) (a : Opnd) : Laws.RoundTrip.Statement (.brev h t d a) := by
  intro hw0
  have hw := hw0
  obtain ⟨g1, g2, ch, w, r, imm⟩ := h
  (simp only [WellFormed, Instr.formOk, Instr.operandsOk, Opnd.dst, Opnd.src, Opnd.szi, Opnd.sz, Opnd.si, Opnd.vs, Opnd.sOnly, Opnd.ok, numOk_split, Hdr.immIf, Hdr.immBelow, Hdr.hinted, Hdr.unguarded, Hdr.plain, Hdr.guards, PredOp.ok, Hdr.imm24, Bool.and_eq_true, decide_eq_true_eq, beq_iff_eq] at hw
   refine roundtrip_of hw0 rfl ?_ ?_ rfl rfl
   · simp [Fields.fits, Hdr.fields, Fields.dab, Fields.dabc, Fields.da, Fields.ab, Fields.abc, Fields.inA, Fields.inD, Fields.withMem, Fields.withMemD, Fields.withE, hw] <;> omega
   · simp [parse, parse2, Hdr.fields, Fields.hdr, Fields.imm, need, Fields.noA, Fields.noB, Fields.noC, Fields.noD, Fields.dab, Fields.dabc, Fields.da, Fields.ab, Fields.abc, Fields.inA, Fields.inD, Fields.withMem, Fields.withMemD, Fields.withE, hw])

theorem Laws.RoundTrip.bsel (h : Hdr) (d : Opnd) (a : Opnd) (b : Opnd) (c : Opnd) : Laws.RoundTrip.Statement (.bsel h d a b c) := by
  intro hw0
  have hw := hw0
  obtain ⟨g1, g2, ch, w, r, imm⟩ := h
  (simp only [WellFormed, Instr.formOk, Instr.operandsOk, Opnd.dst, Opnd.src, Opnd.szi, Opnd.sz, Opnd.si, Opnd.vs, Opnd.sOnly, Opnd.ok, numOk_split, Hdr.immIf, Hdr.immBelow, Hdr.hinted, Hdr.unguarded, Hdr.plain, Hdr.guards, PredOp.ok, Hdr.imm24, Bool.and_eq_true, decide_eq_true_eq, beq_iff_eq] at hw
   refine roundtrip_of hw0 rfl ?_ ?_ rfl rfl
   · simp [Fields.fits, Hdr.fields, Fields.dab, Fields.dabc, Fields.da, Fields.ab, Fields.abc, Fields.inA, Fields.inD, Fields.withMem, Fields.withMemD, Fields.withE, hw] <;> omega
   · simp [parse, parse2, Hdr.fields, Fields.hdr, Fields.imm, need, Fields.noA, Fields.noB, Fields.noC, Fields.noD, Fields.dab, Fields.dabc, Fields.da, Fields.ab, Fields.abc, Fields.inA, Fields.inD, Fields.withMem, Fields.withMemD, Fields.withE, hw])

theorem Laws.RoundTrip.ffs (h : Hdr) (hi : Bool) (t : Ty) (d : Opnd) (a : Opnd) : Laws.RoundTrip.Statement (.ffs h hi t d a) := by
  intro hw0
  have hw := hw0
  obtain ⟨g1, g2, ch, w, r, imm⟩ := h
  (simp only [WellFormed, Instr.formOk, Instr.operandsOk, Opnd.dst, Opnd.src, Opnd.szi, Opnd.sz, Opnd.si, Opnd.vs, Opnd.sOnly, Opnd.ok, numOk_split, Hdr.immIf, Hdr.immBelow, Hdr.hinted, Hdr.unguarded, Hdr.plain, Hdr.guards, PredOp.ok, Hdr.imm24, Bool.and_eq_true, decide_eq_true_eq, beq_iff_eq] at hw
   refine roundtrip_of hw0 rfl ?_ ?_ rfl rfl
   · simp [Fields.fits, Hdr.fields, Fields.dab, Fields.dabc, Fields.da, Fields.ab, Fields.abc, Fields.inA, Fields.inD, Fields.withMem, Fields.withMemD, Fields.withE, hw] <;> omega
   · simp [parse, parse2, Hdr.fields, Fields.hdr, Fields.imm, need, Fields.noA, Fields.noB, Fields.noC, Fields.noD, Fields.dab, Fields.dabc, Fields.da, Fields.ab, Fields.abc, Fields.inA, Fields.inD, Fields.withMem, Fields.withMemD, Fields.withE, hw])

theorem Laws.RoundTrip.fadd (h : Hdr) (sat : Bool) (t : Ty) (d : Opnd) (a : Opnd) (b : Opnd) : Laws.RoundTrip.Statement (.fadd h sat t d a b) := by
  intro hw0
  have hw := hw0
  obtain ⟨g1, g2, ch, w, r, imm⟩ := h
  (simp only [WellFormed, Instr.formOk, Instr.operandsOk, Opnd.dst, Opnd.src, Opnd.szi, Opnd.sz, Opnd.si, Opnd.vs, Opnd.sOnly, Opnd.ok, numOk_split, Hdr.immIf, Hdr.immBelow, Hdr.hinted, Hdr.unguarded, Hdr.plain, Hdr.guards, PredOp.ok, Hdr.imm24, Bool.and_eq_true, decide_eq_true_eq, beq_iff_eq] at hw
   refine roundtrip_of hw0 rfl ?_ ?_ rfl rfl
   · simp [Fields.fits, Hdr.fields, Fields.dab, Fields.dabc, Fields.da, Fields.ab, Fields.abc, Fields.inA, Fields.inD, Fields.withMem, Fields.withMemD, Fields.withE, hw] <;> omega
   · simp [parse, parse3, Hdr.fields, Fields.hdr, Fields.imm, need, Fields.noA, Fields.noB, Fields.noC, Fields.noD, Fields.dab, Fields.dabc, Fields.da, Fields.ab, Fields.abc, Fields.inA, Fields.inD, Fields.withMem, Fields.withMemD, Fields.withE, hw])

theorem Laws.RoundTrip.fsub (h : Hdr) (sat : Bool) (t : Ty) (d : Opnd) (a : Opnd) (b : Opnd) : Laws.RoundTrip.Statement (.fsub h sat t d a b) := by
  intro hw0
  have hw := hw0
  obtain ⟨g1, g2, ch, w, r, imm⟩ := h
  (simp only [WellFormed, Instr.formOk, Instr.operandsOk, Opnd.dst, Opnd.src, Opnd.szi, Opnd.sz, Opnd.si, Opnd.vs, Opnd.sOnly, Opnd.ok, numOk_split, Hdr.immIf, Hdr.immBelow, Hdr.hinted, Hdr.unguarded, Hdr.plain, Hdr.guards, PredOp.ok, Hdr.imm24, Bool.and_eq_true, decide_eq_true_eq, beq_iff_eq] at hw
   refine roundtrip_of hw0 rfl ?_ ?_ rfl rfl
   · simp [Fields.fits, Hdr.fields, Fields.dab, Fields.dabc, Fields.da, Fields.ab, Fields.abc, Fields.inA, Fields.inD, Fields.withMem, Fields.withMemD, Fields.withE, hw] <;> omega
   · simp [parse, parse3, Hdr.fields, Fields.hdr, Fields.imm, need, Fields.noA, Fields.noB, Fields.noC, Fields.noD, Fields.dab, Fields.dabc, Fields.da, Fields.ab, Fields.abc, Fields.inA, Fields.inD, Fields.withMem, Fields.withMemD, Fields.withE, hw])

theorem Laws.RoundTrip.fmul (h : Hdr) (sat : Bool) (t : Ty) (d : Opnd) (a : Opnd) (b : Opnd) : Laws.RoundTrip.Statement (.fmul h sat t d a b) := by
  intro hw0
  have hw := hw0
  obtain ⟨g1, g2, ch, w, r, imm⟩ := h
  (simp only [WellFormed, Instr.formOk, Instr.operandsOk, Opnd.dst, Opnd.src, Opnd.szi, Opnd.sz, Opnd.si, Opnd.vs, Opnd.sOnly, Opnd.ok, numOk_split, Hdr.immIf, Hdr.immBelow, Hdr.hinted, Hdr.unguarded, Hdr.plain, Hdr.guards, PredOp.ok, Hdr.imm24, Bool.and_eq_true, decide_eq_true_eq, beq_iff_eq] at hw
   refine roundtrip_of hw0 rfl ?_ ?_ rfl rfl
   · simp [Fields.fits, Hdr.fields, Fields.dab, Fields.dabc, Fields.da, Fields.ab, Fields.abc, Fields.inA, Fields.inD, Fields.withMem, Fields.withMemD, Fields.withE, hw] <;> omega
   · simp [parse, parse3, Hdr.fields, Fields.hdr, Fields.imm, need, Fields.noA, Fields.noB, Fields.noC, Fields.noD, Fields.dab, Fields.dabc, Fields.da, Fields.ab, Fields.abc, Fields.inA, Fields.inD, Fields.withMem, Fields.withMemD, Fields.withE, hw])

theorem Laws.RoundTrip.ffma (h : Hdr) (sat : Bool) (t : Ty) (d : Opnd) (a : Opnd) (b : Opnd) (c : Opnd) : Laws.RoundTrip.Statement (.ffma h sat t d a b c) := by
  intro hw0
  have hw := hw0
  obtain ⟨g1, g2, ch, w, r, imm⟩ := h
  (simp only [WellFormed, Instr.formOk, Instr.operandsOk, Opnd.dst, Opnd.src, Opnd.szi, Opnd.sz, Opnd.si, Opnd.vs, Opnd.sOnly, Opnd.ok, numOk_split, Hdr.immIf, Hdr.immBelow, Hdr.hinted, Hdr.unguarded, Hdr.plain, Hdr.guards, PredOp.ok, Hdr.imm24, Bool.and_eq_true, decide_eq_true_eq, beq_iff_eq] at hw
   refine roundtrip_of hw0 rfl ?_ ?_ rfl rfl
   · simp [Fields.fits, Hdr.fields, Fields.dab, Fields.dabc, Fields.da, Fields.ab, Fields.abc, Fields.inA, Fields.inD, Fields.withMem, Fields.withMemD, Fields.withE, hw] <;> omega
   · simp [parse, parse3, Hdr.fields, Fields.hdr, Fields.imm, need, Fields.noA, Fields.noB, Fields.noC, Fields.noD, Fields.dab, Fields.dabc, Fields.da, Fields.ab, Fields.abc, Fields.inA, Fields.inD, Fields.withMem, Fields.withMemD, Fields.withE, hw])

theorem Laws.RoundTrip.fmin (h : Hdr) (t : Ty) (d : Opnd) (a : Opnd) (b : Opnd) : Laws.RoundTrip.Statement (.fmin h t d a b) := by
  intro hw0
  have hw := hw0
  obtain ⟨g1, g2, ch, w, r, imm⟩ := h
  (simp only [WellFormed, Instr.formOk, Instr.operandsOk, Opnd.dst, Opnd.src, Opnd.szi, Opnd.sz, Opnd.si, Opnd.vs, Opnd.sOnly, Opnd.ok, numOk_split, Hdr.immIf, Hdr.immBelow, Hdr.hinted, Hdr.unguarded, Hdr.plain, Hdr.guards, PredOp.ok, Hdr.imm24, Bool.and_eq_true, decide_eq_true_eq, beq_iff_eq] at hw
   refine roundtrip_of hw0 rfl ?_ ?_ rfl rfl
   · simp [Fields.fits, Hdr.fields, Fields.dab, Fields.dabc, Fields.da, Fields.ab, Fields.abc, Fields.inA, Fields.inD, Fields.withMem, Fields.withMemD, Fields.withE, hw] <;> omega
   · simp [parse, parse3, Hdr.fields, Fields.hdr, Fields.imm, need, Fields.noA, Fields.noB, Fields.noC, Fields.noD, Fields.dab, Fields.dabc, Fields.da, Fields.ab, Fields.abc, Fields.inA, Fields.inD, Fields.withMem, Fields.withMemD, Fields.withE, hw])

theorem Laws.RoundTrip.fmax (h : Hdr) (t : Ty) (d : Opnd) (a : Opnd) (b : Opnd) : Laws.RoundTrip.Statement (.fmax h t d a b) := by
  intro hw0
  have hw := hw0
  obtain ⟨g1, g2, ch, w, r, imm⟩ := h
  (simp only [WellFormed, Instr.formOk, Instr.operandsOk, Opnd.dst, Opnd.src, Opnd.szi, Opnd.sz, Opnd.si, Opnd.vs, Opnd.sOnly, Opnd.ok, numOk_split, Hdr.immIf, Hdr.immBelow, Hdr.hinted, Hdr.unguarded, Hdr.plain, Hdr.guards, PredOp.ok, Hdr.imm24, Bool.and_eq_true, decide_eq_true_eq, beq_iff_eq] at hw
   refine roundtrip_of hw0 rfl ?_ ?_ rfl rfl
   · simp [Fields.fits, Hdr.fields, Fields.dab, Fields.dabc, Fields.da, Fields.ab, Fields.abc, Fields.inA, Fields.inD, Fields.withMem, Fields.withMemD, Fields.withE, hw] <;> omega
   · simp [parse, parse3, Hdr.fields, Fields.hdr, Fields.imm, need, Fields.noA, Fields.noB, Fields.noC, Fields.noD, Fields.dab, Fields.dabc, Fields.da, Fields.ab, Fields.abc, Fields.inA, Fields.inD, Fields.withMem, Fields.withMemD, Fields.withE, hw])

theorem Laws.RoundTrip.fcmp (h : Hdr) (cond : Cond) (t : Ty) (pd : PredOp) (a : Opnd) (b : Opnd) : Laws.RoundTrip.Statement (.fcmp h cond t pd a b) := by
  intro hw0
  have hw := hw0
  obtain ⟨g1, g2, ch, w, r, imm⟩ := h
  (simp only [WellFormed, Instr.formOk, Instr.operandsOk, Opnd.dst, Opnd.src, Opnd.szi, Opnd.sz, Opnd.si, Opnd.vs, Opnd.sOnly, Opnd.ok, numOk_split, Hdr.immIf, Hdr.immBelow, Hdr.hinted, Hdr.unguarded, Hdr.plain, Hdr.guards, PredOp.ok, Hdr.imm24, Bool.and_eq_true, decide_eq_true_eq, beq_iff_eq] at hw
   refine roundtrip_of hw0 rfl ?_ ?_ rfl rfl
   · simp [Fields.fits, Hdr.fields, Fields.dab, Fields.dabc, Fields.da, Fields.ab, Fields.abc, Fields.inA, Fields.inD, Fields.withMem, Fields.withMemD, Fields.withE, hw] <;> omega
   · simp [parse, parse3, Hdr.fields, Fields.hdr, Fields.imm, need, Fields.noA, Fields.noB, Fields.noC, Fields.noD, Fields.dab, Fields.dabc, Fields.da, Fields.ab, Fields.abc, Fields.inA, Fields.inD, Fields.withMem, Fields.withMemD, Fields.withE, hw])

theorem Laws.RoundTrip.fclass (h : Hdr) (t : Ty) (d : Opnd) (a : Opnd) : Laws.RoundTrip.Statement (.fclass h t d a) := by
  intro hw0
  have hw := hw0
  obtain ⟨g1, g2, ch, w, r, imm⟩ := h
  (simp only [WellFormed, Instr.formOk, Instr.operandsOk, Opnd.dst, Opnd.src, Opnd.szi, Opnd.sz, Opnd.si, Opnd.vs, Opnd.sOnly, Opnd.ok, numOk_split, Hdr.immIf, Hdr.immBelow, Hdr.hinted, Hdr.unguarded, Hdr.plain, Hdr.guards, PredOp.ok, Hdr.imm24, Bool.and_eq_true, decide_eq_true_eq, beq_iff_eq] at hw
   refine roundtrip_of hw0 rfl ?_ ?_ rfl rfl
   · simp [Fields.fits, Hdr.fields, Fields.dab, Fields.dabc, Fields.da, Fields.ab, Fields.abc, Fields.inA, Fields.inD, Fields.withMem, Fields.withMemD, Fields.withE, hw] <;> omega
   · simp [parse, parse3, Hdr.fields, Fields.hdr, Fields.imm, need, Fields.noA, Fields.noB, Fields.noC, Fields.noD, Fields.dab, Fields.dabc, Fields.da, Fields.ab, Fields.abc, Fields.inA, Fields.inD, Fields.withMem, Fields.withMemD, Fields.withE, hw])

theorem Laws.RoundTrip.frnd (h : Hdr) (dir : RndDir) (t : Ty) (d : Opnd) (a : Opnd) : Laws.RoundTrip.Statement (.frnd h dir t d a) := by
  intro hw0
  have hw := hw0
  obtain ⟨g1, g2, ch, w, r, imm⟩ := h
  (simp only [WellFormed, Instr.formOk, Instr.operandsOk, Opnd.dst, Opnd.src, Opnd.szi, Opnd.sz, Opnd.si, Opnd.vs, Opnd.sOnly, Opnd.ok, numOk_split, Hdr.immIf, Hdr.immBelow, Hdr.hinted, Hdr.unguarded, Hdr.plain, Hdr.guards, PredOp.ok, Hdr.imm24, Bool.and_eq_true, decide_eq_true_eq, beq_iff_eq] at hw
   refine roundtrip_of hw0 rfl ?_ ?_ rfl rfl
   · simp [Fields.fits, Hdr.fields, Fields.dab, Fields.dabc, Fields.da, Fields.ab, Fields.abc, Fields.inA, Fields.inD, Fields.withMem, Fields.withMemD, Fields.withE, hw] <;> omega
   · simp [parse, parse3, Hdr.fields, Fields.hdr, Fields.imm, need, Fields.noA, Fields.noB, Fields.noC, Fields.noD, Fields.dab, Fields.dabc, Fields.da, Fields.ab, Fields.abc, Fields.inA, Fields.inD, Fields.withMem, Fields.withMemD, Fields.withE, hw])

theorem Laws.RoundTrip.fdp2 (h : Hdr) (t : Ty) (d : Opnd) (a : Opnd) (b : Opnd) (c : Opnd) : Laws.RoundTrip.Statement (.fdp2 h t d a b c) := by
  intro hw0
  have hw := hw0
  obtain ⟨g1, g2, ch, w, r, imm⟩ := h
  (simp only [WellFormed, Instr.formOk, Instr.operandsOk, Opnd.dst, Opnd.src, Opnd.szi, Opnd.sz, Opnd.si, Opnd.vs, Opnd.sOnly, Opnd.ok, numOk_split, Hdr.immIf, Hdr.immBelow, Hdr.hinted, Hdr.unguarded, Hdr.plain, Hdr.guards, PredOp.ok, Hdr.imm24, Bool.and_eq_true, decide_eq_true_eq, beq_iff_eq] at hw
   refine roundtrip_of hw0 rfl ?_ ?_ rfl rfl
   · simp [Fields.fits, Hdr.fields, Fields.dab, Fields.dabc, Fields.da, Fields.ab, Fields.abc, Fields.inA, Fields.inD, Fields.withMem, Fields.withMemD, Fields.withE, hw] <;> omega
   · simp [parse, parse3, Hdr.fields, Fields.hdr, Fields.imm, need, Fields.noA, Fields.noB, Fields.noC, Fields.noD, Fields.dab, Fields.dabc, Fields.da, Fields.ab, Fields.abc, Fields.inA, Fields.inD, Fields.withMem, Fields.withMemD, Fields.withE, hw])

theorem Laws.RoundTrip.fscale (h : Hdr) (t : Ty) (d : Opnd) (a : Opnd) (b : Opnd) : Laws.RoundTrip.Statement (.fscale h t d a b) := by
  intro hw0
  have hw := hw0
  obtain ⟨g1, g2, ch, w, r, imm⟩ := h
  (simp only [WellFormed, Instr.formOk, Instr.operandsOk, Opnd.dst, Opnd.src, Opnd.szi, Opnd.sz, Opnd.si, Opnd.vs, Opnd.sOnly, Opnd.ok, numOk_split, Hdr.immIf, Hdr.immBelow, Hdr.hinted, Hdr.unguarded, Hdr.plain, Hdr.guards, PredOp.ok, Hdr.imm24, Bool.and_eq_true, decide_eq_true_eq, beq_iff_eq] at hw
   refine roundtrip_of hw0 rfl ?_ ?_ rfl rfl
   · simp [Fields.fits, Hdr.fields, Fields.dab, Fields.dabc, Fields.da, Fields.ab, Fields.abc, Fields.inA, Fields.inD, Fields.withMem, Fields.withMemD, Fields.withE, hw] <;> omega
   · simp [parse, parse3, Hdr.fields, Fields.hdr, Fields.imm, need, Fields.noA, Fields.noB, Fields.noC, Fields.noD, Fields.dab, Fields.dabc, Fields.da, Fields.ab, Fields.abc, Fields.inA, Fields.inD, Fields.withMem, Fields.withMemD, Fields.withE, hw])

theorem Laws.RoundTrip.fsgn (h : Hdr) (op : SgnOp) (t : Ty) (d : Opnd) (a : Opnd) (b : Opnd) : Laws.RoundTrip.Statement (.fsgn h op t d a b) := by
  intro hw0
  have hw := hw0
  obtain ⟨g1, g2, ch, w, r, imm⟩ := h
  (simp only [WellFormed, Instr.formOk, Instr.operandsOk, Opnd.dst, Opnd.src, Opnd.szi, Opnd.sz, Opnd.si, Opnd.vs, Opnd.sOnly, Opnd.ok, numOk_split, Hdr.immIf, Hdr.immBelow, Hdr.hinted, Hdr.unguarded, Hdr.plain, Hdr.guards, PredOp.ok, Hdr.imm24, Bool.and_eq_true, decide_eq_true_eq, beq_iff_eq] at hw
   refine roundtrip_of hw0 rfl ?_ ?_ rfl rfl
   · simp [Fields.fits, Hdr.fields, Fields.dab, Fields.dabc, Fields.da, Fields.ab, Fields.abc, Fields.inA, Fields.inD, Fields.withMem, Fields.withMemD, Fields.withE, hw] <;> omega
   · simp [parse, parse3, Hdr.fields, Fields.hdr, Fields.imm, need, Fields.noA, Fields.noB, Fields.noC, Fields.noD, Fields.dab, Fields.dabc, Fields.da, Fields.ab, Fields.abc, Fields.inA, Fields.inD, Fields.withMem, Fields.withMemD, Fields.withE, hw])

theorem Laws.RoundTrip.rcp (h : Hdr) (d : Opnd) (a : Opnd) : Laws.RoundTrip.Statement (.rcp h d a) := by
  intro hw0
  have hw := hw0
  obtain ⟨g1, g2, ch, w, r, imm⟩ := h
  (simp only [WellFormed, Instr.formOk, Instr.operandsOk, Opnd.dst, Opnd.src, Opnd.szi, Opnd.sz, Opnd.si, Opnd.vs, Opnd.sOnly, Opnd.ok, numOk_split, Hdr.immIf, Hdr.immBelow, Hdr.hinted, Hdr.unguarded, Hdr.plain, Hdr.guards, PredOp.ok, Hdr.imm24, Bool.and_eq_true, decide_eq_true_eq, beq_iff_eq] at hw
   refine roundtrip_of hw0 rfl ?_ ?_ rfl rfl
   · simp [Fields.fits, Hdr.fields, Fields.dab, Fields.dabc, Fields.da, Fields.ab, Fields.abc, Fields.inA, Fields.inD, Fields.withMem, Fields.withMemD, Fields.withE, hw] <;> omega
   · simp [parse, parse4, Hdr.fields, Fields.hdr, Fields.imm, need, Fields.noA, Fields.noB, Fields.noC, Fields.noD, Fields.dab, Fields.dabc, Fields.da, Fields.ab, Fields.abc, Fields.inA, Fields.inD, Fields.withMem, Fields.withMemD, Fields.withE, hw])

theorem Laws.RoundTrip.rsq (h : Hdr) (d : Opnd) (a : Opnd) : Laws.RoundTrip.Statement (.rsq h d a) := by
  intro hw0
  have hw := hw0
  obtain ⟨g1, g2, ch, w, r, imm⟩ := h
  (simp only [WellFormed, Instr.formOk, Instr.operandsOk, Opnd.dst, Opnd.src, Opnd.szi, Opnd.sz, Opnd.si, Opnd.vs, Opnd.sOnly, Opnd.ok, numOk_split, Hdr.immIf, Hdr.immBelow, Hdr.hinted, Hdr.unguarded, Hdr.plain, Hdr.guards, PredOp.ok, Hdr.imm24, Bool.and_eq_true, decide_eq_true_eq, beq_iff_eq] at hw
   refine roundtrip_of hw0 rfl ?_ ?_ rfl rfl
   · simp [Fields.fits, Hdr.fields, Fields.dab, Fields.dabc, Fields.da, Fields.ab, Fields.abc, Fields.inA, Fields.inD, Fields.withMem, Fields.withMemD, Fields.withE, hw] <;> omega
   · simp [parse, parse4, Hdr.fields, Fields.hdr, Fields.imm, need, Fields.noA, Fields.noB, Fields.noC, Fields.noD, Fields.dab, Fields.dabc, Fields.da, Fields.ab, Fields.abc, Fields.inA, Fields.inD, Fields.withMem, Fields.withMemD, Fields.withE, hw])

theorem Laws.RoundTrip.sqrt (h : Hdr) (d : Opnd) (a : Opnd) : Laws.RoundTrip.Statement (.sqrt h d a) := by
  intro hw0
  have hw := hw0
  obtain ⟨g1, g2, ch, w, r, imm⟩ := h
  (simp only [WellFormed, Instr.formOk, Instr.operandsOk, Opnd.dst, Opnd.src, Opnd.szi, Opnd.sz, Opnd.si, Opnd.vs, Opnd.sOnly, Opnd.ok, numOk_split, Hdr.immIf, Hdr.immBelow, Hdr.hinted, Hdr.unguarded, Hdr.plain, Hdr.guards, PredOp.ok, Hdr.imm24, Bool.and_eq_true, decide_eq_true_eq, beq_iff_eq] at hw
   refine roundtrip_of hw0 rfl ?_ ?_ rfl rfl
   · simp [Fields.fits, Hdr.fields, Fields.dab, Fields.dabc, Fields.da, Fields.ab, Fields.abc, Fields.inA, Fields.inD, Fields.withMem, Fields.withMemD, Fields.withE, hw] <;> omega
   · simp [parse, parse4, Hdr.fields, Fields.hdr, Fields.imm, need, Fields.noA, Fields.noB, Fields.noC, Fields.noD, Fields.dab, Fields.dabc, Fields.da, Fields.ab, Fields.abc, Fields.inA, Fields.inD, Fields.withMem, Fields.withMemD, Fields.withE, hw])

theorem Laws.RoundTrip.exp2 (h : Hdr) (d : Opnd) (a : Opnd) : Laws.RoundTrip.Statement (.exp2 h d a) := by
  intro hw0
  have hw := hw0
  obtain ⟨g1, g2, ch, w, r, imm⟩ := h
  (simp only [WellFormed, Instr.formOk, Instr.operandsOk, Opnd.dst, Opnd.src, Opnd.szi, Opnd.sz, Opnd.si, Opnd.vs, Opnd.sOnly, Opnd.ok, numOk_split, Hdr.immIf, Hdr.immBelow, Hdr.hinted, Hdr.unguarded, Hdr.plain, Hdr.guards, PredOp.ok, Hdr.imm24, Bool.and_eq_true, decide_eq_true_eq, beq_iff_eq] at hw
   refine roundtrip_of hw0 rfl ?_ ?_ rfl rfl
   · simp [Fields.fits, Hdr.fields, Fields.dab, Fields.dabc, Fields.da, Fields.ab, Fields.abc, Fields.inA, Fields.inD, Fields.withMem, Fields.withMemD, Fields.withE, hw] <;> omega
   · simp [parse, parse4, Hdr.fields, Fields.hdr, Fields.imm, need, Fields.noA, Fields.noB, Fields.noC, Fields.noD, Fields.dab, Fields.dabc, Fields.da, Fields.ab, Fields.abc, Fields.inA, Fields.inD, Fields.withMem, Fields.withMemD, Fields.withE, hw])

theorem Laws.RoundTrip.log2 (h : Hdr) (d : Opnd) (a : Opnd) : Laws.RoundTrip.Statement (.log2 h d a) := by
  intro hw0
  have hw := hw0
  obtain ⟨g1, g2, ch, w, r, imm⟩ := h
  (simp only [WellFormed, Instr.formOk, Instr.operandsOk, Opnd.dst, Opnd.src, Opnd.szi, Opnd.sz, Opnd.si, Opnd.vs, Opnd.sOnly, Opnd.ok, numOk_split, Hdr.immIf, Hdr.immBelow, Hdr.hinted, Hdr.unguarded, Hdr.plain, Hdr.guards, PredOp.ok, Hdr.imm24, Bool.and_eq_true, decide_eq_true_eq, beq_iff_eq] at hw
   refine roundtrip_of hw0 rfl ?_ ?_ rfl rfl
   · simp [Fields.fits, Hdr.fields, Fields.dab, Fields.dabc, Fields.da, Fields.ab, Fields.abc, Fields.inA, Fields.inD, Fields.withMem, Fields.withMemD, Fields.withE, hw] <;> omega
   · simp [parse, parse4, Hdr.fields, Fields.hdr, Fields.imm, need, Fields.noA, Fields.noB, Fields.noC, Fields.noD, Fields.dab, Fields.dabc, Fields.da, Fields.ab, Fields.abc, Fields.inA, Fields.inD, Fields.withMem, Fields.withMemD, Fields.withE, hw])

theorem Laws.RoundTrip.sin (h : Hdr) (d : Opnd) (a : Opnd) : Laws.RoundTrip.Statement (.sin h d a) := by
  intro hw0
  have hw := hw0
  obtain ⟨g1, g2, ch, w, r, imm⟩ := h
  (simp only [WellFormed, Instr.formOk, Instr.operandsOk, Opnd.dst, Opnd.src, Opnd.szi, Opnd.sz, Opnd.si, Opnd.vs, Opnd.sOnly, Opnd.ok, numOk_split, Hdr.immIf, Hdr.immBelow, Hdr.hinted, Hdr.unguarded, Hdr.plain, Hdr.guards, PredOp.ok, Hdr.imm24, Bool.and_eq_true, decide_eq_true_eq, beq_iff_eq] at hw
   refine roundtrip_of hw0 rfl ?_ ?_ rfl rfl
   · simp [Fields.fits, Hdr.fields, Fields.dab, Fields.dabc, Fields.da, Fields.ab, Fields.abc, Fields.inA, Fields.inD, Fields.withMem, Fields.withMemD, Fields.withE, hw] <;> omega
   · simp [parse, parse4, Hdr.fields, Fields.hdr, Fields.imm, need, Fields.noA, Fields.noB, Fields.noC, Fields.noD, Fields.dab, Fields.dabc, Fields.da, Fields.ab, Fields.abc, Fields.inA, Fields.inD, Fields.withMem, Fields.withMemD, Fields.withE, hw])

theorem Laws.RoundTrip.cos (h : Hdr) (d : Opnd) (a : Opnd) : Laws.RoundTrip.Statement (.cos h d a) := by
  intro hw0
  have hw := hw0
  obtain ⟨g1, g2, ch, w, r, imm⟩ := h
  (simp only [WellFormed, Instr.formOk, Instr.operandsOk, Opnd.dst, Opnd.src, Opnd.szi, Opnd.sz, Opnd.si, Opnd.vs, Opnd.sOnly, Opnd.ok, numOk_split, Hdr.immIf, Hdr.immBelow, Hdr.hinted, Hdr.unguarded, Hdr.plain, Hdr.guards, PredOp.ok, Hdr.imm24, Bool.and_eq_true, decide_eq_true_eq, beq_iff_eq] at hw
   refine roundtrip_of hw0 rfl ?_ ?_ rfl rfl
   · simp [Fields.fits, Hdr.fields, Fields.dab, Fields.dabc, Fields.da, Fields.ab, Fields.abc, Fields.inA, Fields.inD, Fields.withMem, Fields.withMemD, Fields.withE, hw] <;> omega
   · simp [parse, parse4, Hdr.fields, Fields.hdr, Fields.imm, need, Fields.noA, Fields.noB, Fields.noC, Fields.noD, Fields.dab, Fields.dabc, Fields.da, Fields.ab, Fields.abc, Fields.inA, Fields.inD, Fields.withMem, Fields.withMemD, Fields.withE, hw])

theorem Laws.RoundTrip.tanh (h : Hdr) (d : Opnd) (a : Opnd) : Laws.RoundTrip.Statement (.tanh h d a) := by
  intro hw0
  have hw := hw0
  obtain ⟨g1, g2, ch, w, r, imm⟩ := h
  (simp only [WellFormed, Instr.formOk, Instr.operandsOk, Opnd.dst, Opnd.src, Opnd.szi, Opnd.sz, Opnd.si, Opnd.vs, Opnd.sOnly, Opnd.ok, numOk_split, Hdr.immIf, Hdr.immBelow, Hdr.hinted, Hdr.unguarded, Hdr.plain, Hdr.guards, PredOp.ok, Hdr.imm24, Bool.and_eq_true, decide_eq_true_eq, beq_iff_eq] at hw
   refine roundtrip_of hw0 rfl ?_ ?_ rfl rfl
   · simp [Fields.fits, Hdr.fields, Fields.dab, Fields.dabc, Fields.da, Fields.ab, Fields.abc, Fields.inA, Fields.inD, Fields.withMem, Fields.withMemD, Fields.withE, hw] <;> omega
   · simp [parse, parse4, Hdr.fields, Fields.hdr, Fields.imm, need, Fields.noA, Fields.noB, Fields.noC, Fields.noD, Fields.dab, Fields.dabc, Fields.da, Fields.ab, Fields.abc, Fields.inA, Fields.inD, Fields.withMem, Fields.withMemD, Fields.withE, hw])

theorem Laws.RoundTrip.fcvt (h : Hdr) (t : Ty) (src : CvtSrc) (d : Opnd) (a : Opnd) (b : Opnd) : Laws.RoundTrip.Statement (.fcvt h t src d a b) := by
  intro hw0
  have hw := hw0
  obtain ⟨g1, g2, ch, w, r, imm⟩ := h
  (simp only [WellFormed, Instr.formOk, Instr.operandsOk, Opnd.dst, Opnd.src, Opnd.szi, Opnd.sz, Opnd.si, Opnd.vs, Opnd.sOnly, Opnd.ok, numOk_split, Hdr.immIf, Hdr.immBelow, Hdr.hinted, Hdr.unguarded, Hdr.plain, Hdr.guards, PredOp.ok, Hdr.imm24, Bool.and_eq_true, decide_eq_true_eq, beq_iff_eq] at hw
   refine roundtrip_of hw0 rfl ?_ ?_ rfl rfl
   · simp [Fields.fits, Hdr.fields, Fields.dab, Fields.dabc, Fields.da, Fields.ab, Fields.abc, Fields.inA, Fields.inD, Fields.withMem, Fields.withMemD, Fields.withE, hw] <;> omega
   · simp [parse, parse4, Hdr.fields, Fields.hdr, Fields.imm, need, Fields.noA, Fields.noB, Fields.noC, Fields.noD, Fields.dab, Fields.dabc, Fields.da, Fields.ab, Fields.abc, Fields.inA, Fields.inD, Fields.withMem, Fields.withMemD, Fields.withE, hw])

theorem Laws.RoundTrip.i2f (h : Hdr) (t : Ty) (src : IntSrc) (d : Opnd) (a : Opnd) : Laws.RoundTrip.Statement (.i2f h t src d a) := by
  intro hw0
  have hw := hw0
  obtain ⟨g1, g2, ch, w, r, imm⟩ := h
  (simp only [WellFormed, Instr.formOk, Instr.operandsOk, Opnd.dst, Opnd.src, Opnd.szi, Opnd.sz, Opnd.si, Opnd.vs, Opnd.sOnly, Opnd.ok, numOk_split, Hdr.immIf, Hdr.immBelow, Hdr.hinted, Hdr.unguarded, Hdr.plain, Hdr.guards, PredOp.ok, Hdr.imm24, Bool.and_eq_true, decide_eq_true_eq, beq_iff_eq] at hw
   refine roundtrip_of hw0 rfl ?_ ?_ rfl rfl
   · simp [Fields.fits, Hdr.fields, Fields.dab, Fields.dabc, Fields.da, Fields.ab, Fields.abc, Fields.inA, Fields.inD, Fields.withMem, Fields.withMemD, Fields.withE, hw] <;> omega
   · simp [parse, parse4, Hdr.fields, Fields.hdr, Fields.imm, need, Fields.noA, Fields.noB, Fields.noC, Fields.noD, Fields.dab, Fields.dabc, Fields.da, Fields.ab, Fields.abc, Fields.inA, Fields.inD, Fields.withMem, Fields.withMemD, Fields.withE, hw])

theorem Laws.RoundTrip.f2i (h : Hdr) (t : Ty) (src : FltSrc) (d : Opnd) (a : Opnd) : Laws.RoundTrip.Statement (.f2i h t src d a) := by
  intro hw0
  have hw := hw0
  obtain ⟨g1, g2, ch, w, r, imm⟩ := h
  (simp only [WellFormed, Instr.formOk, Instr.operandsOk, Opnd.dst, Opnd.src, Opnd.szi, Opnd.sz, Opnd.si, Opnd.vs, Opnd.sOnly, Opnd.ok, numOk_split, Hdr.immIf, Hdr.immBelow, Hdr.hinted, Hdr.unguarded, Hdr.plain, Hdr.guards, PredOp.ok, Hdr.imm24, Bool.and_eq_true, decide_eq_true_eq, beq_iff_eq] at hw
   refine roundtrip_of hw0 rfl ?_ ?_ rfl rfl
   · simp [Fields.fits, Hdr.fields, Fields.dab, Fields.dabc, Fields.da, Fields.ab, Fields.abc, Fields.inA, Fields.inD, Fields.withMem, Fields.withMemD, Fields.withE, hw] <;> omega
   · simp [parse, parse4, Hdr.fields, Fields.hdr, Fields.imm, need, Fields.noA, Fields.noB, Fields.noC, Fields.noD, Fields.dab, Fields.dabc, Fields.da, Fields.ab, Fields.abc, Fields.inA, Fields.inD, Fields.withMem, Fields.withMemD, Fields.withE, hw])

theorem Laws.RoundTrip.cvtn (h : Hdr) (n : Nat) (d : Opnd) (a : Opnd) (b : Opnd) : Laws.RoundTrip.Statement (.cvtn h n d a b) := by
  intro hw0
  have hw := hw0
  obtain ⟨g1, g2, ch, w, r, imm⟩ := h
  (simp only [WellFormed, Instr.formOk, Instr.operandsOk, Opnd.dst, Opnd.src, Opnd.szi, Opnd.sz, Opnd.si, Opnd.vs, Opnd.sOnly, Opnd.ok, numOk_split, Hdr.immIf, Hdr.immBelow, Hdr.hinted, Hdr.unguarded, Hdr.plain, Hdr.guards, PredOp.ok, Hdr.imm24, Bool.and_eq_true, decide_eq_true_eq, beq_iff_eq] at hw
   refine roundtrip_of hw0 rfl ?_ ?_ rfl rfl
   · simp [Fields.fits, Hdr.fields, Fields.dab, Fields.dabc, Fields.da, Fields.ab, Fields.abc, Fields.inA, Fields.inD, Fields.withMem, Fields.withMemD, Fields.withE, hw] <;> omega
   · simp [parse, parse4, Hdr.fields, Fields.hdr, Fields.imm, need, Fields.noA, Fields.noB, Fields.noC, Fields.noD, Fields.dab, Fields.dabc, Fields.da, Fields.ab, Fields.abc, Fields.inA, Fields.inD, Fields.withMem, Fields.withMemD, Fields.withE, hw])

theorem Laws.RoundTrip.cvtw (h : Hdr) (n : Nat) (d : Opnd) (a : Opnd) (b : Opnd) : Laws.RoundTrip.Statement (.cvtw h n d a b) := by
  intro hw0
  have hw := hw0
  obtain ⟨g1, g2, ch, w, r, imm⟩ := h
  (simp only [WellFormed, Instr.formOk, Instr.operandsOk, Opnd.dst, Opnd.src, Opnd.szi, Opnd.sz, Opnd.si, Opnd.vs, Opnd.sOnly, Opnd.ok, numOk_split, Hdr.immIf, Hdr.immBelow, Hdr.hinted, Hdr.unguarded, Hdr.plain, Hdr.guards, PredOp.ok, Hdr.imm24, Bool.and_eq_true, decide_eq_true_eq, beq_iff_eq] at hw
   refine roundtrip_of hw0 rfl ?_ ?_ rfl rfl
   · simp [Fields.fits, Hdr.fields, Fields.dab, Fields.dabc, Fields.da, Fields.ab, Fields.abc, Fields.inA, Fields.inD, Fields.withMem, Fields.withMemD, Fields.withE, hw] <;> omega
   · simp [parse, parse4, Hdr.fields, Fields.hdr, Fields.imm, need, Fields.noA, Fields.noB, Fields.noC, Fields.noD, Fields.dab, Fields.dabc, Fields.da, Fields.ab, Fields.abc, Fields.inA, Fields.inD, Fields.withMem, Fields.withMemD, Fields.withE, hw])

theorem Laws.RoundTrip.spcomp (h : Hdr) (t : Ty) (n : Nat) (d : Opnd) (a : Opnd) (b : Opnd) : Laws.RoundTrip.Statement (.spcomp h t n d a b) := by
  intro hw0
  have hw := hw0
  have hm : d.inRange = true ∧ n < 16 := by
    simp only [WellFormed, Instr.formOk, Instr.operandsOk, Bool.and_eq_true] at hw
    exact ⟨sp_range hw.2.1.1.1, spcomp_n hw.1.1⟩
  obtain ⟨g1, g2, ch, w, r, imm⟩ := h
  (simp only [WellFormed, Instr.formOk, Instr.operandsOk, Opnd.dst, Opnd.src, Opnd.szi, Opnd.sz, Opnd.si, Opnd.vs, Opnd.sOnly, Opnd.ok, numOk_split, Hdr.immIf, Hdr.immBelow, Hdr.hinted, Hdr.unguarded, Hdr.plain, Hdr.guards, PredOp.ok, Hdr.imm24, Bool.and_eq_true, decide_eq_true_eq, beq_iff_eq] at hw
   refine roundtrip_of hw0 rfl ?_ ?_ rfl rfl
   · simp [Fields.fits, Hdr.fields, Fields.dab, Fields.dabc, Fields.da, Fields.ab, Fields.abc, Fields.inA, Fields.inD, Fields.withMem, Fields.withMemD, Fields.withE, hw, hm] <;> omega
   · simp [parse, parse4, Hdr.fields, Fields.hdr, Fields.imm, need, Fields.noA, Fields.noB, Fields.noC, Fields.noD, Fields.dab, Fields.dabc, Fields.da, Fields.ab, Fields.abc, Fields.inA, Fields.inD, Fields.withMem, Fields.withMemD, Fields.withE, hw, hm])

theorem Laws.RoundTrip.spexp (h : Hdr) (t : Ty) (d : Opnd) (a : Opnd) (b : Opnd) : Laws.RoundTrip.Statement (.spexp h t d a b) := by
  intro hw0
  have hw := hw0
  have hm : d.inRange = true := by
    simp only [WellFormed, Instr.formOk, Instr.operandsOk, Bool.and_eq_true] at hw
    exact sp_range hw.2.1.1.1
  obtain ⟨g1, g2, ch, w, r, imm⟩ := h
  (simp only [WellFormed, Instr.formOk, Instr.operandsOk, Opnd.dst, Opnd.src, Opnd.szi, Opnd.sz, Opnd.si, Opnd.vs, Opnd.sOnly, Opnd.ok, numOk_split, Hdr.immIf, Hdr.immBelow, Hdr.hinted, Hdr.unguarded, Hdr.plain, Hdr.guards, PredOp.ok, Hdr.imm24, Bool.and_eq_true, decide_eq_true_eq, beq_iff_eq] at hw
   refine roundtrip_of hw0 rfl ?_ ?_ rfl rfl
   · simp [Fields.fits, Hdr.fields, Fields.dab, Fields.dabc, Fields.da, Fields.ab, Fields.abc, Fields.inA, Fields.inD, Fields.withMem, Fields.withMemD, Fields.withE, hw, hm] <;> omega
   · simp [parse, parse4, Hdr.fields, Fields.hdr, Fields.imm, need, Fields.noA, Fields.noB, Fields.noC, Fields.noD, Fields.dab, Fields.dabc, Fields.da, Fields.ab, Fields.abc, Fields.inA, Fields.inD, Fields.withMem, Fields.withMemD, Fields.withE, hw, hm])

theorem Laws.RoundTrip.mov (h : Hdr) (t : Ty) (d : Opnd) (a : Opnd) : Laws.RoundTrip.Statement (.mov h t d a) := by
  intro hw0
  have hw := hw0
  obtain ⟨g1, g2, ch, w, r, imm⟩ := h
  (simp only [WellFormed, Instr.formOk, Instr.operandsOk, Opnd.dst, Opnd.src, Opnd.szi, Opnd.sz, Opnd.si, Opnd.vs, Opnd.sOnly, Opnd.ok, numOk_split, Hdr.immIf, Hdr.immBelow, Hdr.hinted, Hdr.unguarded, Hdr.plain, Hdr.guards, PredOp.ok, Hdr.imm24, Bool.and_eq_true, decide_eq_true_eq, beq_iff_eq] at hw
   refine roundtrip_of hw0 rfl ?_ ?_ rfl rfl
   · simp [Fields.fits, Hdr.fields, Fields.dab, Fields.dabc, Fields.da, Fields.ab, Fields.abc, Fields.inA, Fields.inD, Fields.withMem, Fields.withMemD, Fields.withE, hw] <;> omega
   · simp [parse, parse5, Hdr.fields, Fields.hdr, Fields.imm, need, Fields.noA, Fields.noB, Fields.noC, Fields.noD, Fields.dab, Fields.dabc, Fields.da, Fields.ab, Fields.abc, Fields.inA, Fields.inD, Fields.withMem, Fields.withMemD, Fields.withE, hw])

theorem Laws.RoundTrip.movi (h : Hdr) (t : Ty) (d : Opnd) : Laws.RoundTrip.Statement (.movi h t d) := by
  intro hw0
  have hw := hw0
  obtain ⟨g1, g2, ch, w, r, imm⟩ := h
  (simp only [WellFormed, Instr.formOk, Instr.operandsOk, Opnd.dst, Opnd.src, Opnd.szi, Opnd.sz, Opnd.si, Opnd.vs, Opnd.sOnly, Opnd.ok, numOk_split, Hdr.immIf, Hdr.immBelow, Hdr.hinted, Hdr.unguarded, Hdr.plain, Hdr.guards, PredOp.ok, Hdr.imm24, Bool.and_eq_true, decide_eq_true_eq, beq_iff_eq] at hw
   refine roundtrip_of hw0 rfl ?_ ?_ rfl rfl
   · simp [Fields.fits, Hdr.fields, Fields.dab, Fields.dabc, Fields.da, Fields.ab, Fields.abc, Fields.inA, Fields.inD, Fields.withMem, Fields.withMemD, Fields.withE, hw] <;> omega
   · simp [parse, parse5, Hdr.fields, Fields.hdr, Fields.imm, need, Fields.noA, Fields.noB, Fields.noC, Fields.noD, Fields.dab, Fields.dabc, Fields.da, Fields.ab, Fields.abc, Fields.inA, Fields.inD, Fields.withMem, Fields.withMemD, Fields.withE, hw])

theorem Laws.RoundTrip.movih (h : Hdr) (d : Opnd) : Laws.RoundTrip.Statement (.movih h d) := by
  intro hw0
  have hw := hw0
  obtain ⟨g1, g2, ch, w, r, imm⟩ := h
  (simp only [WellFormed, Instr.formOk, Instr.operandsOk, Opnd.dst, Opnd.src, Opnd.szi, Opnd.sz, Opnd.si, Opnd.vs, Opnd.sOnly, Opnd.ok, numOk_split, Hdr.immIf, Hdr.immBelow, Hdr.hinted, Hdr.unguarded, Hdr.plain, Hdr.guards, PredOp.ok, Hdr.imm24, Bool.and_eq_true, decide_eq_true_eq, beq_iff_eq] at hw
   refine roundtrip_of hw0 rfl ?_ ?_ rfl rfl
   · simp [Fields.fits, Hdr.fields, Fields.dab, Fields.dabc, Fields.da, Fields.ab, Fields.abc, Fields.inA, Fields.inD, Fields.withMem, Fields.withMemD, Fields.withE, hw] <;> omega
   · simp [parse, parse5, Hdr.fields, Fields.hdr, Fields.imm, need, Fields.noA, Fields.noB, Fields.noC, Fields.noD, Fields.dab, Fields.dabc, Fields.da, Fields.ab, Fields.abc, Fields.inA, Fields.inD, Fields.withMem, Fields.withMemD, Fields.withE, hw])

theorem Laws.RoundTrip.rdsr (h : Hdr) (t : Ty) (d : Opnd) : Laws.RoundTrip.Statement (.rdsr h t d) := by
  intro hw0
  have hw := hw0
  obtain ⟨g1, g2, ch, w, r, imm⟩ := h
  (simp only [WellFormed, Instr.formOk, Instr.operandsOk, Opnd.dst, Opnd.src, Opnd.szi, Opnd.sz, Opnd.si, Opnd.vs, Opnd.sOnly, Opnd.ok, numOk_split, Hdr.immIf, Hdr.immBelow, Hdr.hinted, Hdr.unguarded, Hdr.plain, Hdr.guards, PredOp.ok, Hdr.imm24, Bool.and_eq_true, decide_eq_true_eq, beq_iff_eq] at hw
   refine roundtrip_of hw0 rfl ?_ ?_ rfl rfl
   · simp [Fields.fits, Hdr.fields, Fields.dab, Fields.dabc, Fields.da, Fields.ab, Fields.abc, Fields.inA, Fields.inD, Fields.withMem, Fields.withMemD, Fields.withE, hw] <;> omega
   · simp [parse, parse5, Hdr.fields, Fields.hdr, Fields.imm, need, Fields.noA, Fields.noB, Fields.noC, Fields.noD, Fields.dab, Fields.dabc, Fields.da, Fields.ab, Fields.abc, Fields.inA, Fields.inD, Fields.withMem, Fields.withMemD, Fields.withE, hw])

theorem Laws.RoundTrip.wrsr (h : Hdr) (t : Ty) (a : Opnd) : Laws.RoundTrip.Statement (.wrsr h t a) := by
  intro hw0
  have hw := hw0
  obtain ⟨g1, g2, ch, w, r, imm⟩ := h
  (simp only [WellFormed, Instr.formOk, Instr.operandsOk, Opnd.dst, Opnd.src, Opnd.szi, Opnd.sz, Opnd.si, Opnd.vs, Opnd.sOnly, Opnd.ok, numOk_split, Hdr.immIf, Hdr.immBelow, Hdr.hinted, Hdr.unguarded, Hdr.plain, Hdr.guards, PredOp.ok, Hdr.imm24, Bool.and_eq_true, decide_eq_true_eq, beq_iff_eq] at hw
   refine roundtrip_of hw0 rfl ?_ ?_ rfl rfl
   · simp [Fields.fits, Hdr.fields, Fields.dab, Fields.dabc, Fields.da, Fields.ab, Fields.abc, Fields.inA, Fields.inD, Fields.withMem, Fields.withMemD, Fields.withE, hw] <;> omega
   · simp [parse, parse5, Hdr.fields, Fields.hdr, Fields.imm, need, Fields.noA, Fields.noB, Fields.noC, Fields.noD, Fields.dab, Fields.dabc, Fields.da, Fields.ab, Fields.abc, Fields.inA, Fields.inD, Fields.withMem, Fields.withMemD, Fields.withE, hw, parseWrsr_wrsr])

theorem Laws.RoundTrip.pmix (h : Hdr) (pd : PredOp) (a : PredOp) (b : PredOp) (c : PredOp) : Laws.RoundTrip.Statement (.pmix h pd a b c) := by
  intro hw0
  have hw := hw0
  obtain ⟨g1, g2, ch, w, r, imm⟩ := h
  (simp only [WellFormed, Instr.formOk, Instr.operandsOk, Opnd.dst, Opnd.src, Opnd.szi, Opnd.sz, Opnd.si, Opnd.vs, Opnd.sOnly, Opnd.ok, numOk_split, Hdr.immIf, Hdr.immBelow, Hdr.hinted, Hdr.unguarded, Hdr.plain, Hdr.guards, PredOp.ok, Hdr.imm24, Bool.and_eq_true, decide_eq_true_eq, beq_iff_eq] at hw
   refine roundtrip_of hw0 rfl ?_ ?_ rfl rfl
   · simp [Fields.fits, Hdr.fields, Fields.dab, Fields.dabc, Fields.da, Fields.ab, Fields.abc, Fields.inA, Fields.inD, Fields.withMem, Fields.withMemD, Fields.withE, hw] <;> omega
   · simp [parse, parse5, Hdr.fields, Fields.hdr, Fields.imm, need, Fields.noA, Fields.noB, Fields.noC, Fields.noD, Fields.dab, Fields.dabc, Fields.da, Fields.ab, Fields.abc, Fields.inA, Fields.inD, Fields.withMem, Fields.withMemD, Fields.withE, hw])

theorem Laws.RoundTrip.psave (h : Hdr) (q : Bool) (d : Opnd) : Laws.RoundTrip.Statement (.psave h q d) := by
  intro hw0
  have hw := hw0
  have hm : d.inRange = true := by
    simp only [WellFormed, Instr.formOk, Instr.operandsOk, Bool.and_eq_true] at hw
    exact psave_range hw.2
  obtain ⟨g1, g2, ch, w, r, imm⟩ := h
  (simp only [WellFormed, Instr.formOk, Instr.operandsOk, Opnd.dst, Opnd.src, Opnd.szi, Opnd.sz, Opnd.si, Opnd.vs, Opnd.sOnly, Opnd.ok, numOk_split, Hdr.immIf, Hdr.immBelow, Hdr.hinted, Hdr.unguarded, Hdr.plain, Hdr.guards, PredOp.ok, Hdr.imm24, Bool.and_eq_true, decide_eq_true_eq, beq_iff_eq] at hw
   refine roundtrip_of hw0 rfl ?_ ?_ rfl rfl
   · simp [Fields.fits, Hdr.fields, Fields.dab, Fields.dabc, Fields.da, Fields.ab, Fields.abc, Fields.inA, Fields.inD, Fields.withMem, Fields.withMemD, Fields.withE, hw, hm] <;> omega
   · simp [parse, parse5, Hdr.fields, Fields.hdr, Fields.imm, need, Fields.noA, Fields.noB, Fields.noC, Fields.noD, Fields.dab, Fields.dabc, Fields.da, Fields.ab, Fields.abc, Fields.inA, Fields.inD, Fields.withMem, Fields.withMemD, Fields.withE, hw, hm])

theorem Laws.RoundTrip.pload (h : Hdr) (q : Bool) (a : Opnd) : Laws.RoundTrip.Statement (.pload h q a) := by
  intro hw0
  have hw := hw0
  have hm : a.inRange = true := by
    simp only [WellFormed, Instr.formOk, Instr.operandsOk, Bool.and_eq_true] at hw
    exact pload_range hw.2
  obtain ⟨g1, g2, ch, w, r, imm⟩ := h
  (simp only [WellFormed, Instr.formOk, Instr.operandsOk, Opnd.dst, Opnd.src, Opnd.szi, Opnd.sz, Opnd.si, Opnd.vs, Opnd.sOnly, Opnd.ok, numOk_split, Hdr.immIf, Hdr.immBelow, Hdr.hinted, Hdr.unguarded, Hdr.plain, Hdr.guards, PredOp.ok, Hdr.imm24, Bool.and_eq_true, decide_eq_true_eq, beq_iff_eq] at hw
   refine roundtrip_of hw0 rfl ?_ ?_ rfl rfl
   · simp [Fields.fits, Hdr.fields, Fields.dab, Fields.dabc, Fields.da, Fields.ab, Fields.abc, Fields.inA, Fields.inD, Fields.withMem, Fields.withMemD, Fields.withE, hw, hm] <;> omega
   · simp [parse, parse5, Hdr.fields, Fields.hdr, Fields.imm, need, Fields.noA, Fields.noB, Fields.noC, Fields.noD, Fields.dab, Fields.dabc, Fields.da, Fields.ab, Fields.abc, Fields.inA, Fields.inD, Fields.withMem, Fields.withMemD, Fields.withE, hw, hm])

theorem Laws.RoundTrip.flgrd (h : Hdr) (d : Opnd) : Laws.RoundTrip.Statement (.flgrd h d) := by
  intro hw0
  have hw := hw0
  obtain ⟨g1, g2, ch, w, r, imm⟩ := h
  (simp only [WellFormed, Instr.formOk, Instr.operandsOk, Opnd.dst, Opnd.src, Opnd.szi, Opnd.sz, Opnd.si, Opnd.vs, Opnd.sOnly, Opnd.ok, numOk_split, Hdr.immIf, Hdr.immBelow, Hdr.hinted, Hdr.unguarded, Hdr.plain, Hdr.guards, PredOp.ok, Hdr.imm24, Bool.and_eq_true, decide_eq_true_eq, beq_iff_eq] at hw
   refine roundtrip_of hw0 rfl ?_ ?_ rfl rfl
   · simp [Fields.fits, Hdr.fields, Fields.dab, Fields.dabc, Fields.da, Fields.ab, Fields.abc, Fields.inA, Fields.inD, Fields.withMem, Fields.withMemD, Fields.withE, hw] <;> omega
   · simp [parse, parse5, Hdr.fields, Fields.hdr, Fields.imm, need, Fields.noA, Fields.noB, Fields.noC, Fields.noD, Fields.dab, Fields.dabc, Fields.da, Fields.ab, Fields.abc, Fields.inA, Fields.inD, Fields.withMem, Fields.withMemD, Fields.withE, hw])

theorem Laws.RoundTrip.flgclr (h : Hdr) : Laws.RoundTrip.Statement (.flgclr h) := by
  intro hw0
  have hw := hw0
  obtain ⟨g1, g2, ch, w, r, imm⟩ := h
  (simp only [WellFormed, Instr.formOk, Instr.operandsOk, Opnd.dst, Opnd.src, Opnd.szi, Opnd.sz, Opnd.si, Opnd.vs, Opnd.sOnly, Opnd.ok, numOk_split, Hdr.immIf, Hdr.immBelow, Hdr.hinted, Hdr.unguarded, Hdr.plain, Hdr.guards, PredOp.ok, Hdr.imm24, Bool.and_eq_true, decide_eq_true_eq, beq_iff_eq] at hw
   refine roundtrip_of hw0 rfl ?_ ?_ rfl rfl
   · simp [Fields.fits, Hdr.fields, Fields.dab, Fields.dabc, Fields.da, Fields.ab, Fields.abc, Fields.inA, Fields.inD, Fields.withMem, Fields.withMemD, Fields.withE, hw] <;> omega
   · simp [parse, parse5, Hdr.fields, Fields.hdr, Fields.imm, need, Fields.noA, Fields.noB, Fields.noC, Fields.noD, Fields.dab, Fields.dabc, Fields.da, Fields.ab, Fields.abc, Fields.inA, Fields.inD, Fields.withMem, Fields.withMemD, Fields.withE, hw])

theorem Laws.RoundTrip.v2s (h : Hdr) (t : Ty) (d : Opnd) (a : Opnd) (b : Opnd) : Laws.RoundTrip.Statement (.v2s h t d a b) := by
  intro hw0
  have hw := hw0
  obtain ⟨g1, g2, ch, w, r, imm⟩ := h
  (simp only [WellFormed, Instr.formOk, Instr.operandsOk, Opnd.dst, Opnd.src, Opnd.szi, Opnd.sz, Opnd.si, Opnd.vs, Opnd.sOnly, Opnd.ok, numOk_split, Hdr.immIf, Hdr.immBelow, Hdr.hinted, Hdr.unguarded, Hdr.plain, Hdr.guards, PredOp.ok, Hdr.imm24, Bool.and_eq_true, decide_eq_true_eq, beq_iff_eq] at hw
   refine roundtrip_of hw0 rfl ?_ ?_ rfl rfl
   · simp [Fields.fits, Hdr.fields, Fields.dab, Fields.dabc, Fields.da, Fields.ab, Fields.abc, Fields.inA, Fields.inD, Fields.withMem, Fields.withMemD, Fields.withE, hw] <;> omega
   · simp [parse, parse5, Hdr.fields, Fields.hdr, Fields.imm, need, Fields.noA, Fields.noB, Fields.noC, Fields.noD, Fields.dab, Fields.dabc, Fields.da, Fields.ab, Fields.abc, Fields.inA, Fields.inD, Fields.withMem, Fields.withMemD, Fields.withE, hw])

theorem Laws.RoundTrip.lxch (h : Hdr) (mode : LxMode) (t : Ty) (d : Opnd) (a : Opnd) (b : Opnd) : Laws.RoundTrip.Statement (.lxch h mode t d a b) := by
  intro hw0
  have hw := hw0
  obtain ⟨g1, g2, ch, w, r, imm⟩ := h
  (simp only [WellFormed, Instr.formOk, Instr.operandsOk, Opnd.dst, Opnd.src, Opnd.szi, Opnd.sz, Opnd.si, Opnd.vs, Opnd.sOnly, Opnd.ok, numOk_split, Hdr.immIf, Hdr.immBelow, Hdr.hinted, Hdr.unguarded, Hdr.plain, Hdr.guards, PredOp.ok, Hdr.imm24, Bool.and_eq_true, decide_eq_true_eq, beq_iff_eq] at hw
   refine roundtrip_of hw0 rfl ?_ ?_ rfl rfl
   · simp [Fields.fits, Hdr.fields, Fields.dab, Fields.dabc, Fields.da, Fields.ab, Fields.abc, Fields.inA, Fields.inD, Fields.withMem, Fields.withMemD, Fields.withE, hw] <;> omega
   · simp [parse, parse6, Hdr.fields, Fields.hdr, Fields.imm, need, Fields.noA, Fields.noB, Fields.noC, Fields.noD, Fields.dab, Fields.dabc, Fields.da, Fields.ab, Fields.abc, Fields.inA, Fields.inD, Fields.withMem, Fields.withMemD, Fields.withE, hw])

theorem Laws.RoundTrip.vote (h : Hdr) (op : VoteOp) (a : PredOp) : Laws.RoundTrip.Statement (.vote h op a) := by
  intro hw0
  have hw := hw0
  obtain ⟨g1, g2, ch, w, r, imm⟩ := h
  cases op <;>
  (simp only [WellFormed, Instr.formOk, Instr.operandsOk, Opnd.dst, Opnd.src, Opnd.szi, Opnd.sz, Opnd.si, Opnd.vs, Opnd.sOnly, Opnd.ok, numOk_split, Hdr.immIf, Hdr.immBelow, Hdr.hinted, Hdr.unguarded, Hdr.plain, Hdr.guards, PredOp.ok, Hdr.imm24, Bool.and_eq_true, decide_eq_true_eq, beq_iff_eq] at hw
   refine roundtrip_of hw0 rfl ?_ ?_ rfl rfl
   · simp [Fields.fits, Hdr.fields, Fields.dab, Fields.dabc, Fields.da, Fields.ab, Fields.abc, Fields.inA, Fields.inD, Fields.withMem, Fields.withMemD, Fields.withE, hw] <;> omega
   · simp [parse, parse6, Hdr.fields, Fields.hdr, Fields.imm, need, Fields.noA, Fields.noB, Fields.noC, Fields.noD, Fields.dab, Fields.dabc, Fields.da, Fields.ab, Fields.abc, Fields.inA, Fields.inD, Fields.withMem, Fields.withMemD, Fields.withE, hw])

theorem Laws.RoundTrip.redux (h : Hdr) (op : RedOp) (t : Ty) (d : Opnd) (a : Opnd) : Laws.RoundTrip.Statement (.redux h op t d a) := by
  intro hw0
  have hw := hw0
  obtain ⟨g1, g2, ch, w, r, imm⟩ := h
  (simp only [WellFormed, Instr.formOk, Instr.operandsOk, Opnd.dst, Opnd.src, Opnd.szi, Opnd.sz, Opnd.si, Opnd.vs, Opnd.sOnly, Opnd.ok, numOk_split, Hdr.immIf, Hdr.immBelow, Hdr.hinted, Hdr.unguarded, Hdr.plain, Hdr.guards, PredOp.ok, Hdr.imm24, Bool.and_eq_true, decide_eq_true_eq, beq_iff_eq] at hw
   refine roundtrip_of hw0 rfl ?_ ?_ rfl rfl
   · simp [Fields.fits, Hdr.fields, Fields.dab, Fields.dabc, Fields.da, Fields.ab, Fields.abc, Fields.inA, Fields.inD, Fields.withMem, Fields.withMemD, Fields.withE, hw] <;> omega
   · simp [parse, parse6, Hdr.fields, Fields.hdr, Fields.imm, need, Fields.noA, Fields.noB, Fields.noC, Fields.noD, Fields.dab, Fields.dabc, Fields.da, Fields.ab, Fields.abc, Fields.inA, Fields.inD, Fields.withMem, Fields.withMemD, Fields.withE, hw])

theorem Laws.RoundTrip.scan (h : Hdr) (op : RedOp) (excl : Bool) (t : Ty) (d : Opnd) (a : Opnd) : Laws.RoundTrip.Statement (.scan h op excl t d a) := by
  intro hw0
  have hw := hw0
  obtain ⟨g1, g2, ch, w, r, imm⟩ := h
  cases excl <;>
  (simp only [WellFormed, Instr.formOk, Instr.operandsOk, Opnd.dst, Opnd.src, Opnd.szi, Opnd.sz, Opnd.si, Opnd.vs, Opnd.sOnly, Opnd.ok, numOk_split, Hdr.immIf, Hdr.immBelow, Hdr.hinted, Hdr.unguarded, Hdr.plain, Hdr.guards, PredOp.ok, Hdr.imm24, Bool.and_eq_true, decide_eq_true_eq, beq_iff_eq] at hw
   refine roundtrip_of hw0 rfl ?_ ?_ rfl rfl
   · simp [Fields.fits, Hdr.fields, Fields.dab, Fields.dabc, Fields.da, Fields.ab, Fields.abc, Fields.inA, Fields.inD, Fields.withMem, Fields.withMemD, Fields.withE, hw] <;> omega
   · simp [parse, parse6, Hdr.fields, Fields.hdr, Fields.imm, need, Fields.noA, Fields.noB, Fields.noC, Fields.noD, Fields.dab, Fields.dabc, Fields.da, Fields.ab, Fields.abc, Fields.inA, Fields.inD, Fields.withMem, Fields.withMemD, Fields.withE, hw])

theorem Laws.RoundTrip.matchLanes (h : Hdr) (same : Bool) (t : Ty) (d : Opnd) (a : Opnd) : Laws.RoundTrip.Statement (.matchLanes h same t d a) := by
  intro hw0
  have hw := hw0
  obtain ⟨g1, g2, ch, w, r, imm⟩ := h
  (simp only [WellFormed, Instr.formOk, Instr.operandsOk, Opnd.dst, Opnd.src, Opnd.szi, Opnd.sz, Opnd.si, Opnd.vs, Opnd.sOnly, Opnd.ok, numOk_split, Hdr.immIf, Hdr.immBelow, Hdr.hinted, Hdr.unguarded, Hdr.plain, Hdr.guards, PredOp.ok, Hdr.imm24, Bool.and_eq_true, decide_eq_true_eq, beq_iff_eq] at hw
   refine roundtrip_of hw0 rfl ?_ ?_ rfl rfl
   · simp [Fields.fits, Hdr.fields, Fields.dab, Fields.dabc, Fields.da, Fields.ab, Fields.abc, Fields.inA, Fields.inD, Fields.withMem, Fields.withMemD, Fields.withE, hw] <;> omega
   · simp [parse, parse6, Hdr.fields, Fields.hdr, Fields.imm, need, Fields.noA, Fields.noB, Fields.noC, Fields.noD, Fields.dab, Fields.dabc, Fields.da, Fields.ab, Fields.abc, Fields.inA, Fields.inD, Fields.withMem, Fields.withMemD, Fields.withE, hw])

theorem Laws.RoundTrip.lead (h : Hdr) (pd : PredOp) (a : PredOp) : Laws.RoundTrip.Statement (.lead h pd a) := by
  intro hw0
  have hw := hw0
  obtain ⟨g1, g2, ch, w, r, imm⟩ := h
  (simp only [WellFormed, Instr.formOk, Instr.operandsOk, Opnd.dst, Opnd.src, Opnd.szi, Opnd.sz, Opnd.si, Opnd.vs, Opnd.sOnly, Opnd.ok, numOk_split, Hdr.immIf, Hdr.immBelow, Hdr.hinted, Hdr.unguarded, Hdr.plain, Hdr.guards, PredOp.ok, Hdr.imm24, Bool.and_eq_true, decide_eq_true_eq, beq_iff_eq] at hw
   refine roundtrip_of hw0 rfl ?_ ?_ rfl rfl
   · simp [Fields.fits, Hdr.fields, Fields.dab, Fields.dabc, Fields.da, Fields.ab, Fields.abc, Fields.inA, Fields.inD, Fields.withMem, Fields.withMemD, Fields.withE, hw] <;> omega
   · simp [parse, parse6, Hdr.fields, Fields.hdr, Fields.imm, need, Fields.noA, Fields.noB, Fields.noC, Fields.noD, Fields.dab, Fields.dabc, Fields.da, Fields.ab, Fields.abc, Fields.inA, Fields.inD, Fields.withMem, Fields.withMemD, Fields.withE, hw])

theorem Laws.RoundTrip.ld (h : Hdr) (m : MemOp) (sz : LdSize) (d : Opnd) : Laws.RoundTrip.Statement (.ld h m sz d) := by
  intro hw0
  have hw := hw0
  have hm : m.scale < 4 ∧ m.base.inRange = true ∧ m.index.inRange = true := by
    simp only [WellFormed, Instr.formOk, Instr.operandsOk, Bool.and_eq_true, and_assoc] at hw
    obtain ⟨_, hf, ho, _⟩ := hw
    exact ⟨MemOp.form_scale hf, MemOp.operands_range ho⟩
  obtain ⟨g1, g2, ch, w, r, imm⟩ := h
  (simp only [WellFormed, Instr.formOk, Instr.operandsOk, Opnd.dst, Opnd.src, Opnd.szi, Opnd.sz, Opnd.si, Opnd.vs, Opnd.sOnly, Opnd.ok, numOk_split, Hdr.immIf, Hdr.immBelow, Hdr.hinted, Hdr.unguarded, Hdr.plain, Hdr.guards, PredOp.ok, Hdr.imm24, Bool.and_eq_true, decide_eq_true_eq, beq_iff_eq] at hw
   refine roundtrip_of hw0 rfl ?_ ?_ rfl rfl
   · simp [Fields.fits, Hdr.fields, Fields.dab, Fields.dabc, Fields.da, Fields.ab, Fields.abc, Fields.inA, Fields.inD, Fields.withMem, Fields.withMemD, Fields.withE, hw, hm] <;> omega
   · simp [parse, parse7, Hdr.fields, Fields.hdr, Fields.imm, need, Fields.noA, Fields.noB, Fields.noC, Fields.noD, Fields.dab, Fields.dabc, Fields.da, Fields.ab, Fields.abc, Fields.inA, Fields.inD, Fields.withMem, Fields.withMemD, Fields.withE, hw, hm])

theorem Laws.RoundTrip.st (h : Hdr) (m : MemOp) (sz : LdSize) (d : Opnd) : Laws.RoundTrip.Statement (.st h m sz d) := by
  intro hw0
  have hw := hw0
  have hm : m.scale < 4 ∧ m.base.inRange = true ∧ m.index.inRange = true := by
    simp only [WellFormed, Instr.formOk, Instr.operandsOk, Bool.and_eq_true, and_assoc] at hw
    obtain ⟨_, hf, _, _, ho, _⟩ := hw
    exact ⟨MemOp.form_scale hf, MemOp.operands_range ho⟩
  obtain ⟨g1, g2, ch, w, r, imm⟩ := h
  (simp only [WellFormed, Instr.formOk, Instr.operandsOk, Opnd.dst, Opnd.src, Opnd.szi, Opnd.sz, Opnd.si, Opnd.vs, Opnd.sOnly, Opnd.ok, numOk_split, Hdr.immIf, Hdr.immBelow, Hdr.hinted, Hdr.unguarded, Hdr.plain, Hdr.guards, PredOp.ok, Hdr.imm24, Bool.and_eq_true, decide_eq_true_eq, beq_iff_eq] at hw
   refine roundtrip_of hw0 rfl ?_ ?_ rfl rfl
   · simp [Fields.fits, Hdr.fields, Fields.dab, Fields.dabc, Fields.da, Fields.ab, Fields.abc, Fields.inA, Fields.inD, Fields.withMem, Fields.withMemD, Fields.withE, hw, hm] <;> omega
   · simp [parse, parse7, Hdr.fields, Fields.hdr, Fields.imm, need, Fields.noA, Fields.noB, Fields.noC, Fields.noD, Fields.dab, Fields.dabc, Fields.da, Fields.ab, Fields.abc, Fields.inA, Fields.inD, Fields.withMem, Fields.withMemD, Fields.withE, hw, hm])

theorem Laws.RoundTrip.ldl (h : Hdr) (m : MemOp) (sp : LclSpace) (sz : LclSize) (sgn : Bool) (d : Opnd) : Laws.RoundTrip.Statement (.ldl h m sp sz sgn d) := by
  intro hw0
  have hw := hw0
  have hm : m.scale < 4 ∧ m.base.inRange = true ∧ m.index.inRange = true := by
    simp only [WellFormed, Instr.formOk, Instr.operandsOk, Bool.and_eq_true, and_assoc] at hw
    obtain ⟨_, hf, ho, _⟩ := hw
    exact ⟨MemOp.form_scale hf, MemOp.operands_range ho⟩
  obtain ⟨g1, g2, ch, w, r, imm⟩ := h
  cases sp <;>
  cases sz <;>
  cases sgn <;>
  (simp only [WellFormed, Instr.formOk, Instr.operandsOk, Opnd.dst, Opnd.src, Opnd.szi, Opnd.sz, Opnd.si, Opnd.vs, Opnd.sOnly, Opnd.ok, numOk_split, Hdr.immIf, Hdr.immBelow, Hdr.hinted, Hdr.unguarded, Hdr.plain, Hdr.guards, PredOp.ok, Hdr.imm24, Bool.and_eq_true, decide_eq_true_eq, beq_iff_eq] at hw
   refine roundtrip_of hw0 rfl ?_ ?_ rfl rfl
   · simp [Fields.fits, Hdr.fields, LclSpace.code, lclSpaceOf, LclSize.code, lclSizeOf, Fields.dab, Fields.dabc, Fields.da, Fields.ab, Fields.abc, Fields.inA, Fields.inD, Fields.withMem, Fields.withMemD, Fields.withE, hw, hm] <;> omega
   · simp [parse, parse7, Hdr.fields, Fields.hdr, Fields.imm, need, Fields.noA, Fields.noB, Fields.noC, Fields.noD, LclSpace.code, lclSpaceOf, LclSize.code, lclSizeOf, Fields.dab, Fields.dabc, Fields.da, Fields.ab, Fields.abc, Fields.inA, Fields.inD, Fields.withMem, Fields.withMemD, Fields.withE, hw, hm])

theorem Laws.RoundTrip.stl (h : Hdr) (m : MemOp) (sp : LclSpace) (sz : LclSize) (d : Opnd) : Laws.RoundTrip.Statement (.stl h m sp sz d) := by
  intro hw0
  have hw := hw0
  have hm : m.scale < 4 ∧ m.base.inRange = true ∧ m.index.inRange = true := by
    simp only [WellFormed, Instr.formOk, Instr.operandsOk, Bool.and_eq_true, and_assoc] at hw
    obtain ⟨_, hf, ho, _⟩ := hw
    exact ⟨MemOp.form_scale hf, MemOp.operands_range ho⟩
  obtain ⟨g1, g2, ch, w, r, imm⟩ := h
  cases sp <;>
  cases sz <;>
  (simp only [WellFormed, Instr.formOk, Instr.operandsOk, Opnd.dst, Opnd.src, Opnd.szi, Opnd.sz, Opnd.si, Opnd.vs, Opnd.sOnly, Opnd.ok, numOk_split, Hdr.immIf, Hdr.immBelow, Hdr.hinted, Hdr.unguarded, Hdr.plain, Hdr.guards, PredOp.ok, Hdr.imm24, Bool.and_eq_true, decide_eq_true_eq, beq_iff_eq] at hw
   refine roundtrip_of hw0 rfl ?_ ?_ rfl rfl
   · simp [Fields.fits, Hdr.fields, LclSpace.code, lclSpaceOf, LclSize.code, lclSizeOf, Fields.dab, Fields.dabc, Fields.da, Fields.ab, Fields.abc, Fields.inA, Fields.inD, Fields.withMem, Fields.withMemD, Fields.withE, hw, hm] <;> omega
   · simp [parse, parse7, Hdr.fields, Fields.hdr, Fields.imm, need, Fields.noA, Fields.noB, Fields.noC, Fields.noD, LclSpace.code, lclSpaceOf, LclSize.code, lclSizeOf, Fields.dab, Fields.dabc, Fields.da, Fields.ab, Fields.abc, Fields.inA, Fields.inD, Fields.withMem, Fields.withMemD, Fields.withE, hw, hm])

theorem Laws.RoundTrip.atom (h : Hdr) (m : MemOp) (op : AtomOp) (t : Ty) (d : Opnd) : Laws.RoundTrip.Statement (.atom h m op t d) := by
  intro hw0
  have hw := hw0
  have hm : m.scale < 4 ∧ m.base.inRange = true ∧ m.index.inRange = true := by
    simp only [WellFormed, Instr.formOk, Instr.operandsOk, Bool.and_eq_true, and_assoc] at hw
    obtain ⟨_, hf, _, ho, _⟩ := hw
    exact ⟨MemOp.form_scale hf, MemOp.operands_range ho⟩
  obtain ⟨g1, g2, ch, w, r, imm⟩ := h
  (simp only [WellFormed, Instr.formOk, Instr.operandsOk, Opnd.dst, Opnd.src, Opnd.szi, Opnd.sz, Opnd.si, Opnd.vs, Opnd.sOnly, Opnd.ok, numOk_split, Hdr.immIf, Hdr.immBelow, Hdr.hinted, Hdr.unguarded, Hdr.plain, Hdr.guards, PredOp.ok, Hdr.imm24, Bool.and_eq_true, decide_eq_true_eq, beq_iff_eq] at hw
   refine roundtrip_of hw0 rfl ?_ ?_ rfl rfl
   · simp [Fields.fits, Hdr.fields, Fields.dab, Fields.dabc, Fields.da, Fields.ab, Fields.abc, Fields.inA, Fields.inD, Fields.withMem, Fields.withMemD, Fields.withE, hw, hm] <;> omega
   · simp [parse, parse7, Hdr.fields, Fields.hdr, Fields.imm, need, Fields.noA, Fields.noB, Fields.noC, Fields.noD, Fields.dab, Fields.dabc, Fields.da, Fields.ab, Fields.abc, Fields.inA, Fields.inD, Fields.withMem, Fields.withMemD, Fields.withE, hw, hm])

theorem Laws.RoundTrip.red (h : Hdr) (m : MemOp) (op : AtomOp) (t : Ty) (d : Opnd) : Laws.RoundTrip.Statement (.red h m op t d) := by
  intro hw0
  have hw := hw0
  have hm : m.scale < 4 ∧ m.base.inRange = true ∧ m.index.inRange = true := by
    simp only [WellFormed, Instr.formOk, Instr.operandsOk, Bool.and_eq_true, and_assoc] at hw
    obtain ⟨_, hf, _, _, ho, _⟩ := hw
    exact ⟨MemOp.form_scale hf, MemOp.operands_range ho⟩
  obtain ⟨g1, g2, ch, w, r, imm⟩ := h
  (simp only [WellFormed, Instr.formOk, Instr.operandsOk, Opnd.dst, Opnd.src, Opnd.szi, Opnd.sz, Opnd.si, Opnd.vs, Opnd.sOnly, Opnd.ok, numOk_split, Hdr.immIf, Hdr.immBelow, Hdr.hinted, Hdr.unguarded, Hdr.plain, Hdr.guards, PredOp.ok, Hdr.imm24, Bool.and_eq_true, decide_eq_true_eq, beq_iff_eq] at hw
   refine roundtrip_of hw0 rfl ?_ ?_ rfl rfl
   · simp [Fields.fits, Hdr.fields, Fields.dab, Fields.dabc, Fields.da, Fields.ab, Fields.abc, Fields.inA, Fields.inD, Fields.withMem, Fields.withMemD, Fields.withE, hw, hm] <;> omega
   · simp [parse, parse7, Hdr.fields, Fields.hdr, Fields.imm, need, Fields.noA, Fields.noB, Fields.noC, Fields.noD, Fields.dab, Fields.dabc, Fields.da, Fields.ab, Fields.abc, Fields.inA, Fields.inD, Fields.withMem, Fields.withMemD, Fields.withE, hw, hm])

theorem Laws.RoundTrip.cas (h : Hdr) (m : MemOp) (t : Ty) (d : Opnd) (e : Opnd) : Laws.RoundTrip.Statement (.cas h m t d e) := by
  intro hw0
  have hw := hw0
  have hm : m.scale < 4 ∧ m.base.inRange = true ∧ m.index.inRange = true := by
    simp only [WellFormed, Instr.formOk, Instr.operandsOk, Bool.and_eq_true, and_assoc] at hw
    obtain ⟨_, hf, _, _, ho, _⟩ := hw
    exact ⟨MemOp.form_scale hf, MemOp.operands_range ho⟩
  obtain ⟨g1, g2, ch, w, r, imm⟩ := h
  (simp only [WellFormed, Instr.formOk, Instr.operandsOk, Opnd.dst, Opnd.src, Opnd.szi, Opnd.sz, Opnd.si, Opnd.vs, Opnd.sOnly, Opnd.ok, numOk_split, Hdr.immIf, Hdr.immBelow, Hdr.hinted, Hdr.unguarded, Hdr.plain, Hdr.guards, PredOp.ok, Hdr.imm24, Bool.and_eq_true, decide_eq_true_eq, beq_iff_eq] at hw
   refine roundtrip_of hw0 rfl ?_ ?_ rfl rfl
   · simp [Fields.fits, Hdr.fields, Fields.dab, Fields.dabc, Fields.da, Fields.ab, Fields.abc, Fields.inA, Fields.inD, Fields.withMem, Fields.withMemD, Fields.withE, hw, hm] <;> omega
   · simp [parse, parse7, Hdr.fields, Fields.hdr, Fields.imm, need, Fields.noA, Fields.noB, Fields.noC, Fields.noD, Fields.dab, Fields.dabc, Fields.da, Fields.ab, Fields.abc, Fields.inA, Fields.inD, Fields.withMem, Fields.withMemD, Fields.withE, hw, imm24_back, Fields.e, hm])

theorem Laws.RoundTrip.prefL2 (h : Hdr) (m : MemOp) : Laws.RoundTrip.Statement (.prefL2 h m) := by
  intro hw0
  have hw := hw0
  have hm : m.scale < 4 ∧ m.base.inRange = true ∧ m.index.inRange = true := by
    simp only [WellFormed, Instr.formOk, Instr.operandsOk, Bool.and_eq_true, and_assoc] at hw
    obtain ⟨_, hf, ho⟩ := hw
    exact ⟨MemOp.form_scale hf, MemOp.operands_range ho⟩
  obtain ⟨g1, g2, ch, w, r, imm⟩ := h
  (simp only [WellFormed, Instr.formOk, Instr.operandsOk, Opnd.dst, Opnd.src, Opnd.szi, Opnd.sz, Opnd.si, Opnd.vs, Opnd.sOnly, Opnd.ok, numOk_split, Hdr.immIf, Hdr.immBelow, Hdr.hinted, Hdr.unguarded, Hdr.plain, Hdr.guards, PredOp.ok, Hdr.imm24, Bool.and_eq_true, decide_eq_true_eq, beq_iff_eq] at hw
   refine roundtrip_of hw0 rfl ?_ ?_ rfl rfl
   · simp [Fields.fits, Hdr.fields, Fields.dab, Fields.dabc, Fields.da, Fields.ab, Fields.abc, Fields.inA, Fields.inD, Fields.withMem, Fields.withMemD, Fields.withE, hw, hm] <;> omega
   · simp [parse, parse7, Hdr.fields, Fields.hdr, Fields.imm, need, Fields.noA, Fields.noB, Fields.noC, Fields.noD, Fields.dab, Fields.dabc, Fields.da, Fields.ab, Fields.abc, Fields.inA, Fields.inD, Fields.withMem, Fields.withMemD, Fields.withE, hw, hm])

theorem Laws.RoundTrip.prefLlc (h : Hdr) (m : MemOp) : Laws.RoundTrip.Statement (.prefLlc h m) := by
  intro hw0
  have hw := hw0
  have hm : m.scale < 4 ∧ m.base.inRange = true ∧ m.index.inRange = true := by
    simp only [WellFormed, Instr.formOk, Instr.operandsOk, Bool.and_eq_true, and_assoc] at hw
    obtain ⟨_, hf, ho⟩ := hw
    exact ⟨MemOp.form_scale hf, MemOp.operands_range ho⟩
  obtain ⟨g1, g2, ch, w, r, imm⟩ := h
  (simp only [WellFormed, Instr.formOk, Instr.operandsOk, Opnd.dst, Opnd.src, Opnd.szi, Opnd.sz, Opnd.si, Opnd.vs, Opnd.sOnly, Opnd.ok, numOk_split, Hdr.immIf, Hdr.immBelow, Hdr.hinted, Hdr.unguarded, Hdr.plain, Hdr.guards, PredOp.ok, Hdr.imm24, Bool.and_eq_true, decide_eq_true_eq, beq_iff_eq] at hw
   refine roundtrip_of hw0 rfl ?_ ?_ rfl rfl
   · simp [Fields.fits, Hdr.fields, Fields.dab, Fields.dabc, Fields.da, Fields.ab, Fields.abc, Fields.inA, Fields.inD, Fields.withMem, Fields.withMemD, Fields.withE, hw, hm] <;> omega
   · simp [parse, parse7, Hdr.fields, Fields.hdr, Fields.imm, need, Fields.noA, Fields.noB, Fields.noC, Fields.noD, Fields.dab, Fields.dabc, Fields.da, Fields.ab, Fields.abc, Fields.inA, Fields.inD, Fields.withMem, Fields.withMemD, Fields.withE, hw, hm])

theorem Laws.RoundTrip.preq (h : Hdr) (m : MemOp) : Laws.RoundTrip.Statement (.preq h m) := by
  intro hw0
  have hw := hw0
  have hm : m.scale < 4 ∧ m.base.inRange = true ∧ m.index.inRange = true := by
    simp only [WellFormed, Instr.formOk, Instr.operandsOk, Bool.and_eq_true, and_assoc] at hw
    obtain ⟨_, hf, ho⟩ := hw
    exact ⟨MemOp.form_scale hf, MemOp.operands_range ho⟩
  obtain ⟨g1, g2, ch, w, r, imm⟩ := h
  (simp only [WellFormed, Instr.formOk, Instr.operandsOk, Opnd.dst, Opnd.src, Opnd.szi, Opnd.sz, Opnd.si, Opnd.vs, Opnd.sOnly, Opnd.ok, numOk_split, Hdr.immIf, Hdr.immBelow, Hdr.hinted, Hdr.unguarded, Hdr.plain, Hdr.guards, PredOp.ok, Hdr.imm24, Bool.and_eq_true, decide_eq_true_eq, beq_iff_eq] at hw
   refine roundtrip_of hw0 rfl ?_ ?_ rfl rfl
   · simp [Fields.fits, Hdr.fields, Fields.dab, Fields.dabc, Fields.da, Fields.ab, Fields.abc, Fields.inA, Fields.inD, Fields.withMem, Fields.withMemD, Fields.withE, hw, hm] <;> omega
   · simp [parse, parse7, Hdr.fields, Fields.hdr, Fields.imm, need, Fields.noA, Fields.noB, Fields.noC, Fields.noD, Fields.dab, Fields.dabc, Fields.da, Fields.ab, Fields.abc, Fields.inA, Fields.inD, Fields.withMem, Fields.withMemD, Fields.withE, hw, hm])

theorem Laws.RoundTrip.tex (h : Hdr) (d : Opnd) (a : Opnd) (b : Opnd) (c : Opnd) (e : Opnd) : Laws.RoundTrip.Statement (.tex h d a b c e) := by
  intro hw0
  have hw := hw0
  obtain ⟨g1, g2, ch, w, r, imm⟩ := h
  (simp only [WellFormed, Instr.formOk, Instr.operandsOk, Opnd.dst, Opnd.src, Opnd.szi, Opnd.sz, Opnd.si, Opnd.vs, Opnd.sOnly, Opnd.ok, numOk_split, Hdr.immIf, Hdr.immBelow, Hdr.hinted, Hdr.unguarded, Hdr.plain, Hdr.guards, PredOp.ok, Hdr.imm24, Bool.and_eq_true, decide_eq_true_eq, beq_iff_eq] at hw
   refine roundtrip_of hw0 rfl ?_ ?_ rfl rfl
   · simp [Fields.fits, Hdr.fields, Fields.dab, Fields.dabc, Fields.da, Fields.ab, Fields.abc, Fields.inA, Fields.inD, Fields.withMem, Fields.withMemD, Fields.withE, hw] <;> omega
   · simp [parse, parse7, Hdr.fields, Fields.hdr, Fields.imm, need, Fields.noA, Fields.noB, Fields.noC, Fields.noD, Fields.dab, Fields.dabc, Fields.da, Fields.ab, Fields.abc, Fields.inA, Fields.inD, Fields.withMem, Fields.withMemD, Fields.withE, hw, imm24_back, Fields.e])

theorem Laws.RoundTrip.tld (h : Hdr) (d : Opnd) (a : Opnd) (b : Opnd) : Laws.RoundTrip.Statement (.tld h d a b) := by
  intro hw0
  have hw := hw0
  obtain ⟨g1, g2, ch, w, r, imm⟩ := h
  (simp only [WellFormed, Instr.formOk, Instr.operandsOk, Opnd.dst, Opnd.src, Opnd.szi, Opnd.sz, Opnd.si, Opnd.vs, Opnd.sOnly, Opnd.ok, numOk_split, Hdr.immIf, Hdr.immBelow, Hdr.hinted, Hdr.unguarded, Hdr.plain, Hdr.guards, PredOp.ok, Hdr.imm24, Bool.and_eq_true, decide_eq_true_eq, beq_iff_eq] at hw
   refine roundtrip_of hw0 rfl ?_ ?_ rfl rfl
   · simp [Fields.fits, Hdr.fields, Fields.dab, Fields.dabc, Fields.da, Fields.ab, Fields.abc, Fields.inA, Fields.inD, Fields.withMem, Fields.withMemD, Fields.withE, hw] <;> omega
   · simp [parse, parse7, Hdr.fields, Fields.hdr, Fields.imm, need, Fields.noA, Fields.noB, Fields.noC, Fields.noD, Fields.dab, Fields.dabc, Fields.da, Fields.ab, Fields.abc, Fields.inA, Fields.inD, Fields.withMem, Fields.withMemD, Fields.withE, hw])

theorem Laws.RoundTrip.tqry (h : Hdr) (d : Opnd) (a : Opnd) : Laws.RoundTrip.Statement (.tqry h d a) := by
  intro hw0
  have hw := hw0
  obtain ⟨g1, g2, ch, w, r, imm⟩ := h
  (simp only [WellFormed, Instr.formOk, Instr.operandsOk, Opnd.dst, Opnd.src, Opnd.szi, Opnd.sz, Opnd.si, Opnd.vs, Opnd.sOnly, Opnd.ok, numOk_split, Hdr.immIf, Hdr.immBelow, Hdr.hinted, Hdr.unguarded, Hdr.plain, Hdr.guards, PredOp.ok, Hdr.imm24, Bool.and_eq_true, decide_eq_true_eq, beq_iff_eq] at hw
   refine roundtrip_of hw0 rfl ?_ ?_ rfl rfl
   · simp [Fields.fits, Hdr.fields, Fields.dab, Fields.dabc, Fields.da, Fields.ab, Fields.abc, Fields.inA, Fields.inD, Fields.withMem, Fields.withMemD, Fields.withE, hw] <;> omega
   · simp [parse, parse7, Hdr.fields, Fields.hdr, Fields.imm, need, Fields.noA, Fields.noB, Fields.noC, Fields.noD, Fields.dab, Fields.dabc, Fields.da, Fields.ab, Fields.abc, Fields.inA, Fields.inD, Fields.withMem, Fields.withMemD, Fields.withE, hw])

theorem Laws.RoundTrip.nmred (h : Hdr) (m : MemOp) (op : AtomOp) (t : Ty) (d : Opnd) : Laws.RoundTrip.Statement (.nmred h m op t d) := by
  intro hw0
  have hw := hw0
  have hm : m.scale < 4 ∧ m.base.inRange = true ∧ m.index.inRange = true := by
    simp only [WellFormed, Instr.formOk, Instr.operandsOk, Bool.and_eq_true, and_assoc] at hw
    obtain ⟨_, hf, _, _, ho, _⟩ := hw
    exact ⟨MemOp.form_scale hf, MemOp.operands_range ho⟩
  obtain ⟨g1, g2, ch, w, r, imm⟩ := h
  (simp only [WellFormed, Instr.formOk, Instr.operandsOk, Opnd.dst, Opnd.src, Opnd.szi, Opnd.sz, Opnd.si, Opnd.vs, Opnd.sOnly, Opnd.ok, numOk_split, Hdr.immIf, Hdr.immBelow, Hdr.hinted, Hdr.unguarded, Hdr.plain, Hdr.guards, PredOp.ok, Hdr.imm24, Bool.and_eq_true, decide_eq_true_eq, beq_iff_eq] at hw
   refine roundtrip_of hw0 rfl ?_ ?_ rfl rfl
   · simp [Fields.fits, Hdr.fields, Fields.dab, Fields.dabc, Fields.da, Fields.ab, Fields.abc, Fields.inA, Fields.inD, Fields.withMem, Fields.withMemD, Fields.withE, hw, hm] <;> omega
   · simp [parse, parse7, Hdr.fields, Fields.hdr, Fields.imm, need, Fields.noA, Fields.noB, Fields.noC, Fields.noD, Fields.dab, Fields.dabc, Fields.da, Fields.ab, Fields.abc, Fields.inA, Fields.inD, Fields.withMem, Fields.withMemD, Fields.withE, hw, hm])

theorem Laws.RoundTrip.cctlIinv (h : Hdr) : Laws.RoundTrip.Statement (.cctlIinv h) := by
  intro hw0
  have hw := hw0
  obtain ⟨g1, g2, ch, w, r, imm⟩ := h
  (simp only [WellFormed, Instr.formOk, Instr.operandsOk, Opnd.dst, Opnd.src, Opnd.szi, Opnd.sz, Opnd.si, Opnd.vs, Opnd.sOnly, Opnd.ok, numOk_split, Hdr.immIf, Hdr.immBelow, Hdr.hinted, Hdr.unguarded, Hdr.plain, Hdr.guards, PredOp.ok, Hdr.imm24, Bool.and_eq_true, decide_eq_true_eq, beq_iff_eq] at hw
   refine roundtrip_of hw0 rfl ?_ ?_ rfl rfl
   · simp [Fields.fits, Hdr.fields, Fields.dab, Fields.dabc, Fields.da, Fields.ab, Fields.abc, Fields.inA, Fields.inD, Fields.withMem, Fields.withMemD, Fields.withE, hw] <;> omega
   · simp [parse, parse7, Hdr.fields, Fields.hdr, Fields.imm, need, Fields.noA, Fields.noB, Fields.noC, Fields.noD, Fields.dab, Fields.dabc, Fields.da, Fields.ab, Fields.abc, Fields.inA, Fields.inD, Fields.withMem, Fields.withMemD, Fields.withE, hw])

theorem Laws.RoundTrip.cctlWb (h : Hdr) (m : MemOp) : Laws.RoundTrip.Statement (.cctlWb h m) := by
  intro hw0
  have hw := hw0
  have hm : m.scale < 4 ∧ m.base.inRange = true ∧ m.index.inRange = true := by
    simp only [WellFormed, Instr.formOk, Instr.operandsOk, Bool.and_eq_true, and_assoc] at hw
    obtain ⟨_, hf, ho⟩ := hw
    exact ⟨MemOp.form_scale hf, MemOp.operands_range ho⟩
  obtain ⟨g1, g2, ch, w, r, imm⟩ := h
  (simp only [WellFormed, Instr.formOk, Instr.operandsOk, Opnd.dst, Opnd.src, Opnd.szi, Opnd.sz, Opnd.si, Opnd.vs, Opnd.sOnly, Opnd.ok, numOk_split, Hdr.immIf, Hdr.immBelow, Hdr.hinted, Hdr.unguarded, Hdr.plain, Hdr.guards, PredOp.ok, Hdr.imm24, Bool.and_eq_true, decide_eq_true_eq, beq_iff_eq] at hw
   refine roundtrip_of hw0 rfl ?_ ?_ rfl rfl
   · simp [Fields.fits, Hdr.fields, Fields.dab, Fields.dabc, Fields.da, Fields.ab, Fields.abc, Fields.inA, Fields.inD, Fields.withMem, Fields.withMemD, Fields.withE, hw, hm] <;> omega
   · simp [parse, parse7, Hdr.fields, Fields.hdr, Fields.imm, need, Fields.noA, Fields.noB, Fields.noC, Fields.noD, Fields.dab, Fields.dabc, Fields.da, Fields.ab, Fields.abc, Fields.inA, Fields.inD, Fields.withMem, Fields.withMemD, Fields.withE, hw, hm])

theorem Laws.RoundTrip.cctlEvict (h : Hdr) (m : MemOp) : Laws.RoundTrip.Statement (.cctlEvict h m) := by
  intro hw0
  have hw := hw0
  have hm : m.scale < 4 ∧ m.base.inRange = true ∧ m.index.inRange = true := by
    simp only [WellFormed, Instr.formOk, Instr.operandsOk, Bool.and_eq_true, and_assoc] at hw
    obtain ⟨_, hf, ho⟩ := hw
    exact ⟨MemOp.form_scale hf, MemOp.operands_range ho⟩
  obtain ⟨g1, g2, ch, w, r, imm⟩ := h
  (simp only [WellFormed, Instr.formOk, Instr.operandsOk, Opnd.dst, Opnd.src, Opnd.szi, Opnd.sz, Opnd.si, Opnd.vs, Opnd.sOnly, Opnd.ok, numOk_split, Hdr.immIf, Hdr.immBelow, Hdr.hinted, Hdr.unguarded, Hdr.plain, Hdr.guards, PredOp.ok, Hdr.imm24, Bool.and_eq_true, decide_eq_true_eq, beq_iff_eq] at hw
   refine roundtrip_of hw0 rfl ?_ ?_ rfl rfl
   · simp [Fields.fits, Hdr.fields, Fields.dab, Fields.dabc, Fields.da, Fields.ab, Fields.abc, Fields.inA, Fields.inD, Fields.withMem, Fields.withMemD, Fields.withE, hw, hm] <;> omega
   · simp [parse, parse7, Hdr.fields, Fields.hdr, Fields.imm, need, Fields.noA, Fields.noB, Fields.noC, Fields.noD, Fields.dab, Fields.dabc, Fields.da, Fields.ab, Fields.abc, Fields.inA, Fields.inD, Fields.withMem, Fields.withMemD, Fields.withE, hw, hm])

theorem Laws.RoundTrip.fenceDrain (h : Hdr) : Laws.RoundTrip.Statement (.fenceDrain h) := by
  intro hw0
  have hw := hw0
  obtain ⟨g1, g2, ch, w, r, imm⟩ := h
  (simp only [WellFormed, Instr.formOk, Instr.operandsOk, Opnd.dst, Opnd.src, Opnd.szi, Opnd.sz, Opnd.si, Opnd.vs, Opnd.sOnly, Opnd.ok, numOk_split, Hdr.immIf, Hdr.immBelow, Hdr.hinted, Hdr.unguarded, Hdr.plain, Hdr.guards, PredOp.ok, Hdr.imm24, Bool.and_eq_true, decide_eq_true_eq, beq_iff_eq] at hw
   refine roundtrip_of hw0 rfl ?_ ?_ rfl rfl
   · simp [Fields.fits, Hdr.fields, Fields.dab, Fields.dabc, Fields.da, Fields.ab, Fields.abc, Fields.inA, Fields.inD, Fields.withMem, Fields.withMemD, Fields.withE, hw] <;> omega
   · simp [parse, parse8, Hdr.fields, Fields.hdr, Fields.imm, need, Fields.noA, Fields.noB, Fields.noC, Fields.noD, Fields.dab, Fields.dabc, Fields.da, Fields.ab, Fields.abc, Fields.inA, Fields.inD, Fields.withMem, Fields.withMemD, Fields.withE, hw])

theorem Laws.RoundTrip.fenceOrdered (h : Hdr) (k : FenceKind) : Laws.RoundTrip.Statement (.fenceOrdered h k) := by
  intro hw0
  have hw := hw0
  obtain ⟨g1, g2, ch, w, r, imm⟩ := h
  (simp only [WellFormed, Instr.formOk, Instr.operandsOk, Opnd.dst, Opnd.src, Opnd.szi, Opnd.sz, Opnd.si, Opnd.vs, Opnd.sOnly, Opnd.ok, numOk_split, Hdr.immIf, Hdr.immBelow, Hdr.hinted, Hdr.unguarded, Hdr.plain, Hdr.guards, PredOp.ok, Hdr.imm24, Bool.and_eq_true, decide_eq_true_eq, beq_iff_eq] at hw
   refine roundtrip_of hw0 rfl ?_ ?_ rfl rfl
   · simp [Fields.fits, Hdr.fields, Fields.dab, Fields.dabc, Fields.da, Fields.ab, Fields.abc, Fields.inA, Fields.inD, Fields.withMem, Fields.withMemD, Fields.withE, hw] <;> omega
   · simp [parse, parse8, Hdr.fields, Fields.hdr, Fields.imm, need, Fields.noA, Fields.noB, Fields.noC, Fields.noD, Fields.dab, Fields.dabc, Fields.da, Fields.ab, Fields.abc, Fields.inA, Fields.inD, Fields.withMem, Fields.withMemD, Fields.withE, hw])

theorem Laws.RoundTrip.bar (h : Hdr) : Laws.RoundTrip.Statement (.bar h) := by
  intro hw0
  have hw := hw0
  obtain ⟨g1, g2, ch, w, r, imm⟩ := h
  (simp only [WellFormed, Instr.formOk, Instr.operandsOk, Opnd.dst, Opnd.src, Opnd.szi, Opnd.sz, Opnd.si, Opnd.vs, Opnd.sOnly, Opnd.ok, numOk_split, Hdr.immIf, Hdr.immBelow, Hdr.hinted, Hdr.unguarded, Hdr.plain, Hdr.guards, PredOp.ok, Hdr.imm24, Bool.and_eq_true, decide_eq_true_eq, beq_iff_eq] at hw
   refine roundtrip_of hw0 rfl ?_ ?_ rfl rfl
   · simp [Fields.fits, Hdr.fields, Fields.dab, Fields.dabc, Fields.da, Fields.ab, Fields.abc, Fields.inA, Fields.inD, Fields.withMem, Fields.withMemD, Fields.withE, hw] <;> omega
   · simp [parse, parse8, Hdr.fields, Fields.hdr, Fields.imm, need, Fields.noA, Fields.noB, Fields.noC, Fields.noD, Fields.dab, Fields.dabc, Fields.da, Fields.ab, Fields.abc, Fields.inA, Fields.inD, Fields.withMem, Fields.withMemD, Fields.withE, hw])

theorem Laws.RoundTrip.arrive (h : Hdr) : Laws.RoundTrip.Statement (.arrive h) := by
  intro hw0
  have hw := hw0
  obtain ⟨g1, g2, ch, w, r, imm⟩ := h
  (simp only [WellFormed, Instr.formOk, Instr.operandsOk, Opnd.dst, Opnd.src, Opnd.szi, Opnd.sz, Opnd.si, Opnd.vs, Opnd.sOnly, Opnd.ok, numOk_split, Hdr.immIf, Hdr.immBelow, Hdr.hinted, Hdr.unguarded, Hdr.plain, Hdr.guards, PredOp.ok, Hdr.imm24, Bool.and_eq_true, decide_eq_true_eq, beq_iff_eq] at hw
   refine roundtrip_of hw0 rfl ?_ ?_ rfl rfl
   · simp [Fields.fits, Hdr.fields, Fields.dab, Fields.dabc, Fields.da, Fields.ab, Fields.abc, Fields.inA, Fields.inD, Fields.withMem, Fields.withMemD, Fields.withE, hw] <;> omega
   · simp [parse, parse8, Hdr.fields, Fields.hdr, Fields.imm, need, Fields.noA, Fields.noB, Fields.noC, Fields.noD, Fields.dab, Fields.dabc, Fields.da, Fields.ab, Fields.abc, Fields.inA, Fields.inD, Fields.withMem, Fields.withMemD, Fields.withE, hw])

theorem Laws.RoundTrip.await (h : Hdr) : Laws.RoundTrip.Statement (.await h) := by
  intro hw0
  have hw := hw0
  obtain ⟨g1, g2, ch, w, r, imm⟩ := h
  (simp only [WellFormed, Instr.formOk, Instr.operandsOk, Opnd.dst, Opnd.src, Opnd.szi, Opnd.sz, Opnd.si, Opnd.vs, Opnd.sOnly, Opnd.ok, numOk_split, Hdr.immIf, Hdr.immBelow, Hdr.hinted, Hdr.unguarded, Hdr.plain, Hdr.guards, PredOp.ok, Hdr.imm24, Bool.and_eq_true, decide_eq_true_eq, beq_iff_eq] at hw
   refine roundtrip_of hw0 rfl ?_ ?_ rfl rfl
   · simp [Fields.fits, Hdr.fields, Fields.dab, Fields.dabc, Fields.da, Fields.ab, Fields.abc, Fields.inA, Fields.inD, Fields.withMem, Fields.withMemD, Fields.withE, hw] <;> omega
   · simp [parse, parse8, Hdr.fields, Fields.hdr, Fields.imm, need, Fields.noA, Fields.noB, Fields.noC, Fields.noD, Fields.dab, Fields.dabc, Fields.da, Fields.ab, Fields.abc, Fields.inA, Fields.inD, Fields.withMem, Fields.withMemD, Fields.withE, hw])

theorem Laws.RoundTrip.rinit (h : Hdr) (ring : Nat) (a : Opnd) : Laws.RoundTrip.Statement (.rinit h ring a) := by
  intro hw0
  have hw := hw0
  obtain ⟨g1, g2, ch, w, r, imm⟩ := h
  (simp only [WellFormed, Instr.formOk, Instr.operandsOk, Opnd.dst, Opnd.src, Opnd.szi, Opnd.sz, Opnd.si, Opnd.vs, Opnd.sOnly, Opnd.ok, numOk_split, Hdr.immIf, Hdr.immBelow, Hdr.hinted, Hdr.unguarded, Hdr.plain, Hdr.guards, PredOp.ok, Hdr.imm24, Bool.and_eq_true, decide_eq_true_eq, beq_iff_eq] at hw
   refine roundtrip_of hw0 rfl ?_ ?_ rfl rfl
   · simp [Fields.fits, Hdr.fields, Fields.dab, Fields.dabc, Fields.da, Fields.ab, Fields.abc, Fields.inA, Fields.inD, Fields.withMem, Fields.withMemD, Fields.withE, hw] <;> omega
   · simp [parse, parse8, Hdr.fields, Fields.hdr, Fields.imm, need, Fields.noA, Fields.noB, Fields.noC, Fields.noD, Fields.dab, Fields.dabc, Fields.da, Fields.ab, Fields.abc, Fields.inA, Fields.inD, Fields.withMem, Fields.withMemD, Fields.withE, hw])

theorem Laws.RoundTrip.rpost (h : Hdr) (ring : Nat) (a : Opnd) : Laws.RoundTrip.Statement (.rpost h ring a) := by
  intro hw0
  have hw := hw0
  obtain ⟨g1, g2, ch, w, r, imm⟩ := h
  (simp only [WellFormed, Instr.formOk, Instr.operandsOk, Opnd.dst, Opnd.src, Opnd.szi, Opnd.sz, Opnd.si, Opnd.vs, Opnd.sOnly, Opnd.ok, numOk_split, Hdr.immIf, Hdr.immBelow, Hdr.hinted, Hdr.unguarded, Hdr.plain, Hdr.guards, PredOp.ok, Hdr.imm24, Bool.and_eq_true, decide_eq_true_eq, beq_iff_eq] at hw
   refine roundtrip_of hw0 rfl ?_ ?_ rfl rfl
   · simp [Fields.fits, Hdr.fields, Fields.dab, Fields.dabc, Fields.da, Fields.ab, Fields.abc, Fields.inA, Fields.inD, Fields.withMem, Fields.withMemD, Fields.withE, hw] <;> omega
   · simp [parse, parse8, Hdr.fields, Fields.hdr, Fields.imm, need, Fields.noA, Fields.noB, Fields.noC, Fields.noD, Fields.dab, Fields.dabc, Fields.da, Fields.ab, Fields.abc, Fields.inA, Fields.inD, Fields.withMem, Fields.withMemD, Fields.withE, hw])

theorem Laws.RoundTrip.rget (h : Hdr) (ring : Nat) (full : Bool) (a : Opnd) : Laws.RoundTrip.Statement (.rget h ring full a) := by
  intro hw0
  have hw := hw0
  obtain ⟨g1, g2, ch, w, r, imm⟩ := h
  cases full <;>
  (simp only [WellFormed, Instr.formOk, Instr.operandsOk, Opnd.dst, Opnd.src, Opnd.szi, Opnd.sz, Opnd.si, Opnd.vs, Opnd.sOnly, Opnd.ok, numOk_split, Hdr.immIf, Hdr.immBelow, Hdr.hinted, Hdr.unguarded, Hdr.plain, Hdr.guards, PredOp.ok, Hdr.imm24, Bool.and_eq_true, decide_eq_true_eq, beq_iff_eq] at hw
   refine roundtrip_of hw0 rfl ?_ ?_ rfl rfl
   · simp [Fields.fits, Hdr.fields, Fields.dab, Fields.dabc, Fields.da, Fields.ab, Fields.abc, Fields.inA, Fields.inD, Fields.withMem, Fields.withMemD, Fields.withE, hw] <;> omega
   · simp [parse, parse8, Hdr.fields, Fields.hdr, Fields.imm, need, Fields.noA, Fields.noB, Fields.noC, Fields.noD, Fields.dab, Fields.dabc, Fields.da, Fields.ab, Fields.abc, Fields.inA, Fields.inD, Fields.withMem, Fields.withMemD, Fields.withE, hw])

theorem Laws.RoundTrip.rrel (h : Hdr) (ring : Nat) (a : Opnd) : Laws.RoundTrip.Statement (.rrel h ring a) := by
  intro hw0
  have hw := hw0
  obtain ⟨g1, g2, ch, w, r, imm⟩ := h
  (simp only [WellFormed, Instr.formOk, Instr.operandsOk, Opnd.dst, Opnd.src, Opnd.szi, Opnd.sz, Opnd.si, Opnd.vs, Opnd.sOnly, Opnd.ok, numOk_split, Hdr.immIf, Hdr.immBelow, Hdr.hinted, Hdr.unguarded, Hdr.plain, Hdr.guards, PredOp.ok, Hdr.imm24, Bool.and_eq_true, decide_eq_true_eq, beq_iff_eq] at hw
   refine roundtrip_of hw0 rfl ?_ ?_ rfl rfl
   · simp [Fields.fits, Hdr.fields, Fields.dab, Fields.dabc, Fields.da, Fields.ab, Fields.abc, Fields.inA, Fields.inD, Fields.withMem, Fields.withMemD, Fields.withE, hw] <;> omega
   · simp [parse, parse8, Hdr.fields, Fields.hdr, Fields.imm, need, Fields.noA, Fields.noB, Fields.noC, Fields.noD, Fields.dab, Fields.dabc, Fields.da, Fields.ab, Fields.abc, Fields.inA, Fields.inD, Fields.withMem, Fields.withMemD, Fields.withE, hw])

theorem Laws.RoundTrip.town (h : Hdr) (spanSp : Bool) (own : Owner) (a : Opnd) (b : Opnd) : Laws.RoundTrip.Statement (.town h spanSp own a b) := by
  intro hw0
  have hw := hw0
  obtain ⟨g1, g2, ch, w, r, imm⟩ := h
  cases spanSp <;>
  cases own <;>
  (simp only [WellFormed, Instr.formOk, Instr.operandsOk, Opnd.dst, Opnd.src, Opnd.szi, Opnd.sz, Opnd.si, Opnd.vs, Opnd.sOnly, Opnd.ok, numOk_split, Hdr.immIf, Hdr.immBelow, Hdr.hinted, Hdr.unguarded, Hdr.plain, Hdr.guards, PredOp.ok, Hdr.imm24, Bool.and_eq_true, decide_eq_true_eq, beq_iff_eq] at hw
   refine roundtrip_of hw0 rfl ?_ ?_ rfl rfl
   · simp [Fields.fits, Hdr.fields, Owner.code, ownerOf, Fields.dab, Fields.dabc, Fields.da, Fields.ab, Fields.abc, Fields.inA, Fields.inD, Fields.withMem, Fields.withMemD, Fields.withE, hw] <;> omega
   · simp [parse, parse8, Hdr.fields, Fields.hdr, Fields.imm, need, Fields.noA, Fields.noB, Fields.noC, Fields.noD, Owner.code, ownerOf, Fields.dab, Fields.dabc, Fields.da, Fields.ab, Fields.abc, Fields.inA, Fields.inD, Fields.withMem, Fields.withMemD, Fields.withE, hw])

theorem Laws.RoundTrip.twait (h : Hdr) (spanSp : Bool) (own : Owner) (a : Opnd) : Laws.RoundTrip.Statement (.twait h spanSp own a) := by
  intro hw0
  have hw := hw0
  obtain ⟨g1, g2, ch, w, r, imm⟩ := h
  cases spanSp <;>
  cases own <;>
  (simp only [WellFormed, Instr.formOk, Instr.operandsOk, Opnd.dst, Opnd.src, Opnd.szi, Opnd.sz, Opnd.si, Opnd.vs, Opnd.sOnly, Opnd.ok, numOk_split, Hdr.immIf, Hdr.immBelow, Hdr.hinted, Hdr.unguarded, Hdr.plain, Hdr.guards, PredOp.ok, Hdr.imm24, Bool.and_eq_true, decide_eq_true_eq, beq_iff_eq] at hw
   refine roundtrip_of hw0 rfl ?_ ?_ rfl rfl
   · simp [Fields.fits, Hdr.fields, Owner.code, ownerOf, Fields.dab, Fields.dabc, Fields.da, Fields.ab, Fields.abc, Fields.inA, Fields.inD, Fields.withMem, Fields.withMemD, Fields.withE, hw] <;> omega
   · simp [parse, parse8, Hdr.fields, Fields.hdr, Fields.imm, need, Fields.noA, Fields.noB, Fields.noC, Fields.noD, Owner.code, ownerOf, Fields.dab, Fields.dabc, Fields.da, Fields.ab, Fields.abc, Fields.inA, Fields.inD, Fields.withMem, Fields.withMemD, Fields.withE, hw])

theorem Laws.RoundTrip.cwait (h : Hdr) (k : Nat) (d : Opnd) (a : Opnd) : Laws.RoundTrip.Statement (.cwait h k d a) := by
  intro hw0
  have hw := hw0
  obtain ⟨g1, g2, ch, w, r, imm⟩ := h
  (simp only [WellFormed, Instr.formOk, Instr.operandsOk, Opnd.dst, Opnd.src, Opnd.szi, Opnd.sz, Opnd.si, Opnd.vs, Opnd.sOnly, Opnd.ok, numOk_split, Hdr.immIf, Hdr.immBelow, Hdr.hinted, Hdr.unguarded, Hdr.plain, Hdr.guards, PredOp.ok, Hdr.imm24, Bool.and_eq_true, decide_eq_true_eq, beq_iff_eq] at hw
   refine roundtrip_of hw0 rfl ?_ ?_ rfl rfl
   · simp [Fields.fits, Hdr.fields, Fields.dab, Fields.dabc, Fields.da, Fields.ab, Fields.abc, Fields.inA, Fields.inD, Fields.withMem, Fields.withMemD, Fields.withE, hw] <;> omega
   · simp [parse, parse8, Hdr.fields, Fields.hdr, Fields.imm, need, Fields.noA, Fields.noB, Fields.noC, Fields.noD, Fields.dab, Fields.dabc, Fields.da, Fields.ab, Fields.abc, Fields.inA, Fields.inD, Fields.withMem, Fields.withMemD, Fields.withE, hw])

theorem Laws.RoundTrip.waitmem (h : Hdr) (m : MemOp) (cond : WCond) (t : Ty) (d : Opnd) : Laws.RoundTrip.Statement (.waitmem h m cond t d) := by
  intro hw0
  have hw := hw0
  have hm : m.scale < 4 ∧ m.base.inRange = true ∧ m.index.inRange = true := by
    simp only [WellFormed, Instr.formOk, Instr.operandsOk, Bool.and_eq_true, and_assoc] at hw
    obtain ⟨_, hf, _, hb, hi, _⟩ := hw
    exact ⟨MemOp.form_scale hf, sz_range hb, sz_range hi⟩
  obtain ⟨g1, g2, ch, w, r, imm⟩ := h
  (simp only [WellFormed, Instr.formOk, Instr.operandsOk, Opnd.dst, Opnd.src, Opnd.szi, Opnd.sz, Opnd.si, Opnd.vs, Opnd.sOnly, Opnd.ok, numOk_split, Hdr.immIf, Hdr.immBelow, Hdr.hinted, Hdr.unguarded, Hdr.plain, Hdr.guards, PredOp.ok, Hdr.imm24, Bool.and_eq_true, decide_eq_true_eq, beq_iff_eq] at hw
   refine roundtrip_of hw0 rfl ?_ ?_ rfl rfl
   · simp [Fields.fits, Hdr.fields, Fields.dab, Fields.dabc, Fields.da, Fields.ab, Fields.abc, Fields.inA, Fields.inD, Fields.withMem, Fields.withMemD, Fields.withE, hw, hm] <;> omega
   · simp [parse, parse8, Hdr.fields, Fields.hdr, Fields.imm, need, Fields.noA, Fields.noB, Fields.noC, Fields.noD, Fields.dab, Fields.dabc, Fields.da, Fields.ab, Fields.abc, Fields.inA, Fields.inD, Fields.withMem, Fields.withMemD, Fields.withE, hw, hm])

theorem Laws.RoundTrip.stmap (h : Hdr) (a : Opnd) (b : Opnd) (c : Opnd) : Laws.RoundTrip.Statement (.stmap h a b c) := by
  intro hw0
  have hw := hw0
  obtain ⟨g1, g2, ch, w, r, imm⟩ := h
  (simp only [WellFormed, Instr.formOk, Instr.operandsOk, Opnd.dst, Opnd.src, Opnd.szi, Opnd.sz, Opnd.si, Opnd.vs, Opnd.sOnly, Opnd.ok, numOk_split, Hdr.immIf, Hdr.immBelow, Hdr.hinted, Hdr.unguarded, Hdr.plain, Hdr.guards, PredOp.ok, Hdr.imm24, Bool.and_eq_true, decide_eq_true_eq, beq_iff_eq] at hw
   refine roundtrip_of hw0 rfl ?_ ?_ rfl rfl
   · simp [Fields.fits, Hdr.fields, Fields.dab, Fields.dabc, Fields.da, Fields.ab, Fields.abc, Fields.inA, Fields.inD, Fields.withMem, Fields.withMemD, Fields.withE, hw] <;> omega
   · simp [parse, parse8, Hdr.fields, Fields.hdr, Fields.imm, need, Fields.noA, Fields.noB, Fields.noC, Fields.noD, Fields.dab, Fields.dabc, Fields.da, Fields.ab, Fields.abc, Fields.inA, Fields.inD, Fields.withMem, Fields.withMemD, Fields.withE, hw])

theorem Laws.RoundTrip.stunmap (h : Hdr) (a : Opnd) : Laws.RoundTrip.Statement (.stunmap h a) := by
  intro hw0
  have hw := hw0
  obtain ⟨g1, g2, ch, w, r, imm⟩ := h
  (simp only [WellFormed, Instr.formOk, Instr.operandsOk, Opnd.dst, Opnd.src, Opnd.szi, Opnd.sz, Opnd.si, Opnd.vs, Opnd.sOnly, Opnd.ok, numOk_split, Hdr.immIf, Hdr.immBelow, Hdr.hinted, Hdr.unguarded, Hdr.plain, Hdr.guards, PredOp.ok, Hdr.imm24, Bool.and_eq_true, decide_eq_true_eq, beq_iff_eq] at hw
   refine roundtrip_of hw0 rfl ?_ ?_ rfl rfl
   · simp [Fields.fits, Hdr.fields, Fields.dab, Fields.dabc, Fields.da, Fields.ab, Fields.abc, Fields.inA, Fields.inD, Fields.withMem, Fields.withMemD, Fields.withE, hw] <;> omega
   · simp [parse, parse8, Hdr.fields, Fields.hdr, Fields.imm, need, Fields.noA, Fields.noB, Fields.noC, Fields.noD, Fields.dab, Fields.dabc, Fields.da, Fields.ab, Fields.abc, Fields.inA, Fields.inD, Fields.withMem, Fields.withMemD, Fields.withE, hw])

theorem Laws.RoundTrip.stwb (h : Hdr) (a : Opnd) : Laws.RoundTrip.Statement (.stwb h a) := by
  intro hw0
  have hw := hw0
  obtain ⟨g1, g2, ch, w, r, imm⟩ := h
  (simp only [WellFormed, Instr.formOk, Instr.operandsOk, Opnd.dst, Opnd.src, Opnd.szi, Opnd.sz, Opnd.si, Opnd.vs, Opnd.sOnly, Opnd.ok, numOk_split, Hdr.immIf, Hdr.immBelow, Hdr.hinted, Hdr.unguarded, Hdr.plain, Hdr.guards, PredOp.ok, Hdr.imm24, Bool.and_eq_true, decide_eq_true_eq, beq_iff_eq] at hw
   refine roundtrip_of hw0 rfl ?_ ?_ rfl rfl
   · simp [Fields.fits, Hdr.fields, Fields.dab, Fields.dabc, Fields.da, Fields.ab, Fields.abc, Fields.inA, Fields.inD, Fields.withMem, Fields.withMemD, Fields.withE, hw] <;> omega
   · simp [parse, parse8, Hdr.fields, Fields.hdr, Fields.imm, need, Fields.noA, Fields.noB, Fields.noC, Fields.noD, Fields.dab, Fields.dabc, Fields.da, Fields.ab, Fields.abc, Fields.inA, Fields.inD, Fields.withMem, Fields.withMemD, Fields.withE, hw])

theorem Laws.RoundTrip.stinv (h : Hdr) (a : Opnd) : Laws.RoundTrip.Statement (.stinv h a) := by
  intro hw0
  have hw := hw0
  obtain ⟨g1, g2, ch, w, r, imm⟩ := h
  (simp only [WellFormed, Instr.formOk, Instr.operandsOk, Opnd.dst, Opnd.src, Opnd.szi, Opnd.sz, Opnd.si, Opnd.vs, Opnd.sOnly, Opnd.ok, numOk_split, Hdr.immIf, Hdr.immBelow, Hdr.hinted, Hdr.unguarded, Hdr.plain, Hdr.guards, PredOp.ok, Hdr.imm24, Bool.and_eq_true, decide_eq_true_eq, beq_iff_eq] at hw
   refine roundtrip_of hw0 rfl ?_ ?_ rfl rfl
   · simp [Fields.fits, Hdr.fields, Fields.dab, Fields.dabc, Fields.da, Fields.ab, Fields.abc, Fields.inA, Fields.inD, Fields.withMem, Fields.withMemD, Fields.withE, hw] <;> omega
   · simp [parse, parse8, Hdr.fields, Fields.hdr, Fields.imm, need, Fields.noA, Fields.noB, Fields.noC, Fields.noD, Fields.dab, Fields.dabc, Fields.da, Fields.ab, Fields.abc, Fields.inA, Fields.inD, Fields.withMem, Fields.withMemD, Fields.withE, hw])

theorem Laws.RoundTrip.trst (h : Hdr) (ch : Nat) (a : Opnd) (b : Opnd) : Laws.RoundTrip.Statement (.trst h ch a b) := by
  intro hw0
  have hw := hw0
  obtain ⟨g1, g2, ch, w, r, imm⟩ := h
  (simp only [WellFormed, Instr.formOk, Instr.operandsOk, Opnd.dst, Opnd.src, Opnd.szi, Opnd.sz, Opnd.si, Opnd.vs, Opnd.sOnly, Opnd.ok, numOk_split, Hdr.immIf, Hdr.immBelow, Hdr.hinted, Hdr.unguarded, Hdr.plain, Hdr.guards, PredOp.ok, Hdr.imm24, Bool.and_eq_true, decide_eq_true_eq, beq_iff_eq] at hw
   refine roundtrip_of hw0 rfl ?_ ?_ rfl rfl
   · simp [Fields.fits, Hdr.fields, Fields.dab, Fields.dabc, Fields.da, Fields.ab, Fields.abc, Fields.inA, Fields.inD, Fields.withMem, Fields.withMemD, Fields.withE, hw] <;> omega
   · simp [parse, parse9, Hdr.fields, Fields.hdr, Fields.imm, need, Fields.noA, Fields.noB, Fields.noC, Fields.noD, Fields.dab, Fields.dabc, Fields.da, Fields.ab, Fields.abc, Fields.inA, Fields.inD, Fields.withMem, Fields.withMemD, Fields.withE, hw])

theorem Laws.RoundTrip.trstq (h : Hdr) (ch : Nat) (d : Opnd) : Laws.RoundTrip.Statement (.trstq h ch d) := by
  intro hw0
  have hw := hw0
  obtain ⟨g1, g2, ch, w, r, imm⟩ := h
  (simp only [WellFormed, Instr.formOk, Instr.operandsOk, Opnd.dst, Opnd.src, Opnd.szi, Opnd.sz, Opnd.si, Opnd.vs, Opnd.sOnly, Opnd.ok, numOk_split, Hdr.immIf, Hdr.immBelow, Hdr.hinted, Hdr.unguarded, Hdr.plain, Hdr.guards, PredOp.ok, Hdr.imm24, Bool.and_eq_true, decide_eq_true_eq, beq_iff_eq] at hw
   refine roundtrip_of hw0 rfl ?_ ?_ rfl rfl
   · simp [Fields.fits, Hdr.fields, Fields.dab, Fields.dabc, Fields.da, Fields.ab, Fields.abc, Fields.inA, Fields.inD, Fields.withMem, Fields.withMemD, Fields.withE, hw] <;> omega
   · simp [parse, parse9, Hdr.fields, Fields.hdr, Fields.imm, need, Fields.noA, Fields.noB, Fields.noC, Fields.noD, Fields.dab, Fields.dabc, Fields.da, Fields.ab, Fields.abc, Fields.inA, Fields.inD, Fields.withMem, Fields.withMemD, Fields.withE, hw])

theorem Laws.RoundTrip.trstk (h : Hdr) (ch : Nat) : Laws.RoundTrip.Statement (.trstk h ch) := by
  intro hw0
  have hw := hw0
  obtain ⟨g1, g2, ch, w, r, imm⟩ := h
  (simp only [WellFormed, Instr.formOk, Instr.operandsOk, Opnd.dst, Opnd.src, Opnd.szi, Opnd.sz, Opnd.si, Opnd.vs, Opnd.sOnly, Opnd.ok, numOk_split, Hdr.immIf, Hdr.immBelow, Hdr.hinted, Hdr.unguarded, Hdr.plain, Hdr.guards, PredOp.ok, Hdr.imm24, Bool.and_eq_true, decide_eq_true_eq, beq_iff_eq] at hw
   refine roundtrip_of hw0 rfl ?_ ?_ rfl rfl
   · simp [Fields.fits, Hdr.fields, Fields.dab, Fields.dabc, Fields.da, Fields.ab, Fields.abc, Fields.inA, Fields.inD, Fields.withMem, Fields.withMemD, Fields.withE, hw] <;> omega
   · simp [parse, parse9, Hdr.fields, Fields.hdr, Fields.imm, need, Fields.noA, Fields.noB, Fields.noC, Fields.noD, Fields.dab, Fields.dabc, Fields.da, Fields.ab, Fields.abc, Fields.inA, Fields.inD, Fields.withMem, Fields.withMemD, Fields.withE, hw])

theorem Laws.RoundTrip.mcgrp (h : Hdr) (d : Opnd) (a : Opnd) (b : Opnd) : Laws.RoundTrip.Statement (.mcgrp h d a b) := by
  intro hw0
  have hw := hw0
  obtain ⟨g1, g2, ch, w, r, imm⟩ := h
  (simp only [WellFormed, Instr.formOk, Instr.operandsOk, Opnd.dst, Opnd.src, Opnd.szi, Opnd.sz, Opnd.si, Opnd.vs, Opnd.sOnly, Opnd.ok, numOk_split, Hdr.immIf, Hdr.immBelow, Hdr.hinted, Hdr.unguarded, Hdr.plain, Hdr.guards, PredOp.ok, Hdr.imm24, Bool.and_eq_true, decide_eq_true_eq, beq_iff_eq] at hw
   refine roundtrip_of hw0 rfl ?_ ?_ rfl rfl
   · simp [Fields.fits, Hdr.fields, Fields.dab, Fields.dabc, Fields.da, Fields.ab, Fields.abc, Fields.inA, Fields.inD, Fields.withMem, Fields.withMemD, Fields.withE, hw] <;> omega
   · simp [parse, parse9, Hdr.fields, Fields.hdr, Fields.imm, need, Fields.noA, Fields.noB, Fields.noC, Fields.noD, Fields.dab, Fields.dabc, Fields.da, Fields.ab, Fields.abc, Fields.inA, Fields.inD, Fields.withMem, Fields.withMemD, Fields.withE, hw])

theorem Laws.RoundTrip.mloop (h : Hdr) (a : Opnd) (b : Opnd) : Laws.RoundTrip.Statement (.mloop h a b) := by
  intro hw0
  have hw := hw0
  obtain ⟨g1, g2, ch, w, r, imm⟩ := h
  (simp only [WellFormed, Instr.formOk, Instr.operandsOk, Opnd.dst, Opnd.src, Opnd.szi, Opnd.sz, Opnd.si, Opnd.vs, Opnd.sOnly, Opnd.ok, numOk_split, Hdr.immIf, Hdr.immBelow, Hdr.hinted, Hdr.unguarded, Hdr.plain, Hdr.guards, PredOp.ok, Hdr.imm24, Bool.and_eq_true, decide_eq_true_eq, beq_iff_eq] at hw
   refine roundtrip_of hw0 rfl ?_ ?_ rfl rfl
   · simp [Fields.fits, Hdr.fields, Fields.dab, Fields.dabc, Fields.da, Fields.ab, Fields.abc, Fields.inA, Fields.inD, Fields.withMem, Fields.withMemD, Fields.withE, hw] <;> omega
   · simp [parse, parse9, Hdr.fields, Fields.hdr, Fields.imm, need, Fields.noA, Fields.noB, Fields.noC, Fields.noD, Fields.dab, Fields.dabc, Fields.da, Fields.ab, Fields.abc, Fields.inA, Fields.inD, Fields.withMem, Fields.withMemD, Fields.withE, hw])

theorem Laws.RoundTrip.mloopSp (h : Hdr) (a : Opnd) (b : Opnd) : Laws.RoundTrip.Statement (.mloopSp h a b) := by
  intro hw0
  have hw := hw0
  obtain ⟨g1, g2, ch, w, r, imm⟩ := h
  (simp only [WellFormed, Instr.formOk, Instr.operandsOk, Opnd.dst, Opnd.src, Opnd.szi, Opnd.sz, Opnd.si, Opnd.vs, Opnd.sOnly, Opnd.ok, numOk_split, Hdr.immIf, Hdr.immBelow, Hdr.hinted, Hdr.unguarded, Hdr.plain, Hdr.guards, PredOp.ok, Hdr.imm24, Bool.and_eq_true, decide_eq_true_eq, beq_iff_eq] at hw
   refine roundtrip_of hw0 rfl ?_ ?_ rfl rfl
   · simp [Fields.fits, Hdr.fields, Fields.dab, Fields.dabc, Fields.da, Fields.ab, Fields.abc, Fields.inA, Fields.inD, Fields.withMem, Fields.withMemD, Fields.withE, hw] <;> omega
   · simp [parse, parse9, Hdr.fields, Fields.hdr, Fields.imm, need, Fields.noA, Fields.noB, Fields.noC, Fields.noD, Fields.dab, Fields.dabc, Fields.da, Fields.ab, Fields.abc, Fields.inA, Fields.inD, Fields.withMem, Fields.withMemD, Fields.withE, hw])

theorem Laws.RoundTrip.maclrFast (h : Hdr) (a : Opnd) : Laws.RoundTrip.Statement (.maclrFast h a) := by
  intro hw0
  have hw := hw0
  obtain ⟨g1, g2, ch, w, r, imm⟩ := h
  (simp only [WellFormed, Instr.formOk, Instr.operandsOk, Opnd.dst, Opnd.src, Opnd.szi, Opnd.sz, Opnd.si, Opnd.vs, Opnd.sOnly, Opnd.ok, numOk_split, Hdr.immIf, Hdr.immBelow, Hdr.hinted, Hdr.unguarded, Hdr.plain, Hdr.guards, PredOp.ok, Hdr.imm24, Bool.and_eq_true, decide_eq_true_eq, beq_iff_eq] at hw
   refine roundtrip_of hw0 rfl ?_ ?_ rfl rfl
   · simp [Fields.fits, Hdr.fields, Fields.dab, Fields.dabc, Fields.da, Fields.ab, Fields.abc, Fields.inA, Fields.inD, Fields.withMem, Fields.withMemD, Fields.withE, hw] <;> omega
   · simp [parse, parse9, Hdr.fields, Fields.hdr, Fields.imm, need, Fields.noA, Fields.noB, Fields.noC, Fields.noD, Fields.dab, Fields.dabc, Fields.da, Fields.ab, Fields.abc, Fields.inA, Fields.inD, Fields.withMem, Fields.withMemD, Fields.withE, hw])

theorem Laws.RoundTrip.maclrExact (h : Hdr) (a : Opnd) (b : Opnd) : Laws.RoundTrip.Statement (.maclrExact h a b) := by
  intro hw0
  have hw := hw0
  obtain ⟨g1, g2, ch, w, r, imm⟩ := h
  (simp only [WellFormed, Instr.formOk, Instr.operandsOk, Opnd.dst, Opnd.src, Opnd.szi, Opnd.sz, Opnd.si, Opnd.vs, Opnd.sOnly, Opnd.ok, numOk_split, Hdr.immIf, Hdr.immBelow, Hdr.hinted, Hdr.unguarded, Hdr.plain, Hdr.guards, PredOp.ok, Hdr.imm24, Bool.and_eq_true, decide_eq_true_eq, beq_iff_eq] at hw
   refine roundtrip_of hw0 rfl ?_ ?_ rfl rfl
   · simp [Fields.fits, Hdr.fields, Fields.dab, Fields.dabc, Fields.da, Fields.ab, Fields.abc, Fields.inA, Fields.inD, Fields.withMem, Fields.withMemD, Fields.withE, hw] <;> omega
   · simp [parse, parse9, Hdr.fields, Fields.hdr, Fields.imm, need, Fields.noA, Fields.noB, Fields.noC, Fields.noD, Fields.dab, Fields.dabc, Fields.da, Fields.ab, Fields.abc, Fields.inA, Fields.inD, Fields.withMem, Fields.withMemD, Fields.withE, hw])

theorem Laws.RoundTrip.mard (h : Hdr) (bf : Bool) (a : Opnd) (b : Opnd) : Laws.RoundTrip.Statement (.mard h bf a b) := by
  intro hw0
  have hw := hw0
  obtain ⟨g1, g2, ch, w, r, imm⟩ := h
  (simp only [WellFormed, Instr.formOk, Instr.operandsOk, Opnd.dst, Opnd.src, Opnd.szi, Opnd.sz, Opnd.si, Opnd.vs, Opnd.sOnly, Opnd.ok, numOk_split, Hdr.immIf, Hdr.immBelow, Hdr.hinted, Hdr.unguarded, Hdr.plain, Hdr.guards, PredOp.ok, Hdr.imm24, Bool.and_eq_true, decide_eq_true_eq, beq_iff_eq] at hw
   refine roundtrip_of hw0 rfl ?_ ?_ rfl rfl
   · simp [Fields.fits, Hdr.fields, Fields.dab, Fields.dabc, Fields.da, Fields.ab, Fields.abc, Fields.inA, Fields.inD, Fields.withMem, Fields.withMemD, Fields.withE, hw] <;> omega
   · simp [parse, parse9, Hdr.fields, Fields.hdr, Fields.imm, need, Fields.noA, Fields.noB, Fields.noC, Fields.noD, Fields.dab, Fields.dabc, Fields.da, Fields.ab, Fields.abc, Fields.inA, Fields.inD, Fields.withMem, Fields.withMemD, Fields.withE, hw])

theorem Laws.RoundTrip.mstat (h : Hdr) (clr : Bool) (d : Opnd) : Laws.RoundTrip.Statement (.mstat h clr d) := by
  intro hw0
  have hw := hw0
  obtain ⟨g1, g2, ch, w, r, imm⟩ := h
  (simp only [WellFormed, Instr.formOk, Instr.operandsOk, Opnd.dst, Opnd.src, Opnd.szi, Opnd.sz, Opnd.si, Opnd.vs, Opnd.sOnly, Opnd.ok, numOk_split, Hdr.immIf, Hdr.immBelow, Hdr.hinted, Hdr.unguarded, Hdr.plain, Hdr.guards, PredOp.ok, Hdr.imm24, Bool.and_eq_true, decide_eq_true_eq, beq_iff_eq] at hw
   refine roundtrip_of hw0 rfl ?_ ?_ rfl rfl
   · simp [Fields.fits, Hdr.fields, Fields.dab, Fields.dabc, Fields.da, Fields.ab, Fields.abc, Fields.inA, Fields.inD, Fields.withMem, Fields.withMemD, Fields.withE, hw] <;> omega
   · simp [parse, parse9, Hdr.fields, Fields.hdr, Fields.imm, need, Fields.noA, Fields.noB, Fields.noC, Fields.noD, Fields.dab, Fields.dabc, Fields.da, Fields.ab, Fields.abc, Fields.inA, Fields.inD, Fields.withMem, Fields.withMemD, Fields.withE, hw])

theorem Laws.RoundTrip.dkwin (h : Hdr) (a : Opnd) : Laws.RoundTrip.Statement (.dkwin h a) := by
  intro hw0
  have hw := hw0
  obtain ⟨g1, g2, ch, w, r, imm⟩ := h
  (simp only [WellFormed, Instr.formOk, Instr.operandsOk, Opnd.dst, Opnd.src, Opnd.szi, Opnd.sz, Opnd.si, Opnd.vs, Opnd.sOnly, Opnd.ok, numOk_split, Hdr.immIf, Hdr.immBelow, Hdr.hinted, Hdr.unguarded, Hdr.plain, Hdr.guards, PredOp.ok, Hdr.imm24, Bool.and_eq_true, decide_eq_true_eq, beq_iff_eq] at hw
   refine roundtrip_of hw0 rfl ?_ ?_ rfl rfl
   · simp [Fields.fits, Hdr.fields, Fields.dab, Fields.dabc, Fields.da, Fields.ab, Fields.abc, Fields.inA, Fields.inD, Fields.withMem, Fields.withMemD, Fields.withE, hw] <;> omega
   · simp [parse, parseA, Hdr.fields, Fields.hdr, Fields.imm, need, Fields.noA, Fields.noB, Fields.noC, Fields.noD, Fields.dab, Fields.dabc, Fields.da, Fields.ab, Fields.abc, Fields.inA, Fields.inD, Fields.withMem, Fields.withMemD, Fields.withE, hw])

theorem Laws.RoundTrip.dklin (h : Hdr) (d : Nat) (a : Opnd) (b : Opnd) (c : Opnd) : Laws.RoundTrip.Statement (.dklin h d a b c) := by
  intro hw0
  have hw := hw0
  obtain ⟨g1, g2, ch, w, r, imm⟩ := h
  (simp only [WellFormed, Instr.formOk, Instr.operandsOk, Opnd.dst, Opnd.src, Opnd.szi, Opnd.sz, Opnd.si, Opnd.vs, Opnd.sOnly, Opnd.ok, numOk_split, Hdr.immIf, Hdr.immBelow, Hdr.hinted, Hdr.unguarded, Hdr.plain, Hdr.guards, PredOp.ok, Hdr.imm24, Bool.and_eq_true, decide_eq_true_eq, beq_iff_eq] at hw
   refine roundtrip_of hw0 rfl ?_ ?_ rfl rfl
   · simp [Fields.fits, Hdr.fields, Fields.dab, Fields.dabc, Fields.da, Fields.ab, Fields.abc, Fields.inA, Fields.inD, Fields.withMem, Fields.withMemD, Fields.withE, hw] <;> omega
   · simp [parse, parseA, Hdr.fields, Fields.hdr, Fields.imm, need, Fields.noA, Fields.noB, Fields.noC, Fields.noD, Fields.dab, Fields.dabc, Fields.da, Fields.ab, Fields.abc, Fields.inA, Fields.inD, Fields.withMem, Fields.withMemD, Fields.withE, hw])

theorem Laws.RoundTrip.dkedge (h : Hdr) (a : Opnd) (b : Opnd) (c : Opnd) : Laws.RoundTrip.Statement (.dkedge h a b c) := by
  intro hw0
  have hw := hw0
  obtain ⟨g1, g2, ch, w, r, imm⟩ := h
  (simp only [WellFormed, Instr.formOk, Instr.operandsOk, Opnd.dst, Opnd.src, Opnd.szi, Opnd.sz, Opnd.si, Opnd.vs, Opnd.sOnly, Opnd.ok, numOk_split, Hdr.immIf, Hdr.immBelow, Hdr.hinted, Hdr.unguarded, Hdr.plain, Hdr.guards, PredOp.ok, Hdr.imm24, Bool.and_eq_true, decide_eq_true_eq, beq_iff_eq] at hw
   refine roundtrip_of hw0 rfl ?_ ?_ rfl rfl
   · simp [Fields.fits, Hdr.fields, Fields.dab, Fields.dabc, Fields.da, Fields.ab, Fields.abc, Fields.inA, Fields.inD, Fields.withMem, Fields.withMemD, Fields.withE, hw] <;> omega
   · simp [parse, parseA, Hdr.fields, Fields.hdr, Fields.imm, need, Fields.noA, Fields.noB, Fields.noC, Fields.noD, Fields.dab, Fields.dabc, Fields.da, Fields.ab, Fields.abc, Fields.inA, Fields.inD, Fields.withMem, Fields.withMemD, Fields.withE, hw])

theorem Laws.RoundTrip.dkquad (h : Hdr) (d : Nat) (a : Opnd) : Laws.RoundTrip.Statement (.dkquad h d a) := by
  intro hw0
  have hw := hw0
  obtain ⟨g1, g2, ch, w, r, imm⟩ := h
  (simp only [WellFormed, Instr.formOk, Instr.operandsOk, Opnd.dst, Opnd.src, Opnd.szi, Opnd.sz, Opnd.si, Opnd.vs, Opnd.sOnly, Opnd.ok, numOk_split, Hdr.immIf, Hdr.immBelow, Hdr.hinted, Hdr.unguarded, Hdr.plain, Hdr.guards, PredOp.ok, Hdr.imm24, Bool.and_eq_true, decide_eq_true_eq, beq_iff_eq] at hw
   refine roundtrip_of hw0 rfl ?_ ?_ rfl rfl
   · simp [Fields.fits, Hdr.fields, Fields.dab, Fields.dabc, Fields.da, Fields.ab, Fields.abc, Fields.inA, Fields.inD, Fields.withMem, Fields.withMemD, Fields.withE, hw] <;> omega
   · simp [parse, parseA, Hdr.fields, Fields.hdr, Fields.imm, need, Fields.noA, Fields.noB, Fields.noC, Fields.noD, Fields.dab, Fields.dabc, Fields.da, Fields.ab, Fields.abc, Fields.inA, Fields.inD, Fields.withMem, Fields.withMemD, Fields.withE, hw])

theorem Laws.RoundTrip.dkexp (h : Hdr) (d : Nat) (a : Opnd) (b : Opnd) : Laws.RoundTrip.Statement (.dkexp h d a b) := by
  intro hw0
  have hw := hw0
  obtain ⟨g1, g2, ch, w, r, imm⟩ := h
  (simp only [WellFormed, Instr.formOk, Instr.operandsOk, Opnd.dst, Opnd.src, Opnd.szi, Opnd.sz, Opnd.si, Opnd.vs, Opnd.sOnly, Opnd.ok, numOk_split, Hdr.immIf, Hdr.immBelow, Hdr.hinted, Hdr.unguarded, Hdr.plain, Hdr.guards, PredOp.ok, Hdr.imm24, Bool.and_eq_true, decide_eq_true_eq, beq_iff_eq] at hw
   refine roundtrip_of hw0 rfl ?_ ?_ rfl rfl
   · simp [Fields.fits, Hdr.fields, Fields.dab, Fields.dabc, Fields.da, Fields.ab, Fields.abc, Fields.inA, Fields.inD, Fields.withMem, Fields.withMemD, Fields.withE, hw] <;> omega
   · simp [parse, parseA, Hdr.fields, Fields.hdr, Fields.imm, need, Fields.noA, Fields.noB, Fields.noC, Fields.noD, Fields.dab, Fields.dabc, Fields.da, Fields.ab, Fields.abc, Fields.inA, Fields.inD, Fields.withMem, Fields.withMemD, Fields.withE, hw])

theorem Laws.RoundTrip.dkpush (h : Hdr) : Laws.RoundTrip.Statement (.dkpush h) := by
  intro hw0
  have hw := hw0
  obtain ⟨g1, g2, ch, w, r, imm⟩ := h
  (simp only [WellFormed, Instr.formOk, Instr.operandsOk, Opnd.dst, Opnd.src, Opnd.szi, Opnd.sz, Opnd.si, Opnd.vs, Opnd.sOnly, Opnd.ok, numOk_split, Hdr.immIf, Hdr.immBelow, Hdr.hinted, Hdr.unguarded, Hdr.plain, Hdr.guards, PredOp.ok, Hdr.imm24, Bool.and_eq_true, decide_eq_true_eq, beq_iff_eq] at hw
   refine roundtrip_of hw0 rfl ?_ ?_ rfl rfl
   · simp [Fields.fits, Hdr.fields, Fields.dab, Fields.dabc, Fields.da, Fields.ab, Fields.abc, Fields.inA, Fields.inD, Fields.withMem, Fields.withMemD, Fields.withE, hw] <;> omega
   · simp [parse, parseA, Hdr.fields, Fields.hdr, Fields.imm, need, Fields.noA, Fields.noB, Fields.noC, Fields.noD, Fields.dab, Fields.dabc, Fields.da, Fields.ab, Fields.abc, Fields.inA, Fields.inD, Fields.withMem, Fields.withMemD, Fields.withE, hw])

theorem Laws.RoundTrip.dkpop (h : Hdr) : Laws.RoundTrip.Statement (.dkpop h) := by
  intro hw0
  have hw := hw0
  obtain ⟨g1, g2, ch, w, r, imm⟩ := h
  (simp only [WellFormed, Instr.formOk, Instr.operandsOk, Opnd.dst, Opnd.src, Opnd.szi, Opnd.sz, Opnd.si, Opnd.vs, Opnd.sOnly, Opnd.ok, numOk_split, Hdr.immIf, Hdr.immBelow, Hdr.hinted, Hdr.unguarded, Hdr.plain, Hdr.guards, PredOp.ok, Hdr.imm24, Bool.and_eq_true, decide_eq_true_eq, beq_iff_eq] at hw
   refine roundtrip_of hw0 rfl ?_ ?_ rfl rfl
   · simp [Fields.fits, Hdr.fields, Fields.dab, Fields.dabc, Fields.da, Fields.ab, Fields.abc, Fields.inA, Fields.inD, Fields.withMem, Fields.withMemD, Fields.withE, hw] <;> omega
   · simp [parse, parseA, Hdr.fields, Fields.hdr, Fields.imm, need, Fields.noA, Fields.noB, Fields.noC, Fields.noD, Fields.dab, Fields.dabc, Fields.da, Fields.ab, Fields.abc, Fields.inA, Fields.inD, Fields.withMem, Fields.withMemD, Fields.withE, hw])

theorem Laws.RoundTrip.dkelse (h : Hdr) : Laws.RoundTrip.Statement (.dkelse h) := by
  intro hw0
  have hw := hw0
  obtain ⟨g1, g2, ch, w, r, imm⟩ := h
  (simp only [WellFormed, Instr.formOk, Instr.operandsOk, Opnd.dst, Opnd.src, Opnd.szi, Opnd.sz, Opnd.si, Opnd.vs, Opnd.sOnly, Opnd.ok, numOk_split, Hdr.immIf, Hdr.immBelow, Hdr.hinted, Hdr.unguarded, Hdr.plain, Hdr.guards, PredOp.ok, Hdr.imm24, Bool.and_eq_true, decide_eq_true_eq, beq_iff_eq] at hw
   refine roundtrip_of hw0 rfl ?_ ?_ rfl rfl
   · simp [Fields.fits, Hdr.fields, Fields.dab, Fields.dabc, Fields.da, Fields.ab, Fields.abc, Fields.inA, Fields.inD, Fields.withMem, Fields.withMemD, Fields.withE, hw] <;> omega
   · simp [parse, parseA, Hdr.fields, Fields.hdr, Fields.imm, need, Fields.noA, Fields.noB, Fields.noC, Fields.noD, Fields.dab, Fields.dabc, Fields.da, Fields.ab, Fields.abc, Fields.inA, Fields.inD, Fields.withMem, Fields.withMemD, Fields.withE, hw])

theorem Laws.RoundTrip.dkop (h : Hdr) (fn : DkFn) (t : Ty) (d : Nat) (a : CellOp) (b : CellOp) (c : CellOp) : Laws.RoundTrip.Statement (.dkop h fn t d a b c) := by
  intro hw0
  have hw := hw0
  have hm : c.any = true := by
    simp only [WellFormed, Instr.formOk, Instr.operandsOk, Bool.and_eq_true] at hw
    exact dkop_c_any hw.2.2
  obtain ⟨g1, g2, ch, w, r, imm⟩ := h
  (simp only [WellFormed, Instr.formOk, Instr.operandsOk, Opnd.dst, Opnd.src, Opnd.szi, Opnd.sz, Opnd.si, Opnd.vs, Opnd.sOnly, Opnd.ok, numOk_split, Hdr.immIf, Hdr.immBelow, Hdr.hinted, Hdr.unguarded, Hdr.plain, Hdr.guards, PredOp.ok, Hdr.imm24, Bool.and_eq_true, decide_eq_true_eq, beq_iff_eq] at hw
   refine roundtrip_of hw0 rfl ?_ ?_ rfl rfl
   · simp [Fields.fits, Hdr.fields, Fields.dab, Fields.dabc, Fields.da, Fields.ab, Fields.abc, Fields.inA, Fields.inD, Fields.withMem, Fields.withMemD, Fields.withE, hw, hm] <;> omega
   · simp [parse, parseA, Hdr.fields, Fields.hdr, Fields.imm, need, Fields.noA, Fields.noB, Fields.noC, Fields.noD, Fields.dab, Fields.dabc, Fields.da, Fields.ab, Fields.abc, Fields.inA, Fields.inD, Fields.withMem, Fields.withMemD, Fields.withE, hw, hm])

theorem Laws.RoundTrip.dkmov (h : Hdr) (d : Nat) (a : CellOp) : Laws.RoundTrip.Statement (.dkmov h d a) := by
  intro hw0
  have hw := hw0
  obtain ⟨g1, g2, ch, w, r, imm⟩ := h
  (simp only [WellFormed, Instr.formOk, Instr.operandsOk, Opnd.dst, Opnd.src, Opnd.szi, Opnd.sz, Opnd.si, Opnd.vs, Opnd.sOnly, Opnd.ok, numOk_split, Hdr.immIf, Hdr.immBelow, Hdr.hinted, Hdr.unguarded, Hdr.plain, Hdr.guards, PredOp.ok, Hdr.imm24, Bool.and_eq_true, decide_eq_true_eq, beq_iff_eq] at hw
   refine roundtrip_of hw0 rfl ?_ ?_ rfl rfl
   · simp [Fields.fits, Hdr.fields, Fields.dab, Fields.dabc, Fields.da, Fields.ab, Fields.abc, Fields.inA, Fields.inD, Fields.withMem, Fields.withMemD, Fields.withE, hw] <;> omega
   · simp [parse, parseA, Hdr.fields, Fields.hdr, Fields.imm, need, Fields.noA, Fields.noB, Fields.noC, Fields.noD, Fields.dab, Fields.dabc, Fields.da, Fields.ab, Fields.abc, Fields.inA, Fields.inD, Fields.withMem, Fields.withMemD, Fields.withE, hw])

theorem Laws.RoundTrip.dkld (h : Hdr) (d : Nat) (a : Opnd) : Laws.RoundTrip.Statement (.dkld h d a) := by
  intro hw0
  have hw := hw0
  obtain ⟨g1, g2, ch, w, r, imm⟩ := h
  (simp only [WellFormed, Instr.formOk, Instr.operandsOk, Opnd.dst, Opnd.src, Opnd.szi, Opnd.sz, Opnd.si, Opnd.vs, Opnd.sOnly, Opnd.ok, numOk_split, Hdr.immIf, Hdr.immBelow, Hdr.hinted, Hdr.unguarded, Hdr.plain, Hdr.guards, PredOp.ok, Hdr.imm24, Bool.and_eq_true, decide_eq_true_eq, beq_iff_eq] at hw
   refine roundtrip_of hw0 rfl ?_ ?_ rfl rfl
   · simp [Fields.fits, Hdr.fields, Fields.dab, Fields.dabc, Fields.da, Fields.ab, Fields.abc, Fields.inA, Fields.inD, Fields.withMem, Fields.withMemD, Fields.withE, hw] <;> omega
   · simp [parse, parseA, Hdr.fields, Fields.hdr, Fields.imm, need, Fields.noA, Fields.noB, Fields.noC, Fields.noD, Fields.dab, Fields.dabc, Fields.da, Fields.ab, Fields.abc, Fields.inA, Fields.inD, Fields.withMem, Fields.withMemD, Fields.withE, hw])

theorem Laws.RoundTrip.dkst (h : Hdr) (d : CellOp) (a : Opnd) : Laws.RoundTrip.Statement (.dkst h d a) := by
  intro hw0
  have hw := hw0
  obtain ⟨g1, g2, ch, w, r, imm⟩ := h
  (simp only [WellFormed, Instr.formOk, Instr.operandsOk, Opnd.dst, Opnd.src, Opnd.szi, Opnd.sz, Opnd.si, Opnd.vs, Opnd.sOnly, Opnd.ok, numOk_split, Hdr.immIf, Hdr.immBelow, Hdr.hinted, Hdr.unguarded, Hdr.plain, Hdr.guards, PredOp.ok, Hdr.imm24, Bool.and_eq_true, decide_eq_true_eq, beq_iff_eq] at hw
   refine roundtrip_of hw0 rfl ?_ ?_ rfl rfl
   · simp [Fields.fits, Hdr.fields, Fields.dab, Fields.dabc, Fields.da, Fields.ab, Fields.abc, Fields.inA, Fields.inD, Fields.withMem, Fields.withMemD, Fields.withE, hw] <;> omega
   · simp [parse, parseA, Hdr.fields, Fields.hdr, Fields.imm, need, Fields.noA, Fields.noB, Fields.noC, Fields.noD, Fields.dab, Fields.dabc, Fields.da, Fields.ab, Fields.abc, Fields.inA, Fields.inD, Fields.withMem, Fields.withMemD, Fields.withE, hw])

theorem Laws.RoundTrip.dktex (h : Hdr) (d : Nat) (a : Nat) (b : CellOp) (c : Opnd) (e : Opnd) : Laws.RoundTrip.Statement (.dktex h d a b c e) := by
  intro hw0
  have hw := hw0
  have hm : b.any = true := by
    simp only [WellFormed, Instr.formOk, Instr.operandsOk, Bool.and_eq_true] at hw
    exact dktex_b_any hw.2.1.1.2
  obtain ⟨g1, g2, ch, w, r, imm⟩ := h
  (simp only [WellFormed, Instr.formOk, Instr.operandsOk, Opnd.dst, Opnd.src, Opnd.szi, Opnd.sz, Opnd.si, Opnd.vs, Opnd.sOnly, Opnd.ok, numOk_split, Hdr.immIf, Hdr.immBelow, Hdr.hinted, Hdr.unguarded, Hdr.plain, Hdr.guards, PredOp.ok, Hdr.imm24, Bool.and_eq_true, decide_eq_true_eq, beq_iff_eq] at hw
   refine roundtrip_of hw0 rfl ?_ ?_ rfl rfl
   · simp [Fields.fits, Hdr.fields, Fields.dab, Fields.dabc, Fields.da, Fields.ab, Fields.abc, Fields.inA, Fields.inD, Fields.withMem, Fields.withMemD, Fields.withE, hw, hm] <;> omega
   · simp [parse, parseA, Hdr.fields, Fields.hdr, Fields.imm, need, Fields.noA, Fields.noB, Fields.noC, Fields.noD, Fields.dab, Fields.dabc, Fields.da, Fields.ab, Fields.abc, Fields.inA, Fields.inD, Fields.withMem, Fields.withMemD, Fields.withE, hw, imm24_back, Fields.e, hm])

theorem Laws.RoundTrip.dkany (h : Hdr) (all : Bool) (q : Nat) (a : CellOp) : Laws.RoundTrip.Statement (.dkany h all q a) := by
  intro hw0
  have hw := hw0
  obtain ⟨g1, g2, ch, w, r, imm⟩ := h
  (simp only [WellFormed, Instr.formOk, Instr.operandsOk, Opnd.dst, Opnd.src, Opnd.szi, Opnd.sz, Opnd.si, Opnd.vs, Opnd.sOnly, Opnd.ok, numOk_split, Hdr.immIf, Hdr.immBelow, Hdr.hinted, Hdr.unguarded, Hdr.plain, Hdr.guards, PredOp.ok, Hdr.imm24, Bool.and_eq_true, decide_eq_true_eq, beq_iff_eq] at hw
   refine roundtrip_of hw0 rfl ?_ ?_ rfl rfl
   · simp [Fields.fits, Hdr.fields, Fields.dab, Fields.dabc, Fields.da, Fields.ab, Fields.abc, Fields.inA, Fields.inD, Fields.withMem, Fields.withMemD, Fields.withE, hw] <;> omega
   · simp [parse, parseA, Hdr.fields, Fields.hdr, Fields.imm, need, Fields.noA, Fields.noB, Fields.noC, Fields.noD, Fields.dab, Fields.dabc, Fields.da, Fields.ab, Fields.abc, Fields.inA, Fields.inD, Fields.withMem, Fields.withMemD, Fields.withE, hw])

theorem Laws.RoundTrip.dksum (h : Hdr) (op : RedOp) (t : Ty) (d : Opnd) (a : CellOp) : Laws.RoundTrip.Statement (.dksum h op t d a) := by
  intro hw0
  have hw := hw0
  obtain ⟨g1, g2, ch, w, r, imm⟩ := h
  (simp only [WellFormed, Instr.formOk, Instr.operandsOk, Opnd.dst, Opnd.src, Opnd.szi, Opnd.sz, Opnd.si, Opnd.vs, Opnd.sOnly, Opnd.ok, numOk_split, Hdr.immIf, Hdr.immBelow, Hdr.hinted, Hdr.unguarded, Hdr.plain, Hdr.guards, PredOp.ok, Hdr.imm24, Bool.and_eq_true, decide_eq_true_eq, beq_iff_eq] at hw
   refine roundtrip_of hw0 rfl ?_ ?_ rfl rfl
   · simp [Fields.fits, Hdr.fields, Fields.dab, Fields.dabc, Fields.da, Fields.ab, Fields.abc, Fields.inA, Fields.inD, Fields.withMem, Fields.withMemD, Fields.withE, hw] <;> omega
   · simp [parse, parseA, Hdr.fields, Fields.hdr, Fields.imm, need, Fields.noA, Fields.noB, Fields.noC, Fields.noD, Fields.dab, Fields.dabc, Fields.da, Fields.ab, Fields.abc, Fields.inA, Fields.inD, Fields.withMem, Fields.withMemD, Fields.withE, hw])

theorem Laws.RoundTrip.dkxp (h : Hdr) (d : Opnd) (a : CellOp) (b : Opnd) (c : Opnd) (e : Opnd) : Laws.RoundTrip.Statement (.dkxp h d a b c e) := by
  intro hw0
  have hw := hw0
  obtain ⟨g1, g2, ch, w, r, imm⟩ := h
  (simp only [WellFormed, Instr.formOk, Instr.operandsOk, Opnd.dst, Opnd.src, Opnd.szi, Opnd.sz, Opnd.si, Opnd.vs, Opnd.sOnly, Opnd.ok, numOk_split, Hdr.immIf, Hdr.immBelow, Hdr.hinted, Hdr.unguarded, Hdr.plain, Hdr.guards, PredOp.ok, Hdr.imm24, Bool.and_eq_true, decide_eq_true_eq, beq_iff_eq] at hw
   refine roundtrip_of hw0 rfl ?_ ?_ rfl rfl
   · simp [Fields.fits, Hdr.fields, Fields.dab, Fields.dabc, Fields.da, Fields.ab, Fields.abc, Fields.inA, Fields.inD, Fields.withMem, Fields.withMemD, Fields.withE, hw] <;> omega
   · simp [parse, parseA, Hdr.fields, Fields.hdr, Fields.imm, need, Fields.noA, Fields.noB, Fields.noC, Fields.noD, Fields.dab, Fields.dabc, Fields.da, Fields.ab, Fields.abc, Fields.inA, Fields.inD, Fields.withMem, Fields.withMemD, Fields.withE, hw, imm24_back, Fields.e])

theorem Laws.RoundTrip.dktest (h : Hdr) (test : DkTest) : Laws.RoundTrip.Statement (.dktest h test) := by
  intro hw0
  have hw := hw0
  obtain ⟨g1, g2, ch, w, r, imm⟩ := h
  cases test <;>
  (simp only [WellFormed, Instr.formOk, Instr.operandsOk, Opnd.dst, Opnd.src, Opnd.szi, Opnd.sz, Opnd.si, Opnd.vs, Opnd.sOnly, Opnd.ok, numOk_split, Hdr.immIf, Hdr.immBelow, Hdr.hinted, Hdr.unguarded, Hdr.plain, Hdr.guards, PredOp.ok, Hdr.imm24, Bool.and_eq_true, decide_eq_true_eq, beq_iff_eq] at hw
   refine roundtrip_of hw0 rfl ?_ ?_ rfl rfl
   · simp [Fields.fits, Hdr.fields, Fields.dab, Fields.dabc, Fields.da, Fields.ab, Fields.abc, Fields.inA, Fields.inD, Fields.withMem, Fields.withMemD, Fields.withE, hw] <;> omega
   · simp [parse, parseB, Hdr.fields, Fields.hdr, Fields.imm, need, Fields.noA, Fields.noB, Fields.noC, Fields.noD, Fields.dab, Fields.dabc, Fields.da, Fields.ab, Fields.abc, Fields.inA, Fields.inD, Fields.withMem, Fields.withMemD, Fields.withE, hw])

theorem Laws.RoundTrip.dkflg (h : Hdr) (d : Opnd) : Laws.RoundTrip.Statement (.dkflg h d) := by
  intro hw0
  have hw := hw0
  obtain ⟨g1, g2, ch, w, r, imm⟩ := h
  (simp only [WellFormed, Instr.formOk, Instr.operandsOk, Opnd.dst, Opnd.src, Opnd.szi, Opnd.sz, Opnd.si, Opnd.vs, Opnd.sOnly, Opnd.ok, numOk_split, Hdr.immIf, Hdr.immBelow, Hdr.hinted, Hdr.unguarded, Hdr.plain, Hdr.guards, PredOp.ok, Hdr.imm24, Bool.and_eq_true, decide_eq_true_eq, beq_iff_eq] at hw
   refine roundtrip_of hw0 rfl ?_ ?_ rfl rfl
   · simp [Fields.fits, Hdr.fields, Fields.dab, Fields.dabc, Fields.da, Fields.ab, Fields.abc, Fields.inA, Fields.inD, Fields.withMem, Fields.withMemD, Fields.withE, hw] <;> omega
   · simp [parse, parseB, Hdr.fields, Fields.hdr, Fields.imm, need, Fields.noA, Fields.noB, Fields.noC, Fields.noD, Fields.dab, Fields.dabc, Fields.da, Fields.ab, Fields.abc, Fields.inA, Fields.inD, Fields.withMem, Fields.withMemD, Fields.withE, hw])

theorem Laws.RoundTrip.ddvar (h : Hdr) (d : Opnd) (a : Opnd) : Laws.RoundTrip.Statement (.ddvar h d a) := by
  intro hw0
  have hw := hw0
  obtain ⟨g1, g2, ch, w, r, imm⟩ := h
  (simp only [WellFormed, Instr.formOk, Instr.operandsOk, Opnd.dst, Opnd.src, Opnd.szi, Opnd.sz, Opnd.si, Opnd.vs, Opnd.sOnly, Opnd.ok, numOk_split, Hdr.immIf, Hdr.immBelow, Hdr.hinted, Hdr.unguarded, Hdr.plain, Hdr.guards, PredOp.ok, Hdr.imm24, Bool.and_eq_true, decide_eq_true_eq, beq_iff_eq] at hw
   refine roundtrip_of hw0 rfl ?_ ?_ rfl rfl
   · simp [Fields.fits, Hdr.fields, Fields.dab, Fields.dabc, Fields.da, Fields.ab, Fields.abc, Fields.inA, Fields.inD, Fields.withMem, Fields.withMemD, Fields.withE, hw] <;> omega
   · simp [parse, parseC, Hdr.fields, Fields.hdr, Fields.imm, need, Fields.noA, Fields.noB, Fields.noC, Fields.noD, Fields.dab, Fields.dabc, Fields.da, Fields.ab, Fields.abc, Fields.inA, Fields.inD, Fields.withMem, Fields.withMemD, Fields.withE, hw])

theorem Laws.RoundTrip.ddapp (h : Hdr) (lut : Nat) (d : Opnd) (a : Opnd) (b : Opnd) : Laws.RoundTrip.Statement (.ddapp h lut d a b) := by
  intro hw0
  have hw := hw0
  obtain ⟨g1, g2, ch, w, r, imm⟩ := h
  (simp only [WellFormed, Instr.formOk, Instr.operandsOk, Opnd.dst, Opnd.src, Opnd.szi, Opnd.sz, Opnd.si, Opnd.vs, Opnd.sOnly, Opnd.ok, numOk_split, Hdr.immIf, Hdr.immBelow, Hdr.hinted, Hdr.unguarded, Hdr.plain, Hdr.guards, PredOp.ok, Hdr.imm24, Bool.and_eq_true, decide_eq_true_eq, beq_iff_eq] at hw
   refine roundtrip_of hw0 rfl ?_ ?_ rfl rfl
   · simp [Fields.fits, Hdr.fields, Fields.dab, Fields.dabc, Fields.da, Fields.ab, Fields.abc, Fields.inA, Fields.inD, Fields.withMem, Fields.withMemD, Fields.withE, hw] <;> omega
   · simp [parse, parseC, Hdr.fields, Fields.hdr, Fields.imm, need, Fields.noA, Fields.noB, Fields.noC, Fields.noD, Fields.dab, Fields.dabc, Fields.da, Fields.ab, Fields.abc, Fields.inA, Fields.inD, Fields.withMem, Fields.withMemD, Fields.withE, hw])

theorem Laws.RoundTrip.ddite (h : Hdr) (d : Opnd) (a : Opnd) (b : Opnd) (c : Opnd) : Laws.RoundTrip.Statement (.ddite h d a b c) := by
  intro hw0
  have hw := hw0
  obtain ⟨g1, g2, ch, w, r, imm⟩ := h
  (simp only [WellFormed, Instr.formOk, Instr.operandsOk, Opnd.dst, Opnd.src, Opnd.szi, Opnd.sz, Opnd.si, Opnd.vs, Opnd.sOnly, Opnd.ok, numOk_split, Hdr.immIf, Hdr.immBelow, Hdr.hinted, Hdr.unguarded, Hdr.plain, Hdr.guards, PredOp.ok, Hdr.imm24, Bool.and_eq_true, decide_eq_true_eq, beq_iff_eq] at hw
   refine roundtrip_of hw0 rfl ?_ ?_ rfl rfl
   · simp [Fields.fits, Hdr.fields, Fields.dab, Fields.dabc, Fields.da, Fields.ab, Fields.abc, Fields.inA, Fields.inD, Fields.withMem, Fields.withMemD, Fields.withE, hw] <;> omega
   · simp [parse, parseC, Hdr.fields, Fields.hdr, Fields.imm, need, Fields.noA, Fields.noB, Fields.noC, Fields.noD, Fields.dab, Fields.dabc, Fields.da, Fields.ab, Fields.abc, Fields.inA, Fields.inD, Fields.withMem, Fields.withMemD, Fields.withE, hw])

theorem Laws.RoundTrip.ddnot (h : Hdr) (d : Opnd) (a : Opnd) : Laws.RoundTrip.Statement (.ddnot h d a) := by
  intro hw0
  have hw := hw0
  obtain ⟨g1, g2, ch, w, r, imm⟩ := h
  (simp only [WellFormed, Instr.formOk, Instr.operandsOk, Opnd.dst, Opnd.src, Opnd.szi, Opnd.sz, Opnd.si, Opnd.vs, Opnd.sOnly, Opnd.ok, numOk_split, Hdr.immIf, Hdr.immBelow, Hdr.hinted, Hdr.unguarded, Hdr.plain, Hdr.guards, PredOp.ok, Hdr.imm24, Bool.and_eq_true, decide_eq_true_eq, beq_iff_eq] at hw
   refine roundtrip_of hw0 rfl ?_ ?_ rfl rfl
   · simp [Fields.fits, Hdr.fields, Fields.dab, Fields.dabc, Fields.da, Fields.ab, Fields.abc, Fields.inA, Fields.inD, Fields.withMem, Fields.withMemD, Fields.withE, hw] <;> omega
   · simp [parse, parseC, Hdr.fields, Fields.hdr, Fields.imm, need, Fields.noA, Fields.noB, Fields.noC, Fields.noD, Fields.dab, Fields.dabc, Fields.da, Fields.ab, Fields.abc, Fields.inA, Fields.inD, Fields.withMem, Fields.withMemD, Fields.withE, hw])

theorem Laws.RoundTrip.ddres (h : Hdr) (d : Opnd) (a : Opnd) (b : Opnd) (c : Opnd) : Laws.RoundTrip.Statement (.ddres h d a b c) := by
  intro hw0
  have hw := hw0
  obtain ⟨g1, g2, ch, w, r, imm⟩ := h
  (simp only [WellFormed, Instr.formOk, Instr.operandsOk, Opnd.dst, Opnd.src, Opnd.szi, Opnd.sz, Opnd.si, Opnd.vs, Opnd.sOnly, Opnd.ok, numOk_split, Hdr.immIf, Hdr.immBelow, Hdr.hinted, Hdr.unguarded, Hdr.plain, Hdr.guards, PredOp.ok, Hdr.imm24, Bool.and_eq_true, decide_eq_true_eq, beq_iff_eq] at hw
   refine roundtrip_of hw0 rfl ?_ ?_ rfl rfl
   · simp [Fields.fits, Hdr.fields, Fields.dab, Fields.dabc, Fields.da, Fields.ab, Fields.abc, Fields.inA, Fields.inD, Fields.withMem, Fields.withMemD, Fields.withE, hw] <;> omega
   · simp [parse, parseC, Hdr.fields, Fields.hdr, Fields.imm, need, Fields.noA, Fields.noB, Fields.noC, Fields.noD, Fields.dab, Fields.dabc, Fields.da, Fields.ab, Fields.abc, Fields.inA, Fields.inD, Fields.withMem, Fields.withMemD, Fields.withE, hw])

theorem Laws.RoundTrip.ddqnt (h : Hdr) (all : Bool) (d : Opnd) (a : Opnd) (b : Opnd) : Laws.RoundTrip.Statement (.ddqnt h all d a b) := by
  intro hw0
  have hw := hw0
  obtain ⟨g1, g2, ch, w, r, imm⟩ := h
  (simp only [WellFormed, Instr.formOk, Instr.operandsOk, Opnd.dst, Opnd.src, Opnd.szi, Opnd.sz, Opnd.si, Opnd.vs, Opnd.sOnly, Opnd.ok, numOk_split, Hdr.immIf, Hdr.immBelow, Hdr.hinted, Hdr.unguarded, Hdr.plain, Hdr.guards, PredOp.ok, Hdr.imm24, Bool.and_eq_true, decide_eq_true_eq, beq_iff_eq] at hw
   refine roundtrip_of hw0 rfl ?_ ?_ rfl rfl
   · simp [Fields.fits, Hdr.fields, Fields.dab, Fields.dabc, Fields.da, Fields.ab, Fields.abc, Fields.inA, Fields.inD, Fields.withMem, Fields.withMemD, Fields.withE, hw] <;> omega
   · simp [parse, parseC, Hdr.fields, Fields.hdr, Fields.imm, need, Fields.noA, Fields.noB, Fields.noC, Fields.noD, Fields.dab, Fields.dabc, Fields.da, Fields.ab, Fields.abc, Fields.inA, Fields.inD, Fields.withMem, Fields.withMemD, Fields.withE, hw])

theorem Laws.RoundTrip.ddcnt (h : Hdr) (flt : Bool) (d : Opnd) (a : Opnd) (b : Opnd) (c : Opnd) : Laws.RoundTrip.Statement (.ddcnt h flt d a b c) := by
  intro hw0
  have hw := hw0
  obtain ⟨g1, g2, ch, w, r, imm⟩ := h
  (simp only [WellFormed, Instr.formOk, Instr.operandsOk, Opnd.dst, Opnd.src, Opnd.szi, Opnd.sz, Opnd.si, Opnd.vs, Opnd.sOnly, Opnd.ok, numOk_split, Hdr.immIf, Hdr.immBelow, Hdr.hinted, Hdr.unguarded, Hdr.plain, Hdr.guards, PredOp.ok, Hdr.imm24, Bool.and_eq_true, decide_eq_true_eq, beq_iff_eq] at hw
   refine roundtrip_of hw0 rfl ?_ ?_ rfl rfl
   · simp [Fields.fits, Hdr.fields, Fields.dab, Fields.dabc, Fields.da, Fields.ab, Fields.abc, Fields.inA, Fields.inD, Fields.withMem, Fields.withMemD, Fields.withE, hw] <;> omega
   · simp [parse, parseC, Hdr.fields, Fields.hdr, Fields.imm, need, Fields.noA, Fields.noB, Fields.noC, Fields.noD, Fields.dab, Fields.dabc, Fields.da, Fields.ab, Fields.abc, Fields.inA, Fields.inD, Fields.withMem, Fields.withMemD, Fields.withE, hw])

theorem Laws.RoundTrip.ddexp (h : Hdr) (d : Opnd) (a : Opnd) (b : Opnd) (c : Opnd) : Laws.RoundTrip.Statement (.ddexp h d a b c) := by
  intro hw0
  have hw := hw0
  obtain ⟨g1, g2, ch, w, r, imm⟩ := h
  (simp only [WellFormed, Instr.formOk, Instr.operandsOk, Opnd.dst, Opnd.src, Opnd.szi, Opnd.sz, Opnd.si, Opnd.vs, Opnd.sOnly, Opnd.ok, numOk_split, Hdr.immIf, Hdr.immBelow, Hdr.hinted, Hdr.unguarded, Hdr.plain, Hdr.guards, PredOp.ok, Hdr.imm24, Bool.and_eq_true, decide_eq_true_eq, beq_iff_eq] at hw
   refine roundtrip_of hw0 rfl ?_ ?_ rfl rfl
   · simp [Fields.fits, Hdr.fields, Fields.dab, Fields.dabc, Fields.da, Fields.ab, Fields.abc, Fields.inA, Fields.inD, Fields.withMem, Fields.withMemD, Fields.withE, hw] <;> omega
   · simp [parse, parseC, Hdr.fields, Fields.hdr, Fields.imm, need, Fields.noA, Fields.noB, Fields.noC, Fields.noD, Fields.dab, Fields.dabc, Fields.da, Fields.ab, Fields.abc, Fields.inA, Fields.inD, Fields.withMem, Fields.withMemD, Fields.withE, hw])

theorem Laws.RoundTrip.ddref (h : Hdr) (a : Opnd) : Laws.RoundTrip.Statement (.ddref h a) := by
  intro hw0
  have hw := hw0
  obtain ⟨g1, g2, ch, w, r, imm⟩ := h
  (simp only [WellFormed, Instr.formOk, Instr.operandsOk, Opnd.dst, Opnd.src, Opnd.szi, Opnd.sz, Opnd.si, Opnd.vs, Opnd.sOnly, Opnd.ok, numOk_split, Hdr.immIf, Hdr.immBelow, Hdr.hinted, Hdr.unguarded, Hdr.plain, Hdr.guards, PredOp.ok, Hdr.imm24, Bool.and_eq_true, decide_eq_true_eq, beq_iff_eq] at hw
   refine roundtrip_of hw0 rfl ?_ ?_ rfl rfl
   · simp [Fields.fits, Hdr.fields, Fields.dab, Fields.dabc, Fields.da, Fields.ab, Fields.abc, Fields.inA, Fields.inD, Fields.withMem, Fields.withMemD, Fields.withE, hw] <;> omega
   · simp [parse, parseC, Hdr.fields, Fields.hdr, Fields.imm, need, Fields.noA, Fields.noB, Fields.noC, Fields.noD, Fields.dab, Fields.dabc, Fields.da, Fields.ab, Fields.abc, Fields.inA, Fields.inD, Fields.withMem, Fields.withMemD, Fields.withE, hw])

theorem Laws.RoundTrip.ddunref (h : Hdr) (a : Opnd) : Laws.RoundTrip.Statement (.ddunref h a) := by
  intro hw0
  have hw := hw0
  obtain ⟨g1, g2, ch, w, r, imm⟩ := h
  (simp only [WellFormed, Instr.formOk, Instr.operandsOk, Opnd.dst, Opnd.src, Opnd.szi, Opnd.sz, Opnd.si, Opnd.vs, Opnd.sOnly, Opnd.ok, numOk_split, Hdr.immIf, Hdr.immBelow, Hdr.hinted, Hdr.unguarded, Hdr.plain, Hdr.guards, PredOp.ok, Hdr.imm24, Bool.and_eq_true, decide_eq_true_eq, beq_iff_eq] at hw
   refine roundtrip_of hw0 rfl ?_ ?_ rfl rfl
   · simp [Fields.fits, Hdr.fields, Fields.dab, Fields.dabc, Fields.da, Fields.ab, Fields.abc, Fields.inA, Fields.inD, Fields.withMem, Fields.withMemD, Fields.withE, hw] <;> omega
   · simp [parse, parseC, Hdr.fields, Fields.hdr, Fields.imm, need, Fields.noA, Fields.noB, Fields.noC, Fields.noD, Fields.dab, Fields.dabc, Fields.da, Fields.ab, Fields.abc, Fields.inA, Fields.inD, Fields.withMem, Fields.withMemD, Fields.withE, hw])

theorem Laws.RoundTrip.ddswp (h : Hdr) : Laws.RoundTrip.Statement (.ddswp h) := by
  intro hw0
  have hw := hw0
  obtain ⟨g1, g2, ch, w, r, imm⟩ := h
  (simp only [WellFormed, Instr.formOk, Instr.operandsOk, Opnd.dst, Opnd.src, Opnd.szi, Opnd.sz, Opnd.si, Opnd.vs, Opnd.sOnly, Opnd.ok, numOk_split, Hdr.immIf, Hdr.immBelow, Hdr.hinted, Hdr.unguarded, Hdr.plain, Hdr.guards, PredOp.ok, Hdr.imm24, Bool.and_eq_true, decide_eq_true_eq, beq_iff_eq] at hw
   refine roundtrip_of hw0 rfl ?_ ?_ rfl rfl
   · simp [Fields.fits, Hdr.fields, Fields.dab, Fields.dabc, Fields.da, Fields.ab, Fields.abc, Fields.inA, Fields.inD, Fields.withMem, Fields.withMemD, Fields.withE, hw] <;> omega
   · simp [parse, parseC, Hdr.fields, Fields.hdr, Fields.imm, need, Fields.noA, Fields.noB, Fields.noC, Fields.noD, Fields.dab, Fields.dabc, Fields.da, Fields.ab, Fields.abc, Fields.inA, Fields.inD, Fields.withMem, Fields.withMemD, Fields.withE, hw])

theorem Laws.RoundTrip.ddord (h : Hdr) (a : Opnd) : Laws.RoundTrip.Statement (.ddord h a) := by
  intro hw0
  have hw := hw0
  obtain ⟨g1, g2, ch, w, r, imm⟩ := h
  (simp only [WellFormed, Instr.formOk, Instr.operandsOk, Opnd.dst, Opnd.src, Opnd.szi, Opnd.sz, Opnd.si, Opnd.vs, Opnd.sOnly, Opnd.ok, numOk_split, Hdr.immIf, Hdr.immBelow, Hdr.hinted, Hdr.unguarded, Hdr.plain, Hdr.guards, PredOp.ok, Hdr.imm24, Bool.and_eq_true, decide_eq_true_eq, beq_iff_eq] at hw
   refine roundtrip_of hw0 rfl ?_ ?_ rfl rfl
   · simp [Fields.fits, Hdr.fields, Fields.dab, Fields.dabc, Fields.da, Fields.ab, Fields.abc, Fields.inA, Fields.inD, Fields.withMem, Fields.withMemD, Fields.withE, hw] <;> omega
   · simp [parse, parseC, Hdr.fields, Fields.hdr, Fields.imm, need, Fields.noA, Fields.noB, Fields.noC, Fields.noD, Fields.dab, Fields.dabc, Fields.da, Fields.ab, Fields.abc, Fields.inA, Fields.inD, Fields.withMem, Fields.withMemD, Fields.withE, hw])

theorem Laws.RoundTrip.ddstat (h : Hdr) (d : Opnd) (a : Opnd) : Laws.RoundTrip.Statement (.ddstat h d a) := by
  intro hw0
  have hw := hw0
  obtain ⟨g1, g2, ch, w, r, imm⟩ := h
  (simp only [WellFormed, Instr.formOk, Instr.operandsOk, Opnd.dst, Opnd.src, Opnd.szi, Opnd.sz, Opnd.si, Opnd.vs, Opnd.sOnly, Opnd.ok, numOk_split, Hdr.immIf, Hdr.immBelow, Hdr.hinted, Hdr.unguarded, Hdr.plain, Hdr.guards, PredOp.ok, Hdr.imm24, Bool.and_eq_true, decide_eq_true_eq, beq_iff_eq] at hw
   refine roundtrip_of hw0 rfl ?_ ?_ rfl rfl
   · simp [Fields.fits, Hdr.fields, Fields.dab, Fields.dabc, Fields.da, Fields.ab, Fields.abc, Fields.inA, Fields.inD, Fields.withMem, Fields.withMemD, Fields.withE, hw] <;> omega
   · simp [parse, parseC, Hdr.fields, Fields.hdr, Fields.imm, need, Fields.noA, Fields.noB, Fields.noC, Fields.noD, Fields.dab, Fields.dabc, Fields.da, Fields.ab, Fields.abc, Fields.inA, Fields.inD, Fields.withMem, Fields.withMemD, Fields.withE, hw])

theorem Laws.RoundTrip.ddnode (h : Hdr) (d : Opnd) (a : Opnd) : Laws.RoundTrip.Statement (.ddnode h d a) := by
  intro hw0
  have hw := hw0
  obtain ⟨g1, g2, ch, w, r, imm⟩ := h
  (simp only [WellFormed, Instr.formOk, Instr.operandsOk, Opnd.dst, Opnd.src, Opnd.szi, Opnd.sz, Opnd.si, Opnd.vs, Opnd.sOnly, Opnd.ok, numOk_split, Hdr.immIf, Hdr.immBelow, Hdr.hinted, Hdr.unguarded, Hdr.plain, Hdr.guards, PredOp.ok, Hdr.imm24, Bool.and_eq_true, decide_eq_true_eq, beq_iff_eq] at hw
   refine roundtrip_of hw0 rfl ?_ ?_ rfl rfl
   · simp [Fields.fits, Hdr.fields, Fields.dab, Fields.dabc, Fields.da, Fields.ab, Fields.abc, Fields.inA, Fields.inD, Fields.withMem, Fields.withMemD, Fields.withE, hw] <;> omega
   · simp [parse, parseC, Hdr.fields, Fields.hdr, Fields.imm, need, Fields.noA, Fields.noB, Fields.noC, Fields.noD, Fields.dab, Fields.dabc, Fields.da, Fields.ab, Fields.abc, Fields.inA, Fields.inD, Fields.withMem, Fields.withMemD, Fields.withE, hw])

theorem Laws.RoundTrip.pgreg (h : Hdr) (a : Opnd) (b : Opnd) : Laws.RoundTrip.Statement (.pgreg h a b) := by
  intro hw0
  have hw := hw0
  have hm : ¬ b.byte = 240 := by
    simp only [WellFormed, Instr.formOk, Instr.operandsOk, Bool.and_eq_true] at hw
    exact si_byte hw.2.2
  obtain ⟨g1, g2, ch, w, r, imm⟩ := h
  (simp only [WellFormed, Instr.formOk, Instr.operandsOk, Opnd.dst, Opnd.src, Opnd.szi, Opnd.sz, Opnd.si, Opnd.vs, Opnd.sOnly, Opnd.ok, numOk_split, Hdr.immIf, Hdr.immBelow, Hdr.hinted, Hdr.unguarded, Hdr.plain, Hdr.guards, PredOp.ok, Hdr.imm24, Bool.and_eq_true, decide_eq_true_eq, beq_iff_eq] at hw
   refine roundtrip_of hw0 rfl ?_ ?_ rfl rfl
   · simp [Fields.fits, Hdr.fields, Fields.dab, Fields.dabc, Fields.da, Fields.ab, Fields.abc, Fields.inA, Fields.inD, Fields.withMem, Fields.withMemD, Fields.withE, hw, hm] <;> omega
   · simp [parse, parseD, Hdr.fields, Fields.hdr, Fields.imm, need, Fields.noA, Fields.noB, Fields.noC, Fields.noD, Fields.dab, Fields.dabc, Fields.da, Fields.ab, Fields.abc, Fields.inA, Fields.inD, Fields.withMem, Fields.withMemD, Fields.withE, hw, hm])

theorem Laws.RoundTrip.pgregRelease (h : Hdr) (a : Opnd) : Laws.RoundTrip.Statement (.pgregRelease h a) := by
  intro hw0
  have hw := hw0
  obtain ⟨g1, g2, ch, w, r, imm⟩ := h
  (simp only [WellFormed, Instr.formOk, Instr.operandsOk, Opnd.dst, Opnd.src, Opnd.szi, Opnd.sz, Opnd.si, Opnd.vs, Opnd.sOnly, Opnd.ok, numOk_split, Hdr.immIf, Hdr.immBelow, Hdr.hinted, Hdr.unguarded, Hdr.plain, Hdr.guards, PredOp.ok, Hdr.imm24, Bool.and_eq_true, decide_eq_true_eq, beq_iff_eq] at hw
   refine roundtrip_of hw0 rfl ?_ ?_ rfl rfl
   · simp [Fields.fits, Hdr.fields, Fields.dab, Fields.dabc, Fields.da, Fields.ab, Fields.abc, Fields.inA, Fields.inD, Fields.withMem, Fields.withMemD, Fields.withE, hw] <;> omega
   · simp [parse, parseD, Hdr.fields, Fields.hdr, Fields.imm, need, Fields.noA, Fields.noB, Fields.noC, Fields.noD, Fields.dab, Fields.dabc, Fields.da, Fields.ab, Fields.abc, Fields.inA, Fields.inD, Fields.withMem, Fields.withMemD, Fields.withE, hw])

theorem Laws.RoundTrip.pgdone (h : Hdr) : Laws.RoundTrip.Statement (.pgdone h) := by
  intro hw0
  have hw := hw0
  obtain ⟨g1, g2, ch, w, r, imm⟩ := h
  (simp only [WellFormed, Instr.formOk, Instr.operandsOk, Opnd.dst, Opnd.src, Opnd.szi, Opnd.sz, Opnd.si, Opnd.vs, Opnd.sOnly, Opnd.ok, numOk_split, Hdr.immIf, Hdr.immBelow, Hdr.hinted, Hdr.unguarded, Hdr.plain, Hdr.guards, PredOp.ok, Hdr.imm24, Bool.and_eq_true, decide_eq_true_eq, beq_iff_eq] at hw
   refine roundtrip_of hw0 rfl ?_ ?_ rfl rfl
   · simp [Fields.fits, Hdr.fields, Fields.dab, Fields.dabc, Fields.da, Fields.ab, Fields.abc, Fields.inA, Fields.inD, Fields.withMem, Fields.withMemD, Fields.withE, hw] <;> omega
   · simp [parse, parseD, Hdr.fields, Fields.hdr, Fields.imm, need, Fields.noA, Fields.noB, Fields.noC, Fields.noD, Fields.dab, Fields.dabc, Fields.da, Fields.ab, Fields.abc, Fields.inA, Fields.inD, Fields.withMem, Fields.withMemD, Fields.withE, hw])

theorem Laws.RoundTrip.pgfail (h : Hdr) (a : Opnd) : Laws.RoundTrip.Statement (.pgfail h a) := by
  intro hw0
  have hw := hw0
  obtain ⟨g1, g2, ch, w, r, imm⟩ := h
  (simp only [WellFormed, Instr.formOk, Instr.operandsOk, Opnd.dst, Opnd.src, Opnd.szi, Opnd.sz, Opnd.si, Opnd.vs, Opnd.sOnly, Opnd.ok, numOk_split, Hdr.immIf, Hdr.immBelow, Hdr.hinted, Hdr.unguarded, Hdr.plain, Hdr.guards, PredOp.ok, Hdr.imm24, Bool.and_eq_true, decide_eq_true_eq, beq_iff_eq] at hw
   refine roundtrip_of hw0 rfl ?_ ?_ rfl rfl
   · simp [Fields.fits, Hdr.fields, Fields.dab, Fields.dabc, Fields.da, Fields.ab, Fields.abc, Fields.inA, Fields.inD, Fields.withMem, Fields.withMemD, Fields.withE, hw] <;> omega
   · simp [parse, parseD, Hdr.fields, Fields.hdr, Fields.imm, need, Fields.noA, Fields.noB, Fields.noC, Fields.noD, Fields.dab, Fields.dabc, Fields.da, Fields.ab, Fields.abc, Fields.inA, Fields.inD, Fields.withMem, Fields.withMemD, Fields.withE, hw])

theorem Laws.RoundTrip.pgrstBlk (h : Hdr) (a : Opnd) : Laws.RoundTrip.Statement (.pgrstBlk h a) := by
  intro hw0
  have hw := hw0
  obtain ⟨g1, g2, ch, w, r, imm⟩ := h
  (simp only [WellFormed, Instr.formOk, Instr.operandsOk, Opnd.dst, Opnd.src, Opnd.szi, Opnd.sz, Opnd.si, Opnd.vs, Opnd.sOnly, Opnd.ok, numOk_split, Hdr.immIf, Hdr.immBelow, Hdr.hinted, Hdr.unguarded, Hdr.plain, Hdr.guards, PredOp.ok, Hdr.imm24, Bool.and_eq_true, decide_eq_true_eq, beq_iff_eq] at hw
   refine roundtrip_of hw0 rfl ?_ ?_ rfl rfl
   · simp [Fields.fits, Hdr.fields, Fields.dab, Fields.dabc, Fields.da, Fields.ab, Fields.abc, Fields.inA, Fields.inD, Fields.withMem, Fields.withMemD, Fields.withE, hw] <;> omega
   · simp [parse, parseD, Hdr.fields, Fields.hdr, Fields.imm, need, Fields.noA, Fields.noB, Fields.noC, Fields.noD, Fields.dab, Fields.dabc, Fields.da, Fields.ab, Fields.abc, Fields.inA, Fields.inD, Fields.withMem, Fields.withMemD, Fields.withE, hw])

theorem Laws.RoundTrip.pgrstSlot (h : Hdr) (a : Opnd) : Laws.RoundTrip.Statement (.pgrstSlot h a) := by
  intro hw0
  have hw := hw0
  obtain ⟨g1, g2, ch, w, r, imm⟩ := h
  (simp only [WellFormed, Instr.formOk, Instr.operandsOk, Opnd.dst, Opnd.src, Opnd.szi, Opnd.sz, Opnd.si, Opnd.vs, Opnd.sOnly, Opnd.ok, numOk_split, Hdr.immIf, Hdr.immBelow, Hdr.hinted, Hdr.unguarded, Hdr.plain, Hdr.guards, PredOp.ok, Hdr.imm24, Bool.and_eq_true, decide_eq_true_eq, beq_iff_eq] at hw
   refine roundtrip_of hw0 rfl ?_ ?_ rfl rfl
   · simp [Fields.fits, Hdr.fields, Fields.dab, Fields.dabc, Fields.da, Fields.ab, Fields.abc, Fields.inA, Fields.inD, Fields.withMem, Fields.withMemD, Fields.withE, hw] <;> omega
   · simp [parse, parseD, Hdr.fields, Fields.hdr, Fields.imm, need, Fields.noA, Fields.noB, Fields.noC, Fields.noD, Fields.dab, Fields.dabc, Fields.da, Fields.ab, Fields.abc, Fields.inA, Fields.inD, Fields.withMem, Fields.withMemD, Fields.withE, hw])

theorem Laws.RoundTrip.launch (h : Hdr) (d : Opnd) (a : Opnd) : Laws.RoundTrip.Statement (.launch h d a) := by
  intro hw0
  have hw := hw0
  obtain ⟨g1, g2, ch, w, r, imm⟩ := h
  (simp only [WellFormed, Instr.formOk, Instr.operandsOk, Opnd.dst, Opnd.src, Opnd.szi, Opnd.sz, Opnd.si, Opnd.vs, Opnd.sOnly, Opnd.ok, numOk_split, Hdr.immIf, Hdr.immBelow, Hdr.hinted, Hdr.unguarded, Hdr.plain, Hdr.guards, PredOp.ok, Hdr.imm24, Bool.and_eq_true, decide_eq_true_eq, beq_iff_eq] at hw
   refine roundtrip_of hw0 rfl ?_ ?_ rfl rfl
   · simp [Fields.fits, Hdr.fields, Fields.dab, Fields.dabc, Fields.da, Fields.ab, Fields.abc, Fields.inA, Fields.inD, Fields.withMem, Fields.withMemD, Fields.withE, hw] <;> omega
   · simp [parse, parseD, Hdr.fields, Fields.hdr, Fields.imm, need, Fields.noA, Fields.noB, Fields.noC, Fields.noD, Fields.dab, Fields.dabc, Fields.da, Fields.ab, Fields.abc, Fields.inA, Fields.inD, Fields.withMem, Fields.withMemD, Fields.withE, hw])

theorem Laws.RoundTrip.lwait (h : Hdr) (d : Opnd) (a : Opnd) : Laws.RoundTrip.Statement (.lwait h d a) := by
  intro hw0
  have hw := hw0
  obtain ⟨g1, g2, ch, w, r, imm⟩ := h
  (simp only [WellFormed, Instr.formOk, Instr.operandsOk, Opnd.dst, Opnd.src, Opnd.szi, Opnd.sz, Opnd.si, Opnd.vs, Opnd.sOnly, Opnd.ok, numOk_split, Hdr.immIf, Hdr.immBelow, Hdr.hinted, Hdr.unguarded, Hdr.plain, Hdr.guards, PredOp.ok, Hdr.imm24, Bool.and_eq_true, decide_eq_true_eq, beq_iff_eq] at hw
   refine roundtrip_of hw0 rfl ?_ ?_ rfl rfl
   · simp [Fields.fits, Hdr.fields, Fields.dab, Fields.dabc, Fields.da, Fields.ab, Fields.abc, Fields.inA, Fields.inD, Fields.withMem, Fields.withMemD, Fields.withE, hw] <;> omega
   · simp [parse, parseD, Hdr.fields, Fields.hdr, Fields.imm, need, Fields.noA, Fields.noB, Fields.noC, Fields.noD, Fields.dab, Fields.dabc, Fields.da, Fields.ab, Fields.abc, Fields.inA, Fields.inD, Fields.withMem, Fields.withMemD, Fields.withE, hw])

theorem Laws.RoundTrip.migr (h : Hdr) (d : Opnd) (a : Opnd) : Laws.RoundTrip.Statement (.migr h d a) := by
  intro hw0
  have hw := hw0
  obtain ⟨g1, g2, ch, w, r, imm⟩ := h
  (simp only [WellFormed, Instr.formOk, Instr.operandsOk, Opnd.dst, Opnd.src, Opnd.szi, Opnd.sz, Opnd.si, Opnd.vs, Opnd.sOnly, Opnd.ok, numOk_split, Hdr.immIf, Hdr.immBelow, Hdr.hinted, Hdr.unguarded, Hdr.plain, Hdr.guards, PredOp.ok, Hdr.imm24, Bool.and_eq_true, decide_eq_true_eq, beq_iff_eq] at hw
   refine roundtrip_of hw0 rfl ?_ ?_ rfl rfl
   · simp [Fields.fits, Hdr.fields, Fields.dab, Fields.dabc, Fields.da, Fields.ab, Fields.abc, Fields.inA, Fields.inD, Fields.withMem, Fields.withMemD, Fields.withE, hw] <;> omega
   · simp [parse, parseD, Hdr.fields, Fields.hdr, Fields.imm, need, Fields.noA, Fields.noB, Fields.noC, Fields.noD, Fields.dab, Fields.dabc, Fields.da, Fields.ab, Fields.abc, Fields.inA, Fields.inD, Fields.withMem, Fields.withMemD, Fields.withE, hw])

theorem Laws.RoundTrip.shootDg (h : Hdr) (a : Opnd) (b : Opnd) (c : Opnd) : Laws.RoundTrip.Statement (.shootDg h a b c) := by
  intro hw0
  have hw := hw0
  obtain ⟨g1, g2, ch, w, r, imm⟩ := h
  (simp only [WellFormed, Instr.formOk, Instr.operandsOk, Opnd.dst, Opnd.src, Opnd.szi, Opnd.sz, Opnd.si, Opnd.vs, Opnd.sOnly, Opnd.ok, numOk_split, Hdr.immIf, Hdr.immBelow, Hdr.hinted, Hdr.unguarded, Hdr.plain, Hdr.guards, PredOp.ok, Hdr.imm24, Bool.and_eq_true, decide_eq_true_eq, beq_iff_eq] at hw
   refine roundtrip_of hw0 rfl ?_ ?_ rfl rfl
   · simp [Fields.fits, Hdr.fields, Fields.dab, Fields.dabc, Fields.da, Fields.ab, Fields.abc, Fields.inA, Fields.inD, Fields.withMem, Fields.withMemD, Fields.withE, hw] <;> omega
   · simp [parse, parseE, Hdr.fields, Fields.hdr, Fields.imm, need, Fields.noA, Fields.noB, Fields.noC, Fields.noD, Fields.dab, Fields.dabc, Fields.da, Fields.ab, Fields.abc, Fields.inA, Fields.inD, Fields.withMem, Fields.withMemD, Fields.withE, hw])

theorem Laws.RoundTrip.shootFlush (h : Hdr) (a : Opnd) : Laws.RoundTrip.Statement (.shootFlush h a) := by
  intro hw0
  have hw := hw0
  obtain ⟨g1, g2, ch, w, r, imm⟩ := h
  (simp only [WellFormed, Instr.formOk, Instr.operandsOk, Opnd.dst, Opnd.src, Opnd.szi, Opnd.sz, Opnd.si, Opnd.vs, Opnd.sOnly, Opnd.ok, numOk_split, Hdr.immIf, Hdr.immBelow, Hdr.hinted, Hdr.unguarded, Hdr.plain, Hdr.guards, PredOp.ok, Hdr.imm24, Bool.and_eq_true, decide_eq_true_eq, beq_iff_eq] at hw
   refine roundtrip_of hw0 rfl ?_ ?_ rfl rfl
   · simp [Fields.fits, Hdr.fields, Fields.dab, Fields.dabc, Fields.da, Fields.ab, Fields.abc, Fields.inA, Fields.inD, Fields.withMem, Fields.withMemD, Fields.withE, hw] <;> omega
   · simp [parse, parseE, Hdr.fields, Fields.hdr, Fields.imm, need, Fields.noA, Fields.noB, Fields.noC, Fields.noD, Fields.dab, Fields.dabc, Fields.da, Fields.ab, Fields.abc, Fields.inA, Fields.inD, Fields.withMem, Fields.withMemD, Fields.withE, hw])

theorem Laws.RoundTrip.halt (h : Hdr) (d : Opnd) : Laws.RoundTrip.Statement (.halt h d) := by
  intro hw0
  have hw := hw0
  obtain ⟨g1, g2, ch, w, r, imm⟩ := h
  (simp only [WellFormed, Instr.formOk, Instr.operandsOk, Opnd.dst, Opnd.src, Opnd.szi, Opnd.sz, Opnd.si, Opnd.vs, Opnd.sOnly, Opnd.ok, numOk_split, Hdr.immIf, Hdr.immBelow, Hdr.hinted, Hdr.unguarded, Hdr.plain, Hdr.guards, PredOp.ok, Hdr.imm24, Bool.and_eq_true, decide_eq_true_eq, beq_iff_eq] at hw
   refine roundtrip_of hw0 rfl ?_ ?_ rfl rfl
   · simp [Fields.fits, Hdr.fields, Fields.dab, Fields.dabc, Fields.da, Fields.ab, Fields.abc, Fields.inA, Fields.inD, Fields.withMem, Fields.withMemD, Fields.withE, hw] <;> omega
   · simp [parse, parseE, Hdr.fields, Fields.hdr, Fields.imm, need, Fields.noA, Fields.noB, Fields.noC, Fields.noD, Fields.dab, Fields.dabc, Fields.da, Fields.ab, Fields.abc, Fields.inA, Fields.inD, Fields.withMem, Fields.withMemD, Fields.withE, hw])

theorem Laws.RoundTrip.ctxstopPre (h : Hdr) (d : Opnd) (a : Opnd) : Laws.RoundTrip.Statement (.ctxstopPre h d a) := by
  intro hw0
  have hw := hw0
  obtain ⟨g1, g2, ch, w, r, imm⟩ := h
  (simp only [WellFormed, Instr.formOk, Instr.operandsOk, Opnd.dst, Opnd.src, Opnd.szi, Opnd.sz, Opnd.si, Opnd.vs, Opnd.sOnly, Opnd.ok, numOk_split, Hdr.immIf, Hdr.immBelow, Hdr.hinted, Hdr.unguarded, Hdr.plain, Hdr.guards, PredOp.ok, Hdr.imm24, Bool.and_eq_true, decide_eq_true_eq, beq_iff_eq] at hw
   refine roundtrip_of hw0 rfl ?_ ?_ rfl rfl
   · simp [Fields.fits, Hdr.fields, Fields.dab, Fields.dabc, Fields.da, Fields.ab, Fields.abc, Fields.inA, Fields.inD, Fields.withMem, Fields.withMemD, Fields.withE, hw] <;> omega
   · simp [parse, parseE, Hdr.fields, Fields.hdr, Fields.imm, need, Fields.noA, Fields.noB, Fields.noC, Fields.noD, Fields.dab, Fields.dabc, Fields.da, Fields.ab, Fields.abc, Fields.inA, Fields.inD, Fields.withMem, Fields.withMemD, Fields.withE, hw])

theorem Laws.RoundTrip.ctxstopKill (h : Hdr) (d : Opnd) (a : Opnd) : Laws.RoundTrip.Statement (.ctxstopKill h d a) := by
  intro hw0
  have hw := hw0
  obtain ⟨g1, g2, ch, w, r, imm⟩ := h
  (simp only [WellFormed, Instr.formOk, Instr.operandsOk, Opnd.dst, Opnd.src, Opnd.szi, Opnd.sz, Opnd.si, Opnd.vs, Opnd.sOnly, Opnd.ok, numOk_split, Hdr.immIf, Hdr.immBelow, Hdr.hinted, Hdr.unguarded, Hdr.plain, Hdr.guards, PredOp.ok, Hdr.imm24, Bool.and_eq_true, decide_eq_true_eq, beq_iff_eq] at hw
   refine roundtrip_of hw0 rfl ?_ ?_ rfl rfl
   · simp [Fields.fits, Hdr.fields, Fields.dab, Fields.dabc, Fields.da, Fields.ab, Fields.abc, Fields.inA, Fields.inD, Fields.withMem, Fields.withMemD, Fields.withE, hw] <;> omega
   · simp [parse, parseE, Hdr.fields, Fields.hdr, Fields.imm, need, Fields.noA, Fields.noB, Fields.noC, Fields.noD, Fields.dab, Fields.dabc, Fields.da, Fields.ab, Fields.abc, Fields.inA, Fields.inD, Fields.withMem, Fields.withMemD, Fields.withE, hw])

theorem Laws.RoundTrip.ctxgo (h : Hdr) (a : Opnd) (b : Opnd) : Laws.RoundTrip.Statement (.ctxgo h a b) := by
  intro hw0
  have hw := hw0
  obtain ⟨g1, g2, ch, w, r, imm⟩ := h
  (simp only [WellFormed, Instr.formOk, Instr.operandsOk, Opnd.dst, Opnd.src, Opnd.szi, Opnd.sz, Opnd.si, Opnd.vs, Opnd.sOnly, Opnd.ok, numOk_split, Hdr.immIf, Hdr.immBelow, Hdr.hinted, Hdr.unguarded, Hdr.plain, Hdr.guards, PredOp.ok, Hdr.imm24, Bool.and_eq_true, decide_eq_true_eq, beq_iff_eq] at hw
   refine roundtrip_of hw0 rfl ?_ ?_ rfl rfl
   · simp [Fields.fits, Hdr.fields, Fields.dab, Fields.dabc, Fields.da, Fields.ab, Fields.abc, Fields.inA, Fields.inD, Fields.withMem, Fields.withMemD, Fields.withE, hw] <;> omega
   · simp [parse, parseE, Hdr.fields, Fields.hdr, Fields.imm, need, Fields.noA, Fields.noB, Fields.noC, Fields.noD, Fields.dab, Fields.dabc, Fields.da, Fields.ab, Fields.abc, Fields.inA, Fields.inD, Fields.withMem, Fields.withMemD, Fields.withE, hw])

theorem Laws.RoundTrip.fyLaunch (rd : Nat) (rs1 : Nat) (rs2 : Nat) : Laws.RoundTrip.Statement (.fyLaunch rd rs1 rs2) := fun _ _ h => nomatch h

theorem Laws.RoundTrip.writeFlags (h : Hdr) (t : Ty) (a : Opnd) : Laws.RoundTrip.Statement (.writeFlags h t a) := by
  intro hw0
  have hw := hw0
  obtain ⟨g1, g2, ch, w, r, imm⟩ := h
  (simp only [WellFormed, Instr.formOk, Instr.operandsOk, Opnd.dst, Opnd.src, Opnd.szi, Opnd.sz, Opnd.si, Opnd.vs, Opnd.sOnly, Opnd.ok, numOk_split, Hdr.immIf, Hdr.immBelow, Hdr.hinted, Hdr.unguarded, Hdr.plain, Hdr.guards, PredOp.ok, Hdr.imm24, Bool.and_eq_true, decide_eq_true_eq, beq_iff_eq] at hw
   obtain rfl : imm = 0x20#32 := BitVec.eq_of_toNat_eq (by simp [hw])
   refine roundtrip_of hw0 rfl ?_ ?_ rfl rfl
   · simp [Fields.fits, Hdr.fields, Fields.dab, Fields.dabc, Fields.da, Fields.ab, Fields.abc, Fields.inA, Fields.inD, Fields.withMem, Fields.withMemD, Fields.withE, hw] <;> omega
   · simp [parse, parse5, Hdr.fields, Fields.hdr, Fields.imm, need, Fields.noA, Fields.noB, Fields.noC, Fields.noD, Fields.dab, Fields.dabc, Fields.da, Fields.ab, Fields.abc, Fields.inA, Fields.inD, Fields.withMem, Fields.withMemD, Fields.withE, hw, parseWrsr_flags])

theorem Laws.RoundTrip.writeDkflags (h : Hdr) (t : Ty) (a : Opnd) : Laws.RoundTrip.Statement (.writeDkflags h t a) := by
  intro hw0
  have hw := hw0
  obtain ⟨g1, g2, ch, w, r, imm⟩ := h
  (simp only [WellFormed, Instr.formOk, Instr.operandsOk, Opnd.dst, Opnd.src, Opnd.szi, Opnd.sz, Opnd.si, Opnd.vs, Opnd.sOnly, Opnd.ok, numOk_split, Hdr.immIf, Hdr.immBelow, Hdr.hinted, Hdr.unguarded, Hdr.plain, Hdr.guards, PredOp.ok, Hdr.imm24, Bool.and_eq_true, decide_eq_true_eq, beq_iff_eq] at hw
   obtain rfl : imm = 0x21#32 := BitVec.eq_of_toNat_eq (by simp [hw])
   refine roundtrip_of hw0 rfl ?_ ?_ rfl rfl
   · simp [Fields.fits, Hdr.fields, Fields.dab, Fields.dabc, Fields.da, Fields.ab, Fields.abc, Fields.inA, Fields.inD, Fields.withMem, Fields.withMemD, Fields.withE, hw] <;> omega
   · simp [parse, parse5, Hdr.fields, Fields.hdr, Fields.imm, need, Fields.noA, Fields.noB, Fields.noC, Fields.noD, Fields.dab, Fields.dabc, Fields.da, Fields.ab, Fields.abc, Fields.inA, Fields.inD, Fields.withMem, Fields.withMemD, Fields.withE, hw, parseWrsr_dkflags])

theorem Laws.RoundTrip.writeTrapvec (h : Hdr) (t : Ty) (a : Opnd) : Laws.RoundTrip.Statement (.writeTrapvec h t a) := by
  intro hw0
  have hw := hw0
  obtain ⟨g1, g2, ch, w, r, imm⟩ := h
  (simp only [WellFormed, Instr.formOk, Instr.operandsOk, Opnd.dst, Opnd.src, Opnd.szi, Opnd.sz, Opnd.si, Opnd.vs, Opnd.sOnly, Opnd.ok, numOk_split, Hdr.immIf, Hdr.immBelow, Hdr.hinted, Hdr.unguarded, Hdr.plain, Hdr.guards, PredOp.ok, Hdr.imm24, Bool.and_eq_true, decide_eq_true_eq, beq_iff_eq] at hw
   obtain rfl : imm = 0x30#32 := BitVec.eq_of_toNat_eq (by simp [hw])
   refine roundtrip_of hw0 rfl ?_ ?_ rfl rfl
   · simp [Fields.fits, Hdr.fields, Fields.dab, Fields.dabc, Fields.da, Fields.ab, Fields.abc, Fields.inA, Fields.inD, Fields.withMem, Fields.withMemD, Fields.withE, hw] <;> omega
   · simp [parse, parse5, Hdr.fields, Fields.hdr, Fields.imm, need, Fields.noA, Fields.noB, Fields.noC, Fields.noD, Fields.dab, Fields.dabc, Fields.da, Fields.ab, Fields.abc, Fields.inA, Fields.inD, Fields.withMem, Fields.withMemD, Fields.withE, hw, parseWrsr_vec])

theorem Laws.RoundTrip.writeTrapRegister (h : Hdr) (t : Ty) (a : Opnd) : Laws.RoundTrip.Statement (.writeTrapRegister h t a) := by
  intro hw0
  have hw := hw0
  obtain ⟨g1, g2, ch, w, r, imm⟩ := h
  (simp only [WellFormed, Instr.formOk, Instr.operandsOk, Opnd.dst, Opnd.src, Opnd.szi, Opnd.sz, Opnd.si, Opnd.vs, Opnd.sOnly, Opnd.ok, numOk_split, Hdr.immIf, Hdr.immBelow, Hdr.hinted, Hdr.unguarded, Hdr.plain, Hdr.guards, PredOp.ok, Hdr.imm24, Bool.and_eq_true, decide_eq_true_eq, beq_iff_eq] at hw
   refine roundtrip_of hw0 rfl ?_ ?_ rfl rfl
   · simp [Fields.fits, Hdr.fields, Fields.dab, Fields.dabc, Fields.da, Fields.ab, Fields.abc, Fields.inA, Fields.inD, Fields.withMem, Fields.withMemD, Fields.withE, hw] <;> omega
   · simp [parse, parse5, Hdr.fields, Fields.hdr, Fields.imm, need, Fields.noA, Fields.noB, Fields.noC, Fields.noD, Fields.dab, Fields.dabc, Fields.da, Fields.ab, Fields.abc, Fields.inA, Fields.inD, Fields.withMem, Fields.withMemD, Fields.withE, hw, parseWrsr_trap])

theorem Laws.RoundTrip.writeFormatRegister (h : Hdr) (t : Ty) (a : Opnd) : Laws.RoundTrip.Statement (.writeFormatRegister h t a) := by
  intro hw0
  have hw := hw0
  obtain ⟨g1, g2, ch, w, r, imm⟩ := h
  (simp only [WellFormed, Instr.formOk, Instr.operandsOk, Opnd.dst, Opnd.src, Opnd.szi, Opnd.sz, Opnd.si, Opnd.vs, Opnd.sOnly, Opnd.ok, numOk_split, Hdr.immIf, Hdr.immBelow, Hdr.hinted, Hdr.unguarded, Hdr.plain, Hdr.guards, PredOp.ok, Hdr.imm24, Bool.and_eq_true, decide_eq_true_eq, beq_iff_eq] at hw
   refine roundtrip_of hw0 rfl ?_ ?_ rfl rfl
   · simp [Fields.fits, Hdr.fields, Fields.dab, Fields.dabc, Fields.da, Fields.ab, Fields.abc, Fields.inA, Fields.inD, Fields.withMem, Fields.withMemD, Fields.withE, hw] <;> omega
   · simp [parse, parse5, Hdr.fields, Fields.hdr, Fields.imm, need, Fields.noA, Fields.noB, Fields.noC, Fields.noD, Fields.dab, Fields.dabc, Fields.da, Fields.ab, Fields.abc, Fields.inA, Fields.inD, Fields.withMem, Fields.withMemD, Fields.withE, hw, parseWrsr_format])

theorem Laws.RoundTrip.writeTensorScale (h : Hdr) (t : Ty) (a : Opnd) : Laws.RoundTrip.Statement (.writeTensorScale h t a) := by
  intro hw0
  have hw := hw0
  obtain ⟨g1, g2, ch, w, r, imm⟩ := h
  (simp only [WellFormed, Instr.formOk, Instr.operandsOk, Opnd.dst, Opnd.src, Opnd.szi, Opnd.sz, Opnd.si, Opnd.vs, Opnd.sOnly, Opnd.ok, numOk_split, Hdr.immIf, Hdr.immBelow, Hdr.hinted, Hdr.unguarded, Hdr.plain, Hdr.guards, PredOp.ok, Hdr.imm24, Bool.and_eq_true, decide_eq_true_eq, beq_iff_eq] at hw
   refine roundtrip_of hw0 rfl ?_ ?_ rfl rfl
   · simp [Fields.fits, Hdr.fields, Fields.dab, Fields.dabc, Fields.da, Fields.ab, Fields.abc, Fields.inA, Fields.inD, Fields.withMem, Fields.withMemD, Fields.withE, hw] <;> omega
   · simp [parse, parse5, Hdr.fields, Fields.hdr, Fields.imm, need, Fields.noA, Fields.noB, Fields.noC, Fields.noD, Fields.dab, Fields.dabc, Fields.da, Fields.ab, Fields.abc, Fields.inA, Fields.inD, Fields.withMem, Fields.withMemD, Fields.withE, hw, parseWrsr_scale])

theorem Laws.RoundTrip.writeL2wp (h : Hdr) (t : Ty) (a : Opnd) : Laws.RoundTrip.Statement (.writeL2wp h t a) := by
  intro hw0
  have hw := hw0
  obtain ⟨g1, g2, ch, w, r, imm⟩ := h
  (simp only [WellFormed, Instr.formOk, Instr.operandsOk, Opnd.dst, Opnd.src, Opnd.szi, Opnd.sz, Opnd.si, Opnd.vs, Opnd.sOnly, Opnd.ok, numOk_split, Hdr.immIf, Hdr.immBelow, Hdr.hinted, Hdr.unguarded, Hdr.plain, Hdr.guards, PredOp.ok, Hdr.imm24, Bool.and_eq_true, decide_eq_true_eq, beq_iff_eq] at hw
   obtain rfl : imm = 0x70#32 := BitVec.eq_of_toNat_eq (by simp [hw])
   refine roundtrip_of hw0 rfl ?_ ?_ rfl rfl
   · simp [Fields.fits, Hdr.fields, Fields.dab, Fields.dabc, Fields.da, Fields.ab, Fields.abc, Fields.inA, Fields.inD, Fields.withMem, Fields.withMemD, Fields.withE, hw] <;> omega
   · simp [parse, parse5, Hdr.fields, Fields.hdr, Fields.imm, need, Fields.noA, Fields.noB, Fields.noC, Fields.noD, Fields.dab, Fields.dabc, Fields.da, Fields.ab, Fields.abc, Fields.inA, Fields.inD, Fields.withMem, Fields.withMemD, Fields.withE, hw, parseWrsr_l2wp])

theorem Laws.RoundTrip.contextRegisterPropagated (ctx : Nat) (ix : Nat) : Laws.RoundTrip.Statement (.contextRegisterPropagated ctx ix) := fun _ _ h => nomatch h

theorem Laws.RoundTrip.l2wpRaiseDone (cluster : Nat) : Laws.RoundTrip.Statement (.l2wpRaiseDone cluster) := fun _ _ h => nomatch h

theorem Laws.RoundTrip.resultWriteback (sl : Nat) (k : Nat) : Laws.RoundTrip.Statement (.resultWriteback sl k) := fun _ _ h => nomatch h

theorem Laws.RoundTrip.runArbitration (core : Nat) (slot : Nat) : Laws.RoundTrip.Statement (.runArbitration core slot) := fun _ _ h => nomatch h

theorem Laws.RoundTrip.unitWaitRaised (core : Nat) (slot : Nat) (sl : Nat) : Laws.RoundTrip.Statement (.unitWaitRaised core slot sl) := fun _ _ h => nomatch h

theorem Laws.RoundTrip.runLengthCut (core : Nat) (slot : Nat) : Laws.RoundTrip.Statement (.runLengthCut core slot) := fun _ _ h => nomatch h

theorem Laws.RoundTrip.sleepExpire (sl : Nat) : Laws.RoundTrip.Statement (.sleepExpire sl) := fun _ _ h => nomatch h

theorem Laws.RoundTrip.wakeWord (core : Nat) (word : DWord) : Laws.RoundTrip.Statement (.wakeWord core word) := fun _ _ h => nomatch h

theorem Laws.RoundTrip.homeReadRequest (sl : Nat) (acc : Nat) (piece : Nat) : Laws.RoundTrip.Statement (.homeReadRequest sl acc piece) := fun _ _ h => nomatch h

theorem Laws.RoundTrip.homeStoreRequest (sl : Nat) (acc : Nat) (piece : Nat) : Laws.RoundTrip.Statement (.homeStoreRequest sl acc piece) := fun _ _ h => nomatch h

theorem Laws.RoundTrip.nearMemoryReduction (sl : Nat) (acc : Nat) (piece : Nat) : Laws.RoundTrip.Statement (.nearMemoryReduction sl acc piece) := fun _ _ h => nomatch h

theorem Laws.RoundTrip.recall (stash : Bool) (holder : Nat) (ctx : Nat) (line : Nat) : Laws.RoundTrip.Statement (.recall stash holder ctx line) := fun _ _ h => nomatch h

theorem Laws.RoundTrip.writebackArrival (k : Nat) : Laws.RoundTrip.Statement (.writebackArrival k) := fun _ _ h => nomatch h

theorem Laws.RoundTrip.bankSleep (bank : Nat) : Laws.RoundTrip.Statement (.bankSleep bank) := fun _ _ h => nomatch h

theorem Laws.RoundTrip.migrationStart (ctx : Nat) (va : DWord) : Laws.RoundTrip.Statement (.migrationStart ctx va) := fun _ _ h => nomatch h

theorem Laws.RoundTrip.migrationMarkDrained (mig : Nat) : Laws.RoundTrip.Statement (.migrationMarkDrained mig) := fun _ _ h => nomatch h

theorem Laws.RoundTrip.migrationLineCopy (mig : Nat) : Laws.RoundTrip.Statement (.migrationLineCopy mig) := fun _ _ h => nomatch h

theorem Laws.RoundTrip.migrationAccess (mig : Nat) (line : Nat) : Laws.RoundTrip.Statement (.migrationAccess mig line) := fun _ _ h => nomatch h

theorem Laws.RoundTrip.migrationPullDone (mig : Nat) (line : Nat) : Laws.RoundTrip.Statement (.migrationPullDone mig line) := fun _ _ h => nomatch h

theorem Laws.RoundTrip.clearanceRequest (k : Nat) : Laws.RoundTrip.Statement (.clearanceRequest k) := fun _ _ h => nomatch h

theorem Laws.RoundTrip.pageWalkDone (tower : Nat) (ctx : Nat) (va : DWord) : Laws.RoundTrip.Statement (.pageWalkDone tower ctx va) := fun _ _ h => nomatch h

theorem Laws.RoundTrip.clearanceAnswer (k : Nat) : Laws.RoundTrip.Statement (.clearanceAnswer k) := fun _ _ h => nomatch h

theorem Laws.RoundTrip.residencyRequest (k : Nat) : Laws.RoundTrip.Statement (.residencyRequest k) := fun _ _ h => nomatch h

theorem Laws.RoundTrip.shootdownMessage (dg : Nat) (core : Nat) : Laws.RoundTrip.Statement (.shootdownMessage dg core) := fun _ _ h => nomatch h

theorem Laws.RoundTrip.shootdownAnswer (dg : Nat) (core : Nat) : Laws.RoundTrip.Statement (.shootdownAnswer dg core) := fun _ _ h => nomatch h

theorem Laws.RoundTrip.downgradeClose (dg : Nat) : Laws.RoundTrip.Statement (.downgradeClose dg) := fun _ _ h => nomatch h

theorem Laws.RoundTrip.procBlockRead (k : Nat) : Laws.RoundTrip.Statement (.procBlockRead k) := fun _ _ h => nomatch h

theorem Laws.RoundTrip.procPrefEvent (k : Nat) : Laws.RoundTrip.Statement (.procPrefEvent k) := fun _ _ h => nomatch h

theorem Laws.RoundTrip.generatorLaunch (tower : Nat) : Laws.RoundTrip.Statement (.generatorLaunch tower) := fun _ _ h => nomatch h

theorem Laws.RoundTrip.fillDoneAtHome (k : Nat) : Laws.RoundTrip.Statement (.fillDoneAtHome k) := fun _ _ h => nomatch h

theorem Laws.RoundTrip.generatorFailure (crew : Nat) : Laws.RoundTrip.Statement (.generatorFailure crew) := fun _ _ h => nomatch h

theorem Laws.RoundTrip.procRetryReissue (k : Nat) : Laws.RoundTrip.Statement (.procRetryReissue k) := fun _ _ h => nomatch h

theorem Laws.RoundTrip.routerGrant (reply : Bool) (tower : Nat) (stage : Nat) (router : Nat) (out : Nat) : Laws.RoundTrip.Statement (.routerGrant reply tower stage router out) := fun _ _ h => nomatch h

theorem Laws.RoundTrip.ageingSaturate (pkt : Nat) : Laws.RoundTrip.Statement (.ageingSaturate pkt) := fun _ _ h => nomatch h

theorem Laws.RoundTrip.replyArrival (pkt : Nat) : Laws.RoundTrip.Statement (.replyArrival pkt) := fun _ _ h => nomatch h

theorem Laws.RoundTrip.windowRaise (core : Nat) : Laws.RoundTrip.Statement (.windowRaise core) := fun _ _ h => nomatch h

theorem Laws.RoundTrip.windowAdmit (core : Nat) : Laws.RoundTrip.Statement (.windowAdmit core) := fun _ _ h => nomatch h

theorem Laws.RoundTrip.towerLinkForward (pkt : Nat) : Laws.RoundTrip.Statement (.towerLinkForward pkt) := fun _ _ h => nomatch h

theorem Laws.RoundTrip.accMerge (core : Nat) : Laws.RoundTrip.Statement (.accMerge core) := fun _ _ h => nomatch h

theorem Laws.RoundTrip.mcastRequest (k : Nat) : Laws.RoundTrip.Statement (.mcastRequest k) := fun _ _ h => nomatch h

theorem Laws.RoundTrip.mcastSetLeave (k : Nat) : Laws.RoundTrip.Statement (.mcastSetLeave k) := fun _ _ h => nomatch h

theorem Laws.RoundTrip.mcastGroupDrained (cluster : Nat) (group : Nat) : Laws.RoundTrip.Statement (.mcastGroupDrained cluster group) := fun _ _ h => nomatch h

theorem Laws.RoundTrip.remoteStashAccess (sl : Nat) (acc : Nat) (piece : Nat) : Laws.RoundTrip.Statement (.remoteStashAccess sl acc piece) := fun _ _ h => nomatch h

theorem Laws.RoundTrip.trestleEntryFetch (crew : Nat) (ch : Nat) : Laws.RoundTrip.Statement (.trestleEntryFetch crew ch) := fun _ _ h => nomatch h

theorem Laws.RoundTrip.trestleCopy (crew : Nat) (ch : Nat) (ent : Nat) (piece : Nat) : Laws.RoundTrip.Statement (.trestleCopy crew ch ent piece) := fun _ _ h => nomatch h

theorem Laws.RoundTrip.trestleGather (crew : Nat) (ch : Nat) (ent : Nat) (piece : Nat) : Laws.RoundTrip.Statement (.trestleGather crew ch ent piece) := fun _ _ h => nomatch h

theorem Laws.RoundTrip.trestleScatter (crew : Nat) (ch : Nat) (ent : Nat) (piece : Nat) : Laws.RoundTrip.Statement (.trestleScatter crew ch ent piece) := fun _ _ h => nomatch h

theorem Laws.RoundTrip.trestleMcast (crew : Nat) (ch : Nat) (ent : Nat) (piece : Nat) : Laws.RoundTrip.Statement (.trestleMcast crew ch ent piece) := fun _ _ h => nomatch h

theorem Laws.RoundTrip.trestleReduceMemory (crew : Nat) (ch : Nat) (ent : Nat) (piece : Nat) : Laws.RoundTrip.Statement (.trestleReduceMemory crew ch ent piece) := fun _ _ h => nomatch h

theorem Laws.RoundTrip.trestleReduceCollective (crew : Nat) (ch : Nat) : Laws.RoundTrip.Statement (.trestleReduceCollective crew ch) := fun _ _ h => nomatch h

theorem Laws.RoundTrip.collectiveContribution (k : Nat) : Laws.RoundTrip.Statement (.collectiveContribution k) := fun _ _ h => nomatch h

theorem Laws.RoundTrip.trestleVxfer (crew : Nat) (ch : Nat) (ent : Nat) (piece : Nat) : Laws.RoundTrip.Statement (.trestleVxfer crew ch ent piece) := fun _ _ h => nomatch h

theorem Laws.RoundTrip.trestleFlip (crew : Nat) (ch : Nat) : Laws.RoundTrip.Statement (.trestleFlip crew ch) := fun _ _ h => nomatch h

theorem Laws.RoundTrip.trestlePost (crew : Nat) (ch : Nat) : Laws.RoundTrip.Statement (.trestlePost crew ch) := fun _ _ h => nomatch h

theorem Laws.RoundTrip.trestleWaitRing (crew : Nat) (ch : Nat) : Laws.RoundTrip.Statement (.trestleWaitRing crew ch) := fun _ _ h => nomatch h

theorem Laws.RoundTrip.trestleWaitCounter (crew : Nat) (ch : Nat) : Laws.RoundTrip.Statement (.trestleWaitCounter crew ch) := fun _ _ h => nomatch h

theorem Laws.RoundTrip.trestleWaitSatisfied (crew : Nat) (ch : Nat) : Laws.RoundTrip.Statement (.trestleWaitSatisfied crew ch) := fun _ _ h => nomatch h

theorem Laws.RoundTrip.trestleLoop (crew : Nat) (ch : Nat) : Laws.RoundTrip.Statement (.trestleLoop crew ch) := fun _ _ h => nomatch h

theorem Laws.RoundTrip.trestleIfWord (crew : Nat) (ch : Nat) : Laws.RoundTrip.Statement (.trestleIfWord crew ch) := fun _ _ h => nomatch h

theorem Laws.RoundTrip.trestleIfRing (crew : Nat) (ch : Nat) : Laws.RoundTrip.Statement (.trestleIfRing crew ch) := fun _ _ h => nomatch h

theorem Laws.RoundTrip.trestleFill (crew : Nat) (ch : Nat) (ent : Nat) (piece : Nat) : Laws.RoundTrip.Statement (.trestleFill crew ch ent piece) := fun _ _ h => nomatch h

theorem Laws.RoundTrip.trestleEnd (crew : Nat) (ch : Nat) : Laws.RoundTrip.Statement (.trestleEnd crew ch) := fun _ _ h => nomatch h

theorem Laws.RoundTrip.trestleEntryComplete (crew : Nat) (ch : Nat) (ent : Nat) : Laws.RoundTrip.Statement (.trestleEntryComplete crew ch ent) := fun _ _ h => nomatch h

theorem Laws.RoundTrip.girderLoopStart (core : Nat) : Laws.RoundTrip.Statement (.girderLoopStart core) := fun _ _ h => nomatch h

theorem Laws.RoundTrip.mloopComplete (core : Nat) : Laws.RoundTrip.Statement (.mloopComplete core) := fun _ _ h => nomatch h

theorem Laws.RoundTrip.deckStart (crew : Nat) : Laws.RoundTrip.Statement (.deckStart crew) := fun _ _ h => nomatch h

theorem Laws.RoundTrip.keystoneAnswer (sl : Nat) : Laws.RoundTrip.Statement (.keystoneAnswer sl) := fun _ _ h => nomatch h

theorem Laws.RoundTrip.launchReady (launch : Nat) : Laws.RoundTrip.Statement (.launchReady launch) := fun _ _ h => nomatch h

theorem Laws.RoundTrip.towerBlockDraw (launch : Nat) (tower : Nat) : Laws.RoundTrip.Statement (.towerBlockDraw launch tower) := fun _ _ h => nomatch h

theorem Laws.RoundTrip.spanStart (tower : Nat) : Laws.RoundTrip.Statement (.spanStart tower) := fun _ _ h => nomatch h

theorem Laws.RoundTrip.crewStart (crew : Nat) : Laws.RoundTrip.Statement (.crewStart crew) := fun _ _ h => nomatch h

theorem Laws.RoundTrip.stealRequest (launch : Nat) (cluster : Nat) : Laws.RoundTrip.Statement (.stealRequest launch cluster) := fun _ _ h => nomatch h

theorem Laws.RoundTrip.stepBoundary (launch : Nat) : Laws.RoundTrip.Statement (.stepBoundary launch) := fun _ _ h => nomatch h

theorem Laws.RoundTrip.crewEnd (crew : Nat) : Laws.RoundTrip.Statement (.crewEnd crew) := fun _ _ h => nomatch h

theorem Laws.RoundTrip.launchComplete (launch : Nat) : Laws.RoundTrip.Statement (.launchComplete launch) := fun _ _ h => nomatch h

theorem Laws.RoundTrip.stopRequest (ctx : Nat) : Laws.RoundTrip.Statement (.stopRequest ctx) := fun _ _ h => nomatch h

theorem Laws.RoundTrip.contextStopped (ctx : Nat) : Laws.RoundTrip.Statement (.contextStopped ctx) := fun _ _ h => nomatch h

theorem Laws.RoundTrip.forceReset (ctx : Nat) : Laws.RoundTrip.Statement (.forceReset ctx) := fun _ _ h => nomatch h

theorem Laws.RoundTrip.hostWindowAccess (pkg : Nat) (win : Nat) (off : Nat) (len : Nat) (write : Bool) (data : BitVec 64) : Laws.RoundTrip.Statement (.hostWindowAccess pkg win off len write data) := fun _ _ h => nomatch h

theorem Laws.RoundTrip.linkFailure (pkg : Nat) (link : Nat) : Laws.RoundTrip.Statement (.linkFailure pkg link) := fun _ _ h => nomatch h

theorem Laws.RoundTrip.linkRetrained (pkg : Nat) (link : Nat) : Laws.RoundTrip.Statement (.linkRetrained pkg link) := fun _ _ h => nomatch h

theorem Laws.RoundTrip.ptpMessage (pkg : Nat) (time : DWord) : Laws.RoundTrip.Statement (.ptpMessage pkg time) := fun _ _ h => nomatch h

theorem Laws.RoundTrip.timePageUpdate (pkg : Nat) : Laws.RoundTrip.Statement (.timePageUpdate pkg) := fun _ _ h => nomatch h

theorem Laws.RoundTrip.equinoxCheck (queue : Nat) : Laws.RoundTrip.Statement (.equinoxCheck queue) := fun _ _ h => nomatch h

theorem Laws.RoundTrip.equinoxFrameSend (queue : Nat) : Laws.RoundTrip.Statement (.equinoxFrameSend queue) := fun _ _ h => nomatch h

theorem Laws.RoundTrip.equinoxStatusWrite (queue : Nat) : Laws.RoundTrip.Statement (.equinoxStatusWrite queue) := fun _ _ h => nomatch h

theorem Laws.RoundTrip.packageLeave (pkg : Nat) : Laws.RoundTrip.Statement (.packageLeave pkg) := fun _ _ h => nomatch h

theorem Laws.RoundTrip.packageReplace (pkg : Nat) : Laws.RoundTrip.Statement (.packageReplace pkg) := fun _ _ h => nomatch h

theorem Laws.RoundTrip.vacantIndexTimeout (k : Nat) : Laws.RoundTrip.Statement (.vacantIndexTimeout k) := fun _ _ h => nomatch h

theorem Laws.RoundTrip.packageReset (pkg : Nat) : Laws.RoundTrip.Statement (.packageReset pkg) := fun _ _ h => nomatch h

theorem Laws.RoundTrip.trainingComplete (pkg : Nat) : Laws.RoundTrip.Statement (.trainingComplete pkg) := fun _ _ h => nomatch h

theorem Laws.RoundTrip.replanDue (tower : Nat) : Laws.RoundTrip.Statement (.replanDue tower) := fun _ _ h => nomatch h

theorem Laws.RoundTrip.replanStarved (tower : Nat) : Laws.RoundTrip.Statement (.replanStarved tower) := fun _ _ h => nomatch h

theorem Laws.RoundTrip.replanStart (tower : Nat) : Laws.RoundTrip.Statement (.replanStart tower) := fun _ _ h => nomatch h

theorem Laws.RoundTrip.replanDone (tower : Nat) : Laws.RoundTrip.Statement (.replanDone tower) := fun _ _ h => nomatch h

theorem Laws.RoundTrip.powerCapStep (pkg : Nat) (up : Bool) : Laws.RoundTrip.Statement (.powerCapStep pkg up) := fun _ _ h => nomatch h

theorem Laws.RoundTrip.contextCreation (ctx : Nat) (root : Nat) (migPool : Nat) (procPool : Nat) (drain : Nat) (ks : Nat × List Nat) (sys : Bool) (cap : DWord) : Laws.RoundTrip.Statement (.contextCreation ctx root migPool procPool drain ks sys cap) := fun _ _ h => nomatch h

theorem Laws.RoundTrip.osCorePteStore (pkg : Nat) (pa : Nat) (pte : DWord) : Laws.RoundTrip.Statement (.osCorePteStore pkg pa pte) := fun _ _ h => nomatch h

theorem Laws.RoundTrip.residencyQueueDrain (tower : Nat) (n : Nat) : Laws.RoundTrip.Statement (.residencyQueueDrain tower n) := fun _ _ h => nomatch h

theorem Laws.RoundTrip.forceUnmap (ctx : Nat) (va : DWord) : Laws.RoundTrip.Statement (.forceUnmap ctx va) := fun _ _ h => nomatch h

theorem Laws.RoundTrip.managementFlush (ctx : Nat) (line : Nat) : Laws.RoundTrip.Statement (.managementFlush ctx line) := fun _ _ h => nomatch h

theorem Laws.RoundTrip.domainFormation (n : Nat) : Laws.RoundTrip.Statement (.domainFormation n) := fun _ _ h => nomatch h

end Sys2Proof
end

