-- ==== Sys2Proof/Laws/Trap.lean ====
section
/-! SUPPORT. What taking an exception does (R241, R244). -/

namespace Sys2Proof.Machine

/-- A slice that can take an exact trap at once enters its handler. -/
theorem takeTrap_trapped (s : State) (j : Nat) (code : Nat) (addr info : DWord) (mask : Word) (h : s.canTrap j) (hc : code ≠ cPriv) :
    takeTrap s j ⟨code, (s.sl j).pc, addr, mask, info, false, false⟩ = s.trapped j code addr info mask := by
  obtain ⟨h1, h2, h3, h4⟩ := h
  have e2 : (s.crew (s.sl j).crew).gen = none := h2
  unfold takeTrap
  rw [if_pos (by rw [h1]; rfl)]
  unfold enterTrap
  dsimp only
  rw [if_neg (by rw [e2]; simp), if_neg (by simpa [h4, hc] using h3)]
  rfl

/-- Where results are outstanding, the trap waits for them. -/
theorem takeTrap_waits (s : State) (j : Nat) (t : TrapRec) (h : (s.sl j).outst ≠ []) :
    takeTrap s j t = s.setSl j { s.sl j with taking := some t, park := .before .results, answers := [] } := by
  unfold takeTrap
  rw [if_neg (by simpa using h)]

end Sys2Proof.Machine
end

