-- ==== Sys2Proof/Tests/Slice0.lean ====
section
/-! SUPPORT. Tests on words written out from the encodings of the manual, ill-formed terms, single steps worked by hand from the rules, and
for each obligation with hypotheses states and operands that meet them, clause by clause. -/

set_option maxRecDepth 8000

namespace Sys2Proof.Tests

open Machine

def g0 : Hdr := ⟨⟨false, 7⟩, ⟨false, 7⟩, 0, false, false, 0⟩
/-- A word from its fields, both guards always (R251). -/
def wd (op fn ty d a b c x w2 : Nat) : Nat :=
  op + 2 ^ 8 * fn + 2 ^ 12 * ty + 2 ^ 16 * d + 2 ^ 24 * a + 2 ^ 32 * b + 2 ^ 40 * c + 2 ^ 48 * 0x77 + 2 ^ 61 * x + 2 ^ 64 * w2
def reads (e : Nat × Instr) : Bool := decodeWord e.1 == .ok e.2

/-! ### Each constructor's word, by family -/

theorem test_decode_control : [
    (wd 0x00 0 0 0x00 0xF0 0xF0 0xF0 0 0x0, .nop g0),
    (wd 0x01 0 0 0x00 0xF0 0xF0 0xF0 0 0x18, .bra ({ g0 with imm := 24 })),
    (wd 0x01 1 0 0x00 0xF0 0xF0 0xF0 0 0xFFFFFFF4, .braUni ({ g0 with imm := 0xFFFFFFF4 })),
    (wd 0x02 0 0 0x00 0xC4 0xF0 0xF0 0 0x0, .brx g0 (.s 4)),
    (wd 0x03 0 0 0xC2 0xF0 0xF0 0xF0 0 0x18, .call ({ g0 with imm := 24 }) (.s 2)),
    (wd 0x04 0 0 0x02 0x04 0xF0 0xF0 0 0x0, .callx g0 (.v 2) (.v 4)),
    (wd 0x05 0 0 0x00 0xBE 0xF0 0xF0 0 0x0, .ret g0 (.v 190)),
    (wd 0x06 0 0 0x00 0xF0 0xF0 0xF0 0 0x0, .brace g0),
    (wd 0x07 0 0 0x00 0xF0 0xF0 0xF0 0 0x0, .meet g0),
    (wd 0x08 0 0 0x00 0xF0 0xF0 0xF0 0 0x0, .exit g0),
    (wd 0x09 0 0 0x00 0xF0 0xF0 0xF0 0 0x0, .regang g0),
    (wd 0x0A 0 0 0x00 0xF0 0xF0 0xF0 0 0x0, .yield g0),
    (wd 0x0B 0 0 0x00 0xEF 0xF0 0xF0 0 0x0, .sleep g0 (.s 47)),
    (wd 0x0C 0 0 0x00 0xF0 0xF0 0xF0 0 0x7, .trap ({ g0 with imm := 7 })),
    (wd 0x0D 0 0 0x00 0xF0 0xF0 0xF0 0 0x0, .bpt g0),
    (wd 0x0E 0 0 0x00 0xF0 0xF0 0xF0 0 0x0, .rteRetry g0),
    (wd 0x0E 1 0 0x00 0xF0 0xF0 0xF0 0 0x0, .rteResume g0),
    (wd 0x0F 0 0 0x00 0xF0 0xF0 0xF0 0 0x0, .step g0)].all reads = true := by decide

theorem test_decode_integer : [
    (wd 0x10 1 9 0x01 0x02 0xC3 0xF0 0 0x0, .iadd g0 true .u8x4 (.v 1) (.v 2) (.s 3)),
    (wd 0x11 0 3 0xC1 0xC2 0xF2 0xF0 0 0x0, .isub g0 false .s64 (.s 1) (.s 2) .slot),
    (wd 0x12 0 8 0x01 0x02 0xF1 0xF0 0 0x0, .imul g0 .s16x2 (.v 1) (.v 2) .lane),
    (wd 0x13 0 2 0x02 0x04 0x06 0xF0 0 0x0, .imulh g0 .u64 (.v 2) (.v 4) (.v 6)),
    (wd 0x14 1 1 0x02 0x01 0x03 0x04 0 0x0, .imad g0 true .s32 (.v 2) (.v 1) (.v 3) (.v 4)),
    (wd 0x15 0 7 0x01 0x02 0x03 0xF0 0 0x0, .imin g0 .u16x2 (.v 1) (.v 2) (.v 3)),
    (wd 0x16 0 10 0x01 0x02 0x03 0xF0 0 0x0, .imax g0 .s8x4 (.v 1) (.v 2) (.v 3)),
    (wd 0x17 1 1 0x01 0x02 0xF0 0xF0 0 0x0, .iabs g0 true .s32 (.v 1) (.v 2)),
    (wd 0x18 0 0 0xC1 0xC2 0xC3 0xF0 0 0x0, .iadd3 g0 .u32 (.s 1) (.s 2) (.s 3) .zero),
    (wd 0x19 11 2 0xC1 0xC2 0xC4 0xF0 0 0x0, .iaddc g0 true 3 .u64 (.s 1) (.s 2) (.s 4)),
    (wd 0x1A 1 1 0x09 0xC1 0xF0 0xF0 0 0x0, .icmp g0 .ne .s32 ⟨true, 1⟩ (.s 1) .zero),
    (wd 0x1B 10 0 0x01 0x02 0x03 0xF0 0 0x0, .isel g0 true 2 .u32 (.v 1) (.v 2) (.v 3)),
    (wd 0x1C 3 1 0x02 0xC1 0x05 0xF0 0 0x0, .lea g0 3 .s32 (.v 2) (.s 1) (.v 5)),
    (wd 0x1D 0 9 0x01 0x02 0x03 0x04 0 0x0, .isad g0 .u8x4 (.v 1) (.v 2) (.v 3) (.v 4)),
    (wd 0x1E 3 10 0x01 0x02 0x03 0x04 0 0x0, .idot4 g0 true true .s8x4 (.v 1) (.v 2) (.v 3) (.v 4))].all reads = true := by decide

theorem test_decode_logic : [
    (wd 0x20 1 0 0x01 0x02 0xF3 0xF0 0 0xF0, .and ({ g0 with imm := 0xF0 }) true .u32 (.v 1) (.v 2) .imm),
    (wd 0x21 0 2 0xC1 0xC2 0xC3 0xF0 0 0x0, .or g0 false .u64 (.s 1) (.s 2) (.s 3)),
    (wd 0x22 0 0 0x01 0x02 0x03 0xF0 0 0x0, .xor g0 false .u32 (.v 1) (.v 2) (.v 3)),
    (wd 0x23 0 0 0x01 0x02 0x03 0x04 0 0xCA, .mix3 ({ g0 with imm := 0xCA }) .u32 (.v 1) (.v 2) (.v 3) (.v 4)),
    (wd 0x24 1 0 0x01 0x02 0x03 0xF0 0 0x0, .shl g0 true .u32 (.v 1) (.v 2) (.v 3)),
    (wd 0x25 0 2 0x02 0x04 0x03 0xF0 0 0x0, .shr g0 false .u64 (.v 2) (.v 4) (.v 3)),
    (wd 0x26 0 1 0x01 0x02 0x03 0xF0 0 0x0, .sar g0 false .s32 (.v 1) (.v 2) (.v 3)),
    (wd 0x27 1 0 0x01 0x02 0x03 0xF0 0 0x0, .rot g0 true .u32 (.v 1) (.v 2) (.v 3)),
    (wd 0x28 1 0 0x01 0x02 0x03 0x04 0 0x0, .fshf g0 true false (.v 1) (.v 2) (.v 3) (.v 4)),
    (wd 0x29 0 3 0x02 0x04 0x05 0x06 0 0x0, .bfx g0 .s64 (.v 2) (.v 4) (.v 5) (.v 6)),
    (wd 0x2A 0 0 0x04 0x01 0x02 0xC3 1 0x5F3, .bfi ({ g0 with imm := 5 }) .u32 (.v 4) (.v 1) (.v 2) (.s 3) .imm),
    (wd 0x2B 0 2 0x01 0x02 0xF0 0xF0 0 0x0, .popc g0 .u64 (.v 1) (.v 2)),
    (wd 0x2C 0 0 0x01 0x02 0xF0 0xF0 0 0x0, .clz g0 .u32 (.v 1) (.v 2)),
    (wd 0x2D 0 0 0x01 0x02 0xF0 0xF0 0 0x0, .brev g0 .u32 (.v 1) (.v 2)),
    (wd 0x2E 0 0 0x01 0x02 0x03 0x04 0 0x0, .bsel g0 (.v 1) (.v 2) (.v 3) (.v 4)),
    (wd 0x2F 1 0 0x01 0x02 0xF0 0xF0 0 0x0, .ffs g0 true .u32 (.v 1) (.v 2))].all reads = true := by decide

theorem test_decode_float : [
    (wd 0x30 1 4 0x01 0x02 0x03 0xF0 0 0x0, .fadd g0 true .f32 (.v 1) (.v 2) (.v 3)),
    (wd 0x31 0 5 0x01 0x02 0x03 0xF0 0 0x0, .fsub g0 false .f16x2 (.v 1) (.v 2) (.v 3)),
    (wd 0x32 0 6 0x01 0x02 0x03 0xF0 0 0x0, .fmul g0 false .bf16x2 (.v 1) (.v 2) (.v 3)),
    (wd 0x33 0 11 0x01 0x02 0x03 0x04 0 0x0, .ffma g0 false .f16 (.v 1) (.v 2) (.v 3) (.v 4)),
    (wd 0x34 0 12 0x01 0x02 0x03 0xF0 0 0x0, .fmin g0 .bf16 (.v 1) (.v 2) (.v 3)),
    (wd 0x35 0 4 0x01 0x02 0x03 0xF0 0 0x0, .fmax g0 .f32 (.v 1) (.v 2) (.v 3)),
    (wd 0x36 7 4 0x02 0x01 0x02 0xF0 0 0x0, .fcmp g0 .nan .f32 ⟨false, 2⟩ (.v 1) (.v 2)),
    (wd 0x37 0 4 0x01 0x02 0xF0 0xF0 0 0x0, .fclass g0 .f32 (.v 1) (.v 2)),
    (wd 0x38 2 4 0x01 0x02 0xF0 0xF0 0 0x0, .frnd g0 .ceil .f32 (.v 1) (.v 2)),
    (wd 0x39 0 6 0x01 0x02 0x03 0x04 0 0x0, .fdp2 g0 .bf16x2 (.v 1) (.v 2) (.v 3) (.v 4)),
    (wd 0x3A 0 11 0x01 0x02 0x03 0xF0 0 0x0, .fscale g0 .f16 (.v 1) (.v 2) (.v 3)),
    (wd 0x3B 2 4 0x01 0x02 0x03 0xF0 0 0x0, .fsgn g0 .xor .f32 (.v 1) (.v 2) (.v 3)),
    (wd 0x40 0 4 0x01 0x02 0xF0 0xF0 0 0x0, .rcp g0 (.v 1) (.v 2)),
    (wd 0x41 0 4 0x01 0x02 0xF0 0xF0 0 0x0, .rsq g0 (.v 1) (.v 2)),
    (wd 0x42 0 4 0x01 0x02 0xF0 0xF0 0 0x0, .sqrt g0 (.v 1) (.v 2)),
    (wd 0x43 0 4 0x01 0x02 0xF0 0xF0 0 0x0, .exp2 g0 (.v 1) (.v 2)),
    (wd 0x44 0 4 0x01 0x02 0xF0 0xF0 0 0x0, .log2 g0 (.v 1) (.v 2)),
    (wd 0x45 0 4 0x01 0x02 0xF0 0xF0 0 0x0, .sin g0 (.v 1) (.v 2)),
    (wd 0x46 0 4 0x01 0x02 0xF0 0xF0 0 0x0, .cos g0 (.v 1) (.v 2)),
    (wd 0x47 0 4 0x01 0x02 0xF0 0xF0 0 0x0, .tanh g0 (.v 1) (.v 2))].all reads = true := by decide

theorem test_decode_convert : [
    (wd 0x48 4 4 0x01 0x02 0xF0 0xF0 0 0x0, .fcvt g0 .f32 .bf16h (.v 1) (.v 2) .zero),
    (wd 0x49 3 11 0x01 0xC2 0xF0 0xF0 0 0x0, .i2f g0 .f16 .s64 (.v 1) (.s 2)),
    (wd 0x4A 2 2 0x02 0x01 0xF0 0xF0 0 0x0, .f2i g0 .u64 .bf16 (.v 2) (.v 1)),
    (wd 0x4B 5 4 0x01 0x02 0x03 0xF0 0 0x0, .cvtn g0 5 (.v 1) (.v 2) (.v 3)),
    (wd 0x4C 15 4 0x04 0x02 0xF0 0xF0 0 0x0, .cvtw g0 15 (.v 4) (.v 2) .zero),
    (wd 0x4D 0 5 0x06 0x02 0x03 0xF0 0 0x0, .spcomp g0 .f16x2 0 (.v 6) (.v 2) (.v 3)),
    (wd 0x4E 0 5 0x08 0x06 0x07 0xF0 0 0x0, .spexp g0 .f16x2 (.v 8) (.v 6) (.v 7))].all reads = true := by decide

theorem test_decode_moves : [
    (wd 0x50 0 2 0x02 0xC4 0xF0 0xF0 0 0x0, .mov g0 .u64 (.v 2) (.s 4)),
    (wd 0x51 0 3 0xC1 0xF0 0xF0 0xF0 0 0xFFFFFFFF, .movi ({ g0 with imm := 0xFFFFFFFF }) .s64 (.s 1)),
    (wd 0x52 0 2 0xC1 0xF0 0xF0 0xF0 0 0x9, .movih ({ g0 with imm := 9 }) (.s 1)),
    (wd 0x53 0 2 0xC1 0xF0 0xF0 0xF0 0 0x30, .rdsr ({ g0 with imm := 0x30 }) .u64 (.s 1)),
    (wd 0x54 0 0 0x00 0xC3 0xF0 0xF0 0 0x71, .wrsr ({ g0 with imm := 0x71 }) .u32 (.s 3)),
    (wd 0x54 0 2 0x00 0xC3 0xF0 0xF0 0 0x20, .writeFlags ({ g0 with imm := 0x20 }) .u64 (.s 3)),
    (wd 0x54 0 2 0x00 0xC3 0xF0 0xF0 0 0x21, .writeDkflags ({ g0 with imm := 0x21 }) .u64 (.s 3)),
    (wd 0x54 0 2 0x00 0xC3 0xF0 0xF0 0 0x30, .writeTrapvec ({ g0 with imm := 0x30 }) .u64 (.s 3)),
    (wd 0x54 0 2 0x00 0xC3 0xF0 0xF0 0 0x33, .writeTrapRegister ({ g0 with imm := 0x33 }) .u64 (.s 3)),
    (wd 0x54 0 2 0x00 0xC3 0xF0 0xF0 0 0x4F, .writeFormatRegister ({ g0 with imm := 0x4f }) .u64 (.s 3)),
    (wd 0x54 0 2 0x00 0xC3 0xF0 0xF0 0 0x50, .writeTensorScale ({ g0 with imm := 0x50 }) .u64 (.s 3)),
    (wd 0x54 0 2 0x00 0xC3 0xF0 0xF0 0 0x70, .writeL2wp ({ g0 with imm := 0x70 }) .u64 (.s 3)),
    (wd 0x55 0 0 0x08 0x09 0x0A 0x0B 0 0xCA, .pmix ({ g0 with imm := 0xCA }) ⟨true, 0⟩ ⟨true, 1⟩ ⟨true, 2⟩ ⟨true, 3⟩),
    (wd 0x56 1 0 0xC1 0xF0 0xF0 0xF0 0 0x0, .psave g0 true (.s 1)),
    (wd 0x57 0 0 0x00 0x01 0xF0 0xF0 0 0x7F, .pload ({ g0 with imm := 0x7F }) false (.v 1)),
    (wd 0x58 0 0 0xC1 0xF0 0xF0 0xF0 0 0x0, .flgrd g0 (.s 1)),
    (wd 0x59 0 0 0x00 0xF0 0xF0 0xF0 0 0x3F, .flgclr ({ g0 with imm := 0x3F })),
    (wd 0x5A 0 0 0xC1 0x02 0xF3 0xF0 0 0x3, .v2s ({ g0 with imm := 3 }) .u32 (.s 1) (.v 2) .imm)].all reads = true := by decide

theorem test_decode_gang : [
    (wd 0x60 2 0 0x03 0x01 0x04 0xF0 0 0x0, .lxch g0 .slide .u32 (.v 3) (.v 1) (.v 4)),
    (wd 0x61 0 0 0x01 0x02 0xF0 0xF0 0 0x0, .vote g0 (.any ⟨false, 1⟩) ⟨false, 2⟩),
    (wd 0x61 1 0 0x09 0x02 0xF0 0xF0 0 0x0, .vote g0 (.all ⟨true, 1⟩) ⟨false, 2⟩),
    (wd 0x61 2 0 0x01 0x0A 0xF0 0xF0 0 0x0, .vote g0 (.eq ⟨false, 1⟩) ⟨true, 2⟩),
    (wd 0x61 3 0 0xC3 0x01 0xF0 0xF0 0 0x0, .vote g0 (.mask (.s 3)) ⟨false, 1⟩),
    (wd 0x62 0 0 0xC2 0x01 0xF0 0xF0 0 0x0, .redux g0 .add .u32 (.s 2) (.v 1)),
    (wd 0x63 8 0 0x02 0x01 0xF0 0xF0 0 0x0, .scan g0 .add true .u32 (.v 2) (.v 1)),
    (wd 0x64 1 2 0x01 0x02 0xF0 0xF0 0 0x0, .matchLanes g0 true .u64 (.v 1) (.v 2)),
    (wd 0x65 0 0 0x01 0x07 0xF0 0xF0 0 0x0, .lead g0 ⟨false, 1⟩ ⟨false, 7⟩)].all reads = true := by decide

theorem test_decode_memory : [
    (wd 0x70 2 0 0x08 0xC4 0x02 0xCB 0 0x40, .ld { g0 with imm := 0x40 } ⟨.s 4, .v 2, 2, .acquire, .tower, true⟩ .b32 (.v 8)),
    (wd 0x71 4 0 0x08 0xC4 0xF0 0x11 0 0x0, .st g0 ⟨.s 4, .zero, 0, .release, .crew, false⟩ .b128 (.v 8)),
    (wd 0x72 9 1 0x01 0xF0 0x02 0x00 0 0x0, .ldl g0 ⟨.zero, .v 2, 0, .relaxed, .slice, false⟩ .remote .b16 true (.v 1)),
    (wd 0x73 7 0 0x02 0xF0 0x02 0x60 0 0x0, .stl g0 ⟨.zero, .v 2, 3, .relaxed, .slice, false⟩ .span .b64 (.v 2)),
    (wd 0x74 7 0 0x01 0xC4 0xF0 0x1C 0 0x0, .atom g0 ⟨.s 4, .zero, 0, .acqRel, .domain, false⟩ .inc .u32 (.v 1)),
    (wd 0x75 0 4 0x01 0xC4 0xF0 0x00 0 0x0, .red g0 ⟨.s 4, .zero, 0, .relaxed, .slice, false⟩ .add .f32 (.v 1)),
    (wd 0x76 0 0 0x04 0xC6 0xF0 0x0B 1 0x1005, .cas { g0 with imm := 0x10 } ⟨.s 6, .zero, 0, .acquire, .tower, false⟩ .u32 (.v 4) (.v 5)),
    (wd 0x77 0 0 0x00 0xC4 0x02 0x00 0 0x0, .prefL2 g0 ⟨.s 4, .v 2, 0, .relaxed, .slice, false⟩),
    (wd 0x77 1 0 0x00 0xC4 0x02 0x00 0 0x0, .prefLlc g0 ⟨.s 4, .v 2, 0, .relaxed, .slice, false⟩),
    (wd 0x78 0 0 0x00 0x04 0xF0 0x00 0 0x0, .preq g0 ⟨.v 4, .zero, 0, .relaxed, .slice, false⟩),
    (wd 0x79 0 0 0x08 0xC2 0x04 0xF0 1 0xC6, .tex g0 (.v 8) (.s 2) (.v 4) .zero (.s 6)),
    (wd 0x7A 0 0 0x08 0xC2 0x04 0xF0 0 0x0, .tld g0 (.v 8) (.s 2) (.v 4)),
    (wd 0x7B 0 0 0xC8 0xC2 0xF0 0xF0 0 0x0, .tqry g0 (.s 8) (.s 2)),
    (wd 0x7C 5 2 0x02 0xC4 0xF0 0x00 0 0x0, .nmred g0 ⟨.s 4, .zero, 0, .relaxed, .slice, false⟩ .xor .u64 (.v 2)),
    (wd 0x7D 0 0 0x00 0xF0 0xF0 0xF0 0 0x0, .cctlIinv g0),
    (wd 0x7D 1 0 0x00 0xC4 0xF0 0x00 0 0x0, .cctlWb g0 ⟨.s 4, .zero, 0, .relaxed, .slice, false⟩),
    (wd 0x7D 2 0 0x00 0xC4 0xF0 0x00 0 0x0, .cctlEvict g0 ⟨.s 4, .zero, 0, .relaxed, .slice, false⟩)].all reads = true := by decide

theorem test_decode_sync : [
    (wd 0x80 0 0 0x00 0xF0 0xF0 0xF0 0 0x0, .fenceDrain g0),
    (wd 0x80 3 0 0x00 0xF0 0xF0 0xF0 0 0x5, .fenceOrdered ({ g0 with imm := 5 }) .ar),
    (wd 0x81 0 0 0x00 0xF0 0xF0 0xF0 0 0x0, .bar g0),
    (wd 0x82 0 0 0x00 0xF0 0xF0 0xF0 0 0x4, .arrive ({ g0 with imm := 4 })),
    (wd 0x83 0 0 0x00 0xF0 0xF0 0xF0 0 0x1, .await ({ g0 with imm := 1 })),
    (wd 0x84 7 0 0x00 0xF3 0xF0 0xF0 0 0x8, .rinit ({ g0 with imm := 8 }) 7 .imm),
    (wd 0x85 2 0 0x00 0xC1 0xF0 0xF0 0 0x0, .rpost g0 2 (.s 1)),
    (wd 0x86 10 0 0x00 0xC1 0xF0 0xF0 0 0x0, .rget g0 2 true (.s 1)),
    (wd 0x87 2 0 0x00 0xC1 0xF0 0xF0 0 0x0, .rrel g0 2 (.s 1)),
    (wd 0x88 6 0 0x00 0xC1 0xC2 0xF0 0 0x0, .town g0 true .girder (.s 1) (.s 2)),
    (wd 0x89 1 0 0x00 0xC1 0xF0 0xF0 0 0x0, .twait g0 false .trestle (.s 1)),
    (wd 0x8A 15 0 0xC2 0xC1 0xF0 0xF0 0 0x0, .cwait g0 15 (.s 2) (.s 1)),
    (wd 0x8B 3 2 0xC2 0xC4 0xF0 0x00 0 0x0, .waitmem g0 ⟨.s 4, .zero, 0, .relaxed, .slice, false⟩ .geu .u64 (.s 2)),
    (wd 0x8C 0 0 0x00 0xF0 0xC1 0xC2 0 0x0, .stmap g0 .zero (.s 1) (.s 2)),
    (wd 0x8D 0 0 0x00 0xC1 0xF0 0xF0 0 0x0, .stunmap g0 (.s 1)),
    (wd 0x8E 0 0 0x00 0xC1 0xF0 0xF0 0 0x0, .stwb g0 (.s 1)),
    (wd 0x8F 0 0 0x00 0xC1 0xF0 0xF0 0 0x0, .stinv g0 (.s 1))].all reads = true := by decide

theorem test_decode_engines : [
    (wd 0x90 3 0 0x00 0xC4 0xC1 0xF0 0 0x0, .trst g0 3 (.s 4) (.s 1)),
    (wd 0x91 1 0 0xC2 0xF0 0xF0 0xF0 0 0x0, .trstq g0 1 (.s 2)),
    (wd 0x92 1 0 0x00 0xF0 0xF0 0xF0 0 0x0, .trstk g0 1),
    (wd 0x93 0 0 0xC2 0xC3 0xC4 0xF0 0 0x0, .mcgrp g0 (.s 2) (.s 3) (.s 4)),
    (wd 0x98 0 0 0x00 0xC8 0xF0 0xF0 0 0x0, .mloop g0 (.s 8) .zero),
    (wd 0x98 1 0 0x00 0xC8 0xC1 0xF0 0 0x0, .mloopSp g0 (.s 8) (.s 1)),
    (wd 0x99 0 0 0x00 0xC1 0xF0 0xF0 0 0x0, .maclrFast g0 (.s 1)),
    (wd 0x99 1 0 0x00 0xC1 0xC2 0xF0 0 0x0, .maclrExact g0 (.s 1) (.s 2)),
    (wd 0x9A 1 0 0x00 0xC1 0xC2 0xF0 0 0x0, .mard g0 true (.s 1) (.s 2)),
    (wd 0x9B 1 0 0xC2 0xF0 0xF0 0xF0 0 0x0, .mstat g0 true (.s 2))].all reads = true := by decide

theorem test_decode_deck : [
    (wd 0xA0 0 0 0x00 0xC1 0xF0 0xF0 0 0x0, .dkwin g0 (.s 1)),
    (wd 0xA1 0 0 0x2F 0xC1 0xC2 0xC3 0 0x0, .dklin g0 47 (.s 1) (.s 2) (.s 3)),
    (wd 0xA2 0 0 0x00 0xC1 0xC2 0xC3 0 0x0, .dkedge g0 (.s 1) (.s 2) (.s 3)),
    (wd 0xA3 0 0 0x01 0xC4 0xF0 0xF0 0 0x0, .dkquad g0 1 (.s 4)),
    (wd 0xA4 0 0 0x01 0xC4 0xC1 0xF0 0 0x0, .dkexp g0 1 (.s 4) (.s 1)),
    (wd 0xA5 0 0 0x00 0xF0 0xF0 0xF0 0 0x0, .dkpush g0),
    (wd 0xA6 0 0 0x00 0xF0 0xF0 0xF0 0 0x0, .dkpop g0),
    (wd 0xA7 0 0 0x00 0xF0 0xF0 0xF0 0 0x0, .dkelse g0),
    (wd 0xA9 0 0 0x03 0x30 0xF0 0xF0 0 0x0, .dkmov g0 3 .cx),
    (wd 0xAA 0 0 0x03 0xC1 0xF0 0xF0 0 0x0, .dkld g0 3 (.s 1)),
    (wd 0xAB 0 0 0x31 0xC1 0xF0 0xF0 0 0x0, .dkst g0 .cy (.s 1)),
    (wd 0xAC 0 0 0x04 0x08 0x0A 0xC1 1 0x2F3, .dktex ({ g0 with imm := 2 }) 4 8 (.cell 10) (.s 1) .imm),
    (wd 0xAD 1 0 0x0D 0x02 0xF0 0xF0 0 0x0, .dkany g0 true 5 (.cell 2)),
    (wd 0xAE 2 4 0xC1 0x02 0xF0 0xF0 0 0x0, .dksum g0 .max .f32 (.s 1) (.cell 2)),
    (wd 0xAF 0 0 0xC1 0x02 0xC3 0xC4 1 0xC5, .dkxp g0 (.s 1) (.cell 2) (.s 3) (.s 4) (.s 5)),
    (wd 0xB0 2 4 0x00 0x01 0xC2 0xF0 0 0x0, .dktest g0 (.cmp .lt .f32 (.cell 1) (.scalar (.s 2)))),
    (wd 0xB0 8 0 0x00 0xF0 0xC2 0xF0 0 0x0, .dktest g0 (.flag (.scalar (.s 2)))),
    (wd 0xB1 0 0 0xC1 0xF0 0xF0 0xF0 0 0x0, .dkflg g0 (.s 1)),
    (wd 0xA8 3 4 0x03 0x01 0x02 0xC4 0 0x0, .dkop g0 .fma .f32 3 (.cell 1) (.cell 2) (.scalar (.s 4)))].all reads = true := by decide

theorem test_decode_keystone : [
    (wd 0xC0 0 0 0xC1 0xC2 0xF0 0xF0 0 0x0, .ddvar g0 (.s 1) (.s 2)),
    (wd 0xC1 8 0 0xC1 0xC2 0xC3 0xF0 0 0x0, .ddapp g0 8 (.s 1) (.s 2) (.s 3)),
    (wd 0xC2 0 0 0xC1 0xC2 0xC3 0xC4 0 0x0, .ddite g0 (.s 1) (.s 2) (.s 3) (.s 4)),
    (wd 0xC3 0 0 0xC1 0xC2 0xF0 0xF0 0 0x0, .ddnot g0 (.s 1) (.s 2)),
    (wd 0xC4 0 0 0xC1 0xC2 0xC3 0xF0 0 0x0, .ddres g0 (.s 1) (.s 2) (.s 3) .zero),
    (wd 0xC5 1 0 0xC1 0xC2 0xC3 0xF0 0 0x0, .ddqnt g0 true (.s 1) (.s 2) (.s 3)),
    (wd 0xC6 1 0 0xC1 0xC2 0xC3 0xC4 0 0x0, .ddcnt g0 true (.s 1) (.s 2) (.s 3) (.s 4)),
    (wd 0xC7 0 0 0xC1 0xC2 0xC3 0xC4 0 0x0, .ddexp g0 (.s 1) (.s 2) (.s 3) (.s 4)),
    (wd 0xC8 0 0 0x00 0xC2 0xF0 0xF0 0 0x0, .ddref g0 (.s 2)),
    (wd 0xC9 0 0 0x00 0xC2 0xF0 0xF0 0 0x0, .ddunref g0 (.s 2)),
    (wd 0xCA 0 0 0x00 0xF0 0xF0 0xF0 0 0x0, .ddswp g0),
    (wd 0xCB 0 0 0x00 0xC2 0xF0 0xF0 0 0x0, .ddord g0 (.s 2)),
    (wd 0xCC 0 0 0xC1 0xF0 0xF0 0xF0 0 0x0, .ddstat g0 (.s 1) .zero),
    (wd 0xCD 0 0 0xC4 0xC2 0xF0 0xF0 0 0x0, .ddnode g0 (.s 4) (.s 2))].all reads = true := by decide

theorem test_decode_system : [
    (wd 0xD0 0 0 0x00 0xC1 0xC2 0xF0 0 0x0, .pgreg g0 (.s 1) (.s 2)),
    (wd 0xD0 0 0 0x00 0xC1 0xF0 0xF0 0 0x0, .pgregRelease g0 (.s 1)),
    (wd 0xD1 0 0 0x00 0xF0 0xF0 0xF0 0 0x0, .pgdone g0),
    (wd 0xD2 0 0 0x00 0xC1 0xF0 0xF0 0 0x0, .pgfail g0 (.s 1)),
    (wd 0xD3 0 0 0x00 0xC1 0xF0 0xF0 0 0x0, .pgrstBlk g0 (.s 1)),
    (wd 0xD3 1 0 0x00 0xC1 0xF0 0xF0 0 0x0, .pgrstSlot g0 (.s 1)),
    (wd 0xD4 0 0 0xC9 0xC4 0xF0 0xF0 0 0x0, .launch g0 (.s 9) (.s 4)),
    (wd 0xD5 0 0 0xC9 0xC4 0xF0 0xF0 0 0x0, .lwait g0 (.s 9) (.s 4)),
    (wd 0xD6 0 0 0xC9 0xC4 0xF0 0xF0 0 0x0, .migr g0 (.s 9) (.s 4)),
    (wd 0xE0 0 0 0x00 0xC2 0xC3 0xC4 0 0x0, .shootDg g0 (.s 2) (.s 3) (.s 4)),
    (wd 0xE0 1 0 0x00 0xC2 0xF0 0xF0 0 0x0, .shootFlush g0 (.s 2)),
    (wd 0xE1 0 0 0xC2 0xF0 0xF0 0xF0 0 0x0, .halt g0 (.s 2)),
    (wd 0xE2 0 0 0xC1 0xC2 0xF0 0xF0 0 0x0, .ctxstopPre g0 (.s 1) (.s 2)),
    (wd 0xE2 1 0 0xC1 0xC2 0xF0 0xF0 0 0x0, .ctxstopKill g0 (.s 1) (.s 2)),
    (wd 0xE3 0 0 0x00 0xC1 0xC2 0xF0 0 0x0, .ctxgo g0 (.s 1) (.s 2))].all reads = true := by decide



/-! ### Ill-formed terms, refused by check 2 (`formOk`) or check 4 (`operandsOk`) of R254 -/

theorem test_ill_type : WellFormed (.iadd g0 false .f32 (.v 0) (.v 1) (.v 2)) = false := by decide
theorem test_ill_type_imad : WellFormed (.imad g0 true .u64 (.v 0) (.v 1) (.v 2) (.v 4)) = false := by decide
theorem test_ill_guard : WellFormed (.iadd { g0 with g1 := ⟨false, 8⟩ } false .u32 (.v 0) (.v 1) (.v 2)) = false := by decide
theorem test_ill_hint : WellFormed (.iadd { g0 with ch := 1 } false .u32 (.v 0) (.v 1) (.v 2)) = false := by decide
theorem test_ill_hint_code : WellFormed (.st { g0 with ch := 5 } ⟨.zero, .zero, 0, .relaxed, .slice, false⟩ .b32 (.v 0)) = false := by decide
theorem test_ill_guarded_bar : WellFormed (.bar { g0 with g1 := ⟨true, 0⟩ }) = false := by decide
theorem test_ill_unused_imm : WellFormed (.iadd { g0 with imm := 1 } false .u32 (.v 0) (.v 1) (.v 2)) = false := by decide
theorem test_ill_mix3_imm : WellFormed (.mix3 { g0 with imm := 256 } .u32 (.v 0) (.v 1) (.v 2) (.v 3)) = false := by decide
theorem test_ill_imm24 : WellFormed (.bfi { g0 with imm := 0x800000 } .u32 (.v 0) (.v 1) (.v 2) (.s 0) .imm) = false := by decide
theorem test_ill_order : WellFormed (.ld g0 ⟨.zero, .zero, 0, .release, .crew, false⟩ .b32 (.v 0)) = false := by decide
theorem test_ill_scope : WellFormed (.ld g0 ⟨.zero, .zero, 0, .relaxed, .crew, false⟩ .b32 (.v 0)) = false := by decide
theorem test_ill_scale : WellFormed (.ld g0 ⟨.zero, .zero, 1, .relaxed, .slice, false⟩ .b32 (.v 0)) = false := by decide
theorem test_ill_atom_r : WellFormed (.atom g0 ⟨.zero, .zero, 0, .relaxed, .slice, true⟩ .add .u32 (.v 0)) = false := by decide
theorem test_ill_red_exch : WellFormed (.red g0 ⟨.zero, .zero, 0, .relaxed, .slice, false⟩ .exch .u32 (.v 0)) = false := by decide
theorem test_ill_odd_pair : WellFormed (.iadd g0 false .u64 (.v 1) (.v 2) (.v 4)) = false := by decide
theorem test_ill_v192 : WellFormed (.iadd g0 false .u32 (.v 192) (.v 2) (.v 4)) = false := by decide
theorem test_ill_s48 : WellFormed (.iadd g0 false .u32 (.s 48) (.s 2) (.s 4)) = false := by decide
theorem test_ill_s_range : WellFormed (.ld g0 ⟨.s 0, .zero, 0, .relaxed, .slice, false⟩ .b128 (.s 47)) = false := by decide
theorem test_ill_scalar_dst : WellFormed (.iadd g0 false .u32 (.s 0) .lane (.s 4)) = false := by decide
theorem test_ill_dst_imm : WellFormed (.mov g0 .u32 .imm (.s 4)) = false := by decide
theorem test_ill_rdsr : WellFormed (.rdsr { g0 with imm := 0x10 } .u32 (.v 0)) = false := by decide
theorem test_ill_ring : WellFormed (.rpost g0 8 .zero) = false := by decide
theorem test_ill_q_pred : WellFormed (.icmp g0 .eq .u32 ⟨true, 0⟩ (.v 0) .zero) = false := by decide
theorem test_ill_chain : WellFormed (.trst g0 0 (.s 45) .zero) = false := by decide
theorem test_ill_cell : WellFormed (.dkop g0 .add .f32 48 (.cell 0) (.cell 1) CellOp.none) = false := by decide

/-! ### Words that no row of the table has -/

/-- The reserved bit 27 of word 1 is not there: it is W (R252). A word with W set decodes to W. -/
theorem test_w_bit : decodeWord (wd 0x10 0 0 0 1 2 0xF0 0 0 + 2 ^ 59) = .ok (.iadd { g0 with w := true } false .u32 (.v 0) (.v 1) (.v 2)) := by decide
theorem test_rejects :
    (∀ w ∈ [wd 0x1F 0 0 0xF0 0xF0 0xF0 0xF0 0 0, wd 0xFF 0 0 0xF0 0xF0 0xF0 0xF0 0 0, wd 0x10 2 0 0 1 2 0xF0 0 0, wd 0x10 0 4 0 1 2 0xF0 0 0], (decodeWord w) = .reservedInstr) := by decide
theorem test_rejects_operand :
    (∀ w ∈ [wd 0x10 0 2 1 2 4 0xF0 0 0, wd 0x10 0 0 0 0xF4 2 0xF0 0 0, wd 0x10 0 0 0xC0 0 0xF0 0xF0 0 0], (decodeWord w) = .reservedOperand 0x10) := by decide
/-- The words of R254's table and of R264's example. -/
def w01 (a b : Nat) : Nat := a + 2 ^ 32 * b
theorem test_r254_words :
    decodeWord (w01 0x1F 0x77F0F0) = .reservedInstr ∧ decodeWord (w01 0x103D010 0x77F0F3) = .reservedInstr ∧
    decodeWord (w01 0xF0F000E1 0x77F0F0) = .ok (.halt g0 .zero) ∧ decodeWord (w01 0xE1 0x77F0F0) = .reservedInstr ∧ decodeWord 0 = .reservedInstr ∧
    decodeWord (w01 0x1401010 0x77F0F7) = .reservedOperand 0x10 := by decide
theorem test_r264_example : decodeWord (w01 0xC4080270 0x877CB02 + 2 ^ 64 * 0x40) =
    .ok (.ld { g0 with w := true, imm := 0x40 } ⟨.s 4, .v 2, 2, .acquire, .tower, true⟩ .b32 (.v 8)) := by decide
/-- R357: custom-0, funct3 0, funct7 0; rd x10, rs1 x11, rs2 x12. -/
theorem test_fy_launch : decodeOs 0x00C5850B = some (.fyLaunch 10 11 12) := by decide
theorem test_fy_launch_funct3 : decodeOs 0x00C5950B = none := by decide

/-! ### One step each; expected results by hand from the rules -/

/-- The slice after the word has run as the first instruction. -/
def after (w : Nat) (f : Slice → Slice) : Option Slice :=
  match step ((loadDevice State.reset w).updSl 1 f) with
  | .next t => some (t.sl 1)
  | _ => none
def vAt (x : Option Slice) (n l : Nat) : Nat := (x.map fun x => (x.vreg n l).toNat).getD 0
def sAfter (x : Option Slice) (n : Nat) : Nat := (x.map fun x => (x.sreg n).toNat).getD 0
def ss (l : List (Nat × DWord)) (x : Slice) : Slice := { x with s := l }

/-- R275: the sum wraps, a 32-bit result clears bits [63:32] (R136). -/
theorem test_iadd : sAfter (after (wd 0x10 0 0 0xC0 0xC1 0xC2 0xF0 0 0) (ss [(0, BitVec.allOnes 64), (1, 0xFFFFFFFF), (2, 2)])) 0 = 1 := by decide
theorem test_isub_sat : sAfter (after (wd 0x11 1 1 0xC0 0xC1 0xC2 0xF0 0 0) (ss [(1, 0x80000000), (2, 1)])) 0 = 0x80000000 := by decide
theorem test_imulh : sAfter (after (wd 0x13 0 1 0xC0 0xC1 0xC2 0xF0 0 0) (ss [(1, 0xFFFFFFFF), (2, 0xFFFFFFFF)])) 0 = 0 := by decide
/-- A source that is the destination: v1 := lane + v1. -/
theorem test_iadd_lanes : (List.range 4).map (vAt (after (wd 0x10 0 0 1 0xF1 1 0xF0 0 0) fun x => { x with v := [(4, 10), (5, 10), (6, 10), (7, 10)] }) 1) = [10, 11, 12, 13] := by
  decide
/-- R279: a shift by the width clamps to 0, under .wrap it is a shift by 0. -/
theorem test_shl_clamp : sAfter (after (wd 0x24 0 0 0xC0 0xC1 0xC2 0xF0 0 0) (ss [(1, 1), (2, 32)])) 0 = 0 := by decide
theorem test_shl_wrap : sAfter (after (wd 0x24 1 0 0xC0 0xC1 0xC2 0xF0 0 0) (ss [(1, 1), (2, 32)])) 0 = 1 := by decide
theorem test_clz_zero : sAfter (after (wd 0x2C 0 2 0xC0 0xC2 0xF0 0xF0 0 0) (ss [])) 0 = 64 := by decide
/-- 1.5 + 2.25 = 3.75. -/
theorem test_fadd : sAfter (after (wd 0x30 0 4 0xC0 0xC1 0xC2 0xF0 0 0) (ss [(1, 0x3FC00000), (2, 0x40100000)])) 0 = 0x40700000 := by decide
/-- R154: the largest number doubled overflows to infinity, OF and NX. -/
theorem test_fmul_overflow : (after (wd 0x32 0 4 0xC0 0xC1 0xC2 0xF0 0 0) (ss [(1, 0x7F7FFFFF), (2, 0x40000000)])).map (fun x => (x.sreg 0, x.flags)) =
    some (0x7F800000, fOF ||| fNX) := by decide
theorem test_movi : sAfter (after (wd 0x51 0 3 0xC0 0xF0 0xF0 0xF0 0 0x80000000) (ss [])) 0 = 0xFFFFFFFF80000000 := by decide
/-- R142: the PC goes 12 on. -/
theorem test_pc : (after (wd 0 0 0 0 0xF0 0xF0 0xF0 0 0) id).map (fun x => x.pc) = some 0x300C := by decide
/-- R241, R254: an undecodable word with no trap vector kills the context (R246). -/
theorem test_no_handler :
    (match step (loadDevice State.reset (wd 0x1F 0 0 0xF0 0xF0 0xF0 0xF0 0 0)) with | .next t => (t.ctx 0).st | _ => .running) = .dead := by decide
theorem test_trap_entry :
    (match step ({ loadDevice State.reset (wd 0x1F 0 0 0xF0 0xF0 0xF0 0xF0 0 0) with ctxs := [(0, { loadCtx with trapvec := 0x5000 })] } : State) with
      | .next t => ((t.sl 1).pc, (t.sl 1).trappc, (t.sl 1).hmode) | _ => (0, 0, false)) = (0x5000, 0x3000, true) := by decide


/-! ### Witnesses: states and operands that meet the hypotheses of each statement, clause by clause -/

/-- One VEC slice of a one-slice crew of a system context, in the place where `State.withFetchWord` puts it, holding the issue. -/
def w0 : State := { loadDevice State.reset 0 with cur := [1], schedule := [] }
def wSl (f : Slice → Slice) : State := w0.updSl 1 f
def wCrew (f : Crew → Crew) : State := w0.updCrew 1 f

/-- The same slice, and a second one of its crew that holds the issue with it. -/
def two (s : State) : State :=
  { s with slices := Tbl.put s.slices 2 { s.sl 1 with ix := 1 }, crews := [(1, { s.crew 1 with slices := [1, 2] })], cur := [1, 2] }

theorem w0_unitIn : w0.unitIn := by unfold State.unitIn; decide

theorem witness_encode : ∃ i n, WellFormed i = true ∧ encodeWord i = some n ∧ n = 0x5F32077C3020104002A :=
  ⟨.bfi { g0 with imm := 5 } .u32 (.v 4) (.v 1) (.v 2) (.s 3) .imm, _, by decide, rfl, by decide⟩

theorem witness_encode_fy : WellFormed (.fyLaunch 31 0 31) = true := by decide

theorem witness_results :
    (∃ i r, IntResult i r ∧ WellFormed i = true ∧ w0.unitIn ∧ r.fits w0) ∧ (∃ i r, BitResult i r ∧ WellFormed i = true ∧ w0.unitIn ∧ r.fits w0) ∧
    (∃ i r, FloatResult i r ∧ WellFormed i = true ∧ w0.unitIn ∧ r.fits w0) ∧ (∃ i r, MoveResult i r ∧ WellFormed i = true ∧ w0.unitIn ∧ r.fits w0) :=
  ⟨⟨_, _, .iadd g0 true .u64 (.v 190) (.v 0) .zero, by decide, w0_unitIn, by unfold Result.fits; decide⟩,
   ⟨_, _, .shl g0 false .u32 (.v 191) (.v 0) .imm, by decide, w0_unitIn, by unfold Result.fits; decide⟩,
   ⟨_, _, .ffma g0 true .f16 (.s 47) (.s 0) .zero .zero, by decide, w0_unitIn, by unfold Result.fits; decide⟩,
   ⟨_, _, .f2i g0 .u64 .f32 (.v 190) .lane, by decide, w0_unitIn, by unfold Result.fits; decide⟩⟩

theorem witness_predicates : ∃ i r, PredForm i r ∧ WellFormed i = true ∧ w0.unitIn ∧ ∀ j ∈ w0.cur, regsOk (w0.crewOf j) r.regs = true :=
  ⟨_, _, .icmp g0 .ge .s64 ⟨false, 7⟩ (.v 190) .imm, by decide, w0_unitIn, by decide⟩

/-- The slice at a format register with W = 8, and at the reset value, whose W is below 2. -/
def wFmt : State := { w0 with ctxs := Tbl.put w0.ctxs 0 { loadCtx with f := [(3, 0x138)] } }
theorem witness_slice_effects :
    (∀ j ∈ w0.cur, regsOk (w0.crewOf j) [(.v 190, 2), (.v 188, 2), (.s 47, 2)] = true) ∧
    (∀ j ∈ wFmt.cur, ∃ f, fmtOfReg (fRegNow wFmt j 3) = some f ∧ (Opnd.s 44).sRange (containerCount (fRegNow wFmt j 3)) = true ∧
      regsOk (wFmt.crewOf j) [(.s 44, containerCount (fRegNow wFmt j 3)), (.s 0, 1), (.zero, 1)] = true) ∧
    (∀ j ∈ wFmt.cur, (∃ f, fmtOfReg (fRegNow wFmt j 3) = some f) ∧ nibbleClass (fRegNow wFmt j 3) = false) := by
  refine ⟨by decide, ?_, ?_⟩
  · intro j hj
    obtain rfl : j = 1 := by simpa [wFmt, w0] using hj
    exact ⟨_, rfl, by decide, by decide⟩
  · intro j hj
    obtain rfl : j = 1 := by simpa [wFmt, w0] using hj
    exact ⟨⟨_, rfl⟩, by decide⟩


theorem witness_values : (Ty.u64 = .u32 ∨ Ty.u64 = .u64) ∧ w0.unitIn ∧ (∀ j ∈ w0.cur, regsOk (w0.crewOf j) [(.v 190, 2), (.v 0, 2), (.v 2, 2), (.zero, 1)] = true) ∧
    32 ≤ (32 : DWord).toNat % 2 ^ 32 ∧ (Fields.ofNat 0x2A).op = 0x2A ∧ (Fields.ofNat 0x2A).x = 0 ∧
    (tyElems .s8x4).1 * tyWidth .s8x4 = 32 ∧ (Ty.s64).is64 = true ∧ (1 : DWord).getLsbD 0 = true ∧ (∀ k, k < 64 → (0 : DWord).getLsbD k = false) :=
  ⟨by decide, w0_unitIn, by decide, by decide, by decide, by decide, by decide, by decide, by decide, by simp⟩

/-- A branch of all four lanes to one place, and one of the lanes in which p1 holds, with a region open. -/
def wSplit : State := wSl fun x => { x with p := 0x00020002, stack := [⟨0xF, 0, 0, 0⟩] }
theorem witness_transfers :
    (∃ i f, Transfers i f ∧ ∀ j ∈ w0.cur, regsOk (w0.crewOf j) f.regs = true ∧ f.alignedIn (w0.crewOf j) (w0.sl j) ∧ (w0.sl j).active ≠ 0 ∧
      ∀ l, l < 4 → (w0.sl j).active.getLsbD l = true → f.dest (w0.crewOf j) (w0.sl j) l = 0x2FF4) ∧
    ∃ i f, Transfers i f ∧ ∀ j ∈ wSplit.cur,
      let x := wSplit.sl j
      let d := f.dest (wSplit.crewOf j) x
      regsOk (wSplit.crewOf j) f.regs = true ∧ f.alignedIn (wSplit.crewOf j) x ∧ x.stack = [⟨0xF, 0, 0, 0⟩] ∧ (0x300C : DWord) ≠ 0x3018 ∧
      (∀ l, l < 4 → (0xA : BitVec 4).getLsbD l = (x.active.getLsbD l && d l == 0x300C)) ∧
      (∀ l, l < 4 → (0x5 : BitVec 4).getLsbD l = (x.active.getLsbD l && d l == 0x3018)) ∧ x.active = 0xA ||| 0x5 ∧ 0x300C = x.pc + 12 := by
  refine ⟨⟨_, _, .bra { g0 with imm := 0xFFFFFFF4 }, ?_⟩, ⟨_, _, .bra { g0 with g1 := ⟨false, 1⟩, imm := 24 }, ?_⟩⟩
  · unfold TransferForm.alignedIn; decide
  · unfold TransferForm.alignedIn; decide

theorem witness_control :
    (∀ j ∈ (wSl fun x => { x with stack := List.replicate 15 ⟨0xF, 0, 0, 0⟩ }).cur,
      ((wSl fun x => { x with stack := List.replicate 15 ⟨0xF, 0, 0, 0⟩ }).sl j).stack.length < 16) ∧
    (let s := wSl fun x => { x with stack := [⟨0xF, 0x3018, 5, 0⟩], active := 0xA }
     ∀ j ∈ s.cur, (s.sl j).stack = [⟨0xF, 0x3018, 5, 0⟩] ∧ (s.sl j).active ≠ 0) ∧
    (let s := wSl fun x => { x with p := 0x00020002 }
     let h : Hdr := { g0 with g1 := ⟨false, 1⟩ }
     ∀ j ∈ s.cur, (s.sl j).active &&& ~~~(perLane h (s.sl j)) ≠ 0 ∧ (s.sl j).live &&& ~~~(perLane h (s.sl j)) ≠ 0) ∧
    (∀ j ∈ w0.cur, perLane g0 (w0.sl j) ≠ 0 ∧ (w0.sl j).live &&& ~~~(perLane g0 (w0.sl j)) = 0 ∧ (w0.sl j).active &&& ~~~(perLane g0 (w0.sl j)) = 0 ∧
      (w0.sl j).outst = [] ∧ (w0.sl j).deferred = []) ∧
    (∀ out e, (out, e) ∈ [(([] : List REntry), (⟨0xF, 0x3018, 5, 0⟩ : REntry)), ([⟨0xA, 0, 0xA, 0⟩], ⟨0xF, 0, 0, 0x3000⟩)] →
      let s := wSl fun x => { x with stack := out ++ [e], active := 0xA }
      ∀ j ∈ s.cur,
        let left := (s.sl j).live &&& ~~~(perLane g0 (s.sl j))
        perLane g0 (s.sl j) ≠ 0 ∧ (s.sl j).active &&& ~~~(perLane g0 (s.sl j)) = 0 ∧ left ≠ 0 ∧ (s.sl j).stack = out ++ e :: [] ∧
        (∀ o ∈ out, o.pmask &&& left = 0 ∧ o.mask &&& left = 0) ∧ (e.pmask &&& left ≠ 0 ∨ e.mask &&& left ≠ 0)) ∧
    (∀ j ∈ w0.cur, ∀ k ∈ w0.liveGang j, k ∈ w0.cur) ∧
    (let s : State := { wSl fun x => { x with stepIn := true } with launches := [(1, { loadLaunch with steps := 1 })] }
     ∀ j ∈ s.cur, (s.sl j).stepIn = true ∧ ∃ l, Tbl.find s.launches (s.crewOf j).launch = some l ∧ (s.sl j).steps + 1 ≤ l.steps) ∧
    (let s := wSl fun x => { x with hmode := true, saved := 5, trappc := 0x3000, trapdef := true, trapinfo := 0x3018 }
     ∀ j ∈ s.cur, (s.sl j).hmode = true ∧ (s.sl j).outst = [] ∧ (s.sl j).active ≠ 0 ∧ (s.sl j).saved &&& (s.sl j).live ≠ 0 ∧
       (s.sl j).trappc.toNat % 4 = 0 ∧ (if (s.sl j).trapdef then (s.sl j).trapinfo else (s.sl j).trappc + 12).toNat % 4 = 0) := by
  refine ⟨by decide, by decide, by decide, by decide, ?_, by decide, ?_, by decide⟩
  · intro out e h
    simp only [List.mem_cons, List.not_mem_nil, or_false, Prod.mk.injEq] at h
    rcases h with ⟨rfl, rfl⟩ | ⟨rfl, rfl⟩ <;> decide
  intro s j hj
  obtain rfl : j = 1 := by simpa [s, wSl, w0, State.updSl, State.setSl] using hj
  exact ⟨rfl, _, rfl, by decide⟩

theorem witness_functions_and_gangs :
    (∃ i h d a f, SfuForm i h d a f ∧ ∀ j ∈ w0.cur, regsOk (w0.crewOf j) [(d, 1), (a, 1)] = true ∧ (w0.sl j).outst.length < 32 ∧ sfuBusy w0 j < 8) ∧
    (∃ i f, Gangs i f ∧ ∀ j ∈ w0.cur, regsOk (w0.crewOf j) f.regs = true ∧ (w0.sl j).outst.length < 32 ∧ (w0.sl j).active ≠ 0 ∧
      ∀ k ∈ w0.liveGang j, k ∈ w0.cur) :=
  ⟨⟨_, _, _, _, _, .rcp g0 (.v 191) (.v 0), by decide⟩, ⟨_, _, .redux g0 .add .f32 (.s 47) (.v 191), by decide⟩⟩

/-- The writes of a unit of two slices; 3F800000 is 1.0. -/
theorem witness_special_writes :
    let v := fun (s : State) (a : Opnd) (j : Nat) => rd (s.crewOf j) (s.sl j) .u64 g0.imm 0 a
    (two w0).unitIn ∧ (two w0).each g0 (fun j => (v (two w0) .zero j).toNat < 64) ∧
    (let s := two (wSl fun x => { x with role := .deck, s := [(1, 0x3D)] })
     (∀ j ∈ s.cur, (s.sl j).role = .deck) ∧ s.each g0 fun j => v s (.s 1) j &&& ~~~0x3D = 0) ∧
    (∀ j ∈ (two (wSl fun x => { x with hmode := true })).cur, ((two (wSl fun x => { x with hmode := true })).sl j).hmode = true) ∧
    (let s := two (wSl fun x => { x with s := [(1, 0x138), (2, 0x3F800000), (3, 0x33)] })
     (s.each g0 fun j => (v s (.s 1) j).toNat % 4 = 0) ∧ (s.each g0 fun j => formatRegOk (v s (.s 1) j) = true) ∧
     (s.each g0 fun j => (v s (.s 2) j).toNat < 2 ^ 32 ∧ positiveNormal fmtF32 (v s (.s 2) j).toNat = true) ∧
     s.each g0 fun j => v s (.s 3) j &&& ~~~0x33 = 0 ∧ (s.cluster (coreCluster (s.coreOf j))).raising = none) := by
  unfold State.unitIn State.each
  refine ⟨by decide, by decide, by decide, by decide, by decide⟩

def wTrap (f : Slice → Slice) : State := { wSl f with ctxs := Tbl.put w0.ctxs 0 { loadCtx with trapvec := 0x8000 } }
theorem witness_traps :
    ((∀ j ∈ (two w0).cur, (two w0).hasCtx ((two w0).ctxOf j) = true) ∧ ∃ j ∈ (two w0).cur, perSlice g0 ((two w0).sl j) ≠ 0) ∧
    (wTrap id).canTrap 1 ∧ ((wTrap fun x => { x with outst := [(7, 1)] }).sl 1).outst ≠ [] ∧
    ((w0.sl 1).outst = [] ∧ (w0.crewOf 1).gen = none ∧ w0.hasCtx (w0.ctxOf 1) = true ∧ trapvecNow w0 1 = 0) ∧
    (let s := { wTrap fun x => { x with taking := some ⟨0x0C, 0x3000, 0, 1, 0, false, false⟩ } with schedule := [.issue 0 0 7] }
     s.schedule = [.issue 0 0 7] ∧ (slotAt (s.core 0) 0).holder = [1] ∧ (slotAt (s.core 0) 0).freeAt ≤ s.clockOf 1 ∧
       s.alive 1 = true ∧ s.hasCtx (s.ctxOf 1) = true ∧ (s.ctx (s.ctxOf 1)).st = .running ∧ ({ s with freeIx := s.freeIx + 1 } : State).canTrap 1 ∧ (s.sl 1).taking = some ⟨0x0C, 0x3000, 0, 1, 0, false, false⟩) ∧
    (let s := wTrap fun x => { x with deferred := [⟨0x0C, 0x3000, 0, 1, 0, false, false⟩], park := .after (.clock 0) true }
     (s.sl 1).taking = none ∧ ({ s with freeIx := s.freeIx + 1 } : State).canTrap 1 ∧ (s.sl 1).deferred = [⟨0x0C, 0x3000, 0, 1, 0, false, false⟩] ∧
       (s.sl 1).park = .after (.clock 0) true ∧ 0 ≤ s.clockOf 1) := by
  unfold State.canTrap
  exact ⟨⟨by decide, 1, by decide, by decide⟩, by decide, by decide, by decide, by decide, by decide⟩

/-- A step that fetches NOP at 0x3000 and runs it. -/
def wStep : State := State.reset.withFetchWord 96 0x77F0F0F0000000
theorem witness_step :
    let s := wStep
    let u : State := { s with schedule := [], freeIx := s.freeIx + 1 }
    s.schedule = [.issue 0 0 7] ∧ (slotAt (s.core 0) 0).holder = [1] ∧
    (∀ k ∈ [1], s.alive k = true ∧ sliceReady u k = true ∧ (s.sl k).pc = (s.sl 1).pc ∧ (s.sl k).taking = none ∧ mustDeliver (s.sl k) = false) ∧
    s.hasCtx (s.ctxOf 1) = true ∧ (s.ctx (s.ctxOf 1)).st ≠ .stopped ∧ (slotAt (s.core 0) 0).freeAt ≤ s.clockOf 1 ∧
    (let w := wakeUnit u [1]
     (∀ k ∈ [1], fetchStand w k = .go) ∧ anyPoison ([1].foldl holdGrants w) (s.ctxOf 1) 0x3000 12 = none) := by decide

theorem witness_step_word : decodeWord (fetchWords wStep 0 0 0x3000 7).1 = .ok (.nop g0) := by decide


/-- READ and WRITE clearance of the low 512 GiB is in the core's cache. -/
def cleared (s : State) : State := s.updCore 0 fun c => { c with clr := [⟨0, 0, 2 ^ 39, .read⟩, ⟨0, 0, 2 ^ 39, .write⟩] }
def wMem (f : Slice → Slice) : State := cleared (wSl f)
def m0 : MemOp := ⟨.s 4, .zero, 0, .relaxed, .slice, false⟩
def sAt (n : Nat) (x : Slice) : Slice := { x with s := [(4, BitVec.ofNat 64 n)] }

theorem witness_loads :
    let s := wMem (sAt (2 ^ 39 - 4))
    let as := accsFor g0 (memVec (.v 0) m0) m0 4 s
    s.unitIn ∧ ∀ j ∈ s.cur, regsOk (s.crewOf j) (memRegs (.v 0) 4 m0) = true ∧ lanesFor (memVec (.v 0) m0) g0 (s.sl j) ≠ 0 ∧ as j ≠ [] ∧
      s.served j (as j) ∧ s.calm j (as j) ∧ (s.sl j).outst.length < 32 := by
  unfold State.unitIn State.served State.calm
  refine ⟨by decide, ?_⟩
  intro j hj
  obtain rfl : j = 1 := by simpa [wMem, cleared, wSl, w0, State.updSl, State.setSl, State.updCore, State.setCore] using hj
  exact ⟨by decide, by decide, by decide, by decide, ⟨by decide, by decide, fun _ => rfl⟩, by decide⟩

theorem witness_stores :
    let s := wMem (sAt (2 ^ 39 - 8))
    let f : StoreForm := ⟨g0, m0, .v 0, 8, memRegs (.v 0) 8 m0, memVec (.v 0) m0, true, .atom .add .u64, some (.v 0, 1), fun _ _ => 0⟩
    Stores (.atom g0 m0 .add .u64 (.v 0)) f ∧ s.unitIn ∧ ∀ j ∈ s.cur, regsOk (s.crewOf j) f.regs = true ∧ f.accs s j ≠ [] ∧
      (∀ a ∈ f.accs s j, a.va % f.n = 0) ∧ s.writable j (f.accs s j) ∧ s.orderMet j f.m ∧ s.calm j (f.accs s j) ∧ (s.sl j).outst.length < 32 := by
  refine ⟨.atom g0 m0 .add .u64 (.v 0), ?_⟩
  unfold State.unitIn State.writable State.calm State.orderMet
  refine ⟨by decide, ?_⟩
  intro j hj
  obtain rfl : j = 1 := by simpa [wMem, cleared, wSl, w0, State.updSl, State.setSl, State.updCore, State.setCore] using hj
  exact ⟨by decide, by decide, by decide, by decide, by simp [m0], ⟨by decide, by decide, fun _ => rfl⟩, by decide⟩

/-- A release at crew scope whose slice has nothing under way. -/
theorem witness_release : (wMem id).orderMet 1 { m0 with order := .release, scope := .crew } := by
  intro _
  exact ⟨by decide, by intro h; exact absurd h (by decide)⟩

/-- The span holds `n` scratch tiles. -/
def wSpan (n : Nat) (f : Slice → Slice) : State :=
  { wSl f with spans := [(1, ⟨1, 0, 0, 0, n, [], [1]⟩)], clusters := [(0, { Cluster.init with ways := 3 })] }

/-- Tile 15 of the stash stands for the last 1024 bytes of global memory's low 512 GiB; its first sector is valid, its third dirty. -/
def wMap (n : Nat) : State :=
  { wMem (sAt n) with
    crews := [(1, { loadCrew with tiles := 16, maps := [⟨15, 1, 2 ^ 39 - 1024⟩], tags := [(15, ⟨.slices, true, 1, 4⟩)] })] }

theorem witness_local :
    let as := accsFor g0 (memVec (.v 0) m0) m0 8
    (∀ st ∈ [false, true],
      (∀ n ∈ [0, 0x3FF8], ((wMem (sAt n)).localOpen 1 .stash 8 st (as (wMem (sAt n)) 1) ∧ unitHome (wMem (sAt n)) st as 1 = [])) ∧
      (wSpan 1 (sAt 0xFF8)).localOpen 1 .span 8 st (as (wSpan 1 (sAt 0xFF8)) 1) ∧
      ((wMem (sAt 0x3FF8)).localOpen 1 .remote 8 st (as (wMem (sAt 0x3FF8)) 1) ∧ remoteAccs (wMem (sAt 0x3FF8)) 1 (as (wMem (sAt 0x3FF8)) 1) = [])) ∧
    (let s := wMap 0x3FF8
     s.localOpen 1 .stash 8 false (as s 1) ∧ (unitHome s false as 1).map LaneAcc.va = List.replicate 4 (2 ^ 39 - 8) ∧
       s.served 1 (unitHome s false as 1) ∧ s.writable 1 (unitHome s true as 1) ∧ s.calm 1 (unitHome s false as 1)) ∧
    (unitHome (wMap 0x3C00) false as 1 = [] ∧ unitHome (wMap 0x3D00) true as 1 = [] ∧
      unitHome (wMap 0x3C00) true as 1 ≠ []) ∧
    (wMem id).calm 1 [] ∧ (wMem id).orderMet 1 m0 ∧ ((wMem id).sl 1).outst.length < 32 := by
  unfold State.calm State.orderMet State.localOpen State.served State.writable
  refine ⟨by decide, ⟨by decide, by decide, by decide, by decide, ⟨by decide, by decide, fun _ => rfl⟩⟩, by decide,
    ⟨by simp, by decide, fun _ => rfl⟩, by simp [m0], by decide⟩

theorem witness_hints :
    let s := wSl (sAt (2 ^ 56))
    (∀ j ∈ s.cur, regsOk (s.crewOf j) [(m0.base, 2), (m0.index, 1)] = true) ∧ (∀ j ∈ s.cur, ∀ a ∈ accsFor g0 (memVec .zero m0) m0 1 s j, prefPage s j a.va = none) ∧
    (∀ j ∈ s.cur, (s.cluster (coreCluster (s.coreOf j))).raising = none) := by decide


/-- A descriptor of a 1 × 1 texture with base 0x5000 lies at 0x4000, at the largest coordinates' program 0. -/
def wTex : State := { wMem (sAt 0x4000) with mem := Mem.writeLE (wMem id).mem 0x4000 32 (0x5000 + 16 * 2 ^ 96) }
def texWhere (s : State) (j : Nat) (t : Tex) (q : TexIn) : List Nat :=
  match progOf s (sliceParty s j) q.prog with
  | none => []
  | some g => sampleAddrs s t g q.x q.y (4 * j + q.lane)

theorem witness_texture :
    let ins := texIns (vecMode (.s 8) [.s 4, .s 6, .zero, .zero]) g0 (.s 4) (.s 6) .zero .zero wTex
    (∀ j ∈ wTex.cur, regsOk (wTex.crewOf j) [(.v 188, 4), (.s 4, 2), (.s 6, 2), (.zero, 1), (.zero, 2)] = true) ∧
    wTex.samples 1 (ins 1) (texWhere wTex 1) := by
  refine ⟨by decide, ⟨by decide, ?_, by decide, by decide, by decide⟩⟩
  unfold State.served
  exact ⟨by decide, by decide, by decide, by decide⟩

theorem witness_texels :
    let ins := texIns (vecMode (.s 8) [.s 4, .s 6]) g0 (.s 4) (.s 6) .zero .zero wTex
    wTex.samples 1 (ins 1) (fun t q => [texelAddr t (sInt 32 q.x) (sInt 32 q.y)]) ∧
    wTex.samples 1 (texIns (vecMode (.s 8) [.s 4]) g0 (.s 4) .zero .zero .zero wTex 1) (fun _ _ => []) := by
  refine ⟨⟨by decide, ?_, by decide, by decide, by decide⟩, ⟨by decide, ?_, by decide, by decide, by decide⟩⟩ <;>
    (unfold State.served; exact ⟨by decide, by decide, by decide, by decide⟩)

theorem witness_sync :
    w0.each g0 (fun j => (w0.sl j).accs = [] ∧ (w0.sl j).outst = []) ∧ w0.each g0 (fun j => w0.released j true) ∧
    (let s := wSl fun x => { x with barIn := true, bars := 4, p := 0 }
     ∀ j ∈ s.cur, (s.sl j).active ≠ 0 → (s.sl j).barIn = true ∧ ∀ k ∈ (s.crewOf j).slices, (s.sl k).live = 0 ∨ (s.sl j).bars + 1 ≤ barsOf (s.sl k)) ∧
    (∀ j ∈ w0.cur, (w0.sl j).active ≠ 0 → ∀ k ∈ participants w0 j 1, arrivals (w0.sl j) 1 ≤ arrivals (w0.sl k) 1) := by
  unfold State.each State.released
  refine ⟨by decide, ?_, by decide, by decide⟩
  intro j hj _
  obtain rfl : j = 1 := by simpa [w0] using hj
  exact ⟨by decide, fun _ => ⟨by decide, by decide, by decide⟩⟩

/-- Rings of 8 stages, stage 7 of ring 0 full. -/
def wRing (n : Nat) : State := { wSl (sAt n) with crews := [(1, { loadCrew with rings := (⟨8, 0x80⟩ : Ring) :: List.replicate 7 Ring.init })] }
theorem witness_rings :
    (∀ n ∈ [1, 8], (wSl (sAt n)).each g0 fun j => 1 ≤ rs32 (wSl (sAt n)) j g0 (.s 4) ∧ rs32 (wSl (sAt n)) j g0 (.s 4) ≤ 8) ∧
    (∀ n ∈ [0, 7], (wRing n).each g0 fun j => rs32 (wRing n) j g0 (.s 4) < (ringOf ((wRing n).crewOf j) 0).nst ∧
      (ringOf ((wRing n).crewOf j) 0).ph.getLsbD (rs32 (wRing n) j g0 (.s 4)) = (n == 7)) ∧
    (wRing 7).each g0 (fun j => (wRing 7).released j false) ∧
    (∀ n ∈ [0, 0x80000001], (wSl (sAt n)).each g0 fun j => (kOf ((wSl (sAt n)).crewOf j) 15 - BitVec.ofNat 32 (rs32 (wSl (sAt n)) j g0 (.s 4))).msb = false) := by
  unfold State.each State.released
  refine ⟨by decide, by decide, ?_, by decide⟩
  intro j hj _
  obtain rfl : j = 1 := by simpa [wRing, wSl, w0, State.updSl, State.setSl] using hj
  exact ⟨by decide, fun h => absurd h (by decide)⟩

theorem witness_waitmem :
    let s := wMem (sAt 0x4000)
    let as := accsFor g0 false m0 8 s
    (∀ j ∈ s.cur, s.calm j (as j) ∧ anyPoison s (s.ctxOf j) 0x4000 8 = none) ∧
    s.each g0 fun j => 0x4000 % 8 = 0 ∧ (as j).head?.map LaneAcc.va = some 0x4000 ∧
      (∀ a ∈ as j, clrSt s j .read false a = .ok ∧ fillSt s j a = .ok) ∧
      (∀ k, k < 8 → absentFor (s.sl j).answers (0x4000 + k) = false) ∧ ownPre s j (as j) = .go ∧
      wcondHolds .eq 64 (curLE s (s.ctxOf j) 0x4000 8) (comparand (s.sl j) (.s 2)).toNat = true := by
  unfold State.each State.calm
  refine ⟨?_, by decide⟩
  intro j hj
  obtain rfl : j = 1 := by simpa [wMem, cleared, wSl, w0, State.updSl, State.setSl, State.updCore, State.setCore] using hj
  exact ⟨⟨by decide, by decide, fun _ => rfl⟩, by decide⟩

theorem witness_tiles :
    (let s := wSl fun x => { x with s := [(4, 0x3C00), (5, 1)] }
     s.each g0 fun j => ((false = true → (s.cluster (coreCluster (s.coreOf j))).raising = none) ∧ 1 ≤ rs32 s j g0 (.s 5) ∧ rs32 s j g0 (.s 5) ≤ 512 ∧
       s.tileRange j 1 (rs32 s j g0 (.s 4)) (rs32 s j g0 (.s 5)) ∧ ∀ k, k < 1 → townOk s j false .deck (rs32 s j g0 (.s 4) / 1024 + k) = true ∧
         (ownerOfTile s (s.sl j).crew 1 (rs32 s j g0 (.s 4) / 1024 + k) ≠ .deck → tileBusy s (s.sl j).crew false (rs32 s j g0 (.s 4) / 1024 + k) = false)) ∧
       s.tileRange j 1 (rs32 s j g0 (.s 4)) 1 ∧ ownerOfTile s (s.sl j).crew 1 (rs32 s j g0 (.s 4) / 1024) = .slices) ∧
    (let s := wSpan 2048 fun x => { x with s := [(4, 0), (5, 2048)] }
     s.each g0 fun j => (s.cluster (coreCluster (s.coreOf j))).raising = none ∧ rs32 s j g0 (.s 5) ≤ 2048 ∧ s.tileRange j 2 (rs32 s j g0 (.s 4)) 2 ∧
       ∀ k, k < 2 → townOk s j true .trestle k = true ∧ (ownerOfTile s (s.sl j).crew 2 k ≠ .trestle → tileBusy s (s.sl j).crew true k = false)) ∧
    (let s := wSl fun x => { x with s := [(4, 0), (5, 16), (6, 0x40000000)] }
     let u := fun (j : Nat) => unitBefore g0 (stmapPre g0 (.s 4) (.s 5) (.s 6)) (fun u k => stmapDo g0 (.s 4) (.s 5) (.s 6) u u k) s j
     s.each g0 fun j => 1 ≤ rs32 s j g0 (.s 5) ∧ rs32 s j g0 (.s 5) ≤ 512 ∧ rs64 s j g0 (.s 6) % 1024 = 0 ∧ rs32 s j g0 (.s 4) % 1024 = 0 ∧
      rs64 s j g0 (.s 6) / 2 ^ 48 % 512 = (rs64 s j g0 (.s 6) + 1024 * rs32 s j g0 (.s 5) - 1) / 2 ^ 48 % 512 ∧
      ((u j).crew (s.sl j).crew).maps.length < 8 ∧ rs32 s j g0 (.s 4) / 1024 + rs32 s j g0 (.s 5) ≤ (s.crewOf j).tiles ∧
      ∀ k, k < 16 → (tagOf (u j) (s.sl j).crew k).mapped = false ∧ (tagOf (u j) (s.sl j).crew k).owner = .slices) ∧
    (let s := { w0 with crews := [(1, { loadCrew with maps := [⟨0, 1, 0x40000000⟩], tags := [(0, ⟨.slices, true, 1, 0⟩)] })] }
     let m : Mapping := ⟨0, 1, 0x40000000⟩
     let u := fun (j : Nat) => unitBefore g0 (stunmapPre g0 .zero) (fun u k => stunmapDo g0 .zero u u k) s j
     (∀ j ∈ s.cur, rs32 s j g0 .zero % 1024 = 0 ∧ mapAt (s.crewOf j) 0 = some m) ∧
     s.each g0 fun j => mapAt ((u j).crew (s.sl j).crew) 0 = some m ∧ mapDirty (u j) (s.sl j).crew m = false ∧
       mapSends (u j) (s.sl j).crew m = [] ∧ mapStores (u j) (s.sl j).crew m = [] ∧ ∀ e ∈ mapStores s (s.sl j).crew m, e.1 ≠ j) := by
  unfold State.each State.tileRange
  exact ⟨by decide, by decide, by decide, by decide⟩


/-! Trestle: tile 1 of the stash is Trestle's; `e` lies at its start, chain 0 is as given. -/
def wChain (e : Nat) (f : Chain → Chain) : State :=
  { w0 with
    stash := Mem.writeLE [] (1 * 2 ^ 19 + 0x400) 32 e
    crews := [(1, { loadCrew with
      tags := [(1, ⟨.trestle, false, 0, 0⟩)], rings := List.replicate 8 ⟨8, 0x80⟩
      chains := f { Chain.init with st := .running, base := 0x400, slice := 1, pc := 0x3000 } :: List.replicate 3 Chain.init })] }

/-- FILL of 4 bytes at 0x7FC. -/
def eFill : Nat := 12 + 2 ^ 8 + 2 ^ 32 * 4 + 2 ^ 64 * 0x7FC + 2 ^ 128 * 0xAB

theorem witness_trestle :
    (let s := wSl fun x => { x with role := .copy, s := [(4, 0x3FE0)] }
     (∀ j ∈ s.cur, (s.sl j).role = .copy) ∧ s.each g0 fun j => rs32 s j g0 (.s 4) % 32 = 0 ∧ rs32 s j g0 (.s 4) < 2 ^ 19 ∧
       rs32 s j g0 (.s 4) / 1024 < (s.crewOf j).tiles ∧ (chainOf s (s.sl j).crew 3).busy = false ∧ (s.sl j).accs = [] ∧ (s.sl j).outst.length < 32) ∧
    (let s := wSl fun x => { x with s := [(4, 31), (5, 1)] }
     s.each g0 fun j => rs32 s j g0 (.s 4) < 32 ∧ rs64 s j g0 (.s 5) < 2 ^ 16 ∧ (groupOf s (coreCluster (s.coreOf j)) 31).mask = 0 ∧
       maskOk s (s.crewOf j).span (rs64 s j g0 (.s 5)) = true ∧ (groupOf s (coreCluster (s.coreOf j)) 31).drain = 0) ∧
    (let s := wSl fun x => { x with queries := [(7, 3, .v 0)], outst := [(7, 2)], park := .after .results false }
     ((tick s 0 1).pkg 0).clock ≠ (s.pkg 0).clock ∧ corePkg (s.coreOf 1) = 0) := by
  unfold State.each
  exact ⟨by decide, by decide, by decide⟩

theorem witness_trestle_fetch :
    ((chainOf (wChain 13 id) 1 0).st = .running ∧ (chainOf (wChain 13 id) 1 0).killing = false ∧ (chainOf (wChain 13 id) 1 0).cur = none ∧ ctxRuns (wChain 13 id) 0 = true ∧
      (wChain 13 id).schedule = [] ∧ ((wChain 13 id).crew 1).ended = false ∧ (chainOf (wChain 13 id) 1 0).entry ≤ 255 ∧ (chainOf (wChain 13 id) 1 0).flight = [] ∧
      chainAsking (wChain 13 id) 1 0 = false ∧ (tagOf (wChain 13 id) 1 1).owner = .trestle ∧
      bytesNat (lclGet (wChain 13 id) 1 1 0x400 32) = 13 ∧ entForm 13 = none) ∧
    (let s := wChain eFill id
     let c := chainOf s 1 0
     bytesNat (lclGet s 1 1 0x400 32) = eFill ∧ entForm eFill = none ∧ dataOk c eFill = true ∧ idxRange eFill = [] ∧ localSub s 1 [] = none ∧
       overlapsFlight c (rangesOf 1 ((entMoves c eFill []).map fun m => (m.1, m.2.2))) = false ∧
       localSub s 1 (rangesOf 1 ((entMoves c eFill []).map fun m => (m.1, m.2.2))) = none ∧
       rangesStand s 1 0 [] (rangesOf 1 ((entMoves c eFill []).map fun m => (m.1, m.2.2))) = .ok) := by
  exact ⟨by decide, by decide⟩

/-- Entries in flight: a FILL, an MCAST, one that is over. -/
def wFlight (f : Flight) : State := wChain 0 fun c => { c with flight := [(9, f)] }
theorem witness_trestle_pieces :
    (let f : Flight := ⟨0, eFill, [], [(1, 0x7FC, 0x800)], [[(0x7FC, 0, 4)]], 1, [], [], false, []⟩
     Tbl.find (chainOf (wFlight f) 1 0).flight 9 = some f ∧ f.todo[0]? = some [(0x7FC, 0, 4)] ∧ entCode f.word = 12) ∧
    (let f : Flight := ⟨0, 1 + 2 ^ 8 + 2 ^ 32 * 4 + 2 ^ 128, [(0, 0x4000, 0x4004)], [(1, 0x7FC, 0x800)], [[(0x7FC, 0x4000, 4)]], 1, [], [], false, []⟩
     Tbl.find (chainOf (wFlight f) 1 0).flight 9 = some f ∧ entCode f.word = 1 ∧ entBits f.word 11 10 = 0 ∧ poisonFor (wFlight f) 0 f.kept 0x4000 4 = none) ∧
    (let f : Flight := ⟨0, 4 + 2 ^ 8 + 2 ^ 32 * 128 + 2 ^ 128 * 31, [], [], [[(0x400, 0x4000, 128)]], 1, [], [], false, []⟩
     Tbl.find (chainOf (wFlight f) 1 0).flight 9 = some f ∧ f.todo = [[(0x400, 0x4000, 128)]] ∧ entCode f.word = 4) ∧
    (let f : Flight := ⟨0, eFill, [], [], [], 0, [], [], false, []⟩
     Tbl.find (chainOf (wFlight f) 1 0).flight 9 = some f ∧ f.todo = [] ∧ f.left = 0) := by decide

def wCtl (w : Nat) : State := wChain 0 fun c => { c with cur := some w }
def eFlip : Nat := 7 + 2 ^ 8 + 2 ^ 32 + 2 ^ 64 * 0x400
def ePost : Nat := 8 + 2 ^ 128 * (7 + 8 * 7)
def eLoop : Nat := 10 + 2 ^ 160 * 0 + 2 ^ 176 * 255
def eIf : Nat := 11 + 2 ^ 128 * (1 + 64 * 0 + 128 * 7) + 2 ^ 144 * 1 + 2 ^ 160
theorem witness_trestle_control :
    (wCtl eFlip).atControl 1 0 7 eFlip ∧ (entBits eFlip 9 8 = 1 ∧ entLen eFlip ≠ 0 ∧ entDst (chainOf (wCtl eFlip) 1 0) eFlip % tileSize 1 = 0 ∧
      ownerCode (entBits eFlip 129 128) ≠ .trestle ∧ localSub (wCtl eFlip) 1 [(1, 0x400, 0x800)] = none) ∧
    (wCtl ePost).atControl 1 0 8 ePost ∧ entBits ePost 133 131 < (ringOf ((wCtl ePost).crew 1) (entBits ePost 130 128)).nst ∧
    (wCtl (9 + 2 ^ 132 * 7 + 2 ^ 135)).atControl 1 0 9 (9 + 2 ^ 132 * 7 + 2 ^ 135) ∧ (wCtl (9 + 2 ^ 128)).atControl 1 0 9 (9 + 2 ^ 128) ∧
    waitHolds (wChain 0 fun c => { c with cur := some (9 + 2 ^ 128), st := .waiting }) 1 (9 + 2 ^ 128) = true ∧
    (wCtl eLoop).atControl 1 0 10 eLoop ∧ (entBits eLoop 183 176 ≠ 0 ∧ (chainOf (wCtl eLoop) 1 0).entry + entBits eLoop 183 176 ≤ 255 ∧
      (chainOf (wCtl eLoop) 1 0).loops = []) ∧
    (wCtl eIf).atControl 1 0 11 eIf ∧ skipOk (chainOf (wCtl eIf) 1 0) (entBits eIf 151 144) = true ∧
    entBits eIf 137 135 < (ringOf ((wCtl eIf).crew 1) (entBits eIf 134 132)).nst ∧
    (wCtl 13).atControl 1 0 13 13 := by
  unfold State.atControl
  decide

/-- An IF on a word of cleared global memory. -/
theorem witness_trestle_if_word :
    let w := 11 + 2 ^ 64 * 0x4000 + 2 ^ 144
    let s := wCtl w
    s.atControl 1 0 11 w ∧ skipOk (chainOf s 1 0) 1 = true ∧ entBits w 131 129 ≤ 5 ∧ entDst (chainOf s 1 0) w % 4 = 0 ∧
      rangesStand (cleared s) 1 0 [(0, 0x4000, 0x4004)] [] = .ok ∧ poisonFor s 0 (chainOf s 1 0).answers 0x4000 4 = none := by
  unfold State.atControl
  decide

/-- A collective of one participant: the sum of 4 bytes at 0x4000. -/
def eSum : Nat := 5 + 2 ^ 10 + 2 ^ 32 * 4 + 2 ^ 64 * 0x4000 + 2 ^ 96 * 0x7FC + 2 ^ 160
theorem witness_collectives :
    (let s := cleared (wCtl eSum)
     s.atControl 1 0 5 eSum ∧ dataOk (chainOf s 1 0) eSum = true ∧ entSrc (chainOf s 1 0) eSum = 0x7FC ∧ localSub s 1 [(1, 0x7FC, 0x800)] = none ∧
       rangesStand s 1 0 [(1, 0x7FC, 0x800)] [(0, 0x4000, 0x4004)] = .ok) ∧
    (let m : Collective := ⟨0, 0, 0x4000, 4, 0, 2, 0, natBytes 4 1, 1, 0, false, 0⟩
     let s := { w0 with colls := [(3, { m with rank := 1, arrived := true }), (4, m)] }
     Tbl.find s.colls 4 = some m ∧ m.arrived = false ∧ m.npart ≤ 2 ∧ ∀ e ∈ [(3, { m with rank := 1, arrived := true })], e.2.rank ≠ m.rank ∧ e.2.short = 0) := by
  unfold State.atControl
  exact ⟨by decide, by decide⟩

def wReq : McReq := { core := 0, ctx := 0, va := 0x4000, group := 31, gen := 1, crew := 1, ch := 0, ent := 9, dst := 0x400, girder := false, hint := 0, data := none }
theorem witness_multicast :
    (let s := { w0 with mcReqs := [(5, wReq)], clusters := [(0, { Cluster.init with groups := List.replicate 31 Group.init ++ [⟨1, 1, 0, 1⟩] })] }
     Tbl.find s.mcReqs 5 = some wReq ∧ (groupOf s 0 31).mask.getLsbD 0 = true ∧ (groupOf s 0 31).gen.toNat = wReq.gen ∧ s.mcSets = []) ∧
    (let m : McSet := ⟨0, 0, 0x4000, 31, 1, 0, 0, [wReq]⟩
     let s := { w0 with mcSets := [(6, m)], pkgs := [(0, { Pkg.init with clock := 64 })] }
     Tbl.find s.mcSets 6 = some m ∧ m.first + 64 ≤ (s.pkg 0).clock ∧ m.last < (s.pkg 0).clock) ∧
    (let s := { w0 with clusters := [(0, { Cluster.init with groups := [⟨1, 1, 0, 7⟩] })] }
     (groupOf s 0 0).drain = 0 ∧ (groupOf s 0 0).mask ≠ 0 ∧ Tbl.find s.spans (groupOf s 0 0).span = none) ∧
    (let f : Flight := ⟨0, 4 + 2 ^ 8 + 2 ^ 32 * 128 + 2 ^ 128 * 31, [], [], [], 1, [], [], false, []⟩
     ∀ r ∈ [wReq, { wReq with girder := true }],
       let s := { wFlight f with mcReqs := [(5, r)] }
       Tbl.find s.mcReqs 5 = some r ∧ (groupOf s 0 31).mask.getLsbD (r.core % 16) = false ∧ Tbl.find (chainOf s r.crew r.ch).flight r.ent = some f) := by decide


/-- A MAT slice whose s4 to s7 hold a loop block: one step of bytes, A at 0, B at the last 512 bytes of the crew's 16 tiles, accumulator
tile 0; the tiles are Girder's. -/
def wMat (n : Nat) (owner : Owner) (k : Nat) (f : Slice → Slice) : State :=
  { wSpan n (fun x => f { x with role := .mat }) with
    spans := [(1, ⟨1, 0, 0, 0, n, (List.range n).map fun t => (t, ⟨owner, if t = 0 then k else 3, 0, false, false, false⟩), [1]⟩)]
    crews := [(1, { loadCrew with tags := [(0, ⟨.girder, false, 0, 0⟩), (15, ⟨.girder, false, 0, 0⟩)], rings := List.replicate 8 ⟨8, 0⟩ })] }
def wBlock (x : Slice) : Slice :=
  { x with s := [(4, BitVec.ofNat 64 (18 * 2 ^ 56)), (5, 0x3E00), (6, BitVec.ofNat 64 (2 ^ 32 + 18 * 2 ^ 45 + 7 * 2 ^ 53)), (7, 0)] }

theorem witness_girder_loop :
    let s := cleared (wMat 1 .girder 1 wBlock)
    s.unitIn ∧ (∀ j ∈ s.cur,
      let q := loopIn s j g0 false (.s 4) .zero
      (s.sl j).role = .mat ∧ gClass q.par.fa q.fra ≠ none ∧ gClass q.par.fa q.fra = gClass q.par.fb q.frb) ∧ s.each g0 (fun j =>
      let q := loopIn s j g0 false (.s 4) .zero
      (s.cluster (coreCluster (s.crewOf j).core)).raising = none ∧ loopBits s j q.par = true ∧ gScale q.par.fa q.fra ≠ 2 ∧ gScale q.par.fb q.frb ≠ 2 ∧
      q.par.acc % 4096 = 0 ∧ (stagOf s (s.crewOf j).span (q.par.acc / 4096)).kind = 1 ∧
      loopAlign q = none ∧ loopRange s (s.sl j).crew q = none ∧ loopOwner s (s.sl j).crew q = none ∧ q.par.bmode ≠ 2 ∧
      standClr s (sliceParty s j) .read false (loopGlobal q) = .ok ∧ standFillAt (fun _ => true) s (sliceParty s j) (loopGlobal q) = .ok ∧
      storesInto s j (partTiles (s.sl j).crew q) = [] ∧ (s.core (s.crewOf j).core).loops.length < 4) := by
  unfold State.unitIn State.each
  exact ⟨by decide, by decide, by decide⟩

theorem witness_girder_maclr :
    let s := wMat 3 .slices 0 fun x => { x with s := [(4, 0), (5, BitVec.ofInt 64 (-256))] }
    (∀ j ∈ s.cur, (s.sl j).role = .mat) ∧
    s.each g0 fun j => (s.cluster (coreCluster (s.coreOf j))).raising = none ∧ rs32 s j g0 (.s 4) % 4096 = 0 ∧
      (∀ k, k < 3 → tilesOk s (s.sl j).crew 2 k 1 = true ∧ ownerOfTile s (s.sl j).crew 2 k = .slices) ∧ sInt 32 (rs32 s j g0 (.s 5)) = -256 := by
  unfold State.each
  decide

/-- MARD of an exact accumulator whose loops have merged into two plain tiles; into two tiles that stand for global memory; and into them while a loop
of it has not merged. -/
theorem witness_girder_mard :
    let s0 := cleared (wMat 3 .girder 2 fun x => { x with s := [(4, 0), (5, 0x3400)] })
    let s1 := s0.updCrew 1 fun c => { c with tags := [(13, ⟨.slices, true, 0, 0⟩), (14, ⟨.slices, true, 0, 0⟩)], maps := [⟨13, 2, 0x40000⟩] }
    let s2 := s1.updCore 0 fun k => { k with loops := [
      { id := 7, crew := 1, acrew := 1, bcrew := 1, sp := false
        blk := [BitVec.ofNat 64 (18 * 2 ^ 56), 0x3E00, BitVec.ofNat 64 (2 ^ 32 + 18 * 2 ^ 45), 0, 0]
        fa := 18, fb := 18, fregs := [0, 0], gregs := [0, 0], gen := 0, part := none, merged := false, fl := 0, sent := false, mc := [] }] }
    (∀ s ∈ [s0, s1, s2], s.each g0 fun j =>
      (s.cluster (coreCluster (s.coreOf j))).raising = none ∧ rs64 s j g0 (.s 4) % 4096 = 0 ∧ rs64 s j g0 (.s 5) % 1024 = 0 ∧
      (stagOf s (s.crewOf j).span 0).owner = .girder ∧ (stagOf s (s.crewOf j).span 0).kind = 2 ∧
      (∀ k, k < 3 → tilesOk s (s.sl j).crew 2 k 1 = true) ∧
      (∀ k, k < 2 → tilesOk s (s.sl j).crew 1 (13 + k) 1 = true ∧ ownerOfTile s (s.sl j).crew 1 (13 + k) = .slices) ∧
      let gs := mardGlobal s (s.sl j).crew 0x3400 2
      standClr s (sliceParty s j) .write false (gs.map fun a => (a.va, a.n)) = .ok ∧ ((s.sl j).accs = []) ∧ ownUnder s j true gs = [] ∧
        ownRemote s j true [⟨0, 0x3400, 2048⟩] = []) ∧
    mardGlobal s0 1 0x3400 2 = [] ∧ (mardGlobal s1 1 0x3400 2).length = 2 ∧ unmerged s1 (s1.crewOf 1).span 0 = false ∧ unmerged s2 (s2.crewOf 1).span 0 = true := by
  unfold State.each
  decide

def wLoop : GLoop :=
  { id := 7, crew := 1, acrew := 1, bcrew := 1, sp := false
    blk := [BitVec.ofNat 64 (18 * 2 ^ 56), 0x3E00, BitVec.ofNat 64 (2 ^ 32 + 18 * 2 ^ 45), 0, 0]
    fa := 18, fb := 18, fregs := [0, 0], gregs := [0, 0], gen := 0, part := none, merged := false, fl := 0, sent := false, mc := [] }
def wLoops (ls : List GLoop) : State := (wMat 1 .girder 1 id).updCore 0 fun k => { k with loops := ls }
theorem witness_loop_events :
    ((wLoops [wLoop]).core 0).loops.find? (fun l => l.part.isNone) = some wLoop ∧ wLoop.par.bmode ≠ 2 ∧
    (let l := { wLoop with blk := [0, 0, BitVec.ofNat 64 (2 ^ 25), 0, 0] }
     ((wLoops [l]).core 0).loops.find? (fun l => l.part.isNone) = some l ∧ l.par.bmode = 2 ∧ l.sent = false) ∧
    (let l := { wLoop with part := some [0] }
     ((wLoops [l]).core 0).loops.find? (fun l => !l.merged) = some l ∧ l.part = some [0]) ∧
    (let l := { wLoop with merged := true }
     ((wLoops [l, wLoop]).core 0).loops = l :: [wLoop] ∧ l.merged = true) ∧
    (let l := { wLoop with blk := [0, 0, BitVec.ofNat 64 (2 ^ 25), 0, 0], sent := true }
     ((wLoops [l]).core 0).loops.find? (fun l => l.part.isNone) = some l ∧ l.par.bmode = 2 ∧ l.sent = true ∧ (wLoops [l]).mcReqs = [] ∧ (wLoops [l]).mcSets = []) ∧
    (let s := (wLoops []).updSl 1 fun x => { x with park := .after (.merged 1 0 true 0x3400) false }
     (s.sl 1).park = .after (.merged 1 0 true 0x3400) false ∧ unmerged s 1 0 = false) := by decide

def wDeck (f : Deck → Deck) (g : Slice → Slice) : State :=
  { (wSl fun x => g { x with role := .deck }) with
    crews := [(1, { loadCrew with tags := (List.range 4).map fun t => (12 + t, ⟨.deck, false, 0, 0⟩), deck := f Crew.none.deck })] }

/-- A DKLD of the crew's last four tiles; a flag DKTEST of an s register; a PUSH at depth 7. -/
theorem witness_deck_issue :
    (let s := wDeck id fun x => { x with s := [(4, 0x3000), (5, 0x3D)] }
     s.unitIn ∧ s.each g0 fun j => (s.sl j).role = .deck ∧ (rs32 s j g0 (.s 4) % 1024 = 0 ∧ ∀ k, k < 4 →
       1024 * (rs32 s j g0 (.s 4) / 1024 + k) < 2 ^ 19 ∧ tilesOk s (s.sl j).crew 1 (rs32 s j g0 (.s 4) / 1024 + k) 1 = true ∧
       ownerOfTile s (s.sl j).crew 1 (rs32 s j g0 (.s 4) / 1024 + k) = .deck) ∧
       BitVec.ofNat 32 (rs32 s j g0 (.s 5)) &&& ~~~0x3D = 0 ∧ windowOk (rs32 s j g0 .zero) = windowOk 0 ∧
       (s.crewOf j).deck.queue.length < 16 ∧ (s.sl j).outst.length < 32 ∧ (s.crewOf j).deck.depth < 8) ∧
    (let s := wDeck (fun d => { d with depth := 7 }) id
     ∀ j ∈ s.cur, (s.crewOf j).deck.depth < 8 ∧ 1 < (s.crewOf j).deck.depth) ∧
    windowOk (31 + 31 * 2 ^ 8 + 2 ^ 16 + 2 ^ 24) = true := by
  unfold State.unitIn State.each
  exact ⟨⟨by decide, by decide⟩, by decide, by decide⟩

/-- A DKTEX with one enabled cell of the 1 × 1 texture, by program 0; one with no cell enabled. -/
theorem witness_deck_dktex :
    let s0 := cleared (wDeck (fun d => { d with stack := [1] }) fun x => { x with s := [(4, 0x4000)] })
    let s : State := { s0 with mem := Mem.writeLE s0.mem 0x4000 32 (0x5000 + 16 * 2 ^ 96) }
    (∀ j ∈ s.cur, (s.sl j).role = .deck) ∧ s.each g0 (fun j =>
      let me := sliceParty s j
      rs64 s j g0 (.s 4) = 0x4000 ∧ (s.crewOf j).deck.queue = [] ∧ (s.crewOf j).deck.cells = 0 :: [] ∧ (descOf s me 0x4000).isSome = true ∧
      (progOf s me 0).isSome = true ∧ cellReads s j [(0, [(0x4000, 32)])] = .go ∧
      (match descOf s me 0x4000, progOf s me 0 with
        | some t, some g => decide (cellReads s j (dktexReads s j t g 0 (.cell 0)) = .go)
        | _, _ => false) = true ∧ (s.cluster (coreCluster (s.coreOf j))).raising = none) ∧
    ((wDeck (fun d => { d with stack := [0] }) id).crewOf 1).deck.cells = [] := by
  unfold State.each
  decide

/-- A DKXP of a plane whose stride is 128 bytes downwards. -/
theorem witness_deck_dkxp :
    let s := cleared (wDeck id fun x => { x with s := [(4, 0x40000), (5, BitVec.ofInt 64 (-128)), (6, 0x48000)] })
    s.each g0 fun j =>
      let q := dkxpIn g0 (.s 4) (.s 5) (.s 6) s j
      q.2.1.natAbs = 128 ∧ q.1 % 4 = 0 ∧ q.2.1 % 4 = 0 ∧ q.2.2 % 8 = 0 ∧ standClr s (sliceParty s j) .write false (dkxpRanges q) = .ok := by
  unfold State.each
  decide

def wQ (i : Instr) (f : Deck → Deck) : State := wDeck (fun d => f { d with queue := [⟨1, i, [0x3000, 0x3D], 1, 5⟩] }) id
theorem witness_deck_effects :
    (let s := wQ (.dkld g0 63 (.s 4)) id
     (s.crew 1).deck.queue = [⟨1, .dkld g0 63 (.s 4), [0x3000, 0x3D], 1, 5⟩] ∧ (s.crew 1).ended = false ∧ s.hasCtx (s.crew 1).ctx = true ∧
       (s.ctx (s.crew 1).ctx).st = .running) ∧
    (let s := wQ (.dkelse g0) fun d => { d with stack := [1, 3] }
     (s.crew 1).deck.queue = [⟨1, .dkelse g0, [0x3000, 0x3D], 1, 5⟩] ∧ (s.crew 1).deck.stack = 1 :: 3 :: []) := by decide


/-- A table of 16 node records: 2 = x3, 3 = x1 with children 0 and 2 (the conjunction of x1 and x3), 4 in quarantine. -/
def wTab : KTable :=
  { nlog := 4, blog := 0, clog := 0, sweeps := 9
    nodes := [(2, ⟨3, 0, 1, 2, false⟩), (3, ⟨1, 0, 2, 1, false⟩), (4, ⟨5, 0, 1, 0, true⟩)]
    buckets := [], cache := [], level := [], hits := 0, looks := 0, poison := 0 }
def wKs (t : KTable) (i : Instr) (l : List (Nat × DWord)) : State := (setTable · 0 0 t) { cleared (wSl fun x => { x with s := l, park := .before (.keystone i [1]) }) with
    mem := Mem.writeLE (loadDevice State.reset 0).mem 0x70000 32 (0x80000 + 2 ^ 64 * 4 + 2 ^ 128 * 0x90000 + 2 ^ 192 * 0xA0000)
    ctxs := [(0, { loadCtx with trapvec := 0x5000, ksRec := 0x70000 })] }
def i2 : Instr := .ddapp g0 8 (.v 0) (.s 4) (.s 5)

theorem witness_keystone_issue : ∀ i ∈ [Instr.ddvar g0 (.v 0) (.s 4), .ddres g0 (.v 0) (.s 4) (.s 5) (.s 7), .ddcnt g0 true (.v 2) (.s 4) (.s 5) (.s 6),
      .ddexp g0 (.v 2) (.s 4) (.s 5) (.s 6), .ddstat g0 (.v 0) (.s 5)],
    let s := { wKs wTab i [(4, 2), (5, 4), (6, 0x40000), (7, 1)] with schedule := [] }
    s.unitIn ∧ (∃ j ∈ s.cur, perSlice g0 (s.sl j) ≠ 0) ∧ s.each g0 fun j =>
      rs32 s j g0 (.s 4) = 2 ∧ rs32 s j g0 (.s 5) = 4 ∧ rs32 s j g0 (.s 7) = 1 ∧ rs64 s j g0 (.s 5) = 4 ∧ (s.sl j).outst = [] ∧
        ksMemory s s.cur (s.ksTable j) (s.ksBad j) i j = .go ∧ (s.sl j).accs = [] := by
  unfold State.unitIn State.each
  decide

/-- The handles of an application: a node and a terminal; POISON; a free record. -/
theorem witness_keystone_diagrams :
    (let s := wKs wTab i2 [(4, 3), (5, 1)]
     Diagrams i2 ⟨g0, .v 0, fun s j => [rs32 s j g0 (.s 4), rs32 s j g0 (.s 5)],
       fun s j bad t => kApp bad 8 4100 t (rs32 s j g0 (.s 4)) (rs32 s j g0 (.s 5))⟩ ∧
     (s.sl 1).park = .before (.keystone i2 [1]) ∧ ctxRuns s (s.ctxOf 1) = true ∧ (∀ x ∈ [rs32 s 1 g0 (.s 4), rs32 s 1 g0 (.s 5)], kHandle (s.ksTable 1) x = true) ∧
     (∀ x ∈ [rs32 s 1 g0 (.s 4), rs32 s 1 g0 (.s 5)], kBad (s.ksTable 1) x = false) ∧ s.canTrap 1) ∧
    (let s := wKs wTab i2 [(4, 15), (5, 0xFFFFFFFF)]
     ∀ x ∈ [rs32 s 1 g0 (.s 4), rs32 s 1 g0 (.s 5)], kHandle (s.ksTable 1) x = true ∧ kBad (s.ksTable 1) x = true) := by
  refine ⟨⟨.ddapp g0 8 (.v 0) (.s 4) (.s 5), rfl, by decide, by decide, by decide, ?_⟩, by decide⟩
  unfold State.canTrap
  decide

theorem witness_keystone_quantify :
    let i : Instr := .ddqnt g0 true (.v 0) (.s 4) (.s 5)
    let s := wKs wTab i [(4, 2), (5, 3)]
    kHandle (s.ksTable 1) (rs32 s 1 g0 (.s 4)) = true ∧ kBad (s.ksTable 1) (rs32 s 1 g0 (.s 4)) = false ∧
      kHandle (s.ksTable 1) (rs32 s 1 g0 (.s 5)) = true ∧ kBad (s.ksTable 1) (rs32 s 1 g0 (.s 5)) = false ∧
      kCube (s.ksBad 1) 4100 (s.ksTable 1) (rs32 s 1 g0 (.s 5)) = (s.ksTable 1, some true) := by
  decide

theorem witness_keystone_queries :
    (let i : Instr := .ddcnt g0 true (.v 2) (.s 4) (.s 5) (.s 6)
     let s := wKs wTab i [(4, 2), (5, 4), (6, 0x40000)]
     (∃ ns, kCntNodes (s.ksBad 1) (s.ksTable 1) true 2 4 = (s.ksTable 1, .inl ns)) ∧ ksStand s 1 (s.ksTable 1) (s.ksBad 1) i = .ok ∧
       ksAlign s 1 i = .go) ∧
    (let s := wKs wTab (.ddcnt g0 false (.v 2) (.s 4) (.s 5) .zero) [(4, 3), (5, 4096)]
     ∃ ns, kCntNodes (s.ksBad 1) (s.ksTable 1) false 3 4096 = (s.ksTable 1, .inl ns)) ∧
    (let i : Instr := .ddexp g0 (.v 0) (.s 4) (.s 5) (.s 6)
     let s := wKs wTab i [(4, 3), (5, 4), (6, 0x40000)]
     (∃ m, kExpMask (s.ksBad 1) (s.ksTable 1) 3 4 = (s.ksTable 1, .inl m)) ∧ ksAlign s 1 i = .go ∧ ksStand s 1 (s.ksTable 1) (s.ksBad 1) i = .ok) ∧
    (let s := wKs wTab (.ddref g0 (.s 4)) [(4, 4)]
     Tbl.find (s.ksTable 1).nodes 4 = some ⟨5, 0, 1, 0, true⟩ ∧ 4 < 2 ^ (s.ksTable 1).nlog) ∧
    (let s := wKs wTab (.ddunref g0 (.s 4)) [(4, 2)]
     Tbl.find (s.ksTable 1).nodes 2 = some ⟨3, 0, 1, 2, false⟩ ∧ s.ksBad 1 2 = false) ∧
    (let s := wKs wTab (.ddswp g0) []
     (s.sl 1).park = .before (.keystone (.ddswp g0) [1]) ∧ ctxRuns s (s.ctxOf 1) = true) := by
  refine ⟨⟨⟨_, rfl⟩, by decide, by decide⟩, ⟨_, rfl⟩, ⟨⟨_, rfl⟩, by decide, by decide⟩, by decide, by decide, by decide⟩

/-- A unit of two slices of DDVAR, both in the schedule's way before it: each is answered; and one of DDREF whose second slice names a free record. -/
theorem witness_keystone_unit :
    (let i : Instr := .ddvar g0 (.v 0) (.s 4)
     let s := two (wKs wTab i [(4, 2)])
     let s := (s.updSl 1 fun x => { x with park := .before (.keystone i [1, 2]) }).updSl 2 fun x => { x with park := .before (.keystone i [1, 2]), s := [(4, 9)] }
     (ksDiagram s 1 (s.ksTable 1) (s.ksBad 1) i).isSome = true ∧
     (∀ k ∈ [1, 2], (s.sl k).park = .before (.keystone i [1, 2])) ∧ ctxRuns s (s.ctxOf 1) = true ∧
       (∀ k ∈ [1, 2], ksMemory s [1, 2] (s.ksTable 1) (s.ksBad 1) i k = .go ∧ ksRefusal s (s.ksTable 1) (s.ksBad 1) i k = none) ∧
       ∀ e ∈ (ksAll s (s.ksBad 1) i [1, 2] (s.ksTable 1)).2, (match e.2 with | .trap _ _ _ => false | _ => true) = true) ∧
    (let i : Instr := .ddswp g0
     let s := two (wKs wTab i [])
     let s := (s.updSl 1 fun x => { x with park := .before (.keystone i [1, 2]) }).updSl 2 fun x => { x with park := .before (.keystone i [1, 2]) }
     ksDiagram s 1 (s.ksTable 1) (s.ksBad 1) i = none ∧
     ∀ k ∈ [1, 2], ksMemory s [1, 2] (s.ksTable 1) (s.ksBad 1) i k = .go ∧ ksRefusal s (s.ksTable 1) (s.ksBad 1) i k = none) ∧
    (let i : Instr := .ddvar g0 (.v 0) (.s 4)
     let s := two (wKs { wTab with nodes := (List.range 14).map fun k => (k + 2, ⟨1, 0, 1, 1, false⟩) } i [(4, 2)])
     let s := (s.updSl 1 fun x => { x with park := .before (.keystone i [1, 2]) }).updSl 2 fun x => { x with park := .before (.keystone i [1, 2]) }
     (∀ k ∈ [1, 2], ksMemory s [1, 2] (s.ksTable 1) (s.ksBad 1) i k = .go ∧ ksRefusal s (s.ksTable 1) (s.ksBad 1) i k = none) ∧
     (ksAll s (s.ksBad 1) i [1, 2] (s.ksTable 1)).2 = [] ++ [(1, .trap 0x10 0 14)]) := by
  decide


/-- A map of 4096 entries of 2 bytes that is the identity. -/
def ordMem : Nat → Nat → Mem
  | 0, _ => []
  | n + 1, v => (2 * v, BitVec.ofNat 8 (v % 256)) :: (2 * v + 1, BitVec.ofNat 8 (v / 256)) :: ordMem n (v + 1)

theorem ordMem_lo : ∀ n v w, v ≤ w → w < v + n → Tbl.find (ordMem n v) (2 * w) = some (BitVec.ofNat 8 (w % 256))
  | 0, v, w, h, h' => by omega
  | n + 1, v, w, h, h' => by
    unfold ordMem
    by_cases e : v = w
    · subst e; simp [Tbl.find]
    · rw [Tbl.find, if_neg (by omega), Tbl.find, if_neg (by omega), ordMem_lo n (v + 1) w (by omega) (by omega)]

theorem ordMem_hi : ∀ n v w, v ≤ w → w < v + n → Tbl.find (ordMem n v) (2 * w + 1) = some (BitVec.ofNat 8 (w / 256))
  | 0, v, w, h, h' => by omega
  | n + 1, v, w, h, h' => by
    unfold ordMem
    by_cases e : v = w
    · subst e; simp [Tbl.find]
    · rw [Tbl.find, if_neg (by omega), Tbl.find, if_neg (by omega), ordMem_hi n (v + 1) w (by omega) (by omega)]

/-- DDORD of an empty table; the slice's read of the block of the map was answered, and its bytes are kept. -/
def wOrd : State :=
  let s := wKs { wTab with nodes := [] } (.ddord g0 .zero) []
  s.updSl 1 fun x => { x with answers := [.kept 0 8192 (ordMem 4096 0)] }

theorem not_poisoned (s : State) (ctx va : Nat) (h : s.poison = []) : poisoned s ctx va = false := by
  unfold poisoned
  cases frameKey s ctx va (walk s ctx va) <;> simp [h]
theorem no_poison (s : State) (ctx va n : Nat) (h : s.poison = []) : anyPoison s ctx va n = none := by
  simp [anyPoison, not_poisoned s ctx _ h]

theorem wOrd_kept (a : Nat) (h : a < 8192) : keptByte (wOrd.sl 1).answers a = some ((Tbl.find (ordMem 4096 0) a).getD 0) := by
  have e : (wOrd.sl 1).answers = [.kept 0 8192 (ordMem 4096 0)] := rfl
  simp [e, keptByte, coversBlock, Mem.read, Tbl.findD, h]

theorem wOrd_map : ksMap wOrd 1 0 = List.range 4096 := by
  unfold ksMap
  conv => rhs; rw [← List.map_id (List.range 4096)]
  apply List.map_congr_left
  intro v hv
  have hv' : v < 4096 := List.mem_range.1 hv
  have hp : wOrd.poison = [] := rfl
  have h0 := wOrd_kept (2 * v) (by omega)
  have h1 := wOrd_kept (2 * v + 1) (by omega)
  rw [ordMem_lo 4096 0 v (by omega) (by omega)] at h0
  rw [ordMem_hi 4096 0 v (by omega) (by omega)] at h1
  rw [no_poison _ _ _ _ hp]
  simp [readAs, List.range_succ, h0, h1, bytesNat]
  omega

theorem witness_keystone_order :
    (wOrd.ksTable 1).nodes = [] ∧ isPerm (ksMap wOrd 1 (rs64 wOrd 1 g0 .zero)) = true ∧ ksAlign wOrd 1 (.ddord g0 .zero) = .go ∧
      ksStand wOrd 1 (wOrd.ksTable 1) (wOrd.ksBad 1) (.ddord g0 .zero) = .ok := by
  have h : rs64 wOrd 1 g0 .zero = 0 := rfl
  refine ⟨rfl, ?_, by decide, by decide⟩
  rw [h, wOrd_map]; simp [isPerm]


/-- Two blocks of 16 KiB at 1 MiB, no depth given, one frame. -/
def wDesc : Nat := 0x100000 + 2 ^ 64 * 0x8000 + 2 ^ 160 + 2 ^ 192 * 0x50000
def wRange : PRange := parseRange wDesc 0x40000
def wProc (f : Ctx → Ctx) (l : List (Nat × DWord)) : State :=
  let s := wMem fun x => { x with s := l }
  { s with mem := Mem.writeLE s.mem 0x40000 64 wDesc, ctxs := [(0, f loadCtx)] }
def wFills (b : PBlock) (c : Ctx) : Ctx := { c with ranges := [(15, wRange)], blocks := [(0x100000, b)] }
def wGen (s : State) : State := s.updCrew 1 fun c => { c with gen := some ⟨0x100000, 15, 1, [0x100000], true, []⟩ }

theorem witness_procedural :
    (let s := wProc id [(4, 15), (5, 0x40000)]
     s.cur = [1] ∧ perSlice g0 (s.sl 1) ≠ 0 ∧ rs32 s 1 g0 (.s 4) < 16 ∧ rs64 s 1 g0 (.s 5) = 0x40000 ∧ (s.sl 1).accs = [] ∧
       (s.cluster (coreCluster (s.coreOf 1))).raising = none ∧
       standRead s (sliceParty s 1) false [(0x40000, 64)] = .ok ∧ rangeOk s (s.ctxOf 1) 15 (descAt s 1 0x40000) 0x40000 = true) ∧
    (let s := wProc (wFills ⟨.filled, 0x60000, none, 0, 0, [], []⟩) [(4, 15), (5, 0x103FFF)]
     Tbl.find (s.ctx (s.ctxOf 1)).ranges 15 = some wRange ∧ blocksHeld s (s.ctxOf 1) 15 none = false ∧ rs64 s 1 g0 (.s 4) < 16 ∧ rs64 s 1 g0 .zero = 0 ∧
       blockOf (s.ctx (s.ctxOf 1)) (rs64 s 1 g0 (.s 5)) = some (15, wRange, 0x100000) ∧ blocksHeld s (s.ctxOf 1) 15 (some 0x100000) = false) ∧
    (let s := wProc id [(4, 15)]
     Tbl.find (s.ctx (s.ctxOf 1)).ranges 15 = none) ∧
    (let s := wGen (wProc (wFills ⟨.filling, 0x60000, some 1, 0, 0, [], []⟩) [(4, 0xFFFF)])
     (s.crewOf 1).gen = some ⟨0x100000, 15, 1, [0x100000], true, []⟩ ∧ rs64 s 1 g0 (.s 4) < 2 ^ 16) := by
  decide
theorem witness_pgdone : (wGen (wProc (wFills ⟨.filling, 0x60000, some 1, 0, 0, [], []⟩) [])).released 1 true := by
  unfold State.released
  exact ⟨by decide, fun _ => ⟨by decide, by decide, by decide⟩⟩

/-- A launch record: entry 0x3000, 8 registers, one VEC slice, one crew a span, one span; the predecessor's handle word is at 0x50000. -/
def wRec (pred : Nat) : Nat := 0x3000 + 2 ^ 131 + 2 ^ 138 + 2 ^ 148 + 2 ^ 192 + 2 ^ 200 + 2 ^ 256 * pred
def wLaunch (own : Nat) : State :=
  let s := wMem fun x => { x with s := [(4, 0x40000)] }
  { s with mem := Mem.writeLE (Mem.writeLE (Mem.writeLE s.mem 0x40000 120 (wRec 0x50000)) 0x40078 8 own) 0x50000 8 (7 + 2 ^ 32) }
theorem witness_launch :
    (let s := wLaunch (5 + 2 ^ 32 + 2 ^ 33)
     s.cur = [1] ∧ rs64 s 1 g0 (.s 4) % 128 = 0 ∧ (s.sl 1).accs = [] ∧ (s.cluster (coreCluster (s.coreOf 1))).raising = none ∧
       standRead s (sliceParty s 1) true [(0x40000, 128)] = .ok ∧ recFieldsOk s (recAt s 1 0x40000) = true ∧
       standRead s (sliceParty s 1) true (predRanges (recAt s 1 0x40000)) = .ok ∧ predRanges (recAt s 1 0x40000) = [(0x50000, 8)] ∧
       recOk s (recAt s 1 0x40000) (sliceWord s 1) = true ∧ (s.tower (coreTower (s.coreOf 1))).pending.length < 64) ∧
    (∀ own ∈ [5 + 2 ^ 32 + 2 ^ 33, 5 + 2 ^ 33],
     let s := (wLaunch own).updSl 1 fun x => { x with s := [(4, 0x40078)], begun := some 3 }
     standRead s (sliceParty s 1) false [(0x40078, 8)] = .ok ∧ ownPre s 1 [⟨0, 0x40078, 8⟩] = .go ∧ strongPre s 1 [⟨0, 0x40078, 8⟩] = .go ∧
       hwDone (sliceWord s 1 0x40078) = true ∧ hwAcc (sliceWord s 1 0x40078) = decide (own ≠ 5 + 2 ^ 33) ∧ (s.sl 1).begun ≠ none) ∧
    userAddr (wLaunch 0) 0x40000 = true ∧ vacantAt (wLaunch 0) 0x40000 = false := by
  decide
theorem witness_launch_release : (wLaunch 0).released 1 true ∧ ∀ x, keptByte ((wLaunch 0).sl 1).answers x = none := by
  unfold State.released
  exact ⟨⟨by decide, fun _ => ⟨by decide, by decide, by decide⟩⟩, fun _ => rfl⟩

/-- The OS core's call names context 0 and the same record; a 64th pending launch. -/
theorem witness_fy_launch :
    let os := fun (ctx va : Nat) => ({ wLaunch 0 with curOs := some 15, osCores := [(15, ⟨[(10, BitVec.ofNat 64 va), (11, BitVec.ofNat 64 ctx)], 0⟩)] } : State)
    let s := os 0 0x40000
    s.curOs = some 15 ∧ ((osOf s 15).reg 10).toNat = 0x40000 ∧ ((osOf s 15).reg 11).toNat = 0 ∧ s.hasCtx 0 = true ∧ osVacant s [(0x40000, 128)] = none ∧ osVacant s (predRanges (bytesNat (curBytes s 0 0x40000 128))) = none ∧
      osCause s 0 [(0x40000, 128)] = none ∧ osFills s 0 [(0x40000, 128)] = [] ∧
      osCause s 0 (predRanges (bytesNat (curBytes s 0 0x40000 128))) = none ∧ osFills s 0 (predRanges (bytesNat (curBytes s 0 0x40000 128))) = [] ∧
      recOk s (bytesNat (curBytes s 0 0x40000 128)) (osWordAt s 0) = true ∧ (s.tower (15 / 2)).pending.length < 64 ∧
      s.hasCtx 255 = false ∧ ((osOf (os 255 0x40000) 15).reg 11).toNat = 255 ∧ ((osOf (os 0 0x40040) 15).reg 10).toNat % 128 ≠ 0 ∧
      (let f := s.updTower 7 fun t => { t with pending := List.replicate 64 1 }
       64 ≤ (f.tower (15 / 2)).pending.length) := by
  decide

/-- A system crew; context 255 is there too. -/
def wSys (c : Ctx) (l : List (Nat × DWord)) : State :=
  let s := wMem fun x => { x with s := l }
  { s with ctxs := [(0, loadCtx), (255, { c with root := 0x1000 })], cores := s.cores.map fun e => (e.1, { e.2 with wake := some 7 }) }
theorem witness_system :
    (let s := two (wSys loadCtx [(4, 255), (5, 0x3FFFFFF000), (6, 0xD3)])
     s.unitIn ∧ (∀ j ∈ s.cur, (s.ctx (s.ctxOf j)).sys = true) ∧ perSlice g0 (s.sl 1) ≠ 0 ∧
     s.each g0 (fun j => (rs64 s j g0 (.s 4) < 256 ∧ s.hasCtx (rs64 s j g0 (.s 4)) = true) ∧ rs64 s j g0 (.s 4) ≠ s.ctxOf j ∧
       userAddr s (rs64 s j g0 (.s 5)) = true ∧ vacantAt s (rs64 s j g0 (.s 5)) = false ∧
       walkTable s 255 (rs64 s j g0 (.s 5)) = .leaf 0 (2 ^ 39) 0xDF ∧
       newLeafOk s 255 (rs64 s j g0 (.s 5)) (2 ^ 39) 0xDF (BitVec.ofNat 64 (rs64 s j g0 (.s 6))) = true ∧ pageTurn s j 255 0 (2 ^ 39) = true ∧
       (s.core (s.coreOf j)).wake = some 7 ∧ (s.ctx 255).st = .running) ∧ downgradeMeets s 255 0 (2 ^ 39) = none) ∧
    (let s := wSys { loadCtx with st := .stopped, forced := true } [(4, 255)]
     s.unitIn ∧ (s.ctx 255).st = .stopped ∧ (ctxGo s 255 0).1.isSome = true ∧ ((s.updSl 1 fun x => { x with begun := some 3 }).sl 1).begun ≠ none) ∧
    (let s := wSys { loadCtx with st := .dead } [(4, 255)]
     (s.ctx 255).st = .dead ∧ ctxCrews s 255 = []) := by
  unfold State.unitIn State.each
  refine ⟨⟨by decide, by decide, by decide, by decide, by decide⟩, by decide, by decide⟩

theorem witness_privilege :
    let s := { two (wSl id) with ctxs := [(0, { loadCtx with sys := false })] }
    s.unitIn ∧ s.cur = [1, 2] ∧ ∀ j ∈ s.cur, s.hasCtx (s.ctxOf j) = true ∧ (s.ctx (s.ctxOf j)).sys = false := by
  unfold State.unitIn
  decide


/-! Events. -/

def wAcc (k : AccKind) : Acc :=
  { kind := k, ctx := 0, ch := 0, pieces := [⟨3, 0x4004, 4, 0, 0x11223344, 5, false, 0⟩], got := [], size := 4, sgn := false
    dst := .v 0, once := false, id := 9, pc := 0x3000, mask := 8, grp := 9, whole := false }
def wUnder (k : AccKind) : State := wSl fun x => { x with accs := [(9, wAcc k)], outst := [(9, 1)], ready := [⟨9, .vreg 4 3, 7⟩] }
theorem witness_access_events :
    (∀ k ∈ [AccKind.load, .store, .cas, .atom .add .u32, .red .min .s32, .nmred .max .u32],
      let s := wUnder k
      let a := wAcc k
      let q : Piece := ⟨3, 0x4004, 4, 0, 0x11223344, 5, false, 0⟩
      Tbl.find (s.sl 1).accs 9 = some a ∧ a.pieces[0]? = some q ∧ (pieceReady s 1 9 a q && (eventPieces s 1 9 0 a q).all (partReady s)) = true ∧ vacantAt s q.va = false ∧
        eventPieces s 1 9 0 a q = [(1, 9, 0)] ∧ poisoned s a.ctx q.va = false) ∧
    (let s := (wUnder .remStore).updCrew 1 fun c => { c with tiles := 17 }
     let q : Piece := ⟨3, 0x4004, 4, 0, 0x11223344, 5, false, 0⟩
     pieceReady s 1 9 (wAcc .remStore) q = true ∧ crewOnCore s (s.crewOf 1).span (q.va / 2 ^ 19 % 16) = some 1 ∧
       16 < (s.crew 1).tiles ∧ (tagOf s 1 16).owner = .slices ∧ mappedVa s 1 0x4004 = none) ∧
    ({ wUnder .load with poison := [0x40] }).poison = [0x40] ∧ poisoned { wUnder .load with poison := [0x40] } 0 0x4004 = true ∧
    crewOnCore (wUnder .remStore) ((wUnder .remStore).crewOf 1).span 15 = none ∧
    (tagOf (wUnder .remStore |>.updCrew 1 fun c => { c with tiles := 17, tags := [(16, ⟨.deck, false, 0, 0⟩)] }) 1 16).owner ≠ .slices ∧
    ((wUnder .load).sl 1).ready[0]? = some ⟨9, .vreg 4 3, 7⟩ := by
  decide
/-- The last byte of a stash of 16 tiles. -/
theorem witness_remote_edge :
    let q : Piece := ⟨0, 0x3FFF, 1, 0, 1, 0, false, 0⟩
    q.va % 2 ^ 19 / 1024 < ((wUnder .remLoad).crew 1).tiles ∧ 0x4000 / 1024 = ((wUnder .remLoad).crew 1).tiles := by decide

/-- VA 2^39 is a HOT page of 4 KiB in the expansion tier; a migration pool at 0x9000 holds one frame. -/
def wHot : State :=
  let w := fun (m : Mem) (a v : Nat) => Mem.writeLE m a 8 v
  { w0 with
    mem := w (w (w (w (w w0.mem 0x2008 0x1801) 0x6000 0x1C01) 0x7000 0x2001) 0x8000 (0xDF + 2 ^ 40 + 2 ^ 60)) 0x9000 0xA000
    pkgs := [(0, { Pkg.init with expansion := (2 ^ 20, 0), clock := 2 ^ 20 })]
    ctxs := [(0, { loadCtx with migPool := 0x9000 })]
    migCounts := [(2 ^ 39, (512, 0))] }
def wM (p : MigPhase) (valid pull : List Nat) : Mig := ⟨0, 0, 2 ^ 39, 4096, 2 ^ 42, 0xA000, valid, pull, p, 0⟩
def wMig (m : Mig) : State := { wHot with migs := [(5, m)], poison := [(2 ^ 42 + 256 * 14) / 256] }

theorem witness_cache_events :
    (let s := { w0 with l2 := [(l2Key 0 0 0x40, ⟨3, 1, true, 0, false⟩), (l2Key 0 0 0x41, ⟨1, 0, false, 0, true⟩)]
                        writeBacks := [(4, ⟨0, 0x40, [(0x4001, 5)], none⟩), (5, ⟨0, 2 ^ 40, [], some 1⟩)], bankClock := [(0, 65535)]
                        banks := [(3, (0, false, 65536))], pkgs := [(0, { Pkg.init with clock := 65536 })]
                        llc := [(lineKey 0 0x40, ⟨true⟩)] }
     Tbl.find s.l2 (l2Key 0 0 0x40) = some ⟨3, 1, true, 0, false⟩ ∧ Tbl.find s.l2 (l2Key 0 0 0x41) = some ⟨1, 0, false, 0, true⟩ ∧ (∀ k, k < 2 → ∀ e ∈ stashAt s 0 (256 * 0x40 + 128 * k), e.1 ≠ 0) ∧
       Tbl.find s.writeBacks 4 = some ⟨0, 0x40, [(0x4001, 5)], none⟩ ∧ walk s 0 (256 * 0x40) = .leaf 0 (2 ^ 39) 0xDF ∧
       Tbl.find s.writeBacks 5 = some ⟨0, 2 ^ 40, [], some 1⟩ ∧ Tbl.find s.slices 1 = some (s.sl 1) ∧ walk s 0 (256 * 2 ^ 40) = .nonResident ∧ (s.sl 1).lost = [] ∧
       Tbl.findD s.banks 3 (0, false, 0) = (0, false, 65536) ∧ 0 + 65536 ≤ (s.pkg (bankPkg 3)).clock ∧ Tbl.find s.bankClock (bankSlice 3) = some 65535 ∧
       Tbl.find s.llc (lineKey 0 0x40) = some ⟨true⟩ ∧ frameKey s 0 0x4000 (walk s 0 0x4000) = some 0x4000 ∧ migAt s 0x4000 = none) := by
  decide
theorem witness_migration :
    walk wHot 0 (2 ^ 39) = .leaf (2 ^ 39) 4096 (BitVec.ofNat 64 (0xDF + 2 ^ 40 + 2 ^ 60)) ∧
      movable (walk wHot 0 (2 ^ 39)) = true ∧ Tbl.findD wHot.migCounts (0 * 2 ^ 57 + 2 ^ 39) (0, 0) = (512, 0) ∧
      (wHot.pkg (vaPkg (2 ^ 39))).clock ≤ 0 + 2 ^ 20 ∧ migOf wHot 0 (2 ^ 39) = false ∧ slotsUsed wHot (vaTower (2 ^ 39)) < 16 ∧
      (popPool { wHot with migCounts := [] } 0 (vaTower (2 ^ 39)) 0x9000 (80 * (vaTower (2 ^ 39) % 8) + 8 * sizeIx 4096) 4096).1 = some 0xA000 := by
  decide
theorem witness_migration_events :
    (∀ p ∈ [MigPhase.marked, .copying], Tbl.find (wMig (wM p [] [])).migs 5 = some (wM p [] []) ∧ (wM p [] []).phase = p) ∧
    (let m := wM .copying (List.range 15) []
     15 ∉ m.valid ∧ 15 ∉ m.pull ∧ 256 * 15 < m.size) ∧
    (let m := wM .copying (List.range 13) [14]
     nextLine m = some 13 ∧ (wMig m).poison.contains ((m.old + 256 * 13) / 256) = false ∧ 14 ∈ m.pull ∧ 14 ∉ m.valid ∧
       (∃ k, k < m.size / 256 ∧ k ≠ 13 ∧ k ≠ 14 ∧ k ∉ m.valid) ∧ (wMig m).poison.contains ((m.old + 256 * 14) / 256) = true) ∧
    nextLine (wM .copying (List.range 16) []) = none :=
  ⟨by decide, by decide, ⟨by decide, by decide, by decide, by decide, ⟨15, by decide⟩, by decide⟩, by decide⟩


def wReqs (l : List (Nat × ClrReq)) : State := { wHot with clrReqs := l }
def rq (va : Nat) (r : Right) (ans : Option Answer) (walk : Bool) : ClrReq := ⟨.slice 1, 0, va, r, ans, walk⟩
def wTlb (p : DWord) : State := (wReqs [(6, rq (2 ^ 39 - 1) .write none false)]).updTower (vaTower (2 ^ 39 - 1)) fun t => { t with tlb := [⟨0, 0, 2 ^ 39, p⟩] }
def wDg (va : Nat) (keep : Bool) : Downgrade := ⟨0, va, 4096, some 0xD3, keep, keep, [0], [], [], false, none⟩
theorem witness_clearance_requests :
    (let s := wReqs [(6, rq (2 ^ 39 - 1) .write none false)]
     Tbl.find s.clrReqs 6 = some (rq (2 ^ 39 - 1) .write none false) ∧ (s.pkg (vaPkg (2 ^ 39 - 1))).vacant = false ∧
       closingFor s 0 (2 ^ 39 - 1) .write = false ∧ tlbFind s 0 (2 ^ 39 - 1) = none) ∧
    ((wReqs [(6, rq (2 ^ 39 - 1) .write none false)]).updPkg 0 fun p => { p with vacant := true }).vacantReqs = [] ∧
    closingFor { wHot with downgrades := [(8, wDg (2 ^ 39) true)] } 0 (2 ^ 39 + 4095) .write = true ∧
    closingFor { wHot with downgrades := [(8, wDg (2 ^ 39) true)] } 0 (2 ^ 39 + 4095) .read = false ∧
    tlbFind (wTlb 0xDF) 0 (2 ^ 39 - 1) = some ⟨0, 0, 2 ^ 39, 0xDF⟩ ∧ leafAllows .write 0xDF = true ∧ leafAllows .write 0xD3 = false ∧ pteProc 0xDF = false ∧
    (⟨0, 0, 2 ^ 39, 0xDF⟩ : TlbEntry).agrees (walk (wTlb 0xDF) 0 (2 ^ 39 - 1)) = true := by
  decide
theorem witness_page_walks :
    (∀ va ∈ [2 ^ 39 - 1, 2 ^ 39, 2 ^ 39 + 4096],
      let s := wReqs [(6, rq va .exec none true)]
      s.clrReqs.filter (fun e => e.2.walk && e.2.ans.isNone && e.2.ctx == 0 && vaTower e.2.va == vaTower va &&
        e.2.va / 4096 == va / 4096 && !closingFor s 0 e.2.va e.2.r) = [(6, rq va .exec none true)] ∧ closingFor s 0 va .exec = false) ∧
    walkTable wHot 0 (2 ^ 39 - 1) = .leaf 0 (2 ^ 39) 0xDF ∧ walkTable wHot 0 (2 ^ 39 + 4096) = .nonResident ∧
    walkTable { wHot with pkgs := [(0, Pkg.init)] } 0 (2 ^ 39) = .hole ∧ walkTable { wHot with ctxs := [(0, { loadCtx with root := 2 ^ 41 })] } 0 0 = .bad := by
  decide
theorem witness_clearance_answers :
    (let s := wReqs [(6, rq 0x4000 .read (some (.grant 0 (2 ^ 39) .read false)) false), (7, rq 0x4000 .read (some (.refused 0x4000 4096 3)) false),
                     (8, { rq 0x4000 .exec (some (.refused 0x4000 4096 5)) false with who := .fetch 1 })]
     Tbl.find s.clrReqs 6 = some (rq 0x4000 .read (some (.grant 0 (2 ^ 39) .read false)) false) ∧
       Tbl.find s.clrReqs 7 = some (rq 0x4000 .read (some (.refused 0x4000 4096 3)) false) ∧
       (Tbl.find s.clrReqs 8).map (fun q => q.who) = some (.fetch 1)) ∧
    (let s := { wHot with resReqs := [(3, (0, 2 ^ 39 + 8191, 1023))] }
     Tbl.find s.resReqs 3 = some (0, 2 ^ 39 + 8191, 1023) ∧ walk s 0 (2 ^ 39 + 8191) = .nonResident ∧ (s.tower (vaTower (2 ^ 39))).residency = []) ∧
    ((2 ^ 40 - 8) % 8 = 0 ∧ populated (wHot.pkg 0) (2 ^ 40 - 8) = true ∧ populated (wHot.pkg 0) (2 ^ 42 + 2 ^ 20 - 1) = true) ∧
    leafAddr wHot 0 (2 ^ 39 + 4096) 5 0x1000 = none ∧ leafAddr wHot 0 (2 ^ 39 + 4095) 5 0x1000 = some (0, 0x8000) ∧
    leafSize 0 (BitVec.ofNat 64 (Mem.readLE wHot.mem 0x8000 8)) = some 4096 := by
  decide

def wDown (d : Downgrade) : State := { wHot with downgrades := [(8, d)] }
theorem witness_shootdown :
    (let d := wDg (2 ^ 39) false
     Tbl.find (wDown d).downgrades 8 = some d ∧ 0 ∈ d.toEmpty) ∧
    (let d := { wDg (2 ^ 39) false with toEmpty := [], toAnswer := [0], waitFor := [(0, [(1, 9)])] }
     Tbl.find (wDown d).downgrades 8 = some d ∧ 0 ∈ d.toAnswer ∧ (∀ e ∈ Tbl.findD d.waitFor 0 [], stillSent (wDown d) e = false) ∧
       stillSent { wUnder .load with downgrades := [(8, d)] } (1, 9) = true ∧ d.toAnswer.filter (· != 0) = []) ∧
    (let d := { wDg (2 ^ 39) false with toEmpty := [], closed := true }
     Tbl.find (wDown d).downgrades 8 = some d ∧ d.toAnswer = [] ∧ d.leaf = some 0xD3 ∧ d.mig = none) := by
  decide

/-- VA 2^39 + 4096 lies in a procedural page of a range of two blocks at 2^39. -/
def wFR (x : PBlock) (q : FillReq) : State :=
  let s := w0
  { s with
    mem := [0, 1, 2, 3].foldl (fun m k => Mem.writeLE m (0x8000 + 8 * k) 8 (0xD3 + 2 ^ 56 + 2 ^ 57))
      (Mem.writeLE (Mem.writeLE (Mem.writeLE s.mem 0x2008 8 0x1801) 0x6000 8 0x1C01) 0x7000 8 0x2001)
    ctxs := [(0, { loadCtx with ranges := [(15, { wRange with base := 2 ^ 39 })], blocks := [(2 ^ 39, x)] })]
    fillReqs := [(6, q)] }
def wFq : FillReq := ⟨.slice 1, 0, 2 ^ 39 + 4096, false, 0, [], none, false, [], false⟩
theorem witness_procedural_reads :
    (∀ x ∈ [PBlock.mk .filled 0x60000 none 0 0 [] [6], .mk .failed 0 none 5 0 [] [], .mk .filling 0x60000 (some 9) 0 0 [] [], .mk .unfilled 0 none 0 0 [] []],
      let s := wFR x wFq
      Tbl.find s.fillReqs 6 = some wFq ∧ wFq.sent = true ∧ isProc s 0 (2 ^ 39 + 4096) = true ∧
        blockOf (s.ctx 0) (2 ^ 39 + 4096) = some (15, { wRange with base := 2 ^ 39 }, 2 ^ 39) ∧ (s.ctx 0).block (2 ^ 39) = x) ∧
    askerLaunch (wFR ⟨.filling, 0x60000, some 9, 0, 0, [], []⟩ wFq) (.slice 1) = 1 ∧
    (List.replicate 63 8).length < 64 ∧ wRange.limit = 2 ∧
    (fillStart (wFR ⟨.unfilled, 0, none, 0, 0, [], []⟩ wFq) 0 15 (2 ^ 39) 0 [] [] { wRange with base := 2 ^ 39 } [6]).1 = .retry := by
  decide
/-- With a pool that holds a frame and a good generator record the fill starts, with 8 registers and one slice the generator starts. -/
def wFill : State :=
  let s := wFR ⟨.unfilled, 0, none, 0, 0, [], []⟩ { wFq with retry := some (64, 128) }
  { s with
    mem := Mem.writeLE (Mem.writeLE s.mem 0x9000 8 0xC000) 0x50000 128 (wRec 0)
    ctxs := s.ctxs.map fun e => (e.1, { e.2 with procPool := 0x9000 })
    pkgs := [(0, { Pkg.init with clock := 64 })]
    launches := [(9, genLaunch 0 0 (parseRec (wRec 0)) ⟨2 ^ 39, 15, 1, [2 ^ 39], true, []⟩)]
    towers := [(0, { Tower.init with genQueue := [9] })] }
theorem witness_procedural_starts :
    (fillStart wFill 0 15 (2 ^ 39) 0 [] [] { wRange with base := 2 ^ 39 } [6]).1 = .started ∧
    (let tq := (wFill.tower 0).genQueue.find? (fun k => ((Tbl.find wFill.launches k).map fun l => ctxRuns wFill l.ctx).getD false)
     tq = some 9) ∧
    (∃ cl f fs, (List.range 8).filterMap (fun k => (fitSpan wFill (parseRec (wRec 0)) (8 * 0 + k)).map fun f => (8 * 0 + k, f)) = (cl, f) :: fs ∧
      (tryPlace wFill 9 (genLaunch 0 0 (parseRec (wRec 0)) ⟨2 ^ 39, 15, 1, [2 ^ 39], true, []⟩) 0 cl f).2 = true) := by
  refine ⟨by decide, by decide, 0, _, _, rfl, by decide⟩
theorem witness_generators :
    (let s := wGen ((wFR ⟨.filling, 0x60000, some 1, 0, 0, [6], []⟩ wFq).updSl 1 fun x => { x with park := .after .tower false })
     let s := s.updCrew 1 fun c => { c with gen := some ⟨2 ^ 39, 15, 1, [2 ^ 39], true, []⟩ }
     (s.sl 1).park = .after .tower false ∧ (ownFilling s (s.sl 1).crew).isSome = true ∧ (s.crew 1).ended = false ∧ (s.ctx 0).st ≠ .dead ∧
       genTrap s 1 = none) ∧
    (let s := (wGen (wFR ⟨.failed, 0, none, 5, 0, [], []⟩ wFq)).updSl 1 fun x => { x with taking := some ⟨0x0D, 0, 2 ^ 39, 0, 7, false, false⟩ }
     genTrap s 1 = some ⟨0x0D, 0, 2 ^ 39, 0, 7, false, false⟩ ∧ (blockOf (s.ctx (s.crew 1).ctx) (2 ^ 39)).map (fun e => e.2.2) = some (2 ^ 39) ∧
       ((s.ctx (s.crew 1).ctx).block (2 ^ 39)).st = .failed ∧ blockOf (s.ctx (s.crew 1).ctx) 0 = none) ∧
    (let s := (wGen (wFR ⟨.filled, 0x60000, some 1, 0, 0, [], []⟩ wFq)).updSl 1 fun x => { x with park := .after .tower true, taking := some ⟨1, 0, 0, 0, 0, false, false⟩ }
     (s.crewOf 1).gen.isSome = true ∧ ownFilling s 1 = none ∧ genTrap s 1 = some ⟨1, 0, 0, 0, 0, false, false⟩) ∧
    (let s := (wFR ⟨.filling, 0x60000, some 1, 0, 0, [6], []⟩ wFq).updSl 1 fun x => { x with live := 0 }
     crewOver s 1 = true) := by
  decide

/-- A second store of a slice to the same bytes waits for the first; a part that is performed; one at a vacant index; a remote part in a mapped tile of
another crew's address: free, behind a downgrade, in a cluster that raises its ways, at a vacant index. -/
theorem witness_access_more :
    (let s := (wUnder .store).updSl 1 fun x => { x with accs := [(8, wAcc .store), (9, wAcc .store)] }
     let q : Piece := ⟨3, 0x4004, 4, 0, 0x11223344, 5, false, 0⟩
     Tbl.find (s.sl 1).accs 9 = some (wAcc .store) ∧ (wAcc .store).pieces[0]? = some q ∧ pieceReady s 1 9 (wAcc .store) q = false ∧
       vacantAt s q.va = false ∧ vacantAt (s.updPkg 0 fun p => { p with vacant := true }) q.va = true) ∧
    (∀ k ∈ [AccKind.remLoad, .remStore],
      let q : Piece := ⟨3, 0x4004, 4, 0, 0x11223344, 5, false, 0⟩
      let s := (wUnder k).updCrew 1 fun c => { c with tiles := 32, maps := [⟨16, 1, 0x8000⟩], tags := [(16, ⟨.slices, true, 0, 0⟩)] }
      let r : Right := if k = .remLoad then .read else .write
      pieceReady s 1 9 (wAcc k) q = true ∧ crewOnCore s (s.crewOf 1).span (q.va / 2 ^ 19 % 16) = some 1 ∧ 0x4004 / 1024 < (s.crew 1).tiles ∧
        (tagOf s 1 16).owner = .slices ∧ mappedVa s 1 0x4004 = some 0x8004 ∧ vacantAt s 0x8004 = false ∧ closingFor s 0 0x8004 r = false ∧
        (s.cluster (coreCluster (s.coreOf 1))).raising = none ∧ walkTable s 0 0x8004 = .leaf 0 (2 ^ 39) 0xDF ∧
        ownerAnswer s 0 0x8004 r (s.crewOf 1).gen = .grant 0 (2 ^ 39) r false ∧
        vacantAt (s.updPkg 0 fun p => { p with vacant := true }) 0x8004 = true ∧
        closingFor { s with downgrades := [(8, { wDg 0x8000 false with va := 0x8000 })] } 0 0x8004 r = true ∧
        ((s.updCluster 0 fun c => { c with raising := some (3, 1) }).cluster (coreCluster (s.coreOf 1))).raising ≠ none) := by
  refine ⟨by decide, ?_⟩
  intro k hk
  simp only [List.mem_cons, List.not_mem_nil, or_false] at hk
  rcases hk with rfl | rfl
  · refine ⟨by decide, by decide, by decide, by decide, by decide, by decide, by decide, by decide, by decide, by decide, by decide, by decide, by decide⟩
  · refine ⟨by decide, by decide, by decide, by decide, by decide, by decide, by decide, by decide, by decide, by decide, by decide, by decide, by decide⟩

def wMapped : State := (wUnder .remLoad).updCrew 1 fun c => { c with tiles := 32, maps := [⟨16, 1, 0x8000⟩], tags := [(16, ⟨.slices, true, 0, 0⟩)] }
theorem readPte_kept (s : State) (pkg va n a : Nat) (v : DWord) (h : BitVec.ofNat 64 (physLE s (physKey pkg a) 8) = v)
    (k : Tbl.find (s.tower (vaTower va)).walks a = some v) : readPte s pkg va n a = v := by
  unfold readPte
  rw [h, k]
  cases n <;> simp
theorem wMapped_leaf : leafAddr (tlbFill wMapped 0 0x8004) 0 0x8004 5 0x1000 = some (3, 0x2000) := by
  unfold leafAddr
  dsimp only
  rw [readPte_kept _ _ _ _ _ 0x801 (by decide) (by decide)]
  decide
theorem witness_mapped_load :
    let u := setAD (tlbFill wMapped 0 0x8004) 0 0x8004 (.grant 0 (2 ^ 39) .read false)
    isProc u 0 0x8004 = false ∧ poisoned u 0 0x8004 = false := by
  have e : setAD (tlbFill wMapped 0 0x8004) 0 0x8004 (.grant 0 (2 ^ 39) .read false) = physPut (tlbFill wMapped 0 0x8004) 0x2000 8 0xDF := by
    unfold setAD updLeaves
    rw [show ((tlbFill wMapped 0 0x8004).ctx 0).root = 0x1000 by decide, show vaPkg 0x8004 = 0 by decide]
    dsimp only
    rw [wMapped_leaf]
    dsimp only
    rw [show (leafSize 3 (BitVec.ofNat 64 (physLE (tlbFill wMapped 0 0x8004) (physKey 0 0x2000) 8))).getD (2 ^ (12 + 9 * 3)) / 2 ^ (12 + 9 * 3) = 1 by decide,
      show List.range 1 = [0] from rfl, List.foldl, List.foldl]
    congr 1
  simp only [e]
  refine ⟨?_, not_poisoned _ _ _ (by decide)⟩
  unfold isProc walk walkTable walkFrom
  dsimp only
  rw [readPte_kept _ _ _ _ _ 0x801 (by decide) (by decide)]
  decide

/-- A read behind a full list of waiters, one whose chain holds the block, one at a vacant index, and a prefetch of a block; a clearance request and a
residency notice at a vacant index. -/
theorem witness_vacant_requests :
    (let s := (wFR ⟨.filling, 0x60000, some 9, 0, 0, List.replicate 64 8, []⟩ wFq)
     ((s.ctx 0).block (2 ^ 39)).waiters.length = 64 ∧ vacantAt s wFq.va = false ∧ vacantAt (s.updPkg 0 fun p => { p with vacant := true }) wFq.va = true ∧
       (s.ctx 0).block (2 ^ 39) = ⟨.filling, 0x60000, some 9, 0, 0, List.replicate 64 8, []⟩ ∧ ctxRuns s (s.ctxOf 1) = true) ∧
    (let q := { wFq with chain := [2 ^ 39], depth := 1 }
     Tbl.find (wFR PBlock.none q).fillReqs 6 = some q ∧ 2 ^ 39 ∈ q.chain ∧ q.pref = false ∧ q.sent = true) ∧
    (let q := { wFq with depth := 2 }
     Tbl.find (wFR PBlock.none q).fillReqs 6 = some q ∧ wRange.limit < q.depth + 1) ∧
    (let q := { wFq with pref := true }
     Tbl.find (wFR PBlock.none q).fillReqs 6 = some q ∧ isProc (wFR PBlock.none q) 0 q.va = true ∧ q.pref = true ∧ ((wFR PBlock.none q).ctx 0).block (2 ^ 39) = .none) ∧
    (let s := { (wReqs [(6, rq (2 ^ 39 - 1) .write none false)]).updPkg 0 fun p => { p with vacant := true } with
        vacantReqs := [(3, ⟨.clr 6, 0, 0, 0⟩)], resReqs := [(4, (0, 2 ^ 39, 5))] }
     (∃ e ∈ s.vacantReqs, e.2.ask = .clr 6) ∧ (∀ e ∈ s.vacantReqs, e.2.ask ≠ .clr 7) ∧ Tbl.find s.resReqs 4 = some (0, 2 ^ 39, 5) ∧ vacantAt s (2 ^ 39) = true) ∧
    ctxRuns (w0.updCtx 0 fun c => { c with st := .stopping }) (w0.ctxOf 1) = false := by
  refine ⟨by decide, by decide, by decide, by decide, ⟨⟨_, List.mem_cons_self, rfl⟩, by decide, by decide, by decide⟩, by decide⟩


def wPkt : Pkt :=
  { reply := false, tower := 0, core := 0, lane := 1, slice := 9, flits := 4, back := 1, cls := 2, units := 4, stage := 0, stamp := 5, headAt := 0
    sat := false, mark := false, link := none, dest := 0, base := 0, one := false, who := none }
def wNet (ps : List (Nat × Pkt)) (now : Nat) : State := { w0 with packets := ps, pkgs := [(0, { Pkg.init with clock := now, links := [(3, 1)] })] }
theorem witness_network :
    (∀ stage ∈ [0, 1],
      let p := { wPkt with stage := stage }
      let s := wNet [(4, p), (5, { p with stamp := 6 })] 0
      (outAt s (outKey false 0 stage p.place.1 p.output)).busy ≤ 0 ∧ winner s (outKey false 0 stage p.place.1 p.output) 0 = some (4, p)) ∧
    (let a := { wPkt with stage := 2, slice := 63 }
     let s := wNet [(4, a), (5, { a with core := 16, cls := 1, stamp := 6 })] 0
     (outHeads s (portKey 0 63) 0).map Prod.fst = [4, 5] ∧ a.dest = 0) ∧
    (let a := { wPkt with stage := 2, dest := 3 }
     winner (wNet [(4, a)] 0) (unitKey 0 3) 0 = some (4, a)) ∧
    (let s := wNet [(4, wPkt)] 510
     Tbl.find s.packets 4 = some wPkt ∧ atHead s wPkt = true ∧ 255 ≤ wPkt.base + ((s.pkg 0).clock - wPkt.headAt) / 2) ∧
    (let p := { wPkt with reply := true, stage := 2, mark := true }
     Tbl.find (wNet [(4, p)] 128).packets 4 = some p ∧ p.reply = true ∧ p.stage = 2) ∧
    (let s := (wNet [(4, { wPkt with stage := 3 })] 0).updCore 0 fun c => { c with held := [4], inUse := 252, unmarked := 64 }
     ((s.core 0).held.filter fun j => ((Tbl.find s.packets j).map fun q => (q.cls == 3) == false).getD false).head? = some 4 ∧
       ((s.core 0).held.filter fun j => ((Tbl.find s.packets j).map fun q => (q.cls == 3) == true).getD false).head? = none ∧
       (s.core 0).inUse + wPkt.units ≤ (s.core 0).window ∧ queueFlits s { wPkt with stage := 0 } + wPkt.flits ≤ 16 ∧ 64 ≤ (s.core 0).unmarked) ∧
    (let s := (wNet [(4, { wPkt with stage := 3, units := 0 })] 0).updCluster 0 fun c => { c with held := [4] }
     heldFirst s [] (s.cluster 0).held = some (4, { wPkt with stage := 3, units := 0 })) ∧
    (heldFirst w0 [] (w0.cluster 0).held = none ∧ (w0.core 0).held = []) ∧
    (let s := { wNet [] 0 with npkgs := 2, pkgs := [(0, { Pkg.init with links := [(3, 1)] }), (1, { Pkg.init with links := [(5, 0)] })] }
     linkMate s 0 3 = some (1, 5) ∧ linkMate s 0 4 = none) ∧
    (let p := { wPkt with stage := 2, link := some 1 }
     let s := wNet [(4, p)] 0
     Tbl.find s.packets 4 = some p ∧ winner s (linkKey 0 1) 0 = some (4, p) ∧ (outAt s (linkKey 0 1)).busy ≤ 0) ∧
    (let p := { wPkt with stage := 2, link := some 8 }
     let s := wNet [(4, p)] 0
     Tbl.find s.packets 4 = some p ∧ p.link = some 8 ∧ winner s (linkKey 0 8) 0 = some (4, p) ∧ (outAt s (causeKey 0 3)).busy ≤ 0 ∧
       nextLink (s.pkg 0) 1 = some 3 ∧ nextLink (s.pkg 0) 2 = none ∧ Tbl.find (s.pkg 0).links 3 = some 1 ∧ 3 ∉ (s.pkg 0).linkDown) ∧
    (let p := { wPkt with stage := 4, link := some 1, reply := true }
     let s := wNet [(4, p)] 0
     Tbl.find s.packets 4 = some p ∧ p.link = some 1 ∧ winner s (linkKey 1 0) 0 = some (4, p) ∧ (outAt s (linkKey 1 0)).busy ≤ 0) := by
  decide
theorem witness_network_order : (wNet [(4, wPkt), (5, { wPkt with stamp := 6 })] 0).packets.Pairwise (fun a b => a.1 < b.1) := by
  simp [wNet]

def wIssue (f : Slice → Slice) (t : Slot) : State :=
  let s := wSl f
  { s with cores := [(0, { Core.init with slots := t :: List.replicate 3 Slot.init })], pkgs := [(0, { Pkg.init with clock := 257 })] }
theorem witness_issue_events :
    (let s := wIssue (fun x => { x with since := some 0 }) ⟨[[1]], [], 24, 1, 0, []⟩
     let t := slotAt (s.core 0) 0
     t.holder = [] ∧ 0 < (s.core 0).slots.length ∧ 24 ≤ t.len ∧
       (pickRun (inTurn (t.units.flatMap id) t.last ((t.units.flatMap (readyUnits s)).map (contender s (s.pkg (corePkg 0)).clock)))).isSome = true ∧
       s.coreOf 1 = 0 ∧ canIssue s 1 = true ∧ (s.sl 1).since = some 0 ∧ 0 + 256 < (s.pkg (corePkg 0)).clock) ∧
    (let s := wIssue (fun x => { x with park := .after (.clock 258) true }) ⟨[[1]], [], 0, 1, 0, []⟩
     let t := slotAt (s.core 0) 0
     (pickRun (inTurn (t.units.flatMap id) t.last ((t.units.flatMap (readyUnits s)).map (contender s (s.pkg (corePkg 0)).clock)))).isNone = true) ∧
    (let s := wIssue (fun x => { x with park := .after (.clock 257) true }) ⟨[[1]], [], 0, 1, 0, []⟩
     (s.sl 1).park = .after (.clock 257) true ∧ 257 ≤ s.clockOf 1 ∧ mustDeliver (s.sl 1) = false) ∧
    (let s := wIssue (fun x => { x with since := some 250 }) ⟨[[1]], [], 0, 1, 0, []⟩
     (1, (markWaits s 0).sl 1) ∈ (markWaits s 0).slices ∧ ((markWaits s 0).sl 1).since = some 250 ∧ ((markWaits s 0).sl 1).raised = false ∧ corePkg ((markWaits s 0).coreOf 1) = 0) ∧
    (let s := wIssue (fun x => { x with since := some 0, raised := true }) ⟨[[1]], [], 0, 1, 300, []⟩
     (0, s.core 0) ∈ s.cores ∧ ⟨[[1]], [], 0, 1, 300, []⟩ ∈ (s.core 0).slots ∧ ((markWaits s 0).sl 1).raised = true ∧ canIssue (markWaits s 0) 1 = true) ∧
    (∀ ix ∈ [0x30, 0x40, 0x4F, 0x50, 0x5F],
      let s := { w0 with ctxs := [(0, { loadCtx with pendReg := [(ix, 7, 1)] })] }
      s.hasCtx 0 = true ∧ (s.ctx 0).pendReg = [(ix, 7, 1)]) ∧
    (let s := { w0 with clusters := [(0, { Cluster.init with raising := some (3, 1) })] }
     (s.cluster 0).raising = some (3, 1) ∧ ∀ e ∈ s.l2, e.1 / 2 ^ 57 ≠ 0) ∧
    (w0.cluster 0).raising = none := by
  decide

def wL (f : Launch → Launch) : State := { w0 with launches := [(1, f { loadLaunch with hw := some 0x40078 })] }
theorem witness_scheduler :
    (let s := wL fun l => { l with ready := false }
     Tbl.find s.launches 1 = some { loadLaunch with hw := some 0x40078, ready := false } ∧
       predWords s { loadLaunch with hw := some 0x40078, ready := false } = []) ∧
    (let l := { loadLaunch with ready := false, hw := some 0x40078, lrec := { loadRec with preds := [0, 0x50000] } }
     ∃ w ∈ predWords (wL fun _ => l) l, hwDone w = false ∨ hwFail w = true) ∧
    (let l := { loadLaunch with hw := some 0x40078, drawn := 0, lrec := { loadRec with nspans := 9 } }
     let s := wL fun _ => l
     Tbl.find s.launches 1 = some l ∧ launchRuns s l = true ∧ 0 ∈ l.towers ∧ towerWaiting l 0 = [] ∧ l.back = [] ∧ l.drawn < l.lrec.nspans) ∧
    (let l := { loadLaunch with waiting := [(0, [1])], lrec := { loadRec with nspans := 2 } }
     let s := { (wL fun _ => l) with crews := [], spans := [], slices := [] }
     (s.tower 0).genQueue = [] ∧ (s.tower 0).reserved = [] ∧ candidates s 0 = [⟨1, l, 1, 0⟩] ∧
       (∀ f, fitSpan s l.lrec 0 = some f → (tryPlace s 1 l 1 0 f).2 = true) ∧ (fitSpan s l.lrec 0).isSome = true) ∧
    (let l := { loadLaunch with waiting := [(0, [1])], lrec := { loadRec with nspans := 2, spant := 2048 } }
     let s := { (wL fun _ => l) with crews := [], spans := [], slices := [] }
     candidates s 0 = [⟨1, l, 1, 0⟩] ∧ (∀ f, fitSpan s l.lrec 0 = some f → (tryPlace s 1 l 1 0 f).2 = false) ∧ (fitSpan s l.lrec 0).isSome = true) ∧
    (let s := w0.updCrew 1 fun c => { c with started := false }
     (s.crew 1).started = false ∧ (s.crew 1).ended = false ∧ ctxRuns s (s.crew 1).ctx = true ∧ (s.crew 1).startAt ≤ (s.pkg 0).clock ∧ (s.crew 1).ix = 0) := by
  refine ⟨by decide, by decide, by decide, ⟨by decide, by decide, by decide, ?_, by decide⟩, ⟨by decide, ?_, by decide⟩, by decide⟩
  · rintro f hf
    obtain rfl := Option.some.inj (hf.symm.trans (show _ = some ([0], 0) from rfl))
    decide
  · rintro f hf
    obtain rfl := Option.some.inj (hf.symm.trans (show _ = some ([0], 0) from rfl))
    decide
theorem witness_scheduler_more :
    (let l := { loadLaunch with waiting := [(7, [1, 2, 3])], lrec := { loadRec with nspans := 4 } }
     let s := wL fun _ => l
     launchRuns s l = true ∧ 1 / 8 ∈ l.towers ∧ waitingIn l 1 = [] ∧ (fitSpan s l.lrec 1).isSome = true) ∧
    (let l := { loadLaunch with waiting := [(0, [1])], lrec := { loadRec with nspans := 2, cps := 17 } }
     candidates (wL fun _ => l) 0 = [⟨1, l, 1, 0⟩] ∧ ∀ k, k < 8 → fitSpan (wL fun _ => l) l.lrec (8 * 0 + k) = none) ∧
    (let s := wSl fun x => { x with stepIn := true }
     Tbl.find s.launches 1 = some loadLaunch ∧ launchSlices s 1 = [1] ∧ (s.sl 1).stepIn = true ∧ (s.sl 1).steps = loadLaunch.steps ∧ loadLaunch.gen = none ∧
       (s.pkg (corePkg (s.coreOf 1))).leaving = false) ∧
    (∃ i ∈ launchSlices w0 1, (w0.sl i).stepIn = false) ∧
    (let s := wSl fun x => { x with live := 0 }
     crewOver s 1 = true ∧ ownFilling s 1 = none) ∧ crewOver w0 1 = false ∧
    (let l := { loadLaunch with hw := some 0x40078, spans := [] }
     let s := wL fun _ => l
     l.done = false ∧ l.gen = none ∧ l.failed = false ∧ l.ready = true ∧ l.allStarted = true ∧ launchQuiet s 1 = true) ∧
    loadLaunch.spans ≠ [] := by
  decide

def wCtx (c : Ctx) : State := { w0 with ctxs := [(0, c)], cores := [], pkgs := [(0, { Pkg.init with clock := 5000 })] }
theorem witness_stop :
    (let s := wCtx { loadCtx with slice := .until_ 6800 }
     s.hasCtx 0 = true ∧ (s.ctx 0).st = .running ∧ 6800 ≤ (s.pkg 0).clock + (s.ctx 0).drain * (100 * (s.pkg 0).clk100)) ∧
    (let s := wCtx { loadCtx with slice := .until_ 6801 }
     (s.pkg 0).clock + (s.ctx 0).drain * (100 * (s.pkg 0).clk100) < 6801) ∧
    (let s := wCtx { loadCtx with st := .stopping, stopAt := some 1400 }
     ctxQuiet s 0 = true ∧ (s.ctx 0).st = .stopping ∧ 1400 + 2 * ((s.ctx 0).drain * (100 * (s.pkg 0).clk100)) ≤ (s.pkg 0).clock) ∧
    (let s := { wCtx { loadCtx with st := .stopping, stopAt := some 1401 } with crews := [] }
     ctxCrews s 0 = [] ∧ (s.ctx 0).blocks = [] ∧ (s.pkg 0).clock < 1401 + 2 * ((s.ctx 0).drain * (100 * (s.pkg 0).clk100))) ∧
    (let s := wCtx { loadCtx with st := .dead }
     ctxQuiet s 0 = true ∧ ∀ k ∈ ctxCrews s 0, ownFilling s k = none) ∧
    ctxQuiet (wSl fun x => { x with outst := [(5, 1)] }) 0 = false := by
  decide

/-- An entry of a present queue whose deadline is 2000000 ns, with a guard of 1 µs, one pixel. -/
def wEq (status : Nat) : Nat := 2000000 + 2 ^ 64 * 0x40000 + 2 ^ 128 * 0x40000 + 2 ^ 272 + 2 ^ 288 * status
def wFab (q : EqQueue) (status now : Nat) : State :=
  { w0 with
    mem := Mem.writeLE w0.mem 0x48040 64 (wEq status)
    pkgs := [(0, { Pkg.init with devTime := BitVec.ofNat 64 now, timePage := 0x9000, windows := [(0, ⟨0, 2 ^ 21, 0, 0x4000, true⟩), (63, ⟨0, 2 ^ 21, 0, 2 ^ 39, false⟩)] })]
    equinox := [(2, q)] }
def wQ0 : EqQueue := ⟨0, 0, 3, 0x48000, 0, none, 0, false, 0, 0⟩
theorem witness_outside :
    (let s := wFab wQ0 1 0
     Tbl.find (s.pkg 0).windows 0 = some ⟨0, 2 ^ 21, 0, 0x4000, true⟩ ∧ 0x1FFFF8 + 8 ≤ 2 ^ 21 ∧
       (∀ g ∈ pagesOf (0x4000 + 0x1FFFF8, 8), (s.pkg (vaPkg g)).vacant = false ∧ closingFor s 0 g .write = false ∧ closingFor s 0 g .read = false) ∧
       hostRefused s 0 (0x4000 + 0x1FFFF8) 8 .write = false ∧ hostRefused s 0 (0x4000 + 0x1FFFF8) 8 .read = false ∧
       Tbl.find (s.pkg 0).windows 63 = some ⟨0, 2 ^ 21, 0, 2 ^ 39, false⟩ ∧ hostRefused s 0 (2 ^ 39) 1 .read = true) ∧
    ((wFab wQ0 1 0).updPkg 0 fun p => { p with vacant := true }).pkg (vaPkg 0x4000) = { (wFab wQ0 1 0).pkg 0 with vacant := true } ∧
    closingFor { wFab wQ0 1 0 with downgrades := [(8, { wDg 0x4000 false with keep := false })] } 0 0x4000 .read = true ∧
    (let s := { w0 with pkgs := [(0, Pkg.init), (1, { Pkg.init with devTime := 100 })] }
     (Tbl.find s.pkgs 0).isSome = true ∧ (∀ e ∈ s.pkgs, e.1 = 0 ∨ ((75 : DWord).toNat ≤ e.2.devTime.toNat + 25 ∧ e.2.devTime.toNat ≤ (75 : DWord).toNat + 25)) ∧
       ∃ e ∈ s.pkgs, e.1 ≠ 0 ∧ (e.2.devTime.toNat + 25 < (74 : DWord).toNat ∨ (74 : DWord).toNat + 25 < e.2.devTime.toNat)) ∧
    (let s := wFab wQ0 1 5000
     (s.pkg 0).timePage ≠ 0 ∧ populated (s.pkg 0) (s.pkg 0).timePage = true) ∧
    (w0.pkg 0).timePage = 0 := by
  decide
theorem witness_equinox :
    (let s := wFab wQ0 1 1999000
     let v := eqRead s wQ0
     Tbl.find s.equinox 2 = some wQ0 ∧ (s.pkg wQ0.pkg).vacant = false ∧ eqDeadline v - 1000 * recBits v 281 272 = 1999000 ∧ eqValid v = true ∧
       ¬ (wQ0.gapFrom.toNat ≤ 1999000 ∧ 1999000 < wQ0.gapTo.toNat) ∧ eqStatus v = 1) ∧
    (eqValid (eqRead (wFab wQ0 2 1999000) wQ0) = true ∧ eqStatus (eqRead (wFab wQ0 2 1999000) wQ0) = 2 ∧ eqStatus (eqRead (wFab wQ0 0 1999000) wQ0) = 0) ∧
    (let q := { wQ0 with cur := 5 }
     Tbl.find (wFab q 1 1999000).equinox 2 = some q ∧ eqValid (eqRead (wFab q 1 1999000) q) = false ∧ eqDeadline (eqRead (wFab q 1 1999000) q) ≤ 1999000) ∧
    (let q := { wQ0 with gapFrom := 5, gapTo := 1999001 }
     Tbl.find (wFab q 1 1999000).equinox 2 = some q ∧ q.gapFrom.toNat ≤ 1999000 ∧ 1999000 < q.gapTo.toNat) ∧
    (let q := { wQ0 with chosen := some true }
     let s := wFab q 1 2000000
     Tbl.find s.equinox 2 = some q ∧ eqDeadline (eqRead s q) ≤ 2000000 ∧ q.sent = false ∧
       eqFaults s q.ctx (eqRead s q) (recBits (eqRead s q) 127 64) = false ∧ eqFaults s q.ctx (eqRead s q) (recBits (eqRead s q) 191 128) = false ∧
       eqFaults { s with poison := [0x400] } q.ctx (eqRead s q) (recBits (eqRead s q) 127 64) = true) ∧
    (let q := { wQ0 with chosen := some false, sent := true }
     Tbl.find (wFab q 0 2000001).equinox 2 = some q ∧ ((wFab q 0 2000001).updPkg 0 fun p => { p with vacant := true }).pkg q.pkg ≠ Pkg.init) := by
  decide
theorem witness_package_changes :
    (let s := { w0 with pkgs := [(0, Pkg.init)] }
     (Tbl.find s.pkgs 0).isSome = true ∧ (s.pkg 0).vacant = false ∧ (s.pkg 0).leaving = false ∧ ctxsOn s 0 = [0]) ∧
    (let s := { State.reset with pkgs := [(0, { Pkg.init with leaving := true })] }
     (s.pkg 0).leaving = true ∧ ctxsOn s 0 = [] ∧ sentTo s 0 = false ∧ sentTo { s with mcReqs := [(5, wReq)] } 0 = true) ∧
    (let s := { State.reset with pkgs := [(0, { Pkg.init with vacant := true })] }
     (s.pkg 0).vacant = true ∧ movedCtxs s 0 = [] ∧ s.vacantReqs = []) ∧
    (let s := { wCtx { loadCtx with st := .stopped, moved := true } with pkgs := [(0, { Pkg.init with vacant := true })] }
     movedCtxs s 0 = [0] ∧ (ctxGo (s.updPkg 0 fun p => { p with vacant := false }) 0 0).1.isSome = true) := by
  decide
/-- Requests that have waited a second, and one that has not. -/
theorem witness_vacant_timeouts :
    let s := fun (a : VacantAsk) (t : Nat) => { (wUnder .load) with
      pkgs := [(0, { Pkg.init with vacant := true, devTime := BitVec.ofNat 64 t, windows := [(0, ⟨0, 2 ^ 21, 0, 0x4000, true⟩)] })]
      clrReqs := [(6, rq 0x4000 .read none false)], fillReqs := [(6, wFq)], resReqs := [(6, (0, 2 ^ 39, 5))], vacantReqs := [(3, ⟨a, 0, 0, 7⟩)] }
    (∀ a ∈ [VacantAsk.clr 6, .fill 6, .res 6, .part 1 9 0, .host 0 0 8 4 false 0, .os 15],
      Tbl.find (s a 1000000006).vacantReqs 3 = some ⟨a, 0, 0, 7⟩ ∧ ((s a 1000000006).pkg 0).devTime.toNat < 7 + 1000000000 ∧
        7 + 1000000000 ≤ ((s a 1000000007).pkg 0).devTime.toNat) ∧
    (let u := s (.clr 6) 1000000007
     Tbl.find u.clrReqs 6 = some (rq 0x4000 .read none false) ∧ Tbl.find u.fillReqs 6 = some wFq ∧ Tbl.find (u.sl 1).accs 9 = some (wAcc .load) ∧
       ((wAcc .load).pieces[0]?).map (fun q => q.done) = some false ∧ Tbl.find (u.pkg 0).windows 0 = some ⟨0, 2 ^ 21, 0, 0x4000, true⟩) ∧
    (let u : State := { w0 with mem := Mem.writeLE [] 0x1000 4 (encodeOs 10 11 12), osCores := [(15, ⟨[], 0x1000⟩)] }
     decodeOs (osWord u 15) = some (.fyLaunch 10 11 12) ∧ u.hasCtx 0 = true ∧ 0x4000 + 2 ^ 21 ≤ 2 ^ 56 ∧ (2 ^ 21 : Nat) % 2097152 = 0 ∧ (2 ^ 20 : Nat) % 2097152 ≠ 0) := by
  decide

/-- A context whose root's first page may only be read. -/
def wCap : State :=
  { State.reset with
    pkgs := [(0, { Pkg.init with booted := true, source := .port })]
    ctxs := [(0, { loadCtx with capbase := 0x3000 })]
    mem := Mem.writeLE (Mem.writeLE (Mem.writeLE (Mem.writeLE [] 0x1000 8 0x801) 0x2000 8 0xC01) 0x3000 8 0x1001) 0x4000 8 0x1401 }
theorem witness_package_events :
    State.reset.npkgs = 1 ∧ (Tbl.find State.reset.pkgs 0).isSome = true ∧ (State.reset.pkg 0).trained = false ∧ (State.reset.pkg 0).clk100 = 18 ∧
    (let s := State.reset.setPkg 0 { Pkg.init with trained := true, clk100 := 35, booted := true, devTime := BitVec.ofNat 64 986400000000000 }
     (s.pkg 0).trained = true ∧ (s.pkg 0).clk100 < 36 ∧ 18 < (s.pkg 0).clk100 ∧ (s.pkg 0).booted = true ∧ s.ctxs = [] ∧ s.hasCtx 255 = false ∧
       (s.tower 0).replan.last + 986400000000000 ≤ (s.pkg 0).devTime.toNat ∧ (∀ k < 8, clusterFree s (8 * 0 + k) = true) ∧
       (s.tower 0).replan.busy + 100000000 ≤ (s.pkg 0).devTime.toNat ∧ (0xFFFFFFFFFFF000 : DWord).toNat % 4096 = 0 ∧
       (0xFFFFFFFFFFF000 : DWord).toNat < 2 ^ 56) ∧
    (let s := { State.reset with npkgs := 2, pkgs := [(0, Pkg.init), (1, Pkg.init)] }
     s.npkgs ≠ 1 ∧ (Tbl.find s.pkgs 1).isSome = true ∧ s.ctxs = [] ∧ Tbl.find s.pkgs 2 = none) ∧
    (let t := { Tower.init with replan := ⟨5, true, true, false, 7⟩ }
     t.replan.due = true ∧ t.replan.starved = true ∧ t.replan.active = false ∧ 7 < 7 + 100000000) := by
  decide
theorem witness_capabilities :
    (let s := { wCap with mem := Mem.writeLE wCap.mem 0x5018 8 0x2053 }
     s.ctxs.map Prod.fst = [0] ∧ capFrame s 0 ((s.ctx 0).capbase.toNat) = some 0x8000) ∧
    (let s := { wCap with mem := Mem.writeLE wCap.mem 0x5018 8 0x2057 }
     capFrame s 0 ((s.ctx 0).capbase.toNat) = none) := by
  decide


/-! Further clauses: exports of the Deck, engine answers, launches, generators, crews, tiles, stops and packages. -/

theorem crc_zero (word : Nat → List Byte) (h : ∀ n, word n = [0, 0, 0, 0]) : ∀ l : List Nat, (l.flatMap word).foldl crcByte 0 = 0
  | [] => rfl
  | n :: l => by
    have e : ([0, 0, 0, 0] : List Byte).foldl crcByte 0 = 0 := by decide
    rw [List.flatMap_cons, List.foldl_append, h, e, crc_zero word h l]

def xpI : Instr := .dkxp g0 (.s 8) (.cell 0) (.s 4) (.s 5) (.s 6)
def wXp (sc : List DWord) : State :=
  wDeck (fun d => { d with queue := [⟨1, xpI, [0, 0x40000, BitVec.ofInt 64 (-128), 0x48000, 0x3000, 0xF] ++ sc, 1, 5⟩] }) id

theorem crc_export (d : Deck) (h : d.regs = []) (l : List Nat) :
    crc64 (l.flatMap fun n => natBytes 4 (cellVal d 0 n (.cell 0)).toNat) = 0 :=
  crc_zero _ (fun n => by simp [cellVal, Deck.reg, h, Tbl.findD, Tbl.find, natBytes]) l

/-- A Deck of zeros exports over a signature of zero, and over another; the signature alone is left; rows are left. -/
theorem witness_deck_export :
    (let s := wXp []
     let e := (s.crew 1).deck.queue.headD ⟨0, xpI, [], 0, 0⟩
     e.sc.length = 6 ∧ anyPoison s 0 0x48000 8 = none ∧ curLE s 0 0x48000 8 = 0 ∧
       curLE { s with mem := Mem.writeLE s.mem 0x48000 8 5 } 0 0x48000 8 = 5) ∧
    (((wXp [32]).crew 1).deck.queue.map fun e => e.sc.drop 6) = [[32]] ∧
    (((wXp [7, 31, 32]).crew 1).deck.queue.map fun e => e.sc.drop 6) = [[7, 31, 32]] ∧ (∃ j ∈ ([7, 31, 32] : List DWord), j ≠ 32) := by
  exact ⟨by decide, by decide, by decide, 7, by decide, by decide⟩
theorem witness_deck_signature :
    crc64 ((List.range 1024).flatMap fun n => natBytes 4 (cellVal ((wXp []).crew 1).deck 0 n (.cell 0)).toNat) = 0 := by
  apply crc_export
  decide

/-- Two contributions of one rank, of three participants and of two. -/
theorem witness_collective_mismatch : ∀ n ∈ [2, 3],
    let m : Collective := ⟨0, 0, 0x4000, 4, 0, n, 0, natBytes 4 1, 1, 0, false, 0⟩
    let s := { w0 with colls := [(3, { m with arrived := true }), (4, m)] }
    Tbl.find s.colls 4 = some m ∧
      (s.colls.filter fun e => e.2.arrived && e.2.ctx == m.ctx && e.2.coll == m.coll &&
        (vaTower e.2.dst, homeSlice e.2.dst) == (vaTower m.dst, homeSlice m.dst)) = [(3, { m with arrived := true })] ∧
      ({ m with arrived := true } : Collective).rank = m.rank ∧ ({ m with arrived := true } : Collective).short = 0 := by decide

/-- Records read well, a quarantined one, and a table whose line of records is in error. -/
theorem witness_keystone_gives :
    (let s := wKs wTab i2 [(4, 3), (5, 1)]
     (([3, 1].foldl (fun r x => kBind r fun k _ => kGive (s.ksBad 1) k x) (s.ksTable 1, .ok 0)) = (s.ksTable 1, .ok 1)) ∧
       (kApp (s.ksBad 1) 8 4100 (s.ksTable 1) 3 1).2 = .ok 6 ∧ (kGive (s.ksBad 1) (kApp (s.ksBad 1) 8 4100 (s.ksTable 1) 3 1).1 6).2 = .ok 6) ∧
    (let s := wKs wTab (.ddqnt g0 true (.v 0) (.s 4) (.s 5)) [(4, 2), (5, 3)]
     kBind (kGive (s.ksBad 1) (s.ksTable 1) 2) (fun k _ => kGive (s.ksBad 1) k 3) = (s.ksTable 1, .ok 3)) ∧
    (let s := { wKs wTab i2 [(4, 3), (5, 1)] with poison := [0x800] }
     kBad (s.ksTable 1) 3 = false ∧ ([3, 1].foldl (fun r x => kBind r fun k _ => kGive (s.ksBad 1) k x) (s.ksTable 1, .ok 0)).2 = .poison ∧
       (kMake (s.ksBad 1) (s.ksTable 1) 9 0 1).2 = .ok 5 ∧ (kGive (s.ksBad 1) (kMake (s.ksBad 1) (s.ksTable 1) 9 0 1).1 5).2 = .poison) := by
  decide

/-- An OS core's record in a page that is not there; at an index without a package; in a page that may only run; in a procedural block that is not
filled; and records whose predecessor's word lies in each of the last three. -/
theorem witness_launch_records :
    let os := fun (s : State) (va : Nat) =>
      ({ s with curOs := some 15, osCores := [(15, ⟨[(10, BitVec.ofNat 64 va), (11, 0)], 0⟩)] } : State)
    let two := { wLaunch 0 with npkgs := 2, pkgs := [(1, { Pkg.init with vacant := true })] }
    let run := { wFR PBlock.none wFq with mem := Mem.writeLE (wFR PBlock.none wFq).mem 0x2010 8 0xD9 }
    (let s := os { wLaunch 0 with ctxs := [(0, { loadCtx with root := 0x6000 })] } 0x40000
     ∃ g ∈ pagesOf (0x40000, 128), osPage s 0 g = .nonResident) ∧
    osVacant (os two (2 ^ 51)) [(2 ^ 51, 128)] = some (2 ^ 51) ∧ osVacant two (predRanges (wRec (2 ^ 51))) = some (2 ^ 51) ∧ osVacant two [(0x40000, 128)] = none ∧
    recFieldsOk two (wRec (2 ^ 51)) = true ∧
    (osCause run 0 [(2 ^ 40, 128)] = some 6 ∧ osCause run 0 (predRanges (wRec (2 ^ 40))) = some 6) ∧
    (osFills run 0 [(2 ^ 39, 128)] = [2 ^ 39] ∧ osCause run 0 [(2 ^ 39, 128)] = none ∧ osFills run 0 (predRanges (wRec (2 ^ 39))) = [2 ^ 39] ∧
      osCause run 0 (predRanges (wRec (2 ^ 39))) = none) ∧
    recOk run (wRec 0x50000) (osWordAt run 0) = false := by
  refine ⟨⟨0x40000, by decide, by decide⟩, by decide, by decide, by decide, by decide, by decide, by decide, by decide⟩

/-- A generator whose chain met a failed block; a fill whose generator record is bad. -/
theorem witness_generator_chain :
    (let s := ((wGen (wFR ⟨.failed, 0, none, 5, 0, [], []⟩ wFq)).updSl 1 fun x => { x with taking := some ⟨0x15, 0, 2 ^ 39 + 4096, 0, 0, false, false⟩ }).updCrew 1
       fun c => { c with chains := { Chain.init with st := .stopped, sub := 7, cause := 0x0D } :: List.replicate 3 Chain.init }
     (s.crew 1).gen = some ⟨0x100000, 15, 1, [0x100000], true, []⟩ ∧ (s.crew 1).ended = false ∧
       genTrap s 1 = some ⟨0x15, 0, 2 ^ 39 + 4096, 0, 0, false, false⟩ ∧ (∃ c ∈ (s.crew 1).chains, c.st = .stopped ∧ c.sub = 7 ∧ c.cause = 0x0D) ∧
       (blockOf (s.ctx (s.crew 1).ctx) (2 ^ 39 + 4096)).map (fun e => e.2.2) = some (2 ^ 39) ∧ ((s.ctx (s.crew 1).ctx).block (2 ^ 39)).st = .failed) ∧
    (∃ f v, fillStart { wFill with mem := Mem.clear wFill.mem 0x50000 128 } 0 15 (2 ^ 39) 0 [] [] { wRange with base := 2 ^ 39 } [6] = (.failed f, v)) := by
  refine ⟨by decide, _, _, rfl⟩

/-- Crew 1 of a span, before its crew 0 has started and after. -/
theorem witness_crew_due :
    let s := fun (b : Bool) => { w0 with
      spans := [(1, ⟨1, 0, 0, 0, 0, [], [1, 2]⟩)]
      crews := [(1, { loadCrew with started := b }), (2, { loadCrew with ix := 1, core := 1, started := false, slices := [] })] }
    (∀ b ∈ [true, false], ((s b).crew 2).started = false ∧ ((s b).crew 2).ended = false ∧ ctxRuns (s b) ((s b).crew 2).ctx = true ∧
      ((s b).crew 2).startAt ≤ ((s b).pkg (corePkg ((s b).crew 2).core)).clock ∧ ((s b).crew 2).ix ≠ 0) ∧
      crewDue (s false) 2 = false ∧ crewDue (s true) 2 = true ∧ 2 ∈ ((s false).span ((s false).crew 1).span).crews := by
  decide

theorem witness_stop_deadline :
    let s := wCtx { loadCtx with st := .stopping, stopAt := some 1401 }
    ctxQuiet s 0 = true ∧ (s.ctx 0).st = .stopping ∧ (s.pkg 0).clock < 1401 + 2 * ((s.ctx 0).drain * (100 * (s.pkg 0).clk100)) := by decide

/-- Eight Keystone records, each in its tower's own memory; one whose NLOG2 is out of its range. -/
def ksR (n t : Nat) : Nat := t * 2 ^ 37 + 2 ^ 64 * n + 2 ^ 72 * 12 + 2 ^ 80 * 10 + 2 ^ 128 * (t * 2 ^ 37 + 2 ^ 20) + 2 ^ 192 * (t * 2 ^ 37 + 2 ^ 21)
theorem witness_keystone_records :
    ((List.range 8).map (ksR 16)).length = 8 * State.reset.npkgs ∧ (∀ e ∈ ((List.range 8).map (ksR 16)).zipIdx, ksRecOk e.2 e.1 = true) ∧
      (∃ e ∈ ((List.range 8).map (ksR 15)).zipIdx, ksRecOk e.2 e.1 = false) := by
  refine ⟨by decide, by decide, (ksR 15 0, 0), by decide, by decide⟩

/-- Two slices of a unit that name one mapping and one place: the second finds the first one's effect. -/
theorem witness_unit_tiles :
    let s := wSl fun x => { x with s := [(4, 0), (5, 1), (6, 0x40000)] }
    let m := fun (j : Nat) => unitBefore g0 (stmapPre g0 (.s 4) (.s 5) (.s 6)) (fun u k => stmapDo g0 (.s 4) (.s 5) (.s 6) u u k) s j
    ((m 1).crew 1).maps.length < 8 ∧ (tagOf (m 1) 1 0).mapped = false ∧ (tagOf (m 1) 1 0).owner = .slices ∧
    (let u := s.updCrew 1 fun c => { c with maps := [⟨0, 1, 0x40000⟩], tags := [(0, ⟨.slices, true, 0, 0⟩)] }
     let f := unitBefore g0 (stunmapPre g0 (.s 4)) (fun u k => stunmapDo g0 (.s 4) u u k) u 1
     mapAt (f.crew 1) 0 = some ⟨0, 1, 0x40000⟩ ∧ mapDirty f 1 ⟨0, 1, 0x40000⟩ = false ∧ mapSends f 1 ⟨0, 1, 0x40000⟩ = []) := by
  decide

/-- Two links of a pair are used in turn. -/
theorem witness_rotation :
    let p := { Pkg.init with links := [(3, 1), (4, 2), (5, 1)], turn := [(1, 3)] }
    pairLinks p 1 = [3, 5] ∧ nextLink p 1 = some 5 ∧ nextLink { p with turn := [(1, 5)] } 1 = some 3 ∧
      nextLink { p with linkDown := [5] } 1 = some 3 ∧ nextLink p 2 = some 4 := by decide

/-- A slice that stands ready since clock 3900 stops its package's clock when it is due to be raised; a raised one, until its slot is free. -/
theorem witness_ready :
    let s := fun (since : Nat) (raised : Bool) => ({ (wIssue (fun x => { x with since := some since, raised := raised }) ⟨[[1]], [], 0, 1, 4010, []⟩) with
      pkgs := [(0, { Pkg.init with clock := 4000 })] } : State)
    ((tick (s 3900 false) 0 500).pkg 0).clock = 4157 ∧ ((tick (s 3900 false) 0 50).pkg 0).clock = 4050 ∧
      ((tick (s 0 true) 0 500).pkg 0).clock = 4010 := by decide

end Sys2Proof.Tests
end

section
/-! SUPPORT. Rules of the memory system that the statements on its events use: bytes of a little-endian store, frame bytes of a page that does
not move, what the updates of page tables and the traffic of caches leave alone. -/

namespace Sys2Proof.Machine

/-! ### Tables, byte memory, folds -/

/-- A fold of steps that each keep a reflexive and transitive relation keeps it. -/
theorem foldl_keeps {α σ : Type} {R : σ → σ → Prop} (hr : ∀ a, R a a) (ht : ∀ {a b c}, R a b → R b c → R a c) {f : σ → α → σ}
    (hf : ∀ a e, R a (f a e)) (l : List α) (a : σ) : R a (l.foldl f a) :=
  List.foldlRecOn l f (hr a) fun _ hb e _ => ht hb (hf _ e)

/-- What the step of an element brings about, and the steps after it keep, holds of every element at the end of a fold. -/
theorem foldl_reaches {α σ : Type} {R : σ → σ → Prop} (hr : ∀ a, R a a) (ht : ∀ {a b c}, R a b → R b c → R a c) {f : σ → α → σ}
    (hf : ∀ a e, R a (f a e)) {P : α → σ → Prop} (hP : ∀ e {a b}, P e a → R a b → P e b) (hs : ∀ a e, P e (f a e))
    (l : List α) (a : σ) : ∀ e ∈ l, P e (l.foldl f a) := by
  induction l generalizing a with
  | nil => simp
  | cons x l ih =>
    intro e he
    rcases List.mem_cons.mp he with rfl | he
    · exact hP e (hs a e) (foldl_keeps hr ht hf l _)
    · exact ih (f a x) e he

theorem Tbl.upd_of_find {α : Type} {t : Tbl α} {k : Nat} {v : α} (h : Tbl.find t k = some v) (f : α → α) :
    Tbl.upd t k f = Tbl.put t k (f v) := by
  simp [Tbl.upd, h]

/-- Entries changed one by one under their keys. -/
theorem Tbl.find_map_val {α β : Type} (t : Tbl α) (f : α → β) (k : Nat) :
    Tbl.find (t.map fun e => (e.1, f e.2)) k = (Tbl.find t k).map f := by
  induction t with
  | nil => rfl
  | cons e t ih =>
    obtain ⟨j, v⟩ := e
    simp only [List.map_cons, Tbl.find_cons, ih]
    split <;> rfl

theorem Tbl.mem_of_find {α : Type} {t : Tbl α} {k : Nat} {v : α} (h : Tbl.find t k = some v) : (k, v) ∈ t := by
  induction t with
  | nil => cases h
  | cons e t ih =>
    obtain ⟨j, w⟩ := e
    rw [Tbl.find_cons] at h
    split at h
    · rename_i hj
      cases h
      exact hj ▸ List.mem_cons_self
    · exact List.mem_cons_of_mem _ (ih h)

/-- Writing a table's entry back adds no entry whose key or value is new. -/
theorem Tbl.mem_put {α : Type} {t : Tbl α} {k : Nat} {x : α} {e : Nat × α} (h : e ∈ Tbl.put t k x) : e = (k, x) ∨ e ∈ t := by
  induction t with
  | nil => exact Or.inl (List.mem_singleton.mp h)
  | cons d t ih =>
    obtain ⟨j, v⟩ := d
    simp only [Tbl.put] at h
    split at h
    · exact List.mem_cons.mp h
    · split at h
      · exact (List.mem_cons.mp h).imp id (List.mem_cons_of_mem _)
      · rcases List.mem_cons.mp h with h | h
        · exact Or.inr (h ▸ List.mem_cons_self)
        · exact (ih h).imp id (List.mem_cons_of_mem _)

theorem Tbl.mem_put_self {α : Type} (t : Tbl α) (k : Nat) (x : α) : (k, x) ∈ Tbl.put t k x := by
  induction t with
  | nil => exact List.mem_singleton.mpr rfl
  | cons d t ih =>
    obtain ⟨j, v⟩ := d
    simp only [Tbl.put]
    split
    · exact List.mem_cons_self
    · split
      · exact List.mem_cons_self
      · exact List.mem_cons_of_mem _ ih

/-- The only entry that a write replaces is the one that a lookup finds. -/
theorem Tbl.mem_put_of_mem {α : Type} {t : Tbl α} {k : Nat} {x : α} {e : Nat × α} (h : e ∈ t) :
    e ∈ Tbl.put t k x ∨ (e.1 = k ∧ Tbl.find t k = some e.2) := by
  induction t with
  | nil => cases h
  | cons d t ih =>
    obtain ⟨j, v⟩ := d
    simp only [Tbl.put]
    split
    · exact Or.inl (List.mem_cons_of_mem _ h)
    · rename_i h1
      split
      · rename_i h2
        rcases List.mem_cons.mp h with rfl | h
        · exact Or.inr ⟨h2.symm, by simp [Tbl.find_cons, h2]⟩
        · exact Or.inl (List.mem_cons_of_mem _ h)
      · rename_i h2
        rcases List.mem_cons.mp h with rfl | h
        · exact Or.inl List.mem_cons_self
        · refine (ih h).imp (List.mem_cons_of_mem _) fun hk => ⟨hk.1, ?_⟩
          rw [Tbl.find_cons, if_neg fun e => h2 e.symm]
          exact hk.2

theorem Mem.readN_eq_map (m : Mem) (a n : Nat) : Mem.readN m a n = (List.range n).map fun j => Mem.read m (a + j) := by
  induction n generalizing a with
  | zero => rfl
  | succ n ih =>
    rw [Mem.readN, ih, List.range_succ_eq_map, List.map_cons, List.map_map]
    simp only [Nat.add_zero, List.cons.injEq, true_and]
    exact List.map_congr_left fun j _ => by rw [Function.comp, Nat.succ_eq_add_one, show a + 1 + j = a + (j + 1) by omega]

theorem getD_natBytes {n j : Nat} (x : Nat) (h : j < n) : (natBytes n x).getD j 0 = BitVec.ofNat 8 (x / 256 ^ j) := by
  induction n generalizing x j with
  | zero => omega
  | succ n ih =>
    cases j with
    | zero => simp [natBytes]
    | succ j =>
      rw [natBytes, List.getD_cons_succ, ih _ (by omega), Nat.div_div_eq_div_mul, Nat.pow_succ, Nat.mul_comm]

/-- A little-endian store, byte by byte. -/
theorem Mem.read_writeLE (m : Mem) (a n x c : Nat) : Mem.read (Mem.writeLE m a n x) c =
    if a ≤ c ∧ c < a + n then BitVec.ofNat 8 (x / 256 ^ (c - a)) else Mem.read m c := by
  rw [Mem.writeLE, Mem.read_writeN, length_natBytes]
  split
  · exact getD_natBytes x (by omega)
  · rfl

/-! ### Frames (R43) -/

theorem physRead_unmoved {s : State} {k : Nat} (h : migAt s k = none) : physRead s k = Mem.read s.mem k := by
  rw [physRead, h]

theorem physWrite_unmoved {s : State} {k : Nat} (h : migAt s k = none) (b : Byte) :
    physWrite s k b = { s with mem := Mem.write s.mem k b } := by
  rw [physWrite, h]

/-- Bytes written one by one in a frame that does not move. -/
theorem physBytes_unmoved (s : State) (k n : Nat) (bs : List Byte) (h : ∀ j, j < n + bs.length → migAt s (k + j) = none) :
    (bs.zipIdx n).foldl (fun s e => physWrite s (k + e.2) e.1) s = { s with mem := Mem.writeN s.mem (k + n) bs } := by
  induction bs generalizing s n with
  | nil => rfl
  | cons b bs ih =>
    rw [List.length_cons] at h
    rw [List.zipIdx_cons, List.foldl_cons, physWrite_unmoved (h n (by omega)), ih]
    · rfl
    · exact fun j hj => h j (by omega)

theorem physPut_unmoved {s : State} {k n : Nat} (h : ∀ j, j < n → migAt s (k + j) = none) (v : Nat) :
    physPut s k n v = { s with mem := Mem.writeLE s.mem k n v } :=
  physBytes_unmoved s k 0 (natBytes n v) fun j hj => h j (by simpa using hj)

theorem physLE_unmoved {s : State} {k n : Nat} (h : ∀ j, j < n → migAt s (k + j) = none) : physLE s k n = Mem.readLE s.mem k n := by
  rw [physLE, Mem.readLE, Mem.readN_eq_map]
  exact congrArg bytesNat (List.map_congr_left fun j hj => physRead_unmoved (h j (List.mem_range.mp hj)))

theorem physWriteLine_unmoved {s : State} {k : Nat} (h : migAt s k = none) (bytes : List Byte) :
    physWriteLine s k bytes = { s with mem := Mem.writeN s.mem k bytes, poison := s.poison.filter (· != k / 256) } := by
  rw [physWriteLine, h]

/-! ### Page tables and the TLB -/

/-- What a walk reads is the same in both states. -/
structure SameTables (s t : State) : Prop where
  pkgs : t.pkgs = s.pkgs
  towers : t.towers = s.towers
  ctxs : t.ctxs = s.ctxs
  mem : t.mem = s.mem
  migs : t.migs = s.migs
  freeIx : t.freeIx = s.freeIx

section
variable {s t : State} (h : SameTables s t)
include h

theorem SameTables.readPte (pkg va level a : Nat) : readPte t pkg va level a = readPte s pkg va level a := by
  simp only [Machine.readPte, physLE, physRead, migAt, State.tower, h.towers, h.mem, h.migs, h.freeIx]

theorem SameTables.walkFrom (pkg va n tbl : Nat) : walkFrom t pkg va n tbl = walkFrom s pkg va n tbl := by
  induction n generalizing tbl with
  | zero => rfl
  | succ n ih =>
    have hp : t.pkg pkg = s.pkg pkg := by simp only [State.pkg, h.pkgs]
    rw [Machine.walkFrom, Machine.walkFrom, hp, h.readPte]
    simp only [ih]

theorem SameTables.walkTable (ctx va : Nat) : walkTable t ctx va = walkTable s ctx va := by
  simp only [Machine.walkTable, State.ctx, h.ctxs, h.walkFrom]

theorem SameTables.walk (ctx va : Nat) : walk t ctx va = walk s ctx va := by
  simp only [Machine.walk, tlbFind, State.tower, h.towers, h.freeIx, h.walkTable]

end
theorem walkTable_log (s : State) (n : String) (l : List Nat) (ctx va : Nat) : walkTable (s.log n l) ctx va = walkTable s ctx va :=
  have h : SameTables s (s.log n l) := ⟨rfl, rfl, rfl, rfl, rfl, rfl⟩
  h.walkTable ctx va

theorem walkTable_clrReqs (s : State) (x : Tbl ClrReq) (ctx va : Nat) : walkTable { s with clrReqs := x } ctx va = walkTable s ctx va :=
  have h : SameTables s { s with clrReqs := x } := ⟨rfl, rfl, rfl, rfl, rfl, rfl⟩
  h.walkTable ctx va

theorem walk_writeBacks (s : State) (x : Tbl WBack) (ctx va : Nat) : walk { s with writeBacks := x } ctx va = walk s ctx va :=
  have h : SameTables s { s with writeBacks := x } := ⟨rfl, rfl, rfl, rfl, rfl, rfl⟩
  h.walk ctx va

/-- Only frames and what a migration has brought over differ. -/
structure FramesOnly (s t : State) : Prop where
  rest : { t with mem := s.mem, poison := s.poison, migs := s.migs } = s

theorem FramesOnly.refl (s : State) : FramesOnly s s := ⟨rfl⟩

theorem FramesOnly.trans {s t u : State} (h1 : FramesOnly s t) (h2 : FramesOnly t u) : FramesOnly s u := by
  refine ⟨?_⟩
  have a := h1.rest
  have b := h2.rest
  rw [← a, ← b]

theorem FramesOnly.slices {s t : State} (h : FramesOnly s t) : t.slices = s.slices := by
  rw [← h.rest]
theorem FramesOnly.crews {s t : State} (h : FramesOnly s t) : t.crews = s.crews := by
  rw [← h.rest]

theorem framePull_framesOnly (s : State) (k : Nat) : FramesOnly s (framePull s k) := by
  unfold framePull
  split
  · exact FramesOnly.refl s
  · unfold migPull
    split
    · exact FramesOnly.refl s
    · exact ⟨rfl⟩

theorem physWrite_framesOnly (s : State) (k : Nat) (b : Byte) : FramesOnly s (physWrite s k b) := by
  unfold physWrite
  split
  · exact ⟨rfl⟩
  · exact (framePull_framesOnly s k).trans ⟨rfl⟩

theorem physPut_framesOnly (s : State) (k n v : Nat) : FramesOnly s (physPut s k n v) :=
  foldl_keeps (α := Byte × Nat) FramesOnly.refl FramesOnly.trans (fun t e => physWrite_framesOnly t (k + e.2) e.1) _ s

theorem updLeaves_framesOnly (s : State) (ctx va : Nat) (f : DWord → DWord) : FramesOnly s (updLeaves s ctx va f) := by
  unfold updLeaves
  dsimp only
  split
  · exact FramesOnly.refl s
  · exact foldl_keeps FramesOnly.refl FramesOnly.trans (fun t k => physPut_framesOnly t _ 8 _) _ s

theorem setAD_framesOnly (s : State) (ctx va : Nat) (a : Answer) : FramesOnly s (setAD s ctx va a) := by
  unfold setAD
  split
  · exact updLeaves_framesOnly s ctx va _
  · exact FramesOnly.refl s

@[simp] theorem tlbFill_slices (s : State) (ctx va : Nat) : (tlbFill s ctx va).slices = s.slices := by
  unfold tlbFill
  split <;> rfl
@[simp] theorem tlbFill_crews (s : State) (ctx va : Nat) : (tlbFill s ctx va).crews = s.crews := by
  unfold tlbFill
  split <;> rfl

/-- Clearing an access moves no slice to another core. -/
theorem coreOf_cleared (s : State) (ctx va : Nat) (a : Answer) (i : Nat) : (setAD (tlbFill s ctx va) ctx va a).coreOf i = s.coreOf i := by
  have h := setAD_framesOnly (tlbFill s ctx va) ctx va a
  have h1 := h.slices.trans (tlbFill_slices s ctx va)
  have h2 := h.crews.trans (tlbFill_crews s ctx va)
  simp only [State.coreOf, State.crewOf, State.crew, State.sl, h1, h2]

/-- No entry covers the page. -/
theorem updLeaves_none {s : State} {ctx va : Nat} (h : leafAddr s (vaPkg va) va 5 (s.ctx ctx).root = none) (f : DWord → DWord) :
    updLeaves s ctx va f = s := by
  rw [updLeaves, h]

/-- The page of 4 KiB has one entry, at an aligned address; its frame does not move. -/
theorem updLeaves_page {s : State} {ctx va a : Nat} (h : leafAddr s (vaPkg va) va 5 (s.ctx ctx).root = some (0, a))
    (ha : a % 8 = 0) (hm : ∀ n, n < 8 → migAt s (physKey (vaPkg va) a + n) = none)
    (hs : leafSize 0 (BitVec.ofNat 64 (Mem.readLE s.mem (physKey (vaPkg va) a) 8)) = some 4096) (f : DWord → DWord) :
    updLeaves s ctx va f = { s with
      mem := Mem.writeLE s.mem (physKey (vaPkg va) a) 8 (f (BitVec.ofNat 64 (Mem.readLE s.mem (physKey (vaPkg va) a) 8))).toNat } := by
  rw [updLeaves, h]
  dsimp only
  rw [physLE_unmoved hm, hs]
  simp only [Option.getD_some, Nat.mul_zero, Nat.add_zero, Nat.reducePow, Nat.reduceDiv, List.range_one, List.foldl_cons, List.foldl_nil]
  rw [show a / (8 * 1) * (8 * 1) = a by omega, physLE_unmoved hm, physPut_unmoved hm]

/-! ### Traffic of caches: packets, banks -/

/-- Only what Viaduct carries, what cores and clusters hold of it, and the clocks of banks differ. -/
structure TrafficOnly (s t : State) : Prop where
  rest : { t with
    cores := s.cores
    clusters := s.clusters
    packets := s.packets
    banks := s.banks
    bankClock := s.bankClock
    nextId := s.nextId } = s

theorem TrafficOnly.refl (s : State) : TrafficOnly s s := ⟨rfl⟩

theorem TrafficOnly.trans {s t u : State} (h1 : TrafficOnly s t) (h2 : TrafficOnly t u) : TrafficOnly s u := by
  refine ⟨?_⟩
  have a := h1.rest
  have b := h2.rest
  rw [← a, ← b]

section
variable {s t : State} (h : TrafficOnly s t)
include h
theorem TrafficOnly.mem : t.mem = s.mem := by rw [← h.rest]
theorem TrafficOnly.stash : t.stash = s.stash := by rw [← h.rest]
theorem TrafficOnly.llcData : t.llcData = s.llcData := by rw [← h.rest]
theorem TrafficOnly.l2 : t.l2 = s.l2 := by rw [← h.rest]
theorem TrafficOnly.l2Data : t.l2Data = s.l2Data := by rw [← h.rest]
theorem TrafficOnly.writeBacks : t.writeBacks = s.writeBacks := by rw [← h.rest]
theorem TrafficOnly.crews : t.crews = s.crews := by rw [← h.rest]
theorem TrafficOnly.migs : t.migs = s.migs := by rw [← h.rest]
theorem TrafficOnly.poison : t.poison = s.poison := by rw [← h.rest]
end

theorem touchBank_traffic (s : State) (pkg bank : Nat) : TrafficOnly s (touchBank s pkg bank) := by
  unfold touchBank
  dsimp only
  split <;> exact ⟨rfl⟩

theorem TrafficOnly.fresh (s : State) : TrafficOnly s s.fresh := ⟨rfl⟩
theorem TrafficOnly.setPackets (s : State) (x : Tbl Pkt) : TrafficOnly s { s with packets := x } := ⟨rfl⟩
theorem TrafficOnly.updCore (s : State) (i : Nat) (f : Core → Core) : TrafficOnly s (s.updCore i f) := ⟨rfl⟩
theorem TrafficOnly.updCluster (s : State) (i : Nat) (f : Cluster → Cluster) : TrafficOnly s (s.updCluster i f) := ⟨rfl⟩

theorem enqueue_traffic (s : State) (k : Nat) (p : Pkt) (now : Nat) : TrafficOnly s (enqueue s k p now) :=
  (TrafficOnly.fresh s).trans (TrafficOnly.setPackets s.fresh _)

theorem letIn_traffic (s : State) (k : Nat) (p : Pkt) : TrafficOnly s (letIn s k p) :=
  (enqueue_traffic s k _ _).trans (TrafficOnly.updCore _ _ _)

theorem busUnit_traffic (s : State) (dest va flits : Nat) : TrafficOnly s (busUnit s dest va flits) :=
  (TrafficOnly.fresh s).trans (enqueue_traffic _ _ _ _)

theorem sendCluster_traffic (s : State) (cl va : Nat) : TrafficOnly s (sendCluster s cl va) :=
  (TrafficOnly.fresh s).trans (enqueue_traffic _ _ _ _)

theorem sendHome_traffic (s : State) (cl cls va flits : Nat) : TrafficOnly s (sendHome s cl cls va flits) := by
  unfold sendHome
  dsimp only
  split
  · exact (TrafficOnly.fresh s).trans (letIn_traffic _ _ _)
  · exact ((TrafficOnly.fresh s).trans (TrafficOnly.setPackets _ _)).trans (TrafficOnly.updCluster _ _ _)

theorem migAt_of_migs {s t : State} (h : t.migs = s.migs) (k : Nat) : migAt t k = migAt s k := by
  simp only [migAt, h]

theorem stashAt_of_crews {s t : State} (h : t.crews = s.crews) (ctx va : Nat) : stashAt t ctx va = stashAt s ctx va := by
  simp only [stashAt, h]

theorem tagOf_of_crews {s t : State} (h : t.crews = s.crews) (crew tile : Nat) : tagOf t crew tile = tagOf s crew tile := by
  simp only [tagOf, State.crew, h]

end Sys2Proof.Machine
end

section
/-! PROOF. The parts of accesses (O50): when the event of a part performs it, what one part of each kind does, and what a remote part does at its
target (R123, R124, R126, R208, R212, R217). -/

namespace Sys2Proof.Machine

/-! ### The event of a part -/

/-- What must come before the event of a part is performed. -/
def partDue (s : State) (i k p : Nat) (a : Acc) (q : Piece) : Bool :=
  pieceReady s i k a q && (eventPieces s i k p a q).all (partReady s)

/-- A part's event is the one of its access's kind: a read, a store or an atomic at its home, a reduction at memory (R36, R37). -/
theorem homeEvents_of {s t : State} {i k p : Nat} {a : Acc} (h : ∀ ok : Acc → Bool, ok a = true → pieceEvent ok s i k p = t) :
    (a.kind = .load ∨ a.kind = .mapLoad → exec (.homeReadRequest i k p) s = .next t) ∧
    (a.kind = .store ∨ a.kind = .mapStore ∨ a.kind = .cas ∨ (∃ op ty, a.kind = .atom op ty ∨ a.kind = .red op ty) →
      exec (.homeStoreRequest i k p) s = .next t) ∧
    (∀ op ty, a.kind = .nmred op ty → exec (.nearMemoryReduction i k p) s = .next t) := by
  refine ⟨fun hk => congrArg Host.Outcome.next (h _ ?_), fun hk => congrArg Host.Outcome.next (h _ ?_),
    fun op ty hk => congrArg Host.Outcome.next (h _ ?_)⟩
  · rcases hk with hk | hk <;> simp [hk]
  · rcases hk with hk | hk | hk | ⟨op, ty, hk | hk⟩ <;> simp [Acc.isLoad, Acc.remote, hk]
  · simp [hk]

section
variable {s : State} {i k p : Nat} {a : Acc} {q : Piece} (ha : Tbl.find (s.sl i).accs k = some a) (hq : a.pieces[p]? = some q)
include ha hq

theorem pieceEvent_eq (ok : Acc → Bool) : pieceEvent ok s i k p =
    if ok a && !q.done && vacantAt s q.va then parkVacant s (.part i k p) (corePkg (s.coreOf i)) q.va
    else if ok a && !q.done && partDue s i k p a q then (eventPieces s i k p a q).foldl (fun s e => performPiece s e.1 e.2.1 e.2.2) s
    else s := by
  simp only [pieceEvent, ha, hq, partDue, Bool.and_assoc]

/-- A part that is performed, or that something else must come before, has no event. -/
theorem pieceEvent_idle (ok : Acc → Bool) (h : q.done = true ∨ partDue s i k p a q = false ∧ vacantAt s q.va = false) :
    pieceEvent ok s i k p = s := by
  rw [pieceEvent_eq ha hq]
  rcases h with h | ⟨h1, h2⟩
  · simp [h]
  · simp [h1, h2]

theorem pieceEvent_parks {ok : Acc → Bool} (hok : ok a = true) (hd : q.done = false) (hv : vacantAt s q.va = true) :
    pieceEvent ok s i k p = parkVacant s (.part i k p) (corePkg (s.coreOf i)) q.va := by
  rw [pieceEvent_eq ha hq]
  simp [hok, hd, hv]

theorem pieceEvent_performs {ok : Acc → Bool} (hok : ok a = true) (hd : q.done = false) (hv : vacantAt s q.va = false)
    (hp : partDue s i k p a q = true) :
    pieceEvent ok s i k p = (eventPieces s i k p a q).foldl (fun s e => performPiece s e.1 e.2.1 e.2.2) s := by
  rw [pieceEvent_eq ha hq]
  simp [hok, hd, hv, hp]

theorem homeEvents_idle (h : q.done = true ∨ partDue s i k p a q = false ∧ vacantAt s q.va = false) :
    exec (.homeReadRequest i k p) s = .next s ∧ exec (.homeStoreRequest i k p) s = .next s ∧
      exec (.nearMemoryReduction i k p) s = .next s :=
  have h' := fun ok => congrArg Host.Outcome.next (pieceEvent_idle ha hq ok h)
  ⟨h' _, h' _, h' _⟩

/-! ### One part -/

theorem performPiece_load (hd : q.done = false) (hk : a.kind = .load) : performPiece s i k p = performLoad s i k p a q := by
  simp [performPiece, ha, hq, hd, hk]

theorem performPiece_store (hd : q.done = false) (hk : a.kind = .store) : performPiece s i k p = performStore s i k p a q := by
  simp [performPiece, ha, hq, hd, hk]

theorem performPiece_nmred {op : AtomOp} {t : Ty} (hd : q.done = false) (hk : a.kind = .nmred op t) :
    performPiece s i k p = performNmred s i k p a q := by
  simp [performPiece, ha, hq, hd, hk]

theorem performPiece_atom (hd : q.done = false) (hk : a.kind = .cas ∨ ∃ op t, a.kind = .atom op t ∨ a.kind = .red op t) :
    performPiece s i k p = performAtom s i k p a q := by
  rcases hk with hk | ⟨op, t, hk | hk⟩ <;> simp [performPiece, ha, hq, hd, hk]

end

theorem performLoad_clean {s : State} {i k p : Nat} {a : Acc} {q : Piece} (h : poisoned s a.ctx q.va = false) :
    performLoad s i k p a q =
      finishPiece (cacheRead s (placeAt s (coreCluster (s.coreOf i)) a.ctx q.va a.ch .read) (coreCluster (s.coreOf i)) a.ctx q.va a.ch) i k p
        (loadVal s i k a q) 0 := by
  simp [performLoad, finishLoad, h]

theorem performLoad_poisoned {s : State} {i k p : Nat} {a : Acc} {q : Piece} (h : poisoned s a.ctx q.va = true) :
    performLoad s i k p a q = recordPoison
      (finishPiece (cacheRead s (placeAt s (coreCluster (s.coreOf i)) a.ctx q.va a.ch .read) (coreCluster (s.coreOf i)) a.ctx q.va a.ch) i k p
        (Config.freeNat s.freeIx % 256 ^ q.n) 0) i k a q := by
  simp [performLoad, finishLoad, h]

/-- The new value of a read-modify-write of `n` bytes, and the flags that it raises (R316). -/
def atomValue (op : AtomOp) (t : Ty) (n data old : Nat) : Nat := (atomNew op t (BitVec.ofNat 64 old) (BitVec.ofNat 64 data)).1.toNat % 256 ^ n
def atomFlags (op : AtomOp) (t : Ty) (data old : Nat) : Flags := (atomNew op t (BitVec.ofNat 64 old) (BitVec.ofNat 64 data)).2

theorem combine_atom {kind : AccKind} {op : AtomOp} {t : Ty} (h : kind = .atom op t ∨ kind = .red op t ∨ kind = .nmred op t) (old : Nat)
    (q : Piece) : combine kind old q = ((atomValue op t q.n q.data old, atomFlags op t q.data old), true) := by
  rcases h with rfl | rfl | rfl <;> rfl

/-- An atomic or a RED whose data is not poisoned writes the combined value where it is performed. -/
theorem performAtom_combines {s : State} {i k p : Nat} {a : Acc} {q : Piece} {op : AtomOp} {t : Ty}
    (h : poisoned s a.ctx q.va = false) (hk : a.kind = .atom op t ∨ a.kind = .red op t) :
    performAtom s i k p a q = finishPiece
      (writeLoc s (placeAt s (coreCluster (s.coreOf i)) a.ctx q.va a.ch .rmw) (coreCluster (s.coreOf i)) a.ctx q.va
        (natBytes q.n (atomValue op t q.n q.data (curLE s a.ctx q.va q.n))) a.ch) i k p (curLE s a.ctx q.va q.n)
      (atomFlags op t q.data (curLE s a.ctx q.va q.n)) := by
  have hc := combine_atom (hk.imp id Or.inl) (curLE s a.ctx q.va q.n) q
  simp [performAtom, h, hc]

/-- A CAS writes where the old value matches, and obtains the line where it does not (R318). -/
theorem performAtom_cas {s : State} {i k p : Nat} {a : Acc} {q : Piece} (h : poisoned s a.ctx q.va = false) (hk : a.kind = .cas) :
    performAtom s i k p a q = finishPiece
      (if curLE s a.ctx q.va q.n = q.data then
        writeLoc s (placeAt s (coreCluster (s.coreOf i)) a.ctx q.va a.ch .rmw) (coreCluster (s.coreOf i)) a.ctx q.va (natBytes q.n q.new) a.ch
      else obtainLoc s (placeAt s (coreCluster (s.coreOf i)) a.ctx q.va a.ch .rmw) (coreCluster (s.coreOf i)) a.ctx q.va a.ch) i k p
      (curLE s a.ctx q.va q.n) 0 := by
  simp [performAtom, h, hk, combine]

theorem performNmred_combines {s : State} {i k p : Nat} {a : Acc} {q : Piece} {op : AtomOp} {t : Ty} (hk : a.kind = .nmred op t) :
    performNmred s i k p a q = finishPiece (reduceAt s a.ctx q.va q.n (atomValue op t q.n q.data)) i k p 0 0 := by
  unfold performNmred
  simp only [combine_atom (Or.inr (Or.inr hk))]

/-! ### Remote parts (R123, R124) -/

theorem remoteEvent {s t : State} {i k p : Nat} (h : remoteAccess s i k p = t) : exec (.remoteStashAccess i k p) s = .next t :=
  congrArg Host.Outcome.next h

theorem remote_of_kind {a : Acc} (h : a.kind = .remLoad ∨ a.kind = .remStore) : a.remote = true := by
  rcases h with h | h <;> simp [Acc.remote, h]
theorem isLoad_of_remLoad {a : Acc} (h : a.kind = .remLoad) : a.isLoad = true := by simp [Acc.isLoad, h]
theorem not_isLoad_of_remStore {a : Acc} (h : a.kind = .remStore) : ¬ a.isLoad = true := by simp [Acc.isLoad, h]

section
variable {s : State} {i k p : Nat} {a : Acc} {q : Piece} (ha : Tbl.find (s.sl i).accs k = some a) (hq : a.pieces[p]? = some q)
include ha hq

theorem remoteAccess_idle (h : q.done = true ∨ pieceReady s i k a q = false) : remoteAccess s i k p = s := by
  rcases h with h | h <;> simp [remoteAccess, ha, hq, h]

variable (hd : q.done = false) (hp : pieceReady s i k a q = true)
include hd hp

/-- No crew of the span on the target core. -/
theorem remoteAccess_noCrew (hk : a.remote = true) (hc : crewOnCore s (s.crewOf i).span (remTarget q.va) = none) :
    remoteAccess s i k p = remoteFail s i k p a q cLocalRange q.va := by
  simp [remoteAccess, ha, hq, hd, hp, hk, hc]

variable {c : Nat} (hc : crewOnCore s (s.crewOf i).span (remTarget q.va) = some c)
include hc

theorem remoteAccess_beyond (hk : a.remote = true) (ht : (s.crew c).tiles ≤ q.va % 2 ^ 19 / 1024) :
    remoteAccess s i k p = remoteFail s i k p a q cLocalRange q.va := by
  simp only [remoteAccess, ha, hq, hd, hp, hk, hc, if_pos ht, Bool.not_true, Bool.or_false, Bool.false_eq_true, if_false]

variable (ht : q.va % 2 ^ 19 / 1024 < (s.crew c).tiles)
include ht

/-- A tile that an engine owns: a read waits for it, a store fails. -/
theorem remoteAccess_engine (hk : a.remote = true) (ho : (tagOf s c (q.va % 2 ^ 19 / 1024)).owner ≠ .slices) :
    remoteAccess s i k p = if a.isLoad then s else remoteFail s i k p a q cOwner q.va := by
  have ho' : ((tagOf s c (q.va % 2 ^ 19 / 1024)).owner != .slices) = true := by simpa using ho
  simp only [remoteAccess, ha, hq, hd, hp, hk, hc, if_neg (Nat.not_le.mpr ht), ho', Bool.not_true, Bool.or_false, Bool.false_eq_true,
    if_false, if_true]

variable (ho : (tagOf s c (q.va % 2 ^ 19 / 1024)).owner = .slices)
include ho

theorem remoteAccess_plain (hk : a.remote = true) (hm : mappedVa s c (q.va % 2 ^ 19) = none) :
    remoteAccess s i k p =
      if a.isLoad then finishPiece s i k p (Mem.readLE s.stash (c * 2 ^ 19 + q.va % 2 ^ 19) q.n) 0
      else finishPiece { s with stash := Mem.writeLE s.stash (c * 2 ^ 19 + q.va % 2 ^ 19) q.n q.data } i k p 0 0 := by
  simp only [remoteAccess, ha, hq, hd, hp, hk, hc, if_neg (Nat.not_le.mpr ht), ho, hm, Bool.not_true, Bool.or_false, Bool.false_eq_true,
    if_false, bne_self_eq_false]

theorem remoteAccess_mapped {va : Nat} (hk : a.remote = true) (hm : mappedVa s c (q.va % 2 ^ 19) = some va) :
    remoteAccess s i k p = remoteMapped s i k p a q c va := by
  simp only [remoteAccess, ha, hq, hd, hp, hk, hc, if_neg (Nat.not_le.mpr ht), ho, hm, Bool.not_true, Bool.or_false, Bool.false_eq_true,
    if_false, bne_self_eq_false]

end

/-! ### Remote parts in mapped tiles (R126, log 80) -/

/-- What a remote access asks of the page of mapped bytes. -/
def remoteRight (a : Acc) : Right := if a.isLoad then .read else .write

theorem remoteRight_of_kind {a : Acc} (h : a.kind = .remLoad ∨ a.kind = .remStore) :
    remoteRight a = if a.kind = .remLoad then .read else .write := by
  rcases h with h | h <;> simp [remoteRight, Acc.isLoad, h]

section
variable {s : State} {i k p : Nat} {a : Acc} {q : Piece} {c va : Nat}

theorem remoteMapped_vacant (hv : vacantAt s va = true) :
    remoteMapped s i k p a q c va = parkVacant s (.part i k p) (corePkg (s.coreOf i)) va := by
  simp [remoteMapped, hv]

/-- It waits behind a downgrade of the page and for the ways of its L2 slice. -/
theorem remoteMapped_waits (hv : vacantAt s va = false)
    (hw : closingFor s a.ctx va (remoteRight a) = true ∨ (s.cluster (coreCluster (s.coreOf i))).raising ≠ none) :
    remoteMapped s i k p a q c va = s := by
  have hw' : (closingFor s a.ctx va (remoteRight a) || (s.cluster (coreCluster (s.coreOf i))).raising.isSome) = true := by
    rcases hw with h | h
    · simp [h]
    · simp [Option.isSome_iff_ne_none.mpr h]
  simp only [remoteMapped, hv, Bool.false_eq_true, if_false]
  exact if_pos hw'

variable (hv : vacantAt s va = false) (hc : closingFor s a.ctx va (remoteRight a) = false)
  (hr : (s.cluster (coreCluster (s.coreOf i))).raising = none) (hh : walkTable s a.ctx va ≠ .hole)
  {b n : Nat} {r : Right} {w : Bool} (hg : ownerAnswer s a.ctx va (remoteRight a) (s.crewOf i).gen = .grant b n r w)
include hv hc hr hh hg

/-- Cleared by the owner of the page, the access goes on at the address that the bytes stand for. -/
theorem remoteMapped_granted :
    remoteMapped s i k p a q c va =
      let u := setAD (tlbFill s a.ctx va) a.ctx va (.grant b n r w)
      if a.isLoad then (remoteWaits u i k p a c va).getD (remoteRead u i k p a q c va)
      else finishPiece (storeMapped u c (coreCluster (s.coreOf i)) a.ctx va (natBytes q.n q.data) a.ch) i k p 0 0 := by
  have hh' : (walkTable s a.ctx va == .hole) = false := by simpa using hh
  unfold remoteRight at hc hg
  simp only [remoteMapped, hv, hc, hr, hh', hg, Option.isSome_none, Bool.or_false, Bool.false_eq_true, if_false]

theorem remoteMapped_store (hl : a.isLoad = false) :
    remoteMapped s i k p a q c va = finishPiece (storeMapped (setAD (tlbFill s a.ctx va) a.ctx va (.grant b n r w)) c
      (coreCluster (s.coreOf i)) a.ctx va (natBytes q.n q.data) a.ch) i k p 0 0 := by
  rw [remoteMapped_granted hv hc hr hh hg]
  simp [hl]

/-- A page that is not procedural is read at once. -/
theorem remoteMapped_load (hl : a.isLoad = true)
    (hi : isProc (setAD (tlbFill s a.ctx va) a.ctx va (.grant b n r w)) a.ctx va = false)
    (hp : poisoned (setAD (tlbFill s a.ctx va) a.ctx va (.grant b n r w)) a.ctx va = false) :
    remoteMapped s i k p a q c va =
      let u := setAD (tlbFill s a.ctx va) a.ctx va (.grant b n r w)
      finishPiece (readMapped u c (coreCluster (s.coreOf i)) a.ctx va a.ch) i k p (curLE u a.ctx va q.n) 0 := by
  rw [remoteMapped_granted hv hc hr hh hg]
  have hco := coreOf_cleared s a.ctx va (.grant b n r w) i
  simp [hl, remoteWaits, remoteRead, hi, hp, hco]

end

/-! ### Results (R142) -/

/-- The slice once the result at place `n` of those that are ready has reached its register. -/
def landed (x : Slice) (n : Nat) (r : Land) : Slice :=
  { landIn x r.dst r.val with
    ready := x.ready.eraseIdx n
    outst := if Tbl.findD x.outst r.id 0 - 1 = 0 then Tbl.del x.outst r.id else Tbl.put x.outst r.id (Tbl.findD x.outst r.id 0 - 1) }

/-- A result lands in its slice; the last one of its instruction frees a place at a function unit of the slice's core. -/
theorem resultWriteback_slots {s : State} {i n : Nat} {r : Land} (h : (s.sl i).ready[n]? = some r) :
    SlotFrame (s.setSl i (landed (s.sl i) n r)) (resultWriteback s i n) := by
  have he : resultWriteback s i n =
      if Tbl.findD (s.sl i).outst r.id 0 - 1 = 0 then
        (s.setSl i (landed (s.sl i) n r)).updCore (s.coreOf i) fun c =>
          { c with slots := c.slots.map fun t => { t with sfu := t.sfu.filter (· != r.id) } }
      else s.setSl i (landed (s.sl i) n r) := by
    simp only [resultWriteback, h]
    rfl
  rw [he]
  split
  · exact SlotFrame.setCore _ _ _
  · exact SlotFrame.refl _

theorem SlotFrame.cur {s t : State} (h : SlotFrame s t) : t.cur = s.cur := by
  rw [← h.rest]

/-- Apart from the unit that holds the issue, a frame of issue slots is one of slots only. -/
theorem SlotFrame.slotsOnly {s t : State} (h : SlotFrame s t) : SlotsOnly { s with cur := t.cur } { t with cur := [] } :=
  ⟨h.cores, congrArg (fun u : State => { u with cur := t.cur }) h.rest, rfl⟩

/-! ### The events -/

/-- Settles O50, clause by clause from the rule of one part's event and the rules of one part of each kind. -/
theorem accessEvents : Obligations.AccessEvents := by
  unfold Obligations.AccessEvents
  intro s i k p a q ha hq ev cl at_ old comb raised put due
  refine ⟨homeEvents_idle ha hq, fun h => remoteEvent (remoteAccess_idle ha hq h), fun hd hv => ?_, fun hd hp hv => ?_,
    fun hd hp hk hc => ?_, fun c hd hp hc => ?_, fun n r hr => ?_⟩
  · exact homeEvents_of fun ok hok => pieceEvent_parks ha hq hok hd hv
  · obtain ⟨hload, hstore, hnm⟩ := homeEvents_of fun ok hok => pieceEvent_performs ha hq hok hd hv hp
    refine ⟨hload, hstore, hnm, fun hone => ?_⟩
    rw [hone] at hload hstore hnm
    simp only [List.foldl_cons, List.foldl_nil] at hload hstore hnm
    refine ⟨fun hk hbad => ?_, fun hk hbad => ⟨Config.freeNat s.freeIx % 256 ^ q.n, ?_⟩, fun hk => ?_,
      fun hbad => ⟨fun op t hk => ?_, fun hk => ?_⟩, fun op t hk => ?_⟩
    · rw [performPiece_load ha hq hd hk, performLoad_clean hbad] at hload
      exact hload (Or.inl hk)
    · rw [performPiece_load ha hq hd hk, performLoad_poisoned hbad] at hload
      exact hload (Or.inl hk)
    · rw [performPiece_store ha hq hd hk] at hstore
      exact hstore (Or.inl hk)
    · rw [performPiece_atom ha hq hd (Or.inr ⟨op, t, hk⟩), performAtom_combines hbad hk] at hstore
      exact hstore (Or.inr (Or.inr (Or.inr ⟨op, t, hk⟩)))
    · rw [performPiece_atom ha hq hd (Or.inl hk), performAtom_cas hbad hk] at hstore
      exact hstore (Or.inr (Or.inr (Or.inl hk)))
    · rw [performPiece_nmred ha hq hd hk, performNmred_combines hk] at hnm
      exact hnm op t hk
  · exact remoteEvent (remoteAccess_noCrew ha hq hd hp (remote_of_kind hk) hc)
  · intro off
    refine ⟨fun ht hk => remoteEvent (remoteAccess_beyond ha hq hd hp hc (remote_of_kind hk) ht), fun ht ho => ⟨fun hk => ?_, fun hk => ?_⟩,
      fun ht ho hm => ⟨fun hk => ?_, fun hk => ?_⟩, fun va ht ho hm hk => ?_⟩
    · exact remoteEvent ((remoteAccess_engine ha hq hd hp hc ht (remote_of_kind (Or.inl hk)) ho).trans (if_pos (isLoad_of_remLoad hk)))
    · exact remoteEvent ((remoteAccess_engine ha hq hd hp hc ht (remote_of_kind (Or.inr hk)) ho).trans (if_neg (not_isLoad_of_remStore hk)))
    · exact remoteEvent ((remoteAccess_plain ha hq hd hp hc ht ho (remote_of_kind (Or.inl hk)) hm).trans (if_pos (isLoad_of_remLoad hk)))
    · refine ⟨_, remoteEvent ((remoteAccess_plain ha hq hd hp hc ht ho (remote_of_kind (Or.inr hk)) hm).trans
        (if_neg (not_isLoad_of_remStore hk))), rfl, rfl, fun x => ?_⟩
      exact Mem.read_writeLE s.stash (c * 2 ^ 19 + off) q.n q.data x
    · have hmap := remoteAccess_mapped ha hq hd hp hc ht ho (remote_of_kind hk) hm
      intro r
      rw [show r = remoteRight a from (remoteRight_of_kind hk).symm]
      refine ⟨fun hv => remoteEvent (hmap.trans (remoteMapped_vacant hv)), fun hv hw => remoteEvent (hmap.trans (remoteMapped_waits hv hw)),
        fun hv hcl hra hh b n r' g hg => ⟨fun hl hi hb => ?_, fun hs => ?_⟩⟩
      · exact remoteEvent (hmap.trans (remoteMapped_load hv hcl hra hh hg (isLoad_of_remLoad hl) hi hb))
      · exact remoteEvent (hmap.trans (remoteMapped_store hv hcl hra hh hg (Bool.not_eq_true _ ▸ not_isLoad_of_remStore hs)))
  · have h := resultWriteback_slots hr
    exact ⟨_, rfl, h.slotsOnly, h.cur⟩

end Sys2Proof.Machine
end

section
/-! PROOF. Cached copies, write-backs, banks and migrating pages (O51): what a recall does to an L2 copy and to mapped tiles, how a write-back
arrives or is dropped, and the steps of a migration (R35, R36, R39 to R43, R127, R224). -/

namespace Sys2Proof.Machine

/-! ### Dirty sectors start home

`cleanLine` in parts: the write-back of some bytes, the L2 slice's part of a line, and one mapped tile's part of a sector. -/

/-- A write-back starts for the home of a line. -/
def sendAway (s : State) (at_ ctx line cls : Nat) (bytes : List (Nat × Byte)) (from_ : Option Nat) : State :=
  sendHome { s.fresh with writeBacks := Tbl.put s.writeBacks s.nextId ⟨ctx, line, bytes, from_⟩ } at_ cls (256 * line) (1 + bytes.length / 64)

/-- The dirty bytes of an L2 line. -/
def dirtyBytes (s : State) (cl ctx line : Nat) (x : L2Line) : List (Nat × Byte) :=
  ([0, 1].filter fun k => x.dirty.getLsbD k).flatMap fun k => sectorBytes (l2Addr cl ctx) s.l2Data (256 * line + 128 * k)

/-- The L2 slice's part: its dirty sectors start home, the copy stays. -/
def cleanL2 (s : State) (cl ctx line cls : Nat) : State × List Nat :=
  match Tbl.find s.l2 (l2Key cl ctx line) with
  | some x =>
    if x.dirty = 0 then (s, [])
    else
      ({ sendAway (touchBank s (cl / 64) (l2Bank cl (256 * line))) cl ctx line cls (dirtyBytes s cl ctx line x) none with
        l2 := Tbl.put s.l2 (l2Key cl ctx line) { x with dirty := 0, excl := false }
        l2Data := Mem.clear s.l2Data (l2Addr cl ctx (256 * line)) 256 }, [s.nextId])
  | none => (s, [])

/-- One mapped tile's part of a sector: it starts home where it is dirty. -/
def cleanTile (crew ctx line cls va0 : Nat) (acc : State × List Nat) (e : Nat × Nat × Nat) : State × List Nat :=
  let tag := tagOf acc.1 crew e.2.1
  if tag.sd.getLsbD (e.2.2 / 128) then
    let bytes := (List.range 128).map fun b => (va0 + b, Mem.read acc.1.stash (stashKey crew e.2.1 (e.2.2 + b)))
    (setTag (sendAway acc.1 (coreCluster (acc.1.crew crew).core) ctx line cls bytes (some crew)) crew e.2.1
      { tag with sd := tag.sd &&& ~~~(BitVec.twoPow 8 (e.2.2 / 128)) }, acc.2 ++ [acc.1.nextId])
  else acc

/-- A crew's mapped tiles that stand for a sector of a line. -/
def tilesOf (s : State) (crew ctx line k : Nat) : List (Nat × Nat × Nat) :=
  (stashAt s ctx (256 * line + 128 * k)).filter fun e => e.1 == crew

def cleanSector (crew ctx line cls : Nat) (acc : State × List Nat) (k : Nat) : State × List Nat :=
  (tilesOf acc.1 crew ctx line k).foldl (cleanTile crew ctx line cls (256 * line + 128 * k)) acc

theorem cleanLine_eq (s : State) (cl crew ctx line cls : Nat) :
    cleanLine s cl crew ctx line cls = [0, 1].foldl (cleanSector crew ctx line cls) (cleanL2 s cl ctx line cls) := rfl

theorem sendAway_traffic (s : State) (at_ ctx line cls : Nat) (bytes : List (Nat × Byte)) (from_ : Option Nat) :
    TrafficOnly { s with writeBacks := Tbl.put s.writeBacks s.nextId ⟨ctx, line, bytes, from_⟩ } (sendAway s at_ ctx line cls bytes from_) :=
  TrafficOnly.trans ⟨rfl⟩ (sendHome_traffic _ _ _ _ _)

/-! ### A recalled L2 copy -/

/-- Mapped tiles of no crew: the L2 slice's part is all. -/
theorem cleanLine_noTiles {s : State} {cl crew ctx line cls : Nat}
    (h : ∀ k, k < 2 → tilesOf (cleanL2 s cl ctx line cls).1 crew ctx line k = []) :
    cleanLine s cl crew ctx line cls = cleanL2 s cl ctx line cls := by
  rw [cleanLine_eq]
  simp only [List.foldl_cons, List.foldl_nil, cleanSector, h 0 (by omega), h 1 (by omega)]

theorem cleanL2_crews (s : State) (cl ctx line cls : Nat) : (cleanL2 s cl ctx line cls).1.crews = s.crews := by
  unfold cleanL2
  split
  · split
    · rfl
    · exact (sendAway_traffic _ _ _ _ _ _ _).crews.trans (touchBank_traffic _ _ _).crews
  · rfl

/-- `t` is `s` once the L2 slice's copy `x` of a line has sent its dirty sectors home; traffic and the copy itself aside. -/
structure CopyCleaned (s t : State) (cl ctx line : Nat) (x : L2Line) : Prop where
  mem : t.mem = s.mem
  stash : t.stash = s.stash
  llcData : t.llcData = s.llcData
  others : ∀ j, j ≠ l2Key cl ctx line → Tbl.find t.l2 j = Tbl.find s.l2 j
  clean : x.dirty = 0 → t.writeBacks = s.writeBacks ∧ t.l2Data = s.l2Data
  sent : x.dirty ≠ 0 → (∃ n, t.writeBacks = Tbl.put s.writeBacks n ⟨ctx, line, dirtyBytes s cl ctx line x, none⟩) ∧
    t.l2Data = Mem.clear s.l2Data (l2Addr cl ctx (256 * line)) 256

theorem CopyCleaned.traffic {s t u : State} {cl ctx line : Nat} {x : L2Line} (h : CopyCleaned s t cl ctx line x) (ht : TrafficOnly t u) :
    CopyCleaned s u cl ctx line x where
  mem := ht.mem.trans h.mem
  stash := ht.stash.trans h.stash
  llcData := ht.llcData.trans h.llcData
  others j hj := by rw [ht.l2, h.others j hj]
  clean hd := by rw [ht.writeBacks, ht.l2Data]; exact h.clean hd
  sent hd := by rw [ht.writeBacks, ht.l2Data]; exact h.sent hd

theorem CopyCleaned.of_traffic {r s t : State} {cl ctx line : Nat} {x : L2Line} (hr : TrafficOnly r s) (h : CopyCleaned s t cl ctx line x) :
    CopyCleaned r t cl ctx line x where
  mem := h.mem.trans hr.mem
  stash := h.stash.trans hr.stash
  llcData := h.llcData.trans hr.llcData
  others j hj := by rw [h.others j hj, hr.l2]
  clean hd := by rw [← hr.writeBacks, ← hr.l2Data]; exact h.clean hd
  sent hd := by
    have hb : dirtyBytes r cl ctx line x = dirtyBytes s cl ctx line x := by simp only [dirtyBytes, hr.l2Data]
    rw [hb, ← hr.writeBacks, ← hr.l2Data]
    exact h.sent hd

theorem cleanL2_cleaned {s : State} {cl ctx line : Nat} {x : L2Line} (cls : Nat) (hx : Tbl.find s.l2 (l2Key cl ctx line) = some x) :
    CopyCleaned s (cleanL2 s cl ctx line cls).1 cl ctx line x := by
  unfold cleanL2
  rw [hx]
  dsimp only
  by_cases hd : x.dirty = 0
  · rw [if_pos hd]
    exact ⟨rfl, rfl, rfl, fun _ _ => rfl, fun _ => ⟨rfl, rfl⟩, fun h => absurd hd h⟩
  · rw [if_neg hd]
    have hb := touchBank_traffic s (cl / 64) (l2Bank cl (256 * line))
    have ha := sendAway_traffic (touchBank s (cl / 64) (l2Bank cl (256 * line))) cl ctx line cls (dirtyBytes s cl ctx line x) none
    exact {
      mem := ha.mem.trans hb.mem
      stash := ha.stash.trans hb.stash
      llcData := ha.llcData.trans hb.llcData
      others := fun j hj => Tbl.find_put_ne _ _ fun e => hj e.symm
      clean := fun h => absurd h hd
      sent := fun _ => ⟨⟨_, ha.writeBacks.trans (congrArg (Tbl.put · _ _) hb.writeBacks)⟩, rfl⟩ }

/-- The answer to a recall that finds nothing to bring. -/
def answerRecall (cl line : Nat) (r : State × List Nat) : State := if r.2.isEmpty then sendHome r.1 cl 3 (256 * line) 1 else r.1

theorem answerRecall_traffic (cl line : Nat) (r : State × List Nat) : TrafficOnly r.1 (answerRecall cl line r) := by
  unfold answerRecall
  split
  · exact sendHome_traffic _ _ _ _ _
  · exact TrafficOnly.refl _

theorem recallCopy_l2_eq (s : State) (cl ctx line : Nat) : recallCopy s false cl ctx line =
    let u := touchBank (answerRecall cl line (cleanLine (sendCluster s cl (256 * line)) cl 0 ctx line 3)) (cl / 64) (l2Bank cl (256 * line))
    { u with l2 := Tbl.del u.l2 (l2Key cl ctx line) } := by
  simp only [recallCopy, answerRecall, Bool.false_eq_true, if_false]

/-- A recalled L2 copy sends its dirty sectors home and goes. -/
theorem recallCopy_l2 {s : State} {cl ctx line : Nat} {x : L2Line} (hx : Tbl.find s.l2 (l2Key cl ctx line) = some x)
    (ht : ∀ k, k < 2 → tilesOf s 0 ctx line k = []) :
    ∃ u, CopyCleaned s u cl ctx line x ∧ recallCopy s false cl ctx line = { u with l2 := Tbl.del u.l2 (l2Key cl ctx line) } := by
  have h0 := sendCluster_traffic s cl (256 * line)
  have hc : cleanLine (sendCluster s cl (256 * line)) cl 0 ctx line 3 = cleanL2 (sendCluster s cl (256 * line)) cl ctx line 3 := by
    refine cleanLine_noTiles fun k hk => ?_
    rw [tilesOf, stashAt_of_crews ((cleanL2_crews _ _ _ _ _).trans h0.crews)]
    exact ht k hk
  have hcl : CopyCleaned s (cleanL2 (sendCluster s cl (256 * line)) cl ctx line 3).1 cl ctx line x :=
    (cleanL2_cleaned 3 (h0.l2 ▸ hx)).of_traffic h0
  rw [recallCopy_l2_eq, hc]
  exact ⟨_, hcl.traffic ((answerRecall_traffic _ _ _).trans (touchBank_traffic _ _ _)), rfl⟩

/-! ### Recalled mapped tiles -/

/-- A crew's entry in the table has a mapping in which tile byte `e` stands for an address. -/
def standsFor (d : Nat × Crew) (ctx va : Nat) (e : Nat × Nat × Nat) : Prop :=
  (d.2.ctx == ctx && !d.2.ended) = true ∧ e ∈ (d.2.maps.filter fun m => m.base ≤ va && va < m.base + 1024 * m.n).map fun m =>
    (d.1, m.t0 + (va - m.base) / 1024, (va - m.base) % 1024)

theorem mem_stashAt {s : State} {ctx va : Nat} {e : Nat × Nat × Nat} : e ∈ stashAt s ctx va ↔ ∃ d ∈ s.crews, standsFor d ctx va e := by
  simp only [stashAt, List.mem_flatMap, List.mem_filter, standsFor, and_assoc]

/-- A change of a tile's tag maps no tile anew and none away. -/
theorem mem_stashAt_setTag {s : State} {crew tile ctx va : Nat} {x : Tag} {e : Nat × Nat × Nat} :
    e ∈ stashAt (setTag s crew tile x) ctx va ↔ e ∈ stashAt s ctx va := by
  rw [mem_stashAt, mem_stashAt]
  constructor
  · rintro ⟨d, hd, he⟩
    rcases Tbl.mem_put hd with rfl | hd
    · cases hf : Tbl.find s.crews crew with
      | none =>
        have hn : s.crew crew = Crew.none := by simp [State.crew, Tbl.findD, hf]
        exact absurd he.1 (by simp [hn, Crew.none])
      | some c =>
        have hc : s.crew crew = c := by simp [State.crew, Tbl.findD, hf]
        rw [hc] at he
        exact ⟨(crew, c), Tbl.mem_of_find hf, he⟩
    · exact ⟨d, hd, he⟩
  · rintro ⟨d, hd, he⟩
    rcases Tbl.mem_put_of_mem (x := { s.crew crew with tags := Tbl.put (s.crew crew).tags tile x }) hd with hd | ⟨hk, hf⟩
    · exact ⟨d, hd, he⟩
    · refine ⟨_, Tbl.mem_put_self _ _ _, ?_⟩
      have hc : s.crew crew = d.2 := by simp [State.crew, Tbl.findD, hf]
      rw [hc, ← hk]
      exact he

theorem tagOf_setTag (s : State) (c d t j : Nat) (x : Tag) :
    tagOf (setTag s c t x) d j = if c = d ∧ t = j then x else tagOf s d j := by
  simp only [tagOf, setTag, State.updCrew, State.crew_setCrew]
  by_cases hc : c = d
  · subst hc
    simp [Tbl.findD_put]
  · simp [hc]

/-- The sector of a crew's tile byte is not dirty there. -/
def sectorClean (crew : Nat) (e : Nat × Nat × Nat) (t : State) : Prop := (tagOf t crew e.2.1).sd.getLsbD (e.2.2 / 128) = false

/-- The sector of a crew's tile byte is not valid there. -/
def sectorInvalid (crew : Nat) (e : Nat × Nat × Nat) (t : State) : Prop := (tagOf t crew e.2.1).sv.getLsbD (e.2.2 / 128) = false

/-- No store happens and no tile comes to hold more: what a recall keeps, traffic, write-backs and L2 copies aside. -/
structure CopiesShrink (s t : State) : Prop where
  mem : t.mem = s.mem
  stash : t.stash = s.stash
  llcData : t.llcData = s.llcData
  tiles : ∀ ctx va e, e ∈ stashAt t ctx va ↔ e ∈ stashAt s ctx va
  valid : ∀ c j b, (tagOf s c j).sv.getLsbD b = false → (tagOf t c j).sv.getLsbD b = false
  dirty : ∀ c j b, (tagOf s c j).sd.getLsbD b = false → (tagOf t c j).sd.getLsbD b = false

theorem CopiesShrink.refl (s : State) : CopiesShrink s s := ⟨rfl, rfl, rfl, fun _ _ _ => Iff.rfl, fun _ _ _ h => h, fun _ _ _ h => h⟩

theorem CopiesShrink.trans {s t u : State} (h1 : CopiesShrink s t) (h2 : CopiesShrink t u) : CopiesShrink s u where
  mem := h2.mem.trans h1.mem
  stash := h2.stash.trans h1.stash
  llcData := h2.llcData.trans h1.llcData
  tiles ctx va e := (h2.tiles ctx va e).trans (h1.tiles ctx va e)
  valid c j b h := h2.valid c j b (h1.valid c j b h)
  dirty c j b h := h2.dirty c j b (h1.dirty c j b h)

theorem CopiesShrink.of_crews {s t : State} (hm : t.mem = s.mem) (hs : t.stash = s.stash) (hl : t.llcData = s.llcData)
    (hc : t.crews = s.crews) : CopiesShrink s t where
  mem := hm
  stash := hs
  llcData := hl
  tiles ctx va e := by rw [stashAt_of_crews hc]
  valid c j b h := by rw [tagOf_of_crews hc]; exact h
  dirty c j b h := by rw [tagOf_of_crews hc]; exact h

theorem TrafficOnly.shrinks {s t : State} (h : TrafficOnly s t) : CopiesShrink s t := CopiesShrink.of_crews h.mem h.stash h.llcData h.crews

theorem sendAway_shrinks (s : State) (at_ ctx line cls : Nat) (bytes : List (Nat × Byte)) (from_ : Option Nat) :
    CopiesShrink s (sendAway s at_ ctx line cls bytes from_) :=
  have h := sendAway_traffic s at_ ctx line cls bytes from_
  CopiesShrink.of_crews h.mem h.stash h.llcData h.crews

/-- A tag is set to one that holds no sector which the tile did not hold. -/
theorem setTag_shrinks {s : State} {crew tile : Nat} {x : Tag} (hv : ∀ b, (tagOf s crew tile).sv.getLsbD b = false → x.sv.getLsbD b = false)
    (hd : ∀ b, (tagOf s crew tile).sd.getLsbD b = false → x.sd.getLsbD b = false) : CopiesShrink s (setTag s crew tile x) where
  mem := rfl
  stash := rfl
  llcData := rfl
  tiles _ _ _ := mem_stashAt_setTag
  valid c j b h := by
    rw [tagOf_setTag]
    split
    · rename_i e; obtain ⟨rfl, rfl⟩ := e; exact hv b h
    · exact h
  dirty c j b h := by
    rw [tagOf_setTag]
    split
    · rename_i e; obtain ⟨rfl, rfl⟩ := e; exact hd b h
    · exact h

theorem getLsbD_cleared (x : BitVec 8) (n b : Nat) (h : x.getLsbD b = false) : (x &&& ~~~(BitVec.twoPow 8 n)).getLsbD b = false := by
  rw [BitVec.getLsbD_and, h, Bool.false_and]

theorem getLsbD_cleared_self (x : BitVec 8) (n : Nat) : (x &&& ~~~(BitVec.twoPow 8 n)).getLsbD n = false := by
  simp only [BitVec.getLsbD_and, BitVec.getLsbD_not, BitVec.getLsbD_twoPow]
  by_cases h : n < 8 <;> simp [h]

theorem cleanL2_shrinks (s : State) (cl ctx line cls : Nat) : CopiesShrink s (cleanL2 s cl ctx line cls).1 := by
  have hc := cleanL2_crews s cl ctx line cls
  cases hx : Tbl.find s.l2 (l2Key cl ctx line) with
  | none => simp only [cleanL2, hx]; exact CopiesShrink.refl s
  | some x =>
    have h := cleanL2_cleaned cls hx
    exact CopiesShrink.of_crews h.mem h.stash h.llcData hc

theorem cleanTile_shrinks (crew ctx line cls va0 : Nat) (acc : State × List Nat) (e : Nat × Nat × Nat) :
    CopiesShrink acc.1 (cleanTile crew ctx line cls va0 acc e).1 := by
  unfold cleanTile
  dsimp only
  split
  · refine (sendAway_shrinks acc.1 _ ctx line cls _ (some crew)).trans (setTag_shrinks (fun b h => ?_) fun b h => ?_)
    · rwa [tagOf_of_crews (sendAway_traffic _ _ _ _ _ _ _).crews] at h
    · rw [tagOf_of_crews (sendAway_traffic _ _ _ _ _ _ _).crews] at h
      exact getLsbD_cleared _ _ b h
  · exact CopiesShrink.refl _

theorem CopiesShrink.keepsClean {s t : State} (h : CopiesShrink s t) {crew : Nat} {e : Nat × Nat × Nat} (hc : sectorClean crew e s) :
    sectorClean crew e t := h.dirty crew e.2.1 _ hc

theorem CopiesShrink.keepsInvalid {s t : State} (h : CopiesShrink s t) {crew : Nat} {e : Nat × Nat × Nat} (hc : sectorInvalid crew e s) :
    sectorInvalid crew e t := h.valid crew e.2.1 _ hc

theorem cleanTile_clean (crew ctx line cls va0 : Nat) (acc : State × List Nat) (e : Nat × Nat × Nat) :
    sectorClean crew e (cleanTile crew ctx line cls va0 acc e).1 := by
  unfold sectorClean cleanTile
  dsimp only
  split
  · rw [tagOf_setTag, if_pos ⟨rfl, rfl⟩]
    exact getLsbD_cleared_self _ _
  · rename_i h
    simpa using h

theorem cleanSector_shrinks (crew ctx line cls : Nat) (acc : State × List Nat) (k : Nat) :
    CopiesShrink acc.1 (cleanSector crew ctx line cls acc k).1 :=
  foldl_keeps (R := fun a b => CopiesShrink a.1 b.1) (fun _ => CopiesShrink.refl _) CopiesShrink.trans
    (cleanTile_shrinks crew ctx line cls (256 * line + 128 * k)) (tilesOf acc.1 crew ctx line k) acc

/-- After its sector's step no tile of the crew holds that sector dirty. -/
theorem cleanSector_clean (crew ctx line cls : Nat) (acc : State × List Nat) (k : Nat) :
    ∀ e ∈ tilesOf acc.1 crew ctx line k, sectorClean crew e (cleanSector crew ctx line cls acc k).1 :=
  foldl_reaches (R := fun a b => CopiesShrink a.1 b.1) (f := cleanTile crew ctx line cls (256 * line + 128 * k))
    (P := fun e a => sectorClean crew e a.1) (fun _ => CopiesShrink.refl _) CopiesShrink.trans
    (cleanTile_shrinks crew ctx line cls _) (fun _ _ _ h hr => hr.keepsClean h)
    (cleanTile_clean crew ctx line cls _) (tilesOf acc.1 crew ctx line k) acc

theorem mem_tilesOf {s t : State} (h : CopiesShrink s t) {crew ctx line k : Nat} {e : Nat × Nat × Nat} :
    e ∈ tilesOf t crew ctx line k ↔ e ∈ tilesOf s crew ctx line k := by
  simp only [tilesOf, List.mem_filter, h.tiles]

/-- What a step for each of a line's two sectors brings about in the crew's tiles of that sector, and no step undoes, holds in all of them. -/
theorem bothSectors_reach {σ : Type} (st : σ → State) {crew ctx line : Nat} {f : σ → Nat → σ}
    (hf : ∀ a k, CopiesShrink (st a) (st (f a k))) {P : Nat × Nat × Nat → State → Prop} (hP : ∀ e {a b}, P e a → CopiesShrink a b → P e b)
    (hs : ∀ a k, ∀ e ∈ tilesOf (st a) crew ctx line k, P e (st (f a k))) (a : σ) :
    CopiesShrink (st a) (st ([0, 1].foldl f a)) ∧
      ∀ k, k < 2 → ∀ e ∈ tilesOf (st a) crew ctx line k, P e (st ([0, 1].foldl f a)) := by
  simp only [List.foldl_cons, List.foldl_nil]
  refine ⟨(hf a 0).trans (hf _ 1), fun k hk e he => ?_⟩
  obtain rfl | rfl : k = 0 ∨ k = 1 := by omega
  · exact hP e (hs a 0 e he) (hf _ 1)
  · exact hs _ 1 e ((mem_tilesOf (hf a 0)).mpr he)

/-- `cleanLine` leaves no tile of the crew dirty. -/
theorem cleanLine_clean (s : State) (cl crew ctx line cls : Nat) :
    CopiesShrink s (cleanLine s cl crew ctx line cls).1 ∧ ∀ k, k < 2 → ∀ e ∈ tilesOf s crew ctx line k,
      sectorClean crew e (cleanLine s cl crew ctx line cls).1 := by
  have h0 := cleanL2_shrinks s cl ctx line cls
  obtain ⟨h1, h2⟩ := bothSectors_reach Prod.fst (f := cleanSector crew ctx line cls) (P := sectorClean crew)
    (cleanSector_shrinks crew ctx line cls) (fun _ _ _ h hr => hr.keepsClean h) (cleanSector_clean crew ctx line cls)
    (cleanL2 s cl ctx line cls)
  exact ⟨h0.trans h1, fun k hk e he => h2 k hk e ((mem_tilesOf h0).mpr he)⟩

/-- A tile holds a sector no more. -/
def dropTile (crew : Nat) (s : State) (e : Nat × Nat × Nat) : State :=
  setTag s crew e.2.1 { tagOf s crew e.2.1 with sv := (tagOf s crew e.2.1).sv &&& ~~~(BitVec.twoPow 8 (e.2.2 / 128)) }

def dropSector (crew ctx line : Nat) (s : State) (k : Nat) : State := (tilesOf s crew ctx line k).foldl (dropTile crew) s

theorem dropTile_shrinks (crew : Nat) (s : State) (e : Nat × Nat × Nat) : CopiesShrink s (dropTile crew s e) :=
  setTag_shrinks (fun b h => getLsbD_cleared _ _ b h) fun _ h => h

theorem dropTile_invalid (crew : Nat) (s : State) (e : Nat × Nat × Nat) : sectorInvalid crew e (dropTile crew s e) := by
  rw [sectorInvalid, dropTile, tagOf_setTag, if_pos ⟨rfl, rfl⟩]
  exact getLsbD_cleared_self _ _

theorem dropSector_shrinks (crew ctx line : Nat) (s : State) (k : Nat) : CopiesShrink s (dropSector crew ctx line s k) :=
  foldl_keeps CopiesShrink.refl CopiesShrink.trans (dropTile_shrinks crew) _ s

theorem dropSector_invalid (crew ctx line : Nat) (s : State) (k : Nat) :
    ∀ e ∈ tilesOf s crew ctx line k, sectorInvalid crew e (dropSector crew ctx line s k) :=
  foldl_reaches (R := CopiesShrink) (f := dropTile crew) (P := sectorInvalid crew) CopiesShrink.refl CopiesShrink.trans
    (dropTile_shrinks crew) (fun _ _ _ h hr => hr.keepsInvalid h) (dropTile_invalid crew) (tilesOf s crew ctx line k) s

/-- The tiles drop both sectors. -/
theorem dropSectors_invalid (s : State) (crew ctx line : Nat) :
    CopiesShrink s ([0, 1].foldl (dropSector crew ctx line) s) ∧ ∀ k, k < 2 → ∀ e ∈ tilesOf s crew ctx line k,
      sectorInvalid crew e ([0, 1].foldl (dropSector crew ctx line) s) :=
  bothSectors_reach (σ := State) (st := fun t => t) (f := dropSector crew ctx line) (P := sectorInvalid crew) (dropSector_shrinks crew ctx line)
    (fun _ _ _ h hr => hr.keepsInvalid h) (dropSector_invalid crew ctx line) s

theorem recallCopy_tiles_eq (s : State) (crew ctx line : Nat) : recallCopy s true crew ctx line =
    [0, 1].foldl (dropSector crew ctx line) (answerRecall (coreCluster (s.crew crew).core) line
      (cleanLine (sendCluster s (coreCluster (s.crew crew).core) (256 * line)) (2 ^ 20) crew ctx line 3)) := by
  simp only [recallCopy, answerRecall, if_true]
  rfl

/-- A recall of a crew's tiles: no sector of the line stays there, dirty or valid. -/
theorem recallCopy_tiles (s : State) (crew ctx line : Nat) :
    CopiesShrink s (recallCopy s true crew ctx line) ∧ ∀ k, k < 2 → ∀ e ∈ tilesOf s crew ctx line k,
      sectorInvalid crew e (recallCopy s true crew ctx line) ∧ sectorClean crew e (recallCopy s true crew ctx line) := by
  rw [recallCopy_tiles_eq]
  generalize hs0 : sendCluster s (coreCluster (s.crew crew).core) (256 * line) = s0
  have h0 : CopiesShrink s s0 := hs0 ▸ (sendCluster_traffic _ _ _).shrinks
  obtain ⟨h1, hclean⟩ := cleanLine_clean s0 (2 ^ 20) crew ctx line 3
  generalize cleanLine s0 (2 ^ 20) crew ctx line 3 = r at h1 hclean
  have h2 := (answerRecall_traffic (coreCluster (s.crew crew).core) line r).shrinks
  generalize answerRecall (coreCluster (s.crew crew).core) line r = u at h2
  obtain ⟨h3, hdrop⟩ := dropSectors_invalid u crew ctx line
  have hu := h0.trans (h1.trans h2)
  exact ⟨hu.trans h3, fun k hk e he => ⟨hdrop k hk e ((mem_tilesOf hu).mpr he),
    (h2.trans h3).keepsClean (hclean k hk e ((mem_tilesOf h0).mpr he))⟩⟩

/-! ### Write-backs arrive -/

theorem acceptBytes_leaf {s : State} {ctx line page size : Nat} {p : DWord} (h : walk s ctx (256 * line) = .leaf page size p)
    (bytes : List (Nat × Byte)) :
    acceptBytes s ctx line bytes =
      let u := touchBank (fillLlc s ctx line) (vaPkg (256 * line)) (llcBank (256 * line))
      ({ u with
        llc := Tbl.put u.llc (lineKey ctx line) ⟨true⟩
        llcData := bytes.foldl (fun m b => Mem.write m (llcAddr ctx b.1) b.2) u.llcData }, true) := by
  rw [acceptBytes, h]

theorem acceptBytes_dropped {s : State} {ctx line : Nat} (h : ∀ page size p, walk s ctx (256 * line) ≠ .leaf page size p)
    (bytes : List (Nat × Byte)) : acceptBytes s ctx line bytes = (s, false) := by
  unfold acceptBytes
  split
  · rename_i hw; exact absurd hw (h _ _ _)
  · rfl

/-- A slice after bytes of a crew were dropped: one of the crew that stands at a wide release has the line among those lost (R224). -/
def afterDrop (crew : Option Nat) (base : Nat) (x : Slice) : Slice := if crew = some x.crew then noteLost base x else x

theorem afterDrop_eq (crew : Option Nat) (base : Nat) (x : Slice) : afterDrop crew base x =
    if crew = some x.crew ∧ (x.relIn = true ∨ x.park = .before (.performed true)) ∧ base ∉ x.lost then { x with lost := x.lost ++ [base] }
    else x := by
  unfold afterDrop
  by_cases hc : crew = some x.crew <;> simp [hc, noteLost]

/-- Bytes dropped at the home change nothing else. -/
theorem acceptFrom_dropped {s : State} {ctx line : Nat} (h : ∀ page size p, walk s ctx (256 * line) ≠ .leaf page size p)
    (crew : Option Nat) (bytes : List (Nat × Byte)) :
    acceptFrom s crew ctx line bytes = { s with slices := s.slices.map fun e => (e.1, afterDrop crew (256 * line) e.2) } := by
  have hf : (fun e : Nat × Slice => if crew == some e.2.crew then (e.1, noteLost (256 * line) e.2) else e) =
      fun e => (e.1, afterDrop crew (256 * line) e.2) := by
    funext e
    by_cases hc : crew = some e.2.crew <;> simp [hc, afterDrop]
  simp only [acceptFrom, acceptBytes_dropped h, Bool.false_eq_true, if_false, hf]

/-! ### Banks, flushes -/

theorem bankSleeps_iff {s : State} {bank last u : Nat} {asleep : Bool} (h : Tbl.findD s.banks bank (0, false, 0) = (last, asleep, u)) :
    bankSleeps s bank = true ↔ asleep = false ∧ last + 65536 ≤ (s.pkg (bankPkg bank)).clock ∧ u ≤ (s.pkg (bankPkg bank)).clock ∧
      ∀ c, Tbl.find s.bankClock (bankSlice bank) = some c → c < (s.pkg (bankPkg bank)).clock := by
  unfold bankSleeps
  rw [h]
  cases Tbl.find s.bankClock (bankSlice bank) <;> simp [and_assoc]

/-- A dirty line goes to its frame, which does not move, and is clean. -/
theorem cleanLlc_unmoved {s : State} {ctx line k : Nat} (hl : Tbl.find s.llc (lineKey ctx line) = some ⟨true⟩)
    (hk : frameKey s ctx (256 * line) (walk s ctx (256 * line)) = some k) (hm : migAt s k = none) :
    cleanLlc s ctx line = { touchBank (busUnit { s with llc := Tbl.put s.llc (lineKey ctx line) ⟨false⟩ } 4 (256 * line) 5)
        (vaPkg (256 * line)) (llcBank (256 * line)) with
      mem := Mem.writeN s.mem k (Mem.readN s.llcData (llcAddr ctx (256 * line)) 256)
      poison := s.poison.filter (· != k / 256) } := by
  have ht := (busUnit_traffic { s with llc := Tbl.put s.llc (lineKey ctx line) ⟨false⟩ } 4 (256 * line) 5).trans
    (touchBank_traffic _ (vaPkg (256 * line)) (llcBank (256 * line)))
  have hm' := (migAt_of_migs ht.migs k).trans hm
  simp only [cleanLlc, hl, hk, physWriteLine_unmoved hm', ht.mem, ht.poison]

/-! ### Migration (R40 to R43) -/

theorem nextLine_some {m : Mig} {line : Nat} (h : nextLine m = some line) : line ∉ m.valid := by
  have := List.find?_some h
  simpa using this

theorem nextLine_ne_none {m : Mig} {line : Nat} (hl : line < m.size / 256) (hv : line ∉ m.valid) : nextLine m ≠ none := by
  intro h
  have := List.find?_eq_none.mp h line (List.mem_range.mpr hl)
  simp [hv] at this

/-- A line has come over to the new frame. -/
def pulled (s : State) (n : Nat) (m : Mig) (line : Nat) : State :=
  { s with
    mem := Mem.writeN s.mem (m.new + 256 * line) (Mem.readN s.mem (m.old + 256 * line) 256)
    poison := (if s.poison.contains ((m.old + 256 * line) / 256) then [(m.new + 256 * line) / 256] else []) ++
      s.poison.filter (· != (m.new + 256 * line) / 256)
    migs := Tbl.put s.migs n { m with valid := m.valid ++ [line], pull := m.pull.filter (· != line) } }

theorem migPull_fresh {s : State} {n line : Nat} {m : Mig} (h : line ∉ m.valid) : migPull s n m line = pulled s n m line := by
  rw [migPull, if_neg (by simpa using h)]
  rfl

/-- While a line is missing a migration does not end. -/
theorem migrationEnd_missing {s : State} {n : Nat} {m : Mig} (hm : Tbl.find s.migs n = some m) (hl : nextLine m ≠ none) :
    migrationEnd s n = s := by
  cases h : nextLine m with
  | none => exact absurd h hl
  | some l => simp [migrationEnd, hm, h]

/-- A pull that is not the last. -/
theorem pull_goesOn {s : State} {n line : Nat} {m : Mig} (hv : line ∉ m.valid)
    (hk : ∃ k, k < m.size / 256 ∧ k ≠ line ∧ k ∉ m.valid) : migrationEnd (migPull s n m line) n = pulled s n m line := by
  obtain ⟨k, hks, hkl, hkv⟩ := hk
  rw [migPull_fresh hv]
  refine migrationEnd_missing (Tbl.find_put_self _ _ _) (nextLine_ne_none (line := k) hks ?_)
  simp [hkv, hkl]

theorem migrationMarkDrained_marked {s : State} {n : Nat} {m : Mig} (hm : Tbl.find s.migs n = some m) (hp : m.phase = .marked) :
    migrationMarkDrained s n =
      let u := updLeaves s m.ctx m.va fun p => withPpn p (m.new % 2 ^ 43 + (if pteBit p 63 then 8 * 4096 else 0))
      startDowngrade { u with migs := Tbl.put u.migs n { m with phase := .shootdown, dg := u.nextId } }
        ⟨m.ctx, m.va, m.size, some 0, true, false, [], [], [], false, some n⟩ := by
  simp [migrationMarkDrained, hm, hp]

theorem migrationLineCopy_copying {s : State} {n line : Nat} {m : Mig} (hm : Tbl.find s.migs n = some m) (hp : m.phase = .copying)
    (hl : nextLine m = some line) : migrationLineCopy s n = migrationEnd (migPull s n m line) n := by
  simp [migrationLineCopy, hm, hp, hl]

/-- Every line has come over: the old frame returns to its pool. -/
theorem migrationLineCopy_ends {s : State} {n : Nat} {m : Mig} (hm : Tbl.find s.migs n = some m) (hp : m.phase = .copying)
    (hl : nextLine m = none) : migrationLineCopy s n =
      pushPool { s with migs := Tbl.del s.migs n } m.ctx m.tower (s.ctx m.ctx).migPool (80 * (m.tower % 8) + 40 + 8 * sizeIx m.size) m.old := by
  simp [migrationLineCopy, migrationEnd, hm, hp, hl]

theorem migrationPullDone_pulling {s : State} {n line : Nat} {m : Mig} (hm : Tbl.find s.migs n = some m) (hl : line ∈ m.pull) :
    migrationPullDone s n line = migrationEnd (migPull s n m line) n := by
  simp [migrationPullDone, hm, hl]

/-- Steps 1 and 2 of a migration, with the frame that the pool gives. -/
theorem startMigration_some {s u : State} {ctx page size new : Nat} (p : DWord) (hp : popPool s ctx (vaTower page) (s.ctx ctx).migPool
      (80 * (vaTower page % 8) + 8 * sizeIx size) size = (some new, u)) :
    (startMigration s ctx page size p).2 = { u with
      nextId := u.nextId + 1
      migs := Tbl.put u.migs u.nextId
        ⟨vaTower page, ctx, page, size, physKey (vaPkg page) (leafFrame size p), new, [], [], .marked, 0⟩ } := by
  unfold startMigration
  dsimp only
  rw [hp]
  rfl

/-- The 512th line access within 2^20 clocks starts the migration where a slot is free and the pool gives a frame. -/
theorem migrationStart_starts {s u : State} {ctx va page size n t0 new : Nat} {p : DWord} (hw : walk s ctx va = .leaf page size p)
    (hmv : movable (.leaf page size p) = true) (hc : Tbl.findD s.migCounts (ctx * 2 ^ 57 + page) (0, 0) = (n, t0)) (hn : 512 ≤ n)
    (ht : (s.pkg (vaPkg va)).clock ≤ t0 + 2 ^ 20) (ho : migOf s ctx page = false) (hs : slotsUsed s (vaTower va) < 16)
    (hp : popPool { s with migCounts := Tbl.del s.migCounts (ctx * 2 ^ 57 + page) } ctx (vaTower page) (s.ctx ctx).migPool
      (80 * (vaTower page % 8) + 8 * sizeIx size) size = (some new, u)) :
    migrationStart s ctx va = { u with
      nextId := u.nextId + 1
      migs := Tbl.put u.migs u.nextId
        ⟨vaTower page, ctx, page, size, physKey (vaPkg page) (leafFrame size p), new, [], [], .marked, 0⟩ } := by
  have hst := startMigration_some (s := { s with migCounts := Tbl.del s.migCounts (ctx * 2 ^ 57 + page) }) p hp
  simp only [migrationStart, hw, hc, decide_eq_true hn, decide_eq_true ht, hmv, ho, Bool.not_false, Bool.and_true, if_true,
    if_neg (Nat.not_le.mpr hs), hst]

/-! ### The events -/

theorem tilesOf_eq_nil {s : State} {crew ctx line k : Nat} (h : ∀ e ∈ stashAt s ctx (256 * line + 128 * k), e.1 ≠ crew) :
    tilesOf s crew ctx line k = [] :=
  List.filter_eq_nil_iff.mpr fun e he => by simpa using h e he

/-- A recalled L2 copy, seen from the L2 slice, the write-backs and the memories. -/
theorem recallEvent_l2 {s : State} {cl ctx line : Nat} {x : L2Line} (hx : Tbl.find s.l2 (l2Key cl ctx line) = some x)
    (ht : ∀ k, k < 2 → ∀ e ∈ stashAt s ctx (256 * line + 128 * k), e.1 ≠ 0) :
    ∃ t n, exec (.recall false cl ctx line) s = .next t ∧ Tbl.find t.l2 (l2Key cl ctx line) = none ∧
      (∀ j, j ≠ l2Key cl ctx line → Tbl.find t.l2 j = Tbl.find s.l2 j) ∧ t.mem = s.mem ∧ t.stash = s.stash ∧ t.llcData = s.llcData ∧
      if x.dirty = 0 then t.writeBacks = s.writeBacks ∧ t.l2Data = s.l2Data
      else t.writeBacks = Tbl.put s.writeBacks n ⟨ctx, line, dirtyBytes s cl ctx line x, none⟩ ∧
        t.l2Data = Mem.clear s.l2Data (l2Addr cl ctx (256 * line)) 256 := by
  obtain ⟨u, hu, he⟩ := recallCopy_l2 hx fun k hk => tilesOf_eq_nil (ht k hk)
  have hothers : ∀ j, j ≠ l2Key cl ctx line → Tbl.find (Tbl.del u.l2 (l2Key cl ctx line)) j = Tbl.find s.l2 j := by
    intro j hj
    rw [Tbl.find_del, if_neg fun e => hj e.symm, hu.others j hj]
  by_cases hd : x.dirty = 0
  · refine ⟨_, 0, congrArg Host.Outcome.next he, Tbl.find_del_self _ _, hothers, hu.mem, hu.stash, hu.llcData, ?_⟩
    rw [if_pos hd]
    exact hu.clean hd
  · obtain ⟨⟨n, hn⟩, hdata⟩ := hu.sent hd
    refine ⟨_, n, congrArg Host.Outcome.next he, Tbl.find_del_self _ _, hothers, hu.mem, hu.stash, hu.llcData, ?_⟩
    rw [if_neg hd]
    exact ⟨hn, hdata⟩

/-- A write-back that finds no page is dropped, and each slice whose release waits for it notes the line. -/
theorem writebackArrival_dropped {s : State} {k i : Nat} {w : WBack} (hk : Tbl.find s.writeBacks k = some w)
    (hw : ∀ page size p, walk s w.ctx (256 * w.line) ≠ .leaf page size p) (hi : Tbl.find s.slices i = some (s.sl i)) :
    ∃ t, exec (.writebackArrival k) s = .next t ∧ t.writeBacks = Tbl.del s.writeBacks k ∧ t.llc = s.llc ∧ t.mem = s.mem ∧
      t.sl i = if w.crew = some (s.sl i).crew ∧ ((s.sl i).relIn = true ∨ (s.sl i).park = .before (.performed true)) ∧
          256 * w.line ∉ (s.sl i).lost then { s.sl i with lost := (s.sl i).lost ++ [256 * w.line] } else s.sl i := by
  have ha : arriveWriteBack s k = { s with
      writeBacks := Tbl.del s.writeBacks k
      slices := s.slices.map fun e => (e.1, afterDrop w.crew (256 * w.line) e.2) } := by
    simp only [arriveWriteBack, hk]
    exact acceptFrom_dropped (fun page size p => by rw [walk_writeBacks]; exact hw page size p) w.crew w.bytes
  refine ⟨_, congrArg Host.Outcome.next ha, rfl, rfl, rfl, ?_⟩
  rw [State.sl, Tbl.findD, Tbl.find_map_val s.slices (afterDrop w.crew (256 * w.line)) i, hi, Option.map_some, Option.getD_some, afterDrop_eq]

theorem bankSleepEvent {s : State} {bank last u : Nat} {asleep : Bool} (h : Tbl.findD s.banks bank (0, false, 0) = (last, asleep, u)) :
    exec (.bankSleep bank) s = .next (if bankSleeps s bank then
      { s with
        banks := Tbl.put s.banks bank (last, true, u)
        bankClock := Tbl.put s.bankClock (bankSlice bank) (s.pkg (bankPkg bank)).clock } else s) := by
  change execBankSleep bank s = _
  rw [execBankSleep, h]

theorem migrationAccess_starts {s : State} {n line : Nat} {m : Mig} (hm : Tbl.find s.migs n = some m) (hv : line ∉ m.valid)
    (hp : line ∉ m.pull) (hl : 256 * line < m.size) :
    exec (.migrationAccess n line) s = .next { s with migs := Tbl.put s.migs n { m with pull := m.pull ++ [line] } } := by
  change execMigrationAccess n line s = _
  rw [execMigrationAccess, Tbl.upd_of_find hm, if_neg (by simp [hv, hp, hl])]

/-- Settles O51, clause by clause from the rules of recalls, write-backs, banks, flushes and migrations. -/
theorem cacheEvents : Obligations.CacheEvents := by
  unfold Obligations.CacheEvents
  intro s
  refine ⟨fun cl ctx line x hx ht => recallEvent_l2 hx ht, fun crew ctx line => ?_, fun k w page size p hk hw => ?_,
    fun k w i hk hw hi => writebackArrival_dropped hk hw hi, fun bank last asleep u h => ?_, fun ctx line k hl hk hm => ?_,
    fun ctx va page size p new u n t0 hw hmv hc hn ht ho hs hp => ?_, fun n m hm => ?_⟩
  · obtain ⟨hc, ht⟩ := recallCopy_tiles s crew ctx line
    refine ⟨_, rfl, hc.mem, hc.stash, hc.llcData, fun k hk e he hcr => ht k hk e ?_⟩
    exact List.mem_filter.mpr ⟨he, by simpa using hcr⟩
  · refine congrArg Host.Outcome.next ?_
    simp only [arriveWriteBack, hk, acceptFrom, acceptBytes_leaf ((walk_writeBacks s _ _ _).trans hw), if_true]
  · rw [bankSleepEvent h]
    refine congrArg Host.Outcome.next ?_
    by_cases hb : bankSleeps s bank = true
    · rw [if_pos hb, if_pos ((bankSleeps_iff h).mp hb)]
    · rw [if_neg hb, if_neg fun hn => hb ((bankSleeps_iff h).mpr hn)]
  · exact congrArg Host.Outcome.next (cleanLlc_unmoved hl hk hm)
  · exact congrArg Host.Outcome.next (migrationStart_starts hw hmv hc hn ht ho hs hp)
  · intro _
    refine ⟨fun hp => congrArg Host.Outcome.next (migrationMarkDrained_marked hm hp), fun line hv hp hl => migrationAccess_starts hm hv hp hl,
      fun line hp hl hk => ?_, fun hp hl => congrArg Host.Outcome.next (migrationLineCopy_ends hm hp hl), fun line hl hv hk => ?_⟩
    · exact congrArg Host.Outcome.next ((migrationLineCopy_copying hm hp hl).trans (pull_goesOn (nextLine_some hl) hk))
    · exact congrArg Host.Outcome.next ((migrationPullDone_pulling hm hl).trans (pull_goesOn hv hk))

end Sys2Proof.Machine
end

section
/-! PROOF. Clearance, residency queues and page-table stores (O52): how a request stands when it reaches its owner, how a walk ends, what its
answer brings the asker, and what OS cores store in the tables (R33, R47, R52 to R54, R56, R59, R60, R224, R372). -/

namespace Sys2Proof.Machine

/-! ### Parking on a vacant index (R372) -/

theorem parkVacant_again {s : State} {a : VacantAsk} {pkg va : Nat} (h : ∃ e ∈ s.vacantReqs, e.2.ask = a) : parkVacant s a pkg va = s := by
  rw [parkVacant, if_pos (by simpa using h)]

theorem parkVacant_first {s : State} {a : VacantAsk} {pkg va : Nat} (h : ∀ e ∈ s.vacantReqs, e.2.ask ≠ a) :
    parkVacant s a pkg va = { s with
      nextId := s.nextId + 1
      vacantReqs := Tbl.put s.vacantReqs s.nextId ⟨a, pkg, vaPkg va, (s.pkg pkg).devTime.toNat⟩ } := by
  rw [parkVacant, if_neg (by simpa using h)]
  rfl

/-! ### A request reaches its owner -/

theorem tlbGrant_some {s : State} {ctx va : Nat} {r : Right} {e : TlbEntry} (he : tlbFind s ctx va = some e)
    (hr : leafAllows r e.leaf = true) (hp : pteProc e.leaf = false) (ha : e.agrees (walk s ctx va) = true) :
    tlbGrant s ctx va r = some (.grant e.page e.size r false) := by
  simp [tlbGrant, he, hr, hp, ha]

theorem tlbGrant_none {s : State} {ctx va : Nat} {r : Right} (h : ∀ e, tlbFind s ctx va = some e →
      leafAllows r e.leaf = false ∨ pteProc e.leaf = true ∨ e.agrees (walk s ctx va) = false) : tlbGrant s ctx va r = none := by
  cases he : tlbFind s ctx va with
  | none => simp [tlbGrant, he]
  | some e => rcases h e he with h | h | h <;> simp [tlbGrant, he, h]

section
variable {s : State} {k : Nat} {q : ClrReq} (hq : Tbl.find s.clrReqs k = some q) (ha : q.ans = none) (hw : q.walk = false)
include hq ha hw

theorem clearanceRequest_vacant (hv : (s.pkg (vaPkg q.va)).vacant = true) :
    clearanceRequest s k = parkVacant s (.clr k) (corePkg (askerCore s q.who)) q.va := by
  simp [clearanceRequest, hq, ha, hw, hv]

variable (hv : (s.pkg (vaPkg q.va)).vacant = false)
include hv

theorem clearanceRequest_closing (hc : closingFor s q.ctx q.va q.r = true) : clearanceRequest s k = s := by
  simp [clearanceRequest, hq, ha, hw, hv, hc]

variable (hc : closingFor s q.ctx q.va q.r = false)
include hc

theorem clearanceRequest_hit {a : Answer} (hg : tlbGrant s q.ctx q.va q.r = some a) :
    clearanceRequest s k = { setAD s q.ctx q.va a with clrReqs := Tbl.put s.clrReqs k { q with ans := some a } } := by
  simp [clearanceRequest, hq, ha, hw, hv, hc, hg]

theorem clearanceRequest_walks (hg : tlbGrant s q.ctx q.va q.r = none) :
    clearanceRequest s k = { s with clrReqs := Tbl.put s.clrReqs k { q with walk := true } } := by
  simp [clearanceRequest, hq, ha, hw, hv, hc, hg]

end

/-! ### A walk ends -/

/-- The owner answers a request: A and D are set, the answer waits for the asker. -/
def answered (s : State) (k : Nat) (q : ClrReq) (a : Answer) : State :=
  { setAD s q.ctx q.va a with clrReqs := Tbl.put s.clrReqs k { q with ans := some a, walk := false } }

section
variable {s : State} {k : Nat} {q : ClrReq} (hone : s.clrReqs.filter (fun e => e.2.walk && e.2.ans.isNone && e.2.ctx == q.ctx &&
  vaTower e.2.va == vaTower q.va && e.2.va / 4096 == q.va / 4096 && !closingFor s q.ctx e.2.va e.2.r) = [(k, q)])
include hone

/-- One request waits for the walk, which touches no hole. -/
theorem pageWalkDone_one (hh : walkTable s q.ctx q.va ≠ .hole) : pageWalkDone s (vaTower q.va) q.ctx q.va =
    tlbFill (answered s k q (ownerAnswer s q.ctx q.va q.r (askerGen s q.who))) q.ctx q.va := by
  have hh' : (walkTable s q.ctx q.va == .hole) = false := by simpa using hh
  simp only [pageWalkDone, hone, hh', List.isEmpty_cons, List.foldl_cons, List.foldl_nil, Bool.false_eq_true, if_false]
  rfl

/-- A leaf that touches a hole: the request is refused and the OS cores have a record (R33). -/
theorem pageWalkDone_hole (hh : walkTable s q.ctx q.va = .hole) : pageWalkDone s (vaTower q.va) q.ctx q.va =
    { s.log "hole" [q.ctx, q.va] with
      clrReqs := Tbl.put s.clrReqs k { q with ans := some (refuseGranule q.va q.r), walk := false } } := by
  have ho : ∀ gen, ownerAnswer (s.log "hole" [q.ctx, q.va]) q.ctx q.va q.r gen = refuseGranule q.va q.r := by
    intro gen
    rw [ownerAnswer, walkTable_log, hh]
  have hr : setAD (s.log "hole" [q.ctx, q.va]) q.ctx q.va (refuseGranule q.va q.r) = s.log "hole" [q.ctx, q.va] := rfl
  simp only [pageWalkDone, hone, hh, ho, hr, beq_self_eq_true, List.isEmpty_cons, List.foldl_cons, List.foldl_nil, Bool.false_eq_true,
    if_false, if_true]
  rw [tlbFill, walkTable_clrReqs, walkTable_log, hh]
  rfl

end

theorem ownerAnswer_nonResident {s : State} {ctx va : Nat} (h : walkTable s ctx va = .nonResident) (r : Right) (gen : Option GenInfo) :
    ownerAnswer s ctx va r gen = .nonResident va := by
  rw [ownerAnswer, h]

theorem ownerAnswer_bad {s : State} {ctx va : Nat} (h : walkTable s ctx va = .bad) (r : Right) (gen : Option GenInfo) :
    ownerAnswer s ctx va r gen = refuseGranule va r := by
  rw [ownerAnswer, h]

/-- A leaf that is not procedural grants what it allows and refuses the page otherwise. -/
theorem ownerAnswer_leaf {s : State} {ctx va page size : Nat} {p : DWord} (h : walkTable s ctx va = .leaf page size p)
    (hp : pteProc p = false) (r : Right) (gen : Option GenInfo) :
    ownerAnswer s ctx va r gen = if leafAllows r p = true then .grant page size r false else .refused page size (protCode r) := by
  rw [ownerAnswer, h]
  simp [hp]

/-! ### The answer reaches its asker -/

section
variable {s : State} {k i page size : Nat} {q : ClrReq} (hq : Tbl.find s.clrReqs k = some q)
include hq

/-- A grant for a resident page enters the core's cache and reaches the slices that asked together (R54, R56). -/
theorem clearanceAnswer_grant {r : Right} (hi : q.who = .slice i) (ha : q.ans = some (.grant page size r false)) :
    clearanceAnswer s k = (sameAskers s i).foldl
      (fun u j => u.updSl j fun x => { x with answers := x.answers ++ [.grant page size r false] })
      (({ s with clrReqs := Tbl.del s.clrReqs k } : State).updCore (s.coreOf i) fun c => clrPut c ⟨q.ctx, page, size, r⟩) := by
  simp only [clearanceAnswer, hq, ha, hi]
  rfl

variable {code : Nat} (ha : q.ans = some (.refused page size code))
include ha

theorem clearanceAnswer_refused (hi : q.who = .slice i) : clearanceAnswer s k = (sameAskers s i).foldl
    (fun u j => u.updSl j fun x => { x with answers := x.answers ++ [.refused page size code] }) { s with clrReqs := Tbl.del s.clrReqs k } := by
  simp only [clearanceAnswer, hq, ha, hi]

theorem clearanceAnswer_refusedFetch (hi : q.who = .fetch i) : clearanceAnswer s k = (sameAskers s i).foldl
    (fun u j => u.updSl j fun x => { x with fetch := x.fetch ++ [.refused page size code] }) { s with clrReqs := Tbl.del s.clrReqs k } := by
  simp only [clearanceAnswer, hq, ha, hi]

end

/-! ### Residency (R59) -/

theorem hasRecord_iff (l : List (Nat × Nat × Nat)) (ctx page : Nat) :
    (l.any fun e => e.1 == ctx && e.2.1 == page) = true ↔ ∃ e ∈ l, e.1 = ctx ∧ e.2.1 = page := by
  simp only [List.any_eq_true, Bool.and_eq_true, beq_iff_eq]

section
variable {s : State} {k ctx va core : Nat} (hk : Tbl.find s.resReqs k = some (ctx, va, core))
include hk

theorem residencyRequest_vacant (hv : vacantAt s va = true) : residencyRequest s k = parkVacant s (.res k) (corePkg core) va := by
  simp [residencyRequest, hk, hv]

variable (hv : vacantAt s va = false) (hw : walk s ctx va = .nonResident)
include hv hw

theorem residencyRequest_queues : residencyRequest s k =
    ({ s with resReqs := Tbl.del s.resReqs k } : State).setTower (vaTower va)
      (if (s.tower (vaTower va)).residency.any fun e => e.1 == ctx && e.2.1 == va / 4096 * 4096 then s.tower (vaTower va)
      else if (s.tower (vaTower va)).residency.length < 1024 then { s.tower (vaTower va) with
        residency := (s.tower (vaTower va)).residency ++ [(ctx, va / 4096 * 4096, core % 1024)] }
      else { s.tower (vaTower va) with resDrops := (s.tower (vaTower va)).resDrops + 1 }) := by
  simp only [residencyRequest, hk, hv, hw, Bool.false_eq_true, if_false, if_true]
  rfl

end

/-! ### Stores of OS cores -/

theorem osCorePteStore_store {s : State} {pkg pa : Nat} (pte : DWord) (ha : pa % 8 = 0) (hp : populated (s.pkg pkg) pa = true)
    (hm : ∀ n, n < 8 → migAt s (physKey pkg pa + n) = none) :
    exec (.osCorePteStore pkg pa pte) s = .next { s with mem := Mem.writeLE s.mem (physKey pkg pa) 8 pte.toNat } := by
  change execOsCorePteStore pkg pa pte s = _
  rw [execOsCorePteStore, if_pos (by simp [ha, hp]), physPut_unmoved hm]

/-- Settles O52, clause by clause from the rules of requests, walks, answers, residency queues and stores to entries. -/
theorem clearanceEvents : Obligations.ClearanceEvents := by
  unfold Obligations.ClearanceEvents
  intro s
  refine ⟨fun k q hq ha hw => ?_, fun k q va hq hva hw ha hc hone => ?_, fun k q i page size r hq hi ha => ?_,
    fun k q i page size code hq ha => ⟨fun hi => ?_, fun hi => ?_⟩, fun k ctx va core hk hv => ?_, fun k ctx va core hk hv hw => ?_,
    fun tower n => rfl, fun pkg pa pte hpa hp hm => ?_, fun ctx va h => ?_, fun ctx va a h => ?_⟩
  · intro vac home
    refine ⟨fun hv hn => ?_, fun hv hp => ?_, fun hv hc => ?_, fun hv hc => ⟨fun e he hr hp hg => ?_, fun hn => ?_⟩⟩
    · exact congrArg Host.Outcome.next ((clearanceRequest_vacant hq ha hw hv).trans (parkVacant_first hn))
    · exact congrArg Host.Outcome.next ((clearanceRequest_vacant hq ha hw hv).trans (parkVacant_again hp))
    · exact congrArg Host.Outcome.next (clearanceRequest_closing hq ha hw hv hc)
    · exact congrArg Host.Outcome.next (clearanceRequest_hit hq ha hw hv hc (tlbGrant_some he hr hp hg))
    · exact congrArg Host.Outcome.next (clearanceRequest_walks hq ha hw hv hc (tlbGrant_none hn))
  · intro ends
    have hends : ∀ a, walkTable s q.ctx q.va ≠ .hole → ownerAnswer s q.ctx q.va q.r (askerGen s q.who) = a → ends a := by
      intro a hh ho
      have h := pageWalkDone_one hone hh
      rw [ho] at h
      exact congrArg Host.Outcome.next (hva ▸ h)
    refine ⟨fun h => ?_, fun h => ?_, fun h => ?_, fun page size p h hp => ?_⟩
    · exact hends _ (by simp [h]) (ownerAnswer_nonResident h _ _)
    · exact hends _ (by simp [h]) (ownerAnswer_bad h _ _)
    · rw [← hva]
      exact congrArg Host.Outcome.next (hva ▸ pageWalkDone_hole hone h)
    · exact hends _ (by simp [h]) (ownerAnswer_leaf h hp _ _)
  · exact congrArg Host.Outcome.next (clearanceAnswer_grant hq hi ha)
  · exact congrArg Host.Outcome.next (clearanceAnswer_refused hq ha hi)
  · exact congrArg Host.Outcome.next (clearanceAnswer_refusedFetch hq ha hi)
  · exact congrArg Host.Outcome.next (residencyRequest_vacant hk hv)
  · intro t page u
    have h := residencyRequest_queues hk hv hw
    refine ⟨fun hj => ?_, fun hn => ?_⟩
    · rw [if_pos ((hasRecord_iff _ _ _).mpr hj)] at h
      exact congrArg Host.Outcome.next h
    · rw [if_neg fun hj => by obtain ⟨e, he, h1, h2⟩ := (hasRecord_iff _ _ _).mp hj; exact hn e he h1 h2] at h
      exact congrArg Host.Outcome.next h
  · refine ⟨_, osCorePteStore_store pte hpa hp hm, rfl, fun x => ?_⟩
    exact Mem.read_writeLE s.mem (physKey pkg pa) 8 pte.toNat x
  · exact congrArg (fun u => Host.Outcome.next (tlbDrop u ctx (va.toNat / 4096 * 4096) 4096)) (updLeaves_none h _)
  · intro w p ha hs hm
    exact congrArg (fun u => Host.Outcome.next (tlbDrop u ctx (va.toNat / 4096 * 4096) 4096)) (updLeaves_page h ha hm hs _)

end Sys2Proof.Machine
end

section
/-! SUPPORT. `runs_of` for the two common shapes of an instruction, once per slice and on lane addresses, and what a unit leaves whose slices only
run on. -/

namespace Sys2Proof.Machine

/-! ### Instructions whose checks let the unit issue -/

/-- An instruction that executes once per slice, its checks letting the unit issue. -/
theorem runs_once {i : Instr} {h : Hdr} {s : State} {chk : State → Nat → Option Nat} {pre : State → Nat → Pre}
    {act : State → State → Nat → State} {e : State → Nat → State} (hx : exec i s = runUnit h (onceMeaning h chk pre act) s)
    (hc : s.cur ≠ []) (hk : ∀ j ∈ s.cur, chk s j = none) (hp : s.each h fun j => pre s j = .go)
    (he : ∀ u j, act s u j = e u j) : Runs i h (perSlice h) e s :=
  runs_of hx hc rfl rfl (fun _ => rfl) hk hp fun u j _ => he u j

theorem lanesFor_atIssue (vec : Bool) (h : Hdr) (x : Slice) : lanesFor vec h (atIssue x) = lanesFor vec h x := rfl

/-- An instruction of lane addresses whose checks let it issue. -/
theorem runs_addr {i : Instr} {h : Hdr} {m : MemOp} {s : State} {pre : State → Nat → BitVec 4 → Pre} {f : State → Nat → List Nat → State}
    (hx : exec i s = runUnit h (addrMeaning h m pre f) s) (hc : s.cur ≠ [])
    (hr : ∀ j ∈ s.cur, regsOk (s.crewOf j) [(m.base, 2), (m.index, 1)] = true) (hp : ∀ j ∈ s.cur, ∀ l, pre s j l = .go) :
    Runs i h (lanesFor (memVec .zero m) h) (fun u j => f u j ((accsFor h (memVec .zero m) m 1 s j).map LaneAcc.va)) s :=
  runs_of hx hc rfl rfl (lanesFor_atIssue _ h) (regsOk_chk hr) (fun j hj _ => hp j hj _) fun _ _ _ => rfl

/-! ### Units whose slices only run on -/

/-- Steps that agree wherever `I` holds, which every step keeps. -/
theorem foldl_congr_inv {α σ : Type} {I : σ → Prop} {f g : σ → α → σ} {l : List α} (hI : ∀ a, I a → ∀ b ∈ l, I (g a b))
    (hfg : ∀ a, I a → ∀ b ∈ l, f a b = g a b) {a : σ} (ha : I a) : l.foldl f a = l.foldl g a := by
  induction l generalizing a with
  | nil => rfl
  | cons b l ih =>
    rw [List.foldl_cons, List.foldl_cons, hfg a ha b List.mem_cons_self]
    exact ih (fun a ha b hb => hI a ha b (List.mem_cons_of_mem _ hb)) (fun a ha b hb => hfg a ha b (List.mem_cons_of_mem _ hb))
      (hI a ha b List.mem_cons_self)

/-- Only slices differ, and none has changed its crew. -/
structure CrewsStay (s u : State) : Prop where
  rest : { u with slices := s.slices } = s
  crew : ∀ j, (u.sl j).crew = (s.sl j).crew

theorem CrewsStay.refl (s : State) : CrewsStay s s := ⟨rfl, fun _ => rfl⟩

theorem CrewsStay.updSl {s u : State} (h : CrewsStay s u) {f : Slice → Slice} (hf : ∀ x, (f x).crew = x.crew) (i : Nat) :
    CrewsStay s (u.updSl i f) := by
  refine ⟨h.rest, fun j => ?_⟩
  rw [State.updSl_eq, State.sl_setSl]
  split
  · rename_i hij
    rw [hf, hij, h.crew]
  · exact h.crew j

theorem CrewsStay.begun {s u : State} (h : CrewsStay s u) (j : Nat) : CrewsStay s (u.begun j) := h.updSl (f := atIssue) (fun _ => rfl) j

theorem CrewsStay.sameTables {s u : State} (h : CrewsStay s u) : SameTables s u := by
  constructor <;> rw [← h.rest]

theorem CrewsStay.ctxOf {s u : State} (h : CrewsStay s u) (j : Nat) : u.ctxOf j = s.ctxOf j := by
  have hcrews : u.crews = s.crews := by rw [← h.rest]
  simp only [State.ctxOf, State.crewOf, State.crew, hcrews, h.crew]

/-- An effect that changes nothing while slices only run on leaves a unit that only runs on. -/
theorem unitAfter_idle {s : State} {h : Hdr} {lanes : Slice → BitVec 4} {e : State → Nat → State}
    (he : ∀ u, CrewsStay s u → ∀ j ∈ s.cur, e u j = u) : s.unitAfter h lanes e = s.unitAfter h lanes fun u _ => u := by
  refine congrArg (s.cur.foldl fun u j => u.updSl j (waitW h)) (foldl_congr_inv (I := CrewsStay s) ?_ ?_ (CrewsStay.refl s))
  · intro u hu j _
    rw [ite_self]
    exact (hu.begun j).updSl (f := Slice.next) (fun _ => rfl) j
  · intro u hu j hj
    rw [he (u.begun j) (hu.begun j) j hj]

end Sys2Proof.Machine
end

section
/-! PROOF. Downgrades and flushes (O53): what a core drops when it empties its clearance cache, when it answers, and how the downgrade ends (R61 to
R63, R253, R361). -/

namespace Sys2Proof.Machine

/-! ### The packets of a recall -/

theorem TrafficOnly.slices {s t : State} (h : TrafficOnly s t) : t.slices = s.slices := by rw [← h.rest]
theorem TrafficOnly.clrReqs {s t : State} (h : TrafficOnly s t) : t.clrReqs = s.clrReqs := by rw [← h.rest]
theorem TrafficOnly.downgrades {s t : State} (h : TrafficOnly s t) : t.downgrades = s.downgrades := by rw [← h.rest]

theorem recallPackets_traffic (s : State) (cl va sectors : Nat) : TrafficOnly s (recallPackets s cl va sectors) :=
  (sendCluster_traffic s cl va).trans (sendHome_traffic _ _ _ _ _)

/-- A packet that occupies no window leaves every core as it is (R85). -/
theorem letIn_core {s : State} {k : Nat} {p : Pkt} (hp : p.units = 0) (c : Nat) : (letIn s k p).core c = s.core c := by
  unfold letIn
  rw [State.updCore, State.core_setCore]
  split
  · rename_i h
    subst h
    simp [hp, enqueue, State.core]
  · rfl

theorem recallPackets_core (s : State) (cl va sectors c : Nat) : (recallPackets s cl va sectors).core c = s.core c := by
  have hsend : (sendCluster s cl va).core c = s.core c := rfl
  unfold recallPackets sendHome
  dsimp only
  split
  · exact (letIn_core rfl c).trans hsend
  · exact hsend

/-! ### A core empties its clearance cache (R62, R63, R253) -/

/-- The answers that are no grant. -/
def withoutGrants (l : List Answer) : List Answer := l.filter fun a => match a with | .grant _ _ _ _ => false | _ => true

theorem grant_notMem_withoutGrants (l : List Answer) (p n : Nat) (r : Right) (w : Bool) : Answer.grant p n r w ∉ withoutGrants l := by
  simp [withoutGrants]

/-- A slice of the core has no grant any more and fetches its code again. -/
def emptiedSlice (s : State) (core : Nat) (x : Slice) : Slice :=
  if (s.crew x.crew).core = core then { x with answers := withoutGrants x.answers, fetch := [] } else x

/-- The chains of a crew of the core have no grant any more. -/
def emptiedCrew (core : Nat) (c : Crew) : Crew :=
  if c.core = core then { c with chains := c.chains.map fun ch => { ch with answers := withoutGrants ch.answers } } else c

/-- The core has emptied its clearance cache and its cached code, its slices and chains what they hold of grants. -/
def emptied (s : State) (core : Nat) : State :=
  { s.updCore core fun c => { c with clr := [], icache := [] } with
    slices := s.slices.map fun e => (e.1, emptiedSlice s core e.2)
    crews := s.crews.map fun e => (e.1, emptiedCrew core e.2) }

/-- The downgrade once the core has emptied: it waits for what the core had sent. -/
def askedCore (s : State) (d : Downgrade) (core : Nat) : Downgrade :=
  { d with
    toEmpty := d.toEmpty.filter (· != core)
    toAnswer := d.toAnswer ++ [core]
    waitFor := Tbl.put d.waitFor core (sentFrom s core) }

theorem shootdownMessage_eq {s : State} {dg core : Nat} {d : Downgrade} (hd : Tbl.find s.downgrades dg = some d) (hc : core ∈ d.toEmpty) :
    shootdownMessage s dg core =
      recallPackets { recallGrants (emptied s core) d core with downgrades := Tbl.put s.downgrades dg (askedCore s d core) }
        (coreCluster core) d.va 0 := by
  have hslices : (s.slices.map fun e : Nat × Slice => (e.1, emptiedSlice s core e.2)) = s.slices.map fun e =>
      if (s.crew e.2.crew).core = core then (e.1, { e.2 with answers := withoutGrants e.2.answers, fetch := [] }) else e :=
    List.map_congr_left fun e _ => by unfold emptiedSlice; split <;> rfl
  have hcrews : (s.crews.map fun e : Nat × Crew => (e.1, emptiedCrew core e.2)) = s.crews.map fun e =>
      if e.2.core = core then (e.1, { e.2 with chains := e.2.chains.map fun ch => { ch with answers := withoutGrants ch.answers } }) else e :=
    List.map_congr_left fun e _ => by unfold emptiedCrew; split <;> rfl
  have hc' : (!d.toEmpty.contains core) = false := by simpa using hc
  unfold shootdownMessage emptied
  rw [hd, hslices, hcrews]
  simp only [hc', Bool.false_eq_true, if_false]
  rfl

@[simp] theorem emptiedSlice_crew (s : State) (core : Nat) (x : Slice) : (emptiedSlice s core x).crew = x.crew := by
  unfold emptiedSlice; split <;> rfl
@[simp] theorem emptiedCrew_core (core : Nat) (c : Crew) : (emptiedCrew core c).core = c.core := by
  unfold emptiedCrew; split <;> rfl

theorem emptied_sl_crew (s : State) (core i : Nat) : ((emptied s core).sl i).crew = (s.sl i).crew := by
  simp only [State.sl, emptied, Tbl.findD, Tbl.find_map_val]
  cases Tbl.find s.slices i <;> simp

/-- No crew changes its core. -/
theorem emptied_crew_core (s : State) (core k : Nat) : ((emptied s core).crew k).core = (s.crew k).core := by
  simp only [State.crew, emptied, Tbl.findD, Tbl.find_map_val]
  cases Tbl.find s.crews k <;> simp

theorem emptied_askerCore (s : State) (core : Nat) (w : Asker) : askerCore (emptied s core) w = askerCore s w := by
  cases w <;> simp only [askerCore, State.coreOf, State.crewOf, emptied_sl_crew, emptied_crew_core]

theorem emptied_core (s : State) (core c : Nat) :
    (emptied s core).core c = if core = c then { s.core core with clr := [], icache := [] } else s.core c :=
  State.core_setCore s core c _

/-- A slice of the emptied core holds no grant and no fetch answer. -/
theorem emptied_slices {s : State} {core : Nat} {e : Nat × Slice} (he : e ∈ (emptied s core).slices)
    (hc : ((emptied s core).crew e.2.crew).core = core) : e.2.fetch = [] ∧ ∀ p n r w, Answer.grant p n r w ∉ e.2.answers := by
  obtain ⟨e0, -, rfl⟩ := List.mem_map.mp he
  rw [emptied_crew_core, emptiedSlice_crew] at hc
  simp only [emptiedSlice, if_pos hc]
  exact ⟨trivial, grant_notMem_withoutGrants _⟩

/-- A grant on its way to the core for a page that the downgrade names is on its way no more (R63). -/
theorem recallGrants_recalled {s : State} {d : Downgrade} {core : Nat} {e : Nat × ClrReq} (he : e ∈ (recallGrants s d core).clrReqs)
    (hc : askerCore s e.2.who = core) (hd : d.covers e.2.ctx e.2.va = true) (p n : Nat) (r : Right) (w : Bool) :
    e.2.ans ≠ some (.grant p n r w) := by
  obtain ⟨⟨k, q⟩, -, rfl⟩ := List.mem_map.mp he
  revert hc hd
  dsimp only
  split
  · split
    · intro _ _ h
      cases h
    · rename_i hn
      intro hc hd
      simp [hc, hd] at hn
  · rename_i hn
    intro _ _ h
    exact hn _ _ _ _ h

/-- The state after the message, field by field; the recall's packets leave these fields alone. -/
theorem shootdownMessage_empties {s : State} {dg core : Nat} {d : Downgrade} (hd : Tbl.find s.downgrades dg = some d)
    (hc : core ∈ d.toEmpty) :
    let t := shootdownMessage s dg core
    (∀ c, t.core c = (emptied s core).core c) ∧ t.mem = s.mem ∧ t.slices = (emptied s core).slices ∧ t.crews = (emptied s core).crews ∧
      t.clrReqs = (recallGrants (emptied s core) d core).clrReqs ∧ t.downgrades = Tbl.put s.downgrades dg (askedCore s d core) := by
  rw [shootdownMessage_eq hd hc]
  have h := recallPackets_traffic { recallGrants (emptied s core) d core with downgrades := Tbl.put s.downgrades dg (askedCore s d core) }
    (coreCluster core) d.va 0
  exact ⟨fun c => recallPackets_core _ _ _ _ c, h.mem, h.slices, h.crews, h.clrReqs, h.downgrades⟩

/-! ### A core answers (R62) -/

section
variable {s : State} {dg core : Nat} {d : Downgrade} (hd : Tbl.find s.downgrades dg = some d)
include hd

/-- Something that the core had sent is still to be performed. -/
theorem shootdownAnswer_waits (hw : ∃ e ∈ Tbl.findD d.waitFor core [], stillSent s e = true) : shootdownAnswer s dg core = s := by
  have hw' : (Tbl.findD d.waitFor core []).any (stillSent s) = true := List.any_eq_true.mpr hw
  simp only [shootdownAnswer, hd, hw', Bool.or_true, if_true]

variable (hc : core ∈ d.toAnswer) (hw : ∀ e ∈ Tbl.findD d.waitFor core [], stillSent s e = false)
include hc hw

theorem shootdownAnswer_answers : shootdownAnswer s dg core =
    let d1 := { d with toAnswer := d.toAnswer.filter (· != core) }
    if d1.toAnswer = [] ∧ d.toEmpty = [] then
      { recallPhase s d1 with downgrades := Tbl.put (recallPhase s d1).downgrades dg { d1 with closed := true } }
    else { s with downgrades := Tbl.put s.downgrades dg d1 } := by
  have hc' : (!d.toAnswer.contains core) = false := by simpa using hc
  have hw' : (Tbl.findD d.waitFor core []).any (stillSent s) = false := by simpa using hw
  simp only [shootdownAnswer, hd, hc', hw', Bool.or_false, Bool.false_eq_true, if_false, Bool.and_eq_true, List.isEmpty_iff]

end

/-! ### The downgrade ends (R42, R62) -/

/-- A slice that waited for the downgrade goes on. -/
def goesOn (dg : Nat) (x : Slice) : Slice :=
  match x.park with
  | .after (.shootdown k) w => if k = dg then { x with park := .after (.clock 0) w } else x
  | _ => x

/-- The tables under which the parked requests are met again: the new leaf stands, or a migration's copy begins. -/
def closedTables (s : State) (d : Downgrade) : State :=
  match d.leaf, d.mig with
  | some l, none => tlbDrop (updLeaves s d.ctx d.va fun _ => l) d.ctx d.va d.size
  | _, some m => { s with migs := Tbl.upd s.migs m fun g => { g with phase := .copying } }
  | none, none => s

theorem closedTables_migrates {s : State} {d : Downgrade} {m : Nat} (hm : d.mig = some m) :
    closedTables s d = { s with migs := Tbl.upd s.migs m fun g => { g with phase := .copying } } := by
  unfold closedTables
  rw [hm]
  cases d.leaf <;> rfl

theorem downgradeClose_eq {s : State} {dg : Nat} {d : Downgrade} (hd : Tbl.find s.downgrades dg = some d) (he : d.toEmpty = [])
    (ha : d.toAnswer = []) (hc : d.closed = true) : downgradeClose s dg =
      { closedTables s d with
        downgrades := Tbl.del (closedTables s d).downgrades dg
        slices := (closedTables s d).slices.map fun e => (e.1, goesOn dg e.2) } := by
  unfold downgradeClose
  rw [hd]
  simp only [he, ha, hc, List.isEmpty_nil, Bool.and_self, Bool.not_true, Bool.false_eq_true, if_false]
  rfl

/-! ### The events -/

/-- Settles O53, clause by clause from the rules of the message, of the answer and of the end of a downgrade. -/
theorem shootdownEvents : Obligations.ShootdownEvents := by
  unfold Obligations.ShootdownEvents
  intro s dg d hd
  refine ⟨fun core hc => ?_, fun core hc => ⟨fun hw => ?_, fun hw => ?_⟩, fun he ha hcl => ?_⟩
  · obtain ⟨hcore, hmem, hslices, hcrews, hreqs, hdg⟩ := shootdownMessage_empties hd hc
    have hcrew : ∀ k, (shootdownMessage s dg core).crew k = (emptied s core).crew k := fun k => by simp only [State.crew, hcrews]
    refine ⟨_, rfl, ?_, ?_, fun c hne => ?_, hmem, fun e hs hcr => ?_, fun e hq hwho hcov => ?_, ?_⟩
    · simp [hcore, emptied_core]
    · simp [hcore, emptied_core]
    · simp [hcore, emptied_core, Ne.symm hne]
    · exact emptied_slices (hslices ▸ hs) (hcrew _ ▸ hcr)
    · exact recallGrants_recalled (hreqs ▸ hq) ((emptied_askerCore s core _).trans hwho) hcov
    · rw [hdg, Tbl.find_put_self]
      rfl
  · exact congrArg Host.Outcome.next (shootdownAnswer_waits hd hw)
  · intro d1
    have hans := shootdownAnswer_answers hd hc hw
    refine ⟨fun hmore => ?_, fun hlast hempty => ?_⟩
    · exact congrArg Host.Outcome.next (hans.trans (if_neg fun h => hmore.elim (· h.1) (· h.2)))
    · exact congrArg Host.Outcome.next (hans.trans (if_pos ⟨hlast, hempty⟩))
  · intro goes ends
    have hends : ∀ u, closedTables s d = u → ends u := by
      rintro u rfl
      exact congrArg Host.Outcome.next (downgradeClose_eq hd he ha hcl)
    refine ⟨fun l hl hm => hends _ ?_, fun m hm => hends _ (closedTables_migrates hm), fun hl hm => hends _ ?_⟩
    · simp only [closedTables, hl, hm]
    · simp only [closedTables, hl, hm]

end Sys2Proof.Machine
end

section
/-! PROOF. PREF, PREQ and CCTL (O28): a prefetch of a page that may not be read leaves nothing, and cache control goes line by line (R59, R253,
R320, R321). -/

namespace Sys2Proof.Machine

/-! ### Prefetches (R320) -/

theorem prefOne_absent {l2 : Bool} {ch : Nat} {u : State} {j va : Nat} (h : prefPage u j va = none) : prefOne l2 ch u j va = u := by
  rw [prefOne, h]

/-- Whether a page may be brought in is a matter of the tables and of the slice's context. -/
theorem CrewsStay.prefPage {s u : State} (h : CrewsStay s u) (j va : Nat) : prefPage u j va = prefPage s j va := by
  have hctx : ∀ k, u.ctx k = s.ctx k := fun k => by simp only [State.ctx, h.sameTables.ctxs]
  have hva : userAddr u va = userAddr s va := by rw [← h.rest]; rfl
  rw [Machine.prefPage, hva, h.ctxOf, h.sameTables.walk, hctx]
  rfl

/-- Pages that may not be read leave nothing behind. -/
theorem prefetches_absent {s : State} {h : Hdr} {lanes : Slice → BitVec 4} {as : Nat → List LaneAcc} (l2 : Bool) (ch : Nat)
    (ha : ∀ j ∈ s.cur, ∀ a ∈ as j, prefPage s j a.va = none) :
    (s.unitAfter h lanes fun u j => (as j).foldl (fun u a => prefOne l2 ch u j a.va) u) = s.unitAfter h lanes fun u _ => u :=
  unitAfter_idle fun u hu j hj => List.foldlRecOn (motive := (· = u)) (as j) _ rfl fun _ hv a hm =>
    hv ▸ prefOne_absent (hv ▸ (hu.prefPage j a.va).trans (ha j hj a hm))

/-! ### Cache control (R321) -/

theorem l2wpPre_open {s : State} {j : Nat} (h : (s.cluster (coreCluster (s.coreOf j))).raising = none) : l2wpPre s j = .go := by
  rw [l2wpPre, h]

/-! ### The instructions -/

/-- Settles O28: each instruction runs its effect over the lanes' addresses; a prefetch looks at the tables as they were at issue, which slices that
only run on do not change. -/
theorem hintsAndCacheControl : Obligations.HintsAndCacheControl := by
  unfold Obligations.HintsAndCacheControl
  intro s h m hu lanes as hr
  have hl2 : Runs (.prefL2 h m) h lanes (fun u j => (as j).foldl (fun u a => prefOne true h.ch u j a.va) u) s := by
    simpa only [List.foldl_map] using runs_addr (i := .prefL2 h m) rfl hu.1 hr fun _ _ _ => rfl
  have hllc : Runs (.prefLlc h m) h lanes (fun u j => (as j).foldl (fun u a => prefOne false h.ch u j a.va) u) s := by
    simpa only [List.foldl_map] using runs_addr (i := .prefLlc h m) rfl hu.1 hr fun _ _ _ => rfl
  refine ⟨hl2, hllc, fun ha => ⟨?_, ?_⟩, ?_, ?_, fun hw => ?_⟩
  · rwa [Runs, prefetches_absent true h.ch ha] at hl2
  · rwa [Runs, prefetches_absent false h.ch ha] at hllc
  · have hq := runs_addr (i := .preq h m) rfl hu.1 hr fun _ _ _ => rfl
    simp only [List.foldl_map, userAddr, Bool.and_eq_true, decide_eq_true_eq] at hq
    exact hq
  · exact runs_of (i := .cctlIinv h) rfl hu.1 rfl rfl (fun _ => rfl) (fun _ _ => rfl) (fun _ _ _ => rfl) fun _ _ _ => rfl
  · intro sent wait
    have hcctl : ∀ (evict : Bool) (i : Instr), exec i s = cctl h m evict s → Runs i h lanes (fun u j => wait (sent evict u j) j) s := by
      intro evict i hx
      have hq := runs_addr hx hu.1 hr fun j hj _ => l2wpPre_open (hw j hj)
      simp only [List.map_map] at hq
      exact hq
    exact ⟨hcctl false _ rfl, hcctl true _ rfl⟩

end Sys2Proof.Machine
end

section
/-! PROOF. The instructions of a system crew (O48): operands that name a context, whether it has stopped, and each instruction's effect in a slice
of the unit (R62, R247, R249, R250, R360 to R363). -/

namespace Sys2Proof.Machine

/-! ### Operands and checks -/

theorem chkSys_of_sys {s : State} {j : Nat} (h : (s.ctx (s.ctxOf j)).sys = true) : chkSys s j = none := if_pos h

theorem ctxOperandOk_named {s : State} {j k : Nat} (hn : k < 256 ∧ s.hasCtx k = true) : ctxOperandOk s j k false = true := by
  simp [ctxOperandOk, hn]

theorem ctxOperandOk_other {s : State} {j k : Nat} (hn : k < 256 ∧ s.hasCtx k = true) (ho : k ≠ s.ctxOf j) :
    ctxOperandOk s j k true = true := by
  simp [ctxOperandOk, hn, ho]

theorem ctxSettled_iff {s : State} {k : Nat} :
    ctxSettled s k = true ↔ (s.ctx k).st = .stopped ∨ (s.ctx k).st = .dead ∧ ctxCrews s k = [] := by
  simp [ctxSettled]

theorem operandIf_ctxOperandOk {s : State} {j k : Nat} {other : Bool} (h : ctxOperandOk s j k other = true) :
    operandIf (!ctxOperandOk s j k other) = .go := by
  rw [h]
  rfl

/-! ### What must hold before issue -/

section
variable {s : State} {h : Hdr} {a b c : Opnd} {j : Nat}

theorem shootDgPre_go {page size : Nat} {p : DWord} (hn : rs64 s j h a < 256 ∧ s.hasCtx (rs64 s j h a) = true)
    (hu : userAddr s (rs64 s j h b) = true) (hv : vacantAt s (rs64 s j h b) = false)
    (hw : walkTable s (rs64 s j h a) (rs64 s j h b) = .leaf page size p)
    (hl : newLeafOk s (rs64 s j h a) (rs64 s j h b) size p (BitVec.ofNat 64 (rs64 s j h c)) = true)
    (ht : pageTurn s j (rs64 s j h a) page size = true) : shootDgPre h a b c s j = .go := by
  simp [shootDgPre, ctxOperandOk_named hn, hu, hv, hw, hl, ht]

theorem ctxstopPrePre_go (hn : rs64 s j h a < 256 ∧ s.hasCtx (rs64 s j h a) = true) (ho : rs64 s j h a ≠ s.ctxOf j)
    (hs : ctxSettled s (rs64 s j h a) = true) : ctxstopPrePre h a s j = .go := by
  simp [ctxstopPrePre, ctxOperandOk_other hn ho, hs]

theorem ctxgoPre_go (hn : rs64 s j h a < 256 ∧ s.hasCtx (rs64 s j h a) = true) (ho : rs64 s j h a ≠ s.ctxOf j)
    (hd : (s.ctx (rs64 s j h a)).st ≠ .dead) : ctxgoPre h a s j = .go := by
  simp [ctxgoPre, ctxOperandOk_other hn ho, operandIf, hd]

end

/-! ### The instructions -/

/-- Settles O48, instruction by instruction: its checks, then its effect in each slice as the model has it. -/
theorem systemInstructions : Obligations.SystemInstructions := by
  unfold Obligations.SystemInstructions
  intro s h d a b c hu hsys ctx va new named other settled lands told again
  have hk : ∀ j ∈ s.cur, chkSys s j = none := fun j hj => chkSys_of_sys (hsys j hj)
  refine ⟨fun hp => ?_, fun hp => ?_, fun hp => ?_, fun hp => ?_, fun hp => ?_, fun hp => ?_⟩
  · refine runs_once (i := .shootDg h a b c) rfl hu.1 hk (fun j hj hl => ?_) fun u j => ?_
    · obtain ⟨hn, hua, hv, page, size, p, hw, hlf, ht⟩ := hp j hj hl
      exact shootDgPre_go hn hua hv hw hlf ht
    · dsimp only [ctx, va, new]
      cases walkTable u (rs64 s j h a) (rs64 s j h b) with
      | leaf page size p =>
        dsimp only
        cases downgradeMeets u (rs64 s j h a) page size with
        | none => rfl
        | some k => rfl
      | nonResident => rfl
      | bad => rfl
      | hole => rfl
  · refine runs_once (i := .shootFlush h a) rfl hu.1 hk (fun j hj hl => ?_) fun _ _ => rfl
    exact operandIf_ctxOperandOk (ctxOperandOk_named (hp j hj hl))
  · exact runs_once (i := .halt h d) rfl hu.1 hk (fun j hj hl => if_pos (Option.isSome_iff_ne_none.mpr (hp j hj hl))) fun _ _ => rfl
  · refine runs_once (i := .ctxstopPre h d a) rfl hu.1 hk (fun j hj hl => ?_) fun u j => ?_
    · obtain ⟨⟨hn, ho⟩, hs⟩ := hp j hj hl
      exact ctxstopPrePre_go hn ho (ctxSettled_iff.mpr hs)
    · simp only [Bool.and_eq_true, Option.isSome_iff_ne_none]
      rfl
  · refine runs_once (i := .ctxstopKill h d a) rfl hu.1 hk (fun j hj hl => ?_) fun u j => ?_
    · obtain ⟨hn, ho⟩ := hp j hj hl
      exact operandIf_ctxOperandOk (ctxOperandOk_other hn ho)
    · by_cases hs : settled u (ctx j)
      · have hs' : ctxSettled u (rs64 s j h a) = true := ctxSettled_iff.mpr hs
        simp only [if_pos hs, hs']
        rfl
      · have hs' : ctxSettled u (rs64 s j h a) = false := Bool.eq_false_iff.mpr (mt ctxSettled_iff.mp hs)
        simp only [if_neg hs, hs']
        rfl
  · refine runs_once (i := .ctxgo h a b) rfl hu.1 hk (fun j hj hl => ?_) fun u j => ?_
    · obtain ⟨⟨hn, ho⟩, hd⟩ := hp j hj hl
      exact ctxgoPre_go hn ho hd
    · simp only [beq_iff_eq]
      rfl

end Sys2Proof.Machine
end

section
/-! PROOF. PGREG, PGDONE, PGFAIL and PGRST in a unit of one slice (O46): no reset is made early where no MLOOP pins a block, and each instruction's
checks and effect (R64 to R66, R73, R76, R77, R354 to R356). -/

namespace Sys2Proof.Machine

/-! ### Units of one slice -/

/-- A unit of one slice in which the guard holds completes with the instruction's effect. -/
theorem Runs.completesOne {i : Instr} {h : Hdr} {lanes : Slice → BitVec 4} {e : State → Nat → State} {s : State} {j : Nat}
    (hr : Runs i h lanes e s) (hc : s.cur = [j]) (hl : lanes (s.sl j) ≠ 0) : CompletesOne i h j (e (s.begun j) j) s := by
  obtain ⟨t, ht, hs⟩ := hr
  refine ⟨t, ht, ?_⟩
  have hu : s.unitAfter h lanes e = (e (s.begun j) j).updSl j fun x => waitW h x.next := by
    simp only [State.unitAfter, hc, List.foldl_cons, List.foldl_nil, if_neg hl, State.updSl_eq, State.sl_setSl_self, State.setSl_setSl]
  exact hu ▸ hs

/-- A once-per-slice instruction, its checks letting the unit of one slice issue. -/
theorem completesOne_once {i : Instr} {h : Hdr} {s : State} {j : Nat} {chk : State → Nat → Option Nat} {pre : State → Nat → Pre}
    {act : State → State → Nat → State} (hx : exec i s = runUnit h (onceMeaning h chk pre act) s) (hc : s.cur = [j])
    (hl : perSlice h (s.sl j) ≠ 0) (hk : chk s j = none) (hp : pre s j = .go) : CompletesOne i h j (act s (s.begun j) j) s :=
  have hr : Runs i h (perSlice h) (act s) s :=
    runs_once hx (by simp [hc]) (by simpa [hc] using hk) (by simpa [State.each, hc] using fun _ => hp) fun _ _ => rfl
  hr.completesOne hc hl

theorem begun_crewOf (s : State) (j : Nat) : (s.begun j).crewOf j = s.crewOf j := by
  simp [State.crewOf, State.begun, atIssue]
theorem begun_ctxOf (s : State) (j : Nat) : (s.begun j).ctxOf j = s.ctxOf j := congrArg Crew.ctx (begun_crewOf s j)
theorem begun_coreOf (s : State) (j : Nat) : (s.begun j).coreOf j = s.coreOf j := congrArg Crew.core (begun_crewOf s j)

/-! ### Blocks that an MLOOP pins (R66, R77) -/

theorem resetFree_of_not_held {s : State} {ctx slot : Nat} {blk : Option Nat} (h : blocksHeld s ctx slot blk = false) :
    resetFree s ctx slot blk = s := by
  simp [resetFree, h]

theorem blocksHeld_unused {s : State} {ctx slot : Nat} (h : Tbl.find (s.ctx ctx).ranges slot = none) (blk : Option Nat) :
    blocksHeld s ctx slot blk = false := by
  simp [blocksHeld, namedBlocks, h]

/-- A unit of one slice resets nothing early unless an MLOOP pins a block that it names. -/
theorem unitResets_of_not_held {h : Hdr} {pre : State → Nat → Pre} {named : State → Nat → Option (Nat × Option Nat)} {s : State} {j : Nat}
    (hc : s.cur = [j]) (hn : ∀ e, named s j = some e → blocksHeld s (s.ctxOf j) e.1 e.2 = false) : unitResets h pre named s = s := by
  unfold unitResets
  dsimp only
  split
  · rfl
  · rw [hc, List.filter_singleton]
    cases perSlice h (s.sl j) != 0
    · rfl
    · dsimp only [cond_true, List.foldl_cons, List.foldl_nil]
      cases he : named s j with
      | none => rfl
      | some e => exact resetFree_of_not_held (hn e he)

/-- A once-per-slice instruction that resets what it may before its unit parks, where no MLOOP pins a block that it names. -/
theorem completesOne_resets {i : Instr} {h : Hdr} {s : State} {j : Nat} {chk : State → Nat → Option Nat} {pre pre' : State → Nat → Pre}
    {act : State → State → Nat → State} {named : State → Nat → Option (Nat × Option Nat)}
    (hx : exec i s = runUnit h (onceMeaning h chk pre act) (unitResets h pre' named s)) (hc : s.cur = [j]) (hl : perSlice h (s.sl j) ≠ 0)
    (hn : ∀ e, named s j = some e → blocksHeld s (s.ctxOf j) e.1 e.2 = false) (hk : chk s j = none) (hp : pre s j = .go) :
    CompletesOne i h j (act s (s.begun j) j) s :=
  completesOne_once (hx.trans (congrArg (runUnit h _) (unitResets_of_not_held hc hn))) hc hl hk hp

/-! ### What must hold before issue -/

theorem accessPre_go {s : State} {j : Nat} (h : (s.sl j).accs = []) : accessPre s j = .go := by
  simp [accessPre, h]

section
variable {s : State} {h : Hdr} {a b : Opnd} {j : Nat}

theorem pgregPre_go (hs : rs32 s j h a < 16) (hv : rs64 s j h b % 64 = 0) (ha : (s.sl j).accs = [])
    (hw : (s.cluster (coreCluster (s.coreOf j))).raising = none) (hr : standRead s (sliceParty s j) false [(rs64 s j h b, 64)] = .ok)
    (ho : rangeOk s (s.ctxOf j) (rs32 s j h a) (descAt s j (rs64 s j h b)) (rs64 s j h b) = true) : pgregPre h a b s j = .go := by
  simp [pgregPre, Nat.not_lt.mpr (Nat.le_of_lt_succ hs), hv, accessPre_go ha, hr, l2wpPre_open hw, ho, Pre.next, Stand.pre]

theorem releasePre_go {slot : Nat} (hs : slot < 16) (hh : blocksHeld s (s.ctxOf j) slot none = false) : releasePre s j slot = .go := by
  simp [releasePre, Nat.not_lt.mpr (Nat.le_of_lt_succ hs), hh]

theorem pgrstSlotPre_go {r : PRange} (hs : rs64 s j h a < 16) (hr : Tbl.find (s.ctx (s.ctxOf j)).ranges (rs64 s j h a) = some r)
    (hh : blocksHeld s (s.ctxOf j) (rs64 s j h a) none = false) : pgrstSlotPre h a s j = .go := by
  simp [pgrstSlotPre, Nat.not_lt.mpr (Nat.le_of_lt_succ hs), hr, hh]

theorem chkGen_of_gen {g : GenInfo} (hg : (s.crewOf j).gen = some g) : chkGen s j = none := by
  simp [chkGen, hg]

/-! ### Release of a slot (R66) -/

theorem releaseRange_unused {slot : Nat} (hr : Tbl.find (s.ctx (s.ctxOf j)).ranges slot = none) :
    releaseRange (s.begun j) j slot = s.begun j := by
  have hr' : Tbl.find ((s.begun j).ctx (s.ctxOf j)).ranges slot = none := hr
  simp only [releaseRange, begun_ctxOf, hr']

theorem releaseRange_used {slot : Nat} {r : PRange} (hr : Tbl.find (s.ctx (s.ctxOf j)).ranges slot = some r) :
    releaseRange (s.begun j) j slot =
      (resetBlocks (s.begun j) (s.ctxOf j) slot r none).updCtx (s.ctxOf j) fun c => { c with ranges := Tbl.del c.ranges slot } := by
  have hr' : Tbl.find ((s.begun j).ctx (s.ctxOf j)).ranges slot = some r := hr
  simp only [releaseRange, begun_ctxOf, hr']

/-- The counters of PGSTAT at their offsets in the descriptor. -/
theorem registerRange_counters (s : State) (ctx slot v desc : Nat) : registerRange s ctx slot v desc =
    [32, 36, 40, 44, 48, 52].foldl (fun u off => statPut u ctx desc off fun _ => 0)
      (s.updCtx ctx fun c => { c with ranges := Tbl.put c.ranges slot (parseRange v desc) }) := rfl

variable (hc : s.cur = [j]) (hl : perSlice h (s.sl j) ≠ 0)
include hc hl

theorem pgreg_releases {u : State} (hs : rs32 s j h a < 16) (hh : blocksHeld s (s.ctxOf j) (rs32 s j h a) none = false)
    (hu : releaseRange (s.begun j) j (rs32 s j h a) = u) (hv : rs64 s j h b = 0) :
    CompletesOne (.pgreg h a b) h j (afterReset u j) s := by
  have hn : ∀ e, (if rs64 s j h b = 0 then some (rs32 s j h a, none) else none) = some e → blocksHeld s (s.ctxOf j) e.1 e.2 = false :=
    fun e he => Option.some.inj ((if_pos hv).symm.trans he) ▸ hh
  have hdo := completesOne_resets (i := .pgreg h a b) rfl hc hl hn rfl ((if_pos hv).trans (releasePre_go hs hh))
  rwa [if_pos hv, hu] at hdo

theorem pgregRelease_releases {u : State} (hs : rs32 s j h a < 16) (hh : blocksHeld s (s.ctxOf j) (rs32 s j h a) none = false)
    (hu : releaseRange (s.begun j) j (rs32 s j h a) = u) : CompletesOne (.pgregRelease h a) h j (afterReset u j) s := by
  have hn : ∀ e, some (rs32 s j h a, none) = some e → blocksHeld s (s.ctxOf j) e.1 e.2 = false := fun e he => Option.some.inj he ▸ hh
  have hdo := completesOne_resets (i := .pgregRelease h a) rfl hc hl hn rfl (releasePre_go hs hh)
  rwa [hu] at hdo

/-! ### Registration and reset (R65, R77) -/

theorem pgreg_registers (hz : rs64 s j h b ≠ 0) (hp : pgregPre h a b s j = .go)
    (ho : rangeOk s (s.ctxOf j) (rs32 s j h a) (descAt s j (rs64 s j h b)) (rs64 s j h b) = true) :
    CompletesOne (.pgreg h a b) h j
      ((registerRange (sliceReads (s.begun j) j [(rs64 s j h b, 64)]) (s.ctxOf j) (rs32 s j h a) (descAt s j (rs64 s j h b)) (rs64 s j h b)).updSl j
        (standAt .now)) s := by
  have hn : ∀ e, (if rs64 s j h b = 0 then some (rs32 s j h a, none) else none) = some e → blocksHeld s (s.ctxOf j) e.1 e.2 = false :=
    fun e he => absurd ((if_neg hz).symm.trans he) (by simp)
  have hdo := completesOne_resets (i := .pgreg h a b) rfl hc hl hn rfl ((if_neg hz).trans hp)
  have ho' : rangeOk (s.begun j) (s.ctxOf j) (rs32 s j h a) (descAt s j (rs64 s j h b)) (rs64 s j h b) = true := ho
  rwa [if_neg hz, begun_ctxOf, if_pos ho'] at hdo

theorem pgrstBlk_resets {k blk : Nat} {r : PRange} (hb : blockOf (s.ctx (s.ctxOf j)) (rs64 s j h a) = some (k, r, blk))
    (hh : blocksHeld s (s.ctxOf j) k (some blk) = false) :
    CompletesOne (.pgrstBlk h a) h j (afterReset (resetBlocks (s.begun j) (s.ctxOf j) k r (some blk)) j) s := by
  have hdo := completesOne_once (i := .pgrstBlk h a) rfl hc hl rfl (by simp only [hb, hh]; rfl)
  have hb' : blockOf ((s.begun j).ctx (s.ctxOf j)) (rs64 s j h a) = some (k, r, blk) := hb
  simpa only [begun_ctxOf, hb'] using hdo

theorem pgrstSlot_resets {r : PRange} (hs : rs64 s j h a < 16) (hr : Tbl.find (s.ctx (s.ctxOf j)).ranges (rs64 s j h a) = some r)
    (hh : blocksHeld s (s.ctxOf j) (rs64 s j h a) none = false) :
    CompletesOne (.pgrstSlot h a) h j (afterReset (resetBlocks (s.begun j) (s.ctxOf j) (rs64 s j h a) r none) j) s := by
  have hn : ∀ e, some (rs64 s j h a, none) = some e → blocksHeld s (s.ctxOf j) e.1 e.2 = false := fun e he => Option.some.inj he ▸ hh
  have hdo := completesOne_resets (i := .pgrstSlot h a) rfl hc hl hn rfl (pgrstSlotPre_go hs hr hh)
  have hr' : Tbl.find ((s.begun j).ctx (s.ctxOf j)).ranges (rs64 s j h a) = some r := hr
  simpa only [begun_ctxOf, hr'] using hdo

/-! ### A generator's own instructions (R73, R76) -/

theorem pgdone_tells {g : GenInfo} (hg : (s.crewOf j).gen = some g) (ha : (s.sl j).accs = []) (hrel : s.released j true) :
    CompletesOne (.pgdone h) h j ((injectControl (s.begun j) (s.coreOf j) g.block).updSl j (standAt .tower)) s := by
  have hdo := completesOne_once (i := .pgdone h) rfl hc hl (chkGen_of_gen hg)
    (by rw [accessPre_go ha]; exact relPre_go hrel)
  simpa only [begun_crewOf, begun_coreOf, hg, Option.map_some, Option.getD_some] using hdo

theorem pgfail_fails {g : GenInfo} (hg : (s.crewOf j).gen = some g) (hk : rs64 s j h a < 2 ^ 16) :
    CompletesOne (.pgfail h a) h j (failGenerator (s.begun j) (s.sl j).crew (failRecord 0 g.depth g.slot (rs64 s j h a))) s := by
  have hdo := completesOne_once (i := .pgfail h a) rfl hc hl (chkGen_of_gen hg)
    (by rw [decide_eq_false (Nat.not_le.mpr hk)]; rfl)
  simpa only [hg] using hdo

end

/-- Settles O46, instruction by instruction: its checks let the slice issue, and its effect is the model's on the slice begun. -/
theorem proceduralInstructions : Obligations.ProceduralInstructions := by
  unfold Obligations.ProceduralInstructions
  intro s j h a b hc hl u ctx slot va past
  refine ⟨fun hs hz hv ha hw hr ho => ?_, fun r hs hr hh => ?_, fun hs hr => ?_, fun g hg ha hrel => pgdone_tells hc hl hg ha hrel,
    fun g hg hk => pgfail_fails hc hl hg hk, fun k r blk hb hh => pgrstBlk_resets hc hl hb hh,
    fun r hs hr hh => pgrstSlot_resets hc hl hs hr hh⟩
  · exact registerRange_counters .. ▸ pgreg_registers hc hl hz (pgregPre_go hs hv ha hw hr ho) ho
  · have hrel := releaseRange_used hr
    exact ⟨pgreg_releases hc hl hs hh hrel, pgregRelease_releases hc hl hs hh hrel⟩
  · have hrel := releaseRange_unused hr
    have hh := blocksHeld_unused hr none
    exact ⟨pgreg_releases hc hl hs hh hrel, pgregRelease_releases hc hl hs hh hrel⟩

end Sys2Proof.Machine
end

section
/-! PROOF. Procedural blocks and generators (O54): how a read ends by the state of its block, prefetches, reads that are sent again, where a generator
starts, how it fills its block and how it fails (R69 to R77). -/

namespace Sys2Proof.Machine

/-! ### A request reaches the home -/

theorem setBlock_fillReqs (s : State) (ctx b : Nat) (x : PBlock) : (setBlock s ctx b x).fillReqs = s.fillReqs :=
  State.updCtx_fillReqs ..

section
variable {s : State} {k : Nat} {q : FillReq} (hq : Tbl.find s.fillReqs k = some q)
include hq

theorem answerFill_slice {i : Nat} (hi : q.who = .slice i) (a : Answer) : answerFill s k a =
    ({ s with fillReqs := Tbl.del s.fillReqs k } : State).updSl i fun y => { y with answers := y.answers ++ [a] } := by
  simp only [answerFill, hq, hi, giveAnswer]

theorem procBlockRead_vacant (hp : q.pref = false) (hs : q.sent = true) (hv : vacantAt s q.va = true) :
    procBlockRead s k = parkVacant s (.fill k) (corePkg (askerCore s q.who)) q.va := by
  simp [procBlockRead, hq, hp, hs, hv]

theorem procPref_vacant (hp : q.pref = true) (hv : vacantAt s q.va = true) :
    procPref s k = parkVacant s (.fill k) (corePkg (askerCore s q.who)) q.va := by
  simp [procPref, hq, hp, hv]

theorem procBlockRead_block {slot b : Nat} {r : PRange} (hv : vacantAt s q.va = false) (hp : q.pref = false) (hs : q.sent = true)
    (hi : isProc s q.ctx q.va = true) (hb : blockOf (s.ctx q.ctx) q.va = some (slot, r, b)) :
    procBlockRead s k = blockRead s k q slot r b := by
  simp [procBlockRead, hq, hp, hs, hv, hi, hb]

/-- A prefetch starts a fill at depth 0, with no waiter, where the block is UNFILLED (R69, R320). -/
theorem procPref_block {slot b : Nat} {r : PRange} (hv : vacantAt s q.va = false) (hp : q.pref = true)
    (hi : isProc s q.ctx q.va = true) (hb : blockOf (s.ctx q.ctx) q.va = some (slot, r, b)) :
    procPref s k = if ((s.ctx q.ctx).block b).st = .unfilled then
        (fillStart { s with fillReqs := Tbl.del s.fillReqs k } q.ctx slot b 0 [] [] r []).2
      else { s with fillReqs := Tbl.del s.fillReqs k } := by
  simp [procPref, hq, hp, hv, hi, hb]

/-- A request is sent again once its interval is over (R70). -/
theorem procRetry_waiting {t n : Nat} (hr : q.retry = some (t, n)) (ht : t ≠ 0) : procRetry s k =
    if t ≤ (s.pkg (corePkg (askerCore s q.who))).clock then
      injectControl { s with fillReqs := Tbl.put s.fillReqs k { q with retry := some (0, n) } } (askerCore s q.who) q.va
    else s := by
  simp [procRetry, hq, hr, ht]

end

/-! ### A read meets its block (the rows of R69) -/

section
variable {s : State} {k i slot b : Nat} {q : FillReq} {r : PRange}

section
variable (hq : Tbl.find s.fillReqs k = some q) (hi : q.who = .slice i)
include hq hi

theorem blockRead_filled (hx : ((s.ctx q.ctx).block b).st = .filled) : blockRead s k q slot r b =
    ({ setBlock s q.ctx b { (s.ctx q.ctx).block b with
          age := (s.pkg (vaPkg b)).clock
          pins := ((s.ctx q.ctx).block b).pins.filter (· != k) } with fillReqs := Tbl.del s.fillReqs k } : State).updSl i
      fun y => { y with answers := y.answers ++ [.filled b r.bsz q.pin] } := by
  have hs : ∀ x, Tbl.find (setBlock s q.ctx b x).fillReqs k = some q := fun x => (setBlock_fillReqs s q.ctx b x).symm ▸ hq
  simp only [blockRead, hx, answerFill_slice (hs _) hi, setBlock_fillReqs]

theorem blockRead_failed (hx : ((s.ctx q.ctx).block b).st = .failed) : blockRead s k q slot r b =
    ({ s with fillReqs := Tbl.del s.fillReqs k } : State).updSl i
      fun y => { y with answers := y.answers ++ [.failed b r.bsz cGenFault ((s.ctx q.ctx).block b).frec] } := by
  simp only [blockRead, hx]
  exact answerFill_slice hq hi _

theorem blockRead_cycle (hx : ((s.ctx q.ctx).block b).st = .filling) (hc : ((s.ctx q.ctx).block b).crew ≠ some (askerLaunch s q.who))
    (hb : b ∈ q.chain) : blockRead s k q slot r b =
    ({ s with fillReqs := Tbl.del s.fillReqs k } : State).updSl i fun y => { y with answers := y.answers ++ [.failed b r.bsz cGenCycle 0] } := by
  simp only [blockRead, hx, beq_iff_eq, if_neg hc, if_pos (List.contains_iff_mem.mpr hb)]
  exact answerFill_slice hq hi _

theorem blockRead_deep (hx : ((s.ctx q.ctx).block b).st = .unfilled) (hd : r.limit < q.depth + 1) : blockRead s k q slot r b =
    ({ s with fillReqs := Tbl.del s.fillReqs k } : State).updSl i fun y => { y with answers := y.answers ++ [.failed b r.bsz cGenDepth 0] } := by
  simp only [blockRead, hx, if_pos hd]
  exact answerFill_slice hq hi _

end

section
variable (hx : ((s.ctx q.ctx).block b).st = .filling) (hc : ((s.ctx q.ctx).block b).crew ≠ some (askerLaunch s q.who)) (hb : b ∉ q.chain)
include hx hc hb

theorem blockRead_joins (hw : ((s.ctx q.ctx).block b).waiters.length < 64) : blockRead s k q slot r b =
    statAdd (listWaiter (setBlock s q.ctx b { (s.ctx q.ctx).block b with waiters := ((s.ctx q.ctx).block b).waiters ++ [k] }) k) q.ctx r.desc
      statMerges 1 := by
  simp only [blockRead, hx, beq_iff_eq, if_neg hc, if_neg (mt List.contains_iff_mem.mp hb), if_pos hw]

theorem blockRead_full (hw : 64 ≤ ((s.ctx q.ctx).block b).waiters.length) : blockRead s k q slot r b = fillRetry s k q q.ctx r.desc := by
  simp only [blockRead, hx, beq_iff_eq, if_neg hc, if_neg (mt List.contains_iff_mem.mp hb), if_neg (Nat.not_lt.mpr hw)]

end

section
variable (hx : ((s.ctx q.ctx).block b).st = .unfilled) (hd : q.depth + 1 ≤ r.limit) {v : State}
include hx hd

theorem blockRead_starts (hf : fillStart s q.ctx slot b q.depth q.chain q.above r [k] = (.started, v)) :
    blockRead s k q slot r b = listWaiter v k := by
  simp only [blockRead, hx, if_neg (Nat.not_lt.mpr hd), hf]

theorem blockRead_startFails {frec : DWord} (hf : fillStart s q.ctx slot b q.depth q.chain q.above r [k] = (.failed frec, v)) :
    blockRead s k q slot r b = answerFill v k (.failed b r.bsz cGenFault frec) := by
  simp only [blockRead, hx, if_neg (Nat.not_lt.mpr hd), hf]

theorem blockRead_startRetries (hf : fillStart s q.ctx slot b q.depth q.chain q.above r [k] = (.retry, v)) :
    blockRead s k q slot r b = fillRetry v k q q.ctx r.desc := by
  simp only [blockRead, hx, if_neg (Nat.not_lt.mpr hd), hf]

end

end

/-! ### A generator starts (R71) -/

/-- The first queued generator of a running context is placed in the first cluster of its tower that it fits, and leaves the queue. -/
theorem generatorLaunch_places {s v : State} {tw lid cl : Nat} {l : Launch} {f : List Nat × Nat} {fs : List (Nat × List Nat × Nat)}
    (hq : (s.tower tw).genQueue.find? (fun k => ((Tbl.find s.launches k).map fun l => ctxRuns s l.ctx).getD false) = some lid)
    (hl : Tbl.find s.launches lid = some l)
    (hf : (List.range 8).filterMap (fun k => (fitSpan s l.lrec (8 * tw + k)).map fun f => (8 * tw + k, f)) = (cl, f) :: fs)
    (hp : tryPlace s lid l 0 cl f = (v, true)) : generatorLaunch s tw = v.updTower tw fun t => { t with
      genQueue := t.genQueue.filter (· != lid)
      reserved := t.reserved.filter fun e => e.1 != lid } := by
  simp only [generatorLaunch, hq, hl, hf, hp, if_true]

/-! ### A generator's block is filled (R69, R73, R75) -/

theorem ownFilling_gen {s : State} {k : Nat} {g : GenInfo} {x : PBlock} (h : ownFilling s k = some (g, x)) : (s.crew k).gen = some g := by
  unfold ownFilling at h
  dsimp only at h
  split at h
  · cases h
  · rename_i g' hg
    split at h
    · cases h
      exact hg
    · cases h

section
variable {s : State} {i : Nat}

theorem fillDone_stopped (hr : ctxRuns s (s.ctxOf i) = false) : fillDone s i = s :=
  if_pos (congrArg Bool.not hr)

variable {w : Bool} (hr : ctxRuns s (s.ctxOf i) = true) (hp : (s.sl i).park = .after .tower w)
include hr hp

theorem fillDone_fills {g : GenInfo} {x : PBlock} (ho : ownFilling s (s.sl i).crew = some (g, x)) : fillDone s i =
    (x.waiters.foldl unlistWaiter (closeWindow (setBlock s (s.ctxOf i) g.block { x with
      st := .filled, age := (s.pkg (vaPkg g.block)).clock, pins := x.waiters, waiters := [] }) (s.sl i).crew)).updSl i
      fun y => { y with park := .after .now w } := by
  have hr' : ctxRuns s (s.crew (s.sl i).crew).ctx = true := hr
  simp only [fillDone, hr', hp, ownFilling_gen ho, ho, Bool.not_true, Bool.false_eq_true, if_false]
  rfl

/-- The block is another generator's by then, or reset: the slice goes on. -/
theorem fillDone_late {g : GenInfo} (hg : (s.crewOf i).gen = some g) (ho : ownFilling s (s.sl i).crew = none) :
    fillDone s i = s.updSl i fun y => { y with park := .after .now w } := by
  have hr' : ctxRuns s (s.crew (s.sl i).crew).ctx = true := hr
  have hg' : (s.crew (s.sl i).crew).gen = some g := hg
  simp only [fillDone, hr', hp, hg', ho, Bool.not_true, Bool.false_eq_true, if_false]

end

/-! ### A generator fails (R76) -/

/-- A trap leaves the record of the failed block that its slice met, where that is why, and the trap's own otherwise. -/
theorem passedRecord_getD (t : TrapRec) (own : DWord) : (passedRecord t).getD own =
    if (t.code = 0x0D ∨ t.code = 0x15 ∧ t.defer = true) ∧ (t.info.setWidth 32).setWidth 64 ≠ (0 : DWord) then (t.info.setWidth 32).setWidth 64
    else own := by
  rw [passedRecord, apply_ite (Option.getD · own)]
  rfl

section
variable {s : State} {k : Nat}

theorem generatorFailure_stopped (hr : ctxRuns s (s.crew k).ctx = false) : generatorFailure s k = s := by
  cases hg : (s.crew k).gen with
  | none => simp [generatorFailure, hg]
  | some g => simp [generatorFailure, hg, hr]

variable {g : GenInfo} (hg : (s.crew k).gen = some g) (he : (s.crew k).ended = false) (hr : ctxRuns s (s.crew k).ctx = true)
include hg he hr

theorem generatorFailure_trap {t : TrapRec} (ht : genTrap s k = some t) :
    generatorFailure s k = failGenerator s k ((passedRecord t).getD (failRecord t.code g.depth g.slot 0)) := by
  simp [generatorFailure, hg, he, hr, ht]

/-- The crew is over and its block not filled. -/
theorem generatorFailure_unfilled (ht : genTrap s k = none) (hc : crewOver s k = true) (ho : (ownFilling s k).isSome = true) :
    generatorFailure s k = failGenerator s k (failRecord 0xFE g.depth g.slot 0) := by
  simp [generatorFailure, hg, he, hr, ht, hc, ho]

end

/-- Settles O54, event by event: a read row by row of R69, then prefetches, retries, starts, fills and failures of generators. -/
theorem proceduralEvents : Obligations.ProceduralEvents := by
  unfold Obligations.ProceduralEvents
  intro s
  refine ⟨fun k q hq hv => ⟨fun hp hs => ?_, fun hp => ?_⟩, fun k q slot r b hq hv hp hs hi hb => ?_, fun k q slot r b hq hv hp hi hb => ?_,
    fun k q t n hq hr ht => ?_, fun tw lid l cl f fs v hq hl hf hp => ?_, fun i w g x hr hp ho => ?_, fun i w g hr hp hg ho => ?_,
    fun i hr => ?_, fun k hr => ?_, fun k g hg he hr => ⟨fun t ht => ?_, fun ht hc ho => ?_⟩⟩
  · exact congrArg Host.Outcome.next (procBlockRead_vacant hq hp hs hv)
  · exact congrArg Host.Outcome.next (procPref_vacant hq hp hv)
  · intro x u goes
    have hgoes : ∀ t, blockRead s k q slot r b = t → goes t := fun t h =>
      congrArg Host.Outcome.next ((procBlockRead_block hq hv hp hs hi hb).trans h)
    refine ⟨fun hx i hw => hgoes _ (blockRead_filled hq hw hx), fun hx i hw => hgoes _ (blockRead_failed hq hw hx),
      fun hx hc => ⟨fun hm i hw => hgoes _ (blockRead_cycle hq hw hx hc hm), fun hm hn => hgoes _ (blockRead_joins hx hc hm hn),
        fun hm hn => hgoes _ (blockRead_full hx hc hm hn)⟩,
      fun hx => ⟨fun hd i hw => hgoes _ (blockRead_deep hq hw hx hd), fun v hd hf => hgoes _ (blockRead_starts hx hd hf),
        fun v f hd hf => hgoes _ (blockRead_startFails hx hd hf), fun v hd hf => hgoes _ (blockRead_startRetries hx hd hf)⟩⟩
  · exact congrArg Host.Outcome.next (procPref_block hq hv hp hi hb)
  · exact congrArg Host.Outcome.next (procRetry_waiting hq hr ht)
  · exact congrArg Host.Outcome.next (generatorLaunch_places hq hl hf hp)
  · exact congrArg Host.Outcome.next (fillDone_fills hr hp ho)
  · exact congrArg Host.Outcome.next (fillDone_late hr hp hg ho)
  · exact congrArg Host.Outcome.next (fillDone_stopped hr)
  · exact congrArg Host.Outcome.next (generatorFailure_stopped hr)
  · exact congrArg Host.Outcome.next ((generatorFailure_trap hg he hr ht).trans (congrArg (failGenerator s k) (passedRecord_getD _ _)))
  · exact congrArg Host.Outcome.next (generatorFailure_unfilled hg he hr ht hc ho)

end Sys2Proof.Machine
end

section
/-! PROOF. What package reset and a slice's start leave (O4): memory and tables are empty, so that every accessor gives its initial record (R85, R99,
R133, R154, R243, R375). -/

namespace Sys2Proof.Machine

theorem groupOf_reset (cl g : Nat) : groupOf State.reset cl g = Group.init := by
  have hc : State.reset.cluster cl = Cluster.init := rfl
  rw [groupOf, hc, Cluster.init]
  by_cases hg : g < 32
  · exact List.getD_replicate Group.init hg
  · exact List.getD_eq_default _ _ (by simpa using hg)

/-- Index 7 apart, a slice starts with its predicates false (R133). -/
theorem pbit_sliceInit (crew ix : Nat) (role : Role) (entry : DWord) (l n : Nat) :
    (Slice.init crew ix role entry).pbit l n = decide (n = 7) := by
  simp [Slice.pbit, Slice.init, Bool.beq_eq_decide_eq]

theorem qbit_sliceInit (crew ix : Nat) (role : Role) (entry : DWord) (n : Nat) :
    (Slice.init crew ix role entry).qbit n = decide (n = 7) := by
  simp [Slice.qbit, Slice.init, Bool.beq_eq_decide_eq]

/-- Settles O4: the fields of the initial records, with the multicast groups and the predicates by their lemmas. -/
theorem resetState : Obligations.ResetState := by
  unfold Obligations.ResetState
  refine ⟨rfl, fun _ => rfl, groupOf_reset, fun _ => ⟨rfl, rfl, rfl⟩, rfl, rfl, rfl, rfl, rfl, rfl, rfl, fun crew ix role entry => ?_⟩
  have hp := pbit_sliceInit crew ix role entry
  have hq := qbit_sliceInit crew ix role entry
  refine ⟨fun _ _ => rfl, fun _ => rfl, fun l n hn => ?_, fun n hn => ?_, fun l => hp l 7, hq 7, rfl, rfl, rfl, rfl, rfl, rfl, rfl, rfl, rfl,
    rfl, rfl, rfl, rfl⟩
  · exact (hp l n).trans (decide_eq_false (Nat.ne_of_lt hn))
  · exact (hq n).trans (decide_eq_false (Nat.ne_of_lt hn))

end Sys2Proof.Machine
end

section
/-! PROOF. The networks (O55): the head that a queue is left with, the grant of an output, the choice between two head packets, ageing, the request
window, what is held and admitted, the links of towers and of packages (R78 to R88, R367). -/

namespace Sys2Proof.Machine

theorem TrafficOnly.routers {s t : State} (h : TrafficOnly s t) : t.routers = s.routers := by rw [← h.rest]

/-! ### Packets in order of their keys -/

/-- The entries of a table in rising order of key, as `Tbl.put` keeps it. -/
def Tbl.Rising {α : Type} (t : Tbl α) : Prop := t.Pairwise fun a b => a.1 < b.1

theorem Tbl.rising_put {α : Type} {t : Tbl α} (h : t.Rising) (k : Nat) (x : α) : (Tbl.put t k x).Rising := by
  induction t with
  | nil => exact List.pairwise_singleton _ _
  | cons e t ih =>
    obtain ⟨j, v⟩ := e
    obtain ⟨hj, ht⟩ := List.pairwise_cons.mp h
    rw [Tbl.put]
    split
    · rename_i hkj
      refine List.pairwise_cons.mpr ⟨fun a ha => ?_, h⟩
      rcases List.mem_cons.mp ha with rfl | ha
      · exact hkj
      · exact hkj.trans (hj a ha)
    · split
      · rename_i hkj
        exact List.pairwise_cons.mpr ⟨fun a ha => hkj ▸ hj a ha, ht⟩
      · rename_i hlt hne
        refine List.pairwise_cons.mpr ⟨fun a ha => ?_, ih ht⟩
        rcases Tbl.mem_put ha with rfl | ha
        · exact Nat.lt_of_le_of_ne (Nat.le_of_not_lt hlt) (Ne.symm hne)
        · exact hj a ha

theorem Tbl.find_of_mem {α : Type} {t : Tbl α} (h : t.Rising) {k : Nat} {x : α} (hx : (k, x) ∈ t) : Tbl.find t k = some x := by
  induction t with
  | nil => cases hx
  | cons e t ih =>
    obtain ⟨j, v⟩ := e
    obtain ⟨hj, ht⟩ := List.pairwise_cons.mp h
    rw [Tbl.find_cons]
    rcases List.mem_cons.mp hx with hx | hx
    · cases hx
      exact if_pos rfl
    · rw [if_neg (Nat.ne_of_lt (hj _ hx)), ih ht hx]

/-! ### The next packet of a queue comes to its head -/

theorem advanceHead_cases (s : State) (w : Pkt) (now : Nat) : advanceHead s w now = s ∨
    ∃ k q, (k, q) ∈ s.packets ∧ advanceHead s w now = { s with packets := Tbl.put s.packets k { q with headAt := max now q.headAt } } := by
  unfold advanceHead
  split
  · rename_i k q _ hf
    have hq : (k, q) ∈ s.packets.filter fun e => sameQueue w e.2 && atHead s e.2 := hf ▸ List.mem_cons_self
    exact Or.inr ⟨k, q, List.mem_of_mem_filter hq, rfl⟩
  · exact Or.inl rfl

theorem advanceHead_traffic (s : State) (w : Pkt) (now : Nat) : TrafficOnly s (advanceHead s w now) := by
  rcases advanceHead_cases s w now with h | ⟨k, q, -, h⟩ <;> rw [h]
  · exact TrafficOnly.refl s
  · exact TrafficOnly.setPackets s _

/-- A packet that is gone does not come back. -/
theorem advanceHead_del (s : State) (k : Nat) (w : Pkt) (now : Nat) :
    Tbl.find (advanceHead { s with packets := Tbl.del s.packets k } w now).packets k = none := by
  rcases advanceHead_cases { s with packets := Tbl.del s.packets k } w now with h | ⟨j, q, hq, h⟩
  · rw [h]
    exact Tbl.find_del_self _ _
  · have hj : j ≠ k := by simpa using (List.mem_filter.mp hq).2
    rw [h]
    exact (Tbl.find_put_ne _ _ hj).trans (Tbl.find_del_self _ _)

/-- A packet stays as it is but for the clock from which it counts as a head, which does not move back. -/
theorem advanceHead_find {s : State} {k : Nat} {p : Pkt} (hs : Tbl.Rising s.packets) (hp : Tbl.find s.packets k = some p) (w : Pkt) (now : Nat) :
    ∃ head, p.headAt ≤ head ∧ Tbl.find (advanceHead s w now).packets k = some { p with headAt := head } := by
  rcases advanceHead_cases s w now with h | ⟨j, q, hq, h⟩
  · exact ⟨p.headAt, Nat.le_refl _, by rw [h, hp]⟩
  · rw [h]
    by_cases hj : j = k
    · subst hj
      obtain rfl : q = p := Option.some.inj ((Tbl.find_of_mem hs hq).symm.trans hp)
      exact ⟨max now q.headAt, Nat.le_max_right _ _, Tbl.find_put_self _ _ _⟩
    · exact ⟨p.headAt, Nat.le_refl _, (Tbl.find_put_ne _ _ hj).trans hp⟩

/-! ### A grant (R83, R84, R88) -/

/-- The packet as a grant sends it on: at its next queue, and marked there. -/
def Pkt.granted (s : State) (w : Pkt) (now : Nat) : Pkt :=
  { w.hop (w.age now) with mark := w.mark || (w.stage == 0 && decide (12 ≤ queueFlits s (w.hop 0))) }

/-- What a grant leaves: the outputs as in `r`, and the packet that won sent on, which holds its output for `held` clocks. -/
def passOn (s : State) (r : Tbl RouterOut) (k : Nat) (w : Pkt) (now held : Nat) : State :=
  let u : State := { s with routers := r }
  advanceHead (if w.arrived then { u with packets := Tbl.del s.packets k }
    else enqueue u k (w.granted s now) (towerClock s (w.granted s now).at_ + held)) w now

section
variable {s : State} {r : Tbl RouterOut} {k : Nat} {w : Pkt} {now held : Nat}

theorem passOn_traffic : TrafficOnly { s with routers := r } (passOn s r k w now held) := by
  refine TrafficOnly.trans ?_ (advanceHead_traffic _ w now)
  split
  · exact TrafficOnly.setPackets _ _
  · exact enqueue_traffic _ k _ _

theorem passOn_slices : (passOn s r k w now held).slices = s.slices := passOn_traffic.slices
theorem passOn_mem : (passOn s r k w now held).mem = s.mem := passOn_traffic.mem
theorem passOn_routers : (passOn s r k w now held).routers = r := passOn_traffic.routers

theorem passOn_arrived (ha : w.arrived = true) : Tbl.find (passOn s r k w now held).packets k = none := by
  rw [passOn, if_pos ha]
  exact advanceHead_del { s with routers := r } k w now

/-- A packet that has not arrived stands in its next queue, behind those there, from the clock at which its last flit has passed. -/
theorem passOn_goes (hs : Tbl.Rising s.packets) (ha : w.arrived = false) :
    ∃ head, towerClock s (w.granted s now).at_ + held ≤ head ∧
      Tbl.find (passOn s r k w now held).packets k = some { w.granted s now with stamp := s.nextId, headAt := head, sat := false } := by
  rw [passOn, if_neg (by simp [ha])]
  exact advanceHead_find (s := enqueue { s with routers := r } k _ _) (Tbl.rising_put hs k _) (Tbl.find_put_self _ _ _) w now

end

section
variable {s : State} {key tower k : Nat} {w : Pkt} (hw : winner s key (towerClock s tower) = some (k, w)) {only : Option Nat}
  (ho : only.isSome = false ∨ only = some k)
include hw ho

/-- A free output is granted to the winner and is busy while its flits pass. -/
theorem grantOut_output (hb : (outAt s key).busy ≤ towerClock s tower) : grantOut s key tower only none =
    passOn s (Tbl.put s.routers key ⟨w.qnum, towerClock s tower + w.holds key⟩) k w (towerClock s tower) (w.holds key) := by
  have honly : (only.isSome && only != some k) = false := by rcases ho with h | h <;> simp [h]
  simp only [grantOut, Option.getD_none, if_neg (Nat.not_lt.mpr hb), hw, honly, Bool.false_eq_true, if_false, Option.map_none, Option.isSome_none]
  rfl

/-- Where a Causeway link carries the packet, it is busy in the output's place (R367). -/
theorem grantOut_via {via : Nat} (hb : (outAt s via).busy ≤ towerClock s tower) : grantOut s key tower only (some via) =
    passOn s (Tbl.put (Tbl.put s.routers key ⟨w.qnum, towerClock s tower⟩) via ⟨0, towerClock s tower + w.holds key⟩)
      k w (towerClock s tower) (w.holds key) := by
  have honly : (only.isSome && only != some k) = false := by rcases ho with h | h <;> simp [h]
  simp only [grantOut, Option.getD_some, if_neg (Nat.not_lt.mpr hb), hw, honly, Bool.false_eq_true, if_false, if_true, Option.map_some,
    Option.isSome_some]
  rfl

end

/-! ### Hops, by the stage where a packet stands -/

theorem Pkt.hop_entry {p : Pkt} (h : p.stage = 0) (age : Nat) : p.hop age = { p with stage := 1, base := 0 } := by
  simp only [Pkt.hop, h]

theorem Pkt.hop_router {p : Pkt} (h : p.stage = 1) (age : Nat) :
    p.hop age = { p with stage := 2, base := if p.link.isSome then age else 0 } := by
  simp only [Pkt.hop, h]

/-- A request at a slice goes over its link, is answered there, or goes to a unit of the bus (R87, R88). -/
theorem Pkt.hop_slice {p : Pkt} (h : p.stage = 2) (hr : p.reply = false) (age : Nat) : p.hop age =
    if p.link.isSome then { p with stage := 4, base := age }
    else if p.dest = 0 then { p with reply := true, stage := 0, flits := p.back, base := 0 } else { p with stage := 5, base := age } := by
  cases hl : p.link <;> simp only [Pkt.hop, h, hr, hl] <;> rfl

theorem Pkt.hop_owner {p : Pkt} (h : p.stage = 4) (hr : p.reply = false) (age : Nat) :
    p.hop age = { p with reply := true, stage := 4, flits := p.back, base := age } := by
  simp only [Pkt.hop, h, hr]

theorem Pkt.hop_return {p : Pkt} (h : p.stage = 4) (hr : p.reply = true) (age : Nat) : p.hop age = { p with stage := 5, base := age } := by
  simp only [Pkt.hop, h, hr]

theorem Pkt.hop_unit {p : Pkt} (h : p.stage = 5) (hr : p.reply = false) (age : Nat) :
    p.hop age = { p with reply := true, stage := 0, flits := p.back, base := 0 } := by
  simp only [Pkt.hop, h, hr]

theorem Pkt.hop_port {p : Pkt} (h : p.stage = 5) (hr : p.reply = true) (age : Nat) : p.hop age = { p with stage := 0, base := 0 } := by
  simp only [Pkt.hop, h, hr]

/-- What crosses a link has not arrived. -/
theorem Pkt.not_arrived_of_link {p : Pkt} {t : Nat} (hl : p.link = some t)
    (hs : (p.stage = 2 ∧ p.reply = false) ∨ (p.stage = 4 ∧ p.reply = true)) :
    p.arrived = false := by
  rcases hs with ⟨h, hr⟩ | ⟨h, hr⟩ <;> simp [Pkt.arrived, h, hr, hl]

/-- ROUTER_GRANT names the key of its output (R83, R87). -/
theorem routerGrant_eq (s : State) {reply : Bool} {stage : Nat} (tower router out : Nat) (h : stage < 3 ∨ (stage = 3 ∧ reply = false)) :
    routerGrant s reply tower stage router out = grantOut s (if stage < 2 then outKey reply tower stage router out
      else if stage = 2 then (if reply then portKey tower (8 * router + out) else busKey tower (8 * router + out))
      else unitKey tower out) tower none none := by
  unfold routerGrant
  by_cases h1 : stage < 2
  · rw [if_pos h1, if_pos h1]
  · rw [if_neg h1, if_neg h1]
    by_cases h2 : stage = 2
    · rw [if_pos h2, if_pos h2]
    · have h3 : stage = 3 ∧ reply = false := h.resolve_left (by omega)
      rw [if_neg h2, if_neg h2, if_pos (by simp [h3])]

/-! ### The choice between two head packets (R83) -/

theorem winner_of_pair {s : State} {key now : Nat} {a b : Nat × Pkt} (h : outHeads s key now = [a, b]) :
    winner s key now = some (if beats now (outAt s key).last b.2 a.2 = true then b else a) := by
  simp only [winner, h, List.foldl_cons, List.foldl_nil]

/-- Saturated, or as old as a counter goes. -/
def Pkt.old (p : Pkt) (now : Nat) : Prop := p.sat = true ∨ p.age now = 255

section
variable {now last : Nat} {a b : Pkt}

theorem not_beats_of_old (ha : a.old now) (hb : ¬ b.old now) : ¬ beats now last b a = true := by
  simp only [Pkt.old, not_or] at ha hb
  rcases ha with h | h <;> simp [beats, h, hb]

theorem beats_of_old (ha : ¬ a.old now) (hb : b.old now) : beats now last b a = true := by
  simp only [Pkt.old, not_or] at ha hb
  rcases hb with h | h <;> simp [beats, h, ha]

/-- Among the saturated, the first after the last winner. -/
theorem beats_both_old (ha : a.old now) (hb : b.old now) :
    beats now last b a = true ↔ afterLast b.inputs last b.qnum < afterLast a.inputs last a.qnum := by
  rcases ha with h | h <;> rcases hb with h' | h' <;> simp [beats, h, h']

/-- Else class, then age, then the first after the last winner. -/
theorem beats_none_old (ha : ¬ a.old now) (hb : ¬ b.old now) : beats now last b a = true ↔
    a.cls < b.cls ∨ (a.cls = b.cls ∧ (a.age now < b.age now ∨
      (a.age now = b.age now ∧ afterLast b.inputs last b.qnum < afterLast a.inputs last a.qnum))) := by
  simp only [Pkt.old, not_or] at ha hb
  simp [beats, ha, hb, @eq_comm _ b.cls, @eq_comm _ (b.age now)]

end

/-! ### Ageing and the request window (R83, R85) -/

theorem ageingSaturate_eq {s : State} {k : Nat} {p : Pkt} (hp : Tbl.find s.packets k = some p) : ageingSaturate s k =
    if atHead s p = true ∧ 255 ≤ p.base + ((s.pkg (p.at_ / 8)).clock - p.headAt) / 2 then
      { s with packets := Tbl.put s.packets k { p with sat := true } }
    else s := by
  have hage : p.age (towerClock s p.at_) = 255 ↔ 255 ≤ p.base + ((s.pkg (p.at_ / 8)).clock - p.headAt) / 2 := by
    rw [Pkt.age, towerClock]
    omega
  simp only [ageingSaturate, hp, Bool.and_eq_true, beq_iff_eq, hage]

theorem replyArrival_eq {s : State} {k : Nat} {p : Pkt} (hp : Tbl.find s.packets k = some p) (hr : p.reply = true) (hs : p.stage = 2) :
    replyArrival s k = ({ s with packets := Tbl.del s.packets k } : State).setCore p.core
      (windowReply (towerClock s p.tower) p.mark p.units (s.core p.core)) := by
  simp only [replyArrival, hp, hr, hs, beq_self_eq_true, Bool.and_self, if_true]
  rfl

/-- A reply lies within 128 clocks of the last halving. -/
theorem recentHalf_iff (last : Option Nat) (now : Nat) :
    (last.map fun t => decide (now < t + 128)).getD false = true ↔ ∃ t, last = some t ∧ now < t + 128 := by
  cases last <;> simp

theorem admitOk_iff (s : State) (p : Pkt) : admitOk s p = true ↔
    (p.units = 0 ∨ (s.core p.core).inUse + p.units ≤ (windowRaise (s.core p.core)).window) ∧
      queueFlits s { p with stage := 0 } + p.flits ≤ 16 := by
  have hu : (windowRaise (s.core p.core)).inUse = (s.core p.core).inUse := by
    unfold windowRaise
    split <;> rfl
  simp [admitOk, hu]

theorem windowRaise_window (c : Core) : (windowRaise c).window = if 64 ≤ c.unmarked then min 256 (c.window + 1) else c.window := by
  unfold windowRaise
  split <;> rfl

/-! ### What is held enters (R85, log 51) -/

/-- The first held packet of a core that is of class 3, or of the others, where it may enter. -/
def heldGo (s : State) (core : Nat) (ctl : Bool) : Option (Nat × Pkt) :=
  (((s.core core).held.filter (heldOf s ctl)).head?).bind fun k =>
    (Tbl.find s.packets k).bind fun p => if admitOk s p then some (k, p) else none

theorem heldGo_eq_some {s : State} {core : Nat} {ctl : Bool} {k : Nat} {p : Pkt} : heldGo s core ctl = some (k, p) ↔
    ((s.core core).held.filter (heldOf s ctl)).head? = some k ∧ Tbl.find s.packets k = some p ∧ admitOk s p = true := by
  constructor
  · intro h
    obtain ⟨j, hj, h⟩ := Option.bind_eq_some_iff.mp h
    obtain ⟨q, hq, h⟩ := Option.bind_eq_some_iff.mp h
    split at h
    · rename_i ha
      cases h
      exact ⟨hj, hq, ha⟩
    · cases h
  · rintro ⟨hk, hp, ha⟩
    simp [heldGo, hk, hp, ha]

theorem heldGo_eq_none {s : State} {core : Nat} {ctl : Bool} (h : ∀ k p, heldGo s core ctl ≠ some (k, p)) : heldGo s core ctl = none :=
  Option.eq_none_iff_forall_ne_some.mpr fun e => h e.1 e.2

theorem windowAdmit_cluster {s : State} {core k : Nat} {p : Pkt} (h : heldFirst s [] (s.cluster (core / 16)).held = some (k, p)) :
    windowAdmit s core = (letIn s k p).updCluster (core / 16) fun c => { c with held := c.held.filter (· != k) } := by
  simp only [windowAdmit, h]

section
variable {s : State} {core : Nat} (hc : heldFirst s [] (s.cluster (core / 16)).held = none)
include hc

theorem windowAdmit_core {k : Nat} {p : Pkt} (h : (heldGo s core true).or (heldGo s core false) = some (k, p)) :
    windowAdmit s core = (letIn s k p).updCore core fun c => { c with held := c.held.filter (· != k) } := by
  unfold heldGo at h
  simp only [windowAdmit, hc, h]

theorem windowAdmit_waits (h : (heldGo s core true).or (heldGo s core false) = none) : windowAdmit s core = s := by
  unfold heldGo at h
  simp only [windowAdmit, hc, h]

end

/-! ### Links of towers and of packages (R88, R367) -/

theorem nextLink_pairLinks {p : Pkg} {peer l : Nat} (h : nextLink p peer = some l) : l ∈ pairLinks p peer := by
  rcases Option.or_eq_some_iff.mp h with h | ⟨-, h⟩
  · obtain ⟨last, -, h⟩ := Option.bind_eq_some_iff.mp h
    exact List.mem_of_find?_eq_some h
  · exact List.mem_of_head? h

theorem mem_pairLinks {p : Pkg} {peer l : Nat} : l ∈ pairLinks p peer ↔ (l, peer) ∈ p.links ∧ l ∉ p.linkDown := by
  simp [pairLinks]

/-- The link after the last one used is taken where there is one. -/
theorem nextLink_rotates {p : Pkg} {peer l last : Nat} (h : nextLink p peer = some l) (ht : Tbl.find p.turn peer = some last) {m : Nat}
    (hm : m ∈ pairLinks p peer) (hlt : last < m) : last < l := by
  rw [nextLink, ht, Option.bind_some] at h
  rcases Option.or_eq_some_iff.mp h with h | ⟨h, -⟩
  · simpa using List.find?_some h
  · exact absurd (decide_eq_true hlt) (List.find?_eq_none.mp h m hm)

/-- `q` is `p` past a link, with its age, mark and class (R88). -/
def Pkt.Crossed (p q : Pkt) (now : Nat) : Prop :=
  q.reply = p.reply ∧ q.flits = p.flits ∧ q.cls = p.cls ∧ q.mark = p.mark ∧ q.base = p.age now ∧ q.stage = if p.reply then 5 else 4

theorem Pkt.Crossed.stage_ne {p q : Pkt} {now : Nat} (h : p.Crossed q now)
    (hst : (p.stage = 2 ∧ p.reply = false) ∨ (p.stage = 4 ∧ p.reply = true)) : q.stage ≠ p.stage := by
  obtain ⟨-, -, -, -, -, hq⟩ := h
  rcases hst with ⟨h, hr⟩ | ⟨h, hr⟩ <;> simp [hq, h, hr]

theorem passOn_crosses {s : State} (r : Tbl RouterOut) (k now held : Nat) {t : Nat} {p : Pkt} (hs : Tbl.Rising s.packets) (hl : p.link = some t)
    (hst : (p.stage = 2 ∧ p.reply = false) ∨ (p.stage = 4 ∧ p.reply = true)) :
    ∃ q, Tbl.find (passOn s r k p now held).packets k = some q ∧ p.Crossed q now := by
  obtain ⟨head, -, hq⟩ := passOn_goes (r := r) (k := k) (now := now) (held := held) hs (Pkt.not_arrived_of_link hl hst)
  refine ⟨_, hq, ?_⟩
  rcases hst with ⟨h, hr⟩ | ⟨h, hr⟩
  · simp [Pkt.Crossed, Pkt.granted, Pkt.hop_slice h hr, hl, h, hr]
  · simp [Pkt.Crossed, Pkt.granted, Pkt.hop_return h hr, h, hr]

section
variable {s : State} {k t : Nat} {p : Pkt} (hp : Tbl.find s.packets k = some p) (hl : p.link = some t)
  (hst : (p.stage = 2 ∧ p.reply = false) ∨ (p.stage = 4 ∧ p.reply = true)) {a b : Nat} (ha : a = if p.reply then t else p.tower)
  (hb : b = if p.reply then p.tower else t)
include hp hl hst ha hb

theorem linkForward_tower (h : a / 8 = b / 8) : linkForward s k = grantOut s (linkKey a b) p.at_ (some k) none := by
  subst ha hb
  have hgo : ((p.stage == 2 && !p.reply) || (p.stage == 4 && p.reply)) = true := by simpa using hst
  simp only [linkForward, hp, hl, hgo, Bool.not_true, Bool.false_eq_true, if_false, if_pos h]

theorem linkForward_noLink (h : a / 8 ≠ b / 8) (hn : nextLink (s.pkg (a / 8)) (b / 8) = none) : linkForward s k = s := by
  subst ha hb
  have hgo : ((p.stage == 2 && !p.reply) || (p.stage == 4 && p.reply)) = true := by simpa using hst
  simp only [linkForward, hp, hl, hgo, Bool.not_true, Bool.false_eq_true, if_false, if_neg h, hn]

/-- A packet that crosses between packages leaves its link as the last one used (R367). -/
theorem linkForward_causeway {l : Nat} {r : State} (h : a / 8 ≠ b / 8) (hn : nextLink (s.pkg (a / 8)) (b / 8) = some l)
    (hr : grantOut s (linkKey a b) p.at_ (some k) (some (causeKey (a / 8) l)) = r) {q : Pkt} (hq : Tbl.find r.packets k = some q)
    (hne : q.stage ≠ p.stage) :
    linkForward s k = r.updPkg (a / 8) fun q => { q with turn := Tbl.put q.turn (b / 8) l } := by
  subst ha hb
  have hgo : ((p.stage == 2 && !p.reply) || (p.stage == 4 && p.reply)) = true := by simpa using hst
  have hmoved : ((Tbl.find r.packets k).map Pkt.stage == some p.stage) = false := by simp [hq, hne]
  simp only [linkForward, hp, hl, hgo, Bool.not_true, Bool.false_eq_true, if_false, if_neg h, hn, hr, hmoved]

end

theorem linkFails_eq (p : Pkg) (link : Nat) : linkFails p link =
    if (Tbl.find p.links link).isSome = true ∧ link ∉ p.linkDown then { p with linkDown := p.linkDown ++ [link] } else p := by
  simp [linkFails]

theorem bothEnds_alone {s : State} {pkg link : Nat} (h : linkMate s pkg link = none) (f : Pkg → Nat → Pkg) :
    bothEnds s pkg link f = s.updPkg pkg fun p => f p link := by
  simp only [bothEnds, h]

theorem bothEnds_pair {s : State} {pkg link peer l : Nat} (h : linkMate s pkg link = some (peer, l)) (f : Pkg → Nat → Pkg) :
    bothEnds s pkg link f = (s.updPkg pkg fun p => f p link).updPkg peer fun p => f p l := by
  simp only [bothEnds, h]

/-! ### The events -/

/-- Settles O55, clause by clause: grants, the choice of a winner, ageing, the window, admission, links. -/
theorem networkEvents : Obligations.NetworkEvents := by
  unfold Obligations.NetworkEvents
  intro s
  refine ⟨fun reply tower stage router out k p => ?_, fun key now a b h => ?_, fun k p hp => ?_, fun k p hp hr hs => ?_, fun core => rfl,
    fun core k p h => ?_, fun core hc => ?_, fun k p t hp hl hst => ?_, fun p peer l h => ?_, fun pkg link => ⟨fun h => ?_, fun peer l h => ?_⟩⟩
  · intro now key hstage hb hs hw
    refine ⟨_, congrArg Host.Outcome.next ((routerGrant_eq s tower router out hstage).trans (grantOut_output hw (Or.inl rfl) hb)),
      passOn_slices, passOn_mem, ?_, passOn_arrived, fun ha => ?_⟩
    · rw [passOn_routers]
      exact Tbl.find_put_self _ _ _
    · obtain ⟨head, hhead, hq⟩ := passOn_goes (now := now) hs ha
      refine ⟨_, hq, rfl, hhead, fun h => ?_, fun h => ?_, fun h hr hl hd => ?_, fun h hr hl hd => ?_, fun h hr => ?_, fun h hr => ?_,
        fun h hr => ?_⟩
      · simp [Pkt.granted, Pkt.hop_entry h]
      · simp [Pkt.granted, Pkt.hop_router h]
      · simp [Pkt.granted, Pkt.hop_slice h hr, hl, hd]
      · simp [Pkt.granted, Pkt.hop_slice h hr, hl, hd, hr]
      · simp [Pkt.granted, Pkt.hop_owner h hr]
      · simp [Pkt.granted, Pkt.hop_unit h hr]
      · simp [Pkt.granted, Pkt.hop_port h hr, hr]
  · intro age turn old wins
    have hw : ∀ {e}, (if beats now (outAt s key).last b.2 a.2 = true then b else a) = e → wins e := fun he =>
      (winner_of_pair h).trans (congrArg some he)
    refine ⟨fun ha hb => hw (if_neg (not_beats_of_old ha hb)), fun hb ha => hw (if_pos (beats_of_old ha hb)),
      fun ha hb => hw (if_congr (beats_both_old ha hb) rfl rfl), fun ha hb => ?_⟩
    have hnone := beats_none_old (last := (outAt s key).last) ha hb
    refine ⟨fun hlt => hw (if_pos (hnone.mpr (Or.inl hlt))), fun hlt => hw (if_neg fun h => ?_),
      fun heq => hw (if_congr (hnone.trans ?_) rfl rfl)⟩
    · rcases hnone.mp h with h | ⟨h, -⟩ <;> omega
    · rw [heq, lt_self_iff_false, false_or, eq_self, true_and]
      exact Iff.rfl
  · exact congrArg Host.Outcome.next (ageingSaturate_eq hp)
  · intro c0 c now u
    refine congrArg Host.Outcome.next ((replyArrival_eq hp hr hs).trans (congrArg (State.setCore _ _) ?_))
    simp only [windowReply, recentHalf_iff]
    rfl
  · exact congrArg Host.Outcome.next (windowAdmit_cluster h)
  · intro width first
    have hfirst : ∀ ctl k p, heldGo s core ctl = some (k, p) ↔ first ctl k p := fun ctl k p => by
      rw [heldGo_eq_some, admitOk_iff, windowRaise_window]
      rfl
    refine ⟨fun hn => congrArg Host.Outcome.next (windowAdmit_waits hc ?_),
      fun ctl k p h hn => congrArg Host.Outcome.next (windowAdmit_core hc ?_)⟩
    · rw [heldGo_eq_none fun k p h => hn true k p ((hfirst _ _ _).mp h), heldGo_eq_none fun k p h => hn false k p ((hfirst _ _ _).mp h)]
      rfl
    · cases ctl with
      | true => rw [(hfirst _ _ _).mpr h, Option.some_or]
      | false => rw [heldGo_eq_none fun k p h => hn rfl k p ((hfirst _ _ _).mp h), Option.none_or, (hfirst _ _ _).mpr h]
  · intro now a b key gone
    refine ⟨fun hw hs => ⟨fun hab hb => ?_, fun l hab hn hb => ?_⟩, fun hab hn => ?_⟩
    · obtain ⟨q, hq, hcross⟩ := passOn_crosses (Tbl.put s.routers key ⟨p.qnum, now + p.holds key⟩) k now (p.holds key) hs hl hst
      refine ⟨_, ⟨q, congrArg Host.Outcome.next ((linkForward_tower hp hl hst rfl rfl hab).trans (grantOut_output hw (Or.inr rfl) hb)),
        passOn_slices, passOn_mem, hq, hcross⟩, ?_⟩
      rw [passOn_routers]
      exact Tbl.find_put_self _ _ _
    · obtain ⟨q, hq, hcross⟩ := passOn_crosses
        (Tbl.put (Tbl.put s.routers key ⟨p.qnum, now⟩) (causeKey (a / 8) l) ⟨0, now + p.holds key⟩) k now (p.holds key) hs hl hst
      have hfwd := linkForward_causeway hp hl hst rfl rfl hab hn (grantOut_via hw (Or.inr rfl) hb) hq (hcross.stage_ne hst)
      refine ⟨_, ⟨q, congrArg Host.Outcome.next hfwd,
        passOn_slices, passOn_mem, hq, hcross⟩, ?_, ?_⟩
      · rw [State.updPkg_eq, State.setPkg_routers, passOn_routers]
        exact Tbl.find_put_self _ _ _
      · rw [State.updPkg_eq, State.pkg_setPkg_self]
        exact Tbl.find_put_self _ _ _
    · exact congrArg Host.Outcome.next (linkForward_noLink hp hl hst rfl rfl hab hn)
  · obtain ⟨hlink, hup⟩ := mem_pairLinks.mp (nextLink_pairLinks h)
    exact ⟨hlink, hup, fun last ht m hm hlt => nextLink_rotates h ht hm hlt⟩
  · refine ⟨congrArg Host.Outcome.next ((bothEnds_alone h linkFails).trans ?_), congrArg Host.Outcome.next (bothEnds_alone h linkReturns)⟩
    simp only [linkFails_eq]
  · refine ⟨congrArg Host.Outcome.next ((bothEnds_pair h linkFails).trans ?_), congrArg Host.Outcome.next (bothEnds_pair h linkReturns)⟩
    simp only [linkFails_eq]

end Sys2Proof.Machine
end

section
/-! PROOF. Multicast (O38): a request that is merged joins the open set of its sector or opens one, one that is not is read by itself, a set's
reply leaves when it is due, and a drained group is released (R99, R101). -/

namespace Sys2Proof.Machine

/-- A set takes the requests of its sector, group and generation. -/
def McReq.fits (r : McReq) (e : Nat × McSet) : Bool :=
  e.2.cluster == coreCluster r.core && e.2.ctx == r.ctx && e.2.va == r.va && e.2.group == r.group && e.2.gen == r.gen

theorem McReq.fits_iff {r : McReq} {e : Nat × McSet} : r.fits e = true ↔
    e.2.cluster = coreCluster r.core ∧ e.2.ctx = r.ctx ∧ e.2.va = r.va ∧ e.2.group = r.group ∧ e.2.gen = r.gen := by
  simp only [McReq.fits, Bool.and_eq_true, beq_iff_eq, and_assoc]

/-! ### A request reaches the slice -/

/-- The state once a request has left Viaduct and its group counts it. -/
def mcCounted (s : State) (k : Nat) (r : McReq) : State :=
  updGroup { s with mcReqs := Tbl.del s.mcReqs k } (coreCluster r.core) r.group fun g => { g with drain := g.drain + 1 }

/-- The core has left the group, or the group is of another generation. -/
theorem mc_not_merged {s : State} {r : McReq} (h : (groupOf s (coreCluster r.core) r.group).mask.getLsbD (r.core % 16) = false ∨
    (groupOf s (coreCluster r.core) r.group).gen.toNat ≠ r.gen) :
    (!(groupOf s (coreCluster r.core) r.group).mask.getLsbD (r.core % 16) ||
      (groupOf s (coreCluster r.core) r.group).gen.toNat != r.gen) = true := by
  rcases h with h | h
  · rw [h]
    rfl
  · rw [bne_iff_ne.mpr h, Bool.or_true]

section
variable {s : State} {k : Nat} {r : McReq} (hk : Tbl.find s.mcReqs k = some r)
include hk

section
variable (hm : (groupOf s (coreCluster r.core) r.group).mask.getLsbD (r.core % 16) = true)
  (hgen : (groupOf s (coreCluster r.core) r.group).gen.toNat = r.gen)
include hm hgen

theorem mcArrive_opens (h : s.mcSets.find? r.fits = none) : mcArrive s k = { mcCounted s k r with
    nextId := s.nextId + 1
    mcSets := Tbl.put s.mcSets s.nextId ⟨coreCluster r.core, r.ctx, r.va, r.group, r.gen,
      (s.pkg (corePkg r.core)).clock, (s.pkg (corePkg r.core)).clock, [r]⟩ } := by
  unfold McReq.fits at h
  simp only [mcArrive, hk, hm, hgen, bne_self_eq_false, Bool.not_true, Bool.or_self, Bool.false_eq_true, if_false, h]
  rfl

theorem mcArrive_joins {n : Nat} {m : McSet} (h : s.mcSets.find? r.fits = some (n, m)) : mcArrive s k = { mcCounted s k r with
    mcSets := Tbl.put s.mcSets n { m with last := (s.pkg (corePkg r.core)).clock, reqs := m.reqs ++ [r] } } := by
  unfold McReq.fits at h
  simp only [mcArrive, hk, hm, hgen, bne_self_eq_false, Bool.not_true, Bool.or_self, Bool.false_eq_true, if_false, h]
  rfl

end

section
variable (hg : (groupOf s (coreCluster r.core) r.group).mask.getLsbD (r.core % 16) = false ∨
  (groupOf s (coreCluster r.core) r.group).gen.toNat ≠ r.gen)
include hg

theorem mcArrive_girder (h : r.girder = true) : mcArrive s k = mcDeliver
    (if mcReads s [r] then engRead { s with mcReqs := Tbl.del s.mcReqs k } r.core (crewClass s r.crew) r.ctx r.hint r.va 128
      else { s with mcReqs := Tbl.del s.mcReqs k }) r := by
  simp only [mcArrive, hk, mc_not_merged hg, h, if_true]

theorem mcArrive_stops (h : r.girder = false) {f : Flight} (hf : Tbl.find (chainOf s r.crew r.ch).flight r.ent = some f) :
    mcArrive s k = flightStop { s with mcReqs := Tbl.del s.mcReqs k } r.crew r.ch r.ent f.ix 8 0 0 := by
  simp only [mcArrive, hk, mc_not_merged hg, h, hf, if_true, Bool.false_eq_true, if_false]

end

end

/-! ### A set's reply leaves, a group is released -/

theorem mcLeave_due {s : State} {k : Nat} {m : McSet} {r : McReq} {rs : List McReq} (hk : Tbl.find s.mcSets k = some m) (hr : m.reqs = r :: rs)
    (hfirst : m.first + 64 ≤ (s.pkg (m.cluster / 64)).clock) (hlast : m.last < (s.pkg (m.cluster / 64)).clock) :
    mcLeave s k = updGroup (m.reqs.foldl mcDeliver
      (if mcReads s m.reqs then engRead { s with mcSets := Tbl.del s.mcSets k } r.core (crewClass s r.crew) m.ctx r.hint m.va 128
        else { s with mcSets := Tbl.del s.mcSets k })) m.cluster m.group fun g => { g with drain := g.drain - m.reqs.length } := by
  have hdue : (decide ((s.pkg (m.cluster / 64)).clock < m.first + 64) || decide ((s.pkg (m.cluster / 64)).clock ≤ m.last)) = false := by
    rw [decide_eq_false (Nat.not_lt.mpr hfirst), decide_eq_false (Nat.not_le.mpr hlast)]
    rfl
  simp only [mcLeave, hk, hdue, Bool.false_eq_true, if_false, hr, List.head?_cons, Option.map_some, Option.getD_some]

theorem groupDrained_released {s : State} {cl g : Nat} (hd : (groupOf s cl g).drain = 0) (hm : (groupOf s cl g).mask ≠ 0)
    (hs : Tbl.find s.spans (groupOf s cl g).span = none) : groupDrained s cl g = updGroup s cl g fun r => { r with mask := 0 } := by
  simp only [groupDrained, hd, hs, bne_iff_ne.mpr hm, decide_true, Option.isNone_none, Bool.and_self, if_true]

/-! ### The events -/

/-- Settles O38, clause by clause: the set that takes a request is found by its sector, group and generation. -/
theorem multicastEvents : Obligations.MulticastEvents := by
  unfold Obligations.MulticastEvents
  intro s
  refine ⟨fun k r hk => ?_, fun k r hk => ?_, fun k m hk hfirst hlast r rs hr => ?_, fun cl g hd hm hs => ?_⟩
  · intro cl g now hm hgen s1 same
    refine ⟨fun hnone => ?_, fun n m hone hsame => ?_⟩
    · have hfind : s.mcSets.find? r.fits = none := List.find?_eq_none.mpr fun e he h => hnone e he (McReq.fits_iff.mp h)
      exact congrArg Host.Outcome.next (mcArrive_opens hk hm hgen hfind)
    · have hfind : s.mcSets.find? r.fits = some (n, m) := by
        rw [hone]
        exact List.find?_cons_of_pos (McReq.fits_iff.mpr hsame)
      refine congrArg Host.Outcome.next ((mcArrive_joins hk hm hgen hfind).trans ?_)
      rw [hone]
      simp only [Tbl.put, Nat.lt_irrefl, if_false, if_true]
      rfl
  · intro g s1 hg
    exact ⟨fun h => congrArg Host.Outcome.next (mcArrive_girder hk hg h),
      fun h f hf => congrArg Host.Outcome.next (mcArrive_stops hk hg h hf)⟩
  · exact congrArg Host.Outcome.next (mcLeave_due hk hr hfirst hlast)
  · exact congrArg Host.Outcome.next (groupDrained_released hd hm hs)

end Sys2Proof.Machine
end

section
/-! PROOF. The events of issue (O56): which unit wins its slot, waits, sleeps and wake words, a context register that has reached every core, ways
taken for scratch, and how far a package's clock may go (R92, R139, R142, R157, R239, R240, R308, R362). -/

namespace Sys2Proof.Machine

/-! ### Slots -/

/-- The slots of a core, one of them changed. -/
theorem slotAt_setSlot {c : Core} {k : Nat} (hk : k < c.slots.length) (f : Slot → Slot) (j : Nat) :
    slotAt (setSlot c k f) j = if j = k then f (slotAt c j) else slotAt c j := by
  simp only [slotAt, setSlot, List.getD_eq_getElem?_getD, List.getElem?_map, List.getElem?_zipIdx, Nat.zero_add]
  by_cases hj : j = k
  · subst hj
    simp [List.getElem?_eq_getElem hk]
  · cases c.slots[j]? <;> simp [hj]

/-! ### The unit that wins -/

theorem mem_of_pickRun {cs : List Contender} {w : Contender} (h : pickRun cs = some w) : w ∈ cs := by
  have hfree : ∀ e, e ∈ (if cs.any (fun c => !c.held) = true then cs.filter fun c => !c.held else cs) → e ∈ cs := by
    intro e he
    split at he
    · exact List.mem_of_mem_filter he
    · exact he
  unfold pickRun at h
  dsimp only at h
  split at h
  · rename_i hf
    exact hfree _ (Option.some.inj h ▸ List.mem_of_find?_eq_some hf)
  · exact hfree _ (List.mem_of_find?_eq_some h)

theorem mem_of_inTurn {order : List Nat} {last : Nat} {cs : List Contender} {w : Contender} (h : w ∈ inTurn order last cs) : w ∈ cs := by
  unfold inTurn at h
  dsimp only at h
  split at h
  · exact (List.mem_append.mp h).elim List.mem_of_mem_filter List.mem_of_mem_filter
  · exact h

/-- A unit is made of slices of one bound gang or singleton. -/
theorem mem_of_readyUnits {s : State} {u ids : List Nat} (h : ids ∈ readyUnits s u) {j : Nat} (hj : j ∈ ids) : j ∈ u := by
  unfold readyUnits at h
  split at h
  · cases h
  · rename_i i rest hlive
    refine List.mem_of_mem_filter (p := s.alive) (hlive ▸ ?_)
    dsimp only at h
    split at h
    · exact List.mem_singleton.mp h ▸ hj
    · obtain ⟨k, hk, rfl⟩ := List.mem_map.mp h
      exact List.mem_singleton.mp hj ▸ List.mem_of_mem_filter hk

/-- The unit that a slot chooses for its next run (R240). -/
def slotWinner (s : State) (core slot : Nat) : Option Contender :=
  let t := slotAt (s.core core) slot
  pickRun (inTurn (t.units.flatMap id) t.last ((t.units.flatMap (readyUnits s)).map (contender s (s.pkg (corePkg core)).clock)))

/-- The slices of the unit that wins are bound to the slot. -/
theorem slotWinner_bound {s : State} {core slot : Nat} {w : Contender} (h : slotWinner s core slot = some w) {j : Nat} (hj : j ∈ w.ids) :
    j ∈ (slotAt (s.core core) slot).units.flatMap id := by
  obtain ⟨ids, hids, rfl⟩ := List.mem_map.mp (mem_of_inTurn (mem_of_pickRun h))
  obtain ⟨u, hu, hr⟩ := List.mem_flatMap.mp hids
  exact List.mem_flatMap.mpr ⟨u, hu, mem_of_readyUnits hr hj⟩

/-! ### Arbitration -/

/-- The same change in each of some slices, with nothing more where it has been made. -/
theorem sl_foldl_updSl {f : Slice → Slice} (hf : ∀ x, f (f x) = f x) (l : List Nat) (s : State) (j : Nat) :
    (l.foldl (fun u i => u.updSl i f) s).sl j = if j ∈ l then f (s.sl j) else s.sl j := by
  induction l generalizing s with
  | nil => rfl
  | cons i l ih =>
    rw [List.foldl_cons, ih, State.updSl_eq, State.sl_setSl]
    by_cases hi : i = j
    · subst hi
      simp [hf]
    · simp [hi, Ne.symm hi]

theorem foldl_updSl_rest (f : Slice → Slice) (l : List Nat) (s : State) :
    { l.foldl (fun u i => u.updSl i f) s with slices := s.slices } = s :=
  List.foldlRecOn (motive := fun u : State => { u with slices := s.slices } = s) l _ rfl fun _ hu _ _ => hu

/-- No YIELD holds the slice. -/
def Slice.unheld (x : Slice) : Slice := { x with hold := false }

/-- The slice's wait for its run is over. -/
def Slice.chosen (x : Slice) : Slice := { x with since := none, raised := false }

/-- The slices bound to a slot once it has chosen: no YIELD holds, and those of the unit that won wait no more. -/
def chosenSlices (s : State) (bound ids : List Nat) : State :=
  ids.foldl (fun u i => u.updSl i Slice.chosen) (bound.foldl (fun u i => u.updSl i Slice.unheld) s)

theorem chosenSlices_rest (s : State) (bound ids : List Nat) : { chosenSlices s bound ids with slices := s.slices } = s :=
  (congrArg (fun u : State => { u with slices := s.slices }) (foldl_updSl_rest Slice.chosen ids _)).trans
    (foldl_updSl_rest Slice.unheld bound s)

theorem chosenSlices_core (s : State) (bound ids : List Nat) (k : Nat) : (chosenSlices s bound ids).core k = s.core k := by
  conv_rhs => rw [← chosenSlices_rest s bound ids]
  rfl

theorem chosenSlices_sl (s : State) (bound ids : List Nat) (j : Nat) : (chosenSlices s bound ids).sl j =
    if j ∈ ids then (if j ∈ bound then (s.sl j).unheld else s.sl j).chosen else if j ∈ bound then (s.sl j).unheld else s.sl j := by
  rw [chosenSlices, sl_foldl_updSl (f := Slice.chosen) (fun _ => rfl), sl_foldl_updSl (f := Slice.unheld) (fun _ => rfl)]

section
variable {s : State} {core slot : Nat} (hh : (slotAt (s.core core) slot).holder = []) (hl : slot < (s.core core).slots.length)
include hh hl

theorem slot_chooses : (!(slotAt (s.core core) slot).holder.isEmpty || decide ((s.core core).slots.length ≤ slot)) = false := by
  rw [hh, decide_eq_false (Nat.not_le.mpr hl)]
  rfl

theorem runArbitration_none (hw : slotWinner s core slot = none) : runArbitration s core slot = s := by
  unfold slotWinner at hw
  simp only [runArbitration, slot_chooses hh hl, hw, Bool.false_eq_true, if_false]

theorem runArbitration_some {w : Contender} (hw : slotWinner s core slot = some w) :
    runArbitration s core slot = (chosenSlices s ((slotAt (s.core core) slot).units.flatMap id) w.ids).setCore core
      (setSlot (s.core core) slot fun t => { t with holder := w.ids, len := 0, last := w.ids.headD 0 }) := by
  unfold slotWinner at hw
  simp only [runArbitration, slot_chooses hh hl, hw, Bool.false_eq_true, if_false]
  exact congrArg (fun c => (chosenSlices s _ w.ids).setCore core (setSlot c slot _)) (chosenSlices_core s _ w.ids core)

end

/-! ### Sleep (R308) -/

/-- What the end of a sleep leaves, once its clock has come: a slice that has a deferred trap to take stays parked. -/
theorem sleepExpire_clock {s : State} {j t0 : Nat} {w : Bool} (hp : (s.sl j).park = .after (.clock t0) w) :
    execSleepExpire j s = .next (if t0 ≤ s.clockOf j ∧ mustDeliver (s.sl j) = false then
      s.setSl j { s.sl j with park := if w then .after .results true else .run } else s) := by
  simp only [execSleepExpire, hp, Bool.and_eq_true, decide_eq_true_eq, Bool.not_eq_true', State.updSl_eq]

/-! ### Registers that travel (R157) -/

theorem ctxRegDone_only {s : State} {ctx ix : Nat} {v : DWord} {w : Nat} (hc : s.hasCtx ctx = true) (hp : (s.ctx ctx).pendReg = [(ix, v, w)]) :
    ctxRegDone s ctx ix = s.setCtx ctx (
      if ix = 0x30 then { { s.ctx ctx with pendReg := [] } with trapvec := v }
      else if ix < 0x50 then { { s.ctx ctx with pendReg := [] } with f := Tbl.put (s.ctx ctx).f (ix - 0x40) (v.setWidth 32) }
      else { { s.ctx ctx with pendReg := [] } with g := Tbl.put (s.ctx ctx).g (ix - 0x50) (v.setWidth 32) }) := by
  have hfind : [(ix, v, w)].find? (fun e => e.1 == ix) = some (ix, v, w) := List.find?_cons_of_pos (beq_self_eq_true ix)
  have herase : [(ix, v, w)].eraseIdx ([(ix, v, w)].findIdx fun e => e.1 == ix) = [] := by
    rw [List.findIdx_cons, beq_self_eq_true, cond_true, List.eraseIdx_cons_zero]
  simp only [ctxRegDone, State.updCtx_eq, hc, if_true, hp, hfind, herase]

/-! ### Ways taken for scratch (R92) -/

/-- Only caches, frames and traffic differ. -/
structure CachesOnly (s t : State) : Prop where
  rest : { t with
    cores := s.cores
    clusters := s.clusters
    packets := s.packets
    banks := s.banks
    bankClock := s.bankClock
    nextId := s.nextId
    mem := s.mem
    poison := s.poison
    migs := s.migs
    llc := s.llc
    llcData := s.llcData
    l2 := s.l2
    l2Data := s.l2Data } = s

theorem CachesOnly.refl (s : State) : CachesOnly s s := ⟨rfl⟩

theorem CachesOnly.trans {s t u : State} (h1 : CachesOnly s t) (h2 : CachesOnly t u) : CachesOnly s u := by
  refine ⟨?_⟩
  have a := h1.rest
  have b := h2.rest
  rw [← a, ← b]

theorem TrafficOnly.caches {s t : State} (h : TrafficOnly s t) : CachesOnly s t := by
  refine ⟨?_⟩
  rw [← h.rest]

theorem FramesOnly.caches {s t : State} (h : FramesOnly s t) : CachesOnly s t := by
  refine ⟨?_⟩
  rw [← h.rest]

theorem CachesOnly.setLlc (s : State) (a : Tbl LLine) (m : Mem) : CachesOnly s { s with llc := a, llcData := m } := ⟨rfl⟩
theorem CachesOnly.setL2 (s : State) (a : Tbl L2Line) (m : Mem) : CachesOnly s { s with l2 := a, l2Data := m } := ⟨rfl⟩

theorem pullFor_caches (s : State) (ctx va : Nat) : CachesOnly s (pullFor s ctx va) := by
  unfold pullFor
  split
  · exact (framePull_framesOnly s _).caches
  · exact CachesOnly.refl s

theorem fillLlc_caches (s : State) (ctx line : Nat) : CachesOnly s (fillLlc s ctx line) := by
  unfold fillLlc
  split
  · exact CachesOnly.refl s
  · exact ((pullFor_caches s ctx _).trans (busUnit_traffic _ _ _ _).caches).trans (CachesOnly.setLlc _ _ _)

theorem acceptBytes_caches (s : State) (ctx line : Nat) (bytes : List (Nat × Byte)) : CachesOnly s (acceptBytes s ctx line bytes).1 := by
  unfold acceptBytes
  split
  · exact ((fillLlc_caches s ctx line).trans (touchBank_traffic _ _ _).caches).trans (CachesOnly.setLlc _ _ _)
  · exact CachesOnly.refl s

/-- The dirty sectors of a copy that goes enter Viaduct. -/
def dropSends (s : State) (cl line : Nat) (x : L2Line) : State :=
  let dirty := [0, 1].filter fun k => x.dirty.getLsbD k
  if dirty.isEmpty then s else sendHome s cl 0 (256 * line) (1 + 2 * dirty.length)

theorem dropSends_traffic (s : State) (cl line : Nat) (x : L2Line) : TrafficOnly s (dropSends s cl line x) := by
  unfold dropSends
  dsimp only
  split
  · exact TrafficOnly.refl s
  · exact sendHome_traffic _ _ _ _ _

theorem evictL2_caches (s : State) (cl ctx line : Nat) : CachesOnly s (evictL2 s cl ctx line) := by
  unfold evictL2 dropL2
  split
  · exact CachesOnly.refl s
  · rename_i x _
    have hsent := ((dropSends_traffic s cl line x).trans (touchBank_traffic _ (cl / 64) (l2Bank cl (256 * line)))).caches
    dsimp only
    split
    · exact hsent.trans (CachesOnly.setL2 _ _ _)
    · exact (hsent.trans (CachesOnly.setL2 _ _ _)).trans (acceptBytes_caches _ _ _ _)

/-- The tiles that the spans of a cluster reach to depend on spans, launches and contexts alone. -/
theorem CachesOnly.floorCode {s t : State} (h : CachesOnly s t) (cl span : Nat) : floorCode t cl span = floorCode s cl span := by
  rw [← h.rest]
  rfl

/-- The lines that leave have left. -/
def waysEmptied (s : State) (cl code : Nat) : State :=
  let mine := s.l2.filter fun e => e.1 / 2 ^ 57 == cl
  let full := fun (k : Nat) => 16 - waysOf code < (mine.filter fun e => e.1 % 4096 == k % 4096).length
  (mine.filter fun e => full e.1 || Config.freeBool (s.freeIx + e.1)).foldl
    (fun u e => evictL2 u cl (e.1 % 2 ^ 57 / 2 ^ 49) (e.1 % 2 ^ 49)) s

theorem waysEmptied_caches (s : State) (cl code : Nat) : CachesOnly s (waysEmptied s cl code) :=
  foldl_keeps (α := Nat × L2Line) CachesOnly.refl CachesOnly.trans (fun _ _ => evictL2_caches _ _ _ _) _ s

theorem waysEmptied_noLines {s : State} {cl : Nat} (h : ∀ e ∈ s.l2, e.1 / 2 ^ 57 ≠ cl) (code : Nat) : waysEmptied s cl code = s := by
  have hmine : (s.l2.filter fun e => e.1 / 2 ^ 57 == cl) = [] := List.filter_eq_nil_iff.mpr fun e he => by simpa using h e he
  simp only [waysEmptied, hmine, List.filter_nil, List.foldl_nil]

/-- The ways are scratch, and the tiles gained hold nothing. -/
def waysTaken (s : State) (cl code : Nat) : State :=
  (dropScratch (waysEmptied s cl code) cl (256 * waysOf (s.cluster cl).ways)).updCluster cl fun c =>
    { c with ways := code, raising := none, lower := false }

theorem waysTaken_cluster (s : State) (cl code : Nat) : (waysTaken s cl code).cluster cl =
    { (waysEmptied s cl code).cluster cl with ways := code, raising := none, lower := false } :=
  State.cluster_setCluster_self _ _ _

theorem raiseWays_eq (s : State) (cl code : Nat) : raiseWays s cl code =
    if (s.cluster cl).lower then setWays (waysTaken s cl code) cl (min code (floorCode s cl 0)) 0 else waysTaken s cl code := by
  have h : floorCode (waysTaken s cl code) cl 0 = floorCode s cl 0 := (waysEmptied_caches s cl code).floorCode cl 0
  rw [← h]
  rfl

/-- Lowering is done at once. -/
theorem setWays_lowers {s : State} {cl code : Nat} (h : code ≤ (s.cluster cl).ways) (sl : Nat) :
    (setWays s cl code sl).cluster cl = { s.cluster cl with ways := code } := by
  simp only [setWays, if_pos h]
  exact State.cluster_setCluster_self _ _ _

theorem raiseWays_cluster (s : State) (cl code : Nat) : ((raiseWays s cl code).cluster cl).raising = none ∧
    ((raiseWays s cl code).cluster cl).ways = if (s.cluster cl).lower then min code (floorCode s cl 0) else code := by
  have hc := waysTaken_cluster s cl code
  rw [raiseWays_eq]
  split
  · rw [setWays_lowers (by rw [hc]; exact Nat.min_le_left _ _), hc]
    exact ⟨rfl, rfl⟩
  · rw [hc]
    exact ⟨rfl, rfl⟩

/-- With no line there to leave, only the scratch contents and the ways change. -/
theorem raiseWays_noLines {s : State} {cl : Nat} (h : ∀ e ∈ s.l2, e.1 / 2 ^ 57 ≠ cl) (hlow : (s.cluster cl).lower = false) (code : Nat) :
    raiseWays s cl code = (dropScratch s cl (256 * waysOf (s.cluster cl).ways)).setCluster cl
      { s.cluster cl with ways := code, raising := none, lower := false } := by
  rw [raiseWays_eq, hlow, waysTaken, waysEmptied_noLines h]
  rfl

/-! ### How far a clock may go (R149, R240) -/

theorem foldl_min_le (l : List Nat) (n : Nat) : l.foldl min n ≤ n ∧ ∀ x ∈ l, l.foldl min n ≤ x := by
  induction l generalizing n with
  | nil => exact ⟨Nat.le_refl n, fun _ h => nomatch h⟩
  | cons a l ih =>
    obtain ⟨hn, hl⟩ := ih (min n a)
    refine ⟨hn.trans (Nat.min_le_left n a), fun x hx => ?_⟩
    rcases List.mem_cons.mp hx with rfl | hx
    · exact hn.trans (Nat.min_le_right n x)
    · exact hl x hx

/-- The clocks of a package that exists which pass of `n`. -/
def clocksPass (s : State) (pkg n : Nat) : Nat :=
  (((dueClocks (markWaits s pkg) pkg).map fun t => t - (s.pkg pkg).clock) ++
    (dueTimes (markWaits s pkg) pkg).map (clocksTo (s.pkg pkg))).foldl min n

theorem clocksPass_le (s : State) (pkg n : Nat) : clocksPass s pkg n ≤ n := (foldl_min_le _ n).1

/-- Time stands at a clock at which something is due. -/
theorem clocksPass_due {s : State} {pkg t : Nat} (h : t ∈ dueClocks (markWaits s pkg) pkg) (n : Nat) :
    clocksPass s pkg n ≤ t - (s.pkg pkg).clock :=
  (foldl_min_le _ n).2 _ (List.mem_append_left _ (List.mem_map_of_mem h))

theorem markBusy_rest (s : State) (pkg : Nat) : { markBusy s pkg with towers := s.towers } = s :=
  List.foldlRecOn (motive := fun u : State => { u with towers := s.towers } = s) _ _ rfl fun _ hu _ _ => hu

theorem markBusy_pkgs (s : State) (pkg : Nat) : (markBusy s pkg).pkgs = s.pkgs := by
  conv_rhs => rw [← markBusy_rest s pkg]

theorem markBusy_mem (s : State) (pkg : Nat) : (markBusy s pkg).mem = s.mem := by
  conv_rhs => rw [← markBusy_rest s pkg]

theorem advanceTime_clock (s : State) (pkg n : Nat) : ((advanceTime s pkg n).pkg pkg).clock = (s.pkg pkg).clock + n := by
  rw [advanceTime, State.updPkg_eq, State.pkg_setPkg_self]

/-- No clock passes in a package that does not exist, or where something is due; else those do that nothing due stands against. -/
theorem tick_cases (s : State) (pkg n : Nat) : tick s pkg n = s ∨ tick s pkg n = markWaits s pkg ∨
    tick s pkg n = markBusy (advanceTime (queriesArrive (markWaits s pkg) pkg) pkg (clocksPass s pkg n)) pkg := by
  unfold tick
  split
  · refine Or.inr ?_
    dsimp only
    split
    · exact Or.inl rfl
    · exact Or.inr rfl
  · exact Or.inl rfl

theorem tick_mem (s : State) (pkg n : Nat) : (tick s pkg n).mem = s.mem := by
  rcases tick_cases s pkg n with h | h | h <;> rw [h]
  · rfl
  · exact markBusy_mem _ _

theorem tick_clock (s : State) (pkg n : Nat) :
    ((tick s pkg n).pkg pkg).clock = (s.pkg pkg).clock ∨ ((tick s pkg n).pkg pkg).clock = (s.pkg pkg).clock + clocksPass s pkg n := by
  rcases tick_cases s pkg n with h | h | h <;> rw [h]
  · exact Or.inl rfl
  · exact Or.inl rfl
  · rw [State.pkg, markBusy_pkgs]
    exact Or.inr (advanceTime_clock _ _ _)

/-- A clock does not pass one at which something is due. -/
theorem tick_due {s : State} {pkg t : Nat} (h : t ∈ dueClocks (markWaits s pkg) pkg) (n : Nat) :
    ((tick s pkg n).pkg pkg).clock ≤ max (s.pkg pkg).clock t := by
  have hd := clocksPass_due h n
  rcases tick_clock s pkg n with hc | hc <;> omega

theorem tick_bounds (s : State) (pkg n : Nat) :
    (s.pkg pkg).clock ≤ ((tick s pkg n).pkg pkg).clock ∧ ((tick s pkg n).pkg pkg).clock ≤ (s.pkg pkg).clock + n := by
  have hn := clocksPass_le s pkg n
  rcases tick_clock s pkg n with hc | hc <;> omega

/-- A slice that waits is due to be raised (R240). -/
theorem raise_due {s : State} {pkg i t0 : Nat} {x : Slice} (hx : (i, x) ∈ s.slices) (hp : corePkg (s.coreOf i) = pkg)
    (h0 : x.since = some t0) (hr : x.raised = false) : t0 + 257 ∈ dueClocks s pkg := by
  have hready : t0 + 257 ∈ (x.since.bind fun t => if x.raised then none else some (t + 257)).toList := by simp [h0, hr]
  have hdue : t0 + 257 ∈ sliceDue s i x := by
    unfold sliceDue
    dsimp only
    split
    · split
      · exact hready
      · exact List.mem_cons_of_mem _ hready
    · exact hready
  have hmem : t0 + 257 ∈ (s.slices.filter fun e => corePkg (s.coreOf e.1) == pkg).flatMap fun e => sliceDue s e.1 e.2 :=
    List.mem_flatMap.mpr ⟨(i, x), List.mem_filter.mpr ⟨hx, beq_iff_eq.mpr hp⟩, hdue⟩
  simp only [dueClocks, List.mem_append]
  exact Or.inl (Or.inl (Or.inl (Or.inl hmem)))

/-- A slot at which a raised slice waits is due when its instruction is over (R240, R273). -/
theorem slot_due {s : State} {core i : Nat} {c : Core} {t : Slot} (hc : (core, c) ∈ s.cores) (ht : t ∈ c.slots)
    (hi : i ∈ t.units.flatMap id) (hh : i ∉ t.holder) (hr : (s.sl i).raised = true) (hgo : canIssue s i = true) :
    t.freeAt ∈ dueClocks s (corePkg core) := by
  have hwaits : ((t.units.flatMap id).any fun i => (s.sl i).raised && canIssue s i && !t.holder.contains i) = true :=
    List.any_eq_true.mpr ⟨i, hi, by simp [hr, hgo, hh]⟩
  have hslot : t.freeAt ∈ slotDue s t := by
    rw [slotDue, if_pos hwaits]
    exact List.mem_singleton_self _
  have hmem : t.freeAt ∈ slotsDue s (corePkg core) := List.mem_flatMap.mpr
    ⟨(core, c), List.mem_filter.mpr ⟨hc, beq_self_eq_true _⟩, List.mem_flatMap.mpr ⟨t, ht, hslot⟩⟩
  simp only [dueClocks, List.mem_append]
  exact Or.inl (Or.inl (Or.inl (Or.inr hmem)))

/-! ### The events -/

/-- Settles O56, clause by clause: the slices of the unit that wins are bound to the slot, and time stands at every clock that is due. -/
theorem issueEvents : Obligations.IssueEvents := by
  unfold Obligations.IssueEvents
  intro s
  refine ⟨?_, fun core slot j t0 hj hgo h0 hlate => ?_, fun core slot hlen => ?_,
    fun j t0 w hp => ?_, fun core word => rfl, fun ctx ix v w hc hp => congrArg Host.Outcome.next (ctxRegDone_only hc hp),
    fun cl code w hw => ?_, fun cl hw => ?_, fun pkg n i x t0 hx hp h0 hr => tick_due (raise_due hx hp h0 hr) n, ?_,
    fun pkg n => ⟨(tick_bounds s pkg n).1, (tick_bounds s pkg n).2, tick_mem s pkg n⟩⟩
  · intro core slot t cs hh hl
    refine ⟨fun hw => congrArg Host.Outcome.next (runArbitration_none hh hl hw), fun w hw => ?_⟩
    refine ⟨_, congrArg Host.Outcome.next (runArbitration_some hh hl hw), ?_, fun k hk => ?_, fun k hk => ?_, fun j hj => ?_, fun j hj hn => ?_,
      congrArg (fun u : State => { u with cores := s.cores }) (chosenSlices_rest s _ _)⟩
    · rw [State.core_setCore_self, slotAt_setSlot hl, if_pos rfl]
    · rw [State.core_setCore_self, slotAt_setSlot hl, if_neg hk]
    · rw [State.core_setCore_ne _ _ fun e => hk e.symm, chosenSlices_core]
    · rw [State.sl_setCore, chosenSlices_sl, if_pos hj, if_pos (slotWinner_bound hw hj)]
      rfl
    · rw [State.sl_setCore, chosenSlices_sl, if_neg hn, if_pos hj]
      rfl
  · have hwaited : ((s.sl j).since.map fun t => decide (t + 256 < (s.pkg (corePkg core)).clock)).getD false = true := by
      rw [h0]
      exact decide_eq_true hlate
    exact congrArg Host.Outcome.next (if_pos ⟨hj, hgo, hwaited⟩)
  · exact congrArg Host.Outcome.next (if_pos hlen)
  · exact sleepExpire_clock hp
  · have hdone : l2wpRaiseDone s cl = raiseWays s cl code := by rw [l2wpRaiseDone, hw]
    obtain ⟨hr, hc⟩ := raiseWays_cluster s cl code
    exact ⟨_, congrArg Host.Outcome.next hdone, hr, hc, fun hnone hlow => raiseWays_noLines hnone hlow code⟩
  · have hdone : l2wpRaiseDone s cl = s := by rw [l2wpRaiseDone, hw]
    exact congrArg Host.Outcome.next hdone
  · rintro pkg n core c t i hc rfl ht hi hh hr hgo
    exact tick_due (slot_due hc ht hi hh hr hgo) n

end Sys2Proof.Machine
end

section
/-! PROOF. TRST, TRSTQ, TRSTK and MCGRP (O33): a kill step by step, the queries that a clock brings to their Trestles, and a group that may be given
anew (R99, R100, R102 to R105, R336 to R338). -/

namespace Sys2Proof.Machine

/-! ### Chains that are started and killed -/

theorem Chain.busy_iff {c : Chain} : c.busy = true ↔ c.st = .running ∨ c.st = .waiting := by
  simp [Chain.busy]

/-- Two limits that are both kept. -/
theorem limits_kept {a b c d : Nat} (h : b < a) (h' : d < c) : (decide (a ≤ b) || decide (c ≤ d)) = false := by
  simp [Nat.not_le.mpr h, Nat.not_le.mpr h']

/-- R105: what is not yet in flight is not performed, and the chain stands at the oldest entry in flight, or else at the current one. -/
def Chain.abandon (c : Chain) : Chain :=
  let first := (c.flight.find? fun f => !f.2.old).map Prod.snd
  { c with
    killing := true
    entry := (first.map Flight.ix).getD (min c.entry 255)
    ca := (first.map Flight.ca).getD c.ca
    loops := (first.map Flight.loops).getD c.loops
    flight := c.flight.map fun f => (f.1, if f.2.old then f.2 else { f.2 with todo := [], left := f.2.left - f.2.todo.length })
    cur := none
    answers := []
    coll := none }

theorem chainKill_eq (s : State) (crew ch : Nat) : chainKill s crew ch =
    if ((chainOf s crew ch).st = .running ∨ (chainOf s crew ch).st = .waiting) ∧ (chainOf s crew ch).killing = false then
      killSettle (updChain (dropChainReqs ((chainOf s crew ch).flight.foldl (fun s f => entryComplete s crew ch f.1) s) crew ch) crew ch
        Chain.abandon) crew ch
    else s := by
  have hbusy : (!(chainOf s crew ch).busy || (chainOf s crew ch).killing) = true ↔
      ¬(((chainOf s crew ch).st = .running ∨ (chainOf s crew ch).st = .waiting) ∧ (chainOf s crew ch).killing = false) := by
    rw [← Chain.busy_iff]
    cases (chainOf s crew ch).busy <;> cases (chainOf s crew ch).killing <;> decide
  by_cases h : ((chainOf s crew ch).st = .running ∨ (chainOf s crew ch).st = .waiting) ∧ (chainOf s crew ch).killing = false
  · rw [if_pos h]
    exact if_neg fun hb => hbusy.mp hb h
  · rw [if_neg h]
    exact if_pos (hbusy.mpr h)

/-! ### Queries (R337) -/

/-- Entries changed one by one, each under its key. -/
theorem Tbl.find_map_keyed {α β : Type} {g : Nat × α → Nat × β} (hg : ∀ e, (g e).1 = e.1) (t : Tbl α) (k : Nat) :
    Tbl.find (t.map g) k = (Tbl.find t k).map fun v => (g (k, v)).2 := by
  induction t with
  | nil => rfl
  | cons e t ih =>
    obtain ⟨j, v⟩ := e
    have hgv : g (j, v) = (j, (g (j, v)).2) := Prod.ext (hg (j, v)) rfl
    rw [List.map_cons, hgv, Tbl.find_cons, Tbl.find_cons, ih]
    by_cases hj : j = k
    · subst hj
      simp
    · simp [hj]

/-- A clock's look at the waits of slices changes nothing else of them. -/
theorem markWaits_sl (s : State) (pkg j : Nat) :
    { (markWaits s pkg).sl j with since := (s.sl j).since, raised := (s.sl j).raised } = s.sl j := by
  unfold markWaits
  simp only [State.sl, Tbl.findD]
  rw [Tbl.find_map_keyed (by intro e; split_ifs <;> rfl)]
  cases Tbl.find s.slices j with
  | none => rfl
  | some x =>
    simp only [Option.map_some, Option.getD_some]
    split_ifs <;> rfl

theorem answerQueries_idle {s : State} {x : Slice} (h : x.queries = []) : answerQueries s x = x := by
  obtain ⟨⟩ := x
  cases h
  simp [answerQueries]

/-- The queries of every slice of the package have arrived. -/
theorem queriesArrive_sl {s : State} {pkg j : Nat} (hp : corePkg (s.coreOf j) = pkg) :
    (queriesArrive s pkg).sl j = answerQueries s (s.sl j) := by
  unfold queriesArrive
  simp only [State.sl, Tbl.findD]
  rw [Tbl.find_map_keyed (by intro e; split_ifs <;> rfl)]
  cases Tbl.find s.slices j with
  | none => exact (answerQueries_idle rfl).symm
  | some x =>
    simp only [Option.map_some, Option.getD_some, hp, true_and]
    split_ifs with hq
    · rfl
    · exact (answerQueries_idle (not_not.mp hq)).symm

/-- A clock that passes brings the queries of its package's slices to their Trestles. -/
theorem tick_queries {s : State} {pkg n j : Nat} (hc : ((tick s pkg n).pkg pkg).clock ≠ (s.pkg pkg).clock)
    (hp : corePkg (s.coreOf j) = pkg) : ((tick s pkg n).sl j).queries = [] ∧
      ((tick s pkg n).sl j).ready = (s.sl j).ready ++ (s.sl j).queries.flatMap fun q =>
        (landReg .u64 q.2.2 0 (chainStatus (chainOf s (s.sl j).crew q.2.1))).map fun e => ⟨q.1, e.1, e.2⟩ := by
  rcases tick_cases s pkg n with h | h | h
  · exact absurd (by rw [h]) hc
  · exact absurd (by rw [h]; rfl) hc
  · have hm := markWaits_sl s pkg j
    have hcrew : ((markWaits s pkg).sl j).crew = (s.sl j).crew := (congrArg Slice.crew hm :)
    have hready : ((markWaits s pkg).sl j).ready = (s.sl j).ready := (congrArg Slice.ready hm :)
    have hqueries : ((markWaits s pkg).sl j).queries = (s.sl j).queries := (congrArg Slice.queries hm :)
    have hcore : (markWaits s pkg).coreOf j = s.coreOf j := congrArg (fun k => (s.crew k).core) hcrew
    have hsl : (tick s pkg n).sl j = answerQueries (markWaits s pkg) ((markWaits s pkg).sl j) := by
      rw [h, ← queriesArrive_sl (hcore ▸ hp)]
      exact (congrArg (fun u : State => u.sl j) (markBusy_rest _ pkg) :)
    rw [hsl]
    refine ⟨rfl, ?_⟩
    rw [answerQueries, hcrew, hready, hqueries]
    rfl

/-! ### Groups (R99, R338) -/

/-- The group is of no other span that is still there. -/
theorem group_not_taken {s : State} {gr : Group} {span : Nat} (h : gr.mask ≠ 0 → gr.span = span ∨ Tbl.find s.spans gr.span = none) :
    (gr.mask != 0 && gr.span != span && (Tbl.find s.spans gr.span).isSome) = false := by
  by_cases h0 : gr.mask = 0
  · simp [h0]
  · rcases h h0 with hs | hs <;> simp [hs]

/-! ### The instructions -/

/-- Settles O33, instruction by instruction: its checks, then its effect on the chain or the group; a query is answered at the next clock. -/
theorem trestleInstructions : Obligations.TrestleInstructions := by
  unfold Obligations.TrestleInstructions
  intro s h ch d a b hu crew off
  refine ⟨fun hrole hp => ?_, fun hp => ?_, fun pkg n j hc hpkg => tick_queries hc hpkg, ?_, fun k => ?_, fun hp => ?_⟩
  · refine runs_once (i := .trst h ch a b) rfl hu.1 (fun j hj => if_pos (hrole j hj)) (fun j hj hl => ?_) fun _ _ => rfl
    obtain ⟨halign, hoff, htile, hidle, hacc⟩ := hp j hj hl
    simp only [off] at halign hoff htile
    simp only [halign, bne_self_eq_false, limits_kept hoff htile, crew] at hidle ⊢
    simp only [hidle, accessPre_go hacc, Bool.false_eq_true, if_false]
  · exact runs_once (i := .trstq h ch d) rfl hu.1 (fun _ _ => rfl) (fun j hj hl => roomPre_go (hp j hj hl)) fun _ _ => rfl
  · refine runs_once (i := .trstk h ch) rfl hu.1 (fun _ _ => rfl) (fun _ _ _ => rfl) fun u j => ?_
    exact congrArg (fun v : State => v.updSl j (standAt (.chain ch))) (chainKill_eq u (u.sl j).crew ch)
  · simp only [killSettle, Bool.not_eq_true']
  · refine runs_once (i := .mcgrp h d a b) rfl hu.1 (fun _ _ => rfl) (fun j hj hl => ?_) fun _ _ => rfl
    obtain ⟨hg, hm, hs, hk, hd⟩ := hp j hj hl
    simp only [limits_kept hg hm, group_not_taken hs, hk, hd, bne_self_eq_false, Bool.not_true, Bool.or_self, Bool.false_eq_true, if_false]

end Sys2Proof.Machine
end

section
/-! PROOF. Entries of a chain (O34): what a fetch that nothing stops makes of its entry, how a data entry is dispatched, the next request of an MCAST,
and the end of an entry (R100, R106, R107, R109, R382). -/

namespace Sys2Proof.Machine

/-! ### A fetch -/

/-- Entries that wait for those in flight and run by their own event (R107). -/
def entControl (w : Nat) : Bool :=
  (7 ≤ entCode w && entCode w ≤ 11) || entCode w == 13 || (entCode w == 5 && entBits w 128 128 == 0)

theorem entControl_iff {w : Nat} : entControl w = true ↔
    (7 ≤ entCode w ∧ entCode w ≤ 11) ∨ entCode w = 13 ∨ (entCode w = 5 ∧ entBits w 128 128 = 0) := by
  simp [entControl, or_assoc]

section
variable {s : State} {crew ch off : Nat} {c : Chain} (hc : chainOf s crew ch = c) (hoff : c.base + 32 * c.entry = off)
include hc hoff

/-- The chain may go on, its next entry stands in a tile that Trestle owns, no entry in flight writes it, and its form is right. -/
theorem entryFetch_reads (hst : c.st = .running) (hkill : c.killing = false) (hcur : c.cur = none) (hrun : ctxRuns s (s.crew crew).ctx = true)
    (hend : (s.crew crew).ended = false) (hask : chainAsking s crew ch = false) (hent : c.entry ≤ 255) (hspace : off < 2 ^ 19)
    (htile : off / 1024 < (s.crew crew).tiles) (hown : (tagOf s crew (off / 1024)).owner = .trestle)
    (hmeet : ∀ f ∈ c.flight, ∀ r ∈ f.2.wrs, rangesMeet (1, off, off + 32) r = false)
    (hform : entForm (bytesNat (lclGet s crew 1 off 32)) = none) :
    entryFetch s crew ch =
      if entControl (bytesNat (lclGet s crew 1 off 32)) then
        if c.flight.isEmpty then updChain s crew ch fun c => { c with cur := some (bytesNat (lclGet s crew 1 off 32)) } else s
      else fetchData s crew ch (bytesNat (lclGet s crew 1 off 32)) := by
  subst hc hoff
  have hclear : ((chainOf s crew ch).flight.any fun f => f.2.wrs.any (rangesMeet (1, (chainOf s crew ch).base + 32 * (chainOf s crew ch).entry,
      (chainOf s crew ch).base + 32 * (chainOf s crew ch).entry + 32))) = false := by
    simpa only [List.any_eq_false, Bool.not_eq_true] using hmeet
  simp only [entryFetch, hst, hkill, hcur, hrun, hend, hask, hown, hclear, hform, limits_kept hspace htile, if_neg (Nat.not_lt.mpr hent),
    bne_self_eq_false, Option.isSome_none, Bool.not_true, Bool.or_self, Bool.false_eq_true, if_false]
  rfl

end

/-! ### Data entries -/

/-- The index list of a GATHER or SCATTER. -/
def entIndices (s : State) (crew w : Nat) : List Nat :=
  if idxRange w = [] then [] else (List.range (entLen w)).map fun e => bytesNat (lclGet s crew 1 (entBits w 146 128 + 4 * e) 4)

/-- The bytes that an entry reads, its index list first, and those that it writes. -/
def entReads (w : Nat) (moves : List (Nat × Nat × Nat)) : List (Nat × Nat × Nat) :=
  idxRange w ++ (if entCode w = 12 then [] else rangesOf (entBits w 11 10) (moves.map fun m => (m.2.1, m.2.2)))
def entWrites (w : Nat) (moves : List (Nat × Nat × Nat)) : List (Nat × Nat × Nat) :=
  rangesOf (entBits w 9 8) (moves.map fun m => (m.1, m.2.2))

/-- An entry as it is dispatched. -/
def Chain.dispatched (c : Chain) (w : Nat) (moves : List (Nat × Nat × Nat)) : Flight :=
  ⟨c.entry, w, entReads w moves, entWrites w moves, entPieces w moves, (entPieces w moves).length, c.ca, c.loops, false, placeless c.answers⟩

/-- A data entry whose ranges are cleared and meet no entry in flight is dispatched. -/
theorem fetchData_dispatches {s : State} {crew ch w : Nat} {c : Chain} {moves : List (Nat × Nat × Nat)} (hc : chainOf s crew ch = c)
    (hm : entMoves c w (entIndices s crew w) = moves) (hok : dataOk c w = true) (hroom : c.flight.length < 8)
    (hixs : overlapsFlight c (idxRange w) = false) (hixl : localSub s crew (idxRange w) = none)
    (hover : overlapsFlight c (entReads w moves ++ entWrites w moves) = false)
    (hlocal : localSub s crew (entWrites w moves ++ entReads w moves) = none)
    (hstand : rangesStand s crew ch (entReads w moves) (entWrites w moves) = .ok) :
    fetchData s crew ch w = updChain (rangesUse s.fresh crew ch (entReads w moves) (entWrites w moves)) crew ch fun d =>
      chainGoto (d.entry + 1) { d with flight := Tbl.put d.flight s.nextId (c.dispatched w moves), answers := [] } := by
  subst hc hm
  unfold entReads entWrites entIndices at hover hlocal hstand
  simp only [fetchData, List.isEmpty_iff, hok, decide_eq_false (Nat.not_le.mpr hroom), hixs, hixl, hover, hlocal, hstand, Bool.not_true, Bool.or_self,
    Bool.false_eq_true, if_false]
  rfl

/-! ### Entries in flight -/

/-- The request for a sector of an MCAST. -/
def Flight.request (f : Flight) (s : State) (crew ch ent : Nat) (q : Nat × Nat × Nat) : McReq :=
  let c := s.crew crew
  let g := entBits f.word 132 128
  { core := c.core, ctx := c.ctx, va := q.2.1, group := g, gen := (groupOf s (coreCluster c.core) g).gen.toNat, crew := crew, ch := ch,
    ent := ent, dst := q.1, girder := false, hint := entBits f.word 23 21,
    data := if fromPlace f.kept q.2.1 then none else some (readAs s c.ctx f.kept q.2.1 128) }

/-- The chain without an entry that is complete, which counts for the run that dispatched it. -/
def Chain.completed (c : Chain) (ent : Nat) (f : Flight) : Chain :=
  { c with flight := Tbl.del c.flight ent, done := if f.old then c.done else min (c.done + 1) 0xFFFFFFFF }

section
variable {s : State} {crew ch ent : Nat} {f : Flight} (hf : Tbl.find (chainOf s crew ch).flight ent = some f)
include hf

/-- An MCAST sends its lowest request. -/
theorem mcastSend_lowest {p : List (Nat × Nat × Nat)} {rest : List (List (Nat × Nat × Nat))} (ht : f.todo = p :: rest)
    (hcode : entCode f.word = 4) : mcastSend s crew ch ent =
      flightTook { s.fresh with mcReqs := Tbl.put s.mcReqs s.nextId (f.request s crew ch ent (p.headD (0, 0, 0))) } crew ch ent 0 0 := by
  simp only [mcastSend, hf, ht, hcode, bne_self_eq_false, Bool.false_eq_true, if_false]
  rfl

theorem entryComplete_done (ht : f.todo = []) (hl : f.left = 0) : entryComplete s crew ch ent =
    let s1 := updChain s crew ch fun c => c.completed ent f
    if entBits f.word 20 20 = 1 then kInc s1 crew (entBits f.word 19 16) else s1 := by
  have hcount : (fun c : Chain => if f.old then { c with flight := Tbl.del c.flight ent } else countDone { c with flight := Tbl.del c.flight ent }) =
      fun c => c.completed ent f := by
    funext c
    unfold Chain.completed
    cases f.old <;> rfl
  simp only [entryComplete, hf, ht, hl, hcount, List.isEmpty_nil, decide_true, Bool.and_self, if_true]

end

/-! ### The events -/

/-- Settles O34: a fetch by the kind of its entry, then the next request of an MCAST and the end of an entry. -/
theorem trestleEntries : Obligations.TrestleEntries := by
  unfold Obligations.TrestleEntries
  refine ⟨fun s crew ch => ?_, fun s crew ch ent f hf => ⟨fun p rest ht hcode => ?_, fun ht hl => ?_⟩⟩
  · intro k c off w hst hkill hcur hrun hend hask hent hspace htile hown hform hmeet control
    have hfetch := entryFetch_reads rfl rfl hst hkill hcur hrun hend hask hent hspace htile hown hmeet hform
    refine ⟨fun hctl hnone => ?_, fun hctl hsome => ?_, ?_⟩
    · have hempty : c.flight.isEmpty = true := List.isEmpty_iff.mpr hnone
      exact congrArg Host.Outcome.next (hfetch.trans ((if_pos (entControl_iff.mpr hctl)).trans (if_pos hempty)))
    · have hempty : ¬ c.flight.isEmpty = true := mt List.isEmpty_iff.mp hsome
      exact congrArg Host.Outcome.next (hfetch.trans ((if_pos (entControl_iff.mpr hctl)).trans (if_neg hempty)))
    · intro hdata hok hroom ixs idx moves rds wrs hixs hixl hover hlocal hstand
      exact congrArg Host.Outcome.next (hfetch.trans ((if_neg (mt entControl_iff.mp hdata)).trans
        (fetchData_dispatches rfl rfl hok hroom hixs hixl hover hlocal hstand)))
  · exact congrArg Host.Outcome.next (mcastSend_lowest hf ht hcode)
  · exact congrArg Host.Outcome.next (entryComplete_done hf ht hl)

end Sys2Proof.Machine
end

section
/-! PROOF. Pieces of data entries (O35): the event of a piece performs its parts and strikes it from the entry's list, and a part that moves local
bytes changes no bytes but its destination's (R58, R75, R107 to R114). -/

namespace Sys2Proof.Machine

/-! ### One piece -/

/-- A piece's event is the one of its entry's code. -/
theorem exec_pieceOf {s : State} {crew ch ent k code : Nat} {ev : Instr} (h : (code, ev) ∈ [(1, Instr.trestleCopy crew ch ent k),
    (2, .trestleGather crew ch ent k), (3, .trestleScatter crew ch ent k), (5, .trestleReduceMemory crew ch ent k),
    (6, .trestleVxfer crew ch ent k), (12, .trestleFill crew ch ent k)]) : exec ev s = .next (pieceOf [code] s crew ch ent k) := by
  simp only [List.mem_cons, Prod.mk.injEq, List.not_mem_nil, or_false] at h
  rcases h with ⟨rfl, rfl⟩ | ⟨rfl, rfl⟩ | ⟨rfl, rfl⟩ | ⟨rfl, rfl⟩ | ⟨rfl, rfl⟩ | ⟨rfl, rfl⟩ <;> rfl

theorem pieceOf_runs {s : State} {crew ch ent k : Nat} {f : Flight} {ps : List (Nat × Nat × Nat)}
    (hf : Tbl.find (chainOf s crew ch).flight ent = some f) (hp : f.todo[k]? = some ps) :
    pieceOf [entCode f.word] s crew ch ent k = pieceRun s crew ch ent k f ps := by
  simp [pieceOf, hf, hp]

/-- None of the bytes that the piece reads at their homes is poisoned. -/
theorem pieceRun_clean {s : State} {crew ch ent k : Nat} {f : Flight} {ps : List (Nat × Nat × Nat)}
    (h : entBits f.word 11 10 = 0 ∧ entCode f.word ≠ 12 → ∀ q ∈ ps, poisonFor s (s.crew crew).ctx f.kept q.2.1 q.2.2 = none) :
    pieceRun s crew ch ent k f ps = flightTook (ps.foldl (fun u q => partRun u crew f.word f.kept q) s) crew ch ent k 1 := by
  have hnone : (if entBits f.word 11 10 = 0 ∧ entCode f.word ≠ 12 then
      (ps.filterMap fun q => poisonFor s (s.crew crew).ctx f.kept q.2.1 q.2.2).head? else none) = none := by
    split
    · rename_i hfar
      rw [List.filterMap_eq_nil_iff.mpr (h hfar)]
      rfl
    · rfl
  simp only [pieceRun, hnone]

/-! ### Local bytes (R94) -/

/-- The bytes of a local space: 1 the stash, else span scratch. -/
def lclMem (s : State) (sp : Nat) : Mem := if sp = 1 then s.stash else s.scratch

/-- Of the bytes of memory, caches and local spaces only those of one local space differ, and there none at an address in `out`. -/
structure LocalFrame (sp : Nat) (out : Nat → Prop) (s t : State) : Prop where
  mem : t.mem = s.mem
  llcData : t.llcData = s.llcData
  l2Data : t.l2Data = s.l2Data
  crews : t.crews = s.crews
  other : if sp = 1 then t.scratch = s.scratch else t.stash = s.stash
  kept : ∀ a, out a → Mem.read (lclMem t sp) a = Mem.read (lclMem s sp) a

section
variable {sp : Nat} {out : Nat → Prop}

theorem LocalFrame.refl (s : State) : LocalFrame sp out s s := ⟨rfl, rfl, rfl, rfl, by split <;> rfl, fun _ _ => rfl⟩

theorem LocalFrame.trans {s t u : State} (h1 : LocalFrame sp out s t) (h2 : LocalFrame sp out t u) : LocalFrame sp out s u where
  mem := h2.mem.trans h1.mem
  llcData := h2.llcData.trans h1.llcData
  l2Data := h2.l2Data.trans h1.l2Data
  crews := h2.crews.trans h1.crews
  other := by
    have a := h1.other
    have b := h2.other
    split at a
    · rename_i h
      rw [if_pos h] at b ⊢
      exact b.trans a
    · rename_i h
      rw [if_neg h] at b ⊢
      exact b.trans a
  kept a ha := (h2.kept a ha).trans (h1.kept a ha)

theorem LocalFrame.mono {out' : Nat → Prop} {s t : State} (h : LocalFrame sp out s t) (ho : ∀ a, out' a → out a) : LocalFrame sp out' s t :=
  { h with kept := fun a ha => h.kept a (ho a ha) }

theorem TrafficOnly.localFrame {s t : State} (h : TrafficOnly s t) : LocalFrame sp out s t := by
  have hstash := h.stash
  have hscratch : t.scratch = s.scratch := by rw [← h.rest]
  refine ⟨h.mem, h.llcData, h.l2Data, h.crews, ?_, fun a _ => ?_⟩
  · split <;> assumption
  · rw [lclMem, lclMem, hstash, hscratch]

end

theorem touchScratch_traffic (s : State) (span off n : Nat) : TrafficOnly s (touchScratch s span off n) := by
  unfold touchScratch
  dsimp only
  split
  · exact TrafficOnly.refl s
  · exact foldl_keeps TrafficOnly.refl TrafficOnly.trans (fun _ _ => touchBank_traffic _ _ _) _ s

theorem lclTouch_traffic (s : State) (crew sp off n : Nat) : TrafficOnly s (lclTouch s crew sp off n) := by
  unfold lclTouch
  split
  · exact touchScratch_traffic _ _ _ _
  · exact TrafficOnly.refl s

theorem lclKey_of_crews {s t : State} (h : t.crews = s.crews) (crew sp off : Nat) : lclKey t crew sp off = lclKey s crew sp off := by
  rw [lclKey, lclKey, State.crew, State.crew, h]

theorem length_lclGet (s : State) (crew sp off n : Nat) : (lclGet s crew sp off n).length = n := Mem.length_readN _ _ _

/-- The address is none of `n` from offset `off` of a local space. -/
def lclApart (s : State) (crew sp off n a : Nat) : Prop := a < lclKey s crew sp off ∨ lclKey s crew sp off + n ≤ a

theorem lclPut_local (s : State) (crew sp off : Nat) (bytes : List Byte) :
    LocalFrame sp (lclApart s crew sp off bytes.length) s (lclPut s crew sp off bytes) := by
  have hread : ∀ (m : Mem) (a : Nat), lclApart s crew sp off bytes.length a →
      Mem.read (Mem.writeN m (lclKey s crew sp off) bytes) a = Mem.read m a := by
    intro m a ha
    rw [Mem.read_writeN, if_neg]
    unfold lclApart at ha
    omega
  by_cases h : sp = 1
  · subst h
    exact ⟨rfl, rfl, rfl, rfl, rfl, hread s.stash⟩
  · have ht := touchScratch_traffic s (s.crew crew).span off bytes.length
    have hkey : lclKey s crew 2 off = lclKey s crew sp off := by simp [lclKey, h]
    unfold lclPut
    rw [if_neg h]
    refine ⟨ht.mem, ht.llcData, ht.l2Data, ht.crews, by rw [if_neg h]; exact ht.stash, fun a ha => ?_⟩
    rw [lclMem, lclMem, if_neg h, if_neg h, hkey]
    exact hread s.scratch a ha

/-! ### Parts that move local bytes -/

section
variable {crew w : Nat} (hnear : ¬(entBits w 11 10 = 0 ∧ entCode w ≠ 12)) (hcode : entCode w ≠ 5) (hdst : entBits w 9 8 ≠ 0)
include hnear hcode hdst

/-- A part whose source is local, or the value of a FILL, and whose destination is local. -/
theorem partRun_near (s : State) (as : List Answer) (q : Nat × Nat × Nat) : ∃ u bytes, TrafficOnly s u ∧ bytes.length = q.2.2 ∧
    partRun s crew w as q = lclPut u crew (entBits w 9 8) q.1 bytes := by
  by_cases hfill : entCode w = 12
  · refine ⟨s, (List.range q.2.2).map fun b => BitVec.ofNat 8 (entBits w 159 128 / 256 ^ ((q.2.1 + b) % 4)), TrafficOnly.refl s, by simp, ?_⟩
    simp only [partRun, if_pos hfill, if_neg hcode, if_neg hdst]
  · have hsrc : entBits w 11 10 ≠ 0 := fun h => hnear ⟨h, hfill⟩
    refine ⟨_, _, lclTouch_traffic s crew (entBits w 11 10) q.2.1 q.2.2, length_lclGet s crew (entBits w 11 10) q.2.1 q.2.2, ?_⟩
    simp only [partRun, if_neg hfill, if_neg hsrc, if_neg hcode, if_neg hdst]

theorem partRun_local (s : State) (as : List Answer) (q : Nat × Nat × Nat) :
    LocalFrame (entBits w 9 8) (lclApart s crew (entBits w 9 8) q.1 q.2.2) s (partRun s crew w as q) := by
  obtain ⟨u, bytes, hu, hlen, hrun⟩ := partRun_near hnear hcode hdst s as q
  rw [hrun]
  refine hu.localFrame.trans ((lclPut_local u crew (entBits w 9 8) q.1 bytes).mono fun a ha => ?_)
  rwa [lclApart, lclKey_of_crews hu.crews, hlen]

/-- Local bytes that no part's destination covers stay. -/
theorem parts_local (s : State) (as : List Answer) (ps : List (Nat × Nat × Nat)) :
    LocalFrame (entBits w 9 8) (fun a => ∀ q ∈ ps, lclApart s crew (entBits w 9 8) q.1 q.2.2 a) s
      (ps.foldl (fun u q => partRun u crew w as q) s) := by
  refine List.foldlRecOn (motive := LocalFrame (entBits w 9 8) (fun a => ∀ q ∈ ps, lclApart s crew (entBits w 9 8) q.1 q.2.2 a) s) ps _
    (LocalFrame.refl s) fun u hu q hq => hu.trans ((partRun_local hnear hcode hdst u as q).mono fun a ha => ?_)
  rw [lclApart, lclKey_of_crews hu.crews]
  exact ha q hq

end

/-! ### The events -/

/-- Settles O35: a clean piece performs its parts, and those between local spaces leave other bytes alone. -/
theorem trestlePieces : Obligations.TrestlePieces := by
  unfold Obligations.TrestlePieces
  intro s crew ch ent k f ps code ev hev hf hp hcode w ctx far hclean part
  subst hcode
  refine ⟨_, (exec_pieceOf hev).trans (congrArg Host.Outcome.next ((pieceOf_runs hf hp).trans (pieceRun_clean hclean))), rfl, ?_, ?_⟩
  · intro hnear h5 hdst
    have h := parts_local (crew := crew) hnear h5 (by rw [hdst]; decide) s f.kept ps
    rw [hdst] at h
    exact ⟨h.mem, h.other, h.llcData, h.l2Data, h.kept⟩
  · intro hnear h5 hdst
    have hne : entBits w 9 8 ≠ 1 := by omega
    have h := parts_local (crew := crew) hnear h5 (by omega) s f.kept ps
    obtain ⟨hmem, hllc, hl2, -, hother, hkept⟩ := h
    simp only [lclApart, lclKey, lclMem, w, if_neg hne] at hother hkept
    exact ⟨hmem, hother, hllc, hl2, hkept⟩

end Sys2Proof.Machine
end

section
/-! PROOF. Control entries of a chain (O36): one rule for the entry that a chain stands at, then what each code does there (R111, R112). -/

namespace Sys2Proof.Machine

/-- A chain that stands at an entry of the event's code runs it. -/
theorem control_at {s : State} {crew ch code w : Nat} (h : s.atControl crew ch code w) (f : Chain → Nat → State) :
    control s crew ch code f = f (chainOf s crew ch) w := by
  obtain ⟨hcur, hst, hcode, hrun, hask⟩ := h
  simp only [control, hcur, hst, hcode, hrun, hask, beq_self_eq_true, decide_true, Bool.not_false, Bool.and_self, if_true]

section
variable {s : State} {crew ch w : Nat}

/-! ### FLIP and POST -/

theorem trestleFlip_at (h : s.atControl crew ch 7 w) (hsp : entBits w 9 8 = 1 ∨ entBits w 9 8 = 2) (hn : entLen w ≠ 0)
    (halign : entDst (chainOf s crew ch) w % tileSize (entBits w 9 8) = 0) (hnew : ownerCode (entBits w 129 128) ≠ .trestle)
    (hdeck : ¬(entBits w 9 8 = 2 ∧ ownerCode (entBits w 129 128) = .deck))
    (hlocal : localSub s crew [(entBits w 9 8, entDst (chainOf s crew ch) w,
      entDst (chainOf s crew ch) w + entLen w * tileSize (entBits w 9 8))] = none) :
    trestleFlip s crew ch = chainNext
      ((tilesIn (entBits w 9 8) (entDst (chainOf s crew ch) w) (entLen w * tileSize (entBits w 9 8))).foldl
        (fun u t => setOwner u crew (entBits w 9 8) t (ownerCode (entBits w 129 128))) s) crew ch ((chainOf s crew ch).entry + 1) := by
  have hsp' : (entBits w 9 8 == 1 || entBits w 9 8 == 2) = true := by simpa using hsp
  have hdeck' : (entBits w 9 8 == 2 && ownerCode (entBits w 129 128) == .deck) = false := by
    rw [Bool.eq_false_iff]
    simpa using hdeck
  rw [trestleFlip, control_at h]
  simp only [hsp', bne_iff_ne.mpr hn, halign, beq_self_eq_true, bne_iff_ne.mpr hnew, hdeck', hlocal, Bool.not_false, Bool.and_self, Bool.not_true,
    Bool.false_eq_true, if_false]

theorem trestlePost_at (h : s.atControl crew ch 8 w) (hst : entBits w 133 131 < (ringOf (s.crew crew) (entBits w 130 128)).nst) :
    trestlePost s crew ch = chainNext (updRing s crew (entBits w 130 128) (setPhase true (entBits w 133 131))) crew ch
      ((chainOf s crew ch).entry + 1) := by
  rw [trestlePost, control_at h]
  exact if_neg (Nat.not_le.mpr hst)

/-! ### WAIT -/

theorem waitHolds_ring (hk : entBits w 128 128 = 0) : waitHolds s crew w = true ↔
    ringFull (s.crew crew) (entBits w 131 129) (entBits w 134 132) = (entBits w 135 135 == 1) := by
  simp [waitHolds, hk]

theorem waitHolds_counter (hk : entBits w 128 128 = 1) : waitHolds s crew w = true ↔
    kReached (s.crew crew) (entBits w 139 136) (BitVec.ofNat 32 (entBits w 191 160)) = true := by
  simp [waitHolds, hk]

/-- A WAIT whose operands are right goes on at once, or its chain waits. -/
theorem trestleWait_at {kind : Nat} (h : s.atControl crew ch 9 w) (hk : entBits w 128 128 = kind)
    (hring : kind = 0 → entBits w 134 132 < (ringOf (s.crew crew) (entBits w 131 129)).nst) :
    trestleWait kind s crew ch = if waitHolds s crew w = true then chainNext s crew ch ((chainOf s crew ch).entry + 1)
      else updChain s crew ch fun c => { c with st := .waiting } := by
  have hstage : (decide (kind = 0) && decide ((ringOf (s.crew crew) (entBits w 131 129)).nst ≤ entBits w 134 132)) = false := by
    by_cases h0 : kind = 0
    · simp [Nat.not_le.mpr (hring h0)]
    · simp [h0]
  rw [trestleWait, control_at h]
  simp only [hk, hstage, bne_self_eq_false, Bool.false_eq_true, if_false]

theorem waitSatisfied_now (hcur : (chainOf s crew ch).cur = some w) (hst : (chainOf s crew ch).st = .waiting) (hcode : entCode w = 9)
    (hrun : ctxRuns s (s.crew crew).ctx = true) (hh : waitHolds s crew w = true) :
    waitSatisfied s crew ch = chainNext s crew ch ((chainOf s crew ch).entry + 1) := by
  simp only [waitSatisfied, hcur, hst, hcode, hrun, hh, beq_self_eq_true, decide_true, Bool.and_self, if_true]

/-! ### LOOP -/

/-- An entry lies past the end of the innermost loop. -/
def loopOutside (c : Chain) (last : Nat) : Bool :=
  match c.loops with
  | l :: _ => l.last < last
  | [] => false

theorem loopOutside_of_inside {c : Chain} {last : Nat} (h : ∀ l ls, c.loops = l :: ls → last ≤ l.last) : loopOutside c last = false := by
  unfold loopOutside
  split
  · rename_i l ls hl
    exact decide_eq_false (Nat.not_lt.mpr (h l ls hl))
  · rfl

/-- The loop level that a LOOP opens. -/
def loopLevel (entry w : Nat) : LoopLv :=
  ⟨entry, entry + entBits w 183 176, entBits w 175 160, [0, 1, 2, 3].map fun k => BitVec.ofNat 32 (entBits w (63 + 32 * k) (32 + 32 * k))⟩

/-- A LOOP whose body is right skips it, or opens a level where there is room for one. -/
theorem trestleLoop_at (h : s.atControl crew ch 10 w) (hbody : entBits w 183 176 ≠ 0)
    (hend : (chainOf s crew ch).entry + entBits w 183 176 ≤ 255)
    (hin : ∀ l ls, (chainOf s crew ch).loops = l :: ls → (chainOf s crew ch).entry + entBits w 183 176 ≤ l.last)
    (hroom : entBits w 175 160 ≠ 0 → (chainOf s crew ch).loops.length < 4) :
    trestleLoop s crew ch =
      if entBits w 175 160 = 0 then chainNext s crew ch ((chainOf s crew ch).entry + entBits w 183 176 + 1)
      else chainNext (updChain s crew ch fun d => { d with loops := loopLevel (chainOf s crew ch).entry w :: d.loops }) crew ch
        ((chainOf s crew ch).entry + 1) := by
  have hfull : (entBits w 175 160 != 0 && decide (4 ≤ (chainOf s crew ch).loops.length)) = false := by
    by_cases h0 : entBits w 175 160 = 0
    · simp [h0]
    · simp [Nat.not_le.mpr (hroom h0)]
  have hright : (decide (entBits w 183 176 = 0) || decide (255 < (chainOf s crew ch).entry + entBits w 183 176) ||
      loopOutside (chainOf s crew ch) ((chainOf s crew ch).entry + entBits w 183 176) ||
      (entBits w 175 160 != 0 && decide (4 ≤ (chainOf s crew ch).loops.length))) = false := by
    rw [decide_eq_false hbody, decide_eq_false (Nat.not_lt.mpr hend), loopOutside_of_inside hin, hfull]
    rfl
  rw [trestleLoop, control_at h]
  exact if_neg (Bool.eq_false_iff.mp hright)

/-! ### IF and END -/

/-- Where an IF goes on. -/
def ifNext (c : Chain) (w : Nat) (holds : Bool) : Nat := if holds then c.entry + 1 else c.entry + entBits w 151 144 + 1

/-- The word that an IF compares, of an address that is cleared, as its chain reads it. -/
theorem trestleIfWord_at {va : Nat} (h : s.atControl crew ch 11 w) (hva : entDst (chainOf s crew ch) w = va)
    (hskip : skipOk (chainOf s crew ch) (entBits w 151 144) = true) (hk : entBits w 128 128 = 0) (hcond : entBits w 131 129 ≤ 5)
    (halign : va % 4 = 0) (hstand : rangesStand s crew ch [(0, va, va + 4)] [] = .ok)
    (hclean : poisonFor s (s.crew crew).ctx (chainOf s crew ch).answers va 4 = none) :
    trestleIfWord s crew ch = chainNext
      (engReadAs (rangesUse s crew ch [(0, va, va + 4)] []) (s.crew crew).core (crewClass s crew) (s.crew crew).ctx (entBits w 23 21)
        (chainOf s crew ch).answers va 4) crew ch
      (ifNext (chainOf s crew ch) w (wcondHolds (ifCond (entBits w 131 129)) 32
        (bytesNat (readAs s (s.crew crew).ctx (chainOf s crew ch).answers va 4)) (entBits w 191 160))) := by
  subst hva
  rw [trestleIfWord, control_at h]
  simp only [hk, hskip, decide_eq_false (Nat.not_lt.mpr hcond), halign, hstand, hclean, bne_self_eq_false, Bool.not_true, Bool.or_self,
    Bool.false_eq_true, if_false]
  rfl

theorem trestleIfRing_at (h : s.atControl crew ch 11 w) (hskip : skipOk (chainOf s crew ch) (entBits w 151 144) = true)
    (hk : entBits w 128 128 = 1) (hst : entBits w 137 135 < (ringOf (s.crew crew) (entBits w 134 132)).nst) :
    trestleIfRing s crew ch = chainNext s crew ch (ifNext (chainOf s crew ch) w
      (ringFull (s.crew crew) (entBits w 134 132) (entBits w 137 135) == (entBits w 160 160 == 1))) := by
  rw [trestleIfRing, control_at h]
  simp only [hk, hskip, if_neg (Nat.not_le.mpr hst), bne_self_eq_false, Bool.not_true, Bool.false_eq_true, if_false]
  rfl

end

/-! ### The events -/

/-- Settles O36, code by code at the entry that the chain stands at. -/
theorem trestleControl : Obligations.TrestleControl := by
  unfold Obligations.TrestleControl
  intro s crew ch w c k goes nxt
  refine ⟨fun h => ?_, fun h hst => ?_, fun h => ?_, fun hcur hst hcode hrun hh => ?_, fun h => ?_, fun h hskip => ?_, fun h => ?_⟩
  · intro sp d new hsp hn halign hnew hdeck hlocal
    exact congrArg Host.Outcome.next (trestleFlip_at h hsp hn halign hnew hdeck hlocal)
  · exact congrArg Host.Outcome.next (trestlePost_at h hst)
  · intro ringIs reached
    refine ⟨fun hk hst => ?_, fun hk => ?_⟩
    · have hwait := trestleWait_at h hk fun _ => hst
      exact ⟨fun hr => congrArg Host.Outcome.next (hwait.trans (if_pos ((waitHolds_ring hk).mpr hr))),
        fun hr => congrArg Host.Outcome.next (hwait.trans (if_neg (mt (waitHolds_ring hk).mp hr)))⟩
    · have hwait := trestleWait_at h hk fun h0 => absurd h0 (by decide)
      exact ⟨fun hr => congrArg Host.Outcome.next (hwait.trans (if_pos ((waitHolds_counter hk).mpr hr))),
        fun hr => congrArg Host.Outcome.next (hwait.trans (if_neg (mt (waitHolds_counter hk).mp hr)))⟩
  · exact congrArg Host.Outcome.next (waitSatisfied_now hcur hst hcode hrun hh)
  · intro body count hbody hend hin
    exact ⟨fun h0 => congrArg Host.Outcome.next ((trestleLoop_at h hbody hend hin fun hne => absurd h0 hne).trans (if_pos h0)),
      fun hne hroom => congrArg Host.Outcome.next ((trestleLoop_at h hbody hend hin fun _ => hroom).trans (if_neg hne))⟩
  · intro past
    exact ⟨fun hk hcond halign hstand hclean => congrArg Host.Outcome.next (trestleIfWord_at h rfl hskip hk hcond halign hstand hclean),
      fun hk hst => congrArg Host.Outcome.next (trestleIfRing_at h hskip hk hst)⟩
  · exact congrArg Host.Outcome.next (control_at h _)

end Sys2Proof.Machine
end

section
/-! PROOF. Collective REDUCE (O37): a chain sends its contribution, and what the arrival of a contribution brings about while its collective has not
failed: all are stopped, it is kept, or all go on (R113). -/

namespace Sys2Proof.Machine

/-! ### A contribution is sent -/

/-- The contribution of a chain's collective entry, its bytes from the entry's local source. -/
def contribution (s : State) (crew ch w : Nat) : Collective :=
  { ctx := (s.crew crew).ctx, coll := entBits w 223 192, dst := entDst (chainOf s crew ch) w, len := entLen w, ety := entBits w 139 136,
    npart := entBits w 175 160, rank := entBits w 191 176,
    bytes := lclGet s crew (entBits w 11 10) (entSrc (chainOf s crew ch) w) (entLen w), crew := crew, ch := ch, arrived := false, short := 0 }

theorem collectiveSend_at {s : State} {crew ch w src dst n sp : Nat} (h : s.atControl crew ch 5 w) (hsp : entBits w 11 10 = sp)
    (hsrc : entSrc (chainOf s crew ch) w = src) (hdst : entDst (chainOf s crew ch) w = dst) (hn : entLen w = n)
    (hok : dataOk (chainOf s crew ch) w = true) (hlocal : localSub s crew [(sp, src, src + n)] = none)
    (hstand : rangesStand s crew ch [(sp, src, src + n)] [(0, dst, dst + n)] = .ok) :
    collectiveSend s crew ch = updChain
      ((sectorParts dst n).foldl (fun u e => inject u (u.crew crew).core (crewClass u crew) e.1 (dataFlits e.2) 1 1)
        { (lclTouch (rangesUse s crew ch [(sp, src, src + n)] [(0, dst, dst + n)]) crew sp src n).fresh with
          colls := Tbl.put s.colls s.nextId (contribution s crew ch w) }) crew ch
      fun c => { c with st := .waiting, answers := [], coll := some s.nextId } := by
  subst hsp hsrc hdst hn
  rw [collectiveSend, control_at h]
  simp only [hok, hlocal, hstand, Bool.not_true, Bool.false_eq_true, if_false]
  rfl

/-! ### A contribution arrives -/

/-- The contributions collected at the home of a contribution's destination for the same collective. -/
def collGroup (s : State) (m : Collective) : Tbl Collective :=
  s.colls.filter fun e => e.2.arrived && e.2.ctx == m.ctx && e.2.coll == m.coll &&
    (vaTower e.2.dst, homeSlice e.2.dst) == (vaTower m.dst, homeSlice m.dst)

/-- It names the same destination, length, type and number of participants, and another rank. -/
def Collective.fits (m : Collective) (e : Nat × Collective) : Bool :=
  e.2.dst == m.dst && e.2.len == m.len && e.2.ety == m.ety && e.2.npart == m.npart && e.2.rank != m.rank

theorem Collective.fits_iff {m : Collective} {e : Nat × Collective} : m.fits e = true ↔
    e.2.dst = m.dst ∧ e.2.len = m.len ∧ e.2.ety = m.ety ∧ e.2.npart = m.npart ∧ e.2.rank ≠ m.rank := by
  simp only [Collective.fits, Bool.and_eq_true, beq_iff_eq, bne_iff_ne, and_assoc]

theorem Collective.not_fits_iff {m : Collective} {e : Nat × Collective} : ¬ m.fits e = true ↔
    e.2.dst ≠ m.dst ∨ e.2.len ≠ m.len ∨ e.2.ety ≠ m.ety ∨ e.2.npart ≠ m.npart ∨ e.2.rank = m.rank := by
  rw [Collective.fits_iff]
  tauto

/-- The contributions are cleared. -/
def collCleared (s : State) (parts : Tbl Collective) : State := { s with colls := s.colls.filter fun e => !(parts.any fun a => a.1 == e.1) }

/-- A failed collective stays, under its latest contribution, while others of the first arrival's NPART are still to come (log 84). -/
def collFailed (s : State) (k : Nat) (first : Collective) (parts : Tbl Collective) : State :=
  if first.npart - parts.length = 0 then collCleared s parts
  else { collCleared s parts with
    colls := Tbl.put (collCleared s parts).colls k { first with arrived := true, short := first.npart - parts.length } }

/-- A chain that waits for a contribution is stopped, or goes on and counts. -/
def collStops (u : State) (e : Nat × Collective) : State :=
  if (chainOf u e.2.crew e.2.ch).coll = some e.1 then chainFault u e.2.crew e.2.ch 9 0 0 else u
def collGoes (u : State) (e : Nat × Collective) : State :=
  if (chainOf u e.2.crew e.2.ch).coll = some e.1 then
    let c := chainOf u e.2.crew e.2.ch
    let w := c.cur.getD 0
    chainNext (if entBits w 20 20 = 1 then kInc u e.2.crew (entBits w 19 16) else u) e.2.crew e.2.ch (c.entry + 1)
  else u

/-- The contributions' sum over the ranks. -/
def collTotal (m : Collective) (parts : Tbl Collective) : List Byte :=
  collSum m.ety m.len ((List.range m.npart).map fun r => ((parts.find? fun e => e.2.rank == r).map fun e => e.2.bytes).getD [])

theorem collStop_eq (u : State) (e : Nat × Collective) : collStop u e.1 e.2 = collStops u e := by
  simp only [collStop, collWaits, collStops, beq_iff_eq]

section
variable {s : State} {k : Nat} {m : Collective} (hk : Tbl.find s.colls k = some m) (ha : m.arrived = false)
  (hs : ∀ e ∈ collGroup s m, e.2.short = 0)
include hk ha hs

/-- A contribution that arrives while its collective has not failed. -/
theorem collArrive_open : collArrive s k =
    let parts := collGroup s m ++ [(k, m)]
    if (!(collGroup s m).all m.fits) = true then
      parts.foldl collStops (collFailed s k (((collGroup s m).head?.map Prod.snd).getD m) parts)
    else if parts.length < m.npart then { s with colls := Tbl.put s.colls k { m with arrived := true } }
    else parts.foldl collGoes (homePut (collCleared s parts) m.ctx m.dst ((collTotal m parts).take m.len)) := by
  have hfailed : ((collGroup s m).find? fun e => e.2.short != 0) = none :=
    List.find?_eq_none.mpr fun e he => by simp [hs e he]
  have hmates : ((collGroup s m).filter fun e => e.2.short == 0) = collGroup s m :=
    List.filter_eq_self.mpr fun e he => beq_iff_eq.mpr (hs e he)
  have hstop : (fun (u : State) (e : Nat × Collective) => collStop u e.1 e.2) = collStops := by
    funext u e
    exact collStop_eq u e
  unfold collGroup at hfailed hmates
  simp only [collArrive, hk, ha, hfailed, hmates, hstop, collWaits, beq_iff_eq, Bool.false_eq_true, if_false]
  rfl

theorem collArrive_mismatch (hx : ∃ e ∈ collGroup s m, ¬ m.fits e = true) : collArrive s k =
    (collGroup s m ++ [(k, m)]).foldl collStops
      (collFailed s k (((collGroup s m).head?.map Prod.snd).getD m) (collGroup s m ++ [(k, m)])) := by
  have hnot : (!(collGroup s m).all m.fits) = true := by simpa using hx
  exact (collArrive_open hk ha hs).trans (if_pos hnot)

variable (hx : ∀ e ∈ collGroup s m, m.fits e = true)
include hx

theorem collArrive_fits : collArrive s k =
    if (collGroup s m ++ [(k, m)]).length < m.npart then { s with colls := Tbl.put s.colls k { m with arrived := true } }
    else (collGroup s m ++ [(k, m)]).foldl collGoes
      (homePut (collCleared s (collGroup s m ++ [(k, m)])) m.ctx m.dst ((collTotal m (collGroup s m ++ [(k, m)])).take m.len)) := by
  have hall : ¬ (!(collGroup s m).all m.fits) = true := by simpa using hx
  exact (collArrive_open hk ha hs).trans (if_neg hall)

end

/-! ### The events -/

/-- Settles O37: a chain at a collective entry, then an arrival by whether the contribution fits and whether it is the last. -/
theorem collectives : Obligations.Collectives := by
  unfold Obligations.Collectives
  refine fun s => ⟨fun crew ch w h hok => ?_, fun k m hk ha => ?_⟩
  · intro c src sp hlocal hstand
    exact congrArg Host.Outcome.next (collectiveSend_at h rfl rfl rfl rfl hok hlocal hstand)
  · intro group parts
    refine ⟨fun hs hx => ?_, fun hx => ?_⟩
    · obtain ⟨e, he, hne⟩ := hx
      exact congrArg Host.Outcome.next (collArrive_mismatch hk ha hs ⟨e, he, Collective.not_fits_iff.mpr hne⟩)
    · have harrive := collArrive_fits hk ha (fun e he => (hx e he).1) fun e he => Collective.fits_iff.mpr (hx e he).2
      exact ⟨fun hmore => congrArg Host.Outcome.next (harrive.trans (if_pos hmore)),
        fun hlast => congrArg Host.Outcome.next (harrive.trans (if_neg (Nat.not_lt.mpr hlast)))⟩

end Sys2Proof.Machine
end

section
/-! PROOF. TEX, TLD and TQRY (O29): a slice whose texture reads are ready needs nothing more before issue (R128 to R131, R208, R322). -/

namespace Sys2Proof.Machine

/-! ### Needs one after another -/

@[simp] theorem Pre.go_next (q : Pre) : Pre.next .go q = q := rfl

@[simp] theorem texBad_false : texBad false = .go := rfl

/-! ### The slice's own stores (R208) -/

theorem ownPre_go_iff {s : State} {i : Nat} {as : List LaneAcc} : ownPre s i as = .go ↔ ownUnder s i false as = [] := by
  unfold ownPre
  cases ownUnder s i false as <;> simp

/-- An access in flight that meets none of some bytes meets none of a part of them. -/
theorem ownUnder_mono {s : State} {i : Nat} {store : Bool} {as bs : List LaneAcc} (hsub : as ⊆ bs) (hb : ownUnder s i store bs = []) :
    ownUnder s i store as = [] := by
  unfold ownUnder at hb ⊢
  rw [List.map_eq_nil_iff, List.filter_eq_nil_iff] at hb ⊢
  intro e he hmeets
  rw [Bool.and_eq_true, List.any_eq_true] at hmeets
  obtain ⟨hload, q, hq, hopen⟩ := hmeets
  refine hb e he ?_
  rw [Bool.and_eq_true, List.any_eq_true]
  refine ⟨hload, q, hq, ?_⟩
  rw [Bool.and_eq_true] at hopen ⊢
  refine ⟨hopen.1, ?_⟩
  cases hg : globalVa s i e.2 q with
  | none => simp [hg] at hopen
  | some g =>
    obtain ⟨a, ha, hover⟩ := List.any_eq_true.mp (by simpa only [hg] using hopen.2)
    exact List.any_eq_true.mpr ⟨a, hsub ha, hover⟩

theorem ownPre_mono {s : State} {i : Nat} {as bs : List LaneAcc} (hsub : as ⊆ bs) (hb : ownPre s i bs = .go) : ownPre s i as = .go :=
  ownPre_go_iff.mpr (ownUnder_mono hsub (ownPre_go_iff.mp hb))

/-! ### Descriptors and programs (R128, R130) -/

/-- A program in memory that can be read has a header that can. -/
theorem headOf_isSome_of_progOf {s : State} {p : Party} {v : Nat} (hv : 8 ≤ v) (hp : (progOf s p v).isSome = true) :
    (headOf s p v).isSome = true := by
  have h5 : ¬ v < 5 := by omega
  rw [progOf, if_neg h5, if_neg (Nat.not_lt.mpr hv)] at hp
  cases hh : headOf s p v with
  | none => simp [hh] at hp
  | some e => rfl

theorem texAlign_go {s : State} {j : Nat} {ins : List TexIn}
    (h : ∀ q ∈ ins, q.desc % 32 = 0 ∧ (q.prog < 5 ∨ 8 ≤ q.prog ∧ q.prog % 8 = 0)) : texAlign s j ins = .go := by
  have hnone : (ins.findSome? fun q => if q.desc % 32 != 0 then some (q.lane, q.desc)
      else if 8 ≤ q.prog && q.prog % 8 != 0 then some (q.lane, q.prog) else none) = none := by
    rw [List.findSome?_eq_none_iff]
    intro q hq
    obtain ⟨hdesc, hprog⟩ := h q hq
    have haligned : (decide (8 ≤ q.prog) && q.prog % 8 != 0) = false := by
      rcases hprog with hlow | ⟨-, h8⟩
      · simp [show ¬ 8 ≤ q.prog by omega]
      · simp [h8]
    simp [hdesc, haligned]
  simp only [texAlign, hnone]

/-! ### Before issue -/

/-- A slice whose reads are ready may issue. -/
theorem texPre_go {s : State} {j : Nat} {once : Bool} {ins : Nat → List TexIn} {addrs : Nat → Tex → TexIn → List Nat}
    (h : s.samples j (ins j) (addrs j)) : texPre s j once ins addrs = .go := by
  obtain ⟨hform, ⟨hdesc, hhead, htap, htexel⟩, hown, hways, hroom⟩ := h
  have hid : ((ins j).any fun q => decide (5 ≤ q.prog) && decide (q.prog < 8)) = false := by
    refine List.any_eq_false.mpr fun q hq => ?_
    have := (hform q hq).2.1
    rw [Bool.and_eq_true, decide_eq_true_eq, decide_eq_true_eq]
    omega
  have hdescs : ((ins j).any fun q => (descOf s (sliceParty s j) q.desc).isNone) = false :=
    List.any_eq_false.mpr fun q hq => by simpa [← Option.isSome_iff_ne_none] using (hform q hq).2.2.1
  have hheads : ((ins j).any fun q => decide (8 ≤ q.prog) && (headOf s (sliceParty s j) q.prog).isNone) = false := by
    refine List.any_eq_false.mpr fun q hq => ?_
    rw [Bool.and_eq_true, decide_eq_true_eq]
    rintro ⟨h8, hn⟩
    have hsome := headOf_isSome_of_progOf h8 (hform q hq).2.2.2
    rw [Option.isNone_iff_eq_none.mp hn] at hsome
    cases hsome
  have hprogs : ((ins j).any fun q => (progOf s (sliceParty s j) q.prog).isNone) = false :=
    List.any_eq_false.mpr fun q hq => by simpa [← Option.isSome_iff_ne_none] using (hform q hq).2.2.2
  have halign := texAlign_go (s := s) (j := j) fun q hq => ⟨(hform q hq).1, (hform q hq).2.1⟩
  have hd := ownPre_mono (as := descAccs (ins j)) (fun _ ha => by simp [ha]) hown
  have hh := ownPre_mono (as := headAccs (ins j)) (fun _ ha => by simp [ha]) hown
  have ht := ownPre_mono (as := tapAccs s j (ins j)) (fun _ ha => by simp [ha]) hown
  have hx := ownPre_mono (as := texelAccs s j (ins j) (addrs j)) (fun _ ha => by simp [ha]) hown
  simp only [texPre, hid, hdescs, hheads, hprogs, halign, hd, hh, ht, hx, memPre_read (accs := fun j => descAccs (ins j)) hdesc,
    memPre_read (accs := fun j => headAccs (ins j)) hhead, memPre_read (accs := fun j => tapAccs s j (ins j)) htap,
    memPre_read (accs := fun j => texelAccs s j (ins j) (addrs j)) htexel, l2wpPre_open hways, roomPre_go hroom, texBad_false, Pre.go_next]

/-! ### The instructions -/

/-- A sampler instruction issues when every slice of the unit that executes it is ready. -/
theorem runs_tex {i : Instr} {h : Hdr} {m : Meaning} {s : State} {vec once : Bool} {rs : List (Opnd × Nat)} {ins : Nat → List TexIn}
    {addrs : Nat → Tex → TexIn → List Nat} {e : State → Nat → State} (hx : exec i s = runUnit h m s) (hc : s.cur ≠ [])
    (hj : m.jump = false) (hl : m.lanes = lanesFor vec h) (hk : m.chk = chkRegs rs) (hp : ∀ j l, m.pre s j l = texPre s j once ins addrs)
    (he : ∀ u j l, m.act s u j l = e u j)
    (hr : ∀ j ∈ s.cur, regsOk (s.crewOf j) rs = true ∧ (lanesFor vec h (s.sl j) ≠ 0 → s.samples j (ins j) (addrs j))) :
    Runs i h (lanesFor vec h) e s :=
  runs_of hx hc hj hl (lanesFor_atIssue vec h) (hk ▸ regsOk_chk fun j hjc => (hr j hjc).1)
    (fun j hjc hon => (hp j _).trans (texPre_go ((hr j hjc).2 hon))) fun u j _ => he u j _

/-- Settles O29, instruction by instruction: the slices that execute it are ready, and its effect is the model's. -/
theorem textureReads : Obligations.TextureReads := by
  unfold Obligations.TextureReads
  intro s h d a b c e hu
  refine ⟨?_, ?_, ?_⟩
  · intro vec ins addrs hr
    exact runs_tex (i := .tex h d a b c e) rfl hu.1 rfl rfl rfl (fun _ _ => rfl) (fun _ _ _ => rfl) hr
  · intro vec ins addrs hr
    exact runs_tex (i := .tld h d a b) (addrs := fun _ => addrs) rfl hu.1 rfl rfl rfl (fun _ _ => rfl) (fun _ _ _ => rfl) hr
  · intro vec ins hr
    exact runs_tex (i := .tqry h d a) (addrs := fun _ _ _ => []) rfl hu.1 rfl rfl rfl (fun _ _ => rfl) (fun _ _ _ => rfl) hr

end Sys2Proof.Machine
end

section
/-! PROOF. TOWN, TWAIT and the stash mapping (O32): a run of tiles in range, and slices of one unit that map and unmap one after another: what those
before a slice leave is the same whether the unit checks them or issues them (R119, R120, R125 to R127, R147, R329, R330, R332). -/

namespace Sys2Proof.Machine

/-! ### TOWN and TWAIT (R119, R120, R329, R330) -/

theorem mem_tileRun {t n k : Nat} : k ∈ tileRun t n ↔ ∃ i, i < n ∧ t + i = k := by
  simp [tileRun]

theorem localWaits_open {s : State} {j : Nat} {span : Bool}
    (h : span = true → (s.cluster (coreCluster (s.coreOf j))).raising = none) : localWaits s j span = .go := by
  cases span with
  | false => rfl
  | true => exact l2wpPre_open (h rfl)

theorem tilePre_go {s : State} {j off n : Nat} {span : Bool} (h : s.tileRange j (spaceOf span) off n) : tilePre s j span off n = .go := by
  obtain ⟨halign, hin⟩ := h
  have hall : ((tileRun (off / tileSize (spaceOf span)) n).all fun k => tilesOk s (s.sl j).crew (spaceOf span) k 1) = true := by
    refine List.all_eq_true.mpr fun k hk => ?_
    obtain ⟨i, hi, rfl⟩ := mem_tileRun.mp hk
    exact hin i hi
  simp [tilePre, halign, hall]

theorem badTile_none {sp t n : Nat} {f : Nat → Bool} (h : ∀ i, i < n → f (t + i) = true) : badTile sp t n f = none := by
  rw [badTile, Option.map_eq_none_iff, List.find?_eq_none]
  intro k hk
  obtain ⟨i, hi, rfl⟩ := mem_tileRun.mp hk
  simp [h i hi]

/-- Tiles of the run that the slice may give away, those that change owner idle, let TOWN issue. -/
theorem townPre_go {h : Hdr} {span : Bool} {own : Owner} {a b : Opnd} {s : State} {j : Nat}
    (hstill : span = true → (s.cluster (coreCluster (s.coreOf j))).raising = none) (hlow : 1 ≤ rs32 s j h b)
    (hhigh : rs32 s j h b ≤ if span then 2048 else 512) (hdeck : span = true → own ≠ .deck)
    (hrange : s.tileRange j (spaceOf span) (rs32 s j h a) (rs32 s j h b))
    (hown : ∀ k, k < rs32 s j h b → townOk s j span own (rs32 s j h a / tileSize (spaceOf span) + k) = true)
    (hidle : ∀ k, k < rs32 s j h b → ownerOfTile s (s.sl j).crew (spaceOf span) (rs32 s j h a / tileSize (spaceOf span) + k) ≠ own →
      tileBusy s (s.sl j).crew span (rs32 s j h a / tileSize (spaceOf span) + k) = false) : townPre h span own a b s j = .go := by
  have hargs : (decide (rs32 s j h b = 0) || decide ((if span then 2048 else 512) < rs32 s j h b) || (span && own == .deck)) = false := by
    have hengine : (span && own == .deck) = false := by
      cases span with
      | false => rfl
      | true => simpa using hdeck rfl
    simp only [hengine, Bool.or_false, Bool.or_eq_false_iff, decide_eq_false_iff_not]
    exact ⟨by omega, Nat.not_lt.mpr hhigh⟩
  have hmoves : (((tileRun (rs32 s j h a / tileSize (spaceOf span)) (rs32 s j h b)).filter fun k =>
      ownerOfTile s (s.sl j).crew (spaceOf span) k != own).any (tileBusy s (s.sl j).crew span)) = false := by
    refine List.any_eq_false.mpr fun k hk => ?_
    obtain ⟨hrun, hmoves⟩ := List.mem_filter.mp hk
    obtain ⟨i, hi, rfl⟩ := mem_tileRun.mp hrun
    simp [hidle i hi (by simpa using hmoves)]
  simp only [townPre, hargs, localWaits_open hstill, tilePre_go hrange, badTile_none hown, hmoves, Pre.go_next, Bool.false_eq_true, if_false]

theorem townTile_eq (u : State) (crew : Nat) (span : Bool) (own : Owner) (k : Nat) : townTile u crew span own k =
    if ownerOfTile u crew (spaceOf span) k = own then u
    else if span ∧ own = .slices then setStag u (u.crew crew).span k (plainTag (stagOf u (u.crew crew).span k))
    else setOwner u crew (spaceOf span) k own := by
  simp [townTile]

/-! ### What a mapping instruction leaves (R125, R127) -/

/-- Only bytes of the stash, and the tags and mappings of crews, differ. -/
structure MapsOnly (s u : State) : Prop where
  rest : { u with stash := s.stash, crews := s.crews } = s
  crew : ∀ k, { u.crew k with tags := (s.crew k).tags, maps := (s.crew k).maps } = s.crew k

theorem MapsOnly.refl (s : State) : MapsOnly s s := ⟨rfl, fun _ => rfl⟩

theorem MapsOnly.trans {s t u : State} (h1 : MapsOnly s t) (h2 : MapsOnly t u) : MapsOnly s u := by
  refine ⟨?_, fun k => ?_⟩
  · rw [← h1.rest, ← h2.rest]
  · rw [← h1.crew, ← h2.crew]

theorem MapsOnly.stash (s : State) (m : Mem) : MapsOnly s { s with stash := m } := ⟨rfl, fun _ => rfl⟩

theorem MapsOnly.setCrew (s : State) (i : Nat) (tags : Tbl Tag) (maps : List Mapping) :
    MapsOnly s (s.setCrew i { s.crew i with tags := tags, maps := maps }) := by
  refine ⟨rfl, fun k => ?_⟩
  rw [State.crew_setCrew]
  split
  · rename_i hik
    subst hik
    rfl
  · rfl

theorem MapsOnly.setTag (s : State) (crew t : Nat) (x : Tag) : MapsOnly s (setTag s crew t x) := MapsOnly.setCrew s crew _ _

theorem MapsOnly.foldl {α : Type} (l : List α) {f : State → α → State} (hf : ∀ u a, MapsOnly u (f u a)) (s : State) :
    MapsOnly s (l.foldl f s) :=
  List.foldlRecOn (motive := MapsOnly s) l f (MapsOnly.refl s) fun _ hu a _ => hu.trans (hf _ a)

section
variable {s u : State} (hm : MapsOnly s u)
include hm

theorem MapsOnly.sl (j : Nat) : u.sl j = s.sl j := by
  rw [← hm.rest]
  rfl

theorem MapsOnly.gangw (k : Nat) : (u.crew k).gangw = (s.crew k).gangw := by rw [← hm.crew k]

theorem MapsOnly.tiles (k : Nat) : (u.crew k).tiles = (s.crew k).tiles := by rw [← hm.crew k]

/-- What an operand reads does not change. -/
theorem MapsOnly.rd (j : Nat) (t : Ty) (imm : Word) (l : Nat) (o : Opnd) :
    rd (u.crewOf j) (u.sl j) t imm l o = rd (s.crewOf j) (s.sl j) t imm l o := by
  have hslot : slotOf (u.crewOf j) (u.sl j) = slotOf (s.crewOf j) (s.sl j) := by
    simp only [slotOf, State.crewOf, hm.sl, hm.gangw]
  simp only [Machine.rd, hslot]
  rw [hm.sl]

theorem MapsOnly.rs32 (j : Nat) (h : Hdr) (o : Opnd) : rs32 u j h o = rs32 s j h o := congrArg BitVec.toNat (hm.rd j _ _ _ o)

theorem MapsOnly.rs64 (j : Nat) (h : Hdr) (o : Opnd) : rs64 u j h o = rs64 s j h o := congrArg BitVec.toNat (hm.rd j _ _ _ o)

end

theorem stmapDo_mapsOnly (h : Hdr) (a b c : Opnd) (p u : State) (j : Nat) : MapsOnly u (stmapDo h a b c p u j) :=
  ((MapsOnly.foldl _ (fun u k => MapsOnly.setTag u _ k _) u).trans (MapsOnly.stash _ _)).trans (MapsOnly.setCrew _ _ _ _)

theorem unmap_mapsOnly (u : State) (crew : Nat) (m : Mapping) : MapsOnly u (unmap u crew m) :=
  (MapsOnly.foldl _ (fun u k => (MapsOnly.stash u _).trans (MapsOnly.setTag _ crew k _)) u).trans (MapsOnly.setCrew _ _ _ _)

theorem stunmapDo_mapsOnly (h : Hdr) (a : Opnd) (p u : State) (j : Nat) : MapsOnly u (stunmapDo h a p u j) := by
  unfold stunmapDo
  dsimp only
  split
  · exact unmap_mapsOnly u _ _
  · exact MapsOnly.refl u

/-! ### The slices of a unit one after another (R147) -/

/-- One slice's part of `unitBefore`. -/
def beforeStep (h : Hdr) (pre : State → Nat → Pre) (act : State → Nat → State) (u : State) (j : Nat) : State :=
  if perSlice h (u.sl j) ≠ 0 ∧ pre u j = .go then act u j else u

theorem unitBefore_mapsOnly {h : Hdr} {pre : State → Nat → Pre} {act : State → Nat → State} (ha : ∀ u j, MapsOnly u (act u j))
    (s : State) (j : Nat) : MapsOnly s (unitBefore h pre act s j) := by
  refine MapsOnly.foldl _ (fun u k => ?_) s
  split
  · exact ha u k
  · exact MapsOnly.refl u

/-- A slice finds what those before it in the unit leave. -/
theorem unitBefore_at {h : Hdr} {pre : State → Nat → Pre} {act : State → Nat → State} {s : State} {p q : List Nat} {j : Nat}
    (hcur : s.cur = p ++ j :: q) (hj : j ∉ p) : unitBefore h pre act s j = p.foldl (beforeStep h pre act) s := by
  have htake : s.cur.takeWhile (· != j) = p := by
    rw [hcur, List.takeWhile_append_of_pos fun k hk => by simpa using fun e : k = j => hj (e ▸ hk)]
    simp
  rw [unitBefore, htake]
  rfl

/-- Steps that agree wherever `I` holds of the elements before, which every step keeps. -/
theorem foldl_congr_before {α σ : Type} {I : List α → σ → Prop} {f g : σ → α → σ} {l : List α} {a : σ} (h0 : I [] a)
    (hI : ∀ p b q, l = p ++ b :: q → ∀ u, I p u → I (p ++ [b]) (g u b))
    (hfg : ∀ p b q, l = p ++ b :: q → ∀ u, I p u → f u b = g u b) : l.foldl f a = l.foldl g a := by
  have key : ∀ (q p : List α), l = p ++ q → ∀ u, I p u → q.foldl f u = q.foldl g u := by
    intro q
    induction q with
    | nil => exact fun _ _ _ _ => rfl
    | cons b q ih =>
      intro p hl u hu
      rw [List.foldl_cons, List.foldl_cons, hfg p b q hl u hu]
      exact ih (p ++ [b]) (by simp [hl]) _ (hI p b q hl u hu)
  exact key l [] rfl a h0

/-! ### STMAP (R125) -/

/-- Free tiles of SLICES in the crew's stash, an aligned global range, and a mapping to spare let STMAP issue. -/
theorem stmapPre_go {h : Hdr} {a b c : Opnd} {u : State} {j : Nat} (hlow : 1 ≤ rs32 u j h b) (hhigh : rs32 u j h b ≤ 512)
    (hg : rs64 u j h c % 1024 = 0) (hone : rs64 u j h c / 2 ^ 48 % 512 = (rs64 u j h c + 1024 * rs32 u j h b - 1) / 2 ^ 48 % 512)
    (hmaps : (u.crewOf j).maps.length < 8) (htiles : rs32 u j h a / 1024 + rs32 u j h b ≤ (u.crewOf j).tiles)
    (halign : rs32 u j h a % 1024 = 0)
    (hfree : ∀ k, k < rs32 u j h b → (tagOf u (u.sl j).crew (rs32 u j h a / 1024 + k)).mapped = false ∧
      (tagOf u (u.sl j).crew (rs32 u j h a / 1024 + k)).owner = .slices) : stmapPre h a b c u j = .go := by
  have hplain : ((tileRun (rs32 u j h a / 1024) (rs32 u j h b)).any fun k => (tagOf u (u.sl j).crew k).mapped) = false := by
    refine List.any_eq_false.mpr fun k hk => ?_
    obtain ⟨i, hi, rfl⟩ := mem_tileRun.mp hk
    simp [(hfree i hi).1]
  have hslices : ((tileRun (rs32 u j h a / 1024) (rs32 u j h b)).find? fun k => (tagOf u (u.sl j).crew k).owner != .slices) = none := by
    refine List.find?_eq_none.mpr fun k hk => ?_
    obtain ⟨i, hi, rfl⟩ := mem_tileRun.mp hk
    simp [(hfree i hi).2]
  have hargs : (decide (rs32 u j h b = 0) || decide (512 < rs32 u j h b) || rs64 u j h c % 1024 != 0 ||
      rs64 u j h c / 2 ^ 48 % 512 != (rs64 u j h c + 1024 * rs32 u j h b - 1) / 2 ^ 48 % 512 ||
      decide (8 ≤ (u.crewOf j).maps.length) || decide ((u.crewOf j).tiles < rs32 u j h a / 1024 + rs32 u j h b)) = false := by
    simp only [Bool.or_eq_false_iff, decide_eq_false_iff_not, bne_eq_false_iff_eq]
    exact ⟨⟨⟨⟨⟨by omega, by omega⟩, hg⟩, hone⟩, by omega⟩, by omega⟩
  simp only [stmapPre, hargs, hplain, hslices, halign, bne_self_eq_false, Bool.or_self, Bool.false_eq_true, if_false]

/-! ### STUNMAP (R127) -/

theorem mapAt_start {c : Crew} {t : Nat} {m : Mapping} (h : mapAt c t = some m) : m.t0 = t := by
  simpa using List.find?_some h

/-- A mapping that is named by its first tile, clean and at rest, may end. -/
theorem stunmapPre_go {h : Hdr} {a : Opnd} {u : State} {j : Nat} {m : Mapping} (halign : rs32 u j h a % 1024 = 0)
    (hmap : mapAt (u.crewOf j) (rs32 u j h a / 1024) = some m) (hdirty : mapDirty u (u.sl j).crew m = false)
    (hsends : mapSends u (u.sl j).crew m = []) (hstores : mapStores u (u.sl j).crew m = []) : stunmapPre h a u j = .go := by
  have hat : mapAt (u.crew (u.sl j).crew) m.t0 = some m := by
    rw [mapAt_start hmap]
    exact hmap
  have hclean : mapsClean u (u.sl j).crew m.t0 = true := by
    simp [mapsClean, mapsQuiet, hat, hdirty, hsends, hstores]
  simp only [stunmapPre, mapPre, hmap, halign, hclean, bne_self_eq_false, Bool.false_eq_true, if_false, if_true]

theorem stunmapDo_at {h : Hdr} {a : Opnd} {p u : State} {j : Nat} {m : Mapping}
    (hmap : mapAt (u.crew (p.sl j).crew) (rs32 p j h a / 1024) = some m) : stunmapDo h a p u j = unmap u (p.sl j).crew m := by
  simp only [stunmapDo, hmap]

/-- One tile of a mapping that ends (R127). -/
def unmapTile (crew : Nat) (u : State) (t : Nat) : State :=
  let gone := (List.range 8).filter fun k => !(tagOf u crew t).sv.getLsbD k
  setTag { u with stash := gone.foldl (fun m k => Mem.clear m (crew * 2 ^ 19 + 1024 * t + 128 * k) 128) u.stash } crew t
    { tagOf u crew t with mapped := false, sv := 0, sd := 0 }

theorem unmap_eq (u : State) (crew : Nat) (m : Mapping) : unmap u crew m =
    (((List.range m.n).map (m.t0 + ·)).foldl (unmapTile crew) u).updCrew crew fun c => { c with maps := c.maps.filter (· != m) } := rfl

theorem updCrew_crews_congr {u v : State} (h : u.crews = v.crews) (k : Nat) (f : Crew → Crew) :
    (u.updCrew k f).crews = (v.updCrew k f).crews := by
  simp only [State.updCrew_eq, State.setCrew_crews, State.crew, h]

theorem unmapTile_crews {u v : State} (h : u.crews = v.crews) (crew t : Nat) : (unmapTile crew u t).crews = (unmapTile crew v t).crews := by
  have htag : tagOf u crew t = tagOf v crew t := by simp only [tagOf, State.crew, h]
  simp only [unmapTile, htag, setTag]
  refine updCrew_crews_congr ?_ crew _
  exact h

/-- The tags and mappings that an unmapping leaves follow from those it found. -/
theorem unmap_crews {u v : State} (h : u.crews = v.crews) (crew : Nat) (m : Mapping) : (unmap u crew m).crews = (unmap v crew m).crews := by
  rw [unmap_eq, unmap_eq]
  exact updCrew_crews_congr (List.foldl_rel (r := fun u v : State => u.crews = v.crews) h fun t _ _ _ huv => unmapTile_crews huv crew t) crew _

/-- What a slice's STUNMAP is checked in: the earlier slices of the unit have unmapped (R147). -/
def unmapsBefore (h : Hdr) (a : Opnd) (s : State) (j : Nat) : State :=
  unitBefore h (stunmapPre h a) (fun u k => stunmapDo h a u u k) s j

theorem unmapsBefore_mapsOnly (h : Hdr) (a : Opnd) (s : State) (j : Nat) : MapsOnly s (unmapsBefore h a s j) :=
  unitBefore_mapsOnly (fun u k => stunmapDo_mapsOnly h a u u k) s j

/-- The slices `p` of the unit have issued: `u` has the mappings that the checks of the next slice find, and the other slices have still to begin. -/
structure Unmapped (h : Hdr) (a : Opnd) (s : State) (p : List Nat) (u : State) : Prop where
  crews : u.crews = (p.foldl (beforeStep h (stunmapPre h a) fun v k => stunmapDo h a v v k) s).crews
  waiting : ∀ j, j ∉ p → u.sl j = s.sl j

section
variable {h : Hdr} {a : Opnd} {s u : State} {m : Nat → Mapping} {p q : List Nat} {b : Nat}

/-- The next slice finds the mapping at a tile that its check found. -/
theorem Unmapped.mapAt_eq (hu : Unmapped h a s p u) (hcur : s.cur = p ++ b :: q) (hb : b ∉ p) {crew t : Nat} :
    mapAt ((u.begun b).crew crew) t = mapAt ((unmapsBefore h a s b).crew crew) t := by
  have hcrews : (u.begun b).crews = (unmapsBefore h a s b).crews := by
    rw [unmapsBefore, unitBefore_at hcur hb]
    exact hu.crews
  simp only [State.crew, hcrews]

/-- One more slice's step, if it leaves the mappings that its part of the check leaves and changes no other slice. -/
theorem Unmapped.append (hu : Unmapped h a s p u) {w : State} (hw : w.crews =
    (beforeStep h (stunmapPre h a) (fun v k => stunmapDo h a v v k)
      (p.foldl (beforeStep h (stunmapPre h a) fun v k => stunmapDo h a v v k) s) b).crews)
    (hsl : ∀ j, j ≠ b → w.sl j = u.sl j) : Unmapped h a s (p ++ [b]) w := by
  refine ⟨?_, fun j hj => ?_⟩
  · rw [List.foldl_append]
    exact hw
  · rw [List.mem_append, List.mem_singleton, not_or] at hj
    rw [hsl j hj.2, hu.waiting j hj.1]

/-- One more slice issues. -/
theorem Unmapped.step (hu : Unmapped h a s p u) (hcur : s.cur = p ++ b :: q) (hb : b ∉ p)
    (hgo : perSlice h (s.sl b) ≠ 0 → stunmapPre h a (unmapsBefore h a s b) b = .go)
    (hmap : perSlice h (s.sl b) ≠ 0 → mapAt ((unmapsBefore h a s b).crew (s.sl b).crew) (rs32 s b h a / 1024) = some (m b)) :
    Unmapped h a s (p ++ [b]) ((if perSlice h (u.sl b) = 0 then u.begun b
      else (unmap (u.begun b) (s.sl b).crew (m b)).updSl b (standAt (.clock 0))).updSl b Slice.next) := by
  have hbefore : p.foldl (beforeStep h (stunmapPre h a) fun v k => stunmapDo h a v v k) s = unmapsBefore h a s b :=
    (unitBefore_at hcur hb).symm
  have hm := unmapsBefore_mapsOnly h a s b
  have hcrews : u.crews = (unmapsBefore h a s b).crews := hbefore ▸ hu.crews
  rw [hu.waiting b hb]
  by_cases hoff : perSlice h (s.sl b) = 0
  · rw [if_pos hoff]
    refine hu.append ?_ fun j hj => ?_
    · rw [hbefore, beforeStep, hm.sl, if_neg fun hon => hon.1 hoff]
      exact hcrews
    · simp [State.begun, State.sl_setSl, Ne.symm hj]
  · rw [if_neg hoff]
    refine hu.append ?_ fun j hj => ?_
    · rw [hbefore, beforeStep, hm.sl, if_pos ⟨hoff, hgo hoff⟩,
        stunmapDo_at (m := m b) (by rw [hm.sl, hm.rs32]; exact hmap hoff), hm.sl]
      simp only [State.updSl_eq, State.setSl_crews]
      exact unmap_crews (u := u.begun b) hcrews _ _
    · simp [State.sl_setSl, Ne.symm hj, (unmap_mapsOnly _ _ _).sl, begun_ne hj]

end

/-- In every slice that executes STUNMAP, the mapping that it names is there when it issues, and ends. -/
theorem unitAfter_stunmap {h : Hdr} {a : Opnd} {s : State} {m : Nat → Mapping} (hn : s.cur.Nodup)
    (hgo : s.each h fun j => stunmapPre h a (unmapsBefore h a s j) j = .go)
    (hmap : s.each h fun j => mapAt ((unmapsBefore h a s j).crew (s.sl j).crew) (rs32 s j h a / 1024) = some (m j)) :
    (s.unitAfter h (perSlice h) fun u j => (stunmapDo h a s u j).updSl j (standAt Wait.now)) =
      s.unitAfter h (perSlice h) fun u j => (unmap u (s.sl j).crew (m j)).updSl j (standAt (.clock 0)) := by
  have hnew : ∀ {p q : List Nat} {b : Nat}, s.cur = p ++ b :: q → b ∉ p := fun hcur hb => by
    rw [hcur] at hn
    exact List.disjoint_of_nodup_append hn hb List.mem_cons_self
  have hmem : ∀ {p q : List Nat} {b : Nat}, s.cur = p ++ b :: q → b ∈ s.cur := fun hcur => by simp [hcur]
  refine congrArg (s.cur.foldl fun u j => u.updSl j (waitW h)) (foldl_congr_before (I := Unmapped h a s) ⟨rfl, fun _ _ => rfl⟩ ?_ ?_)
  · exact fun p b q hcur u hu => hu.step hcur (hnew hcur) (hgo b (hmem hcur)) (hmap b (hmem hcur))
  · intro p b q hcur u hu
    by_cases hoff : perSlice h (u.sl b) = 0
    · rw [if_pos hoff, if_pos hoff]
    · have hon : perSlice h (s.sl b) ≠ 0 := hu.waiting b (hnew hcur) ▸ hoff
      have hdo := stunmapDo_at (p := s) ((hu.mapAt_eq hcur (hnew hcur)).trans (hmap b (hmem hcur) hon))
      rw [if_neg hoff, if_neg hoff]
      exact congrArg (fun w : State => (w.updSl b (standAt (.clock 0))).updSl b Slice.next) hdo

/-! ### STWB and STINV (R127, R332) -/

theorem mapPre_at {h : Hdr} {a : Opnd} {s : State} {j : Nat} {m : Mapping} {q : Mapping → Pre} (halign : rs32 s j h a % 1024 = 0)
    (hmap : mapAt (s.crewOf j) (rs32 s j h a / 1024) = some m) : mapPre h a s j q = q m := by
  simp only [mapPre, hmap, halign, bne_self_eq_false, Bool.false_eq_true, if_false]

/-! ### The instructions -/

/-- Settles O32, instruction by instruction: its checks let the slices issue, and its effect in each is the model's. -/
theorem tileOwners : Obligations.TileOwners := by
  unfold Obligations.TileOwners
  refine ⟨fun s h span own a b hu => ⟨fun hr => ?_, fun hr => ?_⟩,
    fun s h a b c hu => ⟨fun hr => ?_, fun m hat => ⟨fun hr => ?_, fun hr => ?_, ?_⟩⟩⟩
  · refine runs_once (i := .town h span own a b) rfl hu.1 (fun _ _ => rfl) (fun j hj hon => ?_) fun u j => ?_
    · obtain ⟨hstill, hlow, hhigh, hdeck, hrange, htiles⟩ := hr j hj hon
      exact townPre_go hstill hlow hhigh hdeck hrange (fun k hk => (htiles k hk).1) fun k hk => (htiles k hk).2
    · simp only [townTile_eq]
      rfl
  · refine runs_once (i := .twait h span own a) rfl hu.1 (fun _ _ => rfl) (fun j hj hon => ?_) fun _ _ => rfl
    obtain ⟨hstill, hrange, hown⟩ := hr j hj hon
    simp only [localWaits_open hstill, tilePre_go hrange, hown, Pre.go_next, beq_self_eq_true, if_true]
  · refine runs_once (i := .stmap h a b c) rfl hu.1 (fun _ _ => rfl) (fun j hj hon => ?_) fun _ _ => rfl
    obtain ⟨hlow, hhigh, hg, hone, hmaps, htiles, halign, hfree⟩ := hr j hj hon
    have hm := unitBefore_mapsOnly (h := h) (pre := stmapPre h a b c) (fun u k => stmapDo_mapsOnly h a b c u u k) s j
    apply stmapPre_go <;> simp only [State.crewOf, hm.sl, hm.rs32, hm.rs64, hm.tiles]
    exacts [hlow, hhigh, hg, hone, hmaps, htiles, halign, hfree]
  · have hgo : s.each h fun j => stunmapPre h a (unmapsBefore h a s j) j = .go := fun j hj hon => by
      obtain ⟨hmap, hdirty, hsends, hstores⟩ := hr j hj hon
      have hm := unmapsBefore_mapsOnly h a s j
      apply stunmapPre_go (m := m j) <;> simp only [State.crewOf, hm.sl, hm.rs32]
      exacts [(hat j hj).1, hmap, hdirty, hsends, hstores]
    rw [Runs, ← unitAfter_stunmap hu.2 hgo fun j hj hon => (hr j hj hon).1]
    exact runs_once (i := .stunmap h a) rfl hu.1 (fun _ _ => rfl) hgo fun _ _ => rfl
  · refine runs_of (i := .stwb h a) rfl hu.1 rfl rfl (fun _ => rfl) (fun _ _ => rfl) (fun j hj hon => ?_) fun u j hj => ?_
    · have hnone : (mapStores s (s.sl j).crew (m j)).filter (fun e => e.1 == j) = [] :=
        List.filter_eq_nil_iff.mpr fun e he => by simpa using hr j hj hon e he
      refine (mapPre_at (hat j hj).1 (hat j hj).2).trans ?_
      simp only [hnone, List.map_nil, List.isEmpty_nil, if_true]
    · have hmap : mapAt (s.crew (s.sl j).crew) (rs32 s j h a / 1024) = some (m j) := (hat j hj).2
      simp only [onceMeaning, hmap]
  · refine runs_of (i := .stinv h a) rfl hu.1 rfl rfl (fun _ => rfl) (fun _ _ => rfl) (fun j hj _ => ?_) fun u j hj => ?_
    · exact mapPre_at (hat j hj).1 (hat j hj).2
    · have hmap : mapAt (s.crew (s.sl j).crew) (rs32 s j h a / 1024) = some (m j) := (hat j hj).2
      simp only [onceMeaning, hmap]

end Sys2Proof.Machine
end

section
/-! SUPPORT. An instruction in a slice where its guard holds (R139, R252, R254). -/

namespace Sys2Proof.Machine

section
variable {m : Meaning} {g : State → Nat → BitVec 4 → Slice → Slice} (p : State) (i : Nat) {x : Slice}

/-- The effect on the slice's own state, and the next PC. -/
theorem ownSlice_next (hl : m.lanes x ≠ 0) (hj : m.jump = false) : ownSlice m g p i x = (g p i (m.lanes x) (atIssue x)).next := by
  rw [ownSlice, if_neg hl, hj]
  rfl

/-- An instruction that sets the PC itself. -/
theorem ownSlice_jumps (hl : m.lanes x ≠ 0) (hj : m.jump = true) : ownSlice m g p i x = g p i (m.lanes x) (atIssue x) := by
  rw [ownSlice, if_neg hl, if_pos hj]

end

/-- An instruction that goes on at the next PC, whatever else it changes. -/
theorem actOf_goes {m : Meaning} {s t : State} {j : Nat} (hl : m.lanes (t.sl j) ≠ 0) (hj : m.jump = false) :
    actOf m s t j = (m.act s (t.begun j) j (m.lanes (t.sl j))).updSl j Slice.next := by
  rw [actOf, if_neg hl, hj]
  rfl

end Sys2Proof.Machine
end

section
/-! PROOF. The gang operations and LEAD (O21): where the whole live gang issues, a gang operation is one instruction of the unit whose results land
later (R148, R300 to R303). -/

namespace Sys2Proof.Machine

/-! ### Gang operations (R300 to R302) -/

/-- A gang operation as its form gives it: each slice stands at a park point, and one with a contributing lane has results to land. -/
def GangForm.meaning (f : GangForm) : Meaning where
  chk := chkRegs f.regs
  lanes := unguarded
  pre := fun s i _ => if full32 (s.sl i) then .park .room else if wholeGang s i then .go else .park (.gangOp (s.sl i).pc)
  act := fun p s i _ =>
    let s1 := s.updSl i (standAt Wait.now)
    if f.mine p i = [] then s1 else addLands s1 i (f.lands p i)
  jump := false
  occ := 1

/-- Where the whole live gang issues, none of its slices stands at another gang operation, and each has the effect of the form. -/
theorem gangOp_whole (f : GangForm) {s : State} (hc : s.cur ≠ []) (hw : ∀ j ∈ s.cur, wholeGang s j = true) :
    gangOp f.hdr f.regs (fun s _ gl => f.vals s gl) f.dst f.once s = runUnit f.hdr f.meaning s := by
  unfold gangOp
  dsimp only
  split
  · contradiction
  · rename_i i l hcur
    rw [hw i (hcur ▸ List.mem_cons_self), Bool.not_true, Bool.and_false, Bool.false_and, if_neg Bool.false_ne_true]
    refine congrArg (fun a => runUnit f.hdr ⟨chkRegs f.regs, unguarded, _, a, false, 1⟩ s) ?_
    funext p u j m
    rcases hm : f.mine p j with _ | ⟨e, es⟩
    · rw [if_pos rfl]
      simp only [GangForm.mine] at hm
      simp only [hm]
    · rw [if_neg (List.cons_ne_nil e es), GangForm.lands, hm]
      simp only [GangForm.mine] at hm
      simp only [hm, List.take_succ_cons, List.take_zero, List.flatMap_cons, List.flatMap_nil, List.append_nil]

theorem gangs_exec {i : Instr} {f : GangForm} (hg : Gangs i f) (s : State) :
    exec i s = gangOp f.hdr f.regs (fun s _ gl => f.vals s gl) f.dst f.once s := by
  cases hg <;> rfl

/-- Slice x, which stood at the gang operation, goes on as y: its results are under a fresh identity. -/
def GangForm.Leaves (f : GangForm) (s : State) (j : Nat) (x y : Slice) : Prop :=
  let z := (standAt Wait.now (atIssue x)).next
  if f.mine s j = [] then y = z
  else ∃ id, y = { z with
    outst := Tbl.put z.outst id (f.lands s j).length
    ready := z.ready ++ (f.lands s j).map fun e => ⟨id, e.1, e.2⟩ }

/-- W parks it then, its results landing later. -/
theorem GangForm.Leaves.waits {f : GangForm} {s : State} {j : Nat} {x y : Slice} (hy : f.Leaves s j x y) :
    let z := standAt Wait.now (atIssue x)
    if f.mine s j = [] then waitW f.hdr y = waitW f.hdr z.next else Landing f.hdr (f.lands s j) z (waitW f.hdr y) := by
  dsimp only
  unfold GangForm.Leaves at hy
  split at hy
  · rename_i hm
    rw [if_pos hm, hy]
  · rename_i hm
    rw [if_neg hm]
    obtain ⟨id, rfl⟩ := hy
    exact ⟨id, rfl⟩

theorem GangForm.lands_ne_nil (f : GangForm) (s : State) (j : Nat) : f.lands s j ≠ [] :=
  List.append_ne_nil_of_right_ne_nil _ (List.cons_ne_nil _ _)

/-- The gang operation in one slice. -/
theorem gang_actOf (f : GangForm) (s : State) {t : State} {j : Nat} (ha : (t.sl j).active ≠ 0) :
    (∀ k, k ≠ j → (actOf f.meaning s t j).sl k = t.sl k) ∧ f.Leaves s j (t.sl j) ((actOf f.meaning s t j).sl j) ∧
    LandRest t (actOf f.meaning s t j) := by
  set u := t.setSl j (standAt Wait.now (atIssue (t.sl j))) with hu
  have husl : ∀ k, k ≠ j → u.sl k = t.sl k := fun k hk => State.sl_setSl_ne t _ hk.symm
  have hact : actOf f.meaning s t j = (if f.mine s j = [] then u else addLands u j (f.lands s j)).updSl j Slice.next := by
    rw [actOf_goes (m := f.meaning) ha rfl, hu]
    simp only [GangForm.meaning, State.begun, State.updSl_eq, State.sl_setSl_self, State.setSl_setSl]
  rw [hact, State.updSl_eq, GangForm.Leaves, State.sl_setSl_self]
  split
  · rename_i hm
    refine ⟨fun k hk => ?_, ?_, (LandRest.setSl t j _).trans (LandRest.setSl u j _)⟩
    · rw [State.sl_setSl_ne _ _ hk.symm, husl k hk]
    · rw [hu, State.sl_setSl_self]
  · obtain ⟨hothers, hrest, hself⟩ := addLands_land u j (f.lands s j) (f.lands_ne_nil s j)
    refine ⟨fun k hk => ?_, ⟨u.nextId, ?_⟩, ((LandRest.setSl t j _).trans hrest).trans (LandRest.setSl _ j _)⟩
    · rw [State.sl_setSl_ne _ _ hk.symm, hothers k hk, husl k hk]
    · rw [hself, hu, State.sl_setSl_self]
      rfl

/-! ### LEAD (R303) -/

/-- The executing lanes of the issue in which the source holds, lowest first. -/
def leadHolds (h : Hdr) (a : PredOp) (s : State) : List (Nat × Nat) :=
  s.cur.flatMap fun j => ((lanesOf (perLane h (s.sl j))).filter fun l => rdPred a l (s.sl j)).map fun l => (j, l)

/-! ### The instructions -/

/-- Settles O21: the gang's slices all pass the checks of a gang operation; LEAD is the slice's own, of the lanes of the issue. -/
theorem gangOperations : Obligations.GangOperations := by
  unfold Obligations.GangOperations
  refine ⟨fun i f s hg hu hr => ?_, fun h pd a s hu => ?_⟩
  · have hw : ∀ j ∈ s.cur, wholeGang s j = true := fun j hj => by
      obtain ⟨-, -, -, hgang⟩ := hr j hj
      simpa [wholeGang] using hgang
    have hgo : ∀ j ∈ s.cur, preOf f.meaning s j = .go := fun j hj => by
      obtain ⟨hregs, hroom, -, -⟩ := hr j hj
      refine preOf_go _ _ _ (chkRegs_none hregs) fun _ => ?_
      simp [GangForm.meaning, full32, hroom, hw j hj]
    obtain ⟨hfr, hsl⟩ := unitGo_land (h := f.hdr) (m := f.meaning) (f.Leaves s) hu.2 fun t j hj _ ht =>
      let ⟨_, _, hact, _⟩ := hr j hj
      gang_actOf f s (ht ▸ hact)
    refine ⟨_, (gangs_exec hg s).trans ((gangOp_whole f hu.1 hw).trans (runUnit_go _ _ _ hu.1 hgo)), hfr, fun j hj => ?_⟩
    obtain ⟨y, hy, hj'⟩ := hsl j hj
    exact hj' ▸ hy.waits
  · exact completes_own (i := .lead h pd a) (g := fun p i m x => eachLane true m x fun l y =>
      wrPred pd l ((leadHolds h a p).head? == some (i, l)) y) rfl (fun _ _ _ _ => rfl) hu (fun _ _ => rfl) (fun _ _ _ => rfl) fun _ _ => rfl

end Sys2Proof.Machine
end

section
/-! PROOF. The control instructions that do not transfer (O19): none of them changes another slice, so each completes with its own effect
(R144, R304, R307, R308, R310, R311). -/

namespace Sys2Proof.Machine

/-! ### Where a slice goes on (R144) -/

theorem settle_active {x : Slice} (h : x.active ≠ 0) : x.settle = x := if_neg h

theorem settle_none {x : Slice} (hn : exitResume x.live x.stack = none) : x.settle = x := by
  simp only [Slice.settle, hn, ite_self]

theorem settle_some {x : Slice} {a : BitVec 4} {p : DWord} {st : List REntry} (h : x.active = 0)
    (hs : exitResume x.live x.stack = some (a, p, st)) : x.settle = { x with active := a, pc := p, stack := st } := by
  simp only [Slice.settle, h, if_true, hs]

/-- With no live lane no entry has lanes that go on. -/
theorem exitResume_zero (st : List REntry) : exitResume 0 st = none := by
  have hz : ∀ w : BitVec 4, w &&& 0 = 0 := fun _ => BitVec.and_zero
  induction st with
  | nil => rfl
  | cons e st ih =>
    simp only [exitResume, hz, bne_self_eq_false, Bool.false_eq_true, if_false]
    exact ih

/-- Entries without live lanes are passed over. -/
theorem exitResume_append {live : BitVec 4} {out : List REntry} (h : ∀ o ∈ out, o.pmask &&& live = 0 ∧ o.mask &&& live = 0)
    (st : List REntry) : exitResume live (out ++ st) = exitResume live st := by
  induction out with
  | nil => rfl
  | cons o out ih =>
    obtain ⟨hp, hm⟩ := h o List.mem_cons_self
    simp only [List.cons_append, exitResume, hp, hm, bne_self_eq_false, Bool.false_eq_true, if_false]
    exact ih fun q hq => h q (List.mem_cons_of_mem _ hq)

theorem exitResume_pending {live : BitVec 4} {e : REntry} (h : e.pmask &&& live ≠ 0) (st : List REntry) :
    exitResume live (e :: st) = some (e.pmask &&& live, e.ppc, { e with pmask := 0 } :: st) :=
  if_pos (bne_iff_ne.mpr h)

theorem exitResume_waiting {live : BitVec 4} {e : REntry} (hp : e.pmask &&& live = 0) (h : e.mask &&& live ≠ 0) (st : List REntry) :
    exitResume live (e :: st) = some (e.mask &&& live, e.mpc + 12, st) := by
  simp only [exitResume, hp, bne_self_eq_false, Bool.false_eq_true, if_false, bne_iff_ne.mpr h, if_true]

/-! ### MEET (R144) -/

theorem meet_next {x : Slice} {e : REntry} {st : List REntry} (hs : x.stack = e :: st) : (meet x).next =
    if e.pmask ≠ 0 then { x with active := e.pmask &&& x.live, pc := e.ppc, stack := { e with pmask := 0, mpc := x.pc } :: st }
    else { x.next with active := e.mask &&& x.live, stack := st } := by
  simp only [meet, hs, bne_iff_ne]
  split
  · simp only [Slice.next, BitVec.sub_add_cancel]
  · rfl

/-! ### EXIT (R307) -/

/-- A mask without the lanes that exit. -/
def without (m w : BitVec 4) : BitVec 4 := w &&& ~~~m

theorem without_zero (w : BitVec 4) : without 0 w = w :=
  (congrArg (w &&& ·) BitVec.not_zero).trans BitVec.and_allOnes

/-- Lanes that have left are in no mask of live lanes. -/
theorem without_and (m a b : BitVec 4) : without m a &&& without m b = a &&& without m b := by
  simp only [without, BitVec.and_assoc]
  rw [← BitVec.and_assoc (~~~m) b, BitVec.and_comm (~~~m) b, BitVec.and_assoc, BitVec.and_self]

/-- An entry of the reconvergence stack without the lanes that exit. -/
def REntry.without (m : BitVec 4) (e : REntry) : REntry := { e with mask := Machine.without m e.mask, pmask := Machine.without m e.pmask }

/-- A slice whose lanes `m` have left every mask, before the others go on. -/
def leaveLanes (x : Slice) (m : BitVec 4) : Slice :=
  { x.next with live := without m x.live, active := without m x.active, stack := x.stack.map (REntry.without m) }

theorem leaveLanes_or_next (x : Slice) (m : BitVec 4) :
    { x.next with
      live := without m x.live, active := without m x.active
      stack := if m = 0 then x.stack else x.stack.map (REntry.without m) } = if m = 0 then x.next else leaveLanes x m := by
  split
  · rename_i h0
    rw [h0, without_zero, without_zero]
    rfl
  · rfl

theorem leaveLanes_all {x : Slice} {m : BitVec 4} (hl : without m x.live = 0) (ha : without m x.active = 0) :
    leaveLanes x m = { x.next with live := 0, active := 0, stack := x.stack.map (REntry.without m) } := by
  rw [leaveLanes, hl, ha]

section
variable {x : Slice} {m : BitVec 4}

theorem exitLanes_stays (h : without m x.active ≠ 0) : exitLanes x m = leaveLanes x m := settle_active (x := leaveLanes x m) h

theorem exitLanes_last (h : without m x.live = 0) : exitLanes x m = leaveLanes x m := by
  refine settle_none (x := leaveLanes x m) ?_
  show exitResume (without m x.live) _ = none
  rw [h, exitResume_zero]

variable {out st : List REntry} {e : REntry} (hs : x.stack = out ++ e :: st)
  (hout : ∀ o ∈ out, o.pmask &&& without m x.live = 0 ∧ o.mask &&& without m x.live = 0)
include hs hout

/-- Where every active lane exits, the entries further in hold no live lane. -/
theorem exitResume_left : exitResume (leaveLanes x m).live (leaveLanes x m).stack =
    exitResume (without m x.live) (e.without m :: st.map (REntry.without m)) := by
  show exitResume (without m x.live) (x.stack.map (REntry.without m)) = _
  rw [hs, List.map_append, List.map_cons]
  refine exitResume_append (fun o ho => ?_) _
  obtain ⟨q, hq, rfl⟩ := List.mem_map.mp ho
  simp only [REntry.without, without_and, hout q hq, and_self]

theorem exitLanes_pending (ha : without m x.active = 0) (hp : e.pmask &&& without m x.live ≠ 0) : exitLanes x m = { leaveLanes x m with
    active := e.pmask &&& without m x.live, pc := e.ppc, stack := { e.without m with pmask := 0 } :: st.map (REntry.without m) } := by
  have hw : (e.without m).pmask &&& without m x.live = e.pmask &&& without m x.live := without_and m e.pmask x.live
  refine settle_some (x := leaveLanes x m) ha ?_
  rw [exitResume_left hs hout, exitResume_pending (hw ▸ hp), hw]
  rfl

theorem exitLanes_waiting (ha : without m x.active = 0) (hp : e.pmask &&& without m x.live = 0) (hm : e.mask &&& without m x.live ≠ 0) :
    exitLanes x m = { leaveLanes x m with
      active := e.mask &&& without m x.live, pc := e.mpc + 12, stack := st.map (REntry.without m) } := by
  have hw : (e.without m).pmask &&& without m x.live = e.pmask &&& without m x.live := without_and m e.pmask x.live
  have hv : (e.without m).mask &&& without m x.live = e.mask &&& without m x.live := without_and m e.mask x.live
  refine settle_some (x := leaveLanes x m) ha ?_
  rw [exitResume_left hs hout, exitResume_waiting (hw.trans hp) (hv ▸ hm), hv]
  rfl

end

/-- EXIT completes where lanes stay live, or the slice has nothing to wait for. -/
theorem exit_completes {s : State} {h : Hdr} {f : Nat → Slice → Slice} (hu : s.unitIn)
    (hp : ∀ j ∈ s.cur, without (perLane h (s.sl j)) (s.sl j).live ≠ 0 ∨ (s.sl j).outst = [] ∧ (s.sl j).deferred = [])
    (hf : ∀ j ∈ s.cur, f j (s.sl j) =
      if perLane h (s.sl j) = 0 then (atIssue (s.sl j)).next else exitLanes (atIssue (s.sl j)) (perLane h (s.sl j))) :
    Completes (.exit h) h f s := by
  refine completes_own (g := fun _ _ m x => exitLanes x m) (i := .exit h) rfl (fun _ _ _ _ => rfl) hu (fun _ _ => rfl) (fun j hj _ => if_neg ?_) hf
  rcases hp j hj with hl | ⟨ho, hd⟩
  · exact fun hw => hl (beq_iff_eq.mp (Bool.and_eq_true_iff.mp hw).1)
  · simp [ho, hd]

/-! ### RTE (R310) -/

/-- RTE of slices in handler mode, nothing outstanding, whose saved lanes live and whose target is aligned. -/
theorem rte_completes {i : Instr} {s : State} {h : Hdr} {target : Slice → DWord} (hx : exec i s = rte h target s) (hu : s.unitIn)
    (hb : ∀ x, target (atIssue x) = target x)
    (hr : ∀ j ∈ s.cur, (s.sl j).hmode = true ∧ (s.sl j).outst = [] ∧ (s.sl j).active ≠ 0 ∧ (s.sl j).saved &&& (s.sl j).live ≠ 0 ∧
      (target (s.sl j)).toNat % 4 = 0) :
    Completes i h (fun _ x => { atIssue x with hmode := false, active := x.saved &&& x.live, pc := target x }) s := by
  refine completes_own (g := fun _ _ _ x => returnTrap x (target x)) hx (fun _ _ _ _ => rfl) hu (fun j hj => ?_) (fun j hj _ => ?_) fun j hj => ?_
  all_goals obtain ⟨hmode, hout, hact, hlive, halign⟩ := hr j hj
  · simp only [hmode, if_true]
  · simp [hout, halign]
  · refine Eq.trans ?_ (ownSlice_jumps (g := fun _ _ _ x => returnTrap x (target x)) s j hact rfl).symm
    rw [hb]
    exact (settle_active hlive).symm

/-! ### SLEEP (R308) -/

theorem sleepUntil_eq (s : State) (i n : Nat) :
    sleepUntil s i n = if (s.ctx (s.ctxOf i)).st = .stopping then 0 else s.clockOf i + n := by
  simp only [sleepUntil, beq_iff_eq]

/-! ### The instructions -/

/-- Settles O19, instruction by instruction: its checks let the unit issue, and its effect is the slice's own. -/
theorem controlEffects : Obligations.ControlEffects := by
  unfold Obligations.ControlEffects
  intro s h hu
  refine ⟨?nop, fun hroom => ?brace, fun e st hst => ?meet, fun hstay => ?stays, fun hlast => ?last, fun e out st hleft => ?left,
    fun hgang => ?regang, ?yield, fun a => ?sleep, fun hstep => ?step, fun hr => ?retry, fun hr => ?resume⟩
  case nop =>
    refine completes_own (g := fun _ _ _ x => x) (i := .nop h) rfl (fun _ _ _ _ => rfl) hu (fun _ _ => rfl) (fun _ _ _ => rfl) fun j _ => ?_
    exact (ite_self _).symm
  case brace =>
    refine completes_own (g := fun _ _ _ x => { x with stack := ⟨x.active, 0, 0, 0⟩ :: x.stack }) (i := .brace h) rfl (fun _ _ _ _ => rfl) hu
      (fun _ _ => rfl) (fun j hj _ => if_neg ?_) fun _ _ => rfl
    exact Nat.not_le.mpr (hroom j hj)
  case meet =>
    refine completes_own (g := fun _ _ _ x => meet x) (i := .meet h) rfl (fun _ _ _ _ => rfl) hu (fun _ _ => rfl) (fun j hj _ => ?_) fun j hj => ?_
    all_goals obtain ⟨hs, ha⟩ := hst j hj
    · simp [hs]
    · rw [ownSlice_next s j ha rfl]
      exact (meet_next (x := atIssue (s.sl j)) hs).symm
  case stays =>
    refine exit_completes hu (fun j hj => .inl (hstay j hj).2) fun j hj => ?_
    rw [exitLanes_stays (x := atIssue (s.sl j)) (hstay j hj).1]
    exact leaveLanes_or_next (atIssue (s.sl j)) (perLane h (s.sl j))
  case last =>
    refine exit_completes hu (fun j hj => ?_) fun j hj => ?_
    all_goals obtain ⟨h0, hl, ha, ho, hd⟩ := hlast j hj
    · exact .inr ⟨ho, hd⟩
    · rw [if_neg h0, exitLanes_last (x := atIssue (s.sl j)) hl, leaveLanes_all (x := atIssue (s.sl j)) hl ha]
      rfl
  case left =>
    refine exit_completes hu (fun j hj => ?_) fun j hj => ?_
    all_goals obtain ⟨h0, ha, hl, hs, hout, he⟩ := hleft j hj
    · exact .inl hl
    · rw [if_neg h0]
      by_cases hp : (e j).pmask &&& without (perLane h (s.sl j)) (s.sl j).live = 0
      · rw [exitLanes_waiting (x := atIssue (s.sl j)) hs hout ha hp (he.resolve_left fun hn => hn hp)]
        exact if_neg fun hn => hn hp
      · rw [exitLanes_pending (x := atIssue (s.sl j)) hs hout ha hp]
        exact if_pos hp
  case regang =>
    refine completes_own (g := fun _ _ _ x => standAt Wait.now x) (i := .regang h) rfl (fun _ _ _ _ => rfl) hu (fun _ _ => rfl)
      (fun j hj _ => if_pos ?_) fun _ _ => rfl
    simpa [wholeGang] using hgang j hj
  case yield =>
    exact completes_own (g := fun _ _ _ x => { standAt Wait.now x with hold := true }) (i := .yield h) rfl (fun _ _ _ _ => rfl) hu
      (fun _ _ => rfl) (fun _ _ _ => rfl) fun _ _ => rfl
  case sleep =>
    refine completes_own (g := fun p i _ x => standAt (.clock (sleepUntil p i (rd (p.crewOf i) (p.sl i) .u32 h.imm 0 a).toNat)) x)
      (i := .sleep h a) rfl (fun _ _ _ _ => rfl) hu (fun _ _ => rfl) (fun _ _ _ => rfl) fun j _ => ?_
    rw [← sleepUntil_eq]
    rfl
  case step =>
    refine completes_own (g := fun _ _ _ x => { x with steps := x.steps + 1, stepIn := false }) (i := .step h) rfl (fun _ _ _ _ => rfl) hu
      (fun _ _ => rfl) (fun j hj _ => if_pos ?_) fun _ _ => rfl
    obtain ⟨hin, l, hl, hle⟩ := hstep j hj
    simp [hin, stepsOf, hl, hle]
  case retry => exact rte_completes (i := .rteRetry h) (target := retryTarget) rfl hu (fun _ => rfl) hr
  case resume => exact rte_completes (i := .rteResume h) (target := resumeTarget) rfl hu (fun _ => rfl) hr

end Sys2Proof.Machine
end

section
/-! PROOF. A step (O3): fetching the code of a unit leaves contexts, launches, local memories and all of a slice but its park, its fetch grants and
its note of lost lines; and the slot's instruction is the one that the bytes at the PC decode to (R139 to R142, R239, R254, R273, R374). -/

namespace Sys2Proof.Machine

/-! ### What fetching leaves alone -/

/-- Contexts, launches and local memories are the same, and every slice is but for its park, its fetch grants and its note of lost lines. -/
structure FetchKeeps (s t : State) : Prop where
  ctxs : t.ctxs = s.ctxs
  launches : t.launches = s.launches
  stash : t.stash = s.stash
  scratch : t.scratch = s.scratch
  sl : ∀ k, { t.sl k with park := (s.sl k).park, fetch := (s.sl k).fetch, lost := (s.sl k).lost } = s.sl k

theorem FetchKeeps.refl (s : State) : FetchKeeps s s := ⟨rfl, rfl, rfl, rfl, fun _ => rfl⟩

theorem FetchKeeps.trans {s t u : State} (h1 : FetchKeeps s t) (h2 : FetchKeeps t u) : FetchKeeps s u where
  ctxs := h2.ctxs.trans h1.ctxs
  launches := h2.launches.trans h1.launches
  stash := h2.stash.trans h1.stash
  scratch := h2.scratch.trans h1.scratch
  sl := fun k => by
    have a := h1.sl k
    rw [← h2.sl k] at a
    exact a

theorem FetchKeeps.foldl {α : Type} {f : State → α → State} (hf : ∀ s e, FetchKeeps s (f s e)) (l : List α) (s : State) :
    FetchKeeps s (l.foldl f s) :=
  foldl_keeps FetchKeeps.refl FetchKeeps.trans hf l s

theorem FetchKeeps.pc {s t : State} (h : FetchKeeps s t) (k : Nat) : (t.sl k).pc = (s.sl k).pc := by
  rw [← h.sl k]

/-- A slice gets another park, other fetch grants or another note. -/
theorem FetchKeeps.setSl {s : State} {i : Nat} {x : Slice}
    (h : { x with park := (s.sl i).park, fetch := (s.sl i).fetch, lost := (s.sl i).lost } = s.sl i) : FetchKeeps s (s.setSl i x) where
  ctxs := rfl
  launches := rfl
  stash := rfl
  scratch := rfl
  sl := fun k => by
    rw [State.sl_setSl]
    split
    · rename_i hik
      exact hik ▸ h
    · rfl

theorem FetchKeeps.updCore (s : State) (i : Nat) (f : Core → Core) : FetchKeeps s (s.updCore i f) := ⟨rfl, rfl, rfl, rfl, fun _ => rfl⟩
theorem FetchKeeps.setTag (s : State) (crew tile : Nat) (x : Tag) : FetchKeeps s (setTag s crew tile x) := ⟨rfl, rfl, rfl, rfl, fun _ => rfl⟩

theorem CachesOnly.fetchKeeps {s t : State} (h : CachesOnly s t) : FetchKeeps s t := by
  have hs : t.slices = s.slices := by rw [← h.rest]
  refine ⟨?_, ?_, ?_, ?_, fun k => by rw [State.sl, hs]; rfl⟩ <;> rw [← h.rest]

theorem TrafficOnly.fetchKeeps {s t : State} (h : TrafficOnly s t) : FetchKeeps s t := h.caches.fetchKeeps

/-! ### Copies above the home that are recalled (R35, R82, R127) -/

theorem recallL2_caches (s : State) (cl ctx line : Nat) : CachesOnly s (recallL2 s cl ctx line) := by
  unfold recallL2 dropL2
  split
  · exact CachesOnly.refl s
  · rename_i x _
    have hsent := ((recallPackets_traffic s cl (256 * line) ([0, 1].filter fun k => x.dirty.getLsbD k).length).trans
      (touchBank_traffic _ (cl / 64) (l2Bank cl (256 * line)))).caches
    dsimp only
    split
    · exact hsent.trans (CachesOnly.setL2 _ _ _)
    · exact (hsent.trans (CachesOnly.setL2 _ _ _)).trans (acceptBytes_caches _ _ _ _)

theorem afterDrop_keeps (crew : Option Nat) (base : Nat) (x : Slice) :
    { afterDrop crew base x with park := x.park, fetch := x.fetch, lost := x.lost } = x := by
  rw [afterDrop_eq]
  split <;> rfl

/-- Bytes that reach the home are taken there, or dropped and noted in slices. -/
theorem acceptFrom_keeps (s : State) (crew : Option Nat) (ctx line : Nat) (bytes : List (Nat × Byte)) :
    FetchKeeps s (acceptFrom s crew ctx line bytes) := by
  by_cases hw : ∃ page size p, walk s ctx (256 * line) = .leaf page size p
  · obtain ⟨page, size, p, hw⟩ := hw
    have hok : acceptFrom s crew ctx line bytes = (acceptBytes s ctx line bytes).1 := by
      simp only [acceptFrom, acceptBytes_leaf hw, if_true]
    exact hok ▸ (acceptBytes_caches s ctx line bytes).fetchKeeps
  · rw [acceptFrom_dropped (by simpa using hw)]
    refine ⟨rfl, rfl, rfl, rfl, fun k => ?_⟩
    have hsl : ({ s with slices := s.slices.map fun e => (e.1, afterDrop crew (256 * line) e.2) } : State).sl k =
        if (Tbl.find s.slices k).isSome then afterDrop crew (256 * line) (s.sl k) else s.sl k := by
      simp only [State.sl, Tbl.findD, Tbl.find_map_val]
      cases Tbl.find s.slices k <;> rfl
    rw [hsl]
    split
    · exact afterDrop_keeps crew (256 * line) (s.sl k)
    · rfl

theorem arriveWriteBack_keeps (s : State) (k : Nat) : FetchKeeps s (arriveWriteBack s k) := by
  unfold arriveWriteBack
  split
  · exact FetchKeeps.refl s
  · have hdel : FetchKeeps s { s with writeBacks := Tbl.del s.writeBacks k } := ⟨rfl, rfl, rfl, rfl, fun _ => rfl⟩
    exact hdel.trans (acceptFrom_keeps _ _ _ _ _)

theorem recallStash_keeps (s : State) (crew ctx line : Nat) : FetchKeeps s (recallStash s crew ctx line) := by
  refine FetchKeeps.foldl (fun u k => FetchKeeps.foldl (fun v e => ?_) _ u) _ s
  have htag : ∀ n x, FetchKeeps v (setTag (recallPackets v (coreCluster (v.crew crew).core) (256 * line + 128 * k) n) crew e.2.1 x) :=
    fun n x => (recallPackets_traffic v _ _ n).fetchKeeps.trans (FetchKeeps.setTag _ crew e.2.1 x)
  dsimp only
  split
  · exact (htag _ _).trans (acceptFrom_keeps _ _ _ _ _)
  · exact htag _ _

theorem recallLine_keeps (s : State) (ctx line : Nat) (keepCl keepCrew : Option Nat) : FetchKeeps s (recallLine s ctx line keepCl keepCrew) := by
  unfold recallLine
  dsimp only
  refine ((FetchKeeps.foldl arriveWriteBack_keeps _ s).trans (FetchKeeps.foldl (fun u e => ?_) _ _)).trans (FetchKeeps.foldl (fun u c => ?_) _ _)
  · exact (recallL2_caches u e.1 ctx line).fetchKeeps
  · exact recallStash_keeps u c ctx line

/-! ### A line comes to its home and to the L2 (R34 to R36, R40, R89, R90) -/

theorem physWriteLine_framesOnly (s : State) (k : Nat) (bytes : List Byte) : FramesOnly s (physWriteLine s k bytes) := by
  unfold physWriteLine
  split <;> exact ⟨rfl⟩

theorem cleanLlc_caches (s : State) (ctx line : Nat) : CachesOnly s (cleanLlc s ctx line) := by
  have hset : ∀ a, CachesOnly s { s with llc := a } := fun a => CachesOnly.setLlc s a s.llcData
  unfold cleanLlc
  split
  · dsimp only
    split
    · exact (((hset _).trans (busUnit_traffic _ _ _ _).caches).trans (touchBank_traffic _ _ _).caches).trans (physWriteLine_framesOnly _ _ _).caches
    · exact hset _
  · exact CachesOnly.refl s

theorem evictLlc_keeps (s : State) (ctx line : Nat) : FetchKeeps s (evictLlc s ctx line) :=
  (recallLine_keeps s ctx line none none).trans ((cleanLlc_caches _ ctx line).trans (CachesOnly.setLlc _ _ _)).fetchKeeps

theorem roomLlc_keeps (s : State) (ctx line : Nat) : FetchKeeps s (roomLlc s ctx line) := by
  unfold roomLlc
  dsimp only
  split
  · exact FetchKeeps.refl s
  · split
    · exact FetchKeeps.refl s
    · split
      · exact evictLlc_keeps s _ _
      · exact FetchKeeps.refl s

theorem countHot_keeps (s : State) (ctx va : Nat) : FetchKeeps s (countHot s ctx va) := by
  unfold countHot
  split
  · split
    · exact ⟨rfl, rfl, rfl, rfl, fun _ => rfl⟩
    · exact FetchKeeps.refl s
  · exact FetchKeeps.refl s

theorem atHome_keeps (s : State) (ctx line : Nat) : FetchKeeps s (atHome s ctx line) :=
  ((roomLlc_keeps s ctx line).trans ((fillLlc_caches _ ctx line).trans (touchBank_traffic _ _ _).caches).fetchKeeps).trans (countHot_keeps _ _ _)

theorem roomL2_caches (s : State) (cl va : Nat) : CachesOnly s (roomL2 s cl va) := by
  unfold roomL2
  dsimp only
  split
  · exact CachesOnly.refl s
  · have hprot : ∀ a, CachesOnly s { s with l2 := a } := fun a => CachesOnly.setL2 s a s.l2Data
    split
    · exact (hprot _).trans (evictL2_caches _ _ _ _)
    · split
      · exact (hprot _).trans (evictL2_caches _ _ _ _)
      · exact hprot _

theorem cacheRead_keeps (s : State) (pl : Place) (cl ctx va ch : Nat) : FetchKeeps s (cacheRead s pl cl ctx va ch) := by
  have hset : ∀ (u : State) a, FetchKeeps u { u with l2 := a } := fun u a => (CachesOnly.setL2 u a u.l2Data).fetchKeeps
  have hbank := (touchBank_traffic s (cl / 64) (l2Bank cl va)).fetchKeeps
  cases pl
  case frame => exact (pullFor_caches s ctx va).fetchKeeps
  case home => exact (recallLine_keeps s ctx _ none none).trans (atHome_keeps _ ctx _)
  case l2 =>
    unfold cacheRead
    dsimp only
    split
    · refine FetchKeeps.trans ?_ (hset _ _)
      split
      · exact hbank
      · exact hbank.trans (atHome_keeps _ ctx _)
    · have hown : FetchKeeps s (if lineOwned (touchBank s (cl / 64) (l2Bank cl va)) ctx (va / 256)
          then recallLine (touchBank s (cl / 64) (l2Bank cl va)) ctx (va / 256) none none else touchBank s (cl / 64) (l2Bank cl va)) := by
        split
        · exact hbank.trans (recallLine_keeps _ ctx _ none none)
        · exact hbank
      have hhome := hown.trans (atHome_keeps _ ctx (va / 256))
      split
      · exact (hhome.trans (roomL2_caches _ cl va).fetchKeeps).trans (hset _ _)
      · exact hhome

theorem send_traffic (s : State) (p : Pkt) : TrafficOnly s (send s p) := by
  unfold send
  dsimp only
  split
  · exact (TrafficOnly.fresh s).trans (letIn_traffic _ _ _)
  · exact ((TrafficOnly.fresh s).trans (TrafficOnly.setPackets _ _)).trans (TrafficOnly.updCore _ _ _)

theorem injectRead_traffic (s : State) (pl : Place) (core cls ctx va : Nat) : TrafficOnly s (injectRead s pl core cls ctx va) := by
  unfold injectRead
  split
  · exact send_traffic s _
  · exact TrafficOnly.refl s

theorem engRead_keeps (s : State) (core cls ctx ch va n : Nat) : FetchKeeps s (engRead s core cls ctx ch va n) := by
  refine FetchKeeps.foldl (fun u e => ?_) _ s
  dsimp only
  split
  · exact (injectRead_traffic u _ core cls ctx e.1).fetchKeeps.trans (cacheRead_keeps _ _ _ ctx e.1 ch)
  · exact FetchKeeps.refl u

/-! ### The unit's fetch (R55, R252, R253) -/

theorem wakeUnit_keeps (s : State) (ids : List Nat) : FetchKeeps s (wakeUnit s ids) := by
  refine FetchKeeps.foldl (fun u i => FetchKeeps.setSl ?_) _ s
  unfold resume
  split <;> rfl

theorem holdGrants_keeps (s : State) (i : Nat) : FetchKeeps s (holdGrants s i) :=
  (FetchKeeps.updCore s _ _).trans (FetchKeeps.setSl rfl)

theorem fetchWords_keeps (s : State) (core ctx pc : Nat) (fresh : BitVec 3) : FetchKeeps s (fetchWords s core ctx pc fresh).2 :=
  FetchKeeps.updCore s core fun _ => _

/-! ### The slot's instruction -/

theorem trapsDue_none {s : State} {ids : List Nat} (h : ∀ k ∈ ids, (s.sl k).taking = none ∧ mustDeliver (s.sl k) = false) :
    trapsDue s ids = [] :=
  List.filter_eq_nil_iff.mpr fun k hk => by
    obtain ⟨ht, hd⟩ := h k hk
    simp [ht, hd]

/-- A unit that may go on, no trap due and its code cleared, issues what the words at its PC decode to. -/
theorem issueAt_run {s : State} {core slot : Nat} {fresh : BitVec 3} {j : Nat} {js : List Nat} {ins : Instr}
    (hh : (slotAt (s.core core) slot).holder = j :: js)
    (hgo : ∀ k ∈ j :: js, s.alive k = true ∧ sliceReady s k = true ∧ (s.sl k).pc = (s.sl j).pc)
    (hc : s.hasCtx (s.ctxOf j) = true) (hst : (s.ctx (s.ctxOf j)).st ≠ .stopped)
    (hfree : (slotAt (s.core core) slot).freeAt ≤ s.clockOf j) (hdue : trapsDue s (j :: js) = [])
    (hcode : ∀ k ∈ j :: js, fetchStand (wakeUnit s (j :: js)) k = .go) {g : State} (hg : (j :: js).foldl holdGrants (wakeUnit s (j :: js)) = g)
    {pc : Nat} (hpc : (g.sl j).pc.toNat = pc) (hclean : anyPoison g (s.ctxOf j) pc 12 = none) {f : Nat × State}
    (hf : fetchWords (fetchTouch g core (crewClass g (g.sl j).crew) (s.ctxOf j) pc) core (s.ctxOf j) pc fresh = f)
    (hdec : decodeWord f.1 = .ok ins) : issueAt s core slot fresh = .run ins { f.2 with cur := j :: js } := by
  have hall : ((j :: js).all fun k => s.alive k && sliceReady s k && (s.sl k).pc == (s.sl j).pc) = true :=
    List.all_eq_true.mpr fun k hk => by
      obtain ⟨ha, hr, hp⟩ := hgo k hk
      simp [ha, hr, hp]
  have hpres : ∀ p ∈ (j :: js).map (fetchStand (wakeUnit s (j :: js))), p = .go := fun p hp => by
    obtain ⟨k, hk, rfl⟩ := List.mem_map.mp hp
    exact hcode k hk
  have hgoes : ((j :: js).map (fetchStand (wakeUnit s (j :: js)))).all Pre.isGo = true :=
    List.all_eq_true.mpr fun p hp => hpres p hp ▸ rfl
  unfold issueAt
  dsimp only
  rw [hh]
  dsimp only
  rw [hall, hc, hdue]
  dsimp only
  rw [if_neg (by simpa using hst), if_neg (Nat.not_lt.mpr hfree), filterMap_trap_go _ hpres, hgoes, bestTrap_nil, hg, hpc, hclean, hf]
  dsimp only
  rw [hdec]
  rfl

section
variable {s : State} {oc : Nat}

theorem osStep_runs {i : Instr} (hb : (s.pkg (osTower oc / 8)).booted = true) (hi : decodeOs (osWord s oc) = some i) :
    osStep s oc = exec i { s with curOs := some oc } := by
  simp only [osStep, hb, if_true, hi]

theorem osStep_refused (hb : (s.pkg (osTower oc / 8)).booted = true) (hi : decodeOs (osWord s oc) = none) :
    osStep s oc = .refused .osCode := by
  simp only [osStep, hb, if_true, hi]

theorem osStep_idle (hb : (s.pkg (osTower oc / 8)).booted = false) : osStep s oc = .next s := by
  simp only [osStep, hb, Bool.false_eq_true, if_false]

end

/-- Settles O3: the slot's unit fetches and issues as `issueAt_run` says, what its fetch leaves is `FetchKeeps`, and the other moves act at once. -/
theorem stepRuns : Obligations.StepRuns := by
  unfold Obligations.StepRuns
  intro s rest u
  have hmove : ∀ {m : Move}, s.schedule = m :: rest → step s = stepMove u m := fun hm => by
    unfold step nextMove
    rw [hm]
  refine ⟨fun core slot fresh j js ins hs hh hgo hc hst hfree => ?_, fun ev hs => hmove hs,
    fun oc hs => ⟨fun hb ins hi => ?_, fun hb hi => ?_, fun hb => ?_⟩, fun pkg n hs => hmove hs⟩
  · intro w hcode g pc hclean f hdec
    have hu : FetchKeeps s u := ⟨rfl, rfl, rfl, rfl, fun _ => rfl⟩
    have hg : FetchKeeps s g := (hu.trans (wakeUnit_keeps u (j :: js))).trans (FetchKeeps.foldl holdGrants_keeps (j :: js) w)
    have hf : FetchKeeps s f.2 := (hg.trans (engRead_keeps g core _ _ 0 pc 12)).trans (fetchWords_keeps _ _ _ _ _)
    have hrun : issueAt u core slot fresh = .run ins { f.2 with cur := j :: js } :=
      issueAt_run (s := u) hh (fun k hk => let ⟨halive, hready, hpc, _⟩ := hgo k hk; ⟨halive, hready, hpc⟩) hc hst hfree
        (trapsDue_none fun k hk => let ⟨_, _, _, hdue⟩ := hgo k hk; hdue) hcode rfl (congrArg BitVec.toNat (hg.pc j)) hclean rfl hdec
    refine ⟨?_, hf.ctxs, hf.launches, hf.stash, hf.scratch, hf.sl⟩
    rw [hmove hs, stepMove, hrun]
  · exact (hmove hs).trans (osStep_runs (s := u) hb hi)
  · exact (hmove hs).trans (osStep_refused (s := u) hb hi)
  · exact (hmove hs).trans (osStep_idle (s := u) hb)

end Sys2Proof.Machine
end

section
/-! PROOF. Scalar registers and pairs under 32-bit and 64-bit types (O7, R136). -/

namespace Sys2Proof.Machine

/-- A 32-bit or packed type fills 32 bits: it is no 64-bit type, and no 16-bit one that narrows its source. -/
theorem fills32 {t : Ty} (h : (tyElems t).1 * tyWidth t = 32) : t.is64 = false ∧ ¬ (tyWidth t = 16 ∧ (tyElems t).1 = 1) := by
  refine ⟨?_, fun ⟨hw, he⟩ => by rw [hw, he] at h; exact absurd h (by decide)⟩
  cases t
  case u64 | s64 => exact absurd h (by decide)
  all_goals rfl

section
variable (c : Crew) (x : Slice) {t : Ty} (imm : Word) (l n : Nat)

theorem rd_scalar_fills32 (h : (tyElems t).1 * tyWidth t = 32) : rd c x t imm l (.s n) = ((x.sreg n).setWidth 32).setWidth 64 := by
  obtain ⟨h64, hfit⟩ := fills32 h
  simp only [rd, h64, hfit, Bool.false_eq_true, if_false]

theorem rd_scalar_64 (h : t.is64 = true) : rd c x t imm l (.s n) = x.sreg n := by
  simp only [rd, h, if_true]

theorem rd_pair_64 (h : t.is64 = true) : rd c x t imm l (.v n) = x.vreg (n + 1) l ++ x.vreg n l := by
  simp only [rd, h, if_true, Slice.vpair]

end

/-- Settles O7: `rd` case by case, and the registers that `wr` leaves. -/
theorem registerWidths : Obligations.RegisterWidths := by
  unfold Obligations.RegisterWidths
  intro c x t imm l n v
  refine ⟨fun h32 => ⟨rd_scalar_fills32 c x imm l n h32, ?_⟩,
    fun h64 => ⟨rd_scalar_64 c x imm l n h64, ?_, rd_pair_64 c x imm l n h64, fun hl => ⟨?_, ?_⟩⟩⟩
  · simp [wr_sreg, (fills32 h32).1]
  · simp [wr_sreg, h64]
  · simp [wr_vreg _ _ _ _ _ _ _ hl hl, BitVec.setWidth_eq_extractLsb']
  · simp only [wr_vreg _ _ _ _ _ _ _ hl hl, h64, true_and, if_true, Nat.succ_ne_self, and_false, if_false]
    rfl

end Sys2Proof.Machine
end

section
/-! PROOF. The writes of special registers (O22): a value that its register takes lets WRSR issue, and the write is the model's (R91, R92, R154, R157,
R185, R243, R296). -/

namespace Sys2Proof.Machine

/-- A WRSR whose value is not refused in any slice that executes it writes it there. -/
theorem runs_wrsr {i : Instr} {h : Hdr} {t : Ty} {a : Opnd} {s : State} {chk : State → Nat → Option Nat} {bad : DWord → Option Nat}
    {eff : DWord → State → Nat → State} {e : State → Nat → State} (hx : exec i s = wrsrMeaning h t a chk bad eff s) (hc : s.cur ≠ [])
    (hk : ∀ j ∈ s.cur, chk s j = none) (hv : s.each h fun j => bad (wrsrVal s j h t a) = none)
    (he : ∀ u j, eff (wrsrVal s j h t a) u j = e u j) : Runs i h (perSlice h) e s := by
  refine runs_of hx hc rfl rfl (fun _ => rfl) hk (fun j hj hon => ?_) fun u j _ => he u j
  simp only [hv j hj hon]

/-- The trap registers by their numbers in the instruction (R243). -/
theorem trapRegWrite_imm (n : Word) (v : DWord) (x : Slice) : trapRegWrite n.toNat v x =
    if n = 0x31 then { x with trappc := v }
    else if n = 0x32 then { x with trapcode := v.setWidth 8, trapdef := v.getLsbD 8, trapovf := v.getLsbD 9 }
    else if n = 0x33 then { x with trapaddr := v }
    else if n = 0x34 then { x with trapmask := v.setWidth 32 }
    else if n = 0x35 then { x with trapinfo := v }
    else x := by
  have hnum : ∀ k : Word, n.toNat = k.toNat ↔ n = k := fun _ => BitVec.toNat_inj
  simp only [trapRegWrite, ← hnum]
  rfl

/-- Settles O22, register by register: its value is not refused, and its effect is the model's. -/
theorem specialWrites : Obligations.SpecialWrites := by
  unfold Obligations.SpecialWrites
  intro s h t a hu
  refine ⟨fun hv => ?flags, fun hrole hv => ?dkflags, fun hmode => ?trap, fun hvec hv => ?trapvec, fun hv => ?format, fun hv => ?scale,
    fun hv => ?l2wp⟩
  case flags =>
    exact runs_wrsr (i := .writeFlags h t a) (rfl : _ = execWriteFlags h t a s) hu.1 (fun _ _ => rfl)
      (fun j hj hon => if_neg (Nat.not_le.mpr (hv j hj hon))) fun _ _ => rfl
  case dkflags =>
    refine runs_wrsr (i := .writeDkflags h t a) (rfl : _ = execWriteDkflags h t a s) hu.1 (fun j hj => if_pos (hrole j hj))
      (fun j hj hon => ?_) fun _ _ => rfl
    simp only [wrsrVal, hv j hj hon, bne_self_eq_false, Bool.false_eq_true, if_false]
  case trap =>
    refine runs_wrsr (i := .writeTrapRegister h t a) (rfl : _ = execWriteTrapRegister h t a s) hu.1 (fun j hj => if_pos (hmode j hj))
      (fun _ _ _ => rfl) fun u j => ?_
    exact congrArg (u.setSl j) (trapRegWrite_imm h.imm _ _)
  case trapvec =>
    have hnum : h.imm.toNat = 0x30 := congrArg BitVec.toNat hvec
    rw [hnum]
    refine runs_wrsr (i := .writeTrapvec h t a) (rfl : _ = execWriteTrapvec h t a s) hu.1 (fun _ _ => rfl)
      (fun j hj hon => ?_) fun _ _ => rfl
    simp only [wrsrVal, hv j hj hon, bne_self_eq_false, Bool.false_eq_true, if_false]
  case format =>
    exact runs_wrsr (i := .writeFormatRegister h t a) (rfl : _ = execWriteFormatRegister h t a s) hu.1 (fun _ _ => rfl)
      (fun j hj hon => if_pos (hv j hj hon)) fun _ _ => rfl
  case scale =>
    refine runs_wrsr (i := .writeTensorScale h t a) (rfl : _ = execWriteTensorScale h t a s) hu.1 (fun _ _ => rfl)
      (fun j hj hon => if_pos ?_) fun _ _ => rfl
    rw [Bool.and_eq_true, decide_eq_true_eq]
    exact hv j hj hon
  case l2wp =>
    refine runs_of (i := .writeL2wp h t a) rfl hu.1 rfl rfl (fun _ => rfl) (fun _ _ => rfl) (fun j hj hon => ?_) fun u j _ => ?_
    · obtain ⟨hbits, hstill⟩ := hv j hj hon
      simp only [wrsrVal, hbits, hstill, bne_self_eq_false, Option.isSome_none, Bool.false_eq_true, if_false]
    · simp only [← Option.isSome_iff_ne_none]
      rfl

end Sys2Proof.Machine
end

section
/-! PROOF. The Girder instructions (O39): the blocks, tiles and accumulators that let MLOOP, MACLR, MARD and MSTAT issue, and what each does (R97,
R157, R166, R167, R334, R339 to R343). -/

namespace Sys2Proof.Machine

/-! ### What must be met before issue -/

/-- With no STRONG access under way, one to a STRONG page need not wait (R219). -/
theorem strongPre_open {s : State} {j : Nat} {as : List LaneAcc}
    (h : (∃ a ∈ as, strongAcc s (s.ctxOf j) a = true) → ∀ e ∈ (s.sl j).accs, e.2.strong = false) : strongPre s j as = .go := by
  refine if_neg fun hboth => ?_
  rw [Bool.and_eq_true, List.any_eq_true, List.any_eq_true] at hboth
  obtain ⟨⟨e, he, hunder⟩, hnext⟩ := hboth
  exact Bool.false_ne_true ((h hnext e he).symm.trans hunder)

theorem ownRemotePre_go {s : State} {j : Nat} {store : Bool} {as : List LaneAcc} (h : ownRemote s j store as = []) :
    ownRemotePre s j .stash store as = .go := by
  simp only [ownRemotePre, h, if_true, List.isEmpty_nil]

theorem tileRun_all (f : Nat → Bool) {t n : Nat} (h : ∀ k, k < n → f (t + k) = true) : (tileRun t n).all f = true := by
  refine List.all_eq_true.mpr fun k hk => ?_
  obtain ⟨i, hi, rfl⟩ := mem_tileRun.mp hk
  exact h i hi

/-! ### MLOOP (R166, R167, R339, R340) -/

/-- Formats of one class, not nibbles where A is sparse, pass check 7 of R254. -/
theorem loopFormat_none {q : LoopIn} (hclass : gClass q.par.fa q.fra ≠ none) (hsame : gClass q.par.fa q.fra = gClass q.par.fb q.frb)
    (hsparse : q.sp = true → gClass q.par.fa q.fra ≠ some .nibble) : loopFormat q = none := by
  have hnibble : (q.sp && gClass q.par.fa q.fra == some .nibble) = false := by
    cases hsp : q.sp with
    | false => rfl
    | true => simpa using hsparse hsp
  simp only [loopFormat, hnibble, ← hsame, Option.isNone_eq_false_iff.mpr (Option.isSome_iff_ne_none.mpr hclass), bne_self_eq_false,
    Bool.or_self, Bool.false_eq_true, if_false]

/-- What lets MLOOP issue in slice j with the loop `q`, whose scale operand is `b`: the block in order, its parts and its accumulator aligned, in
range and of GIRDER, a multicast B cleared and filled, the slice's own stores performed, and room in the queue. -/
structure LoopReady (s : State) (j : Nat) (b : Opnd) (q : LoopIn) : Prop where
  still : (s.cluster (coreCluster (s.crewOf j).core)).raising = none
  bits : loopBits s j q.par = true
  scales : b = .zero → gScale q.par.fa q.fra ≠ 2 ∧ gScale q.par.fb q.frb ≠ 2
  kind : q.par.acc % 4096 = 0 → (stagOf s (s.crewOf j).span (q.par.acc / 4096)).kind = 1 ∨
    (stagOf s (s.crewOf j).span (q.par.acc / 4096)).kind = 2
  align : loopAlign q = none
  range : loopRange s (s.sl j).crew q = none
  owner : loopOwner s (s.sl j).crew q = none
  group : q.par.bmode = 2 → (groupOf s (coreCluster (s.crewOf j).core) q.par.group).span = (s.crewOf j).span ∧
    (groupOf s (coreCluster (s.crewOf j).core) q.par.group).mask.getLsbD ((s.crewOf j).core % 16) = true
  clear : standClr s (sliceParty s j) .read false (loopGlobal q) = .ok
  fill : standFillAt (fun _ => true) s (sliceParty s j) (loopGlobal q) = .ok
  stores : storesInto s j (partTiles (s.sl j).crew q) = []
  room : (s.core (s.crewOf j).core).loops.length < 4

theorem mloopPre_go {h : Hdr} {sp : Bool} {a b : Opnd} {s : State} {j : Nat} (hr : LoopReady s j b (loopIn s j h sp a b)) :
    mloopPre h sp a b s j = .go := by
  generalize hq : loopIn s j h sp a b = q at hr
  have hscales : (b == .zero && (gScale q.par.fa q.fra == 2 || gScale q.par.fb q.frb == 2)) = false := by
    rw [Bool.and_eq_false_imp, beq_iff_eq]
    exact fun hb => by simp [hr.scales hb]
  have hkind : (q.par.acc % 4096 == 0 && tilesOk s (s.sl j).crew 2 (q.par.acc / 4096) 1 &&
      accOwned s (s.crewOf j).span (q.par.acc / 4096) && ((stagOf s (s.crewOf j).span (q.par.acc / 4096)).kind == 0 ||
      (stagOf s (s.crewOf j).span (q.par.acc / 4096)).kind == 3)) = false := by
    rw [Bool.and_assoc, Bool.and_assoc, Bool.and_eq_false_imp, beq_iff_eq]
    intro h0
    rcases hr.kind h0 with hk | hk <;> simp [hk]
  have hmember : (q.par.bmode == 2 && ((groupOf s (coreCluster (s.crewOf j).core) q.par.group).span != (s.crewOf j).span ||
      !(groupOf s (coreCluster (s.crewOf j).core) q.par.group).mask.getLsbD ((s.crewOf j).core % 16))) = false := by
    rw [Bool.and_eq_false_imp, beq_iff_eq]
    exact fun h2 => by simp [hr.group h2]
  simp only [mloopPre, hq, l2wpPre_open hr.still, hr.bits, hscales, hkind, hr.align, hr.range, hr.owner, hmember, hr.clear, hr.fill, hr.stores,
    Nat.not_le.mpr hr.room, Pre.go_next, Stand.next, Stand.pre, pinAsks, Bool.not_true, Bool.or_self, Bool.false_eq_true, List.isEmpty_nil,
    if_false, if_true]

/-! ### MACLR (R97, R341) -/

/-- The `n` tiles of an accumulator at an offset of a slice's span, cleared and of GIRDER; the first tile holds an EXACT one's exponent. -/
def accCleared (off n : Nat) (xe : Int) (u : State) (j : Nat) : State :=
  let sp := (u.crewOf j).span
  (List.range n).foldl (fun v k => setStag v sp (off / 4096 + k)
      ⟨.girder, if n = 1 then 1 else if k = 0 then 2 else 3, if n = 3 ∧ k = 0 then xe else 0, false, false, false⟩)
    { touchScratch u sp off (4096 * n) with scratch := Mem.clear u.scratch (sp * 2 ^ 23 + off) (4096 * n) }

/-- Aligned tiles of the span that SLICES owns let MACLR issue. -/
theorem runs_maclr {i : Instr} {h : Hdr} {a : Opnd} {n : Nat} {xe : State → Nat → Int} {s : State} (hx : exec i s = maclr h a n xe s)
    (hc : s.cur ≠ []) (hrole : ∀ j ∈ s.cur, (s.sl j).role = .mat)
    (hfree : s.each h fun j => (s.cluster (coreCluster (s.coreOf j))).raising = none ∧ rs32 s j h a % 4096 = 0 ∧
      ∀ k, k < n → tilesOk s (s.sl j).crew 2 (rs32 s j h a / 4096 + k) 1 = true ∧
        ownerOfTile s (s.sl j).crew 2 (rs32 s j h a / 4096 + k) = .slices)
    (hxe : s.each h fun j => -256 ≤ xe s j ∧ xe s j ≤ 255) :
    Runs i h (perSlice h) (fun u j => (accCleared (rs32 s j h a) n (xe s j) u j).updSl j (standAt (.clock 0))) s := by
  refine runs_once hx hc (fun j hj => if_pos (hrole j hj)) (fun j hj hon => ?_) fun _ _ => rfl
  obtain ⟨hstill, halign, htiles⟩ := hfree j hj hon
  obtain ⟨hlow, hhigh⟩ := hxe j hj hon
  have hin := tileRun_all (tilesOk s (s.sl j).crew 2 · 1) fun k hk => (htiles k hk).1
  have hown := tileRun_all (ownerOfTile s (s.sl j).crew 2 · == .slices) fun k hk => beq_iff_eq.mpr (htiles k hk).2
  simp only [Int.not_lt.mpr hlow, Int.not_lt.mpr hhigh, halign, l2wpPre_open hstill, hin, hown, Pre.go_next, decide_false, Bool.or_self,
    bne_self_eq_false, Bool.not_true, Bool.false_eq_true, if_false]

/-! ### MARD (R342) -/

/-- MARD's flags and its park are one change of the slice. -/
theorem updSl_updSl (s : State) (j : Nat) (f g : Slice → Slice) : (s.updSl j f).updSl j g = s.updSl j fun x => g (f x) := by
  simp only [State.updSl_eq, State.sl_setSl_self, State.setSl_setSl]

/-! ### The instructions -/

/-- Settles O39, instruction by instruction: its checks let the slices issue, and its effect is the model's. -/
theorem girderInstructions : Obligations.GirderInstructions := by
  unfold Obligations.GirderInstructions
  refine ⟨?mloop, fun s h a b hu => ⟨fun hrole => ⟨fun hr => ?fast, fun hr => ?exact, fun bf hr => ?mard⟩, fun clr d hr => ?mstat⟩⟩
  case mloop =>
    intro s h sp a b hu q ca hform hr
    refine runs_once (chk := fun s i => (chkRole .mat s i).or (loopFormat (loopIn s i h sp a b))) (pre := mloopPre h sp a b)
      (act := fun p u i => mloopQueue p u i (loopIn p i h sp a b)) (by cases sp <;> rfl) hu.1 (fun j hj => ?_) (fun j hj hon => ?_) fun _ _ => rfl
    · obtain ⟨hrole, hclass, hsame, hsparse⟩ := hform j hj
      rw [chkRole, if_pos hrole, Option.none_or]
      exact loopFormat_none hclass hsame hsparse
    · obtain ⟨hstill, hbits, hscale, hacc, halign, hrange, howner, hgroup, hclear, hfill, hstores, hroom⟩ := hr j hj hon
      exact mloopPre_go ⟨hstill, hbits, hscale, hacc, halign, hrange, howner, hgroup, hclear, hfill, hstores, hroom⟩
  case fast =>
    exact runs_maclr (i := .maclrFast h a) (n := 1) (xe := fun _ _ => 0) rfl hu.1 hrole hr fun _ _ _ => ⟨by decide, by decide⟩
  case exact =>
    exact runs_maclr (i := .maclrExact h a b) (n := 3) (xe := fun s j => sInt 32 (rs32 s j h b)) rfl hu.1 hrole
      (fun j hj hon => (hr j hj hon).1) fun j hj hon => (hr j hj hon).2
  case mard =>
    refine runs_once (i := .mard h bf a b) rfl hu.1 (fun j hj => if_pos (hrole j hj)) (fun j hj hon => ?_) fun u j => ?_
    · obtain ⟨hstill, hx, hy, howner, hkind, hacc, hdst, hclear, hstrong, hunder, hremote⟩ := hr j hj hon
      have hin := tileRun_all (tilesOk s (s.sl j).crew 2 · 1) hacc
      have hout := tileRun_all (tilesOk s (s.sl j).crew 1 · 1) fun k hk => (hdst k hk).1
      have hown := tileRun_all (ownerOfTile s (s.sl j).crew 1 · == .slices) fun k hk => beq_iff_eq.mpr (hdst k hk).2
      have hkept : ((stagOf s (s.crewOf j).span (rs64 s j h a / 4096)).kind == 0 ||
          (stagOf s (s.crewOf j).span (rs64 s j h a / 4096)).kind == 3) = false := by
        rcases hkind with hk | hk <;> simp [hk]
      simp only [l2wpPre_open hstill, hkept, hx, hy, hin, hout, howner, hown, hclear, strongPre_open hstrong, hunder, ownRemotePre_go hremote,
        Pre.go_next, Stand.pre, Bool.and_false, bne_self_eq_false, Bool.not_true, List.isEmpty_nil, Bool.false_eq_true, if_false, if_true]
    · dsimp only
      split
      · rfl
      · exact updSl_updSl _ _ _ _
  case mstat =>
    exact runs_once (i := .mstat h clr d) rfl hu.1 (fun _ _ => rfl) (fun j hj hon => roomPre_go (hr j hj hon)) fun _ _ => rfl

end Sys2Proof.Machine
end

section
/-! PROOF. The events of a Girder loop (O40): its requests, its partial, its merge with the MARDs that waited for it, and its completion (R97, R168 to
R174, R342). -/

namespace Sys2Proof.Machine

/-! ### A loop starts (R168, R169) -/

/-- No multicast request of the loop is under way, and none of its sectors waits in a set (R99, R169). -/
def NoRequests (s : State) (l : GLoop) : Prop :=
  (l.par.bmode = 2 → ∀ e ∈ s.mcReqs, ¬(e.2.girder = true ∧ e.2.ent = l.id)) ∧
    ∀ e ∈ s.mcSets, ∀ r ∈ e.2.reqs, ¬(r.girder = true ∧ r.ent = l.id)

/-- `NoRequests` is what the model looks at before a loop computes. -/
theorem noRequests_iff (s : State) (l : GLoop) :
    NoRequests s l ↔ (l.par.bmode == 2 && s.mcReqs.any (fun e => e.2.girder && e.2.ent == l.id) ||
      s.mcSets.any fun e => e.2.reqs.any fun r => r.girder && r.ent == l.id) = false := by
  simp only [NoRequests, Bool.or_eq_false_iff, Bool.and_eq_false_imp, beq_iff_eq, List.any_eq_false, Bool.and_eq_true, List.any_eq_true,
    not_exists, not_and]

section
variable {s : State} {core : Nat} {l : GLoop} (hnext : (s.core core).loops.find? (fun l => l.part.isNone) = some l)
include hnext

/-- A loop whose B is multicast asks for its sectors first. -/
theorem girderStart_sends (hmc : l.par.bmode = 2) (hsent : l.sent = false) :
    girderStart s core = updLoop (loopRequests s core l) core l.id fun l => { l with sent := true } := by
  simp only [girderStart, hnext, hmc, hsent, and_self, if_true]

/-- A loop that has asked for what it needs and waits for none of it computes its partial. -/
theorem girderStart_computes (hsent : l.par.bmode = 2 → l.sent = true) (hthere : NoRequests s l) :
    girderStart s core =
      updLoop s core l.id fun k => { k with part := some (loopPartial s l).1, fl := k.fl ||| (loopPartial s l).2 } := by
  have hasked : ¬(l.par.bmode = 2 ∧ l.sent = false) := fun ⟨hmc, hno⟩ => Bool.eq_false_iff.mp hno (hsent hmc)
  simp only [girderStart, hnext, if_neg hasked, (noRequests_iff s l).mp hthere, Bool.false_eq_true, if_false]

end

/-! ### A loop merges (R97, R342) -/

/-- The first loop that has not merged adds its partial to its accumulator, and the MARDs are looked at. -/
theorem accMerge_merges {s : State} {core : Nat} {l : GLoop} {p : List Nat} (hfirst : (s.core core).loops.find? (fun l => !l.merged) = some l)
    (hpart : l.part = some p) :
    accMerge s core =
      settleMards (updLoop (mergeLoop s l p).1 core l.id fun k => { k with merged := true, fl := k.fl ||| (mergeLoop s l p).2 }) := by
  simp only [accMerge, hfirst, hpart]

/-- A MARD runs once no loop that names its accumulator is unmerged. -/
theorem settleMard_runs {s : State} {j sp t b : Nat} {bf w : Bool} (hpark : (s.sl j).park = .after (.merged sp t bf b) w)
    (hmerged : unmerged s sp t = false) :
    settleMard s j = (mardRun bf (4096 * t) b s j).updSl j fun x => { x with park := .after Wait.now w } := by
  simp only [settleMard, hpark, hmerged, Bool.false_eq_true, if_false]

/-- A slice that no MARD parks, or whose MARD has a loop to wait for, is left alone. -/
theorem settleMard_waits {s : State} {j : Nat}
    (hwait : ∀ (sp t b : Nat) (bf w : Bool), (s.sl j).park = .after (.merged sp t bf b) w → unmerged s sp t = true) : settleMard s j = s := by
  unfold settleMard
  split
  · next sp t bf b w hpark => exact if_pos (hwait sp t b bf w hpark)
  · rfl

/-! ### A loop completes (R174) -/

/-- The tiles that a loop flips when it leaves: its own tiles that GIRDER still owns and no loop of its crew behind it names. -/
def flipsOf (s : State) (l : GLoop) (rest : List GLoop) : List Nat :=
  (ownTiles l).filter fun t =>
    !((rest.filter fun m => m.crew == l.crew).flatMap ownTiles).contains t && (tagOf s l.crew t).owner == .girder

/-- A merged loop at the head of its core's queue leaves: the flip, then the post, then the crew's count. -/
theorem mloopComplete_leaves {s : State} {core : Nat} {l : GLoop} {rest : List GLoop} (hhead : (s.core core).loops = l :: rest)
    (hmerged : l.merged = true) :
    mloopComplete s core =
      (updRing ((flipsOf s l rest).foldl (fun u t => setOwner u l.crew 1 t .slices) (s.updCore core fun k => { k with loops := rest })) l.crew
        l.par.ring (setPhase true l.par.stage)).updCrew l.crew fun c => { c with gfl := c.gfl ||| (l.fl &&& 0x1D), gdone := c.gdone + 1 } := by
  simp only [mloopComplete, hhead, hmerged, Bool.not_true, Bool.false_eq_true, if_false]
  rfl

/-! ### The events -/

/-- Settles O40, event by event: a loop's start, its merge, the MARDs that the merge lets run, and its completion. -/
theorem loopEvents : Obligations.LoopEvents := by
  unfold Obligations.LoopEvents
  intro s core l
  refine ⟨fun hnext => ⟨fun hmc hsent => ?sends, fun hmulti hsets => ?computes⟩, fun p hfirst hpart => ?merges, fun j sp t b bf w hpark hmerged => ?runs,
    fun j hwait => ?waits, fun rest hhead hmerged => ?leaves⟩
  case sends => exact congrArg Host.Outcome.next (girderStart_sends hnext hmc hsent)
  case computes =>
    have hthere : NoRequests s l := ⟨fun hmc => (hmulti hmc).2, hsets⟩
    exact congrArg Host.Outcome.next (girderStart_computes hnext (fun hmc => (hmulti hmc).1) hthere)
  case merges => exact congrArg Host.Outcome.next (accMerge_merges hfirst hpart)
  case runs => exact settleMard_runs hpark hmerged
  case waits => exact settleMard_waits hwait
  case leaves => exact congrArg Host.Outcome.next (mloopComplete_leaves hhead hmerged)

end Sys2Proof.Machine
end

section
/-! PROOF. Deck instructions at issue (O41): what lets a queued one enter its crew's queue, and what DKTEX needs before it samples (R177, R178, R186,
R188 to R190, R334, R344 to R349). -/

namespace Sys2Proof.Machine

/-! ### A queued instruction -/

/-- Slice `j` of the unit at issue `s` adds instruction `i` to its crew's queue. -/
def DeckForm.enters (f : DeckForm) (i : Instr) (s u : State) (j : Nat) : State :=
  let u0 := f.clears s u j
  let id := u0.nextId
  let u1 := ({ u0 with nextId := id + 1 } : State).updCrew (s.sl j).crew fun c =>
    { c with deck := { c.deck with
      queue := c.deck.queue ++ [{ uid := id, i := i, sc := f.sc s j, sl := j, id := if f.result then id else 0 }]
      depth := f.depth c.deck.depth } }
  if f.result then u1.updSl j fun x => { x with outst := Tbl.put x.outst id 1 } else u1

/-- `DeckForm.enters` is the model's entry, the clearances used first. -/
theorem DeckForm.enters_eq (f : DeckForm) (i : Instr) (s u : State) (j : Nat) :
    f.enters i s u j = dkQueue s (f.clears s u j) j i (f.sc s j) f.result f.depth := rfl

/-- Room in the crew's queue and, for a result, among the slice's outstanding ones (R142, R190). -/
def DeckForm.room (f : DeckForm) (s : State) (j : Nat) : Prop :=
  (s.crewOf j).deck.queue.length < 16 ∧ (f.result = true → (s.sl j).outst.length < 32)

theorem dkRoom_go {f : DeckForm} {s : State} {j : Nat} (h : f.room s j) : dkRoom s j f.result = .go := by
  obtain ⟨hqueue, hresult⟩ := h
  rw [dkRoom, if_neg (Nat.not_le.mpr hqueue)]
  split
  · next hr => exact roomPre_go (hresult hr)
  · rfl

section
variable {i : Instr} {f : DeckForm} {s : State} {val : State → Nat → Pre} (hu : s.unitIn)
include hu

/-- An instruction whose operand values pass enters the queue, the clearances that it uses first. -/
theorem runs_enters {chk : State → Nat → Option Nat}
    (hx : exec i s = runUnit f.hdr (onceMeaning f.hdr chk (fun s j => (val s j).next (dkRoom s j f.result))
      fun p u j => dkQueue p (f.clears p u j) j i (f.sc p j) f.result f.depth) s)
    (hchk : ∀ j ∈ s.cur, chk s j = none) (hval : s.each f.hdr fun j => val s j = .go) (hroom : s.each f.hdr (f.room s)) :
    Runs i f.hdr (perSlice f.hdr) (f.enters i s) s := by
  refine runs_once hx hu.1 hchk (fun j hj hon => ?_) fun u j => (f.enters_eq i s u j).symm
  dsimp only
  rw [hval j hj hon, Pre.go_next, dkRoom_go (hroom j hj hon)]

/-- As `runs_enters`, of an instruction that uses no clearance. -/
theorem runs_dkIssue (hx : exec i s = dkIssue f.hdr i val f.sc f.result f.depth s) (hclears : f.clears = fun _ u _ => u)
    (hrole : ∀ j ∈ s.cur, (s.sl j).role = .deck) (hval : s.each f.hdr fun j => val s j = .go) (hroom : s.each f.hdr (f.room s)) :
    Runs i f.hdr (perSlice f.hdr) (f.enters i s) s :=
  runs_enters hu (by rw [hx, hclears]; rfl) (fun j hj => if_pos (hrole j hj)) hval hroom

end

/-! ### What their operands must meet -/

theorem dkTiles_go {h : Hdr} {a : Opnd} {s : State} {j : Nat} (ht : deckTiles h a s j) : dkTiles h a s j = .go := by
  obtain ⟨halign, htiles⟩ := ht
  have hin := tileRun_all (fun k => decide (1024 * k < 2 ^ 19) && tilesOk s (s.sl j).crew 1 k 1) fun k hk => by
    obtain ⟨hsize, hok, -⟩ := htiles k hk
    rw [hok, decide_eq_true hsize]; rfl
  have hown := tileRun_all (ownerOfTile s (s.sl j).crew 1 · == .deck) fun k hk => beq_iff_eq.mpr (htiles k hk).2.2
  simp only [dkTiles, halign, hin, hown, bne_self_eq_false, Bool.not_true, Bool.false_eq_true, if_false]

/-- A mask that names only flags of cells, or that cells give, passes (R347). -/
theorem dkMask_go {h : Hdr} {b : CellOp} {s : State} {j : Nat}
    (hb : ∀ o, b = .scalar o → BitVec.ofNat 32 (rs32 s j h o) &&& ~~~0x3D = 0) : dkMask h (.flag b) s j = .go := by
  cases b with
  | scalar o => exact if_neg (by rw [hb o rfl]; decide)
  | cell _ => rfl
  | cx => rfl
  | cy => rfl

/-- A plane whose rows do not overlap, aligned, that may be written (R189, R349). -/
theorem dkxpVal_go {h : Hdr} {b c e : Opnd} {s : State} {j : Nat} (hstride : 128 ≤ (dkxpIn h b c e s j).2.1.natAbs)
    (hbase : (dkxpIn h b c e s j).1 % 4 = 0) (hrows : (dkxpIn h b c e s j).2.1 % 4 = 0) (hsig : (dkxpIn h b c e s j).2.2 % 8 = 0)
    (hclear : standClr s (sliceParty s j) .write false (dkxpRanges (dkxpIn h b c e s j)) = .ok) : dkxpVal h b c e s j = .go := by
  simp only [dkxpVal, Nat.not_lt.mpr hstride, hbase, hrows, hsig, hclear, Stand.pre, bne_self_eq_false, Bool.false_eq_true, if_false]

/-- Each queued instruction enters its crew's queue. -/
theorem Queues.runs {i : Instr} {f : DeckForm} {s : State} (hq : Queues i f) (hu : s.unitIn)
    (hrole : ∀ j ∈ s.cur, (s.sl j).role = .deck) (halways : ∀ j ∈ s.cur, f.always s j) (hok : s.each f.hdr (f.ok s))
    (hroom : s.each f.hdr (f.room s)) : Runs i f.hdr (perSlice f.hdr) (f.enters i s) s := by
  cases hq with
  | dkwin h a => exact runs_dkIssue hu rfl rfl hrole (fun j hj hon => if_pos (hok j hj hon)) hroom
  | dklin | dkedge | dkquad | dkop | dkmov | dkany | dksum | cmp | dkflg => exact runs_dkIssue hu rfl rfl hrole (fun _ _ _ => rfl) hroom
  | dkexp h d a b =>
    refine runs_enters (val := goPre) hu rfl (fun j hj => ?_) (fun _ _ _ => rfl) hroom
    exact (if_pos (halways j hj)).trans (if_pos (hrole j hj))
  | dkpush h => exact runs_dkIssue hu rfl rfl hrole (fun j hj hon => if_neg (Nat.not_le.mpr (hok j hj hon))) hroom
  | dkpop | dkelse => exact runs_dkIssue hu rfl rfl hrole (fun j hj hon => if_neg (Nat.not_le.mpr (hok j hj hon))) hroom
  | dkld | dkst => exact runs_dkIssue hu rfl rfl hrole (fun j hj hon => dkTiles_go (hok j hj hon)) hroom
  | flag h b => exact runs_dkIssue hu rfl rfl hrole (fun j hj hon => dkMask_go (hok j hj hon)) hroom
  | dkxp h d a b c e =>
    refine runs_enters hu rfl (fun j hj => if_pos (hrole j hj)) (fun j hj hon => ?_) hroom
    obtain ⟨hstride, hbase, hrows, hsig, hclear, hstill⟩ := hok j hj hon
    rw [dkxpVal_go hstride hbase hrows hsig hclear, Pre.go_next, l2wpPre_open hstill]

/-! ### DKTEX (R188, R348) -/

/-- A built-in program's number or an aligned address of one is neither reserved nor misaligned (R130). -/
theorem progPlaced {pv : Nat} (hpv : pv < 5 ∨ 8 ≤ pv ∧ pv % 8 = 0) :
    (decide (5 ≤ pv) && decide (pv < 8)) = false ∧ (decide (8 ≤ pv) && pv % 8 != 0) = false := by
  rw [Bool.and_eq_false_imp, Bool.and_eq_false_imp, decide_eq_true_eq, decide_eq_true_eq, decide_eq_false_iff_not, bne_eq_false_iff_eq]
  omega

/-- What an enabled cell `n` needs of a descriptor and a program: both read and valid, and the texels of the cells cleared and filled (R56, R69,
R128 to R131, R188). -/
structure CellsReady (s : State) (j a : Nat) (b : CellOp) (desc pv n : Nat) (t : Tex) (g : Prog) (k m : Nat) : Prop where
  descriptor : cellReads s j [(n, [(desc, 32)])] = .go
  texture : descOf s (sliceParty s j) desc = some t
  filter : progOf s (sliceParty s j) pv = some g
  header : 8 ≤ pv → cellReads s j [(n, [(pv, 8)])] = .go
  length : 8 ≤ pv → headOf s (sliceParty s j) pv = some (k, m)
  taps : 8 ≤ pv → cellReads s j [(n, [(pv + 8, 4 * k)])] = .go
  texels : cellReads s j (dktexReads s j t g a b) = .go

section
variable {s : State} {j a desc pv : Nat} {h : Hdr} {b : CellOp} {c e : Opnd} (hd : rs64 s j h c = desc)
  (hp : (rd (s.crewOf j) (s.sl j) .s64 h.imm 0 e).toNat = pv) (hpv : pv < 5 ∨ 8 ≤ pv ∧ pv % 8 = 0) (hdesc : desc % 32 = 0)
  (hqueue : (s.crewOf j).deck.queue = [])
include hd hp hpv hdesc hqueue

/-- With no cell enabled, a descriptor and a program in their places are enough. -/
theorem dktexPre_noCell (hcells : (s.crewOf j).deck.cells = []) : dktexPre h a b c e s j = .go := by
  obtain ⟨hplain, halign⟩ := progPlaced hpv
  simp only [dktexPre, hd, hp, hplain, halign, hdesc, hqueue, hcells, List.isEmpty_nil, Bool.not_true, Bool.and_false, bne_self_eq_false,
    Bool.false_eq_true, if_false]

/-- With cells enabled, the reads are made for the first of them. -/
theorem dktexPre_cells {n k m : Nat} {ns : List Nat} {t : Tex} {g : Prog} (hcells : (s.crewOf j).deck.cells = n :: ns)
    (hr : CellsReady s j a b desc pv n t g k m) (hstill : (s.cluster (coreCluster (s.coreOf j))).raising = none) :
    dktexPre h a b c e s j = .go := by
  obtain ⟨hplain, halign⟩ := progPlaced hpv
  simp only [dktexPre, hd, hp, hplain, halign, hdesc, hqueue, hcells, List.isEmpty_nil, Bool.not_true, Bool.and_false, bne_self_eq_false,
    Bool.false_eq_true, if_false, hr.descriptor, hr.texture]
  rcases Nat.lt_or_ge pv 8 with hbuilt | hown
  · simp only [if_pos hbuilt, hr.filter, hr.texels, Pre.go_next, l2wpPre_open hstill]
  · simp only [if_neg (Nat.not_lt.mpr hown), hr.header hown, hr.length hown, hr.taps hown, hr.filter, hr.texels, Pre.go_next, l2wpPre_open hstill]

end

/-! ### The instructions -/

/-- Settles O41: a queued instruction by its form, and DKTEX by whether a cell is enabled. -/
theorem deckIssue : Obligations.DeckIssue := by
  unfold Obligations.DeckIssue
  refine ⟨fun i f s hq hu hform hr => ?queued, fun s h d a b c e hu hrole hr => ?dktex⟩
  case queued =>
    exact hq.runs hu (fun j hj => (hform j hj).1) (fun j hj => (hform j hj).2) (fun j hj hon => (hr j hj hon).1) fun j hj hon => (hr j hj hon).2
  case dktex =>
    refine runs_once (i := .dktex h d a b c e) rfl hu.1 (fun j hj => if_pos (hrole j hj)) (fun j hj hon => ?_) fun _ _ => rfl
    obtain ⟨hpv, hdesc, hqueue, hnone | ⟨n, ns, t, g, k, m, hcells, htex, hprog, hfixed, hown, htexels, hstill⟩⟩ := hr j hj hon
    · exact dktexPre_noCell rfl rfl hpv hdesc hqueue hnone
    · exact dktexPre_cells rfl rfl hpv hdesc hqueue hcells
        ⟨hfixed, htex, hprog, fun h8 => (hown h8).1, fun h8 => (hown h8).2.1, fun h8 => (hown h8).2.2, htexels⟩ hstill

end Sys2Proof.Machine
end

section
/-! PROOF. The head of a Deck's queue (O42): each queued instruction's effect on the Deck, on the stash or on its slice, and DKXP part by part (R178 to
R187, R189, R190, R211, R346, R347). -/

namespace Sys2Proof.Machine

/-! ### What an instruction leaves of the queue -/

theorem Deck.put_queue (d : Deck) (r n : Nat) (v : Word) : (d.put r n v).queue = d.queue := rfl

theorem Deck.raise_queue (d : Deck) (n : Nat) (f : Flags) : (d.raise n f).queue = d.queue := by
  rw [Deck.raise]
  split <;> rfl

theorem Deck.each_queue (d : Deck) (r : Nat) (f : Nat → Fl Nat) : (d.each r f).queue = d.queue :=
  List.foldlRecOn (motive := fun y : Deck => y.queue = d.queue) d.cells _ rfl fun y hy n _ => by
    rw [Deck.raise_queue, Deck.put_queue, hy]

theorem Deck.narrow_queue (d : Deck) (f : Nat → Bool) : (d.narrow f).queue = d.queue := by
  rw [Deck.narrow]
  split <;> rfl

/-! ### A state up to one crew's Deck -/

@[simp] theorem State.setCrew_setCrew (s : State) (i : Nat) (x y : Crew) : (s.setCrew i x).setCrew i y = s.setCrew i y := by
  simp [State.setCrew, Tbl.put_put]

/-- `t` is `u` but for the Deck of crew `k`, which is `d` there with its queue as in `u`. -/
structure Redecked (k : Nat) (d : Deck) (u t : State) : Prop where
  crew : t.crew k = { u.crew k with deck := d }
  queue : d.queue = (u.crew k).deck.queue
  rest : ∀ x, t.setCrew k x = u.setCrew k x

theorem crew_of_crews {s u : State} (h : u.crews = s.crews) (k : Nat) : u.crew k = s.crew k := by rw [State.crew, h, State.crew]

/-- A state with the crews of `s` has the Deck of `s`. -/
theorem Redecked.self {s u : State} (h : u.crews = s.crews) (k : Nat) : Redecked k (s.crew k).deck u u := by
  rw [← crew_of_crews h k]
  exact ⟨rfl, rfl, fun _ => rfl⟩

theorem Redecked.setDeck {crew : Nat} {d : Deck} {s : State} (hq : d.queue = (s.crew crew).deck.queue) : Redecked crew d s (setDeck s crew d) :=
  ⟨State.crew_setCrew_self _ _ _, hq, fun _ => State.setCrew_setCrew _ _ _ _⟩

/-- A result on its way to its slice. -/
def State.lands (s : State) (e : DkEntry) (ls : List (LandDst × DWord)) : State :=
  s.updSl e.sl fun x => { x with ready := x.ready ++ ls.map fun l => ⟨e.id, l.1, l.2⟩ }

theorem dkLand_lands {s : State} {e : DkEntry} (he : e.id ≠ 0) (ls : List (LandDst × DWord)) : dkLand s e ls = s.lands e ls := if_neg he

theorem Redecked.lands {crew : Nat} {d : Deck} {u t : State} (h : Redecked crew d u t) {e : DkEntry} (he : e.id ≠ 0)
    (ls : List (LandDst × DWord)) : Redecked crew d (u.lands e ls) (dkLand t e ls) := by
  have hsl : (t.setCrew crew (u.crew crew)).sl e.sl = (u.setCrew crew (u.crew crew)).sl e.sl := by rw [h.rest]
  rw [dkLand_lands he]
  refine ⟨h.crew, h.queue, fun x => ?_⟩
  show (t.setCrew crew x).setSl e.sl _ = (u.setCrew crew x).setSl e.sl _
  rw [h.rest, show t.sl e.sl = u.sl e.sl from hsl]

/-! ### DECK_START (R190, R191) -/

/-- The head of a crew's queue may run: the crew has not ended and its context is not stopped. -/
structure HeadRuns (s : State) (crew : Nat) (e : DkEntry) (rest : List DkEntry) : Prop where
  queue : (s.crew crew).deck.queue = e :: rest
  ended : (s.crew crew).ended = false
  runs : deckRuns s (s.crew crew).ctx = true

theorem deckRuns_of {s : State} {ctx : Nat} (hctx : s.hasCtx ctx = true)
    (hst : (s.ctx ctx).st = .running ∨ (s.ctx ctx).st = .stopping ∨ (s.ctx ctx).st = .dead) : deckRuns s ctx = true := by
  rw [deckRuns, hctx]
  rcases hst with h | h | h <;> rw [h] <;> rfl

/-- DKXP, which runs in more than one event (R189). -/
def isExport : Instr → Bool
  | .dkxp .. => true
  | _ => false

section
variable {s u : State} {crew : Nat} {e : DkEntry} {rest : List DkEntry} {d : Deck} (h : HeadRuns s crew e rest)
include h

/-- An instruction other than DKXP leaves the queue when it has run. -/
theorem HeadRuns.leaves (hi : isExport e.i = false) (hrun : Redecked crew d u (dkRun s crew e))
    (hu : u.crew crew = s.crew crew) :
    exec (.deckStart crew) s = .next (u.setCrew crew { s.crew crew with deck := { d with queue := rest } }) := by
  refine congrArg Host.Outcome.next ?_
  have hone : ∀ h x a b c y, e.i ≠ .dkxp h x a b c y := fun _ _ _ _ _ _ hx => Bool.false_ne_true (by rw [← hi, hx]; rfl)
  have hqueue : d.queue.tail = rest := by rw [hrun.queue, hu, h.queue]; rfl
  calc deckStart s crew
      = (dkRun s crew e).updCrew crew fun c => { c with deck := { c.deck with queue := c.deck.queue.tail } } := by
        -- by `hone` the match on the head is not at DKXP's arm
        simp only [deckStart, h.queue, h.ended, h.runs, Bool.not_true, Bool.or_self, Bool.false_eq_true, if_false,
          Option.toList_none, List.nil_append]
    _ = u.setCrew crew { s.crew crew with deck := { d with queue := rest } } := by
        simp only [State.updCrew_eq, hrun.crew, hrun.rest, hu, hqueue]

/-- DKXP leaves the queue, or stays at its head with the parts still to write. -/
theorem HeadRuns.exports {h' : Hdr} {x : Opnd} {a : CellOp} {b c y : Opnd} {stay : Option DkEntry} (hi : e.i = .dkxp h' x a b c y)
    (hrun : dkExport s crew e x a = (u, stay)) :
    exec (.deckStart crew) s =
      .next (u.updCrew crew fun c => { c with deck := { c.deck with queue := stay.toList ++ c.deck.queue.tail } }) := by
  refine congrArg Host.Outcome.next ?_
  simp only [deckStart, h.queue, h.ended, h.runs, hi, hrun, Bool.not_true, Bool.or_self, Bool.false_eq_true, if_false]

end

/-- An instruction that acts on the Deck alone. -/
theorem HeadRuns.redecks {s : State} {crew : Nat} {e : DkEntry} {rest : List DkEntry} {d : Deck} (h : HeadRuns s crew e rest)
    (hi : isExport e.i = false) (hrun : dkRun s crew e = setDeck s crew d) (hq : d.queue = (s.crew crew).deck.queue) :
    exec (.deckStart crew) s = .next (s.setCrew crew { s.crew crew with deck := { d with queue := rest } }) :=
  h.leaves hi (hrun ▸ Redecked.setDeck hq) rfl

/-- An instruction with a result, which reaches its slice. -/
theorem HeadRuns.lands {s t : State} {crew : Nat} {e : DkEntry} {rest : List DkEntry} {d : Deck} {ls : List (LandDst × DWord)}
    (h : HeadRuns s crew e rest) (hi : isExport e.i = false) (hid : e.id ≠ 0) (hrun : dkRun s crew e = dkLand t e ls)
    (ht : Redecked crew d s t) :
    exec (.deckStart crew) s = .next ((s.lands e ls).setCrew crew { s.crew crew with deck := { d with queue := rest } }) :=
  h.leaves hi (hrun ▸ ht.lands hid ls) rfl

/-! ### DKXP (R189, R211) -/

/-- The bytes that DKXP exports, the tile's 32 rows of words, with the scalar that it took at issue. -/
def exported (d : Deck) (sc : DWord) (a : CellOp) : List Byte := (List.range 1024).flatMap fun n => natBytes 4 (cellVal d sc n a).toNat

/-- How many bytes the part at an offset of the tile has. -/
def partBytes (base stride : Int) (k : Nat) : Nat := (((dkxpParts base stride).find? fun q => q.1 == k).map Prod.snd).getD 0

section
variable (s : State) (crew : Nat) (e : DkEntry) (x : Opnd) (a : CellOp)

/-- The old signature is the new one: nothing is written, and the result is 1. -/
theorem dkExport_same (hsc : e.sc.length = 6) (hread : anyPoison s (s.crew crew).ctx (e.sc.getD 3 0).toNat 8 = none)
    (hsig : (crc64 (exported (s.crew crew).deck (e.sc.getD 0 0) a)).toNat = curLE s (s.crew crew).ctx (e.sc.getD 3 0).toNat 8) :
    dkExport s crew e x a =
      (dkLand (engRead s (s.crew crew).core (crewClass s crew) (s.crew crew).ctx 0 (e.sc.getD 3 0).toNat 8) e (landReg .u32 x 0 1), none) := by
  have hfresh : e.sc.drop 6 = [] := List.drop_eq_nil_of_le hsc.le
  rw [exported] at hsig
  simp only [dkExport, hfresh, hread, hsig, Option.isSome_none, Bool.false_eq_true, if_false, if_true]

/-- The old signature is another: the rows' requests go out, and the parts and the signature are to be written. -/
theorem dkExport_asks (hsc : e.sc.length = 6) (hread : anyPoison s (s.crew crew).ctx (e.sc.getD 3 0).toNat 8 = none)
    (hsig : (crc64 (exported (s.crew crew).deck (e.sc.getD 0 0) a)).toNat ≠ curLE s (s.crew crew).ctx (e.sc.getD 3 0).toNat 8) :
    dkExport s crew e x a =
      ((List.range 32).foldl (fun u j => engAsk u (s.crew crew).core (crewClass s crew) (s.crew crew).ctx 0
          (dkxpAddr (e.sc.getD 1 0).toNat (e.sc.getD 2 0).toInt (128 * j)) 128)
        (engRead s (s.crew crew).core (crewClass s crew) (s.crew crew).ctx 0 (e.sc.getD 3 0).toNat 8),
       some { e with sc := e.sc ++ ((dkxpParts (e.sc.getD 1 0).toNat (e.sc.getD 2 0).toInt).map fun q => BitVec.ofNat 64 q.1) ++ [4096] }) := by
  have hfresh : e.sc.drop 6 = [] := List.drop_eq_nil_of_le hsc.le
  have hkept : e.sc.take 6 = e.sc := List.take_of_length_le hsc.le
  rw [exported] at hsig
  simp only [dkExport, hfresh, hkept, hread, if_neg hsig, Option.isSome_none, Bool.false_eq_true, if_false]

/-- All parts written, the signature is, and the result is 0. -/
theorem dkExport_signs {j : DWord} (htodo : e.sc.drop 6 = [j]) :
    dkExport s crew e x a =
      (dkLand (engPut s (s.crew crew).core (crewClass s crew) (s.crew crew).ctx 0 (e.sc.getD 3 0).toNat
        (natBytes 8 (crc64 (exported (s.crew crew).deck (e.sc.getD 0 0) a)).toNat)) e (landReg .u32 x 0 0), none) := by
  simp only [dkExport, htodo, exported]

/-- One of the parts left is written, a free choice, and is struck. -/
theorem dkExport_writes {todo : List DWord} (htodo : e.sc.drop 6 = todo) (hmore : 2 ≤ todo.length) (hpart : ∃ j ∈ todo, j ≠ 4096) :
    ∃ j ∈ todo, j ≠ 4096 ∧ dkExport s crew e x a =
      (engWrite s (s.crew crew).core (s.crew crew).ctx 0 (dkxpAddr (e.sc.getD 1 0).toNat (e.sc.getD 2 0).toInt j.toNat)
        (((exported (s.crew crew).deck (e.sc.getD 0 0) a).drop j.toNat).take (partBytes (e.sc.getD 1 0).toNat (e.sc.getD 2 0).toInt j.toNat)),
       some { e with sc := e.sc.take 6 ++ todo.filter fun n => n != j }) := by
  have hparts : 0 < (todo.filter fun j => j != 4096).length := by
    obtain ⟨j, hj, hne⟩ := hpart
    exact List.length_pos_of_mem (List.mem_filter.mpr ⟨hj, bne_iff_ne.mpr hne⟩)
  have hix := Nat.mod_lt (Config.freeNat s.freeIx) hparts
  have hmem := List.mem_filter.mp (List.getElem_mem hix)
  refine ⟨_, hmem.1, bne_iff_ne.mp hmem.2, ?_⟩
  match todo, hmore with
  | p :: q :: todo, _ =>
    simp only [dkExport, htodo, exported, partBytes, List.getD_eq_getElem _ _ hix, BitVec.ofNat_toNat, BitVec.setWidth_eq]

end

/-! ### The instructions -/

/-- Settles O42, instruction by instruction: its effect is the model's, and the queue is left with what follows it, or with the rest of DKXP. -/
theorem deckEffects : Obligations.DeckEffects := by
  unfold Obligations.DeckEffects
  intro s crew ⟨uid, i, sc, sl, id⟩ rest c d k hqueue hended hctx hst
  have h : HeadRuns s crew ⟨uid, i, sc, sl, id⟩ rest := ⟨hqueue, hended, deckRuns_of hctx hst⟩
  refine ⟨?dkwin, ?dklin, ?dkedge, ?dkquad, ?dkexp, ?dkpush, ?dkpop, ?dkelse, ?dkop, ?dkmov, ?dkld, ?dkst, ?dkcmp, ?dkany, ?dksum, ?dkflg, ?dkxp,
    ?dkflag⟩
  case dkwin => rintro g a rfl; exact h.redecks rfl rfl rfl
  case dklin => rintro g r a b z rfl; exact h.redecks rfl rfl (Deck.each_queue _ _ _)
  case dkedge => rintro g a b z rfl; exact h.redecks rfl rfl (Deck.narrow_queue _ _)
  case dkquad => rintro g r a rfl; exact h.redecks rfl rfl (Deck.each_queue _ _ _)
  case dkexp => rintro g r a b rfl; exact h.redecks rfl rfl (Deck.each_queue _ _ _)
  case dkpush => rintro g rfl; exact h.redecks rfl rfl rfl
  case dkpop => rintro g rfl; exact h.redecks rfl rfl rfl
  case dkelse =>
    rintro g t u st rfl hstack
    refine h.redecks rfl ?_ rfl
    show setDeck s crew { d with stack := (d.stack.tail.headD 0 &&& ~~~d.top) :: d.stack.tail } = _
    rw [Deck.top, hstack]
    rfl
  case dkop => rintro g fn t r a b x rfl; exact h.redecks rfl rfl (Deck.each_queue _ _ _)
  case dkmov => rintro g r a rfl; exact h.redecks rfl rfl (Deck.each_queue _ _ _)
  case dkld => rintro g r a rfl; exact h.redecks rfl rfl (Deck.each_queue _ _ _)
  case dkst =>
    rintro g a b rfl
    refine h.leaves rfl (Redecked.self (s := s) ?crews crew) (crew_of_crews ?crews crew)
    rfl
  case dkcmp => rintro g cc t a b rfl; exact h.redecks rfl rfl (Deck.narrow_queue _ _)
  case dkany => rintro g all q a rfl hid r; exact h.lands rfl hid rfl (Redecked.self rfl crew)
  case dksum => rintro g op t x a rfl hid r; exact h.lands rfl hid rfl (Redecked.setDeck rfl)
  case dkflg => rintro g x rfl hid; exact h.lands rfl hid rfl (Redecked.setDeck rfl)
  case dkxp =>
    rintro g x a b z y rfl cls sigAt word sig goes
    refine ⟨fun hsc hread => ⟨fun hsig => ?_, fun hsig => ?_⟩, fun j htodo => ?_, fun todo htodo hmore hpart => ?_⟩
    · exact h.exports rfl (dkExport_same _ _ _ _ _ hsc hread hsig)
    · exact h.exports rfl (dkExport_asks _ _ _ _ _ hsc hread hsig)
    · exact h.exports rfl (dkExport_signs _ _ _ _ _ htodo)
    · obtain ⟨j, hj, hne, hwrites⟩ := dkExport_writes s crew _ x a htodo hmore hpart
      exact ⟨j, hj, hne, h.exports rfl hwrites⟩
  case dkflag => rintro g b rfl; exact h.redecks rfl rfl (Deck.narrow_queue _ _)

end Sys2Proof.Machine
end

section
/-! PROOF. Words of instructions (O1, O2): the fields of a well-formed instruction fit their bits, so its word is read back from its 96 bits. -/

namespace Sys2Proof

/-! ### Words fit 96 bits -/

theorem Fields.toNat_lt {f : Fields} (h : f.fits) : f.toNat < 2 ^ 96 := by
  obtain ⟨h1, h2, h3, h4, h5, h6, h7, h8, h9, h10, h11, h12, h13, h14, h15⟩ := h
  unfold Fields.toNat
  omega

/-- The fields that check 2 of R254 bounds: opcode, function, type, guards, hint and the single bits. -/
def Fields.codesFit (f : Fields) : Prop :=
  f.op < 256 ∧ f.fn < 16 ∧ f.ty < 16 ∧ f.g1 < 16 ∧ f.g2 < 16 ∧ f.ch < 8 ∧ f.w < 2 ∧ f.r < 2 ∧ f.x < 2 ∧ f.z < 4

/-- The operand bytes, which check 4 bounds, and the third word. -/
def Fields.bytesFit (f : Fields) : Prop := f.d < 256 ∧ f.a < 256 ∧ f.b < 256 ∧ f.c < 256 ∧ f.w2 < 2 ^ 32

theorem Fields.fits_of {f : Fields} (hc : f.codesFit) (hb : f.bytesFit) : f.fits := by
  obtain ⟨hop, hfn, hty, hg1, hg2, hch, hw, hr, hx, hz⟩ := hc
  obtain ⟨hd, ha, hb, hc, hw2⟩ := hb
  exact ⟨hop, hfn, hty, hd, ha, hb, hc, hg1, hg2, hch, hw, hr, hx, hz, hw2⟩

theorem eight_b2n_add_lt (b : Bool) {p : Nat} (h : p < 8) : 8 * b2n b + p < 16 := by cases b <;> simp <;> omega
theorem add_eight_b2n_lt (b : Bool) {p : Nat} (h : p < 8) : p + 8 * b2n b < 16 := by cases b <;> simp <;> omega
theorem b2n_add_two_b2n_lt (a b : Bool) : b2n a + 2 * b2n b < 16 := by cases a <;> cases b <;> decide
theorem owner_code_lt (o : Owner) (b : Bool) : o.code + 4 * b2n b < 16 := by cases o <;> cases b <;> decide
theorem space_code_lt (sp : LclSpace) (sz : LclSize) : 4 * sp.code + sz.code < 16 := by cases sp <;> cases sz <;> decide

theorem encodeFields_codes {i : Instr} {f : Fields} (hw : i.formOk = true) (he : encodeFields i = some f) : f.codesFit := by
  cases i
  case vote h op a =>
    cases op <;> cases he <;>
      simp_all [Instr.formOk, Hdr.immIf, Hdr.plain, Hdr.guards, Fields.codesFit, Hdr.fields]
  case dktest h test =>
    cases test <;> cases he <;>
      simp_all [Instr.formOk, Hdr.plain, Hdr.guards, Fields.codesFit, Hdr.fields]
  case spcomp h t n d a b =>
    cases he
    simp only [Instr.formOk, Bool.and_eq_true] at hw
    simp_all [Hdr.immIf, Hdr.plain, Hdr.guards, Fields.codesFit, Hdr.fields, Fields.dab, spcomp_n hw.1]
  all_goals
    simp only [encodeFields, Option.some.injEq, reduceCtorEq] at he
  all_goals
    subst he
    simp only [Instr.formOk, Hdr.immIf, Hdr.immBelow, Hdr.hinted, Hdr.unguarded, Hdr.plain, Hdr.guards, Bool.and_eq_true,
      decide_eq_true_eq, beq_iff_eq] at hw
    simp [Fields.codesFit, Hdr.fields, Fields.dab, Fields.dabc, Fields.da, Fields.ab, Fields.abc, Fields.inA, Fields.inD,
      Fields.withMem, Fields.withMemD, Fields.withE, hw, eight_b2n_add_lt, add_eight_b2n_lt, b2n_add_two_b2n_lt,
      owner_code_lt, space_code_lt] <;> omega

theorem encodeFields_bytes {i : Instr} {f : Fields} (hf : i.formOk = true) (hw : i.operandsOk = true)
    (he : encodeFields i = some f) : f.bytesFit := by
  cases i
  case vote h op a =>
    cases op <;> cases he <;>
      simp_all [Instr.formOk, Instr.operandsOk, PredOp.ok, Opnd.vs, Opnd.ok, numOk_split, Fields.bytesFit, Hdr.fields]
  case dktest h test =>
    cases test <;> cases he <;>
      simp_all [Instr.operandsOk, Fields.bytesFit, Hdr.fields]
  case spcomp h t n d a b =>
    cases he
    simp only [Instr.operandsOk, Bool.and_eq_true, Opnd.src, Opnd.ok, numOk_split] at hw
    simp [Fields.bytesFit, Hdr.fields, Fields.dab, hw, sp_range hw.1.1.1]
  case spexp h t d a b =>
    cases he
    simp only [Instr.operandsOk, Bool.and_eq_true, Opnd.src, Opnd.ok, numOk_split] at hw
    simp [Fields.bytesFit, Hdr.fields, Fields.dab, hw, sp_range hw.1.1.1]
  case psave h q d =>
    cases he
    simp [Fields.bytesFit, Hdr.fields, Fields.inD, psave_range hw]
  case pload h q a =>
    cases he
    simp [Fields.bytesFit, Hdr.fields, Fields.inA, pload_range hw]
  case dkop h fn t d a b c =>
    cases he
    simp only [Instr.operandsOk, Bool.and_eq_true, decide_eq_true_eq] at hw
    simp [Fields.bytesFit, Hdr.fields, hw, dkop_c_any hw.2]
    omega
  case dktex h d a b c e =>
    cases he
    simp only [Instr.operandsOk, Bool.and_eq_true, decide_eq_true_eq, Opnd.sOnly, Opnd.szi, Opnd.ok, numOk_split] at hw
    simp [Fields.bytesFit, Hdr.fields, Fields.withE, hw, dktex_b_any hw.1.1.2]
    omega
  case icmp | fcmp | pmix | lead | ld | st | ldl | stl | atom | red | nmred | cas | prefL2 | prefLlc | preq | cctlWb | cctlEvict | waitmem =>
    cases he
    simp only [Instr.formOk, MemOp.form, PredOp.ok, Bool.and_eq_true, decide_eq_true_eq] at hf
    simp only [Instr.operandsOk, MemOp.operands, PredOp.ok, Opnd.dst, Opnd.src, Opnd.sz, Opnd.sOnly, Opnd.ok, numOk_split,
      Bool.and_eq_true, decide_eq_true_eq] at hw
    simp [Fields.bytesFit, Hdr.fields, Fields.ab, Fields.withMem, Fields.withMemD, Fields.withE, hf, hw]
  all_goals
    simp only [encodeFields, Option.some.injEq, reduceCtorEq] at he
  all_goals
    subst he
    simp only [Instr.operandsOk, Opnd.dst, Opnd.src, Opnd.szi, Opnd.sz, Opnd.si, Opnd.vs, Opnd.sOnly, Opnd.ok, numOk_split,
      Bool.and_eq_true, decide_eq_true_eq, beq_iff_eq] at hw
    simp [Fields.bytesFit, Hdr.fields, Fields.dab, Fields.dabc, Fields.da, Fields.ab, Fields.abc, Fields.inA, Fields.inD,
      Fields.withE, hw] <;> omega

theorem encodeWord_lt {i : Instr} {n : Nat} (hw : WellFormed i = true) (he : encodeWord i = some n) : n < 2 ^ 96 := by
  obtain ⟨f, hf, rfl⟩ := Option.map_eq_some_iff.mp he
  obtain ⟨h1, h2⟩ := Bool.and_eq_true_iff.mp hw
  exact Fields.toNat_lt (Fields.fits_of (encodeFields_codes h1 hf) (encodeFields_bytes h1 h2 hf))

/-! ### Bytes of a word -/

theorem leNat_leBytes {k n : Nat} (h : n < 256 ^ k) : leNat (leBytes k n) = n := by
  induction k generalizing n with
  | zero => simp at h; simp [leBytes, leNat, h]
  | succ k ih =>
    have h1 : n / 256 < 256 ^ k := Nat.div_lt_of_lt_mul (by rwa [Nat.pow_succ, Nat.mul_comm] at h)
    rw [leBytes, leNat, ih h1, BitVec.toNat_ofNat]
    omega

theorem length_leBytes (k n : Nat) : (leBytes k n).length = k := by
  induction k generalizing n with
  | zero => rfl
  | succ k ih => rw [leBytes, List.length_cons, ih]

theorem decodeBytes_leBytes {n : Nat} (h : n < 2 ^ 96) : decodeBytes (leBytes 12 n) = decodeWord n := by
  unfold decodeBytes
  rw [List.take_of_length_le (Nat.le_of_eq (length_leBytes 12 n)), leNat_leBytes (by omega)]

/-! ### Every instruction -/

theorem decodeWord_encodeWord (i : Instr) : Laws.RoundTrip.Statement i := by
  cases i with
  | nop h => exact Laws.RoundTrip.nop h
  | bra h => exact Laws.RoundTrip.bra h
  | braUni h => exact Laws.RoundTrip.braUni h
  | brx h a => exact Laws.RoundTrip.brx h a
  | call h d => exact Laws.RoundTrip.call h d
  | callx h d a => exact Laws.RoundTrip.callx h d a
  | ret h a => exact Laws.RoundTrip.ret h a
  | brace h => exact Laws.RoundTrip.brace h
  | meet h => exact Laws.RoundTrip.meet h
  | exit h => exact Laws.RoundTrip.exit h
  | regang h => exact Laws.RoundTrip.regang h
  | yield h => exact Laws.RoundTrip.yield h
  | sleep h a => exact Laws.RoundTrip.sleep h a
  | trap h => exact Laws.RoundTrip.trap h
  | bpt h => exact Laws.RoundTrip.bpt h
  | rteRetry h => exact Laws.RoundTrip.rteRetry h
  | rteResume h => exact Laws.RoundTrip.rteResume h
  | step h => exact Laws.RoundTrip.step h
  | iadd h sat t d a b => exact Laws.RoundTrip.iadd h sat t d a b
  | isub h sat t d a b => exact Laws.RoundTrip.isub h sat t d a b
  | imul h t d a b => exact Laws.RoundTrip.imul h t d a b
  | imulh h t d a b => exact Laws.RoundTrip.imulh h t d a b
  | imad h acc64 t d a b c => exact Laws.RoundTrip.imad h acc64 t d a b c
  | imin h t d a b => exact Laws.RoundTrip.imin h t d a b
  | imax h t d a b => exact Laws.RoundTrip.imax h t d a b
  | iabs h sat t d a => exact Laws.RoundTrip.iabs h sat t d a
  | iadd3 h t d a b c => exact Laws.RoundTrip.iadd3 h t d a b c
  | iaddc h sub p t d a b => exact Laws.RoundTrip.iaddc h sub p t d a b
  | icmp h cond t pd a b => exact Laws.RoundTrip.icmp h cond t pd a b
  | isel h neg p t d a b => exact Laws.RoundTrip.isel h neg p t d a b
  | lea h n t d a b => exact Laws.RoundTrip.lea h n t d a b
  | isad h t d a b c => exact Laws.RoundTrip.isad h t d a b c
  | idot4 h mix sat t d a b c => exact Laws.RoundTrip.idot4 h mix sat t d a b c
  | and h inv t d a b => exact Laws.RoundTrip.and h inv t d a b
  | or h inv t d a b => exact Laws.RoundTrip.or h inv t d a b
  | xor h inv t d a b => exact Laws.RoundTrip.xor h inv t d a b
  | mix3 h t d a b c => exact Laws.RoundTrip.mix3 h t d a b c
  | shl h wrap t d a b => exact Laws.RoundTrip.shl h wrap t d a b
  | shr h wrap t d a b => exact Laws.RoundTrip.shr h wrap t d a b
  | sar h wrap t d a b => exact Laws.RoundTrip.sar h wrap t d a b
  | rot h right t d a b => exact Laws.RoundTrip.rot h right t d a b
  | fshf h left clamp d a b c => exact Laws.RoundTrip.fshf h left clamp d a b c
  | bfx h t d a b c => exact Laws.RoundTrip.bfx h t d a b c
  | bfi h t d a b c e => exact Laws.RoundTrip.bfi h t d a b c e
  | popc h t d a => exact Laws.RoundTrip.popc h t d a
  | clz h t d a => exact Laws.RoundTrip.clz h t d a
  | brev h t d a => exact Laws.RoundTrip.brev h t d a
  | bsel h d a b c => exact Laws.RoundTrip.bsel h d a b c
  | ffs h hi t d a => exact Laws.RoundTrip.ffs h hi t d a
  | fadd h sat t d a b => exact Laws.RoundTrip.fadd h sat t d a b
  | fsub h sat t d a b => exact Laws.RoundTrip.fsub h sat t d a b
  | fmul h sat t d a b => exact Laws.RoundTrip.fmul h sat t d a b
  | ffma h sat t d a b c => exact Laws.RoundTrip.ffma h sat t d a b c
  | fmin h t d a b => exact Laws.RoundTrip.fmin h t d a b
  | fmax h t d a b => exact Laws.RoundTrip.fmax h t d a b
  | fcmp h cond t pd a b => exact Laws.RoundTrip.fcmp h cond t pd a b
  | fclass h t d a => exact Laws.RoundTrip.fclass h t d a
  | frnd h dir t d a => exact Laws.RoundTrip.frnd h dir t d a
  | fdp2 h t d a b c => exact Laws.RoundTrip.fdp2 h t d a b c
  | fscale h t d a b => exact Laws.RoundTrip.fscale h t d a b
  | fsgn h op t d a b => exact Laws.RoundTrip.fsgn h op t d a b
  | rcp h d a => exact Laws.RoundTrip.rcp h d a
  | rsq h d a => exact Laws.RoundTrip.rsq h d a
  | sqrt h d a => exact Laws.RoundTrip.sqrt h d a
  | exp2 h d a => exact Laws.RoundTrip.exp2 h d a
  | log2 h d a => exact Laws.RoundTrip.log2 h d a
  | sin h d a => exact Laws.RoundTrip.sin h d a
  | cos h d a => exact Laws.RoundTrip.cos h d a
  | tanh h d a => exact Laws.RoundTrip.tanh h d a
  | fcvt h t src d a b => exact Laws.RoundTrip.fcvt h t src d a b
  | i2f h t src d a => exact Laws.RoundTrip.i2f h t src d a
  | f2i h t src d a => exact Laws.RoundTrip.f2i h t src d a
  | cvtn h n d a b => exact Laws.RoundTrip.cvtn h n d a b
  | cvtw h n d a b => exact Laws.RoundTrip.cvtw h n d a b
  | spcomp h t n d a b => exact Laws.RoundTrip.spcomp h t n d a b
  | spexp h t d a b => exact Laws.RoundTrip.spexp h t d a b
  | mov h t d a => exact Laws.RoundTrip.mov h t d a
  | movi h t d => exact Laws.RoundTrip.movi h t d
  | movih h d => exact Laws.RoundTrip.movih h d
  | rdsr h t d => exact Laws.RoundTrip.rdsr h t d
  | wrsr h t a => exact Laws.RoundTrip.wrsr h t a
  | pmix h pd a b c => exact Laws.RoundTrip.pmix h pd a b c
  | psave h q d => exact Laws.RoundTrip.psave h q d
  | pload h q a => exact Laws.RoundTrip.pload h q a
  | flgrd h d => exact Laws.RoundTrip.flgrd h d
  | flgclr h => exact Laws.RoundTrip.flgclr h
  | v2s h t d a b => exact Laws.RoundTrip.v2s h t d a b
  | lxch h mode t d a b => exact Laws.RoundTrip.lxch h mode t d a b
  | vote h op a => exact Laws.RoundTrip.vote h op a
  | redux h op t d a => exact Laws.RoundTrip.redux h op t d a
  | scan h op excl t d a => exact Laws.RoundTrip.scan h op excl t d a
  | matchLanes h same t d a => exact Laws.RoundTrip.matchLanes h same t d a
  | lead h pd a => exact Laws.RoundTrip.lead h pd a
  | ld h m sz d => exact Laws.RoundTrip.ld h m sz d
  | st h m sz d => exact Laws.RoundTrip.st h m sz d
  | ldl h m sp sz sgn d => exact Laws.RoundTrip.ldl h m sp sz sgn d
  | stl h m sp sz d => exact Laws.RoundTrip.stl h m sp sz d
  | atom h m op t d => exact Laws.RoundTrip.atom h m op t d
  | red h m op t d => exact Laws.RoundTrip.red h m op t d
  | cas h m t d e => exact Laws.RoundTrip.cas h m t d e
  | prefL2 h m => exact Laws.RoundTrip.prefL2 h m
  | prefLlc h m => exact Laws.RoundTrip.prefLlc h m
  | preq h m => exact Laws.RoundTrip.preq h m
  | tex h d a b c e => exact Laws.RoundTrip.tex h d a b c e
  | tld h d a b => exact Laws.RoundTrip.tld h d a b
  | tqry h d a => exact Laws.RoundTrip.tqry h d a
  | nmred h m op t d => exact Laws.RoundTrip.nmred h m op t d
  | cctlIinv h => exact Laws.RoundTrip.cctlIinv h
  | cctlWb h m => exact Laws.RoundTrip.cctlWb h m
  | cctlEvict h m => exact Laws.RoundTrip.cctlEvict h m
  | fenceDrain h => exact Laws.RoundTrip.fenceDrain h
  | fenceOrdered h k => exact Laws.RoundTrip.fenceOrdered h k
  | bar h => exact Laws.RoundTrip.bar h
  | arrive h => exact Laws.RoundTrip.arrive h
  | await h => exact Laws.RoundTrip.await h
  | rinit h ring a => exact Laws.RoundTrip.rinit h ring a
  | rpost h ring a => exact Laws.RoundTrip.rpost h ring a
  | rget h ring full a => exact Laws.RoundTrip.rget h ring full a
  | rrel h ring a => exact Laws.RoundTrip.rrel h ring a
  | town h spanSp own a b => exact Laws.RoundTrip.town h spanSp own a b
  | twait h spanSp own a => exact Laws.RoundTrip.twait h spanSp own a
  | cwait h k d a => exact Laws.RoundTrip.cwait h k d a
  | waitmem h m cond t d => exact Laws.RoundTrip.waitmem h m cond t d
  | stmap h a b c => exact Laws.RoundTrip.stmap h a b c
  | stunmap h a => exact Laws.RoundTrip.stunmap h a
  | stwb h a => exact Laws.RoundTrip.stwb h a
  | stinv h a => exact Laws.RoundTrip.stinv h a
  | trst h ch a b => exact Laws.RoundTrip.trst h ch a b
  | trstq h ch d => exact Laws.RoundTrip.trstq h ch d
  | trstk h ch => exact Laws.RoundTrip.trstk h ch
  | mcgrp h d a b => exact Laws.RoundTrip.mcgrp h d a b
  | mloop h a b => exact Laws.RoundTrip.mloop h a b
  | mloopSp h a b => exact Laws.RoundTrip.mloopSp h a b
  | maclrFast h a => exact Laws.RoundTrip.maclrFast h a
  | maclrExact h a b => exact Laws.RoundTrip.maclrExact h a b
  | mard h bf a b => exact Laws.RoundTrip.mard h bf a b
  | mstat h clr d => exact Laws.RoundTrip.mstat h clr d
  | dkwin h a => exact Laws.RoundTrip.dkwin h a
  | dklin h d a b c => exact Laws.RoundTrip.dklin h d a b c
  | dkedge h a b c => exact Laws.RoundTrip.dkedge h a b c
  | dkquad h d a => exact Laws.RoundTrip.dkquad h d a
  | dkexp h d a b => exact Laws.RoundTrip.dkexp h d a b
  | dkpush h => exact Laws.RoundTrip.dkpush h
  | dkpop h => exact Laws.RoundTrip.dkpop h
  | dkelse h => exact Laws.RoundTrip.dkelse h
  | dkop h fn t d a b c => exact Laws.RoundTrip.dkop h fn t d a b c
  | dkmov h d a => exact Laws.RoundTrip.dkmov h d a
  | dkld h d a => exact Laws.RoundTrip.dkld h d a
  | dkst h d a => exact Laws.RoundTrip.dkst h d a
  | dktex h d a b c e => exact Laws.RoundTrip.dktex h d a b c e
  | dkany h all q a => exact Laws.RoundTrip.dkany h all q a
  | dksum h op t d a => exact Laws.RoundTrip.dksum h op t d a
  | dkxp h d a b c e => exact Laws.RoundTrip.dkxp h d a b c e
  | dktest h test => exact Laws.RoundTrip.dktest h test
  | dkflg h d => exact Laws.RoundTrip.dkflg h d
  | ddvar h d a => exact Laws.RoundTrip.ddvar h d a
  | ddapp h lut d a b => exact Laws.RoundTrip.ddapp h lut d a b
  | ddite h d a b c => exact Laws.RoundTrip.ddite h d a b c
  | ddnot h d a => exact Laws.RoundTrip.ddnot h d a
  | ddres h d a b c => exact Laws.RoundTrip.ddres h d a b c
  | ddqnt h all d a b => exact Laws.RoundTrip.ddqnt h all d a b
  | ddcnt h flt d a b c => exact Laws.RoundTrip.ddcnt h flt d a b c
  | ddexp h d a b c => exact Laws.RoundTrip.ddexp h d a b c
  | ddref h a => exact Laws.RoundTrip.ddref h a
  | ddunref h a => exact Laws.RoundTrip.ddunref h a
  | ddswp h => exact Laws.RoundTrip.ddswp h
  | ddord h a => exact Laws.RoundTrip.ddord h a
  | ddstat h d a => exact Laws.RoundTrip.ddstat h d a
  | ddnode h d a => exact Laws.RoundTrip.ddnode h d a
  | pgreg h a b => exact Laws.RoundTrip.pgreg h a b
  | pgregRelease h a => exact Laws.RoundTrip.pgregRelease h a
  | pgdone h => exact Laws.RoundTrip.pgdone h
  | pgfail h a => exact Laws.RoundTrip.pgfail h a
  | pgrstBlk h a => exact Laws.RoundTrip.pgrstBlk h a
  | pgrstSlot h a => exact Laws.RoundTrip.pgrstSlot h a
  | launch h d a => exact Laws.RoundTrip.launch h d a
  | lwait h d a => exact Laws.RoundTrip.lwait h d a
  | migr h d a => exact Laws.RoundTrip.migr h d a
  | shootDg h a b c => exact Laws.RoundTrip.shootDg h a b c
  | shootFlush h a => exact Laws.RoundTrip.shootFlush h a
  | halt h d => exact Laws.RoundTrip.halt h d
  | ctxstopPre h d a => exact Laws.RoundTrip.ctxstopPre h d a
  | ctxstopKill h d a => exact Laws.RoundTrip.ctxstopKill h d a
  | ctxgo h a b => exact Laws.RoundTrip.ctxgo h a b
  | writeFlags h t a => exact Laws.RoundTrip.writeFlags h t a
  | writeDkflags h t a => exact Laws.RoundTrip.writeDkflags h t a
  | writeTrapvec h t a => exact Laws.RoundTrip.writeTrapvec h t a
  | writeTrapRegister h t a => exact Laws.RoundTrip.writeTrapRegister h t a
  | writeFormatRegister h t a => exact Laws.RoundTrip.writeFormatRegister h t a
  | writeTensorScale h t a => exact Laws.RoundTrip.writeTensorScale h t a
  | writeL2wp h t a => exact Laws.RoundTrip.writeL2wp h t a
  | _ => exact fun _ _ h => nomatch h

theorem encodeWord_isSome {i : Instr} (he : Machine.isEvent i = false) (hf : ∀ rd rs1 rs2, i ≠ .fyLaunch rd rs1 rs2) :
    (encodeWord i).isSome = true := by
  cases i with
  | fyLaunch rd rs1 rs2 => exact absurd rfl (hf rd rs1 rs2)
  | _ => simp_all [Machine.isEvent, encodeWord, encodeFields]

theorem decodeTableWord_device {i : Instr} {n : Nat} (hn : n < 2 ^ 96) (hd : decodeWord n = .ok i) : decodeTableWord 96 n = some i := by
  unfold decodeTableWord
  rw [if_neg (by simp), decodeBytes_leBytes hn, hd]

/-! ### FY.LAUNCH -/

theorem encodeOs_lt {rd rs1 rs2 : Nat} (h1 : rd < 32) (h2 : rs1 < 32) (h3 : rs2 < 32) : encodeOs rd rs1 rs2 < 2 ^ 25 := by
  unfold encodeOs
  omega

theorem decodeOs_encodeOs {rd rs1 rs2 : Nat} (h1 : rd < 32) (h2 : rs1 < 32) (h3 : rs2 < 32) :
    decodeOs (encodeOs rd rs1 rs2) = some (.fyLaunch rd rs1 rs2) := by
  have hrd : encodeOs rd rs1 rs2 / 2 ^ 7 % 32 = rd := by unfold encodeOs; omega
  have hrs1 : encodeOs rd rs1 rs2 / 2 ^ 15 % 32 = rs1 := by unfold encodeOs; omega
  have hrs2 : encodeOs rd rs1 rs2 / 2 ^ 20 % 32 = rs2 := by unfold encodeOs; omega
  unfold decodeOs
  rw [if_pos (by unfold encodeOs; omega), hrd, hrs1, hrs2]

/-- Settles O1: the round trip of each constructor, the words' bounds from checks 2 and 4, and FY.LAUNCH's word by its fields. -/
theorem decodeEncode : Obligations.DecodeEncode := by
  refine ⟨fun i n hw he => ?_, fun i he hf => encodeWord_isSome he hf, fun rd rs1 rs2 hw => ?_⟩
  · have hn := encodeWord_lt hw he
    have hd := decodeWord_encodeWord i hw n he
    exact ⟨hn, hd, decodeTableWord_device hn hd, (decodeBytes_leBytes hn).trans hd⟩
  · obtain ⟨⟨h1, h2⟩, h3⟩ : (rd < 32 ∧ rs1 < 32) ∧ rs2 < 32 := by simpa [WellFormed, Instr.formOk, Instr.operandsOk] using hw
    have hd := decodeOs_encodeOs h1 h2 h3
    refine ⟨Nat.lt_trans (encodeOs_lt h1 h2 h3) (by decide), hd, ?_⟩
    unfold decodeTableWord
    rw [if_pos ⟨rfl, by rw [hd]; rfl⟩, hd]

/-- Settles O2, by evaluation of the decoder on each word. -/
theorem decodeWords : Obligations.DecodeWords := by
  unfold Obligations.DecodeWords
  decide

end Sys2Proof
end

section
/-! PROOF. Results in registers and predicates (O12 to O16): each instruction is `regMeaning` of its value, and its destination is scalar only where
its sources are (R135). -/

namespace Sys2Proof.Machine

theorem operandsOk_of_wellFormed {i : Instr} (h : WellFormed i = true) : i.operandsOk = true := (Bool.and_eq_true_iff.mp h).2

/-! ### Check 4 keeps vector sources from a scalar destination -/

theorem scalarDst_of_intResult {i : Instr} {r : Result} (h : IntResult i r) (hw : i.operandsOk = true) : scalarDst r.dst r.srcs = true := by
  cases h <;> simp only [Instr.operandsOk, Bool.and_eq_true] at hw <;> exact hw.2

theorem scalarDst_of_bitResult {i : Instr} {r : Result} (h : BitResult i r) (hw : i.operandsOk = true) : scalarDst r.dst r.srcs = true := by
  cases h
  case mix3 h t d a b c =>
    simp only [Instr.operandsOk, Bool.and_eq_true] at hw
    exact hw.1.1.1.2
  all_goals
    simp only [Instr.operandsOk, Bool.and_eq_true] at hw
    exact hw.2

theorem scalarDst_of_floatResult {i : Instr} {r : Result} (h : FloatResult i r) (hw : i.operandsOk = true) : scalarDst r.dst r.srcs = true := by
  cases h <;> simp only [Instr.operandsOk, Bool.and_eq_true] at hw <;> exact hw.2

theorem scalarDst_nil (d : Opnd) : scalarDst d [] = true := by simp [scalarDst]

theorem scalarDst_of_moveResult {i : Instr} {r : Result} (h : MoveResult i r) (hw : i.operandsOk = true) : scalarDst r.dst r.srcs = true := by
  cases h
  case movi h t d => exact scalarDst_nil d
  all_goals
    simp only [Instr.operandsOk, Bool.and_eq_true] at hw
    exact hw.2

/-! ### Each instruction writes its result -/

section
variable {i : Instr} {r : Result} {s : State} (hw : WellFormed i = true) (hu : s.unitIn) (hr : r.fits s)
include hw hu hr

theorem IntResult.holds (h : IntResult i r) : r.Holds i s := by
  have hd := scalarDst_of_intResult h (operandsOk_of_wellFormed hw)
  cases h <;> exact Result.holds rfl (fun _ _ _ _ => wr_eq_wrFl _ _ _ _ _) (fun _ _ _ => rfl) hd hu hr

theorem BitResult.holds (h : BitResult i r) : r.Holds i s := by
  have hd := scalarDst_of_bitResult h (operandsOk_of_wellFormed hw)
  cases h <;> exact Result.holds rfl (fun _ _ _ _ => wr_eq_wrFl _ _ _ _ _) (fun _ _ _ => rfl) hd hu hr

theorem FloatResult.holds (h : FloatResult i r) : r.Holds i s := by
  have hd := scalarDst_of_floatResult h (operandsOk_of_wellFormed hw)
  cases h
  case fmin | fmax | fclass | frnd | fsgn => exact Result.holds rfl (fun _ _ _ _ => wr_eq_wrFl _ _ _ _ _) (fun _ _ _ => rfl) hd hu hr
  all_goals exact Result.holds rfl (fun _ _ _ _ => rfl) (fun _ _ _ => rfl) hd hu hr

theorem MoveResult.holds (h : MoveResult i r) : r.Holds i s := by
  have hd := scalarDst_of_moveResult h (operandsOk_of_wellFormed hw)
  cases h
  case mov | movi => exact Result.holds rfl (fun _ _ _ _ => wr_eq_wrFl _ _ _ _ _) (fun _ _ _ => rfl) hd hu hr
  case fcvt => exact Result.holds rfl (fun _ _ _ _ => rfl) (fun _ _ _ => rfl) hd hu hr
  case i2f h t src d a => cases src <;> exact Result.holds rfl (fun _ _ _ _ => rfl) (fun _ _ _ => rfl) hd hu hr
  case f2i h t src d a => cases src <;> exact Result.holds rfl (fun _ _ _ _ => rfl) (fun _ _ _ => rfl) hd hu hr

end

/-! ### Predicates -/

/-- A q-predicate takes no vector source and no p-predicate (check 4). -/
theorem PredForm.vec_eq {i : Instr} {r : PredResult} (h : PredForm i r) (hw : i.operandsOk = true) : r.vec = !r.pd.q := by
  cases h <;> simp only [Instr.operandsOk, Bool.and_eq_true] at hw <;> obtain ⟨-, hq⟩ := hw <;> revert hq <;> dsimp only
  case icmp h cond t pd a b => cases pd.q <;> cases a.isVec <;> cases b.isVec <;> simp
  case fcmp h cond t pd a b => cases pd.q <;> cases a.isVec <;> cases b.isVec <;> simp
  case pmix h pd a b c => cases pd.q <;> cases a.q <;> cases b.q <;> cases c.q <;> simp

theorem PredForm.holds {i : Instr} {r : PredResult} {s : State} (h : PredForm i r) (hw : WellFormed i = true) (hu : s.unitIn)
    (hr : ∀ j ∈ s.cur, regsOk (s.crewOf j) r.regs = true) : r.Holds i s := by
  have hv := h.vec_eq (operandsOk_of_wellFormed hw)
  cases h <;> exact PredResult.holds rfl (fun _ _ _ _ => rfl) (fun _ _ _ => rfl) hv hu hr

/-! ### The obligations -/

/-- Settles O12: each integer instruction is `regMeaning` of its value. -/
theorem integerResults : Obligations.IntegerResults := fun _ _ _ h hw hu hr => h.holds hw hu hr

/-- Settles O13: each logic or bit instruction is `regMeaning` of its value. -/
theorem bitResults : Obligations.BitResults := fun _ _ _ h hw hu hr => h.holds hw hu hr

/-- Settles O14: each float instruction is `regMeaning` of its value and its flags. -/
theorem floatResults : Obligations.FloatResults := fun _ _ _ h hw hu hr => h.holds hw hu hr

/-- Settles O15: each conversion or move is `regMeaning` of its value and its flags. -/
theorem moveResults : Obligations.MoveResults := fun _ _ _ h hw hu hr => h.holds hw hu hr

/-- Settles O16: each comparison and PMIX is `regMeaning` of its predicate. -/
theorem predicateResults : Obligations.PredicateResults := fun _ _ _ h hw hu hr => h.holds hw hu hr

end Sys2Proof.Machine
end

section
/-! PROOF. Effects of an instruction on its own slice (O8, O17): `completes_reg` for those that only compute on registers, `completes_own` for
those with checks of their own. -/

namespace Sys2Proof.Machine

/-- Where CVTN's or CVTW's format register holds a format and the range fits, its checks pass (R254, R290). -/
theorem chkCvt_none {n : Nat} {range : Opnd} {rs : List (Opnd × Nat)} {s : State} {i : Nat} {f : Fmt} (hf : fmtOfReg (fRegNow s i n) = some f)
    (hs : range.sRange (containerCount (fRegNow s i n)) = true)
    (hr : regsOk (s.crewOf i) ((range, containerCount (fRegNow s i n)) :: rs) = true) : chkCvt n range rs s i = none := by
  simp [chkCvt, hf, hs, hr]

/-- An instruction with checks of its own whose effect in a slice is a function of that slice, and that goes on at the next PC. -/
theorem completes_ran {i : Instr} {h : Hdr} {chk : State → Nat → Option Nat} {lanes : Slice → BitVec 4} {occ : Nat}
    {g : State → Nat → BitVec 4 → Slice → Slice} {s : State} {f : Nat → Slice → Slice}
    (hx : exec i s = runUnit h ⟨chk, lanes, noPre, fun p u k l => u.updSl k (g p k l), false, occ⟩ s) (hu : s.unitIn)
    (hc : ∀ j ∈ s.cur, chk s j = none)
    (hf : ∀ j ∈ s.cur, f j (s.sl j) = ran (lanes (s.sl j)) (g s j (lanes (s.sl j))) (s.sl j)) : Completes i h f s :=
  completes_own (g := g) hx (fun _ _ _ _ => rfl) hu hc (fun _ _ _ => rfl) hf

/-- Where SPCOMP's format register is of a byte class, its checks pass (R292). -/
theorem chkSpcomp_none {t : Ty} {n : Nat} {rs : List (Opnd × Nat)} {s : State} {i : Nat} (hr : regsOk (s.crewOf i) rs = true)
    (hf : t = .u8x4 → (∃ f, fmtOfReg (fRegNow s i n) = some f) ∧ nibbleClass (fRegNow s i n) = false) :
    (match chkRegs rs s i with
      | some e => some e
      | none => if t != .u8x4 then none
        else if (fmtOfReg (fRegNow s i n)).isNone || nibbleClass (fRegNow s i n) then some cFormat else none) = none := by
  rw [chkRegs_none hr]
  dsimp only
  split
  · rfl
  · rename_i ht
    obtain ⟨⟨f, h1⟩, h2⟩ := hf (by simpa using ht)
    simp [h1, h2]

/-- MOVIH to zero writes nothing. -/
theorem ran_nothing (m : BitVec 4) (vec : Bool) (x : Slice) : ran m (fun y => eachLane vec m y fun _ z => z) x = (atIssue x).next := by
  have he : eachLane vec m (atIssue x) (fun _ z => z) = atIssue x := List.foldl_fixed ..
  unfold ran
  split
  · rfl
  · exact congrArg Slice.next he

/-- The lanes that a once-per-slice instruction is shown are the active ones (R135). -/
theorem ran_perSlice {h : Hdr} {x : Slice} (e : BitVec 4 → Slice → Slice) :
    ran (perSlice h x) (fun y => e y.active y) x = ran (perSlice h x) (e (perSlice h x)) x := by
  unfold ran perSlice
  by_cases hq : Hdr.qGuard h x = true
  · rw [if_pos hq]
    rfl
  · rw [if_neg hq]
    rfl

/-- Settles O17: each instruction's checks pass under its hypotheses, and its effect is the model's own. -/
theorem sliceEffects : Obligations.SliceEffects := by
  refine ⟨fun s hu => ⟨?iaddc, ?psave, ?pload, ?movihV, ?movihS, ?movihZ, ?v2s, ?flgrd, ?flgclr, ?spexp, ?rdsr⟩, fun s hu => ⟨?cvtn, ?cvtw, ?spcomp⟩⟩
  case iaddc => exact fun h sub p t d a b hr => completes_reg rfl hu hr fun j hj => rfl
  case psave => exact fun h q d hr => completes_reg rfl hu hr fun j hj => rfl
  case pload => exact fun h q a hr => completes_reg rfl hu hr fun j hj => rfl
  case movihV => exact fun h n hr => completes_reg rfl hu hr fun j hj => rfl
  case movihS => exact fun h n => completes_reg rfl hu (fun _ _ => rfl) fun j hj => rfl
  case movihZ => exact fun h => completes_reg rfl hu (fun _ _ => rfl) fun j hj => (ran_nothing _ _ _).symm
  case spexp => exact fun h t d a b hr => completes_reg rfl hu hr fun j hj => rfl
  case v2s =>
    intro h t d a b hr
    refine completes_ran rfl hu (fun j hj => chkRegs_none (hr j hj)) ?_
    exact fun _ _ => rfl
  case flgrd =>
    intro h d hr
    refine completes_ran rfl hu (fun j hj => chkRegs_none (hr j hj)) ?_
    exact fun j hj => ran_perSlice fun m y => (lanesOf m).foldl (fun z l => wr .u32 d l (y.flags.setWidth 64) z) y
  case flgclr =>
    intro h
    refine completes_ran rfl hu (fun j hj => rfl) ?_
    exact fun _ _ => rfl
  case rdsr =>
    intro h t d hr
    refine completes_ran rfl hu (fun j hj => chkRegs_none (hr j hj)) ?_
    exact fun _ _ => rfl
  case cvtn =>
    intro h n d a b hr
    refine completes_ran rfl hu (fun j hj => ?_) ?_
    · obtain ⟨f, hf, hs, hk⟩ := hr j hj
      exact chkCvt_none hf hs hk
    · exact fun _ _ => rfl
  case cvtw =>
    intro h n d a b hr
    refine completes_ran rfl hu (fun j hj => ?_) ?_
    · obtain ⟨f, hf, hs, hk⟩ := hr j hj
      exact chkCvt_none hf hs hk
    · exact fun _ _ => rfl
  case spcomp =>
    intro h t n d a b hr
    refine completes_ran rfl hu (fun j hj => chkSpcomp_none (hr j hj).1 (hr j hj).2) ?_
    exact fun _ _ => rfl

end Sys2Proof.Machine
end

section
/-! PROOF. IADDC's sum and carry (O8). -/

namespace Sys2Proof.Machine

/-- The sum and the carry of IADDC at width n (R275). -/
theorem aluAddc_eq (t : Ty) (sub cin : Bool) (a b : DWord) :
    let n := tyWidth t
    let v := b.toNat % 2 ^ n
    let r := a.toNat % 2 ^ n + (if sub then 2 ^ n - 1 - v else v) + (if cin then 1 else 0)
    aluAddc t sub cin a b = (BitVec.ofNat 64 (r % 2 ^ n), r / 2 ^ n % 2 == 1) := by
  intro n v r
  have hp : 0 < 2 ^ n := Nat.two_pow_pos n
  have hu : a.toNat % 2 ^ n < 2 ^ n := Nat.mod_lt _ hp
  have hv : v < 2 ^ n := Nat.mod_lt _ hp
  have hr : r < 2 * 2 ^ n := by
    show a.toNat % 2 ^ n + (if sub then 2 ^ n - 1 - v else v) + (if cin then 1 else 0) < 2 * 2 ^ n
    split <;> split <;> omega
  have hc : decide (2 ^ n ≤ r) = (r / 2 ^ n % 2 == 1) := by
    by_cases h : 2 ^ n ≤ r
    · have hd : r / 2 ^ n = 1 := Nat.div_eq_of_lt_le (by omega) (by omega)
      simp [h, hd]
    · simp [h, Nat.div_eq_of_lt (Nat.lt_of_not_le h)]
  show (BitVec.ofNat 64 (r % 2 ^ n), decide (2 ^ n ≤ r)) = _
  rw [hc]

/-- Index 7 reads true (R133). -/
theorem rdPred_seven (q : Bool) (l : Nat) (x : Slice) : rdPred ⟨q, 7⟩ l x = true := by cases q <;> rfl

/-- A write to index 7 is discarded (R133). -/
theorem wrPred_seven (q : Bool) (l : Nat) (b : Bool) (x : Slice) : wrPred ⟨q, 7⟩ l b x = x := by cases q <;> rfl

theorem rdPred_cases (vec : Bool) (p l : Nat) (x : Slice) : rdPred ⟨!vec, p⟩ l x =
    if vec then (if p = 7 then true else x.pbit l p) else (if p = 7 then true else x.qbit p) := by
  by_cases hp : p = 7
  · subst hp
    rw [rdPred_seven]
    simp
  · cases vec <;> simp [hp, rdPred]

theorem wrPred_cases (vec : Bool) (p l : Nat) (b : Bool) (x : Slice) : wrPred ⟨!vec, p⟩ l b x =
    if p = 7 then x else if vec then x.setP l p b else x.setQ p b := by
  by_cases hp : p = 7
  · subst hp
    rw [wrPred_seven, if_pos rfl]
  · cases vec <;> simp [hp, wrPred]

/-- Settles O8: IADDC's effect (O17) with its sum and carry written out. -/
theorem carryAdd : Obligations.CarryAdd := by
  refine ⟨fun s h sub p t d a b ht hu hr => ?_, by decide, by decide, fun h sub p t d a b => by cases sub <;> rfl⟩
  have hn : (if t = .u64 then 64 else 32) = tyWidth t := by rcases ht with rfl | rfl <;> rfl
  have hc := (sliceEffects.1 s hu).1 h sub p t d a b hr
  simp only [aluAddc_eq, rdPred_cases, wrPred_cases] at hc
  dsimp only
  rw [hn]
  exact hc

end Sys2Proof.Machine
end

section
/-! PROOF. FSHF and BFX into a scalar register (O9, O10). Check 4 of R254 keeps a vector source from a scalar destination (R135); the statements on
FSHF, BFX and BFI do not ask it of their operands, and `Result.Wrote` reads a scalar result off lane 0. -/

namespace Sys2Proof.Machine

/-- A slice whose only active lane is lane 3, where v0 holds 1. -/
def laneThree : State :=
  { State.reset with
    slices := [(0, { Slice.init 0 0 .vec 0 with v := [(3, 1)], active := 8 })]
    crews := [(0, { Crew.none with regs := 192 })]
    cur := [0] }

theorem laneThree_unitIn : laneThree.unitIn := by unfold State.unitIn; decide

def alwaysHdr (imm : Word) : Hdr := ⟨Guard.always, Guard.always, 0, false, false, imm⟩

/-- Scalar register 0 of slice 0 after an instruction. -/
def scalarAfter (o : Out) : DWord := match o with
  | .next t => (t.sl 0).sreg 0
  | _ => 0

/-- A result of the vector operand v0 in s0 stays where it was in a slice whose lane 0 does not execute, if it is a `Result`. -/
theorem scalarAfter_laneThree {r : Result} {i : Instr} (h : r.Holds i laneThree) (hd : r.dst = .s 0)
    (hv : vecMode r.dst r.srcs = true) {imm : Word} (hg : r.hdr = alwaysHdr imm) : scalarAfter (exec i laneThree) = 0 := by
  have hl : perLane (alwaysHdr imm) (laneThree.sl 0) = 8 := rfl
  have hr : r.runs (laneThree.sl 0) 0 = false := by
    simp [Result.runs, Result.lanes, hv, lanesFor, hg, hl]
  obtain ⟨t, ht, -, hw⟩ := h
  have hs := (hw 0 (by decide)).sregs 0
  rw [hd, hr] at hs
  rw [ht]
  exact hs

/-- Refutes O9: FSHF.r of v0 into s0, which check 4 refuses and the statement does not, writes lane 3's value where only lane 3 executes, while
`Result.Wrote` leaves s0 alone there. -/
theorem not_funnelShift : ¬ Obligations.FunnelShift := by
  intro h
  have hh := h.1 laneThree (alwaysHdr 0) false false (.s 0) (.v 0) .zero .zero laneThree_unitIn (by decide)
  exact absurd (scalarAfter_laneThree hh rfl rfl rfl) (by decide)

/-- Refutes O10: BFX of the low 32 bits of v0 into s0, which check 4 refuses and the statement does not, writes lane 3's value where only lane 3
executes, while `Result.Wrote` leaves s0 alone there. -/
theorem not_fieldBits : ¬ Obligations.FieldBits := by
  intro h
  obtain ⟨val, hh, -⟩ := (h.1 laneThree (alwaysHdr 32) .u32 (.s 0) (.v 0) .zero .imm .zero (.inl rfl)
    laneThree_unitIn).1 (by decide)
  exact absurd (scalarAfter_laneThree hh rfl rfl rfl) (by decide)

end Sys2Proof.Machine
end

section
/-! PROOF. Results of the logic, shift, rotate and count instructions bit by bit (O11). -/

namespace Sys2Proof.Machine

/-! ### The low bits of a value -/

theorem testBit_low (a : DWord) (n k : Nat) : (a.toNat % 2 ^ n).testBit k = (decide (k < n) && a.getLsbD k) := Nat.testBit_mod_two_pow ..

theorem getLsbD_ofNat64 {m n k : Nat} (hn : n ≤ 64) (hk : k < n) : (BitVec.ofNat 64 m).getLsbD k = m.testBit k := by
  rw [BitVec.getLsbD_ofNat, decide_eq_true (Nat.lt_of_lt_of_le hk hn), Bool.true_and]

theorem tyWidth_le (t : Ty) : tyWidth t ≤ 64 := by cases t <;> decide

theorem tyWidth_pos (t : Ty) : 0 < tyWidth t := by cases t <;> decide

theorem getLsbD_fitTy (t : Ty) (x : DWord) (k : Nat) : (fitTy t x).getLsbD k = (decide (k < tyWidth t) && x.getLsbD k) := by
  have hw := tyWidth_le t
  unfold fitTy
  rw [BitVec.getLsbD_ofNat, testBit_low, ← Bool.and_assoc]
  congr 1
  by_cases hk : k < tyWidth t
  · simp [hk, Nat.lt_of_lt_of_le hk hw]
  · simp [hk]

theorem bitAt_eq (x k : Nat) : bitAt x k = (x.testBit k).toNat := by
  rw [Nat.toNat_testBit]
  rfl

section
variable {t : Ty} {k : Nat} (hk : k < tyWidth t)
include hk

theorem getLsbD_fitTy_lt (x : DWord) : (fitTy t x).getLsbD k = x.getLsbD k := by
  rw [getLsbD_fitTy, decide_eq_true hk, Bool.true_and]

/-! ### Logic -/

theorem getLsbD_inverted (inv : Bool) (b : DWord) : (if inv then ~~~b else b).getLsbD k = (b.getLsbD k != inv) := by
  have h64 := Nat.lt_of_lt_of_le hk (tyWidth_le t)
  cases inv <;> simp [h64]

theorem getLsbD_aluAnd (inv : Bool) (a b : DWord) : (aluAnd inv t a b).getLsbD k = (a.getLsbD k && (b.getLsbD k != inv)) := by
  rw [aluAnd, getLsbD_fitTy_lt hk, BitVec.getLsbD_and, getLsbD_inverted hk]

theorem getLsbD_aluOr (inv : Bool) (a b : DWord) : (aluOr inv t a b).getLsbD k = (a.getLsbD k || (b.getLsbD k != inv)) := by
  rw [aluOr, getLsbD_fitTy_lt hk, BitVec.getLsbD_or, getLsbD_inverted hk]

theorem getLsbD_aluXor (inv : Bool) (a b : DWord) : (aluXor inv t a b).getLsbD k = (a.getLsbD k ^^ (b.getLsbD k != inv)) := by
  rw [aluXor, getLsbD_fitTy_lt hk, BitVec.getLsbD_xor, getLsbD_inverted hk]

end

section
variable {t : Ty} {k : Nat}

/-- One minterm of MIX3: `a`, `b` and `c`, each as it stands where its bit of the index is 1, else inverted. -/
def mix3Term (tbl : Nat) (a b c : DWord) (m : Nat) : DWord :=
  if tbl / 2 ^ m % 2 = 1 then
    (if m % 2 = 1 then a else ~~~a) &&& (if m / 2 % 2 = 1 then b else ~~~b) &&& (if m / 4 % 2 = 1 then c else ~~~c)
  else 0

theorem aluMix3_eq (tbl : Nat) (a b c : DWord) :
    aluMix3 t tbl a b c = fitTy t ((List.range 8).foldl (fun x m => x ||| mix3Term tbl a b c m) 0) := rfl

theorem getLsbD_foldl_or (f : Nat → DWord) (ms : List Nat) (x : DWord) :
    (ms.foldl (fun x m => x ||| f m) x).getLsbD k = (x.getLsbD k || ms.any fun m => (f m).getLsbD k) := by
  induction ms generalizing x with
  | nil => simp
  | cons m ms ih => simp [ih, Bool.or_assoc]

variable (hk : k < tyWidth t)
include hk

theorem getLsbD_mix3Term (tbl m : Nat) (a b c : DWord) : (mix3Term tbl a b c m).getLsbD k =
    (tbl.testBit m && (a.getLsbD k == decide (m % 2 = 1)) && (b.getLsbD k == decide (m / 2 % 2 = 1)) &&
      (c.getLsbD k == decide (m / 4 % 2 = 1))) := by
  have h64 := Nat.lt_of_lt_of_le hk (tyWidth_le t)
  have pick : ∀ (p : Prop) [Decidable p] (x : DWord), (if p then x else ~~~x).getLsbD k = (x.getLsbD k == decide p) := by
    intro p _ x
    by_cases hp : p <;> simp [hp, h64]
  unfold mix3Term
  by_cases ht : tbl / 2 ^ m % 2 = 1
  · rw [if_pos ht, BitVec.getLsbD_and, BitVec.getLsbD_and, pick, pick, pick, Nat.testBit_eq_decide_div_mod_eq, decide_eq_true ht, Bool.true_and]
  · rw [if_neg ht, Nat.testBit_eq_decide_div_mod_eq, decide_eq_false ht]
    simp

/-- Of the eight minterms, exactly the one at the operands' bits holds. -/
theorem getLsbD_aluMix3 (tbl : Nat) (a b c : DWord) : (aluMix3 t tbl a b c).getLsbD k =
    tbl.testBit (4 * (c.getLsbD k).toNat + 2 * (b.getLsbD k).toNat + (a.getLsbD k).toNat) := by
  rw [aluMix3_eq, getLsbD_fitTy_lt hk, getLsbD_foldl_or]
  simp only [getLsbD_mix3Term hk, show List.range 8 = [0, 1, 2, 3, 4, 5, 6, 7] from rfl]
  cases a.getLsbD k <;> cases b.getLsbD k <;> cases c.getLsbD k <;> simp

end

/-! ### Shifts and rotates -/

/-- The count that the words give: modulo the width with .wrap, else as it stands. -/
def countOf (wrap : Bool) (t : Ty) (b : DWord) : Nat := if wrap then b.toNat % 2 ^ 32 % tyWidth t else b.toNat % 2 ^ 32

theorem shiftCount_eq (wrap : Bool) (t : Ty) (b : DWord) :
    shiftCount wrap (tyWidth t) (b.toNat % 2 ^ 32) = min (countOf wrap t b) (tyWidth t) := by
  cases wrap with
  | false => rfl
  | true => exact (Nat.min_eq_left (Nat.le_of_lt (Nat.mod_lt _ (tyWidth_pos t)))).symm

section
variable {t : Ty} {k : Nat}

theorem getLsbD_aluShl (hk : k < tyWidth t) (wrap : Bool) (a b : DWord) :
    (aluShl wrap t a b).getLsbD k = (decide (countOf wrap t b ≤ k) && a.getLsbD (k - countOf wrap t b)) := by
  have h64 := Nat.lt_of_lt_of_le hk (tyWidth_le t)
  rw [aluShl, shiftCount_eq, getLsbD_fitTy_lt hk, BitVec.getLsbD_shiftLeft, decide_eq_true h64, Bool.true_and]
  generalize countOf wrap t b = cnt
  by_cases h : cnt ≤ k
  · rw [Nat.min_eq_left (by omega), decide_eq_true h, decide_eq_false (by omega)]
    rfl
  · rw [decide_eq_true (by omega : k < min cnt (tyWidth t)), decide_eq_false h]
    rfl

theorem getLsbD_aluShr (wrap : Bool) (a b : DWord) :
    (aluShr wrap t a b).getLsbD k = (decide (k + countOf wrap t b < tyWidth t) && a.getLsbD (k + countOf wrap t b)) := by
  rw [aluShr, shiftCount_eq, BitVec.getLsbD_ushiftRight, getLsbD_fitTy]
  generalize countOf wrap t b = cnt
  by_cases h : k + cnt < tyWidth t
  · rw [Nat.min_eq_left (by omega), Nat.add_comm]
  · rw [decide_eq_false (by omega : ¬ min cnt (tyWidth t) + k < tyWidth t), decide_eq_false h]
    rfl

theorem sInt_eq_toInt {n : Nat} (hn : 0 < n) (x : Nat) : sInt n x = (BitVec.ofNat n x).toInt := by
  rw [BitVec.toInt_eq_toNat_cond, BitVec.toNat_ofNat]
  unfold sInt
  have h2 : 2 ^ n = 2 * 2 ^ (n - 1) := by rw [← Nat.pow_succ']; congr 1; omega
  by_cases h : x % 2 ^ n < 2 ^ (n - 1)
  · rw [if_pos h, if_pos (by omega)]
  · rw [if_neg h, if_neg (by omega)]
    simp

theorem wrapInt_eq_toNat (n : Nat) (x : Int) : wrapInt n x = (BitVec.ofInt n x).toNat := by
  rw [BitVec.toNat_ofInt]
  simp [wrapInt]

/-- SAR is the library's arithmetic shift at the type's width. -/
theorem aluSar_eq (wrap : Bool) (a b : DWord) : aluSar wrap t a b =
    BitVec.ofNat 64 ((BitVec.ofNat (tyWidth t) a.toNat).sshiftRight (min (countOf wrap t b) (tyWidth t))).toNat := by
  unfold aluSar
  simp only [shiftCount_eq, sInt_eq_toInt (tyWidth_pos t), wrapInt_eq_toNat]
  rw [BitVec.sshiftRight, Int.shiftRight_eq_div_pow]
  simp

theorem getLsbD_aluSar (hk : k < tyWidth t) (wrap : Bool) (a b : DWord) : (aluSar wrap t a b).getLsbD k =
    a.getLsbD (if k + countOf wrap t b < tyWidth t then k + countOf wrap t b else tyWidth t - 1) := by
  have hw := tyWidth_le t
  rw [aluSar_eq, getLsbD_ofNat64 hw hk, BitVec.testBit_toNat, BitVec.getLsbD_sshiftRight]
  generalize countOf wrap t b = cnt
  have hlow : ∀ m, m < tyWidth t → (BitVec.ofNat (tyWidth t) a.toNat).getLsbD m = a.getLsbD m := by
    intro m hm
    rw [BitVec.getLsbD_ofNat, decide_eq_true hm, Bool.true_and, BitVec.testBit_toNat]
  rw [decide_eq_false (by omega), Bool.not_false, Bool.true_and]
  by_cases h : k + cnt < tyWidth t
  · rw [if_pos (by omega), if_pos h, Nat.min_eq_left (by omega), Nat.add_comm, hlow _ h]
  · rw [if_neg (by omega), if_neg h, BitVec.msb_eq_getLsbD_last, hlow _ (by omega)]

/-- Bit k of the low n bits turned left by l places. -/
theorem testBit_turn {x n l k : Nat} (hx : x < 2 ^ n) (hl : l < n) (hk : k < n) :
    ((x * 2 ^ l + x / 2 ^ (n - l)) % 2 ^ n).testBit k = x.testBit ((k + (n - l)) % n) := by
  have hlt : x / 2 ^ (n - l) < 2 ^ l := by
    rw [Nat.div_lt_iff_lt_mul (Nat.two_pow_pos _), ← Nat.pow_add]
    rwa [show l + (n - l) = n by omega]
  rw [Nat.testBit_mod_two_pow, decide_eq_true hk, Bool.true_and, Nat.mul_comm, Nat.testBit_two_pow_mul_add _ hlt]
  by_cases h : k < l
  · rw [if_pos h, Nat.testBit_div_two_pow, Nat.mod_eq_of_lt (by omega)]
  · rw [if_neg h, show k + (n - l) = k - l + n by omega, Nat.add_mod_right, Nat.mod_eq_of_lt (by omega)]

theorem testBit_lowBits (a : DWord) {n m : Nat} (hm : m < n) : (a.toNat % 2 ^ n).testBit m = a.getLsbD m := by
  rw [testBit_low, decide_eq_true hm, Bool.true_and]

theorem getLsbD_aluRot (hk : k < tyWidth t) (right : Bool) (a b : DWord) : (aluRot right t a b).getLsbD k =
    a.getLsbD (if right then (k + b.toNat % 2 ^ 32) % tyWidth t else (k + tyWidth t - b.toNat % 2 ^ 32 % tyWidth t) % tyWidth t) := by
  unfold aluRot
  generalize b.toNat % 2 ^ 32 = cnt
  have hpos := tyWidth_pos t
  have hc := Nat.mod_lt cnt hpos
  have hx : a.toNat % 2 ^ tyWidth t < 2 ^ tyWidth t := Nat.mod_lt _ (Nat.two_pow_pos _)
  simp only
  rw [getLsbD_ofNat64 (tyWidth_le t) hk, testBit_turn hx _ hk, testBit_lowBits _ (Nat.mod_lt _ hpos)]
  · cases right with
    | false =>
      simp only [Bool.false_eq_true, if_false]
      congr 2
      omega
    | true =>
      simp only [if_true]
      congr 1
      by_cases h0 : cnt % tyWidth t = 0
      · rw [h0, Nat.sub_zero, Nat.mod_self, Nat.sub_zero, Nat.add_mod k cnt, h0, Nat.add_mod_right, Nat.add_zero, Nat.mod_mod]
      · rw [Nat.mod_eq_of_lt (by omega : tyWidth t - cnt % tyWidth t < tyWidth t), Nat.add_mod k cnt,
          Nat.mod_eq_of_lt hk, show tyWidth t - (tyWidth t - cnt % tyWidth t) = cnt % tyWidth t by omega]
  · cases right with
    | false => exact hc
    | true => exact Nat.mod_lt _ hpos

/-! ### Counts -/

theorem testBit_joinEls (f : Nat → Bool) (n s k : Nat) :
    (joinEls 1 ((List.range' s n).map fun i => (f i).toNat)).testBit k = (decide (k < n) && f (s + k)) := by
  induction n generalizing s k with
  | zero => simp [joinEls]
  | succ n ih =>
    have hb : (f s).toNat % 2 = (f s).toNat := Nat.mod_eq_of_lt (Bool.toNat_lt _)
    rw [List.range'_succ, List.map_cons, joinEls, Nat.pow_one, hb, Nat.add_comm]
    cases k with
    | zero => cases f s <;> simp [Nat.testBit_zero, Nat.add_mod]
    | succ k =>
      rw [Nat.testBit_succ, show (2 * joinEls 1 ((List.range' (s + 1) n).map fun i => (f i).toNat) + (f s).toNat) / 2 =
        joinEls 1 ((List.range' (s + 1) n).map fun i => (f i).toNat) by have := Bool.toNat_lt (f s); omega, ih]
      simp [Nat.add_assoc, Nat.add_comm 1 k]

theorem getLsbD_aluBrev (hk : k < tyWidth t) (a : DWord) : (aluBrev t a).getLsbD k = a.getLsbD (tyWidth t - 1 - k) := by
  unfold aluBrev
  simp only [bitAt_eq, List.range_eq_range']
  rw [getLsbD_ofNat64 (tyWidth_le t) hk, testBit_joinEls (fun i => a.toNat.testBit (tyWidth t - 1 - i)), decide_eq_true hk, Nat.zero_add,
    Bool.true_and, BitVec.testBit_toNat]

theorem foldl_add_bits (f : Nat → Bool) (xs : List Nat) (m : Nat) :
    (xs.map fun i => (f i).toNat).foldl (· + ·) m = m + (xs.filter f).length := by
  induction xs generalizing m with
  | nil => rfl
  | cons x xs ih => cases h : f x <;> simp [h, ih]; omega

theorem aluPopc_eq (a : DWord) : aluPopc t a = BitVec.ofNat 64 ((List.range (tyWidth t)).filter fun k => a.getLsbD k).length := by
  unfold aluPopc
  rw [show bitAt a.toNat = fun i => (a.getLsbD i).toNat from funext fun i => by rw [bitAt_eq, BitVec.testBit_toNat], foldl_add_bits, Nat.zero_add]

/-- No bit below the width is set: the value that CLZ and FFS look at is zero. -/
theorem lowBits_eq_zero {a : DWord} (h : ∀ k, k < tyWidth t → a.getLsbD k = false) : a.toNat % 2 ^ tyWidth t = 0 := by
  refine Nat.eq_of_testBit_eq fun k => ?_
  rw [testBit_low, Nat.zero_testBit]
  by_cases hk : k < tyWidth t
  · rw [h k hk, Bool.and_false]
  · rw [decide_eq_false hk, Bool.false_and]

theorem lowBits_ne_zero {a : DWord} (hk : k < tyWidth t) (h : a.getLsbD k = true) : a.toNat % 2 ^ tyWidth t ≠ 0 := by
  intro h0
  have := testBit_lowBits a hk
  rw [h0, h, Nat.zero_testBit] at this
  cases this

/-- The highest set bit below the width is the value's logarithm. -/
theorem lowBits_log2 {a : DWord} (hk : k < tyWidth t) (h : a.getLsbD k = true) (hhi : ∀ m, k < m → m < tyWidth t → a.getLsbD m = false) :
    (a.toNat % 2 ^ tyWidth t).log2 = k := by
  have hne := lowBits_ne_zero hk h
  have hset := Nat.testBit_log2 hne
  rw [testBit_low, Bool.and_eq_true, decide_eq_true_iff] at hset
  obtain ⟨hlt, hbit⟩ := hset
  have hle : k ≤ (a.toNat % 2 ^ tyWidth t).log2 := by
    rw [Nat.le_log2 hne]
    exact Nat.ge_two_pow_of_testBit ((testBit_lowBits a hk).trans h)
  by_contra hc
  rw [hhi _ (by omega) hlt] at hbit
  cases hbit

theorem find_lowBit {a : DWord} (hk : k < tyWidth t) (h : a.getLsbD k = true) (hlo : ∀ m, m < k → a.getLsbD m = false) :
    ((List.range (tyWidth t)).find? fun i => bitAt (a.toNat % 2 ^ tyWidth t) i == 1) = some k := by
  rw [List.find?_range_eq_some]
  refine ⟨?_, List.mem_range.mpr hk, fun m hm => ?_⟩
  · rw [bitAt_eq, testBit_lowBits a hk, h]
    rfl
  · rw [bitAt_eq, testBit_lowBits a (by omega), hlo m hm]
    rfl

theorem tyWidth_of_int (ht : t = .u32 ∨ t = .s32 ∨ t = .u64 ∨ t = .s64) : (if t = .u64 ∨ t = .s64 then 64 else 32) = tyWidth t := by
  obtain rfl | rfl | rfl | rfl := ht <;> rfl

end

/-- Settles O11: each result bit by bit from the lemmas above; the highest and lowest set bit are the value's logarithm and the first index found. -/
theorem bitValues : Obligations.BitValues := by
  unfold Obligations.BitValues
  intro t a b c ht
  simp only [tyWidth_of_int ht]
  refine ⟨fun inv k hk => ⟨getLsbD_aluAnd hk inv a b, getLsbD_aluOr hk inv a b, getLsbD_aluXor hk inv a b⟩,
    fun tbl k _ hk => getLsbD_aluMix3 hk tbl a b c,
    fun wrap k hk => ⟨getLsbD_aluShl hk wrap a b, getLsbD_aluShr wrap a b, getLsbD_aluSar hk wrap a b⟩,
    fun k hk => ⟨getLsbD_aluRot hk true a b, getLsbD_aluRot hk false a b, getLsbD_aluBrev hk a⟩, aluPopc_eq a, fun hz => ?_,
    fun k hk hbit => ⟨fun hhi => ?_, fun hlo => ?_⟩⟩
  · have h0 := lowBits_eq_zero hz
    simp [aluClz, aluFfs, h0]
  · have hne := lowBits_ne_zero hk hbit
    have hlog := lowBits_log2 hk hbit hhi
    simp [aluClz, aluFfs, hne, hlog]
  · have hne := lowBits_ne_zero hk hbit
    have hfind := find_lowBit hk hbit hlo
    simp only [aluFfs, if_neg hne, hfind]
    rfl

end Sys2Proof.Machine
end

section
/-! PROOF. Special functions (O20): each slice of the unit where the guard holds has one more instruction outstanding, its results on the
operands as they stood at issue. -/

namespace Sys2Proof.Machine

theorem laneList_ne_nil (vec : Bool) {m : BitVec 4} (hm : m ≠ 0) : laneList vec m ≠ [] := by
  cases vec with
  | false => exact List.cons_ne_nil 0 []
  | true => exact lanesOf_ne hm

theorem landFl_ne_nil (d : Opnd) (l : Nat) (r : Fl Nat) : landFl d l r ≠ [] := by
  cases d <;> exact List.cons_ne_nil _ _

theorem sfuLands_ne_nil (c : Crew) (x : Slice) (h : Hdr) (d a : Opnd) (f : Nat → Fl Nat) (hm : lanesFor (vecMode d [a]) h x ≠ 0) :
    sfuLands c x h d a f ≠ [] := by
  obtain ⟨l, ls, he⟩ := List.exists_cons_of_ne_nil (laneList_ne_nil (vecMode d [a]) hm)
  unfold sfuLands
  rw [he]
  rw [List.map_cons, List.flatMap_cons]
  exact List.append_ne_nil_of_left_ne_nil (landFl_ne_nil d _ _) _

/-- A special function as its form gives it. -/
def sfuMeaning (h : Hdr) (d a : Opnd) (f : Nat → Fl Nat) : Meaning where
  chk := chkRegs [(d, 1), (a, 1)]
  lanes := lanesFor (vecMode d [a]) h
  pre := fun s i _ => if full32 (s.sl i) then .park .room else if 8 ≤ sfuBusy s i then .park .sfuRoom else .go
  act := fun pre s i m =>
    let rs := (laneList (vecMode d [a]) m).map fun l => (l, f ((rd (s.crewOf i) (s.sl i) .f32 h.imm l a).toNat % 2 ^ 32))
    let s1 := addLands s i (rs.flatMap fun e => landFl d e.1 e.2)
    if (pre.cur.takeWhile (· != i)).all fun j => lanesFor (vecMode d [a]) h (pre.sl j) = 0 then sfuEnter s1 i s.nextId else s1
  jump := false
  occ := 1

theorem sfuForm_exec {i : Instr} {h : Hdr} {d a : Opnd} {f : Nat → Fl Nat} (hi : SfuForm i h d a f) (s : State) :
    exec i s = runUnit h (sfuMeaning h d a f) s := by
  cases hi <;> rfl

theorem sfuEnter_frame (s : State) (i id : Nat) : SlotFrame s (sfuEnter s i id) := SlotFrame.setCore s _ _

/-- Slice x, where the special function's guard may hold, goes on as y: its results are under a fresh identity. -/
def SfuLeaves (s : State) (h : Hdr) (d a : Opnd) (f : Nat → Fl Nat) (j : Nat) (x y : Slice) : Prop :=
  if lanesFor (vecMode d [a]) h x = 0 then y = (atIssue x).next
  else ∃ id, y = { (atIssue x).next with
    outst := Tbl.put x.outst id (sfuLands (s.crewOf j) x h d a f).length
    ready := x.ready ++ (sfuLands (s.crewOf j) x h d a f).map fun e => ⟨id, e.1, e.2⟩ }

/-- A special function in one slice; entering the function unit's queue changes issue slots alone. -/
theorem sfu_actOf (h : Hdr) (d a : Opnd) (f : Nat → Fl Nat) {s t : State} {j : Nat} (hst : LandRest s t) (ht : t.sl j = s.sl j) :
    (∀ k, k ≠ j → (actOf (sfuMeaning h d a f) s t j).sl k = t.sl k) ∧
    SfuLeaves s h d a f j (t.sl j) ((actOf (sfuMeaning h d a f) s t j).sl j) ∧ LandRest t (actOf (sfuMeaning h d a f) s t j) := by
  have hbegun : (t.begun j).sl j = atIssue (t.sl j) := State.sl_setSl_self ..
  have hothersB : ∀ k, k ≠ j → (t.begun j).sl k = t.sl k := fun k hk => State.sl_setSl_ne t _ hk.symm
  have hcrew : (t.begun j).crewOf j = s.crewOf j := by
    rw [State.crewOf, hbegun, State.crewOf, ← ht]
    exact hst.crew _
  unfold SfuLeaves
  by_cases hm : lanesFor (vecMode d [a]) h (t.sl j) = 0
  · rw [if_pos hm, actOf, if_pos (c := (sfuMeaning h d a f).lanes (t.sl j) = 0) hm]
    change (∀ k, k ≠ j → ((t.begun j).setSl j ((t.begun j).sl j).next).sl k = t.sl k) ∧
      ((t.begun j).setSl j ((t.begun j).sl j).next).sl j = (atIssue (t.sl j)).next ∧ LandRest t ((t.begun j).setSl j ((t.begun j).sl j).next)
    refine ⟨fun k hk => (State.sl_setSl_ne _ _ hk.symm).trans (hothersB k hk), ?_, (LandRest.setSl t j _).trans (LandRest.setSl _ j _)⟩
    rw [State.sl_setSl_self, hbegun]
  · obtain ⟨hothers, hrest, hself⟩ := addLands_land (t.begun j) j _ (sfuLands_ne_nil (s.crewOf j) (t.sl j) h d a f hm)
    set u := addLands (t.begun j) j (sfuLands (s.crewOf j) (t.sl j) h d a f) with hu
    have hact : ∃ w, SlotFrame u w ∧ w.slices = u.slices ∧ actOf (sfuMeaning h d a f) s t j = w.setSl j (w.sl j).next := by
      rw [actOf_goes (m := sfuMeaning h d a f) hm rfl]
      simp only [sfuMeaning, hcrew, hbegun]
      split
      · exact ⟨_, sfuEnter_frame u j _, rfl, rfl⟩
      · exact ⟨_, SlotFrame.refl u, rfl, rfl⟩
    obtain ⟨w, hw, hsl, hact⟩ := hact
    have hwsl : ∀ k, w.sl k = u.sl k := fun k => by rw [State.sl, hsl]; rfl
    rw [if_neg hm, hact]
    refine ⟨fun k hk => ?_, ⟨(t.begun j).nextId, ?_⟩,
      (((LandRest.setSl t j _).trans hrest).trans (LandRest.ofSlots hw)).trans (LandRest.setSl w j _)⟩
    · rw [State.sl_setSl_ne _ _ hk.symm, hwsl, hothers k hk, hothersB k hk]
    · rw [State.sl_setSl_self, hwsl, hself, hbegun]
      rfl

/-- Settles O20: where the unit's slices have room, each special function is one instruction whose results land later. -/
theorem specialFunctions : Obligations.SpecialFunctions := by
  unfold Obligations.SpecialFunctions
  intro i h d a f s hi hu hr
  have hgo : ∀ j ∈ s.cur, preOf (sfuMeaning h d a f) s j = .go := fun j hj => by
    obtain ⟨hregs, hroom, hbusy⟩ := hr j hj
    refine preOf_go _ _ _ (chkRegs_none hregs) fun _ => ?_
    simp [sfuMeaning, full32, Nat.not_le.mpr hroom, Nat.not_le.mpr hbusy]
  obtain ⟨hfr, hsl⟩ := unitGo_land (h := h) (m := sfuMeaning h d a f) (SfuLeaves s h d a f) hu.2 fun t j _ hst ht => sfu_actOf h d a f hst ht
  refine ⟨_, (sfuForm_exec hi s).trans (runUnit_go _ _ _ hu.1 hgo), hfr, fun j hj => ?_⟩
  obtain ⟨y, hy, hj'⟩ := hsl j hj
  rw [hj']
  unfold SfuLeaves at hy
  split at hy
  · rename_i hm
    rw [if_pos hm, hy]
  · rename_i hm
    obtain ⟨id, rfl⟩ := hy
    rw [if_neg hm]
    exact ⟨id, rfl⟩

end Sys2Proof.Machine
end

section
/-! PROOF. Control transfers (O18): where the active lanes go to one PC, and where they go to two (R144, R304, R305). -/

namespace Sys2Proof.Machine

/-! ### The distinct destinations -/

theorem distinct_filter (f : DWord → Bool) (l : List DWord) : (distinct l).filter f = distinct (l.filter f) := by
  induction l with
  | nil => rfl
  | cons a l ih =>
    rw [distinct, List.filter_cons, List.filter_cons, List.filter_filter]
    by_cases h : f a
    · rw [if_pos h, if_pos h, distinct, ← ih, List.filter_filter]
      simp only [Bool.and_comm]
    · rw [if_neg h, if_neg h, ← ih]
      refine List.filter_congr fun x _ => ?_
      by_cases hx : x = a
      · simp [hx, h]
      · simp [hx]

theorem distinct_all {l : List DWord} {p : DWord} (hne : l ≠ []) (hl : ∀ a ∈ l, a = p) : distinct l = [p] := by
  obtain ⟨a, l, rfl⟩ := List.exists_cons_of_ne_nil hne
  obtain rfl := hl a List.mem_cons_self
  rw [distinct, distinct_filter, List.filter_eq_nil_iff.mpr fun x hx => by simp [hl x (List.mem_cons_of_mem _ hx)]]
  rfl

/-- Two values, the first one first. -/
theorem distinct_two {l : List DWord} {p q : DWord} (hpq : p ≠ q) (hq : q ∈ l) (hl : ∀ a ∈ l, a = p ∨ a = q) :
    distinct (p :: l) = [p, q] := by
  rw [distinct, distinct_filter, distinct_all (p := q)]
  · exact List.ne_nil_of_mem (List.mem_filter.mpr ⟨hq, by simpa using hpq.symm⟩)
  · intro a ha
    obtain ⟨hm, hne⟩ := List.mem_filter.mp ha
    exact (hl a hm).resolve_left (by simpa using hne)

/-! ### Masks -/

theorem getLsbD_laneMask (ls : List Nat) {k : Nat} (hk : k < 4) : (laneMask ls).getLsbD k = ls.contains k := by
  have hfold : ∀ m : BitVec 4, (ls.foldl (fun m l => m ||| BitVec.twoPow 4 l) m).getLsbD k = (m.getLsbD k || ls.contains k) := by
    induction ls with
    | nil => simp
    | cons a ls ih =>
      intro m
      rw [List.foldl_cons, ih, BitVec.getLsbD_or, BitVec.getLsbD_twoPow, List.contains_cons, Bool.or_assoc]
      congr 2
      by_cases h : a = k
      · simp [h, hk]
      · simp [h, Ne.symm h]
  exact (hfold 0).trans (by simp)

/-- The mask of the lanes of m for which f holds. -/
theorem laneMask_filter {m w : BitVec 4} {f : Nat → Bool} (hw : ∀ l, l < 4 → w.getLsbD l = (m.getLsbD l && f l)) :
    laneMask ((lanesOf m).filter f) = w := by
  refine BitVec.eq_of_getLsbD_eq fun l hl => ?_
  rw [getLsbD_laneMask _ hl, hw l hl, Bool.eq_iff_iff, Bool.and_eq_true, List.contains_iff_mem, List.mem_filter, mem_lanesOf hl]

theorem exists_lane {m : BitVec 4} (hm : m ≠ 0) : ∃ l, l < 4 ∧ m.getLsbD l = true := by
  obtain ⟨l, hl⟩ := List.exists_mem_of_ne_nil _ (lanesOf_ne hm)
  have h4 := lanesOf_lt hl
  exact ⟨l, h4, (mem_lanesOf h4).mp hl⟩

/-! ### The slice's own transfer -/

section
variable {x : Slice} {m : BitVec 4} {target : Nat → DWord}

theorem transfer_one {p : DWord} (ha : x.active ≠ 0) (hd : ∀ l, l < 4 → x.active.getLsbD l = true → laneDest x m target l = p) :
    transfer x m target = some { x with pc := p } := by
  have hone : distinct ((lanesOf x.active).map (laneDest x m target)) = [p] := by
    refine distinct_all (by simpa using lanesOf_ne ha) fun a hm => ?_
    obtain ⟨l, hl, rfl⟩ := List.mem_map.mp hm
    exact hd l (lanesOf_lt hl) ((mem_lanesOf (lanesOf_lt hl)).mp hl)
  rw [transfer]
  dsimp only
  rw [hone]

/-- The lanes that are active as two groups, by where they go. -/
structure Splits (x : Slice) (d : Nat → DWord) (p q : DWord) (a b : BitVec 4) : Prop where
  stay : ∀ l, l < 4 → a.getLsbD l = (x.active.getLsbD l && d l == p)
  go : ∀ l, l < 4 → b.getLsbD l = (x.active.getLsbD l && d l == q)
  all : x.active = a ||| b
  stayNe : a ≠ 0
  goNe : b ≠ 0
  ne : p ≠ q

theorem Splits.dest {d : Nat → DWord} {p q : DWord} {a b : BitVec 4} (h : Splits x d p q a b) {l : Nat} (hl : l ∈ lanesOf x.active) :
    d l = p ∨ d l = q := by
  have h4 := lanesOf_lt hl
  have hor := (mem_lanesOf h4).mp hl
  rw [h.all, BitVec.getLsbD_or, Bool.or_eq_true, h.stay l h4, h.go l h4] at hor
  exact hor.imp (fun hs => beq_iff_eq.mp (Bool.and_eq_true_iff.mp hs).2) fun hg => beq_iff_eq.mp (Bool.and_eq_true_iff.mp hg).2

theorem Splits.mem {d : Nat → DWord} {p q : DWord} {a b : BitVec 4} (h : Splits x d p q a b) :
    p ∈ (lanesOf x.active).map d ∧ q ∈ (lanesOf x.active).map d := by
  obtain ⟨k, hk, hka⟩ := exists_lane h.stayNe
  obtain ⟨l, hl, hlb⟩ := exists_lane h.goNe
  rw [h.stay k hk, Bool.and_eq_true, beq_iff_eq] at hka
  rw [h.go l hl, Bool.and_eq_true, beq_iff_eq] at hlb
  exact ⟨List.mem_map.mpr ⟨k, (mem_lanesOf hk).mpr hka.1, hka.2⟩, List.mem_map.mpr ⟨l, (mem_lanesOf hl).mpr hlb.1, hlb.2⟩⟩

theorem lanesOf_sorted (m : BitVec 4) : (lanesOf m).Pairwise (· < ·) := List.Pairwise.filter _ (by decide)

/-- The two destinations, that of the lowest active lane first. -/
theorem Splits.distinct {d : Nat → DWord} {p q : DWord} {a b : BitVec 4} (h : Splits x d p q a b) :
    distinct ((lanesOf x.active).map d) = [p, q] ∨
      distinct ((lanesOf x.active).map d) = [q, p] ∧ ∀ l, l < 4 → a.getLsbD l = true → ∃ k, k < l ∧ b.getLsbD k = true := by
  obtain ⟨hp, hq⟩ := h.mem
  have hall : ∀ v ∈ (lanesOf x.active).map d, v = p ∨ v = q := fun v hv => by
    obtain ⟨l, hl, rfl⟩ := List.mem_map.mp hv
    exact h.dest hl
  have hdest : ∀ l ∈ lanesOf x.active, d l = p ∨ d l = q := fun l hl => h.dest hl
  have hmem : ∀ l, l < 4 → (l ∈ lanesOf x.active ↔ x.active.getLsbD l = true) := fun l hl => mem_lanesOf hl
  have hlt : ∀ l ∈ lanesOf x.active, l < 4 := fun l hl => lanesOf_lt hl
  have hsort := lanesOf_sorted x.active
  rcases hls : lanesOf x.active with _ | ⟨k, ks⟩
  · rw [hls] at hp
    cases hp
  rw [hls] at hp hq hall hdest hmem hlt hsort
  have hks : ∀ v ∈ ks.map d, v = p ∨ v = q := fun v hv => hall v (List.mem_cons_of_mem _ hv)
  rw [List.map_cons] at hp hq ⊢
  rcases hdest k List.mem_cons_self with hk | hk
  · rw [hk] at hq ⊢
    exact .inl (distinct_two h.ne ((List.mem_cons.mp hq).resolve_left h.ne.symm) hks)
  · rw [hk] at hp ⊢
    refine .inr ⟨distinct_two h.ne.symm ((List.mem_cons.mp hp).resolve_left h.ne) fun v hv => (hks v hv).symm, fun l hl hal => ⟨k, ?_, ?_⟩⟩
    · rw [h.stay l hl, Bool.and_eq_true, beq_iff_eq] at hal
      rcases List.mem_cons.mp ((hmem l hl).mpr hal.1) with rfl | hin
      · exact absurd (hal.2.symm.trans hk) h.ne
      · exact (List.pairwise_cons.mp hsort).1 l hin
    · have h4 := hlt k List.mem_cons_self
      rw [h.go k h4, (hmem k h4).mp List.mem_cons_self, hk, beq_self_eq_true]
      rfl

/-- Two destinations, the top entry holding no pending path: those that fall through, or else the lowest lane's, go on. -/
theorem transfer_two {p q : DWord} {a b : BitVec 4} {e : REntry} {st : List REntry} (h : Splits x (laneDest x m target) p q a b)
    (hs : x.stack = e :: st) (he : e.pmask = 0) (hq : q ≠ x.pc + 12)
    (hlow : p = x.pc + 12 ∨ ∃ l, l < 4 ∧ a.getLsbD l = true ∧ ∀ k, k < l → b.getLsbD k = false) :
    transfer x m target = some { x with pc := p, active := a, stack := { e with ppc := q, pmask := b } :: st } := by
  have hsplit : some { x with
      pc := p
      active := laneMask ((lanesOf x.active).filter fun l => laneDest x m target l == p)
      stack := { e with ppc := q, pmask := laneMask ((lanesOf x.active).filter fun l => laneDest x m target l == q) } :: st } =
      some { x with pc := p, active := a, stack := { e with ppc := q, pmask := b } :: st } := by
    rw [laneMask_filter h.stay, laneMask_filter h.go]
  have he' : (e.pmask != 0) = false := by simp [he]
  rw [← hsplit, transfer]
  dsimp only
  rcases h.distinct with hd | ⟨hd, hfirst⟩
  · rw [hd, hs]
    simp only [he', if_neg hq, Bool.false_eq_true, if_false]
  · rcases hlow with rfl | ⟨l, hl, hal, hbl⟩
    · rw [hd, hs]
      simp only [he', Bool.false_eq_true, if_false, if_true]
    · obtain ⟨k, hk, hbk⟩ := hfirst l hl hal
      rw [hbl k hk] at hbk
      cases hbk

theorem badTarget_none (h : ∀ l, l < 4 → m.getLsbD l = true → (target l).toNat % 4 = 0) : badTarget m target = none := by
  refine List.find?_eq_none.mpr fun l hl => ?_
  have h4 := lanesOf_lt hl
  simp [h l h4 ((mem_lanesOf h4).mp hl)]

theorem preTransfer_go {c : Crew} {y : Slice} (hb : badTarget m target = none) (ht : transfer x m target = some y) :
    preTransfer c x m target = .go := by
  rw [preTransfer, hb, ht]
  rfl

end

/-! ### The transfer of a form -/

/-- The effect of a transfer on its slice. -/
def TransferForm.act (f : TransferForm) (p : State) (i : Nat) (m : BitVec 4) (x : Slice) : Slice :=
  (lanesOf m).foldl (fun y l => wr .u64 f.link l (x.pc + 12) y) ((transfer x m (f.target (p.crewOf i) x)).getD x)

theorem transfers_exec {i : Instr} {f : TransferForm} (hi : Transfers i f) (s : State) :
    exec i s = transferMeaning f.hdr f.lanes f.regs f.link f.target s := by
  cases hi <;> rfl

theorem Transfers.atIssue {i : Instr} {f : TransferForm} (hi : Transfers i f) (c : Crew) (x : Slice) :
    f.lanes (atIssue x) = f.lanes x ∧ f.target c (atIssue x) = f.target c x := by
  cases hi <;> exact ⟨rfl, rfl⟩

/-- Where the guard holds in no lane, every lane falls through. -/
theorem TransferForm.dest_idle {f : TransferForm} {x : Slice} (h : f.lanes x = 0) (c : Crew) (l : Nat) : f.dest c x l = x.pc + 12 := by
  simp [TransferForm.dest, h]

/-- A transfer whose slices all know where to go: each goes there, its return address linked. -/
theorem transfer_completes {i : Instr} {f : TransferForm} {s : State} {g : Nat → Slice → Slice} (hi : Transfers i f) (hu : s.unitIn)
    (hr : ∀ j ∈ s.cur, regsOk (s.crewOf j) f.regs = true ∧ f.alignedIn (s.crewOf j) (s.sl j))
    (ht : ∀ j ∈ s.cur, f.lanes (s.sl j) ≠ 0 →
      (∃ y, transfer (s.sl j) (f.lanes (s.sl j)) (f.target (s.crewOf j) (s.sl j)) = some y) ∧
      transfer (Machine.atIssue (s.sl j)) (f.lanes (s.sl j)) (f.target (s.crewOf j) (s.sl j)) = some (g j (s.sl j)))
    (h0 : ∀ j ∈ s.cur, f.lanes (s.sl j) = 0 → g j (s.sl j) = (Machine.atIssue (s.sl j)).next) :
    Completes i f.hdr (fun j x => f.linked x (g j x)) s := by
  refine completes_own (g := f.act) (transfers_exec hi s) (fun _ _ _ _ => rfl) hu (fun j hj => chkRegs_none (hr j hj).1) (fun j hj hl => ?_)
    fun j hj => ?_
  · obtain ⟨⟨y, hy⟩, -⟩ := ht j hj hl
    exact preTransfer_go (badTarget_none (hr j hj).2) hy
  · by_cases hl : f.lanes (s.sl j) = 0
    · rw [ownSlice, if_pos hl, TransferForm.linked, hl, h0 j hj hl]
      rfl
    · obtain ⟨-, hy⟩ := ht j hj hl
      rw [ownSlice_jumps s j hl rfl, TransferForm.act, (hi.atIssue (s.crewOf j) (s.sl j)).2]
      dsimp only
      rw [hy]
      rfl

/-- Settles O18: with one destination the transfer goes there; with two it splits, as `transfer_two` says. -/
theorem transferEffects : Obligations.TransferEffects := by
  unfold Obligations.TransferEffects
  refine ⟨fun i f s p hi hu hr => ?_, fun i f s p q e st a b hi hu hr => ?_⟩
  · refine transfer_completes hi hu (fun j hj => ?_) (fun j hj hl => ?_) fun j hj hl => ?_
    all_goals obtain ⟨hregs, halign, hact, hdest⟩ := hr j hj
    · exact ⟨hregs, halign⟩
    · exact ⟨⟨_, transfer_one hact hdest⟩, transfer_one (x := atIssue (s.sl j)) hact hdest⟩
    · obtain ⟨l, h4, hbit⟩ := exists_lane hact
      have hpc := hdest l h4 hbit
      rw [← hpc, TransferForm.dest_idle hl]
      rfl
  · refine transfer_completes (g := fun j x => { atIssue x with pc := p j, active := a j, stack := { e j with ppc := q j, pmask := b j } :: st j })
      hi hu (fun j hj => ?_) (fun j hj hl => ?_) fun j hj hl => ?_
    all_goals obtain ⟨hregs, halign, hstack, hpm, hpq, hq, ha, hb, hstay, hgo, hall, hlow⟩ := hr j hj
    · exact ⟨hregs, halign⟩
    · have hsp : Splits (s.sl j) (laneDest (s.sl j) (f.lanes (s.sl j)) (f.target (s.crewOf j) (s.sl j))) (p j) (q j) (a j) (b j) :=
        ⟨hstay, hgo, hall, ha, hb, hpq⟩
      exact ⟨⟨_, transfer_two hsp hstack hpm hq hlow⟩, transfer_two (x := atIssue (s.sl j)) ⟨hstay, hgo, hall, ha, hb, hpq⟩ hstack hpm hq hlow⟩
    · obtain ⟨l, h4, hbit⟩ := exists_lane hb
      rw [hgo l h4, Bool.and_eq_true, beq_iff_eq, TransferForm.dest_idle hl] at hbit
      exact absurd hbit.2.symm hq

end Sys2Proof.Machine
end

section
/-! PROOF. Traps (O23, O49): a unit whose slices all meet one trap takes it slice by slice, each as `State.takes` says; TRAP and BPT, system
instructions outside a system context and WRSR to a register that is only read are such traps; a trap that waited is taken at the slot (R241 to R246,
R309). -/

namespace Sys2Proof.Machine

/-! ### One slice's trap -/

/-- A slice in its handler (R244). -/
def Slice.entered (x : Slice) (vec : DWord) (t : TrapRec) : Slice := { x with
  taking := none, park := .run, answers := [], fetch := [], stepIn := false, relIn := false, lost := [], begun := none
  trappc := t.pc, trapcode := BitVec.ofNat 8 t.code, trapdef := t.defer, trapovf := t.ovf, trapaddr := t.addr, trapmask := t.mask
  trapinfo := t.info, hmode := true, saved := x.active, active := x.live, pc := vec &&& ~~~3 }

theorem enterTrap_enters {s : State} {j : Nat} {t : TrapRec} (hg : (s.crewOf j).gen = none) (hv : trapvecNow s j ≠ 0)
    (hm : (s.sl j).hmode = false) (hc : t.code ≠ 0x1A) :
    enterTrap s j t = (dropReqs s j).setSl j ((s.sl j).entered (trapvecNow s j) t) := by
  have hg' : (s.crew (s.sl j).crew).gen = none := hg
  have hc' : (t.code == cPriv) = false := beq_eq_false_iff_ne.mpr hc
  unfold enterTrap
  dsimp only
  rw [if_neg (by simp [hg']), if_neg (by simpa [hm, hc'] using hv)]
  rfl

/-- A context that runs stops with its first cause (R246). -/
theorem stopContext_runs {s : State} {ctx : Nat} (hc : s.hasCtx ctx = true) (hs : (s.ctx ctx).st ≠ .dead) (code : Nat) :
    stopContext s ctx code = { s with
      ctxs := Tbl.put s.ctxs ctx { s.ctx ctx with st := .dead, cause := code, stopAt := some (s.pkg 0).clock }
      launches := s.launches.map fun e => (e.1, if e.2.ctx = ctx ∧ ¬ e.2.done then { e.2 with failed := true } else e.2) } := by
  unfold stopContext
  rw [if_neg (by simpa using hs), State.updCtx, if_pos hc]
  rfl

/-- A trap that stops the slice's context. -/
theorem enterTrap_stops {s : State} {j : Nat} {t : TrapRec} (hg : (s.crewOf j).gen = none ∨ t.code = 0x1A)
    (hv : trapvecNow s j = 0 ∨ (s.sl j).hmode = true ∨ t.code = 0x1A) (hc : s.hasCtx (s.ctxOf j) = true) (hp : t.pc = (s.sl j).pc)
    (ha : t.addr = 0) : enterTrap s j t = s.stopped j t.code := by
  have hg' : ((s.crew (s.sl j).crew).gen.isSome && t.code != cPriv) = false := by
    rcases hg with hg | hg
    · simp [show (s.crew (s.sl j).crew).gen = none from hg]
    · simp [hg, cPriv]
  unfold enterTrap State.stopped
  dsimp only
  rw [hg', if_neg Bool.false_ne_true, if_pos (by simpa [cPriv, or_assoc] using hv), show (s.crew (s.sl j).crew).ctx = s.ctxOf j from rfl]
  by_cases hd : (s.ctx (s.ctxOf j)).st = .dead
  · rw [if_pos (beq_iff_eq.mpr hd), if_pos hd]
  · rw [if_neg fun he => hd (beq_iff_eq.mp he), if_neg hd,
      stopContext_runs (s := s.setSl j { s.sl j with taking := none, park := .before .tower }) hc hd, hp, ha]
    rfl

/-- An exact trap with no address, as the manual's cases have it. -/
theorem takeTrap_takes {s : State} {j : Nat} (hc : s.hasCtx (s.ctxOf j) = true) (code : Nat) (info : DWord) (mask : Word) :
    takeTrap s j ⟨code, (s.sl j).pc, 0, mask, info, false, false⟩ = s.takes j code info mask := by
  unfold State.takes
  dsimp only
  by_cases ho : (s.sl j).outst = []
  · rw [if_neg (not_not_intro ho)]
    rw [takeTrap, if_pos (by simp [ho])]
    by_cases h1 : (s.crewOf j).gen.isSome = true ∧ code ≠ 0x1A
    · rw [if_pos h1]
      unfold enterTrap
      dsimp only
      rw [if_pos (by simpa [State.crewOf, cPriv] using h1)]
    · rw [if_neg h1]
      by_cases h2 : trapvecNow s j = 0 ∨ (s.sl j).hmode = true ∨ code = 0x1A
      · rw [if_pos h2]
        exact enterTrap_stops (or_iff_not_imp_right.mpr fun hp => by simpa [hp] using h1) h2 hc rfl rfl
      · rw [if_neg h2]
        simp only [not_or] at h2
        obtain ⟨hv, hm, hp⟩ := h2
        have hgen : (s.crewOf j).gen = none := by simpa [hp] using h1
        exact enterTrap_enters hgen hv (by simpa using hm) hp
  · rw [if_pos ho, takeTrap_waits s j _ ho]


/-! ### A unit's trap -/

/-- Slices keep their crews, crews are the same, and every context is there. -/
structure CtxsStay (s u : State) : Prop where
  crews : u.crews = s.crews
  sl : ∀ k, (u.sl k).crew = (s.sl k).crew
  ctx : ∀ c, s.hasCtx c = true → u.hasCtx c = true

theorem CtxsStay.refl (s : State) : CtxsStay s s := ⟨rfl, fun _ => rfl, fun _ h => h⟩

theorem CtxsStay.trans {s t u : State} (h1 : CtxsStay s t) (h2 : CtxsStay t u) : CtxsStay s u :=
  ⟨h2.crews.trans h1.crews, fun k => (h2.sl k).trans (h1.sl k), fun c h => h2.ctx c (h1.ctx c h)⟩

theorem CtxsStay.setSl (s : State) {j : Nat} {x : Slice} (hx : x.crew = (s.sl j).crew) : CtxsStay s (s.setSl j x) := by
  refine ⟨rfl, fun k => ?_, fun _ h => h⟩
  rw [State.sl_setSl]
  split
  · rename_i he
    rw [hx, he]
  · rfl

theorem hasCtx_map {s u : State} {g : Nat × Ctx → Nat × Ctx} (hg : ∀ e, (g e).1 = e.1) (hu : u.ctxs = s.ctxs.map g) {c : Nat}
    (h : s.hasCtx c = true) : u.hasCtx c = true := by
  unfold State.hasCtx at h ⊢
  rwa [hu, Tbl.find_map_keyed hg, Option.isSome_map]

theorem CtxsStay.strikeFills (s : State) (sel : FillReq → Bool) : CtxsStay s (strikeFills s sel) := by
  unfold Machine.strikeFills
  dsimp only
  split
  · exact CtxsStay.refl s
  · refine ⟨rfl, fun _ => rfl, fun c h => ?_⟩
    refine hasCtx_map ?_ rfl h
    exact fun _ => rfl

theorem CtxsStay.takes (s : State) (j code : Nat) (info : DWord) (mask : Word) : CtxsStay s (s.takes j code info mask) := by
  unfold State.takes
  dsimp only
  split
  · exact CtxsStay.setSl s rfl
  split
  · exact CtxsStay.setSl s rfl
  split
  · have hv := CtxsStay.setSl s (j := j) (x := { s.sl j with taking := none, park := .before .tower }) rfl
    unfold State.stopped
    dsimp only
    split
    · exact hv
    · refine ⟨hv.crews, hv.sl, fun c h => ?_⟩
      have hp := Tbl.find_put s.ctxs (s.ctxOf j) c
        { s.ctx (s.ctxOf j) with st := .dead, cause := code, stopAt := some (s.pkg 0).clock }
      unfold State.hasCtx at h ⊢
      rw [hp]
      split
      · rfl
      · exact h
  · unfold State.trapped
    have hq : CtxsStay s { s with clrReqs := s.clrReqs.filter fun e => e.2.who != .slice j } := ⟨rfl, fun _ => rfl, fun _ h => h⟩
    have hs := hq.trans (CtxsStay.strikeFills _ fun q => q.who == .slice j)
    exact hs.trans (CtxsStay.setSl _ (hs.sl j).symm)

theorem CtxsStay.ctxOf {s u : State} (h : CtxsStay s u) (k : Nat) : u.ctxOf k = s.ctxOf k := by
  unfold State.ctxOf State.crewOf State.crew
  rw [h.crews, h.sl]

/-- The unit takes its trap slice by slice. -/
theorem takeUnit_takes {s : State} {ts : List TrapIn} {t : TrapIn} (hc : ∀ j ∈ s.cur, s.hasCtx (s.ctxOf j) = true) (ha : t.addr = 0)
    (hm : t.mask = none) : takeUnit s s.cur ts t = s.cur.foldl (fun u j => u.takes j t.code t.info s.unitMask) s := by
  have hmask : unitActive s s.cur = s.unitMask := rfl
  unfold takeUnit
  dsimp only
  rw [hm, hmask, ha]
  refine foldl_congr_inv (I := CtxsStay s) (fun u hu j _ => hu.trans (CtxsStay.takes u j _ _ _)) (fun u hu j hj => ?_) (CtxsStay.refl s)
  refine takeTrap_takes (hu.ctx _ ?_) t.code t.info s.unitMask
  rw [hu.ctxOf]
  exact hc j hj

theorem bestTrap_same {ts : List TrapIn} {t : TrapIn} (hne : ts ≠ []) (h : ∀ u ∈ ts, u = t) : bestTrap ts = some t := by
  induction ts with
  | nil => contradiction
  | cons u ts ih =>
    obtain rfl := h u List.mem_cons_self
    rw [bestTrap]
    by_cases hts : ts = []
    · rw [hts]
      rfl
    · rw [ih hts fun v hv => h v (List.mem_cons_of_mem _ hv)]
      simp

/-- Slots aside nothing differs, and the issue is over. -/
theorem SlotFrame.endsIssue {u t : State} (h : SlotFrame u t) : SlotsOnly u { t with cur := [] } := by
  refine ⟨h.cores, ?_, rfl⟩
  calc ({ ({ t with cur := [] } : State) with cores := u.cores, cur := u.cur } : State)
      = { ({ t with cores := u.cores } : State) with cur := u.cur } := rfl
    _ = u := by rw [h.rest]

/-- A unit of which some slices meet one trap, and the others nothing, takes it. -/
theorem runUnit_traps {h : Hdr} {m : Meaning} {s : State} {t : TrapIn} (hu : s.unitIn) (hc : ∀ j ∈ s.cur, s.hasCtx (s.ctxOf j) = true)
    (hp : ∀ j ∈ s.cur, preOf m s j = .go ∨ preOf m s j = .trap t) (ht : ∃ j ∈ s.cur, preOf m s j = .trap t) (ha : t.addr = 0)
    (hm : t.mask = none) :
    ∃ u, runUnit h m s = .next u ∧ SlotsOnly (s.cur.foldl (fun u j => u.takes j t.code t.info s.unitMask) s) u := by
  have hmem : ∀ p ∈ s.cur.map (preOf m s), p = .go ∨ p = .trap t := fun p hin => by
    obtain ⟨j, hj, rfl⟩ := List.mem_map.mp hin
    exact hp j hj
  have hbest : bestTrap ((s.cur.map (preOf m s)).filterMap Pre.trap?) = some t := by
    refine bestTrap_same ?_ fun u hin => ?_
    · obtain ⟨j, hj, he⟩ := ht
      exact List.ne_nil_of_mem (List.mem_filterMap.mpr ⟨_, List.mem_map.mpr ⟨j, hj, he⟩, rfl⟩)
    · obtain ⟨p, hin, he⟩ := List.mem_filterMap.mp hin
      rcases hmem p hin with rfl | rfl
      · cases he
      · exact (Option.some.inj he).symm
  have hask : (s.cur.map (preOf m s)).any Pre.isAsk = false := List.any_eq_false.mpr fun p hin => by
    rcases hmem p hin with rfl | rfl <;> exact Bool.false_ne_true
  refine ⟨trapUnit s s.cur ((s.cur.map (preOf m s)).filterMap Pre.trap?) t, ?_, ?_⟩
  · unfold runUnit
    rw [if_neg (by simpa using hu.1)]
    dsimp only
    rw [unitTrap, hbest, hask]
    rfl
  · rw [trapUnit, takeUnit_takes hc ha hm]
    exact (endRun_frame _ s.cur).endsIssue

/-! ### Instructions that trap -/

/-- Settles O49: the checks of R254 make PRIV of each of them in every slice of the unit. -/
theorem privilege : Obligations.Privilege := by
  unfold Obligations.Privilege
  refine ⟨fun s h d a b c hu hs i hi => ?_, fun s h t a hu hc _ => ?_⟩
  · have hall : ∀ j ∈ s.cur, chkSys s j = some cPriv := fun j hj => by
      obtain ⟨-, hsys⟩ := hs j hj
      simp [chkSys, hsys]
    have hrun : ∀ pre act, ∃ u, runUnit h (onceMeaning h chkSys pre act) s = .next u ∧
        SlotsOnly (s.cur.foldl (fun u j => u.takes j 0x1A 0 s.unitMask) s) u := fun pre act => by
      have hpre : ∀ j ∈ s.cur, preOf (onceMeaning h chkSys pre act) s j = .trap (trapPlain 1 cPriv) := fun j hj => by
        rw [preOf]
        simp only [onceMeaning, hall j hj]
      obtain ⟨j, hj⟩ := List.exists_mem_of_ne_nil _ hu.1
      exact runUnit_traps (t := trapPlain 1 cPriv) hu (fun j hj => (hs j hj).1) (fun j hj => .inr (hpre j hj)) ⟨j, hj, hpre j hj⟩ rfl rfl
    simp only [List.mem_cons, List.not_mem_nil, or_false] at hi
    rcases hi with rfl | rfl | rfl | rfl | rfl | rfl <;> exact hrun _ _
  · obtain ⟨j, hj⟩ := List.exists_mem_of_ne_nil _ hu.1
    exact runUnit_traps (t := trapPlain 1 cPriv) hu hc (fun _ _ => .inr rfl) ⟨j, hj, rfl⟩ rfl rfl

/-- TRAP and BPT: the slices where the guard holds meet the trap, the others nothing. -/
theorem trapAlways_traps {s : State} {h : Hdr} (hu : s.unitIn) (hc : ∀ j ∈ s.cur, s.hasCtx (s.ctxOf j) = true)
    (hg : ∃ j ∈ s.cur, perSlice h (s.sl j) ≠ 0) (code : Nat) (info : DWord) :
    ∃ t, trapAlways h code info s = .next t ∧ SlotsOnly (s.cur.foldl (fun u j => u.takes j code info s.unitMask) s) t := by
  obtain ⟨j, hj, hl⟩ := hg
  refine runUnit_traps (t := ⟨3, code, 0, info, none, 0⟩) hu hc (fun k _ => ?_) ⟨j, hj, if_neg hl⟩ rfl rfl
  by_cases hk : perSlice h (s.sl k) = 0
  · exact .inl (if_pos hk)
  · exact .inr (if_neg hk)

/-! ### Traps at the slot (R241, R242) -/

theorem strikeFills_mem (s : State) (sel : FillReq → Bool) : (strikeFills s sel).mem = s.mem := by
  unfold strikeFills
  dsimp only
  split <;> rfl

theorem endRun_mem (s : State) (ids : List Nat) : (endRun s ids).mem = s.mem := by
  cases ids <;> rfl

/-- What trap entry leaves at once (R241, R244, R246) at slice j, which stands as x. -/
structure CanEnter (s : State) (j : Nat) (x : Slice) : Prop where
  sl : s.sl j = x
  gen : (s.crewOf j).gen = none
  vec : trapvecNow s j ≠ 0
  mode : x.hmode = false

theorem CanEnter.enters {s : State} {j : Nat} {x : Slice} (h : CanEnter s j x) {t : TrapRec} (hc : t.code ≠ 0x1A) (ids : List Nat) :
    (endRun (enterTrap s j t) ids).sl j = x.entered (trapvecNow s j) t ∧ (endRun (enterTrap s j t) ids).mem = s.mem := by
  rw [endRun_sl, endRun_mem, enterTrap_enters h.gen h.vec (h.sl ▸ h.mode) hc, State.sl_setSl_self, h.sl]
  exact ⟨rfl, strikeFills_mem _ _⟩

/-- A slice's entry does not depend on where it parks or on its note of traps. -/
theorem CanEnter.setSl {s : State} {j : Nat} {x y : Slice} (h : CanEnter s j x) (hc : y.crew = x.crew) (hm : y.hmode = x.hmode) :
    CanEnter (s.setSl j y) j y ∧ trapvecNow (s.setSl j y) j = trapvecNow s j := by
  have hcrew : (s.setSl j y).crewOf j = s.crewOf j := by
    rw [State.crewOf, State.sl_setSl_self, hc, ← h.sl]
    rfl
  have hvec : trapvecNow (s.setSl j y) j = trapvecNow s j := by
    unfold trapvecNow ctxRegNow State.ctxOf
    rw [hcrew]
    rfl
  exact ⟨⟨State.sl_setSl_self .., hcrew ▸ h.gen, hvec ▸ h.vec, hm ▸ h.mode⟩, hvec⟩

/-- A slice that enters its handler is no longer parked. -/
theorem entered_resume (x : Slice) (vec : DWord) (t : TrapRec) : (resume x).entered vec t = x.entered vec t := by
  unfold resume
  split <;> rfl

theorem resume_fields (x : Slice) : (resume x).crew = x.crew ∧ (resume x).hmode = x.hmode ∧ (resume x).taking = x.taking ∧
    (resume x).deferred = x.deferred ∧ (resume x).pc = x.pc := by
  unfold resume
  split <;> exact ⟨rfl, rfl, rfl, rfl, rfl⟩

/-- A slice alone in its run whose trap is due takes it instead of issuing. -/
theorem issueAt_due {s : State} {core slot : Nat} {fresh : BitVec 3} {j : Nat} (hh : (slotAt (s.core core) slot).holder = [j])
    (ha : s.alive j = true) (hr : sliceReady s j = true) (hc : s.hasCtx (s.ctxOf j) = true) (hst : (s.ctx (s.ctxOf j)).st ≠ .stopped)
    (hfree : (slotAt (s.core core) slot).freeAt ≤ s.clockOf j)
    (hdue : (((s.sl j).taking.isSome || mustDeliver (s.sl j)) && (s.sl j).outst.isEmpty) = true) :
    issueAt s core slot fresh = .done (endRun (takeDue (s.setSl j (resume (s.sl j))) j) [j]) := by
  have htraps : trapsDue s [j] = [j] := by
    rw [trapsDue, List.filter_cons, if_pos hdue]
    rfl
  unfold issueAt
  dsimp only
  rw [hh]
  dsimp only
  rw [htraps, if_neg (by simp [ha, hr, hc, hst]), if_neg (Nat.not_lt.mpr hfree)]
  rfl

/-- Settles O23: TRAP and BPT are a unit's trap; at the slot a due trap is taken instead of an instruction. -/
theorem trapEntry : Obligations.TrapEntry := by
  unfold Obligations.TrapEntry
  refine ⟨fun s h hu hc hg => ⟨trapAlways_traps hu hc hg _ _, trapAlways_traps hu hc hg _ _⟩, ?_⟩
  intro s j core slot fresh rest hs hh hfree ha hc hrun hcan entered
  obtain ⟨hout, hgen, hvec, hmode⟩ := hcan
  set u : State := { s with schedule := rest, freeIx := s.freeIx + 1 } with hu
  have hstep : ∀ {v}, issueAt u core slot fresh = .done v → step s = .next v := fun hv => by
    unfold step nextMove
    rw [hs]
    dsimp only
    rw [stepMove, hv]
  have hst : (u.ctx (u.ctxOf j)).st ≠ .stopped := fun he => by
    have : (s.ctx (s.ctxOf j)).st = .stopped := he
    rw [hrun] at this
    cases this
  have hout' : (s.sl j).outst = [] := hout
  have hu0 : CanEnter u j (s.sl j) := ⟨rfl, hgen, hvec, hmode⟩
  obtain ⟨hrcrew, hrmode, hrtk, hrdef, hrpc⟩ := resume_fields (s.sl j)
  obtain ⟨h1, hv1⟩ := hu0.setSl hrcrew hrmode
  refine ⟨fun e htk hcode => ?_, fun e es t0 w htk hdef hcode hpark hdue => ?_⟩
  · have hready : sliceReady u j = true := by
      have hx : (u.sl j).taking.isSome = true := by rw [show u.sl j = s.sl j from rfl, htk]; rfl
      rw [sliceReady, if_pos hx]
      simp [show (u.sl j).outst = [] from hout, show (u.crewOf j).gen = none from hgen]
    have htakes : takeDue (u.setSl j (resume (s.sl j))) j =
        enterTrap ((u.setSl j (resume (s.sl j))).setSl j { resume (s.sl j) with taking := none }) j e := by
      rw [takeDue, State.sl_setSl_self, hrtk, htk, State.updSl_eq, State.sl_setSl_self]
    obtain ⟨h2, hv2⟩ := h1.setSl (y := { resume (s.sl j) with taking := none }) rfl rfl
    obtain ⟨hsl, hmem⟩ := h2.enters hcode [j]
    refine ⟨_, hstep (issueAt_due (s := u) hh ha hready hc hst hfree ?_), ?_, ?_⟩
    · simp [show u.sl j = s.sl j from rfl, htk, hout']
    · show (endRun (takeDue (u.setSl j (resume (s.sl j))) j) [j]).sl j = _
      rw [htakes, hsl, hv2, hv1]
      exact entered_resume (s.sl j) _ e
    · show (endRun (takeDue (u.setSl j (resume (s.sl j))) j) [j]).mem = _
      rw [htakes, hmem]
      rfl
  · have hmust : mustDeliver (s.sl j) = true := by
      simp [mustDeliver, hpark, hdef, htk, show (s.sl j).hmode = false from hmode, Park.parked, Park.answering]
    have hready : sliceReady u j = true := by
      have hx : ¬ (u.sl j).taking.isSome = true := by simp [show u.sl j = s.sl j from rfl, htk]
      rw [sliceReady, if_neg hx, show u.sl j = s.sl j from rfl, hpark]
      have hclock : waitReady u j (.clock t0) = true := decide_eq_true hdue
      simp [hclock, hout']
    have htakes : takeDue (u.setSl j (resume (s.sl j))) j =
        enterTrap ((u.setSl j (resume (s.sl j))).setSl j { resume (s.sl j) with deferred := es }) j
          { e with info := (s.sl j).pc, defer := true } := by
      have hg1 : ((u.setSl j (resume (s.sl j))).crewOf j).gen.isSome = false := by rw [h1.gen]; rfl
      rw [takeDue, State.sl_setSl_self, hrtk, htk, deliverDeferred, State.sl_setSl_self, hrdef, hdef]
      dsimp only
      rw [hg1, hrpc]
      rfl
    obtain ⟨h2, hv2⟩ := h1.setSl (y := { resume (s.sl j) with deferred := es }) rfl rfl
    obtain ⟨hsl, hmem⟩ := h2.enters (t := { e with info := (s.sl j).pc, defer := true }) hcode [j]
    have hx : ({ resume (s.sl j) with deferred := es } : Slice).taking = none := hrtk.trans htk
    refine ⟨_, hstep (issueAt_due (s := u) hh ha hready hc hst hfree ?_), ?_, ?_⟩
    · simp [show u.sl j = s.sl j from rfl, hmust, hout']
    · show (endRun (takeDue (u.setSl j (resume (s.sl j))) j) [j]).sl j = _
      rw [htakes, hsl, hv2, hv1]
      exact congrArg (fun x : Slice => { x with deferred := es }) (entered_resume (s.sl j) _ { e with info := (s.sl j).pc, defer := true })
    · show (endRun (takeDue (u.setSl j (resume (s.sl j))) j) [j]).mem = _
      rw [htakes, hmem]
      rfl

end Sys2Proof.Machine
end

section
/-! PROOF. Fences, barriers and phases (O30), rings, counters and WAITMEM (O31): each issues where what it waits for has come about. -/

namespace Sys2Proof.Machine

/-! ### Fences, barriers, phases (R220, R324 to R326) -/

/-- An unguarded instruction whose checks let the unit issue. -/
theorem runs_bare {i : Instr} {h : Hdr} {s : State} {pre : State → Nat → Pre} {act : State → State → Nat → State} {e : State → Nat → State}
    (hx : exec i s = runUnit h (bareMeaning pre act) s) (hc : s.cur ≠ []) (hp : ∀ j ∈ s.cur, (s.sl j).active ≠ 0 → pre s j = .go)
    (he : ∀ u j, act s u j = e u j) : Runs i h Slice.active e s :=
  runs_of hx hc rfl rfl (fun _ => rfl) (fun _ _ => rfl) hp fun u j _ => he u j

/-- Every live slice of the crew stands in the phase. -/
theorem barDone_of {s : State} {j n : Nat} (h : ∀ k ∈ (s.crewOf j).slices, (s.sl k).live = 0 ∨ n ≤ barsOf (s.sl k)) :
    barDone s (s.sl j).crew n = true :=
  List.all_eq_true.mpr fun k hk => by simpa using h k hk

theorem phaseDone_of {s : State} {j sc n : Nat} (h : ∀ k ∈ participants s j sc, n ≤ arrivals (s.sl k) sc) : phaseDone s j sc n = true :=
  List.all_eq_true.mpr fun k hk => by simpa using h k hk

/-- Settles O30, instruction by instruction. -/
theorem fencesAndBarriers : Obligations.FencesAndBarriers := by
  unfold Obligations.FencesAndBarriers
  intro s h hu
  refine ⟨fun hd => ?drain, fun hr => ⟨?rel, ?ar⟩, ?acq, fun hb => ?bar, fun hr => ?arrive, fun ha => ?await⟩
  case drain =>
    refine runs_once (i := .fenceDrain h) rfl hu.1 (fun _ _ => rfl) (fun j hj hon => ?_) fun _ _ => rfl
    obtain ⟨haccs, houtst⟩ := hd j hj hon
    simp [haccs, houtst]
  case rel => exact runs_once (i := .fenceOrdered h .rel) rfl hu.1 (fun _ _ => rfl) (fun j hj hon => relPre_go (hr j hj hon)) fun _ _ => rfl
  case ar => exact runs_once (i := .fenceOrdered h .ar) rfl hu.1 (fun _ _ => rfl) (fun j hj hon => relPre_go (hr j hj hon)) fun _ _ => rfl
  case acq => exact runs_once (i := .fenceOrdered h .acq) rfl hu.1 (fun _ _ => rfl) (fun _ _ _ => rfl) fun _ _ => rfl
  case bar =>
    refine runs_bare (i := .bar h) rfl hu.1 (fun j hj hon => ?_) fun _ _ => rfl
    obtain ⟨hin, hall⟩ := hb j hj hon
    dsimp only
    rw [hin, if_pos rfl, if_pos (barDone_of hall)]
  case arrive => exact runs_bare (i := .arrive h) rfl hu.1 (fun j hj hon => relPre_go (hr j hj hon)) fun _ _ => rfl
  case await => exact runs_bare (i := .await h) rfl hu.1 (fun j hj hon => if_pos (phaseDone_of (ha j hj hon))) fun _ _ => rfl

/-! ### Rings and counters (R327, R328) -/

theorem stageOk_of {s : State} {j ring n : Nat} (h : n < (ringOf (s.crewOf j) ring).nst) : stageOk s j ring n = true := decide_eq_true h

/-! ### WAITMEM (R331) -/

theorem bytesNat_lt (bs : List Byte) : bytesNat bs < 256 ^ bs.length := by
  induction bs with
  | nil => simp [bytesNat]
  | cons b bs ih =>
    have hb := b.isLt
    rw [bytesNat, List.length_cons, Nat.pow_succ]
    omega

theorem curLE_lt (s : State) (ctx va : Nat) {n : Nat} (hn : n ≤ 8) : curLE s ctx va n < 2 ^ 64 := by
  have h := bytesNat_lt (curBytes s ctx va n)
  have hl : (curBytes s ctx va n).length = n := by simp [curBytes]
  have hp : 256 ^ n ≤ 256 ^ 8 := Nat.pow_le_pow_right (by decide) hn
  rw [hl] at h
  exact Nat.lt_of_lt_of_le h hp

theorem tyBytes_le (t : Ty) : tyBytes t ≤ 8 := by
  unfold tyBytes
  split <;> decide

/-- Reads that are cleared and filled need nothing more. -/
theorem memPre_ok {s : State} {j : Nat} {zero once : Bool} {accs : Nat → List LaneAcc}
    (hs : ∀ a ∈ accs j, clrSt s j .read zero a = .ok ∧ fillSt s j a = .ok) : memPre s .read zero once accs j = .go := by
  have hst : ∀ e ∈ (accs j).map fun a => (a.lane, clrSt s j .read zero a), e.2 = .ok := fun e he => by
    obtain ⟨a, ha, rfl⟩ := List.mem_map.mp he
    exact (hs a ha).1
  have hfill : ∀ e ∈ ((accs j).filter fun a => clrSt s j .read zero a == .ok).map fun a => (a.lane, fillSt s j a), e.2 = .ok := fun e he => by
    obtain ⟨a, ha, rfl⟩ := List.mem_map.mp he
    exact (hs a (List.mem_filter.mp ha).1).2
  have hwait : ∀ l : List (Nat × LaneSt), (∀ e ∈ l, e.2 = .ok) → (l.any fun e => e.2.isWait) = false := fun l hl =>
    List.any_eq_false.mpr fun e he => by simp [hl e he, LaneSt.isWait]
  have hfault : ∀ l : List (Nat × LaneSt), (∀ e ∈ l, e.2 = .ok) → faultTrap s j once l = none := fun l hl =>
    faultTrap_none fun e he => by simp [hl e he, LaneSt.isFault]
  unfold memPre
  dsimp only
  rw [hwait _ hst, hfault _ hst]
  simp only [Bool.false_eq_true, if_false]
  split
  · rfl
  · rw [hwait _ hfill, hfault _ hfill]
    rfl

/-- Bytes that nothing kept and no answer called absent are read at their place. -/
theorem readAs_cur {s : State} {ctx va n : Nat} {as : List Answer} (hk : ∀ va, keptByte as va = none)
    (ha : ∀ k, k < n → absentFor as (va + k) = false) : readAs s ctx as va n = curBytes s ctx va n := by
  refine List.map_congr_left fun k hk' => ?_
  rw [hk, ha k (List.mem_range.mp hk')]
  rfl

/-- A slice's masks of lanes and of predicates, which its guard reads, are as they were. -/
def GuardsStay (s u : State) : Prop := ∀ k, (u.sl k).active = (s.sl k).active ∧ (u.sl k).q = (s.sl k).q

theorem GuardsStay.perSlice {s u : State} (h : GuardsStay s u) (hd : Hdr) (k : Nat) : Machine.perSlice hd (u.sl k) = Machine.perSlice hd (s.sl k) := by
  obtain ⟨ha, hq⟩ := h k
  unfold Machine.perSlice Hdr.qGuard Slice.qbit
  rw [ha, hq]

theorem GuardsStay.updSl {s u : State} (h : GuardsStay s u) (j : Nat) {f : Slice → Slice}
    (hf : ∀ x, (f x).active = x.active ∧ (f x).q = x.q) : GuardsStay s (u.updSl j f) := fun k => by
  obtain ⟨ha, hq⟩ := h k
  rw [State.updSl_eq, State.sl_setSl]
  split
  · rename_i hjk
    rw [(hf _).1, (hf _).2, hjk]
    exact ⟨ha, hq⟩
  · exact ⟨ha, hq⟩

theorem FetchKeeps.guards {s t : State} (h : FetchKeeps s t) : GuardsStay s t := fun k => by
  have hk := h.sl k
  exact ⟨by rw [← hk], by rw [← hk]⟩

theorem useClr_keeps (s : State) (i : Nat) (r : Right) (as : List LaneAcc) : FetchKeeps s (useClr s i r as) := by
  unfold useClr touchClr
  exact FetchKeeps.updCore s _ _

theorem GuardsStay.trans {s t u : State} (h1 : GuardsStay s t) (h2 : GuardsStay t u) : GuardsStay s u := fun k =>
  ⟨(h2 k).1.trans (h1 k).1, (h2 k).2.trans (h1 k).2⟩

/-- A read of cached bytes leaves every guard as it is. -/
theorem clearedRead_guards (s : State) (i : Nat) (r : Right) (as : List LaneAcc) (pl : Place) (core cls ctx va ch : Nat) {cl : Nat} :
    GuardsStay s (cacheRead (injectRead (useClr s i r as) pl core cls ctx va) pl cl ctx va ch) :=
  (((useClr_keeps s i r as).trans (injectRead_traffic _ _ _ _ _ _).fetchKeeps).trans (cacheRead_keeps _ _ _ _ _ _)).guards

theorem wr_guards (t : Ty) (d : Opnd) (l : Nat) (v : DWord) (x : Slice) : (wr t d l v x).active = x.active ∧ (wr t d l v x).q = x.q := by
  have ha := congrArg Slice.active (wr_rest t d l v x x.v x.s x.flags)
  have hq := congrArg Slice.q (wr_rest t d l v x x.v x.s x.flags)
  exact ⟨ha, hq⟩

/-- An instruction once per slice whose effect is as stated where it executes; effects leave guards alone. -/
theorem runs_guarded {i : Instr} {h : Hdr} {s : State} {pre : State → Nat → Pre}
    {act : State → State → Nat → State} {e : State → Nat → State} (hx : exec i s = runUnit h (onceMeaning h anyRole pre act) s)
    (hc : s.cur ≠ []) (hp : s.each h fun j => pre s j = .go) (hg : ∀ u j, GuardsStay u (e u j))
    (he : ∀ u, s.each h fun j => act s u j = e u j) : Runs i h (perSlice h) e s := by
  obtain ⟨t, ht, hs⟩ := runs_once hx hc (fun _ _ => rfl) hp (e := act s) fun _ _ => rfl
  have hsame : s.unitAfter h (perSlice h) (act s) = s.unitAfter h (perSlice h) e := by
    refine congrArg (s.cur.foldl fun u j => u.updSl j (waitW h)) (foldl_congr_inv (I := GuardsStay s) ?_ ?_ fun _ => ⟨rfl, rfl⟩)
    · intro u hu j _
      have hb : GuardsStay s (u.begun j) := hu.updSl j fun _ => ⟨rfl, rfl⟩
      refine GuardsStay.updSl ?_ j fun _ => ⟨rfl, rfl⟩
      split
      · exact hb
      · exact hb.trans (hg _ j)
    · intro u hu j hj
      split
      · rfl
      · rename_i hl
        rw [he (u.begun j) j hj (hu.perSlice h j ▸ hl)]
  exact ⟨t, ht, hsame ▸ hs⟩

/-- Looks that all let the unit issue leave the state as it is. -/
theorem unitLooks_go {h : Hdr} {before after : State → Nat → Pre} {look : State → Nat → State} {s : State}
    (ha : s.each h fun j => after s j = .go) : unitLooks h before after look s = s := by
  have hall : ((s.cur.filter fun i => perSlice h (s.sl i) != 0).all fun i => (after s i).isGo) = true :=
    List.all_eq_true.mpr fun j hj => by
      obtain ⟨hin, hon⟩ := List.mem_filter.mp hj
      rw [ha j hin (by simpa using hon)]
      rfl
  unfold unitLooks
  dsimp only
  rw [hall, Bool.not_true, Bool.and_false]
  rfl

section
variable {s : State} {h : Hdr} {m : MemOp} {cond : WCond} {t : Ty} {d : Opnd} {j : Nat}

/-- The word that WAITMEM compares is the one in memory. -/
theorem waitVal_cur {va n : Nat} (hp : anyPoison s (s.ctxOf j) va n = none) (hk : ∀ va, keptByte (s.sl j).answers va = none)
    (ha : ∀ k, k < n → absentFor (s.sl j).answers (va + k) = false) :
    waitVal s j va n = BitVec.ofNat 64 (curLE s (s.ctxOf j) va n) := by
  unfold waitVal
  dsimp only
  rw [hp, readAs_cur hk ha]
  rfl

/-- The address of WAITMEM. -/
def waitAddr (h : Hdr) (m : MemOp) (n : Nat) (s : State) (j : Nat) : Nat := ((accsFor h false m n s j).head?.map LaneAcc.va).getD 0

theorem accsFor_once (hon : perSlice h (s.sl j) ≠ 0) {n : Nat} :
    ∃ a : LaneAcc, accsFor h false m n s j = [a] ∧ a.va = waitAddr h m n s j := by
  unfold waitAddr accsFor
  dsimp only
  rw [if_neg (by exact hon)]
  exact ⟨_, rfl, rfl⟩

/-- The access is aligned, cleared and filled, and nothing of the slice's own holds it back. -/
theorem waitmemPre_go {n : Nat} (hcalm : s.calm j (accsFor h false m n s j)) (halign : ∀ a ∈ accsFor h false m n s j, a.va % n = 0)
    (hclr : ∀ a ∈ accsFor h false m n s j, clrSt s j .read false a = .ok ∧ fillSt s j a = .ok)
    (hown : ownPre s j (accsFor h false m n s j) = .go) : waitmemPre h m n s j = .go := by
  unfold waitmemPre
  dsimp only
  rw [alignPre_go accsFor_n halign, memPre_ok (accs := accsFor h false m n s) hclr, hown, strongPre_go hcalm, l2wpPre_go hcalm]
  rfl

end

/-- Settles O31: each is once per slice; WAITMEM's look at a word that satisfies its condition reads no further. -/
theorem ringsAndCounters : Obligations.RingsAndCounters := by
  unfold Obligations.RingsAndCounters
  refine ⟨fun s h ring a hu => ⟨fun hn => ?rinit, fun hr => ⟨?rpost, ?rrel⟩, fun full hf => ?rget, fun k d hk => ?cwait⟩,
    ?waitmem⟩
  case rinit =>
    refine runs_once (i := .rinit h ring a) rfl hu.1 (fun _ _ => rfl) (fun j hj hon => if_neg ?_) fun _ _ => rfl
    obtain ⟨hlow, hhigh⟩ := hn j hj hon
    simp [Nat.pos_iff_ne_zero.mp hlow, hhigh]
  case rpost =>
    refine runs_once (i := .rpost h ring a) rfl hu.1 (fun _ _ => rfl) (fun j hj hon => ?_) fun _ _ => rfl
    obtain ⟨hst, hrel⟩ := hr j hj hon
    exact (if_pos (stageOk_of hst)).trans (relPre_go hrel)
  case rrel =>
    refine runs_once (i := .rrel h ring a) rfl hu.1 (fun _ _ => rfl) (fun j hj hon => ?_) fun _ _ => rfl
    obtain ⟨hst, hrel⟩ := hr j hj hon
    exact (if_pos (stageOk_of hst)).trans (relPre_go hrel)
  case rget =>
    refine runs_once (i := .rget h ring full a) rfl hu.1 (fun _ _ => rfl) (fun j hj hon => ?_) fun _ _ => rfl
    obtain ⟨hst, hph⟩ := hf j hj hon
    dsimp only
    rw [stageOk_of hst, if_neg (by decide), ringFull, hph, if_pos (beq_self_eq_true full)]
  case cwait =>
    refine runs_once (i := .cwait h k d a) rfl hu.1 (fun _ _ => rfl) (fun j hj hon => if_pos ?_) fun _ _ => rfl
    rw [kReached, hk j hj hon]
    rfl
  case waitmem =>
    intro s h m cond t d hu n as va val hcalm hw
    have hval : s.each h fun j => waitVal s j (va j) n = BitVec.ofNat 64 (val j) := fun j hj hon => by
      obtain ⟨-, -, habs, -, -⟩ := hw j hj hon
      obtain ⟨⟨-, -, hkept⟩, hclean⟩ := hcalm j hj
      exact waitVal_cur hclean hkept habs
    have hlook : s.each h fun j => waitmemLook h m cond n d s j = .go := fun j hj hon => by
      obtain ⟨-, -, -, -, hholds⟩ := hw j hj hon
      refine if_pos ?_
      rw [show waitVal s j _ n = BitVec.ofNat 64 (val j) from hval j hj hon, BitVec.toNat_ofNat,
        Nat.mod_eq_of_lt (curLE_lt s _ _ (tyBytes_le t))]
      exact hholds
    have hpre : s.each h fun j => waitmemPre h m n s j = .go := fun j hj hon => by
      obtain ⟨halign, hclr, -, hown, -⟩ := hw j hj hon
      obtain ⟨b, hb, hbva⟩ := accsFor_once (m := m) hon (n := n)
      refine waitmemPre_go (hcalm j hj).1 (fun a ha => ?_) hclr hown
      rw [hb, List.mem_singleton] at ha
      rw [ha, hbva]
      exact halign
    have hreads : waitmemReads h m cond n d s = s := unitLooks_go hlook
    refine runs_guarded (i := .waitmem h m cond t d) (congrArg (runUnit h _) hreads) hu.1 (fun j hj hon => ?_) (fun u j => ?_) fun u j hj hon => ?_
    · show (waitmemPre h m n s j).next (waitmemLook h m cond n d s j) = .go
      rw [hpre j hj hon]
      exact hlook j hj hon
    · exact (clearedRead_guards u j .read (as j) _ _ _ _ _ _).updSl j fun x => wr_guards .u64 d 0 (BitVec.ofNat 64 (val j)) x
    · have hclean : (anyPoison s (s.ctxOf j) (va j) n).isSome = false := by
        rw [(hcalm j hj).2]
        rfl
      refine (if_neg (c := (anyPoison s (s.ctxOf j) (va j) n).isSome = true) (ne_true_of_eq_false hclean)).trans ?_
      show State.updSl _ j (fun y => standAt Wait.now (wr .u64 d 0 (waitVal s j (va j) n) y)) = _
      rw [hval j hj hon]
      rfl

end Sys2Proof.Machine
end

section
/-! PROOF. Stores and atomics (O25): each slice of the unit where the guard holds puts one access under way, with the lanes' data (R312, R314, R316 to
R319). -/

namespace Sys2Proof.Machine

/-- A storing instruction as its form gives it. -/
def StoreForm.meaning (f : StoreForm) : Meaning := storeMeaning f.hdr f.m f.d f.n f.regs f.vec f.align f.kind f.res fun _ x l => f.new x l

theorem stores_exec {i : Instr} {f : StoreForm} (hi : Stores i f) (s : State) : exec i s = runUnit f.hdr f.meaning s := by
  cases hi <;> rfl

theorem Stores.size {i : Instr} {f : StoreForm} (hi : Stores i f) : f.n = 1 ∨ f.n = 2 ∨ f.n = 4 ∨ f.n = 8 ∨ f.n = 16 := by
  cases hi
  case st => exact ldBytes_form _
  all_goals exact tyBytes_form _

/-- The results that an atomic will land. -/
def StoreForm.later (f : StoreForm) (s : State) (j : Nat) : Nat :=
  if f.res.isSome then
    ((f.accs s j).map fun a => (landsFor (f.res.getD (.zero, 0)).1 f.n a.lane false 0).length + (f.res.getD (.zero, 0)).2).foldl (· + ·) 0
  else 0

/-- The access that a storing instruction puts under way. -/
def StoreForm.access (f : StoreForm) (s : State) (j id : Nat) : Acc :=
  { accBase s s j f.kind f.hdr with
    pieces := (f.accs s j).flatMap fun a =>
      lanePieces (pageOrd s (s.ctxOf j)) a.lane a.va f.n (storeVal (s.sl j) f.d f.n a.lane) (f.new (s.sl j) a.lane)
    size := f.n
    dst := (f.res.getD (.zero, 0)).1
    once := !f.vec
    id := if f.res = none then 0 else id
    whole := f.n == 4 && coversSector (s.cur.map fun k => f.accs s k) }

theorem flatMap_ne_nil {α β : Type} {l : List α} {g : α → List β} (hl : l ≠ []) (hg : ∀ a ∈ l, g a ≠ []) : l.flatMap g ≠ [] := by
  obtain ⟨a, l, rfl⟩ := List.exists_cons_of_ne_nil hl
  exact List.append_ne_nil_of_left_ne_nil (hg a List.mem_cons_self) _

/-- A sum over lanes each of which adds something. -/
theorem sum_pos {α : Type} {l : List α} {g : α → Nat} (hl : l ≠ []) (hg : ∀ a ∈ l, 0 < g a) : 0 < (l.map g).foldl (· + ·) 0 := by
  obtain ⟨a, l, rfl⟩ := List.exists_cons_of_ne_nil hl
  have := foldl_add_ge (l.map g) (0 + g a)
  have := hg a List.mem_cons_self
  simp only [List.map_cons, List.foldl_cons]
  omega

section
variable {i : Instr} {f : StoreForm} (hi : Stores i f) {s : State} {j : Nat} (hl : lanesFor f.vec f.hdr (s.sl j) ≠ 0)
include hi hl

theorem StoreForm.pieces_ne (id : Nat) : (f.access s j id).pieces ≠ [] := by
  have hn : 0 < f.n := by rcases hi.size with h | h | h | h | h <;> omega
  exact flatMap_ne_nil (accsFor_ne hl) fun _ _ => lanePieces_ne hn

theorem StoreForm.later_eq_zero : f.later s j = 0 ↔ f.res = none := by
  rcases hr : f.res with _ | r
  · simp [StoreForm.later, hr]
  · have hpos : 0 < f.later s j := by
      rw [StoreForm.later, hr]
      exact sum_pos (accsFor_ne hl) fun a _ => Nat.add_pos_left (landsFor_pos _ a.lane false 0 hi.size) _
    simp only [reduceCtorEq, iff_false]
    omega

end

/-- Slice x, where the instruction's guard may hold, goes on as y: its access is under a fresh identity. -/
def StoreForm.Leaves (f : StoreForm) (s : State) (j : Nat) (x y : Slice) : Prop :=
  if lanesFor f.vec f.hdr x = 0 then y = (atIssue x).next
  else ∃ id, y = { (if f.res.isSome then acquiring f.m id (atIssue x) else atIssue x).next with
    accs := Tbl.put x.accs id (f.access s j id)
    outst := if f.later s j = 0 then x.outst else Tbl.put x.outst id (f.later s j) }

theorem StoreForm.preOf_go {f : StoreForm} {s : State} {j : Nat} (hr : regsOk (s.crewOf j) f.regs = true)
    (hg : lanesFor f.vec f.hdr (s.sl j) ≠ 0 →
      (f.align = true → ∀ a ∈ f.accs s j, a.va % f.n = 0) ∧ s.writable j (f.accs s j) ∧ s.orderMet j f.m ∧ s.calm j (f.accs s j) ∧
      (f.res ≠ none → (s.sl j).outst.length < 32)) : preOf f.meaning s j = .go := by
  refine Machine.preOf_go _ _ _ (chkRegs_none hr) fun hl => ?_
  obtain ⟨halign, hwrite, horder, hcalm', hroom⟩ := hg hl
  have hcalm : s.calm j (accsFor f.hdr f.vec f.m f.n s j) := hcalm'
  have h1 : (if f.align then alignPre s j (accsFor f.hdr f.vec f.m f.n s j) else .go) = .go := by
    split
    · rename_i ha
      exact alignPre_go accsFor_n (halign ha)
    · rfl
  have h2 : (if f.res.isSome then roomPre s j else .go) = .go := by
    split
    · rename_i hs
      exact roomPre_go (hroom (Option.isSome_iff_ne_none.mp hs))
    · rfl
  show (((((if f.align then alignPre s j (accsFor f.hdr f.vec f.m f.n s j) else .go).next
    (memPre s .write false (!f.vec) (accsFor f.hdr f.vec f.m f.n s) j)).next (ordPre s j f.m)).next
    (strongPre s j (accsFor f.hdr f.vec f.m f.n s j))).next (l2wpPre s j)).next (if f.res.isSome then roomPre s j else .go) = .go
  rw [h1, h2, memPre_write (accs := accsFor f.hdr f.vec f.m f.n s) hwrite, ordPre_go horder, strongPre_go hcalm, l2wpPre_go hcalm]
  rfl

/-- A slice's crew, as an access under way finds it after the unit's earlier slices. -/
theorem begun_crewOf_rest {s t : State} {j : Nat} (h : AccRest s t) (ht : t.sl j = s.sl j) : (t.begun j).crewOf j = s.crewOf j := by
  rw [State.crewOf, begun_self, State.crewOf, ← ht]
  exact h.crew _

theorem accBase_begun {s t : State} {j : Nat} (h : AccRest s t) (ht : t.sl j = s.sl j) (kind : AccKind) (hd : Hdr) :
    accBase s (t.begun j) j kind hd = accBase s s j kind hd := by
  have hc := begun_crewOf_rest h ht
  simp only [accBase, State.ctxOf, hc, begun_self, ht]
  rfl

/-- A storing instruction in one slice. -/
theorem store_actOf {i : Instr} {f : StoreForm} (hi : Stores i f) {s t : State} {j : Nat} (hst : AccRest s t) (ht : t.sl j = s.sl j) :
    (∀ k, k ≠ j → (actOf f.meaning s t j).sl k = t.sl k) ∧ f.Leaves s j (t.sl j) ((actOf f.meaning s t j).sl j) ∧
    AccRest t (actOf f.meaning s t j) := by
  have hbegun : AccRest t (t.begun j) := AccRest.setSl t j _
  unfold StoreForm.Leaves
  by_cases hl : lanesFor f.vec f.hdr (t.sl j) = 0
  · have hact : actOf f.meaning s t j = (t.begun j).setSl j ((t.begun j).sl j).next := if_pos hl
    rw [if_pos hl, hact]
    refine ⟨fun k hk => ?_, ?_, hbegun.trans (AccRest.setSl _ j _)⟩
    · rw [State.sl_setSl_ne _ _ hk.symm, begun_ne hk]
    · rw [State.sl_setSl_self, begun_self]
  · have hs : lanesFor f.vec f.hdr (s.sl j) ≠ 0 := ht ▸ hl
    set v := useClr (t.begun j) j .write (f.accs s j) with hv
    obtain ⟨hclr, hclrSl⟩ := useClr_rest (t.begun j) j .write (f.accs s j)
    have hvsl : ∀ k, v.sl k = (t.begun j).sl k := fun k => by rw [State.sl, hclrSl]; rfl
    set u := startAcc v j (f.access s j 0) [] (f.later s j) with hu
    obtain ⟨hrest, hothers, hself⟩ := startAcc_acc v j (f.access s j 0) [] (f.later s j)
    have hact : actOf f.meaning s t j =
        (if f.res.isSome && acquires f.m then u.updSl j (standAt (.value t.nextId)) else u).updSl j Slice.next := by
      rw [actOf_goes (m := f.meaning) hl rfl, hu, hv]
      simp only [StoreForm.meaning, storeMeaning, accBase_begun hst ht, State.ctxOf, begun_crewOf_rest hst ht]
      rfl
    have hid : ∀ id, { f.access s j 0 with id := if ([] : List (LandDst × DWord)).length + f.later s j = 0 then 0 else id } = f.access s j id := by
      intro id
      simp only [List.length_nil, Nat.zero_add, StoreForm.later_eq_zero hi hs]
      rfl
    have hpieces : (f.access s j 0).pieces.isEmpty = false := by simpa using StoreForm.pieces_ne hi hs 0
    rw [hpieces, hid, hvsl, begun_self] at hself
    simp only [List.length_nil, Nat.zero_add, Bool.false_eq_true, if_false, List.map_nil, List.append_nil] at hself
    have hsl : ∀ k, k ≠ j → u.sl k = t.sl k := fun k hk => by rw [hothers k hk, hvsl, begun_ne hk]
    have hall := (hbegun.trans hclr).trans hrest
    have hset : (if f.res.isSome && acquires f.m then u.updSl j (standAt (.value t.nextId)) else u).updSl j Slice.next =
        u.setSl j (if f.res.isSome && acquires f.m then standAt (.value t.nextId) (u.sl j) else u.sl j).next := by
      split
      · rw [State.updSl_eq, State.updSl_eq, State.sl_setSl_self, State.setSl_setSl]
      · rfl
    rw [if_neg hl, hact, hset]
    refine ⟨fun k hk => ?_, ⟨t.nextId, ?_⟩, hall.trans (AccRest.setSl u j _)⟩
    · rw [State.sl_setSl_ne _ _ hk.symm, hsl k hk]
    · rw [State.sl_setSl_self, hself]
      cases f.res.isSome with
      | false => rfl
      | true =>
        unfold acquiring
        cases acquires f.m <;> rfl

/-- An access with no result known at issue. -/
theorem withoutEarly (x : Slice) (accs : Tbl Acc) (outst : Tbl Nat) (id : Nat) :
    { x with accs := accs, outst := outst, ready := x.ready ++ ([] : List (LandDst × DWord)).map fun e => ⟨id, e.1, e.2⟩ } =
      { x with accs := accs, outst := outst } := by
  rw [List.map_nil, List.append_nil]

/-- Settles O25: the unit's slices pass their checks, and each issues its access; its access has parts, and lands results where the instruction
returns one. -/
theorem storesIssue : Obligations.StoresIssue := by
  unfold Obligations.StoresIssue
  intro i f s hi hu hr
  have hgo : ∀ j ∈ s.cur, preOf f.meaning s j = .go := fun j hj => StoreForm.preOf_go (hr j hj).1 (hr j hj).2
  obtain ⟨hfr, hsl⟩ := unitGo_acc (h := f.hdr) (m := f.meaning) (f.Leaves s) hu.2 fun t j _ hst ht => store_actOf hi hst ht
  refine ⟨_, (stores_exec hi s).trans (runUnit_go _ _ _ hu.1 hgo), hfr, fun j hj => ?_⟩
  obtain ⟨y, hy, hj'⟩ := hsl j hj
  rw [hj']
  unfold StoreForm.Leaves at hy
  split at hy
  · rename_i hl
    rw [if_pos hl, hy]
  · rename_i hl
    obtain ⟨id, rfl⟩ := hy
    rw [if_neg hl]
    refine ⟨id, congrArg (waitW f.hdr) ?_⟩
    refine Eq.trans ?_ (withoutEarly ..).symm
    cases hres : f.res.isSome with
    | false => simp only [StoreForm.later, hres]; rfl
    | true =>
      unfold acquiring
      cases acquires f.m <;> simp only [StoreForm.later, hres] <;> rfl

end Sys2Proof.Machine
end

section
/-! PROOF. LD and LDL in a slice that has an empty part under way (O24, O26). A load whose lanes all have their results at issue puts no access under
way, yet `finishKept` then looks at the access that stands under the next identity; where that one has a part of no byte, the part counts as kept and is
finished. No access that an instruction starts has such a part, and none stands under an identity not yet given; the statements ask for neither. -/

namespace Sys2Proof.Machine

/-- An access of one part that has no byte. -/
def emptyAcc : Acc :=
  ⟨.load, 0, 0, [⟨0, 0, 0, 0, 0, 0, false, 0⟩], [], 0, false, .zero, false, 0, 0, 0, 0, false⟩

/-- A slice whose access under the next identity has a part of no byte; page 0 is non-resident for it, and its stash has one tile. -/
def emptyPart : State :=
  { State.reset with
    npkgs := 1
    slices := [(0, { Slice.init 0 0 .vec 0 with active := 1, accs := [(State.reset.nextId, emptyAcc)], answers := [.nonResident 0] })]
    crews := [(0, { Crew.none with regs := 192, tiles := 1 })]
    cur := [0] }

theorem emptyPart_unitIn : emptyPart.unitIn := by unfold State.unitIn; decide

/-- How many accesses slice 0 has under way after an instruction. -/
def accsAfter (o : Out) : Nat := match o with
  | .next t => (t.sl 0).accs.length
  | _ => 0

theorem waitW_accs (h : Hdr) (x : Slice) : (waitW h x).accs = x.accs := by
  unfold waitW
  split
  · split <;> rfl
  · rfl

/-- A slice that puts no access under way keeps those it has. -/
theorem Under.accs {h : Hdr} {a : Nat → Acc} {early : List (LandDst × DWord)} {n : Nat} {x : Nat → Slice} {y : Slice}
    (hy : Under h a false early n x y) : ∃ id, y.accs = (x id).accs := by
  obtain ⟨id, rfl⟩ := hy
  exact ⟨id, waitW_accs ..⟩

theorem acquiring_accs (m : MemOp) (id : Nat) (x : Slice) : (acquiring m id x).accs = x.accs := by
  unfold acquiring
  split <;> rfl

def plainOp : MemOp := ⟨.zero, .zero, 0, .relaxed, .slice, false⟩

theorem emptyPart_kept (va : Nat) : keptByte (emptyPart.sl 0).answers va = none := rfl

/-- The slice stays without the access it had: it has not kept those it had. -/
theorem emptyPart_loses {h : Hdr} {m : MemOp} {a : Nat → Acc} {early : List (LandDst × DWord)} {n : Nat} {i : Instr} {t : State}
    (ht : exec i emptyPart = .next t) (hzero : accsAfter (exec i emptyPart) = 0) :
    ¬ Under h a false early n (fun id => acquiring m id (atIssue (emptyPart.sl 0))) (t.sl 0) := by
  intro hy
  obtain ⟨id, hid⟩ := hy.accs
  rw [acquiring_accs] at hid
  rw [ht] at hzero
  have hone : (t.sl 0).accs.length = 1 := by rw [hid]; rfl
  exact absurd (hone.symm.trans hzero) (by decide)

theorem emptyPart_calm (as : List LaneAcc) : emptyPart.calm 0 as := by
  refine ⟨fun _ e he => ?_, by decide, emptyPart_kept⟩
  rw [List.mem_singleton.mp he]
  rfl

/-- Refutes O24: LD of the non-resident page 0 into s0 reads zero at once and puts no access under way; the access that the slice had under the next
identity, of one part without a byte, is gone. -/
theorem not_loads : ¬ Obligations.Loads := by
  intro h
  obtain ⟨t, ht, -, hsl⟩ := h emptyPart (alwaysHdr 0) plainOp .b32 (.s 0) emptyPart_unitIn (by
    intro j hj
    obtain rfl := List.mem_singleton.mp hj
    refine ⟨by decide, fun _ => ⟨fun a ha => .inr ?_, emptyPart_calm _, by decide⟩⟩
    revert a
    decide)
  exact emptyPart_loses ht (by decide) (hsl 0 List.mem_cons_self)

/-- Refutes O26: LDL of the slice's own stash lands what the tile holds and puts no access under way; the access that the slice had under the next
identity, of one part without a byte, is gone. -/
theorem not_localLoads : ¬ Obligations.LocalLoads := by
  intro h
  obtain ⟨t, ht, -, -, hsl⟩ := h emptyPart (alwaysHdr 0) plainOp .stash .b32 false (.s 0) emptyPart_unitIn (by
    intro j hj
    obtain rfl := List.mem_singleton.mp hj
    refine ⟨by decide, fun _ => ⟨?_, fun a ha => ?_, emptyPart_calm _, by decide⟩⟩
    · unfold State.localOpen
      decide
    · revert a
      decide)
  exact emptyPart_loses ht (by decide) (hsl 0 List.mem_cons_self)

end Sys2Proof.Machine
end

section
/-! PROOF. STL (O27): each slice of the unit where the guard holds stores its near lanes' bytes at once, lane by lane, marks the mapped sectors dirty, and
puts one access for the others under way (R122 to R124, R126, R315). -/

namespace Sys2Proof.Machine

/-! ### What local stores leave -/

/-- From `s` to `t`, slices, traffic and banks aside, the space `sp` has had the stores `put`, and the mapped sectors that `dirty` names by crew, tile
and bit have become dirty. -/
structure LclStep (sp : LclSpace) (put : Mem → Mem) (dirty : Nat → Nat → Nat → Bool) (s t : State) : Prop where
  cores : ∀ k, (s.core k).keeps (t.core k)
  rest : { t with
    slices := s.slices, cores := s.cores, packets := s.packets, nextId := s.nextId, stash := s.stash, scratch := s.scratch, crews := s.crews,
    banks := s.banks, bankClock := s.bankClock } = s
  banks : sp ≠ .span → t.banks = s.banks ∧ t.bankClock = s.bankClock
  stash : t.stash = if sp = .stash then put s.stash else s.stash
  scratch : t.scratch = if sp = .span then put s.scratch else s.scratch
  crews : ∀ c, { t.crew c with tags := (s.crew c).tags } = s.crew c
  tags : ∀ c k, { tagOf t c k with sd := (tagOf s c k).sd } = tagOf s c k
  dirt : ∀ c k b, (tagOf t c k).sd.getLsbD b =
    ((tagOf s c k).sd.getLsbD b || (sp == .stash && (tagOf s c k).mapped && decide (b < 8) && dirty c k b))

/-- Nothing has been stored. -/
def noDirt (_ _ _ : Nat) : Bool := false

/-- Nothing but traffic. -/
theorem LclStep.ofAcc (sp : LclSpace) {s t : State} (h : AccRest s t) : LclStep sp id noDirt s t := by
  have hbanks : t.banks = s.banks ∧ t.bankClock = s.bankClock := by constructor <;> rw [← h.rest]
  have hstash : t.stash = s.stash := by rw [← h.rest]
  have hscratch : t.scratch = s.scratch := by rw [← h.rest]
  have htag := tagOf_of_crews h.crews
  refine ⟨h.cores, ?_, fun _ => hbanks, by simp [hstash], by simp [hscratch], fun c => by rw [h.crew], fun c k => by rw [htag], fun c k b => by
    simp [htag, noDirt]⟩
  have := h.rest
  rw [← this]

theorem Crew.tags_trans {a b c : Crew} (h1 : { b with tags := a.tags } = a) (h2 : { c with tags := b.tags } = b) : { c with tags := a.tags } = a := by
  rw [← h1, ← h2]

theorem Tag.sd_trans {a b c : Tag} (h1 : { b with sd := a.sd } = a) (h2 : { c with sd := b.sd } = b) : { c with sd := a.sd } = a := by
  rw [← h1, ← h2]

theorem LclStep.trans {sp : LclSpace} {put put' : Mem → Mem} {dirty dirty' : Nat → Nat → Nat → Bool} {s t u : State}
    (h1 : LclStep sp put dirty s t) (h2 : LclStep sp put' dirty' t u) :
    LclStep sp (fun b => put' (put b)) (fun c k b => dirty c k b || dirty' c k b) s u where
  cores k := Core.keeps_trans (h1.cores k) (h2.cores k)
  rest := by
    have a := h1.rest
    have b := h2.rest
    rw [← a, ← b]
  banks hsp := ⟨(h2.banks hsp).1.trans (h1.banks hsp).1, (h2.banks hsp).2.trans (h1.banks hsp).2⟩
  stash := by rw [h2.stash, h1.stash]; split <;> rfl
  scratch := by rw [h2.scratch, h1.scratch]; split <;> rfl
  crews c := Crew.tags_trans (h1.crews c) (h2.crews c)
  tags c k := Tag.sd_trans (h1.tags c k) (h2.tags c k)
  dirt c k b := by
    have hmap : (tagOf t c k).mapped = (tagOf s c k).mapped := by rw [← h1.tags c k]
    rw [h2.dirt, h1.dirt, hmap, Bool.or_assoc, ← Bool.and_or_distrib_left]

/-- The stores are the same, bytes and sectors. -/
theorem LclStep.congr {sp : LclSpace} {put put' : Mem → Mem} {dirty dirty' : Nat → Nat → Nat → Bool} {s t : State} (h : LclStep sp put dirty s t)
    (hp : ∀ b, put b = put' b) (hd : ∀ c k b, dirty c k b = dirty' c k b) : LclStep sp put' dirty' s t := by
  obtain rfl : put = put' := funext hp
  obtain rfl : dirty = dirty' := funext fun c => funext fun k => funext (hd c k)
  exact h

/-- A crew keeps all but its tags. -/
theorem LclStep.crew_span {sp : LclSpace} {put : Mem → Mem} {dirty : Nat → Nat → Nat → Bool} {s t : State} (h : LclStep sp put dirty s t) (c : Nat) :
    (t.crew c).span = (s.crew c).span := by
  rw [← h.crews c]

/-! ### One lane's store -/

/-- A touch of scratch banks is traffic of the banks alone. -/
theorem touchScratch_banks (s : State) (span off n : Nat) :
    { touchScratch s span off n with banks := s.banks, bankClock := s.bankClock } = s := by
  have hone : ∀ (t : State) pkg bank, { touchBank t pkg bank with banks := t.banks, bankClock := t.bankClock } = t := by
    intro t pkg bank
    unfold touchBank
    dsimp only
    split <;> rfl
  unfold touchScratch
  dsimp only
  split
  · rfl
  · refine foldl_keeps (R := fun a b : State => { b with banks := a.banks, bankClock := a.bankClock } = a) (fun _ => rfl) ?_ ?_ _ s
    · intro a b c h1 h2
      rw [← h1, ← h2]
    · exact fun t e => hone t _ _

/-- The byte at which slice i finds offset `va` of its space. -/
def lclKeyOf (s : State) (sp : LclSpace) (i va : Nat) : Nat :=
  if sp = .span then (s.crewOf i).span * 2 ^ 23 + va else (s.sl i).crew * 2 ^ 19 + va

/-- The sector of offset `va` of slice i's stash. -/
def sectorHit (s : State) (i va : Nat) (c k b : Nat) : Bool := (s.sl i).crew == c && (va / 1024 == k && va % 1024 / 128 == b)

theorem getLsbD_orTwoPow (x : BitVec 8) (i b : Nat) (hi : i < 8) : (x ||| BitVec.twoPow 8 i).getLsbD b = (x.getLsbD b || i == b) := by
  rw [BitVec.getLsbD_or, BitVec.getLsbD_twoPow]
  by_cases h : i = b
  · subst h; simp [hi]
  · simp [h]

/-- Scratch and banks alone differ: a store to span scratch. -/
theorem LclStep.ofScratch {put : Mem → Mem} {s t : State} (dirty : Nat → Nat → Nat → Bool)
    (h : { t with scratch := s.scratch, banks := s.banks, bankClock := s.bankClock } = s) (hs : t.scratch = put s.scratch) :
    LclStep .span put dirty s t := by
  have hcrews : t.crews = s.crews := by rw [← h]
  have hcores : t.cores = s.cores := by rw [← h]
  have hstash : t.stash = s.stash := by rw [← h]
  have htag := tagOf_of_crews hcrews
  refine ⟨fun k => ?_, ?_, fun h => absurd rfl h, hstash, by rw [if_pos rfl]; exact hs, fun c => by rw [crew_of_crews hcrews],
    fun c k => by rw [htag], fun c k b => by simp [htag]⟩
  · rw [show t.core k = s.core k by unfold State.core; rw [hcores]]
    exact Core.keeps_refl _
  · rw [← h]

theorem lclWrite_step {s : State} {i : Nat} {sp : LclSpace} (hsp : sp ≠ .remote) (va n v : Nat) :
    LclStep sp (fun b => Mem.writeLE b (lclKeyOf s sp i va) n v) (sectorHit s i va) s (lclWrite s i sp va n v) ∧
    (lclWrite s i sp va n v).slices = s.slices := by
  have hbit : va % 1024 / 128 < 8 := by omega
  unfold lclWrite
  dsimp only
  cases sp with
  | remote => exact absurd rfl hsp
  | span =>
    rw [if_pos rfl]
    have hb := touchScratch_banks s (s.crewOf i).span va n
    set u := touchScratch s (s.crewOf i).span va n with hu
    have hslices : u.slices = s.slices := by rw [← hb]
    refine ⟨LclStep.ofScratch _ ?_ ?_, hslices⟩
    · rw [← hb]
    · rw [lclKeyOf, if_pos rfl]
  | stash =>
    rw [if_neg (by decide)]
    set u : State := { s with stash := Mem.writeLE s.stash ((s.sl i).crew * 2 ^ 19 + va) n v } with hu
    have hput : u.stash = Mem.writeLE s.stash (lclKeyOf s .stash i va) n v := rfl
    split
    · rename_i hm
      have htag : ∀ c k, tagOf (setTag u (s.sl i).crew (va / 1024)
          { tagOf s (s.sl i).crew (va / 1024) with sd := (tagOf s (s.sl i).crew (va / 1024)).sd ||| BitVec.twoPow 8 (va % 1024 / 128) }) c k =
          if (s.sl i).crew = c ∧ va / 1024 = k then
            { tagOf s c k with sd := (tagOf s c k).sd ||| BitVec.twoPow 8 (va % 1024 / 128) } else tagOf s c k := by
        intro c k
        rw [tagOf_setTag]
        split
        · rename_i h
          rw [h.1, h.2]
        · rfl
      refine ⟨⟨fun k => Core.keeps_refl _, rfl, fun _ => ⟨rfl, rfl⟩, hput, rfl, fun c => ?_, fun c k => ?_, fun c k b => ?_⟩, rfl⟩
      · rw [setTag, State.updCrew_eq, State.crew_setCrew]
        split
        · rename_i h
          subst h
          rfl
        · rfl
      · rw [htag]
        split <;> rfl
      · rw [htag]
        split
        · rename_i h
          have hmc : (tagOf s c k).mapped = true := by rw [← h.1, ← h.2]; exact hm
          rw [getLsbD_orTwoPow _ _ _ hbit, hmc]
          have : decide (b < 8) = true ∨ (va % 1024 / 128 == b) = false := by
            by_cases hb : b < 8
            · exact .inl (decide_eq_true hb)
            · exact .inr (by simp; omega)
          rcases this with hb | hb <;> simp [sectorHit, h.1, h.2, hb]
        · rename_i h
          have : sectorHit s i va c k b = false := by
            unfold sectorHit
            by_cases hc : (s.sl i).crew = c
            · have hk : (va / 1024 == k) = false := beq_false_of_ne fun e => h ⟨hc, e⟩
              simp [hk]
            · simp [hc]
          rw [this, Bool.and_false, Bool.or_false]
    · rename_i hm
      refine ⟨⟨fun k => Core.keeps_refl _, rfl, fun _ => ⟨rfl, rfl⟩, hput, rfl, fun c => rfl, fun c k => rfl, fun c k b => ?_⟩, rfl⟩
      have : ((tagOf s c k).mapped && sectorHit s i va c k b) = false := by
        unfold sectorHit
        by_cases hc : (s.sl i).crew = c
        · by_cases hk : va / 1024 = k
          · rw [← hc, ← hk]
            simp [hm]
          · simp [hk]
        · simp [hc]
      show (tagOf s c k).sd.getLsbD b = _
      rw [Bool.and_right_comm, Bool.and_assoc (_ == _), this]
      simp

/-! ### A slice's stores -/

/-- STL as an instruction gives it. -/
structure StlForm where
  hdr : Hdr
  m   : MemOp
  sp  : LclSpace
  n   : Nat
  d   : Opnd

namespace StlForm

variable (f : StlForm)

def vec : Bool := memVec f.d f.m

/-- The lanes' accesses. -/
def accsOf (s : State) (j : Nat) : List LaneAcc := accsFor f.hdr f.vec f.m f.n s j

/-- Those that go to the homes of mapped bytes. -/
def home (s : State) (j : Nat) : List LaneAcc := if f.sp = .stash then unitHome s true (accsFor f.hdr f.vec f.m f.n) j else []

/-- Those that leave the slice's tiles. -/
def outs (s : State) (j : Nat) : List LaneAcc := if f.sp = .remote then f.accsOf s j else f.home s j

/-- Those that the slice's tiles take at once. -/
def near (s : State) (j : Nat) : List LaneAcc := (f.accsOf s j).filter fun a => f.sp != .remote && !(f.home s j).any fun e => e.lane == a.lane

/-- A slice's stores to its space. -/
def put (s : State) (j : Nat) (b : Mem) : Mem :=
  (f.near s j).foldl (fun b a => Mem.writeLE b (lclKeyOf s f.sp j a.va) f.n (storeVal (s.sl j) f.d f.n a.lane)) b

/-- The sectors that it stores to. -/
def dirty (s : State) (j : Nat) (c k b : Nat) : Bool :=
  (s.sl j).crew == c && (f.near s j).any fun a => a.va / 1024 == k && a.va % 1024 / 128 == b

/-- The access that it puts under way. -/
def access (s : State) (j : Nat) : Acc :=
  { accBase s s j (if f.sp = .remote then .remStore else .mapStore) f.hdr with
    pieces := (f.outs s j).flatMap fun a =>
      lanePieces (if f.sp = .remote then remoteOrd s j else pageOrd s (s.ctxOf j)) a.lane a.va f.n (storeVal (s.sl j) f.d f.n a.lane) 0
    size := f.n
    once := !f.vec
    whole := f.n == 4 && coversSector (s.cur.map (f.home s)) }

/-- Slice x goes on as y. -/
def Leaves (s : State) (j : Nat) (x y : Slice) : Prop :=
  if lanesFor f.vec f.hdr x = 0 then y = (atIssue x).next
  else ∃ id, y = { (atIssue x).next with accs := if (f.outs s j).isEmpty then x.accs else Tbl.put x.accs id (f.access s j) }

/-- STL's meaning, in the form's own words. -/
def meaning : Meaning where
  chk := chkRegs (memRegs f.d f.n f.m)
  lanes := lanesFor f.vec f.hdr
  pre := fun s i _ =>
    (((((((alignPre s i (f.accsOf s i)).next (localWaits s i (f.sp = .span))).next (localPre s i f.sp (f.accsOf s i))).next
      (ownerPre s i f.sp (f.accsOf s i))).next (memPre s .write false (!f.vec) (f.home s) i)).next (ordPre s i f.m)).next
      (strongPre s i (if f.sp = .remote then remoteAccs s i (f.accsOf s i) else f.home s i))).next
      ((localWaits s i (!(f.home s i).isEmpty)).next (ownRemotePre s i f.sp true (f.accsOf s i)))
  act := fun pre s i _ =>
    startAcc (useClr ((f.near pre i).foldl (fun s a => lclWrite s i f.sp a.va f.n (storeVal (pre.sl i) f.d f.n a.lane)) s) i .write
        (f.home pre i)) i
      { accBase pre s i (if f.sp = .remote then .remStore else .mapStore) f.hdr with
        pieces := (f.outs pre i).flatMap fun a =>
          lanePieces (if f.sp = .remote then remoteOrd pre i else pageOrd pre (s.ctxOf i)) a.lane a.va f.n (storeVal (pre.sl i) f.d f.n a.lane) 0
        size := f.n
        once := !f.vec
        whole := f.n == 4 && coversSector (pre.cur.map (f.home pre)) } [] 0
  jump := false
  occ := 1

end StlForm

theorem stl_exec (h : Hdr) (m : MemOp) (sp : LclSpace) (sz : LclSize) (d : Opnd) (s : State) :
    exec (.stl h m sp sz d) s = runUnit h (StlForm.meaning ⟨h, m, sp, lclBytes sz, d⟩) s := rfl

section
variable {f : StlForm} {s t : State} {j : Nat}

/-- What lets STL issue in slice j. -/
def StlForm.Open (f : StlForm) (s : State) (j : Nat) : Prop :=
  s.localOpen j f.sp f.n true (f.accsOf s j) ∧ s.writable j (f.home s j) ∧
    s.calm j (if f.sp = .remote then remoteAccs s j (f.accsOf s j) else f.home s j) ∧ s.orderMet j f.m

theorem localPre_go {sp : LclSpace} {as : List LaneAcc} (h : ∀ a ∈ as, localOk s j sp a.va = true) : localPre s j sp as = .go := by
  have : as.find? (fun a => !localOk s j sp a.va) = none := by
    rw [List.find?_eq_none]
    intro a ha
    simp [h a ha]
  rw [localPre, this]

theorem ownerPre_go {sp : LclSpace} {as : List LaneAcc}
    (hstash : sp = .stash → ∀ a ∈ as, (tagOf s (s.sl j).crew (a.va / 1024)).owner = .slices)
    (hspan : sp = .span → ∀ a ∈ as, (stagOf s (s.crewOf j).span (a.va / 4096)).owner = .slices) : ownerPre s j sp as = .go := by
  cases sp with
  | remote => rfl
  | stash =>
    have : as.find? (fun a => (tagOf s (s.sl j).crew (a.va / 1024)).owner != .slices) = none := by
      rw [List.find?_eq_none]
      intro a ha
      simp [hstash rfl a ha]
    simp only [ownerPre, this]
  | span =>
    have : as.find? (fun a => (stagOf s (s.crewOf j).span (a.va / 4096)).owner != .slices) = none := by
      rw [List.find?_eq_none]
      intro a ha
      simp [hspan rfl a ha]
    simp only [ownerPre, this]

theorem ownRemotePre_open {sp : LclSpace} {store : Bool} {as : List LaneAcc} (h : sp = .stash → ownRemote s j store as = []) :
    ownRemotePre s j sp store as = .go := by
  by_cases hsp : sp = .stash
  · subst hsp
    exact ownRemotePre_go (h rfl)
  · simp [ownRemotePre, hsp]

theorem StlForm.preOf_go (hr : regsOk (s.crewOf j) (memRegs f.d f.n f.m) = true)
    (hg : lanesFor f.vec f.hdr (s.sl j) ≠ 0 → f.Open s j) : preOf f.meaning s j = .go := by
  refine Machine.preOf_go _ _ _ (chkRegs_none hr) fun hl => ?_
  obtain ⟨⟨hlocal, hahead⟩, hwrite, hcalm, horder⟩ := hg hl
  have h1 : alignPre s j (f.accsOf s j) = .go := alignPre_go accsFor_n fun a ha => (hlocal a ha).1
  have h2 : localPre s j f.sp (f.accsOf s j) = .go := localPre_go fun a ha => (hlocal a ha).2.1
  have h3 : ownerPre s j f.sp (f.accsOf s j) = .go := ownerPre_go (fun h a ha => (hlocal a ha).2.2.1 h) fun h a ha => (hlocal a ha).2.2.2 h
  have hwaits : ∀ b, localWaits s j b = .go := fun b => localWaits_open fun _ => hcalm.2.1
  show (((((((alignPre s j (f.accsOf s j)).next (localWaits s j (f.sp = .span))).next (localPre s j f.sp (f.accsOf s j))).next
      (ownerPre s j f.sp (f.accsOf s j))).next (memPre s .write false (!f.vec) (f.home s) j)).next (ordPre s j f.m)).next
      (strongPre s j (if f.sp = .remote then remoteAccs s j (f.accsOf s j) else f.home s j))).next
      ((localWaits s j (!(f.home s j).isEmpty)).next (ownRemotePre s j f.sp true (f.accsOf s j))) = .go
  rw [h1, hwaits, h2, h3, memPre_write hwrite, ordPre_go horder, strongPre_go hcalm, hwaits, ownRemotePre_open hahead]
  rfl

/-- A slice's crew and its span are where the stores before it left them. -/
structure Placed (s t : State) (j : Nat) : Prop where
  slice : (t.sl j).crew = (s.sl j).crew
  span : (t.crewOf j).span = (s.crewOf j).span

theorem Placed.key {sp : LclSpace} (h : Placed s t j) (va : Nat) : lclKeyOf t sp j va = lclKeyOf s sp j va := by
  rw [lclKeyOf, lclKeyOf, h.slice, h.span]

theorem Placed.ofStep {sp : LclSpace} {put : Mem → Mem} {dirty : Nat → Nat → Nat → Bool} (h : LclStep sp put dirty s t)
    (hs : (t.sl j).crew = (s.sl j).crew) : Placed s t j :=
  ⟨hs, by rw [State.crewOf, hs, h.crew_span, State.crewOf]⟩

/-- A slice's near lanes store one after another. -/
theorem lclWrites_step {sp : LclSpace} {n : Nat} (v : LaneAcc → Nat) (l : List LaneAcc) (hsp : l ≠ [] → sp ≠ .remote) :
    ∀ t, Placed s t j →
    LclStep sp (fun b => l.foldl (fun b a => Mem.writeLE b (lclKeyOf s sp j a.va) n (v a)) b)
      (fun c k b => (s.sl j).crew == c && l.any fun a => a.va / 1024 == k && a.va % 1024 / 128 == b)
      t (l.foldl (fun t a => lclWrite t j sp a.va n (v a)) t) ∧
    (l.foldl (fun t a => lclWrite t j sp a.va n (v a)) t).slices = t.slices := by
  induction l with
  | nil =>
    intro t _
    exact ⟨(LclStep.ofAcc sp (AccRest.refl t)).congr (fun _ => rfl) fun c k b => by simp [noDirt], rfl⟩
  | cons a l ih =>
    intro t ht
    have hne := hsp (List.cons_ne_nil a l)
    obtain ⟨hone, hslices⟩ := lclWrite_step (s := t) (i := j) hne a.va n (v a)
    have hsl : ((lclWrite t j sp a.va n (v a)).sl j).crew = (t.sl j).crew := by rw [State.sl, hslices]; rfl
    have hu := Placed.ofStep hone hsl
    obtain ⟨hrest, hkeep⟩ := ih (fun _ => hne) _ ⟨hu.slice.trans ht.slice, hu.span.trans ht.span⟩
    refine ⟨(hone.trans hrest).congr (fun b => ?_) fun c k b => ?_, hkeep.trans hslices⟩
    · rw [ht.key, List.foldl_cons]
    · rw [sectorHit, ht.slice, ← Bool.and_or_distrib_left, List.any_cons]

/-- A slice's access is the same after the stores of the slices before it. -/
theorem accBase_lcl {sp : LclSpace} {put : Mem → Mem} {dirty : Nat → Nat → Nat → Bool} (h : LclStep sp put dirty s t) (ht : t.sl j = s.sl j)
    (kind : AccKind) (hd : Hdr) : accBase s (t.begun j) j kind hd = accBase s s j kind hd := by
  have hc : { (t.begun j).crewOf j with tags := (s.crewOf j).tags } = s.crewOf j := by
    rw [begun_crewOf, State.crewOf, ht]
    exact h.crews _
  have hctx : (t.begun j).ctxOf j = s.ctxOf j := by
    rw [State.ctxOf, State.ctxOf, ← hc]
  have hmask : ∀ x m, gangMask ((t.begun j).crewOf j) x m = gangMask (s.crewOf j) x m := fun x m => by rw [← hc]; rfl
  simp only [accBase, hctx, hmask, begun_self, ht]
  rfl

theorem StlForm.near_eq_nil_of_remote (h : f.sp = .remote) : f.near s j = [] := by
  rw [StlForm.near, h]
  exact List.filter_eq_nil_iff.mpr fun _ _ => by simp

/-- A slice where the guard fails has no lane to store. -/
theorem StlForm.near_eq_nil_of_lanes (h : lanesFor f.vec f.hdr (s.sl j) = 0) : f.near s j = [] := by
  have : f.accsOf s j = [] := if_pos h
  rw [StlForm.near, this]
  rfl

/-- Each lane that leaves the tiles has a part. -/
theorem StlForm.pieces_isEmpty (hn : 0 < f.n) : (f.access s j).pieces.isEmpty = (f.outs s j).isEmpty := by
  rw [StlForm.access]
  by_cases h : f.outs s j = []
  · rw [h]
    rfl
  · rw [List.isEmpty_eq_false_iff.mpr h]
    exact List.isEmpty_eq_false_iff.mpr (flatMap_ne_nil h fun _ _ => lanePieces_ne hn)

/-- STL in one slice. -/
theorem stl_actOf (hn : 0 < f.n) {put : Mem → Mem} {dirty : Nat → Nat → Nat → Bool} (hst : LclStep f.sp put dirty s t) (ht : t.sl j = s.sl j) :
    (∀ k, k ≠ j → (actOf f.meaning s t j).sl k = t.sl k) ∧ f.Leaves s j (t.sl j) ((actOf f.meaning s t j).sl j) ∧
    LclStep f.sp (f.put s j) (f.dirty s j) t (actOf f.meaning s t j) := by
  have hbegun : AccRest t (t.begun j) := AccRest.setSl t j _
  unfold StlForm.Leaves
  by_cases hl : lanesFor f.vec f.hdr (t.sl j) = 0
  · have hact : actOf f.meaning s t j = (t.begun j).setSl j ((t.begun j).sl j).next := if_pos hl
    have hnone := StlForm.near_eq_nil_of_lanes (ht ▸ hl)
    rw [if_pos hl, hact]
    refine ⟨fun k hk => ?_, ?_, ?_⟩
    · rw [State.sl_setSl_ne _ _ hk.symm, begun_ne hk]
    · rw [State.sl_setSl_self, begun_self]
    · refine (LclStep.ofAcc f.sp (hbegun.trans (AccRest.setSl _ j _))).congr (fun b => ?_) fun c k b => ?_
      · rw [StlForm.put, hnone]
        rfl
      · rw [StlForm.dirty, hnone, List.any_nil, Bool.and_false]
        rfl
  · have hplaced : Placed s (t.begun j) j := by
      have hcrew : ((t.begun j).sl j).crew = (s.sl j).crew := by rw [begun_self, ht]; rfl
      exact Placed.ofStep (hst.trans (LclStep.ofAcc f.sp hbegun)) hcrew
    obtain ⟨hstore, hstoreSl⟩ := lclWrites_step (n := f.n) (fun a => storeVal (s.sl j) f.d f.n a.lane) (f.near s j)
      (fun hne hsp => hne (StlForm.near_eq_nil_of_remote hsp)) (t.begun j) hplaced
    set w := (f.near s j).foldl (fun s' a => lclWrite s' j f.sp a.va f.n (storeVal (s.sl j) f.d f.n a.lane)) (t.begun j) with hw
    obtain ⟨hclr, hclrSl⟩ := useClr_rest w j .write (f.home s j)
    set v := useClr w j .write (f.home s j) with hv
    have hvsl : ∀ k, v.sl k = (t.begun j).sl k := fun k => by rw [State.sl, hclrSl, hstoreSl]; rfl
    obtain ⟨hrest, hothers, hself⟩ := startAcc_acc v j (f.access s j) [] 0
    set u := startAcc v j (f.access s j) [] 0 with hu
    have hctx : (t.begun j).ctxOf j = s.ctxOf j := congrArg Acc.ctx (accBase_lcl hst ht .store f.hdr)
    have hact : actOf f.meaning s t j = u.updSl j Slice.next := by
      rw [actOf_goes (m := f.meaning) hl rfl, hu, hv, hw]
      simp only [StlForm.meaning, accBase_lcl hst ht, hctx]
      rfl
    rw [StlForm.pieces_isEmpty hn, hvsl, begun_self] at hself
    simp only [List.length_nil, Nat.zero_add, if_true, List.map_nil, List.append_nil] at hself
    rw [if_neg hl, hact]
    refine ⟨fun k hk => ?_, ⟨v.nextId, ?_⟩, ?_⟩
    · rw [State.updSl_eq, State.sl_setSl_ne _ _ hk.symm, hothers k hk, hvsl, begun_ne hk]
    · rw [State.updSl_eq, State.sl_setSl_self, hself]
      rfl
    · refine ((((LclStep.ofAcc f.sp hbegun).trans hstore).trans (LclStep.ofAcc f.sp (hclr.trans hrest))).trans
        (LclStep.ofAcc f.sp (AccRest.setSl u j _))).congr (fun b => rfl) fun c k b => ?_
      simp [noDirt, StlForm.dirty]

/-- The slices before have kept slice j's own state and stored; slice by slice, the unit's stores are those of `put` and `dirty`. -/
theorem lclSlices {sp : LclSpace} {R : Nat → Slice → Slice → Prop} {g : State → Nat → State} {put : Nat → Mem → Mem}
    {dirty : Nat → Nat → Nat → Nat → Bool}
    (hg : ∀ p d t i, LclStep sp p d s t → t.sl i = s.sl i →
      (∀ k, k ≠ i → (g t i).sl k = t.sl k) ∧ R i (t.sl i) ((g t i).sl i) ∧ LclStep sp (put i) (dirty i) t (g t i)) :
    ∀ ids : List Nat, ids.Nodup → ∀ p d u, LclStep sp p d s u → (∀ i ∈ ids, u.sl i = s.sl i) →
      (∀ j ∈ ids, R j (s.sl j) ((ids.foldl g u).sl j)) ∧ (∀ j, j ∉ ids → (ids.foldl g u).sl j = u.sl j) ∧
      LclStep sp (fun b => ids.foldl (fun b j => put j b) b) (fun c k b => ids.any fun j => dirty j c k b) u (ids.foldl g u) := by
  intro ids
  induction ids with
  | nil => exact fun _ _ _ u _ _ => ⟨by simp, by simp, LclStep.ofAcc sp (AccRest.refl u)⟩
  | cons i l ih =>
    intro hnd p d u hu hp
    obtain ⟨hi, hl⟩ := List.nodup_cons.mp hnd
    have hpi := hp i List.mem_cons_self
    obtain ⟨hothers, hself, hstep⟩ := hg p d u i hu hpi
    obtain ⟨hr, hkeep, hrest⟩ := ih hl _ _ (g u i) (hu.trans hstep) fun k hk => by
      rw [hothers k fun e => hi (e ▸ hk)]
      exact hp k (List.mem_cons_of_mem _ hk)
    refine ⟨fun j hj => ?_, fun j hj => ?_, (hstep.trans hrest).congr (fun _ => rfl) fun _ _ _ => rfl⟩
    · rcases List.mem_cons.mp hj with rfl | hj
      · rw [List.foldl_cons, hkeep _ hi, ← hpi]
        exact hself
      · exact hr j hj
    · obtain ⟨hne, hj'⟩ := not_or.mp fun e => hj (List.mem_cons.mpr e)
      rw [List.foldl_cons, hkeep j hj', hothers j hne]

/-- A byte outside every near lane's address reads as before. -/
theorem read_puts (s : State) (k : Nat) (js : List Nat)
    (hk : ∀ j ∈ js, ∀ a ∈ f.near s j, k < lclKeyOf s f.sp j a.va ∨ lclKeyOf s f.sp j a.va + f.n ≤ k) (b : Mem) :
    Mem.read (js.foldl (fun b j => f.put s j b) b) k = Mem.read b k := by
  refine List.foldlRecOn (motive := fun b' => Mem.read b' k = Mem.read b k) js _ rfl fun b' hb j hj => ?_
  refine List.foldlRecOn (motive := fun b' => Mem.read b' k = Mem.read b k) (f.near s j) _ hb fun b' hb a ha => ?_
  rw [Mem.read_writeLE, if_neg, hb]
  have := hk j hj a ha
  omega

/-- A unit's local stores, once W and the issue slot are counted in. -/
theorem unitGo_lcl {h : Hdr} {m : Meaning} {sp : LclSpace} {R : Nat → Slice → Slice → Prop} {put : Nat → Mem → Mem}
    {dirty : Nat → Nat → Nat → Nat → Bool} (hn : s.cur.Nodup)
    (hf : ∀ p d t i, LclStep sp p d s t → t.sl i = s.sl i →
      (∀ k, k ≠ i → (actOf m s t i).sl k = t.sl k) ∧ R i (t.sl i) ((actOf m s t i).sl i) ∧ LclStep sp (put i) (dirty i) t (actOf m s t i)) :
    LclStep sp (fun b => s.cur.foldl (fun b j => put j b) b) (fun c k b => s.cur.any fun j => dirty j c k b) s
      { unitGo h m s with cur := s.cur } ∧ (unitGo h m s).cur = [] ∧
    (∀ j, j ∉ s.cur → (unitGo h m s).sl j = s.sl j) ∧ ∀ j ∈ s.cur, ∃ y, R j (s.sl j) y ∧ (unitGo h m s).sl j = waitW h y := by
  obtain ⟨hr, hkeep, hstep⟩ := lclSlices hf s.cur hn _ _ s (LclStep.ofAcc sp (AccRest.refl s)) fun _ _ => rfl
  set v := s.cur.foldl (actOf m s) s with hv
  obtain ⟨hwait, hothers, hrest⟩ := fold_own (markW h) (fun _ x => waitW h x) (fun _ _ => rfl) s.cur hn v
  have hslots := unitGo_slots h m s
  rw [← hv] at hslots
  set w := s.cur.foldl (markW h) v with hw
  have hsl : ∀ j, (unitGo h m s).sl j = w.sl j := fun j => by rw [← hslots.rest]; rfl
  have hcur : w.cur = s.cur := by
    have h1 : w.cur = v.cur := by rw [← hrest]
    have h2 : v.cur = s.cur := by rw [← hstep.rest]
    exact h1.trans h2
  have hmark : AccRest v w := by
    refine ⟨fun k => ?_, ?_⟩
    · rw [show w.core k = v.core k by rw [← hrest]; rfl]
      exact Core.keeps_refl _
    · rw [← hrest]
  have hslot : AccRest w { unitGo h m s with cur := s.cur } := by
    refine ⟨fun k => ?_, ?_⟩
    · rw [← hslots.cores k]
      exact Core.keeps_refl _
    · have := hslots.rest
      rw [hcur] at this
      rw [← this]
  refine ⟨(hstep.trans (LclStep.ofAcc sp (hmark.trans hslot))).congr (fun _ => rfl) fun c k b => by simp [noDirt], hslots.cur, fun j hj => ?_,
    fun j hj => ⟨_, hr j hj, ?_⟩⟩
  · rw [hsl, hothers j hj, hkeep j hj]
  · rw [hsl, hwait j hj]

end

theorem lclBytes_pos (sz : LclSize) : 0 < lclBytes sz := by
  cases sz <;> decide

/-- Settles O27: the unit's slices pass their checks; each stores its near lanes' data and puts its access under way. -/
theorem localStores : Obligations.LocalStores := by
  unfold Obligations.LocalStores
  intro s h m sp sz d hu vec n as key home near hr
  set f : StlForm := ⟨h, m, sp, n, d⟩ with hfdef
  have hn : 0 < f.n := lclBytes_pos sz
  have hgo : ∀ j ∈ s.cur, preOf f.meaning s j = .go := fun j hj => StlForm.preOf_go (hr j hj).1 (hr j hj).2
  obtain ⟨hstep, hcur, hothers, hsl⟩ := unitGo_lcl (h := h) (m := f.meaning) (R := f.Leaves s) hu.2 fun p d t i hst ht => stl_actOf hn hst ht
  set t := unitGo h f.meaning s with ht
  have hput : ∀ b, s.cur.foldl (fun b j => f.put s j b) b =
      s.cur.foldl (fun (b : Mem) j => (near j).foldl (fun b a => Mem.writeLE b (key j a.va) n (storeVal (s.sl j) d n a.lane)) b) b := fun _ => rfl
  refine ⟨t, (stl_exec h m sp sz d s).trans (runUnit_go _ _ _ hu.1 hgo), ⟨hothers, hstep.cores, ?_, hcur⟩, hstep.banks, ⟨?_, ?_⟩, fun k hk => ?_,
    hstep.crews, fun c k => ⟨hstep.tags c k, fun b => hstep.dirt c k b⟩, fun j hj => ?_⟩
  · have := hstep.rest
    rw [← this]
  · exact hstep.stash
  · exact hstep.scratch
  · have hread := read_puts (f := f) s k s.cur hk
    refine ⟨fun hsp => ?_, fun hsp => ?_⟩
    · rw [show t.stash = _ from hstep.stash, if_pos hsp]
      exact hread _
    · rw [show t.scratch = _ from hstep.scratch, if_pos hsp]
      exact hread _
  · obtain ⟨y, hy, hj'⟩ := hsl j hj
    rw [hj']
    unfold StlForm.Leaves at hy
    split at hy
    · rename_i hl
      rw [hy]
      exact Eq.mpr (if_pos hl) rfl
    · rename_i hl
      obtain ⟨id, rfl⟩ := hy
      refine Eq.mpr (if_neg hl) ⟨id, congrArg (waitW h) (Eq.trans ?_ (withoutEarly ..).symm)⟩
      cases hout : (f.outs s j).isEmpty <;> simp only [show ((if sp = .remote then as j else home j).isEmpty) = _ from hout] <;> rfl

end Sys2Proof.Machine
end

section
/-! PROOF. Keystone (O43, O44, O45): an instruction parks in front of its engine, and the engine's answer is the one run of the unit's operations (R193 to
R207, R350 to R352, R383). -/

namespace Sys2Proof.Machine

/-! ### Issue (R350, R351) -/

/-- What every Keystone instruction is: its own check of operands, then the memory, the accesses, the room and the park. -/
def ksMeaning (h : Hdr) (op : Instr) (val : State → Nat → Pre) : Meaning :=
  onceMeaning h anyRole
    (fun s i =>
      ((((val s i).next (ksMemory s s.cur (s.ksTable i) (s.ksBad i) op i)).next (accessPre s i)).next (ksRoom s op i)).next (.park (.keystone op s.cur)))
    fun _ s _ => s

/-- The operand check of each instruction (R350). -/
def ksCheck (op : Instr) (s : State) (i : Nat) : Pre :=
  match op with
  | .ddvar h _ a => operandIf (4096 ≤ rs32 s i h a)
  | .ddres h _ _ b c => operandIf (4096 ≤ rs32 s i h b || 2 ≤ rs32 s i h c)
  | .ddcnt h _ _ _ b _ => operandIf (rs32 s i h b == 0 || 4096 < rs32 s i h b)
  | .ddexp h _ _ b _ => operandIf (rs32 s i h b == 0 || 24 < rs32 s i h b)
  | .ddstat h _ a => operandIf (8 ≤ rs64 s i h a)
  | _ => .go

theorem ks_exec {i : Instr} {h : Hdr} {d : Opnd} (hf : ksForm i = some (h, d)) (s : State) : exec i s = runUnit h (ksMeaning h i (ksCheck i)) s := by
  cases i <;> simp only [ksForm, Option.some.injEq, Prod.mk.injEq, reduceCtorEq] at hf <;> obtain ⟨rfl, rfl⟩ := hf <;> rfl

theorem foldl_zip_map {α β γ : Type} (f : α → β) (g : γ → α × β → γ) (l : List α) (c : γ) :
    (l.zip (l.map f)).foldl g c = l.foldl (fun c a => g c (a, f a)) c := by
  induction l generalizing c with
  | nil => rfl
  | cons a l ih => exact ih _

/-- Slices of a unit that need nothing, or park at one wait, some of them parking. -/
theorem runUnit_parks {h : Hdr} {m : Meaning} {s : State} {c : Wait} {P : Nat → Prop} [DecidablePred P] (hc : s.cur ≠ [])
    (hp : ∀ j ∈ s.cur, preOf m s j = if P j then .go else .park c) (hsome : ∃ j ∈ s.cur, ¬ P j) :
    ∃ t, runUnit h m s = .next t ∧ SlotsOnly (s.cur.foldl (fun u j => if P j then u else parkAt c u j) s) t := by
  have hmap : s.cur.map (preOf m s) = s.cur.map fun j => if P j then .go else .park c := List.map_congr_left hp
  have hall : ∀ p ∈ s.cur.map (preOf m s), p = .go ∨ p = .park c := by
    intro p hp'
    obtain ⟨j, hj, rfl⟩ := List.mem_map.mp hp'
    rw [hp j hj]
    split <;> simp
  have htrap : unitTrap (s.cur.map (preOf m s)) = none := by
    have : (s.cur.map (preOf m s)).filterMap Pre.trap? = [] := List.filterMap_eq_nil_iff.mpr fun p hp' => by
      rcases hall p hp' with rfl | rfl <;> rfl
    rw [unitTrap, this]
    rfl
  have hask : (s.cur.map (preOf m s)).any Pre.isAsk = false := List.any_eq_false.mpr fun p hp' => by
    rcases hall p hp' with rfl | rfl <;> simp [Pre.isAsk]
  have hgo : (s.cur.map (preOf m s)).all Pre.isGo = false := by
    obtain ⟨j, hj, hn⟩ := hsome
    refine List.all_eq_false.mpr ⟨_, List.mem_map_of_mem hj, ?_⟩
    rw [hp j hj, if_neg hn]
    exact Bool.false_ne_true
  have honce : ∀ ps : List Pre, (∀ p ∈ ps, p = .go ∨ p = .park c) → askOnce [] ps = ps := by
    intro ps
    induction ps with
    | nil => exact fun _ => rfl
    | cons p ps ih =>
      intro hps
      have := ih fun q hq => hps q (List.mem_cons_of_mem _ hq)
      rcases hps p List.mem_cons_self with rfl | rfl <;> simp only [askOnce, this]
  refine ⟨unitWait (s.cur.map (preOf m s)) s, ?_, ?_⟩
  · unfold runUnit
    rw [if_neg (by simpa using hc)]
    dsimp only
    rw [htrap, hgo]
    rfl
  · have hfold : (s.cur.zip (s.cur.map (preOf m s))).foldl (fun u e => parkBefore u.cur false u e.1 e.2) s =
        s.cur.foldl (fun u j => if P j then u else parkAt c u j) s := by
      rw [foldl_zip_map]
      refine foldl_congr_mem _ _ _ (fun u j hj => ?_) s
      rw [hp j hj]
      split <;> rfl
    have hstate : unitWait (s.cur.map (preOf m s)) s = { endRun (s.cur.foldl (fun u j => if P j then u else parkAt c u j) s) s.cur with cur := [] } := by
      unfold unitWait
      rw [honce _ hall, hask, hfold]
    rw [hstate]
    exact (endRun_frame _ s.cur).endsIssue

theorem ksCheck_go {i : Instr} {s : State} {j : Nat} {h : Hdr} {d : Opnd} (hf : ksForm i = some (h, d))
    (hvar : ∀ d a, i = .ddvar h d a → rs32 s j h a < 4096) (hres : ∀ d a b c, i = .ddres h d a b c → rs32 s j h b < 4096 ∧ rs32 s j h c < 2)
    (hcnt : ∀ flt d a b c, i = .ddcnt h flt d a b c → 1 ≤ rs32 s j h b ∧ rs32 s j h b ≤ 4096)
    (hexp : ∀ d a b c, i = .ddexp h d a b c → 1 ≤ rs32 s j h b ∧ rs32 s j h b ≤ 24)
    (hstat : ∀ d a, i = .ddstat h d a → rs64 s j h a < 8) : ksCheck i s j = .go := by
  cases i <;> simp only [ksForm, Option.some.injEq, Prod.mk.injEq, reduceCtorEq] at hf
  case ddvar =>
    obtain ⟨rfl, rfl⟩ := hf
    exact if_neg (by simpa using hvar _ _ rfl)
  case ddres =>
    obtain ⟨rfl, rfl⟩ := hf
    exact if_neg (by simpa using hres _ _ _ _ rfl)
  case ddcnt =>
    obtain ⟨rfl, rfl⟩ := hf
    have := hcnt _ _ _ _ _ rfl
    exact if_neg (by simp; omega)
  case ddexp =>
    obtain ⟨rfl, rfl⟩ := hf
    have := hexp _ _ _ _ rfl
    exact if_neg (by simp; omega)
  case ddstat =>
    obtain ⟨rfl, rfl⟩ := hf
    exact if_neg (by simpa using hstat _ _ rfl)
  all_goals rfl

theorem ksRoom_go {i : Instr} {s : State} {j : Nat} {h : Hdr} {d : Opnd} (hf : ksForm i = some (h, d))
    (hexp : ∀ d a b c, i = .ddexp h d a b c → (s.sl j).outst.length < 32) : ksRoom s i j = .go := by
  cases i <;> simp only [ksForm, Option.some.injEq, Prod.mk.injEq, reduceCtorEq] at hf
  case ddexp =>
    obtain ⟨rfl, rfl⟩ := hf
    exact roomPre_go (hexp _ _ _ _ rfl)
  all_goals rfl

/-- Settles O43: each slice where the guard holds passes every check and comes to the park for the engine. -/
theorem keystoneIssue : Obligations.KeystoneIssue := by
  unfold Obligations.KeystoneIssue
  intro i h d s hf hu hsome hr
  have hpre : ∀ j ∈ s.cur, preOf (ksMeaning h i (ksCheck i)) s j = if perSlice h (s.sl j) = 0 then .go else .park (.keystone i s.cur) := by
    intro j hj
    show (if perSlice h (s.sl j) = 0 then Pre.go else _) = _
    split
    · rfl
    · rename_i hon
      obtain ⟨hvar, hres, hcnt, hexp, hstat, hmem, haccs⟩ := hr j hj hon
      have h1 := ksCheck_go hf hvar hres hcnt (fun d a b c e => ⟨(hexp d a b c e).1, (hexp d a b c e).2.1⟩) hstat
      have h2 : accessPre s j = .go := by rw [accessPre, haccs]; rfl
      have h3 := ksRoom_go hf fun d a b c e => (hexp d a b c e).2.2
      show ((((ksCheck i s j).next (ksMemory s s.cur (s.ksTable j) (s.ksBad j) i j)).next (accessPre s j)).next (ksRoom s i j)).next _ = _
      rw [h1, hmem, h2, h3]
      rfl
  obtain ⟨t, ht, hs⟩ := runUnit_parks (h := h) hu.1 hpre hsome
  exact ⟨t, (ks_exec hf s).trans ht, hs⟩

end Sys2Proof.Machine
end

section
/-! PROOF. The engine's answers (O44, O45): the unit's operations run one after another up to the first that faults; the answer of a unit of one slice
is that of its one operation (R193 to R207, R352, R383). -/

namespace Sys2Proof.Machine

/-! ### A unit's answer (R204, R207) -/

/-- What the answers of a unit's operations end with: a fault only as the last of them. -/
theorem ksAll_fault_last {s : State} {bad : Nat → Bool} {op : Instr} : ∀ (ids : List Nat) (t : KTable) (es : List (Nat × KAns)) (e : Nat × KAns),
    (ksAll s bad op ids t).2 = es ++ [e] → ∀ q ∈ es, ∀ c a n, q.2 ≠ .trap c a n := by
  intro ids
  induction ids with
  | nil => exact fun t es e h => absurd h (by simp [ksAll])
  | cons j js ih =>
    intro t es e h q hq c a n
    unfold ksAll at h
    split at h
    · obtain rfl : es = [] := by
        cases es with
        | nil => rfl
        | cons x xs => simp at h
      exact absurd hq List.not_mem_nil
    · rename_i t1 b hb hr
      cases es with
      | nil => exact absurd hq List.not_mem_nil
      | cons x xs =>
        obtain ⟨hx, hxs⟩ := List.cons.inj h
        rcases List.mem_cons.mp hq with rfl | hq
        · rw [← hx]
          exact hb c a n
        · exact ih t1 xs e hxs q hq c a n

/-- The fault among answers. -/
def KAns.fault (e : Nat × KAns) : Option (Nat × Nat × Nat × Nat) :=
  match e.2 with | .trap c a n => some (e.1, c, a, n) | _ => none

theorem findFault_none {l : List (Nat × KAns)} (h : ∀ e ∈ l, ∀ c a n, e.2 ≠ .trap c a n) : l.findSome? KAns.fault = none := by
  rw [List.findSome?_eq_none_iff]
  intro e he
  unfold KAns.fault
  split
  · exact absurd ‹_› (h e he _ _ _)
  · rfl

/-- A unit whose slices all wait for the engine, none of them refused or asking, has its operations run (R207). -/
theorem keystoneAnswer_runs {s : State} {j : Nat} {i : Instr} {ids : List Nat} {h : Hdr} {d : Opnd} (hf : ksForm i = some (h, d)) (hj : j ∈ ids)
    (hpark : ∀ k ∈ ids, (s.sl k).park = .before (.keystone i ids)) (hctx : ctxRuns s (s.ctxOf j) = true)
    (hgo : ∀ k ∈ ids, ksMemory s ids (s.ksTable j) (s.ksBad j) i k = .go ∧ ksRefusal s (s.ksTable j) (s.ksBad j) i k = none) :
    keystoneAnswer s j = match (ksAll s (s.ksBad j) i ids (s.ksTable j)).2.findSome? KAns.fault with
      | some f => ksStop s (coreTower (s.coreOf j)) (s.ctxOf j) (s.ksTable j) (s.ksBad j) i ids
          ((ksAll s (s.ksBad j) i ids (s.ksTable j)).2.map Prod.fst) f
      | none => (ksAll s (s.ksBad j) i ids (s.ksTable j)).2.foldl (fun u e => ksDeliver (s.ksTable j) (s.ksBad j) i h d u e.1 e.2)
          (s.ksSet j (ksAll s (s.ksBad j) i ids (s.ksTable j)).1) := by
  have hids : (ids.filter fun k => (s.sl k).park == .before (.keystone i ids)) = ids :=
    List.filter_eq_self.mpr fun k hk => by simp [hpark k hk]
  have hpres : ∀ p ∈ ids.map (ksMemory s ids (s.ksTable j) (s.ksBad j) i), p = Pre.go := by
    intro p hp
    obtain ⟨k, hk, rfl⟩ := List.mem_map.mp hp
    exact (hgo k hk).1
  have hrefuse : ((ids.filter fun k => (ksMemory s ids (s.ksTable j) (s.ksBad j) i k).isGo).findSome?
      (ksRefusal s (s.ksTable j) (s.ksBad j) i)) = none :=
    List.findSome?_eq_none_iff.mpr fun k hk => (hgo k (List.mem_filter.mp hk).1).2
  have htrap : unitTrap (ids.map (ksMemory s ids (s.ksTable j) (s.ksBad j) i)) = none := by
    have : (ids.map (ksMemory s ids (s.ksTable j) (s.ksBad j) i)).filterMap Pre.trap? = [] :=
      List.filterMap_eq_nil_iff.mpr fun p hp => by rw [hpres p hp]; rfl
    rw [unitTrap, this]
    rfl
  have hask : (ids.map (ksMemory s ids (s.ksTable j) (s.ksBad j) i)).any Pre.isAsk = false :=
    List.any_eq_false.mpr fun p hp => by rw [hpres p hp]; exact Bool.false_ne_true
  unfold State.ksTable State.ksBad at *
  unfold keystoneAnswer
  rw [hpark j hj]
  dsimp only
  rw [hids, hf]
  dsimp only
  rw [hctx, hrefuse, htrap, hask]
  rfl

theorem ksAnswers_holds (s : State) (j : Nat) (i : Instr) (ids : List Nat) : s.ksAnswers j i ids := by
  intro h d hf _ hj hpark hctx t bad r hgo
  have hrun := keystoneAnswer_runs hf hj hpark hctx hgo
  refine ⟨fun hans => ?_, fun es k c a n he => ?_⟩
  · rw [findFault_none hans] at hrun
    exact congrArg (fun u : State => (.next u : Out)) hrun
  · have hfault : r.2.findSome? KAns.fault = some (k, c, a, n) := by
      rw [he, List.findSome?_append, findFault_none (ksAll_fault_last ids t es _ he)]
      rfl
    rw [hfault] at hrun
    exact congrArg (fun u : State => (.next u : Out)) hrun

/-! ### A unit of one slice -/

theorem ksSet_only (s : State) (j : Nat) (k : KTable) : ∃ m q l, s.ksSet j k = { s with mem := m, keystone := q, osLog := l } := by
  have hlog : ∀ (l : List (Nat × KNode)) (u : State), (∃ m q o, u = { s with mem := m, keystone := q, osLog := o }) →
      ∃ m q o, l.foldl (fun u e => u.log "machine check" [coreTower (s.coreOf j), s.ctxOf j, e.1]) u = { s with mem := m, keystone := q, osLog := o } := by
    intro l
    induction l with
    | nil => exact fun u hu => hu
    | cons e l ih =>
      rintro u ⟨m, q, o, rfl⟩
      exact ih _ ⟨m, q, _, rfl⟩
  exact hlog _ _ ⟨_, _, _, rfl⟩

section
variable {s : State} {j : Nat} {i : Instr} {h : Hdr} {d : Opnd} (hf : ksForm i = some (h, d)) (hpark : (s.sl j).park = .before (.keystone i [j]))
  (hctx : ctxRuns s (s.ctxOf j) = true) (hmem : ksMemory s [j] (s.ksTable j) (s.ksBad j) i j = .go)
include hf hpark hctx hmem

/-- The operation of a unit of one slice answers, without a fault. -/
theorem ks_answers {k : KTable} {a : KAns} (hrun : ksRun s j (s.ksTable j) (s.ksBad j) i = (k, a)) (ha : ∀ c e n, a ≠ .trap c e n) :
    exec (.keystoneAnswer j) s = .next (ksDeliver (s.ksTable j) (s.ksBad j) i h d (s.ksSet j k) j a) := by
  have hall : ksAll s (s.ksBad j) i [j] (s.ksTable j) = (k, [(j, a)]) := by
    unfold ksAll
    rw [hrun]
    cases a with
    | trap c e n => exact absurd rfl (ha c e n)
    | _ => rfl
  have hrefuse : ksRefusal s (s.ksTable j) (s.ksBad j) i j = none := by
    unfold ksRefusal
    rw [hrun]
    cases a with
    | trap c e n => exact absurd rfl (ha c e n)
    | _ => rfl
  obtain ⟨hans, -⟩ := ksAnswers_holds s j i [j] h d hf (List.nodup_singleton j) List.mem_cons_self (List.forall_mem_singleton.mpr hpark) hctx
    (List.forall_mem_singleton.mpr ⟨hmem, hrefuse⟩)
  rw [hall] at hans
  exact hans (List.forall_mem_singleton.mpr ha)

/-- The operation of a unit of one slice meets a full table. -/
theorem ks_full {k : KTable} {e n : Nat} (hrun : ksRun s j (s.ksTable j) (s.ksBad j) i = (k, .trap cTableFull e n)) :
    exec (.keystoneAnswer j) s = .next (ksTrap (s.ksSet j (ksLeft s j (s.ksTable j) (s.ksBad j) i)) [j] j
      (ksLeft s j (s.ksTable j) (s.ksBad j) i).sweeps cTableFull e n) := by
  have hall : ksAll s (s.ksBad j) i [j] (s.ksTable j) = (k, [(j, .trap cTableFull e n)]) := by
    unfold ksAll
    rw [hrun]
  have hrefuse : ksRefusal s (s.ksTable j) (s.ksBad j) i j = none := by
    unfold ksRefusal
    rw [hrun]
    rfl
  obtain ⟨-, htrap⟩ := ksAnswers_holds s j i [j] h d hf (List.nodup_singleton j) List.mem_cons_self (List.forall_mem_singleton.mpr hpark) hctx
    (List.forall_mem_singleton.mpr ⟨hmem, hrefuse⟩)
  rw [hall] at htrap
  exact htrap [] j cTableFull e n rfl

end

/-! ### What an answer leaves in its slice -/

theorem wr_stays (t : Ty) (d : Opnd) (l : Nat) (v : DWord) (x : Slice) : (wr t d l v x).pc = x.pc ∧ (wr t d l v x).exhaust = x.exhaust := by
  have h := wr_rest t d l v x x.v x.s x.flags
  exact ⟨by simpa using congrArg Slice.pc h, by simpa using congrArg Slice.exhaust h⟩

theorem ksResult_val (h : Hdr) (d : Opnd) (v : Nat) (wide : Bool) (f : Flags) (x : Slice) : ksResult h d (.val v wide f) x =
    ksOver h (fun x => let y := wr (if wide then .u64 else .u32) d 0 (BitVec.ofNat 64 v) x; { y with flags := y.flags ||| f }) x := by
  obtain ⟨hpc, hex⟩ := wr_stays (if wide then .u64 else .u32) d 0 (BitVec.ofNat 64 v) x
  simp only [ksResult, ksOver, hpc, hex]
  rfl

/-- A handle raises no flag. -/
theorem ksResult_handle (h : Hdr) (d : Opnd) (v : Nat) (x : Slice) : ksResult h d (.val v false 0) x = ksOver h (wr .u32 d 0 (BitVec.ofNat 64 v)) x := by
  rw [ksResult_val]
  simp [ksOver]

theorem ksResult_pair (h : Hdr) (d : Opnd) (a b : Nat) (x : Slice) : ksResult h d (.pair a b) x =
    ksOver h (fun x => wr .u64 (Opnd.plus d 1) 0 (BitVec.ofNat 64 b) (wr .u64 d 0 (BitVec.ofNat 64 a) x)) x := by
  obtain ⟨hpc, hex⟩ := wr_stays .u64 d 0 (BitVec.ofNat 64 a) x
  obtain ⟨hpc', hex'⟩ := wr_stays .u64 (Opnd.plus d 1) 0 (BitVec.ofNat 64 b) (wr .u64 d 0 (BitVec.ofNat 64 a) x)
  simp only [ksResult, ksOver, hpc', hex', hpc, hex]
  rfl

/-- A full table, found by an operation that has changed the engine's table to `k` (R203, R241). -/
theorem ksTrap_full {s : State} {j : Nat} {k : KTable} {n : Nat} {w : Word} (hcan : s.canTrap j) : ksTrap (s.ksSet j k) [j] j w cTableFull 0 n =
    ((s.ksSet j k).updSl j fun x => { x with exhaust := some (x.pc, w) }).trapped j
      (if ∃ m, (s.sl j).exhaust = some ((s.sl j).pc, m) ∧ m ≠ w then 0x11 else 0x10) 0 (BitVec.ofNat 64 n)
      (gangMask (s.crewOf j) (s.sl j) (s.sl j).active) := by
  obtain ⟨m, q, o, hs⟩ := ksSet_only s j k
  rw [hs]
  set u : State := { s with mem := m, keystone := q, osLog := o } with hu
  set v := u.setSl j { u.sl j with exhaust := some ((u.sl j).pc, w) } with hv
  have hsl : v.sl j = { s.sl j with exhaust := some ((s.sl j).pc, w) } := State.sl_setSl_self ..
  have hcrew : v.crewOf j = s.crewOf j := by rw [State.crewOf, hsl]; rfl
  have hvec : trapvecNow v j = trapvecNow s j := by
    unfold trapvecNow ctxRegNow State.ctxOf
    rw [hcrew]
    rfl
  have hcanV : v.canTrap j := by
    obtain ⟨hout, hgen, hhandler, hmode⟩ := hcan
    exact ⟨by rw [hsl]; exact hout, hcrew ▸ hgen, hvec ▸ hhandler, by rw [hsl]; exact hmode⟩
  have hcode : (if (match (s.sl j).exhaust with | some (pc, n) => pc == (s.sl j).pc && n != w | none => false) then cExhausted else cTableFull) =
      if ∃ m, (s.sl j).exhaust = some ((s.sl j).pc, m) ∧ m ≠ w then 0x11 else 0x10 := by
    rcases (s.sl j).exhaust with _ | ⟨pc, m⟩
    · simp [cTableFull]
    · simp [cTableFull, cExhausted]
  have hmask : unitActive v [j] = gangMask (s.crewOf j) (s.sl j) (s.sl j).active := by
    rw [← hcrew]
    refine (BitVec.zero_or (x := gangMask (v.crewOf j) (v.sl j) (v.sl j).active)).trans ?_
    rw [hsl]
    rfl
  rw [← hcode, ← hmask]
  refine Eq.trans ?_ (takeTrap_trapped v j _ _ _ _ hcanV ?_)
  · rfl
  · generalize (match (s.sl j).exhaust with | some (pc, n) => pc == (s.sl j).pc && n != w | none => false) = again
    cases again <;> decide

/-! ### Operations that make diagrams (R200, R203) -/

section
variable {s : State} {j : Nat} {i : Instr} {h : Hdr} {d : Opnd} {r : KTable × KOut}
  (hr : ksDiagram s j (s.ksTable j) (s.ksBad j) i = some r)
include hr

/-- They touch no memory but their table. -/
theorem ksDiagram_memory (ids : List Nat) (t : KTable) (bad : Nat → Bool) (u : State) (k : Nat) :
    ksMemory u ids t bad i k = .go ∧ ksMask u k t bad i = none ∧ ksReads u k t bad i = [] := by
  cases i <;> simp only [ksDiagram, reduceCtorEq] at hr <;> refine ⟨?_, rfl, rfl⟩ <;> exact ite_self _

theorem ksDiagram_run : ksRun s j (s.ksTable j) (s.ksBad j) i = kFinish (s.ksBad j) r := by
  unfold ksRun
  rw [hr]

theorem ksDiagram_left : ksLeft s j (s.ksTable j) (s.ksBad j) i = r.1 := by
  unfold ksLeft
  rw [hr]

/-- The four ends of an operation that makes a diagram: its header and destination are those of its instruction. -/
structure State.DiagramEnds (s : State) (j : Nat) (h : Hdr) (d : Opnd) (r : KTable × KOut) : Prop where
  handle : ∀ n k, r.2 = .ok n → kGive (s.ksBad j) r.1 n = (k, .ok n) → exec (.keystoneAnswer j) s =
    .next ((s.ksSet j (kRef k n true)).updSl j (ksOver h (wr .u32 d 0 (BitVec.ofNat 64 n))))
  lost : ∀ n k, r.2 = .ok n → kGive (s.ksBad j) r.1 n = (k, .poison) → exec (.keystoneAnswer j) s =
    .next ((s.ksSet j { k with poison := k.poison + 1 }).updSl j (ksOver h (wr .u32 d 0 0xFFFFFFFF)))
  poison : r.2 = .poison → exec (.keystoneAnswer j) s =
    .next ((s.ksSet j { r.1 with poison := r.1.poison + 1 }).updSl j (ksOver h (wr .u32 d 0 0xFFFFFFFF)))
  full : r.2 = .full → s.canTrap j → exec (.keystoneAnswer j) s = .next
    (((s.ksSet j r.1).updSl j fun x => { x with exhaust := some (x.pc, r.1.sweeps) }).trapped j
      (if ∃ n, (s.sl j).exhaust = some ((s.sl j).pc, n) ∧ n ≠ r.1.sweeps then 0x11 else 0x10) 0 (BitVec.ofNat 64 r.1.nodes.length)
      (gangMask (s.crewOf j) (s.sl j) (s.sl j).active))

theorem ksDiagram_ends (hf : ksForm i = some (h, d)) (hpark : (s.sl j).park = .before (.keystone i [j]))
    (hctx : ctxRuns s (s.ctxOf j) = true) : s.DiagramEnds j h d r := by
  have hmem := (ksDiagram_memory hr [j] (s.ksTable j) (s.ksBad j) s j).1
  have hrun := ksDiagram_run hr
  have hval : ∀ k n, kFinish (s.ksBad j) r = (k, .val n false 0) →
      exec (.keystoneAnswer j) s = .next ((s.ksSet j k).updSl j (ksOver h (wr .u32 d 0 (BitVec.ofNat 64 n)))) := by
    intro k n hk
    rw [ks_answers hf hpark hctx hmem (hrun.trans hk) (by simp)]
    obtain ⟨-, hmask, hreads⟩ := ksDiagram_memory hr [] (s.ksTable j) (s.ksBad j) (s.ksSet j k) j
    unfold ksDeliver
    rw [hmask, hreads]
    exact congrArg (fun f => (.next ((s.ksSet j k).updSl j f) : Out)) (funext fun x => ksResult_handle h d n x)
  obtain ⟨t, o⟩ := r
  refine ⟨fun n k ho hg => hval _ _ ?_, fun n k ho hg => hval _ kPoison ?_, fun ho => hval _ kPoison ?_, fun ho hcan => ?_⟩
  · obtain rfl := ho
    simp only [kFinish, hg]
  · obtain rfl := ho
    simp only [kFinish, hg]
  · obtain rfl := ho
    rfl
  · obtain rfl := ho
    rw [ks_full hf hpark hctx hmem hrun, ksDiagram_left hr]
    exact congrArg (fun u => (.next u : Out)) (ksTrap_full hcan)

end

theorem kOperands_poison {bad : Nat → Bool} {t : KTable} {hs : List Nat} (hh : ∀ x ∈ hs, kHandle t x = true) (hb : ∃ x ∈ hs, kBad t x = true) :
    kOperands bad t hs = (t, .poison) := by
  have h1 : (hs.any fun h => !kHandle t h) = false := List.any_eq_false.mpr fun x hx => by simp [hh x hx]
  rw [kOperands, h1, if_neg Bool.false_ne_true, if_pos (List.any_eq_true.mpr hb)]

theorem kOperands_given {bad : Nat → Bool} {t : KTable} {hs : List Nat} (hh : ∀ x ∈ hs, kHandle t x = true) (hb : ∀ x ∈ hs, kBad t x = false) :
    kOperands bad t hs = hs.foldl (fun r x => kBind r fun k _ => kGive bad k x) (t, .ok 0) := by
  have h1 : (hs.any fun h => !kHandle t h) = false := List.any_eq_false.mpr fun x hx => by simp [hh x hx]
  have h2 : hs.any (kBad t) = false := List.any_eq_false.mpr fun x hx => by simp [hb x hx]
  rw [kOperands, h1, if_neg Bool.false_ne_true, h2, if_neg Bool.false_ne_true]

/-- DDAPP, DDITE, DDNOT and DDRES take their operands and then run. -/
theorem Diagrams.diagram {i : Instr} {f : DiagramForm} (hi : Diagrams i f) (s : State) (j : Nat) (t : KTable) (bad : Nat → Bool) :
    ksForm i = some (f.hdr, f.dst) ∧ ksDiagram s j t bad i = some (kOp bad t (f.hs s j) (f.run s j bad)) := by
  cases hi <;> exact ⟨rfl, rfl⟩

/-- Settles O44: a unit is answered as its operations run, and a unit of one slice as its one operation ends. -/
theorem keystoneDiagrams : Obligations.KeystoneDiagrams := by
  unfold Obligations.KeystoneDiagrams
  refine ⟨fun s j i ids _ => ksAnswers_holds s j i ids, ?_⟩
  intro s j i hpark hctx t bad poison answers
  have hends : ∀ (h : Hdr) (d : Opnd) (r : KTable × KOut), ksForm i = some (h, d) → ksDiagram s j t bad i = some r → answers h d r := by
    intro h d r hf hr
    obtain ⟨hhandle, hlost, hpoison, hfull⟩ := ksDiagram_ends hr hf hpark hctx
    exact ⟨hhandle, hlost, hpoison, hfull⟩
  refine ⟨fun h d a hi => ?_, fun f hi hh => ?_, fun h all d a b k n k2 hi ha hb hna hnb hgive hcube => ?_⟩
  · subst hi
    exact hends h d _ rfl rfl
  · obtain ⟨hf, hr⟩ := hi.diagram s j t bad
    refine ⟨fun hb => ?_, fun hb => ⟨fun k hk => ?_, fun k n hk => ?_⟩⟩
    · rw [kOp, kOperands_poison hh hb] at hr
      exact hends _ _ _ hf hr
    · rw [kOp, kOperands_given hh hb, hk] at hr
      exact hends _ _ _ hf hr
    · rw [kOp, kOperands_given hh hb, hk] at hr
      exact hends _ _ _ hf hr
  · subst hi
    refine hends h d _ rfl ?_
    have hops : kOperands bad t [rs32 s j h a, rs32 s j h b] = (k, .ok n) := by
      rw [kOperands_given (by simp [ha, hb]) (by simp [hna, hnb])]
      exact hgive
    simp only [ksDiagram, kOp, hops, kBind, hcube]

end Sys2Proof.Machine
end

section
/-! PROOF. The engine's answers that count, expand, reference, sweep, order or look (O45): each leaves its table and its result (R195, R197, R198, R201,
R202, R206, R352, R383). -/

namespace Sys2Proof.Machine

/-- A table put back changes no slice, no crew and no context. -/
theorem ksSet_reads (s : State) (j : Nat) (k t : KTable) (bad : Nat → Bool) (i : Instr) :
    ksMask (s.ksSet j k) j t bad i = ksMask s j t bad i ∧ ksReads (s.ksSet j k) j t bad i = ksReads s j t bad i ∧
    (s.ksSet j k).ctxOf j = s.ctxOf j ∧ (s.ksSet j k).crewOf j = s.crewOf j ∧ (s.ksSet j k).sl j = s.sl j := by
  obtain ⟨m, q, o, hs⟩ := ksSet_only s j k
  rw [hs]
  exact ⟨rfl, rfl, rfl, rfl, rfl⟩

/-- The engine refuses nothing, and the memory stands (R351). -/
theorem ksMemory_go {s : State} {j : Nat} {t : KTable} {bad : Nat → Bool} {i : Instr} (hbar : ksBarred s j t bad i = false)
    (halign : ksAlign s j i = .go) (hstand : ksStand s j t bad i = .ok) : ksMemory s [j] t bad i j = .go := by
  rw [ksMemory, List.any_cons, hbar, List.any_nil, halign, hstand]
  rfl

section
variable {s : State} {j : Nat} {i : Instr} {h : Hdr} {d : Opnd} (hf : ksForm i = some (h, d)) (hpark : (s.sl j).park = .before (.keystone i [j]))
  (hctx : ctxRuns s (s.ctxOf j) = true) {k : KTable} {a : KAns}
include hf hpark hctx

/-- An operation that touches no memory but its table. -/
theorem ks_leaves (hmem : ksMemory s [j] (s.ksTable j) (s.ksBad j) i j = .go) (hrun : ksRun s j (s.ksTable j) (s.ksBad j) i = (k, a))
    (ha : ∀ c e n, a ≠ .trap c e n) (hmask : ksMask s j (s.ksTable j) (s.ksBad j) i = none)
    (hreads : ksReads s j (s.ksTable j) (s.ksBad j) i = []) {f : Slice → Slice} (hres : ∀ x, ksResult h d a x = ksOver h f x) :
    exec (.keystoneAnswer j) s = .next ((s.ksSet j k).updSl j (ksOver h f)) := by
  obtain ⟨hm, hr, -⟩ := ksSet_reads s j k (s.ksTable j) (s.ksBad j) i
  rw [ks_answers hf hpark hctx hmem hrun ha, ksDeliver, hm, hmask, hr, hreads]
  exact congrArg (fun g => (.next ((s.ksSet j k).updSl j g) : Out)) (funext hres)

/-- An operation that reads memory. -/
theorem ks_touches (hmem : ksMemory s [j] (s.ksTable j) (s.ksBad j) i j = .go) (hrun : ksRun s j (s.ksTable j) (s.ksBad j) i = (k, a))
    (ha : ∀ c e n, a ≠ .trap c e n) (hmask : ksMask s j (s.ksTable j) (s.ksBad j) i = none) {l : List (Nat × Nat)}
    (hreads : ksReads s j (s.ksTable j) (s.ksBad j) i = l) {f : Slice → Slice} (hres : ∀ x, ksResult h d a x = ksOver h f x) :
    exec (.keystoneAnswer j) s = .next ((ksTouch (s.ksSet j k) j l).updSl j (ksOver h f)) := by
  obtain ⟨hm, hr, -⟩ := ksSet_reads s j k (s.ksTable j) (s.ksBad j) i
  rw [ks_answers hf hpark hctx hmem hrun ha, ksDeliver, hm, hmask, hr, hreads]
  exact congrArg (fun g => (.next ((ksTouch (s.ksSet j k) j l).updSl j g) : Out)) (funext hres)

/-- DDEXP puts its mask under way. -/
theorem ks_expands (hmem : ksMemory s [j] (s.ksTable j) (s.ksBad j) i j = .go) (hrun : ksRun s j (s.ksTable j) (s.ksBad j) i = (k, a))
    (ha : ∀ c e n, a ≠ .trap c e n) {va : Nat} {m : List Byte} (hmask : ksMask s j (s.ksTable j) (s.ksBad j) i = some (va, m)) :
    exec (.keystoneAnswer j) s = .next (ksExpand h d (s.ksSet j k) j va m) := by
  obtain ⟨hm, -⟩ := ksSet_reads s j k (s.ksTable j) (s.ksBad j) i
  rw [ks_answers hf hpark hctx hmem hrun ha, ksDeliver, hm, hmask]

end

/-- References are counted at a node that the engine can read, or that is quarantined (R197). -/
theorem kCount_node {bad : Nat → Bool} {t : KTable} {x : Nat} {n : KNode} {up : Bool} (hn : Tbl.find t.nodes x = some n) (hlt : x < 2 ^ t.nlog)
    (hge : 2 ≤ x) (hx : x ≠ 0xFFFFFFFF) (hread : n.psn = true ∨ bad x = false) (href : up = false → n.ref ≠ 0) :
    kCount bad t x up = (kRef t x up, .unit) := by
  have hhandle : kHandle t x = true := by simp [kHandle, hlt]
  have hok : (!n.psn && bad x) = false := by rcases hread with h | h <;> simp [h]
  have hcount : (!up && decide (n.ref = 0)) = false := by cases up with
    | true => rfl
    | false => simpa using href rfl
  have hnone : (decide (x < 2) || decide (x = kPoison)) = false := by
    have : x ≠ kPoison := hx
    simp only [this, decide_false, Bool.or_false, decide_eq_false_iff_not]
    omega
  rw [kCount, hhandle, hnone, hn]
  simp only [hok, hcount, Bool.not_true, Bool.false_eq_true, if_false]

/-- DDNODE of a node that the engine can read (R352). -/
theorem kNodePair_node {bad : Nat → Bool} {t : KTable} {x : Nat} {n : KNode} (hn : Tbl.find t.nodes x = some n) (hge : 2 ≤ x) (hlt : x < 2 ^ t.nlog)
    (hpsn : n.psn = false) (hbad : bad x = false) : kNodePair bad t x = (t, .pair (n.lo + 2 ^ 32 * n.hi) (n.var + 2 ^ 16 * n.ref + 2 ^ 63)) := by
  have hhandle : kHandle t x = true := by simp [kHandle, hlt]
  have hread : (kRead bad t x).1 = t := by simp [kRead, hn, hpsn, hbad]
  have hnode : ¬ x < 2 := by omega
  simp only [kNodePair, hhandle, hread, Bool.not_true, Bool.false_eq_true, if_false, if_neg hnode, hn, hpsn, Nat.add_zero]

/-- Settles O45: each operation by what it makes of the table and what it answers. -/
theorem keystoneQueries : Obligations.KeystoneQueries := by
  unfold Obligations.KeystoneQueries
  refine ⟨fun s j i ids _ => ksAnswers_holds s j i ids, ?_⟩
  intro s j i hpark hctx t bad leaves
  refine ⟨?_, ?_, ?_, ?_, ?_, ?_, ?_, ?_, ?_⟩
  · intro h d a b c k ns hi hns
    subst hi
    have hmem : ksMemory s [j] t bad (.ddcnt h false d a b c) j = .go := ksMemory_go rfl rfl rfl
    refine ks_leaves rfl hpark hctx hmem (a := .val (cntRun cntInt k ns (rs32 s j h a) (rs32 s j h b)).1 true
      (cntRun cntInt k ns (rs32 s j h a) (rs32 s j h b)).2.fl) ?_ (by simp) rfl rfl fun x => ksResult_val ..
    show ksRun s j t bad _ = _
    simp only [ksRun, ksDiagram, hns]
    rfl
  · intro h d a b c k ns hi hns halign hstand
    subst hi
    have hbar : ksBarred s j t bad (.ddcnt h true d a b c) = false := by simp only [ksBarred, hns]
    refine ks_touches rfl hpark hctx (ksMemory_go hbar halign hstand) (a := .val (cntRun (cntFloat (ksWeights s j (rs64 s j h c))) k ns (rs32 s j h a)
      (rs32 s j h b)).1 true (cntRun (cntFloat (ksWeights s j (rs64 s j h c))) k ns (rs32 s j h a) (rs32 s j h b)).2.fl) ?_ (by simp) rfl ?_
      fun x => ksResult_val ..
    · show ksRun s j t bad _ = _
      simp only [ksRun, ksDiagram, hns]
      rfl
    · show ksReads s j t bad _ = _
      simp only [ksReads, hns]
  · intro h d a b c k m hi hm halign hstand u va
    subst hi
    have hbar : ksBarred s j t bad (.ddexp h d a b c) = false := by simp only [ksBarred, hm]
    have hmask : ksMask s j t bad (.ddexp h d a b c) = some (va, m) := by simp only [ksMask, hm]; rfl
    have hrun : ksRun s j t bad (.ddexp h d a b c) = (k, .val (maskOnes m) false 0) := by simp only [ksRun, ksDiagram, hm]
    obtain ⟨-, -, hctxOf, hcrew, hsl⟩ := ksSet_reads s j k t bad (.ddexp h d a b c)
    rw [ks_expands rfl hpark hctx (ksMemory_go hbar halign hstand) hrun (by simp) hmask]
    unfold ksExpand maskAcc
    rw [hctxOf, hcrew, hsl]
    rfl
  · intro h a n hi hn hlt hge hx hread
    subst hi
    exact ks_leaves rfl hpark hctx (ksMemory_go rfl rfl rfl) (kCount_node hn hlt hge hx hread (by simp)) (by simp) rfl rfl fun x => rfl
  · intro h a n hi hn hlt hge hx hread href
    subst hi
    exact ks_leaves rfl hpark hctx (ksMemory_go rfl rfl rfl) (kCount_node hn hlt hge hx hread fun _ => href) (by simp) rfl rfl fun x => rfl
  · intro h hi
    subst hi
    exact ks_leaves rfl hpark hctx (ksMemory_go rfl rfl rfl) (a := .unit) rfl (by simp) rfl rfl fun x => rfl
  · intro h a hi hnodes hperm halign hstand k
    subst hi
    have hempty : t.nodes.isEmpty = true := by rw [hnodes]; rfl
    have hbar : ksBarred s j t bad (.ddord h a) = false := by simp only [ksBarred, hempty, Bool.not_true]
    refine ks_touches rfl hpark hctx (ksMemory_go hbar halign hstand) (a := .unit) ?_ (by simp) rfl ?_ fun x => rfl
    · show ksRun s j t bad _ = _
      simp only [ksRun, ksDiagram, hempty, hperm, Bool.not_true, Bool.or_self, Bool.false_eq_true, if_false]
      rfl
    · show ksReads s j t bad _ = _
      simp only [ksReads, hempty, if_true]
  · intro h d a hi
    subst hi
    refine ks_leaves rfl hpark hctx (ksMemory_go rfl rfl rfl) (a := .val (kStat t (rs64 s j h a)) true 0) rfl (by simp) rfl rfl fun x => ?_
    rw [ksResult_val]
    simp [ksOver]
  · intro h d a n hi hn hge hlt hpsn hbad
    subst hi
    exact ks_leaves rfl hpark hctx (ksMemory_go rfl rfl rfl) (kNodePair_node hn hge hlt hpsn hbad) (by simp) rfl rfl fun x => ksResult_pair ..

end Sys2Proof.Machine
end

section
/-! PROOF. Launches (O47): LAUNCH, LWAIT and MIGR in a unit of one slice whose checks let it issue, and FY.LAUNCH check by check (R227 to R231, R233,
R357 to R359). -/

namespace Sys2Proof.Machine

/-! ### LAUNCH, LWAIT and MIGR -/

section
variable {s : State} {j : Nat} {h : Hdr} {d a : Opnd} (hc : s.cur = [j]) (hl : perSlice h (s.sl j) ≠ 0)
include hc

/-- What a unit of one slice looks at lets it issue. -/
theorem State.each_one {P : Nat → Prop} (hP : P j) : s.each h P := fun k hk _ => by
  rw [hc, List.mem_singleton] at hk
  exact hk ▸ hP

include hl

/-- The record and its predecessors' words pass, and the tower has room. -/
theorem launch_accepts (halign : rs64 s j h a % 128 = 0) (haccs : (s.sl j).accs = []) (hrel : s.released j true)
    (hstill : (s.cluster (coreCluster (s.coreOf j))).raising = none) (hstand : standRead s (sliceParty s j) true [(rs64 s j h a, 128)] = .ok)
    (hfields : recFieldsOk s (recAt s j (rs64 s j h a)) = true)
    (hpreds : standRead s (sliceParty s j) true (predRanges (recAt s j (rs64 s j h a))) = .ok)
    (hrec : recOk s (recAt s j (rs64 s j h a)) (sliceWord s j) = true) (hroom : (s.tower (coreTower (s.coreOf j))).pending.length < 64) :
    CompletesOne (.launch h d a) h j
      (let u := s.begun j
       let rs := (rs64 s j h a, 128) :: predRanges (recAt s j (rs64 s j h a))
       let r := acceptLaunch (injectUnit (rs.foldl (fun t e => poisonMet s t j e.1 e.2) (sliceReads u j rs)) (s.coreOf j)
         (crewClass s (s.sl j).crew) 2 (coreTower (s.coreOf j)) none) (s.ctxOf j) (coreTower (s.coreOf j)) (rs64 s j h a) (recAt s j (rs64 s j h a))
       r.1.updSl j fun x => standAt (.clock 0) (wr .u64 d 0 r.2 x)) s := by
  have hfull : pendingFull s (coreTower (s.coreOf j)) = false := decide_eq_false (Nat.not_le.mpr hroom)
  have hrecord : recordPre h a s j = .go := by
    simp only [recordPre, halign, bne_self_eq_false, Bool.false_eq_true, if_false, accessPre_go haccs, relPre_go hrel, hstand, l2wpPre_open hstill]
    rfl
  have hpredsPre : predsPre h a s j = .go := by
    simp only [predsPre, hfields, hpreds, Bool.not_true, Bool.false_eq_true, if_false]
    rfl
  have haccept : acceptPre h a s j = .go := by
    simp only [acceptPre, hrec, hfull, Bool.not_true, Bool.false_eq_true, if_false]
  have hreads : launchReads h a s = s := by
    unfold launchReads
    dsimp only
    rw [unitLooks_go (State.each_one hc (by rw [hpredsPre, haccept]; rfl)), unitLooks_go (State.each_one hc haccept)]
  have hpre : launchPre h a s j = .go := by
    rw [launchPre, hrecord, hpredsPre, haccept]
    rfl
  have hdo := completesOne_once (i := .launch h d a) (congrArg (runUnit h _) hreads) hc hl rfl hpre
  have hcls : crewClass (s.begun j) ((s.begun j).sl j).crew = crewClass s (s.sl j).crew := by rw [begun_self]; rfl
  have hgo : (recOk (s.begun j) (recAt s j (rs64 s j h a)) (sliceWord s j) &&
      !(((s.begun j).cur.takeWhile (· != j)).any fun k => rs64 s k h a == rs64 s j h a) &&
      !pendingFull (s.begun j) (coreTower (s.coreOf j))) = true := by
    have hcur : (s.begun j).cur = [j] := hc
    have hfirst : ([j].takeWhile (· != j)) = [] := by simp
    rw [hcur, hfirst, show recOk (s.begun j) = recOk s from rfl, show pendingFull (s.begun j) = pendingFull s from rfl, hrec, hfull]
    rfl
  simp only [begun_coreOf, begun_ctxOf, hcls, if_pos hgo] at hdo
  exact hdo

theorem lwait_returns (halign : rs64 s j h a % 8 = 0) (hstand : standRead s (sliceParty s j) false [(rs64 s j h a, 8)] = .ok)
    (hown : ownPre s j [⟨0, rs64 s j h a, 8⟩] = .go) (hstrong : strongPre s j [⟨0, rs64 s j h a, 8⟩] = .go)
    (hstill : (s.cluster (coreCluster (s.coreOf j))).raising = none) (hdone : hwDone (sliceWord s j (rs64 s j h a)) = true)
    (hacc : hwAcc (sliceWord s j (rs64 s j h a)) = true ∨ (s.sl j).begun ≠ none) :
    CompletesOne (.lwait h d a) h j
      (poisonMet s ((sliceReads (s.begun j) j [(rs64 s j h a, 8)]).updSl j fun x =>
        standAt (.clock 0) (wr .u64 d 0 (BitVec.ofNat 64 (sliceWord s j (rs64 s j h a))) x)) j (rs64 s j h a) 8) s := by
  have hhandle : handlePre h a s j = .go := by
    simp only [handlePre, halign, bne_self_eq_false, Bool.false_eq_true, if_false, hstand, hown, hstrong, l2wpPre_open hstill]
    rfl
  have hfirst : ((s.sl j).begun.isNone && !hwAcc (sliceWord s j (rs64 s j h a))) = false := by
    rcases hacc with h | h
    · simp [h]
    · simp [h]
  have hlook : handleLook h a s j = .go := by
    simp only [handleLook, hfirst, hdone, Bool.false_eq_true, if_false, if_true]
  have hreads : lwaitReads h a s = s := unitLooks_go (State.each_one hc hlook)
  have hpre : lwaitPre h a s j = .go := by
    rw [lwaitPre, hhandle, hlook]
    rfl
  exact completesOne_once (i := .lwait h d a) (congrArg (runUnit h _) hreads) hc hl rfl hpre

theorem migr_answers (huser : userAddr s (rs64 s j h a) = true) (hvac : vacantAt s (rs64 s j h a) = false) :
    CompletesOne (.migr h d a) h j ((migStatus (s.begun j) (s.ctxOf j) (rs64 s j h a)).2.updSl j fun x =>
      standAt (.clock 0) (wr .u64 d 0 (BitVec.ofNat 64 (migStatus (s.begun j) (s.ctxOf j) (rs64 s j h a)).1) x)) s := by
  have hpre : (if !userAddr s (rs64 s j h a) then operandTrap else indexPre s (rs64 s j h a)) = .go := by
    simp only [huser, indexPre, hvac, Bool.not_true, Bool.false_eq_true, if_false]
  have hdo := completesOne_once (i := .migr h d a) rfl hc hl rfl hpre
  rwa [begun_ctxOf] at hdo

end

/-! ### FY.LAUNCH (R230) -/

section
variable {s : State} {oc rd rs1 rs2 : Nat} (hos : s.curOs = some oc)
include hos

theorem fyLaunch_returns {v : DWord} {s1 : State} (h : osLaunch s oc ((osOf s oc).reg rs1).toNat ((osOf s oc).reg rs2) = (some v, s1)) :
    exec (.fyLaunch rd rs1 rs2) s = .next
      { s1 with curOs := none, osCores := Tbl.put s1.osCores oc { (osOf s oc).setReg rd v with pc := (osOf s oc).pc + 4 } } := by
  show execFyLaunch rd rs1 rs2 s = _
  simp only [execFyLaunch, hos, h]

theorem fyLaunch_stalls {s1 : State} (h : osLaunch s oc ((osOf s oc).reg rs1).toNat ((osOf s oc).reg rs2) = (none, s1)) :
    exec (.fyLaunch rd rs1 rs2) s = .next { s1 with curOs := none } := by
  show execFyLaunch rd rs1 rs2 s = _
  simp only [execFyLaunch, hos, h]

end

/-- FY.LAUNCH names a context that is there, with an aligned record on resident pages of indices in place, which may be read. -/
structure State.RecordReadable (s : State) (va ctx : Nat) : Prop where
  below : ctx < 256
  known : s.hasCtx ctx = true
  align : va % 128 = 0
  present : osVacant s [(va, 128)] = none
  resident : ∀ g ∈ pagesOf (va, 128), osPage s ctx g ≠ .nonResident

section
variable {s : State} {oc va : Nat} {cid : DWord}

theorem osLaunch_refuses (h : 256 ≤ cid.toNat ∨ s.hasCtx cid.toNat = false) : osLaunch s oc va cid = (some 0x8000000000000002, s) := by
  have hbad : (decide (256 ≤ cid.toNat) || !s.hasCtx cid.toNat) = true := by rcases h with h | h <;> simp [h]
  rw [osLaunch]
  exact if_pos hbad

section
variable (hid : cid.toNat < 256) (hctx : s.hasCtx cid.toNat = true)
include hid hctx

theorem named_ctx : (decide (256 ≤ cid.toNat) || !s.hasCtx cid.toNat) = false := by
  rw [hctx, decide_eq_false (by omega)]
  rfl

theorem osLaunch_misaligned (h : va % 128 ≠ 0) : osLaunch s oc va cid = (some 0x8000000000000005, s) := by
  simp only [osLaunch, named_ctx hid hctx, Bool.false_eq_true, if_false, bne_iff_ne, ne_eq, h, not_false_eq_true, if_true]
  rfl

theorem osLaunch_vacant (h : va % 128 = 0) {g : Nat} (hg : osVacant s [(va, 128)] = some g) :
    osLaunch s oc va cid = (none, parkVacant s (.os oc) (oc / 2 / 8) g) := by
  simp only [osLaunch, named_ctx hid hctx, Bool.false_eq_true, if_false, h, bne_self_eq_false, hg]
  rfl

theorem osLaunch_unmapped (h : va % 128 = 0) (hg : osVacant s [(va, 128)] = none)
    (hn : ∃ g ∈ pagesOf (va, 128), osPage s cid.toNat g = .nonResident) : osLaunch s oc va cid = (some 0x8000000000000009, s) := by
  have hany : ((pagesOf (va, 128)).any fun g => osPage s cid.toNat g == .nonResident) = true := by
    obtain ⟨g, hg, hp⟩ := hn
    exact List.any_eq_true.mpr ⟨g, hg, by simp [hp]⟩
  simp only [osLaunch, named_ctx hid hctx, Bool.false_eq_true, if_false, h, bne_self_eq_false, hg, hany, if_true]
  rfl

end

section
variable (hr : s.RecordReadable va cid.toNat)
include hr

theorem State.RecordReadable.allResident : ((pagesOf (va, 128)).any fun g => osPage s cid.toNat g == .nonResident) = false :=
  List.any_eq_false.mpr fun g hg => by simp [hr.resident g hg]

/-- A cause keeps the record from being read. -/
theorem osLaunch_cause {c : Nat} (hc : osCause s cid.toNat [(va, 128)] = some c) :
    osLaunch s oc va cid = (some (BitVec.ofNat 64 (2 ^ 63 + c)), logHoles s cid.toNat (pagesOf (va, 128))) := by
  simp only [osLaunch, named_ctx hr.below hr.known, hr.align, hr.present, hr.allResident, hc, bne_self_eq_false, Bool.false_eq_true, if_false]

/-- The blocks that hold the record are still to be filled. -/
theorem osLaunch_fills (hc : osCause s cid.toNat [(va, 128)] = none) {g : Nat} {gs : List Nat}
    (hf : osFills s cid.toNat [(va, 128)] = g :: gs) : osLaunch s oc va cid = (none, osPresent s oc cid.toNat (g :: gs)) := by
  simp only [osLaunch, named_ctx hr.below hr.known, hr.align, hr.present, hr.allResident, hc, hf, bne_self_eq_false, Bool.false_eq_true, if_false,
    List.isEmpty_cons, Bool.not_false, if_true]

section
variable (hc : osCause s cid.toNat [(va, 128)] = none) (hf : osFills s cid.toNat [(va, 128)] = [])
include hc hf

theorem osLaunch_malformed (hv : recFieldsOk s (bytesNat (curBytes s cid.toNat va 128)) = false) :
    osLaunch s oc va cid = (some 0x8000000000000002, osReads s cid.toNat [(va, 128)]) := by
  simp only [osLaunch, named_ctx hr.below hr.known, hr.align, hr.present, hr.allResident, hc, hf, hv, bne_self_eq_false, Bool.false_eq_true, if_false,
    List.isEmpty_nil, Bool.not_true, Bool.not_false, if_true]
  rfl

section
variable (hv : recFieldsOk s (bytesNat (curBytes s cid.toNat va 128)) = true)
include hv

theorem osLaunch_predVacant {g : Nat} (hg : osVacant s (predRanges (bytesNat (curBytes s cid.toNat va 128))) = some g) :
    osLaunch s oc va cid = (none, parkVacant (osReads s cid.toNat [(va, 128)]) (.os oc) (oc / 2 / 8) g) := by
  simp only [osLaunch, named_ctx hr.below hr.known, hr.align, hr.present, hr.allResident, hc, hf, hv, hg, bne_self_eq_false, Bool.false_eq_true, if_false,
    List.isEmpty_nil, Bool.not_true]
  rfl

section
variable (hg : osVacant s (predRanges (bytesNat (curBytes s cid.toNat va 128))) = none)
include hg

theorem osLaunch_predCause {c : Nat} (hpc : osCause s cid.toNat (predRanges (bytesNat (curBytes s cid.toNat va 128))) = some c) :
    osLaunch s oc va cid = (some (BitVec.ofNat 64 (2 ^ 63 + c)),
      logHoles (osReads s cid.toNat [(va, 128)]) cid.toNat ((predRanges (bytesNat (curBytes s cid.toNat va 128))).flatMap pagesOf)) := by
  simp only [osLaunch, named_ctx hr.below hr.known, hr.align, hr.present, hr.allResident, hc, hf, hv, hg, hpc, bne_self_eq_false, Bool.false_eq_true,
    if_false, List.isEmpty_nil, Bool.not_true]

section
variable (hpc : osCause s cid.toNat (predRanges (bytesNat (curBytes s cid.toNat va 128))) = none)
include hpc

theorem osLaunch_predFills {g : Nat} {gs : List Nat} (hpf : osFills s cid.toNat (predRanges (bytesNat (curBytes s cid.toNat va 128))) = g :: gs) :
    osLaunch s oc va cid = (none, osPresent (osReads s cid.toNat [(va, 128)]) oc cid.toNat (g :: gs)) := by
  simp only [osLaunch, named_ctx hr.below hr.known, hr.align, hr.present, hr.allResident, hc, hf, hv, hg, hpc, hpf, bne_self_eq_false, Bool.false_eq_true,
    if_false, List.isEmpty_nil, List.isEmpty_cons, Bool.not_true, Bool.not_false, if_true]

section
variable (hpf : osFills s cid.toNat (predRanges (bytesNat (curBytes s cid.toNat va 128))) = [])
include hpf

theorem osLaunch_predRefused (hrec : recOk s (bytesNat (curBytes s cid.toNat va 128)) (osWordAt s cid.toNat) = false) : osLaunch s oc va cid =
    (some 0x8000000000000002, osReads (osReads s cid.toNat [(va, 128)]) cid.toNat (predRanges (bytesNat (curBytes s cid.toNat va 128)))) := by
  simp only [osLaunch, named_ctx hr.below hr.known, hr.align, hr.present, hr.allResident, hc, hf, hv, hg, hpc, hpf, hrec, bne_self_eq_false,
    Bool.false_eq_true, if_false, List.isEmpty_nil, Bool.not_true, Bool.not_false, if_true]
  rfl

section
variable (hrec : recOk s (bytesNat (curBytes s cid.toNat va 128)) (osWordAt s cid.toNat) = true)
include hrec

theorem osLaunch_full (hfull : pendingFull s (oc / 2) = true) : osLaunch s oc va cid =
    (none, osReads (osReads s cid.toNat [(va, 128)]) cid.toNat (predRanges (bytesNat (curBytes s cid.toNat va 128)))) := by
  have hfull' : pendingFull s (osTower oc) = true := hfull
  simp only [osLaunch, named_ctx hr.below hr.known, hr.align, hr.present, hr.allResident, hc, hf, hv, hg, hpc, hpf, hrec, hfull', bne_self_eq_false,
    Bool.false_eq_true, if_false, List.isEmpty_nil, Bool.not_true, if_true]

theorem osLaunch_accepts (hroom : pendingFull s (oc / 2) = false) : osLaunch s oc va cid =
    let v := bytesNat (curBytes s cid.toNat va 128)
    let s2 := osReads (osReads s cid.toNat [(va, 128)]) cid.toNat (predRanges v)
    (some (BitVec.ofNat 64 ((lidOf s2 (oc / 2)).toNat + 2 ^ 32)), (acceptLaunch s2 cid.toNat (oc / 2) va v).1) := by
  have hroom' : pendingFull s (osTower oc) = false := hroom
  simp only [osLaunch, named_ctx hr.below hr.known, hr.align, hr.present, hr.allResident, hc, hf, hv, hg, hpc, hpf, hrec, hroom', bne_self_eq_false,
    Bool.false_eq_true, if_false, List.isEmpty_nil, Bool.not_true]
  rfl

end

end

end

end

end

end

end

end

/-- Settles O47: LAUNCH, LWAIT and MIGR issue; FY.LAUNCH's checks are made one after another. -/
theorem launchInstructions : Obligations.LaunchInstructions := by
  unfold Obligations.LaunchInstructions
  refine ⟨?_, ?_⟩
  · intro s j h d a hc hl u va v lands still
    refine ⟨fun halign haccs hrel hstill hstand hfields hpreds hrec hroom => ⟨rfl, ?_⟩, fun halign hstand hown hstrong hstill hdone hacc => ?_,
      fun huser hvac => ?_⟩
    · exact launch_accepts hc hl halign haccs hrel hstill hstand hfields hpreds hrec hroom
    · exact lwait_returns hc hl halign hstand hown hstrong hstill hdone hacc
    · exact migr_answers hc hl huser hvac
  · intro s oc rd rs1 rs2 hos c va ctx ret
    refine ⟨fun h => fyLaunch_returns hos (osLaunch_refuses h), fun hid hctx h => fyLaunch_returns hos (osLaunch_misaligned hid hctx h),
      fun hid hctx h g hg => fyLaunch_stalls hos (osLaunch_vacant hid hctx h hg),
      fun hid hctx h hg hn => fyLaunch_returns hos (osLaunch_unmapped hid hctx h hg hn), ?_⟩
    intro hid hctx halign hpresent hres v s1
    have hr : s.RecordReadable va ctx := ⟨hid, hctx, halign, hpresent, hres⟩
    refine ⟨fun c hc => fyLaunch_returns hos (osLaunch_cause hr hc), fun hc => ⟨fun g gs hf => fyLaunch_stalls hos (osLaunch_fills hr hc hf), fun hf =>
      ⟨fun hv => fyLaunch_returns hos (osLaunch_malformed hr hc hf hv), fun hv g hg => fyLaunch_stalls hos (osLaunch_predVacant hr hc hf hv hg),
        fun hv hg => ⟨fun c hpc => fyLaunch_returns hos (osLaunch_predCause hr hc hf hv hg hpc), fun hpc =>
          ⟨fun g gs hpf => fyLaunch_stalls hos (osLaunch_predFills hr hc hf hv hg hpc hpf), fun hpf => ?_⟩⟩⟩⟩⟩
    exact ⟨fun hrec => fyLaunch_returns hos (osLaunch_predRefused hr hc hf hv hg hpc hpf hrec), fun hrec =>
      ⟨fun hroom => fyLaunch_returns hos (osLaunch_accepts hr hc hf hv hg hpc hpf hrec (decide_eq_false (Nat.not_le.mpr hroom))),
        fun hfull => fyLaunch_stalls hos (osLaunch_full hr hc hf hv hg hpc hpf hrec (decide_eq_true hfull))⟩⟩

end Sys2Proof.Machine
end

section
/-! PROOF. Stopping (O58): the request comes due, the context is saved when its agents stand still, and past twice the drain time it is reset by force
(R246 to R250). -/

namespace Sys2Proof.Machine

section
variable {s : State} {ctx : Nat}

theorem State.updCtx_known (h : s.hasCtx ctx = true) (f : Ctx → Ctx) : s.updCtx ctx f = s.setCtx ctx (f (s.ctx ctx)) := if_pos h

/-- The time slice ends within the drain time. -/
def Due (s : State) (ctx : Nat) : Prop := (s.ctx ctx).slice = .open_ ∨ ∃ t, (s.ctx ctx).slice = .until_ t ∧ t ≤ (s.pkg 0).clock + drainOf s ctx

theorem stopRequest_due (h : Due s ctx) : stopRequest s ctx = requestStop s ctx := by
  rcases h with h | ⟨t, h, ht⟩
  · simp [stopRequest, h]
  · have ht' : t ≤ now0 s + drainOf s ctx := ht
    simp [stopRequest, h, ht']

theorem stopRequest_early (h : (s.ctx ctx).slice = .endless ∨ ∃ t, (s.ctx ctx).slice = .until_ t ∧ (s.pkg 0).clock + drainOf s ctx < t) :
    stopRequest s ctx = s := by
  rcases h with h | ⟨t, h, ht⟩
  · simp [stopRequest, h]
  · have ht' : ¬ t ≤ now0 s + drainOf s ctx := Nat.not_le.mpr ht
    simp [stopRequest, h, ht']

/-- Only a running context is asked to stop. -/
theorem stopRequest_not_running (h : (s.ctx ctx).st ≠ .running) : stopRequest s ctx = s := by
  have hreq : requestStop s ctx = s := if_neg (by simp [h])
  unfold stopRequest
  dsimp only
  rw [hreq]
  exact ite_self s

/-- The request reaches every slice of the context, and no other (R248). -/
theorem requestStop_sl (hr : (s.ctx ctx).st = .running) (hc : s.hasCtx ctx = true) (i : Nat) : (requestStop s ctx).sl i =
    if s.ctxOf i = ctx ∧ (Tbl.find s.slices i).isSome = true then stopSlice (s.sl i) else s.sl i := by
  have hgo : ((s.ctx ctx).st == .running && s.hasCtx ctx) = true := by simp [hr, hc]
  have hfind := Tbl.find_map_keyed (g := fun e : Nat × Slice => (e.1, if s.ctxOf e.1 = ctx then stopSlice e.2 else e.2)) (fun _ => rfl) s.slices i
  have hslices : (requestStop s ctx).slices = s.slices.map fun e => (e.1, if s.ctxOf e.1 = ctx then stopSlice e.2 else e.2) := by
    rw [requestStop, if_pos hgo, State.updCtx_known hc]
    rfl
  rw [State.sl, Tbl.findD, hslices, hfind, State.sl, Tbl.findD]
  cases Tbl.find s.slices i with
  | none => simp
  | some x => by_cases hx : s.ctxOf i = ctx <;> simp [hx]

theorem requestStop_ctx (hr : (s.ctx ctx).st = .running) (hc : s.hasCtx ctx = true) :
    (requestStop s ctx).ctx ctx = { s.ctx ctx with st := .stopping, stopAt := some (s.pkg 0).clock, forced := false } := by
  have hgo : ((s.ctx ctx).st == .running && s.hasCtx ctx) = true := by simp [hr, hc]
  rw [requestStop, if_pos hgo, State.updCtx_known hc]
  exact State.ctx_setCtx_self s ctx _

theorem forceResetDue_of_stopAt {t0 : Nat} (hst : (s.ctx ctx).st = .stopping) (ht : (s.ctx ctx).stopAt = some t0) :
    forceResetDue s ctx = decide (t0 + 2 * drainOf s ctx ≤ (s.pkg 0).clock) := by
  rw [forceResetDue, hst, ht]
  rfl

/-- The deadline is past at no time that leaves 2D to run. -/
theorem forceResetDue_early (h : ∀ t0, (s.ctx ctx).stopAt = some t0 → (s.pkg 0).clock < t0 + 2 * drainOf s ctx) : forceResetDue s ctx = false := by
  unfold forceResetDue
  cases ht : (s.ctx ctx).stopAt with
  | none => simp
  | some t0 =>
    have hlate : ¬ t0 + 2 * drainOf s ctx ≤ now0 s := Nat.not_le.mpr (h t0 ht)
    simp [hlate]

theorem contextStopped_waits (h : ctxQuiet s ctx = false ∨ forceResetDue s ctx = true) : contextStopped s ctx = s := by
  have hwait : (!ctxQuiet s ctx || forceResetDue s ctx) = true := by rcases h with h | h <;> simp [h]
  unfold contextStopped
  dsimp only
  rw [hwait]
  rfl

section
variable (hq : ctxQuiet s ctx = true) (hd : forceResetDue s ctx = false)
include hq hd

theorem contextStopped_saves (hst : (s.ctx ctx).st = .stopping) : contextStopped s ctx =
    (saveCtx s ctx).updCtx ctx fun c => { c with st := .stopped, overrun := overrunOf s ctx, stopAt := none } := by
  unfold contextStopped
  dsimp only
  rw [hq, hd, hst]
  rfl

/-- A context that can never run again loses its generators and its crews (R246). -/
theorem contextStopped_ends (hst : (s.ctx ctx).st = .dead) : contextStopped s ctx =
    let u := ((s.ctx ctx).blocks.map Prod.fst).foldl (fun u b => failQueued (s.ctx ctx).cause u ctx b) s
    (ctxCrews u ctx).foldl endCrew (saveCtx u ctx) := by
  unfold contextStopped
  dsimp only
  rw [hq, hd, hst]
  rfl

end

/-- A context with no block and no crew has nothing to lose but its launches. -/
theorem forceReset_bare (hc : s.hasCtx ctx = true) (hst : (s.ctx ctx).st ≠ .dead) (hb : (s.ctx ctx).blocks = []) (hk : ctxCrews s ctx = []) :
    forceReset s ctx =
      { s.setCtx ctx { s.ctx ctx with st := .dead, cause := 0xFF, stopAt := some (s.pkg 0).clock, forced := true } with
        launches := s.launches.map fun e => (e.1, if e.2.ctx = ctx ∧ ¬ e.2.done then { e.2 with failed := true } else e.2)
        osLog := s.osLog ++ [⟨"force reset", [ctx, (s.pkg 0).clock]⟩] } := by
  have hstop := stopContext_runs hc hst 0xFF
  set d : Ctx := { s.ctx ctx with st := .dead, cause := 0xFF, stopAt := some (s.pkg 0).clock } with hdef
  set u := stopContext s ctx 0xFF with hu
  have hknown : u.hasCtx ctx = true := by
    rw [hstop, State.hasCtx]
    simp
  have hctx : u.ctx ctx = d := by
    rw [hstop]
    exact State.ctx_setCtx_self s ctx d
  have hu1 : u.updCtx ctx (fun c => { c with forced := true }) = u.setCtx ctx { d with forced := true } := by
    rw [State.updCtx_known hknown, hctx]
  have hcrews : ctxCrews (u.setCtx ctx { d with forced := true }) ctx = [] := by
    rw [← hk, hstop]
    rfl
  have hblocks : ((u.setCtx ctx { d with forced := true }).ctx ctx).blocks = [] := by
    rw [State.ctx_setCtx_self]
    exact hb
  unfold forceReset
  dsimp only
  rw [← hu, hu1, hcrews]
  simp only [List.foldl_nil, hblocks, List.map_nil, hcrews]
  rw [hstop]
  simp only [State.setCtx, Tbl.put_put]
  rfl

end

/-- Settles O58: each event by whether it is due, and what it does where it is. -/
theorem stopEvents : Obligations.StopEvents := by
  unfold Obligations.StopEvents
  intro s ctx hc c now D
  have hdue : ∀ t0, c.st = .stopping → c.stopAt = some t0 → forceResetDue s ctx = decide (t0 + 2 * D ≤ now) :=
    fun t0 hst ht => forceResetDue_of_stopAt hst ht
  refine ⟨fun hr hd => ?_, fun h => ?_, fun h => ?_, fun hq hst h => ?_, fun hq hst => ?_, fun t0 hst ht h => ?_, fun t0 hst ht h => ?_,
    fun t0 hst ht h hb hk => ?_⟩
  · have hdue' : Due s ctx := hd
    refine ⟨_, congrArg (fun u : State => (.next u : Out)) (stopRequest_due hdue'), requestStop_ctx hr hc, fun i t0 w hin hi hp => ?_, fun i hi => ?_⟩
    · rw [requestStop_sl hr hc, if_pos ⟨hi, hin⟩, stopSlice, hp]
    · rw [requestStop_sl hr hc, if_neg fun e => hi e.1]
  · refine congrArg (fun u : State => (.next u : Out)) ?_
    rcases h with h | h | h
    · exact stopRequest_early (.inl h)
    · exact stopRequest_not_running h
    · exact stopRequest_early (.inr h)
  · refine congrArg (fun u : State => (.next u : Out)) (contextStopped_waits ?_)
    rcases h with h | ⟨hst, t0, ht, hle⟩
    · exact .inl h
    · exact .inr ((hdue t0 hst ht).trans (decide_eq_true hle))
  · exact congrArg (fun u : State => (.next u : Out)) (contextStopped_saves hq (forceResetDue_early h) hst)
  · have hd : forceResetDue s ctx = false := by
      have hst' : (s.ctx ctx).st = .dead := hst
      rw [forceResetDue, hst']
      rfl
    exact congrArg (fun u : State => (.next u : Out)) (contextStopped_ends hq hd hst)
  · show (.next (if forceResetDue s ctx then forceReset s ctx else s) : Out) = _
    rw [hdue t0 hst ht, decide_eq_false (Nat.not_le.mpr h)]
    rfl
  · show (.next (if forceResetDue s ctx then forceReset s ctx else s) : Out) = _
    rw [hdue t0 hst ht, decide_eq_true h]
    rfl
  · show (.next (if forceResetDue s ctx then forceReset s ctx else s) : Out) = _
    have hne : (s.ctx ctx).st ≠ .dead := fun e => by
      have hst' : (s.ctx ctx).st = .stopping := hst
      rw [hst'] at e
      cases e
    rw [hdue t0 hst ht, decide_eq_true h, if_pos rfl, forceReset_bare hc hne hb hk]

end Sys2Proof.Machine
end

section
/-! PROOF. Scheduler events (O57). A table of launches that lists a key twice has one launch that `updLaunch` changes and another whose spans the tower
lists; the statement on a first span that fits no cluster asks for no canonical table. -/

namespace Sys2Proof.Machine

/-- A launch on tower 0 whose spans take `cps` cores each, with unstarted spans. -/
def cpsLaunch (cps : Nat) (waiting : Tbl (List Nat)) : Launch :=
  { ctx := 0, lid := 0, hw := none, tower := 0, lrec := ⟨0, 0, 0, 8, 1, 1, false, false, false, false, 0, 0, cps, 1, 1, 1, 0, 1, []⟩, ready := true, towers := [0], gone := [], drawn := 1, back := []
    waiting := waiting, spans := [], steps := 0, done := false, failed := false, gen := none }

/-- Two launches under one key: spans of the first fit every cluster, and it has none to start; the second has a span that fits none. -/
def twinLaunches : State :=
  { State.reset with ctxs := [(0, Ctx.init)], launches := [(0, cpsLaunch 0 []), (0, cpsLaunch 17 [(0, [0])])] }

theorem twinLaunches_candidates : candidates twinLaunches 0 = [⟨0, cpsLaunch 17 [(0, [0])], 0, 0⟩] := by decide

/-- The spans placed after an event. -/
def spansAfter (o : Out) : Nat := match o with
  | .next t => t.spans.length
  | _ => 0

/-- Refutes O57: the tower keeps a cluster for the second launch's span, which the first one's entry then lists; that one fits, and starts. -/
theorem not_schedulerEvents : ¬ Obligations.SchedulerEvents := by
  intro h
  obtain ⟨-, -, -, -, hnone, -⟩ := h twinLaunches
  have hkeep := hnone 0 _ rfl rfl twinLaunches_candidates (by decide)
  have hspans : spansAfter (exec (.spanStart 0) twinLaunches) = 0 := by rw [hkeep]; decide
  exact absurd hspans (by decide)

end Sys2Proof.Machine
end

section
/-! PROOF. The outside world (O59): host windows, device time, present queues, packages that leave and are replaced, and requests that wait at a vacant
index (R365, R369 to R373). -/

namespace Sys2Proof.Machine

/-! ### Host windows (R365) -/

theorem not_any_vacant {s : State} {gs : List Nat} (hp : ∀ g ∈ gs, (s.pkg (vaPkg g)).vacant = false) : ¬ gs.any (vacantAt s) = true := by
  rw [List.any_eq_true]
  rintro ⟨g, hg, hv⟩
  exact absurd ((hp g hg).symm.trans hv) (by simp)

section
variable {s : State} {pkg win off n : Nat} {write : Bool} {data : Nat} {w : Window} (hw : Tbl.find (s.pkg pkg).windows win = some w)
  (h1 : 1 ≤ n) (h8 : n ≤ 8) (hin : off + n ≤ w.size)
include hw h1 h8 hin

/-- An access within its window parks, waits, fails or is performed. -/
theorem hostAccess_within : hostAccess s pkg win off n write data =
    (if (pagesOf (w.va + off, n)).any (vacantAt s) then addVacant s (.host pkg win off n write data) pkg (w.va + off)
    else if (pagesOf (w.va + off, n)).any fun g => closingFor s w.ctx g (if write then Right.write else .read) then s
    else if (write && !w.wr) || hostRefused s w.ctx (w.va + off) n (if write then Right.write else .read) then hostFails s pkg w.ctx (w.va + off) write
    else hostDone (hostPerform s w.ctx (w.va + off) n write data) pkg write (anyPoison s w.ctx (w.va + off) n).isSome
      (curLE s w.ctx (w.va + off) n)) := by
  have hbad : (decide (n = 0) || decide (8 < n) || decide (w.size < off + n)) = false := by
    rw [decide_eq_false (by omega), decide_eq_false (by omega), decide_eq_false (by omega)]
    rfl
  unfold hostAccess
  rw [hw]
  dsimp only
  rw [hbad]
  rfl

theorem hostAccess_parks (h : ∃ g ∈ pagesOf (w.va + off, n), (s.pkg (vaPkg g)).vacant = true) :
    hostAccess s pkg win off n write data = addVacant s (.host pkg win off n write data) pkg (w.va + off) := by
  have hany : (pagesOf (w.va + off, n)).any (vacantAt s) = true := List.any_eq_true.mpr h
  rw [hostAccess_within hw h1 h8 hin, if_pos hany]

section
variable (hp : ∀ g ∈ pagesOf (w.va + off, n), (s.pkg (vaPkg g)).vacant = false)
include hp

theorem hostAccess_waits (h : ∃ g ∈ pagesOf (w.va + off, n), closingFor s w.ctx g (if write then Right.write else .read) = true) :
    hostAccess s pkg win off n write data = s := by
  rw [hostAccess_within hw h1 h8 hin, if_neg (not_any_vacant hp), if_pos (List.any_eq_true.mpr h)]

/-- No page of it is vacant or closes: it is refused or performed. -/
theorem hostAccess_decides (h : ∀ g ∈ pagesOf (w.va + off, n), closingFor s w.ctx g (if write then Right.write else .read) = false) :
    hostAccess s pkg win off n write data =
      if (write && !w.wr) || hostRefused s w.ctx (w.va + off) n (if write then Right.write else .read) then hostFails s pkg w.ctx (w.va + off) write
      else hostDone (hostPerform s w.ctx (w.va + off) n write data) pkg write (anyPoison s w.ctx (w.va + off) n).isSome
        (curLE s w.ctx (w.va + off) n) := by
  have hopen : ¬ ((pagesOf (w.va + off, n)).any fun g => closingFor s w.ctx g (if write then Right.write else .read)) = true := by
    rw [List.any_eq_true]
    rintro ⟨g, hg, hv⟩
    exact absurd ((h g hg).symm.trans hv) (by simp)
  rw [hostAccess_within hw h1 h8 hin, if_neg (not_any_vacant hp), if_neg hopen]

end

end

/-! ### Device time (R369) -/

theorem timeOk_iff {s : State} {pkg t : Nat} :
    timeOk s pkg t = true ↔ ∀ e ∈ s.pkgs, e.1 = pkg ∨ (t ≤ e.2.devTime.toNat + 25 ∧ e.2.devTime.toNat ≤ t + 25) := by
  simp [timeOk, List.all_eq_true]

theorem not_timeOk {s : State} {pkg t : Nat} (h : ∃ e ∈ s.pkgs, e.1 ≠ pkg ∧ (e.2.devTime.toNat + 25 < t ∨ t + 25 < e.2.devTime.toNat)) :
    ¬ timeOk s pkg t = true := by
  rw [timeOk_iff]
  obtain ⟨e, he, hne, hfar⟩ := h
  intro hall
  rcases hall e he with h | h
  · exact hne h
  · omega

/-! ### Present queues (R370, R371, R373) -/

section
variable {s : State} {k : Nat} {q : EqQueue} (hq : Tbl.find s.equinox k = some q)
include hq

theorem equinox_vacant (hv : (s.pkg q.pkg).vacant = true) :
    equinoxCheck s k = s ∧ equinoxFrameSend s k = s ∧ equinoxStatusWrite s k = s := by
  refine ⟨?_, ?_, ?_⟩
  · simp [equinoxCheck, hq, hv]
  · unfold equinoxFrameSend
    rw [hq]
    dsimp only
    split
    · rfl
    · simp [hv]
  · unfold equinoxStatusWrite
    rw [hq]
    dsimp only
    split
    · rfl
    · simp [hv]

theorem equinoxFrameSend_early {frame : Bool} (hc : q.chosen = some frame) (hm : eqMissed q (eqRead s q) = false)
    (ht : (s.pkg q.pkg).devTime.toNat < eqDeadline (eqRead s q)) : equinoxFrameSend s k = s := by
  have ht' : eqNow s q < eqDeadline (eqRead s q) := ht
  simp [equinoxFrameSend, hq, hc, hm, ht']

section
variable (hv : (s.pkg q.pkg).vacant = false)
include hv

theorem equinoxCheck_early (hc : q.chosen = none) (ht : (s.pkg q.pkg).devTime.toNat < eqCheckAt (eqRead s q)) : equinoxCheck s k = s := by
  have ht' : eqNow s q < eqCheckAt (eqRead s q) := ht
  simp [equinoxCheck, hq, hv, hc, ht']

/-- The check time has come: the entry is read and decided, or skipped. -/
theorem equinoxCheck_due (hc : q.chosen = none) (ht : eqCheckAt (eqRead s q) ≤ (s.pkg q.pkg).devTime.toNat) : equinoxCheck s k =
    let v := eqRead s q
    let q1 := eqResume q v
    if !eqValid v then (setEq (eqTouch s q) k { q1 with chosen := some false, sent := false }).log "present" [q.ctx, eqEntry q, 0]
    else if 2 ≤ eqStatus v then setEq (eqTouch s q) k { q1 with cur := (q.cur + 1) % 64 }
    else setEq (eqTouch s q) k { q1 with chosen := some (eqStatus v == 1 && !eqMissed q v), sent := false } := by
  have ht' : ¬ eqNow s q < eqCheckAt (eqRead s q) := Nat.not_lt.mpr ht
  have hgo : ((s.pkg q.pkg).vacant || q.chosen.isSome || decide (eqNow s q < eqCheckAt (eqRead s q))) = false := by
    rw [hv, hc, decide_eq_false ht']
    rfl
  unfold equinoxCheck
  rw [hq]
  dsimp only
  rw [hgo]
  rfl

/-- The deadline has come, or was missed in a vacancy: the frame is sent, or its fallback. -/
theorem equinoxFrameSend_due {frame : Bool} (hc : q.chosen = some frame) (hs : q.sent = false)
    (ht : eqMissed q (eqRead s q) = true ∨ eqDeadline (eqRead s q) ≤ (s.pkg q.pkg).devTime.toNat) : equinoxFrameSend s k =
    let v := eqRead s q
    let shown := frame && !eqFaults s q.ctx v (recBits v 127 64)
    let s0 := (eqRows v (recBits v 127 64)).foldl (fun s r => if shown then readHome s q.ctx r.1 r.2 else s) (eqTouch s q)
    let s1 := setEq s0 k { q with chosen := some shown, sent := true, sentAt := (s.pkg q.pkg).devTime }
    let s2 := if frame then logHoles s1 q.ctx (eqPages v (recBits v 127 64)) else s1
    if !shown && eqFaults s q.ctx v (recBits v 191 128) then
      (logHoles s2 q.ctx (eqPages v (recBits v 191 128))).log "present" [q.ctx, eqEntry q, 1]
    else s2 := by
  have hgo : ((s.pkg q.pkg).vacant || q.sent || (decide (eqNow s q < eqDeadline (eqRead s q)) && !eqMissed q (eqRead s q))) = false := by
    rw [hv, hs]
    rcases ht with h | h
    · simp [h]
    · have ht' : ¬ eqNow s q < eqDeadline (eqRead s q) := Nat.not_lt.mpr h
      simp [ht']
  unfold equinoxFrameSend
  rw [hq]
  dsimp only
  rw [hc]
  dsimp only
  rw [hgo]
  rfl

theorem equinoxStatusWrite_shows {shown : Bool} (hc : q.chosen = some shown) (hs : q.sent = true) : equinoxStatusWrite s k =
    let e := eqEntry q
    let s1 := putHome s q.ctx (e + 40) 8 q.sentAt.toNat
    let s2 := if shown then s1 else putHome s1 q.ctx q.va.toNat 8 (min (curLE s1 q.ctx q.va.toNat 8 + 1) (2 ^ 64 - 1))
    let s3 := putHome s2 q.ctx (e + 36) 4 (curLE s2 q.ctx (e + 36) 4 / 4 * 4 + if shown then 2 else 3)
    setEq s3 k { q with cur := (q.cur + 1) % 64, chosen := none, sent := false } := by
  unfold equinoxStatusWrite
  rw [hq]
  dsimp only
  rw [hc]
  dsimp only
  rw [hs, hv]
  rfl

end

end

theorem eqMissed_iff {q : EqQueue} {v : Nat} : eqMissed q v = true ↔ q.gapFrom.toNat ≤ eqCheckAt v ∧ eqCheckAt v < q.gapTo.toNat := by
  simp [eqMissed]

theorem eqResume_cur (q : EqQueue) (v : Nat) : (eqResume q v).cur = q.cur := by
  unfold eqResume
  split <;> rfl

/-! ### Packages (R372, R373) -/

section
variable {s : State} {pkg : Nat}

section
variable (hin : (Tbl.find s.pkgs pkg).isSome = true) (hv : (s.pkg pkg).vacant = false)
include hin hv

theorem stays_in_domain : ((Tbl.find s.pkgs pkg).isNone || (s.pkg pkg).vacant) = false := by
  rw [hv, Option.isNone_eq_false_iff.mpr hin]
  rfl

theorem packageLeave_marks (hl : (s.pkg pkg).leaving = false) :
    packageLeave s pkg = s.setPkg pkg { s.pkg pkg with leaving := true, stepped := [] } := by
  unfold packageLeave
  dsimp only
  rw [stays_in_domain hin hv, hl]
  rfl

section
variable (hl : (s.pkg pkg).leaving = true)
include hl

theorem packageLeave_stops (hc : ctxsOn s pkg ≠ []) :
    packageLeave s pkg = (ctxsOn s pkg).foldl (fun u c => if leaveReady u pkg c then leaveStop u c else u) s := by
  unfold packageLeave
  dsimp only
  rw [stays_in_domain hin hv, hl, List.isEmpty_eq_false_iff.mpr hc]
  rfl

variable (hc : ctxsOn s pkg = [])
include hc

theorem packageLeave_awaits (hs : sentTo s pkg = true) : packageLeave s pkg = s := by
  unfold packageLeave
  dsimp only
  rw [stays_in_domain hin hv, hl, hc, hs]
  rfl

theorem packageLeave_leaves (hs : sentTo s pkg = false) : packageLeave s pkg = { s.setPkg pkg { s.pkg pkg with vacant := true } with
    equinox := s.equinox.map fun e =>
      (e.1, if e.2.pkg = pkg then { e.2 with gapFrom := (s.pkg pkg).devTime, gapTo := BitVec.allOnes 64 } else e.2) } := by
  unfold packageLeave
  dsimp only
  rw [stays_in_domain hin hv, show (!(s.pkg pkg).leaving) = false by rw [hl]; rfl, hc, hs]
  rfl

end

end

/-- No host access is delivered where none is parked. -/
theorem hostDeliver_none (u : State) {l : Tbl VacantReq} (h : ∀ e ∈ l, ∀ p win off n w d, e.2.ask ≠ .host p win off n w d) : hostDeliver u l = u := by
  unfold hostDeliver
  refine List.foldlRecOn (motive := fun t : State => t = u) l _ rfl fun t ht e he => ?_
  split
  · exact absurd ‹_› (h e he _ _ _ _ _ _)
  · exact ht

/-- The index as its replacement takes it, before anything is delivered. -/
def State.replaced (s : State) (pkg : Nat) : State :=
  { s.setPkg pkg { s.pkg pkg with vacant := false, leaving := false, stepped := [] } with
    vacantReqs := s.vacantReqs.filter fun e => e.2.index != pkg
    equinox := s.equinox.map fun e => (e.1, if e.2.pkg = pkg then { e.2 with gapTo := (s.pkg pkg).devTime } else e.2) }

theorem packageReplace_takes (hv : (s.pkg pkg).vacant = true) : packageReplace s pkg =
    let u1 := hostDeliver (s.replaced pkg) (s.vacantReqs.filter fun e => e.2.index == pkg)
    (movedCtxs u1 pkg).foldl (fun u c =>
      match ctxGo u c 0 with
      | (some t, _) => t.updCtx c fun x => { x with slice := .open_, moved := false }
      | (none, t) => t) u1 := by
  unfold packageReplace
  dsimp only
  rw [hv]
  rfl

theorem packageReplace_bare (hv : (s.pkg pkg).vacant = true)
    (hask : ∀ e ∈ s.vacantReqs, e.2.index = pkg → ∀ p win off n w d, e.2.ask ≠ .host p win off n w d)
    (hmoved : movedCtxs (s.replaced pkg) pkg = []) : packageReplace s pkg = s.replaced pkg := by
  have hnone : hostDeliver (s.replaced pkg) (s.vacantReqs.filter fun e => e.2.index == pkg) = s.replaced pkg :=
    hostDeliver_none _ fun e he => by
      obtain ⟨hin, hix⟩ := List.mem_filter.mp he
      exact hask e hin (by simpa using hix)
  rw [packageReplace_takes hv]
  dsimp only
  rw [hnone, hmoved]
  rfl

end

/-! ### Requests parked at a vacant index (R373) -/

section
variable {s : State} {k : Nat} {e : VacantReq} (he : Tbl.find s.vacantReqs k = some e)
include he

theorem vacantTimeout_early (h : (s.pkg e.pkg).devTime.toNat < e.since + 1000000000) : vacantTimeout s k = s := by
  have h' : ¬ e.since + secondNs ≤ (s.pkg e.pkg).devTime.toNat := Nat.not_le.mpr h
  unfold vacantTimeout
  rw [he]
  exact if_neg h'

theorem vacantTimeout_due (h : e.since + 1000000000 ≤ (s.pkg e.pkg).devTime.toNat) :
    vacantTimeout s k = failVacant { s with vacantReqs := Tbl.del s.vacantReqs k } e.ask := by
  have h' : e.since + secondNs ≤ (s.pkg e.pkg).devTime.toNat := h
  unfold vacantTimeout
  rw [he]
  exact if_pos h'

end

/-! What failing does, kind by kind. -/

section
variable {s : State} {c : Nat}

theorem failVacant_clr {q : ClrReq} (h : Tbl.find s.clrReqs c = some q) : failVacant s (.clr c) =
    { s with clrReqs := Tbl.put s.clrReqs c { q with ans := some (.refused (q.va / 4096 * 4096) 4096 (protCode q.r)) } } := by
  simp only [failVacant, h, refuseGranule]

theorem failVacant_fill {q : FillReq} (h : Tbl.find s.fillReqs c = some q) : failVacant s (.fill c) =
    if q.pref then { s with fillReqs := Tbl.del s.fillReqs c }
    else giveAnswer { s with fillReqs := Tbl.del s.fillReqs c } q.who (.failed (q.va / 4096 * 4096) 4096 0x06 0) := by
  simp only [failVacant, h, answerFill]
  rfl

theorem failVacant_part {i a n : Nat} {acc : Acc} {q : Piece} (ha : Tbl.find (s.sl i).accs a = some acc) (hq : acc.pieces[n]? = some q)
    (hd : q.done = false) : failVacant s (.part i a n) = remoteFail s i a n acc q (protCode (if acc.isLoad then .read else .write)) q.va := by
  simp only [failVacant, failPart, ha, hq, hd, Bool.false_eq_true, if_false]

theorem failVacant_host {p win off n d : Nat} {w : Bool} {wd : Window} (h : Tbl.find (s.pkg p).windows win = some wd) :
    failVacant s (.host p win off n w d) = hostFails s p wd.ctx (wd.va + off) w := by
  simp only [failVacant, h]

theorem failVacant_os {oc rd rs1 rs2 : Nat} (h : decodeOs (osWord s oc) = some (.fyLaunch rd rs1 rs2)) : failVacant s (.os oc) =
    { s with osCores := Tbl.put s.osCores oc { (osOf s oc).setReg rd (BitVec.ofNat 64 (2 ^ 63 + 0x06)) with pc := (osOf s oc).pc + 4 } } := by
  simp only [failVacant, failOs, h]
  rfl

end

/-- Settles O59, event by event: whether it has come, and what it does. -/
theorem outsideEvents : Obligations.OutsideEvents := by
  unfold Obligations.OutsideEvents
  intro s
  refine ⟨?_, ?_, ?_, ?_, ?_, ?_, ?_, ?_⟩
  · intro pkg win off n write data w hw h1 h8 hin va gs r refused done
    have hnext : ∀ u, hostAccess s pkg win off n write data.toNat = u → exec (.hostWindowAccess pkg win off n write data) s = .next u :=
      fun u hu => congrArg (fun u : State => (.next u : Out)) hu
    refine ⟨fun hp => hnext _ (hostAccess_parks hw h1 h8 hin hp), fun hp => ⟨fun hcl => hnext _ (hostAccess_waits hw h1 h8 hin hp hcl), fun hcl =>
      ⟨fun href => hnext _ ?_, fun href => hnext _ ?_⟩⟩⟩
    · have hbad : ((write && !w.wr) || hostRefused s w.ctx va n r) = true := by
        rcases href with ⟨hwr, hro⟩ | h
        · simp [hwr, hro]
        · simp [h]
      rw [hostAccess_decides hw h1 h8 hin hp hcl, if_pos hbad]
      rfl
    · have hok : ¬ ((write && !w.wr) || hostRefused s w.ctx va n r) = true := by
        intro h
        refine href ?_
        rcases Bool.or_eq_true_iff.mp h with h | h
        · exact .inl (by simpa using h)
        · exact .inr h
      rw [hostAccess_decides hw h1 h8 hin hp hcl, if_neg hok]
      rfl
  · intro pkg time hin
    refine ⟨fun h => congrArg (fun u : State => (.next u : Out)) (if_pos ⟨hin, timeOk_iff.mpr h⟩), fun h =>
      congrArg (fun u : State => (.next u : Out)) (if_neg fun e => not_timeOk h e.2)⟩
  · intro pkg p k
    refine ⟨fun ht hp => congrArg (fun u : State => (.next u : Out)) ?_, fun h => congrArg (fun u : State => (.next u : Out)) ?_⟩
    · by_cases hsame : physLE s k 8 / 1000 = p.devTime.toNat / 1000
      · rw [if_pos hsame]
        exact if_pos (by simp [show physLE s (physKey pkg (s.pkg pkg).timePage) 8 / 1000 = (s.pkg pkg).devTime.toNat / 1000 from hsame])
      · rw [if_neg hsame]
        exact if_neg (by
          simp [show (s.pkg pkg).timePage ≠ 0 from ht, show populated (s.pkg pkg) (s.pkg pkg).timePage = true from hp,
            show physLE s (physKey pkg (s.pkg pkg).timePage) 8 / 1000 ≠ (s.pkg pkg).devTime.toNat / 1000 from hsame])
    · refine if_pos ?_
      rcases h with h | h
      · simp [show (s.pkg pkg).timePage = 0 from h]
      · simp [show populated (s.pkg pkg) (s.pkg pkg).timePage = false from h]
  · intro k q hq v now entry set read due missed q1
    have hnext : ∀ {t u : State}, t = u → (.next t : Out) = .next u := fun h => congrArg (fun u : State => (.next u : Out)) h
    refine ⟨rfl, fun hv => ?_, fun hv => ⟨fun hc ht => hnext (equinoxCheck_early hq hv hc ht), fun hc ht => ?_, fun frame hc hs => ?_,
      fun shown hc hs => hnext (equinoxStatusWrite_shows hq hv hc hs)⟩⟩
    · obtain ⟨hcheck, hsend, hwrite⟩ := equinox_vacant hq hv
      exact ⟨hnext hcheck, hnext hsend, hnext hwrite⟩
    · have hdue := equinoxCheck_due hq hv hc ht
      refine ⟨fun hvalid => hnext (hdue.trans (if_pos (by simpa using hvalid))), fun hvalid hst => ?_, fun hvalid hst hm => ?_, fun hvalid hst => ?_⟩
      all_goals
        have hvalid' : ¬ (!eqValid (eqRead s q)) = true := by simpa using hvalid
        refine hnext (hdue.trans ((if_neg hvalid').trans ?_))
      · refine (if_pos hst).trans ?_
        show setEq _ k { q1 with cur := (q.cur + 1) % 64 } = set read { q1 with cur := (q1.cur + 1) % 64 }
        rw [show q1.cur = q.cur from eqResume_cur q v]
        rfl
      · have hlow : ¬ 2 ≤ eqStatus (eqRead s q) := by
          have hst' : eqStatus (eqRead s q) = 1 := hst
          omega
        have hframe : (eqStatus (eqRead s q) == 1 && !eqMissed q (eqRead s q)) = true := by
          have hm' : eqMissed q (eqRead s q) = false := Bool.eq_false_iff.mpr fun h => hm (eqMissed_iff.mp h)
          simp [show eqStatus (eqRead s q) = 1 from hst, hm']
        refine (if_neg hlow).trans ?_
        rw [hframe]
        rfl
      · have hlow : ¬ 2 ≤ eqStatus (eqRead s q) := by
          rcases hst with h | ⟨h, -⟩
          · rw [show eqStatus (eqRead s q) = 0 from h]; omega
          · rw [show eqStatus (eqRead s q) = 1 from h]; omega
        have hframe : (eqStatus (eqRead s q) == 1 && !eqMissed q (eqRead s q)) = false := by
          rcases hst with h | ⟨-, hm⟩
          · simp [show eqStatus (eqRead s q) = 0 from h]
          · have hm' : eqMissed q (eqRead s q) = true := eqMissed_iff.mpr hm
            simp [hm']
        refine (if_neg hlow).trans ?_
        rw [hframe]
        rfl
    · intro fb fr
      refine ⟨fun hm ht => hnext (equinoxFrameSend_early hq hc (Bool.eq_false_iff.mpr fun h => hm (eqMissed_iff.mp h)) ht), fun hgo => ?_⟩
      have hdue := equinoxFrameSend_due hq hv hc hs (hgo.imp_left eqMissed_iff.mpr)
      refine ⟨fun hf hok => hnext (hdue.trans ?_), fun hf => hnext (hdue.trans ?_)⟩
      · have hok' : eqFaults s q.ctx (eqRead s q) (recBits (eqRead s q) 127 64) = false := hok
        simp only [hf, hok', Bool.not_false, Bool.and_self, if_true, Bool.not_true, Bool.false_and, Bool.false_eq_true, if_false]
        rfl
      · have hshown : (frame && !eqFaults s q.ctx (eqRead s q) (recBits (eqRead s q) 127 64)) = false := by
          rcases hf with h | h
          · simp [h]
          · simp [show eqFaults s q.ctx (eqRead s q) (recBits (eqRead s q) 127 64) = true from h]
        have hkeep : ∀ (l : List (Nat × Nat)) (u : State), l.foldl (fun u _ => u) u = u := by
          intro l u
          induction l with
          | nil => rfl
          | cons _ _ ih => exact ih
        simp only [hshown, Bool.not_false, Bool.true_and, Bool.false_eq_true, if_false, hkeep]
        rfl
  · intro pkg hin hv p
    exact ⟨fun hl => congrArg (fun u : State => (.next u : Out)) (packageLeave_marks hin hv hl),
      fun hl hc => congrArg (fun u : State => (.next u : Out)) (packageLeave_stops hin hv hl hc),
      fun hl hc hs => congrArg (fun u : State => (.next u : Out)) (packageLeave_awaits hin hv hl hc hs),
      fun hl hc hs => congrArg (fun u : State => (.next u : Out)) (packageLeave_leaves hin hv hl hc hs)⟩
  · intro pkg hv p u u1
    exact ⟨congrArg (fun u : State => (.next u : Out)) (packageReplace_takes hv),
      fun hask hmoved => congrArg (fun u : State => (.next u : Out)) (packageReplace_bare hv hask hmoved)⟩
  · intro k e he now u
    have hnext : ∀ {t u : State}, t = u → (.next t : Out) = .next u := fun h => congrArg (fun u : State => (.next u : Out)) h
    refine ⟨fun h => hnext (vacantTimeout_early he h), fun h => ?_⟩
    have hdue := vacantTimeout_due he h
    refine ⟨fun c q ha hc => ?_, fun c q ha hc => ?_, fun c ha => ?_, fun i a n acc q ha hacc hq hd => ?_, fun p win off n w d wd ha hw => ?_,
      fun oc rd rs1 rs2 ha hi => ?_⟩ <;> refine hnext (hdue.trans ?_) <;> rw [ha]
    · exact failVacant_clr (s := u) hc
    · exact failVacant_fill (s := u) hc
    · rfl
    · exact failVacant_part (s := u) hacc hq hd
    · exact failVacant_host (s := u) hw
    · exact failVacant_os (s := u) hi
  · intro pkg win host size ctx va wr hin hc hva
    refine ⟨fun hwin hsz hmod => if_pos ?_, fun h => if_neg ?_⟩
    · have hmod' : size % 2 ^ 21 = 0 := hmod
      simp only [hin, hwin, bne_iff_ne.mpr hsz, beq_iff_eq.mpr hmod', hc, hva, decide_true, Bool.and_self]
    · rcases h with h | h
      · simp [show ¬ win < 64 by omega]
      · simp [h]

end Sys2Proof.Machine
end

section
/-! PROOF. What leaves every byte of memory, of the local spaces and of the caches alone: parks, traps, the bookkeeping of a unit's run, and the
instructions that act on slices alone. -/

namespace Sys2Proof.Machine

/-- All that memory, the local spaces and the caches hold. -/
def State.bytes (s : State) : Mem × Mem × Mem × (Tbl LLine × Mem) × Tbl L2Line × Mem :=
  (s.mem, s.stash, s.scratch, (s.llc, s.llcData), s.l2, s.l2Data)

theorem bytesKept_iff {s t : State} : BytesKept s t ↔ t.bytes = s.bytes := by
  constructor
  · rintro ⟨hm, hs, hc, ⟨hl, hld⟩, h2, h2d⟩
    simp only [State.bytes, hm, hs, hc, hl, hld, h2, h2d]
  · intro h
    simp only [State.bytes, Prod.mk.injEq] at h
    obtain ⟨hm, hs, hc, ⟨hl, hld⟩, h2, h2d⟩ := h
    exact ⟨hm, hs, hc, ⟨hl, hld⟩, h2, h2d⟩

/-- A relation between a state and a later one that holds wherever no byte has changed, and from step to step. -/
structure Bytewise (R : State → State → Prop) : Prop where
  same : ∀ {s t : State}, t.bytes = s.bytes → R s t
  trans : ∀ {s t u : State}, R s t → R t u → R s u

theorem bytewise_bytes : Bytewise fun s t => t.bytes = s.bytes := ⟨id, fun h k => k.trans h⟩

namespace Bytewise

variable {R : State → State → Prop} (hR : Bytewise R)
include hR

theorem refl (s : State) : R s s := hR.same rfl

theorem foldl {α : Type} {f : State → α → State} (hf : ∀ u a, R u (f u a)) (l : List α) (s : State) : R s (l.foldl f s) :=
  foldl_keeps hR.refl hR.trans hf l s

end Bytewise

theorem foldl_bytes {α : Type} {f : State → α → State} (hf : ∀ u a, (f u a).bytes = u.bytes) (l : List α) (s : State) :
    (l.foldl f s).bytes = s.bytes := bytewise_bytes.foldl hf l s

/-! ### Viaduct -/

theorem TrafficOnly.bytes {s t : State} (h : TrafficOnly s t) : t.bytes = s.bytes := by
  rw [← h.rest]; rfl

theorem injectControl_bytes (s : State) (core va : Nat) : (injectControl s core va).bytes = s.bytes := (send_traffic s _).bytes

theorem injectUnit_bytes (s : State) (core cls dest tower : Nat) (who : Option Nat) : (injectUnit s core cls dest tower who).bytes = s.bytes :=
  (send_traffic s _).bytes

/-! ### Traps (R241 to R246) -/

theorem updCtx_bytes (s : State) (k : Nat) (f : Ctx → Ctx) : (s.updCtx k f).bytes = s.bytes := by
  unfold State.updCtx
  split <;> rfl

theorem stopContext_bytes (s : State) (ctx cause : Nat) : (stopContext s ctx cause).bytes = s.bytes := by
  unfold stopContext
  split
  · rfl
  · exact updCtx_bytes s ctx _

theorem strikeFills_bytes (s : State) (sel : FillReq → Bool) : (strikeFills s sel).bytes = s.bytes := by
  unfold strikeFills
  dsimp only
  split <;> rfl

theorem dropReqs_bytes (s : State) (i : Nat) : (dropReqs s i).bytes = s.bytes := strikeFills_bytes _ _

theorem enterTrap_bytes (s : State) (i : Nat) (t : TrapRec) : (enterTrap s i t).bytes = s.bytes := by
  unfold enterTrap
  dsimp only
  split
  · rfl
  · split
    · split
      · rfl
      · exact stopContext_bytes _ _ _
    · exact dropReqs_bytes s i

theorem takeTrap_bytes (s : State) (i : Nat) (t : TrapRec) : (takeTrap s i t).bytes = s.bytes := by
  unfold takeTrap
  split
  · exact enterTrap_bytes s i t
  · rfl

theorem endRun_bytes (s : State) (ids : List Nat) : (endRun s ids).bytes = s.bytes := by
  unfold endRun
  split <;> rfl

theorem takeUnit_bytes (s : State) (ids : List Nat) (ts : List TrapIn) (t : TrapIn) : (takeUnit s ids ts t).bytes = s.bytes :=
  foldl_bytes (fun u _ => takeTrap_bytes u _ _) ids s

theorem trapUnit_bytes (s : State) (ids : List Nat) (ts : List TrapIn) (t : TrapIn) : (trapUnit s ids ts t).bytes = s.bytes :=
  (endRun_bytes (takeUnit s ids ts t) ids).trans (takeUnit_bytes s ids ts t)

/-! ### Parks before issue (R54, R139, R223) -/

theorem addReqs_bytes (s : State) (cs : List ClrReq) (fs : List FillReq) : (addReqs s cs fs).bytes = s.bytes := by
  unfold addReqs
  refine (foldl_bytes (fun u q => ?_) fs _).trans (foldl_bytes (fun u q => ?_) cs s)
  · exact injectControl_bytes { u.fresh with fillReqs := Tbl.put u.fillReqs u.nextId q } _ _
  · exact injectControl_bytes { u.fresh with clrReqs := Tbl.put u.clrReqs u.nextId q } _ _

/-- A dirty sector that is sent home stays in its tile. -/
theorem flushMapped_bytes (s : State) (crew : Nat) (sel : Nat → Bool) : (flushMapped s crew sel).bytes = s.bytes := by
  refine foldl_bytes (fun u t => foldl_bytes (fun v sec => ?_) _ u) _ s
  dsimp only
  split
  · exact (sendHome_traffic _ _ _ _ _).bytes
  · rfl

theorem requestStop_bytes (s : State) (ctx : Nat) : (requestStop s ctx).bytes = s.bytes := by
  unfold requestStop
  split
  · exact updCtx_bytes s ctx _
  · rfl

theorem parkStart_bytes (s : State) (i : Nat) (c : Wait) : (parkStart s i c).bytes = s.bytes := by
  unfold parkStart
  split
  · split
    · rfl
    · exact flushMapped_bytes _ _ _
  · exact flushMapped_bytes _ _ _
  · exact (requestStop_bytes _ _).trans (injectUnit_bytes _ _ _ _ _ _)
  · exact injectUnit_bytes _ _ _ _ _ _
  · rfl
  · exact injectUnit_bytes _ _ _ _ _ _
  · rfl

theorem parkAt_bytes (c : Wait) (s : State) (i : Nat) : (parkAt c s i).bytes = s.bytes := parkStart_bytes s i c

theorem parkBefore_bytes (ids : List Nat) (asking : Bool) (s : State) (i : Nat) (p : Pre) : (parkBefore ids asking s i p).bytes = s.bytes := by
  unfold parkBefore
  split
  · exact parkAt_bytes _ s i
  · exact (parkAt_bytes _ _ i).trans (addReqs_bytes _ _ _)
  · split
    · exact parkAt_bytes _ s i
    · rfl

theorem unitWait_bytes (pres : List Pre) (s : State) : (unitWait pres s).bytes = s.bytes :=
  (endRun_bytes _ _).trans (foldl_bytes (fun _ _ => parkBefore_bytes _ _ _ _ _) _ s)

/-! ### A unit's instruction (R139, R142) -/

theorem countRun_bytes (s : State) (ids : List Nat) (occ : Nat) : (countRun s ids occ).1.bytes = s.bytes := by
  unfold countRun
  split <;> rfl

theorem addLands_bytes (s : State) (i : Nat) (ls : List (LandDst × DWord)) : (addLands s i ls).bytes = s.bytes := by
  unfold addLands
  split <;> rfl

namespace Bytewise

variable {R : State → State → Prop} (hR : Bytewise R) {m : Meaning}
include hR

/-- What an instruction does in one slice is what its effect does there. -/
theorem actOf (hact : ∀ p u j l, R u (m.act p u j l)) (p s : State) (i : Nat) : R s (actOf m p s i) := by
  have hbegun : R s (s.begun i) := hR.same rfl
  have hsl : ∀ (u : State) (f : Slice → Slice), R u (u.updSl i f) := fun _ _ => hR.same rfl
  unfold Machine.actOf
  dsimp only
  split
  · exact hR.trans hbegun (hsl _ _)
  · split
    · exact hR.trans hbegun (hact p _ i _)
    · exact hR.trans (hR.trans hbegun (hact p _ i _)) (hsl _ _)

theorem unitGo (hact : ∀ p u j l, R u (m.act p u j l)) (h : Hdr) (s : State) : R s (unitGo h m s) := by
  refine hR.trans (hR.foldl (fun u i => hR.actOf hact s u i) s.cur s) (hR.same ?_)
  have hw : ∀ u : State, (s.cur.foldl (markW h) u).bytes = u.bytes := foldl_bytes (f := markW h) (fun _ _ => rfl) s.cur
  have hc := fun u => countRun_bytes u s.cur m.occ
  unfold Machine.unitGo
  dsimp only
  split
  · exact (endRun_bytes _ _).trans ((hc _).trans (hw _))
  · exact (hc _).trans (hw _)

/-- What holds of an instruction's effect in each slice holds of every outcome of its issue. -/
theorem runUnit (hact : ∀ p u j l, R u (m.act p u j l)) {h : Hdr} {s t : State} (hs : runUnit h m s = .next t) : R s t := by
  unfold Machine.runUnit at hs
  split at hs
  · cases hs
  · dsimp only at hs
    split at hs
    · injection hs with hs
      exact hs ▸ hR.same (trapUnit_bytes _ _ _ _)
    · injection hs with hs
      subst hs
      split
      · exact hR.unitGo hact h s
      · exact hR.same (unitWait_bytes _ s)

end Bytewise

/-- An instruction whose effect changes its own slices alone keeps every byte, whatever becomes of it. -/
theorem runUnit_bytes {h : Hdr} {m : Meaning} {s t : State} (hact : ∀ p u j l, (m.act p u j l).bytes = u.bytes)
    (hs : runUnit h m s = .next t) : t.bytes = s.bytes := bytewise_bytes.runUnit hact hs

theorem sfuOp_bytes {h : Hdr} {d a : Opnd} {f : Nat → Fl Nat} {s t : State} (hs : sfuOp h d a f s = .next t) : t.bytes = s.bytes := by
  refine runUnit_bytes (fun p u j l => ?_) hs
  dsimp only
  split
  · exact addLands_bytes u j _
  · exact addLands_bytes u j _

theorem trapGang_bytes (s : State) (i : Nat) : (trapGang s i).bytes = s.bytes :=
  (endRun_bytes _ _).trans (foldl_bytes (fun _ _ => takeTrap_bytes _ _ _) _ s)

theorem gangOp_bytes {h : Hdr} {rs : List (Opnd × Nat)} {f : State → Nat → List GLane → (Nat → DWord) × Flags}
    {dst : Nat → DWord → List (LandDst × DWord)} {whole : Bool} {s t : State} (hs : gangOp h rs f dst whole s = .next t) :
    t.bytes = s.bytes := by
  have hact : ∀ (u : State) (i : Nat) (mine : List (GLane × Nat)) (ls : GLane × Nat → List (LandDst × DWord)),
      (match mine with
        | [] => u.updSl i (standAt Wait.now)
        | e :: _ => addLands (u.updSl i (standAt Wait.now)) i (ls e)).bytes = u.bytes := by
    intro u i mine ls
    cases mine with
    | nil => rfl
    | cons e _ => exact addLands_bytes _ i (ls e)
  unfold gangOp at hs
  dsimp only at hs
  split at hs
  · exact runUnit_bytes (fun p u j l => hact u j _ _) hs
  · split at hs
    · injection hs with hs
      exact hs ▸ trapGang_bytes _ _
    · exact runUnit_bytes (fun p u j l => hact u j _ _) hs

theorem transferMeaning_bytes {h : Hdr} {lanes : Slice → BitVec 4} {rs : List (Opnd × Nat)} {link : Opnd}
    {target : Crew → Slice → Nat → DWord} {s t : State} (hs : transferMeaning h lanes rs link target s = .next t) : t.bytes = s.bytes :=
  runUnit_bytes (fun _ _ _ _ => rfl) hs

/-! ### The instructions of the statement -/

section

variable {i : Instr} {s t : State}

theorem IntResult.bytes {r : Result} (hr : IntResult i r) (hs : exec i s = .next t) : t.bytes = s.bytes := by
  cases hr <;> exact runUnit_bytes (fun _ _ _ _ => rfl) hs

theorem BitResult.bytes {r : Result} (hr : BitResult i r) (hs : exec i s = .next t) : t.bytes = s.bytes := by
  cases hr <;> exact runUnit_bytes (fun _ _ _ _ => rfl) hs

theorem FloatResult.bytes {r : Result} (hr : FloatResult i r) (hs : exec i s = .next t) : t.bytes = s.bytes := by
  cases hr <;> exact runUnit_bytes (fun _ _ _ _ => rfl) hs

theorem MoveResult.bytes {r : Result} (hr : MoveResult i r) (hs : exec i s = .next t) : t.bytes = s.bytes := by
  cases hr <;> exact runUnit_bytes (fun _ _ _ _ => rfl) hs

theorem PredForm.bytes {r : PredResult} (hr : PredForm i r) (hs : exec i s = .next t) : t.bytes = s.bytes := by
  cases hr <;> exact runUnit_bytes (fun _ _ _ _ => rfl) hs

theorem Transfers.bytes {f : TransferForm} (hf : Transfers i f) (hs : exec i s = .next t) : t.bytes = s.bytes := by
  cases hf <;> exact transferMeaning_bytes hs

theorem Gangs.bytes {f : GangForm} (hf : Gangs i f) (hs : exec i s = .next t) : t.bytes = s.bytes := by
  exact gangOp_bytes (gangs_exec hf s ▸ hs)

theorem SfuForm.bytes {h : Hdr} {d a : Opnd} {f : Nat → Fl Nat} (hf : SfuForm i h d a f) (hs : exec i s = .next t) : t.bytes = s.bytes := by
  cases hf <;> exact sfuOp_bytes hs

end

/-- Settles O6: each of these instructions changes its own slices alone, and a park, a trap or a stop changes no byte either. -/
theorem bytesFrame : Obligations.BytesFrame := by
  unfold Obligations.BytesFrame
  intro i s t hi hs
  refine bytesKept_iff.mpr ?_
  rcases hi with ⟨r, hr⟩ | ⟨r, hr⟩ | ⟨r, hr⟩ | ⟨r, hr⟩ | ⟨r, hr⟩ | ⟨f, hf⟩ | ⟨f, hf⟩ | ⟨h, d, a, f, hf⟩ | ⟨h, sub, p, ty, d, a, b, rfl⟩ | hi
  · exact hr.bytes hs
  · exact hr.bytes hs
  · exact hr.bytes hs
  · exact hr.bytes hs
  · exact hr.bytes hs
  · exact hf.bytes hs
  · exact hf.bytes hs
  · exact hf.bytes hs
  · exact runUnit_bytes (fun _ _ _ _ => rfl) hs
  rcases hi with ⟨h, n, d, a, b, rfl | rfl⟩ | ⟨h, ty, n, d, a, b, rfl⟩ | ⟨h, ty, d, a, b, rfl | rfl⟩ | ⟨h, q, d, rfl | rfl⟩ | ⟨h, ty, d, rfl⟩ |
    ⟨h, d, rfl | rfl | rfl⟩ | ⟨h, pd, a, rfl⟩ | ⟨h, hi⟩
  iterate 12 exact runUnit_bytes (fun _ _ _ _ => rfl) hs
  rcases hi with rfl | rfl | rfl | rfl | rfl | rfl | rfl | rfl | rfl | rfl | rfl | rfl <;> exact runUnit_bytes (fun _ _ _ _ => rfl) hs

end Sys2Proof.Machine
end

section
/-! PROOF. The canonical form of the five byte memories: what keeps it, and the model's operations on frames, caches and stash tiles. -/

namespace Sys2Proof.Machine

theorem memWf_iff {s : State} : s.memWf ↔ Mem.wf s.mem ∧ Mem.wf s.stash ∧ Mem.wf s.scratch ∧ Mem.wf s.llcData ∧ Mem.wf s.l2Data := by
  simp only [State.memWf, Bool.and_eq_true, and_assoc]

section

variable {s : State} {m : Mem}

theorem wf_mem (hm : Mem.wf s.mem → Mem.wf m) (h : s.memWf) : State.memWf { s with mem := m } := by
  obtain ⟨h1, h2, h3, h4, h5⟩ := memWf_iff.mp h
  exact memWf_iff.mpr ⟨hm h1, h2, h3, h4, h5⟩

theorem wf_stash (hm : Mem.wf s.stash → Mem.wf m) (h : s.memWf) : State.memWf { s with stash := m } := by
  obtain ⟨h1, h2, h3, h4, h5⟩ := memWf_iff.mp h
  exact memWf_iff.mpr ⟨h1, hm h2, h3, h4, h5⟩

theorem wf_scratch (hm : Mem.wf s.scratch → Mem.wf m) (h : s.memWf) : State.memWf { s with scratch := m } := by
  obtain ⟨h1, h2, h3, h4, h5⟩ := memWf_iff.mp h
  exact memWf_iff.mpr ⟨h1, h2, hm h3, h4, h5⟩

theorem wf_llc (hm : Mem.wf s.llcData → Mem.wf m) (h : s.memWf) : State.memWf { s with llcData := m } := by
  obtain ⟨h1, h2, h3, h4, h5⟩ := memWf_iff.mp h
  exact memWf_iff.mpr ⟨h1, h2, h3, hm h4, h5⟩

theorem wf_l2 (hm : Mem.wf s.l2Data → Mem.wf m) (h : s.memWf) : State.memWf { s with l2Data := m } := by
  obtain ⟨h1, h2, h3, h4, h5⟩ := memWf_iff.mp h
  exact memWf_iff.mpr ⟨h1, h2, h3, h4, hm h5⟩

end

theorem wf_of_bytes {s t : State} (hb : t.bytes = s.bytes) (h : s.memWf) : t.memWf := by
  obtain ⟨hm, hs, hc, hl, h2⟩ := bytesKept_iff.mpr hb
  rw [memWf_iff, hm, hs, hc, hl.2, h2.2, ← memWf_iff]
  exact h

theorem TrafficOnly.wf {s t : State} (ht : TrafficOnly s t) (h : s.memWf) : t.memWf := wf_of_bytes ht.bytes h

theorem bytewise_wf : Bytewise fun s t => s.memWf → t.memWf := ⟨wf_of_bytes, fun h k w => k (h w)⟩

theorem foldl_wf {α : Type} {f : State → α → State} (hf : ∀ u a, u.memWf → (f u a).memWf) {l : List α} {s : State} (h : s.memWf) :
    (l.foldl f s).memWf := bytewise_wf.foldl hf l s h

/-- As `foldl_wf`, where the state is carried with something else. -/
theorem foldl_wf_fst {α β : Type} {f : State × β → α → State × β} (hf : ∀ r a, r.1.memWf → (f r a).1.memWf) {l : List α} {r : State × β}
    (h : r.1.memWf) : (l.foldl f r).1.memWf :=
  foldl_keeps (R := fun r q : State × β => r.1.memWf → q.1.memWf) (fun _ h => h) (fun h k w => k (h w)) hf l r h

theorem Mem.wf_foldl {α : Type} {f : Mem → α → Mem} (hf : ∀ m a, Mem.wf m → Mem.wf (f m a)) {l : List α} {m : Mem} (h : Mem.wf m) :
    Mem.wf (l.foldl f m) :=
  foldl_keeps (R := fun m n : Mem => Mem.wf m → Mem.wf n) (fun _ h => h) (fun h k w => k (h w)) hf l m h

theorem ite_wf {a b : State} {c : Prop} [Decidable c] (ha : a.memWf) (hb : b.memWf) : (if c then a else b).memWf := by
  split
  · exact ha
  · exact hb

theorem ite_traffic {s a b : State} {c : Prop} [Decidable c] (ha : TrafficOnly s a) (hb : TrafficOnly s b) :
    TrafficOnly s (if c then a else b) := by
  split
  · exact ha
  · exact hb

section

variable {s : State} {k n va ctx line cl cls core dest crew pkg flits sectors : Nat} {a : Answer}

/-! ### Frames and page tables -/

theorem migPull_wf {m : Mig} (h : s.memWf) : (migPull s n m line).memWf := by
  unfold migPull
  split
  · exact h
  · exact wf_mem (Mem.wf_writeN _ _) h

theorem framePull_wf (h : s.memWf) : (framePull s k).memWf := by
  unfold framePull
  split
  · exact h
  · exact migPull_wf h

theorem physWrite_wf {b : Byte} (h : s.memWf) : (physWrite s k b).memWf := by
  unfold physWrite
  split
  · exact wf_mem (Mem.wf_write _ _) h
  · exact wf_mem (Mem.wf_write _ _) (framePull_wf h)

theorem physPut_wf {v : Nat} (h : s.memWf) : (physPut s k n v).memWf := foldl_wf (fun _ _ hu => physWrite_wf hu) h

theorem physWriteLine_wf {bytes : List Byte} (h : s.memWf) : (physWriteLine s k bytes).memWf := by
  unfold physWriteLine
  split
  · exact wf_mem (Mem.wf_writeN _ _) h
  · exact wf_mem (Mem.wf_writeN _ _) h

theorem updLeaves_wf {f : DWord → DWord} (h : s.memWf) : (updLeaves s ctx va f).memWf := by
  unfold updLeaves
  dsimp only
  split
  · exact h
  · exact foldl_wf (fun _ _ hu => physPut_wf hu) h

theorem setAD_wf (h : s.memWf) : (setAD s ctx va a).memWf := by
  unfold setAD
  split
  · exact updLeaves_wf h
  · exact h

theorem tlbFill_wf (h : s.memWf) : (tlbFill s ctx va).memWf := by
  unfold tlbFill
  split
  · exact h
  · exact h

theorem addVacant_wf {q : VacantAsk} (h : s.memWf) : (addVacant s q pkg va).memWf := h

theorem parkVacant_wf {q : VacantAsk} (h : s.memWf) : (parkVacant s q pkg va).memWf := ite_wf h (addVacant_wf h)

theorem updCtx_wf {f : Ctx → Ctx} (h : s.memWf) : (s.updCtx ctx f).memWf := wf_of_bytes (updCtx_bytes s ctx f) h

/-! ### Viaduct and banks -/

theorem touchBank_wf {bank : Nat} (h : s.memWf) : (touchBank s pkg bank).memWf := (touchBank_traffic s pkg bank).wf h

theorem touchScratch_wf {sp off : Nat} (h : s.memWf) : (touchScratch s sp off n).memWf := (touchScratch_traffic s sp off n).wf h

theorem busUnit_wf (h : s.memWf) : (busUnit s dest va flits).memWf := (busUnit_traffic s dest va flits).wf h

theorem send_wf {p : Pkt} (h : s.memWf) : (send s p).memWf := (send_traffic s p).wf h

theorem sendHome_wf (h : s.memWf) : (sendHome s cl cls va flits).memWf := (sendHome_traffic s cl cls va flits).wf h

theorem sendCluster_wf (h : s.memWf) : (sendCluster s cl va).memWf := (sendCluster_traffic s cl va).wf h

theorem recallPackets_wf (h : s.memWf) : (recallPackets s cl va sectors).memWf := (recallPackets_traffic s cl va sectors).wf h

/-! ### The LLC -/

theorem countHot_wf (h : s.memWf) : (countHot s ctx va).memWf := by
  unfold countHot
  split
  · exact ite_wf h h
  · exact h

theorem pullFor_wf (h : s.memWf) : (pullFor s ctx va).memWf := by
  unfold pullFor
  split
  · exact framePull_wf h
  · exact h

theorem fillLlc_wf (h : s.memWf) : (fillLlc s ctx line).memWf := by
  unfold fillLlc
  split
  · exact h
  · exact wf_llc (Mem.wf_writeN _ _) (busUnit_wf (pullFor_wf h))

theorem acceptBytes_wf {bytes : List (Nat × Byte)} (h : s.memWf) : (acceptBytes s ctx line bytes).1.memWf := by
  unfold acceptBytes
  split
  · exact wf_llc (Mem.wf_foldl fun _ _ => Mem.wf_write _ _) (touchBank_wf (fillLlc_wf h))
  · exact h

theorem acceptFrom_wf {w : Option Nat} {bytes : List (Nat × Byte)} (h : s.memWf) : (acceptFrom s w ctx line bytes).memWf := by
  unfold acceptFrom
  have ha := acceptBytes_wf h (ctx := ctx) (line := line) (bytes := bytes)
  generalize acceptBytes s ctx line bytes = r at ha
  exact ite_wf ha ha

theorem arriveWriteBack_wf (h : s.memWf) : (arriveWriteBack s k).memWf := by
  unfold arriveWriteBack
  split
  · exact h
  · exact acceptFrom_wf h

theorem dropLlc_wf (h : s.memWf) : (dropLlc s ctx line).memWf := wf_llc (Mem.wf_clear _ _) h

theorem cleanLlc_wf (h : s.memWf) : (cleanLlc s ctx line).memWf := by
  unfold cleanLlc
  dsimp only
  split
  · split
    · exact physWriteLine_wf (touchBank_wf (busUnit_wf h))
    · exact h
  · exact h

/-! ### L2 slices and stash tiles -/

theorem dropL2_wf {recalled : Bool} (h : s.memWf) : (dropL2 recalled s cl ctx line).memWf := by
  have hdrop : ∀ u, TrafficOnly s u → State.memWf { touchBank u (cl / 64) (l2Bank cl (256 * line)) with
      l2 := Tbl.del s.l2 (l2Key cl ctx line)
      l2Data := Mem.clear s.l2Data (l2Addr cl ctx (256 * line)) 256 } := by
    intro u hu
    have ht := hu.trans (touchBank_traffic u (cl / 64) (l2Bank cl (256 * line)))
    exact wf_l2 (fun hl => Mem.wf_clear _ _ (ht.l2Data ▸ hl)) (ht.wf h)
  unfold dropL2
  split
  · exact h
  · dsimp only
    refine ite_wf (hdrop _ ?_) (acceptBytes_wf (hdrop _ ?_))
    all_goals exact ite_traffic (recallPackets_traffic _ _ _ _) (ite_traffic (.refl s) (sendHome_traffic _ _ _ _ _))

theorem recallStash_wf (h : s.memWf) : (recallStash s crew ctx line).memWf := by
  unfold recallStash
  refine foldl_wf (fun u k hu => foldl_wf (fun v e hv => ?_) hu) h
  exact ite_wf (acceptFrom_wf (recallPackets_wf hv)) (recallPackets_wf hv)

theorem recallLine_wf {keepCl keepCrew : Option Nat} (h : s.memWf) : (recallLine s ctx line keepCl keepCrew).memWf :=
  foldl_wf (fun _ _ hu => recallStash_wf hu) (foldl_wf (fun _ _ hu => dropL2_wf hu) (foldl_wf (fun _ _ hu => arriveWriteBack_wf hu) h))

theorem setTag_wf {x : Tag} (h : s.memWf) : (setTag s crew n x).memWf := h

theorem discardAbove_wf (h : s.memWf) : (discardAbove s ctx line).memWf := by
  unfold discardAbove
  dsimp only
  refine foldl_wf (fun _ _ hu => setTag_wf hu) ?_
  have ht : TrafficOnly s _ := foldl_keeps TrafficOnly.refl TrafficOnly.trans (fun u cl => recallPackets_traffic u cl (256 * line) 0)
    (((l2Holders s ctx line).map Prod.fst) ++ (([0, 1].flatMap fun k => stashAt s ctx (256 * line + 128 * k)).filter fun e =>
      ((tagOf s e.1 e.2.1).sv ||| (tagOf s e.1 e.2.1).sd).getLsbD (e.2.2 / 128)).map fun e => coreCluster (s.crew e.1).core).dedup s
  exact wf_l2 (fun hl => Mem.wf_foldl (fun _ _ => Mem.wf_clear _ _) (ht.l2Data ▸ hl)) (ht.wf h)

theorem discardLine_wf (h : s.memWf) : (discardLine s ctx line).memWf := dropLlc_wf (discardAbove_wf h)

theorem evictLlc_wf (h : s.memWf) : (evictLlc s ctx line).memWf := dropLlc_wf (cleanLlc_wf (recallLine_wf h))

theorem roomLlc_wf (h : s.memWf) : (roomLlc s ctx line).memWf := by
  unfold roomLlc
  refine ite_wf h ?_
  dsimp only
  refine ite_wf h ?_
  split
  · exact evictLlc_wf h
  · exact h

theorem homeAccess_wf (h : s.memWf) : (homeAccess s ctx line).memWf := countHot_wf (touchBank_wf h)

theorem atHome_wf (h : s.memWf) : (atHome s ctx line).memWf := homeAccess_wf (fillLlc_wf (roomLlc_wf h))

theorem roomL2_wf (h : s.memWf) : (roomL2 s cl va).memWf := by
  unfold roomL2
  dsimp only
  refine ite_wf h ?_
  split
  · exact dropL2_wf h
  · split
    · exact dropL2_wf h
    · exact h

variable {ch : Nat} {pl : Place}

theorem cacheRead_wf (h : s.memWf) : (cacheRead s pl cl ctx va ch).memWf := by
  have h0 : (touchBank s (cl / 64) (l2Bank cl va)).memWf := touchBank_wf h
  unfold cacheRead
  dsimp only
  split
  · exact pullFor_wf h
  · exact atHome_wf (recallLine_wf h)
  · generalize touchBank s (cl / 64) (l2Bank cl va) = s0 at h0
    split
    · exact ite_wf (c := _ = true) h0 (atHome_wf h0)
    · have h1 : (atHome (if lineOwned s0 ctx (va / 256) then recallLine s0 ctx (va / 256) none none else s0) ctx (va / 256)).memWf :=
        atHome_wf (ite_wf (recallLine_wf h0) h0)
      have h2 := roomL2_wf (cl := cl) (va := va) h1
      generalize roomL2 _ cl va = s2 at h2
      exact ite_wf h2 h1

theorem exclL2_wf (h : s.memWf) : (exclL2 s cl ctx va ch).memWf := by
  have h0 : (touchBank s (cl / 64) (l2Bank cl va)).memWf := touchBank_wf h
  unfold exclL2
  dsimp only
  generalize touchBank s (cl / 64) (l2Bank cl va) = s0 at h0
  generalize Option.getD _ false = b
  have h1 : (if b = true then s0 else atHome (recallLine s0 ctx (va / 256) (some cl) none) ctx (va / 256)).memWf :=
    ite_wf h0 (atHome_wf (recallLine_wf h0))
  generalize (if b = true then s0 else _) = s1 at h1
  exact ite_wf (c := _ = true) h1 (roomL2_wf h1)

theorem ownL2_wf (h : s.memWf) : (ownL2 s cl ctx va ch).memWf := by
  unfold ownL2
  dsimp only
  have h1 : (exclL2 s cl ctx va ch).memWf := exclL2_wf h
  generalize exclL2 s cl ctx va ch = s1 at h1
  refine wf_l2 (fun hl => ?_) h1
  split
  · exact hl
  · exact Mem.wf_writeN _ _ hl

theorem writeLoc_wf {bytes : List Byte} (h : s.memWf) : (writeLoc s pl cl ctx va bytes ch).memWf := by
  unfold writeLoc
  dsimp only
  split
  · split
    · exact foldl_wf (fun _ _ hu => physWrite_wf hu) h
    · exact h
  · exact acceptBytes_wf (atHome_wf (recallLine_wf h))
  · exact wf_l2 (Mem.wf_writeN _ _) (ownL2_wf h)

theorem obtainLoc_wf (h : s.memWf) : (obtainLoc s pl cl ctx va ch).memWf := by
  unfold obtainLoc
  split
  · exact exclL2_wf h
  · exact cacheRead_wf h

theorem putHome_wf {v : Nat} (h : s.memWf) : (putHome s ctx va n v).memWf := by
  unfold putHome
  split
  · exact writeLoc_wf h
  · exact h

theorem readHome_wf (h : s.memWf) : (readHome s ctx va n).memWf := by
  unfold readHome
  refine foldl_wf (fun u line hu => ?_) h
  split
  · exact cacheRead_wf hu
  · exact hu

end

end Sys2Proof.Machine
end

section
/-! PROOF. The canonical form of the byte memories through accesses, their parts, clearance, downgrades and migrations. -/

namespace Sys2Proof.Machine

section

variable {s t : State} {i k n p va ctx line cl cls core crew ch dg pkg sp off : Nat} {pl : Place} {a : Acc} {q : Piece}

/-! ### Issue -/

/-- What keeps the form in each slice keeps it through an instruction, whatever becomes of it. -/
theorem runUnit_wf {h : Hdr} {m : Meaning} (hs : runUnit h m s = .next t) (hw : s.memWf)
    (hact : ∀ p u j l, u.memWf → (m.act p u j l).memWf) : t.memWf := bytewise_wf.runUnit hact hs hw

theorem injectControl_wf (h : s.memWf) : (injectControl s core va).memWf := wf_of_bytes (injectControl_bytes s core va) h

theorem injectUnit_wf {dest tower : Nat} {who : Option Nat} (h : s.memWf) : (injectUnit s core cls dest tower who).memWf :=
  wf_of_bytes (injectUnit_bytes s core cls dest tower who) h

theorem inject_wf {flits back units : Nat} (h : s.memWf) : (inject s core cls va flits back units).memWf := send_wf h

theorem addReqs_wf {cs : List ClrReq} {fs : List FillReq} (h : s.memWf) : (addReqs s cs fs).memWf := wf_of_bytes (addReqs_bytes s cs fs) h

theorem addLands_wf {ls : List (LandDst × DWord)} (h : s.memWf) : (addLands s i ls).memWf := wf_of_bytes (addLands_bytes s i ls) h

theorem takeUnit_wf {ids : List Nat} {ts : List TrapIn} {u : TrapIn} (h : s.memWf) : (takeUnit s ids ts u).memWf :=
  wf_of_bytes (takeUnit_bytes s ids ts u) h

theorem flushMapped_wf {sel : Nat → Bool} (h : s.memWf) : (flushMapped s crew sel).memWf := wf_of_bytes (flushMapped_bytes s crew sel) h

theorem stopContext_wf {cause : Nat} (h : s.memWf) : (stopContext s ctx cause).memWf := wf_of_bytes (stopContext_bytes s ctx cause) h

theorem requestStop_wf (h : s.memWf) : (requestStop s ctx).memWf := wf_of_bytes (requestStop_bytes s ctx) h

theorem strikeFills_wf {sel : FillReq → Bool} (h : s.memWf) : (strikeFills s sel).memWf := wf_of_bytes (strikeFills_bytes s sel) h

theorem dropReqs_wf (h : s.memWf) : (dropReqs s i).memWf := wf_of_bytes (dropReqs_bytes s i) h

theorem updSl_wf {f : Slice → Slice} (h : s.memWf) : (s.updSl i f).memWf := h

theorem updCrew_wf {f : Crew → Crew} (h : s.memWf) : (s.updCrew crew f).memWf := h

theorem updCore_wf {f : Core → Core} (h : s.memWf) : (s.updCore core f).memWf := h

theorem updCluster_wf {f : Cluster → Cluster} (h : s.memWf) : (s.updCluster cl f).memWf := h

theorem updTower_wf {tw : Nat} {f : Tower → Tower} (h : s.memWf) : (s.updTower tw f).memWf := h

theorem updPkg_wf {f : Pkg → Pkg} (h : s.memWf) : (s.updPkg pkg f).memWf := h

theorem updLaunch_wf {f : Launch → Launch} (h : s.memWf) : (s.updLaunch k f).memWf := h

theorem fresh_wf (h : s.memWf) : s.fresh.memWf := h

theorem log_wf {kind : String} {args : List Nat} (h : s.memWf) : (s.log kind args).memWf := h

theorem deferTrap_wf {r : TrapRec} (h : s.memWf) : (deferTrap s i r).memWf := h

theorem deferAccess_wf {code : Nat} {frec pc addr : DWord} {lanes : Word} (h : s.memWf) :
    (deferAccess s i k code frec pc addr lanes).memWf := ite_wf (updSl_wf h) (deferTrap_wf h)

/-! ### Accesses under way -/

theorem injectRead_wf (h : s.memWf) : (injectRead s pl core cls ctx va).memWf := ite_wf (inject_wf h) h

theorem injectStore_wf (h : s.memWf) : (injectStore s pl core cls ctx va n).memWf := ite_wf h (ite_wf (inject_wf h) (inject_wf h))

theorem injectSector_wf {sector : Nat} (h : s.memWf) : (injectSector s i a sector).memWf := by
  unfold injectSector
  dsimp only
  split
  · exact h
  · exact h
  · exact ite_wf h (injectRead_wf h)
  · exact ite_wf h (injectRead_wf h)
  · exact ite_wf h (inject_wf h)
  · exact inject_wf h
  · exact ite_wf h (injectStore_wf h)
  · exact ite_wf h (injectStore_wf h)

theorem startAcc_wf {early : List (LandDst × DWord)} {later : Nat} (h : s.memWf) : (startAcc s i a early later).memWf :=
  foldl_wf (fun _ _ hu => injectSector_wf hu) (updSl_wf (fresh_wf h))

theorem finishPiece_wf {v : Nat} {f : Flags} (h : s.memWf) : (finishPiece s i k p v f).memWf := updSl_wf h

theorem touchClr_wf {r : Right} {as : List LaneAcc} (h : s.memWf) : (touchClr s core ctx r as).memWf := updCore_wf h

theorem useClr_wf {r : Right} {as : List LaneAcc} (h : s.memWf) : (useClr s i r as).memWf := touchClr_wf h

theorem finishKept_wf {as : List Answer} (h : s.memWf) : (finishKept s i as k).memWf := by
  unfold finishKept
  split
  · exact h
  · exact foldl_wf (fun _ _ hu => ite_wf (finishPiece_wf hu) hu) h

theorem scratch_wf (h : s.memWf) : Mem.wf s.scratch := by
  obtain ⟨_, _, hc, _, _⟩ := memWf_iff.mp h
  exact hc

theorem l2Data_wf (h : s.memWf) : Mem.wf s.l2Data := by
  obtain ⟨_, _, _, _, h2⟩ := memWf_iff.mp h
  exact h2

theorem lclWrite_wf {space : LclSpace} {v : Nat} (h : s.memWf) : (lclWrite s i space va n v).memWf := by
  unfold lclWrite
  split
  · exact wf_scratch (fun _ => Mem.wf_writeLE _ _ _ (scratch_wf h)) (touchScratch_wf h)
  · have h1 : State.memWf { s with stash := Mem.writeLE s.stash ((s.sl i).crew * 2 ^ 19 + va) n v } := wf_stash (Mem.wf_writeLE _ _ _) h
    exact ite_wf (setTag_wf h1) h1

theorem prefOne_wf {l2 : Bool} (h : s.memWf) : (prefOne l2 ch s i va).memWf := by
  unfold prefOne
  split
  · exact h
  · exact ite_wf (addReqs_wf h) (ite_wf h (ite_wf (cacheRead_wf (injectRead_wf h)) (atHome_wf (inject_wf h))))

theorem cleanLine_wf (h : s.memWf) : (cleanLine s cl crew ctx line cls).1.memWf := by
  unfold cleanLine
  dsimp only
  have haway : ∀ (u : State) (at_ : Nat) (bytes : List (Nat × Byte)) (w : Option Nat), u.memWf →
      (sendHome { u.fresh with writeBacks := Tbl.put u.writeBacks u.nextId ⟨ctx, line, bytes, w⟩ } at_ cls (256 * line)
        (1 + bytes.length / 64)).memWf := fun u _ _ _ hu => sendHome_wf (fresh_wf hu)
  have hl2 : ∀ x : L2Line, State.memWf _ := fun x => wf_l2 (fun _ => Mem.wf_clear (l2Addr cl ctx (256 * line)) 256 (l2Data_wf h))
    (haway (touchBank s (cl / 64) (l2Bank cl (256 * line))) cl
      (([0, 1].filter fun k => x.dirty.getLsbD k).flatMap fun k => sectorBytes (l2Addr cl ctx) s.l2Data (256 * line + 128 * k)) none (touchBank_wf h))
  refine foldl_wf_fst (fun r k hr => foldl_wf_fst (fun r e hr => ?_) hr) ?_
  · split
    · exact setTag_wf (haway _ _ _ _ hr)
    · exact hr
  · split
    · split
      · exact h
      · exact hl2 _
    · exact h

theorem invalLine_wf (h : s.memWf) : (invalLine s cl crew ctx line).memWf :=
  foldl_wf (s := { s with l2 := Tbl.del s.l2 (l2Key cl ctx line) }) (fun _ _ hu => foldl_wf (fun _ _ hv => setTag_wf hv) hu) h

/-! ### Parts of accesses performed -/

theorem recordPoison_wf (h : s.memWf) : (recordPoison s i k a q).memWf := deferAccess_wf h

theorem finishLoad_wf {s1 : State} (h : s1.memWf) : (finishLoad s s1 i k p a q).memWf :=
  ite_wf (recordPoison_wf (finishPiece_wf h)) (finishPiece_wf h)

theorem performLoad_wf (h : s.memWf) : (performLoad s i k p a q).memWf := finishLoad_wf (cacheRead_wf h)

theorem fillTile_wf (h : s.memWf) : (fillTile s crew ctx va).memWf :=
  foldl_wf (fun _ _ hu => ite_wf hu (setTag_wf (wf_stash (Mem.wf_writeN _ _) hu))) h

theorem readMapped_wf (h : s.memWf) : (readMapped s crew cl ctx va ch).memWf :=
  ite_wf h (ite_wf (cacheRead_wf h) (fillTile_wf (cacheRead_wf h)))

theorem storeMapped_wf {bytes : List Byte} (h : s.memWf) : (storeMapped s crew cl ctx va bytes ch).memWf :=
  ite_wf (writeLoc_wf h) (foldl_wf (fun _ _ hu => setTag_wf (wf_stash (Mem.wf_writeN _ _) hu))
    (fillTile_wf (fillTile_wf (atHome_wf (recallLine_wf h)))))

theorem performMapLoad_wf (h : s.memWf) : (performMapLoad s i k p a q).memWf := finishLoad_wf (readMapped_wf h)

theorem performMapStore_wf (h : s.memWf) : (performMapStore s i k p a q).memWf := finishPiece_wf (storeMapped_wf h)

theorem performStore_wf (h : s.memWf) : (performStore s i k p a q).memWf := finishPiece_wf (writeLoc_wf h)

theorem performAtom_wf (h : s.memWf) : (performAtom s i k p a q).memWf := by
  unfold performAtom
  dsimp only
  exact ite_wf (recordPoison_wf (finishPiece_wf (ite_wf (writeLoc_wf h) (obtainLoc_wf h))))
    (finishPiece_wf (ite_wf (writeLoc_wf h) (obtainLoc_wf h)))

theorem reduceAt_wf {f : Nat → Nat} (h : s.memWf) : (reduceAt s ctx va n f).memWf := by
  unfold reduceAt
  dsimp only
  have h1 : ∀ (b1 b2 b3 : Prop) [Decidable b1] [Decidable b2] [Decidable b3],
      (if b1 then s else if b2 then recallLine (homeAccess s ctx (va / 256)) ctx (va / 256) none none
        else if b3 then atHome s ctx (va / 256) else homeAccess s ctx (va / 256)).memWf :=
    fun _ _ _ => ite_wf h (ite_wf (recallLine_wf (homeAccess_wf h)) (ite_wf (atHome_wf h) (homeAccess_wf h)))
  exact ite_wf (acceptBytes_wf (h1 _ _ _)) (writeLoc_wf (h1 _ _ _))

theorem performNmred_wf (h : s.memWf) : (performNmred s i k p a q).memWf := finishPiece_wf (reduceAt_wf h)

theorem performPiece_wf (h : s.memWf) : (performPiece s i k p).memWf := by
  unfold performPiece
  split
  · exact h
  · split
    · exact h
    · refine ite_wf h ?_
      split
      · exact performLoad_wf h
      · exact performMapLoad_wf h
      · exact performStore_wf h
      · exact performMapStore_wf h
      · exact performNmred_wf h
      · exact h
      · exact h
      · exact performAtom_wf h

theorem pieceEvent_wf {ok : Acc → Bool} (h : s.memWf) : (pieceEvent ok s i k p).memWf := by
  unfold pieceEvent
  split
  · exact h
  · split
    · exact h
    · exact ite_wf (parkVacant_wf h) (ite_wf (foldl_wf (fun _ _ hu => performPiece_wf hu) h) h)

/-! ### Remote stash -/

theorem remoteFail_wf {code addr : Nat} {frec : DWord} (h : s.memWf) : (remoteFail s i k p a q code addr frec).memWf :=
  deferAccess_wf (finishPiece_wf h)

theorem remoteRead_wf (h : s.memWf) : (remoteRead s i k p a q crew va).memWf :=
  ite_wf (deferAccess_wf (finishPiece_wf (readMapped_wf h))) (finishPiece_wf (readMapped_wf h))

theorem remoteWaits_wf (h : s.memWf) (hs : remoteWaits s i k p a crew va = some t) : t.memWf := by
  unfold remoteWaits at hs
  dsimp only at hs
  split at hs
  · cases hs
  · split at hs
    · injection hs with hs
      exact hs ▸ h
    · injection hs with hs
      exact hs ▸ addReqs_wf h

theorem remoteAnswer_wf {ans : Answer} (h : s.memWf) : (remoteAnswer s i k p ans).memWf := by
  unfold remoteAnswer
  split
  · exact h
  · split
    · exact h
    · split
      · exact ite_wf h (remoteRead_wf h)
      · exact ite_wf h (remoteFail_wf h)
      · exact h

theorem remoteMapped_wf (h : s.memWf) : (remoteMapped s i k p a q crew va).memWf := by
  unfold remoteMapped
  dsimp only
  refine ite_wf (parkVacant_wf h) (ite_wf h ?_)
  have h1 : (setAD (tlbFill (if walkTable s a.ctx va == .hole then s.log "hole" [a.ctx, va] else s) a.ctx va) a.ctx va
      (ownerAnswer s a.ctx va (if a.isLoad then .read else .write) (s.crewOf i).gen)).memWf := setAD_wf (tlbFill_wf (ite_wf (log_wf h) h))
  generalize setAD _ a.ctx va _ = s1 at h1
  split
  · split
    · cases hr : remoteWaits s1 i k p a crew va with
      | none => exact remoteRead_wf h1
      | some u => exact remoteWaits_wf h1 hr
    · exact finishPiece_wf (storeMapped_wf h1)
  · exact ite_wf (updSl_wf (finishPiece_wf h1)) (remoteFail_wf h1)
  · exact remoteFail_wf h1
  · exact remoteFail_wf h1

theorem remoteAccess_wf (h : s.memWf) : (remoteAccess s i k p).memWf := by
  unfold remoteAccess
  split
  · exact h
  · split
    · exact h
    · refine ite_wf h ?_
      dsimp only
      split
      · exact remoteFail_wf h
      · refine ite_wf (remoteFail_wf h) (ite_wf (ite_wf h (remoteFail_wf h)) ?_)
        split
        · exact remoteMapped_wf h
        · exact ite_wf (finishPiece_wf h) (finishPiece_wf (wf_stash (Mem.wf_writeLE _ _ _) h))

theorem resultWriteback_wf (h : s.memWf) : (resultWriteback s i k).memWf := by
  unfold resultWriteback
  split
  · exact h
  · exact ite_wf (updCore_wf (updSl_wf h)) (updSl_wf h)

/-! The tables apart from the byte memories. -/

theorem setLines_wf {x : Tbl L2Line} (h : s.memWf) : State.memWf { s with l2 := x } := h

theorem setClrReqs_wf {x : Tbl ClrReq} (h : s.memWf) : State.memWf { s with clrReqs := x } := h

theorem setDowngrades_wf {x : Tbl Downgrade} (h : s.memWf) : State.memWf { s with downgrades := x } := h

theorem setDowngradesSlices_wf {x : Tbl Downgrade} {y : Tbl Slice} (h : s.memWf) : State.memWf { s with downgrades := x, slices := y } := h

theorem setMigs_wf {x : Tbl Mig} (h : s.memWf) : State.memWf { s with migs := x } := h

theorem tlbDrop_wf {size : Nat} (h : s.memWf) : (tlbDrop s ctx va size).memWf := updTower_wf h

theorem recallCopy_wf {stash : Bool} {holder : Nat} (h : s.memWf) : (recallCopy s stash holder ctx line).memWf := by
  have h0 : ∀ cl, (sendCluster s cl (256 * line)).memWf := fun cl => sendCluster_wf h
  unfold recallCopy
  cases stash with
  | true =>
    simp only [if_true]
    exact foldl_wf (fun _ _ hu => foldl_wf (fun _ _ hv => setTag_wf hv) hu) (ite_wf (sendHome_wf (cleanLine_wf (h0 _))) (cleanLine_wf (h0 _)))
  | false =>
    simp only [Bool.false_eq_true, if_false]
    exact setLines_wf (touchBank_wf (ite_wf (sendHome_wf (cleanLine_wf (h0 _))) (cleanLine_wf (h0 _))))

/-! ### L2 ways and context registers -/

theorem dropScratch_wf {top : Nat} (h : s.memWf) : (dropScratch s cl top).memWf := wf_scratch (Mem.wf_filter _) h

theorem setWays_wf {code sl : Nat} (h : s.memWf) : (setWays s cl code sl).memWf := ite_wf (dropScratch_wf h) h

theorem ctxRegWrite_wf {ix : Nat} {v : DWord} (h : s.memWf) : (ctxRegWrite ix v s i).memWf := updSl_wf (updCtx_wf h)

theorem ctxRegDone_wf {ix : Nat} (h : s.memWf) : (ctxRegDone s ctx ix).memWf := updCtx_wf h

theorem raiseWays_wf {code : Nat} (h : s.memWf) : (raiseWays s cl code).memWf := by
  unfold raiseWays
  dsimp only
  refine ite_wf (setWays_wf (updCluster_wf (dropScratch_wf ?_))) (updCluster_wf (dropScratch_wf ?_))
  all_goals exact foldl_wf (fun _ _ hu => dropL2_wf hu) h

theorem l2wpRaiseDone_wf (h : s.memWf) : (l2wpRaiseDone s cl).memWf := by
  unfold l2wpRaiseDone
  split
  · exact raiseWays_wf h
  · exact h

/-! ### Clearance -/

theorem clearanceRequest_wf (h : s.memWf) : (clearanceRequest s k).memWf := by
  unfold clearanceRequest
  split
  · exact h
  · refine ite_wf h (ite_wf (parkVacant_wf h) (ite_wf h ?_))
    split
    · exact setClrReqs_wf (setAD_wf h)
    · exact h

theorem pageWalkDone_wf {tower : Nat} (h : s.memWf) : (pageWalkDone s tower ctx va).memWf :=
  ite_wf h (tlbFill_wf (foldl_wf (fun _ _ hu => setClrReqs_wf (setAD_wf hu)) (ite_wf (log_wf h) h)))

theorem clearanceAnswer_wf (h : s.memWf) : (clearanceAnswer s k).memWf := by
  unfold clearanceAnswer
  split
  · exact h
  · split
    · exact h
    · rename_i q _ _ a _
      have h2 : (match a with
          | .grant page size r false => ({ s with clrReqs := Tbl.del s.clrReqs k } : State).updCore (askerCore s q.who) fun c => clrPut c ⟨q.ctx, page, size, r⟩
          | _ => { s with clrReqs := Tbl.del s.clrReqs k }).memWf := by
        split
        · exact h
        · exact h
      dsimp only
      split
      · exact foldl_wf (fun _ _ hu => updSl_wf hu) h2
      · exact foldl_wf (fun _ _ hu => updSl_wf hu) h2
      · exact h2
      · exact h2
      · exact updCrew_wf h2

theorem residencyRequest_wf (h : s.memWf) : (residencyRequest s k).memWf := by
  unfold residencyRequest
  split
  · exact h
  · exact ite_wf (parkVacant_wf h) (ite_wf h h)

/-! ### Downgrades and migrations -/

theorem shootdownMessage_wf (h : s.memWf) : (shootdownMessage s dg core).memWf := by
  unfold shootdownMessage
  split
  · exact h
  · exact ite_wf h (recallPackets_wf h)

theorem cleanCopies_wf (h : s.memWf) : (cleanCopies s ctx line).memWf := by
  unfold cleanCopies
  dsimp only
  refine foldl_wf (fun _ _ hu => arriveWriteBack_wf hu) (foldl_wf_fst (fun _ _ hr => ?_) (foldl_wf_fst (fun _ _ hr => ?_) h))
  · exact cleanLine_wf (sendCluster_wf hr)
  · exact cleanLine_wf (sendCluster_wf hr)

theorem recallPhase_wf {d : Downgrade} (h : s.memWf) : (recallPhase s d).memWf :=
  ite_wf h (foldl_wf (fun _ _ hu => ite_wf (cleanCopies_wf hu) (evictLlc_wf hu)) h)

theorem shootdownAnswer_wf (h : s.memWf) : (shootdownAnswer s dg core).memWf := by
  unfold shootdownAnswer
  split
  · exact h
  · exact ite_wf h (ite_wf (setDowngrades_wf (recallPhase_wf h)) h)

theorem downgradeClose_wf (h : s.memWf) : (downgradeClose s dg).memWf := by
  unfold downgradeClose
  split
  · exact h
  · dsimp only
    refine ite_wf h ?_
    split
    · exact setDowngradesSlices_wf (tlbDrop_wf (updLeaves_wf h))
    · exact h
    · exact h

theorem startDowngrade_wf {d : Downgrade} (h : s.memWf) : (startDowngrade s d).memWf := by
  unfold startDowngrade
  dsimp only
  have h1 : (if d.leaf.isSome then tlbDrop s d.ctx d.va d.size
    else { s with towers := s.towers.map fun t => (t.1, { t.2 with tlb := t.2.tlb.filter fun e => e.ctx != d.ctx, walks := [] }) }).memWf :=
    ite_wf (tlbDrop_wf h) h
  exact setDowngrades_wf (fresh_wf (ite_wf (recallPhase_wf h1) h1))

theorem popPool_wf {tw table size : Nat} (h : s.memWf) : (popPool s ctx tw table off size).2.memWf := by
  unfold popPool
  dsimp only
  split
  · exact h
  · split
    · exact log_wf h
    · split
      · exact h
      · split
        · exact physPut_wf h
        · exact log_wf (physPut_wf h)

theorem pushPool_wf {tw table frame : Nat} (h : s.memWf) : (pushPool s ctx tw table off frame).memWf :=
  ite_wf (log_wf h) (ite_wf (log_wf h) (physPut_wf (physPut_wf h)))

theorem startMigration_wf {page size : Nat} {pte : DWord} (h : s.memWf) : (startMigration s ctx page size pte).2.memWf := by
  unfold startMigration
  dsimp only
  have h1 : (popPool s ctx (vaTower page) (s.ctx ctx).migPool (80 * (vaTower page % 8) + 8 * sizeIx size) size).2.memWf := popPool_wf h
  generalize popPool s ctx (vaTower page) _ _ size = r at h1
  obtain ⟨f, s1⟩ := r
  cases f with
  | none => exact h1
  | some _ => exact h1

theorem migrationStart_wf (h : s.memWf) : (migrationStart s ctx va).memWf := by
  unfold migrationStart
  split
  · exact ite_wf (ite_wf h (startMigration_wf h)) h
  · exact h

theorem migrationMarkDrained_wf (h : s.memWf) : (migrationMarkDrained s n).memWf := by
  unfold migrationMarkDrained
  split
  · exact h
  · exact ite_wf h (startDowngrade_wf (setMigs_wf (updLeaves_wf h)))

theorem migrationEnd_wf (h : s.memWf) : (migrationEnd s n).memWf := by
  unfold migrationEnd
  split
  · exact h
  · exact ite_wf (pushPool_wf h) h

theorem migrationLineCopy_wf (h : s.memWf) : (migrationLineCopy s n).memWf := by
  unfold migrationLineCopy
  split
  · exact h
  · refine ite_wf h ?_
    split
    · exact migrationEnd_wf (migPull_wf h)
    · exact migrationEnd_wf h

theorem migrationPullDone_wf (h : s.memWf) : (migrationPullDone s n line).memWf := by
  unfold migrationPullDone
  split
  · exact ite_wf (migrationEnd_wf (migPull_wf h)) h
  · exact h

/-! ### Engines -/

theorem partyUse_wf {w : Party} {r : Right} {rs : List (Nat × Nat)} (h : s.memWf) : (partyUse s w r rs).memWf := touchClr_wf h

theorem engRead_wf (h : s.memWf) : (engRead s core cls ctx ch va n).memWf :=
  foldl_wf (fun _ _ hu => ite_wf (cacheRead_wf (injectRead_wf hu)) hu) h

theorem engReadAs_wf {as : List Answer} (h : s.memWf) : (engReadAs s core cls ctx ch as va n).memWf :=
  foldl_wf (fun _ _ hu => ite_wf (engRead_wf hu) hu) h

theorem engAsk_wf (h : s.memWf) : (engAsk s core cls ctx ch va n).memWf := foldl_wf (fun _ _ hu => injectStore_wf hu) h

theorem engWrite_wf {bytes : List Byte} (h : s.memWf) : (engWrite s core ctx ch va bytes).memWf := foldl_wf (fun _ _ hu => writeLoc_wf hu) h

theorem engPut_wf {bytes : List Byte} (h : s.memWf) : (engPut s core cls ctx ch va bytes).memWf :=
  foldl_wf (fun _ _ hu => writeLoc_wf (injectStore_wf hu)) h

theorem homePut_wf {bytes : List Byte} (h : s.memWf) : (homePut s ctx va bytes).memWf := foldl_wf (fun _ _ hu => writeLoc_wf hu) h

theorem lclTouch_wf (h : s.memWf) : (lclTouch s crew sp off n).memWf := ite_wf (touchScratch_wf h) h

theorem lclPut_wf {bytes : List Byte} (h : s.memWf) : (lclPut s crew sp off bytes).memWf :=
  ite_wf (wf_stash (Mem.wf_writeN _ _) h) (wf_scratch (fun _ => Mem.wf_writeN _ _ (scratch_wf h)) (touchScratch_wf h))

theorem setStag_wf {x : STag} (h : s.memWf) : (setStag s sp n x).memWf := h

theorem setOwner_wf {o : Owner} (h : s.memWf) : (setOwner s crew sp n o).memWf := ite_wf (setTag_wf h) (setStag_wf h)

theorem updRing_wf {f : Ring → Ring} (h : s.memWf) : (updRing s crew n f).memWf := updCrew_wf h

theorem kInc_wf (h : s.memWf) : (kInc s crew n).memWf := updCrew_wf h

end

end Sys2Proof.Machine
end

section
/-! PROOF. The canonical form of the byte memories through the sampler, Trestle, the Deck, Girder and Keystone. -/

namespace Sys2Proof.Machine

section

variable {s pre : State} {i k n va ctx line cl cls core crew ch dg pkg sp off ent code : Nat}

/-! ### The sampler -/

theorem texPoison_wf {once : Bool} {reads : List LaneAcc} (h : s.memWf) : (texPoison s i once reads).memWf := by
  unfold texPoison
  dsimp only
  split
  · exact h
  · exact deferTrap_wf h

theorem texTouch_wf {reads : List LaneAcc} (h : s.memWf) : (texTouch pre s i ch reads).memWf :=
  touchClr_wf (foldl_wf (fun _ _ hu => ite_wf hu (engRead_wf hu)) h)

theorem texAct_wf {once : Bool} {d : Opnd} {fixed texels : List LaneAcc} {outs : List (Nat × List Nat × Flags)} (h : s.memWf) :
    (texAct pre s i once ch d fixed texels outs).memWf := addLands_wf (texPoison_wf (texTouch_wf (texTouch_wf h)))

/-! ### Trestle -/

theorem updChain_wf {f : Chain → Chain} (h : s.memWf) : (updChain s crew ch f).memWf := updCrew_wf h

theorem dropChainReqs_wf (h : s.memWf) : (dropChainReqs s crew ch).memWf := strikeFills_wf h

theorem chainStop_wf {ix sub cause addr : Nat} {frec : DWord} (h : s.memWf) : (chainStop s crew ch ix sub cause addr frec).memWf := by
  unfold chainStop
  dsimp only
  refine ite_wf h (ite_wf (deferTrap_wf (updChain_wf (dropChainReqs_wf h))) ?_)
  split
  · exact deferTrap_wf (updChain_wf (dropChainReqs_wf h))
  · exact log_wf (updChain_wf (dropChainReqs_wf h))

theorem chainFault_wf {sub cause addr : Nat} {frec : DWord} (h : s.memWf) : (chainFault s crew ch sub cause addr frec).memWf := chainStop_wf h

theorem chainNext_wf {nxt : Nat} (h : s.memWf) : (chainNext s crew ch nxt).memWf := updChain_wf h

theorem rangesUse_wf {rds wrs : List (Nat × Nat × Nat)} (h : s.memWf) : (rangesUse s crew ch rds wrs).memWf := partyUse_wf (partyUse_wf h)

theorem fetchData_wf {w : Nat} (h : s.memWf) : (fetchData s crew ch w).memWf := by
  unfold fetchData
  dsimp only
  refine ite_wf (chainFault_wf h) (ite_wf h ?_)
  split
  · exact chainFault_wf h
  · refine ite_wf h ?_
    split
    · exact chainFault_wf h
    · split
      · exact addReqs_wf h
      · exact chainFault_wf h
      · exact updChain_wf (rangesUse_wf (fresh_wf h))

theorem entryFetch_wf (h : s.memWf) : (entryFetch s crew ch).memWf := by
  unfold entryFetch
  dsimp only
  refine ite_wf h (ite_wf (ite_wf (chainFault_wf h) h) (ite_wf (chainFault_wf h) (ite_wf (chainFault_wf h) (ite_wf h ?_))))
  split
  · exact chainFault_wf h
  · exact ite_wf (ite_wf (updChain_wf h) h) (fetchData_wf h)

theorem flightStop_wf {ix sub cause addr : Nat} (h : s.memWf) : (flightStop s crew ch ent ix sub cause addr).memWf := chainStop_wf (updChain_wf h)

theorem flightTook_wf {less : Nat} (h : s.memWf) : (flightTook s crew ch ent k less).memWf := updChain_wf h

theorem partRun_wf {w : Nat} {as : List Answer} {q : Nat × Nat × Nat} (h : s.memWf) : (partRun s crew w as q).memWf := by
  unfold partRun
  dsimp only
  refine ite_wf (reduceAt_wf (inject_wf ?_)) (ite_wf (engPut_wf ?_) (lclPut_wf ?_))
  all_goals exact ite_wf h (ite_wf (engReadAs_wf h) (lclTouch_wf h))

theorem pieceRun_wf {f : Flight} {ps : List (Nat × Nat × Nat)} (h : s.memWf) : (pieceRun s crew ch ent k f ps).memWf := by
  unfold pieceRun
  dsimp only
  split
  · exact flightStop_wf h
  · exact flightTook_wf (foldl_wf (fun _ _ hu => partRun_wf hu) h)

theorem pieceOf_wf {codes : List Nat} (h : s.memWf) : (pieceOf codes s crew ch ent k).memWf := by
  unfold pieceOf
  split
  · exact h
  · split
    · exact h
    · exact ite_wf (pieceRun_wf h) h

theorem updGroup_wf {f : Group → Group} (h : s.memWf) : (updGroup s cl n f).memWf := updCluster_wf h

theorem setMcReqs_wf {x : Tbl McReq} (h : s.memWf) : State.memWf { s with mcReqs := x } := h

theorem setMcSets_wf {x : Tbl McSet} (h : s.memWf) : State.memWf { s with mcSets := x } := h

theorem setColls_wf {x : Tbl Collective} (h : s.memWf) : State.memWf { s with colls := x } := h

theorem mcastSend_wf (h : s.memWf) : (mcastSend s crew ch ent).memWf := by
  unfold mcastSend
  split
  · exact h
  · split
    · exact h
    · exact ite_wf h (flightTook_wf (setMcReqs_wf (fresh_wf h)))

theorem entryComplete_wf (h : s.memWf) : (entryComplete s crew ch ent).memWf := by
  unfold entryComplete
  split
  · exact h
  · exact ite_wf (ite_wf (kInc_wf (updChain_wf h)) (updChain_wf h)) h

/-- A control entry keeps the form where its effect does. -/
theorem control_wf {f : Chain → Nat → State} (h : s.memWf) (hf : ∀ c w, (f c w).memWf) : (control s crew ch code f).memWf := by
  unfold control
  dsimp only
  split
  · exact ite_wf (hf _ _) h
  · exact h

theorem trestleFlip_wf (h : s.memWf) : (trestleFlip s crew ch).memWf := by
  refine control_wf h fun c w => ?_
  dsimp only
  refine ite_wf (chainFault_wf h) ?_
  split
  · exact chainFault_wf h
  · exact chainNext_wf (foldl_wf (fun _ _ hu => setOwner_wf hu) h)

theorem trestlePost_wf (h : s.memWf) : (trestlePost s crew ch).memWf :=
  control_wf h fun _ _ => ite_wf (chainFault_wf h) (chainNext_wf (updRing_wf h))

theorem trestleWait_wf {kind : Nat} (h : s.memWf) : (trestleWait kind s crew ch).memWf :=
  control_wf h fun _ _ => ite_wf h (ite_wf (chainFault_wf h) (ite_wf (chainNext_wf h) (updChain_wf h)))

theorem waitSatisfied_wf (h : s.memWf) : (waitSatisfied s crew ch).memWf := by
  unfold waitSatisfied
  dsimp only
  split
  · exact ite_wf (chainNext_wf h) h
  · exact h

theorem trestleLoop_wf (h : s.memWf) : (trestleLoop s crew ch).memWf :=
  control_wf h fun _ _ => ite_wf (chainFault_wf h) (ite_wf (chainNext_wf h) (chainNext_wf (updChain_wf h)))

theorem trestleIfWord_wf (h : s.memWf) : (trestleIfWord s crew ch).memWf := by
  refine control_wf h fun c w => ?_
  dsimp only
  refine ite_wf h (ite_wf (chainFault_wf h) (ite_wf (chainFault_wf h) ?_))
  split
  · exact addReqs_wf h
  · exact chainFault_wf h
  · split
    · exact chainFault_wf h
    · exact chainNext_wf (engReadAs_wf (rangesUse_wf h))

theorem trestleIfRing_wf (h : s.memWf) : (trestleIfRing s crew ch).memWf :=
  control_wf h fun _ _ => ite_wf h (ite_wf (chainFault_wf h) (ite_wf (chainFault_wf h) (chainNext_wf h)))

theorem trestleEnd_wf (h : s.memWf) : (trestleEnd s crew ch).memWf := control_wf h fun _ _ => updChain_wf (ite_wf (kInc_wf h) h)

theorem collectiveSend_wf (h : s.memWf) : (collectiveSend s crew ch).memWf := by
  refine control_wf h fun c w => ?_
  dsimp only
  refine ite_wf (chainFault_wf h) ?_
  split
  · exact chainFault_wf h
  · split
    · exact addReqs_wf h
    · exact chainFault_wf h
    · exact updChain_wf (foldl_wf (fun _ _ hu => inject_wf hu) (setColls_wf (fresh_wf (lclTouch_wf (rangesUse_wf h)))))

theorem collStop_wf {m : Collective} (h : s.memWf) : (collStop s k m).memWf := ite_wf (chainFault_wf h) h

theorem collArrive_wf (h : s.memWf) : (collArrive s k).memWf := by
  unfold collArrive
  split
  · exact h
  · refine ite_wf h ?_
    dsimp only
    split
    · exact collStop_wf h
    · refine ite_wf (foldl_wf (fun _ _ hu => collStop_wf hu) (ite_wf h h)) (ite_wf h (foldl_wf (fun u e hu => ?_) (homePut_wf h)))
      exact ite_wf (chainNext_wf (ite_wf (kInc_wf hu) hu)) hu

/-- A unit that looks at memory keeps the form where each look does. -/
theorem unitLooks_wf {h : Hdr} {before after : State → Nat → Pre} {look : State → Nat → State} (hw : s.memWf)
    (hl : ∀ u j, u.memWf → (look u j).memWf) : (unitLooks h before after look s).memWf := ite_wf (foldl_wf hl hw) hw

theorem sendQuery_wf {d : Opnd} (h : s.memWf) : (sendQuery s i ch d).memWf := ite_wf h (updSl_wf (fresh_wf h))

theorem killSettle_wf (h : s.memWf) : (killSettle s crew ch).memWf := updChain_wf h

theorem chainKill_wf (h : s.memWf) : (chainKill s crew ch).memWf :=
  ite_wf h (killSettle_wf (updChain_wf (dropChainReqs_wf (foldl_wf (fun _ _ hu => entryComplete_wf hu) h))))

theorem mcDeliver_wf {r : McReq} (h : s.memWf) : (mcDeliver s r).memWf := by
  unfold mcDeliver
  dsimp only
  refine ite_wf h (ite_wf (updCore_wf h) ?_)
  split
  · exact flightStop_wf h
  · exact killSettle_wf (updChain_wf (lclPut_wf h))

theorem mcArrive_wf (h : s.memWf) : (mcArrive s k).memWf := by
  unfold mcArrive
  split
  · exact h
  · dsimp only
    refine ite_wf (ite_wf (mcDeliver_wf (ite_wf (engRead_wf h) h)) ?_) ?_
    · split
      · exact flightStop_wf h
      · exact h
    · split
      · exact setMcSets_wf (updGroup_wf h)
      · exact setMcSets_wf (fresh_wf (updGroup_wf h))

theorem mcLeave_wf (h : s.memWf) : (mcLeave s k).memWf := by
  unfold mcLeave
  split
  · exact h
  · exact ite_wf h (updGroup_wf (foldl_wf (fun _ _ hu => mcDeliver_wf hu) (ite_wf (engRead_wf h) h)))

theorem groupDrained_wf {g : Nat} (h : s.memWf) : (groupDrained s cl g).memWf := ite_wf (updGroup_wf h) h

/-! ### The Deck -/

theorem dkLand_wf {e : DkEntry} {ls : List (LandDst × DWord)} (h : s.memWf) : (dkLand s e ls).memWf := ite_wf h (updSl_wf h)

theorem setDeck_wf {d : Deck} (h : s.memWf) : (setDeck s crew d).memWf := updCrew_wf h

theorem ite_wf_fst {α : Type} {a b : State × α} {c : Prop} [Decidable c] (ha : a.1.memWf) (hb : b.1.memWf) : (if c then a else b).1.memWf := by
  split
  · exact ha
  · exact hb

theorem dkExport_wf {e : DkEntry} {d : Opnd} {a : CellOp} (h : s.memWf) : (dkExport s crew e d a).1.memWf := by
  unfold dkExport
  dsimp only
  split
  · have h1 : (engRead s (s.crew crew).core (crewClass s crew) (s.crew crew).ctx 0 (e.sc.getD 3 0).toNat 8).memWf := engRead_wf h
    generalize engRead s _ _ _ 0 _ 8 = s0 at h1
    exact ite_wf_fst (dkLand_wf (ite_wf (deferTrap_wf h1) h1)) (foldl_wf (fun _ _ hu => engAsk_wf hu) (ite_wf (deferTrap_wf h1) h1))
  · exact dkLand_wf (engPut_wf h)
  · exact engWrite_wf h

theorem dkRun_wf {e : DkEntry} (h : s.memWf) : (dkRun s crew e).memWf := by
  unfold dkRun
  dsimp only
  split
  iterate 11 exact setDeck_wf h
  · exact wf_stash (Mem.wf_foldl fun _ _ => Mem.wf_writeLE _ _ _) h
  · exact dkLand_wf h
  · exact dkLand_wf (setDeck_wf h)
  · exact setDeck_wf h
  · exact setDeck_wf h
  · exact dkLand_wf (setDeck_wf h)
  · exact h

theorem deckStart_wf (h : s.memWf) : (deckStart s crew).memWf := by
  unfold deckStart
  dsimp only
  split
  · exact h
  · refine ite_wf h (updCrew_wf ?_)
    split
    · exact dkExport_wf h
    · exact dkRun_wf h

theorem drainDeck_wf (h : s.memWf) : (drainDeck s crew).memWf := foldl_wf (fun _ _ hu => deckStart_wf hu) h

theorem dkQueue_wf {op : Instr} {sc : List DWord} {result : Bool} {depth : Nat → Nat} (h : s.memWf) :
    (dkQueue pre s i op sc result depth).memWf := ite_wf (updSl_wf (updCrew_wf (fresh_wf h))) (updCrew_wf (fresh_wf h))

theorem dktexRun_wf {d a desc pv : Nat} {b : CellOp} (h : s.memWf) : (dktexRun pre s i d a b desc pv).memWf := by
  unfold dktexRun
  dsimp only
  split
  · exact texPoison_wf (setDeck_wf (texTouch_wf h))
  · exact h

/-! ### Girder -/

theorem mloopQueue_wf {q : LoopIn} (h : s.memWf) : (mloopQueue pre s i q).memWf := updCore_wf (partyUse_wf (fresh_wf h))

theorem loopRequests_wf {l : GLoop} (h : s.memWf) : (loopRequests s core l).memWf := foldl_wf (fun _ _ hu => setMcReqs_wf (fresh_wf hu)) h

theorem updLoop_wf {id : Nat} {f : GLoop → GLoop} (h : s.memWf) : (updLoop s core id f).memWf := updCore_wf h

theorem girderStart_wf (h : s.memWf) : (girderStart s core).memWf := by
  unfold girderStart
  split
  · exact h
  · exact ite_wf (updLoop_wf (loopRequests_wf h)) (ite_wf h (updLoop_wf h))

theorem mergeLoop_wf {l : GLoop} {p : List Nat} (h : s.memWf) : (mergeLoop s l p).1.memWf := by
  unfold mergeLoop
  dsimp only
  split
  · exact setStag_wf (wf_scratch (fun _ => Mem.wf_foldl (fun _ _ => Mem.wf_writeLE _ _ _) (scratch_wf h)) (lclTouch_wf h))
  · exact wf_scratch (fun _ => Mem.wf_foldl (fun _ _ => Mem.wf_writeLE _ _ _) (scratch_wf h)) (lclTouch_wf h)

theorem mardStore_wf {b : Nat} {bytes : List Byte} (h : s.memWf) : (mardStore s i b bytes).memWf := by
  refine foldl_wf (fun u k hu => ?_) h
  dsimp only
  split
  · exact storeMapped_wf hu
  · exact lclPut_wf hu

theorem mardRun_wf {bf : Bool} {a b : Nat} (h : s.memWf) : (mardRun bf a b s i).memWf :=
  updSl_wf (foldl_wf (fun _ _ hu => setStag_wf hu) (mardStore_wf (lclTouch_wf h)))

theorem settleMards_wf (h : s.memWf) : (settleMards s).memWf := by
  refine foldl_wf (fun u j hu => ?_) h
  unfold settleMard
  split
  · exact ite_wf hu (updSl_wf (mardRun_wf hu))
  · exact hu

theorem accMerge_wf (h : s.memWf) : (accMerge s core).memWf := by
  unfold accMerge
  split
  · exact h
  · split
    · exact h
    · exact settleMards_wf (updLoop_wf (mergeLoop_wf h))

theorem mloopComplete_wf (h : s.memWf) : (mloopComplete s core).memWf := by
  unfold mloopComplete
  split
  · exact h
  · exact ite_wf h (updCrew_wf (updRing_wf (foldl_wf (fun _ _ hu => setOwner_wf hu) (updCore_wf h))))

/-! ### Stash mappings and owners -/

theorem townTile_wf {span : Bool} {own : Owner} (h : s.memWf) : (townTile s crew span own n).memWf :=
  ite_wf h (ite_wf (setStag_wf h) (setOwner_wf h))

theorem stmapDo_wf {hd : Hdr} {a b c : Opnd} (h : s.memWf) : (stmapDo hd a b c pre s i).memWf :=
  updCrew_wf (wf_stash (Mem.wf_clear _ _) (foldl_wf (fun _ _ hu => setTag_wf hu) h))

theorem unmap_wf {m : Mapping} (h : s.memWf) : (unmap s crew m).memWf :=
  updCrew_wf (foldl_wf (fun _ _ hu => setTag_wf (wf_stash (Mem.wf_foldl fun _ _ => Mem.wf_clear _ _) hu)) h)

theorem stunmapDo_wf {hd : Hdr} {a : Opnd} (h : s.memWf) : (stunmapDo hd a pre s i).memWf := by
  unfold stunmapDo
  dsimp only
  split
  · exact unmap_wf h
  · exact h

/-! ### Keystone -/

theorem setTable_wf {tower : Nat} {t : KTable} (h : s.memWf) : (setTable s tower ctx t).memWf := by
  refine wf_mem (fun hm => Mem.wf_writeLE _ _ _ ?_) h
  exact Mem.wf_foldl (fun _ _ => Mem.wf_writeLE _ _ _) (Mem.wf_foldl (fun _ _ => Mem.wf_writeLE _ _ _)
    (Mem.wf_foldl (fun _ _ => Mem.wf_writeLE _ _ _) (Mem.wf_foldl (fun _ _ => Mem.wf_clear _ _) hm)))

theorem ksTrap_wf {ids : List Nat} {sweeps : Word} {addr info : Nat} (h : s.memWf) : (ksTrap s ids i sweeps code addr info).memWf :=
  takeUnit_wf (ite_wf h h)

theorem ksExpand_wf {hd : Hdr} {d : Opnd} {m : List Byte} (h : s.memWf) : (ksExpand hd d s i va m).memWf := updSl_wf (partyUse_wf (fresh_wf h))

theorem ksTouch_wf {rs : List (Nat × Nat)} (h : s.memWf) : (ksTouch s i rs).memWf := by
  unfold ksTouch
  dsimp only
  refine ite_wf h ?_
  split
  · exact deferTrap_wf (foldl_wf (fun _ _ hu => readHome_wf hu) (partyUse_wf h))
  · exact foldl_wf (fun _ _ hu => readHome_wf hu) (partyUse_wf h)

theorem ksLog_wf {tower : Nat} {old new : KTable} (h : s.memWf) : (ksLog s tower ctx old new).memWf := foldl_wf (fun _ _ hu => log_wf hu) h

theorem ksDeliver_wf {t : KTable} {bad : Nat → Bool} {op : Instr} {hd : Hdr} {d : Opnd} {a : KAns} (h : s.memWf) :
    (ksDeliver t bad op hd d s i a).memWf := by
  unfold ksDeliver
  split
  · exact ksExpand_wf h
  · exact updSl_wf (ksTouch_wf h)

theorem ksStop_wf {tower : Nat} {t : KTable} {bad : Nat → Bool} {op : Instr} {ids ran : List Nat} {f : Nat × Nat × Nat × Nat} (h : s.memWf) :
    (ksStop s tower ctx t bad op ids ran f).memWf := ksTrap_wf (ksLog_wf (setTable_wf h))

theorem keystoneAnswer_wf (h : s.memWf) : (keystoneAnswer s i).memWf := by
  unfold keystoneAnswer
  split
  · dsimp only
    split
    · exact h
    · refine ite_wf h ?_
      split
      · exact ksStop_wf h
      · split
        · exact takeUnit_wf h
        · refine ite_wf (foldl_wf (fun _ _ hu => updSl_wf hu) h) ?_
          split
          · exact ksStop_wf h
          · exact foldl_wf (fun _ _ hu => ksDeliver_wf hu) (ksLog_wf (setTable_wf h))
  · exact h

end

end Sys2Proof.Machine
end

section
/-! PROOF. The canonical form of the byte memories through launches, spans and crews, procedural blocks, stops and the scheduler. -/

namespace Sys2Proof.Machine

theorem ite_wf_snd {α : Type} {a b : α × State} {c : Prop} [Decidable c] (ha : a.2.memWf) (hb : b.2.memWf) : (if c then a else b).2.memWf := by
  split
  · exact ha
  · exact hb

section

variable {s pre : State} {i k n va ctx cl cls core crew ch tw lid slot desc b bsz : Nat} {l : Launch} {r : PRange}

/-! The tables apart from the byte memories. -/

theorem setLaunches_wf {x : Tbl Launch} (h : s.memWf) : State.memWf { s with launches := x } := h

theorem setFillReqs_wf {x : Tbl FillReq} (h : s.memWf) : State.memWf { s with fillReqs := x } := h

theorem setSlices_wf {x : Tbl Slice} (h : s.memWf) : State.memWf { s with slices := x } := h

theorem setTowers_wf {x : Tbl Tower} (h : s.memWf) : State.memWf { s with towers := x } := h

theorem setSlicesCrews_wf {x : Tbl Slice} {y : Tbl Crew} (h : s.memWf) : State.memWf { s with slices := x, crews := y } := h

/-! ### Launches -/

theorem acceptLaunch_wf {v : Nat} (h : s.memWf) : (acceptLaunch s ctx tw va v).1.memWf :=
  putHome_wf (updTower_wf (setLaunches_wf (fresh_wf h)))

theorem poisonMet_wf (h : s.memWf) : (poisonMet pre s i va n).memWf := ite_wf (deferTrap_wf h) h

theorem sliceReads_wf {rs : List (Nat × Nat)} (h : s.memWf) : (sliceReads s i rs).memWf := foldl_wf (fun _ _ hu => engRead_wf hu) (partyUse_wf h)

theorem launchReads_wf {hd : Hdr} {a : Opnd} (h : s.memWf) : (launchReads hd a s).memWf := by
  unfold launchReads
  dsimp only
  exact unitLooks_wf (unitLooks_wf h fun _ _ hu => foldl_wf (fun _ _ hv => ite_wf (poisonMet_wf hv) hv) (sliceReads_wf hu))
    fun _ _ hu => foldl_wf (fun _ _ hv => ite_wf (poisonMet_wf hv) hv) (sliceReads_wf hu)

theorem lwaitReads_wf {hd : Hdr} {a : Opnd} (h : s.memWf) : (lwaitReads hd a s).memWf :=
  unitLooks_wf h fun _ _ hu => ite_wf (poisonMet_wf (sliceReads_wf hu)) (sliceReads_wf hu)

theorem waitmemReads_wf {hd : Hdr} {m : MemOp} {cond : WCond} {d : Opnd} (h : s.memWf) : (waitmemReads hd m cond n d s).memWf :=
  unitLooks_wf h fun _ _ hu => foldl_wf (fun _ _ hv => cacheRead_wf (injectRead_wf hv)) hu

theorem logHoles_wf {gs : List Nat} (h : s.memWf) : (logHoles s ctx gs).memWf := foldl_wf (fun _ _ hu => ite_wf (log_wf hu) hu) h

theorem osPresent_wf {oc : Nat} {gs : List Nat} (h : s.memWf) : (osPresent s oc ctx gs).memWf :=
  foldl_wf (fun _ _ hu => ite_wf hu (setFillReqs_wf (fresh_wf hu))) h

theorem osReads_wf {rs : List (Nat × Nat)} (h : s.memWf) : (osReads s ctx rs).memWf :=
  foldl_wf (fun _ _ hu => readHome_wf (foldl_wf (fun _ _ hv => ite_wf (setAD_wf (tlbFill_wf hv)) hv) hu)) h

theorem osLaunch_wf {oc : Nat} {cid : DWord} (h : s.memWf) : (osLaunch s oc va cid).2.memWf := by
  unfold osLaunch
  dsimp only
  refine ite_wf_snd h (ite_wf_snd h ?_)
  split
  · exact parkVacant_wf h
  · refine ite_wf_snd h ?_
    split
    · exact logHoles_wf h
    · have h1 : (osReads s cid.toNat [(va, 128)]).memWf := osReads_wf h
      generalize osReads s cid.toNat [(va, 128)] = s1 at h1
      refine ite_wf_snd (osPresent_wf h) (ite_wf_snd h1 ?_)
      generalize bytesNat (curBytes s cid.toNat va 128) = v
      split
      · exact parkVacant_wf h1
      · split
        · exact logHoles_wf h1
        · have h2 : (osReads s1 cid.toNat (predRanges v)).memWf := osReads_wf h1
          exact ite_wf_snd (osPresent_wf h1) (ite_wf_snd h2 (ite_wf_snd h2 (acceptLaunch_wf h2)))

/-! ### Spans and crews -/

theorem addSlice_wf {ix : Nat} {role : Role} (h : s.memWf) : (addSlice s crew ix role l).memWf := updSl_wf (updCrew_wf h)

theorem addCrew_wf {span ix : Nat} (h : s.memWf) : (addCrew s span lid l ix core).memWf := foldl_wf (fun _ _ hu => addSlice_wf hu) h

theorem placeSpan_wf {ix : Nat} {fit : List Nat × Nat} (h : s.memWf) : (placeSpan s lid l ix cl fit).memWf :=
  updLaunch_wf (foldl_wf (fun _ _ hu => addCrew_wf hu) h)

theorem tryPlace_wf {ix : Nat} {fit : List Nat × Nat} (h : s.memWf) : (tryPlace s lid l ix cl fit).1.memWf := by
  unfold tryPlace
  refine ite_wf_fst h ?_
  split
  · exact setWays_wf h
  · exact placeSpan_wf h

theorem setStarts_wf {now : Nat} (h : s.memWf) : (setStarts s k now).memWf := ite_wf (foldl_wf (fun _ _ hu => ite_wf hu (updCrew_wf hu)) h) h

theorem crewStart_wf (h : s.memWf) : (crewStart s k).memWf :=
  ite_wf h (foldl_wf (fun _ _ hu => updCore_wf hu) (updCore_wf (setSlices_wf (updCrew_wf (setStarts_wf h)))))

theorem drainAccs_wf (h : s.memWf) : (drainAccs s i).memWf :=
  foldl_wf (fun _ _ hu => foldl_wf (fun _ _ hv => ite_wf (remoteAccess_wf hv) (performPiece_wf hv)) hu) h

theorem unbind_wf (h : s.memWf) : (unbind s crew).memWf := updCore_wf h

theorem endSpan_wf (h : s.memWf) : (endSpan s k).memWf := by
  have h1 : State.memWf { s with spans := Tbl.del s.spans k, scratch := Mem.clear s.scratch (k * 2 ^ 23) (2 ^ 23) } := wf_scratch (Mem.wf_clear _ _) h
  unfold endSpan
  dsimp only
  generalize ({ s with spans := Tbl.del s.spans k, scratch := Mem.clear s.scratch (k * 2 ^ 23) (2 ^ 23) } : State) = s1 at h1
  exact updLaunch_wf (ite_wf (updCluster_wf h1) (ite_wf (updCluster_wf (updCluster_wf h1)) (ite_wf (updCluster_wf h1)
    (setWays_wf (updCluster_wf h1)))))

theorem endCrew_wf (h : s.memWf) : (endCrew s k).memWf := by
  unfold endCrew
  dsimp only
  refine ite_wf h ?_
  have h2 : (flushMapped ((s.crew k).slices.foldl drainAccs s) k fun _ => true).memWf := flushMapped_wf (foldl_wf (fun _ _ hu => drainAccs_wf hu) h)
  generalize flushMapped ((s.crew k).slices.foldl drainAccs s) k (fun _ => true) = s2 at h2
  have h4 : (unbind ((s.crew k).slices.foldl dropReqs ([0, 1, 2, 3].foldl (fun s ch => chainKill s k ch) s2)) k).memWf :=
    unbind_wf (foldl_wf (fun _ _ hu => dropReqs_wf hu) (foldl_wf (fun _ _ hu => chainKill_wf hu) h2))
  generalize unbind ((s.crew k).slices.foldl dropReqs _) k = s4 at h4
  exact ite_wf (endSpan_wf (updCrew_wf (wf_stash (Mem.wf_clear _ _) h4))) (updCrew_wf (wf_stash (Mem.wf_clear _ _) h4))

/-! ### Procedural blocks -/

theorem statPut_wf {off : Nat} {f : Nat → Nat} (h : s.memWf) : (statPut s ctx desc off f).memWf := by
  unfold statPut
  dsimp only
  split
  · exact ite_wf (putHome_wf h) (log_wf h)
  · exact log_wf h

theorem statAdd_wf {off : Nat} (h : s.memWf) : (statAdd s ctx desc off n).memWf := statPut_wf h

theorem updRange_wf {f : PRange → PRange} (h : s.memWf) : (updRange s ctx slot f).memWf := updCtx_wf h

theorem setBlock_wf {x : PBlock} (h : s.memWf) : (setBlock s ctx b x).memWf := updCtx_wf h

theorem freeFrame_wf {frame : Nat} (h : s.memWf) : (freeFrame s ctx slot r b frame).memWf := updRange_wf (pushPool_wf h)

theorem discardBlock_wf (h : s.memWf) : (discardBlock s ctx b bsz).memWf := foldl_wf (fun _ _ hu => ite_wf hu (discardLine_wf hu)) h

theorem giveAnswer_wf {w : Asker} {a : Answer} (h : s.memWf) : (giveAnswer s w a).memWf := by
  cases w with
  | slice i => exact updSl_wf h
  | fetch i => exact updSl_wf h
  | chain c ch => exact updChain_wf h
  | os oc => exact h
  | remote i k p => exact remoteAnswer_wf h

theorem answerFill_wf {a : Answer} (h : s.memWf) : (answerFill s k a).memWf := by
  unfold answerFill
  split
  · exact giveAnswer_wf h
  · exact h

theorem failWaiters_wf {ws : List Nat} {frec : DWord} (h : s.memWf) : (failWaiters s b bsz ws frec).memWf :=
  foldl_wf (fun _ _ hu => answerFill_wf hu) h

theorem serveLoads_wf (h : s.memWf) : (serveLoads s ctx b bsz).memWf :=
  foldl_wf (fun _ _ hu => foldl_wf (fun _ _ hv => ite_wf (foldl_wf (fun _ _ hw => ite_wf (performPiece_wf hw) hw) hv) hv) hu) h

theorem serveChain_wf (h : s.memWf) : (serveChain s crew ch b bsz).memWf := by
  refine foldl_wf (fun u f hu => ite_wf (foldl_wf (fun v _ hv => ?_) hu) hu) h
  split
  · split
    · exact ite_wf (mcastSend_wf hv) (pieceRun_wf hv)
    · exact hv
  · exact hv

theorem serveChains_wf (h : s.memWf) : (serveChains s ctx b bsz).memWf :=
  foldl_wf (fun _ _ hu => foldl_wf (fun _ _ hv => serveChain_wf hv) hu) h

theorem serveMcast_wf (h : s.memWf) : (serveMcast s ctx b bsz).memWf := h

theorem emptyBlock_wf (h : s.memWf) : (emptyBlock s ctx b bsz).memWf :=
  discardBlock_wf (updCtx_wf (setSlicesCrews_wf (serveMcast_wf (serveChains_wf (serveLoads_wf h)))))

theorem takeFrame_wf (h : s.memWf) : (takeFrame s ctx slot tw r).2.memWf := by
  unfold takeFrame
  dsimp only
  have h1 : (if r.frames < r.budget then popPool s ctx tw (s.ctx ctx).procPool (poolOff tw r.bsz) r.bsz else (none, s)).2.memWf :=
    ite_wf_snd (popPool_wf h) h
  generalize (if r.frames < r.budget then popPool s ctx tw _ _ r.bsz else (none, s)) = p at h1
  split
  · exact updRange_wf h1
  · split
    · exact statAdd_wf (emptyBlock_wf h1)
    · exact h1

theorem fillStart_wf {depth : Nat} {chain above waiters : List Nat} (h : s.memWf) :
    (fillStart s ctx slot b depth chain above r waiters).2.memWf := by
  unfold fillStart
  dsimp only
  refine ite_wf_snd h ?_
  have h1 : (takeFrame s ctx slot (vaTower b) r).2.memWf := takeFrame_wf h
  generalize takeFrame s ctx slot (vaTower b) r = p at h1
  obtain ⟨f, s1⟩ := p
  cases f with
  | none => exact h1
  | some f =>
    dsimp only
    split
    · exact statAdd_wf (setBlock_wf (freeFrame_wf (logHoles_wf h1)))
    · have h2 : (readHome s1 ctx r.genrec.toNat 128).memWf := readHome_wf h1
      generalize readHome s1 ctx r.genrec.toNat 128 = s2 at h2
      exact statAdd_wf (setBlock_wf (updTower_wf (setLaunches_wf (fresh_wf h2))))

theorem fillRetry_wf {q : FillReq} (h : s.memWf) : (fillRetry s k q ctx desc).memWf := setFillReqs_wf (statAdd_wf h)

theorem listWaiter_wf (h : s.memWf) : (listWaiter s k).memWf := h

theorem blockRead_wf {q : FillReq} (h : s.memWf) : (blockRead s k q slot r b).memWf := by
  unfold blockRead
  dsimp only
  split
  · exact answerFill_wf (setBlock_wf h)
  · exact answerFill_wf h
  · exact ite_wf (answerFill_wf h) (ite_wf (answerFill_wf h) (ite_wf (statAdd_wf (listWaiter_wf (setBlock_wf h))) (fillRetry_wf h)))
  · refine ite_wf (answerFill_wf h) ?_
    have h1 : (fillStart s q.ctx slot b q.depth q.chain q.above r [k]).2.memWf := fillStart_wf h
    generalize fillStart s q.ctx slot b q.depth q.chain q.above r [k] = p at h1
    obtain ⟨o, s1⟩ := p
    cases o with
    | started => exact listWaiter_wf h1
    | retry => exact fillRetry_wf h1
    | failed frec => exact answerFill_wf h1

theorem procBlockRead_wf (h : s.memWf) : (procBlockRead s k).memWf := by
  unfold procBlockRead
  split
  · exact h
  · refine ite_wf h (ite_wf (parkVacant_wf h) ?_)
    split
    · exact answerFill_wf h
    · exact blockRead_wf h

theorem procPref_wf (h : s.memWf) : (procPref s k).memWf := by
  unfold procPref
  split
  · exact h
  · refine ite_wf h (ite_wf (parkVacant_wf h) ?_)
    dsimp only
    split
    · exact h
    · exact ite_wf (fillStart_wf h) h

theorem procRetry_wf (h : s.memWf) : (procRetry s k).memWf := by
  unfold procRetry
  split
  · exact h
  · split
    · exact ite_wf (injectControl_wf h) h
    · exact h

theorem generatorLaunch_wf (h : s.memWf) : (generatorLaunch s tw).memWf := by
  unfold generatorLaunch
  dsimp only
  split
  · exact h
  · split
    · exact h
    · split
      · exact updTower_wf h
      · exact ite_wf (updTower_wf (tryPlace_wf h)) (tryPlace_wf h)

theorem closeWindow_wf (h : s.memWf) : (closeWindow s k).memWf := h

theorem unlistWaiter_wf (h : s.memWf) : (unlistWaiter s k).memWf := h

theorem fillDone_wf (h : s.memWf) : (fillDone s i).memWf := by
  unfold fillDone
  dsimp only
  refine ite_wf h ?_
  split
  · refine updSl_wf ?_
    split
    · exact foldl_wf (fun _ _ hu => unlistWaiter_wf hu) (closeWindow_wf (setBlock_wf h))
    · exact h
  · exact h

theorem failBlock_wf {g : GenInfo} {x : PBlock} {frec : DWord} (h : s.memWf) : (failBlock s ctx g x frec).memWf := by
  unfold failBlock
  split
  · exact h
  · exact failWaiters_wf (statAdd_wf (freeFrame_wf (discardBlock_wf (setBlock_wf h))))

theorem endGenerator_wf (h : s.memWf) : (endGenerator s k).memWf := endCrew_wf (closeWindow_wf (drainDeck_wf h))

theorem failGenerator_wf {frec : DWord} (h : s.memWf) : (failGenerator s k frec).memWf := by
  unfold failGenerator
  dsimp only
  split
  · exact failBlock_wf (endGenerator_wf h)
  · exact endGenerator_wf h

theorem generatorFailure_wf (h : s.memWf) : (generatorFailure s k).memWf := by
  unfold generatorFailure
  dsimp only
  split
  · exact h
  · refine ite_wf h ?_
    split
    · exact failGenerator_wf h
    · exact ite_wf (failGenerator_wf h) h

theorem setTowersLaunches_wf {x : Tbl Tower} {y : Tbl Launch} (h : s.memWf) : State.memWf { s with towers := x, launches := y } := h

theorem dropGenerator_wf (h : s.memWf) : (dropGenerator s lid).memWf := setTowersLaunches_wf (foldl_wf (fun _ _ hu => endGenerator_wf hu) h)

theorem resetBlock_wf (h : s.memWf) : (resetBlock s ctx slot r b).memWf := by
  unfold resetBlock
  dsimp only
  split
  · exact h
  · exact updCtx_wf h
  · exact freeFrame_wf (emptyBlock_wf h)
  · refine failWaiters_wf (freeFrame_wf (discardBlock_wf (updCtx_wf ?_)))
    split
    · exact dropGenerator_wf h
    · exact h

theorem resetBlocks_wf {blk : Option Nat} (h : s.memWf) : (resetBlocks s ctx slot r blk).memWf := by
  cases blk with
  | some b => exact statAdd_wf (resetBlock_wf h)
  | none => exact statAdd_wf (foldl_wf (fun _ _ hu => resetBlock_wf hu) h)

theorem resetFree_wf {blk : Option Nat} (h : s.memWf) : (resetFree s ctx slot blk).memWf :=
  ite_wf (foldl_wf (fun _ _ hu => ite_wf hu (resetBlock_wf hu)) h) h

theorem unitResets_wf {hd : Hdr} {p : State → Nat → Pre} {named : State → Nat → Option (Nat × Option Nat)} (h : s.memWf) :
    (unitResets hd p named s).memWf := by
  refine ite_wf h (foldl_wf (fun u j hu => ?_) h)
  split
  · exact resetFree_wf hu
  · exact hu

theorem afterReset_wf (h : s.memWf) : (afterReset s i).memWf := ite_wf h (updSl_wf h)

theorem releaseRange_wf (h : s.memWf) : (releaseRange s i slot).memWf := by
  unfold releaseRange
  dsimp only
  split
  · exact h
  · exact updCtx_wf (resetBlocks_wf h)

theorem registerRange_wf {v : Nat} (h : s.memWf) : (registerRange s ctx slot v desc).memWf :=
  foldl_wf (fun _ _ hu => statPut_wf hu) (updCtx_wf h)

/-! ### The scheduler -/

theorem readPreds_wf (h : s.memWf) : (readPreds s l).memWf := foldl_wf (fun _ _ hu => readHome_wf hu) h

theorem launchReady_wf (h : s.memWf) : (launchReady s k).memWf := by
  unfold launchReady
  split
  · exact h
  · exact ite_wf h (ite_wf (updLaunch_wf (readPreds_wf h)) (readPreds_wf h))

theorem dealSpan_wf {ix : Nat} (h : s.memWf) : (dealSpan k tw s ix).memWf := updLaunch_wf (updTower_wf h)

theorem towerBlockDraw_wf (h : s.memWf) : (towerBlockDraw s k tw).memWf := by
  unfold towerBlockDraw
  split
  · exact h
  · exact ite_wf (foldl_wf (fun _ _ hu => dealSpan_wf hu) h) h

theorem moveSpan_wf {ix src dst : Nat} (h : s.memWf) : (moveSpan s k ix src dst).memWf := updLaunch_wf h

theorem reserveHead_wf {cs : List Cand} (h : s.memWf) : (reserveHead s tw cs).memWf := by
  cases cs with
  | nil => exact h
  | cons c _ => exact ite_wf h (updTower_wf (moveSpan_wf h))

theorem spanStarted_wf {c : Cand} (h : s.memWf) : (spanStarted s tw c).memWf := by
  unfold spanStarted
  dsimp only
  split
  · exact ite_wf (updTower_wf (updTower_wf (updLaunch_wf h))) (updTower_wf (updLaunch_wf h))
  · exact updTower_wf (updLaunch_wf h)

theorem spanStart_wf (h : s.memWf) : (spanStart s tw).memWf := by
  unfold spanStart
  dsimp only
  refine ite_wf h ?_
  have h1 : (reserveHead s tw (candidates s tw)).memWf := reserveHead_wf h
  generalize reserveHead s tw (candidates s tw) = s1 at h1
  split
  · exact h1
  · exact ite_wf (spanStarted_wf (tryPlace_wf h1)) (tryPlace_wf h1)

theorem stealRequest_wf (h : s.memWf) : (stealRequest s k cl).memWf := by
  unfold stealRequest
  split
  · exact h
  · exact ite_wf (foldl_wf (fun _ _ hu => moveSpan_wf hu) h) h

theorem adjustTowers_wf {pkg : Nat} (h : s.memWf) : (adjustTowers s k pkg).memWf := by
  unfold adjustTowers
  split
  · exact h
  · exact foldl_wf (fun _ _ hu => updTower_wf hu) (updLaunch_wf h)

theorem leaveStop_wf (h : s.memWf) : (leaveStop s ctx).memWf := updCtx_wf (requestStop_wf h)

theorem leaveBoundary_wf {pkgs : List Nat} (h : s.memWf) : (leaveBoundary s k ctx pkgs).memWf :=
  foldl_wf (fun _ _ hu => ite_wf (leaveStop_wf (updPkg_wf hu)) (updPkg_wf hu)) h

theorem stepBoundary_wf (h : s.memWf) : (stepBoundary s k).memWf := by
  unfold stepBoundary
  split
  · exact h
  · refine ite_wf (ite_wf (leaveBoundary_wf (updLaunch_wf h)) ?_) h
    exact foldl_wf (fun _ _ hu => adjustTowers_wf hu) (leaveBoundary_wf (updLaunch_wf h))

theorem crewEnd_wf (h : s.memWf) : (crewEnd s k).memWf := ite_wf (endCrew_wf h) h

theorem finishLaunch_wf {fail : Bool} (h : s.memWf) : (finishLaunch s k l fail).memWf := by
  unfold finishLaunch
  dsimp only
  split
  · exact putHome_wf (setTowers_wf (updTower_wf (updLaunch_wf h)))
  · exact setTowers_wf (updTower_wf (updLaunch_wf h))

theorem launchComplete_wf (h : s.memWf) : (launchComplete s k).memWf := by
  unfold launchComplete
  split
  · exact h
  · exact ite_wf h (ite_wf h (ite_wf (finishLaunch_wf h) (ite_wf (finishLaunch_wf (readPreds_wf h)) (ite_wf (finishLaunch_wf h) h))))

/-! ### Stops -/

theorem stopRequest_wf (h : s.memWf) : (stopRequest s ctx).memWf := ite_wf (requestStop_wf h) h

theorem saveCtx_wf (h : s.memWf) : (saveCtx s ctx).memWf := by
  unfold saveCtx
  dsimp only
  have h1 : ((ctxCrews s ctx).foldl (fun s k => flushMapped s k fun _ => true)
      ({ s with slices := s.slices.map fun e => (e.1, if s.ctxOf e.1 = ctx then stopSlice e.2 else e.2) } : State)).memWf :=
    foldl_wf (fun _ _ hu => flushMapped_wf hu) h
  generalize (ctxCrews s ctx).foldl (fun s k => flushMapped s k fun _ => true) _ = s1 at h1
  have h3 : (strikeFills (((s1.writeBacks.filter fun e => e.2.ctx == ctx && (e.2.crew.map (ctxCrews s ctx).contains).getD false).map
      Prod.fst).foldl arriveWriteBack s1) fun q => q.ctx == ctx && !q.pref).memWf := strikeFills_wf (foldl_wf (fun _ _ hu => arriveWriteBack_wf hu) h1)
  generalize strikeFills _ (fun q => q.ctx == ctx && !q.pref) = s3 at h3
  exact h3

theorem failQueued_wf {root : Nat} (h : s.memWf) : (failQueued root s ctx b).memWf := by
  unfold failQueued
  dsimp only
  split
  · refine failBlock_wf ?_
    split
    · exact dropGenerator_wf h
    · exact h
  · exact h

theorem contextStopped_wf (h : s.memWf) : (contextStopped s ctx).memWf := by
  unfold contextStopped
  dsimp only
  refine ite_wf h ?_
  split
  · exact updCtx_wf (saveCtx_wf h)
  · exact foldl_wf (fun _ _ hu => endCrew_wf hu) (saveCtx_wf (foldl_wf (fun _ _ hu => failQueued_wf hu) h))
  · exact h

theorem discardMapped_wf (h : s.memWf) : (discardMapped s k).memWf := updCrew_wf h

theorem forceReset_wf (h : s.memWf) : (forceReset s ctx).memWf :=
  log_wf (foldl_wf (fun _ _ hu => endCrew_wf hu) (foldl_wf (fun _ _ hu => failQueued_wf hu)
    (foldl_wf (fun _ _ hu => discardMapped_wf hu) (updCtx_wf (stopContext_wf h)))))

theorem migStatus_wf (h : s.memWf) : (migStatus s ctx va).2.memWf := by
  unfold migStatus
  split
  · rename_i page size p _
    refine ite_wf_snd h (ite_wf_snd h (ite_wf_snd h (ite_wf_snd h (ite_wf_snd h ?_))))
    have h1 : (startMigration s ctx page size p).2.memWf := startMigration_wf h
    generalize startMigration s ctx page size p = r at h1
    obtain ⟨o, s1⟩ := r
    cases o with
    | none => exact h1
    | some _ => exact h1
  · exact h

theorem tellScheduler_wf (h : s.memWf) : (tellScheduler s i).memWf := injectUnit_wf h

/-- Both the state in which all is placed, where there is one, and the state otherwise. -/
def bothWf (r : Option State × State) : Prop := (∀ t ∈ r.1, t.memWf) ∧ r.2.memWf

theorem placeScratch_wf {held : List Nat} (h : s.memWf) : bothWf (placeScratch s held k) := by
  have hnone : ∀ {u : State}, u.memWf → bothWf (none, u) := fun hu => ⟨fun _ ht => (Option.not_mem_none _ ht).elim, hu⟩
  unfold placeScratch
  dsimp only
  split
  · exact hnone h
  · split
    · exact hnone h
    · split
      · exact hnone (setWays_wf h)
      · exact ⟨fun _ ht => Option.mem_some.mp ht ▸ h, h⟩

theorem placeAll_wf {ks held : List Nat} (h : s.memWf) : bothWf (placeAll s held ks) := by
  induction ks generalizing s held with
  | nil => exact ⟨fun _ ht => Option.mem_some.mp ht ▸ h, h⟩
  | cons k ks ih =>
    unfold placeAll
    have h1 := placeScratch_wf (k := k) (held := held) h
    generalize placeScratch s held k = r at h1
    obtain ⟨o, s1⟩ := r
    cases o with
    | none => exact ⟨fun _ ht => (Option.not_mem_none _ ht).elim, h1.2⟩
    | some s2 =>
      have h2 := ih (held := k :: held) (h1.1 s2 rfl)
      dsimp only
      generalize placeAll s2 (k :: held) ks = r at h2
      obtain ⟨o, s3⟩ := r
      cases o with
      | none => exact ⟨fun _ ht => (Option.not_mem_none _ ht).elim, h2.2⟩
      | some s4 => exact ⟨fun _ ht => Option.mem_some.mp ht ▸ h2.1 s4 rfl, h2.1 s4 rfl⟩

theorem ctxGo_wf {us : Nat} (h : s.memWf) : bothWf (ctxGo s ctx us) := by
  unfold ctxGo
  split
  · exact ⟨fun _ ht => (Option.not_mem_none _ ht).elim, h⟩
  · have h1 := placeAll_wf (held := []) (ks := ctxSpans s ctx) h
    generalize placeAll s [] (ctxSpans s ctx) = r at h1
    obtain ⟨o, s1⟩ := r
    cases o with
    | none => exact ⟨fun _ ht => (Option.not_mem_none _ ht).elim, h1.2⟩
    | some s2 => exact ⟨fun _ ht => Option.mem_some.mp ht ▸ updCtx_wf (h1.1 s2 rfl), h1.1 s2 rfl⟩

end

end Sys2Proof.Machine
end

section
/-! PROOF. The canonical form of the byte memories through arbitration and fetch, the fabric, the outside world and time. -/

namespace Sys2Proof.Machine

section

variable {s : State} {i k n m va ctx core slot tw pkg link win off : Nat}

/-! ### Arbitration and fetch -/

theorem runArbitration_wf (h : s.memWf) : (runArbitration s core slot).memWf := by
  unfold runArbitration
  refine ite_wf h ?_
  dsimp only
  split
  · exact h
  · exact updCore_wf (foldl_wf (fun _ _ hu => updSl_wf hu) (foldl_wf (fun _ _ hu => updSl_wf hu) h))

theorem markWaits_wf (h : s.memWf) : (markWaits s pkg).memWf := setSlices_wf h

theorem endRun_wf {ids : List Nat} (h : s.memWf) : (endRun s ids).memWf := wf_of_bytes (endRun_bytes s ids) h

theorem trapUnit_wf {ids : List Nat} {ts : List TrapIn} {u : TrapIn} (h : s.memWf) : (trapUnit s ids ts u).memWf :=
  wf_of_bytes (trapUnit_bytes s ids ts u) h

theorem parkBefore_wf {ids : List Nat} {asking : Bool} {p : Pre} (h : s.memWf) : (parkBefore ids asking s i p).memWf :=
  wf_of_bytes (parkBefore_bytes ids asking s i p) h

theorem enterTrap_wf {t : TrapRec} (h : s.memWf) : (enterTrap s i t).memWf := wf_of_bytes (enterTrap_bytes s i t) h

theorem deliverDeferred_wf (h : s.memWf) : (deliverDeferred s i).memWf := by
  unfold deliverDeferred
  dsimp only
  split
  · exact h
  · exact enterTrap_wf (setSlices_wf h)

theorem takeDue_wf (h : s.memWf) : (takeDue s i).memWf := by
  unfold takeDue
  split
  · exact enterTrap_wf (updSl_wf h)
  · exact deliverDeferred_wf h

theorem wakeUnit_wf {ids : List Nat} (h : s.memWf) : (wakeUnit s ids).memWf := foldl_wf (fun _ _ hu => updSl_wf hu) h

theorem holdGrants_wf (h : s.memWf) : (holdGrants s i).memWf := updSl_wf (touchClr_wf h)

theorem fetchTouch_wf {cls pc : Nat} (h : s.memWf) : (fetchTouch s core cls ctx pc).memWf := engRead_wf h

theorem fetchWords_wf {pc : Nat} {fresh : BitVec 3} (h : s.memWf) : (fetchWords s core ctx pc fresh).2.memWf := updCore_wf h

theorem codePoison_wf (h : s.memWf) : (codePoison s i).memWf := ite_wf (updSl_wf h) (log_wf (stopContext_wf (updSl_wf h)))

/-- The state that stands after an issue's first half. -/
def Issue.left : Issue → State
  | .idle t => t
  | .done t => t
  | .run _ t => t

theorem ite_wf_left {a b : Issue} {c : Prop} [Decidable c] (ha : a.left.memWf) (hb : b.left.memWf) : (if c then a else b).left.memWf := by
  split
  · exact ha
  · exact hb

theorem Issue.idle_wf (h : s.memWf) : (Issue.idle s).left.memWf := h

theorem Issue.done_wf (h : s.memWf) : (Issue.done s).left.memWf := h

theorem setCur_wf {ids : List Nat} (h : s.memWf) : State.memWf { s with cur := ids } := h

theorem setCurOs_wf {o : Option Nat} (h : s.memWf) : State.memWf { s with curOs := o } := h

theorem issueAt_wf {fresh : BitVec 3} (h : s.memWf) : (issueAt s core slot fresh).left.memWf := by
  unfold issueAt
  dsimp only
  generalize (slotAt (s.core core) slot).holder = ids
  cases ids with
  | nil => exact h
  | cons i js =>
    dsimp only
    generalize s.ctxOf i = ctx
    refine ite_wf_left (Issue.idle_wf (endRun_wf h)) (ite_wf_left (Issue.idle_wf h) ?_)
    have h1 : (wakeUnit s (i :: js)).memWf := wakeUnit_wf h
    generalize wakeUnit s (i :: js) = s1 at h1
    generalize trapsDue s (i :: js) = due
    cases due with
    | cons d ds => exact Issue.done_wf (endRun_wf (foldl_wf (fun _ _ hu => takeDue_wf hu) h1))
    | nil =>
      dsimp only
      generalize bestTrap _ = best
      cases best with
      | some t => exact Issue.done_wf (trapUnit_wf (updSl_wf h1))
      | none =>
        refine ite_wf_left (Issue.done_wf (endRun_wf (foldl_wf (fun _ _ hu => parkBefore_wf hu) h1))) ?_
        have h2 : ((i :: js).foldl holdGrants s1).memWf := foldl_wf (fun _ _ hu => holdGrants_wf hu) h1
        generalize (i :: js).foldl holdGrants s1 = s2 at h2
        refine ite_wf_left (Issue.done_wf (endRun_wf (codePoison_wf h2))) ?_
        have h3 : (fetchWords (fetchTouch s2 core (crewClass s2 (s2.sl i).crew) ctx (s2.sl i).pc.toNat) core ctx (s2.sl i).pc.toNat fresh).2.memWf :=
          fetchWords_wf (fetchTouch_wf h2)
        generalize fetchWords (fetchTouch s2 core _ ctx _) core ctx _ fresh = f at h3
        cases decodeWord f.1 with
        | ok ins => exact setCur_wf h3
        | reservedInstr => exact Issue.done_wf (trapUnit_wf h3)
        | reservedOperand op => exact Issue.done_wf (trapUnit_wf h3)

/-! ### The fabric -/

theorem setRouters_wf {x : Tbl RouterOut} (h : s.memWf) : State.memWf { s with routers := x } := h

theorem setPackets_wf {x : Tbl Pkt} (h : s.memWf) : State.memWf { s with packets := x } := h

theorem grantOut_wf {key : Nat} {only via : Option Nat} (h : s.memWf) : (grantOut s key tw only via).memWf := by
  unfold grantOut
  refine ite_wf h ?_
  split
  · exact h
  · exact ite_wf h ((advanceHead_traffic _ _ _).wf (ite_wf (setPackets_wf (setRouters_wf h)) ((enqueue_traffic _ _ _ _).wf (setRouters_wf h))))

theorem routerGrant_wf {reply : Bool} {stage router out : Nat} (h : s.memWf) : (routerGrant s reply tw stage router out).memWf :=
  ite_wf (grantOut_wf h) (ite_wf (grantOut_wf h) (ite_wf (grantOut_wf h) h))

theorem ageingSaturate_wf (h : s.memWf) : (ageingSaturate s k).memWf := by
  unfold ageingSaturate
  split
  · exact ite_wf h h
  · exact h

theorem linkForward_wf (h : s.memWf) : (linkForward s k).memWf := by
  unfold linkForward
  split
  · exact h
  · split
    · refine ite_wf h (ite_wf (grantOut_wf h) ?_)
      split
      · exact h
      · exact ite_wf (grantOut_wf h) (updPkg_wf (grantOut_wf h))
    · exact h

theorem replyArrival_wf (h : s.memWf) : (replyArrival s k).memWf := by
  unfold replyArrival
  split
  · exact ite_wf h h
  · exact h

theorem windowAdmit_wf (h : s.memWf) : (windowAdmit s core).memWf := by
  unfold windowAdmit
  split
  · exact updCluster_wf ((letIn_traffic _ _ _).wf h)
  · dsimp only
    split
    · exact updCore_wf ((letIn_traffic _ _ _).wf h)
    · exact h

theorem bothEnds_wf {f : Pkg → Nat → Pkg} (h : s.memWf) : (bothEnds s pkg link f).memWf := by
  unfold bothEnds
  dsimp only
  split
  · exact updPkg_wf (updPkg_wf h)
  · exact updPkg_wf h

/-! ### The host -/

theorem hostDone_wf {write poison : Bool} {v : Nat} (h : s.memWf) : (hostDone s pkg write poison v).memWf := ite_wf h (updPkg_wf h)

theorem hostFails_wf {write : Bool} (h : s.memWf) : (hostFails s pkg ctx va write).memWf := hostDone_wf (log_wf h)

theorem hostPerform_wf {write : Bool} {data : Nat} (h : s.memWf) : (hostPerform s ctx va n write data).memWf :=
  foldl_wf (fun _ _ hu => ite_wf (writeLoc_wf hu) (cacheRead_wf hu)) (foldl_wf (fun _ _ hu => setAD_wf hu) h)

theorem hostAccess_wf {write : Bool} {data : Nat} (h : s.memWf) : (hostAccess s pkg win off n write data).memWf := by
  unfold hostAccess
  split
  · exact h
  · exact ite_wf h (ite_wf (addVacant_wf h) (ite_wf h (ite_wf (hostFails_wf h) (hostDone_wf (hostPerform_wf h)))))

theorem hostDeliver_wf {rs : Tbl VacantReq} (h : s.memWf) : (hostDeliver s rs).memWf := by
  refine foldl_wf (fun u e hu => ?_) h
  split
  · exact hostAccess_wf hu
  · exact hu

/-! ### Stores of firmware -/

theorem dropAliases_wf {line : Nat} (h : s.memWf) : (dropAliases s line).memWf := by
  refine foldl_wf (fun u e hu => ?_) h
  dsimp only
  split
  · exact ite_wf (discardLine_wf hu) hu
  · exact hu

theorem framePut_wf {v : Nat} (h : s.memWf) : (framePut s k v).memWf := dropAliases_wf (physPut_wf h)

theorem timePageUpdate_wf (h : s.memWf) : (timePageUpdate s pkg).memWf := ite_wf h (framePut_wf h)

theorem capWrite_wf (h : s.memWf) : (capWrite s k).memWf := physPut_wf (physPut_wf (physPut_wf (physPut_wf h)))

theorem capUpdate_wf (h : s.memWf) : (capUpdate s).memWf := foldl_wf (fun _ _ hu => framePut_wf hu) h

theorem ksSetup_wf {rec : Nat} {recs : List Nat} (h : s.memWf) : (ksSetup s rec recs).memWf :=
  foldl_wf (fun _ _ hu => wf_mem (fun hm => Mem.wf_writeLE _ _ _ (Mem.wf_foldl (fun _ _ hx => Mem.wf_clear _ _ hx) hm)) hu) h

theorem setCtx_wf {x : Ctx} (h : s.memWf) : (s.setCtx ctx x).memWf := h

theorem contextCreation_wf {root migPool procPool drain rec : Nat} {recs : List Nat} {sys : Bool} {cap : DWord} (h : s.memWf) :
    (contextCreation s ctx root migPool procPool drain rec recs sys cap).memWf := by
  unfold contextCreation
  dsimp only
  have h1 : (ksSetup s rec recs).memWf := ksSetup_wf h
  generalize ksSetup s rec recs = s1 at h1
  split
  · exact capWrite_wf (setCtx_wf h1)
  · exact h

/-! ### Present queues -/

theorem setEq_wf {q : EqQueue} (h : s.memWf) : (setEq s k q).memWf := h

theorem eqTouch_wf {q : EqQueue} (h : s.memWf) : (eqTouch s q).memWf := readHome_wf h

theorem setEquinox_wf {x : Tbl EqQueue} (h : s.memWf) : State.memWf { s with equinox := x } := h

theorem placeQueue_wf {endpoint : Nat} (h : s.memWf) : (placeQueue s pkg ctx endpoint va).memWf :=
  ite_wf (setEquinox_wf (fresh_wf (foldl_wf (fun _ _ hu => putHome_wf hu) (foldl_wf (fun _ _ hu => putHome_wf hu) h)))) h

theorem equinoxCheck_wf (h : s.memWf) : (equinoxCheck s k).memWf := by
  unfold equinoxCheck
  split
  · exact h
  · exact ite_wf h (ite_wf (log_wf (setEq_wf (eqTouch_wf h))) (ite_wf (setEq_wf (eqTouch_wf h)) (setEq_wf (eqTouch_wf h))))

theorem equinoxFrameSend_wf (h : s.memWf) : (equinoxFrameSend s k).memWf := by
  unfold equinoxFrameSend
  split
  · exact h
  · rename_i q _
    dsimp only
    split
    · exact h
    · rename_i frame _
      refine ite_wf h ?_
      have h1 : (eqTouch s q).memWf := eqTouch_wf h
      generalize eqTouch s q = s1 at h1
      generalize (frame && !eqFaults s q.ctx _ _) = shown
      have h2 := setEq_wf (k := k) (q := { q with chosen := some shown, sent := true, sentAt := (s.pkg q.pkg).devTime })
        (foldl_wf (l := eqRows (eqRead s q) (recBits (eqRead s q) 127 64)) (fun u r hu => ite_wf (c := shown = true) (readHome_wf (ctx := q.ctx) (va := r.1) (n := r.2) hu) hu) h1)
      exact ite_wf (log_wf (logHoles_wf (ite_wf (logHoles_wf h2) h2))) (ite_wf (logHoles_wf h2) h2)

theorem equinoxStatusWrite_wf (h : s.memWf) : (equinoxStatusWrite s k).memWf := by
  unfold equinoxStatusWrite
  split
  · exact h
  · split
    · exact h
    · exact ite_wf h (setEq_wf (putHome_wf (ite_wf (putHome_wf h) (putHome_wf (putHome_wf h)))))

/-! ### Packages -/

theorem packageLeave_wf (h : s.memWf) : (packageLeave s pkg).memWf :=
  ite_wf h (ite_wf (updPkg_wf h) (ite_wf (foldl_wf (fun _ _ hu => ite_wf (leaveStop_wf hu) hu) h) (ite_wf (setEquinox_wf (updPkg_wf h)) h)))

theorem packageReplace_wf (h : s.memWf) : (packageReplace s pkg).memWf := by
  unfold packageReplace
  refine ite_wf h (foldl_wf (fun u c hu => ?_) (hostDeliver_wf h))
  have h1 := ctxGo_wf (ctx := c) (us := 0) hu
  generalize ctxGo u c 0 = r at h1
  obtain ⟨o, s1⟩ := r
  cases o with
  | none => exact h1.2
  | some s2 => exact updCtx_wf (h1.1 s2 rfl)

theorem failPart_wf {p : Nat} (h : s.memWf) : (failPart s i k p).memWf := by
  unfold failPart
  split
  · exact h
  · split
    · exact h
    · exact ite_wf h (remoteFail_wf h)

theorem setOsCores_wf {x : Tbl OsCore} (h : s.memWf) : State.memWf { s with osCores := x } := h

theorem failOs_wf {oc : Nat} (h : s.memWf) : (failOs s oc).memWf := by
  unfold failOs
  split
  · exact setOsCores_wf h
  · exact h

theorem failVacant_wf {a : VacantAsk} (h : s.memWf) : (failVacant s a).memWf := by
  cases a with
  | clr k =>
    unfold failVacant
    dsimp only
    split
    · exact setClrReqs_wf h
    · exact h
  | fill k =>
    unfold failVacant
    dsimp only
    split
    · exact ite_wf (setFillReqs_wf h) (answerFill_wf h)
    · exact h
  | res k => exact h
  | part i k p => exact failPart_wf h
  | host pkg win off n write data =>
    unfold failVacant
    dsimp only
    split
    · exact hostFails_wf h
    · exact h
  | os oc => exact failOs_wf h

theorem vacantTimeout_wf (h : s.memWf) : (vacantTimeout s k).memWf := by
  unfold vacantTimeout
  split
  · exact ite_wf (failVacant_wf h) h
  · exact h

theorem packageReset_wf (h : s.memWf) : (packageReset s pkg).memWf := by
  obtain ⟨hm, -⟩ := memWf_iff.mp h
  refine ite_wf (memWf_iff.mpr ⟨hm, rfl, rfl, rfl, rfl⟩) (ite_wf h h)

theorem domainFormation_wf (h : s.memWf) : (domainFormation s n).memWf := ite_wf h h

theorem updReplan_wf {f : RePlan → RePlan} (h : s.memWf) : (updReplan s tw f).memWf := updTower_wf h

theorem memoryError_wf {line : Nat} (h : s.memWf) : (memoryError s line).memWf := ite_wf h h

theorem openWindow_wf {w : Window} (h : s.memWf) : (openWindow s pkg win w).memWf := ite_wf (updPkg_wf h) h

theorem outsideAct_wf {o : Outside} (h : s.memWf) : (outsideAct s o).memWf := by
  cases o with
  | openWindow pkg win host size ctx va wr => exact openWindow_wf h
  | closeWindow pkg win => exact updPkg_wf h
  | placeQueue pkg ctx endpoint va => exact placeQueue_wf h
  | memoryError line => exact memoryError_wf h

/-! ### Time -/

theorem queriesArrive_wf (h : s.memWf) : (queriesArrive s pkg).memWf := setSlices_wf h

theorem advanceTime_wf (h : s.memWf) : (advanceTime s pkg n).memWf := updPkg_wf h

theorem markBusy_wf (h : s.memWf) : (markBusy s pkg).memWf := foldl_wf (fun _ _ hu => updReplan_wf hu) h

theorem tick_wf (h : s.memWf) : (tick s pkg n).memWf :=
  ite_wf (ite_wf (markWaits_wf h) (markBusy_wf (advanceTime_wf (queriesArrive_wf (markWaits_wf h))))) h

end

end Sys2Proof.Machine
end

section
/-! PROOF. Settles O5: every step keeps the byte memories in canonical form. What an issuing unit does to its slices, then each event, then the
moves of the schedule. -/

namespace Sys2Proof.Machine

section

variable {s t pre : State} {h : Hdr} {m : MemOp} {a b c d : Opnd}

/-! ### Meanings that put accesses under way or act on memory -/

theorem storeMeaning_wf {n : Nat} {rs : List (Opnd × Nat)} {vec align : Bool} {kind : AccKind} {result : Option (Opnd × Nat)}
    {new : Crew → Slice → Nat → Nat} (hs : runUnit h (storeMeaning h m d n rs vec align kind result new) s = .next t) (hw : s.memWf) : t.memWf :=
  runUnit_wf hs hw fun _ _ _ _ hu => ite_wf (updSl_wf (startAcc_wf (useClr_wf hu))) (startAcc_wf (useClr_wf hu))

theorem execLd_wf {sz : LdSize} (hs : execLd h m sz d s = .next t) (hw : s.memWf) : t.memWf :=
  runUnit_wf hs hw fun _ _ _ _ hu => ite_wf (updSl_wf (finishKept_wf (startAcc_wf (useClr_wf hu)))) (finishKept_wf (startAcc_wf (useClr_wf hu)))

theorem execLdl_wf {sp : LclSpace} {sz : LclSize} {sgn : Bool} (hs : execLdl h m sp sz sgn d s = .next t) (hw : s.memWf) : t.memWf := by
  refine runUnit_wf hs hw fun pre u i _ hu => ?_
  have h0 : (if sp = .span then (accsFor h (memVec d m) m (lclBytes sz) pre i).foldl
      (fun v a => touchScratch v (v.crewOf i).span a.va (lclBytes sz)) u else u).memWf := ite_wf (foldl_wf (fun _ _ hv => touchScratch_wf hv) hu) hu
  exact ite_wf (updSl_wf (finishKept_wf (startAcc_wf (useClr_wf h0)))) (finishKept_wf (startAcc_wf (useClr_wf h0)))

theorem execStl_wf {sp : LclSpace} {sz : LclSize} (hs : execStl h m sp sz d s = .next t) (hw : s.memWf) : t.memWf :=
  runUnit_wf hs hw fun _ _ _ _ hu => startAcc_wf (useClr_wf (foldl_wf (fun _ _ hv => lclWrite_wf hv) hu))

theorem prefMeaning_wf {l2 : Bool} {p : State → Nat → BitVec 4 → Pre}
    (hs : runUnit h (addrMeaning h m p fun s i vs => vs.foldl (fun s va => prefOne l2 h.ch s i va) s) s = .next t) (hw : s.memWf) : t.memWf :=
  runUnit_wf hs hw fun _ _ _ _ hu => foldl_wf (fun _ _ hv => prefOne_wf hv) hu

theorem setResReqs_wf {x : Tbl (Nat × Nat × Nat)} (hw : s.memWf) : State.memWf { s with resReqs := x } := hw

theorem execPreq_wf (hs : execPreq h m s = .next t) (hw : s.memWf) : t.memWf :=
  runUnit_wf hs hw fun _ _ _ _ hu => foldl_wf (fun _ _ hv => ite_wf (injectUnit_wf (setResReqs_wf (fresh_wf hv))) hv) hu

theorem cctl_wf {evict : Bool} (hs : cctl h m evict s = .next t) (hw : s.memWf) : t.memWf :=
  runUnit_wf hs hw fun _ _ _ _ hu => updSl_wf <| foldl_wf_fst (fun _ _ hr =>
    ite_wf_fst (α := List Nat) (ite_wf (invalLine_wf (cleanLine_wf hr)) (cleanLine_wf hr)) hr) hu

theorem execTex_wf {e : Opnd} (hs : execTex h d a b c e s = .next t) (hw : s.memWf) : t.memWf := runUnit_wf hs hw fun _ _ _ _ hu => texAct_wf hu

theorem execTld_wf (hs : execTld h d a b s = .next t) (hw : s.memWf) : t.memWf := runUnit_wf hs hw fun _ _ _ _ hu => texAct_wf hu

theorem execTqry_wf (hs : execTqry h d a s = .next t) (hw : s.memWf) : t.memWf := runUnit_wf hs hw fun _ _ _ _ hu => texAct_wf hu

theorem execWaitmem_wf {cond : WCond} {ty : Ty} (hs : execWaitmem h m cond ty d s = .next t) (hw : s.memWf) : t.memWf :=
  runUnit_wf hs (waitmemReads_wf hw) fun _ _ _ _ hu =>
    ite_wf (deferTrap_wf (updSl_wf (cacheRead_wf (injectRead_wf (useClr_wf hu))))) (updSl_wf (cacheRead_wf (injectRead_wf (useClr_wf hu))))

/-! ### Meanings that act on tiles, chains and queues -/

theorem ringSet_wf {ring : Nat} {full : Bool} (hs : ringSet h ring full a s = .next t) (hw : s.memWf) : t.memWf :=
  runUnit_wf hs hw fun _ _ _ _ hu => updSl_wf (updRing_wf hu)

theorem execTown_wf {span : Bool} {own : Owner} (hs : execTown h span own a b s = .next t) (hw : s.memWf) : t.memWf :=
  runUnit_wf hs hw fun _ _ _ _ hu => updSl_wf (foldl_wf (fun _ _ hv => townTile_wf hv) hu)

theorem execStmap_wf (hs : execStmap h a b c s = .next t) (hw : s.memWf) : t.memWf :=
  runUnit_wf hs hw fun _ _ _ _ hu => updSl_wf (stmapDo_wf hu)

theorem execStunmap_wf (hs : execStunmap h a s = .next t) (hw : s.memWf) : t.memWf :=
  runUnit_wf hs hw fun _ _ _ _ hu => updSl_wf (stunmapDo_wf hu)

theorem execStwb_wf (hs : execStwb h a s = .next t) (hw : s.memWf) : t.memWf := by
  refine runUnit_wf hs hw fun pre u i _ hu => ?_
  unfold onceMeaning
  dsimp only
  split
  · exact updSl_wf (flushMapped_wf hu)
  · exact hu

theorem execStinv_wf (hs : execStinv h a s = .next t) (hw : s.memWf) : t.memWf := by
  refine runUnit_wf hs hw fun pre u i _ hu => ?_
  unfold onceMeaning
  dsimp only
  split
  · exact foldl_wf (fun _ _ hv => setTag_wf hv) hu
  · exact hu

theorem execTrst_wf {ch : Nat} (hs : execTrst h ch a b s = .next t) (hw : s.memWf) : t.memWf := runUnit_wf hs hw fun _ _ _ _ hu => updChain_wf hu

theorem execTrstq_wf {ch : Nat} (hs : execTrstq h ch d s = .next t) (hw : s.memWf) : t.memWf := runUnit_wf hs hw fun _ _ _ _ hu => sendQuery_wf hu

theorem execTrstk_wf {ch : Nat} (hs : execTrstk h ch s = .next t) (hw : s.memWf) : t.memWf :=
  runUnit_wf hs hw fun _ _ _ _ hu => updSl_wf (chainKill_wf hu)

theorem execMcgrp_wf (hs : execMcgrp h d a b s = .next t) (hw : s.memWf) : t.memWf := runUnit_wf hs hw fun _ _ _ _ hu => updSl_wf (updGroup_wf hu)

theorem mloop_wf {sp : Bool} (hs : mloop h sp a b s = .next t) (hw : s.memWf) : t.memWf := runUnit_wf hs hw fun _ _ _ _ hu => mloopQueue_wf hu

theorem maclr_wf {n : Nat} {xe : State → Nat → Int} (hs : maclr h a n xe s = .next t) (hw : s.memWf) : t.memWf :=
  runUnit_wf hs hw fun _ _ _ _ hu =>
    updSl_wf (foldl_wf (fun _ _ hv => setStag_wf hv) (wf_scratch (fun _ => Mem.wf_clear _ _ (scratch_wf hu)) (touchScratch_wf hu)))

theorem execMard_wf {bf : Bool} (hs : execMard h bf a b s = .next t) (hw : s.memWf) : t.memWf :=
  runUnit_wf hs hw fun _ _ _ _ hu => ite_wf (updSl_wf (partyUse_wf hu)) (updSl_wf (mardRun_wf (partyUse_wf hu)))

theorem execMstat_wf {clr : Bool} (hs : execMstat h clr d s = .next t) (hw : s.memWf) : t.memWf :=
  runUnit_wf hs hw fun _ _ _ _ hu => ite_wf (updCrew_wf (addLands_wf hu)) (addLands_wf hu)

theorem dkIssue_wf {ins : Instr} {val : State → Nat → Pre} {sc : State → Nat → List DWord} {result : Bool} {depth : Nat → Nat}
    (hs : dkIssue h ins val sc result depth s = .next t) (hw : s.memWf) : t.memWf := runUnit_wf hs hw fun _ _ _ _ hu => dkQueue_wf hu

theorem execDkexp_wf {d : Nat} (hs : execDkexp h d a b s = .next t) (hw : s.memWf) : t.memWf := runUnit_wf hs hw fun _ _ _ _ hu => dkQueue_wf hu

theorem execDktex_wf {d a : Nat} {b : CellOp} {e : Opnd} (hs : execDktex h d a b c e s = .next t) (hw : s.memWf) : t.memWf :=
  runUnit_wf hs hw fun _ _ _ _ hu => updSl_wf (dktexRun_wf hu)

theorem execDkxp_wf {a : CellOp} {e : Opnd} (hs : execDkxp h d a b c e s = .next t) (hw : s.memWf) : t.memWf :=
  runUnit_wf hs hw fun _ _ _ _ hu => dkQueue_wf (partyUse_wf hu)

/-! ### Meanings that act on blocks, launches, contexts and pages -/

theorem execPgreg_wf (hs : execPgreg h a b s = .next t) (hw : s.memWf) : t.memWf :=
  runUnit_wf hs (unitResets_wf hw) fun _ _ _ _ hu =>
    ite_wf (afterReset_wf (releaseRange_wf hu)) (ite_wf (updSl_wf (registerRange_wf (sliceReads_wf hu))) (updSl_wf hu))

theorem execPgregRelease_wf (hs : execPgregRelease h a s = .next t) (hw : s.memWf) : t.memWf :=
  runUnit_wf hs (unitResets_wf hw) fun _ _ _ _ hu => afterReset_wf (releaseRange_wf hu)

theorem execPgdone_wf (hs : execPgdone h s = .next t) (hw : s.memWf) : t.memWf := runUnit_wf hs hw fun _ _ _ _ hu => updSl_wf (injectControl_wf hu)

theorem execPgfail_wf (hs : execPgfail h a s = .next t) (hw : s.memWf) : t.memWf := by
  refine runUnit_wf hs hw fun pre u i _ hu => ?_
  unfold onceMeaning
  dsimp only
  split
  · exact failGenerator_wf hu
  · exact hu

theorem execPgrstBlk_wf (hs : execPgrstBlk h a s = .next t) (hw : s.memWf) : t.memWf := by
  refine runUnit_wf hs hw fun pre u i _ hu => ?_
  unfold onceMeaning
  dsimp only
  split
  · exact updSl_wf hu
  · exact afterReset_wf (resetBlocks_wf hu)

theorem execPgrstSlot_wf (hs : execPgrstSlot h a s = .next t) (hw : s.memWf) : t.memWf := by
  refine runUnit_wf hs (unitResets_wf hw) fun pre u i _ hu => ?_
  unfold onceMeaning
  dsimp only
  split
  · exact updSl_wf hu
  · exact afterReset_wf (resetBlocks_wf hu)

theorem execLaunch_wf (hs : execLaunch h d a s = .next t) (hw : s.memWf) : t.memWf :=
  runUnit_wf hs (launchReads_wf hw) fun _ _ _ _ hu =>
    ite_wf (updSl_wf (acceptLaunch_wf (injectUnit_wf (foldl_wf (fun _ _ hv => poisonMet_wf hv) (sliceReads_wf hu))))) (updSl_wf hu)

theorem execLwait_wf (hs : execLwait h d a s = .next t) (hw : s.memWf) : t.memWf :=
  runUnit_wf hs (lwaitReads_wf hw) fun _ _ _ _ hu => poisonMet_wf (updSl_wf (sliceReads_wf hu))

theorem execMigr_wf (hs : execMigr h d a s = .next t) (hw : s.memWf) : t.memWf := runUnit_wf hs hw fun _ _ _ _ hu => updSl_wf (migStatus_wf hu)

theorem execShootDg_wf (hs : execShootDg h a b c s = .next t) (hw : s.memWf) : t.memWf := by
  refine runUnit_wf hs hw fun pre u i _ hu => ?_
  unfold onceMeaning
  dsimp only
  split
  · split
    · exact updSl_wf (fresh_wf hu)
    · exact updSl_wf (startDowngrade_wf hu)
  · exact updSl_wf hu

theorem execShootFlush_wf (hs : execShootFlush h a s = .next t) (hw : s.memWf) : t.memWf :=
  runUnit_wf hs hw fun _ _ _ _ hu => updSl_wf (startDowngrade_wf hu)

theorem execHalt_wf (hs : execHalt h d s = .next t) (hw : s.memWf) : t.memWf := by
  refine runUnit_wf hs hw fun pre u i _ hu => ?_
  unfold onceMeaning
  dsimp only
  split
  · exact updSl_wf (updCore_wf hu)
  · exact updSl_wf hu

theorem execCtxstopKill_wf (hs : execCtxstopKill h d a s = .next t) (hw : s.memWf) : t.memWf :=
  runUnit_wf hs hw fun _ _ _ _ hu => updSl_wf (tellScheduler_wf (ite_wf (forceReset_wf hu) hu))

theorem execCtxgo_wf (hs : execCtxgo h a b s = .next t) (hw : s.memWf) : t.memWf := by
  refine runUnit_wf hs hw fun pre u i _ hu => ?_
  unfold onceMeaning
  dsimp only
  refine ite_wf ?_ (updSl_wf (tellScheduler_wf hu))
  have h1 := ctxGo_wf (ctx := rs64 pre i h a) (us := rs32 pre i h b) hu
  generalize ctxGo u (rs64 pre i h a) (rs32 pre i h b) = r at h1
  obtain ⟨o, s1⟩ := r
  cases o with
  | none => exact updSl_wf h1.2
  | some s2 => exact updSl_wf (tellScheduler_wf (h1.1 s2 rfl))

theorem execWriteL2wp_wf {ty : Ty} (hs : execWriteL2wp h ty a s = .next t) (hw : s.memWf) : t.memWf :=
  runUnit_wf hs hw fun _ _ _ _ hu => ite_wf (updSl_wf hu) (updSl_wf (setWays_wf hu))

theorem execFyLaunch_wf {r r1 r2 : Nat} (hs : execFyLaunch r r1 r2 s = .next t) (hw : s.memWf) : t.memWf := by
  unfold execFyLaunch at hs
  split at hs
  · cases hs
  · rename_i oc _
    have h1 : (osLaunch s oc ((osOf s oc).reg r1).toNat ((osOf s oc).reg r2)).2.memWf := osLaunch_wf hw
    dsimp only at hs
    generalize osLaunch s oc _ _ = q at h1 hs
    obtain ⟨o, s1⟩ := q
    cases o with
    | none => cases hs; exact h1
    | some v => cases hs; exact h1

theorem execImad_wf {acc : Bool} {ty : Ty} (hs : execImad h acc ty d a b c s = .next t) (hw : s.memWf) : t.memWf := by
  unfold execImad at hs
  split at hs
  · exact runUnit_wf hs hw fun _ _ _ _ hu => hu
  · exact runUnit_wf hs hw fun _ _ _ _ hu => hu

theorem sfuOp_wf {f : Nat → Fl Nat} (hs : sfuOp h d a f s = .next t) (hw : s.memWf) : t.memWf := wf_of_bytes (sfuOp_bytes hs) hw

theorem Gangs.wf {i : Instr} {f : GangForm} (hf : Gangs i f) (hs : exec i s = .next t) (hw : s.memWf) : t.memWf := wf_of_bytes (hf.bytes hs) hw

theorem vote_wf {op : VoteOp} {p : PredOp} (hs : exec (.vote h op p) s = .next t) (hw : s.memWf) : t.memWf := by
  cases op with
  | any pd => exact (Gangs.any h pd p).wf hs hw
  | all pd => exact (Gangs.all h pd p).wf hs hw
  | eq pd => exact (Gangs.eq h pd p).wf hs hw
  | mask d => exact (Gangs.mask h d p).wf hs hw

/-! ### Events -/

theorem next_wf {u : State} (hs : (Host.Outcome.next u : Out) = .next t) (hu : u.memWf) : t.memWf := by
  cases hs
  exact hu

theorem sleepExpire_wf {sl : Nat} (hs : execSleepExpire sl s = .next t) (hw : s.memWf) : t.memWf := by
  refine next_wf hs ?_
  split
  · exact ite_wf (updSl_wf hw) hw
  · exact hw

end

section

variable {s t : State}

/-- Every instruction and every event keeps the form. -/
theorem exec_wf {i : Instr} (hs : exec i s = .next t) (hw : s.memWf) : t.memWf := by
  cases i
  case nop | bra | braUni | brx | call | callx | ret | brace | meet | exit | regang | yield | sleep | trap | bpt | rteRetry | rteResume |
      step | iadd | isub | imul | imulh | imin | imax | iabs | iadd3 | iaddc | icmp | isel | lea | isad | idot4 | and | or | xor | mix3 |
      shl | shr | sar | rot | fshf | bfx | bfi | popc | clz | brev | bsel | ffs | fadd | fsub | fmul | ffma | fmin | fmax | fcmp | fclass |
      frnd | fdp2 | fscale | fsgn | fcvt | i2f | f2i | cvtn | cvtw | spcomp | spexp | mov | movi | movih | rdsr | wrsr | pmix | psave |
      pload | flgrd | flgclr | v2s | lead | cctlIinv | fenceDrain | fenceOrdered | bar | arrive | await | rinit | rget | twait | cwait |
      ddvar | ddapp | ddite | ddnot | ddres | ddqnt | ddcnt | ddexp | ddref | ddunref | ddswp | ddord | ddstat | ddnode | ctxstopPre |
      writeFlags | writeDkflags | writeTrapRegister => exact runUnit_wf hs hw fun _ _ _ _ hu => hu
  case imad => exact execImad_wf hs hw
  case rcp | rsq | sqrt | exp2 | log2 | sin | cos | tanh => exact sfuOp_wf hs hw
  case lxch => exact (Gangs.lxch ..).wf hs hw
  case vote => exact vote_wf hs hw
  case redux => exact (Gangs.redux ..).wf hs hw
  case scan => exact (Gangs.scan ..).wf hs hw
  case matchLanes => exact (Gangs.matchLanes ..).wf hs hw
  case ld => exact execLd_wf hs hw
  case st | atom | red | cas | nmred => exact storeMeaning_wf hs hw
  case ldl => exact execLdl_wf hs hw
  case stl => exact execStl_wf hs hw
  case prefL2 | prefLlc => exact prefMeaning_wf hs hw
  case preq => exact execPreq_wf hs hw
  case tex => exact execTex_wf hs hw
  case tld => exact execTld_wf hs hw
  case tqry => exact execTqry_wf hs hw
  case cctlWb | cctlEvict => exact cctl_wf hs hw
  case rpost | rrel => exact ringSet_wf hs hw
  case town => exact execTown_wf hs hw
  case waitmem => exact execWaitmem_wf hs hw
  case stmap => exact execStmap_wf hs hw
  case stunmap => exact execStunmap_wf hs hw
  case stwb => exact execStwb_wf hs hw
  case stinv => exact execStinv_wf hs hw
  case trst => exact execTrst_wf hs hw
  case trstq => exact execTrstq_wf hs hw
  case trstk => exact execTrstk_wf hs hw
  case mcgrp => exact execMcgrp_wf hs hw
  case mloop | mloopSp => exact mloop_wf hs hw
  case maclrFast | maclrExact => exact maclr_wf hs hw
  case mard => exact execMard_wf hs hw
  case mstat => exact execMstat_wf hs hw
  case dkwin | dklin | dkedge | dkquad | dkpush | dkpop | dkelse | dkop | dkmov | dkld | dkst | dkany | dksum | dktest | dkflg =>
    exact dkIssue_wf hs hw
  case dkexp => exact execDkexp_wf hs hw
  case dktex => exact execDktex_wf hs hw
  case dkxp => exact execDkxp_wf hs hw
  case pgreg => exact execPgreg_wf hs hw
  case pgregRelease => exact execPgregRelease_wf hs hw
  case pgdone => exact execPgdone_wf hs hw
  case pgfail => exact execPgfail_wf hs hw
  case pgrstBlk => exact execPgrstBlk_wf hs hw
  case pgrstSlot => exact execPgrstSlot_wf hs hw
  case launch => exact execLaunch_wf hs hw
  case lwait => exact execLwait_wf hs hw
  case migr => exact execMigr_wf hs hw
  case shootDg => exact execShootDg_wf hs hw
  case shootFlush => exact execShootFlush_wf hs hw
  case halt => exact execHalt_wf hs hw
  case ctxstopKill => exact execCtxstopKill_wf hs hw
  case ctxgo => exact execCtxgo_wf hs hw
  case fyLaunch => exact execFyLaunch_wf hs hw
  case writeTrapvec | writeFormatRegister | writeTensorScale => exact runUnit_wf hs hw fun _ _ _ _ hu => ctxRegWrite_wf hu
  case writeL2wp => exact execWriteL2wp_wf hs hw
  case contextRegisterPropagated => exact next_wf hs (ctxRegDone_wf hw)
  case l2wpRaiseDone => exact next_wf hs (l2wpRaiseDone_wf hw)
  case resultWriteback => exact next_wf hs (resultWriteback_wf hw)
  case runArbitration => exact next_wf hs (runArbitration_wf hw)
  case unitWaitRaised => exact next_wf hs (ite_wf (updSl_wf hw) hw)
  case runLengthCut => exact next_wf hs (ite_wf (updCore_wf hw) hw)
  case sleepExpire => exact sleepExpire_wf hs hw
  case wakeWord | windowRaise => exact next_wf hs (updCore_wf hw)
  case homeReadRequest | homeStoreRequest | nearMemoryReduction => exact next_wf hs (pieceEvent_wf hw)
  case writebackArrival => exact next_wf hs (arriveWriteBack_wf hw)
  case bankSleep => exact next_wf hs (ite_wf hw hw)
  case migrationStart => exact next_wf hs (migrationStart_wf hw)
  case migrationMarkDrained => exact next_wf hs (migrationMarkDrained_wf hw)
  case migrationLineCopy => exact next_wf hs (migrationLineCopy_wf hw)
  case migrationAccess => exact next_wf hs (setMigs_wf hw)
  case migrationPullDone => exact next_wf hs (migrationPullDone_wf hw)
  case clearanceRequest => exact next_wf hs (clearanceRequest_wf hw)
  case pageWalkDone => exact next_wf hs (pageWalkDone_wf hw)
  case clearanceAnswer => exact next_wf hs (clearanceAnswer_wf hw)
  case residencyRequest => exact next_wf hs (residencyRequest_wf hw)
  case shootdownMessage => exact next_wf hs (shootdownMessage_wf hw)
  case shootdownAnswer => exact next_wf hs (shootdownAnswer_wf hw)
  case downgradeClose => exact next_wf hs (downgradeClose_wf hw)
  case procBlockRead => exact next_wf hs (procBlockRead_wf hw)
  case procPrefEvent => exact next_wf hs (procPref_wf hw)
  case generatorLaunch => exact next_wf hs (generatorLaunch_wf hw)
  case fillDoneAtHome => exact next_wf hs (fillDone_wf hw)
  case generatorFailure => exact next_wf hs (generatorFailure_wf hw)
  case procRetryReissue => exact next_wf hs (procRetry_wf hw)
  case routerGrant => exact next_wf hs (routerGrant_wf hw)
  case ageingSaturate => exact next_wf hs (ageingSaturate_wf hw)
  case replyArrival => exact next_wf hs (replyArrival_wf hw)
  case windowAdmit => exact next_wf hs (windowAdmit_wf hw)
  case towerLinkForward => exact next_wf hs (linkForward_wf hw)
  case accMerge => exact next_wf hs (accMerge_wf hw)
  case mcastRequest => exact next_wf hs (mcArrive_wf hw)
  case mcastSetLeave => exact next_wf hs (mcLeave_wf hw)
  case mcastGroupDrained => exact next_wf hs (groupDrained_wf hw)
  case remoteStashAccess => exact next_wf hs (remoteAccess_wf hw)
  case trestleEntryFetch => exact next_wf hs (entryFetch_wf hw)
  case trestleCopy | trestleGather | trestleScatter | trestleReduceMemory | trestleVxfer | trestleFill => exact next_wf hs (pieceOf_wf hw)
  case trestleMcast => exact next_wf hs (ite_wf (mcastSend_wf hw) hw)
  case trestleReduceCollective => exact next_wf hs (collectiveSend_wf hw)
  case collectiveContribution => exact next_wf hs (collArrive_wf hw)
  case trestleFlip => exact next_wf hs (trestleFlip_wf hw)
  case trestlePost => exact next_wf hs (trestlePost_wf hw)
  case trestleWaitRing | trestleWaitCounter => exact next_wf hs (trestleWait_wf hw)
  case trestleWaitSatisfied => exact next_wf hs (waitSatisfied_wf hw)
  case trestleLoop => exact next_wf hs (trestleLoop_wf hw)
  case trestleIfWord => exact next_wf hs (trestleIfWord_wf hw)
  case trestleIfRing => exact next_wf hs (trestleIfRing_wf hw)
  case trestleEnd => exact next_wf hs (trestleEnd_wf hw)
  case trestleEntryComplete => exact next_wf hs (entryComplete_wf hw)
  case girderLoopStart => exact next_wf hs (girderStart_wf hw)
  case mloopComplete => exact next_wf hs (mloopComplete_wf hw)
  case deckStart => exact next_wf hs (deckStart_wf hw)
  case keystoneAnswer => exact next_wf hs (keystoneAnswer_wf hw)
  case launchReady => exact next_wf hs (launchReady_wf hw)
  case towerBlockDraw => exact next_wf hs (towerBlockDraw_wf hw)
  case spanStart => exact next_wf hs (spanStart_wf hw)
  case crewStart => exact next_wf hs (crewStart_wf hw)
  case stealRequest => exact next_wf hs (stealRequest_wf hw)
  case stepBoundary => exact next_wf hs (stepBoundary_wf hw)
  case crewEnd => exact next_wf hs (crewEnd_wf hw)
  case launchComplete => exact next_wf hs (launchComplete_wf hw)
  case stopRequest => exact next_wf hs (stopRequest_wf hw)
  case contextStopped => exact next_wf hs (contextStopped_wf hw)
  case forceReset => exact next_wf hs (ite_wf (forceReset_wf hw) hw)
  case hostWindowAccess => exact next_wf hs (hostAccess_wf hw)
  case linkFailure | linkRetrained => exact next_wf hs (bothEnds_wf hw)
  case ptpMessage => exact next_wf hs (ite_wf (updPkg_wf hw) hw)
  case timePageUpdate => exact next_wf hs (timePageUpdate_wf hw)
  case equinoxCheck => exact next_wf hs (equinoxCheck_wf hw)
  case equinoxFrameSend => exact next_wf hs (equinoxFrameSend_wf hw)
  case equinoxStatusWrite => exact next_wf hs (equinoxStatusWrite_wf hw)
  case packageLeave => exact next_wf hs (packageLeave_wf hw)
  case packageReplace => exact next_wf hs (packageReplace_wf hw)
  case vacantIndexTimeout => exact next_wf hs (vacantTimeout_wf hw)
  case packageReset => exact next_wf hs (packageReset_wf hw)
  case trainingComplete | powerCapStep => exact next_wf hs (ite_wf (capUpdate_wf (updPkg_wf hw)) hw)
  case replanDue | replanStarved | replanStart | replanDone => exact next_wf hs (ite_wf (updReplan_wf hw) hw)
  case contextCreation => exact next_wf hs (contextCreation_wf hw)
  case osCorePteStore => exact next_wf hs (ite_wf (physPut_wf hw) hw)
  case residencyQueueDrain => exact next_wf hs (updTower_wf hw)
  case forceUnmap => exact next_wf hs (tlbDrop_wf (updLeaves_wf hw))
  case managementFlush => exact next_wf hs (cleanLlc_wf hw)
  case domainFormation => exact next_wf hs (domainFormation_wf hw)
  -- The one constructor left is the recall, whose name is a keyword of Mathlib.
  exact next_wf hs (recallCopy_wf hw)

/-! ### Steps -/

theorem nextMove_wf (hw : s.memWf) : (nextMove s).2.memWf := by
  unfold nextMove
  split
  · exact hw
  · exact hw

theorem osStep_wf {oc : Nat} (hs : osStep s oc = .next t) (hw : s.memWf) : t.memWf := by
  unfold osStep at hs
  split at hs
  · split at hs
    · exact exec_wf hs (setCurOs_wf hw)
    · cases hs
  · exact next_wf hs hw

theorem stepMove_wf {m : Move} (hs : stepMove s m = .next t) (hw : s.memWf) : t.memWf := by
  cases m with
  | issue core slot fresh =>
    have h1 : (issueAt s core slot fresh).left.memWf := issueAt_wf hw
    unfold stepMove at hs
    dsimp only at hs
    generalize issueAt s core slot fresh = r at h1 hs
    cases r with
    | idle u => exact next_wf hs h1
    | done u => exact next_wf hs h1
    | run i u => exact exec_wf hs h1
  | os oc => exact osStep_wf hs hw
  | event i =>
    unfold stepMove at hs
    dsimp only at hs
    split at hs
    · exact exec_wf hs hw
    · exact next_wf hs hw
  | outside o => exact next_wf hs (outsideAct_wf hw)
  | tick pkg n => exact next_wf hs (tick_wf hw)

end

/-- Settles O5: a move stores through the writes, clears and filters of a byte memory alone, each of which keeps its form. -/
theorem stepKeepsMemWf : Obligations.StepKeepsMemWf := by
  unfold Obligations.StepKeepsMemWf
  intro s t hw hs
  exact stepMove_wf hs (nextMove_wf hw)

end Sys2Proof.Machine
end
